-- ==== Sys2Proof/Word.lean ====
section
/-! DEFINITION. The word types of the XT-80 model: bytes, 32-bit and 64-bit words, the 32-byte blocks
that travel on links and the 64-byte lines that memory, descriptors and posts are made of
(00_scope R12 to R14). A field that the spec gives as bits is a bit vector; everything else is not. -/

namespace Sys2Proof

/-- One byte. -/
abbrev Byte := BitVec 8
/-- A 16-bit word: coordinates and unit codes (R52). -/
abbrev W16 := BitVec 16
/-- A 32-bit word: registers, FP32 bit patterns. -/
abbrev W32 := BitVec 32
/-- A 64-bit word: time values, program words, core counters. -/
abbrev W64 := BitVec 64
/-- A 32-byte block: a sync block (R324), a flit header (R320), a SHA-256 value. -/
abbrev Block := BitVec 256
/-- A 64-byte line: a descriptor (R402), a post (R330), a check request (R346), a memory line. -/
abbrev Line := BitVec 512

/-- A 32-bit word together with its poison state (R366, R367). -/
abbrev PWord := W32 × Bool

end Sys2Proof
end

