-- ==== Sys2Proof/Syntax.lean ====
section
/-! DEFINITION. The commands of the block: one constructor of `Instr` for each row of
spec/opcode_table.json, in the table's order. The table gives its rows no bits (its "fields" are
empty), so the operands are those the rules of the row name: which unit, what arrives on a wire, what
a sensor reads, what the host returns. -/

namespace Sys2Proof

/-- Index of a core site, 288 × die + 16 × row + col (R75). -/
abbrev CoreIx := Fin 1152
/-- Link number, 6 × die + port (R75). -/
abbrev LinkIx := Fin 24
/-- Sync group number (R19). -/
abbrev GroupIx := Fin 64
/-- Ring number (15_host, "Rings"). -/
abbrev RingIx := Fin 64
/-- Die number (R8). -/
abbrev DieIx := Fin 4
/-- Memory entry number: 0 to 7 HBM4 stacks, 8 to 19 DDR5 channels (R75). -/
abbrev DevIx := Fin 20

/-- The three instruction streams of a sequencer, numbered 0 F, 1 B, 2 U (R264, R271). -/
inductive StreamId where
  | fwd | bwd | upd
deriving DecidableEq, Repr

/-- The units that GATE names (R284). -/
inductive UnitId where
  | array | merge | vec | row
deriving DecidableEq, Repr

/-- What the host answers to one request made on CXL.io: a read of one line, or a write, for which `line` means that it
was accepted (R389). (DESIGN CHOICE, log 14) -/
inductive HostReply where
  /-- The line, and its EP bit: the words are delivered poisoned. -/
  | line (data : Line) (ep : Bool)
  /-- Unsupported Request, Completer Abort or no completion within 10 ms. -/
  | abort
deriving DecidableEq, Repr

/-- The device's requester that a failed host request belongs to (R389). -/
inductive HostReq where
  /-- The access unit's running operation of a core. -/
  | access (c : CoreIx)
  /-- The merge engine's running operation of a core. -/
  | merge (c : CoreIx)
  /-- The taken descriptor of a ring at a submission slot. -/
  | desc (r : RingIx) (slot : W16)
deriving DecidableEq, Repr

/-- The traffic of an array operation's rows: before each row named, the cycles in which the feeder's buffer lacks it from
when it is the next row (R97). (DESIGN CHOICE, log 7) -/
structure Stall where
  dry : List (Nat × Nat)
deriving DecidableEq, Repr

/-- What the start-up test or a fuse map finds of one core site (R62, R64, R78). -/
structure SiteDefect where
  core : CoreIx
  blocks : W16
  cols : List Nat
deriving DecidableEq, Repr

/-- Findings of a start-up test (R62 to R64, R78, R79): core sites, bridges by their bit in BRIDGE_OK, link lanes as (link,
lane), link ports, and memory devices by entry number of R75. A device number from 20 up names the Module Controller, the
boot path or D0's CXL controller (R442). -/
structure Defects where
  sites : List SiteDefect
  bridges : List Nat
  links : List (Nat × Nat)
  ports : List Nat
  devices : List Nat
deriving DecidableEq, Repr

/-- What memory training reports of one device (R376, R434). -/
inductive DevTrain where
  /-- Trained from a saved record. -/
  | saved
  /-- Trained in full; a new record is written. -/
  | full
  /-- The socket is empty. -/
  | empty
  /-- A fitted MRDIMM that is not supported (R376). -/
  | unsupported
  /-- Training failed (R376). -/
  | failed
deriving DecidableEq, Repr

/-- What the two ends exchange when a link completes training (R316, R317, R327). -/
structure LinkIdent where
  /-- The partner's identity digest. -/
  digest : Block
  /-- The partner's coordinate as R52 encodes it. -/
  coord : W16
  /-- The partner's link number. -/
  link : LinkIx
  /-- Physical lanes found bad, bit 4 the spare. -/
  badLanes : BitVec 5
  /-- One-way delay in ns. -/
  delay : W32
  /-- Whether a usable training record passed its margin test (R434). -/
  margin : Bool
  /-- The interface temperature, in 1/8 °C (R434). -/
  temp : Int
deriving DecidableEq, Repr

/-- The commands. (DESIGN CHOICE, log 7) -/
inductive Instr where
  -- Legs, mileposts, pace and time (01)
  | milepost
  | moduleReady
  | ready (l : LinkIx) (b : Block)
  | dueTime (g : GroupIx)
  | stretch (l : LinkIx) (b : Block)
  | deadline (g : GroupIx)
  | policyWrite (g : GroupIx) (v : W32)
  | abandon (l : LinkIx) (b : Block)
  | paceEdge
  | paceWindowEnd
  | paceAcquireTimeout
  | due (l : LinkIx) (b : Block)
  | realign (v : W32)
  | timeSymbolSend
  | time (l : LinkIx) (b : Block)
  | timeSet (hi : W32)
  | timeNowRead
  | legNoRead
  | joinMarker (l : LinkIx) (b : Block)
  -- Leaf array (03, 04, 06)
  | arrayLoad (c : CoreIx)
  | arrayFeed (c : CoreIx) (st : Stall)
  | gatherDeadline (c : CoreIx)
  | arrayReverse (c : CoreIx) (st : Stall)
  | arrayWgrad (c : CoreIx) (st : Stall)
  | arrayOpEnd (c : CoreIx) (k : Nat)
  -- Caddy (04)
  | caddyBind (c : CoreIx) (z : Nat)
  | caddyPush (c : CoreIx) (z : Nat)
  | caddyPop (c : CoreIx) (z : Nat)
  | caddyCopyDone (e : Fin 64) (k : Fin 32)
  -- Merge engine (06, 07)
  | gather (c : CoreIx) (z : Nat) (host : List HostReply)
  | scatter (c : CoreIx) (z : Nat) (host : List HostReply)
  | segReduce (c : CoreIx) (z : Nat)
  | sort (c : CoreIx) (z : Nat)
  | compact (c : CoreIx) (z : Nat)
  | kettleOpen (c : CoreIx) (z : Nat)
  | kettleAdd (c : CoreIx) (z : Nat)
  | kettleDrain (c : CoreIx) (z : Nat) (host : List HostReply)
  | kettleDiscard (c : CoreIx) (z : Nat)
  | sparseCompress (c : CoreIx) (z : Nat)
  | bitmapPack (c : CoreIx) (z : Nat)
  | bitmapDecode (c : CoreIx) (z : Nat)
  | mergeOpEnd (c : CoreIx)
  -- Vector chain and row engine (08)
  | vecRun (c : CoreIx) (z : Nat)
  | vecRunEnd (c : CoreIx)
  | softmaxFwd (c : CoreIx) (z : Nat)
  | softmaxBwd (c : CoreIx) (z : Nat)
  | lnFwd (c : CoreIx) (z : Nat)
  | lnBwd (c : CoreIx) (z : Nat)
  | rmsFwd (c : CoreIx) (z : Nat)
  | rmsBwd (c : CoreIx) (z : Nat)
  | kdLoss (c : CoreIx) (z : Nat)
  | statSave (c : CoreIx) (z : Nat)
  | statLoad (c : CoreIx) (z : Nat)
  | rowOpEnd (c : CoreIx)
  -- Access unit (09)
  | tensorMoveLoad (c : CoreIx) (z : Nat) (host : List HostReply)
  | tensorMoveStore (c : CoreIx) (z : Nat) (host : List HostReply)
  | tensorMoveLocal (c : CoreIx) (z : Nat)
  | accessOpEnd (c : CoreIx)
  -- Sequencer (10)
  | nop (c : CoreIx) (f : StreamId)
  | movi (c : CoreIx) (f : StreamId)
  | alu (c : CoreIx) (f : StreamId)
  | alui (c : CoreIx) (f : StreamId)
  | br (c : CoreIx) (f : StreamId)
  | setlc (c : CoreIx) (f : StreamId)
  | loop (c : CoreIx) (f : StreamId)
  | getsum (c : CoreIx) (f : StreamId)
  | getfmt (c : CoreIx) (f : StreamId)
  | gettime (c : CoreIx) (f : StreamId)
  | setseed (c : CoreIx) (f : StreamId)
  | onend (c : CoreIx) (f : StreamId)
  | patch (c : CoreIx) (f : StreamId)
  | cadd (c : CoreIx) (f : StreamId)
  | waitge (c : CoreIx) (f : StreamId)
  | semsig (c : CoreIx) (f : StreamId)
  | semwait (c : CoreIx) (f : StreamId)
  | arrive (c : CoreIx) (f : StreamId)
  | barrierRound (g : GroupIx)
  | fence (c : CoreIx) (f : StreamId)
  | gate (c : CoreIx) (f : StreamId)
  | onstatus (c : CoreIx) (f : StreamId)
  | legEnd (c : CoreIx) (f : StreamId)
  | engineOpIssue (c : CoreIx) (f : StreamId)
  | unitShutdownDone (c : CoreIx) (u : UnitId)
  | unitPowerUpDone (c : CoreIx) (u : UnitId)
  | corePowerDown (c : CoreIx)
  | corePowerUp (c : CoreIx)
  | programChunk (c : CoreIx) (n : Nat) (data : List W64) (crc : W32)
  | broadcastRepair
  -- Governor and placement (05, 11)
  | govDecision (f : Fin 16384)
  | placementProposal (host : List HostReply)
  | mapVersionBuilt
  -- Links (12); `fec` is what the FEC found in a flit's codewords: symbols corrected, or none for a codeword beyond correction
  | lossOfSignal (l : LinkIx)
  | linkSignalDetect (l : LinkIx)
  | linkTrained (l : LinkIx) (id : LinkIdent)
  | linkTrainingFail (l : LinkIx)
  | laneRetire (l : LinkIx) (lane : Fin 5)
  | sparingDone (l : LinkIx)
  | dataFlit (l : LinkIx) (h : Block) (p : List PWord) (fec : Option Nat)
  | done (l : LinkIx) (h : Block) (fec : Option Nat)
  | ack (l : LinkIx) (b : Block)
  | nak (l : LinkIx) (b : Block)
  | ackTimer (l : LinkIx)
  | halt (l : LinkIx) (b : Block)
  | post
  -- Reduction checker and adoption (13)
  | mark
  | compare
  | compareDone
  | adopt (image : List HostReply)
  | adoptDone
  -- Memory and the host window (14, 15)
  | memRetrainDone (d : DevIx) (ok : Bool)
  | scrub (d : DevIx) (line : Nat) (fixed : List (Fin 16)) (bad : List (Fin 16)) (last : Bool)
  | cxlMemRead (a : W64)
  | cxlMemWrite (a : W64) (data : Line) (poison : Bool)
  | snpInv (a : W64)
  | snpData (a : W64)
  | snpCur (a : W64)
  -- Rings and descriptors (15)
  | watchPoll (r : RingIx)
  | watchLineRead (r : RingIx) (reply : HostReply)
  | descTake (r : RingIx) (d : HostReply)
  | completionWriteFail (r : RingIx)
  | hostAbort (q : HostReq)
  | hostCompletionTimeout (q : HostReq)
  | ringEnable (r : RingIx) (v : W32)
  | ringDisable (r : RingIx) (v : W32)
  | loadProgram (host : List HostReply)
  | runLegs
  | runLegsStart (g : GroupIx)
  | move (host : List HostReply)
  | fill
  | hostDmaDone
  | setTable (host : List HostReply)
  | join (host : List HostReply)
  | release
  | descFence (r : RingIx)
  | descFenceDone (r : RingIx)
  | recordMark
  | query (host : List HostReply)
  -- Reset and start-up (16)
  | trayRstNAssert
  | trayRstNRelease
  | bootVerifyDone
  | fwStartDone
  | startupTestDone (t : Defects)
  | memoryTrainingDone (ds : List DevTrain)
  | moduleReset (v : W32)
  | cpReset (v : W32)
  | cpPowerOff
  | cpTestDone (t : Defects)
  | cpResetDone
  | push (v : W32)
  | update (v : W32)
  | imgDone (image : Option (List Byte)) (flashOk : Bool)
  | recordClear (v : W32)
  | hostPerstNAssert
  | hostPerstNRelease
  -- Power and thermal (17)
  | powerSample (pkg : Nat) (inp : Nat)
  | thermalSample (junction : List (DieIx × Int))
  | hbmTempReport (stack : Fin 8) (t : Int)
  | thermalStep
  | droopDetect (d : DieIx)
  | droopHoldEnd (d : DieIx)
  | droopRise (d : DieIx)
  | opDecision
  | voltageRaiseDone
  | pwrCtrlWrite (v : W32)
  | flowOkLow
  | coolantStop
  | stopHaltLinks
  | stopDescriptorsCut
  | stopRailsOff
  | inputUndervolt (mv : W16)
  | inputOvervolt (mv : W16)
  | inputRecovered (mv : W16)
  | railShort (r : Fin 34)
  | senseOpen (r : Fin 8)
  | sidebandStuck
  | sidebandRetry (free : Bool)
  -- Recorder and replay (18)
  | captureArm (v : W32)
  | freeze (v : W32)
  | recSizeWrite (v : W32)
  | ringNextRead
  | replayLoad (v : W32)
  | replayLoadDone (lines : List HostReply)
  | replayGo (v : W32)
  | replayFeed
  | replayStop (v : W32)
  -- SPDM (18)
  | getVersion
  | getCapabilities
  | negotiateAlgorithms
  | getDigests
  | getCertificate (slot : Nat) (off : Nat) (len : Nat)
  | challenge (slot : Nat) (nonce : Block)
  | getMeasurements (ix : Nat) (sign : Bool) (nonce : Block)
  | keyExchange (exch : List Byte)
  | finish (mac : List Byte)
  | endSession
  | spdmSignDone
  -- Sideband (19)
  | entdaa (addr : BitVec 7)
  | setdasa (static : BitVec 7) (addr : BitVec 7)
  | rstdaa
  | getpid
  | getbcr
  | getdcr
  | getstatus
  | sbRead (off : Byte) (n : Nat)
  -- Registers and the rest
  | registerWrite (off : W16) (v : W32)
  | flowOkHigh
  | vauxLost
  | cxlConfigWrite (cache : Bool) (mem : Bool)
  | hdmDecoderCommit (base : W64) (units : W32)
  | ideKm (cachemem : Bool) (key : Block) (go : Bool)
  | memInterfaceTemperature (d : DevIx) (t : Int)
  | tagAreaFlashWritten
deriving DecidableEq, Repr

end Sys2Proof
end

