-- ==== Sys2Proof/Decode.lean ====
section
/-! DEFINITION. The commands that a word spells by the bits of spec/opcode_table.json. The table gives no row any
bits (every row's "fields" is empty), so no word spells a command. -/

namespace Sys2Proof

/-- The command spelt by `nbits` bits `w` of the table: none, since no row of the table has bits. (DESIGN CHOICE, log 4) -/
def decodeTableWord (_nbits _w : Nat) : Option Instr := none

end Sys2Proof
end

