-- ==== Sys2Proof/Config.lean ====
section
/-! DEFINITION. What a module's factory and implementation fix, and the free values: constants with no body, so
that nothing can be proved of any particular value. -/

namespace Sys2Proof.Config

/-- SERIAL (R392). (DESIGN CHOICE, log 10) -/
opaque serial : W64
/-- BIN of XT80-B (R3, R392). (DESIGN CHOICE, log 10) -/
opaque binB : Bool
/-- TIER code, read modulo 3 (R5, R392). (DESIGN CHOICE, log 10) -/
opaque tierCode : Nat
/-- The identity digest of the vendor identity certificate (R392, R469). -/
opaque identityDigest : Block
/-- DEVICE_PUBKEY: PK.seed, then PK.root (R476). -/
opaque devicePubkey : Block
/-- The certificate chain, DER certificates back to back (R469). (DESIGN CHOICE, log 10) -/
opaque certChain : List Byte
/-- The blocks of a core site that the fuses mark bad (R78). (DESIGN CHOICE, log 10) -/
opaque fuseBlocks : Nat → W16
/-- The physical columns of a core site that the fuses mark bad (R64). -/
opaque fuseCols : Nat → List Nat
/-- Bridges that the fuses mark bad (R62). -/
opaque fuseBridges : List Nat
/-- Link lanes that the fuses mark bad, as (link, lane) (R62). -/
opaque fuseLanes : List (Nat × Nat)
/-- Link ports that the fuses mark bad. -/
opaque fusePorts : List Nat
/-- Memory devices that the fuses mark bad, by entry number of R75. -/
opaque fuseDevices : List Nat
/-- The fuse defect map's bytes, as the FUSES measurement takes them (R473). -/
opaque fuseBytes : List Byte
/-- The fused hash of the vendor public key (R428). -/
opaque keyHash : Block
/-- The vendor public key held in the boot ROM (R428). -/
opaque vendorKey : List Byte
/-- The fused security floor before any image raised it (R430). -/
opaque secFloor : Nat
/-- The firmware image that the factory wrote to flash (R429, R433). -/
opaque factoryImage : List Byte
/-- SHA-256 of the boot ROM (R473). -/
opaque romDigest : Block
/-- Verification of an SLH-DSA-SHA2-256s signature: key, message, signature (R428). (DESIGN CHOICE, log 10) -/
opaque slhVerify : List Byte → List Byte → List Byte → Bool
/-- The device key's SLH-DSA-SHA2-128f signature of a message (R470, R474). (DESIGN CHOICE, log 10) -/
opaque slhSign : List Byte → List Byte
/-- The bytes of an SPDM response that DSP0274 and not the spec lays down, by request code and argument. (PRESUMED, log 69) -/
opaque spdmBytes : Nat → List Byte → List Byte
/-- Whether a FINISH message's authentication holds for the session (DSP0274). -/
opaque spdmFinishOk : Nat → List Byte → Bool
/-- The key that R434 finds for a memory device, by entry number of R75. -/
opaque spdKey : Nat → Block
/-- Capacity in GB of the MRDIMM in a DDR5 socket (R376). (DESIGN CHOICE, log 10) -/
opaque dimmGb : Nat → Nat
/-- Data bits of a poisoned byte, undefined by R366, by address space and address. (DESIGN CHOICE, log 12) -/
opaque poisonByte : Nat → Nat → Byte
/-- OVF of the BF16 conversion that the governor's rank 2 selects, which R157 leaves out. (DEDUCED, log 73) -/
opaque govBf16Ieee : Bool
/-- A free word for each number of a draw. (DESIGN CHOICE, log 9) -/
opaque freeWord : Nat → W32
/-- A free 64-bit word for each number of a draw. (DESIGN CHOICE, log 9) -/
opaque freeWord64 : Nat → W64
/-- The line that the host answers to a read of the reduction checker (R348, R389). (DESIGN CHOICE, log 9) -/
opaque hostData : Nat → Line
/-- The EP bit of that answer. (DESIGN CHOICE, log 9) -/
opaque hostEp : Nat → Bool
/-- Whether that answer is an abort. (DESIGN CHOICE, log 9) -/
opaque hostAborts : Nat → Bool
/-- The arrangement of its input pairs that a SORT leaves in its scratch range, which R204 says depends on those pairs
alone: the code of a permutation. (DESIGN CHOICE, log 39) -/
opaque sortScratch : List (W32 × W32) → Nat
/-- The step words that a FUNC_TABLES record lists, by function code: R415 leaves how its steps carry out R509 open. Their
number, taken modulo 24 plus 1, is STEPS. (DESIGN CHOICE, log 57) -/
opaque funcSteps : Nat → List W32
/-- The literal values that those steps use, in order of first use (R415). (DESIGN CHOICE, log 57) -/
opaque funcLiterals : Nat → List W32
/-- The part of the sideband's provisional identifier that the spec leaves to MIPI (R501). -/
opaque pidLow : Nat

/-- The flits of each of the four flows, by number, that the credit word of a link block grants: R321 gives the word no layout.
(DESIGN CHOICE, log 47) -/
opaque creditGrant : W32 → Nat → Nat
/-- The credits of each flow when a link comes up, which R322 does not state. (DESIGN CHOICE, log 47) -/
opaque creditStart : Nat → Nat
/-- The SLOT_ID pins as the tray drives them (R494, R497). (DESIGN CHOICE, log 10) -/
opaque slotId : BitVec 5
/-- The bus and device characteristics registers of the sideband target, which the spec leaves to MIPI (R501). -/
opaque sbBcr : Byte
/-- See `sbBcr`. -/
opaque sbDcr : Byte
/-- The rate that the CXL port trains to, as HOST_STATUS codes it (R393). -/
opaque portRate : Nat
/-- The width that the CXL port trains to, as HOST_STATUS codes it (R393). -/
opaque portWidth : Nat

end Sys2Proof.Config
end

