-- ==== Sys2Proof/Machine/State.lean ====
section
/-! DEFINITION. The state of the block as plain data, and the state after reset. Every register, memory,
queue, counter, mode and pin that the spec gives the module is a field here, under the rule that names it.
Banks and memories are lists of (index, value) pairs in one canonical form: indices strictly rising, no entry
equal to what an unlisted index reads as (`Mem`). -/

namespace Sys2Proof.Machine

/-- A bank or a sparse memory: (index, value) pairs; what an unlisted index reads as is given at each read. -/
abbrev Mem (α : Type) := List (Nat × α)

/-- The faults of a meaning. None: R156 fixes every arithmetic case, and every other failure of the spec is a
status that its operation, descriptor or waymark carries, after which the module goes on. -/
inductive Fault where
deriving DecidableEq, Repr

/-- The refusals of a meaning. -/
inductive Refusal where
  /-- Raised by the dispatcher alone, for a command that has no meaning yet; safe, since nothing can be proved of it. -/
  | notModelled (mnemonic : String)
deriving DecidableEq, Repr

/-! ### Clock, time base, pace, series (01) -/

/-- The module's own oscillators: nanoseconds run since the reset and thousandths of an arithmetic-clock cycle run since
then, with the values both had at the latest milepost or phase point (R57, R450); `stopped` while the arithmetic and
road-mesh clocks stand still (R437, R459). -/
structure Clock where
  ns : Nat := 0
  milli : Nat := 0
  phaseNs : Nat := 0
  phaseMilli : Nat := 0
  stopped : Bool := false
deriving DecidableEq, Repr

/-- What a TIME block said on one link: the master named, whether the sender is master or synchronised (R324), and the offset
to it (R49, R327). -/
structure TimeHeard where
  master : W16 := 0
  synced : Bool := false
  offset : Int := 0
deriving DecidableEq, Repr

/-- The time base and its discipline (R46 to R50, R60). -/
structure TimeSt where
  now : Nat := 0
  hiLatch : W32 := 0
  master : Bool := false
  syncEn : Bool := true
  stepSeen : Bool := false
  syncLost : Bool := false
  synced : Bool := false
  offset : Int := 0
  setLo : W32 := 0
  parent : Option LinkIx := none
  following : Option W16 := none
  heard : Mem TimeHeard := []
  slewNs : Nat := 0
deriving DecidableEq, Repr

/-- Pace states (R33). -/
inductive Pace where
  | off | acquire | locked | lost
deriving DecidableEq, Repr

/-- Pace registers and the edges stamped (R30 to R34, R60, R500). (DESIGN CHOICE, log 1) -/
structure PaceSt where
  ratio : Byte := 1
  en : Bool := false
  st : Pace := .off
  error : Int := 0
  lostCount : W32 := 0
  edges : List Nat := []
  recordLog2 : BitVec 5 := 0x1F
deriving DecidableEq, Repr

/-- A milepost series, from the agreement of its founding join to its last group's end (R20 to R22, R30 to R36). `opened`
is none until milepost 0 has fired; `due` is none while the next due time is not yet known here, and `nominal` stands
where a realign lengthens the leg; `ahead` is a due time for a later leg, as (leg, time). -/
structure Series where
  founder : Nat
  check : W32
  period : Nat
  latency : Nat
  joinTime : Nat
  ratio : Nat
  leader : Option W16
  opened : Option Nat := none
  legNo : Nat := 0
  due : Option Nat := none
  nominal : Option Nat := none
  ahead : Option (Nat × Nat) := none
  window : Bool := false
  realign : Bool := false
  relock : Bool := false
deriving DecidableEq, Repr

/-- Leg number latches of the TIME block (R60). -/
structure LegRegs where
  hiLatch : W16 := 0
deriving DecidableEq, Repr

/-! ### Sync groups (01, 15) -/

/-- Group states with the codes of R45. -/
inductive GState where
  | idle | running | held | overLimit | abandoned
deriving DecidableEq, Repr

/-- A join marker received (R408). -/
structure Marker where
  origin : W16
  check : W32
  time : Nat
  series : Bool
  founder : Nat
  paceEn : Bool
  founderCheck : W32
deriving DecidableEq, Repr

/-- A RUN_LEGS of a group: its descriptor, its fields, whether it has passed its checks, and the leg it starts at, none
while that is the leg that the next milepost of the group opens (R406). (DEDUCED, log 22) -/
structure Run where
  order : Nat
  first : Nat
  count : Nat
  startLeg : Option Nat
  accepted : Bool
deriving DecidableEq, Repr

/-- An originator learnt in a leg, with its cause and sub-cause (R38, R39). -/
structure Origin where
  coord : W16
  cause : Nat
  sub : Nat
deriving DecidableEq, Repr

/-- An abandonment at the deadline, or by software before due + L, that waits for its choice of originator: when the choice
is made, the leg, the instant readiness is judged at, and whether software asked (R29, R43). (DEDUCED, log 26) -/
structure Ending where
  leg : Nat
  judge : Nat
  choice : Nat
  soft : Bool
deriving DecidableEq, Repr

/-- The stretch symbols a module owes a group that a compute-part reset took from it, or that it adopted: the latest leg
it has learnt of and its due time, each none until it is known, whether the leg's symbol has gone, and the sub-cause it
carries (R361, R439). -/
structure Owed where
  leg : Option Nat
  due : Option Nat
  sent : Bool
  sub : Nat
deriving DecidableEq, Repr

/-- One sync group (R25, R36, R41 to R45, R60, R407, R408). -/
structure Group where
  active : Bool := false
  barrier : Bool := false
  abandonPolicy : Bool := false
  limit : Nat := 0
  st : GState := .idle
  stretchCount : W32 := 0
  overCount : W32 := 0
  stretchMax : W32 := 0
  lastOrigin : W16 := 0
  lastCause : Nat := 0
  latency : Nat := 0
  period : Nat := 0
  jobTag : W16 := 0
  check : W32 := 0
  box : Nat := 0
  modules : List W16 := []
  cores : List Nat := []
  joinOrder : Option Nat := none
  joinTime : Nat := 0
  markers : List Marker := []
  firstAt : Option Nat := none
  ready : List (W16 × Nat) := []
  origins : List Origin := []
  ending : Option Ending := none
  doubt : Bool := false
  owed : Option Owed := none
  early : Option Nat := none
  releasing : Option Nat := none
  runs : List Run := []
deriving DecidableEq, Repr

/-- Conditions of R37 that were active at the module in the leg. -/
structure Conds where
  limit105 : Bool := false
  stop115 : Bool := false
  coolant : Bool := false
  droop : Bool := false
  powerAvg : Bool := false
  powerPeak : Bool := false
  retrainHbm : Bool := false
  retrainDdr : Bool := false
  pace : Bool := false
deriving DecidableEq, Repr

/-! ### Waymarks, recorder, replay (01, 18) -/

/-- A waymark record, by its fields (R51). -/
structure Waymark where
  time : Nat
  kind : Nat
  cause : Nat
  dropBefore : Bool
  group : Nat
  seq : Nat
  origin : W16
  unit : W16
  jobTag : W16
  legNo : Nat
  payload : W64
deriving DecidableEq, Repr

/-- Replay states (R484). -/
inductive Replay where
  | off | loading | readyToGo | feeding | ended
deriving DecidableEq, Repr

/-- The Trace Recorder (R477 to R486). `capture` holds the capture window's lines and `capPoison` marks the CXL.mem writes
received with poison; in replay, `feedAt` is 0 until the START record is applied, and `used` counts the HOST_READ records
of each SOURCE that reads have taken. -/
structure Recorder where
  eventEn : Bool := true
  wrap : Bool := true
  arm : Bool := false
  freezeOnFault : Bool := false
  capSel : BitVec 7 := 0x7F
  ring2m : W16 := 2048
  cap2m : W16 := 0
  ring2mNow : W16 := 2048
  cap2mNow : W16 := 0
  capActive : Bool := false
  ringFull : Bool := false
  sizeRefused : Bool := false
  endReason : Nat := 0
  nextIx : Nat := 0
  nextHi : W32 := 0
  dropped : W32 := 0
  dropFlag : Bool := false
  seq : Nat := 0
  ring : Mem Waymark := []
  capLines : Nat := 0
  capture : Mem Line := []
  capPoison : Mem Bool := []
  cseq : Mem Nat := []
  replay : Replay := .off
  result : Nat := 0
  srcLo : W32 := 0
  srcHi : W32 := 0
  len : W32 := 0
  fed : Nat := 0
  feedAt : Nat := 0
  used : Mem Nat := []
deriving DecidableEq, Repr

/-! ### Floor plan (02) -/

/-- A core entry of the floor plan, with the physical columns that are bad (R65, R77). -/
structure CoreEntry where
  usable : Bool := true
  sessionAbsent : Bool := false
  newDefect : Bool := false
  cause : Nat := 0
  width : Nat := 128
  badCols : List Nat := []
  newCols : Nat := 0
  fuseBlocks : W16 := 0
  testBlocks : W16 := 0
deriving DecidableEq, Repr

/-- A link entry (R79), with the physical lanes that the fuses or the start-up test found bad. -/
structure LinkEntry where
  usable : Bool := true
  newDefect : Bool := false
  spareFor : Nat := 7
  badLanes : BitVec 5 := 0
  testBad : BitVec 5 := 0
deriving DecidableEq, Repr

/-- A memory entry (R79). -/
structure MemEntry where
  present : Bool := false
  newDefect : Bool := false
  empty : Bool := false
  capacity : Nat := 0
deriving DecidableEq, Repr

/-- A die entry (R79). -/
structure DieEntry where
  cutOff : Bool := false
  manyRouters : Bool := false
  bypass : Option (Nat × Nat) := none
deriving DecidableEq, Repr

/-- A band of the DDR5 space (R370). -/
structure Band where
  base : Nat
  size : Nat
  chans : List Nat
  used : List (Nat × Nat)
deriving DecidableEq, Repr

/-- The floor-plan record (R75 to R80) and the memory maps that stand beside it (R369, R370). -/
structure Plan where
  valid : Bool := false
  generation : Nat := 0
  startTime : Nat := 0
  cores : Mem CoreEntry := []
  links : Mem LinkEntry := []
  mems : Mem MemEntry := []
  dies : Mem DieEntry := []
  bridgeOk : BitVec 4 := 0xF
  bridgeNew : BitVec 4 := 0
  degraded : Bool := false
  reduced : Bool := false
  hbmStacks : List Nat := []
  bands : List Band := []
  pendingAbsent : List (Nat × Nat) := []
deriving DecidableEq, Repr

/-! ### Device memory (14) -/

/-- A memory controller: its state and counters, whether it needs a retrain, when its last began, the times of its latest
65 corrections, and its interface temperature then and now in 1/8 °C (R377, R382). -/
structure MemCtl where
  st : Nat := 0
  retrains : Nat := 0
  corrected : Nat := 0
  uncorrectable : Nat := 0
  scrubPasses : Nat := 0
  pending : Bool := false
  lastRetrain : Option Nat := none
  fixes : List Nat := []
  trainedAt : Int := 0
  temp : Int := 0
deriving DecidableEq, Repr

/-- HBM4 and DDR5 contents by physical address, the poisoned words by word index, and the words a reader
finds uncorrectable (R364 to R371). -/
structure DevMem where
  hbm : Mem Byte := []
  ddr : Mem Byte := []
  hbmPoison : Mem Bool := []
  ddrPoison : Mem Bool := []
  lost : List Nat := []
  ctls : Mem MemCtl := []
  selfRefresh : Bool := false
deriving DecidableEq, Repr

/-! ### Cores (03 to 10) -/

/-- Counter identifiers of a core are the byte offsets of R111 and its extensions; this bank holds them all. -/
abbrev Counters := Mem W64

/-- An engine operation as issued: its number in the core's order of issue, its stream, its PC, its words after
patching, its pot ticket and its ONEND update (R131, R264, R267). -/
structure Op where
  id : Nat
  stream : StreamId
  pc : Nat
  words : List W32
  ticket : Option Nat
  onend : Option (Nat × Nat)
  issued : Nat
  seed : Nat
deriving DecidableEq, Repr

/-- An operation that has started: its status, the cycles it takes, when it started, and the summaries it leaves. -/
structure Running where
  op : Op
  status : Nat
  cycles : Nat
  started : Nat
  vals : List Nat
  waitHost : Bool
  dirMode : Nat
deriving DecidableEq, Repr

/-- A run whose last row is in the array: its number in the operation, its values, and the count of advancing cycles in
which its last foot or row end adds it (R88, R114); a tile of WGRAD likewise (R121). -/
structure Flying where
  run : Nat
  due : Nat
  vals : List PWord
deriving DecidableEq, Repr

/-- A row operation at its feeder, from its start to its end (R88 to R91, R96, R104, R114, R121): the recorded mode its
first row names, the rows it issues and has issued, the count of advancing cycles from which the next may issue, the cycles
its buffer will lack a row as (row, cycles), the GATHER state (the cycle it reached the head, whether issue has begun, the
slots taken), row sums of runs not closed (under WGRAD the tile), runs formed and runs still in the array, the shadow
registers' cycles left, the advancing cycle in which each plane was last named, and the causes met while rows issue. -/
structure Flow where
  op : Op
  sparse : Nat
  rows : Nat
  issued : Nat := 0
  next : Nat := 0
  dry : List (Nat × Nat) := []
  since : Nat := 0
  begun : Bool := true
  slots : List Nat := []
  sums : Mem (List PWord) := []
  formed : Nat := 0
  flying : List Flying := []
  shadow : Option (Nat × List PWord) := none
  named : Mem Nat := []
  ecc : Bool := false
  poison : Bool := false
deriving DecidableEq, Repr

/-- A completed run in a drain's queue: its operation and number, its values, the cycle in which it entered, and the drain
cycles it still takes (R91). -/
structure QRun where
  opId : Nat
  run : Nat
  vals : List PWord
  enter : Nat
  left : Nat
deriving DecidableEq, Repr

/-- The load on the plane-load port: its cycles of check pass left, the status the check pass ends it with, whether its
writes have begun, the cycles of writing done, and whether it took poison (R92, R93, R172). -/
structure LoadProg where
  op : Op
  check : Nat
  verdict : Nat
  writing : Bool
  done : Nat
  poison : Bool
deriving DecidableEq, Repr

/-- An array operation with DEST 2 and the VEC_RUN it pairs with, in the issuing stream's order (R228, R265): what the chain
has taken from the drain, the cycle by which it had all of it, whether the operation failed, and whether its runs are INT32. -/
structure Pair where
  opId : Nat
  stream : StreamId
  vecId : Option Nat := none
  vals : List PWord := []
  whole : Option Nat := none
  failed : Bool := false
  int : Bool := false
deriving DecidableEq, Repr

/-- Kettle states (R209). -/
inductive KState where
  | closed | opened | lost
deriving DecidableEq, Repr

/-- A kettle entry (R209, R211). -/
structure KEntry where
  set : Nat
  way : Nat
  key : W32
  val : PWord
  ins : Nat
deriving DecidableEq, Repr

/-- The kettle (R209 to R212). -/
structure Kettle where
  st : KState := .closed
  entries : List KEntry := []
  nextIns : Nat := 0
  base : Nat := 0
  cap : Nat := 0
  spilled : Nat := 0
deriving DecidableEq, Repr

/-- Unit power states (R284), with the cycle at which the present transition began. -/
inductive UPower where
  | on | gatePending | shuttingDown | off | poweringUp
deriving DecidableEq, Repr

/-- One gated unit. -/
structure UnitSt where
  st : UPower := .on
  since : Nat := 0
  again : Bool := false
deriving DecidableEq, Repr

/-- Core power domain (R285, R286). -/
inductive CPower where
  | off | on | shuttingDown | poweringUp
deriving DecidableEq, Repr

/-- Summaries of a stream's most recent operation on each engine (R213, R230, R237, R260, R269). The array may end an
operation before an earlier one ends; `arrayOp` numbers the one that its summary is of. -/
structure Sums where
  array : Nat := 0
  arrayOp : Nat := 0
  merge : Nat := 0
  mergeCount : W32 := 0
  mergePos : W32 := 0xFFFFFFFF
  vec : Nat := 0
  vs : List W32 := [0, 0, 0, 0, 0, 0xFFFFFFFF]
  row : Nat := 0
  rs : List W32 := [0, 0, 0, 0, 0, 0]
  acc : Nat := 0
  auElements : W64 := 0
  auFault : W64 := 0xFFFFFFFFFFFFFFFF
deriving DecidableEq, Repr

/-- What a stream is doing (R271, R277, R278). -/
inductive Phase where
  | idle | running | stopped | ended
deriving DecidableEq, Repr

/-- A PATCH awaiting its operation (R267). -/
structure Patch where
  word : Nat
  lsb : Nat
  w : Nat
  val : Nat
deriving DecidableEq, Repr

/-- One instruction stream (R262, R267). `next` is the cycle from which it may execute its next instruction, and `waiting`
the cycle up to which the wait in progress has been counted (R263, R288). -/
structure Stream where
  phase : Phase := .idle
  pc : Nat := 0
  regs : Mem W64 := []
  lcs : Mem W32 := []
  seedLeg : Nat := 0
  cont : Bool := false
  status : Nat := 0
  statusPc : Nat := 0
  sums : Sums := {}
  patches : List Patch := []
  onend : Option (Nat × Nat) := none
  next : Nat := 0
  waiting : Option Nat := none
deriving DecidableEq, Repr

/-- A core's program store (R262, R276): the image's words, the words an uncorrectable error has struck, and those with a
single-bit error (R283). (DESIGN CHOICE, log 13) -/
structure Program where
  words : Mem W64 := []
  bad : Mem Bool := []
  flip : Mem Bool := []
  len : Nat := 0
  legCycle : Nat := 0
deriving DecidableEq, Repr

/-- Arrivals of a core at a BARRIER group in the leg: rounds done, and the semaphores named by arrivals not yet
rounded, oldest first (R274). (DEDUCED, log 75) -/
structure Arrivals where
  rounds : Nat := 0
  sems : List Nat := []
deriving DecidableEq, Repr

/-- A semaphore in the cycle before `cyc`: what its waits of that cycle may still take, the arbiter's pointer when the cycle
began, and one more than the place in its rotation of the last grant, 0 for none (R263, R273). -/
structure SemPast where
  cyc : Nat := 0
  avail : Nat := 0
  ptr : Nat := 0
  last : Nat := 0
deriving DecidableEq, Repr

/-- One core: its sequencer, its engines and their memories. Memories hold the fixed initial state of R285 where
nothing is listed. `ctrPast` holds, by counter, the cycle after its latest update and its value before that cycle, and
`semPast` the same of semaphores (R263). `potDone` lists tickets that need no more service, `arb` the pointers of the core's
arbiters (R56, R264, R273), `lately` the cycle after each one's latest grant, after each queue's latest departure and after
the latest ends of the streams' operations, `popWait` the cycle up to which the wait of a CADDY POP has been counted, `drains` the drains by partition, `adv` the cycles in which the array has advanced, and `secded` the words of the core's SRAMs that hold an error: 1 a single bit, 2 uncorrectable (R365). (DESIGN CHOICE, log 1, DESIGN CHOICE, log 13, DEDUCED, log 78) -/
structure Core where
  power : CPower := .off
  program : Option Program := none
  fwd : Stream := {}
  bwd : Stream := {}
  upd : Stream := {}
  ctrs : Mem W32 := []
  ctrPast : Mem (Nat × W32) := []
  sems : Mem W16 := []
  semPast : Mem SemPast := []
  arrivals : Mem Arrivals := []
  nextOp : Nat := 0
  potNext : Nat := 0
  potHead : Nat := 0
  potDone : List Nat := []
  arb : Mem Nat := []
  lately : Mem Nat := []
  arrayQ : List Op := []
  mergeQ : List Op := []
  vecQ : List Op := []
  rowQ : List Op := []
  accQ : List Op := []
  arrayRun : List Running := []
  mergeRun : Option Running := none
  vecRun : Option Running := none
  rowRun : Option Running := none
  accRun : Option Running := none
  arrayMode : Nat := 0
  arrayDir : Nat := 0
  flows : List Flow := []
  load : Option LoadProg := none
  drains : Mem (List QRun) := []
  adv : Nat := 0
  pairs : List Pair := []
  uArray : UnitSt := {}
  uMerge : UnitSt := {}
  uVec : UnitSt := {}
  uRow : UnitSt := {}
  store : Mem Byte := []
  storePoison : Mem Bool := []
  planes : Mem Byte := []
  planePoison : Mem Bool := []
  exps : Mem Byte := []
  expPoison : Mem Bool := []
  index : Mem Nat := []
  indexPoison : Mem Bool := []
  secded : Mem Nat := []
  modes : Mem Nat := []
  pot : Mem W32 := []
  potPoison : Mem Bool := []
  stats : Mem PWord := []
  flags : Mem Bool := []
  kettle : Kettle := {}
  caddy : Option (Nat × Nat) := none
  popWait : Option Nat := none
  tlb : Mem (List Nat) := []
  counters : Counters := []
deriving DecidableEq, Repr

/-! ### Caddy (04) -/

/-- A caddy table entry (R134). -/
structure CaddyEntry where
  valid : Bool := false
  members : Nat := 0
  nStacks : Nat := 0
  sliceHbm : Nat := 0
  hbmBase : Nat := 0
  ddrBase : Nat := 0
  sliceDdr : Nat := 0
deriving DecidableEq, Repr

/-- Where a frame lies (R137). -/
inductive Place where
  | hbm | toDdr | ddr | toHbm
deriving DecidableEq, Repr

/-- A frame of a stack: the lines it takes of the stack's HBM4 slice and of its DDR5 slice, as (first, count) runs, its
slice length, its tag, the members that have pushed and popped their slices, and where it lies (R136, R137). -/
structure Frame where
  hbm : List (Nat × Nat)
  ddr : List (Nat × Nat)
  lines : Nat
  tag : W32
  pushed : List Nat
  popped : List Nat
  place : Place
deriving DecidableEq, Repr

/-- A caddy's stacks, oldest frame first, whether its first BIND has been made, and its statistics (R134 to R138). -/
structure CaddySt where
  bound : Bool := false
  frames : Mem (List Frame) := []
  pushes : Nat := 0
  pops : Nat := 0
  evicted : Nat := 0
  returned : Nat := 0
  popWait : Nat := 0
  highWater : Nat := 0
deriving DecidableEq, Repr

/-! ### Numerics and the governor (05) -/

/-- A Format Table entry (R163). -/
structure FmtEntry where
  pin : Bool := false
  allowed : BitVec 3 := 7
  pinFormat : Nat := 2
  current : Nat := 2
  choice : Nat := 2
  scaleExp : Int := 0
  downCount : Nat := 0
  eRef : Int := 0
  amaxLast : W32 := 0
  observed : Nat := 0
  late : Nat := 0
deriving DecidableEq, Repr

/-- The numerics control block (R164). -/
structure Numerics where
  seed : W64 := 0
  govEn : Bool := false
  interval : Nat := 1
  phase : Nat := 0
  upLog2 : Nat := 10
  downLog2 : Nat := 12
  holdSteps : Nat := 3
  margin : Nat := 1
  lag : Nat := 1
deriving DecidableEq, Repr

/-- An observation (R158, R165). -/
structure Obs where
  count : Nat := 0
  zeros : Nat := 0
  nonfinite : Nat := 0
  amax : W32 := 0
  saturated : Nat := 0
  bins : Mem Nat := []
deriving DecidableEq, Repr

/-- What a decision of R160 gives: the governor's choice, the narrowing count, the new reference exponent, the scale
exponent and the observation's AMAX. -/
structure GovDec where
  want : Nat
  downCount : Nat
  eRef : Int
  scaleExp : Int
  amax : W32
deriving DecidableEq, Repr

/-- An observation closed at a leg, and its decision once it is ready (R159, R160). -/
structure GovPend where
  closedAt : Nat
  obs : Obs
  dec : Option GovDec
deriving DecidableEq, Repr

/-- The governor: open and last closed observations, and for each entry what awaits a decision or its effect. -/
structure Gov where
  opened : Mem Obs := []
  closed : Mem Obs := []
  pend : Mem (List GovPend) := []
deriving DecidableEq, Repr

/-! ### Experts (11) -/

/-- The expert control block (R299). -/
structure ExpertCtrl where
  placeEn : Bool := false
  reviseLog2 : Nat := 10
  hold : Nat := 4
  maxChanges : Nat := 16
  high16 : Nat := 24
  low16 : Nat := 8
  experts : Nat := 0
  vetoSeq : Nat := 0
  mapPage : Nat := 0
  loadVa : Nat := 0
deriving DecidableEq, Repr

/-- A version being built or awaiting effect (R301): its number, the interval that closed, the leg its milepost opens,
its entries and MAP_CHECK once it is complete, the replica changes placement makes, the software writes it takes, the control
block of its close, and whether a VETO_SEQ of that time names it (R303, R304). -/
structure Version where
  seq : Nat
  interval : Nat
  effectLeg : Nat
  check : Nat
  built : Bool
  proposed : Bool
  toggles : List Nat
  writes : List (Nat × W64)
  entries : Mem W64
  ctrl : ExpertCtrl
  veto : Bool
deriving DecidableEq, Repr

/-- The Expert Map and placement (R289 to R306). -/
structure Experts where
  map : Mem W64 := []
  seq : Nat := 0
  lastSeq : Nat := 0
  writes : List (Nat × W64) := []
  ctrl : ExpertCtrl := {}
  pending : Option Version := none
  proposals : Nat := 0
  applied : Nat := 0
  vetoed : Nat := 0
  late : Nat := 0
  conflicts : Nat := 0
  changes : Nat := 0
deriving DecidableEq, Repr

/-! ### Links, transfers, checker, adoption (12, 13) -/

/-- Link states with the codes of R318. -/
inductive LState where
  | down | training | up | sparing | halted | failed
deriving DecidableEq, Repr

/-- A flit at a link transmitter: its header and payload, and which requester of R322 it comes from (0 transit, 1 the
send queues, 2 the Module Controller), with the send queue's number (R320 to R322). -/
structure TxFlit where
  header : Block
  payload : List PWord
  source : Nat
  queue : Nat
deriving DecidableEq, Repr

/-- One link (R316 to R327, R336). (DESIGN CHOICE, log 6, DEDUCED, log 47, DEDUCED, log 78) -/
structure Link where
  st : LState := .down
  dir : Nat := 7
  partnerLink : Nat := 0
  partner : W16 := 0
  digest : Block := 0
  delay : W32 := 0
  fecCorrected : Nat := 0
  retries : Nat := 0
  uncorrectable : Nat := 0
  trainings : Nat := 0
  sparings : Nat := 0
  lostCopies : Nat := 0
  tries : Nat := 0
  sameNaks : Nat := 0
  lastNak : Nat := 0
  txSeq : Nat := 0
  rxSeq : Nat := 0
  unacked : List TxFlit := []
  waiting : List TxFlit := []
  rr : Nat := 0
  qrr : Nat := 0
  sinceAck : Nat := 0
  oldestGood : Option Nat := none
  credits : W32 := 0
  credit : List Nat := [0, 0, 0, 0]
  cabling : Bool := false
  stamp : Option Nat := none
deriving DecidableEq, Repr

/-- The link control block (R335). -/
structure LinkCtrl where
  coord : W16 := 0
  sizeX : BitVec 5 := 0
  sizeY : BitVec 5 := 0
  sizeZ : BitVec 5 := 0
  en : BitVec 24 := 0xFFFFFF
deriving DecidableEq, Repr

/-- A transfer open at its sender: its send queue, its post count and its post, which stays in the queue until the
transfer ends (R329, R331). (DEDUCED, log 47) -/
structure Xfer where
  queue : Nat
  count : Nat
  post : Line
deriving DecidableEq, Repr

/-- A transfer tracked at its receiver (R331). -/
structure RxXfer where
  src : W16
  tag : Nat
  flits : Nat
  got : List Nat
  status : Nat
  signal : W32
deriving DecidableEq, Repr

/-- A write of a post line, of a send queue, or of the checker's line that the memory controller has passed on: its line, none
where it was no whole line, the core and operation that wrote it, and whether it was held for want of room (R329, R346). -/
structure LineWrite where
  queue : Nat
  line : Option Line
  src : Option (Nat × Nat) := none
  held : Bool := false
deriving DecidableEq, Repr

/-- Links, sync symbols, send queues and transfers. -/
structure LinkSys where
  ctrl : LinkCtrl := {}
  links : Mem Link := []
  symbolId : Nat := 0
  seen : List (W16 × Nat) := []
  postLines : List LineWrite := []
  posts : Mem Nat := []
  xfers : List Xfer := []
  rx : List RxXfer := []
  rxHeld : List (Nat × Block × List PWord) := []
deriving DecidableEq, Repr

/-- The reduction checker (R346 to R350). -/
structure Checker where
  queue : List LineWrite := []
  checkEn : Bool := false
  halt : Bool := false
  sampleLog2 : Nat := 10
  marks : Nat := 0
  compares : Nat := 0
  mismatches : Nat := 0
  poisoned : Nat := 0
  missing : Nat := 0
  bad : Nat := 0
  current : Option Line := none
  finals : List (Nat × Nat) := []
  compared : List (Nat × Nat) := []
  blocked : Bool := false
deriving DecidableEq, Repr

/-- A table write that waits: its selector, its core where it has one, its index and its value (R411, R412). -/
structure TabWrite where
  sel : Nat
  core : Option Nat
  ix : Nat
  val : Nat
deriving DecidableEq, Repr

/-- An adoption in progress: its descriptor, the image descriptors applied, and the writes that wait for its end (R359,
R360). -/
structure Adopt where
  order : Nat
  applied : Nat
  tables : List TabWrite
deriving DecidableEq, Repr

/-! ### Host interface (15) -/

/-- A ring pair (R395, R401). -/
structure Ring where
  sqBase : W64 := 0
  cqBase : W64 := 0
  watch : W64 := 0
  enable : Bool := false
  poll : Bool := false
  sqLog2 : Nat := 0
  cqLog2 : Nat := 0
  active : Bool := false
  stopped : Bool := true
  configErr : Bool := false
  phase : Bool := false
  cqTail : Nat := 0
  sqHead : Nat := 0
  seenCqHead : Nat := 0
  seenSqTail : Nat := 0
  held : List Block := []
  lastEntry : Option Block := none
  failing : Bool := false
  outOfRange : Bool := false
  reading : Bool := false
deriving DecidableEq, Repr

/-- A descriptor taken and not completed (R398, R403): its number in the order of taking, its ring and slot, its
bytes, the time of its take, whether it has started, the result it will complete with, and of a transfer the lines it has
moved, the host's answers still to come, and whether a write met lost memory (R371, R409). -/
structure Desc where
  order : Nat
  ring : Nat
  slot : Nat
  raw : Line
  taken : Nat
  started : Bool
  since : Nat
  result : Option (Nat × W64 × W32)
  progress : Nat := 0
  replies : List HostReply := []
  lost : Bool := false
deriving DecidableEq, Repr

/-- A program broadcast in progress (R280, R281). -/
structure Broadcast where
  order : Nat
  image : Mem W64
  len : Nat
  legCycle : Nat
  chunks : Nat
  targets : List Nat
  good : List (Nat × Nat)
  tries : Nat
deriving DecidableEq, Repr

/-- The host port and its rings (R384 to R421); `burst` is the ring whose descriptors are being read and how many of its burst
are left (R398). (DESIGN CHOICE, log 6) -/
structure HostSt where
  cacheEn : Bool := true
  rate : Nat := 0
  width : Nat := 0
  ideIo : Bool := false
  ideCachemem : Bool := false
  memUp : Bool := false
  cacheUp : Bool := false
  errCq : Bool := false
  errWatch : Bool := false
  errAbort : Bool := false
  timeouts : W32 := 0
  winBase : W64 := 0
  winUnits : W32 := 0
  winWriteEn : Bool := true
  outOfRange : W32 := 0
  poisonLines : W32 := 0
  lines : List Nat := []
  rings : Mem Ring := []
  descs : List Desc := []
  nextOrder : Nat := 0
  ringRr : Nat := 0
  burst : Nat × Nat := (0, 0)
  tables : List TabWrite := []
  broadcast : Option Broadcast := none
  ideKeys : Mem Block := []
  ideNext : Mem Block := []
deriving DecidableEq, Repr

/-! ### Start-up, flash, power (16, 17) -/

/-- Boot states with the codes of R424. -/
inductive Boot where
  | rom | verify | waitImage | receive | fwStart | test | train | ready | cpReset | stopped | failed
deriving DecidableEq, Repr

/-- What an image header says once the image runs (R428, R430). -/
structure Image where
  secVersion : Nat
  fwVersion : W32
  raiseFloor : Bool
  digest : Block
deriving DecidableEq, Repr

/-- Start-up, reset and image registers (R422 to R443). `inReset` holds while the Module Controller does not run: in reset,
without power, or with its rail shut; `cpStage` is the step of a compute-part reset last passed, and `pushing` tells a PUSH
from an UPDATE. -/
structure BootSt where
  st : Boot := .rom
  fail : Nat := 0
  lastReset : Nat := 0
  savedUsed : Bool := false
  pushed : Bool := false
  startMs : Nat := 0
  cpCount : W16 := 0
  cpBusy : Bool := false
  cpStage : Nat := 0
  forceFull : Bool := false
  fullTrained : W16 := 0
  savedTrained : W16 := 0
  imgAddr : W64 := 0
  imgLen : W32 := 0
  persist : Bool := false
  imgResult : Nat := 0
  imgState : Nat := 0
  pushing : Bool := false
  running : Option Image := none
  inReset : Bool := true
deriving DecidableEq, Repr

/-- A saved training record of a device or a link, by its key (R434). -/
structure TrainRec where
  key : Block
  sub : Nat
  temp : Int
deriving DecidableEq, Repr

/-- The module flash, where a start or a write can change it (R433, R472, R478). `image` is none while the slot
holds the factory's image, and `older` is the training store's other copy. (DESIGN CHOICE, log 63) -/
structure Flash where
  image : Option (List Byte) := none
  secFloor : Option Nat := none
  records : Mem TrainRec := []
  older : Mem TrainRec := []
  recWrites : Nat := 0
  ring2m : W16 := 2048
  cap2m : W16 := 0
  tags : Mem Byte := []
  tagCount : Nat := 0
  tagNew : Option (Nat × Mem Byte) := none
deriving DecidableEq, Repr

/-- What R452 evaluates of a leg: the sum of k_pow over its cycles, its cycles, and its largest package A_1ms as a sum of
samples and their number. -/
structure OpLeg where
  sum : Int
  cycles : Nat
  top : Nat × Nat
deriving DecidableEq, Repr

/-- A point scheduled: the point, when it was decided, its deferrals, and why (R453, R465). -/
structure OpPlan where
  target : Nat
  decided : Nat
  deferrals : Nat
  reason : Nat
deriving DecidableEq, Repr

/-- The POWER block and the power and thermal unit (R445 to R468). Temperatures are in 1/8 °C, powers in 0.1 W. `stopStage`
counts the steps of the stop sequence begun, `overridden` the dies whose limit protection holds below a pinned P, `limWas`
the limit of all dies in force up to cycle `limFrom`, `shut` the rails that shorts have shut, and `rangeNote` holds while a latched
input fault awaits its waymark. (DESIGN CHOICE, log 1, DEDUCED, log 25) -/
structure Power where
  pkgCap : Nat := 1000
  pourPin : Nat := 0
  policyEn : Bool := true
  pinEn : Bool := false
  pin : Nat := 0
  high : Nat := 0
  low : Nat := 3
  downK : Nat := 48
  hold : Nat := 8
  headroom : Nat := 10
  droopMv : Nat := 40
  next : Option (Bool × Nat × Nat × Nat) := none
  point : Nat := 0
  pending : Option OpPlan := none
  raised : Bool := false
  lowN : Nat := 0
  highN : Nat := 0
  capUnmet : Bool := false
  refused : Bool := false
  peakActive : Bool := false
  overridden : BitVec 4 := 0
  limWas : Nat := 64
  limFrom : Nat := 0
  kPow : Nat := 64
  kTh : Nat := 64
  kDroop : Mem Nat := []
  pkg : List Nat := []
  inp : List Nat := []
  inMv : W16 := 0
  hbmTemps : Mem Int := []
  juncTemps : Mem Int := []
  unmetUs : Nat := 0
  legK : Int := 0
  legN : Nat := 0
  kBefore : Nat := 64
  legMax : Nat × Nat := (0, 1)
  lastLeg : Option OpLeg := none
  hotSamples : Nat := 0
  hbmRound : List Nat := []
  hbmPrevHot : Bool := false
  hbmNowHot : Bool := false
  lastDroop : Option Nat := none
  held : Mem Nat := []
  rising : Mem Nat := []
  powerUs : W32 := 0
  peakUs : W32 := 0
  thermalUs : W32 := 0
  droopEvents : W32 := 0
  opChanges : W32 := 0
  opDeferred : W32 := 0
  glitches : W32 := 0
  events : Byte := 0
  railFault : BitVec 34 := 0
  sense : Byte := 0
  flowLowSince : Option Nat := none
  sbStuck : Bool := false
  stopStage : Nat := 0
  railsOn : Bool := false
  inputBad : Bool := false
  rangeNote : Bool := false
  shut : BitVec 34 := 0
  settleNs : Nat := 0
deriving DecidableEq, Repr

/-! ### Attestation, sideband, pins (18, 19) -/

/-- A measurement: its value and the time of its last change (R473, R475). -/
structure Meas where
  value : Block := 0
  time : Nat := 0
deriving DecidableEq, Repr

/-- A device-key signature in progress (R470, R474). -/
inductive SignJob where
  | challenge (slot : Nat) (nonce : Block)
  | measurements (nonce : Block) (blocks : List (Nat × Block))
  | keyExchange (exch : List Byte)
deriving DecidableEq, Repr

/-- The SPDM responder (R471); `session` is 0 with none, 1 from KEY_EXCHANGE, 2 once FINISH has completed it. -/
structure Spdm where
  version : Bool := false
  caps : Bool := false
  algs : Bool := false
  signing : Option (SignJob × Nat) := none
  session : Nat := 0
deriving DecidableEq, Repr

/-- The sideband target (R501, R502) and the pins (R494 to R499); `vaux` while the always-on domain has power. (DESIGN CHOICE, log 1) -/
structure Side where
  dyn : Option (BitVec 7) := none
  slot : BitVec 5 := 0
  offset : Byte := 0
  trayRstN : Bool := false
  perstN : Bool := false
  flowOk : Bool := false
  vaux : Bool := true
deriving DecidableEq, Repr

/-- What the module puts on its outputs, in order. (DEDUCED, log 76) -/
inductive Output where
  /-- A sync block on every usable link of a direction (R323). -/
  | sync (dir : Nat) (b : Block)
  /-- A TIME, HALT, ACK or NAK block on one link. -/
  | linkBlock (l : Nat) (b : Block)
  /-- A flit on one link. -/
  | flit (l : Nat) (h : Block) (p : List PWord)
  /-- A write to host memory, with its EP bit. -/
  | hostWrite (a : Nat) (data : List Byte) (ep : Bool)
  /-- A read of host memory: a watch line by CXL.cache or CXL.io, a descriptor, an image. -/
  | hostRead (a : Nat) (lines : Nat) (cache : Bool)
  /-- The value a register read returns. -/
  | regData (v : W32)
  /-- The line a CXL.mem read returns, and its poison indication. -/
  | memData (d : Line) (poison : Bool)
  /-- The answer to a snoop: hit in Shared or miss (R384). -/
  | snpResp (hit : Bool)
  /-- Bytes returned on the sideband, or the answer to a CCC. -/
  | sideband (d : List Byte)
  /-- An SPDM response, by its request's name, with the values the spec gives it. -/
  | spdm (name : String) (d : List Byte)
deriving DecidableEq, Repr

/-- The state of the module. `freeIx` is the model's own: the number of free values drawn so far. (DESIGN CHOICE, log 9) -/
structure State where
  pending : List Instr := []
  clk : Clock := {}
  time : TimeSt := {}
  pace : PaceSt := {}
  legRegs : LegRegs := {}
  series : Option Series := none
  groups : Mem Group := []
  conds : Conds := {}
  trace : Recorder := {}
  plan : Plan := {}
  mem : DevMem := {}
  pages : Mem W64 := []
  cores : Mem Core := []
  flagsHeld : Mem (Mem Bool) := []
  caddy : Mem CaddyEntry := []
  caddySt : Mem CaddySt := []
  fmt : Mem FmtEntry := []
  num : Numerics := {}
  gov : Gov := {}
  experts : Experts := {}
  lnk : LinkSys := {}
  chk : Checker := {}
  adopt : Option Adopt := none
  host : HostSt := {}
  boot : BootSt := {}
  flash : Flash := {}
  power : Power := {}
  meas : Mem Meas := []
  spdm : Spdm := {}
  side : Side := {}
  outbox : List Output := []
  freeIx : Nat := 0
deriving DecidableEq, Repr

/-- The module right after reset: power applied, TRAY_RST_N still low, nothing started (R422, R424). Every register
holds the reset value its table gives; what has none is named in the assumption log. (DESIGN CHOICE, log 1) -/
def State.reset : State := {}

end Sys2Proof.Machine
end

