-- ==== Sys2Proof/Machine/Bits.lean ====
section
/-! DEFINITION. Reading and writing banks and memories in canonical form, bit fields of words, blocks and lines,
byte order, signed fields, saturating counts, CRC-32C and small list helpers. Fields are byte offsets with bit
ranges of the 32-bit word there, little-endian (00_scope R13). -/

namespace Sys2Proof.Machine

/-! ### Banks -/

/-- The value at index `i`, `d` where nothing is listed. (DESIGN CHOICE, log 11) -/
def mget {α : Type} (d : α) : Mem α → Nat → α
  | [], _ => d
  | (k, v) :: r, i => if i < k then d else if i = k then v else mget d r i

/-- The bank with `v` at index `i`, in canonical form: an entry equal to the default is not listed. -/
def mset {α : Type} [DecidableEq α] (d : α) : Mem α → Nat → α → Mem α
  | [], i, v => if v = d then [] else [(i, v)]
  | (k, w) :: r, i, v =>
    if k < i then (k, w) :: mset d r i v
    else
      let rest := ((k, w) :: r).dropWhile (fun p => decide (p.1 ≤ i))
      if v = d then rest else (i, v) :: rest

/-- Indices are at least `lo`, strictly rising, and no entry equals the default. -/
def mwfFrom {α : Type} [DecidableEq α] (d : α) : Nat → Mem α → Bool
  | _, [] => true
  | lo, (k, v) :: r => decide (lo ≤ k) && decide (v ≠ d) && mwfFrom d (k + 1) r

/-- The canonical form of a bank whose unlisted indices read `d`. -/
def mwf {α : Type} [DecidableEq α] (d : α) (m : Mem α) : Bool := mwfFrom d 0 m

/-- The bank after `f` is applied to the value at index `i`. -/
def mupd {α : Type} [DecidableEq α] (d : α) (m : Mem α) (i : Nat) (f : α → α) : Mem α :=
  mset d m i (f (mget d m i))

/-- `f` run for `0, …, n − 1` in order. -/
def iter {α : Type} (n : Nat) (f : Nat → α → α) (a : α) : α :=
  (List.range n).foldl (fun x i => f i x) a

/-- A run of values written at rising indices from `i`. -/
def msetRun {α : Type} [DecidableEq α] (d : α) : Mem α → Nat → List α → Mem α
  | m, _, [] => m
  | m, i, v :: r => msetRun d (mset d m i v) (i + 1) r

/-- `n` values from index `i` up. -/
def mgetRun {α : Type} (d : α) (m : Mem α) (i n : Nat) : List α :=
  (List.range n).map (fun j => mget d m (i + j))

/-- The bank with every index from `lo` to `hi` − 1 at its default. -/
def mclear {α : Type} (m : Mem α) (lo hi : Nat) : Mem α :=
  m.filter (fun p => decide (p.1 < lo) || decide (hi ≤ p.1))

/-- The bank with `f` applied to every listed value, in canonical form. -/
def mmap {α : Type} [DecidableEq α] (d : α) (f : Nat → α → α) (m : Mem α) : Mem α :=
  (m.map (fun p => (p.1, f p.1 p.2))).filter (fun p => decide (p.2 ≠ d))

/-- The frame at an index of a stack replaced. -/
def setAt {α : Type} (l : List α) (i : Nat) (x : α) : List α := l.zipIdx.map (fun p => if p.2 = i then x else p.1)

/-! ### Fields -/

/-- Bits `lo` … `lo + w − 1` of a natural number. -/
def bits (x lo w : Nat) : Nat := (x >>> lo) % 2 ^ w

/-- Bit `i`. -/
def bit (x i : Nat) : Bool := x.testBit i

/-- `x` with bits `lo` … `lo + w − 1` replaced by `v`'s low bits. -/
def setBits (x lo w v : Nat) : Nat :=
  x - (bits x lo w) * 2 ^ lo + (v % 2 ^ w) * 2 ^ lo

/-- The `w`-bit field at byte offset `off`, bits `[lo + w − 1 : lo]`, of a line or block held as a number. -/
def fld (x off lo w : Nat) : Nat := bits x (8 * off + lo) w

/-- A `w`-bit two's complement field. -/
def sgn (x w : Nat) : Int := if x < 2 ^ (w - 1) then (x : Int) else (x : Int) - (2 ^ w : Nat)

/-- A value reduced to `w`-bit two's complement. -/
def unsgn (v : Int) (w : Nat) : Nat := (v % ((2 ^ w : Nat) : Int)).toNat

/-- A Bool as one bit. -/
def b2n (b : Bool) : Nat := if b then 1 else 0

/-- `v` placed at bit `lo` of a `w`-bit field. -/
def at' (v lo w : Nat) : Nat := (v % 2 ^ w) * 2 ^ lo

/-- A count held at its width's limit (00_scope R16's saturating counters). -/
def sat (w v : Nat) : Nat := min v (2 ^ w - 1)

/-- A 32-bit counter advanced and held at its limit. -/
def sat32 (x : W32) (n : Nat := 1) : W32 := BitVec.ofNat 32 (sat 32 (x.toNat + n))

/-- A 64-bit counter advanced and held at its limit. -/
def sat64 (x : W64) (n : Nat) : W64 := BitVec.ofNat 64 (sat 64 (x.toNat + n))

/-- An integer held within `lo … hi`. -/
def clampI (v lo hi : Int) : Int := if v < lo then lo else if v > hi then hi else v

/-- Division rounded up. -/
def cdiv (a b : Nat) : Nat := (a + b - 1) / b

/-! ### Bytes -/

/-- Bytes, lowest address first, as one little-endian number. -/
def leNat : List Byte → Nat
  | [] => 0
  | b :: r => b.toNat + 256 * leNat r

/-- The `n` little-endian bytes of a number. -/
def leBytes : Nat → Nat → List Byte
  | 0, _ => []
  | n + 1, x => BitVec.ofNat 8 x :: leBytes n (x / 256)

/-- The 64 bytes of a line. -/
def lineBytes (l : Line) : List Byte := leBytes 64 l.toNat

/-- A line from its bytes; absent bytes are 0. -/
def bytesLine (b : List Byte) : Line := BitVec.ofNat 512 (leNat (b.take 64))

/-- The 32 bytes of a block. -/
def blockBytes (l : Block) : List Byte := leBytes 32 l.toNat

/-- A list cut into pieces of `k` elements, at most `fuel` of them. -/
def chunksOf {α : Type} : Nat → Nat → List α → List (List α)
  | 0, _, _ => []
  | _, _, [] => []
  | f + 1, k, l => l.take k :: chunksOf f k (l.drop k)

/-! ### CRC-32C (12_links R320, R324; 10_sequencer R280) -/

/-- One bit of CRC-32C, reflected, polynomial 0x82F63B78. -/
def crcBit (c : Nat) : Nat := if c % 2 = 1 then (c / 2) ^^^ 0x82F63B78 else c / 2

/-- One byte of CRC-32C. -/
def crcByte (c : Nat) (b : Byte) : Nat := iter 8 (fun _ x => crcBit x) (c ^^^ b.toNat)

/-- CRC-32C of a byte string: initial value and final exclusive-or all ones. -/
def crc32c (bs : List Byte) : W32 := BitVec.ofNat 32 (bs.foldl crcByte 0xFFFFFFFF ^^^ 0xFFFFFFFF)

/-! ### Lists -/

/-- The first element that satisfies `p`, and the list without it. -/
def takeFirst {α : Type} (p : α → Bool) : List α → Option (α × List α)
  | [] => none
  | x :: r => if p x then some (x, r) else (takeFirst p r).map (fun q => (q.1, x :: q.2))

/-- The list with `f` applied to every element that satisfies `p`. -/
def updWhere {α : Type} (p : α → Bool) (f : α → α) (l : List α) : List α :=
  l.map (fun x => if p x then f x else x)

/-- A list sorted by a key, equal keys in their order. -/
def insertBy {α : Type} (key : α → Nat) (x : α) : List α → List α
  | [] => [x]
  | y :: r => if key x < key y then x :: y :: r else y :: insertBy key x r

/-- Stable insertion sort by a key. -/
def sortBy {α : Type} (key : α → Nat) (l : List α) : List α := l.foldl (fun acc x => insertBy key x acc) []

/-- The least element of a list of numbers, 0 for none. -/
def minOf : List Nat → Nat
  | [] => 0
  | x :: r => r.foldl min x

/-- The list cell at `i`, or `d`. -/
def nth {α : Type} (d : α) (l : List α) (i : Nat) : α := l.getD i d

end Sys2Proof.Machine
end

