-- ==== Sys2Proof/Machine/Fp.lean ====
section
/-! DEFINITION. Exact binary values, the element formats of R142, one rounding per result (R144, R145), the fixed
results of R156, the conversions of R151 and R153, and the Philox generator of R154 (05_numerics). -/

namespace Sys2Proof.Machine

/-- A number as the formats of R142 hold it: ±m·2^e, an infinity, or the one NaN (R143). -/
inductive Val where
  | nan
  | inf (neg : Bool)
  | fin (neg : Bool) (m : Nat) (e : Int)
deriving DecidableEq, Repr

/-- How a format reads its top exponent code. -/
inductive Top where
  | ieee | nanOnly | none
deriving DecidableEq, Repr

/-- A binary format: width of a value, precision with the hidden bit, exponent of the last place of a subnormal,
and the largest finite magnitude as `maxM`·2^`maxE`. -/
structure Fmt where
  width : Nat
  p : Nat
  qmin : Int
  maxM : Nat
  maxE : Int
  top : Top
deriving DecidableEq, Repr

/-- FP32 (R142). -/
def fp32 : Fmt := { width := 32, p := 24, qmin := -149, maxM := 16777215, maxE := 104, top := .ieee }
/-- BF16. -/
def bf16 : Fmt := { width := 16, p := 8, qmin := -133, maxM := 255, maxE := 120, top := .ieee }
/-- FP16. -/
def fp16 : Fmt := { width := 16, p := 11, qmin := -24, maxM := 2047, maxE := 5, top := .ieee }
/-- FP8 E4M3. -/
def e4m3 : Fmt := { width := 8, p := 4, qmin := -9, maxM := 14, maxE := 5, top := .nanOnly }
/-- FP8 E5M2. -/
def e5m2 : Fmt := { width := 8, p := 3, qmin := -16, maxM := 7, maxE := 13, top := .ieee }
/-- FP6 E3M2. -/
def e3m2 : Fmt := { width := 6, p := 3, qmin := -4, maxM := 7, maxE := 2, top := .none }
/-- FP6 E2M3. -/
def e2m3 : Fmt := { width := 6, p := 4, qmin := -3, maxM := 15, maxE := -1, top := .none }
/-- FP4 E2M1. -/
def e2m1 : Fmt := { width := 4, p := 2, qmin := -1, maxM := 3, maxE := 1, top := .none }

/-- The format of a code of R109, INT8 (0x5) apart; 0x8 is FP32 (R223). -/
def fmtOf (code : Nat) : Fmt :=
  if code = 0 then e4m3 else if code = 1 then e5m2 else if code = 2 then e3m2 else if code = 3 then e2m3
  else if code = 4 then e2m1 else if code = 6 then bf16 else if code = 7 then fp16 else fp32

/-- Bits per element of a format code (R142). -/
def fmtBits (code : Nat) : Nat := if code = 5 then 8 else (fmtOf code).width

/-- m·2^e as an integer number of 2^q, for q ≤ e. -/
def scaleTo (m : Nat) (e q : Int) : Nat := m * 2 ^ (e - q).toNat

/-- m·2^k for any integer k ≥ 0, floored for k < 0. -/
def shl (m : Nat) (k : Int) : Nat := if 0 ≤ k then m * 2 ^ k.toNat else m / 2 ^ (-k).toNat

/-- Round half to even after dropping `k` low bits. -/
def rneShift (m k : Nat) : Nat :=
  let n := m / 2 ^ k
  let r := m % 2 ^ k
  if k = 0 then m
  else if 2 * r > 2 ^ k then n + 1
  else if 2 * r = 2 ^ k then n + n % 2
  else n

/-- Truncation with the 16-bit random number of R153 added: up when r < floor(d·65536/u). -/
def srShift (r m k : Nat) : Nat :=
  let n := m / 2 ^ k
  if k = 0 then m
  else if r < (m % 2 ^ k) * 65536 / 2 ^ k then n + 1 else n

/-- The exponent of the last place kept for a magnitude m·2^e in a format. -/
def lastPlace (f : Fmt) (m : Nat) (e : Int) : Int := max ((Nat.log2 m : Int) + e - ((f.p : Int) - 1)) f.qmin

/-- A finite value rounded to a format's precision by `sh`, with no bound on its size. -/
def roundWith (f : Fmt) (sh : Nat → Nat → Nat) (neg : Bool) (m : Nat) (e : Int) : Val :=
  if m = 0 then .fin neg 0 f.qmin
  else
    let q := lastPlace f m e
    if q ≤ e then .fin neg m e else .fin neg (sh m (q - e).toNat) q

/-- Whether |m·2^e| is beyond the largest finite value. -/
def beyond (f : Fmt) (m : Nat) (e : Int) : Bool :=
  let q := min e f.maxE
  decide (scaleTo f.maxM f.maxE q < scaleTo m e q)

/-- Round to nearest even into an arithmetic format: beyond its range is an infinity (R144, R156). -/
def roundRne (f : Fmt) : Val → Val
  | .nan => .nan
  | .inf s => .inf s
  | .fin s m e =>
    match roundWith f rneShift s m e with
    | .fin s' m' e' => if beyond f m' e' then .inf s else .fin s' m' e'
    | v => v

/-- The bits of a magnitude that the format holds exactly. -/
def magBits (f : Fmt) (m : Nat) (e : Int) : Nat :=
  if m = 0 then 0
  else
    let q := lastPlace f m e
    let n := shl m (e - q)
    ((q - f.qmin).toNat) * 2 ^ (f.p - 1) + n

/-- The canonical NaN of a format (R143), with a sign for the E4M3 overflow of R151. -/
def nanBits (f : Fmt) (neg : Bool) : Nat :=
  match f.top with
  | .ieee => if f.p = 3 then 0x7E else 2 ^ (f.width - 1) - 2 ^ (f.p - 2)
  | .nanOnly => 0x7F + b2n neg * 0x80
  | .none => 0

/-- The encoding of a value that the format holds. -/
def enc (f : Fmt) : Val → Nat
  | .nan => nanBits f false
  | .inf s => b2n s * 2 ^ (f.width - 1) + (2 ^ (f.width - 1) - 2 ^ (f.p - 1))
  | .fin s m e => b2n s * 2 ^ (f.width - 1) + magBits f m e

/-- The value of an encoding (R142, R143). -/
def dec (f : Fmt) (x : Nat) : Val :=
  let s := bit x (f.width - 1)
  let ef := bits x (f.p - 1) (f.width - f.p)
  let mf := bits x 0 (f.p - 1)
  let tope := 2 ^ (f.width - f.p) - 1
  if f.top = .ieee ∧ ef = tope then (if mf = 0 then .inf s else .nan)
  else if f.top = .nanOnly ∧ ef = tope ∧ mf = 2 ^ (f.p - 1) - 1 then .nan
  else if ef = 0 then .fin s mf f.qmin
  else .fin s (2 ^ (f.p - 1) + mf) (f.qmin + (ef : Int) - 1)

/-- An element of a format code as a value; INT8 is a signed integer. -/
def decCode (code x : Nat) : Val :=
  if code = 5 then
    let v := sgn (bits x 0 8) 8
    .fin (decide (v < 0)) v.natAbs 0
  else dec (fmtOf code) (bits x 0 (fmtBits code))

/-- The value of an FP32 word. -/
def v32 (x : W32) : Val := dec fp32 x.toNat

/-- The FP32 word of a value, rounded once. -/
def r32 (v : Val) : W32 := BitVec.ofNat 32 (enc fp32 (roundRne fp32 v))

/-! ### Exact arithmetic -/

/-- Whether a value is a zero. -/
def Val.isZero : Val → Bool
  | .fin _ 0 _ => true
  | _ => false

/-- Negation; NaN stays. -/
def Val.negate : Val → Val
  | .nan => .nan
  | .inf s => .inf !s
  | .fin s m e => .fin (!s) m e

/-- Magnitude; NaN stays. -/
def Val.abs : Val → Val
  | .nan => .nan
  | .inf _ => .inf false
  | .fin _ m e => .fin false m e

/-- The exact product, with R156's fixed results. -/
def vmul : Val → Val → Val
  | .nan, _ => .nan
  | _, .nan => .nan
  | .inf s, .inf t => .inf (s != t)
  | .inf s, .fin t m _ => if m = 0 then .nan else .inf (s != t)
  | .fin s m _, .inf t => if m = 0 then .nan else .inf (s != t)
  | .fin s m e, .fin t n g => .fin (s != t) (m * n) (e + g)

/-- The exact sum, with R156's fixed results; an exact zero is +0 unless both operands are −0. -/
def vadd : Val → Val → Val
  | .nan, _ => .nan
  | _, .nan => .nan
  | .inf s, .inf t => if s = t then .inf s else .nan
  | .inf s, .fin _ _ _ => .inf s
  | .fin _ _ _, .inf t => .inf t
  | .fin s m e, .fin t n g =>
    let q := min e g
    let a := scaleTo m e q
    let b := scaleTo n g q
    if s = t then .fin s (a + b) q
    else if a = b then .fin false 0 q
    else if b < a then .fin s (a - b) q
    else .fin t (b - a) q

/-- a < b on values; false with a NaN (R156). -/
def vlt (a b : Val) : Bool :=
  match a, b with
  | .nan, _ => false
  | _, .nan => false
  | .inf s, .inf t => s && !t
  | .inf s, .fin _ _ _ => s
  | .fin _ _ _, .inf t => !t
  | .fin s m e, .fin t n g =>
    let q := min e g
    let x : Int := if s then -(scaleTo m e q : Int) else scaleTo m e q
    let y : Int := if t then -(scaleTo n g q : Int) else scaleTo n g q
    decide (x < y)

/-- a = b on values, +0 = −0; false with a NaN. -/
def veq (a b : Val) : Bool := (a != .nan) && (b != .nan) && !vlt a b && !vlt b a

/-- Maximum with NaN propagating (R156); of equal operands the first. -/
def vmax (a b : Val) : Val :=
  if a = .nan ∨ b = .nan then .nan else if vlt a b then b else a

/-- Minimum with NaN propagating (R156); of equal operands the first. -/
def vmin (a b : Val) : Val :=
  if a = .nan ∨ b = .nan then .nan else if vlt b a then b else a

/-- x·2^k, exact. -/
def vscale (k : Int) : Val → Val
  | .fin s m e => .fin s m (e + k)
  | v => v

/-- A natural number as a value. -/
def vnat (n : Nat) : Val := .fin false n 0

/-- An integer as a value. -/
def vint (n : Int) : Val := .fin (decide (n < 0)) n.natAbs 0

/-- FP32 sum, rounded once. -/
def f32add (a b : W32) : W32 := r32 (vadd (v32 a) (v32 b))
/-- FP32 difference, rounded once. -/
def f32sub (a b : W32) : W32 := r32 (vadd (v32 a) (v32 b).negate)
/-- FP32 product, rounded once. -/
def f32mul (a b : W32) : W32 := r32 (vmul (v32 a) (v32 b))
/-- FP32 a·b + c, rounded once. -/
def f32fma (a b c : W32) : W32 := r32 (vadd (vmul (v32 a) (v32 b)) (v32 c))

/-- The quotient of two finite values rounded once to a format: the exact quotient to more places than the format
keeps, with a last bit for what is left (R156: x/0, 0/0 and infinities as IEEE 754 gives them). -/
def vdiv (f : Fmt) : Val → Val → Val
  | .nan, _ => .nan
  | _, .nan => .nan
  | .inf _, .inf _ => .nan
  | .inf s, .fin t _ _ => .inf (s != t)
  | .fin s _ _, .inf t => .fin (s != t) 0 0
  | .fin s m e, .fin t n g =>
    if n = 0 then (if m = 0 then .nan else .inf (s != t))
    else if m = 0 then .fin (s != t) 0 0
    else
      let k := f.p + 3 + Nat.log2 n
      let num := m * 2 ^ k
      let q := num / n
      let st := if num % n = 0 then 0 else 1
      roundRne f (.fin (s != t) (2 * q + st) (e - g - k - 1))

/-- One step of the integer square root by bits from the top. -/
def isqrtAux : Nat → Nat → Nat → Nat
  | 0, _, r => r
  | k + 1, n, r =>
    let c := r + 2 ^ k
    isqrtAux k n (if c * c ≤ n then c else r)

/-- Floor of the square root. -/
def isqrt (n : Nat) : Nat := isqrtAux (Nat.log2 n / 2 + 1) n 0

/-- The square root of a non-negative value rounded once to a format; −0 gives −0, a negative NaN. -/
def vsqrt (f : Fmt) : Val → Val
  | .nan => .nan
  | .inf s => if s then .nan else .inf false
  | .fin s m e =>
    if m = 0 then .fin s 0 0
    else if s then .nan
    else
      let k0 := 2 * (f.p + 3)
      let k := if (e - k0) % 2 = 0 then k0 else k0 + 1
      let n := m * 2 ^ k
      let r := isqrt n
      let st := if r * r = n then 0 else 1
      roundRne f (.fin false (2 * r + st) ((e - k) / 2 - 1))

/-! ### Conversion (R151 to R155) -/

/-- What a conversion gives: the bits, whether it was held at a limit, and whether a NaN was lost. -/
structure Conv where
  bits : Nat
  sat : Bool
  nanLost : Bool
deriving DecidableEq, Repr

/-- The largest finite magnitude's encoding, with a sign. -/
def limitBits (f : Fmt) (neg : Bool) : Nat := enc f (.fin neg f.maxM f.maxE)

/-- Conversion to INT8: round to an integer, hold at −128 and 127, NaN to 0 (R151). -/
def convInt8 (sh : Nat → Nat → Nat) : Val → Conv
  | .nan => { bits := 0, sat := false, nanLost := true }
  | .inf s => { bits := if s then 0x80 else 0x7F, sat := true, nanLost := false }
  | .fin s m e =>
    let n := if 0 ≤ e then m * 2 ^ e.toNat else sh m (-e).toNat
    let v : Int := if s then -(n : Int) else n
    if v > 127 then { bits := 0x7F, sat := true, nanLost := false }
    else if v < -128 then { bits := 0x80, sat := true, nanLost := false }
    else { bits := unsgn v 8, sat := false, nanLost := false }

/-- Conversion to a format by the rounding `sh`, with the OVF setting (`ieee` is OVF 1) (R151). -/
def convFmt (f : Fmt) (ieee : Bool) (sh : Nat → Nat → Nat) : Val → Conv
  | .nan =>
    match f.top with
    | .none => { bits := 0, sat := false, nanLost := true }
    | _ => { bits := nanBits f false, sat := false, nanLost := false }
  | .inf s =>
    match f.top with
    | .none => { bits := limitBits f s, sat := true, nanLost := false }
    | .nanOnly =>
      if ieee then { bits := nanBits f false, sat := false, nanLost := false }
      else { bits := limitBits f s, sat := true, nanLost := false }
    | .ieee =>
      if ieee then { bits := enc f (.inf s), sat := false, nanLost := false }
      else { bits := limitBits f s, sat := true, nanLost := false }
  | .fin s m e =>
    match roundWith f sh s m e with
    | .fin s' m' e' =>
      if beyond f m' e' then
        match f.top with
        | .none => { bits := limitBits f s, sat := true, nanLost := false }
        | .nanOnly =>
          if ieee then { bits := nanBits f s, sat := false, nanLost := false }
          else { bits := limitBits f s, sat := true, nanLost := false }
        | .ieee =>
          if ieee then { bits := enc f (.inf s), sat := false, nanLost := false }
          else { bits := limitBits f s, sat := true, nanLost := false }
      else { bits := enc f (.fin s' m' e'), sat := false, nanLost := false }
    | _ => { bits := 0, sat := false, nanLost := false }

/-- Conversion to a target code of R109 or 0x8 FP32. `sr` is the random number of a stochastic rounding, none for
round to nearest even. -/
def convTo (code : Nat) (ieee : Bool) (sr : Option Nat) (v : Val) : Conv :=
  let sh := match sr with
    | none => rneShift
    | some r => srShift r
  if code = 5 then convInt8 sh v else convFmt (fmtOf code) ieee sh v

/-- The E8M0 code of a block whose finite magnitudes are given (R152): floor(log2 of the largest) − 8, clamped, or
0x7F with no finite non-zero element. -/
def blockScale (vs : List Val) : Nat :=
  let top := vs.foldl (fun (a : Option Int) v =>
    match v with
    | .fin _ m e =>
      if m = 0 then a
      else
        let l := (Nat.log2 m : Int) + e
        match a with
        | none => some l
        | some x => some (max x l)
    | _ => a) none
  match top with
  | none => 0x7F
  | some l => (clampI (l - 8) (-127) 127 + 127).toNat

/-- The factor 2^(e − 127) of an E8M0 code; 0xFF is NaN (R143, R156). -/
def e8m0 (x : Nat) : Val := if x = 255 then .nan else .fin false 1 ((x : Int) - 127)

/-! ### Philox-4×32-10 (R154) -/

/-- One round: the counter's four words under the two key words. -/
def philoxRound (c : Nat × Nat × Nat × Nat) (k0 k1 : Nat) : Nat × Nat × Nat × Nat :=
  let p0 := 0xD2511F53 * c.1
  let p1 := 0xCD9E8D57 * c.2.2.1
  ((p1 / 2 ^ 32) ^^^ c.2.1 ^^^ k0, p1 % 2 ^ 32, (p0 / 2 ^ 32) ^^^ c.2.2.2 ^^^ k1, p0 % 2 ^ 32)

/-- Ten rounds, the key bumped by the Weyl constants between rounds. -/
def philox (c : Nat × Nat × Nat × Nat) (k0 k1 : Nat) : Nat × Nat × Nat × Nat :=
  iter 10 (fun i x => philoxRound x ((k0 + i * 0x9E3779B9) % 2 ^ 32) ((k1 + i * 0xBB67AE85) % 2 ^ 32)) c

/-- The 16-bit random number of element `e` (R154). -/
def randomBits (seed : W64) (leg drawId e : Nat) : Nat :=
  let k := seed.toNat
  let o := philox (e / 4 % 2 ^ 32, drawId, leg % 2 ^ 32, bits leg 32 16) (k % 2 ^ 32) (k / 2 ^ 32)
  let w := if e % 4 = 0 then o.1 else if e % 4 = 1 then o.2.1 else if e % 4 = 2 then o.2.2.1 else o.2.2.2
  bits w 16 16

end Sys2Proof.Machine
end

