-- ==== Sys2Proof/Machine/Sha.lean ====
section
/-! DEFINITION. SHA-256 over a byte string (FIPS 180-4), which the spec uses for measurements, digests and the
device identity (18_identity_replay). Its constants are computed from the primes that FIPS 180-4 takes them from. -/

namespace Sys2Proof.Machine

/-- The largest number of `k` further bits below `r` whose `n`-th power does not exceed `x`, `r` included. -/
def rootFloor (n x : Nat) : Nat → Nat → Nat
  | 0, r => r
  | k + 1, r => rootFloor n x k (if (r + 2 ^ k) ^ n ≤ x then r + 2 ^ k else r)

/-- The first 64 primes: 311 is the last of them, and 19² exceeds it. -/
def shaPrimes : List Nat :=
  (List.range 312).filter (fun p => decide (2 ≤ p) && [2, 3, 5, 7, 11, 13, 17].all (fun d => p == d || p % d != 0))

/-- The first 32 bits of the fraction of a prime's `n`-th root. -/
def rootBits (n p : Nat) : W32 := BitVec.ofNat 32 (rootFloor n (p * 2 ^ (32 * n)) 36 0)

/-- The working variables a to h. -/
structure ShaVars where
  a : W32
  b : W32
  c : W32
  d : W32
  e : W32
  f : W32
  g : W32
  h : W32
deriving DecidableEq, Repr

/-- The hash value before the first block. -/
def ShaVars.start : ShaVars :=
  let r (i : Nat) : W32 := rootBits 2 (nth 0 shaPrimes i)
  ⟨r 0, r 1, r 2, r 3, r 4, r 5, r 6, r 7⟩

/-- The words in order. -/
def ShaVars.words (v : ShaVars) : List W32 := [v.a, v.b, v.c, v.d, v.e, v.f, v.g, v.h]

/-- Word by word sums. -/
def ShaVars.plus (v u : ShaVars) : ShaVars :=
  ⟨v.a + u.a, v.b + u.b, v.c + u.c, v.d + u.d, v.e + u.e, v.f + u.f, v.g + u.g, v.h + u.h⟩

/-- Exclusive or of a word turned right by each of some counts. -/
def turned (x : W32) (counts : List Nat) : W32 := counts.foldl (fun acc n => acc ^^^ x.rotateRight n) 0

/-- A round with the sum of its constant and its schedule word. -/
def ShaVars.round (v : ShaVars) (kw : W32) : ShaVars :=
  let pick := v.g ^^^ (v.e &&& (v.f ^^^ v.g))
  let most := (v.a &&& (v.b ||| v.c)) ||| (v.b &&& v.c)
  let x := kw + v.h + turned v.e [6, 11, 25] + pick
  ⟨x + turned v.a [2, 13, 22] + most, v.a, v.b, v.c, v.d + x, v.e, v.f, v.g⟩

/-- The schedule as a window of 16 words, the present round's first: the window of the next round. -/
def shaSlide (w : List W32) : List W32 :=
  let p := nth 0 w 1
  let q := nth 0 w 14
  w.drop 1 ++ [nth 0 w 0 + (turned p [7, 18] ^^^ (p >>> 3)) + nth 0 w 9 + (turned q [17, 19] ^^^ (q >>> 10))]

/-- The hash value after a block of 16 words. -/
def ShaVars.block (v : ShaVars) (w : List W32) : ShaVars :=
  v.plus (shaPrimes.foldl (fun (st : ShaVars × List W32) p => (st.1.round (rootBits 3 p + nth 0 st.2 0), shaSlide st.2)) (v, w)).1

/-- The bytes of a word, highest first. -/
def beBytes (n x : Nat) : List Byte := (leBytes n x).reverse

/-- The message with its end mark, zeros, and its length in bits as eight bytes, a whole number of blocks. -/
def shaPadded (m : List Byte) : List Byte :=
  let len := 64 * cdiv (m.length + 9) 64
  m ++ 0x80 :: List.replicate (len - m.length - 9) 0 ++ beBytes 8 (8 * m.length)

/-- SHA-256, its 32 bytes in order. -/
def sha256 (m : List Byte) : List Byte :=
  let p := shaPadded m
  let v := (chunksOf (p.length / 64) 64 p).foldl
    (fun v b => v.block ((chunksOf 16 4 b).map (fun q => BitVec.ofNat 32 (leNat q.reverse)))) ShaVars.start
  v.words.flatMap (fun w => beBytes 4 w.toNat)

/-- SHA-256 as a block whose byte 0 is the digest's first byte. -/
def shaBlock256 (m : List Byte) : Block := BitVec.ofNat 256 (leNat (sha256 m))

end Sys2Proof.Machine
end

