-- ==== Sys2Proof/Machine/Ops.lean ====
section
/-! DEFINITION. The named operations that the commands share: legs and time, the Trace Recorder's waymarks and
capture, cores and the floor plan, device memory with poison and translation, completions of descriptors. -/

namespace Sys2Proof.Machine

/-- What a command answers. -/
abbrev Out := Host.Outcome State Fault Refusal

/-- A command that happens when its rule's condition holds, and otherwise does not happen: the state stands. -/
def happen (c : Bool) (s t : State) : Out := .next (if c then t else s)

/-! ### Outputs, time and legs -/

/-- Whether an output leaves a module that a replay feeds: what goes to links and host memory is discarded (R486). (DEDUCED, log 76) -/
def Output.passes : Output → Bool
  | .sync _ _ => false
  | .linkBlock _ _ => false
  | .flit _ _ _ => false
  | .hostWrite _ _ _ => false
  | .hostRead _ _ _ => false
  | _ => true

/-- Whether a replay feeds the module (R484). -/
def State.feeding (s : State) : Bool := s.trace.replay == .feeding

/-- Whether the CXL port is held in reset, so that no request reaches the host; a replay uses no host (R486, R498). -/
def State.portHeld (s : State) : Bool := !s.side.perstN && !s.feeding

/-- Whether an output is a request to host memory. -/
def Output.toHost : Output → Bool
  | .hostWrite _ _ _ => true
  | .hostRead _ _ _ => true
  | _ => false

/-- An output, after those before it. (DEDUCED, log 76) -/
def State.emit (s : State) (o : Output) : State :=
  if (s.feeding && !o.passes) || (s.portHeld && o.toHost) then s else { s with outbox := s.outbox ++ [o] }

/-- The value of a register read (R391). -/
def State.answer (s : State) (v : Nat) : State := s.emit (.regData (BitVec.ofNat 32 v))

/-- The module's coordinate as R52 encodes it. -/
def State.coord (s : State) : W16 := s.lnk.ctrl.coord

/-- The group record of a number. -/
def State.group (s : State) (g : Nat) : Group := mget {} s.groups g

/-- The state with a group record changed. -/
def State.setGroup (s : State) (g : Nat) (r : Group) : State := { s with groups := mset {} s.groups g r }

/-- A LEG group in RUNNING, HELD or OVER_LIMIT (R45, R57). -/
def Group.legActive (g : Group) : Bool :=
  !g.barrier && (g.st == .running || g.st == .held || g.st == .overLimit)

/-- The numbers of the module's active LEG groups. -/
def State.activeLegs (s : State) : List Nat := (s.groups.filter (fun p => p.2.legActive)).map (·.1)

/-- Whether a LEG group is active on the module. -/
def State.legOn (s : State) : Bool := s.groups.any (fun p => p.2.legActive)

/-- The number of the leg in progress, 0 with none (R21, R60). -/
def State.legNow (s : State) : Nat :=
  match s.series with
  | none => 0
  | some r => if r.opened.isSome then r.legNo else 0

/-- The descriptor job tag of a group. -/
def State.jobOf (s : State) (g : Nat) : W16 := (s.group g).jobTag

/-- MHz of the operating point in effect (R7). -/
def pointMhz (p : Nat) : Nat := if p = 0 then 700 else if p = 1 then 600 else if p = 2 then 500 else 350

/-- Arithmetic-clock cycles since the latest milepost or phase point (R57). -/
def State.cycle (s : State) : Nat := (s.clk.milli - s.clk.phaseMilli) / 1000

/-- Arithmetic-clock cycles since power-on. -/
def State.cycles (s : State) : Nat := s.clk.milli / 1000

/-- Road-mesh cycles, 1.4 GHz, since the latest milepost or phase point (R59, R479). -/
def State.meshCycle (s : State) : Nat := (s.clk.ns - s.clk.phaseNs) * 14 / 10

/-- The dividers re-phased and every arbiter at 0; cycle 0 is a window's first, from which a new limit applies (R57, R322, R445). -/
def State.rephase (s : State) : State :=
  { s with
    clk := { s.clk with phaseNs := s.clk.ns, phaseMilli := s.clk.milli }
    lnk := { s.lnk with links := mmap {} (fun _ x => { x with rr := 0, qrr := 0 }) s.lnk.links }
    host := { s.host with ringRr := 0 }
    power := { s.power with limFrom := 0 }
    cores := mmap {} (fun _ k => { k with arb := [], lately := [] }) s.cores }

/-! ### Units (R52) -/

/-- A unit code from its parts. -/
def unitCode (die row col blk : Nat) : Nat := at' die 14 2 + at' row 9 5 + at' col 5 4 + at' blk 0 5

/-- The unit code of a block of core site `c` (R75 index). -/
def coreUnit (c blk : Nat) : Nat := unitCode (c / 288) (c % 288 / 16) (c % 16) blk

/-- The core index of a unit code, none when it names no core site. -/
def coreOfUnit (u : Nat) : Option Nat :=
  if bits u 9 5 < 18 then some (288 * bits u 14 2 + 16 * bits u 9 5 + bits u 5 4) else none

/-- The link port's unit code. -/
def linkUnit (l : Nat) : Nat := unitCode (l / 6) 31 (l % 6) 18

/-- The memory controller's unit code, by entry number of R75. -/
def devUnit (d : Nat) : Nat :=
  if d < 8 then unitCode (d / 2) 31 (d % 2) 16 else unitCode ((d - 8) / 3) 31 ((d - 8) % 3) 17

/-- The Module Controller's unit code. -/
def mcUnit : Nat := unitCode 0 31 0 20
/-- The power and thermal unit's code. -/
def pwrUnit : Nat := unitCode 0 31 0 22
/-- The milepost network's unit code. -/
def mpUnit : Nat := unitCode 0 31 0 21
/-- The CXL controller's unit code. -/
def cxlUnit : Nat := unitCode 0 31 0 19

/-! ### The Trace Recorder (R477 to R481) -/

/-- Lines of the capture window. -/
def Recorder.capRoom (r : Recorder) : Nat := r.cap2mNow.toNat * 32768

/-- Slots of the event ring. -/
def Recorder.slots (r : Recorder) : Nat := r.ring2mNow.toNat * 65536

/-- The first line of a capture record (R479). -/
def capHead (time kind lines source cseq cyc leg addr inl : Nat) : Line :=
  BitVec.ofNat 512 (at' time 0 64 + at' lines 64 16 + at' kind 88 8 + at' cseq 96 16 + at' source 112 16
    + at' cyc 128 32 + at' leg 160 32 + at' addr 192 64 + at' inl 256 256)

/-- The sequence number of a source's next record; a source is told apart by its kind (R479). (DEDUCED, log 72) -/
def capKey (kind source : Nat) : Nat := kind * 65536 + source

/-- A record written at the end of what has been captured. -/
def Recorder.put (r : Recorder) (head : Line) (rest : List Line) (key : Nat) : Recorder :=
  { r with
    capture := msetRun 0 r.capture r.capLines (head :: rest)
    capLines := r.capLines + 1 + rest.length
    cseq := mset 0 r.cseq key ((mget 0 r.cseq key + 1) % 65536) }

/-- Capture ended with a reason, its END record written (R479, R480). -/
def State.endCapture (s : State) (reason : Nat) : State :=
  if s.trace.capActive then
    let r := s.trace
    let h := capHead s.time.now 9 0 reason (mget 0 r.cseq (capKey 9 reason))
      (if s.legOn then s.meshCycle else 0xFFFFFFFF) s.legNow 0 0
    { s with trace := { r.put h [] (capKey 9 reason) with capActive := false, endReason := reason } }
  else s

/-- A boundary input passed to the recorder (R479). The window keeps its last line for the END record. (DEDUCED, log 72) -/
def State.captureIn (s : State) (kind source addr inl : Nat) (rest : List Line) : State :=
  if s.trace.capActive && s.trace.capSel.toNat.testBit (kind - 1) then
    let r := s.trace
    if r.capLines + 2 + rest.length ≤ r.capRoom then
      let h := capHead s.time.now kind rest.length source (mget 0 r.cseq (capKey kind source))
        (if s.legOn then s.meshCycle else 0xFFFFFFFF) s.legNow addr inl
      { s with trace := r.put h rest (capKey kind source) }
    else s.endCapture 2
  else s

/-- A waymark record offered to the event ring (R477). (DEDUCED, log 72) -/
def Recorder.record (r : Recorder) (w : Waymark) : Recorder :=
  let w' := { w with seq := r.seq, dropBefore := r.dropFlag }
  let r' := { r with seq := (r.seq + 1) % 4096 }
  if !r.eventEn then r'
  else if r.ringFull then { r' with dropped := sat32 r.dropped, dropFlag := true }
  else if r.slots ≤ r.nextIx && !r.wrap then { r' with ringFull := true, dropped := sat32 r.dropped, dropFlag := true }
  else
    { r' with
      ring := (r.ring.filter (fun p => p.1 != r.nextIx % r.slots)).takeWhile (fun p => p.1 < r.nextIx % r.slots)
        ++ (r.nextIx % r.slots, w') :: (r.ring.dropWhile (fun p => p.1 ≤ r.nextIx % r.slots))
      nextIx := r.nextIx + 1
      dropFlag := false }

/-- A waymark recorded at time `t` (R51, R53), with a FAULT ending capture under FREEZE_ON_FAULT (R480). -/
def State.markAt (s : State) (t kind cause group : Nat) (origin : W16) (unit : Nat) (job : W16) (leg payload : Nat) : State :=
  let w : Waymark := { time := t, kind := kind, cause := cause, dropBefore := false, group := group, seq := 0, origin := origin, unit := BitVec.ofNat 16 unit, jobTag := job, legNo := leg, payload := BitVec.ofNat 64 payload }
  let s' := { s with trace := s.trace.record w }
  if kind = 0x12 ∧ s.trace.freezeOnFault then s'.endCapture 1 else s'

/-- A waymark of the module itself at the present time. (DEDUCED, log 72) -/
def State.mark (s : State) (kind cause group unit payload : Nat) : State :=
  s.markAt s.time.now kind cause group s.coord unit (if group = 0 ∧ kind ≥ 0x11 then 0 else s.jobOf group) s.legNow payload

/-- A waymark of the module that names a sync group, with the group's job tag (R51, R274). -/
def State.markOf (s : State) (kind group unit payload : Nat) : State :=
  s.markAt s.time.now kind 0 group s.coord unit (s.jobOf group) s.legNow payload

/-- A FAULT waymark with a status in [63:56] and further payload bits. -/
def State.faultMark (s : State) (unit status rest : Nat) : State := s.mark 0x12 0 0 unit (at' status 56 8 + rest)

/-! ### Free values -/

/-- A free word drawn. (DESIGN CHOICE, log 9) -/
def State.free32 (s : State) : W32 × State := (Config.freeWord s.freeIx, { s with freeIx := s.freeIx + 1 })

/-- A free 64-bit word drawn. (DESIGN CHOICE, log 9) -/
def State.free64 (s : State) : W64 × State := (Config.freeWord64 s.freeIx, { s with freeIx := s.freeIx + 1 })

/-! ### Cores -/

/-- A core's record. -/
def State.core (s : State) (c : Nat) : Core := mget {} s.cores c

/-- The state with a core's record changed. -/
def State.setCore (s : State) (c : Nat) (k : Core) : State := { s with cores := mset {} s.cores c k }

/-- The state with `f` applied to a core's record. -/
def State.updCore (s : State) (c : Nat) (f : Core → Core) : State := s.setCore c (f (s.core c))

/-- A core's counter advanced, saturating (R111). -/
def Core.count (k : Core) (off n : Nat) : Core :=
  { k with counters := mset 0 k.counters off (sat64 (mget 0 k.counters off) n) }

/-- Several counters advanced. -/
def Core.counts (k : Core) (l : List (Nat × Nat)) : Core := l.foldl (fun a p => a.count p.1 p.2) k

/-- The floor-plan entry of a core. -/
def State.coreEntry (s : State) (c : Nat) : CoreEntry := mget {} s.plan.cores c

/-- Whether a core is usable: a record is valid and the entry says so (R17). -/
def State.coreOk (s : State) (c : Nat) : Bool := s.plan.valid && decide (c < 1152) && (s.coreEntry c).usable

/-- The usable cores in index order (R75). -/
def State.usableCores (s : State) : List Nat := (List.range 1152).filter s.coreOk

/-- W of a core (R65). -/
def State.width (s : State) (c : Nat) : Nat := (s.coreEntry c).width

/-! ### The floor-plan record (R75 to R80) -/

/-- A core entry's bytes (R77). -/
def coreEntryNat (e : CoreEntry) : Nat :=
  at' (b2n e.usable) 63 1 + at' (b2n e.sessionAbsent) 62 1 + at' (b2n e.newDefect) 61 1 + at' e.cause 56 4
  + at' (if e.usable then e.width else 0) 48 8 + at' e.badCols.length 40 8 + at' e.newCols 32 8
  + at' e.fuseBlocks.toNat 16 16 + at' e.testBlocks.toNat 0 16

/-- A link entry's bytes (R79). -/
def linkEntryNat (e : LinkEntry) : Nat :=
  at' (b2n e.usable) 31 1 + at' (b2n e.newDefect) 30 1 + at' e.spareFor 26 3 + at' e.badLanes.toNat 21 5

/-- A memory entry's bytes (R79). -/
def memEntryNat (i : Nat) (e : MemEntry) : Nat :=
  at' (b2n e.present) 31 1 + at' (b2n e.newDefect) 30 1 + at' (if i < 8 then 0 else 1) 28 2 + at' (b2n e.empty) 27 1
  + at' e.capacity 0 16

/-- Usable cores of the plan among an index range. -/
def Plan.usableIn (p : Plan) (lo n : Nat) : Nat := ((List.range n).filter (fun i => (mget {} p.cores (lo + i)).usable)).length

/-- A die entry's bytes (R79). -/
def dieEntryNat (p : Plan) (d : Nat) : Nat :=
  let e := mget {} p.dies d
  at' (b2n e.cutOff) 31 1 + at' (b2n e.manyRouters) 30 1
  + at' (match e.bypass with | none => 31 | some b => b.1) 24 5 + at' (match e.bypass with | none => 0 | some b => b.2) 20 4
  + at' (p.usableIn (288 * d) 288) 0 16

/-- The bytes that PLAN_DIGEST covers, 0x0040 to 0x24FF (R75). -/
def Plan.body (p : Plan) : List Byte :=
  (List.range 1152).flatMap (fun c => leBytes 8 (coreEntryNat (mget {} p.cores c)))
  ++ (List.range 24).flatMap (fun l => leBytes 4 (linkEntryNat (mget {} p.links l)))
  ++ (List.range 20).flatMap (fun d => leBytes 4 (memEntryNat d (mget {} p.mems d)))
  ++ (List.range 4).flatMap (fun d => leBytes 4 (dieEntryNat p d))

/-- PLAN_DIGEST (R80). -/
def Plan.digest (p : Plan) : Block := shaBlock256 p.body

/-- Entries of any kind with NEW_DEFECT, plus the bits of BRIDGE_NEW (R76). -/
def Plan.newCount (p : Plan) : Nat :=
  (p.cores.filter (fun e => e.2.newDefect)).length + (p.links.filter (fun e => e.2.newDefect)).length
  + (p.mems.filter (fun e => e.2.newDefect)).length + ((List.range 4).filter (fun i => p.bridgeNew.toNat.testBit i)).length

/-- The header's bytes (R76). -/
def Plan.header (p : Plan) : List Byte :=
  let us := p.usableIn 0 1152
  let cols := ((List.range 1152).map (fun c => let e := mget {} p.cores c; if e.usable then e.width else 0)).sum
  let full := ((List.range 1152).filter (fun c => let e := mget {} p.cores c; e.usable && e.width == 128)).length
  let lk := ((List.range 24).map (fun l => at' (b2n (mget {} p.links l).usable) l 1)).sum
  let hb := ((List.range 8).map (fun d => at' (b2n (mget {} p.mems d).present) d 1)).sum
  let dd := ((List.range 12).map (fun d => at' (b2n (mget {} p.mems (8 + d)).present) d 1)).sum
  leBytes 4 0x58464C50 ++ leBytes 4 (at' 1 16 16 + 0x2520) ++ leBytes 4 p.generation
  ++ leBytes 4 (at' (b2n p.degraded) 7 1 + at' (b2n p.reduced) 6 1 + at' (if p.newCount = 0 then 0 else 1) 5 1
      + at' (b2n (p.cores.any (fun e => e.2.sessionAbsent))) 4 1 + at' (b2n Config.binB) 0 2)
  ++ leBytes 8 p.startTime ++ leBytes 4 (at' (1152 - us) 16 16 + us) ++ leBytes 4 cols
  ++ leBytes 4 (at' p.newCount 16 16 + at' full 4 12 + p.bridgeOk.toNat) ++ leBytes 4 lk
  ++ leBytes 4 (at' dd 8 12 + hb)
  ++ leBytes 4 (at' (((List.range 12).map (fun d => (mget {} p.mems (8 + d)).capacity)).sum) 16 16
      + ((List.range 8).map (fun d => (mget {} p.mems d).capacity)).sum)
  ++ leBytes 4 p.bridgeNew.toNat ++ leBytes 12 0

/-- The whole record, 9,504 bytes (R75). -/
def Plan.record (p : Plan) : List Byte := p.header ++ p.body ++ blockBytes p.digest

/-- The bin's figure of R3. -/
def binFigure : Nat := if Config.binB then 1024 else 1088

/-- DEGRADED by R69 and REDUCED by R70, worked out from the entries. -/
def Plan.recount (p : Plan) : Plan :=
  { p with
    degraded := decide (p.usableIn 0 1152 < binFigure)
    reduced := p.bridgeOk != 0xF || (List.range 24).any (fun l => !(mget {} p.links l).usable)
      || (List.range 20).any (fun d => let e := mget {} p.mems d; !e.present && !e.empty) }

/-- A measurement changed: its time, and a POLICY waymark with POLICY_ID 4 (R473). (DEDUCED, log 65) -/
def State.measChanged (s : State) (ix : Nat) : State :=
  { s with meas := mupd ({} : Meas) s.meas ix (fun x => { x with time := s.time.now }) }.mark 0x13 0 0 mcUnit (at' 4 60 4 + ix)

/-- A change of the record during a session: fields recomputed, GENERATION one higher (R74, R318, R371), the
FLOOR_PLAN measurement changed (R473). Before a record is valid only the entries change. -/
def State.planChange (s : State) (f : Plan → Plan) : State :=
  if s.plan.valid then
    let p := (f s.plan).recount
    { s with plan := { p with generation := (p.generation + 1) % 2 ^ 32 } }.measChanged 5
  else { s with plan := f s.plan }

/-- A core made absent in the session with a cause (R74): at the next milepost, or at once with no LEG group active; once only.
The FAULT carries the cause as its status, with UNIT the whole core. (DESIGN CHOICE, log 83) -/
def State.absent (s : State) (c cause : Nat) : State :=
  if s.plan.pendingAbsent.any (fun p => p.1 == c) || (s.plan.valid && !(s.coreEntry c).usable) then s
  else if s.legOn then { s with plan := { s.plan with pendingAbsent := s.plan.pendingAbsent ++ [(c, cause)] } }
  else
    (s.planChange (fun p => { p with cores := mupd {} p.cores c (fun e => { e with usable := false, sessionAbsent := true, cause := cause }) })).faultMark
      (coreUnit c 0) cause 0

/-- The absences that waited for this milepost. (DESIGN CHOICE, log 83) -/
def State.applyAbsent (s : State) : State :=
  s.plan.pendingAbsent.foldl (fun t p =>
    (t.planChange (fun q => { q with cores := mupd {} q.cores p.1 (fun e => { e with usable := false, sessionAbsent := true, cause := p.2 }) })).faultMark
      (coreUnit p.1 0) p.2 0)
    { s with plan := { s.plan with pendingAbsent := [] } }

/-! ### Replay's records and host reads (R389, R479, R485, R486) -/

/-- A field of the capture line at an index. -/
def Recorder.lineField (r : Recorder) (i off lo w : Nat) : Nat := fld (mget 0 r.capture i).toNat off lo w

/-- The line after the capture record at a line: START carries its count in ADDR, every other record in LINES. -/
def Recorder.after (r : Recorder) (i : Nat) : Nat :=
  i + 1 + (if r.lineField i 8 24 8 = 8 then r.lineField i 0x18 0 64 else r.lineField i 8 0 16)

/-- The line of the HOST_READ record of a SOURCE that follows `k` others, looked for from a line on. -/
def Recorder.findRead (r : Recorder) (src : Nat) : Nat → Nat → Nat → Option Nat
  | 0, _, _ => none
  | f + 1, i, k =>
    if r.len.toNat ≤ i then none
    else if r.lineField i 8 24 8 = 2 ∧ r.lineField i 0xC 16 16 = src then
      (match k with
      | 0 => some i
      | j + 1 => Recorder.findRead r src f (r.after i) j)
    else Recorder.findRead r src f (r.after i) k

/-- The replay stopped with a result: a RECORD_MARK with the code and REPLAY_AT, and the MODE measurement as outside replay
(R473, R485). What the captured descriptors left of their rings goes. (DEDUCED, log 68) -/
def State.endReplay (s : State) (code : Nat) : State :=
  let shown := (mget ({} : Meas) s.meas 7).value != 0
  let s1 := { s with
    trace := { s.trace with replay := .ended, result := code }
    meas := mupd ({} : Meas) s.meas 7 (fun x => { x with value := 0 })
    host := { s.host with rings := s.host.rings.filter (fun p => decide (p.1 < 64)) } }
  let s2 := s1.mark 0x17 0 0 mcUnit (at' s.trace.feedAt 32 32 + code)
  if shown then s2.measChanged 7 else s2

/-- What a host read of one line comes to: its line with its EP bit, a failure, or no completion yet. -/
inductive HostGot where
  | line (data : Line) (ep : Bool)
  | abort
  | none
deriving DecidableEq, Repr

/-- A host read of the line at a bus address by the unit `src`: answered by the host, with the reply captured, or in a
replay by the SOURCE's next HOST_READ record; one that record does not answer ends the replay as STARVED, and the read
fails. A port held in reset fails it (R498). (DESIGN CHOICE, log 14) -/
def State.hostLine (s : State) (src a : Nat) (hs : List HostReply) : State × HostGot × List HostReply :=
  if s.feeding then
    let r := s.trace
    match r.findRead src r.len.toNat (r.after 0) (mget 0 r.used src) with
    | some i =>
      if r.lineField i 0x18 0 64 = a then
        ({ s with trace := { r with used := mset 0 r.used src (mget 0 r.used src + 1) } }, .line (mget 0 r.capture (i + 1)) false, hs)
      else (s.endReplay 2, .abort, hs)
    | none => (s.endReplay 2, .abort, hs)
  else if s.portHeld then ({ s with host := { s.host with errAbort := true } }, .abort, hs)
  else
    let t := s.emit (.hostRead a 1 false)
    match hs with
    | .line l ep :: r => (t.captureIn 2 src a 0 [l], .line l ep, r)
    | .abort :: r => ({ t with host := { t.host with errAbort := true } }, .abort, r)
    | [] => (t, .none, [])

/-- A host write request, as its contiguous pieces (address, bytes, EP): whether the host answers it with a failure, and
the answers still to come. A request with no answer in the list is accepted, as a posted write is; in a replay nothing
reaches the host, and a port held in reset fails it (R389, R498). (DESIGN CHOICE, log 14) -/
def State.hostPost (s : State) (ds : List (Nat × List Byte × Bool)) (hs : List HostReply) : State × Bool × List HostReply :=
  let put := ds.foldl (fun t d => t.emit (.hostWrite d.1 d.2.1 d.2.2)) s
  if s.feeding then (put, false, hs)
  else if s.portHeld && !ds.isEmpty then ({ s with host := { s.host with errAbort := true } }, true, hs)
  else
    match hs with
    | .abort :: r => ({ put with host := { put.host with errAbort := true } }, true, r)
    | .line _ _ :: r => (put, false, r)
    | [] => (put, false, [])

/-! ### Device memory (R364 to R375) -/

/-- A byte with its word's poison state. -/
abbrev PByte := Byte × Bool

/-- The two device address spaces. -/
inductive Space where
  | hbm | ddr
deriving DecidableEq, Repr

/-- Number of an address space, for the free data bits of poison. -/
def Space.num : Space → Nat
  | .hbm => 0
  | .ddr => 1

/-- Bytes of a stack: 64 GB (R364). -/
def stackBytes : Nat := 64000000000

/-- HBM4 capacity, n_h × 64 GB, by the map of the start (R369). -/
def Plan.hbmBytes (p : Plan) : Nat := p.hbmStacks.length * stackBytes

/-- DDR5 capacity of the bands (R370). -/
def Plan.ddrBytes (p : Plan) : Nat := (p.bands.map (·.size)).sum

/-- RES_BASE (R372). -/
def Plan.resBase (p : Plan) : Nat := p.hbmBytes / 2097152 * 2097152 - 301989888

/-- POST_PHYS (R372). -/
def Plan.postPhys (p : Plan) : Nat := p.resBase + 37748736

/-- CHECK_PHYS (R372). -/
def Plan.checkPhys (p : Plan) : Nat := p.postPhys + 0x1000

/-- USER_TOP (R373). -/
def State.userTop (s : State) : Nat :=
  s.plan.resBase - s.trace.ring2mNow.toNat * 2097152 - s.trace.cap2mNow.toNat * 2097152

/-- The device of an HBM4 address, as an entry number of R75 (R369). -/
def Plan.hbmDev (p : Plan) (a : Nat) : Nat := nth 0 p.hbmStacks (a / 256 % p.hbmStacks.length)

/-- The channel's entry number of a DDR5 address (R370). -/
def Plan.ddrDev (p : Plan) (a : Nat) : Nat :=
  match p.bands.find? (fun b => b.base ≤ a && a < b.base + b.size) with
  | none => 8
  | some b => 8 + nth 0 b.chans ((a - b.base) / 4096 % b.chans.length)

/-- The device of an address. -/
def Plan.devOf (p : Plan) (sp : Space) (a : Nat) : Nat :=
  match sp with
  | .hbm => p.hbmDev a
  | .ddr => p.ddrDev a

/-- Whether the device of an address was lost during the session (R371). -/
def State.memLost (s : State) (sp : Space) (a : Nat) : Bool := s.mem.lost.contains (s.plan.devOf sp a)

/-- The bytes of a space. -/
def DevMem.bytes (m : DevMem) : Space → Mem Byte
  | .hbm => m.hbm
  | .ddr => m.ddr

/-- The poisoned words of a space. -/
def DevMem.poison (m : DevMem) : Space → Mem Bool
  | .hbm => m.hbmPoison
  | .ddr => m.ddrPoison

/-- A space's contents replaced. -/
def DevMem.put (m : DevMem) (sp : Space) (b : Mem Byte) (p : Mem Bool) : DevMem :=
  match sp with
  | .hbm => { m with hbm := b, hbmPoison := p }
  | .ddr => { m with ddr := b, ddrPoison := p }

/-- A run of bytes read from a memory with poison, `src` naming it for the undefined data bits (R366). (DESIGN CHOICE, log 12) -/
def pmRead (src : Nat) (b : Mem Byte) (p : Mem Bool) (a n : Nat) : List PByte :=
  (List.range n).map (fun i =>
    if mget false p ((a + i) / 4) then (Config.poisonByte src (a + i), true) else (mget 0 b (a + i), false))

/-- The poison state of word `w` after bytes `ds` are written at `a` (R367): poisoned when a written byte is, clear
when all four bytes are written clean, else as it was. -/
def poisonAfter (old : Bool) (w a : Nat) (ds : List PByte) : Bool :=
  let mine := (ds.zipIdx a).filter (fun q => q.2 / 4 == w)
  if mine.any (fun q => q.1.2) then true
  else if mine.length = 4 then false
  else old

/-- A run of bytes written to a memory with poison. -/
def pmWrite (b : Mem Byte) (p : Mem Bool) (a : Nat) (ds : List PByte) : Mem Byte × Mem Bool :=
  let b' := msetRun 0 b a (ds.map (·.1))
  let nw := if ds.isEmpty then 0 else (a + ds.length - 1) / 4 - a / 4 + 1
  let p' := iter nw (fun j q => mset false q (a / 4 + j) (poisonAfter (mget false p (a / 4 + j)) (a / 4 + j) a ds)) p
  (b', p')

/-- Device bytes at a physical address; a lost device delivers poison (R371). (DESIGN CHOICE, log 12) -/
def State.devRead (s : State) (sp : Space) (a n : Nat) : List PByte :=
  if s.memLost sp a then (List.range n).map (fun i => (Config.poisonByte sp.num (a + i), true))
  else pmRead sp.num (s.mem.bytes sp) (s.mem.poison sp) a n

/-- Whether a written byte falls on the post lines or the checker's line (R372). -/
def State.postHit (s : State) (sp : Space) (a : Nat) : Bool :=
  sp == .hbm && decide (s.plan.postPhys ≤ a) && decide (a < s.plan.checkPhys + 64)

/-- A waymark of the checker, with the group and JOB_TAG of the active LEG group (R351). -/
def State.checkMark (s : State) (kind unit payload : Nat) : State :=
  let g := nth 0 s.activeLegs 0
  s.markAt s.time.now kind 0 g s.coord unit (if s.legOn then s.jobOf g else 0) s.legNow payload

/-- A FAULT of the checker. -/
def State.checkFault (s : State) (status words chunk : Nat) : State :=
  s.checkMark 0x12 mcUnit (at' status 56 8 + at' (min words 65535) 40 16 + at' chunk 0 32)

/-- A bad request counted (R346). (DEDUCED, log 55) -/
def State.reduceBad (s : State) : State := { s with chk := { s.chk with bad := sat 32 (s.chk.bad + 1) } }

/-- Whether a send queue has no room for another post: 64 transfers and posts (R329, R332). -/
def LinkSys.queueFull (l : LinkSys) (q : Nat) : Bool :=
  decide (64 ≤ (l.xfers.filter (fun x => x.queue == q)).length + (l.postLines.filter (fun p => p.queue == q)).length)

/-- A write request to one line: bytes, and whether it adds. Whole-line writes of a post line go to the link engine
and of the checker's line to the checker; anything else there is a bad post, or a bad request, which is discarded (R329,
R346, R352). A write to a lost device is discarded. -/
def State.devWrite (s : State) (sp : Space) (a : Nat) (ds : List PByte) (add : Bool) : State :=
  if s.postHit sp a then
    let whole := !add && a % 64 == 0 && ds.length == 64
    let l : Option Line := if whole then some (bytesLine (ds.map (·.1))) else none
    if s.plan.checkPhys ≤ a then
      if whole then { s with chk := { s.chk with queue := s.chk.queue ++ [{ queue := 0, line := l, held := decide (256 ≤ s.chk.queue.length) }] } }
      else s.reduceBad.checkFault 0x82 0 0
    else
      let q := (a - s.plan.postPhys) / 64
      { s with lnk := { s.lnk with postLines := s.lnk.postLines ++ [{ queue := q, line := l, held := s.lnk.queueFull q }] } }
  else if s.memLost sp a then s
  else
    let r := pmWrite (s.mem.bytes sp) (s.mem.poison sp) a ds
    { s with mem := s.mem.put sp r.1 r.2 }

/-- One 32-bit word of four bytes: its value and whether any is poisoned. -/
def wordOf (ds : List PByte) : PWord := (BitVec.ofNat 32 (leNat (ds.map (·.1))), ds.any (·.2))

/-- The four bytes of a word. -/
def bytesOf (w : PWord) : List PByte := (leBytes 4 w.1.toNat).map (fun b => (b, w.2))

/-- The words of a byte run. -/
def wordsOf (ds : List PByte) : List PWord := (chunksOf ds.length 4 ds).map wordOf

/-! ### Translation (R255 to R258) -/

/-- What a page-table entry says (R256). -/
structure Page where
  valid : Bool
  read : Bool
  write : Bool
  add : Bool
  target : Nat
  phys : Nat
deriving DecidableEq, Repr

/-- The entry of a page number. (DEDUCED, log 74) -/
def State.page (s : State) (n : Nat) : Page :=
  let e := (mget 0 s.pages n).toNat
  { valid := bit e 63, read := bit e 62, write := bit e 61, add := bit e 60, target := bits e 58 2, phys := bits e 21 31 * 2097152 }

/-- Kinds of request. -/
inductive Acc where
  | read | plain | add
deriving DecidableEq, Repr

/-- The physical address of a page-table entry in the reserved region of HBM4 (R255, R372). -/
def Plan.entryPhys (p : Plan) (n : Nat) : Nat := p.resBase + 8 * n

/-- Whether a page-table entry reads with an uncorrectable error: a word of it is poisoned in HBM4, or its stack is lost
(R258, R365, R371). -/
def State.entryBad (s : State) (n : Nat) : Bool := (s.devRead .hbm (s.plan.entryPhys n) 8).any (·.2)

/-- The checks of R258 against an entry that was read well, in their order: a status, or the target and the physical
address. -/
def State.pageCheck (s : State) (va : Nat) (k : Acc) : Sum Nat (Nat × Nat) :=
  let n := va / 2097152
  let p := s.page n
  if !p.valid then .inl 0x6E
  else if k == .read && !p.read then .inl 0x6F
  else if k == .plain && !p.write then .inl 0x6F
  else if k == .add && (!p.add || p.target == 2) then .inl 0x6F
  else .inr (p.target, p.phys + va % 2097152)

/-- The checks of R258 on an entry read from the table. -/
def State.xlate (s : State) (va : Nat) (k : Acc) : Sum Nat (Nat × Nat) :=
  if s.entryBad (va / 2097152) then .inl 0x67 else s.pageCheck va k

/-- The space of a target that is device memory. -/
def spaceOf (t : Nat) : Space := if t = 0 then .hbm else .ddr

/-- Bytes at a virtual address range read for the Module Controller or the host DMA engine (READ needed, TARGET HOST
refused with PAGE_PROTECT): a status with its address, or the bytes. -/
def State.vaRead (s : State) (va n : Nat) : Sum (Nat × Nat) (List PByte) :=
  match s.xlate va .read with
  | .inl st => .inl (st, va)
  | .inr (t, pa) => if t = 2 then .inl (0x6F, va) else .inr (s.devRead (spaceOf t) pa n)

/-- A plain write at a virtual address for the host DMA engine or the Module Controller. -/
def State.vaWrite (s : State) (va : Nat) (ds : List PByte) : Sum (Nat × Nat) State :=
  match s.xlate va .plain with
  | .inl st => .inl (st, va)
  | .inr (t, pa) => if t = 2 then .inl (0x6F, va) else .inr (s.devWrite (spaceOf t) pa ds false)

/-! ### Requests of an engine operation -/

/-- An operation's view of memory as its requests proceed: the module, the core, the block that makes the requests, the
host lines still to come, the first failing request's status and address, whether a host read still waits for its completion,
whether a write met lost memory, and counts. -/
structure MemRun where
  st : State
  core : Nat
  blk : Nat
  host : List HostReply
  fault : Option (Nat × Nat)
  waiting : Bool
  lost : Bool
  poisoned : Nat
  reqs : Nat
  misses : Nat
deriving DecidableEq, Repr

/-- The start of an operation's requests. -/
def MemRun.start (s : State) (c blk : Nat) (host : List HostReply) : MemRun :=
  { st := s, core := c, blk := blk, host := host, fault := none, waiting := false, lost := false, poisoned := 0, reqs := 0, misses := 0 }

/-- The translation cache after a look-up: set of VA [26:21], four ways, earliest inserted out (R255). -/
def tlbTouch (t : Mem (List Nat)) (page : Nat) : Mem (List Nat) × Bool :=
  let ways := mget [] t (page % 64)
  if ways.contains page then (t, false)
  else (mset [] t (page % 64) ((if ways.length ≥ 4 then ways.drop 1 else ways) ++ [page]), true)

/-- A request translated and checked before it issues; an entry that the translation cache holds is not read again, and one that
reads with an uncorrectable error does not enter it (R255, R258). -/
def MemRun.request (m : MemRun) (va : Nat) (k : Acc) : MemRun × Option (Nat × Nat) :=
  match m.fault with
  | some _ => (m, none)
  | none =>
    let q := tlbTouch (m.st.core m.core).tlb (va / 2097152)
    let bad := q.2 && m.st.entryBad (va / 2097152)
    let st := if bad then m.st else m.st.updCore m.core (fun x => { x with tlb := q.1 })
    let m1 := { m with st := st, misses := m.misses + b2n q.2 }
    match (if bad then .inl 0x67 else m.st.pageCheck va k) with
    | .inl e => ({ m1 with fault := some (e, va) }, none)
    | .inr r => ({ m1 with reqs := m.reqs + 1 }, some r)

/-- The bytes a read request returns. A HOST page is read on the host port, and a request that the port does not
complete ends the operation with HOST_ABORT; one with no completion yet leaves the operation waiting for it (R389). (DESIGN CHOICE, log 15) -/
def MemRun.read (m : MemRun) (va n : Nat) : MemRun × List PByte :=
  match m.request va .read with
  | (m1, none) => (m1, [])
  | (m1, some (t, pa)) =>
    if t = 2 then
      match m1.st.hostLine (coreUnit m1.core m1.blk) (pa / 64 * 64) m1.host with
      | (st, .line l ep, r) =>
        ({ m1 with st := st, host := r, poisoned := m1.poisoned + (if ep then (pa % 4 + n + 3) / 4 else 0) },
          (((lineBytes l).drop (pa % 64)).take n).map (fun b => (b, ep)))
      | (st, .abort, r) => ({ m1 with st := st, host := r, fault := some (0xA7, va) }, [])
      | (st, .none, r) => ({ m1 with st := st, host := r, waiting := true, fault := some (0xA7, va) }, [])
    else
      let ds := m1.st.devRead (spaceOf t) pa n
      ({ m1 with poisoned := m1.poisoned + ((chunksOf n 4 ds).filter (fun w => w.any (·.2))).length }, ds)

/-- A plain write request (R248, R258). -/
def MemRun.write (m : MemRun) (va : Nat) (ds : List PByte) : MemRun :=
  match m.request va .plain with
  | (m1, none) => m1
  | (m1, some (t, pa)) =>
    if t = 2 then
      let r := m1.st.hostPost [(pa, ds.map (·.1), ds.any (·.2))] m1.host
      { m1 with st := r.1, host := r.2.2, fault := if r.2.1 then some (0xA7, va) else none }
    else
      { m1 with st := m1.st.devWrite (spaceOf t) pa ds false, lost := m1.lost || m1.st.memLost (spaceOf t) pa }

/-- FP32 contributions added to consecutive words, one addition each in order (R248). -/
def addWords (old new : List PWord) : List PWord :=
  old.zipWith (fun a b => (f32add a.1 b.1, a.2 || b.2)) new

/-- An accumulate-write request of whole words (R248). -/
def MemRun.addWrite (m : MemRun) (va : Nat) (ws : List PWord) : MemRun :=
  match m.request va .add with
  | (m1, none) => m1
  | (m1, some (t, pa)) =>
    let old := wordsOf (m1.st.devRead (spaceOf t) pa (4 * ws.length))
    { m1 with
      st := m1.st.devWrite (spaceOf t) pa ((addWords old ws).flatMap bytesOf) true
      lost := m1.lost || m1.st.memLost (spaceOf t) pa }

/-- The pieces of a byte range that lie in one line each: (address, bytes). -/
def linePieces : Nat → Nat → Nat → List (Nat × Nat)
  | 0, _, _ => []
  | f + 1, a, n => if n = 0 then [] else
    let k := min n (64 - a % 64)
    (a, k) :: linePieces f (a + k) (n - k)

/-- A read of the Module Controller's own through the page table (R255, R405): the module with the host reads made,
the host lines still to come, the first failing line's status and address, whether a completion is still awaited, and
the bytes so far. -/
structure McRun where
  st : State
  host : List HostReply
  fault : Option (Nat × Nat)
  wait : Bool
  bytes : List PByte
deriving DecidableEq, Repr

/-- The start of such a read. -/
def McRun.start (s : State) (host : List HostReply) : McRun := { st := s, host := host, fault := none, wait := false, bytes := [] }

/-- One piece of a line read. (DESIGN CHOICE, log 14) -/
def McRun.piece (m : McRun) (va n : Nat) : McRun :=
  if m.fault.isSome || m.wait then m
  else
    match m.st.xlate va .read with
    | .inl e => { m with fault := some (e, va) }
    | .inr (t, pa) =>
      if t = 2 then
        match m.st.hostLine mcUnit (pa / 64 * 64) m.host with
        | (st, .line l ep, r) =>
          { m with st := st, host := r, bytes := m.bytes ++ (((lineBytes l).drop (pa % 64)).take n).map (fun b => (b, ep)) }
        | (st, .abort, r) => { m with st := st, host := r, fault := some (0xA7, va) }
        | (st, .none, r) => { m with st := st, host := r, wait := true }
      else { m with bytes := m.bytes ++ m.st.devRead (spaceOf t) pa n }

/-- A byte range read in ascending order, the bytes before it forgotten. (DESIGN CHOICE, log 15) -/
def McRun.run (m : McRun) (va n : Nat) : McRun :=
  (linePieces (n / 64 + 2) va n).foldl (fun q p => q.piece p.1 p.2) { m with bytes := [] }

/-- The data read. -/
def McRun.data (m : McRun) : List Byte := m.bytes.map (·.1)

/-- A byte range read, one request for each line (R250, R255). -/
def MemRun.readRun (m : MemRun) (va n : Nat) : MemRun × List PByte :=
  (linePieces (n / 64 + 2) va n).foldl (fun q p => let r := q.1.read p.1 p.2; (r.1, q.2 ++ r.2)) (m, [])

/-- The first request of a range that R258 stops. -/
def MemRun.checkRun (m : MemRun) (va n : Nat) (k : Acc) : Option (Nat × Nat) :=
  (linePieces (n / 64 + 2) va n).findSome? (fun p => match m.st.xlate p.1 k with | .inl e => some (e, p.1) | .inr _ => none)

/-- A byte range written, one request for each line. -/
def MemRun.writeRun (m : MemRun) (va : Nat) (ds : List PByte) : MemRun :=
  (linePieces (ds.length / 64 + 2) va ds.length).foldl (fun q p => q.write p.1 ((ds.drop (p.1 - va)).take p.2)) m

/-- Words added to a range, one request for each line. -/
def MemRun.addRun (m : MemRun) (va : Nat) (ws : List PWord) : MemRun :=
  (linePieces (ws.length / 16 + 2) va (4 * ws.length)).foldl
    (fun q p => q.addWrite p.1 ((ws.drop ((p.1 - va) / 4)).take (p.2 / 4))) m

/-- The status of a run of requests that found no other failure: the faulting request's, else MEM_LOST, else
DATA_POISON when poison was read, else OK (R258, R368, R371). -/
def MemRun.status (m : MemRun) (poison : Bool) : Nat :=
  match m.fault with
  | some (e, _) => e
  | none => if m.lost then 0x91 else if poison then 0x90 else 0

/-! ### Rings and completions (R395 to R401) -/

/-- A ring's record. -/
def State.ring (s : State) (r : Nat) : Ring := mget {} s.host.rings r

/-- The state with a ring's record changed. -/
def State.setRing (s : State) (r : Nat) (x : Ring) : State :=
  { s with host := { s.host with rings := mset {} s.host.rings r x } }

/-- IN_FLIGHT: descriptors of the ring taken and not completed. -/
def State.inFlight (s : State) (r : Nat) : Nat := (s.host.descs.filter (fun d => d.ring == r)).length

/-- A descriptor's TYPE (R402). -/
def Desc.type (d : Desc) : Nat := fld d.raw.toNat 0 24 8
/-- A descriptor's USER_TAG. -/
def Desc.tag (d : Desc) : Nat := fld d.raw.toNat 4 0 32
/-- A descriptor's GROUP field, where its type has one. -/
def Desc.groupNo (d : Desc) : Nat := fld d.raw.toNat 0 8 6

/-- A completion entry (R399). -/
def cqEntry (time tag status type sqHead d0 d1 phase slot : Nat) : Block :=
  BitVec.ofNat 256 (at' time 0 64 + at' tag 64 32 + at' sqHead 96 16 + at' type 112 8 + at' status 120 8 + at' d0 128 64
    + at' d1 192 32 + at' slot 224 16 + at' phase 255 1)

/-- Whether a TYPE has a GROUP field. -/
def hasGroup (t : Nat) : Bool := t == 2 || t == 6 || t == 7 || t == 8

/-- STOPPED set when a disabled or failing ring has no descriptor in flight (R395, R401). -/
def State.settleRing (s : State) (r : Nat) : State :=
  let x := s.ring r
  if !x.active && s.inFlight r == 0 then s.setRing r { x with stopped := true } else s

/-- A ring with one more completion entry: written at its slot, or held after a failed write (R400, R401). -/
def Ring.push (x : Ring) (e : Block) : Ring :=
  if x.failing then { x with held := x.held ++ [e] }
  else
    let t := (x.cqTail + 1) % 2 ^ x.cqLog2
    { x with cqTail := t, phase := if t = 0 then !x.phase else x.phase, lastEntry := some e }

/-- A ring whose completion writes fail from now on (R401). -/
def Ring.fail (x : Ring) : Ring := { x with active := false, failing := true }

/-- A ring's completion write with the port held in reset (R401, R498). -/
def State.portFail (s : State) (r : Nat) : State :=
  if s.portHeld && !(s.ring r).failing then
    let t := s.setRing r (s.ring r).fail
    { t with host := { t.host with errCq := true, errAbort := true } }
  else s

/-- A descriptor completed at time `t`: removed from those taken, its entry written or held, DESC_DONE recorded; with the port held
in reset the write fails (R400, R401, R420, R498). -/
def State.completeAt (s0 : State) (d : Desc) (t status d0 d1 : Nat) : State :=
  let s := s0.portFail d.ring
  let x := s.ring d.ring
  let e := cqEntry t d.tag status d.type x.sqHead d0 d1 (b2n x.phase) d.slot
  let s1 := { s with host := { s.host with descs := s.host.descs.filter (fun q => q.order != d.order) } }
  let s2 := s1.setRing d.ring (x.push e)
  let s3 := if x.failing then s2 else s2.emit (.hostWrite (x.cqBase.toNat + 32 * x.cqTail) (blockBytes e) false)
  let g := if hasGroup d.type then d.groupNo else 0
  (s3.markAt t 0x10 0 g s.coord cxlUnit (if hasGroup d.type then s.jobOf g else 0) s.legNow
    (at' status 56 8 + at' d.type 48 8 + at' d.ring 42 6 + d.tag)).settleRing d.ring

/-- A descriptor completed now. -/
def State.complete (s : State) (d : Desc) (status d0 d1 : Nat) : State := s.completeAt d s.time.now status d0 d1

/-- A descriptor by its order number. -/
def State.desc (s : State) (o : Nat) : Option Desc := s.host.descs.find? (fun d => d.order == o)

/-- The descriptors with one replaced. -/
def State.setDesc (s : State) (d : Desc) : State :=
  { s with host := { s.host with descs := updWhere (fun q => q.order == d.order) (fun _ => d) s.host.descs } }

/-- A descriptor marked started, at the present time. -/
def State.startDesc (s : State) (d : Desc) : State := s.setDesc { d with started := true, since := s.time.now }

end Sys2Proof.Machine
end

