-- ==== Sys2Proof/Machine/Engine.lean ====
section
/-! DEFINITION. What the five engines of a core share: queues, the head operation, the core store and the pot as
operands, the end of an operation and its status (10_sequencer R263 to R272; 09 R240; 04 R130, R131; 14 R365). -/

namespace Sys2Proof.Machine

/-! ### Engines and operations (R264, R268) -/

/-- The engines of a core. -/
inductive Eng where
  | array | merge | vec | row | acc
deriving DecidableEq, Repr

/-- The engine an opcode goes to, none where R268 calls it illegal. -/
def engOf (opc : Nat) : Option Eng :=
  if 1 ≤ opc ∧ opc ≤ 4 then some .array
  else if opc = 0x20 then some .vec
  else if opc = 0x24 then some .row
  else if 0x30 ≤ opc ∧ opc ≤ 0x3F then some .merge
  else if opc = 0x40 ∨ opc = 0x41 then some .acc
  else none

/-- 32-bit words of an operation (R268). -/
def opWords (opc : Nat) : Nat :=
  if opc = 1 then 4
  else if opc ≤ 4 ∨ opc = 0x20 ∨ opc = 0x24 ∨ opc = 0x30 ∨ opc = 0x31 then 8
  else if opc = 0x41 then 16 else 4

/-- Depth of an engine's queue (R264). -/
def Eng.depth : Eng → Nat
  | .array => 8
  | _ => 4

/-- BLOCK of an engine's unit code (R52). -/
def Eng.block : Eng → Nat
  | .array => 1
  | .merge => 2
  | .vec => 3
  | .row => 4
  | .acc => 6

/-- An engine's queue, oldest first. -/
def Core.queue (k : Core) : Eng → List Op
  | .array => k.arrayQ
  | .merge => k.mergeQ
  | .vec => k.vecQ
  | .row => k.rowQ
  | .acc => k.accQ

/-- The core with an engine's queue replaced. -/
def Core.setQueue (k : Core) (e : Eng) (q : List Op) : Core :=
  match e with
  | .array => { k with arrayQ := q }
  | .merge => { k with mergeQ := q }
  | .vec => { k with vecQ := q }
  | .row => { k with rowQ := q }
  | .acc => { k with accQ := q }

/-- Operations started on an engine and not ended. -/
def Core.running (k : Core) : Eng → List Running
  | .array => k.arrayRun
  | .merge => k.mergeRun.toList
  | .vec => k.vecRun.toList
  | .row => k.rowRun.toList
  | .acc => k.accRun.toList

/-- The core with an operation started on an engine. -/
def Core.setRunning (k : Core) (e : Eng) (r : Running) : Core :=
  match e with
  | .array => { k with arrayRun := k.arrayRun ++ [r] }
  | .merge => { k with mergeRun := some r }
  | .vec => { k with vecRun := some r }
  | .row => { k with rowRun := some r }
  | .acc => { k with accRun := some r }

/-- The power state of an engine's unit; the access unit is never gated (R284). -/
def Core.unitOf (k : Core) : Eng → UPower
  | .array => k.uArray.st
  | .merge => k.uMerge.st
  | .vec => k.uVec.st
  | .row => k.uRow.st
  | .acc => .on

/-- A stream of a core. -/
def Core.stream (k : Core) : StreamId → Stream
  | .fwd => k.fwd
  | .bwd => k.bwd
  | .upd => k.upd

/-- The core with a stream replaced. -/
def Core.setStream (k : Core) (f : StreamId) (x : Stream) : Core :=
  match f with
  | .fwd => { k with fwd := x }
  | .bwd => { k with bwd := x }
  | .upd => { k with upd := x }

/-- A stream's number: 0 F, 1 B, 2 U (R264). -/
def strNum : StreamId → Nat
  | .fwd => 0
  | .bwd => 1
  | .upd => 2

/-- The `w`-bit field at byte offset `off` of an operation's words. -/
def Op.f (o : Op) (off lo w : Nat) : Nat := bits (nth 0 o.words (off / 4)).toNat lo w

/-- OPCODE of an operation. -/
def Op.opc (o : Op) : Nat := o.f 0 24 8

/-- Whether every named field is zero: (offset, low bit, width). -/
def Op.zeros (o : Op) (l : List (Nat × Nat × Nat)) : Bool := l.all (fun p => o.f p.1 p.2.1 p.2.2 == 0)

/-- The first failing check of an ordered list, else OK. -/
def firstFail : List (Bool × Nat) → Nat
  | [] => 0
  | (b, st) :: r => if b then st else firstFail r

/-! ### The core store (R240) and the pot (R130) -/

/-- Bytes of the core store. -/
def csBytes : Nat := 2097152

/-- A byte run of the core store. -/
def Core.csRead (k : Core) (a n : Nat) : List PByte := pmRead 2 k.store k.storePoison a n

/-- A byte run written to the core store, with the poison rules of R367. -/
def Core.csWrite (k : Core) (a : Nat) (ds : List PByte) : Core :=
  let r := pmWrite k.store k.storePoison a ds
  { k with store := r.1, storePoison := r.2 }

/-- A 32-bit word of the core store by byte address. -/
def Core.csWord (k : Core) (a : Nat) : PWord := wordOf (k.csRead a 4)

/-- Words written from a byte address. -/
def Core.csWords (k : Core) (a : Nat) (ws : List PWord) : Core := k.csWrite a (ws.flatMap bytesOf)

/-- The `w`-bit element at bit position `b` counted from byte address `a`, with poison of any byte it lies in. -/
def Core.csElem (k : Core) (a b w : Nat) : Nat × Bool :=
  let ds := k.csRead (a + b / 8) ((b % 8 + w + 7) / 8)
  (bits (leNat (ds.map (·.1))) (b % 8) w, ds.any (·.2))

/-- The poisoned words of a core-store range. -/
def Core.csPoisoned (k : Core) (a n : Nat) : Nat :=
  if n = 0 then 0 else ((List.range ((a + n - 1) / 4 - a / 4 + 1)).filter (fun i => mget false k.storePoison (a / 4 + i))).length

/-- Whether a byte range of the core store lies beyond line 32,767. -/
def csOver (a n : Nat) : Bool := decide (n ≠ 0 ∧ csBytes < a + n)

/-- Elements packed lowest bits first into bytes, `w` bits each; a byte is poisoned when an element in it is. -/
def packElems (w : Nat) (es : List (Nat × Bool)) : List PByte :=
  let v := es.foldr (fun e acc => acc * 2 ^ w + e.1 % 2 ^ w) 0
  (List.range ((es.length * w + 7) / 8)).map (fun i =>
    (BitVec.ofNat 8 (v / 256 ^ i),
      ((es.drop (8 * i / w)).take ((8 * i + 7) / w - 8 * i / w + 1)).any (·.2)))

/-- Bytes of a packed row of `n` elements (R84): FP6 rows end on a three-byte group, FP4 rows on a byte. -/
def rowBytes (code n : Nat) : Nat :=
  if code = 2 ∨ code = 3 then cdiv n 4 * 3 else if code = 4 then cdiv n 2 else n * (fmtBits code / 8)

/-- Bytes rounded up to whole lines. -/
def lineUp (n : Nat) : Nat := cdiv n 64 * 64

/-- The SRAMs of a core whose words can hold an error that a rule names (R94, R130, R147, R171, R200, R211, R234). -/
inductive Sram where
  | plane | index | exps | pot | stats | hotRow | kettleKey | kettleVal
deriving DecidableEq, Repr

/-- Number of an SRAM. -/
def Sram.num : Sram → Nat
  | .plane => 0
  | .index => 1
  | .exps => 2
  | .pot => 3
  | .stats => 4
  | .hotRow => 5
  | .kettleKey => 6
  | .kettleVal => 7

/-- The error a word holds: 0 none, 1 a single bit, 2 uncorrectable (R365). (DESIGN CHOICE, log 13) -/
def Core.flaw (k : Core) (m : Sram) (w : Nat) : Nat := mget 0 k.secded (8 * w + m.num)

/-- A word written anew, with correct check bits (R365). -/
def Core.mend (k : Core) (m : Sram) (w : Nat) : Core := { k with secded := mset 0 k.secded (8 * w + m.num) 0 }

/-- Words of an SRAM among `ws` with a single-bit error: each is corrected and counted at its read (R365). -/
def Core.flips (k : Core) (m : Sram) (ws : List Nat) : Nat := (ws.filter (fun w => k.flaw m w == 1)).length

/-- A pot entry with its poison; an uncorrectable word is delivered poisoned (R130, R365). -/
def Core.potGet (k : Core) (i : Nat) : PWord := (mget 0 k.pot i, mget false k.potPoison i || k.flaw .pot i == 2)

/-- A pot entry set. -/
def Core.potSet (k : Core) (i : Nat) (v : PWord) : Core :=
  { k.mend .pot i with pot := mset 0 k.pot i v.1, potPoison := mset false k.potPoison i v.2 }

/-- A pot entry added to: read, corrected and counted where a single bit is wrong, and written anew (R130, R140). -/
def Core.potAdd (k : Core) (i : Nat) (v : PWord) : Core :=
  let o := k.potGet i
  (k.potSet i (f32add o.1 v.1, o.2 || v.2)).count 0x68 (k.flips .pot [i])

/-- Values applied from a pot entry up, by SET or ADD, counted in POT_ENTRIES (R140). -/
def Core.potApply (k : Core) (set : Bool) (i : Nat) (vs : List PWord) : Core :=
  ((vs.zipIdx i).foldl (fun x p => if set then x.potSet p.2 p.1 else x.potAdd p.2 p.1) k).count 0x60 vs.length

/-- The bits of poison read as inputs counted, and DATA_POISON taken where no other status was met (R368, R380). -/
def withPoison (st n : Nat) : Nat := if st = 0 ∧ n ≠ 0 then 0x90 else st

/-- The FAULT waymark of a request or an address that failed, naming the unit and DIR (R260). -/
def State.auFault (s : State) (c blk dir status va : Nat) : State :=
  s.faultMark (coreUnit c blk) status (at' dir 54 2 + at' va 0 43)

/-- The statuses of R260 that record a waymark at a request. -/
def auStatus (st : Nat) : Bool := st == 0x67 || st == 0x6E || st == 0x6F

/-- The core's counts of an operation's requests (R261). -/
def MemRun.counted (m : MemRun) (c status : Nat) : State :=
  m.st.updCore c (fun k => k.counts [(0x100, m.reqs), (0x110, m.misses), (0x128, if 0x67 ≤ status ∧ status ≤ 0x6F then 1 else 0)])

/-! ### Taking and ending operations -/

/-- Whether an operation takes no pot ticket, or the ticket served next (R131). -/
def Core.potTurn (k : Core) (o : Op) : Bool :=
  match o.ticket with
  | none => true
  | some t => t == k.potHead

/-- A ticket that needs no more service: the port goes on to the next that does (R131). -/
def Core.potPass (k : Core) (t : Nat) : Core :=
  let d := k.potDone ++ [t]
  let h := iter d.length (fun _ h => if d.contains h then h + 1 else h) k.potHead
  { k with potHead := h, potDone := d.filter (fun x => decide (h ≤ x)) }

/-- The operation's ticket, where it has one, passed. -/
def Core.potPassOp (k : Core) (o : Op) : Core :=
  match o.ticket with
  | none => k
  | some t => k.potPass t

/-- The operation an engine other than the array may start: at the head of its queue with the opcode, its unit ON, the
engine free, its pot ticket served next (R131, R265, R284). -/
def State.head (s : State) (c : Nat) (e : Eng) (opc : Nat) : Option Op :=
  let k := s.core c
  match k.queue e with
  | [] => none
  | o :: _ =>
    let u := k.unitOf e
    if o.opc == opc && (u == .on || u == .gatePending) && (k.running e).isEmpty && k.potTurn o && k.power == .on then some o else none

/-- The place that an array operation moves to from the queue: the load port, or the feeder of its partition (R265). -/
def Op.place (o : Op) : Nat := if o.opc = 1 then 16 else 4 * o.f 0 22 2 + o.f 0 20 2

/-- The operations of an array queue that wait in their places, given the places already taken: the head moves on while
its place holds no waiting operation (R265). (DEDUCED, log 17) -/
def movedOps : List Nat → List Op → List Op
  | _, [] => []
  | seen, o :: r => if seen.contains o.place then [] else o :: movedOps (o.place :: seen) r

/-- Number of an engine, its queue's arbiter's too (R264). -/
def Eng.num : Eng → Nat
  | .array => 0
  | .merge => 1
  | .vec => 2
  | .row => 3
  | .acc => 4

/-- The pot arbiter's number (R264). -/
def potArb : Nat := 5

/-- Where `lately` notes the latest departure from an engine's queue. -/
def Eng.left (e : Eng) : Nat := 8 + e.num

/-- Where `lately` notes the end of a stream's most recent operation on an engine. -/
def endNote (f : StreamId) (e : Eng) : Nat := 16 + 8 * strNum f + e.num

/-- Where `lately` notes the end of any operation of a stream. -/
def anyEnd (f : StreamId) : Nat := 40 + strNum f

/-- Whether something noted happened in cycle `t`. -/
def Core.inCycle (k : Core) (i t : Nat) : Bool := mget 0 k.lately i == t + 1

/-- A happening noted in cycle `t`. -/
def Core.note (k : Core) (i t : Nat) : Core := { k with lately := mset 0 k.lately i (t + 1) }

/-- Whether an engine's queue is full at the end of the cycle before `t`. Array operations that wait in their places have left
the queue, which they do while the array's unit is ON (R263, R264, R265, R284). (DEDUCED, log 17) -/
def Core.queueFull (k : Core) (e : Eng) (t : Nat) : Bool :=
  let n := (k.queue e).length
  match e with
  | .array =>
    let moved := if k.uArray.st == .on || k.uArray.st == .gatePending then (movedOps [] k.arrayQ).length else 0
    decide (e.depth ≤ n - moved)
  | _ => decide (e.depth ≤ n + (if k.inCycle e.left t then 1 else 0))

/-- A core counter in cycle `t`, as it stood at the end of the cycle before (R263). -/
def Core.ctrAt (k : Core) (i t : Nat) : W32 :=
  let p := mget (0, 0) k.ctrPast i
  if p.1 = t + 1 then p.2 else mget 0 k.ctrs i

/-- A core counter added to in cycle `t`, modulo 2^32 (R262, R272). -/
def Core.addCtr (k : Core) (i n t : Nat) : Core :=
  { k with ctrs := mset 0 k.ctrs i (mget 0 k.ctrs i + BitVec.ofNat 32 n), ctrPast := mset (0, 0) k.ctrPast i (t + 1, k.ctrAt i t) }

/-- The number of a semaphore's arbiter. -/
def semArb (i : Nat) : Nat := 16 + i

/-- A semaphore in cycle `t`: the count at the end of the cycle before, less the grants of this one (R263, R273). -/
def Core.semAt (k : Core) (i t : Nat) : SemPast :=
  let p := mget {} k.semPast i
  if p.cyc = t + 1 then p else { cyc := t + 1, avail := (mget 0 k.sems i).toNat, ptr := mget 0 k.arb (semArb i), last := 0 }

/-- A semaphore below 65,535 signalled in cycle `t` (R273, R274). -/
def Core.signal (k : Core) (i t : Nat) : Core :=
  { k with sems := mset 0 k.sems i (mget 0 k.sems i + 1), semPast := mset {} k.semPast i (k.semAt i t) }

/-- A stream granted a semaphore in cycle `t`, the pointer one past the last grant of the cycle's rotation (R56, R273). -/
def Core.takeSem (k : Core) (i t rank : Nat) : Core :=
  let p := k.semAt i t
  let last := max p.last (rank + 1)
  { k with
    sems := mset 0 k.sems i (mget 0 k.sems i - 1)
    semPast := mset {} k.semPast i { p with avail := p.avail - 1, last := last }
    arb := mset 0 k.arb (semArb i) ((p.ptr + last) % 3) }

/-- The pairing of R228, made in the issuing stream's order: an array operation with DEST 2 waits for a VEC_RUN, and a
VEC_RUN with A_SRC 1 takes the oldest of its stream that waits (R265). (DEDUCED, log 17) -/
def Core.notePair (k : Core) (o : Op) : Core :=
  if (o.opc == 2 || o.opc == 3) && o.f 0 10 2 == 2 then
    { k with pairs := k.pairs ++ [({ opId := o.id, stream := o.stream, int := o.f 0 16 4 == 5 && o.f 0 12 4 == 5 && o.f 0 8 2 == 0 } : Pair)] }
  else if o.opc == 0x20 && o.f 0 21 2 == 1 then
    match k.pairs.find? (fun p => p.stream == o.stream && p.vecId.isNone) with
    | none => k
    | some p => { k with pairs := updWhere (fun (q : Pair) => q.opId == p.opId) (fun q => { q with vecId := some o.id }) k.pairs }
  else k

/-- The pair of an array operation. -/
def Core.pairOf (k : Core) (id : Nat) : Option Pair := k.pairs.find? (fun p => p.opId == id)

/-- The VEC_RUN that pairs with an array operation, once it is issued (R228). -/
def Core.pairVec (k : Core) (o : Op) : Option Op :=
  match k.pairOf o.id with
  | some p => k.vecQ.find? (fun v => p.vecId == some v.id)
  | none => none

/-- A pair changed. -/
def Core.updPair (k : Core) (id : Nat) (g : Pair → Pair) : Core := { k with pairs := updWhere (fun (p : Pair) => p.opId == id) g k.pairs }

/-- The cycle in which an operation started now starts: not the one in which it was issued (R265). -/
def Op.startAt (o : Op) (now : Nat) : Nat := max now (o.issued + 1)

/-- A waiting operation taken off its queue and started with the status it will end with; its pot ticket is served. -/
def Core.start (k : Core) (e : Eng) (o : Op) (now status cycles : Nat) (vals : List Nat) (waitHost : Bool) (dirMode : Nat) : Core :=
  let k1 := k.setQueue e ((k.queue e).filter (fun q => q.id != o.id))
  ((k1.note e.left (o.startAt now)).potPassOp o).setRunning e
    { op := o, status := status, cycles := cycles, started := o.startAt now, vals := vals, waitHost := waitHost, dirMode := dirMode }

/-- Poisoned words taken as input and the operations they end (R380). -/
def Core.poisonCounts (k : Core) (n status : Nat) : Core :=
  (k.count 0x168 n).count 0x170 (if status = 0x90 ∨ status = 0x91 then 1 else 0)

/-- The summaries of a stream with those an ended operation, numbered `id`, leaves (R213, R230, R237, R260, R269). (DEDUCED, log 19) -/
def Sums.after (m : Sums) (e : Eng) (id opc status : Nat) (vals : List Nat) : Sums :=
  let w (i : Nat) : W32 := BitVec.ofNat 32 (nth 0 vals i)
  match e with
  | .array => if m.arrayOp ≤ id then { m with array := status, arrayOp := id } else m
  | .merge => { m with merge := status, mergeCount := w 0, mergePos := w 1 }
  | .vec => { m with vec := status, vs := (List.range 6).map w }
  | .row => { m with row := status, rs := (List.range 6).map w }
  | .acc =>
    if opc = 0x41 then { m with acc := status, auElements := BitVec.ofNat 64 (nth 0 vals 0), auFault := BitVec.ofNat 64 (nth 0 vals 1) }
    else { m with acc := status }

/-- The FAULT waymark of a failed operation or instruction (R271). -/
def State.seqFault (s : State) (c : Nat) (f : StreamId) (status opc pc : Nat) : State :=
  s.mark 0x12 0 0 (coreUnit c 5) (at' status 56 8 + at' (strNum f) 54 2 + at' opc 24 8 + at' pc 0 13)

/-- A stream meeting a failure: CONTINUE records the first since STREAM_STATUS was read, STOP stops it; a status the
sequencer raises itself always stops it (R270, R271). -/
def Stream.fail (x : Stream) (status pc : Nat) : Stream :=
  let own := decide (0x70 ≤ status ∧ status ≤ 0x74)
  let y := if x.status = 0 then { x with status := status, statusPc := pc } else x
  if x.cont && !own then y else if x.phase == .idle then y else { y with phase := .stopped }

/-- An operation ended in the present cycle: its stream's summaries, its ONEND update, and a failure's course (R263, R267, R271). -/
def State.endOp (s : State) (c : Nat) (e : Eng) (r : Running) : State :=
  let k0 := (s.core c).note (anyEnd r.op.stream) s.cycles
  let x := k0.stream r.op.stream
  let k := if e = .array ∧ r.op.id < x.sums.arrayOp then k0 else k0.note (endNote r.op.stream e) s.cycles
  let x1 := { x with sums := x.sums.after e r.op.id r.op.opc r.status r.vals }
  let x2 := if 0x20 ≤ r.status then x1.fail r.status r.op.pc else x1
  let k1 := k.setStream r.op.stream x2
  let k2 := match r.op.onend with
    | none => k1
    | some (i, n) => k1.addCtr i n s.cycles
  if 0x20 ≤ r.status then (s.setCore c (k2.count 0x158 1)).seqFault c r.op.stream r.status r.op.opc r.op.pc
  else s.setCore c k2

/-- A unit in GATE_PENDING whose queue is empty and whose last operation has ended begins to shut down (R284). (DEDUCED, log 19) -/
def UnitSt.settle (u : UnitSt) (idle : Bool) (now : Nat) : UnitSt :=
  if u.st == .gatePending && idle then { u with st := .shuttingDown, since := now + 1 } else u

/-- The gated units settled. -/
def Core.settleUnits (k : Core) (now : Nat) : Core :=
  let idle (e : Eng) : Bool := (k.queue e).isEmpty && (k.running e).isEmpty
  { k with
    uArray := k.uArray.settle (idle .array) now
    uMerge := k.uMerge.settle (idle .merge) now
    uVec := k.uVec.settle (idle .vec) now
    uRow := k.uRow.settle (idle .row) now }

/-- Operations of a core not yet ended. -/
def Core.busy (k : Core) : Bool :=
  !(k.arrayQ.isEmpty && k.mergeQ.isEmpty && k.vecQ.isEmpty && k.rowQ.isEmpty && k.accQ.isEmpty
    && k.arrayRun.isEmpty && k.mergeRun.isNone && k.vecRun.isNone && k.rowRun.isNone && k.accRun.isNone)

end Sys2Proof.Machine
end

