-- ==== Sys2Proof/Machine/Cells.lean ====
section
/-! DEFINITION. The leaf array's cells: partitions, formats, planes and their loads, the sums that rows form, dense and
2-of-4 sparse, and the checks of the array operations (03_leaf_array R84 to R95, 04_reverse_flow R112 to R128,
05 R144 to R150, 06 R167 to R177, R510, R511). -/

namespace Sys2Proof.Machine

/-! ### Partitions and formats -/

/-- A partition: its first row and height, its first logical column and width, its quadrants (R95, R67). -/
structure Part where
  row0 : Nat
  h : Nat
  col0 : Nat
  w : Nat
  quads : List Nat
deriving DecidableEq, Repr

/-- The partition a MODE and PART name on an array of presented width `w`, none where PART is not in MODE (R95). -/
def partOf (w mode p : Nat) : Option Part :=
  if mode = 0 then (if p = 0 then some { row0 := 0, h := 128, col0 := 0, w := w, quads := [0, 1, 2, 3] } else none)
  else if mode = 1 then
    if p = 0 then some { row0 := 0, h := 128, col0 := 0, w := 64, quads := [0, 2] }
    else if p = 1 then some { row0 := 0, h := 128, col0 := 64, w := w - 64, quads := [1, 3] } else none
  else if mode = 2 then
    if p = 0 then some { row0 := 0, h := 64, col0 := 0, w := w, quads := [0, 1] }
    else if p = 1 then some { row0 := 64, h := 64, col0 := 0, w := w, quads := [2, 3] } else none
  else some { row0 := 64 * (p / 2), h := 64, col0 := 64 * (p % 2), w := if p % 2 = 0 then 64 else w - 64, quads := [p] }

/-- FP8 codes. -/
def isFp8 (c : Nat) : Bool := c == 0 || c == 1
/-- 16-bit codes. -/
def is16 (c : Nat) : Bool := c == 6 || c == 7
/-- Codes whose planes carry block exponents (R147). -/
def hasExps (c : Nat) : Bool := decide (c ≤ 4)
/-- Lanes of a weight format (R84). -/
def lanesOf (c : Nat) : Nat := if c = 4 then 2 else 1

/-- q of a weight and activation pair, none for FORMAT_PAIR (R86). -/
def pairQ (wf af : Nat) : Option Nat :=
  if wf ≤ 4 then (if isFp8 af then some 1 else if is16 af then some 2 else none)
  else if wf = 5 then (if af = 5 then some 1 else none)
  else if is16 wf then (if isFp8 af || is16 af then some 2 else none)
  else none

/-- q of an activation and gradient pair of WGRAD (R123). -/
def wgradQ (x g : Nat) : Option Nat :=
  if isFp8 x && isFp8 g then some 1
  else if (isFp8 x || is16 x) && (isFp8 g || is16 g) then some 2 else none

/-! ### Cells -/

/-- Index of a cell's byte in a plane. -/
def cellIx (p row col : Nat) : Nat := (p * 128 + row) * 128 + col

/-- Index of a cell's index entry, per lane (R171). -/
def idxIx (p lane row col : Nat) : Nat := ((p * 2 + lane) * 128 + row) * 128 + col

/-- Index of a block exponent (R147). -/
def expIx (p lane blk col : Nat) : Nat := ((p * 2 + lane) * 4 + blk) * 128 + col

/-- The physical column of a logical column (R65). -/
def physCol (bad : List Nat) (k : Nat) : Nat := nth k ((List.range 132).filter (fun c => !bad.contains c)) k

/-- Index of the SECDED word a cell lies in: four horizontally adjacent cells of one plane (R94). -/
def planeWord (bad : List Nat) (p row col : Nat) : Nat := (p * 128 + row) * 33 + physCol bad col / 4

/-- Index of the SECDED word of the index store a cell lies in: both lanes of one plane in eight adjacent cells (R171). -/
def idxWord (bad : List Nat) (p row col : Nat) : Nat := (p * 128 + row) * 17 + physCol bad col / 8

/-- Index of the word of the exponent store that a block exponent lies in: four adjacent columns (R147). (DEDUCED, log 86) -/
def expWord (bad : List Nat) (p lane blk col : Nat) : Nat := ((p * 2 + lane) * 4 + blk) * 33 + physCol bad col / 4

/-- A cell's weight and index: its exact value with its block exponent, its index, the poison and the error of the words
read, and whether the index's own word is poisoned or in error. -/
structure Wt where
  val : Val
  ix : Nat
  poison : Bool
  ecc : Bool
  sel : Bool
deriving DecidableEq, Repr

/-- The raw bits of a weight: `p` is the plane, or the even plane of a pair. -/
def Core.cellBits (k : Core) (code p row col lane : Nat) : Nat :=
  let b := (mget 0 k.planes (cellIx p row col)).toNat
  if is16 code then b + 256 * (mget 0 k.planes (cellIx (p + 1) row col)).toNat
  else if code = 4 then bits b (4 * lane) 4
  else if code = 2 ∨ code = 3 then bits b 0 6 else b

/-- A cell's index for a lane of a sparse plane, with its word's state (R171). -/
def Core.cellIndex (k : Core) (bad : List Nat) (p row col lane : Nat) : Wt :=
  let w := idxWord bad p row col
  { val := .fin false 0 0, ix := mget 0 k.index (idxIx p lane row col), poison := mget false k.indexPoison w, ecc := k.flaw .index w == 2, sel := mget false k.indexPoison w || k.flaw .index w == 2 }

/-- The weight at row and column of the array for a plane and lane, with its index where the plane is sparse; an
uncorrectable exponent word is delivered poisoned (R94, R147, R171, R365). -/
def Core.weight (k : Core) (bad : List Nat) (code p row col lane : Nat) (sparse : Bool) : Wt :=
  let v := decCode code (k.cellBits code p row col lane)
  let v' := if hasExps code then vmul v (e8m0 (mget 0x7F k.exps (expIx p lane (row / 32) col)).toNat) else v
  let e := expWord bad p lane (row / 32) col
  let ws := (if is16 code then [p, p + 1] else [p]).map (fun q => planeWord bad q row col)
  let ix : Wt := if sparse then k.cellIndex bad p row col lane else { val := v, ix := 0, poison := false, ecc := false, sel := false }
  { val := v'
    ix := ix.ix
    poison := ws.any (fun w => mget false k.planePoison w) || ix.poison || (hasExps code && (mget false k.expPoison e || k.flaw .exps e == 2))
    ecc := ws.any (fun w => k.flaw .plane w == 2) || ix.ecc
    sel := ix.sel }

/-- Planes a tag names under a weight format (R87). -/
def tagPlanes (code tag : Nat) : List Nat := if is16 code then [tag / 2 * 2, tag / 2 * 2 + 1] else [tag]

/-- Recorded mode of planes over a partition: none when mixed (R510). -/
def Core.modeOf (k : Core) (pt : Part) (planes : List Nat) : Option Nat :=
  match planes.flatMap (fun p => pt.quads.map (fun q => mget 0 k.modes (p * 4 + q))) with
  | [] => some 0
  | m :: r => if r.all (· == m) then some m else none

/-- Single-bit errors that a row meets in the plane words and the index words of `rows` by `cols` cells: each is corrected
and counted at the read, in PLANE_CORRECTED and INDEX_CORRECTED (R94, R171). -/
def Core.cellFlips (k : Core) (bad : List Nat) (pt : Part) (planes : List Nat) (rows cols : Nat) (plane sparse : Bool) : List (Nat × Nat) :=
  if k.secded.isEmpty then []
  else
    let at4 (f : Nat → Nat → Nat → Nat) (ps : List Nat) : List Nat :=
      ps.flatMap (fun p => (List.range rows).flatMap (fun r => ((List.range cols).map (fun c => f p (pt.row0 + r) (pt.col0 + c))).dedup))
    [(0x38, if plane then k.flips .plane (at4 (planeWord bad) planes) else 0),
     (0x88, if sparse then k.flips .index (at4 (idxWord bad) (planes.take 1)) else 0)]

/-! ### Loads (R84, R85, R92, R93, R107, R172, R253) -/

/-- Sections of one plane: bytes of values, indices and exponents, each padded to a line (R253). -/
def planeSections (code sparse h n : Nat) : Nat × Nat × Nat :=
  (lineUp (h * rowBytes code n), if sparse = 0 then 0 else lineUp (cdiv (2 * h * n) 8),
    if hasExps code then lineUp (cdiv h 32 * n) else 0)

/-- An index of a section at byte address `a`, row `r` of `n` columns (R169). -/
def Core.srcIndex (k : Core) (a n r j : Nat) : Nat := (k.csElem a (2 * (r * n + j)) 2).1

/-- Whether every group of an index section keeps its lower index first (R172). -/
def Core.indexOk (k : Core) (a h n : Nat) : Bool :=
  (List.range (h / 2)).all (fun g => (List.range n).all (fun j => k.srcIndex a n (2 * g) j < k.srcIndex a n (2 * g + 1) j))

/-- Whether every block of four columns of every lane names each dense row at most twice (R168). -/
def Core.transposeOk (k : Core) (a h cc lanes : Nat) : Bool :=
  let n := cc * lanes
  (List.range (h / 2)).all (fun g => (List.range lanes).all (fun l => (List.range (cdiv cc 4)).all (fun b =>
    (List.range 4).all (fun i =>
      (((List.range (min 4 (cc - 4 * b))).flatMap (fun x =>
        [k.srcIndex a n (2 * g) (l * cc + 4 * b + x), k.srcIndex a n (2 * g + 1) (l * cc + 4 * b + x)])).filter (· == i)).length ≤ 2))))

/-- The step between planes that one load writes: 2 for plane pairs. -/
def planeStep (code : Nat) : Nat := if is16 code then 2 else 1

/-- One cell written by a load: its byte or its pair's bytes; a cell beyond COL_COUNT takes a zero weight (R93). -/
def Core.loadCell (k : Core) (bad : List Nat) (code p row col : Nat) (v : Nat) (poison : Bool) : Core :=
  let w := planeWord bad p row col
  let pl := mset 0 k.planes (cellIx p row col) (BitVec.ofNat 8 v)
  let pl' := if is16 code then mset 0 pl (cellIx (p + 1) row col) (BitVec.ofNat 8 (v / 256)) else pl
  let po := if poison then mset false k.planePoison w true else k.planePoison
  { k with planes := pl', planePoison := if is16 code && poison then mset false po (planeWord bad (p + 1) row col) true else po }

/-- Words of a row that a write of `cols` columns of a partition covers whole, `f` giving a column's word. -/
def ownWords (bad : List Nat) (pt : Part) (cols : Nat) (f : Nat → Nat) : List Nat :=
  ((List.range cols).map (fun x => f (pt.col0 + x))).dedup.filter (fun w =>
    (List.range (min 128 (132 - bad.length))).all (fun x => f x != w || (decide (pt.col0 ≤ x) && decide (x < pt.col0 + cols))))

/-- The words that a load of one plane or pair writes whole, with correct check bits; a word it writes in part keeps its
poison and its error (R94, R147, R171, R365). (DEDUCED, log 86) -/
def Core.freshWords (k : Core) (bad : List Nat) (pt : Part) (code sparse cc p : Nat) : Core :=
  let planes := if is16 code then [p, p + 1] else [p]
  let rows := List.range pt.h
  let pw := planes.flatMap (fun q => rows.flatMap (fun r => ownWords bad pt pt.w (planeWord bad q (pt.row0 + r))))
  let iw := if sparse = 0 then [] else rows.flatMap (fun r => ownWords bad pt cc (idxWord bad p (pt.row0 + r)))
  let ew := if hasExps code then
      (List.range (lanesOf code)).flatMap (fun l => (List.range (cdiv pt.h 32)).flatMap (fun b => ownWords bad pt cc (expWord bad p l (pt.row0 / 32 + b))))
    else []
  let mine (e : Nat) : Bool :=
    (e % 8 == Sram.plane.num && pw.contains (e / 8)) || (e % 8 == Sram.index.num && iw.contains (e / 8)) || (e % 8 == Sram.exps.num && ew.contains (e / 8))
  { k with
    planePoison := k.planePoison.filter (fun e => !pw.contains e.1)
    indexPoison := k.indexPoison.filter (fun e => !iw.contains e.1)
    expPoison := k.expPoison.filter (fun e => !ew.contains e.1)
    secded := k.secded.filter (fun e => !mine e.1) }

/-- The index section of one plane stored (R170, R171). -/
def Core.loadIndices (k : Core) (bad : List Nat) (pt : Part) (cc n p a : Nat) : Core :=
  iter pt.h (fun r x => iter n (fun j y =>
    let e := k.csElem a (2 * (r * n + j)) 2
    let y1 := { y with index := mset 0 y.index (idxIx p (j / cc) (pt.row0 + r) (pt.col0 + j % cc)) e.1 }
    if e.2 then { y1 with indexPoison := mset false y1.indexPoison (idxWord bad p (pt.row0 + r) (pt.col0 + j % cc)) true } else y1) x) k

/-- The exponent rows of one plane stored (R147). -/
def Core.loadExps (k : Core) (bad : List Nat) (pt : Part) (cc n p a : Nat) : Core :=
  iter (cdiv pt.h 32) (fun b x => iter n (fun j y =>
    let e := k.csElem a (8 * (b * n + j)) 8
    let y1 := { y with exps := mset 0x7F y.exps (expIx p (j / cc) (pt.row0 / 32 + b) (pt.col0 + j % cc)) (BitVec.ofNat 8 e.1) }
    if e.2 then { y1 with expPoison := mset false y1.expPoison (expWord bad p (j / cc) (pt.row0 / 32 + b) (pt.col0 + j % cc)) true } else y1) x) k

/-- One plane, or pair, loaded into a partition from byte address `a` (R84, R85, R147, R170, R173). -/
def Core.loadPlane (k : Core) (bad : List Nat) (pt : Part) (code sparse cc p a : Nat) : Core :=
  let lanes := lanesOf code
  let n := cc * lanes
  let sec := planeSections code sparse pt.h n
  let planes := if is16 code then [p, p + 1] else [p]
  let wb := fmtBits code
  let k1 := iter pt.h (fun r x => iter pt.w (fun c y =>
    if c < cc then
      let es := (List.range lanes).map (fun l => k.csElem (a + r * rowBytes code n) ((l * cc + c) * wb) wb)
      y.loadCell bad code p (pt.row0 + r) (pt.col0 + c) ((es.zipIdx 0).map (fun e => e.1.1 * 2 ^ (4 * e.2))).sum (es.any (·.2))
    else y.loadCell bad code p (pt.row0 + r) (pt.col0 + c) 0 false) x) (k.freshWords bad pt code sparse cc p)
  let k2 := if sparse = 0 then k1 else k1.loadIndices bad pt cc n p (a + sec.1)
  let k3 := if hasExps code then k2.loadExps bad pt cc n p (a + sec.1 + sec.2.1) else k2
  { k3 with modes := planes.foldl (fun m q => pt.quads.foldl (fun m' u => mset 0 m' (q * 4 + u) sparse) m) k3.modes }

/-- Where a load reads: the bytes of one plane or pair with its sections, and the planes or pairs it writes. -/
def Op.loadUnit (o : Op) (h : Nat) : Nat × Nat :=
  let code := o.f 0 16 4
  let sec := planeSections code (o.f 4 30 2) h (o.f 4 0 8 * lanesOf code)
  (sec.1 + sec.2.1 + sec.2.2, o.f 0 0 8 / planeStep code)

/-- The status that ends an ARRAY_LOAD before its check pass, in the order of R511. (DESIGN CHOICE, log 84) -/
def Core.loadStatus (_k : Core) (w : Nat) (o : Op) : Nat :=
  let code := o.f 0 16 4
  let first := o.f 0 8 6
  let cnt := o.f 0 0 8
  let cc := o.f 4 0 8
  let enc := !o.zeros [(0, 14, 2), (4, 8, 22), (8, 15, 17), (12, 0, 32)] || o.f 4 30 2 == 3
  let range := cnt == 0 || decide (64 < first + cnt) || (is16 code && (first % 2 == 1 || cnt % 2 == 1))
  match partOf w (o.f 0 22 2) (o.f 0 20 2) with
  | none => firstFail [(enc, 0x25), (decide (8 ≤ code), 0x22), (range, 0x23), (true, 0x21)]
  | some pt =>
    let u := o.loadUnit pt.h
    firstFail [(enc, 0x25), (decide (8 ≤ code), 0x22), (range, 0x23),
      (cc == 0 || decide (pt.w < cc) || csOver (64 * o.f 8 0 15) (u.2 * u.1), 0x21)]

/-- The status of a sparse load's check pass (R172). -/
def Core.checkPass (k : Core) (pt : Part) (o : Op) : Nat :=
  let code := o.f 0 16 4
  let sp := o.f 4 30 2
  let cc := o.f 4 0 8
  let n := cc * lanesOf code
  let u := o.loadUnit pt.h
  let a := 64 * o.f 8 0 15 + (planeSections code sp pt.h n).1
  firstFail [(sp != 0 && !(List.range u.2).all (fun i => k.indexOk (a + i * u.1) pt.h n), 0x2C),
    (sp == 2 && !(List.range u.2).all (fun i => k.transposeOk (a + i * u.1) pt.h cc (lanesOf code)), 0x2D)]

/-! ### Rows (R88 to R91, R114 to R118, R144 to R149) -/

/-- A sum in progress: none before its first product; an FP32 word or an INT32 value; poison; held sums. -/
structure Sum1 where
  val : Option Val
  int : Int
  poison : Bool
  held : Nat
deriving DecidableEq, Repr

/-- The empty sum. -/
def sum0 : Sum1 := { val := none, int := 0, poison := false, held := 0 }

/-- INT32 addition held at its limits, each held sum counted (R146). -/
def satInt (a b : Int) : Int × Nat :=
  let v := a + b
  if v > 2147483647 then (2147483647, 1) else if v < -2147483648 then (-2147483648, 1) else (v, 0)

/-- One exact product added: the first is rounded alone, later ones once with the running value (R89, R144). -/
def Sum1.addv (x : Sum1) (p : Val) (poison : Bool) : Sum1 :=
  { x with
    val := some (match x.val with | none => roundRne fp32 p | some v => roundRne fp32 (vadd v p))
    poison := x.poison || poison }

/-- One integer product added (R146). -/
def Sum1.addi (x : Sum1) (p : Int) (poison : Bool) : Sum1 :=
  match x.val with
  | none => { x with val := some (.fin false 0 0), int := p, poison := x.poison || poison }
  | some _ => let r := satInt x.int p; { x with int := r.1, held := x.held + r.2, poison := x.poison || poison }

/-- An INT8 value as an integer. -/
def valInt : Val → Int
  | .fin s m e => let n : Int := shl m e; if s then -n else n
  | _ => 0

/-- The parameters of a feed or reverse operation after its checks. -/
structure Feed where
  rev : Bool
  pt : Part
  wf : Nat
  af : Nat
  int : Bool
  lanes : Nat
  sparse : Nat
  active : Nat
  out : Nat
  rows : Nat
  elems : Nat
  rp : Nat
  src : Nat
  scaleMode : Nat
  scale : Nat
deriving DecidableEq, Repr

/-- Element `e` of row `i` with its MX factor, and its poison (R148, R252). -/
def Core.rowElem (k : Core) (src rp code elems scaleMode scale i e : Nat) : Val × Bool :=
  let b := fmtBits code
  let x := k.csElem (src + i * rp * 64) (e * b) b
  if scaleMode = 2 then
    let sc := k.csElem scale (8 * (i * cdiv elems 32 + e / 32)) 8
    (vmul (decCode code x.1) (e8m0 sc.1), x.2 || sc.2)
  else (decCode code x.1, x.2)

/-- The sums of one feed row on the plane its tag names: one per active column and lane, in ascending matrix column
order (R85, R89, R174, R175), and whether an uncorrectable word was read. -/
def Core.feedRow (k : Core) (bad : List Nat) (f : Feed) (i tag : Nat) : List Sum1 × Bool :=
  let p := nth 0 (tagPlanes f.wf tag) 0
  let xs := (List.range f.elems).map (k.rowElem f.src f.rp f.af f.elems f.scaleMode f.scale i)
  let cells := (List.range f.lanes).flatMap (fun l => (List.range f.out).map (fun c =>
    (List.range f.active).foldl (fun (acc : Sum1 × Bool) r =>
      let w := k.weight bad f.wf p (f.pt.row0 + r) (f.pt.col0 + c) l (f.sparse != 0)
      let x := nth (Val.fin false 0 0, false) xs (if f.sparse = 0 then r else 4 * (r / 2) + w.ix)
      ((if f.int then acc.1.addi (valInt w.val * valInt x.1) (w.poison || w.ecc || x.2)
        else acc.1.addv (vmul w.val x.1) (w.poison || w.ecc || x.2)), acc.2 || w.ecc)) (sum0, false)))
  (cells.map (·.1), cells.any (·.2))

/-- The sums of one gradient row: one per partition row for a dense plane (R115), one per dense row of each group for
a TRANSPOSABLE plane, an untouched sum giving +0 (R118). An index that is poisoned could name any sum of its group. -/
def Core.reverseRow (k : Core) (bad : List Nat) (f : Feed) (i tag : Nat) : List Sum1 × Bool :=
  let p := nth 0 (tagPlanes f.wf tag) 0
  let gs := (List.range f.elems).map (k.rowElem f.src f.rp f.af f.elems f.scaleMode f.scale i)
  let one (rows : List Nat) (want : Option Nat) : Sum1 × Bool :=
    (List.range f.active).foldl (fun a0 c => (List.range f.lanes).foldl (fun a1 l => rows.foldl (fun (acc : Sum1 × Bool) r =>
      let w := k.weight bad f.wf p (f.pt.row0 + r) (f.pt.col0 + c) l (f.sparse != 0)
      if want.all (· == w.ix) then
        let g := nth (Val.fin false 0 0, false) gs (l * f.active + c)
        (acc.1.addv (vmul w.val g.1) (w.poison || w.ecc || g.2), acc.2 || w.ecc)
      else ({ acc.1 with poison := acc.1.poison || w.sel }, acc.2 || w.ecc)) a1) a0) (sum0, false)
  let cells := if f.sparse = 0 then (List.range f.out).map (fun r => one [r] none)
    else (List.range (2 * f.out)).map (fun d => one [2 * (d / 4), 2 * (d / 4) + 1] (some (d % 4)))
  (cells.map (fun e => if e.1.val.isNone then { e.1 with val := some (.fin false 0 0) } else e.1), cells.any (·.2))

/-- Row sums of a run added into the accumulators in issue order (R90, R146). -/
def addRows (int : Bool) (a b : List Sum1) : List Sum1 :=
  a.zipWith (fun x y =>
    if int then let r := satInt x.int y.int; { x with int := r.1, held := x.held + r.2 + y.held, poison := x.poison || y.poison }
    else { x.addv (y.val.getD (.fin false 0 0)) y.poison with held := x.held + y.held }) b

/-- The words a closed run passes to the drain, with the one FP32 scale of SCALE_MODE 1 (R149). -/
def runWords (int : Bool) (scale : Option PWord) (run : List Sum1) : List PWord :=
  run.map (fun x =>
    let v := if int then vint x.int else x.val.getD (.fin false 0 0)
    match scale with
    | some w => (r32 (vmul v (v32 w.1)), x.poison || w.2)
    | none => if int then (BitVec.ofInt 32 x.int, x.poison) else (r32 v, x.poison))

/-- The tag of row `i` and whether it closes a run (R90, R108). -/
def Core.rowTag (k : Core) (o : Op) (i : Nat) : Nat × Bool :=
  let n := o.f 4 16 16
  if o.f 0 6 1 = 1 then
    let b := (k.csElem (64 * o.f 12 16 15) (8 * i) 8).1
    (bits b 0 6, bit b 6 || i + 1 == n)
  else ((o.f 16 24 6 + o.f 16 16 6 * (i % o.f 16 0 7)) % 64, decide ((i + 1) % o.f 4 0 8 = 0) || i + 1 == n)

/-- The mode check of one tag: a status, or the row width it fixes (R119, R176, R510). (DEDUCED, log 18) -/
def Core.tagCheck (k : Core) (rev : Bool) (pt : Part) (code first tag : Nat) : Nat :=
  match k.modeOf pt (tagPlanes code tag), k.modeOf pt (tagPlanes code first) with
  | none, _ => if rev then 0x28 else 0x2E
  | some m, f =>
    if rev then
      if m = 1 then 0x27 else if some m = f then 0 else 0x28
    else match f with
      | some m0 => if (m = 0) = (m0 = 0) then 0 else 0x2E
      | none => 0x2E

/-- The first row whose tag fails its check, with the status. -/
def Core.tagFail (k : Core) (rev : Bool) (pt : Part) (code : Nat) (tags : List Nat) : Option (Nat × Nat) :=
  (tags.zipIdx 0).findSome? (fun t =>
    match k.tagCheck rev pt code (nth 0 tags 0) t.1 with
    | 0 => none
    | e => some (t.2, e))

/-- Reserved fields of ARRAY_FEED and ARRAY_REVERSE, with those that list mode reserves (R16, R108, R125). -/
def feedReserved (o : Op) (rev : Bool) : Bool :=
  let lst := o.f 0 6 1 == 1
  let base := o.zeros [(0, 0, 6), (8, 31, 1), (8, 15, 1), (12, 31, 1), (12, 15, 1), (16, 30, 2), (16, 22, 2), (16, 7, 9), (20, 15, 17), (28, 24, 8)]
  let l2 := if lst then o.zeros [(4, 0, 8), (16, 0, 32)] else o.zeros [(12, 16, 15)]
  let l3 := if rev then o.zeros [(20, 0, 32), (24, 0, 32), (0, 7, 1)] else true
  !(base && l2 && l3) || o.f 0 10 2 == 3 || o.f 0 8 2 == 3

/-- The Feed of an operation in its partition, over planes of the width `sparse`. -/
def feedOf (o : Op) (rev : Bool) (pt : Part) (q sparse : Nat) : Feed :=
  let wf := o.f 0 16 4
  let af := o.f 0 12 4
  let lanes := lanesOf wf
  let act := o.f 4 8 8
  let elems := if rev then act * lanes else if sparse = 0 then act else 4 * cdiv act 2
  { rev := rev, pt := pt, wf := wf, af := af, int := wf == 5 && q == 1, lanes := lanes, sparse := sparse, active := act, out := o.f 28 16 8, rows := o.f 4 16 16, elems := elems, rp := cdiv (elems * (fmtBits af / 8)) 64, src := 64 * o.f 8 0 15, scaleMode := o.f 0 8 2, scale := 64 * o.f 8 16 15 }

/-- Values of one run. -/
def Feed.vals (f : Feed) : Nat := if f.rev then (if f.sparse = 0 then f.out else 2 * f.out) else f.out * f.lanes

/-- A sum as a word: FP32, or INT32 under integer accumulation. -/
def Sum1.word (int : Bool) (x : Sum1) : PWord :=
  (if int then BitVec.ofInt 32 x.int else r32 (x.val.getD (.fin false 0 0)), x.poison)

/-- A word as a sum. -/
def sumOf (w : PWord) : Sum1 := { val := some (v32 w.1), int := w.1.toInt, poison := w.2, held := 0 }

/-- The values of a run from the sums of its rows, in row order, and the sums held (R90, R146, R149). -/
def Feed.run (f : Feed) (scale : Option PWord) (rows : List (List PWord)) : List PWord × Nat :=
  let acc := match rows.map (fun r => r.map sumOf) with
    | [] => []
    | x :: r => r.foldl (addRows f.int) x
  (runWords f.int scale acc, (acc.map (·.held)).sum)

/-! ### Checks of row operations (R110, R511) -/

/-- Runs of the first `n` rows. -/
def Core.runCount (k : Core) (o : Op) (n : Nat) : Nat := ((List.range n).filter (fun i => (k.rowTag o i).2)).length

/-- The recorded mode that the first row of a feed or reverse operation names, dense where it is mixed. -/
def Core.firstMode (k : Core) (pt : Part) (o : Op) : Nat :=
  (k.modeOf pt (tagPlanes (o.f 0 16 4) (k.rowTag o 0).1)).getD 0

/-- The status that ends a feed or reverse operation before any row, in the order of R511; mode checks of list mode
are made as rows are read. (DESIGN CHOICE, log 84) -/
def Core.feedStatus (k : Core) (w : Nat) (o : Op) (rev : Bool) : Nat :=
  let wf := o.f 0 16 4
  let af := o.f 0 12 4
  let sm := o.f 0 8 2
  let n := o.f 4 16 16
  let lst := o.f 0 6 1 == 1
  let gat := !rev && o.f 0 7 1 == 1
  let int := wf == 5 && af == 5
  let pair := (pairQ wf af).isNone || (rev && wf == 5)
  let scl := (sm == 2 && !isFp8 af) || (int && sm == 0 && o.f 0 10 2 == 1)
  let gsetup := gat && (o.f 24 24 8 == 0 || n % o.f 24 24 8 != 0 || decide (o.f 24 24 8 < o.f 24 16 8) || decide (64 < o.f 24 24 8)
    || (o.f 0 10 2 == 0 && o.f 28 0 16 == 0))
  match partOf w (o.f 0 22 2) (o.f 0 20 2) with
  | none => firstFail [(feedReserved o rev, 0x25), (pair, 0x22), (scl, 0x2B), (true, 0x21)]
  | some pt =>
    let f := feedOf o rev pt ((pairQ wf af).getD 1) (k.firstMode pt o)
    let runs := k.runCount o n
    let lim := if rev then pt.w else pt.h
    let lim2 := if rev then pt.h else pt.w
    let dl := o.f 12 0 15
    let ds := o.f 28 0 16
    let shape := decide (f.active = 0 ∨ lim < f.active ∨ f.out = 0 ∨ lim2 < f.out ∨ n = 0)
      || (!lst && (o.f 16 0 7 == 0 || decide (64 < o.f 16 0 7) || o.f 4 0 8 == 0))
      || csOver f.src (n * f.rp * 64)
      || (sm == 1 && csOver f.scale 4) || (sm == 2 && csOver f.scale (n * cdiv f.elems 32))
      || (lst && csOver (64 * o.f 12 16 15) n) || (gat && csOver (64 * o.f 20 0 15) 8)
      || (o.f 0 10 2 == 0 && csOver ((dl + (runs - 1) * ds) * 64) (4 * f.vals))
    let pot := o.f 0 10 2 == 1 && decide (65536 < (dl + (runs - 1) * ds) * 16 + f.vals)
    let modes := match k.tagFail rev pt wf ((List.range n).map (fun i => (k.rowTag o i).1)) with
      | some (i, e) => if lst && i != 0 then 0 else e
      | none => 0
    firstFail [(feedReserved o rev, 0x25), (pair, 0x22), (scl, 0x2B), (shape, 0x21), (gsetup, 0x24), (pot, 0x29), (modes != 0, modes)]

/-- The poisoned words of a byte range that no byte before the range shares, or all of them where it comes first. -/
def Core.csFresh (k : Core) (a n : Nat) (first : Bool) : Nat :=
  if n = 0 then 0
  else ((List.range ((a + n - 1) / 4 - a / 4 + 1)).filter (fun i =>
    (first || decide (a ≤ 4 * (a / 4 + i))) && mget false k.storePoison (a / 4 + i))).length

/-- Poisoned words that row `i` of a row port takes in: its elements, no pad bytes (R252), and its scale bytes of SCALE_MODE 2;
the one scale of SCALE_MODE 1 with the first row issued. -/
def Core.portPoison (k : Core) (src rp bytes scaleMode scale elems i : Nat) (first : Bool) : Nat :=
  k.csPoisoned (src + i * rp * 64) bytes
    + (if scaleMode = 2 then k.csFresh (scale + i * cdiv elems 32) (cdiv elems 32) (i == 0)
      else if scaleMode = 1 && first then k.csPoisoned scale 4 else 0)

/-- Poisoned words that row `i` of a feed or reverse operation takes in, its tag among them. -/
def Core.rowPoison (k : Core) (f : Feed) (o : Op) (i : Nat) (first : Bool) : Nat :=
  k.portPoison f.src f.rp (f.elems * (fmtBits f.af / 8)) f.scaleMode f.scale f.elems i first
    + (if o.f 0 6 1 = 1 then k.csFresh (64 * o.f 12 16 15 + i) 1 (i == 0) else 0)

/-! ### WGRAD (R120 to R128) -/

/-- The status that ends an ARRAY_WGRAD, in the order of R511. -/
def Core.wgradStatus (k : Core) (w : Nat) (o : Op) : Nat :=
  let wf := o.f 0 3 4
  let xf := o.f 0 16 4
  let gf := o.f 0 12 4
  let xs := o.f 0 9 2
  let gs := o.f 0 7 2
  let kr := o.f 16 16 8
  let cc := o.f 16 8 8
  let n := o.f 4 16 16
  let enc := !o.zeros [(0, 0, 3), (4, 8, 2), (8, 31, 1), (8, 15, 1), (12, 31, 1), (12, 15, 1), (16, 24, 8), (16, 0, 8), (20, 12, 20), (24, 0, 32), (28, 0, 32)]
    || xs == 3 || gs == 3
  let pair := (wgradQ xf gf).isNone || wf == 5 || decide (8 ≤ wf)
  let scl := (xs == 2 && !isFp8 xf) || (gs == 2 && !isFp8 gf)
  let range := is16 wf && o.f 4 10 6 % 2 == 1
  let frozen := mget false k.flags (o.f 4 0 8)
  match partOf w (o.f 0 22 2) (o.f 0 20 2) with
  | none => firstFail [(frozen, 0x01), (enc, 0x25), (pair, 0x22), (scl, 0x2B), (range, 0x23), (true, 0x21)]
  | some pt =>
    let m := k.modeOf pt (tagPlanes wf (o.f 4 10 6))
    let xe := if m = some 0 ∨ m = none then kr else 4 * cdiv kr 2
    let ge := cc * lanesOf wf
    let shape := decide (kr = 0 ∨ pt.h < kr ∨ cc = 0 ∨ pt.w < cc ∨ n = 0)
      || csOver (64 * o.f 8 0 15) (n * cdiv (xe * (fmtBits xf / 8)) 64 * 64) || csOver (64 * o.f 12 0 15) (n * cdiv (ge * (fmtBits gf / 8)) 64 * 64)
      || (xs == 1 && csOver (64 * o.f 8 16 15) 4) || (xs == 2 && csOver (64 * o.f 8 16 15) (n * cdiv xe 32))
      || (gs == 1 && csOver (64 * o.f 12 16 15) 4) || (gs == 2 && csOver (64 * o.f 12 16 15) (n * cdiv ge 32))
    let pot := decide (65536 < 16 * o.f 20 0 12 + kr * cc * lanesOf wf)
    firstFail [(frozen, 0x01), (enc, 0x25), (pair, 0x22), (scl, 0x2B), (range, 0x23), (shape, 0x21), (pot, 0x29), (m == some 1, 0x2A), (m == none, 0x28)]

/-- The operands of a WGRAD in its partition (R120, R124). -/
structure Wgrad where
  pt : Part
  wf : Nat
  xf : Nat
  gf : Nat
  lanes : Nat
  plane : Nat
  sparse : Bool
  kr : Nat
  cc : Nat
  xe : Nat
  ge : Nat
  xrp : Nat
  grp : Nat
deriving DecidableEq, Repr

/-- The operands of a WGRAD over a plane of recorded mode `sparse`. -/
def wgradOf (o : Op) (pt : Part) (sparse : Nat) : Wgrad :=
  let wf := o.f 0 3 4
  let kr := o.f 16 16 8
  let cc := o.f 16 8 8
  let xe := if sparse = 0 then kr else 4 * cdiv kr 2
  let ge := cc * lanesOf wf
  { pt := pt, wf := wf, xf := o.f 0 16 4, gf := o.f 0 12 4, lanes := lanesOf wf, plane := nth 0 (tagPlanes wf (o.f 4 10 6)) 0, sparse := sparse != 0, kr := kr, cc := cc, xe := xe, ge := ge, xrp := cdiv (xe * (fmtBits (o.f 0 16 4) / 8)) 64, grp := cdiv (ge * (fmtBits (o.f 0 12 4) / 8)) 64 }

/-- The tile registers after token `t`, in the order of the tile's pot entries, from those before it; none before the first
token (R120). Whether an uncorrectable index word was read. -/
def Core.token (k : Core) (bad : List Nat) (o : Op) (g : Wgrad) (tile : List PWord) (t : Nat) : List PWord × Bool :=
  let xs := (List.range g.xe).map (k.rowElem (64 * o.f 8 0 15) g.xrp g.xf g.xe (o.f 0 9 2) (64 * o.f 8 16 15) t)
  let gs := (List.range g.ge).map (k.rowElem (64 * o.f 12 0 15) g.grp g.gf g.ge (o.f 0 7 2) (64 * o.f 12 16 15) t)
  let zero : Val × Bool := (.fin false 0 0, false)
  let cells := (List.range g.kr).flatMap (fun r => (List.range g.cc).flatMap (fun x => (List.range g.lanes).map (fun l =>
    let w : Wt := if g.sparse then k.cellIndex bad g.plane (g.pt.row0 + r) (g.pt.col0 + x) l
      else { val := zero.1, ix := 0, poison := false, ecc := false, sel := false }
    let xv := nth zero xs (if g.sparse then 4 * (r / 2) + w.ix else r)
    let gv := nth zero gs (l * g.cc + x)
    ((vmul xv.1 gv.1, xv.2 || gv.2 || w.poison || w.ecc), w.ecc))))
  ((cells.zipIdx 0).map (fun c =>
    let s0 : Sum1 := match tile[c.2]? with | some w => sumOf w | none => sum0
    (s0.addv c.1.1.1 c.1.1.2).word false), cells.any (·.2))

/-- A finished tile with its one FP32 scale of each operand under SCALE_MODE 1 (R149). -/
def Core.tileOut (k : Core) (o : Op) (tile : List PWord) : List PWord :=
  let one : PWord := (0x3F800000, false)
  let xm := o.f 0 9 2
  let gm := o.f 0 7 2
  let sx := if xm = 1 then k.csWord (64 * o.f 8 16 15) else one
  let sg := if gm = 1 then k.csWord (64 * o.f 12 16 15) else one
  if xm = 1 ∨ gm = 1 then tile.map (fun w => (r32 (vmul (vmul (v32 w.1) (v32 sx.1)) (v32 sg.1)), w.2 || sx.2 || sg.2)) else tile

/-- Poisoned words that token `t` takes in. -/
def Core.tokenPoison (k : Core) (o : Op) (g : Wgrad) (t : Nat) (first : Bool) : Nat :=
  k.portPoison (64 * o.f 8 0 15) g.xrp (g.xe * (fmtBits g.xf / 8)) (o.f 0 9 2) (64 * o.f 8 16 15) g.xe t first
    + k.portPoison (64 * o.f 12 0 15) g.grp (g.ge * (fmtBits g.gf / 8)) (o.f 0 7 2) (64 * o.f 12 16 15) g.ge t first

/-! ### Planes that operations name (R93, R265) -/

/-- The partition of an operation. -/
def Core.opPart (o : Op) (w : Nat) : Option Part := partOf w (o.f 0 22 2) (o.f 0 20 2)

/-- The planes that row `i` of an operation names (R87, R124). -/
def Core.rowPlanes (k : Core) (o : Op) (i : Nat) : List Nat :=
  if o.opc = 4 then tagPlanes (o.f 0 3 4) (o.f 4 10 6) else tagPlanes (o.f 0 16 4) (k.rowTag o i).1

/-- The planes that an array operation loads or that its rows name. -/
def Core.opPlanes (k : Core) (o : Op) : List Nat :=
  match o.opc with
  | 1 => (List.range (o.f 0 0 8)).map (fun i => o.f 0 8 6 + i)
  | 4 => k.rowPlanes o 0
  | _ =>
    let n := o.f 4 16 16
    let m := if o.f 0 6 1 = 1 then n else min n (o.f 16 0 7)
    ((List.range m).flatMap (k.rowPlanes o)).dedup

/-- Whether two operations' partitions share cells. -/
def partsMeet (w : Nat) (x y : Op) : Bool :=
  match Core.opPart x w, Core.opPart y w with
  | some p, some q => p.quads.any (fun i => q.quads.contains i)
  | _, _ => false

/-- Whether two operations touch one plane of one part of the array. -/
def Core.meet (k : Core) (w : Nat) (x y : Op) : Bool := partsMeet w x y && (k.opPlanes x).any (fun i => (k.opPlanes y).contains i)

end Sys2Proof.Machine
end

