-- ==== Sys2Proof/Machine/Flow.lean ====
section
/-! DEFINITION. The leaf array cycle by cycle, and the clocks that carry it: feeders, the wavefront, the array-wide freeze
and the pour limit, drains, shadow registers, the pot port and the plane-load port (03_leaf_array R88 to R104, R111;
04_reverse_flow R112 to R116, R121, R131, R132, R141; 06 R172; 08 R229). -/

namespace Sys2Proof.Machine

/-! ### What a row operation is about to do -/

/-- q of a row operation (R86, R123). -/
def Op.rowQ (o : Op) : Nat := ((if o.opc = 4 then wgradQ (o.f 0 16 4) (o.f 0 12 4) else pairQ (o.f 0 16 4) (o.f 0 12 4))).getD 1

/-- Whether an operation is a feed in GATHER mode (R104). -/
def Op.gathers (o : Op) : Bool := o.opc == 2 && o.f 0 7 1 == 1

/-- Whether each tag is checked as it is read: list tag mode (R119, R176). -/
def Op.listed (o : Op) : Bool := (o.opc == 2 || o.opc == 3) && o.f 0 6 1 == 1

/-- The destination of a row operation's runs: a tile goes to the pot (R91, R122). -/
def Op.dest (o : Op) : Nat := if o.opc = 4 then 1 else o.f 0 10 2

/-- The row operation of a number at its feeder. -/
def Core.flow (k : Core) (id : Nat) : Option Flow := k.flows.find? (fun f => f.op.id == id)

/-- A flow replaced. -/
def Core.setFlow (k : Core) (f : Flow) : Core := { k with flows := updWhere (fun (g : Flow) => g.op.id == f.op.id) (fun _ => f) k.flows }

/-- Rows of each slot of a GATHER feed. -/
def Flow.per (f : Flow) : Nat := f.rows / f.op.f 24 24 8

/-- The row that a feeder issues next: none when all are issued, and none in a GATHER wait (R104). -/
def Flow.row (f : Flow) : Option Nat :=
  if f.rows ≤ f.issued then none
  else if f.op.gathers then
    match f.slots.getLast? with
    | some sl => if f.issued < f.slots.length * f.per then some (sl * f.per + f.issued % f.per) else none
    | none => none
  else some f.issued

/-- The rows a feeder has still to issue. -/
def Flow.toCome (f : Flow) : List Nat :=
  if f.op.gathers then
    (List.range f.rows).filter (fun i =>
      !f.slots.contains (i / f.per)
        || (f.slots.getLast? == some (i / f.per) && decide (f.issued < f.slots.length * f.per) && decide (f.issued % f.per ≤ i % f.per)))
  else (List.range f.rows).drop f.issued

/-- The slots that the ready word shows ready (R104). -/
def Core.readySlots (k : Core) (o : Op) : List Nat :=
  let word := leNat ((k.csRead (64 * o.f 20 0 15) 8).map (·.1))
  (List.range (o.f 24 24 8)).filter (fun i => bit word i)

/-- A GATHER feeder samples the ready word in cycle `x`: issue begins when FILL_TARGET slots are ready or DEADLINE cycles have
passed, and a feeder between slots takes the lowest ready slot not yet issued (R104). -/
def Core.sample (k : Core) (x : Nat) (f : Flow) : Flow :=
  if f.op.gathers && decide (f.issued < f.rows) then
    let ready := k.readySlots f.op
    let g := { f with begun := f.begun || decide (f.op.f 24 16 8 ≤ ready.length) || decide (f.since + f.op.f 24 0 16 ≤ x) }
    if g.begun && g.row.isNone then
      match ready.find? (fun i => !g.slots.contains i) with
      | some i => { g with slots := g.slots ++ [i] }
      | none => g
    else g
  else f

/-- Whether some planes of an operation's partition await a load issued before it that has not ended (R93). -/
def Core.awaits (k : Core) (w : Nat) (o : Op) (planes : List Nat) : Bool :=
  ((k.arrayQ.filter (fun q => q.opc == 1)) ++ (k.load.map (·.op)).toList).any (fun l =>
    decide (l.id < o.id) && partsMeet w o l && planes.any (fun p => (k.opPlanes l).contains p))

/-- Whether a feeder's next row waits for a plane load (R93, R101). -/
def Core.rowAwaits (k : Core) (w : Nat) (f : Flow) : Bool :=
  match f.row with
  | some i => k.awaits w f.op (k.rowPlanes f.op i)
  | none => false

/-- Whether a feeder's next row is not in its buffer (R97). -/
def Flow.lacks (f : Flow) : Bool :=
  match f.row with
  | some i => f.dry.any (fun d => d.1 == i && d.2 != 0)
  | none => false

/-- The buffer fills for one cycle, whether the array advances or not (R98). -/
def Flow.fill (f : Flow) : Flow :=
  match f.row with
  | some i => { f with dry := updWhere (fun (d : Nat × Nat) => d.1 == i) (fun d => (d.1, d.2 - 1)) f.dry }
  | none => f

/-! ### Operations in their places (R96, R112, R265) -/

/-- Direction and mode as one number; 4 is a plane load, which has none. -/
def dirModeOf (dir mode : Nat) : Nat := if dir = 0 then 8 + mode else if dir = 1 then 16 + mode else 24 + mode

/-- Direction and mode of a row operation. -/
def Op.dirMode (o : Op) : Nat := dirModeOf (o.opc - 2) (o.f 0 22 2)

/-- An array operation may begin only in the array's direction and mode, or when every earlier operation has ended
(R96, R112). (DEDUCED, log 78) -/
def Core.modeFree (k : Core) (dm : Nat) : Bool :=
  (k.arrayRun.filter (fun r => r.dirMode != 4)).all (fun r => r.dirMode == dm)

/-- Whether a row operation's turn has come, `before` being those ahead of it in their places: direction and mode free, its
partition's earlier rows issued, and its VEC_RUN issued when it pairs with one (R96, R112, R228). -/
def Core.turn (k : Core) (before : List Op) (o : Op) : Bool :=
  k.modeFree o.dirMode && before.all (fun y => y.opc == 1 || y.dirMode == o.dirMode)
    && k.flows.all (fun f => f.op.place != o.place || decide (f.rows ≤ f.issued))

/-- Whether an operation's feeder must be dry for its first row: its turn has come and an earlier load into a plane of that
row has not ended. In pattern mode the feeder is idle instead (R93, R119, R124, R176). -/
def Core.firstDry (k : Core) (w : Nat) : List Op → List Op → Bool
  | _, [] => false
  | before, o :: r =>
    ((o.opc == 4 && !mget false k.flags (o.f 4 0 8) || o.listed) && k.turn before o && k.awaits w o (k.rowPlanes o 0)
      && (o.opc == 4 || o.f 0 10 2 != 2 || (k.pairVec o).isSome))
    || k.firstDry w (before ++ [o]) r

/-- Whether the array's unit runs. -/
def Core.arrayOn (k : Core) : Bool := (k.uArray.st == .on || k.uArray.st == .gatePending) && k.power == .on

/-! ### Drains (R91, R121, R131, R229) -/

/-- Drain cycles that a run of `v` values takes (R91, R131, R229). -/
def drainCycles (dest v : Nat) : Nat := if dest = 1 then cdiv v 128 else if dest = 2 then cdiv v 64 else 1

/-- Whether the chain can take runs of an array operation: its VEC_RUN is at the head of the chain's queue, the chain is free
and its unit ON (R228, R265). -/
def Core.chainTakes (k : Core) (id : Nat) : Bool :=
  match k.pairOf id with
  | some p => k.vecRun.isNone && (k.uVec.st == .on || k.uVec.st == .gatePending) && (k.vecQ.head?.map (·.id) == p.vecId && p.vecId.isSome)
  | none => false

/-- Whether an operation's ticket is served next (R131). -/
def Core.served (k : Core) (o : Op) : Bool :=
  match o.ticket with
  | none => true
  | some t => t == k.potHead

/-- A run written to its destination (R91). -/
def Core.writeRun (k : Core) (o : Op) (r : QRun) : Core :=
  let line := o.f 12 0 15 + r.run * o.f 28 0 16
  let k1 := if o.dest = 0 then k.csWords (64 * line) r.vals
    else if o.dest = 1 then k.potApply false (16 * line) r.vals
    else k.updPair o.id (fun p => { p with vals := p.vals ++ r.vals })
  k1.count 0x30 1

/-- One drain's cycle: the run at the head of its queue, which entered in an earlier cycle, is written where its destination
serves it (R88, R91, R98). -/
def Core.drainOne (k : Core) (x place : Nat) : Core :=
  match mget [] k.drains place with
  | [] => k
  | h :: r =>
    match k.flow h.opId with
    | none => { k with drains := mset [] k.drains place r }
    | some f =>
      if x ≤ h.enter || (f.op.dest == 1 && !k.served f.op) || (f.op.dest == 2 && !k.chainTakes f.op.id) then k
      else if h.left ≤ 1 then ({ k with drains := mset [] k.drains place r } : Core).writeRun f.op h
      else { k with drains := mset [] k.drains place ({ h with left := h.left - 1 } :: r) }

/-- One cycle of a tile in the shadow registers: it shifts while its ticket is served, and its last partition row passes the
feet two cycles before the tile's last value is in the pot (R121, R122, R131). (DEDUCED, log 17) -/
def Core.shiftOne (k : Core) (f : Flow) : Core :=
  match f.shadow with
  | none => k
  | some (n, vals) =>
    if n ≤ 2 then k.setFlow { f with shadow := some (n - 1, []) }
    else if !k.served f.op then k
    else if n = 3 then
      ((k.setFlow { f with shadow := some (2, []) }).potApply (f.op.f 0 11 1 == 1) (16 * f.op.f 20 0 12) vals).count 0x30 1
    else k.setFlow { f with shadow := some (n - 1, vals) }

/-- All drains and shadow registers for one cycle. They go on in frozen cycles (R98). -/
def Core.drainStep (k : Core) (x : Nat) : Core :=
  let k1 := (k.drains.map (·.1)).foldl (fun y p => y.drainOne x p) k
  k1.flows.foldl (fun y f => y.shiftOne f) k1

/-! ### The plane-load port (R92, R93, R172) -/

/-- Whether a load must still wait before its first write: a row issued before it names one of its planes and has not passed
its last row of cells (R88, R93, R124). -/
def Core.loadHeld (k : Core) (w : Nat) (l : Op) : Bool :=
  let ps := k.opPlanes l
  k.arrayQ.any (fun q => q.opc != 1 && decide (q.id < l.id) && k.meet w q l)
    || k.flows.any (fun f => decide (f.op.id < l.id) && partsMeet w f.op l &&
      (f.toCome.any (fun i => (k.rowPlanes f.op i).any (fun p => ps.contains p))
        || match Core.opPart f.op w with
          | some pt => ps.any (fun p => decide (k.adv + 1 < mget 0 f.named p + f.op.rowQ + pt.h + pt.w))
          | none => false))

/-- The record of a started array operation that has ended with a status after cycle `x`. -/
def Core.arrayEnded (k : Core) (id status x : Nat) : Core :=
  { k with arrayRun := updWhere (fun (r : Running) => r.op.id == id) (fun r => { r with status := status, cycles := x + 1 - r.started }) k.arrayRun }

/-- One cycle of the load on the port: its check pass, its wait for rows, then 4 cell rows a cycle, each plane or pair
written when its cycles are done (R92, R93, R172). -/
def Core.loadStep (k : Core) (w : Nat) (bad : List Nat) (x : Nat) : Core :=
  match k.load with
  | none => k
  | some l =>
    match Core.opPart l.op w with
    | none => k
    | some pt =>
      if x ≤ l.op.issued then k
      else if l.check ≠ 0 then
        if l.check = 1 && l.verdict != 0 then ({ k with load := none } : Core).arrayEnded l.op.id l.verdict x
        else { k with load := some { l with check := l.check - 1 } }
      else if !l.writing && k.loadHeld w l.op then k
      else
        let code := l.op.f 0 16 4
        let step := planeStep code
        let each := step * (pt.h / 4)
        let n := l.done + 1
        let u := n / each - 1
        let sz := (l.op.loadUnit pt.h).1
        let a := 64 * l.op.f 8 0 15 + u * sz
        let np := if n % each = 0 then k.csPoisoned a sz else 0
        let k1 := (if n % each = 0 then k.loadPlane bad pt code (l.op.f 4 30 2) (l.op.f 4 0 8) (l.op.f 0 8 6 + u * step) a else k).count 0x168 np
        let poison := l.poison || np != 0
        if n = l.op.f 0 0 8 * (pt.h / 4) then
          let st := if poison then 0x90 else 0
          (({ k1 with load := none } : Core).poisonCounts 0 st).arrayEnded l.op.id st x
        else { k1 with load := some { l with writing := true, done := n, poison := poison } }

/-! ### Rows (R88 to R90, R114, R120) -/

/-- A row operation ended after cycle `x`: its runs not yet written go, its ticket needs no more service, and a VEC_RUN paired
with it has all of its runs, or learns that it failed (R91, R119, R131, R228). -/
def Core.endFlow (k : Core) (f : Flow) (status x : Nat) : Core :=
  let ok := status = 0 ∨ status = 0x26 ∨ status = 0x90
  let k1 := { k with
    flows := k.flows.filter (fun g => g.op.id != f.op.id)
    drains := mmap [] (fun _ q => q.filter (fun r => r.opId != f.op.id)) k.drains }
  let k2 := (k1.updPair f.op.id (fun p => if ok then { p with whole := some (x + 1) } else { p with failed := true })).potPassOp f.op
  (k2.poisonCounts 0 status).arrayEnded f.op.id status x

/-- The rows of the run that row `i` closes, with the run's number. Runs of a GATHER feed are counted in slot order, and one
closes when the last of its rows has issued (R90, R91, R104). (DEDUCED, log 18) -/
def Core.closing (k : Core) (f : Flow) (i : Nat) : Option (Nat × List Nat) :=
  if f.op.gathers then
    let closes := (List.range f.rows).filter (fun j => (k.rowTag f.op j).2)
    match closes.find? (fun j => decide (i ≤ j)) with
    | none => none
    | some hi =>
      let before := closes.filter (fun j => decide (j < i))
      let lo := match before.getLast? with | some j => j + 1 | none => 0
      let rows := (List.range (hi + 1 - lo)).map (fun j => lo + j)
      if rows.all (fun j => f.sums.any (fun e => e.1 == j)) then some (before.length, rows) else none
  else if (k.rowTag f.op i).2 then some (f.formed, f.sums.map (·.1)) else none

/-- A row of a feed or reverse operation issued in advancing cycle `adv`: its sums, and the run that it closes. -/
def Core.issueSums (k : Core) (bad : List Nat) (f : Flow) (pt : Part) (i : Nat) : Core :=
  let o := f.op
  let rev := o.opc == 3
  let fd := feedOf o rev pt o.rowQ f.sparse
  let tag := (k.rowTag o i).1
  let r := if rev then k.reverseRow bad fd i tag else k.feedRow bad fd i tag
  let words := (r.1.map (fun s => s.word fd.int)).map (fun w => (w.1, w.2 || r.2))
  let np := k.rowPoison fd o i (f.issued == 0)
  let ps := k.rowPlanes o i
  let f1 := { f with
    issued := f.issued + 1
    next := k.adv + o.rowQ
    sums := mset [] f.sums i words
    named := ps.foldl (fun m p => mset 0 m p (k.adv + 1)) f.named
    ecc := f.ecc || r.2
    poison := f.poison || np != 0 || words.any (·.2) }
  let scale := if fd.scaleMode = 1 then some (k.csWord fd.scale) else none
  let c := match k.closing f1 i with
    | none => (f1, 0)
    | some (n, rows) =>
      let run := fd.run scale (rows.map (mget [] f1.sums))
      ({ f1 with
        sums := f1.sums.filter (fun e => !rows.contains e.1)
        formed := f1.formed + 1
        flying := f1.flying ++ [({ run := n, due := k.adv + o.rowQ + pt.h + pt.w, vals := run.1 } : Flying)]
        poison := f1.poison || run.1.any (·.2) }, run.2)
  ((k.setFlow c.1).counts [(if rev then 0x40 else 0x28, 1), (0x70, (r.1.map (·.held)).sum + c.2), (0x168, np)]).counts
    (k.cellFlips bad pt ps (if rev then (if f.sparse = 0 then fd.out else 2 * cdiv fd.out 2) else fd.active) (if rev then fd.active else fd.out) true (f.sparse != 0))

/-- A token of a WGRAD issued: the tile's registers, and the tile after the last token. -/
def Core.issueToken (k : Core) (bad : List Nat) (f : Flow) (pt : Part) (t : Nat) : Core :=
  let o := f.op
  let g := wgradOf o pt f.sparse
  let r := k.token bad o g (mget [] f.sums 0) t
  let np := k.tokenPoison o g t (f.issued == 0)
  let ps := k.rowPlanes o t
  let out := k.tileOut o r.1
  let last := decide (f.rows ≤ f.issued + 1)
  let f1 := { f with
    issued := f.issued + 1
    next := k.adv + o.rowQ
    sums := if last then [] else mset [] f.sums 0 r.1
    named := ps.foldl (fun m p => mset 0 m p (k.adv + 1)) f.named
    ecc := f.ecc || r.2
    flying := if last then [({ run := 0, due := k.adv + o.rowQ + pt.h + pt.w, vals := if f.ecc || r.2 then out.map (fun w => (w.1, true)) else out } : Flying)] else f.flying
    poison := f.poison || np != 0 || out.any (·.2) }
  ((k.setFlow f1).counts [(0x48, 1), (0x168, np)]).counts (k.cellFlips bad pt ps g.kr g.cc false g.sparse)

/-- A feeder issues its next row in cycle `x`, or ends its operation where a tag of a list fails its check (R119, R176, R511). -/
def Core.issueRow (k : Core) (w : Nat) (bad : List Nat) (x id : Nat) : Core :=
  match k.flow id with
  | none => k
  | some f =>
    match f.row, Core.opPart f.op w with
    | some i, some pt =>
      if f.op.opc = 4 then k.issueToken bad f pt i
      else
        let e := if f.op.listed then k.tagCheck (f.op.opc == 3) pt (f.op.f 0 16 4) (k.rowTag f.op 0).1 (k.rowTag f.op i).1 else 0
        if e = 0 then k.issueSums bad f pt i else k.endFlow f (if f.ecc then 0x26 else e) x
    | _, _ => k

/-- Runs whose last foot or row end adds them in this advancing cycle enter their drain's queue in the next cycle; a tile is
copied into its shadow registers (R88, R91, R121). -/
def Core.arrive (k : Core) (w x : Nat) (f : Flow) : Core :=
  let here := f.flying.filter (fun e => decide (e.due ≤ k.adv))
  if here.isEmpty then k
  else
    let f1 := { f with flying := f.flying.filter (fun e => decide (k.adv < e.due)) }
    if f.op.opc = 4 then
      let rows := match Core.opPart f.op w with | some pt => pt.h * lanesOf (f.op.f 0 3 4) | none => 0
      k.setFlow { f1 with shadow := some (rows + 2, (here.map (·.vals)).flatten) }
    else
      let q := here.map (fun e => ({ opId := f.op.id, run := e.run, vals := e.vals, enter := x + 1, left := drainCycles f.op.dest e.vals.length } : QRun))
      { k.setFlow f1 with drains := mset [] k.drains f.op.place (mget [] k.drains f.op.place ++ q) }

/-! ### The freeze (R97 to R101, R132, R141) -/

/-- The operation that a drain or shadow bank which is full holds: a run completes in this cycle while the drain's queue holds
4 runs, or a tile closes while the shadow registers are occupied (R97, R121). -/
def Core.fullAt (k : Core) (f : Flow) : Option Nat :=
  if f.flying.any (fun e => decide (e.due ≤ k.adv)) then
    if f.op.opc = 4 then
      (k.flows.find? (fun g => g.op.place == f.op.place && match g.shadow with | some (n, _) => decide (2 < n) | none => false)).map (·.op.id)
    else
      match mget [] k.drains f.op.place with
      | h :: r => if 3 ≤ r.length then some h.opId else none
      | [] => none
  else none

/-- Chains that take runs of an operation whose drain has none for them in cycle `x` (R227, R229). -/
def Core.idleChains (k : Core) (x : Nat) : Nat :=
  (k.flows.filter (fun f => f.op.dest == 2 && k.chainTakes f.op.id
    && (match mget [] k.drains f.op.place with | h :: _ => decide (x ≤ h.enter) || h.opId != f.op.id | [] => true))).length

/-- What goes on in every cycle, frozen or not: drains, shadow registers, the load port, and the sampling of GATHER (R98). A
chain that waits for the drain counts the cycle in VEC_WAIT (R227). -/
def Core.ports (k : Core) (w : Nat) (bad : List Nat) (x : Nat) : Core :=
  let k1 := ((k.count 0xE0 (k.idleChains x)).drainStep x).loadStep w bad x
  { k1 with flows := k1.flows.map (k1.sample x) }

/-- The buffers filled for one cycle. -/
def Core.fillAll (k : Core) (x : Nat) : Core :=
  { k with flows := k.flows.map (fun (f : Flow) => if f.op.issued < x then f.fill else f) }

/-- Whether a feeder's row waits for a plane load in cycle `x` (R93, R101). -/
def Core.loadWaits (k : Core) (w x : Nat) : Bool :=
  (k.flows.filter (fun f => f.op.issued < x)).any (k.rowAwaits w) || (k.arrayOn && k.firstDry w [] (movedOps [] k.arrayQ))

/-- Whether some feeder is dry in cycle `x` (R97). -/
def Core.dryAt (k : Core) (w x : Nat) : Bool := k.loadWaits w x || (k.flows.filter (fun f => f.op.issued < x)).any Flow.lacks

/-- The operations that hold full drains or shadow registers (R97, R121). -/
def Core.holders (k : Core) : List Flow :=
  let full := k.flows.filterMap k.fullAt
  k.flows.filter (fun f => full.contains f.op.id)

/-- The feeders whose next row is due in cycle `x`. -/
def Core.dueFlows (k : Core) (x : Nat) : List Nat :=
  (k.flows.filter (fun f => f.row.isSome && decide (f.next ≤ k.adv) && decide (f.op.issued < x))).map (·.op.id)

/-- The array advances one cycle: runs arrive, and rows that are due issue (R88, R95). -/
def Core.advanceRows (k : Core) (w : Nat) (bad : List Nat) (x : Nat) : Core :=
  let due := k.dueFlows x
  let k1 := due.foldl (fun y id => y.issueRow w bad x id) (k.flows.foldl (fun y f => y.arrive w x f) k)
  { k1 with adv := k1.adv + 1 }.count 0x00 (b2n (k1.flows.any (fun f => due.contains f.op.id)))

/-- A row operation that has nothing more to do ends; the last entry of a tile in the pot passes its ticket (R91, R131). -/
def Core.endIfDone (k : Core) (x : Nat) (f : Flow) : Core :=
  if f.rows ≤ f.issued && f.flying.isEmpty && !(mget [] k.drains f.op.place).any (fun q => q.opId == f.op.id)
      && (match f.shadow with | none => f.op.opc != 4 | some (n, _) => n == 0) then
    k.endFlow f (if f.ecc then 0x26 else if f.poison then 0x90 else 0) x
  else if (match f.shadow with | some (2, _) => true | _ => false) then k.potPassOp f.op
  else k

/-- One arithmetic-clock cycle of a core's array, cycle `x`, a pour hold or not: the ports go on, then the array stalls,
counted once, or advances (R97 to R101, R132, R141). -/
def Core.arrayCycle (w : Nat) (bad : List Nat) (x : Nat) (hold : Bool) (k : Core) : Core :=
  let k2 := k.ports w bad x
  let k3 := k2.fillAll x
  let k4 :=
    if hold then (if k2.flows.isEmpty && !k2.dryAt w x then k3 else k3.count 0x18 1)
    else if !k2.holders.isEmpty then
      k3.counts [(0x10, 1), (0x58, b2n (k2.holders.any (fun f => f.op.dest == 1 && !k.served f.op))), (0xE0, b2n (k2.holders.any (fun f => f.op.dest == 2)))]
    else if k2.dryAt w x then k3.counts [(0x08, 1), (0x20, b2n (k2.loadWaits w x))]
    else k3.advanceRows w bad x
  k4.flows.foldl (fun y f => y.endIfDone x f) k4

/-- Whether a core's array has nothing in hand. -/
def Core.arrayIdle (k : Core) : Bool := k.flows.isEmpty && k.load.isNone

/-! ### The pour limit (R99) -/

/-- P: POUR_PIN, or 64 for none; values above 64 act as 64. -/
def Power.p (w : Power) : Nat := if w.pourPin = 0 then 64 else min w.pourPin 64

/-- The least of P, k_pow and k_th. -/
def Power.common (w : Power) : Nat := min (min w.p w.kPow) w.kTh

/-- k_droop of a die. -/
def Power.droopK (w : Power) (d : Nat) : Nat := mget 64 w.kDroop d

/-- The limit of a die in force in the `i`-th cycle from the latest milepost: a new P, k_pow or k_th applies from a window's
first cycle, a new k_droop at once (R445). -/
def Power.inForce (w : Power) (d i : Nat) : Nat := min (if i < w.limFrom then w.limWas else w.common) (w.droopK d)

/-- The pour limit of the core's die in the `i`-th cycle from the latest milepost. -/
def State.pourLimit (s : State) (c i : Nat) : Nat := max 1 (s.power.inForce (c / 288) i)

/-- Whether the `i`-th cycle from the latest milepost is a pour hold at limit `k` (R99). -/
def pourHold (k i : Nat) : Bool := decide ((i % 64 + 1) * k / 64 ≤ i % 64 * k / 64)

/-- Whether cycle `x` is a pour hold on a core. -/
def State.holdAt (s : State) (c x : Nat) : Bool := let i := s.cycle + (x - s.cycles); pourHold (s.pourLimit c i) i

/-- One array cycle of core `c`, as the module stands. -/
def State.arrayCycle (s : State) (c x : Nat) (k : Core) : Core := k.arrayCycle (s.width c) (s.coreEntry c).badCols x (s.holdAt c x)

/-- The arrays of all cores that have something in hand, run for `n` cycles from the present one. -/
def State.runArrays (s : State) (n : Nat) : State :=
  if n = 0 then s else ((s.cores.filter (fun p => !p.2.arrayIdle)).map (·.1)).foldl (fun t c =>
    t.setCore c (iter n (fun j k => s.arrayCycle c (s.cycles + j) k) (s.core c))) s

/-! ### The clocks -/

/-- The clocks alone run `d` nanoseconds: the time base, and the arithmetic clock unless it is stopped or settling (R450). (DESIGN CHOICE, log 2, DESIGN CHOICE, log 5) -/
def State.clocks (s : State) (d : Nat) : State :=
  let idle := if s.clk.stopped then d else min d s.power.settleNs
  { s with
    time := { s.time with now := s.time.now + d }
    clk := { s.clk with ns := s.clk.ns + d, milli := s.clk.milli + (d - idle) * pointMhz s.power.point }
    power := { s.power with settleNs := s.power.settleNs - min d s.power.settleNs } }

/-- The clocks run `d` nanoseconds, and the leaf arrays with them. (DESIGN CHOICE, log 2, DESIGN CHOICE, log 5) -/
def State.advance (s : State) (d : Nat) : State := (s.runArrays ((s.clocks d).cycles - s.cycles)).clocks d

/-- The clocks run to a time-base value, where they are not there yet: an event happens at its own instant. (DESIGN CHOICE, log 5) -/
def State.toTime (s : State) (t : Nat) : State := s.advance (t - s.time.now)

/-- The clocks run until an arithmetic-clock cycle counted since power-on, where the clock is not stopped. (DESIGN CHOICE, log 5) -/
def State.toCycle (s : State) (n : Nat) : State :=
  if n ≤ s.cycles ∨ s.clk.stopped then s
  else s.advance (s.power.settleNs + cdiv (1000 * n - s.clk.milli) (pointMhz s.power.point))

/-- One nanosecond with nothing commanded: the clocks run, and a slew of 1 ns in 10 µs works off the time offset (R47). (DESIGN CHOICE, log 2) -/
def State.tick (s : State) : State :=
  let t := s.advance 1
  if s.time.slewNs + 1 < 10000 then { t with time := { t.time with slewNs := s.time.slewNs + 1 } }
  else if s.time.syncEn && s.time.offset > 0 then
    { t with time := { t.time with slewNs := 0, now := t.time.now + 1, offset := s.time.offset - 1 } }
  else if s.time.syncEn && s.time.offset < 0 then
    { t with time := { t.time with slewNs := 0, now := t.time.now - 1, offset := s.time.offset + 1 } }
  else { t with time := { t.time with slewNs := 0 } }

/-! ### Ends of operations (R91, R265) -/

/-- Whether an operation is still at its feeder or on the load port. -/
def Core.inHand (k : Core) (id : Nat) : Bool := (k.flow id).isSome || k.load.any (fun l => l.op.id == id)

/-- A number of cycles after which no operation of a core that waits for nothing outside the array is still in hand. (DEDUCED, log 17) -/
def Core.arrayBound (k : Core) : Nat :=
  64 * (4096 + (k.flows.map (fun f => 4 * f.rows + 2048 + (f.dry.map (·.2)).sum)).sum)

/-- The first of `fuel` cycles after `j` after which an operation is no longer in hand. -/
def State.endsIn (s : State) (c id : Nat) : Nat → Nat → Core → Option Nat
  | 0, _, _ => none
  | fuel + 1, j, k => if k.inHand id then s.endsIn c id fuel (j + 1) (s.arrayCycle c (s.cycles + j) k) else some j

/-- The module at the end of an array operation, where it ends with nothing else commanded (R91). (DESIGN CHOICE, log 5) -/
def State.toEnd (s : State) (c id : Nat) : Option State :=
  (s.endsIn c id (s.core c).arrayBound 0 (s.core c)).map (fun j => s.toCycle (s.cycles + j))

/-- The writes of post lines and of the checker's line beyond the first `n` and `m` are an operation's (R329, R346). -/
def State.ownLines (s : State) (n m c id : Nat) : State :=
  let own (k : Nat) (l : List LineWrite) : List LineWrite := l.take k ++ (l.drop k).map (fun w => { w with src := some (c, id) })
  { s with lnk := { s.lnk with postLines := own n s.lnk.postLines }, chk := { s.chk with queue := own m s.chk.queue } }

/-- Whether a line that an operation wrote is held at the controller, so that its access unit waits (R329, R346). -/
def State.lineHeld (s : State) (c id : Nat) : Bool := (s.lnk.postLines ++ s.chk.queue).any (fun w => w.held && w.src == some (c, id))

/-- The cycles that a running operation waited beyond its own for a held line, up to cycle `now`, counted in AU_WAIT, and for a
merge operation in MERGE_WAIT too (R215, R261, R329). -/
def Core.lineWait (k : Core) (id now : Nat) : Core :=
  let late (r : Running) : Nat := if r.op.id = id then now + 1 - (r.started + r.cycles) else 0
  let more (r : Running) : Running := { r with cycles := r.cycles + late r }
  let a := (k.accRun.map late).getD 0
  let m := (k.mergeRun.map late).getD 0
  { k with accRun := k.accRun.map more, mergeRun := k.mergeRun.map more }.counts [(0x118, a + m), (0xD0, m)]

/-- A line that the controller held passed on. -/
def State.lineIn (s : State) (w : LineWrite) : State :=
  match w.src with
  | some (c, id) => if w.held then s.updCore c (fun k => k.lineWait id s.cycles) else s
  | none => s

/-- The running operation of a single-operation engine ends: the clocks stand at its last cycle or later. One that
waits for a host completion or for a held line has not ended (R329, R346, R389). (DESIGN CHOICE, log 5) -/
def State.retire (s : State) (c : Nat) (e : Eng) : State :=
  match (s.core c).running e with
  | [] => s
  | r :: _ =>
    if r.waitHost || s.lineHeld c r.op.id then s else
    let t := s.toCycle (r.started + r.cycles)
    let t1 := t.updCore c (fun k =>
      match e with
      | .array => { k with arrayRun := k.arrayRun.drop 1 }
      | .merge => { k with mergeRun := none }
      | .vec => { k with vecRun := none }
      | .row => { k with rowRun := none }
      | .acc => { k with accRun := none })
    (t1.endOp c e r).updCore c (fun k => k.settleUnits t1.cycles)

end Sys2Proof.Machine
end

