-- ==== Sys2Proof/Machine/Access.lean ====
section
/-! DEFINITION. The access unit's TENSOR_MOVE: five dimensions with signed strides, packed and strided sides, requests,
aliasing, transposition, and the statuses in their order (09_tensor_access R242 to R261). -/

namespace Sys2Proof.Machine

/-- The pattern of a TENSOR_MOVE, its sizes and strides above RANK at 1 and 0 (R243 to R245). -/
structure Move where
  dir : Nat
  add : Bool
  mayAlias : Bool
  tr : Bool
  pad : Bool
  elem : Nat
  rank : Nat
  cs : Nat
  pitch2 : Nat
  size : List Nat
  stride : List Int
  base : Int
deriving DecidableEq, Repr

/-- Size of a dimension. -/
def Move.s (m : Move) (d : Nat) : Nat := nth 1 m.size d
/-- Stride of a dimension. -/
def Move.t (m : Move) (d : Nat) : Int := nth 0 m.stride d
/-- Bits of an element (R243). -/
def Move.bits (m : Move) : Nat := nth 8 [4, 6, 8, 16, 32, 64] m.elem
/-- Whether elements are smaller than a byte. -/
def Move.sub (m : Move) : Bool := decide (m.elem < 2)
/-- Bytes of an element, or of a whole run of elements smaller than a byte (R248). -/
def Move.unit (m : Move) : Nat := if m.sub then cdiv (m.s 0 * m.bits) 8 else m.bits / 8

/-- The pattern that an operation's words hold. (DEDUCED, log 42) -/
def Op.move (o : Op) : Move :=
  let rank := o.f 0 12 3
  let b := o.f 0x28 0 32 + 2 ^ 32 * o.f 0x2C 0 32
  let dim {α : Type} (d : Nat) (x y : α) : α := if d < rank then x else y
  { dir := o.f 0 22 2, add := o.f 0 21 1 == 1, mayAlias := o.f 0 20 1 == 1, tr := o.f 0 19 1 == 1, pad := o.f 0 18 1 == 1
    elem := o.f 0 15 3, rank := rank, cs := o.f 4 0 15, pitch2 := o.f 4 16 15
    size := [dim 0 (o.f 8 16 16 + 1) 1, dim 1 (o.f 8 0 16 + 1) 1, dim 2 (o.f 12 16 16 + 1) 1, dim 3 (o.f 12 0 16 + 1) 1, dim 4 (o.f 16 16 16 + 1) 1]
    stride := (List.range 5).map (fun d => dim d (sgn (o.f (0x14 + 4 * d) 0 32) 32) 0)
    base := sgn b 64 }

/-- Elements of a packed-side run, and runs of a slice: exchanged under TRANSPOSE (R251). -/
def Move.runLen (m : Move) : Nat := if m.tr then m.s 1 else m.s 0
/-- Runs of a slice. -/
def Move.runs (m : Move) : Nat := if m.tr then m.s 0 else m.s 1
/-- Slices of dimensions 2 to 4. -/
def Move.slices (m : Move) : Nat := m.s 2 * m.s 3 * m.s 4
/-- Bytes of a packed run. -/
def Move.runBytes (m : Move) : Nat := cdiv (m.runLen * m.bits) 8
/-- Bytes from one packed run to the next (R245). -/
def Move.runPitch (m : Move) : Nat := if m.pad then lineUp m.runBytes else m.runBytes
/-- Bytes from one packed slice to the next (R245). -/
def Move.slicePitch (m : Move) : Nat := if m.pitch2 = 0 then m.runs * m.runPitch else 64 * m.pitch2
/-- Bytes that one slice spans. -/
def Move.sliceBytes (m : Move) : Nat := (m.runs - 1) * m.runPitch + m.runBytes
/-- First byte beyond the packed side. -/
def Move.packedEnd (m : Move) : Nat := 64 * m.cs + (m.slices - 1) * m.slicePitch + m.sliceBytes

/-- Dimensions that move the strided address: dimension 0 of elements smaller than a byte lies inside a run. -/
def Move.dims (m : Move) : List Nat := (List.range 5).filter (fun d => !(m.sub && d == 0))
/-- Lowest byte address of the strided side (R259). (DEDUCED, log 42) -/
def Move.low (m : Move) : Int := m.dims.foldl (fun a d => a + min 0 (m.t d * ((m.s d : Int) - 1))) m.base
/-- The pattern's highest address, taken over all indices: the largest address of an element, of the last byte of a run of
elements smaller than a byte (R244, R259). (DEDUCED, log 42) -/
def Move.top (m : Move) : Int :=
  m.dims.foldl (fun a d => a + max 0 (m.t d * ((m.s d : Int) - 1))) m.base + (if m.sub then (m.unit : Int) - 1 else 0)
/-- The last byte of the strided side (R259). -/
def Move.high (m : Move) : Int := if m.sub then m.top else m.top + (m.unit : Int) - 1

/-- Whether the pre-pass of R248 refuses the pattern. -/
def Move.aliases (m : Move) : Bool :=
  let ds := sortBy (fun d => (m.t d).natAbs) (m.dims.filter (fun d => decide (1 < m.s d)))
  (ds.foldl (fun (q : Bool × Nat) d => (q.1 || decide ((m.t d).natAbs < q.2), (m.t d).natAbs * (m.s d - 1) + q.2)) (false, m.unit)).1

/-- Reserved fields, codes and option cells that give ACCESS_ENCODING (R243, R249, R251). -/
def Op.moveEnc (o : Op) : Bool :=
  let m := o.move
  !o.zeros [(0, 0, 12), (4, 31, 1), (4, 15, 1), (16, 0, 16), (0x30, 0, 32), (0x34, 0, 32), (0x38, 0, 32), (0x3C, 0, 32)]
    || m.dir == 3 || decide (6 ≤ m.elem) || (m.add && (m.dir != 1 || m.elem != 4)) || (m.sub && o.f 0x14 0 32 != 0)
    || (m.tr && (m.dir != 2 || !(m.elem == 2 || m.elem == 3 || m.elem == 4) || sgn (o.f 0x14 0 32) 32 != (m.bits / 8 : Nat)))

/-- The status found before the first request (R259). (DEDUCED, log 42) -/
def Op.moveStatus (o : Op) : Nat :=
  let m := o.move
  let shape := m.rank == 0 || decide (5 < m.rank) || (m.pitch2 != 0 && decide (64 * m.pitch2 < m.sliceBytes)) || decide (csBytes < m.packedEnd)
    || (m.dir == 2 && (decide (m.low < 0) || decide ((csBytes : Int) ≤ m.high)))
  let align := if m.elem = 0 then m.s 0 % 2 != 0 else if m.elem = 1 then m.s 0 % 4 != 0
    else m.base % ((m.bits / 8 : Nat) : Int) != 0 || (List.range 5).any (fun d => decide (1 < m.s d) && m.t d % ((m.bits / 8 : Nat) : Int) != 0)
  let ovl := m.dir == 2 && decide (m.low < (m.packedEnd : Int)) && decide ((64 * m.cs : Nat) ≤ m.high)
  let range := m.dir != 2 && (decide (m.low < 0) || decide ((2 ^ 43 : Nat) ≤ m.top))
  firstFail [(o.moveEnc, 0x68), (shape, 0x69), (align, 0x6A), (ovl, 0x6B), (m.dir == 1 && m.mayAlias && m.aliases, 0x6C), (range, 0x6D)]

/-- Start of run `r` on the strided side; runs are numbered in index order (R244). -/
def Move.runAt (m : Move) (r : Nat) : Int :=
  let i1 := r % m.s 1
  let i2 := r / m.s 1 % m.s 2
  let i3 := r / m.s 1 / m.s 2 % m.s 3
  let i4 := r / m.s 1 / m.s 2 / m.s 3
  m.base + i1 * m.t 1 + i2 * m.t 2 + i3 * m.t 3 + i4 * m.t 4

/-- Start of run `r` on the packed side (R245). -/
def Move.packedAt (m : Move) (r : Nat) : Nat := 64 * m.cs + r / m.runs * m.slicePitch + r % m.runs * m.runPitch

/-- A request: its elements' strided addresses with their bytes, in index order, and where they lie on the packed side
(R250). All its addresses lie in one line. -/
structure Req where
  at' : List (Nat × Nat)
  packed : Nat
  bytes : Nat
deriving DecidableEq, Repr

/-- The line of a request. -/
def Req.line (q : Req) : Nat := (match q.at' with | [] => 0 | p :: _ => p.1) / 64

/-- Consecutive elements of a run gathered by line. -/
def groupLines (sz : Nat) : List (Nat × Nat) → List Req
  | [] => []
  | (a, p) :: r =>
    match groupLines sz r with
    | [] => [{ at' := [(a, sz)], packed := p, bytes := sz }]
    | q :: qs => if q.line = a / 64 then { at' := (a, sz) :: q.at', packed := p, bytes := q.bytes + sz } :: qs
                 else { at' := [(a, sz)], packed := p, bytes := sz } :: q :: qs

/-- The requests of run `r` (R250). -/
def Move.reqs (m : Move) (r : Nat) : List Req :=
  let a := m.runAt r
  let p := m.packedAt r
  if m.sub then
    (linePieces (m.unit / 64 + 2) a.toNat m.unit).map (fun x => { at' := [x], packed := p + (x.1 - a.toNat), bytes := x.2 })
  else groupLines m.unit ((List.range (m.s 0)).map (fun (i : Nat) => ((a + (i : Int) * m.t 0).toNat, p + i * m.unit)))

/-- Requests of the whole operation in index order. -/
def Move.allReqs (m : Move) : List Req := (List.range (m.s 1 * m.slices)).flatMap m.reqs

/-- Runs of bytes that touch joined into one (their line writes are then whole). -/
def joinRuns (l : List (Nat × List PByte)) : List (Nat × List PByte) :=
  l.foldr (fun x acc => match acc with
    | y :: q => if y.1 = x.1 + x.2.length then (x.1, x.2 ++ y.2) :: q else x :: y :: q
    | [] => [x]) []

/-- Lines that joined runs touch. -/
def linesOf (l : List (Nat × List PByte)) : Nat :=
  (l.map (fun x => if x.2.isEmpty then 0 else (x.1 + x.2.length - 1) / 64 - x.1 / 64 + 1)).sum

/-- Poisoned words among bytes at addresses. -/
def poisonWords (l : List (Nat × PByte)) : Nat := (((l.filter (fun x => x.2.2)).map (fun x => x.1 / 4)).eraseDups).length

/-- An operation as its requests proceed. -/
structure MoveRun where
  m : MemRun
  holder : Option (Nat × List PByte)
  packed : List (Nat × List PByte)
  moved : Nat
  reqs : Nat
  bcast : Nat
  poison : Nat
deriving DecidableEq, Repr

/-- A LOAD or LOCAL request: its line from the holder, the core store or memory (R247). -/
def moveIn (mv : Move) (c : Nat) (g : MoveRun) (q : Req) : MoveRun :=
  if g.m.fault.isSome then g
  else
    let held := match g.holder with
      | some h => h.1 == q.line
      | none => false
    let mk (m : MemRun) (ds : List PByte) (b : Nat) : MoveRun :=
      let bs := q.at'.flatMap (fun p => ((ds.drop (p.1 - 64 * q.line)).take p.2).zipIdx.map (fun x => (p.1 + x.2, x.1)))
      { m := m, holder := some (q.line, ds), packed := (q.packed, bs.map (·.2)) :: g.packed, moved := g.moved + q.bytes
        reqs := g.reqs + 1, bcast := g.bcast + b, poison := g.poison + poisonWords bs }
    if held then mk { g.m with reqs := g.m.reqs + 1 } (match g.holder with | some h => h.2 | none => []) 1
    else if mv.dir = 2 then mk { g.m with reqs := g.m.reqs + 1 } ((g.m.st.core c).csRead (64 * q.line) 64) 0
    else
      let r := g.m.read (64 * q.line) 64
      if r.1.fault.isSome then { g with m := { r.1 with fault := r.1.fault.map (fun f => (f.1, (match q.at' with | [] => f.2 | p :: _ => p.1))) } }
      else mk r.1 r.2 0

/-- The bytes that a plain write request leaves in its line: the element last in index order wins (R248). -/
def overlay (line : Nat) (ws : List (Nat × List PByte)) : List (Nat × List PByte) :=
  let cell (i : Nat) : Option PByte :=
    ws.reverse.findSome? (fun w => if w.1 ≤ 64 * line + i ∧ 64 * line + i < w.1 + w.2.length then w.2[64 * line + i - w.1]? else none)
  joinRuns ((List.range 64).filterMap (fun i => (cell i).map (fun b => (64 * line + i, [b]))))

/-- A STORE request (R248, R258). -/
def moveOut (mv : Move) (c : Nat) (g : MoveRun) (q : Req) : MoveRun :=
  if g.m.fault.isSome then g
  else
    let va := match q.at' with | [] => 0 | p :: _ => p.1
    let src := (g.m.st.core c).csRead q.packed q.bytes
    let ws := q.at'.zipIdx.map (fun x => (x.1.1, (src.drop (x.2 * mv.unit)).take x.1.2))
    let r := g.m.request va (if mv.add then .add else .plain)
    match r.2 with
    | none => { g with m := r.1 }
    | some (t, pa) =>
      let ph (a : Nat) : Nat := pa - va % 64 + a % 64
      let sp := spaceOf t
      let st := if mv.add then
          if r.1.st.postHit sp pa then r.1.st.devWrite sp pa src true
          else ws.foldl (fun s w => s.devWrite sp (ph w.1) ((addWords (wordsOf (s.devRead sp (ph w.1) 4)) (wordsOf w.2)).flatMap bytesOf) true) r.1.st
        else (overlay (va / 64) ws).foldl (fun s w => s.devWrite sp (ph w.1) w.2 false) r.1.st
      let last := match g.packed with | [] => none | p :: _ => if p.2.isEmpty then none else some ((p.1 + p.2.length - 1) / 4)
      let bs := (src.zipIdx q.packed).map (fun x => (x.2, x.1))
      let post := r.1.st.hostPost ((overlay (va / 64) ws).map (fun w => (ph w.1, w.2.map (·.1), w.2.any (·.2)))) r.1.host
      if t = 2 ∧ post.2.1 then { g with m := { r.1 with st := post.1, host := post.2.2, fault := some (0xA7, va) } }
      else if t = 2 then
        { m := { r.1 with st := post.1, host := post.2.2 }, holder := none, packed := (q.packed, src) :: g.packed, moved := g.moved + q.bytes
          reqs := g.reqs + 1, bcast := g.bcast, poison := g.poison + poisonWords (bs.filter (fun b => some (b.1 / 4) != last)) }
      else
      { m := { r.1 with st := st, lost := r.1.lost || r.1.st.memLost sp pa }, holder := none, packed := (q.packed, src) :: g.packed
        moved := g.moved + q.bytes, reqs := g.reqs + 1, bcast := g.bcast
        poison := g.poison + poisonWords (bs.filter (fun b => some (b.1 / 4) != last)) }

/-- The packed bytes of a transposing LOCAL: dimensions 0 and 1 exchanged (R251). -/
def Move.transposed (mv : Move) (k : Core) : List (Nat × List PByte) :=
  (List.range (mv.slices * mv.s 0)).map (fun r =>
    let row := mv.runAt (r / mv.s 0 * mv.s 1) + ((r % mv.s 0 : Nat) : Int) * mv.t 0
    (mv.packedAt r, (List.range (mv.s 1)).flatMap (fun (j : Nat) => k.csRead (row + (j : Int) * mv.t 1).toNat mv.unit)))

/-- An access operation that ends with a status found before its first request (R250). -/
def State.accFail (s : State) (c : Nat) (o : Op) (status : Nat) (vals : List Nat) : State :=
  s.updCore c (fun k => (k.count 0x128 (if 0x67 ≤ status ∧ status ≤ 0x6F then 1 else 0)).start .acc o s.cycles status 16 vals false 0)

/-- "None" in AU_FAULT_ADDR (R260). -/
def noAddr : Nat := 2 ^ 64 - 1

/-- A TENSOR_MOVE with no status found before its first request (R250, R251, R258, R260). -/
def State.moveGo (s : State) (c : Nat) (host : List HostReply) (o : Op) (z : Nat) : State :=
  let mv := o.move
  let g0 : MoveRun := { m := MemRun.start s c 6 host, holder := none, packed := [], moved := 0, reqs := 0, bcast := 0, poison := 0 }
  let g := mv.allReqs.foldl (if mv.dir = 1 then moveOut mv c else moveIn mv c) g0
  let out := if mv.tr then mv.transposed (s.core c) else joinRuns g.packed.reverse
  let status := match g.m.fault with
    | some (e, _) => e
    | none => if g.m.lost then 0x91 else withPoison 0 g.poison
  let b := g.moved
  let fast := decide (mv.base % 64 = 0) && decide (mv.t 1 % 64 = 0) && mv.pad
  let slow := if mv.tr ∧ !fast then cdiv b 64 else 0
  let cyc := 16 + (if mv.tr then (if fast then 1 else 2) * cdiv b 64 else max g.reqs (linesOf out))
  let s1 := g.m.counted c status
  let s2 := if mv.dir = 1 then s1 else s1.updCore c (fun k => out.foldl (fun k w => k.csWrite w.1 w.2) k)
  let s3 := match g.m.fault with
    | some (e, va) => if auStatus e then s2.auFault c 6 mv.dir e va else s2
    | none => s2
  let fa := match g.m.fault with
    | some (e, va) => if auStatus e then va else noAddr
    | none => noAddr
  (s3.ownLines s.lnk.postLines.length s.chk.queue.length c o.id).updCore c (fun k => ((k.counts [(0x108, g.bcast), (0x118, z), (0x120, slow)]).poisonCounts g.poison status).start .acc o s.cycles status (cyc + z)
    [if mv.sub then 8 * b / mv.bits else b / max 1 mv.unit, fa] g.m.waiting 0)

/-- A TENSOR_MOVE of one DIR at the head of the access unit's queue. -/
def State.moveCmd (s : State) (c dir : Nat) (host : List HostReply) (z : Nat) : Out :=
  match s.head c .acc 0x41 with
  | none => .next s
  | some o =>
    if o.move.dir ≠ dir then .next s
    else match o.moveStatus with
      | 0 => .next (s.moveGo c host o z)
      | 0x6D =>
        let a := if o.move.low < 0 then o.move.low else o.move.top
        .next ((s.auFault c 6 dir 0x6D (unsgn a 43)).accFail c o 0x6D [0, unsgn a 64])
      | e => .next (s.accFail c o e [0, noAddr])

/-- TENSOR_MOVE LOAD (R243 to R258). -/
def execTensorMoveLoad (c : CoreIx) (z : Nat) (host : List HostReply) (s : State) : Out := s.moveCmd c.val 0 host z
/-- TENSOR_MOVE STORE (R243 to R258). -/
def execTensorMoveStore (c : CoreIx) (z : Nat) (host : List HostReply) (s : State) : Out := s.moveCmd c.val 1 host z
/-- TENSOR_MOVE LOCAL (R243 to R251). -/
def execTensorMoveLocal (c : CoreIx) (z : Nat) (s : State) : Out := s.moveCmd c.val 2 [] z

/-- ACCESS_OP_END: the running operation ends. With none running, a TENSOR_MOVE of reserved DIR or a CADDY of reserved
SUBOP at the head ends with its encoding status, since no other command names it (R128, R243). (DEDUCED, log 36) -/
def execAccessOpEnd (c : CoreIx) (s : State) : Out :=
  match s.head c.val .acc 0x41, s.head c.val .acc 0x40 with
  | some o, _ => if o.move.dir = 3 then .next ((s.accFail c.val o 0x68 [0, noAddr]).retire c.val .acc) else .next (s.retire c.val .acc)
  | none, some o => if o.f 0 22 2 = 3 then .next ((s.accFail c.val o 0x25 []).retire c.val .acc) else .next (s.retire c.val .acc)
  | none, none => .next (s.retire c.val .acc)

end Sys2Proof.Machine
end

