-- ==== Sys2Proof/Machine/Checker.lean ====
section
/-! DEFINITION. The reduction checker: MARK and COMPARE requests and the chunks whose check is missing
(13_reduction_long_runs R343 to R352). -/

namespace Sys2Proof.Machine

/-- A field of a check request (R346). -/
def cf (p : Line) (off lo w : Nat) : Nat := fld p.toNat off lo w

/-- Whether R346 refuses a request. -/
def checkBad (p : Line) : Bool :=
  let kind := cf p 0 62 2
  decide (2 ≤ kind) || cf p 0 48 6 != 0 || cf p 8 43 2 != 0 || cf p 0x10 43 21 != 0 || cf p 0x18 32 16 != 0 || p.toNat / 2 ^ 256 != 0
    || (kind == 0 && (cf p 0 58 2 == 3 || cf p 0 54 4 == 0 || decide (5 < cf p 0 54 4)))
    || (kind == 1 && (cf p 8 45 19 == 0 || decide (262144 < cf p 8 45 19) || cf p 8 0 6 != 0 || cf p 0x10 0 6 != 0))

/-- The checker's next request, when it may be taken: requests are handled in order, one at a time, and the oldest request
held at the controller comes into the queue of 256 (R346). (DEDUCED, log 55) -/
def State.checkNext (s : State) : Option (Option Line × State) :=
  if s.chk.current.isSome then none
  else match s.chk.queue with
    | [] => none
    | q :: r =>
      let t := match r[255]? with | some w => s.lineIn w | none => s
      some (q.line, { t with chk := { t.chk with queue := setAt r 255 { nth q r 255 with held := false } } })

/-- A request of a kind taken; one that R346 refuses, whatever its kind, is counted. -/
def State.checkTake (s : State) (kind : Nat) (f : Line → State → State) : Out :=
  match s.checkNext with
  | none => .next s
  | some (none, t) => .next t.reduceBad
  | some (some p, t) =>
    if checkBad p then
      if cf p 0 62 2 = kind ∨ 2 ≤ cf p 0 62 2 then .next (t.reduceBad.checkFault 0x82 0 (cf p 0 0 32)) else .next s
    else if cf p 0 62 2 = kind then .next (f p t) else .next s

/-- Whether a chunk is sampled in a round (R343). -/
def sampled (log2 c r : Nat) : Bool := (c + r) % 2 ^ 32 % 2 ^ log2 == 0

/-- MARK: a GRAD_CONTRIB waymark; a primary FINAL one is remembered for the leg (R347, R349). -/
def execMark (s : State) : Out :=
  s.checkTake 0 (fun p t =>
    let c := t.chk
    let fin := cf p 0 61 1 = 0 ∧ cf p 0 60 1 = 1 ∧ t.legOn
    let u := { t with chk := { c with marks := sat 32 (c.marks + 1), finals := if fin then c.finals ++ [(cf p 0 0 32, cf p 0x18 0 32)] else c.finals } }
    u.checkMark 0x15 (cf p 0x18 48 16)
      (at' (cf p 0 61 1) 62 2 + at' (cf p 0 60 1) 61 1 + at' (cf p 0 58 2) 58 2 + at' (cf p 0 54 4) 54 4 + at' (cf p 0 32 16) 32 16 + cf p 0 0 32))

/-- COMPARE: the comparison begins (R348). -/
def execCompare (s : State) : Out :=
  s.checkTake 1 (fun p t =>
    { t with chk := { t.chk with current := some p, compared := if t.legOn then t.chk.compared ++ [(cf p 0 0 32, cf p 0x18 0 32)] else t.chk.compared } })

/-- Answers of the host to `n` reads, each a free value (R389). (DESIGN CHOICE, log 9) -/
def State.hostAnswers (s : State) (n : Nat) : List HostReply :=
  (List.range n).map (fun i =>
    if Config.hostAborts (s.freeIx + i) then .abort else .line (Config.hostData (s.freeIx + i)) (Config.hostEp (s.freeIx + i)))

/-- COMPARE_DONE: the outcome of R348, and under RESPONSE 1 a leg that the checker does not end (R349). Both ranges are read
through the page table, HOST pages on the host port, whose answers are free (R255 to R258). (DESIGN CHOICE, log 9, DEDUCED,
log 55) -/
def execCompareDone (s0 : State) : Out :=
  match s0.chk.current with
  | none => .next s0
  | some p =>
    let n := cf p 8 45 19
    let chunk := cf p 0 0 32
    let ra := (McRun.start s0 (s0.hostAnswers (2 * n + 4))).run (cf p 8 0 43) (64 * n)
    let rb := ra.run (cf p 0x10 0 43) (64 * n)
    let s := { rb.st with freeIx := rb.st.freeIx + (2 * n + 4 - rb.host.length) }
    let c := { s.chk with current := none }
    if rb.fault.isSome then .next ({ s with chk := c }.reduceBad.checkFault 0x83 0 chunk)
    else
      let ws := (wordsOf ra.bytes).zip (wordsOf rb.bytes)
      let diff := (ws.filter (fun q => q.1.1 != q.2.1)).length
      let poison := ws.any (fun q => q.1.2 || q.2.2)
      let hold := c.blocked || (c.halt && s.legOn)
      if poison then .next ({ s with chk := { c with poisoned := sat 32 (c.poisoned + 1), blocked := hold } }.checkFault 0x81 diff chunk)
      else if diff ≠ 0 then .next ({ s with chk := { c with mismatches := sat 32 (c.mismatches + 1), blocked := hold } }.checkFault 0x80 diff chunk)
      else .next ({ s with chk := { c with compares := sat 32 (c.compares + 1) } }.checkMark 0x15 (cf p 0x18 48 16) (at' 2 62 2 + chunk))

/-- Whether the checker has ended its leg: every request handled, and no outcome that holds the milepost (R349). -/
def State.checkerDone (s : State) : Bool := s.chk.queue.isEmpty && s.chk.current.isNone && !s.chk.blocked

/-- The checker's leg end: CHECK_MISSING for each chunk with a primary FINAL MARK, sampled under the MARK's ROUND, and no COMPARE
of the chunk and ROUND (R349). (DEDUCED, log 55) -/
def State.checkMissing (s : State) : State :=
  let c := s.chk
  let miss := if c.checkEn then ((c.finals.filter (fun q => sampled c.sampleLog2 q.1 q.2 && !c.compared.contains q)).map (·.1)).dedup else []
  miss.foldl (fun t q => { t with chk := { t.chk with missing := sat 32 (t.chk.missing + 1) } }.checkFault 0x84 0 q)
    { s with chk := { c with finals := [], compared := [] } }

end Sys2Proof.Machine
end

