-- ==== Sys2Proof/Machine/Governor.lean ====
section
/-! DEFINITION. The gradient-format governor: the closing of observations, decisions, and their effect at mileposts
(05_numerics R157 to R166). -/

namespace Sys2Proof.Machine

/-- floor(log2) of a finite FP32 magnitude above 0. -/
def log2Floor (w : W32) : Int :=
  let e := bits w.toNat 23 8
  if e = 0 then (Nat.log2 (bits w.toNat 0 23) : Int) - 149 else (e : Int) - 127

/-- GOV_INTERVAL, 0 acting as 1 (R164). -/
def Numerics.every (n : Numerics) : Nat := max n.interval 1
/-- The exponent of the widening threshold: UP_LOG2, 0 acting as 1. -/
def Numerics.up (n : Numerics) : Nat := max n.upLog2 1
/-- The exponent of the narrowing threshold (R160). -/
def Numerics.down (n : Numerics) : Nat := max n.downLog2 n.up

/-- Counts in the bins from `b` up. -/
def Obs.from (o : Obs) (b : Nat) : Nat := ((List.range (32 - b)).map (fun j => mget 0 o.bins (b + j))).sum

/-- Whether an observation has anything in it (R159). -/
def Obs.seen (o : Obs) : Bool := o.count != 0 || o.zeros != 0 || o.nonfinite != 0

/-- The largest unbiased exponent of an observation, E_REF for zeros only (R160). -/
def Obs.eMax (o : Obs) (f : FmtEntry) : Int := if o.count = 0 then f.eRef else log2Floor o.amax

/-- The lowest rank whose share of elements out of range is at most 2^−k (R160). -/
def Obs.rank (o : Obs) (f : FmtEntry) (margin k : Nat) : Nat :=
  let d := o.eMax f - f.eRef
  let s4 := o.from (clampI (18 - d) 0 31).toNat
  let s5 := o.from (clampI (31 - (margin : Int) - d) 0 31).toNat
  let n := max o.count 1
  if s4 * 2 ^ k ≤ n then 0 else if s5 * 2 ^ k ≤ n then 1 else 2

/-- What the governor wants, and DOWN_COUNT after (R160). -/
def govWant (f : FmtEntry) (o : Obs) (n : Numerics) : Nat × Nat :=
  let need := o.rank f n.margin n.up
  let cand := o.rank f n.margin n.down
  if 0 < o.nonfinite then (2, 0)
  else if f.choice < need then (need, 0)
  else if cand < f.choice then
    if max n.holdSteps 1 ≤ f.downCount + 1 then (cand, 0) else (f.choice, f.downCount + 1)
  else (f.choice, 0)

/-- The decision of an observed entry (R160). -/
def govDecide (f : FmtEntry) (o : Obs) (n : Numerics) : GovDec :=
  let w := govWant f o n
  let e := o.eMax f
  { want := w.1, downCount := w.2, eRef := e, scaleExp := clampI (15 - (n.margin : Int) - e) (-128) 127, amax := o.amax }

/-- bound(want, allowed): the wanted rank, else the lowest allowed above it, else the highest allowed below it; with
none allowed, BF16 (R161). -/
def govBound (want : Nat) (allowed : BitVec 3) : Nat :=
  let ok (r : Nat) : Bool := allowed.toNat.testBit r
  if ok want then want
  else match [0, 1, 2].find? (fun r => want < r && ok r) with
    | some r => r
    | none => match [2, 1, 0].find? (fun r => r < want && ok r) with
      | some r => r
      | none => 2

/-- The format that applies to an entry: its pin, or the bounded choice (R160, R161). -/
def FmtEntry.applied (f : FmtEntry) (want : Nat) : Nat := if f.pin then f.pinFormat else govBound want f.allowed

/-- GOV_DECISION: the Module Controller decides the entry's earliest observation that has no decision yet (R160). (DEDUCED, log 44) -/
def execGovDecision (f : Fin 16384) (s : State) : Out :=
  let ps := mget [] s.gov.pend f.val
  match takeFirst (fun p : GovPend => p.dec.isNone) ps with
  | none => .next s
  | some (p, _) =>
    let d := govDecide (mget {} s.fmt f.val) p.obs s.num
    let ps' := ps.map (fun q => if q.closedAt = p.closedAt then { q with dec := some d } else q)
    .next { s with gov := { s.gov with pend := mset [] s.gov.pend f.val ps' } }

/-- The payload of a governor waymark (R166). -/
def govPayload (f new prev : Nat) (late low : Bool) : Nat :=
  at' 2 60 4 + at' f 32 14 + at' new 8 2 + at' prev 4 2 + at' (b2n late) 1 1 + at' (b2n low) 0 1

/-- One decision taking effect: the entry's state, POLICY_CONFLICT where it does not get what it wants, POLICY where the
format in use changes (R160, R161, R166). -/
def State.govApply (s : State) (f : Nat) (d : GovDec) : State :=
  let e := mget ({} : FmtEntry) s.fmt f
  let a := e.applied d.want
  let e' := { e with
    choice := d.want, downCount := d.downCount, eRef := d.eRef, scaleExp := d.scaleExp, amaxLast := d.amax,
    observed := sat 24 (e.observed + 1), current := a }
  let s1 := { s with fmt := mset {} s.fmt f e' }
  let s2 := if a ≠ d.want then s1.mark 0x14 0 0 mcUnit (govPayload f a d.want false (!e.pin)) else s1
  if a ≠ e.current then s2.mark 0x13 0 0 mcUnit (govPayload f a e.current false false) else s2

/-- A decision not ready at its milepost: dropped, with a POLICY waymark that has LATE set (R159). (DEDUCED, log 44) -/
def State.govLate (s : State) (f : Nat) : State :=
  let e := mget ({} : FmtEntry) s.fmt f
  { s with fmt := mset {} s.fmt f { e with late := sat 8 (e.late + 1) } }.mark 0x13 0 0 mcUnit (govPayload f e.current e.current true false)

/-- What is due of one entry at the milepost that opens a leg. -/
def State.govDue (s : State) (leg f : Nat) : State :=
  let ps := mget [] s.gov.pend f
  let due (p : GovPend) : Bool := decide (max s.num.lag 1 ≤ leg - p.closedAt)
  let s1 := { s with gov := { s.gov with pend := mset [] s.gov.pend f (ps.filter (fun p => !due p)) } }
  (ps.filter due).foldl (fun t p => match p.dec with | some d => t.govApply f d | none => t.govLate f) s1

/-- Every open observation closed (R159). -/
def State.govClose (s : State) (leg : Nat) : State :=
  let pend := s.gov.opened.foldl (fun m p =>
    if p.2.seen then mupd [] m p.1 (fun l => l ++ [({ closedAt := leg, obs := p.2, dec := none } : GovPend)]) else m) s.gov.pend
  { s with gov := { opened := [], closed := s.gov.opened, pend := pend } }

/-- The governor at the milepost that opens a leg: the decisions due, then the close (R159). (DEDUCED, log 44) -/
def State.govMilepost (s : State) (leg : Nat) : State :=
  if leg % s.num.every = s.num.phase % s.num.every then
    let s1 := (s.gov.pend.map (·.1)).foldl (fun t f => t.govDue leg f) s
    if s1.num.govEn then s1.govClose leg else s1
  else s

end Sys2Proof.Machine
end

