-- ==== Sys2Proof/Machine/Memory.lean ====
section
/-! DEFINITION. Memory controllers: scrubbing, retraining, devices lost during a session (14_memory R365, R371, R377,
R378). -/

namespace Sys2Proof.Machine

/-- A controller's record. -/
def State.ctl (s : State) (d : Nat) : MemCtl := mget {} s.mem.ctls d
/-- The state with a controller's record changed. -/
def State.updCtl (s : State) (d : Nat) (f : MemCtl → MemCtl) : State :=
  { s with mem := { s.mem with ctls := mupd {} s.mem.ctls d f } }

/-- Whether a memory entry's device is present and was not lost. -/
def State.devHere (s : State) (d : Nat) : Bool := (mget ({} : MemEntry) s.plan.mems d).present && !s.mem.lost.contains d

/-- The space and physical address of an offset within a device (R369, R370). -/
def Plan.physOf (p : Plan) (d off : Nat) : Option (Space × Nat) :=
  if d < 8 then
    match p.hbmStacks.findIdx? (· == d) with
    | none => none
    | some i => some (.hbm, (off / 256 * p.hbmStacks.length + i) * 256 + off % 256)
  else
    p.bands.findSome? (fun b =>
      match b.chans.findIdx? (· == d - 8) with
      | none => none
      | some i =>
        let u := ((b.used.find? (fun q => q.1 == d - 8)).map (·.2)).getD 0
        let n := b.chans.length
        if u ≤ off ∧ off < u + b.size / n then some (.ddr, b.base + ((off - u) / 4096 * n + i) * 4096 + off % 4096) else none)

/-- A device lost during the session (R371): the maps stand, the record changes. -/
def State.loseDevice (s : State) (d : Nat) : State :=
  { (s.updCtl d (fun c => { c with st := 2, pending := false })) with
    mem := { (s.updCtl d (fun c => { c with st := 2, pending := false })).mem with lost := s.mem.lost ++ [d] } }.planChange
    (fun p => { p with mems := mupd ({} : MemEntry) p.mems d (fun e => { e with present := false, capacity := 0 }) })

/-- Whether a controller may begin a retrain: one at a time, and each at most once in 100 ms (R377). (DEDUCED, log 53) -/
def State.mayRetrain (s : State) (d : Nat) : Bool :=
  (s.ctl d).pending && !s.mem.ctls.any (fun c => c.2.st == 1)
    && (match (s.ctl d).lastRetrain with | none => true | some t => decide (t + 100000000 ≤ s.time.now))

/-- A retrain begins: MEM_RETRAIN is active at the module (R377, R37). -/
def State.startRetrain (s : State) (d : Nat) : State :=
  let t := s.updCtl d (fun c => { c with st := 1, pending := false, lastRetrain := some s.time.now })
  { t with conds := if d < 8 then { t.conds with retrainHbm := true } else { t.conds with retrainDdr := true } }

/-- The lowest-numbered controller that may retrain begins. (DEDUCED, log 53) -/
def State.retrainNext (s : State) : State :=
  match (List.range 20).find? s.mayRetrain with
  | none => s
  | some d => s.startRetrain d

/-- A controller needs retraining: at once with no LEG group active, else at the next milepost (R377). (DEDUCED, log 53) -/
def State.needRetrain (s : State) (d : Nat) : State :=
  let t := s.updCtl d (fun c => { c with pending := true })
  if t.legOn then t else t.retrainNext

/-- MEM_INTERFACE_TEMPERATURE: more than 8 °C from the last training, in 1/8 °C (R377). (DEDUCED, log 53) -/
def execMemInterfaceTemperature (d : DevIx) (t : Int) (s : State) : Out :=
  let s1 := s.updCtl d.val (fun c => { c with temp := t })
  happen (s.devHere d.val) s (if 64 < (t - (s.ctl d.val).trainedAt).natAbs then s1.needRetrain d.val else s1)

/-- What a missing record reads as: no key matches it. -/
def noRecord : TrainRec := { key := 0, sub := 0, temp := -1000000 }

/-- The key of a memory device's record: for a stack the serial number and the stack, for a channel its MRDIMM (R434). -/
def devKey (d : Nat) : Block × Nat := if d < 8 then (BitVec.ofNat 256 Config.serial.toNat, d) else (Config.spdKey d, 0)

/-- A record written to the training store: the copy written is the older one, with the next count (R433). -/
def Flash.record (f : Flash) (i : Nat) (r : TrainRec) : Flash :=
  { f with records := mset noRecord f.records i r, older := f.records, recWrites := f.recWrites + 1 }

/-- A memory device's record written (R377, R434). -/
def Flash.trained (f : Flash) (d : Nat) (temp : Int) : Flash :=
  f.record d { key := (devKey d).1, sub := (devKey d).2, temp := temp }

/-- MEM_RETRAIN_DONE: the saved record follows a good retrain; a failed one loses the device (R377). -/
def execMemRetrainDone (d : DevIx) (ok : Bool) (s : State) : Out :=
  let c := s.ctl d.val
  let s1 := s.updCtl d.val (fun c => { c with st := 0, retrains := sat 16 (c.retrains + 1), fixes := [], trainedAt := c.temp })
  let s2 := if ok then { s1 with flash := s1.flash.trained d.val c.temp }
    else (s1.faultMark (devUnit d.val) 0x93 0).loseDevice d.val
  happen (c.st == 1) s (if s2.legOn then s2 else s2.retrainNext)

/-- A word found uncorrectable by a scrub: rewritten as poisoned, counted and recorded (R365, R378). A word already
poisoned is not a new error (R366). -/
def State.scrubBad (s : State) (d : Nat) (sp : Space) (a : Nat) : State :=
  if mget false (s.mem.poison sp) (a / 4) then s
  else
    let s1 := { s with mem := s.mem.put sp (s.mem.bytes sp) (mset false (s.mem.poison sp) (a / 4) true) }
    (s1.updCtl d (fun c => { c with uncorrectable := sat 32 (c.uncorrectable + 1) })).faultMark (devUnit d) 0x92 (at' sp.num 52 2 + at' a 0 52)

/-- A controller's corrections counted; more than 64 in 100 ms call for a retrain (R365, R377). -/
def State.corrected (s : State) (d n : Nat) : State :=
  if n = 0 then s
  else
    let c := s.ctl d
    let fs := c.fixes ++ List.replicate n s.time.now
    let fs' := fs.drop (fs.length - 65)
    let s1 := s.updCtl d (fun c => { c with corrected := sat 32 (c.corrected + n), fixes := fs' })
    if fs'.length = 65 ∧ s.time.now ≤ nth 0 fs' 0 + 100000000 then s1.needRetrain d else s1

/-- SCRUB: a controller reads a line of its device, `line` counted within it; the words named are corrected, or rewritten
as poisoned; `last` ends a pass (R378). (DESIGN CHOICE, log 13, DEDUCED, log 53) -/
def execScrub (d : DevIx) (line : Nat) (fixed bad : List (Fin 16)) (last : Bool) (s : State) : Out :=
  match s.plan.physOf d.val (64 * line) with
  | none => .next s
  | some (sp, a) =>
    let s1 := bad.foldl (fun t i => t.scrubBad d.val sp (a + 4 * i.val)) s
    let s2 := if last then s1.updCtl d.val (fun c => { c with scrubPasses := sat 32 (c.scrubPasses + 1) }) else s1
    happen (s.devHere d.val && !s.mem.selfRefresh) s (s2.corrected d.val fixed.length)

end Sys2Proof.Machine
end

