-- ==== Sys2Proof/Machine/Dma.lean ====
section
/-! DEFINITION. The host DMA engine: the lines of a MOVE or a FILL (15_host R389, R409, R410). -/

namespace Sys2Proof.Machine

/-- A descriptor's field. -/
def Desc.f (d : Desc) (off lo w : Nat) : Nat := fld d.raw.toNat off lo w

/-- A transfer as its lines issue: the lines done, the host's answers still to come, where it failed, whether a write met lost
memory, and whether it waits for a host completion. -/
structure Dma where
  st : State
  n : Nat
  hs : List HostReply
  fail : Option (Nat × Nat)
  lost : Bool
  wait : Bool
deriving DecidableEq, Repr

/-- One line written on the device side. -/
def Dma.put (m : Dma) (va : Nat) (ds : List PByte) : Dma :=
  match m.st.xlate va .plain with
  | .inl e => { m with fail := some (e, va) }
  | .inr (t, pa) =>
    if t = 2 then { m with fail := some (0x6F, va) }
    else { m with st := m.st.devWrite (spaceOf t) pa ds false, n := m.n + 1, lost := m.lost || m.st.memLost (spaceOf t) pa }

/-- One line from the host to device memory. -/
def Dma.fromHost (m : Dma) (src dst : Nat) : Dma :=
  match m.st.hostLine cxlUnit src m.hs with
  | (st, .none, _) => { m with st := st, wait := true }
  | (st, .abort, r) => { m with st := st, hs := r, fail := some (0xA7, src) }
  | (st, .line l ep, r) => ({ m with st := st, hs := r } : Dma).put dst ((lineBytes l).map (fun b => (b, ep)))

/-- One line within device memory. -/
def Dma.within (m : Dma) (src dst : Nat) : Dma :=
  match m.st.vaRead src 64 with
  | .inl e => { m with fail := some e }
  | .inr ds => m.put dst ds

/-- One line of device memory written to the host (R389). -/
def Dma.toHost (m : Dma) (src dst : Nat) : Dma :=
  match m.st.vaRead src 64 with
  | .inl e => { m with fail := some e }
  | .inr ds =>
    let r := m.st.hostPost [(dst, ds.map (·.1), ds.any (·.2))] m.hs
    if r.2.1 then { m with st := r.1, hs := r.2.2, fail := some (0xA7, dst) } else { m with st := r.1, hs := r.2.2, n := m.n + 1 }

/-- LINES of a MOVE or a FILL. -/
def Desc.dmaLines (d : Desc) : Nat := if d.type = 4 then d.f 0x10 0 28 else d.f 0x18 0 28

/-- A line of a FILL's PATTERN. -/
def Desc.pattern (d : Desc) : List PByte := (List.range 16).flatMap (fun _ => bytesOf (BitVec.ofNat 32 (d.f 0x14 0 32), false))

/-- The next line of a transfer, lines in ascending order (R409, R410). -/
def Dma.line (d : Desc) (m : Dma) : Dma :=
  let src := d.f 8 0 64 + 64 * m.n
  let dst := d.f 0x10 0 64 + 64 * m.n
  if m.fail.isSome || m.wait || decide (d.dmaLines ≤ m.n) then m
  else if d.type = 4 then m.put src d.pattern
  else match d.f 0 22 2 with
    | 0 => m.fromHost src dst
    | 1 => m.toHost src dst
    | _ => m.within src dst

/-- A transfer as it stands. -/
def Desc.dma (d : Desc) (s : State) : Dma := { st := s, n := d.progress, hs := d.replies, fail := none, lost := d.lost, wait := false }

/-- What a transfer will complete with: nothing while it has lines to issue (R371, R409). -/
def Dma.result (m : Dma) (lines : Nat) : Option (Nat × W64 × W32) :=
  match m.fail with
  | some (e, a) => some (e, BitVec.ofNat 64 a, 0)
  | none => if m.n < lines then none else some (if m.lost then 0x91 else 0, BitVec.ofNat 64 m.n, 0)

/-- A transfer that issues up to `k` further lines. -/
def State.dmaGo (s : State) (d : Desc) (k : Nat) : State :=
  let m := iter k (fun _ x => x.line d) (d.dma s)
  m.st.setDesc { d with progress := m.n, replies := m.hs, lost := m.lost, result := m.result d.dmaLines }

/-- A transfer that issues some of its lines, not the last: R409 bounds the rate, so that their number is free. (DESIGN CHOICE,
log 59) -/
def State.dmaPart (s : State) (d : Desc) : State :=
  let r := s.free64
  r.2.dmaGo d (r.1.toNat % max 1 (d.dmaLines - d.progress))

/-- The transfer in hand. -/
def State.dmaHand (s : State) : Option Desc := s.host.descs.find? (fun d => d.started && (d.type == 3 || d.type == 4))

/-- The transfer in hand at a page write: some of its lines have issued by then, and lines issued after it use the new page
(R257, R409). (DESIGN CHOICE, log 59) -/
def State.dmaSome (s : State) : State :=
  match s.dmaHand with
  | none => s
  | some d => if d.result.isSome then s else s.dmaPart d

end Sys2Proof.Machine
end

