-- ==== Sys2Proof/Machine/Host.lean ====
section
/-! DEFINITION. The host port: BAR0's answering blocks, rings and watch lines, the taking of descriptors, MOVE and FILL,
FENCE and RECORD_MARK, the DDR5 window, snoops and the port's configuration (15_host R384 to R410, R416, R417). -/

namespace Sys2Proof.Machine

/-! ### BAR0 (R390, R391, R425) -/

/-- Whether the block of a BAR0 offset answers in the boot state. -/
def State.answers (s : State) (off : Nat) : Bool :=
  let base := decide (off < 0x200)
  let time := decide (0x2000 ≤ off ∧ off < 0x2900)
  s.side.perstN && !s.boot.inReset && off % 4 == 0 && match s.boot.st with
    | .ready => true
    | .cpReset => true
    | .fwStart => base || time
    | .test => base || time
    | .train => base || time
    | .stopped => base || time || decide (0x3000 ≤ off ∧ off < 0x4000)
    | _ => base

/-- A BAR0 write as a boundary input (R479). -/
def State.regIn (s : State) (off : Nat) (v : W32) : State := s.captureIn 7 off v.toNat 0 []

/-- A write to a register that answers; otherwise it is ignored. (DESIGN CHOICE, log 3) -/
def State.regCmd (s : State) (off : Nat) (v : W32) (f : State → State) : Out :=
  .next (if s.answers off then f (s.regIn off v) else s)

/-! ### Rings (R395 to R401) -/

/-- Offset of ring `k`'s register. -/
def ringOff (k o : Nat) : Nat := 0x1000 + 0x40 * k + o

/-- The fields other than ENABLE of a write of +0x18, which only a disabled and stopped ring takes (R395). -/
def Ring.fields (x : Ring) (v : W32) : Ring :=
  if !x.enable && x.stopped then
    { x with poll := bit v.toNat 30, sqLog2 := bits v.toNat 16 5, cqLog2 := bits v.toNat 8 5 }
  else x

/-- Whether a ring watches its line by CXL.cache (R397). -/
def State.caches (s : State) (x : Ring) : Bool := s.host.cacheUp && s.host.cacheEn && !x.poll

/-- A ring's watch line read. -/
def State.readWatch (s : State) (r : Nat) : State :=
  let x := s.ring r
  (s.setRing r { x with reading := true }).emit (.hostRead x.watch.toNat 1 (s.caches x))

/-- A held entry as the accepting write puts it: SQ_HEAD 0 and PHASE 1 (R401). -/
def heldEntry (e : Block) : Block := BitVec.ofNat 256 (setBits (setBits e.toNat 96 16 0) 255 1 1)

/-- The accepting write of ENABLE = 1 (R395, R401). -/
def State.ringStart (s : State) (r : Nat) (x : Ring) : State :=
  let n := x.held.length
  let t := { x with enable := true, active := true, stopped := false, configErr := false, failing := false, phase := true, sqHead := 0, cqTail := n, held := [], lastEntry := x.held.getLast?.map heldEntry, outOfRange := true }
  let s0 := s.setRing r t
  let s1 := if s.host.burst.1 = r then { s0 with host := { s0.host with burst := (r, 0) } } else s0
  (x.held.zipIdx.foldl (fun u e => u.emit (.hostWrite (x.cqBase.toNat + 32 * e.2) (blockBytes (heldEntry e.1)) false)) s1).readWatch r

/-- Whether a ring's configuration is refused at an enable (R395, R401). -/
def Ring.bad (x : Ring) : Bool :=
  x.sqBase.toNat % 4096 != 0 || x.cqBase.toNat % 4096 != 0 || x.watch.toNat % 64 != 0
    || decide (x.sqLog2 < 4) || decide (16 < x.sqLog2) || decide (x.cqLog2 < 4) || decide (16 < x.cqLog2)
    || decide (2 ^ x.cqLog2 - 1 ≤ x.held.length)

/-- A write of a ring's +0x18 (R395, R401). ENABLE acts where it goes from 0 to 1. (DEDUCED, log 58) -/
def State.ringCtrl (s : State) (r : Nat) (v : W32) : State :=
  let y := s.ring r
  if !bit v.toNat 31 then (s.setRing r { y.fields v with enable := false, active := false }).settleRing r
  else if y.enable then s
  else if (y.fields v).bad then s.setRing r { y.fields v with configErr := true }
  else s.ringStart r (y.fields v)

/-- RING_ENABLE: a write of +0x18 with ENABLE = 1 (R395). -/
def execRingEnable (r : RingIx) (v : W32) (s : State) : Out :=
  if bit v.toNat 31 then s.regCmd (ringOff r.val 0x18) v (fun t => t.ringCtrl r.val v) else .next s

/-- RING_DISABLE: a write of +0x18 with ENABLE = 0 (R401). -/
def execRingDisable (r : RingIx) (v : W32) (s : State) : Out :=
  if bit v.toNat 31 then .next s else s.regCmd (ringOff r.val 0x18) v (fun t => t.ringCtrl r.val v)

/-- WATCH_POLL: a ring that polls reads its line, as does any ring whose last read failed (R396, R397). -/
def execWatchPoll (r : RingIx) (s : State) : Out :=
  let x := s.ring r.val
  happen (x.enable && (!s.caches x || x.outOfRange)) s (s.readWatch r.val)

/-- WATCH_LINE_READ: a read of a watch line returns, or fails with the port held in reset (R396, R498). (DEDUCED, log 58) -/
def execWatchLineRead (r : RingIx) (reply : HostReply) (s : State) : Out :=
  let x := s.ring r.val
  if !x.reading then .next s
  else
    let failed (t : State) : State :=
      { t.setRing r.val { x with reading := false, outOfRange := true } with host := { (t.setRing r.val { x with reading := false, outOfRange := true }).host with errWatch := true } }
    match (if s.portHeld then .abort else reply) with
    | .abort => .next (failed s)
    | .line d ep =>
      let s1 := s.captureIn 2 cxlUnit x.watch.toNat 0 [d]
      let tail := fld d.toNat 0 0 16
      let head := fld d.toNat 4 0 16
      if ep ∨ 2 ^ x.sqLog2 ≤ tail ∨ 2 ^ x.cqLog2 ≤ head then .next (failed s1)
      else
        let s2 := s1.setRing r.val { x with reading := false, outOfRange := false, seenSqTail := tail, seenCqHead := head }
        let ls := s2.host.lines.filter (· != x.watch.toNat)
        .next (if s.caches x then { s2 with host := { s2.host with lines := (if ls.length ≥ 64 then ls.drop 1 else ls) ++ [x.watch.toNat] } } else s2)

/-- Whether a descriptor's TYPE is known (R403). -/
def knownType (t : Nat) : Bool := decide (1 ≤ t) && decide (t ≤ 10)

/-- Whether ring `r` may take its next descriptor (R398, R425, R486). -/
def State.mayTake (s : State) (r : Nat) : Bool :=
  let x := s.ring r
  x.active && !x.outOfRange && (s.boot.st == .ready || s.boot.st == .cpReset) && x.sqHead != x.seenSqTail
    && decide ((x.cqTail + 2 ^ x.cqLog2 - x.seenCqHead) % 2 ^ x.cqLog2 + s.inFlight r < 2 ^ x.cqLog2 - 1)
    && decide (s.host.descs.length < 1024) && s.power.stopStage == 0 && !s.feeding

/-- A descriptor taken at a slot of a ring; an unknown TYPE completes at once with DESC_MALFORMED, since no executor takes it
(R398, R402). (DEDUCED, log 16, DEDUCED, log 58) -/
def State.takeDesc (s : State) (ring slot : Nat) (d : Line) : State :=
  let q : Desc := { order := s.host.nextOrder, ring := ring, slot := slot, raw := d, taken := s.time.now, started := false, since := 0, result := none }
  let t := { s with host := { s.host with descs := s.host.descs ++ [q], nextOrder := s.host.nextOrder + 1 } }
  if knownType q.type then t else t.complete q 0xA0 0 0

/-- The ring that takes the next descriptor: the one whose burst goes on, else the first in rotation that may (R56, R398).
(DEDUCED, log 58) -/
def State.ringTurn (s : State) : Option Nat :=
  if 0 < s.host.burst.2 ∧ s.mayTake s.host.burst.1 then some s.host.burst.1
  else ((List.range 64).map (fun i => (s.host.ringRr + i) % 64)).find? s.mayTake

/-- Descriptors left of a ring's burst after the one being taken: a burst is of up to 8 consecutive slots (R398). -/
def State.burstLeft (s : State) (r : Nat) : Nat :=
  let x := s.ring r
  if 0 < s.host.burst.2 ∧ s.host.burst.1 = r then s.host.burst.2 - 1
  else min 8 (min ((x.seenSqTail + 2 ^ x.sqLog2 - x.sqHead) % 2 ^ x.sqLog2) (2 ^ x.sqLog2 - x.sqHead)) - 1

/-- The pointer of the rings after one takes: it moves past the ring granted, and a burst that goes on is no new grant. -/
def State.ringNext (s : State) (r : Nat) : Nat := if 0 < s.host.burst.2 ∧ s.host.burst.1 = r then s.host.ringRr else (r + 1) % 64

/-- DESC_TAKE: the ring whose turn it is takes its next descriptor (R398). One whose read the host fails completes with
HOST_ABORT, its header a free value, since nothing of it was read (R389). (DEDUCED, log 16, DEDUCED, log 58) -/
def execDescTake (r : RingIx) (d : HostReply) (s : State) : Out :=
  if s.ringTurn ≠ some r.val then .next s
  else
    let x := s.ring r.val
    let a := x.sqBase.toNat + 64 * x.sqHead
    let s1 := (s.emit (.hostRead a 1 false)).setRing r.val { x with sqHead := (x.sqHead + 1) % 2 ^ x.sqLog2 }
    let s2 := { s1 with host := { s1.host with ringRr := s.ringNext r.val, burst := (r.val, s.burstLeft r.val) } }
    match (if s.portHeld then .abort else d) with
    | .line l _ => .next ((s2.captureIn 1 r.val a 0 [l]).takeDesc r.val x.sqHead l)
    | .abort =>
      let f := s2.free64
      let t := { f.2 with host := { f.2.host with errAbort := true, nextOrder := f.2.host.nextOrder + 1 } }
      let q : Desc := { order := f.2.host.nextOrder, ring := r.val, slot := x.sqHead, raw := BitVec.ofNat 512 f.1.toNat, taken := t.time.now, started := false, since := 0, result := none }
      .next (t.complete q 0xA7 a 0)

/-- COMPLETION_WRITE_FAIL: the ring's latest entry is kept as held, and the ring takes no more (R401). -/
def execCompletionWriteFail (r : RingIx) (s : State) : Out :=
  let x := s.ring r.val
  match x.lastEntry with
  | none => .next s
  | some e =>
    if x.failing then .next s
    else
      let back := (x.cqTail + 2 ^ x.cqLog2 - 1) % 2 ^ x.cqLog2
      let y := { x.fail with held := x.held ++ [e], lastEntry := none, cqTail := back, phase := if x.cqTail = 0 then !x.phase else x.phase }
      let s1 := s.setRing r.val y
      .next ({ s1 with host := { s1.host with errCq := true, errAbort := true } }.settleRing r.val)

/-! ### Executors (R403) -/

/-- A descriptor that a FENCE before it on its ring holds back (R416). -/
def State.fenced (s : State) (d : Desc) : Bool :=
  s.host.descs.any (fun q => q.type == 7 && q.ring == d.ring && decide (q.order < d.order))

/-- Whether a milepost is held: its due time has passed with a group of the series not ready (R40, R45). -/
def State.held (s : State) : Bool := s.groups.any (fun p => p.2.legActive && (p.2.st == .held || p.2.st == .overLimit))

/-- Whether a descriptor was read during the hold of a milepost, and so waits for it (R40). -/
def State.holdWaits (s : State) (d : Desc) : Bool :=
  s.held && (match s.series with | some r => (match r.due with | some t => decide (t ≤ d.taken) | none => false) | none => false)

/-- The descriptor that an executor of some types may start next. -/
def State.nextOf (s : State) (types : List Nat) : Option Desc :=
  s.host.descs.find? (fun d => types.contains d.type && !d.started && !s.fenced d && !s.holdWaits d)

/-- Types that the Module Controller executes. -/
def mcTypes : List Nat := [1, 5, 6, 8, 9, 10]

/-- Whether the Module Controller is executing a descriptor: a broadcast, a table write on its way to flash, or an
adoption. A join and a mark that wait, wait apart. -/
def State.mcBusy (s : State) : Bool :=
  s.host.descs.any (fun d => d.started && (d.type == 1 || d.type == 5 || d.type == 9))

/-- The Module Controller's next descriptor, when it is of a type. -/
def State.mcNext (s : State) (type : Nat) : Option Desc :=
  if s.mcBusy || s.power.stopStage != 0 then none else (s.nextOf mcTypes).filter (fun d => d.type == type)

/-- Whether every byte of a descriptor from `lo` up is 0. -/
def Desc.clear (d : Desc) (lo : Nat) : Bool := d.raw.toNat / 256 ^ lo == 0

/-! ### Failed host requests (R389) -/

/-- A running operation that waits for a host completion ends with HOST_ABORT. (DESIGN CHOICE, log 15) -/
def Running.unwait (r : Running) : Running := { r with waitHost := false }

/-- The operation or descriptor of a failed host request ends with HOST_ABORT, its earlier requests standing. (DEDUCED, log 16) -/
def State.hostFail (s : State) (q : HostReq) (timeout : Bool) : State :=
  let err (t : State) : State :=
    { t with host := { t.host with errAbort := true, timeouts := if timeout then sat32 t.host.timeouts else t.host.timeouts } }
  match q with
  | .access c =>
    match (s.core c.val).accRun with
    | none => s
    | some r => if r.waitHost then err (s.updCore c.val (fun k => { k with accRun := some r.unwait })) else s
  | .merge c =>
    match (s.core c.val).mergeRun with
    | none => s
    | some r => if r.waitHost then err (s.updCore c.val (fun k => { k with mergeRun := some r.unwait })) else s
  | .desc r slot =>
    match s.host.descs.find? (fun d => d.ring == r.val && d.slot == slot.toNat) with
    | none => s
    | some d =>
      let a := if d.f 0 22 2 = 1 then d.f 0x10 0 64 else d.f 8 0 64
      if d.started && d.result.isNone && d.type == 3 && d.f 0 22 2 != 2 then (err s).complete d 0xA7 (a + 64 * d.progress) 0 else s

/-- HOST_ABORT. -/
def execHostAbort (q : HostReq) (s : State) : Out := .next (s.hostFail q false)

/-- HOST_COMPLETION_TIMEOUT. -/
def execHostCompletionTimeout (q : HostReq) (s : State) : Out := .next (s.hostFail q true)

/-! ### MOVE and FILL (R409, R410) -/

/-- The host DMA engine's next descriptor, when it is of a type and the engine is free. -/
def State.dmaNext (s : State) (type : Nat) : Option Desc :=
  if s.dmaHand.isSome || s.power.stopStage != 0 then none
  else (s.nextOf [3, 4]).filter (fun d => d.type == type)

/-- A transfer started: some lines short of all have issued, and the rest go on from there. -/
def State.dmaStart (s : State) (d : Desc) (host : List HostReply) : State :=
  s.dmaPart { d with started := true, since := s.time.now, result := none, progress := 0, replies := host, lost := false }

/-- MOVE (R409). (DESIGN CHOICE, log 59) -/
def execMove (host : List HostReply) (s : State) : Out :=
  match s.dmaNext 3 with
  | none => .next s
  | some d =>
    let dir := d.f 0 22 2
    let src := d.f 8 0 64
    let dst := d.f 0x10 0 64
    let n := d.f 0x18 0 28
    let bad := dir == 3 || d.f 0 0 22 != 0 || d.f 0x18 28 4 != 0 || !d.clear 0x1C || n == 0 || src % 64 != 0 || dst % 64 != 0
      || (dir != 0 && decide (2 ^ 43 ≤ src)) || (dir != 1 && decide (2 ^ 43 ≤ dst))
      || (dir == 2 && decide (src < dst + 64 * n) && decide (dst < src + 64 * n))
    .next (if bad then s.complete d 0xA0 0 0 else s.dmaStart d host)

/-- FILL (R410). (DESIGN CHOICE, log 59) -/
def execFill (s : State) : Out :=
  match s.dmaNext 4 with
  | none => .next s
  | some d =>
    let dst := d.f 8 0 64
    let n := d.f 0x10 0 28
    let bad := d.f 0 0 24 != 0 || d.f 0x10 28 4 != 0 || !d.clear 0x18 || n == 0 || dst % 64 != 0 || decide (2 ^ 43 ≤ dst)
    .next (if bad then s.complete d 0xA0 0 0 else s.dmaStart d [])

/-- HOST_DMA_DONE: the transfer in hand issues its last lines and completes; one that lacks a host completion goes on waiting
for it (R409). (DESIGN CHOICE, log 59) -/
def execHostDmaDone (s : State) : Out :=
  match s.dmaHand with
  | none => .next s
  | some d =>
    let t := if d.result.isSome then s else s.dmaGo d (d.dmaLines - d.progress)
    match t.dmaHand with
    | none => .next t
    | some q =>
      match q.result with
      | none => .next t
      | some (st, d0, d1) => .next (t.complete q st d0.toNat d1.toNat)

/-! ### FENCE and RECORD_MARK (R416, R417) -/

/-- Whether every descriptor that a FENCE waits for has completed. -/
def State.fenceReady (s : State) (d : Desc) : Bool :=
  !s.host.descs.any (fun q => decide (q.order < d.order) && (d.f 0 23 1 == 1 || q.ring == d.ring))

/-- DESC_FENCE: the ring's next descriptor, a FENCE, starts (R416). (DEDUCED, log 29) -/
def execDescFence (r : RingIx) (s : State) : Out :=
  match s.host.descs.find? (fun d => d.ring == r.val && !d.started && d.type == 7 && !s.fenced d) with
  | none => .next s
  | some d =>
    if d.f 0 14 8 ≠ 0 ∨ d.f 0 0 8 ≠ 0 ∨ !d.clear 8 then .next (s.complete d 0xA0 0 0)
    else if d.f 0 22 1 = 1 ∧ (s.group d.groupNo).st ≠ .running then .next (s.complete d 0xA8 0 0)
    else .next (s.startDesc d)

/-- DESC_FENCE_DONE: the FENCE of a ring completes once what it waits for is done (R416). (DEDUCED, log 60) -/
def execDescFenceDone (r : RingIx) (s : State) : Out :=
  match s.host.descs.find? (fun d => d.ring == r.val && d.started && d.type == 7) with
  | none => .next s
  | some d =>
    happen (if d.f 0 22 1 = 1 then d.result.isSome else s.fenceReady d) s (s.complete d 0 0 0)

/-- A RECORD_MARK's waymark and completion at one time (R417). (DEDUCED, log 60) -/
def State.recordMark (s : State) (d : Desc) (t : Nat) : State :=
  (s.markAt t 0x17 0 d.groupNo s.coord mcUnit (s.jobOf d.groupNo) s.legNow (d.f 8 0 64)).completeAt d t 0 0 0

/-- RECORD_MARK (R417). (DEDUCED, log 60) -/
def execRecordMark (s : State) : Out :=
  match s.mcNext 8 with
  | none => .next s
  | some d =>
    if d.f 0 23 1 ≠ 0 ∨ d.f 0 14 8 ≠ 0 ∨ d.f 0 0 8 ≠ 0 ∨ !d.clear 0x10 then .next (s.complete d 0xA0 0 0)
    else if d.f 0 22 1 = 0 then .next (s.recordMark d d.taken)
    else if (s.group d.groupNo).st ≠ .running then .next (s.complete d 0xA8 0 0)
    else .next (s.startDesc d)

/-! ### The DDR5 window (R388) -/

/-- The DDR5 address that a host address reaches, when it lies in the committed window. -/
def State.window (s : State) (a : W64) : Option Nat :=
  let b := s.host.winBase.toNat
  if s.host.memUp && !s.boot.inReset && decide (b ≤ a.toNat ∧ a.toNat < b + 2 ^ 28 * s.host.winUnits.toNat) && s.side.perstN then some (a.toNat - b) else none

/-- A request outside what is present counted (R388). -/
def State.outside (s : State) : State := { s with host := { s.host with outOfRange := sat32 s.host.outOfRange } }

/-- CXL_MEM_READ (R388, R367). The data of a line returned with poison are free. -/
def execCxlMemRead (a : W64) (s : State) : Out :=
  match s.window a with
  | none => .next s
  | some o =>
    let l := o / 64 * 64
    let poisonedLine (t : State) : State :=
      { t with host := { t.host with poisonLines := sat32 t.host.poisonLines } }.emit
        (.memData (bytesLine ((List.range 64).map (fun i => Config.poisonByte 1 (l + i)))) true)
    if s.plan.ddrBytes ≤ o then .next (poisonedLine s.outside)
    else if s.mem.selfRefresh then .next (poisonedLine s)
    else
      let ds := s.devRead .ddr l 64
      .next (if ds.any (·.2) then poisonedLine s else s.emit (.memData (bytesLine (ds.map (·.1))) false))

/-- A host write of a DDR5 line taken: outside what is present or with writes disabled it is counted and dropped (R388). -/
def State.ddrWrite (s : State) (l : Nat) (data : Line) (poison : Bool) : State :=
  if s.plan.ddrBytes ≤ l ∨ !s.host.winWriteEn then s.outside
  else if s.mem.selfRefresh then s
  else s.devWrite .ddr l ((lineBytes data).map (fun b => (b, poison))) false

/-- CXL_MEM_WRITE (R388, R367). -/
def execCxlMemWrite (a : W64) (data : Line) (poison : Bool) (s : State) : Out :=
  match s.window a with
  | none => .next s
  | some o =>
    let l := o / 64 * 64
    let s1 := s.captureIn 3 0 l 0 [data]
    let s2 := if s1.trace.capLines = s.trace.capLines then s1
      else { s1 with trace := { s1.trace with capPoison := mset false s1.trace.capPoison (s1.trace.capLines - 1) poison } }
    .next (s2.ddrWrite l data poison)

/-! ### CXL.cache and the port's configuration (R384, R387, R397) -/

/-- Whether the module's cache holds a line. -/
def State.holds (s : State) (a : W64) : Bool := s.host.lines.contains (a.toNat / 64 * 64)

/-- Rings in service that watch a line by CXL.cache. -/
def State.watchers (s : State) (a : Nat) : List Nat :=
  (List.range 64).filter (fun r => let x := s.ring r; x.enable && s.caches x && x.watch.toNat == a)

/-- SNP_INV: the copy is invalidated and each ring that watches the line reads it again (R397). -/
def execSnpInv (a : W64) (s : State) : Out :=
  let l := a.toNat / 64 * 64
  let s1 := s.emit (.snpResp (s.holds a))
  let s2 := { s1 with host := { s1.host with lines := s1.host.lines.filter (· != l) } }
  happen s.host.cacheUp s ((s2.watchers l).foldl (fun t r => t.readWatch r) s2)

/-- SNP_DATA: answered; a Shared copy stays Shared (R384). (DEDUCED, log 61) -/
def execSnpData (a : W64) (s : State) : Out := happen s.host.cacheUp s (s.emit (.snpResp (s.holds a)))

/-- SNP_CUR: answered; a Shared copy stays Shared (R384). (DEDUCED, log 61) -/
def execSnpCur (a : W64) (s : State) : Out := happen s.host.cacheUp s (s.emit (.snpResp (s.holds a)))

/-- CXL_CONFIG_WRITE: CACHE_UP and MEM_UP; when CACHE_UP rises, the rings that watch by CXL.cache read their lines once
more (R397). -/
def execCxlConfigWrite (cache mem : Bool) (s : State) : Out :=
  let s1 := { s with host := { s.host with cacheUp := cache, memUp := mem, lines := if cache then s.host.lines else [] } }
  let rise := cache && !s.host.cacheUp
  happen (s.side.perstN && !s.boot.inReset) s
    (if rise then ((List.range 64).filter (fun r => let x := s1.ring r; x.enable && s1.caches x)).foldl (fun t r => t.readWatch r) s1 else s1)

/-- HDM_DECODER_COMMIT (R388). -/
def execHdmDecoderCommit (base : W64) (units : W32) (s : State) : Out :=
  happen (s.side.perstN && !s.boot.inReset) s { s with host := { s.host with winBase := base, winUnits := units } }

/-- IDE_KM: a key programmed, or the programmed key of a stream taken into use (R384, R387). -/
def execIdeKm (cachemem : Bool) (key : Block) (go : Bool) (s : State) : Out :=
  let i := b2n cachemem
  let h := s.host
  happen (s.spdm.session == 2) s
    (if go then
      { s with host := { h with
        ideKeys := mset 0 h.ideKeys i (mget 0 h.ideNext i)
        ideIo := h.ideIo || !cachemem
        ideCachemem := h.ideCachemem || cachemem } }
    else { s with host := { h with ideNext := mset 0 h.ideNext i key } })

end Sys2Proof.Machine
end

