-- ==== Sys2Proof/Machine/Sequencer.lean ====
section
/-! DEFINITION. The sequencer: control instructions of the three streams, the issue of engine operations, barriers, and
the gating of units (10_sequencer R262 to R278, R283 to R288). -/

namespace Sys2Proof.Machine

/-! ### Fetch (R266 to R268, R270) -/

/-- A program word split: its first 32-bit word, with OPCODE and fields, and its second, IMM (R266). -/
structure Ctl where
  op : Nat
  sd : Nat
  sa : Nat
  sb : Nat
  cond : Nat
  aux : Nat
  imm : Nat
deriving DecidableEq, Repr

/-- The fields of a control word. -/
def ctlOf (w : W64) : Ctl :=
  let x := w.toNat
  { op := bits x 24 8, sd := bits x 20 4, sa := bits x 16 4, sb := bits x 12 4, cond := bits x 8 4, aux := bits x 0 8, imm := bits x 32 32 }

/-- IMM sign-extended to 64 bits. -/
def Ctl.value (i : Ctl) : W64 := BitVec.ofInt 64 (sgn i.imm 32)

/-- Fields an instruction uses: SD, SA, SB, COND, and the bits of AUX and IMM (R267). -/
def ctlUses (op : Nat) : Bool × Bool × Bool × Bool × Nat × Nat :=
  let all := 2 ^ 32 - 1
  match op with
  | 0x81 => (true, false, false, false, 0, all)
  | 0x82 => (true, true, true, false, 0xFF, 0)
  | 0x83 => (true, true, false, false, 0xFF, all)
  | 0x84 => (false, true, true, true, 0, 0x1FFF)
  | 0x85 => (false, false, false, false, 3, all)
  | 0x86 => (false, false, false, false, 3, 0x1FFF)
  | 0x87 => (true, false, false, false, 0xFF, 0)
  | 0x88 => (true, false, false, false, 0, 0x3FFF)
  | 0x89 => (true, false, false, false, 1, 0)
  | 0x8A => (false, true, false, false, 0, 0)
  | 0x8B => (false, false, false, false, 0xF, 0xFFFF)
  | 0x8C => (false, true, false, false, 0, 0x1F1F0F)
  | 0x8D => (false, false, false, false, 0xF, all)
  | 0x8E => (false, false, false, false, 0xF, all)
  | 0x8F => (false, false, false, false, 7, 0)
  | 0x90 => (false, false, false, false, 7, 0)
  | 0x91 => (false, false, false, false, 0x3F, 7)
  | 0x93 => (false, false, false, false, 0xF, 0)
  | 0x94 => (false, false, false, false, 1, 0)
  | _ => (false, false, false, false, 0, 0)

/-- GETSUM identifiers (R269). -/
def sumKnown (a : Nat) : Bool :=
  a == 0 || (decide (0x10 ≤ a) && decide (a ≤ 0x12)) || (decide (0x20 ≤ a) && decide (a ≤ 0x26)) || (decide (0x30 ≤ a) && decide (a ≤ 0x36))
    || (decide (0x40 ≤ a) && decide (a ≤ 0x42)) || a == 0x50 || a == 0x51

/-- A reserved field or code of a control instruction is not zero (R16, R267). -/
def Ctl.reserved (i : Ctl) : Bool :=
  let u := ctlUses i.op
  (!u.1 && i.sd != 0) || (!u.2.1 && i.sa != 0) || (!u.2.2.1 && i.sb != 0) || (!u.2.2.2.1 && i.cond != 0)
    || (i.aux &&& (0xFF - u.2.2.2.2.1)) != 0 || (i.imm &&& (2 ^ 32 - 1 - u.2.2.2.2.2)) != 0
    || ((i.op == 0x82 || i.op == 0x83) && decide (8 < i.aux)) || decide (6 < i.cond)
    || (i.op == 0x87 && !sumKnown i.aux)
    || (i.op == 0x8C && decide (32 < bits i.imm 8 5 + bits i.imm 16 5 + 1))

/-- What a stream finds at its PC. -/
inductive Fetch where
  /-- The stream executes nothing. -/
  | none
  /-- The fetch fails with a status of R270; the opcode where one was fetched. -/
  | fail (status opc : Nat)
  /-- A control instruction. -/
  | ctl (i : Ctl)
  /-- An engine operation, by opcode. -/
  | eng (opc : Nat)
deriving DecidableEq, Repr

/-- Words of 64 bits that an engine operation takes. -/
def opSpan (opc : Nat) : Nat := opWords opc / 2

/-- A running stream's fetch. (DESIGN CHOICE, log 4, DESIGN CHOICE, log 13, DEDUCED, log 35) -/
def Core.fetch (k : Core) (f : StreamId) : Fetch :=
  let x := k.stream f
  match k.program with
  | none => .none
  | some p =>
    if x.phase ≠ .running ∨ k.power ≠ .on then .none
    else if x.pc < 8 + p.legCycle ∨ p.len ≤ x.pc then .fail 0x71 0
    else if mget false p.bad x.pc then .fail 0x74 0
    else
      let i := ctlOf (mget 0 p.words x.pc)
      let hasPre := !x.patches.isEmpty || x.onend.isSome
      if (engOf i.op).isSome then
        if p.len < x.pc + opSpan i.op then .fail 0x71 i.op
        else if (List.range (opSpan i.op)).any (fun j => mget false p.bad (x.pc + j)) then .fail 0x74 i.op
        else .eng i.op
      else if i.op < 0x80 ∨ 0x95 < i.op ∨ i.reserved ∨ (hasPre ∧ i.op ≠ 0x8B ∧ i.op ≠ 0x8C) then .fail 0x70 i.op
      else .ctl i

/-- A stream ended by a status that the sequencer raises (R270, R271); PROGRAM_ECC makes its core absent (R283). (DEDUCED, log 35) -/
def State.seqStop (s : State) (c : Nat) (f : StreamId) (status opc : Nat) : State :=
  let x := (s.core c).stream f
  let s1 := (s.updCore c (fun k => k.setStream f { x.fail status x.pc with waiting := none })).seqFault c f status opc x.pc
  if status = 0x74 then s1.absent c 6 else s1

/-! ### A stream's cycles (R263, R288) -/

/-- Whether a stream's next instruction may execute by the present cycle: each takes one (R263). A clock that is stopped brings
no later cycle. -/
def State.seqDue (s : State) (c : Nat) (f : StreamId) : Bool := decide (((s.core c).stream f).next ≤ s.cycles)

/-- The module in the cycle in which a stream's next instruction executes (R263). (DESIGN CHOICE, log 5) -/
def State.seqAt (s : State) (c : Nat) (f : StreamId) : State := s.toCycle ((s.core c).stream f).next

/-- Cycles of a wait before cycle `t` not counted yet. -/
def Stream.waited (x : Stream) (t : Nat) : Nat :=
  match x.waiting with
  | some w => t - w
  | none => 0

/-- The stream after an instruction of the present cycle, its 13-bit PC moved on, the instruction counted, and what it waited
counted at `ctr` (R262, R263, R288). -/
def State.seqDone (s : State) (c : Nat) (f : StreamId) (ctr pc : Nat) (g : Stream → Stream) : State :=
  s.updCore c (fun k =>
    (k.setStream f { g (k.stream f) with pc := pc % 8192, next := s.cycles + 1, waiting := none }).counts
      [(0x130, 1), (ctr, (k.stream f).waited s.cycles)])

/-- The stream after a control instruction. -/
def State.seqNext (s : State) (c : Nat) (f : StreamId) (pc : Nat) (g : Stream → Stream) : State := s.seqDone c f 0x148 pc g

/-- A stream that waits in the present cycle, the cycles of its wait counted at `ctr` (R263, R288). -/
def State.seqHold (s : State) (c : Nat) (f : StreamId) (ctr : Nat) : State :=
  s.updCore c (fun k =>
    let x := k.stream f
    (k.setStream f { x with next := s.cycles + 1, waiting := some (s.cycles + 1) }).count ctr (x.waited s.cycles + 1))

/-- Words of the instruction or operation at PC. -/
def Fetch.span : Fetch → Nat
  | .eng opc => opSpan opc
  | _ => 1

/-- Single-bit errors in the words that a stream fetches, each corrected and counted once (R283). -/
def Core.fetchFlips (k : Core) (f : StreamId) : Nat :=
  let x := k.stream f
  match k.program with
  | none => 0
  | some p =>
    if x.waiting.isSome then 0
    else ((List.range (k.fetch f).span).filter (fun j => mget false p.flip (x.pc + j))).length

/-- A stream's turn: it fetches in the cycle of its next instruction; a fetch that fails ends it, and `run` is what its
instruction does. (DESIGN CHOICE, log 5) -/
def State.seqTurn (s : State) (c : Nat) (f : StreamId) (run : State → Fetch → State) : State :=
  let t := s.seqAt c f
  let u := t.updCore c (fun k => k.count 0x160 (k.fetchFlips f))
  if !t.seqDue c f then s
  else
    match (s.core c).fetch f with
    | .none => s
    | .fail st opc => u.seqStop c f st opc
    | x => run u x

/-- A stream's instruction command: a fetch that fails ends the stream, whichever instruction was named; an instruction
of the opcode runs; any other leaves everything as it stands. (DESIGN CHOICE, log 3) -/
def State.seqCmd (s : State) (c : Nat) (f : StreamId) (op : Nat) (run : State → Ctl → Stream → State) : Out :=
  .next (s.seqTurn c f (fun t x => match x with
    | .ctl i => if i.op = op then run t i ((t.core c).stream f) else s
    | _ => s))

/-- A scalar register. -/
def Stream.reg (x : Stream) (i : Nat) : W64 := mget 0 x.regs i
/-- A scalar register set. -/
def Stream.setReg (x : Stream) (i : Nat) (v : W64) : Stream := { x with regs := mset 0 x.regs i v }

/-! ### Control instructions (R267) -/

/-- NOP. -/
def execNop (c : CoreIx) (f : StreamId) (s : State) : Out :=
  s.seqCmd c.val f 0x80 (fun s _ x => s.seqNext c.val f (x.pc + 1) id)

/-- MOVI: S[SD] = IMM. -/
def execMovi (c : CoreIx) (f : StreamId) (s : State) : Out :=
  s.seqCmd c.val f 0x81 (fun s i x => s.seqNext c.val f (x.pc + 1) (fun y => y.setReg i.sd i.value))

/-- The operations of ALU and ALUI. -/
def aluOp (op : Nat) (a b : W64) : W64 :=
  match op with
  | 0 => a + b
  | 1 => a - b
  | 2 => a &&& b
  | 3 => a ||| b
  | 4 => a ^^^ b
  | 5 => if 64 ≤ b.toNat then 0 else a <<< b.toNat
  | 6 => if 64 ≤ b.toNat then 0 else a >>> b.toNat
  | 7 => if a.toInt ≤ b.toInt then a else b
  | _ => if a.toInt ≤ b.toInt then b else a

/-- ALU: S[SD] = S[SA] op S[SB]. -/
def execAlu (c : CoreIx) (f : StreamId) (s : State) : Out :=
  s.seqCmd c.val f 0x82 (fun s i x => s.seqNext c.val f (x.pc + 1) (fun y => y.setReg i.sd (aluOp i.aux (x.reg i.sa) (x.reg i.sb))))

/-- ALUI: S[SD] = S[SA] op IMM. -/
def execAlui (c : CoreIx) (f : StreamId) (s : State) : Out :=
  s.seqCmd c.val f 0x83 (fun s i x => s.seqNext c.val f (x.pc + 1) (fun y => y.setReg i.sd (aluOp i.aux (x.reg i.sa) i.value)))

/-- A branch taken: a target at or beyond LEN_WORDS ends the stream (R267, R270). (DEDUCED, log 35) -/
def State.branch (s : State) (c : Nat) (f : StreamId) (i : Ctl) (g : Stream → Stream) : State :=
  let t := bits i.imm 0 13
  match (s.core c).program with
  | none => s
  | some p => if p.len ≤ t then s.seqStop c f 0x71 i.op else s.seqNext c f t g

/-- The conditions of BR (R266). -/
def brTaken (cond : Nat) (a b : W64) : Bool :=
  match cond with
  | 0 => true
  | 1 => a == b
  | 2 => a != b
  | 3 => decide (a.toInt < b.toInt)
  | 4 => decide (b.toInt ≤ a.toInt)
  | 5 => decide (a.toNat < b.toNat)
  | _ => decide (b.toNat ≤ a.toNat)

/-- BR. -/
def execBr (c : CoreIx) (f : StreamId) (s : State) : Out :=
  s.seqCmd c.val f 0x84 (fun s i x =>
    if brTaken i.cond (x.reg i.sa) (x.reg i.sb) then s.branch c.val f i id else s.seqNext c.val f (x.pc + 1) id)

/-- SETLC: LC[AUX] = IMM. -/
def execSetlc (c : CoreIx) (f : StreamId) (s : State) : Out :=
  s.seqCmd c.val f 0x85 (fun s i x => s.seqNext c.val f (x.pc + 1) (fun y => { y with lcs := mset 0 y.lcs i.aux (BitVec.ofNat 32 i.imm) }))

/-- LOOP: LC[AUX] = LC − 1, and a branch while it is not 0. -/
def execLoop (c : CoreIx) (f : StreamId) (s : State) : Out :=
  s.seqCmd c.val f 0x86 (fun s i x =>
    let v := mget 0 x.lcs i.aux - 1
    let set (y : Stream) : Stream := { y with lcs := mset 0 y.lcs i.aux v }
    if v ≠ 0 then s.branch c.val f i set else s.seqNext c.val f (x.pc + 1) set)

/-- Whether a stream has an operation on an engine that has not ended. -/
def Core.streamBusy (k : Core) (f : StreamId) (e : Eng) : Bool :=
  (k.queue e).any (fun o => o.stream == f) || (k.running e).any (fun r => r.op.stream == f)

/-- Whether a stream's most recent operation on an engine has not ended by the cycle before `t`. Operations end in order but
on the array, where a later one may end first (R263, R269). -/
def Core.latestBusy (k : Core) (f : StreamId) (e : Eng) (t : Nat) : Bool :=
  let from' := if e = .array then (k.stream f).sums.arrayOp else 0
  k.inCycle (endNote f e) t
    || (k.queue e ++ (k.running e).map (·.op)).any (fun o => o.stream == f && decide (from' ≤ o.id))

/-- The engine that a GETSUM identifier belongs to. -/
def sumEng (a : Nat) : Eng := if a = 0 then .array else if a < 0x20 then .merge else if a < 0x30 then .vec else if a < 0x40 then .row else .acc

/-- A summary by its identifier (R269). -/
def Sums.get (m : Sums) (a : Nat) : Nat :=
  if a = 0 then m.array else if a = 0x10 then m.merge else if a = 0x11 then m.mergeCount.toNat else if a = 0x12 then m.mergePos.toNat
  else if a = 0x20 then m.vec else if a < 0x27 then (nth 0 m.vs (a - 0x21)).toNat
  else if a = 0x30 then m.row else if a < 0x37 then (nth 0 m.rs (a - 0x31)).toNat
  else if a = 0x40 then m.acc else if a = 0x41 then m.auElements.toNat else m.auFault.toNat

/-- A cycle of a stream spent in GETSUM, WAITGE, SEMWAIT or FENCE (R288). (DEDUCED, log 34) -/
def State.syncWait (s : State) (c : Nat) (f : StreamId) : State := s.seqHold c f 0x148

/-- GETSUM (R269). (DEDUCED, log 35) -/
def execGetsum (c : CoreIx) (f : StreamId) (s : State) : Out :=
  s.seqCmd c.val f 0x87 (fun s i x =>
    if i.aux = 0x50 ∨ i.aux = 0x51 then
      s.seqNext c.val f (x.pc + 1) (fun y =>
        { y.setReg i.sd (BitVec.ofNat 64 (if i.aux = 0x50 then y.status else y.statusPc)) with status := 0, statusPc := 0 })
    else if (s.core c.val).latestBusy f (sumEng i.aux) s.cycles then s.syncWait c.val f
    else s.seqNext c.val f (x.pc + 1) (fun y => y.setReg i.sd (BitVec.ofNat 64 (y.sums.get i.aux))))

/-- GETFMT: CURRENT and SCALE_EXP of a Format Table entry. -/
def execGetfmt (c : CoreIx) (f : StreamId) (s : State) : Out :=
  s.seqCmd c.val f 0x88 (fun s i x =>
    let e := mget ({} : FmtEntry) s.fmt (bits i.imm 0 14)
    s.seqNext c.val f (x.pc + 1) (fun y => y.setReg i.sd (BitVec.ofNat 64 (at' e.current 0 2 + at' (unsgn e.scaleExp 56) 8 56))))

/-- GETTIME: the time base or the leg number. -/
def execGettime (c : CoreIx) (f : StreamId) (s : State) : Out :=
  s.seqCmd c.val f 0x89 (fun s i x =>
    s.seqNext c.val f (x.pc + 1) (fun y => y.setReg i.sd (BitVec.ofNat 64 (if i.aux = 0 then s.time.now else s.legNow))))

/-- SETSEED: SEED_LEG = S[SA][47:0]. -/
def execSetseed (c : CoreIx) (f : StreamId) (s : State) : Out :=
  s.seqCmd c.val f 0x8A (fun s i x => s.seqNext c.val f (x.pc + 1) (fun y => { y with seedLeg := (x.reg i.sa).toNat % 2 ^ 48 }))

/-- ONEND. A second one before one operation is illegal. -/
def execOnend (c : CoreIx) (f : StreamId) (s : State) : Out :=
  s.seqCmd c.val f 0x8B (fun s i x =>
    if x.onend.isSome then s.seqStop c.val f 0x70 i.op
    else s.seqNext c.val f (x.pc + 1) (fun y => { y with onend := some (i.aux, bits i.imm 0 16) }))

/-- PATCH. A fifth one before one operation is illegal. -/
def execPatch (c : CoreIx) (f : StreamId) (s : State) : Out :=
  s.seqCmd c.val f 0x8C (fun s i x =>
    if 4 ≤ x.patches.length then s.seqStop c.val f 0x70 i.op
    else
      let w := bits i.imm 16 5 + 1
      s.seqNext c.val f (x.pc + 1) (fun y =>
        { y with patches := y.patches ++ [({ word := bits i.imm 0 4, lsb := bits i.imm 8 5, w := w, val := (x.reg i.sa).toNat % 2 ^ w } : Patch)] }))

/-- CADD. -/
def execCadd (c : CoreIx) (f : StreamId) (s : State) : Out :=
  s.seqCmd c.val f 0x8D (fun s i x => (s.seqNext c.val f (x.pc + 1) id).updCore c.val (fun k => k.addCtr i.aux i.imm s.cycles))

/-- WAITGE, on the value at the end of the cycle before (R263). -/
def execWaitge (c : CoreIx) (f : StreamId) (s : State) : Out :=
  s.seqCmd c.val f 0x8E (fun s i x =>
    if i.imm ≤ ((s.core c.val).ctrAt i.aux s.cycles).toNat then s.seqNext c.val f (x.pc + 1) id else s.syncWait c.val f)

/-- SEMSIG (R267, R270). -/
def execSemsig (c : CoreIx) (f : StreamId) (s : State) : Out :=
  s.seqCmd c.val f 0x8F (fun s i x =>
    if mget 0 (s.core c.val).sems i.aux = 0xFFFF then s.seqStop c.val f 0x72 i.op
    else (s.seqNext c.val f (x.pc + 1) id).updCore c.val (fun k => k.signal i.aux s.cycles))

/-- The streams of a core. -/
def streams : List StreamId := [.fwd, .bwd, .upd]

/-- A requester's place in the rotation that begins at a pointer (R56). -/
def rankOf (ptr : Nat) (f : StreamId) : Nat := (strNum f + 3 - ptr) % 3

/-- Whether a stream waits at a SEMWAIT on a semaphore in cycle `t`. -/
def Core.wantsSem (k : Core) (i t : Nat) (f : StreamId) : Bool :=
  decide ((k.stream f).next ≤ t) && match k.fetch f with
    | .ctl x => x.op == 0x90 && x.aux == i
    | _ => false

/-- Streams that wait for a semaphore in cycle `t` and come before stream `f` in the rotation (R273). -/
def Core.semAhead (k : Core) (i t : Nat) (f : StreamId) : Nat :=
  let p := (k.semAt i t).ptr
  (streams.filter (fun g => g != f && k.wantsSem i t g && decide (rankOf p g < rankOf p f))).length

/-- SEMWAIT: the count at the end of the cycle before is granted to the waiting streams in rotation (R273). -/
def execSemwait (c : CoreIx) (f : StreamId) (s : State) : Out :=
  s.seqCmd c.val f 0x90 (fun s i x =>
    let k := s.core c.val
    let p := k.semAt i.aux s.cycles
    if p.avail ≤ k.semAhead i.aux s.cycles f then s.syncWait c.val f
    else (s.seqNext c.val f (x.pc + 1) id).updCore c.val (fun k => k.takeSem i.aux s.cycles (rankOf p.ptr f)))

/-- ARRIVE (R274). -/
def execArrive (c : CoreIx) (f : StreamId) (s : State) : Out :=
  s.seqCmd c.val f 0x91 (fun s i x =>
    let g := s.group i.aux
    if g.active && g.barrier && g.cores.contains c.val then
      (s.seqNext c.val f (x.pc + 1) id).updCore c.val (fun k =>
        { k with arrivals := mupd ({} : Arrivals) k.arrivals i.aux (fun a => { a with sems := a.sems ++ [bits i.imm 0 3] }) })
    else s.seqStop c.val f 0x73 i.op)

/-- One participant's signal of a completed round; a full semaphore stays and is reported (R274). (DEDUCED, log 75) -/
def State.roundSignal (s : State) (g c : Nat) : State :=
  let k := s.core c
  let a := mget ({} : Arrivals) k.arrivals g
  let i := nth 0 a.sems 0
  let v := mget 0 k.sems i
  let k1 := { k with arrivals := mset {} k.arrivals g { rounds := a.rounds + 1, sems := a.sems.drop 1 } }
  if v = 0xFFFF then (s.setCore c k1).faultMark (coreUnit c 5) 0x72 0
  else s.setCore c (k1.signal i s.cycles)

/-- BARRIER_ROUND: a round whose every participant on the module has arrived signals their semaphores (R274). (DEDUCED, log 75) -/
def execBarrierRound (g : GroupIx) (s : State) : Out :=
  let r := s.group g.val
  let all := r.active && r.barrier && !r.cores.isEmpty && r.cores.all (fun c => !(mget ({} : Arrivals) (s.core c).arrivals g.val).sems.isEmpty)
  happen all s (r.cores.foldl (fun t c => t.roundSignal g.val c) s)

/-- FENCE. -/
def execFence (c : CoreIx) (f : StreamId) (s : State) : Out :=
  s.seqCmd c.val f 0x92 (fun s _ x =>
    let k := s.core c.val
    if k.inCycle (anyEnd f) s.cycles || [Eng.array, .merge, .vec, .row, .acc].any (k.streamBusy f) then s.syncWait c.val f
    else s.seqNext c.val f (x.pc + 1) id)

/-- A named unit that is ON waits to shut down (R284). One to which an operation was issued in the same cycle stays ON: that was
first (R287). -/
def UnitSt.gate (u : UnitSt) (issued : Bool) : UnitSt := if u.st = .on ∧ !issued then { u with st := .gatePending, again := false } else u

/-- GATE (R284). -/
def execGate (c : CoreIx) (f : StreamId) (s : State) : Out :=
  s.seqCmd c.val f 0x93 (fun s i x =>
    let b (n : Nat) : Bool := i.aux.testBit n
    (s.seqNext c.val f (x.pc + 1) id).updCore c.val (fun k =>
      let now (e : Eng) : Bool := k.inCycle e.num s.cycles
      ({ k with
        uArray := if b 0 then k.uArray.gate (now .array) else k.uArray
        uMerge := if b 1 then k.uMerge.gate (now .merge) else k.uMerge
        uVec := if b 2 then k.uVec.gate (now .vec) else k.uVec
        uRow := if b 3 then k.uRow.gate (now .row) else k.uRow }).settleUnits s.cycles))

/-- ONSTATUS. -/
def execOnstatus (c : CoreIx) (f : StreamId) (s : State) : Out :=
  s.seqCmd c.val f 0x94 (fun s i x => s.seqNext c.val f (x.pc + 1) (fun y => { y with cont := i.aux == 1 }))

/-- LEG_END (R277). -/
def execLegEnd (c : CoreIx) (f : StreamId) (s : State) : Out :=
  s.seqCmd c.val f 0x95 (fun s _ x => s.seqNext c.val f (x.pc + 1) (fun y => { y with phase := .ended }))

/-! ### Issue (R264, R267, R284) -/

/-- A 32-bit word with a patch applied. -/
def patchWord (w : W32) (p : Patch) : W32 := BitVec.ofNat 32 (setBits w.toNat p.lsb p.w p.val)

/-- An operation's words as issued: patches in program order. -/
def patchWords (ws : List W32) (ps : List Patch) : List W32 :=
  ps.foldl (fun l p => l.zipIdx.map (fun q => if q.2 = p.word then patchWord q.1 p else q.1)) ws

/-- The 32-bit words of an inline operation. -/
def Program.opAt (p : Program) (pc opc : Nat) : List W32 :=
  (List.range (opSpan opc)).flatMap (fun j =>
    let w := (mget 0 p.words (pc + j)).toNat
    [BitVec.ofNat 32 (w % 2 ^ 32), BitVec.ofNat 32 (w / 2 ^ 32)])

/-- Whether an operation reads or writes the pot (R131): a skipped WGRAD takes no ticket (R127). -/
def Core.usesPot (k : Core) (o : Op) : Bool :=
  match o.opc with
  | 2 => o.f 0 10 2 == 1
  | 3 => o.f 0 10 2 == 1
  | 4 => !mget false k.flags (o.f 4 0 8)
  | 0x20 => o.f 0 18 2 == 1 || o.f 0 18 2 == 2
  | 0x24 => o.f 0 8 1 == 1
  | 0x30 => o.f 0 22 2 == 2
  | 0x31 => o.f 0 22 2 == 2
  | _ => false

/-- A unit when an operation is issued to it; a shut-down that begins only in the next cycle has not begun (R284, R286). (DEDUCED, log 19) -/
def UnitSt.wake (u : UnitSt) (now : Nat) : UnitSt :=
  match u.st with
  | .on => u
  | .gatePending => { u with st := .on }
  | .shuttingDown => if now < u.since then { u with st := .on } else { u with again := true }
  | .off => { u with st := .poweringUp, since := now }
  | .poweringUp => u

/-- An engine's unit when an operation is issued to it. (DEDUCED, log 19) -/
def Core.wake (k : Core) (e : Eng) (now : Nat) : Core :=
  match e with
  | .array => { k with uArray := k.uArray.wake now }
  | .merge => { k with uMerge := k.uMerge.wake now }
  | .vec => { k with uVec := k.uVec.wake now }
  | .row => { k with uRow := k.uRow.wake now }
  | .acc => k

/-- The operation at a stream's PC as it would be issued in cycle `t`, with its engine: none where there is none or a PATCH names
a word beyond it (R267, R268). -/
def Core.offered (k : Core) (f : StreamId) (t : Nat) : Option (Eng × Op) :=
  let x := k.stream f
  match k.fetch f, k.program with
  | .eng opc, some p =>
    if x.patches.any (fun q => decide (opWords opc ≤ q.word)) then none
    else
      let o : Op := { id := k.nextOp, stream := f, pc := x.pc, words := patchWords (p.opAt x.pc opc) x.patches, ticket := none, onend := x.onend, issued := t, seed := x.seedLeg }
      (engOf opc).map (fun e => (e, if k.usesPot o then { o with ticket := some k.potNext } else o))
  | _, _ => none

/-- What a stream requests in cycle `t`. -/
def Core.request (k : Core) (t : Nat) (f : StreamId) : Option (Eng × Op) := if (k.stream f).next ≤ t then k.offered f t else none

/-- The first requester in the rotation of an arbiter (R56). -/
def Core.rotate (k : Core) (arb : Nat) (wants : StreamId → Bool) : Option StreamId :=
  let p := mget 0 k.arb arb
  (sortBy (rankOf p) streams).find? wants

/-- The stream that a queue's arbiter chooses in cycle `t`: none for a full queue, and none after a grant of the cycle (R264). -/
def Core.chosen (k : Core) (t : Nat) (e : Eng) : Option StreamId :=
  if k.inCycle e.num t || k.queueFull e t then none
  else k.rotate e.num (fun f => match k.request t f with | some (e', _) => e' == e | none => false)

/-- Whether a stream is chosen by the arbiter of its queue in cycle `t` with an operation that takes a pot ticket. -/
def Core.chosenPot (k : Core) (t : Nat) (f : StreamId) : Bool :=
  match k.request t f with
  | some (e, o) => k.chosen t e == some f && o.ticket.isSome
  | none => false

/-- Whether the arbiters grant a stream's operation in cycle `t` (R264). -/
def Core.granted (k : Core) (t : Nat) (f : StreamId) (e : Eng) (o : Op) : Bool :=
  k.chosen t e == some f
    && (o.ticket.isNone || (!k.inCycle potArb t && k.rotate potArb (k.chosenPot t) == some f))

/-- An arbiter's grant in cycle `t`: its pointer moves past the stream (R56, R264). -/
def Core.grant (k : Core) (arb t : Nat) (f : StreamId) : Core :=
  { k.note arb t with arb := mset 0 k.arb arb ((strNum f + 1) % 3) }

/-- An operation in its engine's queue, issued in cycle `t` (R228, R264, R284). -/
def Core.issue (k : Core) (t : Nat) (f : StreamId) (e : Eng) (o : Op) : Core :=
  let k1 := ((k.setQueue e (k.queue e ++ [o])).wake e t).count 0x138 1
  let k2 := ({ k1 with nextOp := k.nextOp + 1, potNext := k.potNext + (if o.ticket.isSome then 1 else 0) }.grant e.num t f).notePair o
  if o.ticket.isSome then k2.grant potArb t f else k2

/-- ENGINE_OP_ISSUE: the operation at PC, patched, joins its engine's queue with its pot ticket; a full queue is waited
for, and a stream that the arbiters do not grant retries in the next cycle (R264, R267, R268). (DEDUCED, log 34) -/
def execEngineOpIssue (c : CoreIx) (f : StreamId) (s : State) : Out :=
  .next (s.seqTurn c.val f (fun t x =>
    match x with
    | .eng opc =>
      let k := t.core c.val
      match k.offered f t.cycles with
      | none => t.seqStop c.val f 0x70 opc
      | some (e, o) =>
        if k.granted t.cycles f e o then
          (t.updCore c.val (fun k => k.issue t.cycles f e o)).seqDone c.val f 0x140 (o.pc + opSpan opc)
            (fun y => { y with patches := [], onend := none })
        else t.seqHold c.val f 0x140
    | _ => s))

/-! ### Power transitions of units (R284, R286) -/

/-- The engine of a gated unit. -/
def unitEng : UnitId → Eng
  | .array => .array
  | .merge => .merge
  | .vec => .vec
  | .row => .row

/-- A gated unit of a core. -/
def Core.unit (k : Core) : UnitId → UnitSt
  | .array => k.uArray
  | .merge => k.uMerge
  | .vec => k.uVec
  | .row => k.uRow

/-- A gated unit replaced. -/
def Core.setUnit (k : Core) (u : UnitId) (x : UnitSt) : Core :=
  match u with
  | .array => { k with uArray := x }
  | .merge => { k with uMerge := x }
  | .vec => { k with uVec := x }
  | .row => { k with uRow := x }

/-- UNIT_SHUTDOWN_DONE: a unit that shuts down is OFF after its time, and powers up at once if an operation came
meanwhile (R284, R286). -/
def execUnitShutdownDone (c : CoreIx) (u : UnitId) (s : State) : Out :=
  let x := (s.core c.val).unit u
  let t := s.toCycle (x.since + (if u = .array then 256 else 96))
  happen (x.st == .shuttingDown) s
    (t.updCore c.val (fun k => k.setUnit u (if x.again then { st := .poweringUp, since := t.cycles, again := false } else { x with st := .off })))

/-- UNIT_POWER_UP_DONE: a unit that powers up is ON after its time; the cycles its operations waited count (R284). (DEDUCED, log 34) -/
def execUnitPowerUpDone (c : CoreIx) (u : UnitId) (s : State) : Out :=
  let x := (s.core c.val).unit u
  let t := s.toCycle (x.since + (if u = .array then 1024 else 384))
  happen (x.st == .poweringUp) s
    (t.updCore c.val (fun k =>
      (k.setUnit u { x with st := .on }).count 0x150 (((k.queue (unitEng u)).map (fun o => t.cycles - o.issued)).sum)))

end Sys2Proof.Machine
end

