-- ==== Sys2Proof/Machine/Links.lean ====
section
/-! DEFINITION. Links: their states and lanes, sync and link blocks, flits with retry, routes, and the transfers of the
link engine (12_links R314 to R337). -/

namespace Sys2Proof.Machine

/-! ### Coordinates and directions (R52, R317) -/

/-- A coordinate along a dimension: 0 X, 1 Y, 2 Z. -/
def coordAt (c : W16) (d : Nat) : Nat := bits c.toNat (10 - 5 * d) 5
/-- ASSIGNED. -/
def assigned (c : W16) : Bool := bit c.toNat 15

/-- The torus size in a dimension. -/
def LinkCtrl.size (x : LinkCtrl) (d : Nat) : Nat :=
  (if d = 0 then x.sizeX.toNat else if d = 1 then x.sizeY.toNat else x.sizeZ.toNat) + 1

/-- The steps along + from one coordinate to another round a ring. -/
def ringDist (n a b : Nat) : Nat := (b + n - a % n) % n

/-- The direction of a link between two assigned coordinates, 7 where the partner is no neighbour (R317). -/
def dirOf (x : LinkCtrl) (own partner : W16) (link pLink : Nat) : Nat :=
  let diff (d : Nat) : Nat := ringDist (x.size d) (coordAt own d) (coordAt partner d)
  match (List.range 3).filter (fun d => diff d != 0) with
  | [d] =>
    if x.size d = 2 then 2 * d + (if link < pLink then 0 else 1)
    else if diff d = 1 then 2 * d
    else if diff d = x.size d - 1 then 2 * d + 1
    else 7
  | _ => 7

/-! ### Link records -/

/-- A link's record. -/
def State.link (s : State) (l : Nat) : Link := mget {} s.lnk.links l

/-- The state with a link's record changed. -/
def State.updLink (s : State) (l : Nat) (f : Link → Link) : State :=
  { s with lnk := { s.lnk with links := mupd {} s.lnk.links l f } }

/-- Whether a link's die is joined to D0 (R437). -/
def State.dieJoined (s : State) (l : Nat) : Bool := !(mget ({} : DieEntry) s.plan.dies (l / 6)).cutOff

/-- A usable link: UP, on a die joined to D0 (R318, R437). -/
def State.linkUp (s : State) (l : Nat) : Bool := (s.link l).st == .up && s.dieJoined l

/-- A link that has reached TRAINING's alignment stage, on a die joined to D0 (R318, R327). (DEDUCED, log 33) -/
def State.linkAligned (s : State) (l : Nat) : Bool :=
  ((s.link l).st == .training || (s.link l).st == .up || (s.link l).st == .sparing) && s.dieJoined l

/-- A link that carries more than TIME and HALT blocks: usable, with a direction (R317, R318). -/
def State.carries (s : State) (l : Nat) : Bool := s.linkUp l && decide ((s.link l).dir < 6)

/-- What TIME blocks on a link said forgotten, and a parent over it lost (R46, R49). -/
def State.dropHeard (s : State) (l : Nat) : State :=
  let t := s.time
  let mine := match t.parent with | some p => p.val == l | none => false
  { s with time := { t with
    heard := mset {} t.heard l {}
    parent := if mine then none else t.parent
    synced := t.synced && !mine
    offset := if mine then 0 else t.offset } }

/-- Whether links train: from TRAIN on, with the rails up, and not in nor after a replay (R427, R484). -/
def State.linksTrain (s : State) : Bool :=
  (s.boot.st == .train || s.boot.st == .ready || s.boot.st == .cpReset) && s.power.railsOn
    && s.trace.replay != .feeding && s.trace.replay != .ended

/-- Whether a link's port can train: its lanes and its die. -/
def State.portGood (s : State) (l : Nat) : Bool :=
  s.dieJoined l && !s.power.shut.toNat.testBit (28 + l / 6)
    && decide (((List.range 5).filter (fun i => (mget ({} : LinkEntry) s.plan.links l).testBad.toNat.testBit i)).length < 2)

/-- The usable links of a direction, in ascending number (R328). -/
def State.dirLinks (s : State) (dir : Nat) : List Nat := (List.range 24).filter (fun l => s.linkUp l && (s.link l).dir == dir)

/-- A link's presence in the floor-plan record changed: its entry, GENERATION, REDUCED, and a FAULT waymark, whose payload
the spec does not give (R318). Before a record is valid only the entry changes. (DESIGN CHOICE, log 50, DEDUCED, log 51) -/
def State.linkUse (s : State) (l : Nat) (f : LinkEntry → LinkEntry) : State :=
  let old := mget ({} : LinkEntry) s.plan.links l
  let t := s.planChange (fun p => { p with links := mset {} p.links l (f old) })
  if s.plan.valid && (f old).usable != old.usable then
    let r := t.free64
    r.2.mark 0x12 0 0 (linkUnit l) r.1.toNat
  else t

/-! ### Sync and link blocks (R323 to R325) -/

/-- A sync block by its fields (R324). -/
structure Sync where
  kind : Nat
  group : Nat := 0
  cause : Nat := 0
  sub : Nat := 0
  hops : Nat × Nat × Nat := (0, 0, 0)
  origin : W16 := 0
  id : Nat := 0
  leg : Nat := 0
  value : Nat := 0
  founder : Nat := 0
deriving DecidableEq, Repr

/-- The first 28 bytes of a sync block. -/
def Sync.body (x : Sync) : Nat :=
  at' x.kind 60 4 + at' x.group 54 6 + at' x.cause 50 4 + at' x.sub 42 8 + at' x.hops.1 37 5 + at' x.hops.2.1 32 5
    + at' x.hops.2.2 27 5 + x.origin.toNat + at' x.id 112 16 + at' x.leg 64 48 + at' x.value 128 64 + at' x.founder 224 32

/-- The CRC of a 32-byte number whose CRC field at [223:192] reads as 0. -/
def blockCrc (n : Nat) : Nat := (crc32c (leBytes 32 (setBits n 192 32 0))).toNat

/-- A block with its CRC. -/
def Sync.block (x : Sync) : Block := BitVec.ofNat 256 (x.body + at' (blockCrc x.body) 192 32)

/-- The fields of a block received. -/
def syncOf (b : Block) : Sync :=
  let n := b.toNat
  { kind := bits n 60 4, group := bits n 54 6, cause := bits n 50 4, sub := bits n 42 8, hops := (bits n 37 5, bits n 32 5, bits n 27 5), origin := BitVec.ofNat 16 n, id := bits n 112 16, leg := bits n 64 48, value := bits n 128 64, founder := bits n 224 32 }

/-- Whether a block's CRC is good. -/
def blockGood (b : Block) : Bool := bits b.toNat 192 32 == blockCrc b.toNat

/-- The hops left in a dimension. -/
def Sync.hop (x : Sync) (d : Nat) : Nat := if d = 0 then x.hops.1 else if d = 1 then x.hops.2.1 else x.hops.2.2

/-- A block with the hops of a dimension set. -/
def Sync.setHop (x : Sync) (d v : Nat) : Sync :=
  { x with hops := (if d = 0 then v else x.hops.1, if d = 1 then v else x.hops.2.1, if d = 2 then v else x.hops.2.2) }

/-- A block sent in a direction: with no usable link there, the other way round the ring; with none at all, lost (R325). In a
replay nothing is transmitted (R486). (DEDUCED, log 48) -/
def State.sendDir (s : State) (dir : Nat) (x : Sync) : State :=
  if x.hop (dir / 2) = 0 ∨ s.feeding then s
  else if !(s.dirLinks dir).isEmpty then s.emit (.sync dir x.block)
  else
    let back := if dir % 2 = 0 then dir + 1 else dir - 1
    if !(s.dirLinks back).isEmpty then s.emit (.sync back (x.setHop (dir / 2) (s.lnk.ctrl.size (dir / 2) - 1)).block)
    else s

/-- A block sent both ways in a dimension, with the hops of each way. Where one way has no usable link its block goes the other
way round the ring; the two are then one block of the longer reach, since a second copy of a symbol is discarded (R323,
R325). (DEDUCED, log 48) -/
def State.sendBoth (s : State) (d : Nat) (x : Sync) (plus minus : Nat) : State :=
  let p := !(s.dirLinks (2 * d)).isEmpty
  let m := !(s.dirLinks (2 * d + 1)).isEmpty
  let far := s.lnk.ctrl.size d - 1
  if p && m then (s.sendDir (2 * d) (x.setHop d plus)).sendDir (2 * d + 1) (x.setHop d minus)
  else if p then s.sendDir (2 * d) (x.setHop d (if minus = 0 then plus else max plus far))
  else s.sendDir (2 * d + 1) (x.setHop d (if plus = 0 then minus else max minus far))

/-- A block of a symbol forwarded, one hop off the dimension of arrival: onward there, and into every later dimension (R325). (DEDUCED, log 48) -/
def State.forward (s : State) (l : Nat) (x : Sync) : State :=
  let dir := (s.link l).dir
  if 6 ≤ dir then s
  else
    let d := dir / 2
    let onward := if dir % 2 = 0 then dir + 1 else dir - 1
    let y := x.setHop d (x.hop d - 1)
    ((List.range 3).filter (fun e => d < e)).foldl (fun t e => t.sendBoth e y (y.hop e) (y.hop e)) (s.sendDir onward y)

/-- The hops from this module to the far edges of a box, along + and − of a dimension: `lo` the box's first coordinate,
`n` its extent. -/
def State.edges (s : State) (d lo n : Nat) : Nat × Nat :=
  let k := ringDist (s.lnk.ctrl.size d) lo (coordAt s.coord d)
  (n - 1 - k, k)

/-- A symbol originated into a box, in all six directions (R325). A block turns into a later dimension with the larger of
the distances to that dimension's two edges, since one field serves both ways. (DEDUCED, log 48) -/
def State.originate (s : State) (lo n : Nat → Nat) (x : Sync) : State :=
  let y := { x with origin := s.coord, id := s.lnk.symbolId }
  let s1 := { s with lnk := { s.lnk with symbolId := (s.lnk.symbolId + 1) % 65536 } }
  (List.range 3).foldl (fun t d =>
    let e := s.edges d (lo d) (n d)
    let z := (List.range 3).foldl (fun w j =>
      let f := s.edges j (lo j) (n j)
      w.setHop j (if d < j then max f.1 f.2 else 0)) y
    t.sendBoth d z e.1 e.2) s1

/-- A copy of a block received on a link that carries it: a bad or repeated copy is discarded and counted; a first good one is
taken and captured (R317, R323, R479). (DEDUCED, log 52) -/
def State.syncIn (s : State) (l : Nat) (b : Block) : Option (Sync × State) :=
  let x := syncOf b
  if !s.carries l || !blockGood b || s.lnk.seen.contains (x.origin, x.id) then none
  else
    let seen := if s.lnk.seen.length ≥ 4096 then s.lnk.seen.drop 1 else s.lnk.seen
    let s1 := s.captureIn 5 l 0 b.toNat []
    some (x, { s1 with lnk := { s1.lnk with seen := seen ++ [(x.origin, x.id)] } })

/-- A copy discarded (R336). On a link that carries no such block there is none to discard. -/
def State.syncLost (s : State) (l : Nat) : State :=
  if s.carries l then s.updLink l (fun k => { k with lostCopies := sat 32 (k.lostCopies + 1) }) else s

/-- A link block of the module's own: ACK 7, NAK 8 (R321). The credits it grants are free: the spec gives their layout
nowhere. (DEDUCED, log 47) -/
def State.linkBlock (s : State) (l kind seq : Nat) : State :=
  let r := s.free32
  let x : Sync := { kind := kind, origin := s.coord, id := s.lnk.symbolId, value := at' seq 32 12 + r.1.toNat }
  { r.2 with lnk := { r.2.lnk with symbolId := (s.lnk.symbolId + 1) % 65536 } }.emit (.linkBlock l x.block)

/-! ### Flits (R320 to R322) -/

/-- A field of a flit header. -/
def hf (h : Block) (off lo w : Nat) : Nat := fld h.toNat off lo w

/-- A flit header by its fields (R320). -/
structure Hdr where
  time : Nat
  cls : Nat
  vc : Nat
  len16 : Nat
  dest : W16
  src : W16
  tag : Nat
  no : Nat
  status : Nat
  flits : Nat
  dst : Nat
  signal : Nat
deriving DecidableEq, Repr

/-- The header's fields but LSEQ and CRC. -/
def hdrOf (h : Block) : Hdr :=
  { time := hf h 0 24 40, cls := hf h 0 10 2, vc := hf h 0 9 1, len16 := hf h 0 3 5, dest := BitVec.ofNat 16 (hf h 8 48 16), src := BitVec.ofNat 16 (hf h 8 32 16), tag := hf h 8 20 12, no := hf h 8 4 16, status := hf h 8 0 4, flits := hf h 0x10 48 16 + 1, dst := hf h 0x10 0 43, signal := hf h 0x18 32 32 }

/-- The header with a link sequence number, its CRC still 0. -/
def Hdr.raw (x : Hdr) (lseq : Nat) : Nat :=
  at' x.time 24 40 + at' lseq 12 12 + at' x.cls 10 2 + at' x.vc 9 1 + at' x.len16 3 5 + at' x.dest.toNat 112 16 + at' x.src.toNat 96 16
    + at' x.tag 84 12 + at' x.no 68 16 + at' x.status 64 4 + at' (x.flits - 1) 176 16 + at' x.dst 128 43 + at' x.signal 224 32

/-- The CRC of a flit (R320). -/
def flitCrc (h : Nat) (p : List PWord) : Nat :=
  (crc32c (leBytes 32 (setBits h 192 32 0) ++ p.flatMap (fun w => leBytes 4 w.1.toNat))).toNat

/-- A header sealed with its CRC. -/
def sealFlit (h : Nat) (p : List PWord) : Block := BitVec.ofNat 256 (setBits h 192 32 (flitCrc h p))

/-- Whether a flit arrived whole: its CRC, and a payload of the length it names. -/
def flitGood (h : Block) (p : List PWord) : Bool :=
  hf h 0x18 0 32 == flitCrc h.toNat p && p.length == 4 * hf h 0 3 5

/-- The order in which a transmitter grants a flit: its class first, then the rotating requester, then the rotating send
queue (R322). -/
def TxFlit.rank (f : TxFlit) (rr qrr : Nat) : Nat :=
  (if hf f.header 0 10 2 = 1 then 0 else 192) + (f.source + 3 - rr) % 3 * 64 + (if f.source = 1 then (f.queue + 64 - qrr) % 64 else 0)

/-- The flow that a flit's credits belong to: its class and virtual channel (R322). -/
def TxFlit.flow (f : TxFlit) : Nat := 2 * hf f.header 0 10 2 + hf f.header 0 9 1

/-- Whether a flit has a credit at a link (R322). -/
def Link.credited (k : Link) (f : TxFlit) : Bool := decide (0 < nth 0 k.credit f.flow)

/-- The header a flit leaves with: the originator stamps TIME at its send; a flit in transit keeps its own (R320). -/
def TxFlit.stamp (f : TxFlit) (now : Nat) : Hdr :=
  if f.source = 0 then hdrOf f.header else { hdrOf f.header with time := now % 2 ^ 40 }

/-- One flit sent, where one waits with a credit and the retry buffer of 512 has room; it spends the credit (R321, R322). (DESIGN CHOICE, log 6, DEDUCED, log 47) -/
def State.sendOne (s : State) (l : Nat) : State :=
  let k := s.link l
  if k.st ≠ .up ∨ 512 ≤ k.unacked.length then s
  else
    let best := minOf ((k.waiting.filter k.credited).map (fun f => f.rank k.rr k.qrr))
    match takeFirst (fun f : TxFlit => k.credited f && f.rank k.rr k.qrr == best) k.waiting with
    | none => s
    | some (f, rest) =>
      let h := sealFlit ((f.stamp s.time.now).raw k.txSeq) f.payload
      (s.updLink l (fun k => { k with
        waiting := rest
        credit := setAt k.credit f.flow (nth 0 k.credit f.flow - 1)
        unacked := k.unacked ++ [{ f with header := h }]
        txSeq := (k.txSeq + 1) % 4096
        rr := (f.source + 1) % 3
        qrr := if f.source = 1 then (f.queue + 1) % 64 else k.qrr })).emit (.flit l h f.payload)

/-- Every flit sent that may be. -/
def State.pump (s : State) (l : Nat) : State := iter (s.link l).waiting.length (fun _ t => t.sendOne l) s

/-- The usable link that a flit takes in a direction, or the other way round its ring (R328). -/
def State.pick (s : State) (dir : Nat) (x : Hdr) : Option (Nat × Nat) :=
  let choose (d : Nat) : Option (Nat × Nat) :=
    match s.dirLinks d with
    | [] => none
    | l :: r => some (if x.cls = 1 then l else nth l (l :: r) (x.no % (r.length + 1)), d)
  match choose dir with
  | some q => some q
  | none => choose (if dir % 2 = 0 then dir + 1 else dir - 1)

/-- The direction in which a flit leaves for a coordinate: the first dimension not finished, the way it already travels
there, else the shorter way, + when both are equal (R328). (DEDUCED, log 48) -/
def State.heading (s : State) (dest : W16) (travel : Option Nat) : Option Nat :=
  match (List.range 3).find? (fun d => coordAt s.coord d != coordAt dest d) with
  | none => none
  | some d =>
    match travel with
    | some t => if t / 2 = d then some t else some (2 * d + (if 2 * ringDist (s.lnk.ctrl.size d) (coordAt s.coord d) (coordAt dest d) ≤ s.lnk.ctrl.size d then 0 else 1))
    | none => some (2 * d + (if 2 * ringDist (s.lnk.ctrl.size d) (coordAt s.coord d) (coordAt dest d) ≤ s.lnk.ctrl.size d then 0 else 1))

/-- VC on leaving in a direction: 1 across the dateline, 0 on entering a dimension (R322). -/
def State.vcOut (s : State) (vc dir : Nat) (turned : Bool) : Nat :=
  let x := coordAt s.coord (dir / 2)
  if (if dir % 2 = 0 then x == s.lnk.ctrl.size (dir / 2) - 1 else x == 0) then 1 else if turned then 0 else vc

/-- A flit offered to the links of a direction; none when no link of its ring is usable. In a replay it is discarded (R486). -/
def State.offer (s : State) (dir : Nat) (turned : Bool) (f : TxFlit) : Option State :=
  let x := hdrOf f.header
  if s.feeding then some s
  else
  match s.pick dir x with
  | none => none
  | some (l, d) =>
    let g := { f with header := BitVec.ofNat 256 ({ x with vc := s.vcOut x.vc d turned }.raw 0) }
    some ((s.updLink l (fun k => { k with waiting := k.waiting ++ [g] })).pump l)

/-! ### Transfers (R329 to R332) -/

/-- The FAULT waymark of a transfer's end (R331). (DESIGN CHOICE, log 50) -/
def State.xferFault (s : State) (unit status : Nat) (dest : W16) (no : Nat) : State :=
  s.faultMark unit status (at' dest.toNat 32 16 + at' no 0 16)

/-- A link port that the spec leaves open, where no port had a part in a transfer's end. (DESIGN CHOICE, log 50) -/
def State.anyPort (s : State) : Nat × State := let r := s.free32; (linkUnit (r.1.toNat % 24), r.2)

/-- A counter of a core added to, where the core is usable and powered. -/
def State.addCounter (s : State) (c i n : Nat) : State :=
  if s.coreOk c && (s.core c).power == .on then s.updCore c (fun k => k.addCtr i n s.cycles) else s

/-- A field of a post (R330). -/
def pf (p : Line) (off lo w : Nat) : Nat := fld p.toNat off lo w

/-- A sender's transfer ended: DONE_ADD on an OK, FAIL_CTR on a failure (R331). -/
def State.xferEnd (s : State) (x : Xfer) (ok : Bool) : State :=
  let s1 := { s with lnk := { s.lnk with xfers := s.lnk.xfers.filter (fun y => !(y.queue == x.queue && y.count == x.count)) } }
  match coreOfUnit (pf x.post 0x18 48 16) with
  | none => s1
  | some c =>
    if ok then (if pf x.post 0x10 0 12 = 0 then s1 else s1.addCounter c (pf x.post 0x10 28 4) (pf x.post 0x10 0 12))
    else if pf x.post 0x10 23 1 = 1 then s1.addCounter c (pf x.post 0x10 24 4) 1
    else s1

/-- The open transfer of a tag. -/
def State.xferOf (s : State) (tag : Nat) : Option Xfer := s.lnk.xfers.find? (fun x => x.queue == tag / 64 && x.count == tag % 64)

/-- A DONE flit sent to a transfer's originator (R331). Its fields that R320 gives no meaning for a DONE are 0. (DEDUCED, log 49) -/
def State.sendDone (s : State) (dest : W16) (tag status : Nat) : State :=
  let x : Hdr := { time := s.time.now, cls := 1, vc := 0, len16 := 0, dest := dest, src := s.coord, tag := tag, no := 0, status := status, flits := 1, dst := 0, signal := 0 }
  match s.heading dest none with
  | none => s
  | some d =>
    match s.offer d true { header := BitVec.ofNat 256 (x.raw 0), payload := [], source := 2, queue := 0 } with
    | some t => t
    | none => let r := s.anyPort; r.2.xferFault r.1 0x79 dest 0

/-- A flit dropped because neither way of its ring has a usable link (R328): its transfer ends with ROUTE_FAULT. (DEDUCED, log 48) -/
def State.routeFault (s : State) (f : TxFlit) : State :=
  let x := hdrOf f.header
  let own := x.src == s.coord && x.cls == 0
  let r := s.anyPort
  if own then
    match s.xferOf x.tag with
    | none => s
    | some y => (r.2.xferFault r.1 0x79 x.dest x.no).xferEnd y false
  else
    let t := r.2.xferFault r.1 0x79 x.dest x.no
    if x.cls = 0 then t.sendDone x.src x.tag 9 else t

/-- Flits sent again or onward in a direction. -/
def State.resend (s : State) (dir : Nat) (fs : List TxFlit) : State :=
  fs.foldl (fun t f => match t.offer dir false f with | some u => u | none => t.routeFault f) s

/-- A link leaves UP for a state: its flits in flight go to the other links of its direction (R337). -/
def State.linkLeave (s : State) (l : Nat) (st : LState) (f : LinkEntry → LinkEntry) : State :=
  let k := s.link l
  let s1 := (s.updLink l (fun k => { k with st := st, unacked := [], waiting := [], sinceAck := 0, oldestGood := none })).dropHeard l
  let s2 := if k.st = .up ∨ st = .up then s1.linkUse l f else s1
  if k.dir < 6 then s2.resend k.dir (k.unacked ++ k.waiting) else s2

/-- An entry no longer usable. -/
def unusable (e : LinkEntry) : LinkEntry := { e with usable := false }

/-- A remote signal applied in a leg of a group that its core has joined, else lost (R331, R332). (DEDUCED, log 49) -/
def State.remoteSignal (s : State) (unit sig : Nat) (no : Nat) : State :=
  let add := bits sig 0 12
  if add = 0 then s
  else
    match coreOfUnit (bits sig 16 16) with
    | none => s.xferFault unit 0x7F s.coord no
    | some c =>
      if s.coreOk c && (s.core c).power == .on && s.groups.any (fun p => p.2.legActive && p.2.cores.contains c) then
        s.updCore c (fun k => k.addCtr (bits sig 12 4) add s.cycles)
      else s.xferFault unit 0x7F s.coord no

/-- A DATA flit written through the receiver's page table; what its transfer answers with a DONE, if anything (R331). (DEDUCED, log 49, DEDUCED, log 52) -/
def State.rxFlit (s : State) (unit : Nat) (x : Hdr) (p : List PWord) : State × Option Nat :=
  let key (y : RxXfer) : Bool := y.src == x.src && y.tag == x.tag
  let old : RxXfer := (s.lnk.rx.find? key).getD { src := x.src, tag := x.tag, flits := x.flits, got := [], status := 0, signal := BitVec.ofNat 32 x.signal }
  if old.got.contains x.no then (s, none)
  else
    let ds := p.flatMap bytesOf
    let ps := linePieces (ds.length / 64 + 2) x.dst ds.length
    let bad := ps.any (fun q => match s.xlate q.1 .plain with | .inl _ => true | .inr (t, _) => t == 2)
    let s1 := if old.status ≠ 0 ∨ bad then s
      else ps.foldl (fun t q => match t.vaWrite q.1 ((ds.drop (q.1 - x.dst)).take q.2) with | .inl _ => t | .inr u => u) s
    let y := { old with got := old.got ++ [x.no], status := if old.status = 0 ∧ bad then 0x7B else old.status }
    let all := decide (y.flits ≤ y.got.length)
    let rest := s1.lnk.rx.filter (fun z => !key z)
    let s2 := { s1 with lnk := { s1.lnk with rx := if all then rest else rest ++ [y] } }
    if old.status = 0 ∧ bad then (s2.xferFault unit 0x7B x.dest x.no, some 0xB)
    else if all ∧ y.status = 0 then (s2.remoteSignal unit y.signal.toNat x.no, some 0)
    else (s2, none)

/-- The DATA flits of a post: (header, payload) (R331). -/
def State.postFlits (s : State) (x : Xfer) (ds : List PByte) : List (Hdr × List PWord) :=
  let n := cdiv ds.length 480
  (List.range n).map (fun f =>
    let ws := wordsOf ((ds.drop (480 * f)).take 480)
    ({ time := s.time.now, cls := 0, vc := 0, len16 := ws.length / 4, dest := BitVec.ofNat 16 (pf x.post 0 48 16), src := s.coord, tag := 64 * x.queue + x.count, no := f, status := 0, flits := n, dst := pf x.post 8 0 43 + 480 * f, signal := pf x.post 0x10 32 32 }, ws))

/-- Whether R329 and R330 refuse a post. -/
def postBad (p : Line) : Bool :=
  pf p 0 43 5 != 0 || pf p 8 43 2 != 0 || pf p 0x10 12 11 != 0 || pf p 0x18 0 48 != 0 || p.toNat / 2 ^ 256 != 0
    || pf p 8 45 19 == 0 || decide (262144 < pf p 8 45 19) || pf p 0 63 1 == 0 || pf p 0 0 6 != 0 || pf p 8 0 6 != 0

/-- The source lines of a post, or the first that fails its check. (DEDUCED, log 49) -/
def State.postRead (s : State) (va n : Nat) : Sum Nat (List PByte) :=
  (List.range n).foldl (fun q j =>
    match q with
    | .inl e => .inl e
    | .inr ds => match s.vaRead (va + 64 * j) 64 with
      | .inl _ => .inl j
      | .inr l => .inr (ds ++ l)) (.inr [])

/-- A transfer's flits sent, or delivered within the module (R330, R331). (DEDUCED, log 49) -/
def State.runXfer (s : State) (x : Xfer) (ds : List PByte) : State :=
  let dest : W16 := BitVec.ofNat 16 (pf x.post 0 48 16)
  let fs := s.postFlits x ds
  if dest = s.coord then
    let port := s.anyPort
    fs.foldl (fun t f =>
      let r := t.rxFlit port.1 f.1 f.2
      match r.2 with
      | none => r.1
      | some st => r.1.xferEnd x (st == 0)) port.2
  else
    match s.heading dest none with
    | none => let r := s.anyPort; (r.2.xferFault r.1 0x79 dest 0).xferEnd x false
    | some d =>
      fs.foldl (fun t f =>
        let g : TxFlit := { header := BitVec.ofNat 256 (f.1.raw 0), payload := f.2, source := 1, queue := x.queue }
        match t.offer d true g with
        | some u => u
        | none => t.routeFault g) s

/-- POST: the link engine takes the oldest post whose send queue has room (R329 to R331). (DEDUCED, log 49) -/
def execPost (s : State) : Out :=
  let room (q : LineWrite) : Bool :=
    decide ((s.lnk.xfers.filter (fun x => x.queue == q.queue)).length < 64)
      && (match q.line with | some p => decide (BitVec.ofNat 16 (pf p 0 48 16) ≠ s.coord) || decide (s.lnk.rx.length < 4096) | none => true)
  match takeFirst room s.lnk.postLines with
  | none => .next s
  | some (w, rest) =>
    let k := w.queue
    let s1 := { s with lnk := { s.lnk with postLines := rest } }.lineIn w
    let port := s1.anyPort
    match w.line with
    | none => let r := port.2.free32; .next (r.2.xferFault port.1 0x78 (BitVec.ofNat 16 r.1.toNat) (r.1.toNat / 65536))
    | some p =>
      let cnt := mget 0 s.lnk.posts k
      let x : Xfer := { queue := k, count := cnt, post := p }
      let s2 := { s1 with lnk := { s1.lnk with posts := mset 0 s1.lnk.posts k ((cnt + 1) % 64), xfers := s1.lnk.xfers ++ [x] } }
      let dest : W16 := BitVec.ofNat 16 (pf p 0 48 16)
      if postBad p then
        let r := { s2 with freeIx := port.2.freeIx }.free32
        .next ((r.2.xferFault port.1 0x78 dest r.1.toNat).xferEnd x false)
      else
        match s2.postRead (pf p 0 0 43) (pf p 8 45 19) with
        | .inl j => .next (({ s2 with freeIx := port.2.freeIx }.xferFault port.1 0x7A dest (64 * j / 480)).xferEnd x false)
        | .inr ds => .next (s2.runXfer x ds)

/-- The flits of some transfers that wait at this module's transmitters dropped (R44, R337). -/
def State.dropFlits (s : State) (xs : List Xfer) : State :=
  let mine (f : TxFlit) : Bool := f.source == 1 && xs.any (fun x => hf f.header 8 20 12 == 64 * x.queue + x.count)
  { s with lnk := { s.lnk with links := mmap {} (fun _ k => { k with waiting := k.waiting.filter (fun f => !mine f) }) s.lnk.links } }

/-- Open transfers of posting cores ended with LINK_ABORT (R337). -/
def State.abortXfers (s : State) (p : Xfer → Bool) : State :=
  (s.lnk.xfers.filter p).foldl (fun t x =>
    let r := t.anyPort
    let q := r.2.free32
    (q.2.xferFault r.1 0x7C (BitVec.ofNat 16 (pf x.post 0 48 16)) q.1.toNat).xferEnd x false) s

/-! ### Flits received (R321, R328, R331) -/

/-- An acknowledgement due after 64 good flits (R321). -/
def State.goodFlit (s : State) (l : Nat) : State :=
  let k := s.link l
  let n := k.sinceAck + 1
  let next := (k.rxSeq + 1) % 4096
  if n = 64 then (s.updLink l (fun k => { k with rxSeq := next, sinceAck := 0, oldestGood := none })).linkBlock l 7 k.rxSeq
  else s.updLink l (fun k => { k with rxSeq := next, sinceAck := n, oldestGood := if k.oldestGood.isNone then some s.time.now else k.oldestGood })

/-- A flit sent onward on behalf of another module. (DEDUCED, log 48) -/
def State.transit (s : State) (l : Nat) (h : Block) (p : List PWord) : State :=
  let x := hdrOf h
  let arr := (s.link l).dir
  let travel := if arr % 2 = 0 then arr + 1 else arr - 1
  let f : TxFlit := { header := h, payload := p, source := 0, queue := 0 }
  match s.heading x.dest (if arr < 6 then some travel else none) with
  | none => s
  | some d =>
    match s.offer d (d / 2 != travel / 2) f with
    | some t => t
    | none => s.routeFault f

/-- The 64-bit time of a header's TIME[39:0]: the value nearest this module's own time (R54). -/
def extendShort (now low : Nat) : Nat :=
  let c := now / 2 ^ 40 * 2 ^ 40 + low % 2 ^ 40
  if c + 2 ^ 39 < now then c + 2 ^ 40 else if now + 2 ^ 39 < c ∧ 2 ^ 40 ≤ c then c - 2 ^ 40 else c

/-- A good flit taken: sent onward, or delivered to this module (R328, R331). -/
def State.flitTaken (s : State) (l cls : Nat) (h : Block) (p : List PWord) : State :=
  let x := hdrOf h
  if x.dest ≠ s.coord then s.transit l h p
  else if cls = 0 then
    let r := s.rxFlit (linkUnit l) x p
    match r.2 with
    | none => r.1
    | some st => r.1.sendDone x.src x.tag st
  else
    match s.xferOf x.tag with
    | none => s
    | some y => s.xferEnd y (x.status == 0)

/-- Whether the receiver can take a DATA flit for this module: its transfer is tracked, or one more may be (R331, R337). -/
def State.rxRoom (s : State) (h : Block) : Bool :=
  let x := hdrOf h
  decide (s.lnk.rx.length < 4096) || s.lnk.rx.any (fun y => y.src == x.src && y.tag == x.tag)

/-- The first flits of transfers that wait for the context table taken, as far as it has room (R337). -/
def State.takeHeld (s : State) : State :=
  iter s.lnk.rxHeld.length (fun _ t =>
    match t.lnk.rxHeld with
    | [] => t
    | (l, h, p) :: r => if t.rxRoom h then ({ t with lnk := { t.lnk with rxHeld := r } } : State).flitTaken l 0 h p else t) s

/-- What the FEC found in a flit's codewords, counted: symbols corrected, or a codeword beyond correction (R321, R336). (DESIGN CHOICE, log 8) -/
def State.fecSeen (s : State) (l : Nat) (fec : Option Nat) : State :=
  s.updLink l (fun k => match fec with
    | some n => { k with fecCorrected := sat 64 (k.fecCorrected + n) }
    | none => { k with uncorrectable := sat 32 (k.uncorrectable + 1) })

/-- A flit of a class received on a link: bad or out of order, it is discarded and a NAK names the sequence expected;
good, it is counted, captured, its TIME extended to 64 bits (R54), and delivered or sent onward. The first flit of a transfer
waits while 4,096 are tracked (R337). (DESIGN CHOICE, log 8, DEDUCED, log 47) -/
def State.flitIn (s0 : State) (l cls : Nat) (h : Block) (p : List PWord) (fec : Option Nat) : State :=
  let k := s0.link l
  let s := s0.fecSeen l fec
  if !s0.carries l then s0
  else if fec.isNone ∨ !flitGood h p ∨ hf h 0 12 12 ≠ k.rxSeq then s.linkBlock l 8 k.rxSeq
  else
    let x := hdrOf h
    if x.cls ≠ cls then s0
    else
      let bytes := leBytes 32 h.toNat ++ p.flatMap (fun w => leBytes 4 w.1.toNat)
      let s1 := (if cls = 0 then s.captureIn 4 l 0 0 ((List.range 8).map (fun i => bytesLine ((bytes.drop (64 * i)).take 64)))
        else s.captureIn 4 l 0 h.toNat []).goodFlit l
      let s2 := s1.updLink l (fun q => { q with stamp := some (extendShort s.time.now x.time) })
      if cls = 0 ∧ x.dest = s.coord ∧ !s2.rxRoom h then { s2 with lnk := { s2.lnk with rxHeld := s2.lnk.rxHeld ++ [(l, h, p)] } }
      else (s2.flitTaken l cls h p).takeHeld

/-- DATA_FLIT: a flit arrives (R320, R321, R331). (DESIGN CHOICE, log 8) -/
def execDataFlit (l : LinkIx) (h : Block) (p : List PWord) (fec : Option Nat) (s : State) : Out := .next (s.flitIn l.val 0 h p fec)

/-- DONE: a DONE flit arrives (R331). (DESIGN CHOICE, log 8) -/
def execDone (l : LinkIx) (h : Block) (fec : Option Nat) (s : State) : Out := .next (s.flitIn l.val 1 h [] fec)

/-- Flits of the retry buffer up to a sequence number. -/
def ackThrough (seq : Nat) (fs : List TxFlit) : List TxFlit :=
  if fs.any (fun f => hf f.header 0 12 12 == seq) then (fs.dropWhile (fun f => hf f.header 0 12 12 != seq)).drop 1 else fs

/-- The credits of a link block granted: the spec gives their layout nowhere (R321, R322). (DEDUCED, log 47) -/
def Link.grant (k : Link) (w : W32) : Link :=
  { k with credits := w, credit := (List.range 4).map (fun i => nth 0 k.credit i + Config.creditGrant w i) }

/-- ACK: flits acknowledged leave the retry buffer, and waiting ones follow (R321). -/
def execAck (l : LinkIx) (b : Block) (s : State) : Out :=
  if !blockGood b then .next (s.syncLost l.val)
  else
    let x := syncOf b
    happen (x.kind == 7 && s.carries l.val) s
      ((s.updLink l.val (fun k =>
        let left := ackThrough (bits x.value 32 12) k.unacked
        { k.grant (BitVec.ofNat 32 x.value) with
          unacked := left, sameNaks := if left.any (fun f => hf f.header 0 12 12 == k.lastNak) then k.sameNaks else 0 })).pump l.val)

/-- NAK: the flits from the one named are sent again; past eight retries of one flit the link goes DOWN (R321). -/
def execNak (l : LinkIx) (b : Block) (s : State) : Out :=
  if !blockGood b then .next (s.syncLost l.val)
  else
    let x := syncOf b
    let seq := bits x.value 32 12
    let k := s.link l.val
    let n := if k.lastNak = seq ∧ k.sameNaks ≠ 0 then k.sameNaks + 1 else 1
    let fs := k.unacked.dropWhile (fun f => hf f.header 0 12 12 != seq)
    if x.kind ≠ 8 ∨ !s.carries l.val ∨ fs.isEmpty then .next s
    else if 8 < n then .next ((s.updLink l.val (fun k => { k with sameNaks := 0 })).linkLeave l.val .down unusable)
    else
      let s1 := s.updLink l.val (fun k => { k.grant (BitVec.ofNat 32 x.value) with lastNak := seq, sameNaks := n, retries := sat 32 (k.retries + fs.length) })
      .next (fs.foldl (fun t f => t.emit (.flit l.val f.header f.payload)) s1)

/-- ACK_TIMER: 200 ns after the oldest good flit not yet acknowledged, an ACK is sent (R321). -/
def execAckTimer (l : LinkIx) (s : State) : Out :=
  match (if s.carries l.val then (s.link l.val).oldestGood else none) with
  | none => .next s
  | some t =>
    let s1 := s.toTime (t + 200)
    .next ((s1.updLink l.val (fun k => { k with sinceAck := 0, oldestGood := none })).linkBlock l.val 7 (((s.link l.val).rxSeq + 4095) % 4096))

/-! ### Link states (R316 to R319) -/

/-- The direction of a link recomputed. A link between assigned coordinates that are no neighbours is a cabling fault, recorded
once; what waited on a link that loses its direction goes to the other links of that direction, or as the routes have it (R317,
R328). -/
def State.assignDir (s : State) (l : Nat) : State :=
  let k := s.link l
  let both := assigned s.coord && assigned k.partner
  let d := if both then dirOf s.lnk.ctrl s.coord k.partner l k.partnerLink else 7
  let lost := d == 7 && k.dir != 7
  let s1 := s.updLink l (fun k => { k with
    dir := d, cabling := both && d == 7
    unacked := if lost then [] else k.unacked, waiting := if lost then [] else k.waiting })
  let s2 := if both && d == 7 && !k.cabling then s1.faultMark (linkUnit l) 0x7D 0 else s1
  if lost then s2.resend k.dir (k.unacked ++ k.waiting) else s2

/-- LOSS_OF_SIGNAL: a link without signal goes DOWN (R318). -/
def execLossOfSignal (l : LinkIx) (s : State) : Out :=
  let k := s.link l.val
  happen (k.st != .down && k.st != .failed) s (s.linkLeave l.val .down unusable)

/-- LINK_SIGNAL_DETECT: an enabled link that is DOWN and has a signal trains (R318, R427). -/
def execLinkSignalDetect (l : LinkIx) (s : State) : Out :=
  let k := s.link l.val
  happen (k.st == .down && s.lnk.ctrl.en.toNat.testBit l.val && s.linksTrain && s.portGood l.val) s
    (s.updLink l.val (fun k => { k with st := .training, tries := 0 }))

/-- A link's training record, written where none matches the partner, where one fails its margin test or where a start trains all in full; the first
training of a start counts in TRAIN_STATUS (R432, R434, R435). (DEDUCED, log 51) -/
def State.linkRecord (s : State) (l : Nat) (id : LinkIdent) (first : Bool) : State :=
  let hit := match s.flash.records.find? (fun p => p.1 == 20 + l) with
    | some (_, r) => r.key == id.digest && r.sub == id.link.val && id.margin && !(first && s.boot.forceFull)
    | none => false
  let s1 := if first then
      { s with boot := { s.boot with
        fullTrained := if hit then s.boot.fullTrained else s.boot.fullTrained + 1
        savedTrained := if hit then s.boot.savedTrained + 1 else s.boot.savedTrained } }
    else s
  if hit then s1
  else { s1 with flash := s1.flash.record (20 + l) { key := id.digest, sub := id.link.val, temp := id.temp } }

/-- LINK_TRAINED: training completes with at most one bad lane, found now or by fuses and test, the spare in its place; with
more the link stays absent (R62, R316 to R318, R327). (DEDUCED, log 47) -/
def execLinkTrained (l : LinkIx) (id : LinkIdent) (s : State) : Out :=
  let k := s.link l.val
  let lanes := id.badLanes ||| (mget ({} : LinkEntry) s.plan.links l.val).testBad
  let bad := (List.range 5).filter (fun i => lanes.toNat.testBit i)
  let spare := match bad with | [i] => if i < 4 then i else 7 | _ => 7
  if k.st ≠ .training ∨ !s.dieJoined l.val then .next s
  else if 2 ≤ bad.length then
    .next ((s.updLink l.val (fun k => { k with st := .failed })).linkUse l.val (fun e => { e with usable := false, badLanes := lanes }))
  else
    let s1 := s.updLink l.val (fun k => { k with
      st := .up, partner := id.coord, partnerLink := id.link.val, digest := id.digest, delay := id.delay
      trainings := sat 16 (k.trainings + 1), tries := 0, dir := 7, cabling := false, credit := (List.range 4).map Config.creditStart, txSeq := 0, rxSeq := 0, sinceAck := 0, oldestGood := none, sameNaks := 0 })
    .next (((s1.linkRecord l.val id (k.trainings == 0)).linkUse l.val
      (fun e => { e with usable := true, spareFor := spare, badLanes := lanes })).assignDir l.val)

/-- LINK_TRAINING_FAIL: a try fails; the third leaves the link FAILED (R318). -/
def execLinkTrainingFail (l : LinkIx) (s : State) : Out :=
  let k := s.link l.val
  happen (k.st == .training) s
    (s.updLink l.val (fun k => { k with tries := k.tries + 1, st := if 3 ≤ k.tries + 1 then .failed else .training }))

/-- LANE_RETIRE: a lane in use is retired; the spare takes its place, or where the spare is in use already, or is bad itself,
the link has FAILED (R316, R318, R319). (DEDUCED, log 51) -/
def execLaneRetire (l : LinkIx) (lane : Fin 5) (s : State) : Out :=
  let k := s.link l.val
  let e := mget ({} : LinkEntry) s.plan.links l.val
  let inUse := if e.spareFor = 7 then lane.val != 4 else lane.val != e.spareFor
  if k.st ≠ .up ∨ !inUse then .next s
  else
    let s1 := s.updLink l.val (fun k => { k with sparings := sat 16 (k.sparings + 1) })
    let bad := e.badLanes ||| BitVec.ofNat 5 (2 ^ lane.val)
    if e.spareFor = 7 ∧ !e.badLanes.toNat.testBit 4 then .next (s1.linkLeave l.val .sparing (fun e => { e with usable := false, spareFor := lane.val, badLanes := bad }))
    else .next (s1.linkLeave l.val .failed (fun e => { e with usable := false, badLanes := bad }))

/-- SPARING_DONE: the spare lane carries the retired lane's bits (R318). -/
def execSparingDone (l : LinkIx) (s : State) : Out :=
  happen ((s.link l.val).st == .sparing && s.dieJoined l.val) s
    ((s.updLink l.val (fun k => { k with st := .up })).linkUse l.val (fun e => { e with usable := true }))

/-- HALT: a HALT block received (R318, R337). -/
def execHalt (l : LinkIx) (b : Block) (s : State) : Out :=
  let k := s.link l.val
  let x := syncOf b
  let ours := (k.st == .up || k.st == .sparing) && s.dieJoined l.val
  if !blockGood b then .next (s.syncLost l.val)
  else happen (x.kind == 6 && ours) s
    (({ s.captureIn 5 l.val 0 b.toNat [] with lnk := { s.lnk with seen := (if s.lnk.seen.length ≥ 4096 then s.lnk.seen.drop 1 else s.lnk.seen) ++ [(x.origin, x.id)] } } : State).linkLeave
      l.val .halted unusable)

/-- The link control block written (R335, R318): a disabled link goes DOWN, a FAILED or HALTED one trains at its next
enable, and directions are assigned anew. (DEDUCED, log 51) -/
def State.linkCtrl (s : State) (c : LinkCtrl) : State :=
  let s1 := { s with lnk := { s.lnk with ctrl := c } }
  (List.range 24).foldl (fun t l =>
    let k := t.link l
    let u := if !c.en.toNat.testBit l then (if k.st = .down then t else t.linkLeave l .down unusable)
      else if (k.st = .failed ∨ k.st = .halted) ∧ t.linksTrain ∧ t.portGood l then t.updLink l (fun k => { k with st := .training, tries := 0 })
      else t
    if u.linkUp l || ((u.link l).st == .sparing && u.dieJoined l) then u.assignDir l else u) s1

end Sys2Proof.Machine
end

