-- ==== Sys2Proof/Machine/Pace.lean ====
section
/-! DEFINITION. Sync groups' boxes and symbols, the milepost series, and pace (01_legs_mileposts R22, R25, R28, R30 to R35,
R53). -/

namespace Sys2Proof.Machine

/-! ### Groups and symbols -/

/-- First coordinate of a group's box along a dimension. -/
def Group.lo (g : Group) (d : Nat) : Nat := bits g.box (26 - 5 * d) 5
/-- Extent of a group's box along a dimension. -/
def Group.ext (g : Group) (d : Nat) : Nat := bits g.box (10 - 5 * d) 5 + 1

/-- A group's sync symbol sent into its box (R325). -/
def State.sendGroup (s : State) (n : Nat) (x : Sync) : State :=
  s.originate (s.group n).lo (s.group n).ext { x with group := n }

/-- A group record changed by a function. -/
def State.updGroup (s : State) (n : Nat) (f : Group → Group) : State := s.setGroup n (f (s.group n))

/-- A waymark of a group, by the milepost network. -/
def State.markG (s : State) (kind cause n : Nat) (origin : W16) (payload : Nat) : State :=
  s.markAt s.time.now kind cause n origin mpUnit (s.jobOf n) s.legNow payload

/-- The state with the series changed. -/
def State.updSeries (s : State) (f : Series → Series) : State := { s with series := s.series.map f }

/-- What a symbol of a group tells a module that owes it stretch symbols: a later leg, the due time of the leg, or that the
group is abandoned or joined anew elsewhere (R361, R439). (DEDUCED, log 67) -/
def State.learnOwed (s : State) (x : Sync) : State :=
  match (s.group x.group).owed with
  | none => s
  | some w =>
    if x.kind = 4 ∨ x.leg = 0xFFFFFFFFFFFF then s.updGroup x.group (fun g => { g with owed := none })
    else
      let leg := if x.kind = 3 then x.leg - 1 else x.leg
      let due := if x.kind = 3 then x.value else s.time.now
      match w.leg with
      | some k =>
        if k < leg then s.updGroup x.group (fun g => { g with owed := some { w with leg := some leg, due := some due, sent := false } })
        else if k = leg ∧ w.due.isNone ∧ x.kind = 3 then s.updGroup x.group (fun g => { g with owed := some { w with due := some due } })
        else s
      | none => s.updGroup x.group (fun g => { g with owed := some { w with leg := some leg, due := some due } })

/-! ### Pace (R30 to R35) -/

/-- The code of a pace state (R60). -/
def Pace.code : Pace → Nat
  | .off => 0
  | .acquire => 1
  | .locked => 2
  | .lost => 3

/-- Whether this module leads pace in a series (R31). -/
def State.leads (s : State) (r : Series) : Bool := r.leader == some s.coord

/-- Whether a time lies within T/8 of another (R32). -/
def near8 (period a b : Nat) : Bool := decide (8 * (a - b) ≤ period) && decide (8 * (b - a) ≤ period)

/-- A due symbol of the series (R31, R324). -/
def State.sendDue (s : State) (r : Series) (leg due : Nat) : State :=
  s.sendGroup r.founder { kind := 3, leg := leg, value := due }

/-- The MILEPOST record of the milepost that opened the leg at `t`, where one is due (R53). (DEDUCED, log 32) -/
def State.milepostRecord (s : State) (r : Series) (t : Nat) (e : Int) : State :=
  let k := s.pace.recordLog2.toNat
  if k ≠ 31 ∧ r.legNo % 2 ^ k = 0 then
    s.markAt t 1 0 r.founder s.coord mpUnit (s.jobOf r.founder) r.legNo (at' s.pace.st.code 32 3 + unsgn e 32)
  else s

/-- The next due time set, with a due symbol where this module leads. -/
def State.setDue (s : State) (r : Series) (due : Nat) : State :=
  let s1 := s.updSeries (fun q => { q with due := some due })
  if s.leads r then s1.sendDue r (r.legNo + 1) due else s1

/-- A compared milepost decided by an edge (R32). A module that does not lead takes the edge as its own phase error and
pace state, and steers nothing (R31). (DEDUCED, log 31) -/
def State.paceFound (s : State) (r : Series) (t : Nat) (e : Int) : State :=
  let lead := s.leads r
  let s1 := { s with pace := { s.pace with st := .locked, error := e } }
  let s2 := if s.pace.st == .lost && lead then s1.markG 6 0 r.founder s.coord (unsgn e 32) else s1
  let s3 := (s2.updSeries (fun q => { q with window := false, realign := false })).milepostRecord r t e
  if lead then s3.setDue r (((t + r.period : Nat) : Int) + e).toNat else s3

/-- A sideband fault: SIDEBAND_SHORT latched and a FAULT recorded (R463, R466). (DEDUCED, log 32) -/
def State.sidebandFault (s : State) : State :=
  { s with power := { s.power with events := s.power.events ||| 0x20 } }.faultMark pwrUnit 0xB4 0

/-- A compared milepost decided by the end of its window (R32), with the error of the nearest edge seen. A pair that gave no
edge for N × T is a sideband fault (R463). (DEDUCED, log 31) -/
def State.paceMissed (s : State) (r : Series) (t : Nat) (e : Int) : State :=
  let lead := s.leads r
  let fresh := s.pace.st != .lost
  let s1 := { s with pace := { s.pace with st := .lost, error := 0, lostCount := if fresh then sat32 s.pace.lostCount else s.pace.lostCount } }
  let s2 := if fresh && lead then s1.markG 7 0 r.founder s.coord (unsgn e 32) else s1
  let silent := !s.pace.edges.any (fun x => decide (t ≤ x + r.ratio * r.period))
  let s2 := if fresh && lead && silent then s2.sidebandFault else s2
  let s3 := (s2.updSeries (fun q => { q with window := false })).milepostRecord r t 0
  if lead then s3.setDue r (t + r.period) else s3

/-- The pace side of the milepost that has just opened a leg at `t` (R22, R30 to R34). The milepost that takes up a REALIGN
is not compared, though it be a compared one with an edge in its window: its next due time is the realigned one. (DEDUCED, log 31,
DESIGN CHOICE, log 79) -/
def State.paceMilepost (s : State) (r : Series) (t : Nat) : State :=
  match r.leader with
  | none => (s.milepostRecord r t 0).setDue r (t + r.period)
  | some _ =>
    let s0 := if r.relock && s.pace.st == .lost then
        let q := { s with pace := { s.pace with st := .locked, error := 0 } }
        if s.leads r then q.markG 6 0 r.founder s.coord 0 else q
      else s
    if r.realign && s0.leads r && s0.pace.st == .lost then
      (s0.milepostRecord r t 0).updSeries (fun q => { q with realign := false, relock := true })
    else
      let s1 := s0.updSeries (fun q => { q with relock := false })
      if r.legNo % r.ratio = 0 then
        match s1.pace.edges.reverse.find? (near8 r.period t) with
        | some x => s1.paceFound r t ((x : Int) - t)
        | none => s1.updSeries (fun q => { q with window := true })
      else
        let s2 := s1.milepostRecord r t 0
        if s2.leads r then s2.setDue r (t + r.period) else s2

/-- Milepost 0 placed by the leader: the due symbol with LEG_NO 0 (R35). -/
def State.placeZero (s : State) (r : Series) (due : Nat) : State :=
  (s.updSeries (fun q => { q with due := some due })).sendDue r 0 due

/-- The stamped edges kept: those that the window of a later milepost can reach back to, and at least the latest eight
(R32). -/
def State.edgesKept (s : State) (es : List Nat) (t : Nat) : List Nat :=
  let reach := match s.series with | some r => r.period / 8 | none => 0
  es.take (max 8 (es.takeWhile (fun x => decide (t ≤ x + reach))).length)

/-- PACE_EDGE: an edge stamped, and what waits for it: milepost 0 of a series in ACQUIRE, a realigned milepost, or a
compared milepost's window (R32, R34, R35). An edge within 1 µs of the last stamped, or with TRAY_RST_N low, is not stamped
(R500). (DEDUCED, log 31) -/
def execPaceEdge (s : State) : Out :=
  let t := s.time.now
  let stamped := s.side.trayRstN && !s.boot.inReset && (match s.pace.edges with | e :: _ => decide (e + 1000 ≤ t) || decide (t < e) | [] => true)
  if !stamped then .next s
  else
  let s1 := s.captureIn 6 0 0 0 []
  let s2 := { s1 with pace := { s1.pace with edges := s1.edgesKept (t :: s1.pace.edges) t } }
  match s.series with
  | none => .next s2
  | some r =>
    match r.opened with
    | none =>
      if s.leads r && r.due.isNone && decide (r.joinTime + r.latency ≤ t) then
        .next ({ s2 with pace := { s2.pace with st := .locked } }.placeZero r (t + r.ratio * r.period))
      else .next s2
    | some o =>
      if r.relock && r.due.isNone && s.leads r then
        if o + r.period ≤ t then
          let s3 := s2.updSeries (fun q => { q with nominal := some (o + r.period) })
          .next ({ s3 with conds := { s3.conds with pace := true } }.setDue r t)
        else .next s2
      else if r.window && near8 r.period o t then .next (s2.paceFound r o ((t : Int) - o))
      else .next s2

/-- The edge nearest to a time, as a signed error; 0 with none seen. -/
def nearestEdge (edges : List Nat) (t : Nat) : Int :=
  match edges with
  | [] => 0
  | x :: r => (r.foldl (fun b y => if (y - t) + (t - y) < (b - t) + (t - b) then y else b) x : Nat) - (t : Int)

/-- PACE_WINDOW_END: a compared milepost's window closes with no edge (R32). (DEDUCED, log 32) -/
def execPaceWindowEnd (s : State) : Out :=
  match s.series with
  | none => .next s
  | some r =>
    match r.opened with
    | none => .next s
    | some o =>
      let s1 := s.toTime (o + r.period / 8)
      happen r.window s (s1.paceMissed r o (nearestEdge s.pace.edges o))

/-- PACE_ACQUIRE_TIMEOUT: no edge by J + L + 2 × N × T; the leader enters LOST and places milepost 0 (R35). -/
def execPaceAcquireTimeout (s : State) : Out :=
  match s.series with
  | none => .next s
  | some r =>
    let s1 := s.toTime (r.joinTime + r.latency + 2 * r.ratio * r.period)
    let s2 := ({ s1 with pace := { s1.pace with st := .lost, lostCount := sat32 s1.pace.lostCount } }.markG 7 0 r.founder s.coord 0).sidebandFault
    happen (r.opened.isNone && r.due.isNone && s.leads r) s (s2.placeZero r (s2.time.now + 2 * r.latency))

/-- A due time learnt. One later than correction can give marks a realigned leg, and so does one learnt no sooner than
t + T, since a correction is sent before it: a realigned due time is the instant of its edge (R32, R34). (DEDUCED, log 79) -/
def State.learnDue (s : State) (r : Series) (due : Nat) : State :=
  match r.opened with
  | none => s.updSeries (fun q => { q with due := some due })
  | some o =>
    if 8 * (o + r.period) + r.period < 8 * due ∨ (o + r.period < due ∧ o + r.period ≤ s.time.now) then
      let s1 := s.updSeries (fun q => { q with due := some due, nominal := some (o + r.period), relock := true })
      { s1 with conds := { s1.conds with pace := true } }
    else s.updSeries (fun q => { q with due := some due })

/-- DUE: a due symbol arrives (R31, R32, R35). One for a milepost or a group that is not there yet is kept. -/
def execDue (l : LinkIx) (b : Block) (s : State) : Out :=
  if blockGood b && (syncOf b).kind != 3 then .next s
  else
    match s.syncIn l.val b with
    | none => .next (s.syncLost l.val)
    | some (x, t0) =>
      let t := (t0.forward l.val x).learnOwed x
      match s.series with
      | none => .next (if x.leg = 0 then t.updGroup x.group (fun g => { g with early := some x.value }) else t)
      | some r =>
        if r.founder ≠ x.group ∨ s.leads r then .next t
        else
          let want := if r.opened.isNone then 0 else r.legNo + 1
          .next (if x.leg = want then t.learnDue r x.value
            else if want < x.leg then t.updSeries (fun q => { q with ahead := some (x.leg, x.value) }) else t)

/-- A write of PACE_CTRL: the ratio and the enable for the next series, and REALIGN on a leader that is LOST (R30, R34). -/
def State.paceCtrl (s : State) (v : W32) : State :=
  let s1 := { s with pace := { s.pace with ratio := BitVec.ofNat 8 (v.toNat / 256), en := bit v.toNat 0 } }
  match s.series with
  | none => s1
  | some r =>
    if bit v.toNat 1 && s.leads r && s.pace.st == .lost then s1.updSeries (fun q => { q with realign := true }) else s1

/-- REALIGN: a write of PACE_CTRL with REALIGN set (R34). -/
def execRealign (v : W32) (s : State) : Out :=
  if bit v.toNat 1 then s.regCmd 0x2020 v (fun t => t.paceCtrl v) else .next s

end Sys2Proof.Machine
end

