-- ==== Sys2Proof/Machine/Power.lean ====
section
/-! DEFINITION. The power and thermal unit: the pour limits, the power loop, droop, and operating points
(17_power R445 to R456, R461, R462). Powers are in 0.1 W, temperatures in 1/8 °C. -/

namespace Sys2Proof.Machine

/-- What a temperature not yet measured reads as in its bank. -/
def noTemp : Int := -1000000

/-! ### Pour limits (R445, R446, R462, R465) -/

/-- k(d), as last set. -/
def Power.k (w : Power) (d : Nat) : Nat := min w.common (w.droopK d)

/-- Some die's droop limit is below 64. -/
def Power.drooping (w : Power) : Bool := (List.range 4).any (fun d => w.droopK d < 64)

/-- The unit code of the power and thermal unit for a die (R465). -/
def pwrUnitOf (d : Nat) : Nat := unitCode d 31 0 22

/-- The dies whose k(d) protection sets below a pinned P: PIN_OVERRIDDEN's first half (R462). -/
def Power.pourOver (w : Power) : BitVec 4 :=
  if w.pourPin = 0 then 0 else BitVec.ofNat 4 (((List.range 4).map (fun d => if w.k d < w.p then 2 ^ d else 0)).sum)

/-- SENSE_FALLBACK. (DEDUCED, log 25) -/
def Power.fallback (w : Power) : Bool := w.sense != 0

/-- The conditions of R461 that the limits raise in the leg. -/
def State.powerConds (s : State) : State :=
  let w := s.power
  { s with conds := { s.conds with
    limit105 := s.conds.limit105 || decide (w.kTh < 64)
    droop := s.conds.droop || w.drooping
    powerAvg := s.conds.powerAvg || decide (w.kPow < 64)
    powerPeak := s.conds.powerPeak || w.peakActive } }

/-- One POLICY_CONFLICT at a change with which protection sets the limit of some die below a pinned P, and the flag while it
lasts (R462). (DEDUCED, log 23) -/
def State.pinCheck (s : State) (d : Nat) : State :=
  let w := s.power
  let cut := w.pourOver
  let s1 := { s with power := { w with overridden := cut } }
  if cut &&& ~~~w.overridden ≠ 0 then
    s1.mark 0x14 0 0 (pwrUnitOf d) (at' 1 60 4 + at' 1 56 4 + at' (minOf ((List.range 4).map w.k)) 8 8 + at' w.p 0 8)
  else s1

/-- The cycle from which a new P, k_pow or k_th applies: the first whose number is a multiple of 64 (R445). -/
def State.windowCycle (s : State) : Nat := (s.cycle + 63) / 64 * 64

/-- The limit in force kept for the rest of its window, before P, k_pow or k_th changes (R445). -/
def State.keepLimit (s : State) : State :=
  if s.cycle < s.power.limFrom then s else { s with power := { s.power with limWas := s.power.common, limFrom := s.windowCycle } }

/-- The THROTTLE waymark of a change, none where nothing changed (R446, R465). -/
def State.throttle (s : State) (source d prev new : Nat) (peak : Bool) : State :=
  if new = prev then s
  else
    let cause := if source = 0 then 1 else if source = 1 then 2 else if source = 2 then 3 else 0
    ((s.mark 0x11 cause 0 (pwrUnitOf d) (at' source 60 4 + at' (b2n peak) 59 1 + at' new 48 8 + at' prev 40 8 + at' d 38 2
      + at' (if source = 2 then s.cycle else s.windowCycle) 0 32)).pinCheck d).powerConds

/-- k_pow changed; its sum over the leg's cycles is kept for R452, a change counting from its window's end. (DEDUCED, log 23) -/
def State.setKPow (s0 : State) (v : Nat) (peak : Bool) : State :=
  let s := s0.keepLimit
  let w := s.power
  let b := s.windowCycle
  let w1 := if v = w.kPow then w
    else if b = w.legN then { w with kPow := v }
    else { w with kPow := v, kBefore := w.kPow, legK := w.legK + w.kPow * ((b : Int) - w.legN), legN := b }
  { s with power := w1 }.throttle 0 0 w.kPow v peak

/-- k_th changed. -/
def State.setKTh (s0 : State) (v : Nat) : State := let s := s0.keepLimit; { s with power := { s.power with kTh := v } }.throttle 1 0 s.power.kTh v false

/-- k_droop of a die changed. -/
def State.setKDroop (s : State) (d v : Nat) : State :=
  { s with power := { s.power with kDroop := mset 64 s.power.kDroop d v } }.throttle 2 d (s.power.droopK d) v false

/-! ### The power loop (R447 to R449) -/

/-- The last `n` of the samples kept, as a sum and a number. -/
def meanOf (n : Nat) (l : List Nat) : Nat × Nat := ((l.take n).sum, min n l.length)

/-- A mean in 0.1 W, rounded down, for the registers. -/
def meanNat (m : Nat × Nat) : Nat := if m.2 = 0 then 0 else m.1 / m.2

/-- Whether a mean is above `num / den` times a figure. -/
def above (m : Nat × Nat) (x num den : Nat) : Bool := decide (x * num * m.2 < m.1 * den)
/-- Whether a mean is below `num / den` times a figure. -/
def below (m : Nat × Nat) (x num den : Nat) : Bool := decide (m.1 * den < x * num * m.2)

/-- The mean that is the larger. -/
def topMean (a b : Nat × Nat) : Nat × Nat := if a.1 * b.2 < b.1 * a.2 then b else a

/-- POWER_SAMPLE: a sample of package and input power, and one step of the loop. The counters of microseconds count the
microsecond that the sample closes (R447 to R449, R467). (DEDUCED, log 23) -/
def execPowerSample (pkg : Nat) (inp : Nat) (s : State) : Out :=
  let w := s.power
  let pk := (pkg :: w.pkg).take 1000
  let ip := (inp :: w.inp).take 1000
  let cap := 10 * w.pkgCap
  let rHi := above (meanOf 1000 pk) cap 1 1 || above (meanOf 1000 ip) 14000 1 1
  let rpHi := above (meanOf 50 pk) cap 5 4 || above (meanOf 50 ip) 17500 1 1
  let low := below (meanOf 1000 pk) cap 97 100 && below (meanOf 1000 ip) 14000 97 100
    && below (meanOf 50 pk) (5 * cap) 95 400 && below (meanOf 50 ip) 17500 95 100
  let v := if rpHi then max (w.kPow - 8) 1 else if rHi then max (w.kPow - 2) 1 else if low then min (w.kPow + 1) 64 else w.kPow
  let unmet := if v = 1 && rHi then w.unmetUs + 1 else 0
  let s1 := { s with power := { w with
    pkg := pk
    inp := ip
    peakActive := rpHi
    unmetUs := unmet
    capUnmet := w.capUnmet || unmet == 10000
    legMax := topMean w.legMax (meanOf 1000 pk)
    powerUs := if w.kPow < 64 then sat32 w.powerUs else w.powerUs
    peakUs := if rpHi then sat32 w.peakUs else w.peakUs
    thermalUs := if w.kTh < 64 then sat32 w.thermalUs else w.thermalUs } }
  let s2 := (s1.setKPow v rpHi).powerConds
  happen (!s.boot.inReset) s (if unmet = 10000 then s2.faultMark pwrUnit 0xB0 0 else s2)

/-! ### Droop (R455) -/

/-- DROOP_DETECT: the die's droop limit drops to 32 and the hold starts again; the drop from 64 counts. -/
def execDroopDetect (d : DieIx) (s : State) : Out :=
  let w := s.power
  let s1 := { s with power := { w with
    lastDroop := some s.clk.ns
    held := mset 0 w.held d.val (s.clk.ns + 1)
    rising := mset 0 w.rising d.val 0
    droopEvents := if w.droopK d.val = 64 then sat32 w.droopEvents else w.droopEvents } }
  happen w.railsOn s (s1.setKDroop d.val 32)

/-- DROOP_HOLD_END: 2 µs after the latest detection the limit starts to rise. -/
def execDroopHoldEnd (d : DieIx) (s : State) : Out :=
  let w := s.power
  let t := mget 0 w.held d.val
  let s1 := s.advance (t - 1 + 2000 - s.clk.ns)
  happen (t != 0) s { s1 with power := { s1.power with held := mset 0 w.held d.val 0, rising := mset 0 w.rising d.val (s1.clk.milli + 1) } }

/-- The clock at the first window boundary after an instant, in thousandths of a cycle: a milepost or phase point is one. -/
def State.boundaryAfter (s : State) (t : Nat) : Nat :=
  if t < s.clk.phaseMilli then s.clk.phaseMilli else s.clk.phaseMilli + ((t - s.clk.phaseMilli) / 64000 + 1) * 64000

/-- DROOP_RISE: at each 64-cycle boundary a rising limit grows by 8, to at most 64. -/
def execDroopRise (d : DieIx) (s : State) : Out :=
  let w := s.power
  let r := mget 0 w.rising d.val
  let v := min (w.droopK d.val + 8) 64
  let s1 := s.advance (cdiv (s.boundaryAfter (r - 1) - s.clk.milli) (pointMhz w.point))
  happen (r != 0) s
    ({ s1 with power := { s1.power with rising := mset 0 w.rising d.val (if v < 64 then s1.clk.milli + 1 else 0) } }.setKDroop d.val v)

/-! ### Operating points (R450 to R453) -/

/-- Array power relative to P0 at equal pour, in hundredths (R450). -/
def relPower (p : Nat) : Nat := if p = 0 then 100 else if p = 1 then 75 else if p = 2 then 54 else 30

/-- A POLICY waymark of the power policy (R465). -/
def State.opPolicy (s : State) (kind target : Nat) : State :=
  s.mark 0x13 0 0 pwrUnit (at' 1 60 4 + at' kind 56 4 + at' target 8 8 + at' s.power.point 0 8)

/-- The sum and number of cycles of a leg's k_pow, at the milepost that closes it. -/
def State.legMeanK (s : State) : Int × Nat :=
  let w := s.power
  let e := s.cycle
  (if w.legN ≤ e then w.legK + w.kPow * ((e : Int) - w.legN) else w.legK - w.kBefore * ((w.legN : Int) - e), e)

/-- A scheduled point at a milepost: deferred for its voltage or for a droop in the last 10 µs, or taken (R453). (DEDUCED, log 24) -/
def State.opDue (s : State) : State :=
  let w := s.power
  match w.pending with
  | none => s
  | some q =>
    let defer (kind : Nat) : State :=
      { s with power := { w with pending := some { q with deferrals := q.deferrals + 1 }, opDeferred := sat32 w.opDeferred } }.opPolicy kind q.target
    if s.clk.ns < q.decided + 20000 then s
    else if q.target < w.point && !w.raised then defer 2
    else if (match w.lastDroop with | some t => decide (s.clk.ns ≤ t + 10000) | none => false) then defer 1
    else
      { s with power := { w with point := q.target, pending := none, raised := false, opChanges := sat32 w.opChanges, settleNs := 64 } }.mark
        0x16 0 0 pwrUnit (at' w.point 62 2 + at' q.target 60 2 + at' q.reason 58 2 + at' (sat 8 q.deferrals) 48 8)

/-- The operating point at a milepost: pins and bounds written since the last, the point scheduled, and the figures of the
leg closed, which the decision will evaluate (R24, R451 to R453). The milepost's re-phasing starts the next leg's sum. (DEDUCED, log 24) -/
def State.opMilepost (s : State) (closes : Bool) : State :=
  let m := s.legMeanK
  let s1 := match s.power.next with
    | none => s
    | some (en, pin, hi, lo) => { s with power := { s.power with next := none, pinEn := en, pin := pin, high := hi, low := lo } }
  let s2 := s1.opDue
  let leg : OpLeg := { sum := m.1, cycles := if closes then m.2 else 0, top := s.power.legMax }
  { s2 with power := { s2.power with
    lastLeg := some leg, legK := 0, legN := 0, kBefore := s.power.kPow, legMax := (0, 1) } }

/-- LOW_N and HIGH_N after a leg is evaluated, and the point wanted (R452). (DEDUCED, log 24) -/
def Power.opWant (w : Power) (g : OpLeg) : Nat × Nat × Nat :=
  let pt := w.point
  let slow := decide (g.sum < (w.downK * g.cycles : Nat))
  let room := g.sum == (64 * g.cycles : Nat) && decide (0 < pt)
    && decide (g.top.1 * relPower (pt - 1) * 100 < 10 * w.pkgCap * (100 - min w.headroom 50) * g.top.2 * relPower pt)
  let lo := if slow then w.lowN + 1 else 0
  let hi := if !slow && room then w.highN + 1 else 0
  let hold := max w.hold 1
  let down := decide (hold ≤ lo ∧ pt < 3)
  let up := decide (hold ≤ hi)
  (if up then pt - 1 else if down then pt + 1 else pt, if down then 0 else lo, if up then 0 else hi)

/-- OP_DECISION: the policy decides on the leg closed, or with the policy off the pin and the bounds hold; a decision for
the point already scheduled leaves its schedule (R451 to R453). (DEDUCED, log 24) -/
def execOpDecision (s : State) : Out :=
  let w := s.power
  match w.lastLeg with
  | none => .next s
  | some g =>
    let run := w.policyEn && g.cycles != 0
    let r := if run then w.opWant g else (w.point, w.lowN, w.highN)
    let base := if w.pinEn then w.pin else max w.high (min r.1 w.low)
    let applied := if w.fallback then max base 1 else base
    let s1 := { s with power := { w with lastLeg := none, lowN := r.2.1, highN := r.2.2 } }
    let moved := w.pinEn && applied != base
    let s2 := if (run && applied != r.1) || (moved && applied != w.point) then
        s1.mark 0x14 0 0 pwrUnit (at' 1 60 4 + at' (if moved then 2 else 0) 56 4 + at' applied 8 8 + at' (if moved then base else r.1) 0 8)
      else s1
    if w.policyEn && !run then .next s1
    else if applied = w.point then .next s2
    else
      let s3 := s2.opPolicy 0 applied
      let keep := match w.pending with | some q => q.target == applied | none => false
      let q : OpPlan := { target := applied, decided := s.clk.ns, deferrals := 0, reason := if applied ≠ base then 2 else if applied ≠ r.1 then 1 else if run then 0 else 1 }
      .next (if keep then s3 else { s3 with power := { s3.power with pending := some q, raised := false } })

/-- VOLTAGE_RAISE_DONE: the core voltage is up for the faster point scheduled (R453). -/
def execVoltageRaiseDone (s : State) : Out :=
  let w := s.power
  happen (match w.pending with | some q => decide (q.target < w.point) | none => false) s { s with power := { w with raised := true } }

/-- A write of PWR_CTRL that its register takes (R467). (DEDUCED, log 24) -/
def State.pwrCtrl (s0 : State) (v : W32) : State :=
  let s := s0.keepLimit
  let w := s.power
  let x := v.toNat
  let hi := bits x 2 2
  let lo := bits x 0 2
  if lo < hi then { s with power := { w with refused := true } }
  else
    let w1 := { w with
      pkgCap := min 1000 (max 200 (bits x 16 16)), pourPin := bits x 8 8, policyEn := bit x 7,
      next := some (bit x 6, bits x 4 2, hi, lo) }
    { s with power := w1 }.throttle 3 0 w.p w1.p false

/-- PWR_CTRL_WRITE. -/
def execPwrCtrlWrite (v : W32) (s : State) : Out := s.regCmd 0x3000 v (fun t => (t.pwrCtrl v).pinCheck 0)

end Sys2Proof.Machine
end

