-- ==== Sys2Proof/Machine/Func.lean ====
section
/-! DEFINITION. The table functions EXP, EXP2, LOG, LOG2, RECIP and RSQRT by the steps of R509, with every table
entry and constant the exact real value it names, rounded once (08_vector_row R222, R509, R156). -/

namespace Sys2Proof.Machine

/-- floor(ln 2 · 2^200). -/
def ln2Fixed : Nat := 1113844574712631719546256151097547306333272293549090750737802

/-- The FP32 word nearest n·2^e, where `st` says that the exact value lies a little above n·2^e. -/
def rnFixed (neg : Bool) (n : Nat) (e : Int) (st : Bool) : W32 := r32 (.fin neg (2 * n + b2n st) (e - 1))

/-- RN(a / b). -/
def rnRatio (neg : Bool) (a b : Nat) : W32 := r32 (vdiv fp32 (.fin neg a 0) (.fin false b 0))

/-- RN(sqrt(a / b)). -/
def rnSqrtRatio (a b : Nat) : W32 :=
  let n := a * 2 ^ 80 / b
  let r := isqrt n
  rnFixed false r (-40) (r * r * b != a * 2 ^ 80)

/-- The floor of the square root, taken `k` times. -/
def isqrtTimes : Nat → Nat → Nat
  | 0, n => n
  | k + 1, n => isqrtTimes k (isqrt n)

/-- RN(2^(k/256)): the 256th root of 2^(k + 256·30), floored, is 2^(k/256)·2^30. -/
def pow2Table (k : Nat) : W32 := rnFixed false (isqrtTimes 8 (2 ^ (k + 7680))) (-30) (k != 0)

/-- Binary digits of log2 of a fixed-point x in [1, 2) with 120 places: square, and halve where the square reaches 2. -/
def log2Digits : Nat → Nat → Nat → Nat
  | 0, _, acc => acc
  | n + 1, x, acc =>
    let y := x * x / 2 ^ 120
    if 2 ^ 121 ≤ y then log2Digits n (y / 2) (2 * acc + 1) else log2Digits n y (2 * acc)

/-- RN(log2(1 + j/128)). -/
def log2Table (j : Nat) : W32 := rnFixed false (log2Digits 60 ((128 + j) * 2 ^ 113) 0) (-60) (j != 0)

/-- RN(1 / (1 + i/256)). -/
def recipTable (i : Nat) : W32 := rnRatio false 256 (256 + i)
/-- RN(1 / sqrt(1 + i/256)). -/
def rsqrtTable (i : Nat) : W32 := rnSqrtRatio 256 (256 + i)
/-- RN(1 / (1 + j/128)). -/
def invTable (j : Nat) : W32 := rnRatio false 128 (128 + j)

/-- RN(2^−0.5). -/
def cRsqrt0 : W32 := rnSqrtRatio 1 2
/-- RN((ln 2)^c / c!). -/
def cExp2 (c : Nat) : W32 :=
  if c = 1 then rnFixed false ln2Fixed (-200) true
  else if c = 2 then rnFixed false (ln2Fixed ^ 2 / 2 ^ 201) (-200) true
  else rnFixed false (ln2Fixed ^ 3 / (6 * 2 ^ 400)) (-200) true
/-- RN(256 / ln 2). -/
def cExp0 : W32 := rnFixed false (2 ^ 300 * 256 / ln2Fixed) (-100) true
/-- 177 · 2^−16. -/
def cExp1 : W32 := rnRatio false 177 65536
/-- RN(ln 2 / 256 − const_1). -/
def cExp2Low : W32 := rnFixed false (ln2Fixed - 177 * 2 ^ 192) (-208) true
/-- RN(1/6). -/
def cExp3 : W32 := rnRatio false 1 6
/-- RN((−1)^(c+1) / (c · ln 2)). -/
def cLog (c : Nat) : W32 := rnFixed (c % 2 == 0) (2 ^ 300 / (c * ln2Fixed)) (-100) true
/-- RN(ln 2). -/
def cLn2 : W32 := rnFixed false ln2Fixed (-200) true

/-- 1.0, 0.5, 1.5 and 2.0. -/
def f1 : W32 := 0x3F800000
/-- 0.5. -/
def fHalf : W32 := 0x3F000000
/-- 1.5. -/
def f15 : W32 := 0x3FC00000
/-- Sign changed. -/
def f32neg (a : W32) : W32 := r32 (v32 a).negate

/-- scale(v, n): the exact v·2^n rounded once. -/
def f32scale (a : W32) (n : Int) : W32 := r32 (vscale n (v32 a))

/-- Floor of a finite value times 2^k. -/
def floorScaled (k : Nat) : Val → Int
  | .fin s m e =>
    let q := e + k
    if 0 ≤ q then (if s then -(m * 2 ^ q.toNat : Nat) else (m * 2 ^ q.toNat : Nat))
    else if s then -(cdiv m (2 ^ (-q).toNat) : Nat) else (m / 2 ^ (-q).toNat : Nat)
  | _ => 0

/-- The reduction of a finite non-zero magnitude: e = floor(log2) and the mantissa m·2^−e in [1, 2) (R509). -/
def reduce2 (m : Nat) (e : Int) : Int × W32 :=
  let l := Nat.log2 m
  (e + l, r32 (.fin false m (-(l : Int))))

/-- floor((m − 1)·2^k) of a mantissa. -/
def tabIx (k : Nat) (m : W32) : Nat := (floorScaled k (v32 m)).toNat - 2 ^ k

/-- One Newton step of the reciprocal. -/
def recipStep (m y : W32) : W32 := f32fma y (f32fma (f32neg m) y f1) y

/-- RECIP. -/
def fRecip (x : Val) : Val :=
  match x with
  | .nan => .nan
  | .inf s => .fin s 0 0
  | .fin s m e =>
    if m = 0 then .inf s
    else
      let r := reduce2 m e
      let y := recipStep r.2 (recipStep r.2 (recipTable (tabIx 8 r.2)))
      let v := v32 (f32scale y (-r.1))
      if s then v.negate else v

/-- One Newton step of the reciprocal square root. -/
def rsqrtStep (w y : W32) : W32 :=
  let h := f32mul (f32mul w y) y
  f32mul y (f32sub f15 (f32mul fHalf h))

/-- RSQRT. -/
def fRsqrt (x : Val) : Val :=
  match x with
  | .nan => .nan
  | .inf s => if s then .nan else .fin false 0 0
  | .fin s m e =>
    if m = 0 then .inf s
    else if s then .nan
    else
      let r := reduce2 m e
      let odd := r.1 % 2 != 0
      let y0 := rsqrtTable (tabIx 8 r.2)
      let y1 := if odd then f32mul y0 cRsqrt0 else y0
      let w := if odd then f32mul r.2 0x40000000 else r.2
      let e' := if odd then r.1 - 1 else r.1
      v32 (f32scale (rsqrtStep w (rsqrtStep w y1)) (-(e' / 2)))

/-- An FP32 value held between two bounds. -/
def clampF (x lo hi : Val) : Val := if vlt x lo then lo else if vlt hi x then hi else x

/-- EXP2. -/
def fExp2 (x : Val) : Val :=
  match x with
  | .nan => .nan
  | .inf s => if s then .fin false 0 0 else .inf false
  | _ =>
    let xc := clampF x (vint (-160)) (vint 130)
    let n2 := floorScaled 8 xc
    let n := n2 / 256
    let k := (n2 - 256 * n).toNat
    let g := r32 (vadd xc (vscale (-8) (vint (-n2))))
    let p := f32fma g (f32fma g (f32fma g (cExp2 3) (cExp2 2)) (cExp2 1)) f1
    v32 (f32scale (f32mul (pow2Table k) p) n)

/-- EXP. -/
def fExp (x : Val) : Val :=
  match x with
  | .nan => .nan
  | .inf s => if s then .fin false 0 0 else .inf false
  | _ =>
    let xc := r32 (clampF x (vint (-110)) (vint 90))
    let t := f32mul xc cExp0
    let bn := floorScaled 0 (v32 (f32add t fHalf))
    let nb := r32 (vint (-bn))
    let q := f32fma nb cExp2Low (f32fma nb cExp1 xc)
    let n := bn / 256
    let k := (bn - 256 * n).toNat
    let p := f32fma q (f32fma q (f32fma q cExp3 fHalf) f1) f1
    v32 (f32scale (f32mul (pow2Table k) p) n)

/-- v and p of LOG and LOG2 for a positive finite value. -/
def logParts (m : Nat) (e : Int) : W32 × W32 :=
  let r := reduce2 m e
  let j := tabIx 7 r.2
  let u := f32fma r.2 (invTable j) (f32neg f1)
  let p := f32mul (f32fma u (f32fma u (f32fma u (cLog 4) (cLog 3)) (cLog 2)) (cLog 1)) u
  (f32add (r32 (vint r.1)) (log2Table j), p)

/-- LOG2. -/
def fLog2 (x : Val) : Val :=
  match x with
  | .nan => .nan
  | .inf s => if s then .nan else .inf false
  | .fin s m e =>
    if m = 0 then .inf true else if s then .nan
    else let q := logParts m e; v32 (f32add q.1 q.2)

/-- LOG. -/
def fLog (x : Val) : Val :=
  match x with
  | .nan => .nan
  | .inf s => if s then .nan else .inf false
  | .fin s m e =>
    if m = 0 then .inf true else if s then .nan
    else let q := logParts m e; v32 (f32mul (f32add q.1 q.2) cLn2)

end Sys2Proof.Machine
end

