-- ==== Sys2Proof/Machine/Vector.lean ====
section
/-! DEFINITION. The vector chain: inputs and their scales, stage functions, reductions by the beat tree, conversions,
outputs and summaries (08_vector_row R217 to R231; 05 R151 to R158). -/

namespace Sys2Proof.Machine

/-! ### Shared pieces -/

/-- A value with its poison state. -/
abbrev PVal := Val × Bool

/-- Neighbours of one level of the beat tree combined; a missing element passes its partner (R221). -/
def pairUp (f : PVal → PVal → PVal) : List (Option PVal) → List (Option PVal)
  | [] => []
  | [x] => [x]
  | a :: b :: r =>
    (match a, b with
      | none, y => y
      | x, none => x
      | some x, some y => some (f x y)) :: pairUp f r

/-- `n` levels of the beat tree. -/
def treeLevels (f : PVal → PVal → PVal) : Nat → List (Option PVal) → List (Option PVal)
  | 0, l => l
  | n + 1, l => treeLevels f n (pairUp f l)

/-- A row reduced in beats of 2^lv elements, beat values combined in ascending order; none when all are missing. -/
def treeRow (f : PVal → PVal → PVal) (lv : Nat) (row : List (Option PVal)) : Option PVal :=
  ((chunksOf row.length (2 ^ lv) row).map (fun b => ((treeLevels f lv b).head?).join)).foldl (fun a b =>
    match a, b with
    | none, y => y
    | x, none => x
    | some x, some y => some (f x y)) none

/-- A binary operation on values with poison, rounded by `rl`. -/
def pv2 (rl : Val → Val) (g : Val → Val → Val) (a b : PVal) : PVal := (rl (g a.1 b.1), a.2 || b.2)

/-- MIN of R220: Y if Y < X, else X; NaN with a NaN operand. -/
def fnMin (x y : Val) : Val := vmin x y
/-- MAX of R220. -/
def fnMax (x y : Val) : Val := vmax x y

/-- Element formats that chain and row-engine descriptors read, by code (R219). -/
def elemBits (code : Nat) : Nat := if code = 8 ∨ code = 9 then 32 else fmtBits code

/-- The value of an element of a format code, INT32 among them. -/
def elemVal (code x : Nat) : Val :=
  if code = 9 then vint (sgn x 32) else if code = 8 then dec fp32 x else decCode code x

/-- Index of E8M0 scales: B bytes per row of `len` elements (R148, R219). -/
def mxIx (len i : Nat) : Nat := i / len * cdiv len 32 + i % len / 32

/-- Input element `i`, scaled by its mode and widened to the lane format (R219). -/
def Core.vecIn (k : Core) (rl : Val → Val) (fmt line mode scale rowLen i : Nat) : PVal :=
  let x := k.csElem (64 * line) (i * elemBits fmt) (elemBits fmt)
  let v := elemVal fmt x.1
  if mode = 1 then
    let s := k.csWord (64 * scale)
    (rl (vmul v (v32 s.1)), x.2 || s.2)
  else if mode = 2 then
    let s := k.csElem (64 * scale) (8 * mxIx rowLen i) 8
    (rl (vmul v (e8m0 s.1)), x.2 || s.2)
  else (rl v, x.2)

/-! ### Stages -/

/-- A stage word (R226). -/
structure Stage where
  func : Nat
  sx : Nat
  sy : Nat
  target : Nat
  sr : Bool
  ovf : Bool
  stats : Bool
  gov : Bool
  fid : Nat
  const : Nat
deriving DecidableEq, Repr

/-- A stage word's fields. -/
def stageOf (w : Nat) : Stage :=
  { func := bits w 58 6, sx := bits w 56 2, sy := bits w 54 2, target := bits w 50 4, sr := bit w 49, ovf := bit w 48, stats := bit w 47, gov := bit w 46, fid := bits w 32 14, const := bits w 0 32 }

/-- SCALE_MODE of a CONVERT stage. -/
def Stage.scaleMode (g : Stage) : Nat := bits g.const 30 2

/-- Functions that use operand Y. -/
def usesY (f : Nat) : Bool := decide (1 ≤ f ∧ f ≤ 6) || decide (0x10 ≤ f ∧ f ≤ 0x14)
/-- Reduction functions. -/
def isRed (f : Nat) : Bool := decide (0x38 ≤ f ∧ f ≤ 0x3C)
/-- Functions of R220. -/
def knownFn (f : Nat) : Bool :=
  decide (f ≤ 8) || decide (0x10 ≤ f ∧ f ≤ 0x14) || decide (0x20 ≤ f ∧ f ≤ 0x25) || f == 0x30 || isRed f

/-- A CONVERT's target, scale mode and OVF, from the governor's choice under GOV (R157, R223). -/
def State.convOf (s : State) (g : Stage) : Nat × Nat × Bool :=
  if g.gov then
    let e := mget {} s.fmt g.fid
    if e.current = 0 then (0, 2, false) else if e.current = 1 then (1, 1, false) else (6, 0, Config.govBf16Ieee)
  else (g.target, g.scaleMode, g.ovf)

/-- Targets whose every value the lane format holds exactly (R223). -/
def exactIn (bfl : Bool) (t : Nat) : Bool := if bfl then decide (t ≤ 6) else decide (t ≤ 8)

/-- One element in the chain: value, poison, flag and the flag's poison. -/
structure Elem where
  v : PVal
  flag : Bool
  fp : Bool
deriving DecidableEq, Repr

/-- The result of an element-wise stage (R220). -/
def stageFn (rl : Val → Val) (g : Stage) (c : Val) (e : Elem) (x y : PVal) : Elem :=
  let r (v : Val) : Elem := { e with v := (rl v, x.2 || (usesY g.func && y.2)) }
  let cmp (b : Bool) : Elem := { v := x, flag := b, fp := x.2 || y.2 }
  match g.func with
  | 0x00 => r x.1
  | 0x01 => r (vadd x.1 y.1)
  | 0x02 => r (vadd x.1 y.1.negate)
  | 0x03 => r (vmul x.1 y.1)
  | 0x04 => r (vadd (vmul x.1 y.1) c)
  | 0x05 => r (fnMin x.1 y.1)
  | 0x06 => r (fnMax x.1 y.1)
  | 0x07 => r x.1.abs
  | 0x08 => r x.1.negate
  | 0x10 => cmp (vlt y.1 x.1)
  | 0x11 => cmp (vlt y.1 x.1 || veq x.1 y.1)
  | 0x12 => cmp (veq x.1 y.1)
  | 0x13 => cmp (!veq x.1 y.1)
  | 0x14 => { e with v := (if x.1 = .nan ∨ y.1 = .nan then .nan else if e.flag then x.1 else y.1, x.2 || y.2 || e.fp) }
  | 0x20 => r (fExp x.1)
  | 0x21 => r (fExp2 x.1)
  | 0x22 => r (fLog x.1)
  | 0x23 => r (fLog2 x.1)
  | 0x24 => r (fRecip x.1)
  | 0x25 => r (fRsqrt x.1)
  | _ => r x.1

/-- The combination of a reduction function, and its value for a row element (R221). -/
def redFn (rl : Val → Val) (f : Nat) : PVal → PVal → PVal :=
  if f = 0x38 then pv2 rl vadd else if f = 0x3A then pv2 rl fnMin else pv2 rl fnMax

/-- Identity of an all-missing row (R203). -/
def redIdentity (f : Nat) : Val :=
  if f = 0x39 then .inf true else if f = 0x3A then .inf false else .fin false 0 0

/-- Whether `a` ranks above `b` by value (R224): a number above every NaN, the greater first. -/
def ranksAbove (a b : Val) : Bool := (a != .nan && b == .nan) || vlt b a

/-- The element of a list that ranks first, ties to the lower index, and the rest. -/
def bestOf : List (Val × Nat) → Option (Val × Nat)
  | [] => none
  | x :: r =>
    match bestOf r with
    | none => some x
    | some y => if ranksAbove y.1 x.1 then some y else some x

/-- The first `k` of a row by rank: values then indices (R224). -/
def topK : Nat → List (Val × Nat) → List (Val × Nat)
  | 0, _ => []
  | k + 1, l =>
    match bestOf l with
    | none => (.inf true, 0xFFFFFFFF) :: topK k []
    | some x => x :: topK k (l.filter (fun y => y.2 != x.2))

/-- An element added to an observation (R158). -/
def Obs.add (o : Obs) (eRef : Int) (v : Val) : Obs :=
  match v with
  | .nan => { o with nonfinite := sat 32 (o.nonfinite + 1) }
  | .inf _ => { o with nonfinite := sat 32 (o.nonfinite + 1) }
  | .fin _ m e =>
    if m = 0 then { o with zeros := sat 32 (o.zeros + 1) }
    else
      let ex := (Nat.log2 m : Int) + e
      let b : Nat := if ex < -126 then 31 else if eRef ≤ ex then 0 else if eRef - 30 ≤ ex then (eRef - ex).toNat else 31
      let mag := r32 (.fin false m e)
      { o with count := sat 64 (o.count + 1), amax := if o.amax.toNat < mag.toNat then mag else o.amax, bins := mset 0 o.bins b (sat 32 (mget 0 o.bins b + 1)) }

/-! ### VEC_RUN -/

/-- The stages of a VEC_RUN, 0 to LAST_STAGE. -/
def Core.vecStages (k : Core) (o : Op) : List Stage :=
  (List.range (o.f 0 3 3 + 1)).map (fun i =>
    stageOf (leNat ((k.csRead (64 * o.f 8 0 15 + 8 * i) 8).map (·.1))))

/-- Checks of one stage that give VEC_CONFIG (R220, R221, R223, R224, R226). `red` says that a reduction came before. -/
def State.stageBad (s : State) (o : Op) (g : Stage) (i : Nat) (red : Bool) : Bool :=
  let bfl := o.f 0 23 1 == 1
  let last := o.f 0 3 3
  let noA := o.f 0 21 2 == 2
  let noB := o.f 0 20 1 == 0
  let names (src : Nat) : Bool := (src == 1 && (noA || red)) || (src == 2 && (noB || red)) || (src == 0 && i == 0 && noA)
  let cv := s.convOf g
  !knownFn g.func || names g.sx || (usesY g.func && names g.sy)
  || (g.func != 0x30 && g.func != 0x3C && g.target != 0)
  || (g.func != 0x30 && (g.sr || g.ovf || g.stats || g.gov || g.fid != 0))
  || (g.func == 0x30 && ((!g.gov && (decide (9 ≤ g.target) || g.scaleMode == 3)) || bits g.const 0 30 != 0
        || (i != last && (g.scaleMode != 0 || g.gov || !exactIn bfl cv.1))))
  || (isRed g.func && red)
  || (g.func == 0x3C && (bfl || i != last || g.target == 0 || decide (8 < g.target)))

/-- Whether any stage fails, with the reduction state carried along. -/
def State.stagesBad (s : State) (o : Op) : List Stage → Nat → Bool → Bool
  | [], _, _ => false
  | g :: r, i, red => s.stageBad o g i red || s.stagesBad o r (i + 1) (red || isRed g.func)

/-- Input codes a lane mode accepts (R219). -/
def vecFmtOk (bfl : Bool) (c : Nat) : Bool :=
  c == 0 || c == 1 || c == 5 || c == 6 || (!bfl && (c == 7 || c == 8 || c == 9))

/-- Two byte ranges that share a byte. -/
def overlaps (a n b m : Nat) : Bool := decide (n ≠ 0 ∧ m ≠ 0 ∧ a < b + m ∧ b < a + n)

/-- Bits of an output element: of a final CONVERT's target, TOPK's words, else the lane format (R227). -/
def State.outBits (s : State) (o : Op) (last : Stage) : Nat :=
  if last.func = 0x30 then elemBits (s.convOf last).1 else if o.f 0 23 1 = 1 then 16 else 32

/-- Elements a VEC_RUN writes. -/
def vecOutCount (stages : List Stage) (n rowLen : Nat) : Nat :=
  match stages.find? (fun g => isRed g.func) with
  | none => n
  | some g => if g.func = 0x3C then n / rowLen * (2 * g.target) else n / rowLen

/-- E8M0 scale bytes for `n` elements in rows (R148). -/
def mxBytes (n rowLen : Nat) : Nat := n / rowLen * cdiv rowLen 32 + cdiv (n % rowLen) 32

/-- Blocks of an MX output: the reduced values form one row (R152). -/
def vecMxRow (stages : List Stage) (n rowLen : Nat) : Nat := if stages.any (fun g => isRed g.func) then max 1 (n / rowLen) else rowLen

/-- The status found before a VEC_RUN reads its first element, pairing aside (R238's order after poisoned stage words). (DEDUCED, log 73) -/
def State.vecStatic (s : State) (c : Nat) (o : Op) : Nat :=
  let k := s.core c
  let bfl := o.f 0 23 1 == 1
  let asrc := o.f 0 21 2
  let bsrc := o.f 0 20 1
  let od := o.f 0 18 2
  let st := k.vecStages o
  let lastS := st.getLastD (stageOf 0)
  let n := o.f 4 0 21
  let rl := o.f 8 16 16 + 1
  let am := o.f 24 30 2
  let bm := o.f 24 28 2
  let cv := s.convOf lastS
  let cfgP := (k.csRead (64 * o.f 8 0 15) (8 * (o.f 0 3 3 + 1))).any (·.2)
  let config := !o.zeros [(0, 0, 3), (4, 21, 11), (8, 15, 1), (12, 31, 1), (12, 15, 1), (16, 31, 1), (16, 15, 1), (24, 0, 28), (28, 31, 1), (28, 15, 1)]
    || asrc == 3 || am == 3 || bm == 3 || decide (o.f 0 3 3 < o.f 0 6 3) || s.stagesBad o st 0 false
  let scl := st.any (fun g => g.func == 0x30 && (s.convOf g).2.1 == 2 && (s.convOf g).1 != 0)
    || (asrc != 2 && am == 2 && decide (2 ≤ o.f 0 14 4)) || (bsrc == 1 && bm == 2 && decide (2 ≤ o.f 0 10 4))
  let pot := od == 1 || od == 2
  let fmt := (asrc != 2 && !vecFmtOk bfl (o.f 0 14 4)) || (bsrc == 1 && !vecFmtOk bfl (o.f 0 10 4))
    || (asrc == 1 && bfl) || (pot && (if lastS.func == 0x30 then cv.1 != 8 else bfl || lastS.func == 0x3C))
  let red := st.any (fun g => isRed g.func)
  let cnt := vecOutCount st n rl
  let ob := cdiv (cnt * s.outBits o lastS) 8
  let mx := lastS.func == 0x30 && cv.2.1 == 2 && od != 3
  let sb := if mx then mxBytes cnt (vecMxRow st n rl) else 0
  let aB := if asrc = 0 then cdiv (n * elemBits (o.f 0 14 4)) 8 else 0
  let bB := if bsrc = 1 then cdiv (n * elemBits (o.f 0 10 4)) 8 else 0
  let asB := if asrc = 2 then 0 else if am = 1 then 4 else if am = 2 then mxBytes n rl else 0
  let bsB := if bsrc = 0 then 0 else if bm = 1 then 4 else if bm = 2 then mxBytes n rl else 0
  let aL := 64 * o.f 12 0 15
  let bL := 64 * o.f 12 16 15
  let oL := 64 * o.f 16 0 15
  let sL := 64 * o.f 16 16 15
  let asL := 64 * o.f 28 0 15
  let bsL := 64 * o.f 28 16 15
  let cL := 64 * o.f 8 0 15
  let shape := n == 0 || decide (1048576 < n) || (red && n % rl != 0) || csOver aL aB || csOver bL bB || csOver asL asB || csOver bsL bsB
    || (od == 0 && csOver oL ob) || csOver sL sb
  let aFree := aL == oL && decide (s.outBits o lastS ≤ elemBits (o.f 0 14 4))
  let ovl := (od == 0 && ((overlaps oL ob aL aB && !aFree) || overlaps oL ob bL bB || overlaps oL ob asL asB || overlaps oL ob bsL bsB
      || overlaps oL ob cL 64 || overlaps oL ob sL sb))
    || overlaps sL sb aL aB || overlaps sL sb bL bB || overlaps sL sb asL asB || overlaps sL sb bsL bsB || overlaps sL sb cL 64
  let potR := pot && decide (65536 < 16 * o.f 16 0 12 + cnt)
  firstFail [(cfgP, 0x90), (config, 0x60), (fmt, 0x61), (scl, 0x2B), (shape, 0x62), (ovl, 0x63), (potR, 0x29)]

/-- Whether a VEC_RUN takes an array operation's runs in the wrong format: A_FMT is not FP32, or INT32 for INT32 runs, or
LANES is not 0 (R228). -/
def drainFmtBad (o : Op) (int : Bool) : Bool := (o.f 0 14 4 != (if int then 9 else 8)) || o.f 0 23 1 == 1

/-- The status of a VEC_RUN paired with an array operation of `n` values (R228). -/
def State.vecCheck (s : State) (c : Nat) (o : Op) (n : Nat) (int : Bool) : Nat :=
  if drainFmtBad o int then 0x61
  else if o.f 4 0 21 ≠ n then 0x64
  else s.vecStatic c o

/-- The stream of elements between stages, with what the stages gather: saturations, lost NaNs, observations,
scale bytes of an MX output and the output's raw form. -/
structure Chain where
  es : List Elem
  satN : Nat
  nanN : Nat
  opened : Mem Obs
  scales : List (Nat × Bool)
  raw : List (Nat × Bool)
  obsAt : List Elem
deriving DecidableEq, Repr

/-- One CONVERT stage over the stream (R223). What it gives out is the target's value, which a later stage's lanes hold exactly.
A poisoned element of an MX block poisons the block's scale, and with it the block (R152, R367). (DEDUCED, log 73) -/
def State.convStage (s : State) (o : Op) (g : Stage) (mxRow : Nat) (ch : Chain) : Chain :=
  let cv := s.convOf g
  let fe := mget {} s.fmt g.fid
  let leg := if o.f 0 9 1 = 1 then o.seed else s.legNow
  let opened := if g.stats then mset {} ch.opened g.fid (ch.es.foldl (fun ob e => ob.add fe.eRef e.v.1) (mget {} ch.opened g.fid)) else ch.opened
  let blocks := if cv.2.1 = 2 then (chunksOf ch.es.length mxRow ch.es).flatMap (fun r => chunksOf r.length 32 r) else [ch.es]
  let scales := if cv.2.1 = 2 then blocks.map (fun b => (blockScale (b.map (·.v.1)), b.any (·.v.2))) else []
  let scaled := if cv.2.1 = 2 then ((blocks.zip scales).flatMap (fun p => p.1.map (fun e => (vscale (127 - (p.2.1 : Int)) e.v.1, e.v.2 || p.2.2))))
    else if cv.2.1 = 1 then ch.es.map (fun e => (vscale fe.scaleExp e.v.1, e.v.2)) else ch.es.map (·.v)
  let cs := (scaled.zipIdx 0).map (fun p =>
    (convTo cv.1 cv.2.2 (if g.sr then some (randomBits s.num.seed leg (o.f 20 0 32) p.2) else none) p.1.1, p.1.2))
  let satN := (cs.filter (fun q => q.1.sat)).length
  let opened' := if g.stats then mset {} opened g.fid (let ob := mget {} opened g.fid; { ob with saturated := sat 32 (ob.saturated + satN) }) else opened
  { ch with
    es := (ch.es.zip cs).map (fun p => { p.1 with v := (elemVal cv.1 p.2.1.bits, p.2.2) })
    satN := ch.satN + satN
    nanN := ch.nanN + (cs.filter (fun q => q.1.nanLost)).length
    opened := opened'
    scales := scales
    raw := cs.map (fun q => (q.1.bits, q.2)) }

/-- One stage over the stream. -/
def State.runStage (s : State) (o : Op) (ia ib : List PVal) (rowLen mxRow : Nat) (g : Stage) (i : Nat) (ch : Chain) : Chain :=
  let bfl := o.f 0 23 1 == 1
  let f := if bfl then bf16 else fp32
  let rl := roundRne f
  let zero : PVal := (.fin false 0 0, false)
  let cst : PVal := (rl (dec fp32 g.const), false)
  let src (k : Nat) (p : Elem × Nat) : PVal :=
    if k = 0 then p.1.v else if k = 1 then nth zero ia p.2 else if k = 2 then nth zero ib p.2 else cst
  let xs := (ch.es.zipIdx 0).map (fun p => { p.1 with v := src g.sx p })
  let nxt : Chain :=
    if g.func = 0x30 then s.convStage o g mxRow { ch with es := xs }
    else if g.func = 0x3C then
      let rows := chunksOf xs.length rowLen xs
      let tops := rows.map (fun r => (topK g.target ((r.map (·.v.1)).zipIdx 0), r.any (·.v.2)))
      { ch with
        es := tops.flatMap (fun t => t.1.map (fun e => { v := (e.1, t.2), flag := false, fp := false }))
        raw := tops.flatMap (fun t => t.1.map (fun e => (enc fp32 e.1, t.2)) ++ t.1.map (fun e => (e.2, t.2))) }
    else if isRed g.func then
      let mag (p : PVal) : PVal := if g.func = 0x3B then (p.1.abs, p.2) else p
      let rows := chunksOf xs.length rowLen xs
      { ch with
        es := rows.map (fun r =>
          let d := r.map (fun e => some (mag e.v))
          { v := ((treeRow (redFn rl g.func) (if bfl then 7 else 6) d).getD (redIdentity g.func, false)), flag := false, fp := false })
        raw := [] }
    else { ch with es := (ch.es.zipIdx 0).map (fun p => stageFn rl g cst.1 p.1 (src g.sx p) (src g.sy p)), raw := [] }
  if i = o.f 0 6 3 then { nxt with obsAt := nxt.es } else nxt

/-- All stages in order. -/
def State.runStages (s : State) (o : Op) (ia ib : List PVal) (rowLen mxRow : Nat) : List Stage → Nat → Chain → Chain
  | [], _, ch => ch
  | g :: r, i, ch => s.runStages o ia ib rowLen mxRow r (i + 1) (s.runStage o ia ib rowLen mxRow g i ch)

/-- The largest finite magnitude of a list as FP32, +0 with none (R230, R237). -/
def amaxOf (vs : List Val) : W32 :=
  vs.foldl (fun (a : W32) v => match v with | .fin _ m e => let w := r32 (.fin false m e); if a.toNat < w.toNat then w else a | _ => a) 0

/-- Whether a value is NaN or infinite. -/
def Val.nonFinite : Val → Bool
  | .fin _ _ _ => false
  | _ => true

/-- Summaries of an operation that formed no element. -/
def vecNone : List Nat := [0, 0, 0, 0, 0, 0xFFFFFFFF]

/-- VEC_RUN on a core, its drain values given where it pairs with the array, with the cycle by which the chain had them all:
outputs, observations, summaries, counters, cycles (R227, R229, R230). (DESIGN CHOICE, log 7) -/
def State.vecGo (s : State) (c : Nat) (o : Op) (drain : Option (List PWord × Nat)) (z : Nat) : State :=
  let k := s.core c
  let bfl := o.f 0 23 1 == 1
  let rl := roundRne (if bfl then bf16 else fp32)
  let n := o.f 4 0 21
  let rowLen := o.f 8 16 16 + 1
  let st := k.vecStages o
  let lastS := st.getLastD (stageOf 0)
  let af := o.f 0 14 4
  let ia : List PVal := match drain with
    | some (l, _) => (l.zipIdx 0).map (fun p =>
        let v := elemVal af p.1.1.toNat
        if o.f 24 30 2 = 1 then let sc := k.csWord (64 * o.f 28 0 15); (rl (vmul v (v32 sc.1)), p.1.2 || sc.2) else (rl v, p.1.2))
    | none => if o.f 0 21 2 = 0 then (List.range n).map (k.vecIn rl af (o.f 12 0 15) (o.f 24 30 2) (o.f 28 0 15) rowLen) else []
  let ib := if o.f 0 20 1 = 1 then (List.range n).map (k.vecIn rl (o.f 0 10 4) (o.f 12 16 15) (o.f 24 28 2) (o.f 28 16 15) rowLen) else []
  let zero : PVal := (.fin false 0 0, false)
  let ch0 : Chain := { es := (List.range n).map (fun i => { v := nth zero ia i, flag := false, fp := false }), satN := 0, nanN := 0, opened := s.gov.opened, scales := [], raw := [], obsAt := [] }
  let ch := s.runStages o ia ib rowLen (vecMxRow st n rowLen) st 0 ch0
  let outB := s.outBits o lastS
  let raw : List (Nat × Bool) := if ch.raw.isEmpty then ch.es.map (fun e => (enc (if bfl then bf16 else fp32) e.v.1, e.v.2)) else ch.raw
  let words : List PWord := raw.map (fun e => (BitVec.ofNat 32 e.1, e.2))
  let od := o.f 0 18 2
  let k1 := if od = 0 then k.csWrite (64 * o.f 16 0 15) (packElems outB raw)
    else if od = 3 then k else k.potApply (od == 2) (16 * o.f 16 0 12) words
  let k2 := if ch.scales.isEmpty || od = 3 then k1 else k1.csWrite (64 * o.f 16 16 15) (packElems 8 ch.scales)
  let obs := ch.obsAt
  let vals := [sat 32 (obs.filter (·.flag)).length, (amaxOf (obs.map (·.v.1))).toNat, sat 32 (obs.filter (fun e => e.v.1.nonFinite)).length,
    sat 32 ch.satN, sat 32 ch.nanN, (raw.getLastD (0xFFFFFFFF, false)).1]
  let np := (if o.f 0 21 2 = 0 then k.csPoisoned (64 * o.f 12 0 15) (cdiv (n * elemBits af) 8) else ((drain.getD ([], 0)).1.filter (·.2)).length)
    + (if o.f 0 20 1 = 1 then k.csPoisoned (64 * o.f 12 16 15) (cdiv (n * elemBits (o.f 0 10 4)) 8) else 0)
    + (if (ia ++ ib).any (·.2) then 1 else 0)
  let poisoned := (ia ++ ib).any (·.2)
  let status := if poisoned then 0x90 else 0
  let k3 := (k2.counts [(0xD8, n), (0xE0, z)]).poisonCounts (if poisoned then max 1 (np - 1) else 0) status
  let t := s.setCore c (match drain with
    | some (_, whole) => k3.start .vec o whole status (24 + z) vals false 0
    | none => k3.start .vec o s.cycles status (36 + cdiv n (if bfl then 128 else 64) + z) vals false 0)
  { t with gov := { t.gov with opened := ch.opened } }

/-- VEC_RUN ended before its first element (R227, R230). -/
def State.vecFail (s : State) (c : Nat) (o : Op) (status : Nat) : State :=
  s.updCore c (fun k => (k.poisonCounts 0 status).start .vec o s.cycles status 12 vecNone false 0)

/-- VEC_RUN: one fed from the drain waits until the chain has all of its array operation's runs, and ends with VEC_FORMAT or
VEC_PAIRING where that operation failed (R228). (DEDUCED, log 17) -/
def execVecRun (c : CoreIx) (z : Nat) (s : State) : Out :=
  match s.head c.val .vec 0x20 with
  | none => .next s
  | some o =>
    if o.f 0 21 2 = 1 then
      match (s.core c.val).pairs.find? (fun p => p.vecId == some o.id) with
      | none => .next s
      | some p =>
        let s1 := s.updCore c.val (fun k => { k with pairs := k.pairs.filter (fun q => q.vecId != some o.id) })
        if p.failed then .next (s1.vecFail c.val o (if drainFmtBad o p.int then 0x61 else 0x64))
        else
          match p.whole with
          | none => .next s
          | some t => .next (if s.vecStatic c.val o = 0 then s1.vecGo c.val o (some (p.vals, t)) z else s1.vecFail c.val o 0x64)
    else
      match s.vecStatic c.val o with
      | 0 => .next (s.vecGo c.val o none z)
      | e => .next (s.vecFail c.val o e)

/-- VEC_RUN_END. -/
def execVecRunEnd (c : CoreIx) (s : State) : Out := .next (s.retire c.val .vec)

end Sys2Proof.Machine
end

