-- ==== Sys2Proof/Machine/Row.lean ====
section
/-! DEFINITION. The row engine: softmax, layer and RMS normalisation forward and backward, the distillation loss and
the statistics store (08_vector_row R232 to R239). -/

namespace Sys2Proof.Machine

/-! ### FP32 operations with poison -/

/-- One FP32 operation of two operands. -/
def p2 (g : Val → Val → Val) (a b : PVal) : PVal := (roundRne fp32 (g a.1 b.1), a.2 || b.2)
/-- a + b. -/
def pAdd (a b : PVal) : PVal := p2 vadd a b
/-- a − b. -/
def pSub (a b : PVal) : PVal := p2 (fun x y => vadd x y.negate) a b
/-- a × b. -/
def pMul (a b : PVal) : PVal := p2 vmul a b
/-- a × b + c, rounded once. -/
def pFma (a b c : PVal) : PVal := (roundRne fp32 (vadd (vmul a.1 b.1) c.1), a.2 || b.2 || c.2)
/-- A table function. -/
def pFn (f : Val → Val) (a : PVal) : PVal := (f a.1, a.2)
/-- A clean zero. -/
def pZero : PVal := (.fin false 0 0, false)
/-- A word as a value. -/
def pWord (w : PWord) : PVal := (v32 w.1, w.2)
/-- A value as a word. -/
def wordP (v : PVal) : PWord := (r32 v.1, v.2)
/-- Sum of a row by the beat tree, +0 when all are missing. -/
def treeSum (l : List (Option PVal)) : PVal := (treeRow pAdd 6 l).getD pZero
/-- Maximum of a row by the beat tree, −∞ when all are missing. -/
def treeMax (l : List (Option PVal)) : PVal := (treeRow (fun a b => (fnMax a.1 b.1, a.2 || b.2)) 6 l).getD (.inf true, false)

/-- The elements of a row where they are kept. -/
def masked (keep : List Bool) (l : List PVal) : List (Option PVal) := keep.zipWith (fun k v => if k then some v else none) l

/-! ### Row functions (R232) -/

/-- What a row leaves: outputs, statistics, loss or confidence, dγ and dβ. -/
structure RowOut where
  y : List PVal
  stat : PVal × PVal
  loss : PVal
  dg : List PVal
  db : List PVal
deriving DecidableEq, Repr

/-- An empty result with outputs only. -/
def rowY (y : List PVal) : RowOut := { y := y, stat := (pZero, pZero), loss := pZero, dg := [], db := [] }

/-- Outputs where elements are kept, +0 where they are masked. -/
def keepOr (keep : List Bool) (y : List PVal) : List PVal := keep.zipWith (fun k v => if k then v else pZero) y

/-- The softmax of a row: scaled elements, maximum, exponentials, sum and its reciprocal. -/
def softmaxParts (sc : PVal) (keep : List Bool) (x : List PVal) : List PVal × PVal × List PVal × PVal × PVal :=
  let z := x.map (fun v => pMul v sc)
  let m := treeMax (masked keep z)
  let e := z.map (fun v => pFn fExp (pSub v m))
  let sm := treeSum (masked keep e)
  (z, m, e, sm, pFn fRecip sm)

/-- softmax_fwd. -/
def softmaxFwdRow (sc : PVal) (keep : List Bool) (x : List PVal) : RowOut :=
  if keep.any id then
    let q := softmaxParts sc keep x
    { rowY (keepOr keep (q.2.2.1.map (fun v => pMul v q.2.2.2.2))) with stat := (q.2.1, q.2.2.2.2) }
  else { rowY (x.map (fun _ => pZero)) with stat := ((.inf true, false), pZero) }

/-- softmax_bwd, y recomputed from the statistics. -/
def softmaxBwdRow (sc m rs : PVal) (keep : List Bool) (x dy : List PVal) : RowOut :=
  let y := x.map (fun v => pMul (pFn fExp (pSub (pMul v sc) m)) rs)
  let d := treeSum (masked keep (dy.zipWith pMul y))
  rowY (keepOr keep ((y.zip dy).map (fun p => pMul (pMul p.1 (pSub p.2 d)) sc)))

/-- n_inv. -/
def nInv (n : Nat) : PVal := (vdiv fp32 (vnat 1) (vnat n), false)

/-- All elements present. -/
def allIn (l : List PVal) : List (Option PVal) := l.map some

/-- ln_fwd. -/
def lnFwdRow (aff : Bool) (eps : PVal) (g b x : List PVal) : RowOut :=
  let ni := nInv x.length
  let mu := pMul (treeSum (allIn x)) ni
  let d := x.map (fun v => pSub v mu)
  let v := pMul (treeSum (allIn (d.map (fun e => pMul e e)))) ni
  let rstd := pFn fRsqrt (pAdd v eps)
  let xh := d.map (fun e => pMul e rstd)
  { rowY (if aff then (xh.zip (g.zip b)).map (fun p => pFma p.1 p.2.1 p.2.2) else xh) with stat := (mu, rstd) }

/-- rms_fwd. -/
def rmsFwdRow (aff : Bool) (eps : PVal) (g x : List PVal) : RowOut :=
  let rstd := pFn fRsqrt (pAdd (pMul (treeSum (allIn (x.map (fun v => pMul v v)))) (nInv x.length)) eps)
  let y := x.map (fun v => pMul v rstd)
  { rowY (if aff then y.zipWith pMul g else y) with stat := (pZero, rstd) }

/-- ln_bwd and rms_bwd. -/
def normBwdRow (ln aff : Bool) (mu rstd : PVal) (g x dy : List PVal) : RowOut :=
  let ni := nInv x.length
  let xh := x.map (fun v => if ln then pMul (pSub v mu) rstd else pMul v rstd)
  let gy := if aff then dy.zipWith pMul g else dy
  let c1 := if ln then pMul (treeSum (allIn gy)) ni else pZero
  let c2 := pMul (treeSum (allIn (gy.zipWith pMul xh))) ni
  { rowY ((gy.zip xh).map (fun p => pMul rstd (pSub (pSub p.1 c1) (pMul p.2 c2)))) with
    dg := dy.zipWith pMul xh
    db := if ln then dy else [] }

/-- kd_loss, student x and teacher t. -/
def kdLossRow (sc gs : PVal) (keep : List Bool) (x t : List PVal) : RowOut :=
  if keep.any id then
    let qx := softmaxParts sc keep x
    let qt := softmaxParts sc keep t
    let lp (u : List PVal) (q : List PVal × PVal × List PVal × PVal × PVal) : List PVal :=
      let lg := pFn fLog q.2.2.2.1
      (u.zip q.1).map (fun p => pSub (pSub p.2 q.2.1) lg)
    let px := qx.2.2.1.map (fun v => pMul v qx.2.2.2.2)
    let pt := qt.2.2.1.map (fun v => pMul v qt.2.2.2.2)
    let dl := (lp t qt).zipWith pSub (lp x qx)
    { rowY (keepOr keep ((px.zip pt).map (fun p => pMul (pSub p.1 p.2) gs))) with loss := treeSum (masked keep (pt.zipWith pMul dl)) }
  else rowY (x.map (fun _ => pZero))

/-! ### ROW_OP -/

/-- FUNC of a row operation. -/
def Op.rowFunc (o : Op) : Nat := o.f 0 20 4

/-- Formats the row engine takes (R235). -/
def rowFmtOk (c : Nat) : Bool := c == 0 || c == 1 || c == 6 || c == 7 || c == 8

/-- The status that ends a ROW_OP: found before it reads its first element, or POT_RANGE (R232, R235, R236, R238). -/
def rowStatus (o : Op) : Nat :=
  let f := o.rowFunc
  let mm := o.f 0 10 2
  let aff := o.f 0 9 1 == 1
  let gp := o.f 0 8 1 == 1
  let conf := o.f 0 7 1 == 1
  let rows := o.f 4 16 16
  let n := o.f 4 0 14 + 1
  let stat := f == 7 || f == 8
  let sm := f == 0 || f == 1 || f == 6
  let bwdN := f == 3 || f == 5
  let config := !o.zeros [(0, 0, 7), (4, 14, 2), (8, 31, 1), (8, 15, 1), (12, 31, 1), (12, 15, 1), (16, 29, 3), (16, 12, 4), (28, 31, 1), (28, 15, 1)]
    || decide (9 ≤ f) || mm == 3 || !rowFmtOk (o.f 0 16 4) || !rowFmtOk (o.f 0 12 4)
    || (mm != 0 && !sm) || (aff && (sm || stat)) || (gp && !(bwdN && aff)) || (conf && !(f == 0 || f == 6)) || (f == 6 && !conf)
  let xb := if f = 8 then 8 * rows else if f = 7 then 0 else cdiv (rows * n * elemBits (o.f 0 16 4)) 8
  let dyb := if f = 1 ∨ f = 3 ∨ f = 5 ∨ f = 6 then cdiv (rows * n * elemBits (o.f 0 16 4)) 8 else 0
  let yb := if f = 7 then 8 * rows else if f = 8 then 0 else cdiv (rows * n * elemBits (o.f 0 12 4)) 8
  let pb := if aff then 4 * n * (if f = 2 then 2 else 1) else 0
  let mb := if mm = 2 then rows * cdiv n 8 else 0
  let cb := if f = 6 then 4 * rows else if conf then cdiv rows 8 else 0
  let shape := rows == 0 || decide (8192 < o.f 16 16 13 + rows) || csOver (64 * o.f 8 0 15) xb || csOver (64 * o.f 8 16 15) dyb
    || csOver (64 * o.f 12 0 15) yb || csOver (64 * o.f 12 16 15) pb || csOver (64 * o.f 28 16 15) mb || csOver (64 * o.f 28 0 15) cb
  let pot := gp && decide (65536 < 16 * o.f 16 0 12 + n * (if f = 3 then 2 else 1))
  firstFail [(config, 0x65), (shape, 0x66), (pot, 0x29)]

/-- A statistics word with its poison; entry `e`, word `w`. An uncorrectable word is delivered poisoned (R234, R365). -/
def Core.statGet (k : Core) (e w : Nat) : PWord :=
  let v := mget (0, false) k.stats (2 * e + w)
  (v.1, v.2 || k.flaw .stats (2 * e + w) == 2)
/-- A statistics word written. -/
def Core.statSet (k : Core) (e w : Nat) (v : PWord) : Core :=
  { k.mend .stats (2 * e + w) with stats := mset (0, false) k.stats (2 * e + w) v }

/-- The statistics words of an operation's rows (R234). -/
def Op.statWords (o : Op) : List Nat := (List.range (2 * o.f 4 16 16)).map (fun i => 2 * o.f 16 16 13 + i)

/-- Whether a function reads its rows' statistics (R236). -/
def rowReadsStats (f : Nat) : Bool := f == 1 || f == 3 || f == 5

/-- The kept elements of row `r` (R235). -/
def Core.rowKeep (k : Core) (o : Op) (r n : Nat) : List Bool :=
  let mm := o.f 0 10 2
  (List.range n).map (fun (j : Nat) =>
    if mm = 1 then decide ((j : Int) ≤ (r : Int) + sgn (o.f 28 16 15) 15)
    else if mm = 2 then (k.csElem (64 * o.f 28 16 15 + r * cdiv n 8) j 1).1 == 1
    else true)

/-- Whether a mask bit of row `r` is poisoned. -/
def Core.maskPoison (k : Core) (o : Op) (r n : Nat) : Bool :=
  o.f 0 10 2 == 2 && (k.csRead (64 * o.f 28 16 15 + r * cdiv n 8) (cdiv n 8)).any (·.2)

/-- One row of a row operation. A poisoned statistics word poisons every output of its row (R234). -/
def Core.rowGo (k : Core) (o : Op) (r : Nat) : RowOut :=
  let f := o.rowFunc
  let n := o.f 4 0 14 + 1
  let fm := o.f 0 16 4
  let at' (line i : Nat) : PVal := let x := k.csElem (64 * line) ((r * n + i) * elemBits fm) (elemBits fm); (elemVal fm x.1, x.2)
  let x := (List.range n).map (at' (o.f 8 0 15))
  let d := (List.range n).map (at' (o.f 8 16 15))
  let par (i : Nat) : List PVal := (List.range n).map (fun j => pWord (k.csWord (64 * o.f 12 16 15 + 4 * (i * n + j))))
  let keep := k.rowKeep o r n
  let sc : PVal := (dec fp32 (o.f 20 0 32), false)
  let aux : PVal := (dec fp32 (o.f 24 0 32), false)
  let aff := o.f 0 9 1 == 1
  let s0 := pWord (k.statGet (o.f 16 16 13 + r) 0)
  let s1 := pWord (k.statGet (o.f 16 16 13 + r) 1)
  let out := match f with
    | 0 => softmaxFwdRow sc keep x
    | 1 => softmaxBwdRow sc s0 s1 keep x d
    | 2 => lnFwdRow aff aux (par 0) (par 1) x
    | 3 => normBwdRow true aff s0 s1 (par 0) x d
    | 4 => rmsFwdRow aff aux (par 0) x
    | 5 => normBwdRow false aff s0 s1 (par 0) x d
    | _ => kdLossRow sc aux keep x d
  if k.maskPoison o r n then
    { out with y := out.y.map (fun v => (v.1, true)), stat := ((out.stat.1.1, true), (out.stat.2.1, true)), loss := (out.loss.1, true) }
  else if rowReadsStats f && (s0.2 || s1.2) then
    let bad (l : List PVal) : List PVal := l.map (fun v => (v.1, true))
    { out with y := bad out.y, dg := bad out.dg, db := bad out.db }
  else out

/-- P of R237. -/
def rowPasses (f : Nat) : Nat := if f = 0 ∨ f = 2 ∨ f = 3 then 3 else if f = 6 then 4 else 2

/-- Poisoned words among a row operation's inputs. -/
def Core.rowOpPoison (k : Core) (o : Op) : Nat :=
  let f := o.rowFunc
  let rows := o.f 4 16 16
  let n := o.f 4 0 14 + 1
  let xb := cdiv (rows * n * elemBits (o.f 0 16 4)) 8
  let bwd := rowReadsStats f
  k.csPoisoned (64 * o.f 8 0 15) xb + (if bwd || f == 6 then k.csPoisoned (64 * o.f 8 16 15) xb else 0)
  + (if o.f 0 9 1 = 1 then k.csPoisoned (64 * o.f 12 16 15) (4 * n * (if f = 2 then 2 else 1)) else 0)
  + (if o.f 0 10 2 = 2 then k.csPoisoned (64 * o.f 28 16 15) (rows * cdiv n 8) else 0)
  + (if bwd then (o.statWords.filter (fun i => (k.statGet (i / 2) (i % 2)).2)).length else 0)

/-- A row operation that passed its checks, statistics copies apart. -/
def State.rowRunFn (s : State) (c : Nat) (o : Op) (z : Nat) : State :=
  let k := s.core c
  let f := o.rowFunc
  let rows := o.f 4 16 16
  let n := o.f 4 0 14 + 1
  let outs := (List.range rows).map (k.rowGo o)
  let of' := o.f 0 12 4
  let conv := outs.map (fun r => r.y.map (fun v => (convTo of' false none v.1, v.2)))
  let slot := o.f 16 16 13
  let k1 := k.csWrite (64 * o.f 12 0 15) (packElems (elemBits of') (conv.flatten.map (fun q => (q.1.bits, q.2))))
  let k2 := if f = 0 ∨ f = 2 ∨ f = 4 then
      (outs.zipIdx 0).foldl (fun x r => (x.statSet (slot + r.2) 0 (wordP r.1.stat.1)).statSet (slot + r.2) 1 (wordP r.1.stat.2)) k1
    else k1
  let thr := dec fp32 (o.f 24 0 32)
  let goes (r : RowOut) : Bool := vlt r.stat.2.1 thr
  let bitmap := outs.map (fun r => (b2n (goes r), r.stat.2.2))
  let k3 := if f = 6 then k2.csWords (64 * o.f 28 0 15) (outs.map (fun r => wordP r.loss))
    else if o.f 0 7 1 = 1 then k2.csWrite (64 * o.f 28 0 15) (packElems 1 bitmap) else k2
  let pot := 16 * o.f 16 0 12
  let k4 := if o.f 0 8 1 = 1 then outs.foldl (fun x r => (x.potApply false pot (r.dg.map wordP)).potApply false (pot + n) (r.db.map wordP)) k3 else k3
  let outV := conv.map (fun r => r.map (fun q => elemVal of' q.1.bits))
  let empty := ((List.range rows).filter (fun r => !(k.rowKeep o r n).any id)).length
  let amax := if f = 6 then (outs.map (·.loss.1)).foldl (fun (a : Option Val) v => match a with | none => some v | some x => some (if vlt x v then v else x)) none |>.map r32 |>.getD 0
    else amaxOf outV.flatten
  let vals := [rows, if f = 0 ∧ o.f 0 7 1 = 1 then (outs.filter (fun r => vlt thr r.stat.2.1 || veq thr r.stat.2.1)).length else 0, empty,
    (outV.filter (fun r => r.any (·.nonFinite))).length, (conv.flatten.filter (fun q => q.1.sat)).length, amax.toNat]
  let np := k.rowOpPoison o
  let status := withPoison 0 np
  let k5 := (k4.counts [(0xE8, rows), (0xF0, z), (0xF8, if rowReadsStats f then k.flips .stats o.statWords else 0)]).poisonCounts np status
  s.setCore c (k5.start .row o s.cycles status (12 + rows * (rowPasses f * cdiv n 64 + 16) + z) vals false 0)

/-- A row operation ended before its first element. -/
def State.rowFail (s : State) (c : Nat) (o : Op) (status : Nat) : State :=
  s.updCore c (fun k => k.start .row o s.cycles status 12 [0, 0, 0, 0, 0, 0] false 0)

/-- A ROW_OP whose dγ or dβ would pass the end of the pot: its additions are made in order, rows ascending and in each row
ascending j, up to the first element beyond line 4,095. It ends there with POT_RANGE, nothing else of it takes effect, and
the additions made stand (R232, R238). (DEDUCED, log 87) -/
def State.rowOverPot (s : State) (c : Nat) (o : Op) (z : Nat) : State :=
  let k := s.core c
  let n := o.f 4 0 14 + 1
  let ln := o.rowFunc == 3
  let pot := 16 * o.f 16 0 12
  let r := k.rowGo o 0
  let ng := if ln then min n (65537 - pot - n) else min n (65536 - pot)
  let nb := if ln then min n (65536 - pot - n) else 0
  let k1 := (k.potApply false pot ((r.dg.take ng).map wordP)).potApply false (pot + n) ((r.db.take nb).map wordP)
  s.setCore c ((k1.count 0xF0 z).start .row o s.cycles 0x29 (12 + rowPasses o.rowFunc * cdiv n 64 + 16 + z) [0, 0, 0, 0, 0, 0] false 0)

/-- STAT_SAVE and STAT_LOAD (R234). -/
def State.statCopy (s : State) (c : Nat) (o : Op) (z : Nat) : State :=
  let k := s.core c
  let rows := o.f 4 16 16
  let slot := o.f 16 16 13
  let save := o.rowFunc == 7
  let srcW : List PWord := if save then o.statWords.map (fun i => k.statGet (i / 2) (i % 2))
    else (List.range (2 * rows)).map (fun i => k.csWord (64 * o.f 8 0 15 + 4 * i))
  let k1 := if save then k.csWords (64 * o.f 12 0 15) srcW
    else { o.statWords.foldl (fun x i => x.mend .stats i) k with stats := msetRun (0, false) k.stats (2 * slot) srcW }
  let np := (srcW.filter (·.2)).length
  let status := withPoison 0 np
  let k2 := (k1.counts [(0xE8, rows), (0xF0, z), (0xF8, if save then k.flips .stats o.statWords else 0)]).poisonCounts np status
  s.setCore c (k2.start .row o s.cycles status (12 + cdiv rows 8 + z) [rows, 0, 0, 0, 0, 0] false 0)

/-- A ROW_OP of one FUNC at the head of the queue. (DESIGN CHOICE, log 3) -/
def State.rowCmd (s : State) (c : Nat) (f z : Nat) : Out :=
  match s.head c .row 0x24 with
  | none => .next s
  | some o =>
    if o.rowFunc ≠ f then .next s
    else match rowStatus o with
      | 0 => .next (if f = 7 ∨ f = 8 then s.statCopy c o z else s.rowRunFn c o z)
      | 0x29 => .next (s.rowOverPot c o z)
      | e => .next (s.rowFail c o e)

/-- SOFTMAX_FWD (R232, R233). -/
def execSoftmaxFwd (c : CoreIx) (z : Nat) (s : State) : Out := s.rowCmd c.val 0 z
/-- SOFTMAX_BWD (R232). -/
def execSoftmaxBwd (c : CoreIx) (z : Nat) (s : State) : Out := s.rowCmd c.val 1 z
/-- LN_FWD (R232, R234). -/
def execLnFwd (c : CoreIx) (z : Nat) (s : State) : Out := s.rowCmd c.val 2 z
/-- LN_BWD (R232, R234). -/
def execLnBwd (c : CoreIx) (z : Nat) (s : State) : Out := s.rowCmd c.val 3 z
/-- RMS_FWD (R232, R234). -/
def execRmsFwd (c : CoreIx) (z : Nat) (s : State) : Out := s.rowCmd c.val 4 z
/-- RMS_BWD (R232, R234). -/
def execRmsBwd (c : CoreIx) (z : Nat) (s : State) : Out := s.rowCmd c.val 5 z
/-- KD_LOSS (R232). -/
def execKdLoss (c : CoreIx) (z : Nat) (s : State) : Out := s.rowCmd c.val 6 z
/-- STAT_SAVE (R234). -/
def execStatSave (c : CoreIx) (z : Nat) (s : State) : Out := s.rowCmd c.val 7 z
/-- STAT_LOAD (R234). -/
def execStatLoad (c : CoreIx) (z : Nat) (s : State) : Out := s.rowCmd c.val 8 z

/-- ROW_OP_END: the running operation ends. With none running, a head operation of a reserved FUNC ends with
ROW_CONFIG, since no other command names it (R235). (DEDUCED, log 36) -/
def execRowOpEnd (c : CoreIx) (s : State) : Out :=
  match s.head c.val .row 0x24 with
  | some o => if 9 ≤ o.rowFunc then .next ((s.rowFail c.val o 0x65).retire c.val .row) else .next (s.retire c.val .row)
  | none => .next (s.retire c.val .row)

end Sys2Proof.Machine
end

