-- ==== Sys2Proof/Machine/Merge.lean ====
section
/-! DEFINITION. The merge engine and the kettle: gather, scatter, segmented reduction, sort, compaction, bitmap tiles,
the compressor, and the hash-indexed accumulator (07_merge_engine R193 to R215, R512; 06_sparsity R178 to R190). -/

namespace Sys2Proof.Machine

/-! ### Ranges, statuses and the course of an operation -/

/-- "None" in MERGE_POS (R213). -/
def posNone : Nat := 0xFFFFFFFF

/-- Two core-store ranges (start, bytes) share a byte. -/
def rangeHit (a b : Nat × Nat) : Bool := overlaps a.1 a.2 b.1 b.2

/-- Some two ranges of a list share a byte. (DEDUCED, log 37) -/
def anyOverlap : List (Nat × Nat) → Bool
  | [] => false
  | r :: q => q.any (rangeHit r) || anyOverlap q

/-- Some range runs beyond line 32,767. -/
def anyOver (l : List (Nat × Nat)) : Bool := l.any (fun r => csOver r.1 r.2)

/-- ROW_WORDS of an operation. -/
def Op.rowWords (o : Op) : Nat := o.f 0 0 10 + 1

/-- N of a row operation. -/
def Op.posN (o : Op) : Nat := o.f 4 16 16

/-- A 64-bit field of an operation. -/
def Op.f64 (o : Op) (off : Nat) : Nat := o.f off 0 32 + 2 ^ 32 * o.f (off + 4) 0 32

/-- What a merge operation leaves. -/
structure MergeOut where
  st : State
  status : Nat
  cycles : Nat
  count : Nat
  pos : Nat
  rows : Nat
  poison : Nat
  waitHost : Bool
deriving DecidableEq, Repr

/-- An operation that ends with a status found before its first read (R512). -/
def mergeEarly (s : State) (status : Nat) : MergeOut :=
  { st := s, status := status, cycles := 12, count := 0, pos := posNone, rows := 0, poison := 0, waitHost := false }

/-- The operation started with what it leaves, its counters moved (R215, R380). (DESIGN CHOICE, log 7) -/
def State.mergeStart (s : State) (c : Nat) (o : Op) (z : Nat) (m : MergeOut) : State :=
  let w := if m.cycles = 12 ∧ m.status ≠ 0 then 0 else z
  (m.st.ownLines s.lnk.postLines.length s.chk.queue.length c o.id).updCore c (fun k => ((k.counts [(0x98, m.rows), (0xD0, w)]).poisonCounts m.poison m.status).start .merge o s.cycles m.status
    (m.cycles + w) [m.count, m.pos] m.waitHost 0)

/-- A merge command: the operation of opcode `opc` at the head of the queue, when it is one of the kind named. (DESIGN CHOICE, log 3) -/
def State.mergeCmd (s : State) (c opc z : Nat) (kind : Op → Bool) (run : Op → MergeOut) : Out :=
  match s.head c .merge opc with
  | none => .next s
  | some o => if kind o then .next (s.mergeStart c o z (run o)) else .next s

/-- Every merge operation of the opcode. -/
def anyOp (_ : Op) : Bool := true

/-- Poisoned words of a list. -/
def poisoned (ws : List PWord) : Nat := (ws.filter (·.2)).length

/-- Packed core-store words. -/
def Core.csRun (k : Core) (a n : Nat) : List PWord := (List.range n).map (fun i => k.csWord (a + 4 * i))

/-! ### Gather and scatter (R197 to R201) -/

/-- A resolved index: its table row, none where the position is discarded, and whether it was adjusted (R198). -/
def resolveIdx (mode rows : Nat) (i : Int) : Option Nat × Bool :=
  if 0 ≤ i ∧ i < (rows : Int) then (some i.toNat, false)
  else if mode = 0 then (some (i % (rows : Int)).toNat, true)
  else if mode = 1 then (some (if i < 0 then 0 else rows - 1), true)
  else (none, true)

/-- An index of the list with its poison. -/
def Core.idxAt (k : Core) (o : Op) (p : Nat) : Int × Bool :=
  let w := k.csWord (64 * o.f 4 0 15 + 4 * p)
  (w.1.toInt, w.2)

/-- A gather or scatter as it proceeds: requests, the hot rows with their words, oldest first, and how many were entered,
counts, and where it stopped. -/
structure GsRun where
  m : MemRun
  hot : List (Nat × List PWord)
  entered : Nat
  hits : Nat
  adj : Nat
  firstAdj : Option Nat
  count : Nat
  done : Nat
  cost : Nat
  poison : Nat
  stop : Option (Nat × Nat)
deriving DecidableEq, Repr

/-- Lines of a row. -/
def rowLines (rw : Nat) : Nat := cdiv (4 * rw) 64

/-- The hot-row buffer with a row of at most 128 words entered, the earliest leaving when it is full (R200). -/
def GsRun.hotPut (g : GsRun) (rw r : Nat) (ws : List PWord) : GsRun :=
  if 128 < rw then g
  else { g with hot := (if 16 ≤ g.hot.length then g.hot.drop 1 else g.hot) ++ [(r, ws)], entered := g.entered + 1 }

/-- The place of a row in the hot-row buffer, none where the buffer does not hold or does not serve it (R200). -/
def GsRun.held (g : GsRun) (sp rw r : Nat) : Option Nat := if sp = 2 ∨ 128 < rw then none else g.hot.findIdx? (fun h => h.1 == r)

/-- The words of a held row read: single-bit errors are corrected and counted, and an uncorrectable word makes the buffer
discard it, so that the row is read again from its table (R200, R215). (DESIGN CHOICE, log 13) -/
def GsRun.hotRead (g : GsRun) (c rw i : Nat) : GsRun × Bool :=
  let k := g.m.st.core c
  let ws := (List.range rw).map (fun j => 128 * ((g.entered - g.hot.length + i) % 16) + j)
  let k1 := (ws.foldl (fun (x : Core) w => x.mend .hotRow w) k).count 0xC8 (k.flips .hotRow ws)
  ({ g with m := { g.m with st := g.m.st.setCore c k1 } }, ws.any (fun w => k.flaw .hotRow w == 2))

/-- The byte address of a table row. -/
def Op.rowAddr (o : Op) (r : Nat) : Nat := o.f64 0x10 + r * o.f 0x18 0 32

/-- Bytes from the table's base to the end of its last row. (DEDUCED, log 37) -/
def Op.tableEnd (o : Op) : Nat := o.rowAddr (o.f 0xC 0 31 - 1) + 4 * o.rowWords

/-- Cycles of a position (R201). -/
def Op.posCost (o : Op) (row : Option Nat) : Nat :=
  let l := rowLines o.rowWords
  match row with
  | none => l
  | some r => if o.f 0 22 2 ≠ 2 ∧ o.rowAddr r % 64 ≠ 0 then l + 1 else l

/-- A table row read by GATHER: from the core store, the pot, the hot-row buffer or device memory. -/
def GsRun.fetch (g : GsRun) (o : Op) (c r : Nat) : GsRun × List PWord :=
  let rw := o.rowWords
  let a := o.rowAddr r
  let sp := o.f 0 22 2
  let table (g : GsRun) : GsRun × List PWord :=
    if sp = 0 then (g, (g.m.st.core c).csRun a rw)
    else
      let q := g.m.readRun a (4 * rw)
      ({ g with m := q.1 }, wordsOf q.2)
  if sp = 2 then
    let es := (List.range rw).map (fun j => a / 4 + j)
    let k := g.m.st.core c
    ({ g with m := { g.m with st := g.m.st.setCore c (k.count 0x68 (k.flips .pot es)) } }, es.map k.potGet)
  else match g.held sp rw r with
    | none => let q := table g; (q.1.hotPut rw r q.2, q.2)
    | some i =>
      let h := g.hotRead c rw i
      if h.2 then
        let q := table h.1
        ({ q.1 with hot := setAt q.1.hot i (r, q.2) }, q.2)
      else ({ h.1 with hits := g.hits + 1 }, if sp = 0 then (g.m.st.core c).csRun a rw else (nth (r, []) g.hot i).2)

/-- One position of a GATHER. -/
def gatherPos (o : Op) (c : Nat) (g : GsRun) (p : Nat) : GsRun :=
  match g.stop with
  | some _ => g
  | none =>
    let k := g.m.st.core c
    let rw := o.rowWords
    let dst := 64 * o.f 8 0 15 + 4 * rw * p
    let ix := k.idxAt o p
    let put (g : GsRun) (ws : List PWord) : GsRun :=
      { g with m := { g.m with st := g.m.st.updCore c (fun x => x.csWords dst ws) }, count := g.count + 1, done := g.done + 1 }
    if ix.2 then
      { put g (List.replicate rw ((0 : W32), true)) with cost := g.cost + rowLines rw, poison := g.poison + 1 }
    else
      let res := resolveIdx (o.f 0 20 2) (o.f 0xC 0 31) ix.1
      let g1 := { g with
        adj := g.adj + b2n res.2
        firstAdj := if res.2 ∧ g.firstAdj.isNone then some p else g.firstAdj
        cost := g.cost + o.posCost res.1 }
      match res.1 with
      | none => put g1 (List.replicate rw ((0 : W32), false))
      | some r =>
        let q := g1.fetch o c r
        match q.1.m.fault with
        | some (e, _) => { q.1 with stop := some (e, p) }
        | none => put { q.1 with poison := q.1.poison + poisoned q.2 } q.2

/-- A contribution of SCATTER to a word: the value, or its product with the weight (R199). -/
def contribs (weighted : Bool) (w : PWord) (ws : List PWord) : List PWord :=
  if weighted then ws.map (fun v => (f32mul v.1 w.1, v.2 || w.2)) else ws

/-- A table row written or added to by SCATTER, one request for each line, so that the lines before a failing one are
written (R199, R200, R258). -/
def GsRun.place (g : GsRun) (o : Op) (c r : Nat) (ws : List PWord) : GsRun :=
  let a := o.rowAddr r
  let sp := o.f 0 22 2
  let plain := o.f 0 18 2 == 0
  let rw := o.rowWords
  let k := g.m.st.core c
  if sp = 2 then
    let old := (List.range rw).map (fun j => k.potGet (a / 4 + j))
    let k1 := k.potApply plain (a / 4) ws
    { g with m := { g.m with st := g.m.st.setCore c k1 }, poison := g.poison + (if plain then 0 else poisoned old) }
  else
    let q : GsRun × Bool := if plain then (g, true) else match g.held sp rw r with
      | none => (g.hotPut rw r [], true)
      | some i => g.hotRead c rw i
    let g1 := q.1
    let k1 := g1.m.st.core c
    if sp = 0 then
      let old := k1.csRun a rw
      let k2 := k1.csWords a (if plain then ws else addWords old ws)
      { g1 with m := { g1.m with st := g1.m.st.setCore c k2 }, poison := g1.poison + (if plain then 0 else poisoned old) }
    else if plain then { g1 with m := g1.m.writeRun a (ws.flatMap bytesOf) }
    else
      let m1 := g1.m.addRun a ws
      let n := if m1.fault.isSome ∨ 128 < rw then 0 else (linePieces (4 * rw / 64 + 2) a (4 * rw)).length
      { g1 with m := if q.2 then { m1 with reqs := m1.reqs + n } else { m1 with reqs := g1.m.reqs, misses := g1.m.misses } }

/-- One position of a SCATTER. -/
def scatterPos (o : Op) (c : Nat) (g : GsRun) (p : Nat) : GsRun :=
  match g.stop with
  | some _ => g
  | none =>
    let k := g.m.st.core c
    let rw := o.rowWords
    let ix := k.idxAt o p
    if ix.2 then { g with stop := some (0x50, p), poison := g.poison + 1 }
    else
      let res := resolveIdx (o.f 0 20 2) (o.f 0xC 0 31) ix.1
      let g1 := { g with
        adj := g.adj + b2n res.2
        firstAdj := if res.2 ∧ g.firstAdj.isNone then some p else g.firstAdj
        done := g.done + 1 }
      match res.1 with
      | none => g1
      | some r =>
        let weighted := o.f 0 18 2 == 2
        let ws := k.csRun (64 * o.f 8 0 15 + 4 * rw * p) rw
        let w := if weighted then k.csWord (64 * o.f 8 16 15 + 4 * p) else (0, false)
        let q := { g1 with poison := g1.poison + poisoned ws + b2n w.2 }.place o c r (contribs weighted w ws)
        match q.m.fault with
        | some (e, _) => { q with stop := some (e, p), done := g.done }
        | none => { q with count := q.count + 1, cost := q.cost + o.posCost (some r) }

/-- The core-store ranges of a GATHER or SCATTER: index list, local rows, weights, table. (DEDUCED, log 37) -/
def gsRanges (o : Op) : List (Nat × Nat) :=
  let n := o.posN
  let scat := o.opc == 0x31
  [(64 * o.f 4 0 15, 4 * n), (64 * o.f 8 0 15, 4 * o.rowWords * n),
   (64 * o.f 8 16 15, if scat ∧ o.f 0 18 2 = 2 then 4 * n else 0)]

/-- The status found before a GATHER or SCATTER reads (R197, R512). -/
def gsStatus (o : Op) : Nat :=
  let scat := o.opc == 0x31
  let sp := o.f 0 22 2
  let enc := !o.zeros [(0, 10, 7), (4, 15, 1), (8, 31, 1), (8, 15, 1), (0xC, 31, 1), (0x1C, 0, 32)] || sp == 3
    || (if scat then o.f 0 18 2 == 3 else o.f 0 18 2 != 0 || o.f 0 17 1 != 0) || o.f64 0x10 % 4 != 0 || o.f 0x18 0 32 % 4 != 0
  let tab : Nat × Nat := if sp = 0 then (o.f64 0x10, o.tableEnd - o.f64 0x10) else (0, 0)
  let free := !scat && o.f 0x18 0 32 == 0
  firstFail [(enc, 0x52), (o.posN == 0 || o.f 0xC 0 31 == 0, 0x51), (anyOver (tab :: gsRanges o), 0x51),
    (anyOverlap (gsRanges o) || (!free && (gsRanges o).any (rangeHit tab)), 0x54), (sp == 2 && decide (262144 < o.tableEnd), 0x29)]

/-- The pre-pass of FAULT: the first failing position. -/
def Core.idxFault (k : Core) (o : Op) : Option Nat :=
  if o.f 0 20 2 = 3 then
    (List.range o.posN).find? (fun p => let ix := k.idxAt o p; ix.2 || decide (ix.1 < 0) || decide ((o.f 0xC 0 31 : Int) ≤ ix.1))
  else none

/-- The pre-pass of DUP_CHECK: the first position whose row an earlier one names (R199). -/
def Core.dupAt (k : Core) (o : Op) : Option Nat :=
  if o.f 0 17 1 = 0 then none
  else
    let row (p : Nat) : Option Nat := let ix := k.idxAt o p; if ix.2 then none else (resolveIdx (o.f 0 20 2) (o.f 0xC 0 31) ix.1).1
    let rows := (List.range o.posN).map row
    (List.range o.posN).find? (fun p => match nth none rows p with
      | none => false
      | some r => (rows.take p).contains (some r))

/-- A GATHER or SCATTER (R197 to R201, R512, R214). (DEDUCED, log 37) -/
def State.gsGo (s : State) (c : Nat) (host : List HostReply) (o : Op) : MergeOut :=
  let k := s.core c
  let n := o.posN
  match gsStatus o with
  | 0 =>
    let pre := (if o.f 0 20 2 = 3 then cdiv n 16 else 0) + (if o.opc = 0x31 ∧ o.f 0 17 1 = 1 then n else 0)
    let base := 12 + pre + cdiv n 16
    let bad (st p : Nat) : MergeOut := { mergeEarly s st with cycles := base, pos := p, poison := b2n (k.idxAt o p).2 }
    match k.idxFault o with
    | some p => bad 0x50 p
    | none =>
      match (if o.opc = 0x31 then k.dupAt o else none) with
      | some p => bad 0x53 p
      | none =>
        let g0 : GsRun := { m := MemRun.start s c 2 host, hot := [], entered := 0, hits := 0, adj := 0, firstAdj := none, count := 0, done := 0, cost := 0, poison := 0, stop := none }
        let g := (List.range n).foldl (if o.opc = 0x30 then gatherPos o c else scatterPos o c) g0
        let st := match g.stop with
          | some (e, _) => e
          | none => if g.m.lost then 0x91 else withPoison 0 g.poison
        let s1 := (g.m.counted c st).updCore c (fun x => x.counts [(0xA0, g.hits), (0xA8, g.adj)])
        let s2 := match g.m.fault with
          | some (e, va) => if auStatus e then s1.auFault c 2 3 e va else s1
          | none => s1
        { st := s2, status := st, cycles := base + g.cost, count := g.count,
          pos := match g.stop with | some (_, p) => p | none => g.firstAdj.getD posNone,
          rows := g.done, poison := g.poison, waitHost := g.m.waiting }
  | e => mergeEarly s e

/-- GATHER (R197 to R201). -/
def execGather (c : CoreIx) (z : Nat) (host : List HostReply) (s : State) : Out := s.mergeCmd c.val 0x30 z anyOp (s.gsGo c.val host)

/-- SCATTER (R197 to R201). -/
def execScatter (c : CoreIx) (z : Nat) (host : List HostReply) (s : State) : Out := s.mergeCmd c.val 0x31 z anyOp (s.gsGo c.val host)

/-! ### Segmented reduction (R202, R203) -/

/-- The identity of an empty segment. -/
def segIdentity (op : Nat) : W32 := if op = 0 then 0 else if op = 1 then 0xFF800000 else if op = 2 then 0x7F800000 else 0xFFFFFFFF

/-- The running value of MAX or MIN with a later value (R203). -/
def segPick (mx : Bool) (run v : W32) : W32 :=
  if v32 run = .nan ∨ v32 v = .nan then r32 .nan
  else if mx then (if vlt (v32 run) (v32 v) then v else run) else (if vlt (v32 v) (v32 run) then v else run)

/-- The position of the first maximal value, or of the first NaN (R203). -/
def segArg (l : List (Nat × W32)) : W32 :=
  match l with
  | [] => 0xFFFFFFFF
  | x :: r => BitVec.ofNat 32 (r.foldl (fun b v => if v32 b.2 = .nan then b else if v32 v.2 = .nan ∨ vlt (v32 b.2) (v32 v.2) then v else b) x).1

/-- One output word of a segment whose words at rising positions are `l`. -/
def segWord (op : Nat) (l : List (Nat × PWord)) : PWord :=
  let poison := l.any (fun x => x.2.2)
  match l with
  | [] => (segIdentity op, false)
  | x :: r =>
    let v := if op = 0 then (r.map (fun y => y.2.1)).foldl f32add x.2.1
      else if op = 3 then segArg (l.map (fun y => (y.1, y.2.1)))
      else (r.map (fun y => y.2.1)).foldl (segPick (op == 1)) (segPick (op == 1) x.2.1 x.2.1)
    (v, poison)

/-- SEG_REDUCE (R202, R203). -/
def State.segGo (s : State) (c : Nat) (o : Op) : MergeOut :=
  let k := s.core c
  let n := o.posN
  let rw := o.rowWords
  let segs := o.f 8 16 16
  let inA := 64 * o.f 4 0 15
  let offA := 64 * o.f 8 0 15
  let outA := 64 * o.f 0xC 0 15
  let rs := [(inA, 4 * rw * n), (offA, 4 * (segs + 1)), (outA, 4 * rw * segs)]
  match firstFail [(!o.zeros [(0, 10, 12), (4, 15, 1), (8, 15, 1), (0xC, 15, 17)], 0x52), (n == 0 || segs == 0, 0x51), (anyOver rs, 0x51), (anyOverlap rs, 0x54)] with
  | 0 =>
    let offs := k.csRun offA (segs + 1)
    let off (i : Nat) : Int := (nth (0, false) offs i).1.toInt
    let base := 12 + cdiv (segs + 1) 16
    match (List.range (segs + 1)).find? (fun i => (nth (0, false) offs i).2) with
    | some i => { mergeEarly s 0x59 with cycles := base, pos := i, poison := poisoned offs }
    | none =>
      if off 0 ≠ 0 ∨ off segs ≠ n ∨ (List.range segs).any (fun i => decide (off (i + 1) < off i)) then { mergeEarly s 0x59 with cycles := base }
      else
        let inp := k.csRun inA (n * rw)
        let word (g j : Nat) : PWord :=
          segWord (o.f 0 22 2) ((List.range ((off (g + 1)).toNat - (off g).toNat)).map (fun p => ((off g).toNat + p, nth (0, false) inp (((off g).toNat + p) * rw + j))))
        let out := (List.range segs).flatMap (fun g => (List.range rw).map (word g))
        let np := poisoned inp
        { st := s.updCore c (fun x => x.csWords outA out), status := withPoison 0 np, cycles := base + n * rowLines rw, count := segs
          pos := ((List.range segs).find? (fun i => off i == off (i + 1))).getD posNone, rows := n, poison := np, waitHost := false }
  | e => mergeEarly s e

/-- SEG_REDUCE. -/
def execSegReduce (c : CoreIx) (z : Nat) (s : State) : Out := s.mergeCmd c.val 0x32 z anyOp (s.segGo c.val)

/-! ### Sort (R204, R205) -/

/-- A key as a number that rises in the order of its type (R205). -/
def sortKey (type : Nat) (desc : Bool) (w : W32) : Nat :=
  let k := w.toNat
  let a := if type = 0 then k
    else if type = 1 then (k + 2 ^ 31) % 2 ^ 32
    else if v32 w = .nan then 2 ^ 32
    else if k < 2 ^ 31 then k + 2 ^ 31 else 2 ^ 32 - 1 - k
  if desc then 2 ^ 33 - a else a

/-- A list arranged by the code of a permutation. (DESIGN CHOICE, log 39) -/
def arrange {α : Type} : Nat → List α → Nat → List α
  | 0, _, _ => []
  | f + 1, l, code =>
    match l.drop (code % l.length) with
    | [] => []
    | x :: r => x :: arrange f (l.take (code % l.length) ++ r) (code / l.length)

/-- Consecutive words as pairs. -/
def pairWords : List PWord → List (PWord × PWord)
  | a :: b :: r => (a, b) :: pairWords r
  | _ => []

/-- SORT (R204, R205): the pairs in order, and some arrangement of the input pairs in the scratch range. A poisoned key
poisons every word of the result (R367). (DEDUCED, log 37, DEDUCED, log 38) -/
def State.sortGo (s : State) (c : Nat) (o : Op) : MergeOut :=
  let k := s.core c
  let n := o.f 4 0 17
  let io := 64 * o.f 8 0 15
  let sc := 64 * o.f 8 16 15
  let rs := [(io, 8 * n), (sc, 8 * n)]
  let early (e : Nat) : MergeOut := { mergeEarly s e with count := n }
  match firstFail [(!o.zeros [(0, 0, 21), (4, 17, 15), (8, 31, 1), (8, 15, 1), (0xC, 0, 32)] || o.f 0 22 2 == 3, 0x52),
      (n == 0 || decide (65536 < n), 0x51), (anyOver rs, 0x51), (anyOverlap rs, 0x54)] with
  | 0 =>
    let ws := k.csRun io (2 * n)
    let ps := pairWords ws
    let badKey := ps.any (fun p => p.1.2)
    let out := sortBy (fun (p : PWord × PWord) => sortKey (o.f 0 22 2) (o.f 0 21 1 == 1) p.1.1) ps
    let flat (l : List (PWord × PWord)) (b : Bool) : List PWord := l.flatMap (fun p => [(p.1.1, p.1.2 || b), (p.2.1, p.2.2 || b)])
    let scr := arrange n ps (Config.sortScratch (ps.map (fun p => (p.1.1, p.2.1))))
    let np := poisoned ws
    { st := s.updCore c (fun x => (x.csWords io (flat out badKey)).csWords sc (flat scr badKey)), status := withPoison 0 np
      cycles := 12 + cdiv n 8 + 4 * n + 1024, count := n, pos := posNone, rows := n, poison := np, waitHost := false }
  | e => early e

/-- SORT. -/
def execSort (c : CoreIx) (z : Nat) (s : State) : Out := s.mergeCmd c.val 0x33 z anyOp (s.sortGo c.val)

/-! ### Compaction (R206, R207) -/

/-- COMPACT (R206, R207). A poisoned mask word poisons every word written (R367). (DEDUCED, log 38) -/
def State.compactGo (s : State) (c : Nat) (o : Op) : MergeOut :=
  let k := s.core c
  let n := o.posN
  let rw := o.rowWords
  let lens := o.f 0 22 1 == 1
  let pad := o.f 0xC 16 16
  let inA := 64 * o.f 4 0 15
  let mA := 64 * o.f 8 16 15
  let outA := 64 * o.f 8 0 15
  let mapA := 64 * o.f 0xC 0 15
  let hasMap := o.f 0 23 1 == 1
  let mB := if lens then 4 * (n / pad) else cdiv n 8
  let inR := (inA, 4 * rw * n)
  let outR := (outA, 4 * rw * n)
  let mR := (mA, mB)
  let mapR := (mapA, if hasMap then 4 * n else 0)
  match firstFail [(!o.zeros [(0, 10, 12), (4, 15, 1), (8, 31, 1), (8, 15, 1), (0xC, 15, 1)], 0x52),
      (n == 0 || (lens && (pad == 0 || n % pad != 0)), 0x51), (anyOver [inR, mR, outR, mapR], 0x51),
      (anyOverlap [inR, mR, mapR] || anyOverlap [outR, mR, mapR] || (inA != outA && rangeHit inR outR), 0x54)] with
  | 0 =>
    let len (i : Nat) : Int := (k.csWord (mA + 4 * i)).1.toInt
    let base := 12 + (if lens then cdiv n (16 * pad) else cdiv n 512)
    let mPois := k.csPoisoned mA mB
    if lens && (List.range (n / pad)).any (fun i => decide (len i < 0) || decide ((pad : Int) < len i)) then
      { mergeEarly s 0x51 with cycles := base, poison := mPois }
    else
      let keep (p : Nat) : Bool := if lens then decide (((p % pad : Nat) : Int) < len (p / pad)) else (k.csElem mA p 1).1 == 1
      let ps := (List.range n).filter keep
      let rows := ps.flatMap (fun p => k.csRun (inA + 4 * rw * p) rw)
      let bad := mPois != 0
      let np := mPois + poisoned rows
      let k1 := k.csWords outA (rows.map (fun w => (w.1, w.2 || bad)))
      let k2 := if hasMap then k1.csWords mapA (ps.map (fun p => (BitVec.ofNat 32 p, bad))) else k1
      { st := s.setCore c k2, status := withPoison 0 np, cycles := base + ps.length * rowLines rw, count := ps.length
        pos := ((List.range n).find? (fun p => !keep p)).getD posNone, rows := n, poison := np, waitHost := false }
  | e => mergeEarly s e

/-- COMPACT. -/
def execCompact (c : CoreIx) (z : Nat) (s : State) : Out := s.mergeCmd c.val 0x34 z anyOp (s.compactGo c.val)

/-! ### Bitmap tiles (R184 to R189, R208) -/

/-- Bytes of an element by ESIZE. -/
def esizeBytes (e : Nat) : Nat := 2 ^ e

/-- Lc of R186. (DEDUCED, log 41) -/
def tileLc (nonempty nnz sz : Nat) : Nat := 64 + lineUp (32 * nonempty) + lineUp (nnz * sz)

/-- Ld of R187. (DEDUCED, log 41) -/
def tileLd (rows cols sz : Nat) : Nat := 64 + lineUp (rows * cols * sz)

/-- Block and bit position of an element (R184). -/
def tileBlock (i j : Nat) : Nat := 16 * (i / 16) + j / 16
/-- Bit position of an element in its block. -/
def tileBit (i j : Nat) : Nat := 16 * (i % 16) + j % 16

/-- Set bits among the low `n` of a number. -/
def popCount (n x : Nat) : Nat := ((List.range n).filter (fun i => x.testBit i)).length

/-- A number of `n` bytes of the core store, poison left aside. -/
def Core.csNat (k : Core) (a n : Nat) : Nat := leNat ((k.csRead a n).map (·.1))

/-- Where the elements of a tile stand, row-major: an escaped tile holds them all, a compressed tile those whose bit is set
(R186, R187). -/
def Core.tileSrc (k : Core) (a sz rows cols nonempty : Nat) (esc : Bool) (blocks : Nat) : List (Option Nat) :=
  if esc then (List.range (rows * cols)).map (fun e => some (a + 64 + e * sz))
  else
    let bs := (List.range 256).filter (fun b => blocks.testBit b)
    let maps := (List.range bs.length).map (fun i => k.csNat (a + 64 + 32 * i) 32)
    let counts := maps.map (popCount 256)
    let vals := a + 64 + lineUp (32 * nonempty)
    (List.range (rows * cols)).map (fun e =>
      let i := e / cols
      let j := e % cols
      let x := (bs.takeWhile (fun b => decide (b < tileBlock i j))).length
      let m := nth 0 maps x
      if blocks.testBit (tileBlock i j) ∧ m.testBit (tileBit i j) then
        some (vals + ((counts.take x).sum + popCount (tileBit i j) m) * sz)
      else none)

/-- BITMAP_DECODE (R208, R189). A poisoned word of the header or of a bitmap poisons every output word, a poisoned value its
own element, and in an escaped tile each list as well, because the values decide what it holds (R367). MERGE_COUNT is NNZ
whatever the status (R213), 0 where no header can be read. (DEDUCED, log 38, DEDUCED, log 41) -/
def State.bitmapDecodeGo (s : State) (c : Nat) (o : Op) : MergeOut :=
  let k := s.core c
  let a := 64 * o.f 4 0 15
  let form := o.f 0 20 2
  match firstFail [(!o.zeros [(0, 0, 20), (4, 31, 1), (4, 15, 1), (8, 31, 1), (8, 15, 1), (0xC, 0, 32)] || form == 3, 0x52), (csOver a 64, 0x51)] with
  | 0 =>
    let h := k.csNat a 64
    let esc := fld h 0 31 1 == 1
    let es := fld h 0 29 2
    let sz := esizeBytes es
    let rows := fld h 0 8 8 + 1
    let cols := fld h 0 0 8 + 1
    let nnz := fld h 4 0 32
    let ne := fld h 8 16 16
    let len := fld h 8 0 16
    let blocks := fld h 0x10 0 256
    let dense := form == 0
    let outA := 64 * o.f 8 0 15
    let valA := 64 * o.f 8 16 15
    let offA := 64 * o.f 4 16 15
    let rs : List (Nat × Nat) := (a, 64 * max 1 len) :: (if dense then [(outA, rows * cols * sz)]
      else [(outA, 4 * nnz), (valA, nnz * sz), (offA, 4 * (rows + 1))])
    let maps := ((List.range ne).map (fun i => popCount 256 (k.csNat (a + 64 + 32 * i) 32))).sum
    let corrupt := es != o.f 0 22 2 || es == 3 || popCount 256 blocks != ne || (!esc && maps != nnz)
      || 64 * len != (if esc then tileLd rows cols sz else tileLc ne nnz sz)
    match firstFail [(anyOver rs, 0x51), (anyOverlap rs, 0x54), (corrupt, 0x4C)] with
    | 0 =>
      let src := k.tileSrc a sz rows cols ne esc blocks
      let el (e : Nat) : Nat × Bool := match nth none src e with
        | none => (0, false)
        | some x => (k.csNat x sz, (k.csRead x sz).any (·.2))
      let np := k.csPoisoned a (64 * len)
      let all := k.csPoisoned a 64 != 0 || !esc && k.csPoisoned (a + 64) (32 * ne) != 0
      let ix := (List.range (rows * cols)).filter (fun e => if esc then (el e).1 != 0 else (nth none src e).isSome)
      let lbad := all || esc && np != 0
      let vals (b : Bool) (l : List Nat) : List PByte := l.flatMap (fun e => (leBytes sz (el e).1).map (fun x => (x, b || (el e).2)))
      let coords : List PWord := ix.map (fun e => (BitVec.ofNat 32 (if form = 1 then e else e % cols), lbad))
      let offs : List PWord := (List.range (rows + 1)).map (fun i => (BitVec.ofNat 32 ((ix.filter (fun e => decide (e < i * cols))).length), lbad))
      let k1 := if dense then k.csWrite outA (vals all (List.range (rows * cols)))
        else ((k.csWords outA coords).csWrite valA (vals lbad ix)).csWords offA offs
      let v := if dense then cdiv (rows * cols * sz) 64 else cdiv (4 * ix.length) 64 + cdiv (ix.length * sz) 64 + cdiv (4 * (rows + 1)) 64
      { st := s.setCore c k1, status := withPoison 0 np, cycles := 12 + len + v, count := nnz, pos := posNone, rows := 0, poison := np, waitHost := false }
    | e => { mergeEarly s e with count := nnz }
  | e => { mergeEarly s e with count := if csOver a 64 then 0 else fld (k.csNat a 64) 4 0 32 }

/-- BITMAP_DECODE. -/
def execBitmapDecode (c : CoreIx) (z : Nat) (s : State) : Out := s.mergeCmd c.val 0x3A z anyOp (s.bitmapDecodeGo c.val)

/-- The bytes of the tile that packs row-major elements (R185 to R187). -/
def packTile (esz rows cols force : Nat) (es : List Nat) : List Byte × Bool :=
  let sz := esizeBytes esz
  let el (i j : Nat) : Nat := nth 0 es (i * cols + j)
  let inBlk (b : Nat) : List (Nat × Nat) :=
    ((List.range 256).map (fun e => (16 * (b / 16) + e / 16, 16 * (b % 16) + e % 16)))
  let live (p : Nat × Nat) : Bool := decide (p.1 < rows ∧ p.2 < cols) && el p.1 p.2 != 0
  let bs := (List.range 256).filter (fun b => (inBlk b).any live)
  let nnz := (es.filter (· != 0)).length
  let lc := tileLc bs.length nnz sz
  let ld := tileLd rows cols sz
  let esc := if force = 1 then true else if force = 2 then false else decide (ld < lc)
  let len := if esc then ld else lc
  let padTo (n : Nat) (l : List Byte) : List Byte := l ++ List.replicate (n - l.length) 0
  let head := padTo 64 (leBytes 4 (at' (b2n esc) 31 1 + at' esz 29 2 + at' (rows - 1) 8 8 + at' (cols - 1) 0 8) ++ leBytes 4 nnz
    ++ leBytes 4 (at' bs.length 16 16 + at' (len / 64) 0 16) ++ leBytes 4 0 ++ leBytes 32 ((bs.map (fun b => 2 ^ b)).sum))
  let body := if esc then padTo (len - 64) (es.flatMap (leBytes sz))
    else padTo (lineUp (32 * bs.length)) (bs.flatMap (fun b => leBytes 32 (((inBlk b).zipIdx.map (fun q => if live q.1 then 2 ^ q.2 else 0)).sum)))
      ++ padTo (lineUp (nnz * sz)) (bs.flatMap (fun b => ((inBlk b).filter live).flatMap (fun p => leBytes sz (el p.1 p.2))))
  (head ++ body, esc)

/-- BITMAP_PACK (R188). A poisoned source word poisons the whole tile, whose bitmap and counts are computed from it. (DEDUCED, log 41) -/
def State.bitmapPackGo (s : State) (c : Nat) (o : Op) : MergeOut :=
  let k := s.core c
  let es := o.f 0 22 2
  let sz := esizeBytes es
  let rows := o.f 0 8 8 + 1
  let cols := o.f 0 0 8 + 1
  let force := o.f 0 16 2
  let a := 64 * o.f 4 0 15
  let d := 64 * o.f 8 0 15
  let nb := rows * cols * sz
  let most := if force = 2 then tileLc (cdiv rows 16 * cdiv cols 16) (rows * cols) sz else tileLd rows cols sz
  match firstFail [(!o.zeros [(0, 18, 4), (4, 15, 17), (8, 15, 17), (0xC, 0, 32)], 0x52), (es == 3 || force == 3 || csOver a nb, 0x4B),
      (csOver d most, 0x51), (overlaps a nb d most, 0x54)] with
  | 0 =>
    let src := (List.range (rows * cols)).map (fun e => k.csNat (a + e * sz) sz)
    let np := k.csPoisoned a nb
    let t := packTile es rows cols force src
    let k1 := (k.csWrite d (t.1.map (fun b => (b, np != 0)))).count 0x90 (b2n t.2)
    { st := s.setCore c k1, status := withPoison 0 np, cycles := 12 + 2 * cdiv nb 64, count := rows * cols, pos := posNone, rows := 0, poison := np, waitHost := false }
  | e => mergeEarly s e

/-- BITMAP_PACK. -/
def execBitmapPack (c : CoreIx) (z : Nat) (s : State) : Out := s.mergeCmd c.val 0x39 z anyOp (s.bitmapPackGo c.val)

/-! ### The compressor (R178 to R183) -/

/-- Whether `a` is larger in magnitude than `b` (R179). -/
def larger (a b : Val) : Bool := (a == .nan && b != .nan) || (a != .nan && vlt b.abs a.abs)

/-- The indices of the two largest magnitudes of a list, the lower index winning a tie, ascending. -/
def twoLargest (v : List Val) (nz : List Nat) : List Nat :=
  let best (l : List Nat) : Option Nat := l.find? (fun i => l.all (fun j => !larger (nth .nan v j) (nth .nan v i)))
  match best nz with
  | none => []
  | some i => match best (nz.filter (· != i)) with
    | none => [i]
    | some j => if i < j then [i, j] else [j, i]

/-- The non-zeros of a group that are kept (R180). -/
def keptOf (v : List Val) : List Nat :=
  let nz := (List.range 4).filter (fun i => !(nth .nan v i).isZero)
  if nz.length ≤ 2 then nz else twoLargest v nz

/-- The pairs of slots that contain every kept non-zero, in ascending order (R181). -/
def slotPairs (kept : List Nat) : List (Nat × Nat) :=
  [(0, 1), (0, 2), (0, 3), (1, 2), (1, 3), (2, 3)].filter (fun p => kept.all (fun i => i == p.1 || i == p.2))

/-- A list with the counts of a pair's two entries one higher. -/
def namePair (cnt : List Nat) (p : Nat × Nat) : List Nat := cnt.zipIdx.map (fun q => if q.2 = p.1 ∨ q.2 = p.2 then q.1 + 1 else q.1)

/-- The first combination, west to east, in which no dense row is named more than twice (R181). -/
def firstCombo : List (List (Nat × Nat)) → List Nat → Option (List (Nat × Nat))
  | [], _ => some []
  | cands :: rest, cnt => cands.findSome? (fun p =>
    let n := namePair cnt p
    if n.all (fun x => decide (x ≤ 2)) then (firstCombo rest n).map (p :: ·) else none)

/-- The column blocks of a tile: runs of four from 0 to SPLIT − 1 and from SPLIT to N − 1 (R178). -/
def blocksOf (n split : Nat) : List (List Nat) :=
  chunksOf n 4 (List.range split) ++ chunksOf n 4 ((List.range (n - split)).map (· + split))

/-- What the compressor chooses for one group: for each column its two slots, none where no combination qualifies. -/
def chooseSlots (keepMask : Bool) (target n split : Nat) (mask : Nat → Nat × Nat) (vals : Nat → List Val) : Option (List (Nat × Nat)) :=
  if keepMask then
    let ok := target = 1 ∨ (blocksOf n split).all (fun b => ((b.map mask).foldl namePair [0, 0, 0, 0]).all (fun x => decide (x ≤ 2)))
    if ok then some ((List.range n).map mask) else none
  else if target = 1 then some ((List.range n).map (fun j => nth (0, 0) (slotPairs (keptOf (vals j))) 0))
  else ((blocksOf n split).mapM (fun b => firstCombo (b.map (fun j => slotPairs (keptOf (vals j)))) [0, 0, 0, 0])).map List.flatten

/-- SPARSE_COMPRESS (R178 to R182). The cycles of R181's search are free within the bound of R182. A result computed
from a poisoned word is poisoned. (DESIGN CHOICE, log 39) -/
def State.compressGo (s : State) (c : Nat) (o : Op) : MergeOut :=
  let k := s.core c
  let keepM := o.f 0 23 1 == 1
  let lax := o.f 0 22 1 == 1
  let target := o.f 0 20 2
  let wf := o.f 0 16 4
  let gs := o.f 0 0 7
  let n := o.f 4 0 9
  let split := if o.f 4 16 9 = 0 then n else o.f 4 16 9
  let mA := 64 * o.f 8 16 15
  let a := 64 * o.f 8 0 15
  let d := 64 * o.f 0xC 0 15
  let rb := rowBytes wf n
  let vB := 2 * gs * rb
  let iB := cdiv (4 * gs * n) 8
  let outB := lineUp vB + lineUp iB
  let srcB := 4 * gs * rb
  let rs := [(a, srcB), (d, outB), (mA, if keepM then iB else 0)]
  match firstFail [(!o.zeros [(0, 7, 9), (4, 25, 7), (4, 9, 7), (8, 31, 1), (8, 15, 1), (0xC, 15, 17)], 0x52),
      (target == 0 || target == 3 || decide (8 ≤ wf) || gs == 0 || decide (64 < gs) || n == 0 || decide (256 < n) || decide (n < split), 0x4A),
      (anyOver rs, 0x51), (anyOverlap rs, 0x54)] with
  | 0 =>
    let w := fmtBits wf
    let el (r j : Nat) : Nat × Bool := k.csElem (a + r * rb) (j * w) w
    let vals (g j : Nat) : List Val := (List.range 4).map (fun i => decCode wf (el (4 * g + i) j).1)
    let mix (g j h : Nat) : Nat × Bool := k.csElem mA (2 * ((2 * g + h) * n + j)) 2
    let mask (g j : Nat) : Nat × Nat := ((mix g j 0).1, (mix g j 1).1)
    let cells := (List.range gs).flatMap (fun g => (List.range n).map (fun j => (g, j)))
    let nzs (g j : Nat) : List Nat := (List.range 4).filter (fun i => !(nth .nan (vals g j) i).isZero)
    let overfull := if keepM then 0 else (cells.filter (fun p => decide (2 < (nzs p.1 p.2).length))).length
    let outside := if keepM then ((cells.map (fun p => ((nzs p.1 p.2).filter (fun i => i != (mask p.1 p.2).1 && i != (mask p.1 p.2).2)).length)).sum) else 0
    let badIx := keepM && cells.any (fun p => decide ((mask p.1 p.2).2 ≤ (mask p.1 p.2).1))
    let slots := (List.range gs).map (fun g => chooseSlots keepM target n split (mask g) (vals g))
    let np := k.csPoisoned a srcB + (if keepM then k.csPoisoned mA iB else 0)
    let f := s.free32
    let search := if !keepM ∧ target = 2 then f.1.toNat % (24 * gs * (blocksOf n split).length + 1) else 0
    let s1 := (if !keepM ∧ target = 2 then f.2 else s).updCore c (fun x => x.counts [(0x78, overfull), (0x80, outside)])
    let one := 12 + cdiv srcB 64 + search
    let st := firstFail [(badIx, 0x2C), (!lax && overfull != 0, 0x48), (!lax && outside != 0, 0x49), (slots.any (·.isNone), 0x2D)]
    if st ≠ 0 then { st := s1, status := st, cycles := one, count := gs * n, pos := posNone, rows := 0, poison := np, waitHost := false }
    else
      let slot (g j h : Nat) : Nat := let p := nth (0, 0) ((nth none slots g).getD []) j; if h = 0 then p.1 else p.2
      let gp (g j : Nat) : Bool := if keepM then (mix g j 0).2 || (mix g j 1).2
        else if target = 1 then (List.range 4).any (fun i => (el (4 * g + i) j).2)
        else ((blocksOf n split).filter (fun b => b.contains j)).any (fun b => b.any (fun x => (List.range 4).any (fun i => (el (4 * g + i) x).2)))
      let padTo (m : Nat) (l : List PByte) : List PByte := l ++ List.replicate (m - l.length) (0, false)
      let rows := (List.range (2 * gs)).flatMap (fun r => padTo rb (packElems w ((List.range n).map (fun j =>
        let e := el (4 * (r / 2) + slot (r / 2) j (r % 2)) j
        (e.1, e.2 || gp (r / 2) j)))))
      let ix := packElems 2 ((List.range (2 * gs)).flatMap (fun r => (List.range n).map (fun j => (slot (r / 2) j (r % 2), gp (r / 2) j))))
      { st := s1.updCore c (fun x => x.csWrite d (padTo (lineUp vB) rows ++ padTo (lineUp iB) ix)), status := withPoison 0 np
        cycles := one + cdiv srcB 64, count := gs * n, pos := posNone, rows := 0, poison := np, waitHost := false }
  | e => mergeEarly s e

/-- SPARSE_COMPRESS. -/
def execSparseCompress (c : CoreIx) (z : Nat) (s : State) : Out := s.mergeCmd c.val 0x38 z anyOp (s.compressGo c.val)

/-! ### The kettle (R209 to R212) -/

/-- A KETTLE operation of one SUBOP. -/
def kettleSub (n : Nat) (o : Op) : Bool := o.f 0 22 2 == n

/-- The set of a key (R211). -/
def kettleSet (key : Nat) : Nat := bits key 0 11 ^^^ bits key 11 11 ^^^ bits key 22 10

/-- Fields that a SUBOP reserves, or a DRAIN base out of alignment (R210). -/
def kettleEnc (o : Op) : Bool :=
  let sub := o.f 0 22 2
  !o.zeros [(0, 0, 21)] || (sub != 2 && o.f 0 21 1 != 0) || (sub == 1 && (o.f 4 15 1 != 0 || o.f64 8 != 0))
    || (sub == 3 && (o.f 4 0 32 != 0 || o.f64 8 != 0)) || (sub == 2 && o.f64 8 % 64 != 0)

/-- The status of the kettle's state for a SUBOP but OPEN and DISCARD (R209). -/
def KState.refuses (k : KState) : Nat :=
  match k with
  | .closed => 0x58
  | .opened => 0
  | .lost => 0x5A

/-- Whether the `n` bytes from physical address `a` lie in the map of a tier, in stacks or channels that are present
(R369, R370, R371). -/
def State.presentAt (s : State) (target a n : Nat) : Bool :=
  let units (u m : Nat) : List Nat := (List.range (min m ((a + n - 1) / u - a / u + 1))).map (fun i => u * (a / u + i))
  if target = 0 then decide (a + n ≤ s.plan.hbmBytes) && (units 256 s.plan.hbmStacks.length).all (fun x => !s.mem.lost.contains (s.plan.hbmDev x))
  else decide (a + n ≤ s.plan.ddrBytes) && (units 4096 n).all (fun x => !s.mem.lost.contains (s.plan.ddrDev x))

/-- Whether every page of a device range is VALID with the target and the range's own bytes are present (R210, R257). -/
def State.regionIn (s : State) (base bytes target : Nat) : Bool :=
  decide (base + bytes ≤ 2 ^ 43) &&
  (List.range ((base + bytes - 1) / 2097152 - base / 2097152 + 1)).all (fun i =>
    let q := base / 2097152 + i
    let lo := max base (2097152 * q)
    let hi := min (base + bytes) (2097152 * (q + 1))
    let p := s.page q
    p.valid && p.target == target && s.presentAt target (p.phys + (lo - 2097152 * q)) (hi - lo))

/-- A KETTLE operation with no count that ends after its start-up. -/
def mergeOk (s : State) : MergeOut := mergeEarly s 0

/-- OPEN (R209, R210). -/
def State.kettleOpenGo (s : State) (c : Nat) (o : Op) : MergeOut :=
  let k := s.core c
  let cap := o.f 4 0 32
  let base := o.f64 8
  let bad := k.kettle.st == .opened || base % 64 != 0 || cap % 8 != 0 || decide (cap < 8) || decide (268435456 < cap)
  match firstFail [(kettleEnc o, 0x52), (k.kettle.st == .lost, 0x5A), (bad || !s.regionIn base (16 * cap) 0, 0x55)] with
  | 0 => mergeOk (s.setCore c { k with kettle := { st := .opened, base := base, cap := cap } })
  | e => mergeEarly s e

/-- KETTLE OPEN. -/
def execKettleOpen (c : CoreIx) (z : Nat) (s : State) : Out := s.mergeCmd c.val 0x35 z (kettleSub 0) (s.kettleOpenGo c.val)

/-- DISCARD (R209). -/
def State.kettleDiscardGo (s : State) (c : Nat) (o : Op) : MergeOut :=
  if kettleEnc o then mergeEarly s 0x52
  else
    let k := s.core c
    mergeOk (s.setCore c (if k.kettle.st = .closed then k else { k with kettle := {} }))

/-- KETTLE DISCARD. -/
def execKettleDiscard (c : CoreIx) (z : Nat) (s : State) : Out := s.mergeCmd c.val 0x35 z (kettleSub 3) (s.kettleDiscardGo c.val)

/-- The lowest-numbered free way of a set. -/
def Kettle.freeWay (t : Kettle) (set : Nat) : Option Nat :=
  (List.range 4).find? (fun w => !t.entries.any (fun e => e.set == set && e.way == w))

/-- The entry of a full set that was inserted earliest. -/
def Kettle.oldest (t : Kettle) (set : Nat) : Option KEntry :=
  (sortBy (·.ins) (t.entries.filter (fun e => e.set == set))).head?

/-- A KETTLE ADD as it proceeds. -/
structure AddRun where
  m : MemRun
  count : Nat
  hits : Nat
  boils : Nat
  poison : Nat
  stop : Option (Nat × Nat)
deriving DecidableEq, Repr

/-- The word of the kettle's SRAMs that holds an entry. -/
def KEntry.word (e : KEntry) : Nat := 4 * e.set + e.way

/-- An entry's value, poisoned where its word is uncorrectable (R209, R365). -/
def Core.kettleVal (k : Core) (e : KEntry) : PWord := (e.val.1, e.val.2 || k.flaw .kettleVal e.word == 2)

/-- One pair of an ADD: the keys of its set are read, and one with an uncorrectable error loses the kettle (R211). -/
def kettlePair (c : Nat) (inA : Nat) (g : AddRun) (p : Nat) : AddRun :=
  match g.stop with
  | some _ => g
  | none =>
    let k := g.m.st.core c
    let t := k.kettle
    let key := k.csWord (inA + 8 * p)
    let v := k.csWord (inA + 8 * p + 4)
    let put (m : MemRun) (u : Kettle) (hit boil : Nat) : AddRun :=
      { m := { m with st := m.st.updCore c (fun x => { x with kettle := u }) }, count := g.count + 1, hits := g.hits + hit,
        boils := g.boils + boil, poison := g.poison + b2n v.2, stop := none }
    let set := kettleSet key.1.toNat
    let ways := (t.entries.filter (fun e => e.set == set)).map KEntry.word
    if key.2 then { g with stop := some (0x90, p), poison := g.poison + 1 }
    else if ways.any (fun w => k.flaw .kettleKey w == 2) then
      { g with stop := some (0x5A, p), m := { g.m with st := g.m.st.setCore c { k with kettle := { t with st := .lost } } } }
    else
      let ins (u : Kettle) (w : Nat) : Kettle :=
        { u with entries := u.entries ++ [({ set := set, way := w, key := key.1, val := v, ins := u.nextIns } : KEntry)], nextIns := u.nextIns + 1 }
      let read (vs : List Nat) : MemRun :=
        { g.m with st := g.m.st.setCore c (k.count 0xC8 (k.flips .kettleKey ways + k.flips .kettleVal vs)) }
      let fresh (m : MemRun) (w : Nat) (key : Bool) : MemRun :=
        { m with st := m.st.updCore c (fun x => let y := x.mend .kettleVal w; if key then y.mend .kettleKey w else y) }
      match t.entries.find? (fun e => e.set == set && e.key == key.1) with
      | some e =>
        let old := k.kettleVal e
        put (fresh (read [e.word]) e.word false)
          { t with entries := updWhere (fun q => q.ins == e.ins) (fun q => { q with val := (f32add old.1 v.1, old.2 || v.2) }) t.entries } 1 0
      | none =>
        match t.freeWay set with
        | some w => put (fresh (read []) (4 * set + w) true) (ins t w) 0 0
        | none =>
          match t.oldest set with
          | none => g
          | some old =>
            if t.spilled = t.cap then { g with m := read [], stop := some (0x56, p) }
            else
              let m := (read [old.word]).writeRun (t.base + 8 * t.spilled) (bytesOf (old.key, false) ++ bytesOf (k.kettleVal old))
              match m.fault with
              | some (e, _) => { g with m := m, stop := some (e, p) }
              | none =>
                let u := { t with entries := t.entries.filter (fun q => q.ins != old.ins), spilled := t.spilled + 1 }
                put (fresh m old.word true) (ins u old.way) 0 1

/-- ADD (R211). -/
def State.kettleAddGo (s : State) (c : Nat) (o : Op) : MergeOut :=
  let k := s.core c
  let n := o.posN
  let inA := 64 * o.f 4 0 15
  match firstFail [(kettleEnc o, 0x52), (n == 0 || csOver inA (8 * n), 0x51)] with
  | 0 =>
    match k.kettle.st.refuses with
    | 0 =>
      let g := (List.range n).foldl (kettlePair c inA) { m := MemRun.start s c 2 [], count := 0, hits := 0, boils := 0, poison := 0, stop := none }
      let st := match g.stop with
        | some (e, _) => e
        | none => if g.m.lost then 0x91 else withPoison 0 g.poison
      let s1 := (g.m.counted c st).updCore c (fun x => x.counts [(0xB0, g.hits), (0xB8, g.boils)])
      let s2 := match g.m.fault with
        | some (e, va) => if auStatus e then s1.auFault c 2 3 e va else s1
        | none => if st = 0x56 then s1.faultMark (coreUnit c 2) st 0 else s1
      { st := s2, status := st, cycles := 12 + g.count, count := g.count
        pos := match g.stop with | some (_, p) => p | none => posNone
        rows := g.count, poison := g.poison, waitHost := false }
    | e => mergeEarly s e
  | e => mergeEarly s e

/-- KETTLE ADD. -/
def execKettleAdd (c : CoreIx) (z : Nat) (s : State) : Out := s.mergeCmd c.val 0x35 z (kettleSub 1) (s.kettleAddGo c.val)

/-- The sums of a sorted list of pairs, first value first. -/
def sumRuns (l : List (PWord × PWord)) : List (PWord × PWord) :=
  (l.foldl (fun (acc : List (PWord × PWord)) x =>
    match acc with
    | y :: q => if y.1.1 = x.1.1 then ((y.1.1, y.1.2 || x.1.2), (f32add y.2.1 x.2.1, y.2.2 || x.2.2)) :: q else x :: y :: q
    | [] => [x]) []).reverse

/-- Free words drawn. (DESIGN CHOICE, log 9) -/
def State.freeWords (s : State) (n : Nat) : List W32 × State :=
  iter n (fun _ (p : List W32 × State) => (p.1 ++ [p.2.free32.1], p.2.free32.2)) ([], s)

/-- DRAIN (R212). The scratch, the upper half of the spill region, is written before the output and is left with free words
(R210). A poisoned spilled key poisons every word written (R367). (DEDUCED, log 40) -/
def State.kettleDrainGo (s : State) (c : Nat) (host : List HostReply) (o : Op) : MergeOut :=
  let k := s.core c
  let t := k.kettle
  let mx := o.f 4 0 32
  let base := o.f64 8
  let dev := o.f 0 21 1 == 1
  let p := t.spilled + t.entries.length
  match firstFail [(kettleEnc o, 0x52), (!dev && csOver base (8 * min mx p), 0x51)] with
  | 0 =>
    match t.st.refuses with
    | 0 =>
      let q := (MemRun.start s c 2 host).readRun t.base (8 * t.spilled)
      let sp := pairWords (wordsOf q.2)
      let held := t.entries.map KEntry.word
      let res := (sortBy (·.ins) t.entries).map (fun e => ((e.key, false), k.kettleVal e))
      let all := sp ++ res
      let out := sumRuns (sortBy (fun (x : PWord × PWord) => x.1.1.toNat) all)
      let np := poisoned (all.flatMap (fun x => [x.1, x.2]))
      let badKey := all.any (fun x => x.1.2)
      let d := out.length
      let cyc := 12 + 2048 + cdiv p 8 + 4 * p + 1024 + cdiv d 8
      let fin (m : MemRun) (st rows : Nat) : MergeOut :=
        let s1 := (m.counted c st).updCore c (fun x => x.counts [(0xC0, sp.length), (0xC8, k.flips .kettleKey held + k.flips .kettleVal held)])
        let s2 := match m.fault with
          | some (e, va) => if auStatus e then s1.auFault c 2 3 e va else s1
          | none => s1
        { st := s2, status := st, cycles := cyc, count := d, pos := posNone, rows := rows, poison := np, waitHost := m.waiting }
      match q.1.fault with
      | some (e, _) => { fin q.1 e 0 with count := 0 }
      | none =>
        if held.any (fun w => k.flaw .kettleKey w == 2) then
          { fin { q.1 with st := q.1.st.updCore c (fun x => { x with kettle := { t with st := .lost } }) } 0x5A 0 with count := 0 }
        else if mx < d then fin q.1 0x57 p
        else
          let fr := q.1.st.freeWords (2 * min p t.cap)
          let m0 := ({ q.1 with st := fr.2 } : MemRun).writeRun (t.base + 8 * t.cap) (fr.1.flatMap (fun w => bytesOf (w, false)))
          let ws : List PWord := out.flatMap (fun x => [(x.1.1, x.1.2 || badKey), (x.2.1, x.2.2 || badKey)])
          let m1 := if dev then m0.writeRun base (ws.flatMap bytesOf)
            else if m0.fault.isSome then m0 else { m0 with st := m0.st.updCore c (fun x => x.csWords base ws) }
          match m1.fault with
          | some (e, _) => fin m1 e p
          | none =>
            let s2 := m1.st.updCore c (fun x => { x with kettle := {} })
            fin { m1 with st := s2 } (if m1.lost then 0x91 else withPoison 0 np) p
    | e => mergeEarly s e
  | e => mergeEarly s e

/-- KETTLE DRAIN. -/
def execKettleDrain (c : CoreIx) (z : Nat) (host : List HostReply) (s : State) : Out :=
  s.mergeCmd c.val 0x35 z (kettleSub 2) (s.kettleDrainGo c.val host)

/-! ### The end of a merge operation (R193, R213) -/

/-- Whether an opcode of the merge engine is reserved (R193). (DEDUCED, log 36) -/
def mergeReserved (opc : Nat) : Bool := opc == 0x36 || opc == 0x37 || (decide (0x3B ≤ opc) && decide (opc ≤ 0x3F))

/-- MERGE_OP_END: the running operation ends. With none running, a reserved opcode at the head of the queue ends with
MERGE_ENCODING, since no other command names it (R193). (DEDUCED, log 36) -/
def execMergeOpEnd (c : CoreIx) (s : State) : Out :=
  let k := s.core c.val
  match k.mergeQ with
  | o :: _ =>
    if mergeReserved o.opc ∧ (s.head c.val .merge o.opc).isSome then
      .next ((s.mergeStart c.val o 0 (mergeEarly s 0x52)).retire c.val .merge)
    else .next (s.retire c.val .merge)
  | [] => .next (s.retire c.val .merge)

end Sys2Proof.Machine
end

