-- ==== Sys2Proof/Machine/Caddy.lean ====
section
/-! DEFINITION. The caddy: binding, pushes and pops of frames, evictions and read-aheads (04_reverse_flow R134 to R138,
R128). -/

namespace Sys2Proof.Machine

/-- A caddy's run-time record. -/
def State.cst (s : State) (e : Nat) : CaddySt := mget {} s.caddySt e

/-- A caddy's run-time record replaced. -/
def State.setCst (s : State) (e : Nat) (x : CaddySt) : State := { s with caddySt := mset {} s.caddySt e x }

/-- A caddy table entry. -/
def State.caddyEnt (s : State) (e : Nat) : CaddyEntry := mget {} s.caddy e

/-- Lines that runs hold. -/
def runLines (l : List (Nat × Nat)) : Nat := (l.map (·.2)).sum

/-- The `i`-th line of runs. -/
def runLine : List (Nat × Nat) → Nat → Nat
  | [], _ => 0
  | (a, n) :: r, i => if i < n then a + i else runLine r (i - n)

/-- The lowest free lines of a slice, as runs, `n` in all. (DEDUCED, log 43) -/
def takeRuns (slice : Nat) (occ : List (Nat × Nat)) (n : Nat) : List (Nat × Nat) :=
  let sorted := sortBy (·.1) occ ++ [(slice, 0)]
  (sorted.foldl (fun (q : Nat × Nat × List (Nat × Nat)) r =>
    let t := min (r.1 - q.1) q.2.1
    (r.1 + r.2, q.2.1 - t, if t = 0 then q.2.2 else q.2.2 ++ [(q.1, t)])) (0, n, [])).2.2

/-- Lines of an HBM4 slice. -/
def CaddyEntry.hbmLines (e : CaddyEntry) : Nat := 1024 * e.sliceHbm
/-- Lines of a DDR5 slice. -/
def CaddyEntry.ddrLines (e : CaddyEntry) : Nat := 1024 * e.sliceDdr
/-- Start of stack `k`'s HBM4 slice (R134). -/
def CaddyEntry.hbmAt (e : CaddyEntry) (k : Nat) : Nat := 65536 * (e.hbmBase + k * e.sliceHbm)
/-- Start of stack `k`'s DDR5 slice (R134). -/
def CaddyEntry.ddrAt (e : CaddyEntry) (k : Nat) : Nat := 65536 * (e.ddrBase + k * e.sliceDdr)

/-- The frames of a stack, oldest first. -/
def CaddySt.stack (x : CaddySt) (k : Nat) : List Frame := mget [] x.frames k
/-- The frames of a stack replaced. -/
def CaddySt.setStack (x : CaddySt) (k : Nat) (l : List Frame) : CaddySt := { x with frames := mset [] x.frames k l }

/-- Free lines of an HBM4 slice. -/
def hbmFree (e : CaddyEntry) (fs : List Frame) : Nat := e.hbmLines - (fs.map (fun f => runLines f.hbm)).sum
/-- Free lines of a DDR5 slice. -/
def ddrFree (e : CaddyEntry) (fs : List Frame) : Nat := e.ddrLines - (fs.map (fun f => runLines f.ddr)).sum

/-- Lines of a frame. -/
def Frame.size (f : Frame) : Nat := max (runLines f.hbm) (runLines f.ddr)

/-- A region of zero bytes lies anywhere. -/
def State.regionOk (s : State) (base bytes target : Nat) : Bool := bytes == 0 || s.regionIn base bytes target

/-- Whether an entry's regions fail R134. -/
def State.caddyBad (s : State) (e : CaddyEntry) : Bool :=
  e.members == 0 || e.nStacks == 0 || !s.regionOk (65536 * e.hbmBase) (65536 * e.nStacks * e.sliceHbm) 0
    || !s.regionOk (65536 * e.ddrBase) (65536 * e.nStacks * e.sliceDdr) 1

/-- STACK of a CADDY operation. -/
def Op.cStack (o : Op) : Nat := o.f 0 17 5
/-- CADDY of a CADDY operation. -/
def Op.cEntry (o : Op) : Nat := o.f 0 10 6
/-- LINES of a CADDY operation. -/
def Op.cLines (o : Op) : Nat := o.f 4 0 16
/-- First core-store byte of a CADDY operation. -/
def Op.cAddr (o : Op) : Nat := 64 * o.f 8 0 15

/-- A CADDY operation's reserved fields, and a stack or slot outside its entry's range. (DEDUCED, log 43) -/
def State.caddyEnc (s : State) (o : Op) (bind : Bool) : Bool :=
  let e := s.caddyEnt o.cEntry
  !o.zeros [(0, 16, 1), (0, 0, 4), (4, 16, 16), (8, 15, 17)]
    || (e.valid && (if bind then decide (0 < e.members ∧ e.members ≤ o.f 0 4 6) else decide (e.nStacks ≤ o.cStack)))

/-- A CADDY operation of one SUBOP at the head of the access unit's queue. -/
def State.caddyOp (s : State) (c sub : Nat) : Option Op := (s.head c .acc 0x40).filter (fun o => o.f 0 22 2 == sub)

/-- CADDY BIND (R134, R135). (DEDUCED, log 43) -/
def execCaddyBind (c : CoreIx) (z : Nat) (s : State) : Out :=
  match s.caddyOp c.val 0 with
  | none => .next s
  | some o =>
    let e := s.caddyEnt o.cEntry
    let x := s.cst o.cEntry
    match firstFail [(s.caddyEnc o true, 0x25), (!e.valid || (!x.bound && s.caddyBad e), 0x46)] with
    | 0 =>
      let x1 := if x.bound then x else
        { x with bound := true, pushes := 0, pops := 0, evicted := 0, returned := 0, popWait := 0, highWater := 0 }
      .next ((s.setCst o.cEntry x1).updCore c.val (fun k =>
        ({ k with caddy := some (o.cEntry, o.f 0 4 6) }.count 0x118 z).start .acc o s.cycles 0 (16 + z) [] false 0))
    | st => .next (s.accFail c.val o st [])

/-- Lines copied between two places of device memory by an access unit, a read and a write request each; a line that a request
cannot reach stays as it was (R137, R255). (DEDUCED, log 43) -/
def MemRun.copyLines (m : MemRun) (n : Nat) (src dst : Nat → Nat) : MemRun :=
  iter n (fun i q =>
    let r := q.read (src i) 64
    if r.1.fault.isSome then { r.1 with fault := none } else { r.1.write (dst i) r.2 with fault := none }) m

/-- The background copy of a frame, the `i`-th of a stack, begun by core `c`'s access unit towards the place that the frame now
names. Its requests issue as it begins, so that pages remapped before it is done do not concern it (R137, R257). (DEDUCED, log 43) -/
def State.startCopy (s : State) (c e k i : Nat) (f : Frame) : State :=
  let en := s.caddyEnt e
  let x := s.cst e
  let h (j : Nat) : Nat := en.hbmAt k + 64 * runLine f.hbm j
  let d (j : Nat) : Nat := en.ddrAt k + 64 * runLine f.ddr j
  let m := (MemRun.start (s.setCst e (x.setStack k (setAt (x.stack k) i f))) c 6 []).copyLines f.size
    (if f.place = .toDdr then h else d) (if f.place = .toDdr then d else h)
  m.counted c 0

/-- The read-ahead of R137 after a pop that frees a frame: the newest frame held in DDR5 starts back to HBM4 when it fits. (DEDUCED, log 43) -/
def State.readAhead (s : State) (c e k : Nat) : State :=
  let en := s.caddyEnt e
  let fs := (s.cst e).stack k
  match (fs.zipIdx.filter (fun p => p.1.place == .ddr)).getLast? with
  | none => s
  | some (f, i) =>
    if hbmFree en fs < f.size then s
    else s.startCopy c e k i { f with place := .toHbm, hbm := takeRuns en.hbmLines (fs.flatMap (·.hbm)) f.size }

/-- A member's slice of a frame written from the core store, line by line. -/
def pushLines (m : MemRun) (k : Core) (o : Op) (at_ : Nat → Nat) : MemRun :=
  iter o.cLines (fun i r => if r.fault.isSome then r else r.write (at_ i) (k.csRead (o.cAddr + 64 * i) 64)) m

/-- An access operation of the caddy started with its requests counted. -/
def State.caddyStart (s : State) (c : Nat) (o : Op) (m : MemRun) (status poison z : Nat) : State :=
  let s1 := s.updCore c (fun k => k.counts [(0x100, m.reqs), (0x110, m.misses), (0x118, z), (0x128, if auStatus status then 1 else 0)])
  let s2 := match m.fault with
    | some (e, va) => if auStatus e then s1.auFault c 6 (if o.f 0 22 2 = 1 then 1 else 0) e va else s1
    | none => s1
  s2.updCore c (fun k => (k.poisonCounts poison status).start .acc o s.cycles status (16 + o.cLines + z) [] false 0)

/-- The slot that a core is bound with, when it is bound to a valid entry. -/
def State.boundSlot (s : State) (c e : Nat) : Option Nat :=
  match (s.core c).caddy with
  | some (b, slot) => if b = e ∧ (s.caddyEnt e).valid then some slot else none
  | none => none

/-- A push onto the frame at an index of a stack: the slice written where the frame lies. -/
def State.pushInto (s : State) (c : Nat) (o : Op) (slot i z : Nat) (fs : List Frame) (f : Frame) : State :=
  let en := s.caddyEnt o.cEntry
  let k := s.core c
  let addr (j : Nat) : Nat :=
    if f.place = .ddr then en.ddrAt o.cStack + 64 * runLine f.ddr (slot * f.lines + j)
    else en.hbmAt o.cStack + 64 * runLine f.hbm (slot * f.lines + j)
  let m := pushLines (MemRun.start s c 6 []) k o addr
  let np := k.csPoisoned o.cAddr (64 * o.cLines)
  let status := m.status (np != 0)
  if m.fault.isSome then m.st.caddyStart c o m status np z
  else
    let f' := { f with pushed := f.pushed ++ [slot] }
    let whole := f'.pushed.length == en.members
    let x := s.cst o.cEntry
    let fs' := if i < fs.length then setAt fs i f' else fs ++ [f']
    let x' := { x.setStack o.cStack fs' with
      pushes := if whole then sat 32 (x.pushes + 1) else x.pushes
      highWater := max x.highWater (sat 32 ((fs'.map (·.size)).sum)) }
    (m.st.setCst o.cEntry x').caddyStart c o m status np z

/-- CADDY PUSH (R136, R137). While a copy must first make room the operation waits at the head of its queue, its eviction
started. (DEDUCED, log 43) -/
def execCaddyPush (c : CoreIx) (z : Nat) (s : State) : Out :=
  match s.caddyOp c.val 1 with
  | none => .next s
  | some o =>
    let en := s.caddyEnt o.cEntry
    let fs := (s.cst o.cEntry).stack o.cStack
    let size := en.members * o.cLines
    match firstFail [(s.caddyEnc o false, 0x25), (csOver o.cAddr (64 * o.cLines), 0x21), ((s.boundSlot c.val o.cEntry).isNone, 0x40),
        (o.cLines == 0 || decide (32768 < o.cLines) || decide (en.hbmLines < size), 0x41)] with
    | 0 =>
      let slot := (s.boundSlot c.val o.cEntry).getD 0
      match fs.zipIdx.find? (fun p => !p.1.pushed.contains slot) with
      | some (f, i) =>
        if f.lines ≠ o.cLines ∨ f.tag.toNat ≠ o.f 12 0 32 then .next (s.accFail c.val o 0x45 [])
        else if f.place = .toDdr ∨ f.place = .toHbm then .next s
        else .next (s.pushInto c.val o slot i z fs f)
      | none =>
        if size ≤ hbmFree en fs then
          .next (s.pushInto c.val o slot fs.length z fs
            { hbm := takeRuns en.hbmLines (fs.flatMap (·.hbm)) size, ddr := [], lines := o.cLines, tag := BitVec.ofNat 32 (o.f 12 0 32), pushed := [], popped := [], place := .hbm })
        else if fs.any (fun f => f.place == .toDdr) then .next s
        else match fs.zipIdx.find? (fun p => p.1.place == .hbm) with
          | none => .next s
          | some (b, i) =>
            if ddrFree en fs < b.size then .next (s.accFail c.val o 0x44 [])
            else .next (s.startCopy c.val o.cEntry o.cStack i { b with place := .toDdr, ddr := takeRuns en.ddrLines (fs.flatMap (·.ddr)) b.size })
    | st => .next (s.accFail c.val o st [])

/-- A pop of the frame at an index of a stack, which lies in HBM4. -/
def State.popFrom (s : State) (c : Nat) (o : Op) (slot i z : Nat) (fs : List Frame) (f : Frame) : State :=
  let en := s.caddyEnt o.cEntry
  let addr (j : Nat) : Nat := en.hbmAt o.cStack + 64 * runLine f.hbm (slot * f.lines + j)
  let q := (List.range o.cLines).foldl (fun (q : MemRun × List PByte) j =>
    if q.1.fault.isSome then q else let r := q.1.read (addr j) 64; (r.1, q.2 ++ r.2)) (MemRun.start s c 6 [], [])
  let m := q.1
  let status := m.status (m.poisoned != 0)
  let s1 := m.st.updCore c (fun k => k.csWrite o.cAddr q.2)
  if m.fault.isSome then s1.caddyStart c o m status m.poisoned z
  else
    let f' := { f with popped := f.popped ++ [slot] }
    let x := s.cst o.cEntry
    let s2 := if f'.popped.length = en.members then
        (s1.setCst o.cEntry { x.setStack o.cStack (fs.eraseIdx i) with pops := sat 32 (x.pops + 1) }).readAhead c o.cEntry o.cStack
      else s1.setCst o.cEntry (x.setStack o.cStack (setAt fs i f'))
    s2.caddyStart c o m status m.poisoned z

/-- A CADDY POP that waits in the present cycle, or goes on: the cycles of its wait counted in POP_WAIT (R138). (DEDUCED, log 34) -/
def State.popWaits (s : State) (c e : Nat) (goes : Bool) : State :=
  let t := s.cycles
  let x := s.cst e
  let w := (s.core c).popWait
  let n := if goes then t - w.getD t else t + 1 - w.getD t
  (s.setCst e { x with popWait := sat 64 (x.popWait + n) }).updCore c (fun k => { k with popWait := if goes then none else some (t + 1) })

/-- CADDY POP (R136, R137). A frame held in DDR5 or in transit is waited for. (DEDUCED, log 34, DEDUCED, log 43) -/
def execCaddyPop (c : CoreIx) (z : Nat) (s : State) : Out :=
  match s.caddyOp c.val 2 with
  | none => .next s
  | some o =>
    let x := s.cst o.cEntry
    let fs := x.stack o.cStack
    match firstFail [(s.caddyEnc o false, 0x25), (csOver o.cAddr (64 * o.cLines), 0x21), ((s.boundSlot c.val o.cEntry).isNone, 0x40),
        (o.cLines == 0 || decide (32768 < o.cLines), 0x41)] with
    | 0 =>
      let slot := (s.boundSlot c.val o.cEntry).getD 0
      match (fs.zipIdx.filter (fun p => p.1.pushed.contains slot && !p.1.popped.contains slot)).getLast? with
      | none => .next (s.accFail c.val o 0x42 [])
      | some (f, i) =>
        if f.lines ≠ o.cLines ∨ f.tag.toNat ≠ o.f 12 0 32 then .next (s.accFail c.val o 0x43 [])
        else if f.place = .hbm then .next ((s.popWaits c.val o.cEntry true).popFrom c.val o slot i z fs f)
        else .next (s.popWaits c.val o.cEntry false)
    | st => .next (s.accFail c.val o st [])

/-- CADDY_COPY_DONE: the oldest copy in progress on a stack ends, its lines in place (R137). -/
def execCaddyCopyDone (e : Fin 64) (k : Fin 32) (s : State) : Out :=
  let x := s.cst e.val
  let fs := x.stack k.val
  match fs.zipIdx.find? (fun p => p.1.place == .toDdr || p.1.place == .toHbm) with
  | none => .next s
  | some (f, i) =>
    if f.place = .toDdr then
      .next (s.setCst e.val { x.setStack k.val (setAt fs i { f with place := .ddr, hbm := [] }) with evicted := sat 32 (x.evicted + f.size) })
    else
      .next (s.setCst e.val { x.setStack k.val (setAt fs i { f with place := .hbm, ddr := [] }) with returned := sat 32 (x.returned + f.size) })

end Sys2Proof.Machine
end

