-- ==== Sys2Proof/Machine/Experts.lean ====
section
/-! DEFINITION. The Expert Map and the placement policy: proposals, versions built, switched in, late or vetoed
(11_routed R289 to R306). -/

namespace Sys2Proof.Machine

/-! ### Entries (R289, R291) -/

/-- PROVISIONED. -/
def exProv (e : W64) : Bool := bit e.toNat 63
/-- ACTIVE. -/
def exActive (e : W64) : Bool := bit e.toNat 62
/-- PIN. -/
def exPin (e : W64) : Bool := bit e.toNat 61
/-- PIN_ACTIVE. -/
def exPinActive (e : W64) : Bool := bit e.toNat 60
/-- An entry with its ACTIVE bit set to a value. -/
def exSet (e : W64) (a : Bool) : W64 := BitVec.ofNat 64 (setBits e.toNat 62 1 (b2n a))

/-- A software write onto an entry: ACTIVE stays, and is 0 in an entry that is not provisioned. -/
def exWrite (old new : W64) : W64 := exSet new (exActive old && exProv new)

/-- The rules of R291 for one entry. -/
def exRule (e : W64) : W64 := if exPin e then exSet e (exPinActive e) else if exProv e then e else exSet e false

/-- The expert that has provisioned entries and none active takes its lowest provisioned, unpinned one (R291). -/
def exWake (m : Mem W64) (e : Nat) : Mem W64 :=
  let q := (List.range 8).map (fun r => 8 * e + r)
  if q.any (fun i => exActive (mget 0 m i)) then m
  else match q.find? (fun i => exProv (mget 0 m i) && !exPin (mget 0 m i)) with
    | some i => mset 0 m i (exSet (mget 0 m i) true)
    | none => m

/-- The experts that a map lists, each once. -/
def mapExperts (m : Mem W64) : List Nat := (m.map (fun p => p.1 / 8)).dedup

/-- A version's entries: the current ones, placement's changes, software's writes after them, then R291 (R301). -/
def buildMap (m : Mem W64) (toggles : List Nat) (writes : List (Nat × W64)) : Mem W64 :=
  let m1 := toggles.foldl (fun a i => mupd 0 a i (fun e => exSet e (!exActive e))) m
  let m2 := writes.foldl (fun a w => mset 0 a w.1 (exWrite (mget 0 a w.1) w.2)) m1
  let m3 := mmap 0 (fun _ e => exRule e) m2
  (mapExperts m3).foldl exWake m3

/-- The 1 MiB copy of a version (R290). -/
def mapBytes (m : Mem W64) : List Byte := (List.range 131072).flatMap (fun i => leBytes 8 (mget 0 m i).toNat)

/-- MAP_CHECK: bytes 0 to 3 of the copy's SHA-256 (R305). -/
def mapCheck (m : Mem W64) : Nat := leNat ((blockBytes (shaBlock256 (mapBytes m))).take 4)

/-! ### Control (R299) and waymarks (R305) -/

/-- The interval I of a control block. -/
def ExpertCtrl.every (x : ExpertCtrl) : Nat := 2 ^ x.reviseLog2
/-- HOLD, 0 acting as 1. -/
def ExpertCtrl.lag (x : ExpertCtrl) : Nat := max x.hold 1

/-- A POLICY waymark of placement. -/
def State.placePolicy (s : State) (code seq check : Nat) : State :=
  s.mark 0x13 0 0 mcUnit (at' 3 60 4 + at' code 56 4 + at' seq 32 24 + at' check 0 32)

/-- A POLICY_CONFLICT waymark of placement, counted. -/
def State.placeConflict (s : State) (code seq e : Nat) : State :=
  { s with experts := { s.experts with conflicts := sat 32 (s.experts.conflicts + 1) } }.mark 0x14 0 0 mcUnit
    (at' 3 60 4 + at' code 56 4 + at' seq 32 24 + at' e 0 14)

/-- MAP_CHECK of a version: its copy's, or while that is not complete a value that the spec does not give. (DEDUCED, log 45) -/
def State.verCheck (s : State) (v : Version) : Nat × State :=
  if v.built then (v.check, s) else let r := s.free32; (r.1.toNat, r.2)

/-- A version dropped with a POLICY code; its software writes pass to the next version (R301, R303). (DEDUCED, log 45) -/
def State.dropVersion (s : State) (v : Version) (code : Nat) : State :=
  let r := s.verCheck v
  let t := r.2
  { t with experts := { t.experts with pending := none, writes := v.writes ++ t.experts.writes } }.placePolicy code v.seq r.1

/-! ### Proposals (R300, R302) -/

/-- A load as an unsigned integer, truncated towards zero (R300). -/
def loadOf (w : W32) : Nat :=
  let x := w.toNat
  let e := bits x 23 8
  let m := bits x 0 23
  if bit x 31 then 0
  else if e = 255 ∧ m ≠ 0 then 0
  else if 159 ≤ e then 2 ^ 32 - 1
  else if e < 127 then 0
  else (2 ^ 23 + m) * 2 ^ (e - 127) / 2 ^ 23

/-- A placement proposal under way: the map with the changes so far, the entries changed, and the experts whose change a
pin blocks, with the code of R305. -/
structure Proposal where
  map : Mem W64
  toggles : List Nat
  blocked : List (Nat × Nat)
deriving DecidableEq, Repr

/-- One expert of the grow or the shrink list. -/
def Proposal.change (p : Proposal) (limit code e : Nat) : Proposal :=
  if limit ≤ p.toggles.length then p
  else
    let q := (List.range 8).map (fun r => 8 * e + r)
    let ok (i : Nat) : Bool :=
      let x := mget 0 p.map i
      if code = 0 then exProv x && !exActive x && !exPin x else exActive x && !exPin x
    match (if code = 0 then q else q.reverse).find? ok with
    | some i => { p with map := mupd 0 p.map i (fun x => exSet x (!exActive x)), toggles := p.toggles ++ [i] }
    | none => { p with blocked := p.blocked ++ [(code, e)] }

/-- Inserted by a strict order, after its equals. -/
def insertOrd (lt : Nat → Nat → Bool) (x : Nat) : List Nat → List Nat
  | [] => [x]
  | y :: r => if lt x y then x :: y :: r else y :: insertOrd lt x r

/-- Stable insertion sort by a strict order. -/
def sortOrd (lt : Nat → Nat → Bool) (l : List Nat) : List Nat := l.foldl (fun a x => insertOrd lt x a) []

/-- The proposal of R302, from the current map, the loads by expert and the control block. -/
def propose (m : Mem W64) (l : Nat → Nat) (x : ExpertCtrl) : Proposal :=
  let live := (mapExperts m).filter (fun e => decide (e < x.experts) && (List.range 8).any (fun r => exProv (mget 0 m (8 * e + r))))
  let total := (live.map l).sum
  let cnt := live.length
  let n (e : Nat) : Nat := max 1 ((List.range 8).filter (fun r => exActive (mget 0 m (8 * e + r)))).length
  let p0 : Proposal := { map := m, toggles := [], blocked := [] }
  if total = 0 then p0
  else
    let grow := live.filter (fun e => decide (x.high16 * total * n e < 16 * l e * cnt))
    let shrink := live.filter (fun e => decide (1 < n e) && decide (16 * l e * cnt < x.low16 * total * (n e - 1)))
    let g := sortOrd (fun a b => decide (l b * n a < l a * n b)) grow
    let h := sortOrd (fun a b => decide (l a * n b < l b * n a)) shrink
    let limit := max x.maxChanges 1
    h.foldl (fun p e => p.change limit 1 e) (g.foldl (fun p e => p.change limit 0 e) p0)

/-- The proposal is made: the version has its changes, and what a pin blocked is recorded. -/
def State.proposed (s : State) (v : Version) (p : Proposal) : State :=
  p.blocked.foldl (fun t b => t.placeConflict b.1 v.seq b.2)
    { s with experts := { s.experts with pending := some { v with proposed := true, toggles := p.toggles } } }

/-- PLACEMENT_PROPOSAL: the load table of the closed interval is read and the proposal formed, by the control block in force at
the close (R300, R302, R304). While a host completion is outstanding the table is not read. (DESIGN CHOICE, log 15) -/
def execPlacementProposal (host : List HostReply) (s : State) : Out :=
  match s.experts.pending with
  | none => .next s
  | some v =>
    if v.proposed then .next s
    else
      let va := v.ctrl.loadVa + 65536 * (v.interval % 2)
      let r := (McRun.start s host).run va 65536
      match r.fault with
      | some (e, a) => .next ((r.st.faultMark mcUnit e (at' a 0 43)).proposed v { map := s.experts.map, toggles := [], blocked := [] })
      | none =>
        if r.wait then .next s
        else
          let ws := (chunksOf 16384 4 r.data).map (fun b => loadOf (BitVec.ofNat 32 (leNat b)))
          .next (r.st.proposed v (propose s.experts.map (fun e => nth 0 ws e) v.ctrl))

/-! ### Versions (R290, R301) -/

/-- The physical address of the copy that a version is built in (R290, R372). -/
def Plan.mapPhys (p : Plan) (seq : Nat) : Nat := p.resBase + 33554432 + seq % 2 * 2097152

/-- The page-table entry that maps a copy: READ, TARGET HBM4 (R290). -/
def mapEntry (phys : Nat) : W64 := BitVec.ofNat 64 (at' 1 63 1 + at' 1 62 1 + phys)

/-- Every translation cache emptied (R255). (DEDUCED, log 74) -/
def State.emptyTlbs (s : State) : State := { s with cores := mmap {} (fun _ k => { k with tlb := [] }) s.cores }

/-- A page-table entry written by the Module Controller, in HBM4 as well, and the translation caches emptied (R255, R257). -/
def State.pageWrite (s : State) (ix v : Nat) : State :=
  let t := { s with pages := mset 0 s.pages ix (BitVec.ofNat 64 v) }
  (t.devWrite .hbm (t.plan.entryPhys ix) ((leBytes 8 v).map (fun b => (b, false))) false).emptyTlbs

/-- The current copy mapped at MAP_PAGE (R290). (DEDUCED, log 46) -/
def State.mapCurrent (s : State) : State :=
  let x := s.experts
  if x.ctrl.mapPage = 0 ∨ x.seq = 0 then s
  else s.pageWrite x.ctrl.mapPage (mapEntry (s.plan.mapPhys x.seq)).toNat

/-- A version complete: its entries and MAP_CHECK, and the POLICY waymark. -/
def State.buildVersion (s : State) (v : Version) : State × Version :=
  let m := buildMap s.experts.map v.toggles v.writes
  let w := { v with built := true, entries := m, check := mapCheck m }
  let x := s.experts
  let s1 := { s with experts := { x with
    lastSeq := v.seq
    proposals := if v.toggles.isEmpty then x.proposals else sat 32 (x.proposals + 1) } }
  (s1.placePolicy 0 v.seq w.check, w)

/-- A complete version switched in: its copy written, its page mapped (R290, R301). -/
def State.switchVersion (s : State) (v : Version) : State :=
  let x := s.experts
  let s1 := { s with experts := { x with
    map := v.entries
    seq := v.seq
    pending := none
    applied := sat 32 (x.applied + 1)
    changes := sat 32 (x.changes + v.toggles.length) } }
  let a := s.plan.mapPhys v.seq
  let s2 := { s1 with mem := { s1.mem with hbm := mclear s1.mem.hbm a (a + 1048576) } }
  let s3 := { s2 with mem := { s2.mem with
    hbm := v.entries.foldl (fun m (p : Nat × W64) => msetRun 0 m (a + 8 * p.1) (leBytes 8 p.2.toNat)) s2.mem.hbm
    hbmPoison := mclear s2.mem.hbmPoison (a / 4) ((a + 1048576) / 4) } }
  s3.mapCurrent.placePolicy 1 v.seq v.check

/-- No version awaited: its software writes pass to the next one (R301). (DEDUCED, log 46) -/
def Experts.unplan (x : Experts) : Experts :=
  match x.pending with
  | some v => { x with pending := none, writes := v.writes ++ x.writes }
  | none => x

/-- The number of the next version. (DEDUCED, log 45) -/
def Experts.nextSeq (x : Experts) : Nat := (x.lastSeq + 1) % 2 ^ 24

/-- A version vetoed before its effect milepost (R303, R305). -/
def State.vetoVersion (s : State) (v : Version) : State :=
  let t := s.dropVersion v 2
  { t with experts := { t.experts with vetoed := sat 32 (t.experts.vetoed + 1), lastSeq := v.seq } }.placeConflict 2 v.seq 0

/-- MAP_VERSION_BUILT: the version whose proposal is made is complete, or is none where it has nothing to apply; with no
LEG group active, the software writes make a version that takes effect now (R301). (DEDUCED, log 46) -/
def execMapVersionBuilt (s : State) : Out :=
  let x := s.experts
  if s.legOn then
    match x.pending with
    | none => .next s
    | some v =>
      if v.built || !v.proposed then .next s
      else if v.toggles.isEmpty && v.writes.isEmpty then .next { s with experts := { x with pending := none } }
      else if v.veto then .next (s.vetoVersion v)
      else
        let r := s.buildVersion v
        .next { r.1 with experts := { r.1.experts with pending := some r.2 } }
  else
    let ws := (match x.pending with | some v => v.writes | none => []) ++ x.writes
    if ws.isEmpty then .next s
    else
      let r := { s with experts := { x with writes := [], pending := none } }.buildVersion
        { seq := x.nextSeq, interval := 0, effectLeg := 0, check := 0, built := false, proposed := true, toggles := [], writes := ws, entries := [], ctrl := x.ctrl, veto := false }
      .next (r.1.switchVersion r.2)

/-- An interval closes at the milepost that opens a leg: a version begins when it may have something to apply. It keeps the
control block of its close, and a VETO_SEQ that names it already vetoes it (R301, R303, R304). (DEDUCED, log 45) -/
def State.closeInterval (s : State) (leg : Nat) : State :=
  let x := s.experts
  if x.pending.isSome || (!x.ctrl.placeEn && x.writes.isEmpty) then s
  else
    { s with experts := { x with
      writes := []
      pending := some { seq := x.nextSeq, interval := leg / x.ctrl.every - 1, effectLeg := leg + x.ctrl.lag, check := 0, built := false, proposed := !x.ctrl.placeEn, toggles := [], writes := x.writes, entries := [], ctrl := x.ctrl, veto := x.ctrl.vetoSeq != 0 && x.ctrl.vetoSeq == x.nextSeq } } }

/-- The map at the milepost that opens a leg: the version due takes effect, or is late or vetoed, or proves to be none since it
has nothing to apply; then an interval closes (R301, R303). (DEDUCED, log 45) -/
def State.mapMilepost (s : State) (leg : Nat) : State :=
  let s1 := match s.experts.pending with
    | none => s
    | some v =>
      if v.effectLeg ≠ leg then s
      else if v.built then s.switchVersion v
      else if v.proposed && v.toggles.isEmpty && v.writes.isEmpty then { s with experts := { s.experts with pending := none } }
      else if v.veto then s.vetoVersion v
      else
        let t := s.dropVersion v 3
        { t with experts := { t.experts with late := sat 32 (t.experts.late + 1), lastSeq := v.seq } }
  if 0 < leg ∧ leg % s1.experts.ctrl.every = 0 then s1.closeInterval leg else s1

/-- The expert control block written, with the leg in progress: a veto of the version that awaits a later milepost, and
the map page moved (R290, R299, R303). (DEDUCED, log 46) -/
def State.expertCtrl (s : State) (leg : Nat) (c : ExpertCtrl) : State :=
  let old := s.experts.ctrl.mapPage
  let s1 := { s with experts := { s.experts with ctrl := c } }
  let s2 := match s1.experts.pending with
    | none => s1
    | some v =>
      if v.seq = c.vetoSeq ∧ (leg < v.effectLeg ∨ !s.legOn) then s1.vetoVersion v else s1
  if old = c.mapPage then s2
  else
    let s3 := if old = 0 ∨ s2.experts.seq = 0 then s2 else s2.pageWrite old 0
    s3.mapCurrent

end Sys2Proof.Machine
end

