-- ==== Sys2Proof/Machine/Program.lean ====
section
/-! DEFINITION. Loading programs: the checks of LOAD_PROGRAM, the broadcast with its repairs, and the power domains of
cores (10_sequencer R276, R279 to R281, R285; 15_host R405). -/

namespace Sys2Proof.Machine

/-- The 64-bit words of a byte string. -/
def words64 (bs : List Byte) : List W64 := (chunksOf bs.length 8 bs).map (fun l => BitVec.ofNat 64 (leNat l))

/-- The cores that a 144-byte mask sets (R405). -/
def maskCores (bs : List Byte) : List Nat :=
  (List.range 1152).filter (fun i => (nth 0 bs (i / 8)).toNat.testBit (i % 8))

/-- An entry of the leg table that R279 refuses. -/
def entryBad (first len e : Nat) : Bool := e != 0xFFFF && (decide (e < first) || decide (len ≤ e))

/-- LEN_WORDS of an image. -/
def imgLen (ws : List W64) : Nat := bits (nth 0 ws 0).toNat 32 14
/-- LEG_CYCLE of an image. -/
def imgCycle (ws : List W64) : Nat := bits (nth 0 ws 1).toNat 0 9

/-- Whether an image fails R279. -/
def imageBad (ws : List W64) : Bool :=
  let len := imgLen ws
  let cyc := imgCycle ws
  bits (nth 0 ws 0).toNat 0 32 != 0x58475150 || bits (nth 0 ws 0).toNat 48 16 != 1 || decide (len < 9) || decide (8192 < len)
    || cyc == 0 || decide (256 < cyc)
    || (List.range cyc).any (fun e =>
      let w := (nth 0 ws (8 + e)).toNat
      entryBad (8 + cyc) len (bits w 0 16) || entryBad (8 + cyc) len (bits w 16 16) || entryBad (8 + cyc) len (bits w 32 16))

/-- Whether every stream of a core is IDLE (R278). -/
def Core.idle (k : Core) : Bool := k.fwd.phase == .idle && k.bwd.phase == .idle && k.upd.phase == .idle

/-- A core as LOAD_PROGRAM leaves it: its streams, counters and semaphores cleared, its domain powering up where it was
shut down (R262, R280). -/
def Core.loading (k : Core) (len cyc : Nat) : Core :=
  { k with
    program := some { len := len, legCycle := cyc }
    fwd := {}
    bwd := {}
    upd := {}
    ctrs := []
    ctrPast := []
    sems := []
    semPast := []
    arrivals := []
    power := if k.power = .off then .poweringUp else k.power }

/-- The image that a LOAD_PROGRAM names, read through the page table: the read, and the words (R405). -/
def McRun.image (m : McRun) (va : Nat) : McRun × List W64 :=
  let h := m.run va 64
  let len := imgLen (words64 h.data)
  if h.fault.isSome || h.wait || decide (len < 9) || decide (8192 < len) then (h, words64 h.data)
  else
    let rest := h.run (va + 64) (8 * len - 64)
    (rest, words64 (h.data ++ rest.data))

/-- LOAD_PROGRAM: the checks in their order, and the broadcast begun (R405, R280). While a host completion of the reads
is outstanding the descriptor has not started. In a compute-part reset it ends with RESET_CUT (R421). (DESIGN CHOICE, log 15, DEDUCED, log 61) -/
def execLoadProgram (host : List HostReply) (s : State) : Out :=
  match s.mcNext 1 with
  | none => .next s
  | some d =>
    let sel := d.f 0 0 1 == 1
    let va := d.f 8 0 64
    let mva := d.f 0x10 0 64
    if d.f 0 1 23 ≠ 0 ∨ 2 ^ 43 ≤ va ∨ 2 ^ 43 ≤ mva ∨ va % 64 ≠ 0 ∨ !d.clear 0x18 then .next (s.complete d 0xA0 0 0)
    else if s.boot.st = .cpReset then .next (s.complete d 0xAC 0 0)
    else
      let im := (McRun.start s host).image va
      let mk := if sel then im.1.run mva 144 else im.1
      match mk.fault with
      | some (e, a) => .next (mk.st.complete d e a 0)
      | none =>
        if mk.wait then .next s
        else
          let ws := im.2
          let t := mk.st
          let cs := if sel then maskCores mk.data else t.usableCores
          if cs.any (fun c => !t.coreOk c || t.plan.pendingAbsent.any (fun p => p.1 == c)) then .next (t.complete d 0xA3 0 0)
          else if cs.any (fun c => !(t.core c).idle) then .next (t.complete d 0xA5 0 0)
          else if imageBad ws then .next (t.complete d 0xA4 0 0)
          else
            let b : Broadcast := { order := d.order, image := msetRun 0 [] 0 ws, len := imgLen ws, legCycle := imgCycle ws, chunks := cdiv (8 * imgLen ws) 4096, targets := cs, good := [], tries := 0 }
            let s1 := cs.foldl (fun t c => t.updCore c (fun k => k.loading (imgLen ws) (imgCycle ws))) (t.startDesc d)
            .next { s1 with host := { s1.host with broadcast := some b } }

/-- The digest of a program store's image: SHA-256 with the DIGEST field read as 0 (R276). -/
def Program.digestOk (p : Program) : Bool :=
  let ws := mgetRun 0 p.words 0 p.len
  let zeroed := ws.zipIdx.map (fun q => if 4 ≤ q.2 ∧ q.2 < 8 then (0 : W64) else q.1)
  let dig := ((ws.drop 4).take 4).flatMap (fun w => leBytes 8 w.toNat)
  blockBytes (shaBlock256 (zeroed.flatMap (fun w => leBytes 8 w.toNat))) == dig

/-- PROGRAM_CHUNK: a target core receives a chunk of the image, whose CRC goes with it; data that the CRC fits is written, and
when all chunks are there the digest is checked, a mismatch counting every chunk as missing (R280). -/
def execProgramChunk (c : CoreIx) (i : Nat) (data : List W64) (crc : W32) (s : State) : Out :=
  match s.host.broadcast with
  | none => .next s
  | some b =>
    let k := s.core c.val
    let n := min 512 (b.len - 512 * i)
    let bytes := data.flatMap (fun w => leBytes 8 w.toNat)
    let sent := (mgetRun 0 b.image (512 * i) n).flatMap (fun w => leBytes 8 w.toNat)
    if !b.targets.contains c.val || k.power != .on || decide (b.chunks ≤ i) || data.length != n || crc32c sent != crc || crc32c bytes != crc then .next s
    else
      match k.program with
      | none => .next s
      | some p =>
        let p1 := { p with words := msetRun 0 p.words (512 * i) data }
        let good := if b.good.contains (c.val, i) then b.good else b.good ++ [(c.val, i)]
        let all := (List.range b.chunks).all (fun j => good.contains (c.val, j))
        let good' := if all && !p1.digestOk then good.filter (fun g => g.1 != c.val) else good
        let s1 := s.setCore c.val { k with program := some p1 }
        .next { s1 with host := { s1.host with broadcast := some { b with good := good' } } }

/-- Target cores with a chunk missing. -/
def Broadcast.missing (b : Broadcast) : List Nat :=
  b.targets.filter (fun c => (List.range b.chunks).any (fun j => !b.good.contains (c, j)))

/-- LOAD_PROGRAM concluded: unrepaired cores become absent with cause 5 and keep no program (R281, R419). -/
def State.loadEnd (s : State) (b : Broadcast) (bad : List Nat) : State :=
  let s1 := bad.foldl (fun t c => (t.updCore c (fun k => { k with program := none })).absent c 5) { s with host := { s.host with broadcast := none } }
  match s1.desc b.order with
  | none => s1
  | some d => s1.complete d (if bad.isEmpty then 0 else 0xAA) (b.targets.length - bad.length) bad.length

/-- BROADCAST_REPAIR: the missing sets are collected; repairs follow for at most three tries (R281). -/
def execBroadcastRepair (s : State) : Out :=
  match s.host.broadcast with
  | none => .next s
  | some b =>
    let bad := b.missing
    if bad.isEmpty then .next (s.loadEnd b [])
    else if b.tries < 3 then .next { s with host := { s.host with broadcast := some { b with tries := b.tries + 1 } } }
    else .next (s.loadEnd b bad)

/-- A core whose memories hold the fixed initial state, its counters and its caddy binding kept (R285). (DEDUCED, log 61) -/
def Core.fresh (k : Core) (p : CPower) (flags : Mem Bool) : Core :=
  { power := p, counters := k.counters, caddy := k.caddy, program := k.program, flags := flags }

/-- CORE_POWER_DOWN: the domain of a usable core that holds no program begins to shut down, its memories lost; the command that
follows ends the shut-down, and a domain that a LOAD_PROGRAM named meanwhile then powers up (R285, R286). (DEDUCED, log 61) -/
def execCorePowerDown (c : CoreIx) (s : State) : Out :=
  let k := s.core c.val
  if s.coreOk c.val && k.power == .on && k.program.isNone then .next (s.setCore c.val (k.fresh .shuttingDown []))
  else happen (k.power == .shuttingDown) s (s.setCore c.val { k with power := if k.program.isSome then .poweringUp else .off })

/-- CORE_POWER_UP: a core's domain comes up, every memory in its fixed initial state and its tensor flags as the Module
Controller holds them (R285, R126). -/
def execCorePowerUp (c : CoreIx) (s : State) : Out :=
  let k := s.core c.val
  happen (k.power == .poweringUp) s (s.setCore c.val (k.fresh .on (mget [] s.flagsHeld c.val)))

end Sys2Proof.Machine
end

