-- ==== Sys2Proof/Machine/Tables.lean ====
section
/-! DEFINITION. Tables of software's: SET_TABLE with the checks and the effect of every selector, and the tag area
(15_host R411, R412, with the tables' own chapters). -/

namespace Sys2Proof.Machine

/-! ### Selectors (R412) -/

/-- Entry size in bytes and number of entries of a table selector, none for no selector. -/
def tabShape (sel : Nat) : Option (Nat × Nat) :=
  match sel with
  | 0x01 => some (1, 256)
  | 0x02 => some (32, 64)
  | 0x03 => some (16, 16384)
  | 0x04 => some (32, 1)
  | 0x05 => some (8, 4194304)
  | 0x06 => some (8, 131072)
  | 0x07 => some (32, 1)
  | 0x08 => some (32, 1)
  | 0x09 => some (16, 1)
  | 0x0A => some (64, 64)
  | _ => none

/-- Whether an entry of the caddy table is in use (R134). -/
def State.caddyInUse (s : State) (e : Nat) : Bool :=
  s.cores.any (fun k => (k.2.caddy.map (·.1)) == some e) || (s.cst e).frames.any (fun f => !f.2.isEmpty)

/-- Whether a device page lies wholly in present memory (R256, R371). -/
def State.pageHere (s : State) (target phys : Nat) : Bool :=
  if target = 0 then decide (phys + 2097152 ≤ s.plan.hbmBytes) && s.plan.hbmStacks.all (fun d => !s.mem.lost.contains d)
  else decide (phys + 2097152 ≤ s.plan.ddrBytes) && (List.range 512).all (fun j => !s.mem.lost.contains (s.plan.ddrDev (phys + 4096 * j)))

/-- A page-table entry that R256, R290 or R374 refuses. -/
def State.pageRefused (s : State) (ix v : Nat) : Bool :=
  let t := bits v 58 2
  let phys := bits v 21 31 * 2097152
  t == 3 || bits v 52 6 != 0 || bits v 0 21 != 0 || (t == 2 && bit v 60) || (ix == s.experts.ctrl.mapPage && ix != 0)
    || (decide (t < 2) && !s.pageHere t phys)
    || (t == 0 && !(decide (phys + 2097152 ≤ s.userTop) || phys == s.plan.postPhys))

/-- The expert control block that an entry writes (R299). -/
def expertCtrlOf (v : Nat) : ExpertCtrl :=
  { placeEn := bit v 31, reviseLog2 := fld v 0 24 5, hold := fld v 0 8 8, maxChanges := fld v 0 0 8, high16 := fld v 4 24 8, low16 := fld v 4 16 8, experts := fld v 4 0 15, vetoSeq := fld v 8 8 24, mapPage := fld v 0xC 0 22, loadVa := fld v 0x10 0 64 }

/-- The link control block that an entry writes (R335). -/
def linkCtrlOf (v : Nat) : LinkCtrl :=
  { coord := BitVec.ofNat 16 (fld v 0 16 16), sizeX := BitVec.ofNat 5 (fld v 0 10 5), sizeY := BitVec.ofNat 5 (fld v 0 5 5), sizeZ := BitVec.ofNat 5 (fld v 0 0 5), en := BitVec.ofNat 24 (fld v 4 0 24) }

/-- A coordinate beyond the torus size, or a torus deeper than 20 (R335). -/
def LinkCtrl.beyond (c : LinkCtrl) : Bool :=
  (List.range 3).any (fun d => decide (c.size d ≤ coordAt c.coord d)) || decide (19 < c.sizeZ.toNat)

/-- Whether the rules of a table's home refuse an entry. (DEDUCED, log 56) -/
def State.entryRefused (s : State) (sel ix v : Nat) : Bool :=
  match sel with
  | 0x01 => bits v 0 7 != 0
  | 0x02 => bits v 24 7 != 0 || bits v 0 8 != 0 || v / 2 ^ 160 != 0 || decide (64 < bits v 16 8) || decide (32 < bits v 8 8)
      || (s.caddyInUse ix && bit v 31)
  | 0x03 => bits v 26 2 == 3
  | 0x04 => fld v 8 24 7 != 0 || fld v 0xC 24 8 != 0 || fld v 0x10 29 3 != 0 || fld v 0x10 21 3 != 0 || fld v 0x10 3 5 != 0
      || fld v 0x14 16 16 != 0 || v / 2 ^ 192 != 0
  | 0x05 => s.pageRefused ix v
  | 0x06 => bits v 48 12 != 0 || (bit v 63 && bits v 0 16 == 0) || (bit v 61 && bit v 60 && !bit v 63)
  | 0x07 =>
    let c := expertCtrlOf v
    fld v 0 29 2 != 0 || fld v 0 16 8 != 0 || fld v 4 15 1 != 0 || fld v 8 0 8 != 0 || fld v 0xC 22 10 != 0 || v / 2 ^ 192 != 0
      || c.reviseLog2 == 0 || decide (24 < c.reviseLog2) || decide (c.high16 ≤ c.low16) || decide (16384 < c.experts)
      || c.loadVa % 65536 != 0 || decide (c.every ≤ c.lag)
  | 0x08 => fld v 0 15 1 != 0 || fld v 4 24 8 != 0 || v / 2 ^ 64 != 0 || s.legOn || (linkCtrlOf v).beyond
  | 0x09 => fld v 0 21 9 != 0 || fld v 0 0 16 != 0 || v / 2 ^ 32 != 0 || decide (fld v 0 16 5 < 6) || decide (16 < fld v 0 16 5)
  | _ => false

/-! ### Effects -/

/-- A tensor flag written: held by the Module Controller, and in the core when it is powered (R126). (DEDUCED, log 56) -/
def State.flagWrite (s : State) (c ix : Nat) (b : Bool) : State :=
  let s1 := { s with flagsHeld := mupd [] s.flagsHeld c (fun m => mset false m ix b) }
  if (s.core c).power == .on then s1.updCore c (fun k => { k with flags := mset false k.flags ix b }) else s1

/-- A caddy table entry written; VALID 0 drops the entry's frames and unbinds its cores (R134). -/
def State.caddyWrite (s : State) (e v : Nat) : State :=
  let x : CaddyEntry := { valid := bit v 31, members := bits v 16 8, nStacks := bits v 8 8, sliceHbm := fld v 4 0 32, hbmBase := fld v 8 0 32, ddrBase := fld v 0xC 0 32, sliceDdr := fld v 0x10 0 32 }
  let s1 := { s with caddy := mset {} s.caddy e x }
  let s2 := if x.valid then s1
    else { s1 with cores := mmap {} (fun _ k => if (k.caddy.map (·.1)) == some e then { k with caddy := none } else k) s1.cores }
  let y := s2.cst e
  s2.setCst e { y with bound := false, frames := if x.valid then y.frames else [] }

/-- A Format Table entry written: the RW fields; a pinned entry's format in use is its PIN_FORMAT (R161, R163). (DEDUCED, log 44) -/
def State.fmtWrite (s : State) (f v : Nat) : State :=
  { s with fmt := mupd ({} : FmtEntry) s.fmt f (fun e =>
    { e with pin := bit v 31, allowed := BitVec.ofNat 3 (bits v 28 3), pinFormat := bits v 26 2, current := if bit v 31 then bits v 26 2 else e.current }) }

/-- The numerics control block written (R164). -/
def numericsOf (v : Nat) : Numerics :=
  { seed := BitVec.ofNat 64 v, govEn := fld v 8 31 1 == 1, interval := fld v 8 0 24, phase := fld v 0xC 0 24, upLog2 := fld v 0x10 24 5, downLog2 := fld v 0x10 16 5, holdSteps := fld v 0x10 8 8, margin := fld v 0x10 0 3, lag := fld v 0x14 0 16 }

/-- One table write taking effect; `leg` is the leg that the milepost opens (R412). -/
def State.tabApply (s : State) (leg : Nat) (w : TabWrite) : State :=
  match w.sel with
  | 0x01 =>
    match w.core with
    | some c => s.flagWrite c w.ix (w.val.testBit 7)
    | none => s.usableCores.foldl (fun t c => t.flagWrite c w.ix (w.val.testBit 7)) s
  | 0x02 => s.caddyWrite w.ix w.val
  | 0x03 => s.fmtWrite w.ix w.val
  | 0x04 => { s with num := numericsOf w.val }
  | 0x05 => s.dmaSome.pageWrite w.ix w.val
  | 0x06 => { s with experts := { s.experts with writes := s.experts.writes ++ [(w.ix, BitVec.ofNat 64 w.val)] } }
  | 0x07 => s.expertCtrl leg (expertCtrlOf w.val)
  | 0x08 => s.linkCtrl (linkCtrlOf w.val)
  | 0x09 =>
    { s with chk := { s.chk with checkEn := fld w.val 0 31 1 == 1, halt := fld w.val 0 30 1 == 1, sampleLog2 := fld w.val 0 16 5 } }
  | _ => { s with flash := { s.flash with tags := msetRun 0 s.flash.tags (64 * w.ix) (leBytes 64 w.val) } }

/-! ### SET_TABLE (R411) -/

/-- A read of host memory at a bus address, one line a request (R389). -/
def McRun.busPiece (m : McRun) (a n : Nat) : McRun :=
  if m.fault.isSome || m.wait then m
  else
    match m.st.hostLine mcUnit (a / 64 * 64) m.host with
    | (st, .line l ep, r) =>
      { m with st := st, host := r, bytes := m.bytes ++ (((lineBytes l).drop (a % 64)).take n).map (fun b => (b, ep)) }
    | (st, .abort, r) => { m with st := st, host := r, fault := some (0xA7, a) }
    | (st, .none, r) => { m with st := st, host := r, wait := true }

/-- A byte range of host memory, the bytes before it forgotten. -/
def McRun.bus (m : McRun) (a n : Nat) : McRun :=
  (linePieces (n / 64 + 2) a n).foldl (fun q p => q.busPiece p.1 p.2) { m with bytes := [] }

/-- What a SET_TABLE comes to before any entry is applied. -/
inductive SetOut where
  /-- A host completion is outstanding. -/
  | wait
  /-- A status and DETAIL0. -/
  | fail (m : McRun) (status d0 : Nat)
  /-- The entries, all checked. -/
  | ok (m : McRun) (ws : List TabWrite)
deriving DecidableEq, Repr

/-- A field of a descriptor line. -/
def df (l : Line) (off lo w : Nat) : Nat := fld l.toNat off lo w

/-- The core that a per-core table write names: none every usable core; a number, or a bad unit. -/
def tabCore (l : Line) : Option (Option Nat) :=
  if df l 0 21 1 = 0 then some none
  else if df l 0x18 16 5 ≠ 0 then none
  else (coreOfUnit (df l 0x18 16 16)).map some

/-- The checks and the reading of a SET_TABLE. -/
def McRun.setTable (m : McRun) (l : Line) : SetOut :=
  let sel := df l 0 0 8
  let mode := df l 0 22 2
  let first := df l 8 0 32
  let count := df l 0xC 0 32
  match tabShape sel with
  | none => .fail m 0xA0 0
  | some (size, n) =>
    if mode = 3 ∨ df l 0 8 13 ≠ 0 ∨ df l 0x18 0 16 ≠ 0 ∨ df l 0x1C 0 32 ≠ 0 ∨ count = 0 ∨ n < first + count
        ∨ (sel ≠ 1 ∧ df l 0 21 1 = 1) ∨ (tabCore l).isNone
        ∨ (mode = 0 ∧ (32 < size * count ∨ l.toNat / 2 ^ (256 + 8 * size * count) ≠ 0)) then .fail m 0xA0 0
    else
      let r := if mode = 0 then { m with bytes := (((lineBytes l).drop 32).take (size * count)).map (fun b => (b, false)) }
        else if mode = 1 then m.bus (df l 0x10 0 64) (size * count)
        else m.run (df l 0x10 0 64) (size * count)
      match r.fault with
      | some (e, a) => .fail r e a
      | none =>
        if r.wait then .wait
        else
          let vs := (chunksOf count size r.data).map leNat
          if (vs.zipIdx first).any (fun q => r.st.entryRefused sel q.2 q.1) then .fail r 0xA0 0
          else if sel = 0x0A ∧ 1000000 ≤ r.st.flash.tagCount then .fail r 0xC0 0
          else
            let core := match tabCore l with | some c => c | none => none
            .ok r ((vs.zipIdx first).map (fun q => { sel := sel, core := core, ix := q.2, val := q.1 }))

/-- Whether a selector's writes take effect at once (R412). -/
def atOnce (sel : Nat) : Bool := sel == 0x08 || sel == 0x0A

/-- Checked entries applied at once, or set down for the next milepost (R412). (DEDUCED, log 74) -/
def State.setApply (s : State) (ws : List TabWrite) : State :=
  ws.foldl (fun t w =>
    if atOnce w.sel || !t.legOn then t.tabApply t.legNow w
    else { t with host := { t.host with tables := t.host.tables ++ [w] } }) s

/-- SET_TABLE (R411, R412). A write of the tag area completes when the new copy is in flash (R472). (DESIGN CHOICE, log 15) -/
def execSetTable (host : List HostReply) (s : State) : Out :=
  match s.mcNext 5 with
  | none => .next s
  | some d =>
    match (McRun.start s host).setTable d.raw with
    | .wait => .next s
    | .fail m e a => .next (m.st.complete d e a 0)
    | .ok m ws =>
      if d.f 0 0 8 = 0x0A then
        let tags := ws.foldl (fun t w => msetRun 0 t (64 * w.ix) (leBytes 64 w.val)) m.st.flash.tags
        let t := m.st.setDesc { d with started := true, since := s.time.now, result := some (0, BitVec.ofNat 64 ws.length, 0) }
        .next { t with flash := { t.flash with tagNew := some (d.order, tags) } }
      else .next ((m.st.setApply ws).complete d 0 ws.length 0)

/-- TAG_AREA_FLASH_WRITTEN: the new copy stands, TAG_COUNT and measurement 6 change, and the SET_TABLE completes (R472). -/
def execTagAreaFlashWritten (s : State) : Out :=
  match s.flash.tagNew with
  | none => .next s
  | some (o, tags) =>
    let s1 := { s with flash := { s.flash with tags := tags, tagCount := s.flash.tagCount + 1, tagNew := none } }.measChanged 6
    match s1.desc o with
    | none => .next s1
    | some d => .next (s1.complete d 0 ((d.result.map (fun r => r.2.1.toNat)).getD 0) 0)

end Sys2Proof.Machine
end

