-- ==== Sys2Proof/Machine/Legs.lean ====
section
/-! DEFINITION. Legs and mileposts: readiness, the milepost and all that takes effect at it, stretches, deadlines and
abandonment (01_legs_mileposts R20 to R29, R36 to R45; R262, R274, R276 to R278; R326; R406). -/

namespace Sys2Proof.Machine

/-! ### Readiness (R28, R36, R277) -/

/-- Whether a core has ended its leg: no stream runs or has stopped, no operation is open, every pot ticket is served. -/
def Core.legEnded (k : Core) : Bool :=
  let done (x : Stream) : Bool := x.phase == .idle || x.phase == .ended
  done k.fwd && done k.bwd && done k.upd
    && [Eng.array, .merge, .vec, .row, .acc].all (fun e => (k.queue e).isEmpty && (k.running e).isEmpty)
    && k.potHead == k.potNext

/-- Whether a participant core has ended its leg; one that became absent never does (R74). -/
def State.coreEnded (s : State) (c : Nat) : Bool :=
  s.coreOk c && !s.plan.pendingAbsent.any (fun p => p.1 == c) && (s.core c).legEnded

/-- Whether every local participant of every active LEG group has ended the leg: cores, link engine and checker
(R28, R36, R332, R349). -/
def State.moduleEnded (s : State) : Bool :=
  s.activeLegs.all (fun n => (s.group n).cores.all s.coreEnded) && s.lnk.xfers.isEmpty && s.lnk.postLines.isEmpty && s.checkerDone

/-- Whether a transfer was posted by one of some cores. -/
def xferBy (cs : List Nat) (x : Xfer) : Bool :=
  match coreOfUnit (pf x.post 0x18 48 16) with
  | some c => cs.contains c
  | none => false

/-- Whether a post not yet taken was posted by one of some cores. -/
def postBy (cs : List Nat) (p : LineWrite) : Bool :=
  match p.src, p.line with
  | some (c, _), _ => cs.contains c
  | none, some l => xferBy cs { queue := p.queue, count := 0, post := l }
  | none, none => false

/-- Whether a group's own local participants have ended the leg: its cores, and the link engine for what they posted
(R25, R36, R332). (DEDUCED, log 85) -/
def State.groupEnded (s : State) (n : Nat) : Bool :=
  let cs := (s.group n).cores
  cs.all s.coreEnded && !s.lnk.xfers.any (xferBy cs) && !s.lnk.postLines.any (postBy cs)

/-- The ready time that a group has for a module in the leg. -/
def Group.readyOf (g : Group) (m : W16) : Option Nat := (g.ready.find? (fun p => p.1 == m)).map (·.2)

/-- Whether every participant module is ready. -/
def Group.allReady (g : Group) : Bool := g.modules.all (fun m => (g.readyOf m).isSome)

/-- The group's last ready time. -/
def Group.lastReady (g : Group) : Nat := (g.ready.map (·.2)).foldl max 0

/-- The instant of the next milepost, once every ready time and the due time are known (R28, R35). -/
def State.milepostAt (s : State) : Option Nat :=
  match s.series with
  | none => none
  | some r =>
    match r.due with
    | none => none
    | some d =>
      if r.opened.isNone then some d
      else if (s.group r.founder).allReady && (s.group r.founder).st != .abandoned then some (max d ((s.group r.founder).lastReady + r.latency))
      else none

/-- A group whose leg symbols are taken: active, or waiting for its choice of originator. -/
def Group.listening (g : Group) : Bool := g.legActive || g.ending.isSome

/-- The leg that a group's symbols concern. -/
def State.groupLeg (s : State) (n : Nat) : Nat := match (s.group n).ending with | some e => e.leg | none => s.legNow

/-! ### Causes (R37 to R39) -/

/-- The cause this module reports for its own lateness, and the sub-cause. OVERRUN's sub-causes 1 and 2 belong to the
symbols of a module that was reset or adopts (R361, R439). Of several conditions of one cause the table does not say which is the
sub-cause: 115 C before the coolant before 105 C, peak before average, HBM4 before DDR5. (DEDUCED, log 27, DESIGN CHOICE, log 80) -/
def Conds.cause (c : Conds) : Nat × Nat :=
  if c.stop115 then (2, 1) else if c.coolant then (2, 2) else if c.limit105 then (2, 0)
  else if c.droop then (3, 0)
  else if c.powerPeak then (1, 1) else if c.powerAvg then (1, 0)
  else if c.retrainHbm then (4, 0) else if c.retrainDdr then (4, 1)
  else if c.pace then (6, 0)
  else (5, 0)

/-- Whether a group has learnt of an originator in the leg. -/
def Group.knows (g : Group) (m : W16) : Bool := g.origins.any (fun o => o.coord == m)

/-- An originator learnt of by a group: one STRETCH_BEGIN for each distinct originator in a leg, whichever group names it
first (R39). -/
def State.stretchBegin (s : State) (n : Nat) (m : W16) (cause sub : Nat) : State :=
  if (s.group n).knows m then s
  else
    let t := s.updGroup n (fun g => { g with origins := g.origins ++ [({ coord := m, cause := cause, sub := sub } : Origin)] })
    if s.groups.any (fun p => p.2.knows m) then t else t.markG 2 cause n m sub

/-- This module's own stretch symbol to a group (R38). -/
def State.sendStretch (s : State) (n : Nat) (cause sub : Nat) : State :=
  (s.stretchBegin n s.coord cause sub).sendGroup n { kind := 2, cause := cause, sub := sub, leg := s.groupLeg n }

/-- The cause of a dominant originator: the one its symbol gave; with none sent, since it was ready by the due time and later
than due − L, this module's own for itself and OVERRUN for another (R23, R37). (DEDUCED, log 27) -/
def State.causeOf (s : State) (g : Group) (m : W16) : Nat × Nat :=
  match g.origins.find? (fun o => o.coord == m) with
  | some o => (o.cause, o.sub)
  | none => if m = s.coord then s.conds.cause else (5, 0)

/-- The cause an originator gave; OVERRUN for one that sent no stretch symbol. (DEDUCED, log 27) -/
def Group.causeOf (g : Group) (m : W16) : Nat × Nat :=
  match g.origins.find? (fun o => o.coord == m) with
  | some o => (o.cause, o.sub)
  | none => (5, 0)

/-- The lowest coordinate of a list, 0 for none. -/
def lowestCoord (l : List W16) : W16 := BitVec.ofNat 16 (minOf (l.map (·.toNat)))

/-- The dominant originator of a stretch: the latest ready, the lowest coordinate among several (R29). -/
def Group.latest (g : Group) : W16 := lowestCoord ((g.ready.filter (fun p => p.2 == g.lastReady)).map (·.1))

/-! ### Abandonment (R44, R278, R337) -/

/-- A stream stopped and IDLE. -/
def Stream.halt (x : Stream) : Stream := { x with phase := .idle, patches := [], onend := none, waiting := none }

/-- A core with its streams stopped and IDLE. -/
def Core.stopStreams (k : Core) : Core := { k with fwd := k.fwd.halt, bwd := k.bwd.halt, upd := k.upd.halt }

/-- A core's job stopped: streams IDLE, no operation left to write anything more, and the state that a milepost clears
cleared. (DEDUCED, log 28) -/
def Core.halt (k : Core) (now : Nat) : Core :=
  ({ k with
    fwd := k.fwd.halt
    bwd := k.bwd.halt
    upd := k.upd.halt
    ctrs := []
    ctrPast := []
    sems := []
    semPast := []
    arrivals := []
    potNext := 0
    potHead := 0
    arrayQ := []
    mergeQ := []
    vecQ := []
    rowQ := []
    accQ := []
    arrayRun := []
    mergeRun := none
    vecRun := none
    rowRun := none
    accRun := none
    potDone := []
    flows := []
    load := none
    drains := []
    pairs := []
    popWait := none } : Core).settleUnits now

/-- A group's streams stopped, what its cores have posted and not sent dropped, and its open transfers ended with LINK_ABORT
(R44, R337). (DEDUCED, log 28) -/
def State.stopGroup (s : State) (n : Nat) : State :=
  let cs := (s.group n).cores
  let s1 := cs.foldl (fun t c => t.updCore c (fun k => k.halt t.cycles)) s
  let s2 := { s1 with lnk := { s1.lnk with postLines := s1.lnk.postLines.filter (fun p => !postBy cs p) } }
  (s2.dropFlits (s2.lnk.xfers.filter (xferBy cs))).abortXfers (xferBy cs)

/-- A descriptor by its order completed, where it is still taken. (DEDUCED, log 29) -/
def State.completeOrder (s : State) (o status d0 d1 : Nat) : State :=
  match s.desc o with
  | some d => s.complete d status d0 d1
  | none => s

/-- A group's RUN_LEGS, and the FENCE and RECORD_MARK that wait for its mileposts, completed when it is abandoned or
stops being RUNNING. -/
def State.endRuns (s : State) (n status d0 d1 : Nat) : State :=
  let t := (s.group n).runs.foldl (fun u r => u.completeOrder r.order status d0 d1) s
  let t1 := t.updGroup n (fun g => { g with runs := [] })
  (t1.host.descs.filter (fun d => d.started && d.groupNo == n && d.f 0 22 1 == 1 && d.result.isNone && (d.type == 7 || d.type == 8))).foldl
    (fun u d => u.complete d 0xA8 0 0) t1

/-- DETAIL1 of LEG_ABANDONED (R419). -/
def abandonDetail (m : W16) (cause sub : Nat) : Nat := at' m.toNat 16 16 + at' cause 12 4 + at' sub 4 8

/-- A group IDLE again: its counters stand until its next JOIN, and markers and RUN_LEGS that came for it are kept
(R45, R60). A spare's stretch symbols to an adopted group end with its release; those of a module that was reset go on until
the group is abandoned or released elsewhere (R361, R439). -/
def Group.gone (g : Group) : Group :=
  { g with owed := g.owed.filter (fun w => w.sub != 2), st := .idle, active := false, joinOrder := none, firstAt := none, ending := none, releasing := none, ready := [], origins := [], doubt := false }

/-- A job abandoned, with its originator chosen: RUN_LEGS completed, JOB_ABANDON recorded (R44). A RELEASE that waited
completes, and leaves the group IDLE (R408). SG_LAST and the stretch counters stand: they are of legs that a held milepost
closed. (DEDUCED, log 82) -/
def State.concludeGroup (s : State) (n leg : Nat) (m : W16) (cause sub : Nat) (soft : Bool) : State :=
  let s1 := (s.endRuns n 0xA6 leg (abandonDetail m cause sub)).updGroup n (fun g => { g with ending := none, doubt := false })
  let s2 := s1.markAt s1.time.now 5 cause n m mpUnit (s1.jobOf n) leg (at' (b2n soft) 8 1 + at' sub 0 8)
  match (s2.group n).releasing with
  | none => s2
  | some o => (s2.updGroup n Group.gone).completeOrder o 0 0 0

/-- The series over, with no active LEG group left: pace OFF, absences take effect at once, a JOIN that waits for a
milepost of the series ends with GROUP_STATE, the checker's leg is over, and a version of the Expert Map that waits for its
milepost goes, its software writes kept (R33, R74, R301, R349). (DEDUCED, log 29, DEDUCED, log 46) -/
def State.seriesEnd (s : State) : State :=
  let s1 := { s with
    experts := s.experts.unplan
    series := none
    pace := { s.pace with st := .off }
    chk := { s.chk with finals := [], compared := [], blocked := false } }
  let s2 := s1.groups.foldl (fun t p =>
    match p.2.joinOrder with
    | some o => if !p.2.barrier && p.2.firstAt.isSome then (t.completeOrder o 0xA8 0 0).updGroup p.1 Group.gone else t
    | none => t) s1
  s2.applyAbsent

/-- The table writes that waited for a milepost take effect (R412). -/
def State.tablesDue (s : State) : State :=
  s.host.tables.foldl (fun t w => t.tabApply t.legNow w) { s with host := { s.host with tables := [] } }

/-- The series over, and all that waited for a milepost; a phase point follows (R57, R377, R412). (DEDUCED, log 55) -/
def State.seriesOver (s : State) : State := s.seriesEnd.tablesDue.rephase.retrainNext

/-- The LEG groups that an abandonment takes with it: all of the series when it is the founding group (R36). -/
def State.fallsWith (s : State) (n : Nat) : List Nat :=
  match s.series with
  | none => [n]
  | some r => if r.founder = n then s.activeLegs else [n]

/-- Groups put in ABANDONED, their jobs stopped; the series ends when none is left. -/
def State.putAbandoned (s : State) (ns : List Nat) : State :=
  let s1 := ns.foldl (fun t n => (t.stopGroup n).updGroup n (fun g => { g with st := .abandoned, active := false })) s
  if s1.legOn || s1.series.isNone then s1 else s1.seriesOver

/-- A job abandoned at once with an originator already chosen (R44). -/
def State.abandonNow (s : State) (n : Nat) (m : W16) (cause sub : Nat) (soft : Bool) : State :=
  let leg := s.groupLeg n
  let ns := s.fallsWith n
  ns.foldl (fun t i => t.concludeGroup i leg m cause sub soft) (s.putAbandoned ns)

/-- The deadline of the leg for a group (R41). -/
def State.deadlineOf (s : State) (n : Nat) : Option Nat :=
  match s.series with
  | none => none
  | some r => r.due.map (fun d => d + (s.group n).limit * (s.group n).period / 100)

/-- The STRETCH_LIMIT record of a group over its limit, stamped at the deadline (R43). -/
def State.limitMark (s : State) (n dl : Nat) : State :=
  let g := s.group n
  s.markAt dl 4 0 n s.coord mpUnit g.jobTag s.legNow (at' (g.limit * g.period / 100) 0 48)

/-- A group's doubt at its deadline ended with a participant late: what the policy does with certainty (R43). (DEDUCED, log 26) -/
def State.settleDoubt (s : State) (n : Nat) : State :=
  let g := s.group n
  if !g.doubt then s
  else
    match g.ending, s.deadlineOf n with
    | some e, _ =>
      let ns := (s.groups.filter (fun p => p.2.ending == some e)).map (·.1)
      (ns.foldl (fun t i => t.updGroup i (fun x => { x with doubt := false })) s).putAbandoned ns
    | none, some dl => (s.updGroup n (fun x => { x with doubt := false })).limitMark n dl
    | none, none => s.updGroup n (fun x => { x with doubt := false })

/-- The doubts that a milepost ends: of groups under HOLD (R43). -/
def State.settleDoubts (s : State) : State :=
  (s.groups.filter (fun p => p.2.doubt && p.2.legActive)).foldl (fun t p => t.settleDoubt p.1) s

/-- The choice of R29 for an abandonment: the lowest coordinate among participants not ready at an instant, and its
cause. (DEDUCED, log 26) -/
def Group.choose (g : Group) (judge : Nat) : W16 × Nat × Nat :=
  let late := g.modules.filter (fun m => match g.readyOf m with | some t => decide (judge < t) | none => true)
  let m := lowestCoord late
  (m, g.causeOf m)

/-! ### Ready symbols and the milepost -/

/-- The active groups for which this module has become ready and has not said so: the founding group when every local
participant of every group has ended the leg, since the series' mileposts go by it, and a later group when its own have
(R28, R36). (DEDUCED, log 85) -/
def State.nowReady (s : State) (r : Series) : List Nat :=
  s.activeLegs.filter (fun n => ((s.group n).readyOf s.coord).isNone && (s.moduleEnded || (n != r.founder && s.groupEnded n)))

/-- MODULE_READY: local participants have ended their leg; the ready time goes to each group for which this makes the module
ready (R28, R36). When all of every group's have, the checker has ended its leg too (R349). -/
def execModuleReady (s : State) : Out :=
  match s.series with
  | none => .next s
  | some r =>
    let t := s.time.now
    let ns := s.nowReady r
    happen (r.opened.isSome && !ns.isEmpty) s
      (ns.foldl (fun u n =>
        (u.updGroup n (fun g => { g with ready := g.ready ++ [(u.coord, t)] })).sendGroup n { kind := 1, leg := r.legNo, value := t })
        (if s.moduleEnded then s.checkMissing else s))

/-- The entries of the leg table that streams take (R276). (DEDUCED, log 30) -/
def Core.enter (k : Core) (e : Nat) : Core :=
  match k.program with
  | none => k
  | some p =>
    let w := (mget 0 p.words (8 + e)).toNat
    let go (x : Stream) (pc : Nat) : Stream :=
      let y := { x with patches := [], onend := none, next := 0, waiting := none }
      if pc = 0xFFFF then { y with phase := .ended } else { y with phase := .running, pc := pc % 8192 }
    { k with fwd := go k.fwd (bits w 0 16), bwd := go k.bwd (bits w 16 16), upd := go k.upd (bits w 32 16) }

/-- What a milepost clears of a core (R262). -/
def Core.atMilepost (k : Core) : Core :=
  { k with ctrs := [], ctrPast := [], sems := [], semPast := [], arrivals := [], potNext := 0, potHead := 0, potDone := [] }

/-- A round left incomplete at a milepost: a FAULT for each participant of the group (R274). -/
def State.roundsLeft (s : State) : State :=
  s.groups.foldl (fun t p =>
    if p.2.barrier && p.2.active && p.2.cores.any (fun c => !(mget ({} : Arrivals) (s.core c).arrivals p.1).sems.isEmpty) then
      p.2.cores.foldl (fun u c => u.markOf 0x12 p.1 (coreUnit c 5) (at' 0x75 56 8)) t
    else t) s

/-- A group's legs at a milepost: the run that has had its last leg completes, and the cores take the entries of the run
in hand or are IDLE (R276, R406). (DEDUCED, log 22) -/
def State.runMilepost (s : State) (m n : Nat) : State :=
  let s1 := match (s.group n).runs with
    | [] => s
    | r :: rest =>
      match r.startLeg with
      | none => if r.accepted then s.updGroup n (fun g => { g with runs := { r with startLeg := some m } :: rest }) else s
      | some k =>
        if r.accepted && decide (k + r.count ≤ m) then
          (s.updGroup n (fun g => { g with runs := rest })).completeOrder r.order 0 (k + r.count - 1) r.count
        else s
  let g := s1.group n
  let entry := match g.runs with
    | r :: _ =>
      match r.startLeg with
      | some k => if r.accepted && decide (k ≤ m) then some (r.first + (m - k)) else none
      | none => none
    | [] => none
  g.cores.foldl (fun t c => t.updCore c (fun k =>
    match entry, k.program with
    | some e, some p => k.enter (e % max p.legCycle 1)
    | _, _ => k.stopStreams)) s1

/-- The leg's stretch recorded by the module and counted by its groups (R29, R39, R60). The originator of a stretch that only a
realign made, for which R34 names none, is the pace leader. (DEDUCED, log 27, DESIGN CHOICE, log 79) -/
def State.stretchEnd (s : State) (r : Series) (due : Nat) : State :=
  let t := s.time.now
  let len := t - r.nominal.getD due
  if len = 0 then s
  else
    let g := s.group r.founder
    let own := decide (due < g.lastReady + r.latency)
    let m := if own then g.latest else r.leader.getD 0
    let c := if own then (if r.nominal.isSome ∧ !g.knows m then (6, 0) else s.causeOf g m) else if r.nominal.isSome then (6, 0) else (5, 0)
    let s1 := s.markG 3 c.1 r.founder m (at' (sat 8 g.origins.length) 48 8 + at' len 0 48)
    s1.activeLegs.foldl (fun u n => u.updGroup n (fun x => { x with
      stretchCount := sat32 x.stretchCount, stretchMax := BitVec.ofNat 32 (max x.stretchMax.toNat (sat 32 len)), lastOrigin := m, lastCause := c.1 })) s1

/-- The LEG groups released at this milepost leave it, their cores' streams IDLE (R278, R408). -/
def State.releaseDue (s : State) : State :=
  s.groups.foldl (fun t p =>
    match p.2.releasing with
    | some o =>
      if p.2.legActive then
        p.2.cores.foldl (fun u c => u.updCore c Core.stopStreams) (((t.endRuns p.1 0xA8 0 0).updGroup p.1 Group.gone).completeOrder o 0 0 0)
      else t
    | none => t) s

/-- The conditions of R37 at the opening of a leg: those that last. -/
def State.openConds (s : State) : State :=
  let keep := s.conds
  { s with conds := { retrainHbm := s.mem.ctls.any (fun p => p.1 < 8 && p.2.st == 1), retrainDdr := s.mem.ctls.any (fun p => 8 ≤ p.1 && p.2.st == 1), stop115 := keep.stop115, coolant := keep.coolant } }.powerConds

/-- What takes effect at a milepost, in the order of R24: the operating point, table writes, governor decisions, the
expert map. -/
def State.changes (s : State) (m : Nat) (closes : Bool) : State :=
  let s1 := s.applyAbsent.opMilepost closes
  let s2 := s1.host.tables.foldl (fun t w => t.tabApply m w) { s1 with host := { s1.host with tables := [] } }
  (s2.govMilepost m).mapMilepost m

/-- Groups that begin at milepost `m`: their JOIN completes with L, and a RUN_LEGS that waited starts (R35, R36, R406,
R408). -/
def State.beginGroups (s : State) (m : Nat) : State :=
  s.groups.foldl (fun t p =>
    match p.2.joinOrder, p.2.firstAt with
    | some o, some a =>
      if !p.2.barrier && decide (a ≤ t.time.now) then
        ((t.updGroup p.1 (fun g => { g with active := true, st := .running, joinOrder := none, firstAt := none, markers := [] })).completeOrder
          o 0 p.2.latency p.2.modules.length).runMilepost m p.1
      else t
    | _, _ => t) s

/-- The FENCEs and marks that wait for a milepost of their group (R416, R417). (DEDUCED, log 60) -/
def State.milepostDescs (s : State) (ready : List Nat) : State :=
  let s1 := (s.host.descs.filter (fun d => ready.contains d.order)).foldl (fun t d => t.setDesc { d with result := some (0, 0, 0) }) s
  (s1.host.descs.filter (fun d => d.started && d.type == 8 && d.f 0 22 1 == 1 && (s1.group d.groupNo).legActive)).foldl
    (fun t d => t.recordMark d t.time.now) s1

/-- The FENCEs for which this milepost is the first since what they wait for was done. (DEDUCED, log 29) -/
def State.fencesReady (s : State) : List Nat :=
  (s.host.descs.filter (fun d => d.started && d.type == 7 && d.f 0 22 1 == 1 && d.result.isNone && (s.group d.groupNo).legActive && s.fenceReady d)).map (·.order)

/-- The milepost fires now: one leg closes and the next opens (R21, R24, R28, R45, R57). (DEDUCED, log 52) -/
def State.fireMilepost (s : State) (r : Series) (due : Nat) : State :=
  let closes := r.opened.isSome
  let m := if closes then r.legNo + 1 else 0
  let fences := s.fencesReady
  let s1 := if closes then s.settleDoubts else s
  let s2 := s1.updSeries (fun q => { q with opened := some s.time.now, legNo := m })
  let s3 := if closes then (s2.stretchEnd r due).roundsLeft else s2
  let s4 := (s3.activeLegs.foldl (fun t n => t.runMilepost m n) s3).milepostDescs fences
  let s5 := s4.releaseDue.beginGroups m
  let s5 := { s5 with cores := mmap {} (fun _ k => k.atMilepost) s5.cores, lnk := { s5.lnk with rx := [] } }
  let s6 := s5.changes m closes
  if !s6.legOn then s6.seriesOver
  else
    let s7 := ({ s6 with
      groups := mmap {} (fun _ g => if g.legActive then { g with st := .running, ready := [], origins := [], ending := none, doubt := false } else g) s6.groups } : State).takeHeld
    let s8 := s7.openConds.rephase
    let ahead := match r.ahead with | some (l, v) => if l = m + 1 then some v else none | none => none
    let s9 := s8.updSeries (fun q => { q with due := none, nominal := none, ahead := none, window := false })
    let q : Series := { r with opened := some s.time.now, legNo := m, due := none, nominal := none, ahead := none, window := false }
    let s10 := s9.paceMilepost q s.time.now
    (match ahead with | some v => s10.learnDue q v | none => s10).retrainNext

/-- MILEPOST: the next milepost fires at its instant (R28). -/
def execMilepost (s : State) : Out :=
  match s.series, s.milepostAt with
  | some r, some t => .next ((s.toTime t).fireMilepost r (r.due.getD t))
  | _, _ => .next s

/-- The groups whose abandonment waits for the same choice as a group's; the group alone under HOLD. -/
def State.mates (s : State) (n : Nat) : List Nat :=
  match (s.group n).ending with
  | some e => (s.groups.filter (fun p => p.2.ending == some e)).map (·.1)
  | none => [n]

/-- A group in doubt at its deadline whose participants prove to have been ready by it: HELD again, as R43 has it for a leg
with all ready by the deadline. (DEDUCED, log 26) -/
def State.undoubt (s : State) (n : Nat) : State :=
  let g := s.group n
  let judge := match g.ending with | some e => some e.judge | none => s.deadlineOf n
  match judge with
  | none => s
  | some dl =>
    if g.doubt && g.allReady && decide (g.lastReady ≤ dl) then
      (s.mates n).foldl (fun t i => t.updGroup i (fun x => { x with
        st := .held, active := true, ending := none, doubt := false
        overCount := if x.st = .overLimit then x.overCount - 1 else x.overCount })) s
    else s

/-- READY: a ready symbol arrives; one learnt after the instant it implies makes the module take the milepost at once
(R28, R326). -/
def execReady (l : LinkIx) (b : Block) (s : State) : Out :=
  let y := syncOf b
  if blockGood b && (y.kind != 1 || y.leg == 0xFFFFFFFFFFFF) then .next s
  else
    match s.syncIn l.val b with
    | none => .next (s.syncLost l.val)
    | some (x, t0) =>
      let t := (t0.forward l.val x).learnOwed x
      let g := t.group x.group
      if !g.listening || x.leg ≠ t.groupLeg x.group || !g.modules.contains x.origin || (g.readyOf x.origin).isSome then .next t
      else
        let u := (t.updGroup x.group (fun g => { g with ready := g.ready ++ [(x.origin, x.value)] })).undoubt x.group
        match u.series, u.milepostAt with
        | some r, some i =>
          if r.opened.isSome && r.founder == x.group && decide (i < u.time.now) then
            .next ((u.faultMark mpUnit 0x7E 0).fireMilepost r (r.due.getD i))
          else .next u
        | _, _ => .next u

/-! ### Stretch, deadline and policy (R38, R41 to R43) -/

/-- The stretch symbol owed to a group at its due time (R361, R439). -/
def State.sendOwed (s : State) (n : Nat) (w : Owed) : State :=
  ((s.toTime (w.due.getD 0)).updGroup n (fun y => { y with owed := some { w with sent := true } })).sendGroup n
    { kind := 2, cause := 5, sub := w.sub, leg := w.leg.getD 0 }

/-- DUE_TIME: the due time passes with a participant not ready (R38, R45); or with a stretch symbol owed (R439). A group whose
participants are all ready, though r_last + L is later than due, stays RUNNING until its milepost. (DEDUCED, log 81) -/
def execDueTime (g : GroupIx) (s : State) : Out :=
  match s.series, (s.group g.val).owed with
  | _, some w => happen (!w.sent && w.due.isSome) s (s.sendOwed g.val w)
  | none, none => .next s
  | some r, none =>
    match r.due with
    | none => .next s
    | some d =>
      let x := s.group g.val
      let s1 := (s.toTime d).updGroup g.val (fun y => { y with st := .held })
      let c := s1.conds.cause
      happen (r.opened.isSome && x.legActive && x.st == .running && !x.allReady) s
        (if (x.readyOf s.coord).isSome then s1 else s1.sendStretch g.val c.1 c.2)

/-- Whether a participant is known not to have been ready at a deadline: this module without a ready time, or one whose ready
time is later. The ready symbol of another may still be under way. -/
def State.surelyLate (s : State) (n dl : Nat) : Bool :=
  (s.group n).modules.any (fun m => match (s.group n).readyOf m with | some t => decide (dl < t) | none => m == s.coord)

/-- The overrun policy at the deadline (R42, R43): over the limit, or abandoned there with the choice at deadline + L. Where a
ready symbol from before the deadline may still be under way, the state changes at once and all that could not be undone
waits for deadline + L. (DEDUCED, log 26) -/
def State.atDeadline (s : State) (n dl : Nat) (sure : Bool) : State :=
  let g := s.group n
  if g.abandonPolicy then
    let ns := s.fallsWith n
    let e : Ending := { leg := s.legNow, judge := dl, choice := dl + g.latency, soft := false }
    let s1 := ns.foldl (fun t i => t.updGroup i (fun x => { x with ending := some e })) s
    if sure then s1.putAbandoned ns
    else ns.foldl (fun t i => t.updGroup i (fun x => { x with st := .abandoned, active := false, doubt := true })) s1
  else
    let s1 := s.updGroup n (fun x => { x with st := .overLimit, overCount := sat32 x.overCount, doubt := !sure })
    if sure then s1.limitMark n dl else s1

/-- The choice of originator made, and the abandonment concluded (R29, R44). (DEDUCED, log 26) -/
def State.conclude (s : State) (n : Nat) (e : Ending) : State :=
  let c := (s.group n).choose e.judge
  if e.soft then
    let s1 := s.sendGroup n { kind := 4, cause := c.2.1, sub := c.2.2, leg := e.leg, value := c.1.toNat }
    (s1.updGroup n (fun g => { g with ending := none })).abandonNow n c.1 c.2.1 c.2.2 true
  else
    ((s.groups.filter (fun p => p.2.ending == some e)).map (·.1)).foldl (fun t i => t.concludeGroup i e.leg c.1 c.2.1 c.2.2 false) s

/-- DEADLINE: the deadline passes with a participant not ready; L later, a group in doubt is decided; or the choice of originator falls due for a group that
waits for it (R29, R43). (DEDUCED, log 26) -/
def execDeadline (g : GroupIx) (s : State) : Out :=
  let x := s.group g.val
  match x.ending with
  | some e => .next (((s.toTime e.choice).settleDoubt g.val).conclude g.val e)
  | none =>
    match s.deadlineOf g.val with
    | none => .next s
    | some dl =>
      let late := x.modules.any (fun m => match x.readyOf m with | some t => decide (dl < t) | none => true)
      if x.doubt then .next ((s.toTime (dl + x.latency)).settleDoubt g.val)
      else happen (x.legActive && (x.st == .running || x.st == .held) && late && (s.series.map (·.opened.isSome)).getD false) s
        ((s.toTime dl).atDeadline g.val dl (s.surelyLate g.val dl))

/-- STRETCH: a stretch symbol arrives; one learnt after the deadline applies the policy at once (R38, R39, R326). -/
def execStretch (l : LinkIx) (b : Block) (s : State) : Out :=
  if blockGood b && (syncOf b).kind != 2 then .next s
  else
    match s.syncIn l.val b with
    | none => .next (s.syncLost l.val)
    | some (x, t0) =>
      let t := (t0.forward l.val x).learnOwed x
      let g := t.group x.group
      if !g.listening || x.leg ≠ t.groupLeg x.group || !g.modules.contains x.origin then .next t
      else
        let u := t.stretchBegin x.group x.origin x.cause x.sub
        match u.deadlineOf x.group with
        | some dl =>
          .next (if g.legActive && (g.st == .running || g.st == .held) && decide (dl < u.time.now) && (g.readyOf x.origin).isNone then
            u.atDeadline x.group dl true else u)
        | none => .next u

/-- A write of SG_CTRL: POLICY of an active LEG group. ABANDON after the deadline asks for an abandonment, at the later of
the write and due + L (R29, R43). (DEDUCED, log 28) -/
def State.policyWrite (s : State) (n : Nat) (v : W32) : State :=
  let g := s.group n
  let ab := bit v.toNat 29
  if !g.legActive then s
  else
    let s1 := s.updGroup n (fun x => { x with abandonPolicy := ab })
    match s.deadlineOf n, s.series with
    | some dl, some r =>
      if ab && !g.abandonPolicy && (g.st == .held || g.st == .overLimit) && decide (dl ≤ s.time.now) then
        let e : Ending := { leg := s.legNow, judge := dl, choice := max s.time.now (r.due.getD 0 + g.latency), soft := true }
        if e.choice = s.time.now then s1.conclude n e else s1.updGroup n (fun x => { x with ending := some e })
      else s1
    | _, _ => s1

/-- POLICY_WRITE (R43). (DEDUCED, log 28) -/
def execPolicyWrite (g : GroupIx) (v : W32) (s : State) : Out :=
  s.regCmd (0x2100 + 0x20 * g.val) v (fun t => t.policyWrite g.val v)

/-- ABANDON: an abandon symbol arrives with its originator and cause (R29, R44). -/
def execAbandon (l : LinkIx) (b : Block) (s : State) : Out :=
  if blockGood b && (syncOf b).kind != 4 then .next s
  else
    match s.syncIn l.val b with
    | none => .next (s.syncLost l.val)
    | some (x, t0) =>
      let t := (t0.forward l.val x).learnOwed x
      let g := t.group x.group
      .next (if g.legActive && x.leg == t.legNow then
        (t.updGroup x.group (fun y => { y with ending := none })).abandonNow x.group (BitVec.ofNat 16 x.value) x.cause x.sub true else t)

end Sys2Proof.Machine
end

