-- ==== Sys2Proof/Machine/Adopt.lean ====
section
/-! DEFINITION. Adoption of a failed module's place by a spare (13_reduction_long_runs R357 to R362, 15_host R418). -/

namespace Sys2Proof.Machine

/-- The link control that an ADOPT writes: its coordinate and torus size, every link enabled (R359, R418). -/
def Desc.adoptCtrl (d : Desc) : LinkCtrl :=
  { coord := BitVec.ofNat 16 (d.f 8 16 16), sizeX := BitVec.ofNat 5 (d.f 8 10 5), sizeY := BitVec.ofNat 5 (d.f 8 5 5), sizeZ := BitVec.ofNat 5 (d.f 8 0 5), en := 0xFFFFFF }

/-- Whether the field map of ADOPT, or the checks of a LINK_CTRL write, refuse a descriptor. (DEDUCED, log 67) -/
def Desc.adoptBad (d : Desc) : Bool :=
  d.f 0 0 24 != 0 || d.f 8 15 1 != 0 || d.f 0xC 0 32 != 0 || d.f 0x20 16 16 != 0 || !d.clear 0x24 || d.f 0x18 0 6 != 0
    || !assigned d.adoptCtrl.coord || d.adoptCtrl.beyond

/-- Whether the checks of R359 keep the spare from adopting. -/
def State.adoptBusy (s : State) : Bool :=
  s.legOn || assigned s.coord || s.usableCores.any (fun c => (s.core c).program.isSome)

/-- How the application of an image stands: still on, without a completion yet, ended on an address, or at a descriptor that
fails. -/
inductive ImageStop where
  | none
  | wait
  | fault (status addr : Nat)
  | image
deriving DecidableEq, Repr

/-- The application of an adoption image: its reads, the writes that wait for the end, and the descriptors applied. -/
structure AdoptRun where
  m : McRun
  tables : List TabWrite
  applied : Nat
  stop : ImageStop
deriving DecidableEq, Repr

/-- A write of the tag area by an image: in flash, counted and measured (R472, R473). -/
def State.tagWrite (s : State) (ws : List TabWrite) : State :=
  let t := ws.foldl (fun u w => u.tabApply u.legNow w) s
  { t with flash := { t.flash with tagCount := t.flash.tagCount + 1 } }.measChanged 6

/-- The next descriptor of an image read and applied (R360, R418). -/
def AdoptRun.step (src : Nat) (a : AdoptRun) : AdoptRun :=
  if a.stop ≠ .none then a
  else
    let r := a.m.bus (src + 64 * a.applied) 64
    match r.fault with
    | some (e, x) => { a with m := r, stop := .fault e x }
    | none =>
      if r.wait then { a with m := r, stop := .wait }
      else
        let l := bytesLine r.data
        if df l 0 24 8 ≠ 5 ∨ df l 0 0 8 = 8 then { a with m := r, stop := .image }
        else
          match r.setTable l with
          | .wait => { a with m := r, stop := .wait }
          | .fail q _ _ => { a with m := q, stop := .image }
          | .ok q ws =>
            if df l 0 0 8 = 0x0A then { a with m := { q with st := q.st.tagWrite ws }, applied := a.applied + 1 }
            else { a with m := q, tables := a.tables ++ ws, applied := a.applied + 1 }

/-- The writes of an image that wait for the end of the adoption (R360). (DEDUCED, log 67) -/
def State.adoptTables (s : State) (ws : List TabWrite) : State := ws.foldl (fun t w => t.tabApply t.legNow w) s

/-- The whole torus as a box: what the symbols of a group that the spare never joined are sent into. -/
def LinkCtrl.box (c : LinkCtrl) : Nat := at' c.sizeX.toNat 10 5 + at' c.sizeY.toNat 5 5 + at' c.sizeZ.toNat 0 5

/-- The stretch symbols that the spare will owe the groups of a mask (R361). (DEDUCED, log 67) -/
def State.oweAdopted (s : State) (mask box : Nat) : State :=
  ((List.range 64).filter (fun n => mask.testBit n)).foldl (fun t n =>
    t.updGroup n (fun g => { g with box := box, owed := some { leg := none, due := none, sent := false, sub := 2 } })) s

/-- ADOPT: the checks, the coordinate and the links, and the image (R359 to R361). While a completion of its reads is
outstanding it has not started. (DESIGN CHOICE, log 15) -/
def execAdopt (image : List HostReply) (s : State) : Out :=
  match s.mcNext 9 with
  | none => .next s
  | some d =>
    if d.adoptBad then .next (s.complete d 0xA0 0 0)
    else if s.adoptBusy then .next (s.complete d 0x88 0 0)
    else
      let s1 := (s.startDesc d).linkCtrl d.adoptCtrl
      let s2 := { s1 with time := { s1.time with syncEn := true } }.oweAdopted (d.f 0x10 0 64) d.adoptCtrl.box
      let a0 : AdoptRun := { m := McRun.start s2 image, tables := [], applied := 0, stop := .none }
      let a := iter (d.f 0x20 0 16) (fun _ x => x.step (d.f 0x18 0 64)) a0
      let t := a.m.st
      match a.stop with
      | .wait => .next s
      | .fault e x => .next ((t.adoptTables a.tables).complete d e x 0)
      | .image => .next ((t.adoptTables a.tables).complete d 0x89 a.applied a.applied)
      | .none => .next { t with adopt := some { order := d.order, applied := a.applied, tables := a.tables } }

/-- Whether some direction of the torus has no UP link (R317, R362). -/
def State.directionMissing (s : State) : Bool :=
  (List.range 6).any (fun dir => decide (1 < s.lnk.ctrl.size (dir / 2)) && (s.dirLinks dir).isEmpty)

/-- ADOPT_DONE: the adoption completes with what its links and its time base have come to (R359, R362). (DEDUCED, log 67) -/
def execAdoptDone (s : State) : Out :=
  match s.adopt with
  | none => .next s
  | some a =>
    let st := if s.directionMissing then 0x8A else if !s.time.synced then 0x8B else 0
    .next (({ s with adopt := none }.adoptTables a.tables).completeOrder a.order st a.applied 0)

end Sys2Proof.Machine
end

