-- ==== Sys2Proof/Machine/Array.lean ====
section
/-! DEFINITION. The array operations: when each may start, what starting one does, the GATHER deadline, and the end of an
operation. What a started operation then does is the array's own, cycle by cycle, in Flow.lean (03_leaf_array, 04_reverse_flow,
05 R144 to R150, 06 R167 to R177, R510, R511; 10 R265). -/

namespace Sys2Proof.Machine

/-! ### Which operation starts next (R93, R96, R112, R265) -/

/-- Whether a row operation may start: its turn has come and, in pattern mode, no load into a plane that it names is still to
end; in list mode and under WGRAD none into a plane of its first row (R93, R96, R112, R119, R124, R176). A DEST 2 operation
that passes its checks waits for its VEC_RUN (R228), and a WGRAD of a frozen tensor for nothing (R127). -/
def Core.rowsReady (k : Core) (w : Nat) (before : List Op) (o : Op) : Bool :=
  (o.opc == 4 && k.wgradStatus w o == 1)
    || (k.turn before o && !k.awaits w o (if o.listed then k.rowPlanes o 0 else k.opPlanes o)
      && (o.opc == 4 || o.f 0 10 2 != 2 || (k.pairVec o).isSome || k.feedStatus w o (o.opc == 3) != 0))

/-- The first operation of an opcode, among those in their places, that may start: a load when its port is free, rows when
`rowsReady`. (DEDUCED, log 17) -/
def Core.arrayPick (k : Core) (w opc : Nat) : List Op → List Op → Option Op
  | _, [] => none
  | before, o :: r =>
    if o.opc == opc && (if opc = 1 then k.load.isNone else k.rowsReady w before o) then some o
    else k.arrayPick w opc (before ++ [o]) r

/-- The array operation of an opcode that starts next: its unit ON, in its place and with nothing to wait for (R265, R284). -/
def State.arrayHead (s : State) (c opc : Nat) : Option Op :=
  let k := s.core c
  if k.arrayOn then k.arrayPick (s.width c) opc [] (movedOps [] k.arrayQ) else none

/-! ### Starting -/

/-- An array operation off the queue and started in the present cycle; its status, cycles and results are still to come. -/
def Core.arrayBegin (k : Core) (o : Op) (now dm : Nat) : Core :=
  { k with
    arrayQ := k.arrayQ.filter (fun q => q.id != o.id)
    arrayRun := k.arrayRun ++ [{ op := o, status := 0, cycles := 0, started := o.startAt now, vals := [], waitHost := false, dirMode := dm }] }

/-- An array operation that a check ends before its first row or write: one cycle, no effect, its ticket passed, and a VEC_RUN
paired with it learns that it failed (R110, R228). -/
def Core.arrayFail (k : Core) (o : Op) (now status dm : Nat) : Core :=
  (k.updPair o.id (fun p => { p with failed := true })).start .array o now status 1 [] false dm

/-- ARRAY_LOAD on the port: its check pass and its writes follow (R92, R172). -/
def State.arrayLoad (s : State) (c : Nat) (o : Op) : State :=
  let k := s.core c
  match k.loadStatus (s.width c) o, Core.opPart o (s.width c) with
  | 0, some pt =>
    let units := (o.loadUnit pt.h).2
    let check := if o.f 4 30 2 = 0 then 0 else units * cdiv (pt.h * (o.f 4 0 8 * lanesOf (o.f 0 16 4))) 2048
    s.setCore c { k.arrayBegin o s.cycles 4 with
      load := some { op := o, check := check, verdict := k.checkPass pt o, writing := false, done := 0, poison := false } }
  | e, _ => s.setCore c (k.start .array o s.cycles e 1 [] false 4)

/-- A row operation at its feeder, its rows to issue from the present cycle. The array takes its direction and mode, and its
rows follow those that its partition issued before at once (R96, R112). -/
def Core.beginRows (k : Core) (o : Op) (now sparse : Nat) (st : Stall) : Core :=
  let prior := (k.flows.filter (fun f => f.op.place == o.place)).map (·.next)
  { k.arrayBegin o now o.dirMode with
    arrayDir := o.opc - 2
    arrayMode := o.f 0 22 2
    flows := k.flows ++ [({ op := o, sparse := sparse, rows := o.f 4 16 16, next := prior.foldl max k.adv, dry := st.dry, since := o.startAt now, begun := !o.gathers } : Flow)] }

/-- Values that a feed or reverse operation passes to its drain. -/
def Core.feedValues (k : Core) (o : Op) (pt : Part) : Nat :=
  k.runCount o (o.f 4 16 16) * (feedOf o (o.opc == 3) pt o.rowQ (k.firstMode pt o)).vals

/-- The pairing status of an operation with DEST 2, none while its VEC_RUN has not been issued (R228). -/
def State.pairStatus (s : State) (c : Nat) (o : Op) (pt : Part) : Option Nat :=
  if o.f 0 10 2 = 2 then
    ((s.core c).pairVec o).map (fun v =>
      if s.vecCheck c v ((s.core c).feedValues o pt) (o.f 0 16 4 == 5 && o.f 0 12 4 == 5 && o.f 0 8 2 == 0) = 0 then 0 else 0x64)
  else some 0

/-- ARRAY_FEED or ARRAY_REVERSE on a core: it starts, or a check ends it. (DESIGN CHOICE, log 7, DEDUCED, log 17, DEDUCED, log 18) -/
def State.arrayRows (s : State) (c : Nat) (o : Op) (st : Stall) : State :=
  let k := s.core c
  match k.feedStatus (s.width c) o (o.opc == 3), Core.opPart o (s.width c) with
  | 0, some pt =>
    match s.pairStatus c o pt with
    | none => s
    | some 0 => s.setCore c (k.beginRows o s.cycles (k.firstMode pt o) st)
    | some e => s.setCore c (k.arrayFail o s.cycles e o.dirMode)
  | e, _ => s.setCore c (k.arrayFail o s.cycles e o.dirMode)

/-- ARRAY_WGRAD on a core: skipped in one cycle where its tensor is frozen, else it starts or a check ends it (R127). -/
def State.arrayWgrad (s : State) (c : Nat) (o : Op) (st : Stall) : State :=
  let k := s.core c
  match k.wgradStatus (s.width c) o, Core.opPart o (s.width c) with
  | 0, some pt => s.setCore c (k.beginRows o s.cycles ((k.modeOf pt (tagPlanes (o.f 0 3 4) (o.f 4 10 6))).getD 0) st)
  | 1, _ => s.setCore c ((k.count 0x50 1).start .array o s.cycles 1 1 [] false 4)
  | e, _ => s.setCore c (k.arrayFail o s.cycles e o.dirMode)

/-! ### The commands -/

/-- ARRAY_LOAD. -/
def execArrayLoad (c : CoreIx) (s : State) : Out :=
  match s.arrayHead c.val 0x01 with
  | none => .next s
  | some o => .next (s.arrayLoad c.val o)

/-- ARRAY_FEED, with or without GATHER. -/
def execArrayFeed (c : CoreIx) (st : Stall) (s : State) : Out :=
  match s.arrayHead c.val 0x02 with
  | none => .next s
  | some o => .next (s.arrayRows c.val o st)

/-- The GATHER feeds that wait to begin issue, with the cycle at which their DEADLINE passes. -/
def Core.deadlines (k : Core) : List (Flow × Nat) :=
  (k.flows.filter (fun f => f.op.gathers && !f.begun)).map (fun f => (f, f.since + f.op.f 24 0 16))

/-- GATHER_DEADLINE: issue of the waiting feed whose deadline is first begins, DEADLINE cycles after it reached the head of
its partition (R104). -/
def execGatherDeadline (c : CoreIx) (s : State) : Out :=
  match sortBy (·.2) (s.core c.val).deadlines with
  | [] => .next s
  | (f, due) :: _ =>
    .next ((s.toCycle due).updCore c.val (fun k =>
      { k with flows := updWhere (fun (g : Flow) => g.op.id == f.op.id) (fun g => { g with begun := true }) k.flows }))

/-- ARRAY_REVERSE. -/
def execArrayReverse (c : CoreIx) (st : Stall) (s : State) : Out :=
  match s.arrayHead c.val 0x03 with
  | none => .next s
  | some o => .next (s.arrayRows c.val o st)

/-- ARRAY_WGRAD. -/
def execArrayWgrad (c : CoreIx) (st : Stall) (s : State) : Out :=
  match s.arrayHead c.val 0x04 with
  | none => .next s
  | some o => .next (s.arrayWgrad c.val o st)

/-- An array operation whose last run has been written, its last plane loaded, or that a check ended, leaves the array. -/
def State.arrayRetire (s : State) (c : Nat) (id : Nat) : State :=
  match (s.core c).arrayRun.find? (fun r => r.op.id == id) with
  | none => s
  | some r =>
    let t := (s.toCycle (r.started + r.cycles)).updCore c (fun x => { x with arrayRun := x.arrayRun.filter (fun q => q.op.id != id) })
    (t.endOp c .array r).updCore c (fun x => x.settleUnits t.cycles)

/-- ARRAY_OP_END: the `n`-th of the array's started operations ends when its last run has been written or its last plane
loaded; one that waits for something else than the array goes on waiting (R91). (DEDUCED, log 36) -/
def execArrayOpEnd (c : CoreIx) (n : Nat) (s : State) : Out :=
  match (s.core c.val).arrayRun[n]? with
  | none => .next s
  | some r =>
    match s.toEnd c.val r.op.id with
    | none => .next s
    | some t => .next (if (t.core c.val).inHand r.op.id then s else t.arrayRetire c.val r.op.id)

end Sys2Proof.Machine
end

