-- ==== Sys2Proof/Machine/Query.lean ====
section
/-! DEFINITION. QUERY and the records it returns: the tables read back, statistics and statuses, function tables, identity,
measurements, the event ring and the capture window (15_host R413 to R415, 18 R475, R476). -/

namespace Sys2Proof.Machine

/-! ### Records -/

/-- A sequence of 32-bit words as bytes. -/
def w32s (l : List Nat) : List Byte := l.flatMap (leBytes 4)

/-- A caddy table entry (R134). -/
def CaddyEntry.octets (e : CaddyEntry) : List Byte :=
  w32s [at' (b2n e.valid) 31 1 + at' e.members 16 8 + at' e.nStacks 8 8, e.sliceHbm, e.hbmBase, e.ddrBase, e.sliceDdr, 0, 0, 0]

/-- A Format Table entry (R163). -/
def FmtEntry.octets (e : FmtEntry) : List Byte :=
  w32s [at' (b2n e.pin) 31 1 + at' e.allowed.toNat 28 3 + at' e.pinFormat 26 2 + at' e.current 24 2 + at' e.choice 22 2 + at' (unsgn e.scaleExp 8) 8 8,
    at' e.downCount 24 8 + unsgn e.eRef 9, e.amaxLast.toNat, at' e.observed 8 24 + at' e.late 0 8]

/-- The numerics control block (R164). -/
def Numerics.octets (n : Numerics) : List Byte :=
  leBytes 8 n.seed.toNat ++ w32s [at' (b2n n.govEn) 31 1 + at' n.interval 0 24, at' n.phase 0 24,
    at' n.upLog2 24 5 + at' n.downLog2 16 5 + at' n.holdSteps 8 8 + at' n.margin 0 3, at' n.lag 0 16, 0, 0]

/-- The expert control block (R299). -/
def ExpertCtrl.octets (c : ExpertCtrl) : List Byte :=
  w32s [at' (b2n c.placeEn) 31 1 + at' c.reviseLog2 24 5 + at' c.hold 8 8 + at' c.maxChanges 0 8,
    at' c.high16 24 8 + at' c.low16 16 8 + at' c.experts 0 15, at' c.vetoSeq 8 24, at' c.mapPage 0 22] ++ leBytes 8 c.loadVa ++ w32s [0, 0]

/-- The link control block (R335). -/
def LinkCtrl.octets (c : LinkCtrl) : List Byte :=
  w32s [at' c.coord.toNat 16 16 + at' c.sizeX.toNat 10 5 + at' c.sizeY.toNat 5 5 + at' c.sizeZ.toNat 0 5, c.en.toNat, 0, 0, 0, 0, 0, 0]

/-- The reduction control block (R350). -/
def Checker.ctrlRec (c : Checker) : List Byte :=
  w32s [at' (b2n c.checkEn) 31 1 + at' (b2n c.halt) 30 1 + at' c.sampleLog2 16 5, 0, 0, 0]

/-- A core's counters (R111 and its extensions). -/
def Core.counterRec (k : Core) : List Byte :=
  (List.range 47).flatMap (fun i => leBytes 8 (mget 0 k.counters (8 * i)).toNat) ++ leBytes 8 0

/-- A caddy's statistics (R138). -/
def CaddySt.octets (x : CaddySt) : List Byte :=
  w32s [x.pushes, x.pops, x.evicted, x.returned] ++ leBytes 8 x.popWait ++ w32s [x.highWater, 0]

/-- A closed observation (R165). -/
def Obs.octets (o : Obs) : List Byte :=
  leBytes 8 o.count ++ w32s ([o.zeros, o.nonfinite, o.amax.toNat, o.saturated] ++ (List.range 32).map (fun b => mget 0 o.bins b))

/-- The expert statistics (R306). -/
def Experts.octets (x : Experts) : List Byte :=
  let p := match x.pending with | some v => if v.built then v.seq else 0 | none => 0
  w32s [at' x.seq 8 24, at' p 8 24, x.proposals, x.applied, x.vetoed, x.late, x.conflicts, x.changes]

/-- A link state's code (R318). -/
def LState.code : LState → Nat
  | .down => 0
  | .training => 1
  | .up => 2
  | .sparing => 3
  | .halted => 4
  | .failed => 5

/-- A link's status entry (R336). -/
def Link.octets (k : Link) : List Byte :=
  w32s [at' k.st.code 29 3 + at' k.dir 26 3 + at' k.partnerLink 21 5 + k.partner.toNat, k.delay.toNat] ++ leBytes 8 k.fecCorrected
    ++ w32s [k.retries, k.uncorrectable, at' k.trainings 16 16 + at' k.sparings 0 16, k.lostCopies]

/-- LINK_STATUS (R336). -/
def State.linkStatus (s : State) : List Byte :=
  leBytes 8 s.plan.postPhys ++ w32s [at' s.lnk.rx.length 16 16 + at' ((s.lnk.xfers.map (·.queue)).dedup.length) 0 16, 0, 0, 0, 0, 0]
    ++ (List.range 24).flatMap (fun l => (s.link l).octets)

/-- REDUCE_STATUS (R350). -/
def State.reduceStatus (s : State) : List Byte :=
  let c := s.chk
  leBytes 8 s.plan.checkPhys ++ w32s [c.marks, c.compares, c.mismatches, c.poisoned, c.missing, c.bad]

/-- MEM_MAP (R381). -/
def State.memMap (s : State) : List Byte :=
  let p := s.plan
  let here (d : Nat) : Nat := b2n (s.devHere d)
  leBytes 8 p.hbmBytes ++ leBytes 8 s.userTop ++ leBytes 8 s.userTop ++ leBytes 8 (p.resBase - s.trace.ring2mNow.toNat * 2097152)
    ++ leBytes 8 p.resBase ++ leBytes 8 p.postPhys ++ leBytes 8 p.checkPhys ++ leBytes 8 p.ddrBytes
    ++ w32s [at' p.bands.length 24 8 + at' (((List.range 12).map (fun k => here (8 + k) * 2 ^ k)).sum) 8 12
        + at' (((List.range 8).map (fun k => here k * 2 ^ k)).sum) 0 8, 0]
    ++ (List.range 3).flatMap (fun b =>
      match p.bands.drop b with
      | [] => leBytes 16 0
      | x :: _ => leBytes 8 x.base ++ leBytes 8 (at' ((x.chans.map (fun k => 2 ^ k)).sum) 40 12 + at' (x.size / 4096) 0 40))
    ++ leBytes 8 0

/-- A memory entry's status (R382). -/
def State.memStatus (s : State) (d : Nat) : List Byte :=
  let c := s.ctl d
  w32s [at' (if s.devHere d then c.st else 2) 30 2 + at' c.retrains 0 16, c.corrected, c.uncorrectable, c.scrubPasses]

/-- The function codes of the FUNC_TABLES entries (R414, R220). -/
def funcCode (i : Nat) : Nat := 0x20 + i

/-- TABLE_i of a function (R509). (DESIGN CHOICE, log 57) -/
def funcTable (f i : Nat) : W32 :=
  if f = 0 ∨ f = 1 then pow2Table i
  else if f = 2 ∨ f = 3 then (if i < 128 then invTable i else log2Table (i - 128))
  else if f = 4 then recipTable i else rsqrtTable i

/-- COEFF_c of a function (R509). -/
def funcCoeff (f c : Nat) : W32 :=
  if f = 0 then (if c = 3 then cExp3 else 0)
  else if f = 1 then (if 1 ≤ c ∧ c ≤ 3 then cExp2 c else 0)
  else if f = 2 ∨ f = 3 then (if 1 ≤ c ∧ c ≤ 4 then cLog c else 0)
  else 0

/-- const_c of a function, from CONST_0 upward (R509). -/
def funcConsts (f : Nat) : List W32 :=
  if f = 0 then [cExp0, cExp1, cExp2Low] else if f = 2 then [cLn2] else if f = 5 then [cRsqrt0] else []

/-- A FUNC_TABLES record (R415): its steps, and the literals they use, are free. (DESIGN CHOICE, log 57) -/
def funcRec (f : Nat) : List Byte :=
  let steps := Config.funcSteps (funcCode f)
  let n := steps.length % 24 + 1
  let consts := funcConsts f ++ Config.funcLiterals (funcCode f)
  leBytes 4 (at' n 16 5 + at' (funcCode f) 0 8) ++ leBytes 12 0
    ++ (List.range 8).flatMap (fun c => leBytes 4 (nth 0 consts c).toNat)
    ++ (List.range 8).flatMap (fun c => leBytes 4 (funcCoeff f c).toNat)
    ++ (List.range 24).flatMap (fun i => leBytes 4 (if i < n then (nth 0 steps i).toNat else 0))
    ++ leBytes 80 0
    ++ (List.range 256).flatMap (fun i => leBytes 4 (funcTable f i).toNat)

/-- The 4 KiB tag area. -/
def Flash.tagBytes (f : Flash) : List Byte := mgetRun 0 f.tags 0 4096

/-- A measurement's value (R473). (DESIGN CHOICE, log 70) -/
def State.measValue (s : State) (ix : Nat) : Block :=
  if ix = 1 then Config.romDigest
  else if ix = 4 then shaBlock256 (blockBytes Config.keyHash ++ Config.fuseBytes)
  else if ix = 5 then s.plan.digest
  else if ix = 6 then shaBlock256 (s.flash.tagBytes ++ leBytes 4 s.flash.tagCount)
  else (mget ({} : Meas) s.meas ix).value

/-- The IDENTITY entry (R476). -/
def State.identity (s : State) : List Byte :=
  leBytes 8 Config.serial.toNat ++ w32s [at' (Config.tierCode % 3) 4 4 + at' (b2n Config.binB) 0 2, s.flash.tagCount, Config.certChain.length]
    ++ leBytes 12 0 ++ blockBytes Config.devicePubkey ++ blockBytes Config.identityDigest

/-- A waymark record (R51). -/
def Waymark.octets (w : Waymark) : List Byte :=
  leBytes 8 w.time
    ++ w32s [at' w.kind 24 8 + at' w.cause 20 4 + at' (b2n w.dropBefore) 19 1 + at' w.group 12 6 + at' w.seq 0 12, at' w.origin.toNat 16 16 + w.unit.toNat]
    ++ leBytes 8 (at' w.jobTag.toNat 48 16 + at' w.legNo 0 48) ++ leBytes 8 w.payload.toNat

/-- A slot of the event ring; one never written reads 0. (DEDUCED, log 56) -/
def Recorder.slotRec (r : Recorder) (n : Nat) : List Byte :=
  match r.ring.find? (fun p => p.1 == n) with
  | some p => p.2.octets
  | none => leBytes 32 0

/-! ### Selectors (R412, R414, R475) -/

/-- Entry size in bytes and number of entries of a QUERY selector. (DEDUCED, log 56) -/
def State.queryShape (s : State) (sel : Nat) : Option (Nat × Nat) :=
  match sel with
  | 0x20 => some (9504, 1)
  | 0x21 => some (384, 1152)
  | 0x22 => some (32, 64)
  | 0x23 => some (152, 16384)
  | 0x24 => some (1280, 6)
  | 0x25 => some (8, 131072)
  | 0x26 => some (32, 1)
  | 0x27 => some (800, 1)
  | 0x28 => some (32, 1)
  | 0x29 => some (128, 1)
  | 0x2A => some (320, 1)
  | 0x2B => some (96, 1)
  | 0x2C => some (64, cdiv Config.certChain.length 64)
  | 0x2D => some (64, 7)
  | 0x2E => some (32, s.trace.slots)
  | 0x2F => some (64, s.trace.capRoom)
  | _ => tabShape sel

/-- One entry of a selector's table; `core` is the core of a per-core table. -/
def State.queryEntry (s : State) (sel core ix : Nat) : List Byte :=
  match sel with
  | 0x01 => leBytes 1 (128 * b2n (mget false (mget [] s.flagsHeld core) ix))
  | 0x02 => (mget ({} : CaddyEntry) s.caddy ix).octets
  | 0x03 => (mget ({} : FmtEntry) s.fmt ix).octets
  | 0x04 => s.num.octets
  | 0x05 => leBytes 8 (mget 0 s.pages ix).toNat
  | 0x06 => leBytes 8 (mget 0 s.experts.map ix).toNat
  | 0x07 => s.experts.ctrl.octets
  | 0x08 => s.lnk.ctrl.octets
  | 0x09 => s.chk.ctrlRec
  | 0x0A => mgetRun 0 s.flash.tags (64 * ix) 64
  | 0x20 => s.plan.record
  | 0x21 => (s.core ix).counterRec
  | 0x22 => (s.cst ix).octets
  | 0x23 => (mget ({} : Obs) s.gov.closed ix).octets
  | 0x24 => funcRec ix
  | 0x25 => leBytes 8 (match s.experts.pending with | some v => if v.built then (mget 0 v.entries ix).toNat else 0 | none => 0)
  | 0x26 => s.experts.octets
  | 0x27 => s.linkStatus
  | 0x28 => s.reduceStatus
  | 0x29 => s.memMap
  | 0x2A => (List.range 20).flatMap s.memStatus
  | 0x2B => s.identity
  | 0x2C => (List.range 64).map (fun j => nth 0 Config.certChain (64 * ix + j))
  | 0x2D => leBytes 8 (ix + 1) ++ leBytes 8 (mget ({} : Meas) s.meas (ix + 1)).time ++ leBytes 16 0 ++ blockBytes (s.measValue (ix + 1))
  | 0x2E => s.trace.slotRec ix
  | 0x2F => lineBytes (mget 0 s.trace.capture ix)
  | _ => []

/-! ### QUERY (R413) -/

/-- A response as it is written: the module, the host's answers still to come, and the first failing line's status and
address. -/
structure Put where
  st : State
  host : List HostReply
  fail : Option (Nat × Nat)
deriving DecidableEq, Repr

/-- One request of a response to host memory at a bus address, reported at `at'` if it fails (R389). -/
def Put.toHost (q : Put) (a at' : Nat) (ds : List Byte) : Put :=
  let r := q.st.hostPost [(a, ds, false)] q.host
  { st := r.1, host := r.2.2, fail := if r.2.1 then some (0xA7, at') else none }

/-- One request of a response through the page table. -/
def Put.toDev (q : Put) (a : Nat) (ds : List Byte) : Put :=
  match q.st.xlate a .plain with
  | .inl e => { q with fail := some (e, a) }
  | .inr (t, pa) =>
    if t = 2 then q.toHost pa a ds
    else { q with st := q.st.devWrite (spaceOf t) pa (ds.map (fun b => (b, false))) false }

/-- A response written line by line, to device addresses or to host memory, until a request fails (R413). -/
def State.queryPut (s : State) (dev : Bool) (a : Nat) (bs : List Byte) (host : List HostReply) : Put :=
  (linePieces (bs.length / 64 + 2) a bs.length).foldl (fun q p =>
    if q.fail.isSome then q
    else
      let ds := (bs.drop (p.1 - a)).take p.2
      if dev then q.toDev p.1 ds else q.toHost p.1 p.1 ds) { st := s, host := host, fail := none }

/-- QUERY: every entry as it stands at one instant (R413). -/
def execQuery (host : List HostReply) (s : State) : Out :=
  match s.mcNext 10 with
  | none => .next s
  | some d =>
    let sel := d.f 0 0 8
    let first := d.f 8 0 32
    let count := d.f 0xC 0 32
    let dst := d.f 0x10 0 64
    match s.queryShape sel with
    | none => .next (s.complete d 0xA0 0 0)
    | some (size, n) =>
      if d.f 0 22 1 ≠ 0 ∨ d.f 0 8 13 ≠ 0 ∨ d.f 0x18 0 16 ≠ 0 ∨ !d.clear 0x20 ∨ dst % 64 ≠ 0 ∨ count = 0 ∨ n < first + count
          ∨ (sel ≠ 1 ∧ d.f 0 21 1 = 1) ∨ (tabCore d.raw).isNone then .next (s.complete d 0xA0 0 0)
      else if d.f 0x1C 0 32 < size * count then .next (s.complete d 0xA9 0 0)
      else
        let core := match tabCore d.raw with
          | some (some c) => c
          | _ => nth 0 s.usableCores 0
        let bs := (List.range count).flatMap (fun i => s.queryEntry sel core (first + i))
        let p := s.queryPut (d.f 0 23 1 == 1) dst bs host
        match p.fail with
        | some (e, a) => .next (p.st.complete d e a 0)
        | none => .next (p.st.complete d 0 bs.length 0)

end Sys2Proof.Machine
end

