-- ==== Sys2Proof/Machine/Time.lean ====
section
/-! DEFINITION. The time base: TIME blocks, the parent and its offset, steps, and the latched reads of the TIME block
(01_legs_mileposts R46 to R50, R60; 12_links R327). -/

namespace Sys2Proof.Machine

/-- The coordinate of the master that this module follows, its own where it is the master. -/
def State.masterNamed (s : State) : W16 := if s.time.master then s.coord else s.time.following.getD 0

/-- TIME_SYMBOL_SEND: a TIME block on every link that has reached alignment (R46, R327). (DEDUCED, log 33) -/
def execTimeSymbolSend (s : State) : Out :=
  let ls := (List.range 24).filter s.linkAligned
  .next (ls.foldl (fun t l =>
    let x : Sync := { kind := 5, origin := t.coord, id := t.lnk.symbolId, leg := at' (b2n (t.time.master || t.time.synced)) 16 1 + t.masterNamed.toNat, value := t.time.now }
    { t with lnk := { t.lnk with symbolId := (t.lnk.symbolId + 1) % 65536 } }.emit (.linkBlock l x.block)) s)

/-- The masters that the TIME blocks received on aligned links name. -/
def State.mastersHeard (s : State) : List W16 :=
  ((List.range 24).filterMap (fun l =>
    let h := mget ({} : TimeHeard) s.time.heard l
    if s.linkAligned l && h.master != 0 then some h.master else none)).dedup

/-- The link to the parent towards a master: the neighbour one hop nearer in dimension order, or the other way round the
ring; it must name that master and be master or synchronised (R46). -/
def State.parentLink (s : State) (m : W16) : Option LinkIx :=
  match s.heading m none with
  | none => none
  | some d =>
    let ls := s.dirLinks d
    let back := s.dirLinks (if d % 2 = 0 then d + 1 else d - 1)
    let good (l : Nat) : Bool := let h := mget ({} : TimeHeard) s.time.heard l; h.master == m && h.synced
    match (if ls.isEmpty then back else ls).find? good with
    | some l => if h : l < 24 then some ⟨l, h⟩ else none
    | none => none

/-- Whether every link neighbour heard that is master or synchronised lies within 4 ns (R49). (DEDUCED, log 33) -/
def State.neighboursNear (s : State) : Bool :=
  (List.range 24).all (fun l =>
    let h := mget ({} : TimeHeard) s.time.heard l
    !(s.linkUp l && h.synced) || (decide (-4 ≤ h.offset) && decide (h.offset ≤ 4)))

/-- The master followed and the parent chosen anew, with TIME_SYNC_LOST when masters first disagree (R46). A module without a
parent free-runs: it has no offset to work off. (DEDUCED, log 33) -/
def State.chooseParent (s : State) (disagreed : Bool) : State :=
  let ms := s.mastersHeard
  if s.time.master || !assigned s.coord || ms.isEmpty then
    { s with time := { s.time with parent := none, following := none, synced := false, offset := 0 } }
  else
    let m : W16 := BitVec.ofNat 16 (minOf (ms.map (·.toNat)))
    let p := s.parentLink m
    let s1 := { s with time := { s.time with following := some m, parent := p, synced := s.time.synced && p.isSome, offset := if p.isSome then s.time.offset else 0 } }
    if 1 < ms.length && !disagreed then s1.markAt s1.time.now 9 0 0 s1.coord mcUnit 0 s1.legNow (unsgn s1.time.offset 32) else s1

/-- The time base stepped to a value: TIME_STEP with the signed step (R48). (DEDUCED, log 33) -/
def State.stepTime (s : State) (d : Int) : State :=
  let t := { s with time := { s.time with
    now := ((s.time.now : Int) + d).toNat, stepSeen := true, offset := 0
    heard := mmap {} (fun _ h => { h with offset := h.offset - d }) s.time.heard } }
  t.markAt t.time.now 8 0 0 t.coord mcUnit 0 t.legNow (unsgn d 64)

/-- An offset to the parent estimated, and what it makes the module do (R47, R48). Slewing works the offset off as the
clock ticks. (DEDUCED, log 33) -/
def State.estimate (s : State) (o : Int) : State :=
  let far := decide (1000 < o) || decide (o < -1000)
  let s1 := { s with time := { s.time with offset := o, synced := decide (-4 ≤ o) && decide (o ≤ 4) && s.neighboursNear } }
  if !s.time.syncEn then s1
  else if far && !s.legOn then
    let s2 := s1.stepTime o
    { s2 with time := { s2.time with synced := s2.neighboursNear } }
  else if far && !s.time.syncLost then
    { s1 with time := { s1.time with syncLost := true } }.markAt s1.time.now 9 0 0 s1.coord mcUnit 0 s1.legNow (unsgn o 32)
  else s1

/-- TIME: a TIME block arrives on a link (R46, R48, R327). -/
def execTime (l : LinkIx) (b : Block) (s : State) : Out :=
  if !blockGood b then .next (s.syncLost l.val)
  else
    let x := syncOf b
    let split := decide (1 < s.mastersHeard.length)
    let o : Int := ((x.value + (s.link l.val).delay.toNat : Nat) : Int) - (s.time.now : Int)
    let h : TimeHeard := { master := BitVec.ofNat 16 x.leg, synced := bit x.leg 16, offset := o }
    let s1 := ({ s with time := { s.time with heard := mset {} s.time.heard l.val h } }).chooseParent split
    happen (x.kind == 5 && s.linkAligned l.val) s
      (if s1.time.parent == some l then s1.estimate o
        else { s1 with time := { s1.time with synced := s1.time.synced && s1.neighboursNear } })

/-- A write of TIME_SET_HI: the master's time base stepped while no LEG group is active (R48). -/
def State.timeSet (s : State) (hi : W32) : State :=
  let v : Nat := hi.toNat * 2 ^ 32 + s.time.setLo.toNat
  if s.time.master && !s.legOn then s.stepTime ((v : Int) - s.time.now) else s

/-- TIME_SET (R48). -/
def execTimeSet (hi : W32) (s : State) : Out := s.regCmd 0x201C hi (fun t => t.timeSet hi)

/-- TIME_NOW_READ: TIME_NOW_LO read, TIME_NOW_HI latched (R60). -/
def execTimeNowRead (s : State) : Out :=
  happen (s.answers 0x2000) s
    ({ s with time := { s.time with hiLatch := BitVec.ofNat 32 (s.time.now / 2 ^ 32) } }.answer (s.time.now % 2 ^ 32))

/-- LEG_NO_READ: LEG_NO_LO read, LEG_NO_HI latched (R60). -/
def execLegNoRead (s : State) : Out :=
  happen (s.answers 0x2038) s
    ({ s with legRegs := { s.legRegs with hiLatch := BitVec.ofNat 16 (s.legNow / 2 ^ 32) } }.answer (s.legNow % 2 ^ 32))

end Sys2Proof.Machine
end

