-- ==== Sys2Proof/Machine/Regs.lean ====
section
/-! DEFINITION. The registers of BAR0: what each reads, and the writes of those that have no command of their own
(R60, R391 to R395, R432, R467, R482). -/

namespace Sys2Proof.Machine

/-! ### Codes -/

/-- BOOT_STATE (R424). -/
def Boot.code : Boot → Nat
  | .rom => 0
  | .verify => 1
  | .waitImage => 2
  | .receive => 3
  | .fwStart => 4
  | .test => 5
  | .train => 6
  | .ready => 7
  | .cpReset => 8
  | .stopped => 9
  | .failed => 10

/-- A group state's code (R45). -/
def GState.code : GState → Nat
  | .idle => 0
  | .running => 1
  | .held => 2
  | .overLimit => 3
  | .abandoned => 4

/-- REPLAY_STATE (R484). -/
def Replay.code : Replay → Nat
  | .off => 0
  | .loading => 1
  | .readyToGo => 2
  | .feeding => 3
  | .ended => 4

/-- The hottest of some temperatures, 0 with none measured. -/
def hottest (m : Mem Int) : Int :=
  match m with
  | [] => 0
  | p :: r => r.foldl (fun a q => max a q.2) p.2

/-! ### Reads -/

/-- The sync-group registers (R60). -/
def State.groupReg (s : State) (n o : Nat) : Nat :=
  let g := s.group n
  match o with
  | 0x00 => at' (b2n g.active) 31 1 + at' (b2n g.barrier) 30 1 + at' (b2n g.abandonPolicy) 29 1 + at' g.limit 0 7
  | 0x04 => g.st.code
  | 0x08 => g.stretchCount.toNat
  | 0x0C => g.overCount.toNat
  | 0x10 => g.stretchMax.toNat
  | 0x14 => at' g.lastOrigin.toNat 16 16 + at' g.lastCause 12 4
  | 0x18 => g.latency
  | _ => 0

/-- The TIME block (R60). TIME_STATUS.MASTER_ACTIVE, of which the table gives the name only, reads as TIME_CTRL.MASTER.
(DESIGN CHOICE, log 82) -/
def State.timeReg (s : State) (o : Nat) : Nat :=
  if 0x100 ≤ o then s.groupReg ((o - 0x100) / 0x20) (o % 0x20)
  else
    match o with
    | 0x00 => s.time.now % 2 ^ 32
    | 0x04 => s.time.hiLatch.toNat
    | 0x08 => at' (b2n s.time.master) 1 1 + at' (b2n s.time.syncEn) 0 1
    | 0x0C => at' (b2n s.time.stepSeen) 3 1 + at' (b2n s.time.syncLost) 2 1 + at' (b2n s.time.synced) 1 1 + at' (b2n s.time.master) 0 1
    | 0x10 => unsgn s.time.offset 32
    | 0x20 => at' s.pace.ratio.toNat 8 8 + at' (b2n s.pace.en) 0 1
    | 0x24 => s.pace.st.code
    | 0x28 => unsgn s.pace.error 32
    | 0x2C => s.pace.lostCount.toNat
    | 0x30 => s.pace.recordLog2.toNat
    | 0x34 => match s.series with | some r => if s.legOn then r.period else 0 | none => 0
    | 0x38 => s.legNow % 2 ^ 32
    | 0x3C => s.legRegs.hiLatch.toNat
    | _ => 0

/-- The POWER block (R467). -/
def State.powerReg (s : State) (o : Nat) : Nat :=
  let w := s.power
  let nx := w.next.getD (w.pinEn, w.pin, w.high, w.low)
  let pins := w.overridden != 0 || (w.fallback && w.pinEn && w.pin == 0)
  match o with
  | 0x00 => at' w.pkgCap 16 16 + at' w.pourPin 8 8 + at' (b2n w.policyEn) 7 1 + at' (b2n nx.1) 6 1 + at' nx.2.1 4 2 + at' nx.2.2.1 2 2 + at' nx.2.2.2 0 2
  | 0x04 => at' w.downK 24 8 + at' w.hold 16 8 + at' w.headroom 8 8 + at' w.droopMv 0 8
  | 0x08 => at' w.point 30 2 + at' ((w.pending.map (·.target)).getD 0) 28 2 + at' (b2n w.pending.isSome) 27 1
      + at' (b2n (s.boot.st == .stopped)) 9 1 + at' (b2n w.fallback) 8 1 + at' (b2n w.capUnmet) 7 1 + at' (b2n w.refused) 6 1
      + at' (b2n s.side.flowOk) 5 1 + at' (b2n pins) 4 1 + at' (b2n w.drooping) 3 1 + at' (b2n (w.kTh < 64)) 2 1
      + at' (b2n w.peakActive) 1 1 + at' (b2n (w.kPow < 64)) 0 1
  | 0x0C => at' (w.inForce 3 s.cycle) 24 8 + at' (w.inForce 2 s.cycle) 16 8 + at' (w.inForce 1 s.cycle) 8 8 + at' (w.inForce 0 s.cycle) 0 8
  | 0x10 => at' w.kPow 24 8 + at' w.kTh 16 8
  | 0x14 => at' (meanNat (meanOf 1000 w.pkg)) 16 16 + at' (meanNat (meanOf 50 w.pkg)) 0 16
  | 0x18 => at' (meanNat (meanOf 1000 w.inp)) 16 16 + at' (meanNat (meanOf 50 w.inp)) 0 16
  | 0x1C => w.inMv.toNat
  | 0x20 => at' (unsgn (hottest w.hbmTemps) 16) 16 16 + unsgn (hottest w.juncTemps) 16
  | 0x24 => w.powerUs.toNat
  | 0x28 => w.peakUs.toNat
  | 0x2C => w.thermalUs.toNat
  | 0x30 => w.droopEvents.toNat
  | 0x34 => w.opChanges.toNat
  | 0x38 => w.opDeferred.toNat
  | 0x3C => w.glitches.toNat
  | 0x40 => w.events.toNat
  | 0x44 => w.railFault.toNat % 2 ^ 32
  | 0x48 => w.railFault.toNat / 2 ^ 32
  | 0x4C => w.sense.toNat
  | 0x50 => at' (b2n (s.side.trayRstN && !s.side.flowOk)) 2 1 + at' (b2n (s.pace.st == .lost)) 1 1 + at' (b2n w.sbStuck) 0 1
  | _ => 0

/-- The ID block (R392). The boot ROM is at VERIFY by 0.025 s after the reset (R426). (DEDUCED, log 62) -/
def State.idReg (s : State) (o : Nat) : Nat :=
  if 0x20 ≤ o ∧ o < 0x40 then bits Config.identityDigest.toNat (8 * (o - 0x20)) 32
  else
    match o with
    | 0x00 => 0x58464944
    | 0x04 => at' 1 16 16
    | 0x08 => at' (Config.tierCode % 3) 4 4 + at' (b2n Config.binB) 0 2
    | 0x0C => match s.boot.running with | some i => i.fwVersion.toNat | none => 0
    | 0x10 => Config.serial.toNat % 2 ^ 32
    | 0x14 => Config.serial.toNat / 2 ^ 32
    | 0x18 => if s.boot.st = .rom ∧ !s.boot.inReset ∧ 25000000 ≤ s.clk.ns then 1 else s.boot.st.code
    | _ => 0

/-- The fused security floor in force (R430). -/
def State.secFloor (s : State) : Nat := s.flash.secFloor.getD (Config.secFloor % 64)

/-- The firmware image in flash. -/
def State.flashImage (s : State) : List Byte := s.flash.image.getD Config.factoryImage

/-- A field of an image's header. -/
def imgField (b : List Byte) (off n : Nat) : Nat := leNat ((b.drop off).take n)

/-- An image's LENGTH. -/
def imgLength (b : List Byte) : Nat := imgField b 0x0C 4

/-- The boot ROM's verification of an image (R428): a code of R431. -/
def State.verifyImage (s : State) (b : List Byte) : Nat :=
  let n := imgLength b
  let sec := imgField b 4 2
  if imgField b 0 4 ≠ 0x584B494B ∨ imgField b 6 2 ≠ 1 then 2
  else if 63 < sec then 2
  else if n % 64 ≠ 0 ∨ 16777216 < n + 29824 ∨ n < 64 then 2
  else if shaBlock256 ((b.take n).drop 0x40) ≠ BitVec.ofNat 256 (imgField b 0x10 32) then 3
  else if shaBlock256 Config.vendorKey ≠ Config.keyHash then 4
  else if !Config.slhVerify Config.vendorKey (b.take n) ((b.drop n).take 29792) then 4
  else if sec < s.secFloor then 5
  else 0

/-- The SETUP block (R393, R432). -/
def State.setupReg (s : State) (o : Nat) : Nat :=
  let h := s.host
  let b := s.boot
  match o with
  | 0x00 => b2n h.cacheEn
  | 0x04 => at' h.rate 12 4 + at' h.width 8 4 + at' (b2n h.ideIo) 3 1 + at' (b2n h.ideCachemem) 2 1 + at' (b2n h.memUp) 1 1 + at' (b2n h.cacheUp) 0 1
  | 0x08 => at' (b2n h.errCq) 2 1 + at' (b2n h.errWatch) 1 1 + at' (b2n h.errAbort) 0 1
  | 0x0C => h.timeouts.toNat
  | 0x80 => at' b.fail 24 8 + at' b.lastReset 8 8 + at' (b2n b.savedUsed) 1 1 + at' (b2n b.pushed) 0 1
  | 0x84 => b.startMs
  | 0x8C => at' b.cpCount.toNat 16 16 + b2n b.cpBusy
  | 0x90 => b2n b.forceFull
  | 0x94 => at' b.fullTrained.toNat 16 16 + b.savedTrained.toNat
  | 0x98 => b.imgAddr.toNat % 2 ^ 32
  | 0x9C => b.imgAddr.toNat / 2 ^ 32
  | 0xA0 => b.imgLen.toNat
  | 0xA4 => at' (b2n b.persist) 2 1
  | 0xA8 => at' b.imgResult 24 8 + at' b.imgState 0 4
  | 0xAC => if s.verifyImage s.flashImage = 0 then imgField s.flashImage 8 4 else 0
  | 0xB0 => at' s.secFloor 0 6
  | _ => 0

/-- A ring's registers (R395). -/
def State.ringReg (s : State) (k o : Nat) : Nat :=
  let x := s.ring k
  match o with
  | 0x00 => x.sqBase.toNat % 2 ^ 32
  | 0x04 => x.sqBase.toNat / 2 ^ 32
  | 0x08 => x.cqBase.toNat % 2 ^ 32
  | 0x0C => x.cqBase.toNat / 2 ^ 32
  | 0x10 => x.watch.toNat % 2 ^ 32
  | 0x14 => x.watch.toNat / 2 ^ 32
  | 0x18 => at' (b2n x.enable) 31 1 + at' (b2n x.poll) 30 1 + at' x.sqLog2 16 5 + at' x.cqLog2 8 5
  | 0x1C => at' (b2n x.active) 3 1 + at' (b2n x.stopped) 2 1 + at' (b2n x.configErr) 1 1 + b2n x.phase
  | 0x20 => at' x.cqTail 16 16 + at' x.sqHead 0 16
  | 0x24 => at' x.seenCqHead 16 16 + at' x.seenSqTail 0 16
  | 0x28 => at' x.held.length 16 16 + at' (s.inFlight k) 0 16
  | _ => 0

/-- The range size of the DVSEC, in units of 256 MiB (R388). -/
def State.rangeUnits (s : State) : Nat := min (s.plan.ddrBytes / 2 ^ 28) 8192

/-- The MAP block (R394). -/
def State.mapReg (s : State) (o : Nat) : Nat :=
  match o with
  | 0x00 => s.host.winBase.toNat % 2 ^ 32
  | 0x04 => s.host.winBase.toNat / 2 ^ 32
  | 0x08 => s.host.winUnits.toNat
  | 0x0C => s.rangeUnits
  | 0x10 => b2n s.host.winWriteEn
  | 0x14 => s.host.outOfRange.toNat
  | 0x18 => s.host.poisonLines.toNat
  | _ => 0

/-- The RECORDER block (R482). -/
def State.recReg (s : State) (o : Nat) : Nat :=
  let r := s.trace
  match o with
  | 0x00 => at' (b2n r.eventEn) 31 1 + at' (b2n r.wrap) 30 1 + at' (b2n r.arm) 29 1 + at' (b2n r.freezeOnFault) 28 1 + at' r.capSel.toNat 1 7
  | 0x04 => at' r.ring2m.toNat 16 16 + r.cap2m.toNat
  | 0x08 => at' r.ring2mNow.toNat 16 16 + r.cap2mNow.toNat
  | 0x0C => at' (b2n r.capActive) 31 1 + at' (b2n r.ringFull) 30 1 + at' (b2n r.sizeRefused) 29 1 + at' r.endReason 20 4 + at' r.replay.code 16 4 + at' r.result 8 8
  | 0x10 => r.nextIx % 2 ^ 32
  | 0x14 => r.nextHi.toNat
  | 0x18 => r.dropped.toNat
  | 0x1C => r.capLines % 2 ^ 32
  | 0x20 => r.srcLo.toNat
  | 0x24 => r.srcHi.toNat
  | 0x28 => r.len.toNat
  | 0x30 => r.fed % 2 ^ 32
  | 0x34 => r.feedAt % 2 ^ 32
  | _ => 0

/-- What a BAR0 offset reads in a block that answers (R390); reserved offsets read 0. -/
def State.readReg (s : State) (off : Nat) : Nat :=
  if off < 0x100 then s.idReg off
  else if off < 0x200 then s.setupReg (off - 0x100)
  else if 0x1000 ≤ off ∧ off < 0x2000 then s.ringReg ((off - 0x1000) / 0x40) (off % 0x40)
  else if 0x2000 ≤ off ∧ off < 0x2900 then s.timeReg (off - 0x2000)
  else if 0x3000 ≤ off ∧ off < 0x4000 then s.powerReg (off - 0x3000)
  else if 0x4000 ≤ off ∧ off < 0x4100 then s.mapReg (off - 0x4000)
  else if 0x5000 ≤ off ∧ off < 0x6000 then s.recReg (off - 0x5000)
  else 0

/-- RING_NEXT_READ: RING_NEXT_LO read, RING_NEXT_HI latched (R482). -/
def execRingNextRead (s : State) : Out :=
  happen (s.answers 0x5010) s
    ({ s with trace := { s.trace with nextHi := BitVec.ofNat 32 (s.trace.nextIx / 2 ^ 32) } }.answer (s.trace.nextIx % 2 ^ 32))

/-! ### Writes -/

/-- A 64-bit register with one half written. -/
def setHalf (x : W64) (hi : Bool) (v : W32) : W64 := BitVec.ofNat 64 (setBits x.toNat (if hi then 32 else 0) 32 v.toNat)

/-- A write of a ring's base or watch registers, taken while it is disabled and stopped (R395). -/
def State.ringWrite (s : State) (k o : Nat) (v : W32) : State :=
  let x := s.ring k
  if x.enable || !x.stopped then s
  else
    match o with
    | 0x00 => s.setRing k { x with sqBase := setHalf x.sqBase false v }
    | 0x04 => s.setRing k { x with sqBase := setHalf x.sqBase true v }
    | 0x08 => s.setRing k { x with cqBase := setHalf x.cqBase false v }
    | 0x0C => s.setRing k { x with cqBase := setHalf x.cqBase true v }
    | 0x10 => s.setRing k { x with watch := setHalf x.watch false v }
    | 0x14 => s.setRing k { x with watch := setHalf x.watch true v }
    | _ => s

/-- The fields of REC_CTRL but its FREEZE (R482). -/
def Recorder.ctrl (r : Recorder) (v : W32) : Recorder :=
  let x := v.toNat
  { r with eventEn := bit x 31, wrap := bit x 30, arm := bit x 29, freezeOnFault := bit x 28, capSel := BitVec.ofNat 7 (x / 2) }

/-- Keyed registers take a write with KEY 0xA5 (R432, R484). -/
def keyed (v : W32) : Bool := bits v.toNat 24 8 == 0xA5

/-- A write of a register outside RINGS in its RW and W1C fields; triggers that have a command of their own do nothing
here. Writes to anything else are ignored (R16, R391). -/
def State.plainWrite (s : State) (off : Nat) (v : W32) : State :=
  let x := v.toNat
  let clr (n : Nat) (b : Bool) : Bool := b && !bit x n
  match off with
  | 0x0100 => { s with host := { s.host with cacheEn := bit x 0 } }
  | 0x0108 => { s with host := { s.host with errCq := clr 2 s.host.errCq, errWatch := clr 1 s.host.errWatch, errAbort := clr 0 s.host.errAbort } }
  | 0x0190 => { s with boot := { s.boot with forceFull := bit x 0 } }
  | 0x0198 => { s with boot := { s.boot with imgAddr := setHalf s.boot.imgAddr false v } }
  | 0x019C => { s with boot := { s.boot with imgAddr := setHalf s.boot.imgAddr true v } }
  | 0x01A0 => { s with boot := { s.boot with imgLen := v } }
  | 0x01A4 => if keyed v then { s with boot := { s.boot with persist := bit x 2 } } else s
  | 0x2008 => { s with time := { s.time with master := bit x 1, syncEn := bit x 0, offset := if bit x 1 then 0 else s.time.offset } }
  | 0x200C => { s with time := { s.time with stepSeen := clr 3 s.time.stepSeen, syncLost := clr 2 s.time.syncLost } }
  | 0x2018 => { s with time := { s.time with setLo := v } }
  | 0x2020 => { s with pace := { s.pace with ratio := BitVec.ofNat 8 (x / 256), en := bit x 0 } }
  | 0x2030 => { s with pace := { s.pace with recordLog2 := BitVec.ofNat 5 x } }
  | 0x3004 => { s with power := { s.power with downK := bits x 24 8, hold := bits x 16 8, headroom := bits x 8 8, droopMv := min 80 (max 20 (bits x 0 8)) } }
  | 0x3008 => { s with power := { s.power with capUnmet := clr 7 s.power.capUnmet, refused := clr 6 s.power.refused } }
  | 0x3040 => { s with power := { s.power with events := s.power.events &&& ~~~(BitVec.ofNat 8 x &&& 0xFE) } }
  | 0x3044 => { s with power := { s.power with railFault := s.power.railFault &&& ~~~(BitVec.ofNat 34 x) } }
  | 0x3048 => { s with power := { s.power with railFault := s.power.railFault &&& ~~~(BitVec.ofNat 34 (x % 4 * 2 ^ 32)) } }
  | 0x4010 => { s with host := { s.host with winWriteEn := bit x 0 } }
  | 0x5000 => { s with trace := s.trace.ctrl v }
  | 0x500C => { s with trace := { s.trace with sizeRefused := clr 29 s.trace.sizeRefused } }
  | 0x5020 => { s with trace := { s.trace with srcLo := v } }
  | 0x5024 => { s with trace := { s.trace with srcHi := v } }
  | 0x5028 => { s with trace := { s.trace with len := v } }
  | _ => s

/-- A write of a register that has no command of its own. -/
def State.ordinaryWrite (s : State) (off : Nat) (v : W32) : State :=
  if 0x1000 ≤ off ∧ off < 0x2000 then s.ringWrite ((off - 0x1000) / 0x40) (off % 0x40) v else s.plainWrite off v

/-- Whether a write falls to another command of the table: the keyed and trigger writes, PWR_CTRL, REC_SIZE, TIME_SET_HI,
SG_CTRL and a ring's ENABLE. -/
def ownRow (off : Nat) (v : W32) : Bool :=
  let x := v.toNat
  off == 0x0188 || (off == 0x01A4 && keyed v && (bit x 0 || bit x 1)) || (off == 0x0190 && bit x 1) || off == 0x201C || (off == 0x2020 && bit x 1)
    || (decide (0x2100 ≤ off) && decide (off < 0x2900) && off % 0x20 == 0) || off == 0x3000 || off == 0x5004 || off == 0x502C
    || (off == 0x5000 && (bit x 29 || bit x 27)) || (decide (0x1000 ≤ off) && decide (off < 0x2000) && off % 0x40 == 0x18)

/-- REGISTER_WRITE (R391). -/
def execRegisterWrite (off : W16) (v : W32) (s : State) : Out :=
  if ownRow off.toNat v then .next s else s.regCmd off.toNat v (fun t => t.ordinaryWrite off.toNat v)

end Sys2Proof.Machine
end

