-- ==== Sys2Proof/Machine/Recorder.lean ====
section
/-! DEFINITION. The Trace Recorder's registers: the capture's start, REC_CTRL and REC_SIZE (18_identity_replay R478 to R480,
R482). -/

namespace Sys2Proof.Machine

/-- A table's bytes in whole lines, the last padded with zeros. -/
def padLines (bs : List Byte) : List Line := (chunksOf (bs.length / 64 + 1) 64 bs).map bytesLine

/-- A register block's 32-bit registers from its offset 0 on. -/
def regBytes (n : Nat) (f : Nat → Nat) : List Byte := (List.range n).flatMap (fun i => leBytes 4 (f (4 * i)))

/-- The payload of a START record: the tables of R480 in its order, each in whole lines. -/
def State.startLines (s : State) : List Line :=
  let all (sel n : Nat) : List Byte := (List.range n).flatMap (s.queryEntry sel 0)
  padLines s.plan.record ++ padLines (all 0x05 4194304) ++ padLines (all 0x03 16384) ++ padLines (all 0x04 1)
    ++ padLines (all 0x02 64) ++ padLines (all 0x07 1) ++ padLines (all 0x06 131072)
    ++ padLines (all 0x08 1) ++ padLines (all 0x09 1) ++ padLines (regBytes 21 s.powerReg) ++ padLines (regBytes 576 s.timeReg)

/-- A START record as far as the window has room, its last line kept for the END record (R480, R489). -/
def State.putStart (s : State) (p : List Line) : State :=
  let r := { s.trace with arm := false, capture := [], capPoison := [], capLines := 0, cseq := [], capActive := true }
  let q := p.take (r.capRoom - 2)
  let h := capHead s.time.now 8 q.length 0 0 (if s.legOn then s.meshCycle else 0xFFFFFFFF) s.legNow p.length 0
  let t := { s with trace := r.put h q (capKey 8 0) }
  if q.length < p.length then t.endCapture 2 else t

/-- Capture starts where it is armed, at a clean point (R480). A window without a line takes no record. The window that a
replay uses takes no capture. -/
def State.startCapture (s : State) : State :=
  if !s.trace.arm || s.trace.capActive || s.trace.replay != .off then s
  else if s.trace.capRoom = 0 then { s with trace := { s.trace with arm := false, endReason := 2 } }
  else s.putStart s.startLines

/-- A write of REC_CTRL (R482). -/
def State.recCtrl (s : State) (v : W32) : State :=
  let t := { s with trace := s.trace.ctrl v }
  if bit v.toNat 27 then t.endCapture 0 else t

/-- CAPTURE_ARM (R480). -/
def execCaptureArm (v : W32) (s : State) : Out :=
  if bit v.toNat 29 then s.regCmd 0x5000 v (fun t => t.recCtrl v) else .next s

/-- FREEZE (R480). -/
def execFreeze (v : W32) (s : State) : Out :=
  if bit v.toNat 27 then s.regCmd 0x5000 v (fun t => t.recCtrl v) else .next s

/-- Whether sizes of event ring and capture window, in 2 MiB units, are taken: a ring within 1 to 32,768, and USER_TOP not
below half of the HBM4 space (R478, R482). -/
def Plan.sizesFit (p : Plan) (ring cap : Nat) : Bool :=
  decide (1 ≤ ring) && decide (ring ≤ 32768) && decide (p.hbmBytes / 2 + (ring + cap) * 2097152 ≤ p.resBase)

/-- A write of REC_SIZE: saved for the next start, or refused whole (R478). -/
def State.recSize (s : State) (v : W32) : State :=
  let ring : W16 := BitVec.ofNat 16 (v.toNat / 65536)
  let cap : W16 := BitVec.ofNat 16 v.toNat
  if s.plan.sizesFit ring.toNat cap.toNat then
    { s with trace := { s.trace with ring2m := ring, cap2m := cap }, flash := { s.flash with ring2m := ring, cap2m := cap } }
  else { s with trace := { s.trace with sizeRefused := true } }

/-- REC_SIZE_WRITE (R478). -/
def execRecSizeWrite (v : W32) (s : State) : Out := s.regCmd 0x5004 v (fun t => t.recSize v)

end Sys2Proof.Machine
end

