-- ==== Sys2Proof/Machine/Stop.lean ====
section
/-! DEFINITION. Thermal limits, the stop sequence, coolant loss, input and wiring faults, and what the module is without power
(17_power R456 to R460, R463, R464; 19_electrical R492, R499). -/

namespace Sys2Proof.Machine

/-! ### Dies and bridges (R72, R76, R464) -/

/-- The dies that a bridge joins, by its bit in BRIDGE_OK. -/
def bridgeEnds (b : Nat) : Nat × Nat := if b = 0 then (0, 1) else if b = 1 then (2, 3) else if b = 2 then (0, 2) else (1, 3)

/-- The dies one bridge further than some dies. -/
def bridgeStep (ok : BitVec 4) (ds : List Nat) : List Nat :=
  (List.range 4).filter (fun d => ds.contains d || (List.range 4).any (fun b =>
    ok.toNat.testBit b && (((bridgeEnds b).1 == d && ds.contains (bridgeEnds b).2) || ((bridgeEnds b).2 == d && ds.contains (bridgeEnds b).1))))

/-- The dies that usable bridges join to D0. (DEDUCED, log 65) -/
def joinedDies (ok : BitVec 4) : List Nat := bridgeStep ok (bridgeStep ok (bridgeStep ok [0]))

/-- The bridges of a die. -/
def bridgesOf (d : Nat) : BitVec 4 :=
  BitVec.ofNat 4 (((List.range 4).map (fun b => if (bridgeEnds b).1 = d ∨ (bridgeEnds b).2 = d then 2 ^ b else 0)).sum)

/-- Whether a die's VCORE or VSRAM rail is shut. (DEDUCED, log 65) -/
def dieShut (shut : BitVec 34) (d : Nat) : Bool := shut.toNat.testBit d || shut.toNat.testBit (4 + d)

/-- The memory entries of a die. -/
def devsOf (d : Nat) : List Nat := [2 * d, 2 * d + 1, 8 + 3 * d, 9 + 3 * d, 10 + 3 * d]

/-- A memory device lost while the module runs, where it is there. -/
def State.dropDevice (s : State) (d : Nat) : State := if s.devHere d then s.loseDevice d else s

/-- A link FAILED, whatever state it was in. -/
def State.failLink (s : State) (l : Nat) : State :=
  if (s.link l).st = .failed then s else s.linkLeave l .failed unusable

/-- A die cut off while the module runs: its cores absent with a cause, its links and memories lost (R72, R464). (DEDUCED, log 65) -/
def State.cutDie (s : State) (cause d : Nat) : State :=
  let s1 := s.planChange (fun p => { p with dies := mupd ({} : DieEntry) p.dies d (fun e => { e with cutOff := true }) })
  let s2 := { s1 with cores := s1.cores.filter (fun p => decide (p.1 / 288 ≠ d)) }
  let cs := ((List.range 288).map (fun i => 288 * d + i)).filter (fun c => (s2.coreEntry c).usable && !s2.plan.pendingAbsent.any (fun p => p.1 == c))
  let s3 := cs.foldl (fun t c => t.absent c cause) s2
  let s4 := ((List.range 6).map (fun i => 6 * d + i)).foldl (fun t l => t.failLink l) s3
  (devsOf d).foldl (fun t m => t.dropDevice m) s4

/-- A die's core rail shut while the module runs: its bridges go with it, and every die no longer joined to D0 is cut off. -/
def State.loseDie (s : State) (cause d : Nat) : State :=
  let s1 := s.planChange (fun p => { p with bridgeOk := p.bridgeOk &&& ~~~(bridgesOf d) })
  let on := joinedDies s1.plan.bridgeOk
  ((List.range 4).filter (fun e => !on.contains e && !(mget ({} : DieEntry) s1.plan.dies e).cutOff)).foldl (fun t e => t.cutDie cause e) s1

/-! ### The stop sequence (R459) -/

/-- Every LEG group ABANDONED on this module alone, and every RUN_LEGS completed with LEG_ABANDONED and this module as its
originator (R439, R459). A RELEASE that waited completes. -/
def State.dropGroups (s : State) (cause sub : Nat) : State :=
  let d1 := abandonDetail s.coord cause sub
  let s1 := s.groups.foldl (fun t p => t.endRuns p.1 0xA6 (t.groupLeg p.1) d1) s
  let s2 := (s1.host.descs.filter (fun d => d.type == 2)).foldl (fun t d => t.complete d 0xA6 s.legNow d1) s1
  s2.groups.foldl (fun t p =>
    if p.2.legActive ∨ p.2.ending.isSome then
      let u := t.updGroup p.1 (fun g => { g with st := .abandoned, active := false, ending := none })
      match p.2.releasing with
      | some o => (u.updGroup p.1 Group.gone).completeOrder o 0 0 0
      | none => u
    else t) s2

/-- Every core's streams and operations stopped. -/
def State.haltCores (s : State) : State := { s with cores := mmap {} (fun _ k => k.halt s.cycles) s.cores }

/-- Groups whose JOIN waits leave it: the JOIN completes with a status, or at a stop stays taken until it is cut. -/
def State.dropJoins (s : State) (status : Option Nat) : State :=
  s.groups.foldl (fun t p =>
    match p.2.joinOrder with
    | none => t
    | some o =>
      let u := t.updGroup p.1 (fun g => { g.gone with markers := [] })
      match status with
      | some st => u.completeOrder o st 0 0
      | none => u) s

/-- The stop begins, with a sub-cause and the die of the sensor (R457 to R459). A module held in reset, FAILED or already
stopping begins none. (DEDUCED, log 66) -/
def State.beginStop (s : State) (sub die : Nat) : State :=
  if s.boot.inReset || s.power.stopStage != 0 || s.boot.st == .stopped || s.boot.st == .failed then s
  else
    let s0 := if s.feeding then s.endReplay 6 else s
    let s1 := { s0 with
      conds := { s0.conds with stop115 := s0.conds.stop115 || sub == 1, coolant := s0.conds.coolant || sub == 2 }
      power := { s0.power with stopStage := 1, events := s0.power.events ||| (if sub = 1 then 0x80 else 0x40) } }
    let s2 := s1.activeLegs.foldl (fun t n => t.sendStretch n 2 sub) s1
    let s3 := ((s2.dropJoins none).haltCores).dropGroups 2 sub
    let s4 := if s3.series.isSome then s3.seriesEnd.rephase else s3
    { s4 with boot := { s4.boot with st := .stopped, cpBusy := false, cpStage := 0 } }.faultMark pwrUnit (if sub = 1 then 0xB6 else 0xB5) die

/-- A HALT block of the module's own. -/
def State.haltBlock (s : State) (l : Nat) : State :=
  let x : Sync := { kind := 6, origin := s.coord, id := s.lnk.symbolId }
  { s with lnk := { s.lnk with symbolId := (s.lnk.symbolId + 1) % 65536 } }.emit (.linkBlock l x.block)

/-- A link's transmitter off: HALTED after a HALT block where it was in use, else DOWN (R318, R337). (DEDUCED, log 51) -/
def State.linkOff (s : State) (l : Nat) : State :=
  let k := s.link l
  let used := k.st == .up || k.st == .sparing
  let s1 := if used then s.haltBlock l else s
  let s2 := s1.updLink l (fun k => { k with st := if used then .halted else .down, unacked := [], waiting := [], sinceAck := 0, oldestGood := none })
  let s3 := (if k.st = .up then s2.linkUse l unusable else s2).dropHeard l
  ((k.unacked ++ k.waiting).filter (fun f => f.source == 0)).foldl State.routeFault s3

/-- STOP_HALT_LINKS: HALT on every link, open transfers aborted, transmitters off (R337, R459). -/
def execStopHaltLinks (s : State) : Out :=
  let s1 := s.abortXfers (fun _ => true)
  let s2 := { s1 with lnk := { s1.lnk with postLines := [] }, power := { s1.power with stopStage := 2 } }
  happen (s.power.stopStage == 1) s ((List.range 24).foldl (fun t l => t.linkOff l) s2)

/-- STOP_DESCRIPTORS_CUT: every descriptor still taken completes with RESET_CUT, and capture ends (R459, R480). (DEDUCED, log 66) -/
def execStopDescriptorsCut (s : State) : Out :=
  let s1 := s.host.descs.foldl (fun t d => t.complete d 0xAC 0 0) s
  let s2 := { s1 with host := { s1.host with broadcast := none }, adopt := none, power := { s1.power with stopStage := 3 } }
  happen (s.power.stopStage == 2) s (s2.endCapture 3)

/-- STOP_RAILS_OFF: clocks stopped, memories in self-refresh, core rails off (R459, R460). -/
def execStopRailsOff (s : State) : Out :=
  happen (s.power.stopStage == 3) s
    { s with
      clk := { s.clk with stopped := true }
      cores := []
      mem := { s.mem with selfRefresh := true }
      power := { s.power with stopStage := 4, railsOn := false } }

/-! ### Thermal limits (R456, R457) -/

/-- Whether the latest readings call for a cut: a junction at 105 °C or a stack at 95 °C. -/
def Power.hot (w : Power) : Bool := w.juncTemps.any (fun p => decide (840 ≤ p.2)) || w.hbmTemps.any (fun p => decide (760 ≤ p.2))

/-- Whether every junction reads below 102 °C and every stack below 92 °C. -/
def Power.cool (w : Power) : Bool := w.juncTemps.all (fun p => decide (p.2 < 816)) && w.hbmTemps.all (fun p => decide (p.2 < 736))

/-- k_th cut to 32 at a hot reading. -/
def State.thermalCut (s : State) : State := if s.power.hot && decide (32 < s.power.kTh) then s.setKTh 32 else s

/-- A thermal stop begins; with a coolant stop due in the same sample, that one runs (R457, R468). -/
def State.thermalStop (s : State) (die : Nat) : State :=
  match s.power.flowLowSince with
  | some t => if t + 200000 ≤ s.clk.ns then { s with power := { s.power with flowLowSince := none } }.beginStop 2 0 else s.beginStop 1 die
  | none => s.beginStop 1 die

/-- The lowest-numbered die with a junction at 115 °C, where one has. -/
def stopDie (js : List (DieIx × Int)) : Option Nat :=
  (List.range 4).find? (fun d => js.any (fun p => p.1.val == d && decide (920 ≤ p.2)))

/-- THERMAL_SAMPLE: the junction sensors, each die kept as its hottest (R456, R457). -/
def execThermalSample (junction : List (DieIx × Int)) (s : State) : Out :=
  let temps := junction.foldl (fun m p => mset noTemp m p.1.val (max p.2 (mget noTemp m p.1.val))) []
  let hot := stopDie junction
  let n := if hot.isSome then s.power.hotSamples + 1 else 0
  let s1 := { s with power := { s.power with juncTemps := temps, hotSamples := n } }.thermalCut
  happen (!s.boot.inReset) s
    (match hot with
    | some d => if 2 ≤ n then s1.thermalStop d else s1
    | none => s1)

/-- HBM_TEMP_REPORT: a stack's temperature. The second report of a stack opens the next round of reports, which is a sample
of R457 (R456, R457). (DEDUCED, log 25) -/
def execHbmTempReport (stack : Fin 8) (t : Int) (s : State) : Out :=
  let w := s.power
  let again := w.hbmRound.contains stack.val
  let prev := if again then w.hbmNowHot else w.hbmPrevHot
  let now := (!again && w.hbmNowHot) || decide (840 ≤ t)
  let s1 := { s with power := { w with
    hbmTemps := mset noTemp w.hbmTemps stack.val t
    hbmRound := if again then [stack.val] else w.hbmRound ++ [stack.val]
    hbmPrevHot := prev
    hbmNowHot := now } }.thermalCut
  happen (!s.boot.inReset) s (if prev && decide (840 ≤ t) then s1.thermalStop (stack.val / 2) else s1)

/-- THERMAL_STEP: k_th halves while a hot reading persists and doubles once all have cooled (R456). -/
def execThermalStep (s : State) : Out :=
  let w := s.power
  happen (!s.boot.inReset) s
    (if w.hot then s.setKTh (min w.kTh (max 8 (w.kTh / 2))) else if w.cool then s.setKTh (min 64 (2 * w.kTh)) else s)

/-! ### Coolant (R458, R499) -/

/-- FLOW_OK_LOW. (DEDUCED, log 77) -/
def execFlowOkLow (s : State) : Out :=
  let s1 := { s with side := { s.side with flowOk := false } }
  happen s.side.flowOk s
    (if s.boot.inReset then s1 else { s1 with power := { s1.power with flowLowSince := some s.clk.ns } })

/-- FLOW_OK_HIGH: a low shorter than 200 µs counts as a glitch. (DEDUCED, log 77) -/
def execFlowOkHigh (s : State) : Out :=
  let s1 := { s with side := { s.side with flowOk := true } }
  happen (!s.side.flowOk) s
    (match s.power.flowLowSince with
    | some t => if s.clk.ns < t + 200000 then { s1 with power := { s1.power with flowLowSince := none, glitches := sat32 s.power.glitches } } else s1
    | none => s1)

/-- COOLANT_STOP: FLOW_OK has been low for 200 µs. -/
def execCoolantStop (s : State) : Out :=
  match s.power.flowLowSince with
  | none => .next s
  | some t =>
    let s1 := s.advance (t + 200000 - s.clk.ns)
    .next ({ s1 with power := { s1.power with flowLowSince := none } }.beginStop 2 0)

/-! ### Without power (R433, R463, R467, R492) -/

/-- The flash after power is lost: a tag write not finished leaves the earlier copy (R472), and an image write in progress
may have left a slot that fails R428 (R429). (DESIGN CHOICE, log 63) -/
def State.tornFlash (s : State) : Flash × Nat :=
  let f := { s.flash with tagNew := none }
  let writing := decide (1 ≤ s.boot.imgState) && decide (s.boot.imgState ≤ 3) && (!s.boot.pushing || s.boot.persist)
  if writing then (if (Config.freeWord s.freeIx).toNat % 2 = 0 then f else { f with image := some [] }, s.freeIx + 1) else (f, s.freeIx)

/-- The module with everything lost that a cold start clears: the flash, the always-on domain's latches and the pins remain,
and FORCE_FULL for the next start (R422, R435, R467). (DESIGN CHOICE, log 11, UNVERIFIED, log 64) -/
def State.bare (s : State) : State :=
  let f := s.tornFlash
  { pending := s.pending
    boot := { forceFull := s.boot.forceFull }
    flash := f.1
    trace := { ring2m := f.1.ring2m, cap2m := f.1.cap2m, ring2mNow := f.1.ring2m, cap2mNow := f.1.cap2m }
    power := { events := s.power.events, railFault := s.power.railFault, inputBad := s.power.inputBad, rangeNote := s.power.rangeNote, sbStuck := s.power.sbStuck, inMv := s.power.inMv }
    side := s.side
    outbox := s.outbox
    freeIx := f.2 }

/-- The input out of range: every rail off, and the event latched (R463, R466). -/
def State.inputLost (s : State) (bit : Byte) (mv : W16) : State :=
  let t := s.bare
  { t with power := { t.power with events := t.power.events ||| bit, inputBad := true, rangeNote := true, inMv := mv } }

/-- INPUT_UNDERVOLT. -/
def execInputUndervolt (mv : W16) (s : State) : Out := happen (!s.power.inputBad && s.side.vaux) s (s.inputLost 2 mv)

/-- INPUT_OVERVOLT. -/
def execInputOvervolt (mv : W16) (s : State) : Out := happen (!s.power.inputBad && s.side.vaux) s (s.inputLost 4 mv)

/-- The always-on domain without power: the latches clear, and the module is wholly off (R467). -/
def State.vauxOff (s : State) : State :=
  let t := s.bare
  { t with
    boot := {}
    power := { inputBad := t.power.inputBad }
    side := { trayRstN := t.side.trayRstN, perstN := t.side.perstN, flowOk := t.side.flowOk, vaux := false } }

/-- VAUX_LOST: the hold-up after a loss of input has run out (R492). -/
def execVauxLost (s : State) : Out := happen (s.power.inputBad && s.side.vaux) s s.vauxOff

/-- The CXL port answering: its rate and width (R393, R498). -/
def State.portUp (s : State) : State :=
  if s.side.perstN && !s.boot.inReset then
    { s with host := { s.host with rate := Config.portRate % 2, width := Config.portWidth % 3 + 1 } }
  else s

/-- A cold start: 0 after power-on, 1 after a tray reset, 2 after a module reset (R422, R423, R432). FLOW_OK already low counts
from its first instant (R499). (DESIGN CHOICE, log 11, DEDUCED, log 62) -/
def State.coldStart (s : State) (kind : Nat) : State :=
  let t := s.bare
  { t with
    boot := { t.boot with inReset := false, lastReset := kind }
    power := { t.power with railsOn := true, flowLowSince := if s.side.flowOk then none else some 0 } }.portUp

/-- INPUT_RECOVERED: the input back in range for 10 ms; a cold start where TRAY_RST_N is high (R463, R508). -/
def execInputRecovered (mv : W16) (s : State) : Out :=
  let s1 := { s with power := { s.power with inputBad := false, inMv := mv }, side := { s.side with vaux := true } }
  happen (s.power.inputBad || !s.side.vaux) s (if s.side.trayRstN then s1.coldStart 0 else s1)

/-! ### Rails, sense lines, sideband (R463, R464) -/

/-- A rail's short found before READY (R464): D0's core rails and the Module Controller's make the start FAILED; what else the
rail feeds is absent, at once where the start-up test is past. (DEDUCED, log 65) -/
def State.shortAtStart (s : State) (r : Nat) : State :=
  if (r < 8 ∧ r % 4 = 0) ∨ r = 32 then { s with boot := { s.boot with st := .failed, fail := 0x12 } }
  else if s.boot.st ≠ .train then s
  else if r < 8 then s.loseDie 4 (r % 4)
  else if r < 28 then s.dropDevice (r - 8)
  else (List.range 6).foldl (fun t i => t.failLink (6 * (r - 28) + i)) s

/-- A rail's short in service (R464). (DEDUCED, log 65) -/
def State.shortInService (s : State) (r : Nat) : State :=
  if r < 8 then (if r % 4 = 0 then s.beginStop 1 0 else s.loseDie 6 (r % 4))
  else if r < 28 then s.dropDevice (r - 8)
  else if r < 32 then (List.range 6).foldl (fun t i => t.failLink (6 * (r - 28) + i)) s
  else s.bare

/-- RAIL_SHORT: the rail shuts, the fault is latched and recorded, and what it feeds is lost. -/
def execRailShort (r : Fin 34) (s : State) : Out :=
  let n := r.val
  let one : BitVec 34 := BitVec.ofNat 34 (2 ^ n)
  let s1 := { s with power := { s.power with events := s.power.events ||| 8, railFault := s.power.railFault ||| one, shut := s.power.shut ||| one } }
  let s2 := s1.faultMark pwrUnit 0xB1 n
  if n = 33 then happen s.side.vaux s s.vauxOff
  else if s.boot.inReset then .next s
  else
    match s.boot.st with
    | .ready => .next (s2.shortInService n)
    | .cpReset => .next (s2.shortInService n)
    | .stopped => .next (if n = 32 then s2.bare else s2)
    | .failed => .next (if n = 32 then s2.bare else s2)
    | _ => .next (s2.shortAtStart n)

/-- SENSE_OPEN: the rail regulates on local sense until the next start (R463). -/
def execSenseOpen (r : Fin 8) (s : State) : Out :=
  let w := s.power
  happen (w.railsOn && !w.sense.toNat.testBit r.val) s
    ({ s with power := { w with sense := w.sense ||| BitVec.ofNat 8 (2 ^ r.val), events := w.events ||| 0x10 } }.faultMark pwrUnit 0xB2 r.val)

/-- SIDEBAND_STUCK: the bus held low is released, and recorded (R463). -/
def execSidebandStuck (s : State) : Out :=
  let s1 := { s with power := { s.power with sbStuck := true } }
  happen (s.side.vaux && !s.power.sbStuck) s
    (if s.boot.inReset then { s1 with power := { s1.power with events := s1.power.events ||| 0x20 } } else s1.sidebandFault)

/-- SIDEBAND_RETRY: a retry of a stuck bus, which finds it free or not (R463). -/
def execSidebandRetry (free : Bool) (s : State) : Out :=
  happen (s.power.sbStuck && free) s { s with power := { s.power with sbStuck := false } }

end Sys2Proof.Machine
end

