-- ==== Sys2Proof/Machine/Boot.lean ====
section
/-! DEFINITION. Start-up, reconciliation of fuses and test, memory training, resets and firmware images (02_floor_plan R61 to
R72, R78; 14_memory R369, R370, R376; 16_bringup R422 to R443; 19_electrical R497, R498). -/

namespace Sys2Proof.Machine

/-! ### Reconciliation (R62 to R64) -/

/-- A bank listed from a function, in canonical form. -/
def mtab {α : Type} [DecidableEq α] (d : α) (n : Nat) (f : Nat → α) : Mem α :=
  ((List.range n).map (fun i => (i, f i))).filter (fun p => decide (p.2 ≠ d))

/-- The blocks and columns of a core site that a test finds bad. (DEDUCED, log 20) -/
def siteFound (t : Defects) (c : Nat) : W16 × List Nat :=
  t.sites.foldl (fun a x => if x.core.val == c then (a.1 ||| x.blocks, a.2 ++ x.cols) else a) (0, [])

/-- The columns of a core site that the fuses mark bad. (DEDUCED, log 20) -/
def fusedCols (c : Nat) : List Nat := ((Config.fuseCols c).filter (fun x => decide (x < 132))).dedup

/-- The blocks of a core site that the fuses mark bad: bits 0 to 9, never the router's. A site left with fewer than 120
fused-good columns is absent by bit 9 (R78). (DEDUCED, log 20) -/
def fusedBlocks (c : Nat) : W16 :=
  (Config.fuseBlocks c &&& 0x2FF) ||| (if 132 < (fusedCols c).length + 120 then 0x200 else 0)

/-- Step 1 of R64: a core's entry by its blocks and columns. A site with the power domain fused off is not tested (R78). (DEDUCED, log 20) -/
def coreStep1 (t : Defects) (c : Nat) : CoreEntry :=
  let f := fusedBlocks c
  let q := siteFound t c
  let skip := f.toNat.testBit 9
  let tb : W16 := if skip then 0 else q.1 &&& 0x3FF
  let fc := fusedCols c
  let tc := if skip then [] else (q.2.filter (fun x => decide (x < 132))).dedup
  let bad := (fc ++ tc).dedup
  let new := (tc.filter (fun x => !fc.contains x)).length
  let good := 132 - bad.length
  let cause := if f ||| tb ≠ 0 then 1 else if good < 120 then 2 else 0
  { usable := cause == 0, newDefect := tb &&& ~~~f != 0 || new != 0, cause := cause, width := min good 128, badCols := bad, newCols := new, fuseBlocks := f, testBlocks := tb }

/-- The core sites of a die whose router the test finds bad, in index order. -/
def badRouters (t : Defects) (d : Nat) : List Nat :=
  ((List.range 288).map (fun i => 288 * d + i)).filter (fun c => (siteFound t c).1.toNat.testBit 8)

/-- Bridges usable after the union of fuses, test and core rails that are shut. -/
def bridgesOk (t : Defects) (shut : BitVec 34) : BitVec 4 :=
  BitVec.ofNat 4 (((List.range 4).map (fun b =>
    let e := bridgeEnds b
    if Config.fuseBridges.contains b || t.bridges.contains b || dieShut shut e.1 || dieShut shut e.2 then 0 else 2 ^ b)).sum)

/-- Bridges that the test finds bad and the fuses mark good. -/
def bridgesNew (t : Defects) : BitVec 4 :=
  BitVec.ofNat 4 (((List.range 4).map (fun b => if t.bridges.contains b && !Config.fuseBridges.contains b then 2 ^ b else 0)).sum)

/-- Whether a core entry is absent by its die (cause 4), or by its router (cause 3), after step 1. -/
def coreStep23 (t : Defects) (cut : List Nat) (c : Nat) (e : CoreEntry) : CoreEntry :=
  let d := c / 288
  let b := badRouters t d
  if cut.contains d ∨ 2 ≤ b.length then { e with usable := false, cause := 4 }
  else if b = [c] then { e with usable := false, cause := 3 }
  else e

/-- A die's entry: cut off, several routers bad, or one bypassed (R71, R79). -/
def dieFound (t : Defects) (cut : List Nat) (d : Nat) : DieEntry :=
  let b := badRouters t d
  { cutOff := cut.contains d, manyRouters := decide (2 ≤ b.length), bypass := match b with | [c] => some (c % 288 / 16, c % 16) | _ => none }

/-- The core side of the record: cores, dies and bridges (steps 1 to 3 of R64). -/
def Plan.coreSide (p : Plan) (t : Defects) (shut : BitVec 34) : Plan :=
  let ok := bridgesOk t shut
  let cut := (List.range 4).filter (fun d => !(joinedDies ok).contains d)
  { p with
    cores := mtab {} 1152 (fun c => coreStep23 t cut c (coreStep1 t c))
    dies := mtab {} 4 (dieFound t cut)
    bridgeOk := ok
    bridgeNew := bridgesNew t
    pendingAbsent := [] }

/-- A link entry at a start: lanes and ports by the union rule, not usable before the link is UP. -/
def linkFound (t : Defects) (l : Nat) : LinkEntry :=
  let fuse (i : Nat) : Bool := Config.fuseLanes.contains (l, i)
  let test (i : Nat) : Bool := t.links.contains (l, i)
  let port := Config.fusePorts.contains l || t.ports.contains l
  let bad := (List.range 5).filter (fun i => fuse i || test i)
  let mask : BitVec 5 := BitVec.ofNat 5 ((bad.map (fun i => 2 ^ i)).sum)
  { usable := false
    newDefect := (List.range 5).any (fun i => test i && !fuse i) || (t.ports.contains l && !Config.fusePorts.contains l)
    spareFor := match bad with | [i] => if i < 4 then i else 7 | _ => 7
    badLanes := mask
    testBad := if port then 0x1F else mask }

/-- The die of a memory entry. -/
def dieOfDev (d : Nat) : Nat := if d < 8 then d / 2 else (d - 8) / 3

/-- GB of a memory device. -/
def devGb (d : Nat) : Nat := if d < 8 then 64 else Config.dimmGb (d - 8)

/-- A memory entry at a start, before training: present unless fuses, test, its rail or its die rule it out. -/
def memFound (t : Defects) (shut : BitVec 34) (cut : List Nat) (d : Nat) : MemEntry :=
  let fuse := Config.fuseDevices.contains d
  let here := !fuse && !t.devices.contains d && !shut.toNat.testBit (8 + d) && !cut.contains (dieOfDev d)
  { present := here, newDefect := t.devices.contains d && !fuse, capacity := if here then devGb d else 0 }

/-- A FAULT for a unit with a new defect; the spec gives its payload nowhere (R63). (DESIGN CHOICE, log 50) -/
def State.newDefect (s : State) (unit : Nat) : State := let r := s.free64; r.2.mark 0x12 0 0 unit r.1.toNat

/-- The unit code of a bridge (R52). -/
def bridgeUnit (b : Nat) : Nat := unitCode (bridgeEnds b).1 31 b 24

/-- The FAULT waymarks of R63 for cores and bridges. -/
def State.markCores (s : State) : State :=
  let s1 := s.plan.cores.foldl (fun t p => if p.2.newDefect then t.newDefect (coreUnit p.1 0) else t) s
  ((List.range 4).filter (fun b => s.plan.bridgeNew.toNat.testBit b)).foldl (fun t b => t.newDefect (bridgeUnit b)) s1

/-- The FAULT waymarks of R63 for memories. -/
def State.markMems (s : State) : State :=
  s.plan.mems.foldl (fun t p => if p.2.newDefect then t.newDefect (devUnit p.1) else t) s

/-- The FAULT waymarks of R63 for links and memories. -/
def State.markRest (s : State) : State :=
  (s.plan.links.foldl (fun t p => if p.2.newDefect then t.newDefect (linkUnit p.1) else t) s).markMems

/-- Every usable core's domain on, its memories in their fixed initial state and its flags as held (R126, R285). (DEDUCED, log 62) -/
def State.coresOn (s : State) : State :=
  { s with cores := mtab {} 1152 (fun c =>
    if (mget ({} : CoreEntry) s.plan.cores c).usable then ({ power := .on, flags := mget [] s.flagsHeld c } : Core) else {}) }

/-! ### Start-up (R424 to R430) -/

/-- The module FAILED with a code: no record (R442). -/
def State.failStart (s : State) (code : Nat) : State := { s with boot := { s.boot with st := .failed, fail := code } }

/-- What an image's header says of it. -/
def imageOf (b : List Byte) : Image :=
  { secVersion := imgField b 4 2, fwVersion := BitVec.ofNat 32 (imgField b 8 4), raiseFloor := bit (imgField b 0x30 4) 0, digest := shaBlock256 (b.take (imgLength b)) }

/-- BOOT_VERIFY_DONE: the flash image runs, or WAIT_IMAGE (R428, R429). (DEDUCED, log 62) -/
def execBootVerifyDone (s : State) : Out :=
  let r := s.verifyImage s.flashImage
  happen (s.boot.st == .rom && !s.boot.inReset) s
    { s with boot := if r = 0 then { s.boot with st := .fwStart, running := some (imageOf s.flashImage) } else { s.boot with st := .waitImage, fail := r } }

/-- FW_START_DONE (R426). -/
def execFwStartDone (s : State) : Out := happen (s.boot.st == .fwStart) s { s with boot := { s.boot with st := .test } }

/-- STARTUP_TEST_DONE: the reconciliation (R64), then TRAIN; FAILED where the module cannot start (R442). (DEDUCED, log 62) -/
def execStartupTestDone (t : Defects) (s : State) : Out :=
  let p := s.plan.coreSide t s.power.shut
  let cut := (List.range 4).filter (fun d => (mget ({} : DieEntry) p.dies d).cutOff)
  let q := { p with
    startTime := s.time.now
    generation := 1
    links := mtab {} 24 (linkFound t)
    mems := mtab {} 20 (memFound t s.power.shut cut) }
  let s1 := ({ s with plan := q, boot := { s.boot with st := .train } }.markCores.markRest).coresOn
  happen (s.boot.st == .test) s
    (if t.devices.any (fun d => decide (20 ≤ d)) then s.failStart 0x10
    else if (List.range 8).all (fun d => !(mget ({} : MemEntry) q.mems d).present) then s.failStart 0x11
    else s1)

/-- A device that does not train: absent, with a FAULT. -/
def State.untrained (s : State) (d status : Nat) : State :=
  { s with plan := { s.plan with mems := mupd {} s.plan.mems d (fun e => { e with present := false, capacity := 0 }) } }.faultMark (devUnit d) status 0

/-- One device trained, from its record where that is usable, else in full with a new record; a socket found empty is EMPTY,
whatever else keeps its channel absent (R70, R79, R376, R434, R435). -/
def State.trainDevice (s : State) (d : Nat) (r : DevTrain) : State :=
  let rec' := mget noRecord s.flash.records d
  let usable := r == .saved && (rec'.key, rec'.sub) == devKey d && s.flash.records.any (fun p => p.1 == d) && !s.boot.forceFull
  if r = .empty ∧ 8 ≤ d then
    { s with plan := { s.plan with mems := mupd {} s.plan.mems d (fun e => { e with present := false, empty := true, capacity := 0 }) } }
  else if !(mget ({} : MemEntry) s.plan.mems d).present then s
  else if 8 ≤ d ∧ (r = .unsupported ∨ ([64, 128, 256] : List Nat).contains (devGb d) = false) then s.untrained d 0x94
  else if r = .failed ∨ r = .empty ∨ r = .unsupported then s.untrained d 0x93
  else if usable then
    { s.updCtl d (fun c => { c with trainedAt := rec'.temp }) with boot := { s.boot with savedTrained := s.boot.savedTrained + 1 } }
  else
    let temp := (s.ctl d).temp
    { s.updCtl d (fun c => { c with trainedAt := temp }) with
      boot := { s.boot with fullTrained := s.boot.fullTrained + 1 }, flash := s.flash.trained d temp }

/-- The DDR5 bands of channels with capacity left, as (channel, left, used) (R370). -/
def ddrBands : Nat → Nat → List (Nat × Nat × Nat) → List Band
  | 0, _, _ => []
  | f + 1, base, ks =>
    match ks.filter (fun k => decide (0 < k.2.1)) with
    | [] => []
    | r =>
      let cmin := minOf (r.map (fun k => k.2.1))
      { base := base, size := r.length * cmin, chans := r.map (·.1), used := r.map (fun k => (k.1, k.2.2)) }
        :: ddrBands f (base + r.length * cmin) (r.map (fun k => (k.1, k.2.1 - cmin, k.2.2 + cmin)))

/-- The memory maps from the devices present (R369, R370). (DEDUCED, log 54) -/
def Plan.maps (p : Plan) : Plan :=
  let here (d : Nat) : Bool := (mget ({} : MemEntry) p.mems d).present
  { p with
    hbmStacks := (List.range 8).filter here
    bands := ddrBands 3 0 (((List.range 12).filter (fun k => here (8 + k))).map (fun k => (k, devGb (8 + k) * 1000000000, 0))) }

/-- The SECURITY measurement's value (R473). -/
def State.securityValue (s : State) : Block :=
  let sec := (s.boot.running.map (·.secVersion)).getD 0
  shaBlock256 (leBytes 8 (at' sec 0 16 + at' s.secFloor 16 8 + at' (b2n s.boot.pushed) 24 1 + at' s.boot.fail 32 8))

/-- The measurements fixed at READY (R473). -/
def State.measFixed (s : State) : State :=
  let fw : Meas := { value := (s.boot.running.map (·.digest)).getD 0, time := s.time.now }
  { s with meas := mset {} (mset {} s.meas 2 fw) 3 { value := s.securityValue, time := s.time.now } }

/-- The fused floor raised by an image that reaches READY for it (R430). -/
def State.raiseFloor (s : State) : State :=
  match s.boot.running with
  | none => s
  | some i =>
    if i.raiseFloor && decide (s.secFloor < i.secVersion) then
      let t := { s with flash := { s.flash with secFloor := some i.secVersion } }
      { t with meas := mupd ({} : Meas) t.meas 3 (fun x => { x with value := t.securityValue }) }.measChanged 3
    else s

/-- An input fault latched before this start recorded (R466). -/
def State.rangeMark (s : State) : State :=
  if s.power.rangeNote then { s with power := { s.power with rangeNote := false } }.faultMark pwrUnit 0xB3 0 else s

/-- READY after a start: the record stands, and what R57, R430, R451, R473 and R480 tie to this instant. (DEDUCED, log 25, DEDUCED, log 54) -/
def State.reachReady (s : State) : State :=
  let p := { s.plan.maps with valid := true }
  let s1 := { s with
    plan := p.recount
    boot := { s.boot with
      st := .ready
      startMs := s.clk.ns / 1000000
      forceFull := false }
    power := { s.power with point := if s.power.fallback then max s.power.high 1 else s.power.high } }
  (s1.measFixed.measChanged 5).raiseFloor.rangeMark.rephase.startCapture

/-- MEMORY_TRAINING_DONE: every device's outcome by entry number, one not named having trained in full; then READY (R376, R426,
R434). -/
def execMemoryTrainingDone (ds : List DevTrain) (s : State) : Out :=
  let s1 := (List.range 20).foldl (fun t d => t.trainDevice d (nth .full ds d)) s
  let fitted := (List.range 20).filter (fun d => (mget ({} : MemEntry) s.plan.mems d).present && !(mget ({} : MemEntry) s1.plan.mems d).empty)
  let saved := s1.boot.savedTrained.toNat - s.boot.savedTrained.toNat
  let s2 := { s1 with boot := { s1.boot with savedUsed := decide (saved = fitted.length) } }
  happen (s.boot.st == .train) s
    (if (List.range 8).all (fun d => !(mget ({} : MemEntry) s1.plan.mems d).present) then s1.failStart 0x11 else s2.reachReady)

/-! ### Tray reset and module reset (R422, R423, R497) -/

/-- TRAY_RST_N_ASSERT: everything stops (R422, R443). (DEDUCED, log 77) -/
def execTrayRstNAssert (s : State) : Out :=
  let t := s.bare
  happen s.side.trayRstN s
    { t with
      boot := { t.boot with lastReset := if s.boot.inReset then s.boot.lastReset else 1 }
      side := { t.side with trayRstN := false } }

/-- TRAY_RST_N_RELEASE: SLOT_ID sampled, and a cold start from time base 0 where the input is in range (R423, R497, R508). -/
def execTrayRstNRelease (s : State) : Out :=
  let s1 := { s with side := { s.side with trayRstN := true, slot := Config.slotId } }
  happen (!s.side.trayRstN) s (if !s.power.inputBad && s.side.vaux then s1.coldStart s.boot.lastReset else s1)

/-- A module reset: capture ends, and a cold start that keeps the CXL port and its configuration (R422, R480). What the capture
window holds is kept. (UNVERIFIED, log 64) -/
def State.moduleReset (s : State) : State :=
  let s1 := s.endCapture 4
  let t := s1.coldStart 2
  let h := s.host
  { t with
    host := { t.host with rate := h.rate, width := h.width, ideIo := h.ideIo, ideCachemem := h.ideCachemem, memUp := h.memUp, cacheUp := h.cacheUp, winBase := h.winBase, winUnits := h.winUnits, ideKeys := h.ideKeys, ideNext := h.ideNext }
    trace := { t.trace with capture := s1.trace.capture, capPoison := s1.trace.capPoison, endReason := s1.trace.endReason } }

/-- MODULE_RESET (R422, R432). -/
def execModuleReset (v : W32) (s : State) : Out :=
  if keyed v && bit v.toNat 1 then s.regCmd 0x0188 v State.moduleReset else .next s

/-! ### Compute-part reset (R436 to R439) -/

/-- The stretch symbols that a module owes the groups a reset takes from it (R439). (DEDUCED, log 66) -/
def State.owe (s : State) (ns : List Nat) (leg : Nat) (due : Option Nat) : State :=
  ns.foldl (fun t n => t.updGroup n (fun g => { g with owed := some { leg := some leg, due := due, sent := false, sub := 1 } })) s

/-- A LOAD_PROGRAM in progress cut (R421). -/
def State.cutBroadcast (s : State) : State :=
  match s.host.broadcast with
  | none => s
  | some b => { s with host := { s.host with broadcast := none } }.completeOrder b.order 0xAC 0 0

/-- BARRIER groups released. (DEDUCED, log 66) -/
def State.dropBarriers (s : State) : State :=
  s.groups.foldl (fun t p => if p.2.barrier && p.2.active then t.updGroup p.1 Group.gone else t) s

/-- An accepted compute-part reset (R436, R437, R439). (DEDUCED, log 66) -/
def State.cpBegin (s : State) : State :=
  let due := match s.series with | some r => r.due | none => none
  let s1 := ((s.dropJoins (some 0xAC)).cutBroadcast.dropBarriers.haltCores).dropGroups 5 1
  let s2 := s1.owe s.activeLegs s.legNow due
  let s3 := if s2.series.isSome then s2.seriesEnd.rephase.retrainNext else s2
  let s4 := s3.abortXfers (fun _ => true)
  { s4 with
    lnk := { s4.lnk with postLines := [] }
    boot := { s4.boot with st := .cpReset, cpBusy := true, cpStage := 1, lastReset := 3, cpCount := BitVec.ofNat 16 (sat 16 (s4.boot.cpCount.toNat + 1)) } }

/-- A write of CP_RESET, accepted only in READY (R436). -/
def State.cpReset (s : State) : State := if s.boot.st = .ready ∧ !s.boot.cpBusy then s.cpBegin else s

/-- CP_RESET. -/
def execCpReset (v : W32) (s : State) : Out :=
  if keyed v && bit v.toNat 0 && !bit v.toNat 1 then s.regCmd 0x0188 v State.cpReset else .next s

/-- CP_POWER_OFF: clocks stopped, every core domain off, and what the cores and their memories held lost (R437, R438). -/
def execCpPowerOff (s : State) : Out :=
  happen (s.boot.cpStage == 1) s
    { s with
      clk := { s.clk with stopped := true }
      cores := []
      flagsHeld := []
      caddySt := mmap {} (fun _ x => { x with bound := false, frames := [] }) s.caddySt
      gov := { s.gov with opened := [] }
      boot := { s.boot with cpStage := 2 } }

/-- A link entry across a compute-part reset: kept, but for a die cut off, and for one joined again, whose links are as their
state says (R437). -/
def LinkEntry.across (e : LinkEntry) (cut wasCut up : Bool) : LinkEntry :=
  if cut then { e with usable := false } else if wasCut then { e with usable := up } else e

/-- CP_TEST_DONE: the core side reconciled afresh; links and memories carry over but for dies cut off and controllers that
fail, and the links of a die cut off go DOWN; the flags are worked out afresh, the waiting table writes apply, and the clocks run
(R63, R437, R438). -/
def execCpTestDone (t : Defects) (s : State) : Out :=
  let old := s.plan.dies
  let p := s.plan.coreSide t s.power.shut
  let cutOf (ds : Mem DieEntry) (d : Nat) : Bool := (mget ({} : DieEntry) ds d).cutOff
  let lost := (List.range 20).filter (fun d => t.devices.contains d || cutOf p.dies (dieOfDev d))
  let s0 := ((List.range 24).filter (fun l => cutOf p.dies (l / 6) && (s.link l).st != .down)).foldl (fun u l => u.linkLeave l .down unusable) s
  let s1 := lost.foldl (fun u d => u.dropDevice d) s0
  let q := ({ s1.plan.coreSide t s.power.shut with
    startTime := s.time.now
    mems := mtab {} 20 (fun d => { mget ({} : MemEntry) s1.plan.mems d with newDefect := t.devices.contains d && !Config.fuseDevices.contains d })
    links := mtab {} 24 (fun l => (mget ({} : LinkEntry) s1.plan.links l).across (cutOf p.dies (l / 6)) (cutOf old (l / 6)) ((s.link l).st == .up)) } : Plan).recount
  let s2 := ({ s1 with plan := { q with generation := 1 }, clk := { s1.clk with stopped := false }, boot := { s1.boot with cpStage := 3 } }.measChanged 5).markCores.markMems
  happen (s.boot.cpStage == 2) s s2.coresOn.tablesDue

/-! ### Firmware images (R429, R440) -/

/-- A fetch of an image begun. -/
def State.imgBegin (s : State) (push : Bool) : State :=
  { s with boot := { s.boot with st := if push then .receive else s.boot.st, imgState := 1, imgResult := 0, pushing := push } }.emit
    (.hostRead s.boot.imgAddr.toNat (s.boot.imgLen.toNat / 64) false)

/-- A keyed write of IMG_CTRL (R432). -/
def State.imgCtrl (s : State) (v : W32) : State :=
  let t := { s with boot := { s.boot with persist := bit v.toNat 2 } }
  let no := { t with boot := { t.boot with imgResult := 7 } }
  if bit v.toNat 0 then (if s.boot.st = .waitImage then t.imgBegin true else no)
  else if bit v.toNat 1 then (if s.boot.st = .ready ∧ (s.boot.imgState = 0 ∨ 4 ≤ s.boot.imgState) then t.imgBegin false else no)
  else t

/-- PUSH (R429). -/
def execPush (v : W32) (s : State) : Out :=
  if keyed v && bit v.toNat 0 then s.regCmd 0x01A4 v (fun t => t.imgCtrl v) else .next s

/-- UPDATE (R440). -/
def execUpdate (v : W32) (s : State) : Out :=
  if keyed v && bit v.toNat 1 && !bit v.toNat 0 then s.regCmd 0x01A4 v (fun t => t.imgCtrl v) else .next s

/-- A fetch, verification or flash write failed. -/
def State.imgFail (s : State) (code : Nat) : State :=
  { s with boot := { s.boot with st := if s.boot.pushing then .waitImage else s.boot.st, imgState := 5, imgResult := code } }

/-- The lines of an image that came from the host, captured. -/
def State.captureImage (s : State) (b : List Byte) : State :=
  ((padLines b).zipIdx).foldl (fun t q => t.captureIn 2 mcUnit (s.boot.imgAddr.toNat + 64 * q.2) 0 [q.1]) s

/-- IMG_DONE: the image as fetched, IMG_LEN bytes at most, none where the host port failed or is held (R508), and whether the flash took it (R428 to R431, R440). (DEDUCED, log 62) -/
def execImgDone (image : Option (List Byte)) (flashOk : Bool) (s : State) : Out :=
  let write := !s.boot.pushing || s.boot.persist
  if s.boot.imgState = 0 ∨ 4 ≤ s.boot.imgState then .next s
  else
    match (if s.portHeld then none else image) with
    | none => .next (s.imgFail 1)
    | some i =>
      let b := i.take s.boot.imgLen.toNat
      let s1 := s.captureImage b
      let r := s1.verifyImage b
      if r ≠ 0 then .next (s1.imgFail r)
      else if write && !flashOk then .next ({ s1 with flash := { s1.flash with image := some [] } }.imgFail 6)
      else
        let s2 := { s1 with flash := if write then { s1.flash with image := some b } else s1.flash, boot := { s1.boot with imgState := 4 } }
        .next (if s.boot.pushing then
          { s2 with boot := { s2.boot with st := .fwStart, running := some (imageOf b), pushed := !s.boot.persist } } else s2)

/-! ### Training records, HOST_PERST_N (R435, R498) -/

/-- A write of TRAIN_CTRL; RECORD_CLEAR is refused in TRAIN and during a retrain. (DEDUCED, log 66) -/
def State.trainCtrl (s : State) (v : W32) : State :=
  let busy := s.boot.st == .train || s.mem.ctls.any (fun c => c.2.st == 1)
  if !bit v.toNat 1 then { s with boot := { s.boot with forceFull := bit v.toNat 0 } }
  else if busy then s
  else { s with boot := { s.boot with forceFull := bit v.toNat 0 }, flash := { s.flash with records := [], older := [] } }

/-- RECORD_CLEAR. -/
def execRecordClear (v : W32) (s : State) : Out :=
  if bit v.toNat 1 then s.regCmd 0x0190 v (fun t => t.trainCtrl v) else .next s

/-- HOST_PERST_N_ASSERT: the CXL port held in reset, its configuration gone (R498). (DEDUCED, log 77) -/
def execHostPerstNAssert (s : State) : Out :=
  let h := s.host
  happen s.side.perstN s
    { s with
      side := { s.side with perstN := false }
      host := { h with rate := 0, width := 0, ideIo := false, ideCachemem := false, memUp := false, cacheUp := false, winBase := 0, winUnits := 0, lines := [], ideKeys := [], ideNext := [] }
      spdm := {} }

/-- HOST_PERST_N_RELEASE (R498). -/
def execHostPerstNRelease (s : State) : Out := happen (!s.side.perstN) s { s with side := { s.side with perstN := true } }.portUp

end Sys2Proof.Machine
end

