-- ==== Sys2Proof/Machine/Join.lean ====
section
/-! DEFINITION. JOIN, join markers, RELEASE and RUN_LEGS (01_legs_mileposts R20, R26, R27, R35, R36; 15_host R406 to R408). -/

namespace Sys2Proof.Machine

/-! ### JOIN (R407) -/

/-- Reserved bits of a SYNC_JOIN that are not 0 (R16, R407). -/
def Desc.joinReserved (d : Desc) : Bool :=
  d.f 0 14 4 != 0 || d.f 0 7 1 != 0 || d.f 8 24 8 != 0 || d.f 0xC 0 16 != 0 || d.f 0x10 15 1 != 0 || d.f 0x14 0 32 != 0
    || d.f 0x18 43 21 != 0 || d.f 0x20 43 21 != 0 || !d.clear 0x28

/-- A position of a box as a coordinate, round the rings of the torus; this module's own coordinate where it is this
module's place. -/
def State.boxCoord (s : State) (box i : Nat) : W16 :=
  let n (d : Nat) : Nat := bits box (10 - 5 * d) 5 + 1
  let at3 (d k : Nat) : Nat := (bits box (26 - 5 * d) 5 + k) % s.lnk.ctrl.size d
  let x := at3 0 (i % n 0)
  let y := at3 1 (i / n 0 % n 1)
  let z := at3 2 (i / (n 0 * n 1))
  if x = coordAt s.coord 0 ∧ y = coordAt s.coord 1 ∧ z = coordAt s.coord 2 then s.coord
  else BitVec.ofNat 16 (at' 1 15 1 + at' x 10 5 + at' y 5 5 + at' z 0 5)

/-- Positions of a box. -/
def boxSize (box : Nat) : Nat := (bits box 10 5 + 1) * (bits box 5 5 + 1) * (bits box 0 5 + 1)

/-- Whether a box exceeds the torus, or its origin is no coordinate of it: a coordinate has ASSIGNED 1, except where this
module has none (R52, R407). (DEDUCED, log 21) -/
def State.boxBeyond (s : State) (box : Nat) : Bool :=
  (assigned s.coord && !bit box 31)
    || (List.range 3).any (fun d => decide (s.lnk.ctrl.size d < bits box (10 - 5 * d) 5 + 1) || decide (s.lnk.ctrl.size d ≤ bits box (26 - 5 * d) 5))

/-- The distance between two coordinates over the routes that links take (R26, R325): the torus distance, but where one is this
module's own and a direction of it lacks links, the other way round that ring. (DEDUCED, log 30) -/
def State.hopsBetween (s : State) (a b : W16) : Nat :=
  ((List.range 3).map (fun d =>
    let n := s.lnk.ctrl.size d
    let k := ringDist n (coordAt a d) (coordAt b d)
    let none' (dir : Nat) : Bool := (s.dirLinks dir).isEmpty
    let plus := if a = s.coord then none' (2 * d) else b == s.coord && none' (2 * d + 1)
    let minus := if a = s.coord then none' (2 * d + 1) else b == s.coord && none' (2 * d)
    if k = 0 then 0
    else if plus && !minus then n - k
    else if minus && !plus then k
    else min k (n - k))).sum

/-- L of some participant modules (R26). (DEDUCED, log 30) -/
def State.latencyOf (s : State) (ms : List W16) : Nat :=
  40 + 120 * (ms.flatMap (fun a => ms.map (fun b => s.hopsBetween a b))).foldl max 0

/-- JOIN_CHECK: the CRC of descriptor bytes 0x00 to 0x17 with USER_TAG and CORE_SEL read as 0 (R408). -/
def Desc.joinCheck (d : Desc) : W32 := crc32c (leBytes 24 (setBits (setBits d.raw.toNat 32 32 0) 19 1 0))

/-- The time of a marker: the value nearest this module's own time with the low 32 bits it carries (R54, R408). -/
def extendTime (now low : Nat) : Nat :=
  let c := now / 2 ^ 32 * 2 ^ 32 + low
  if c + 2 ^ 31 < now then c + 2 ^ 32 else if now + 2 ^ 31 < c ∧ 2 ^ 32 ≤ c then c - 2 ^ 32 else c

/-- A JOIN that waits, ended with a status: the group stays IDLE here, and what it gathered is dropped. (DEDUCED, log 22, DEDUCED, log 30) -/
def State.joinFails (s : State) (n o status : Nat) : State :=
  let t := (s.endRuns n 0xA8 0 0).completeOrder o status 0 0
  t.updGroup n (fun g => { g.gone with markers := [] })

/-- The pace leader that some markers name: the lowest coordinate with PACE_EN (R31). -/
def leaderOf (ms : List Marker) : Option W16 :=
  match ms.filter (·.paceEn) with
  | [] => none
  | l => some (lowestCoord (l.map (·.origin)))

/-- A LEG group founds a series (R35). -/
def State.foundSeries (s : State) (n : Nat) (ms : List Marker) : State :=
  let g := s.group n
  let j := (ms.map (·.time)).foldl max 0
  let lead := leaderOf ms
  let due := match lead with | none => some (j + 2 * g.latency) | some _ => g.early
  let r : Series := { founder := n, check := g.check, period := g.period, latency := g.latency, joinTime := j, ratio := max 1 s.pace.ratio.toNat, leader := lead, due := due }
  { s with series := some r, pace := { s.pace with st := if lead.isSome then .acquire else .off } }.updGroup n
    (fun x => { x with firstAt := some 0, early := none })

/-- Whether markers agree on the series that this module runs, and every module of the group is of its founding group
(R36). -/
def State.joinsSeries (s : State) (g : Group) (ms : List Marker) (r : Series) : Bool :=
  ms.all (fun m => m.series && m.founder == r.founder && m.founderCheck == r.check)
    && g.modules.all (fun m => (s.group r.founder).modules.contains m)

/-- What a waiting JOIN does with the markers it has: a difference ends it, agreement of all starts the group or its wait
for its first milepost, and otherwise it waits on (R36, R408). (DEDUCED, log 30) -/
def State.joinCheck (s : State) (n : Nat) : State :=
  let g := s.group n
  match g.joinOrder with
  | none => s
  | some o =>
    let ms := g.markers.filter (fun m => g.modules.contains m.origin)
    if g.firstAt.isSome then s
    else if ms.any (fun m => m.check != g.check) then s.joinFails n o 0xA1
    else if !g.modules.all (fun c => ms.any (fun m => m.origin == c)) then s
    else if g.barrier then
      (s.updGroup n (fun x => { x with active := true, joinOrder := none, markers := [] })).completeOrder o 0 0 g.modules.length
    else
      match s.series with
      | none => if ms.any (·.series) then s.joinFails n o 0xA1 else s.foundSeries n ms
      | some r =>
        if s.joinsSeries g ms r then
          s.updGroup n (fun x => { x with firstAt := some ((ms.map (·.time)).foldl max 0 + 2 * g.latency) })
        else s.joinFails n o 0xA1

/-- A join marker kept, the latest of each origin. -/
def Group.mark (g : Group) (m : Marker) : Group := { g with markers := g.markers.filter (fun x => x.origin != m.origin) ++ [m] }

/-- The marker of this module for a JOIN, and the symbol that carries it (R408). -/
def State.sendMarker (s : State) (n : Nat) : State :=
  let t := s.time.now
  let sf : Bool × Nat × W32 := match s.series with | some r => (true, r.founder, r.check) | none => (false, 0, 0)
  let chk := (s.group n).check
  let m : Marker := { origin := s.coord, check := chk, time := t, series := sf.1, founder := sf.2.1, paceEn := s.pace.en, founderCheck := sf.2.2 }
  (s.updGroup n (fun g => g.mark m)).sendGroup n
    { kind := 1, leg := 0xFFFFFFFFFFFF, value := at' chk.toNat 32 32 + at' t 0 32, sub := at' (b2n sf.1) 7 1 + at' sf.2.1 1 6 + at' (b2n s.pace.en) 0 1, founder := sf.2.2.toNat }

/-- The status of a JOIN's checks beyond its form, 0 when it is accepted (R20, R27, R74, R407). A spare never joins a group that
it adopted for (R361). (DEDUCED, log 30) -/
def State.joinStatus (s : State) (d : Desc) (ms : List W16) (cs : List Nat) : Nat :=
  let g := s.group d.groupNo
  let leg := d.f 0 21 1 == 0
  let period := d.f 8 0 24
  if (g.st != .idle && g.st != .abandoned) || g.active || g.joinOrder.isSome || g.owed.any (fun w => w.sub == 2) then 0xA8
  else if leg && (match s.series with
      | some r => decide (r.period ≠ period) || (s.group r.founder).limit != d.f 0 0 7 || (s.group r.founder).abandonPolicy != (d.f 0 20 1 == 1)
      | none => false) then 0xA1
  else if leg && (decide (period < 2000) || decide (period < 4 * s.latencyOf ms)) then 0xA2
  else if cs.any (fun c => !s.coreOk c || s.plan.pendingAbsent.any (fun p => p.1 == c)) then 0xA3
  else 0

/-- JOIN: the checks, and the marker sent (R20, R27, R74, R407, R408). It does not start while the group's last
abandonment awaits its choice of originator; in a compute-part reset one of good form ends with RESET_CUT (R402, R421). The
group's counters clear, and SG_LAST with them. (DESIGN CHOICE, log 82, DEDUCED, log 21, DEDUCED, log 61) -/
def execJoin (host : List HostReply) (s : State) : Out :=
  match s.mcNext 6 with
  | none => .next s
  | some d =>
    let box := d.f 0x10 0 32
    let barrier := d.f 0 21 1 == 1
    if d.f 0 22 2 = 1 ∨ (s.group d.groupNo).ending.isSome then .next s
    else if d.f 0 22 2 ≠ 0 ∨ d.joinReserved ∨ 100 < d.f 0 0 7 ∨ (barrier ∧ (d.f 0 0 7 ≠ 0 ∨ d.f 8 0 24 ≠ 0)) ∨ s.boxBeyond box then
      .next (s.complete d 0xA0 0 0)
    else if s.boot.st = .cpReset then .next (s.complete d 0xAC 0 0)
    else
      let modSel := d.f 0 18 1 == 1
      let coreSel := d.f 0 19 1 == 1
      let m0 := McRun.start s host
      let m1 := if modSel then m0.run (d.f 0x20 0 43) (cdiv (boxSize box) 8) else m0
      let mask := leNat m1.data
      let m2 := if coreSel then m1.run (d.f 0x18 0 43) 144 else m1
      match m2.fault with
      | some (e, a) => .next (m2.st.complete d e a 0)
      | none =>
        if m2.wait then .next s
        else
          let t := m2.st
          let ms := ((List.range (boxSize box)).filter (fun i => !modSel || mask.testBit i)).map (t.boxCoord box)
          let cs := if coreSel then maskCores m2.data else t.usableCores
          if !ms.contains t.coord then .next (t.complete d 0xA0 0 0)
          else
            let st := t.joinStatus d ms cs
            if st ≠ 0 then .next (t.complete d st 0 0)
            else
              let g := t.group d.groupNo
              let g1 : Group := { barrier := barrier, abandonPolicy := d.f 0 20 1 == 1, limit := d.f 0 0 7, latency := t.latencyOf ms, period := d.f 8 0 24, jobTag := BitVec.ofNat 16 (d.f 0xC 16 16), check := d.joinCheck, box := box, modules := ms, cores := cs, joinOrder := some d.order, joinTime := t.time.now, markers := g.markers, early := g.early, runs := g.runs }
              .next ((((t.startDesc d).setGroup d.groupNo g1).sendMarker d.groupNo).joinCheck d.groupNo)

/-- JOIN_MARKER: a join marker arrives (R36, R408). -/
def execJoinMarker (l : LinkIx) (b : Block) (s : State) : Out :=
  let y := syncOf b
  if blockGood b && (y.kind != 1 || y.leg != 0xFFFFFFFFFFFF) then .next s
  else
    match s.syncIn l.val b with
    | none => .next (s.syncLost l.val)
    | some (x, t0) =>
      let t := (t0.forward l.val x).learnOwed x
      let m : Marker := { origin := x.origin, check := BitVec.ofNat 32 (x.value / 2 ^ 32), time := extendTime t.time.now (x.value % 2 ^ 32), series := bit x.sub 7, founder := bits x.sub 1 6, paceEn := bit x.sub 0, founderCheck := BitVec.ofNat 32 x.founder }
      .next ((t.updGroup x.group (fun g => g.mark m)).joinCheck x.group)

/-! ### RELEASE (R408) -/

/-- Whether other LEG groups of a founding group's series are active here. -/
def State.holdsOthers (s : State) (n : Nat) : Bool :=
  match s.series with
  | some r => r.founder == n && s.activeLegs.any (fun i => i != n)
  | none => false

/-- RELEASE (R36, R408). (DEDUCED, log 30) -/
def execRelease (s : State) : Out :=
  match s.mcNext 6 with
  | none => .next s
  | some d =>
    let n := d.groupNo
    let g := s.group n
    if d.f 0 22 2 ≠ 1 then .next s
    else if d.joinReserved then .next (s.complete d 0xA0 0 0)
    else
      match g.joinOrder with
      | some o =>
        let s1 := (s.joinFails n o 0xA8).complete d 0 0 0
        let founds := match s.series with | some r => r.founder == n && r.opened.isNone | none => false
        .next (if founds then s1.seriesOver else s1)
      | none =>
        if s.holdsOthers n ∨ s.host.descs.any (fun q => q.type == 2 && q.groupNo == n) ∨ g.releasing.isSome then .next (s.complete d 0xA8 0 0)
        else if g.legActive ∨ g.ending.isSome then .next ((s.startDesc d).updGroup n (fun x => { x with releasing := some d.order }))
        else
          let t := s.updGroup n Group.gone
          .next ({ t with cores := mmap {} (fun _ k => { k with arrivals := mset {} k.arrivals n {} }) t.cores }.complete d 0 0 0)

/-! ### RUN_LEGS (R406) -/

/-- RUN_LEGS: a taken descriptor is checked for its form and joins its group's runs. -/
def execRunLegs (s : State) : Out :=
  match (if s.power.stopStage != 0 then none else s.nextOf [2]) with
  | none => .next s
  | some d =>
    if d.f 0 14 10 ≠ 0 ∨ d.f 8 0 32 = 0 ∨ d.f 0xC 0 32 ≠ 0 ∨ d.f 0x10 48 16 ≠ 0 ∨ !d.clear 0x18 then .next (s.complete d 0xA0 0 0)
    else
      let r : Run := { order := d.order, first := d.f 0 0 8, count := d.f 8 0 32, startLeg := if d.f 0x10 0 48 = 0 then none else some (d.f 0x10 0 48), accepted := false }
      .next ((s.startDesc d).updGroup d.groupNo (fun g => { g with runs := g.runs ++ [r] }))

/-- RUN_LEGS_START: the group's first RUN_LEGS not completed passes its checks and takes its first leg, or completes with
what they find. A core without an image runs nothing. A group whose JOIN waits for its first milepost counts as joined,
since its participants have joined (R45, R278). (DEDUCED, log 22) -/
def execRunLegsStart (g : GroupIx) (s : State) : Out :=
  let x := s.group g.val
  match x.runs with
  | [] => .next s
  | r :: rest =>
    let drop (st : Nat) : State := (s.updGroup g.val (fun y => { y with runs := rest })).completeOrder r.order st 0 0
    let beyond (c : Nat) : Bool := match (s.core c).program with | some p => decide (p.legCycle ≤ r.first) | none => false
    let late := match r.startLeg with | some k => s.legOn && decide (k ≤ s.legNow) | none => false
    if r.accepted then .next s
    else if !(x.legActive || (x.joinOrder.isSome && !x.barrier)) then .next (drop 0xA8)
    else if x.cores.any beyond then .next (drop 0xA0)
    else if late then .next (drop 0xAB)
    else .next (s.updGroup g.val (fun y => { y with runs := { r with accepted := true } :: rest }))

end Sys2Proof.Machine
end

