-- ==== Sys2Proof/Machine/Replay.lean ====
section
/-! DEFINITION. Replay: a capture loaded, the field module's floor plan and state taken, the records fed, and the end of a
compute-part reset, which it shares (16_bringup R437; 18_identity_replay R483 to R487). -/

namespace Sys2Proof.Machine

/-! ### The START record (R479, R480, R486) -/

/-- The tables of a START payload after the floor-plan record: selector, entry size, entries (R480). -/
def startTables : List (Nat × Nat × Nat) :=
  [(0x05, 8, 4194304), (0x03, 16, 16384), (0x04, 32, 1), (0x02, 32, 64), (0x07, 32, 1), (0x06, 8, 131072), (0x08, 32, 1), (0x09, 16, 1)]

/-- Lines of a START payload: the record, the tables, the POWER and the TIME block. -/
def startTotal : Nat := 149 + (startTables.map (fun t => cdiv (t.2.1 * t.2.2) 64)).sum + 2 + 36

/-- Whether the first record of a loaded capture is a valid START (R484, R489). -/
def Recorder.startOk (r : Recorder) : Bool :=
  r.lineField 0 8 24 8 == 8 && r.lineField 0 0xC 16 16 == 0 && r.lineField 0 0x18 0 64 == startTotal
    && r.lineField 0 8 0 16 == startTotal % 65536 && decide (startTotal + 1 ≤ r.len.toNat)

/-- A field of the floor-plan record that a START carries. -/
def Recorder.planField (r : Recorder) (off lo w : Nat) : Nat := fld (mget 0 r.capture (1 + off / 64)).toNat (off % 64) lo w

/-- A core entry of that record; of the columns it holds only their number (R77). -/
def Recorder.coreOf (r : Recorder) (c : Nat) : CoreEntry :=
  let f (lo w : Nat) : Nat := r.planField (0x40 + 8 * c) lo w
  { usable := f 63 1 == 1, sessionAbsent := f 62 1 == 1, newDefect := f 61 1 == 1, cause := f 56 4, width := f 48 8, badCols := List.range (f 40 8), newCols := f 32 8, fuseBlocks := BitVec.ofNat 16 (f 16 16), testBlocks := BitVec.ofNat 16 (f 0 16) }

/-- A link entry of that record, with the lanes that this module knows to be bad. -/
def Recorder.linkOf (r : Recorder) (lab : Plan) (l : Nat) : LinkEntry :=
  let f (lo w : Nat) : Nat := r.planField (0x2440 + 4 * l) lo w
  { usable := f 31 1 == 1, newDefect := f 30 1 == 1, spareFor := f 26 3, badLanes := BitVec.ofNat 5 (f 21 5), testBad := (mget ({} : LinkEntry) lab.links l).testBad }

/-- A memory entry of that record. -/
def Recorder.memOf (r : Recorder) (d : Nat) : MemEntry :=
  let f (lo w : Nat) : Nat := r.planField (0x24A0 + 4 * d) lo w
  { present := f 31 1 == 1, newDefect := f 30 1 == 1, empty := f 27 1 == 1, capacity := f 0 16 }

/-- A die entry of that record. -/
def Recorder.dieOf (r : Recorder) (d : Nat) : DieEntry :=
  let f (lo w : Nat) : Nat := r.planField (0x24F0 + 4 * d) lo w
  { cutOff := f 31 1 == 1, manyRouters := f 30 1 == 1, bypass := if f 24 5 = 31 then none else some (f 24 5, f 20 4) }

/-- The floor plan of the START record, over this module's memory maps, which a compute-part reset keeps (R437, R486). (DEDUCED, log 54) -/
def Recorder.planOf (r : Recorder) (lab : Plan) : Plan :=
  { lab with
    valid := true
    generation := r.planField 8 0 32
    startTime := r.planField 0x10 0 64
    degraded := r.planField 0xC 7 1 == 1
    reduced := r.planField 0xC 6 1 == 1
    bridgeOk := BitVec.ofNat 4 (r.planField 0x20 0 4)
    bridgeNew := BitVec.ofNat 4 (r.planField 0x30 0 4)
    cores := mtab {} 1152 r.coreOf
    links := mtab {} 24 (r.linkOf lab)
    mems := mtab {} 20 r.memOf
    dies := mtab {} 4 r.dieOf
    pendingAbsent := [] }

/-- Whether this module can run as a record describes: its usable cores as wide, its links' ports, its bridges and its dies
good, its memories present with the same capacity (R486). -/
def State.runsPlan (s : State) (p : Plan) : Bool :=
  (List.range 1152).all (fun c => let e := mget ({} : CoreEntry) p.cores c; !e.usable || (s.coreOk c && decide (e.width ≤ s.width c)))
    && (List.range 24).all (fun l => !(mget ({} : LinkEntry) p.links l).usable || s.portGood l)
    && (List.range 4).all (fun b => !p.bridgeOk.toNat.testBit b || s.plan.bridgeOk.toNat.testBit b)
    && (List.range 4).all (fun d => (mget ({} : DieEntry) p.dies d).cutOff || !(mget ({} : DieEntry) s.plan.dies d).cutOff)
    && (List.range 20).all (fun d =>
      let e := mget ({} : MemEntry) p.mems d
      !e.present || (s.devHere d && e.capacity == (mget ({} : MemEntry) s.plan.mems d).capacity))

/-- One entry of a START's table. -/
def Recorder.startEntry (r : Recorder) (base size i : Nat) : Nat := fld (mget 0 r.capture (base + size * i / 64)).toNat (size * i % 64) 0 (8 * size)

/-- The fields of a Format Table entry that the governor writes, as a START holds them: without them a replay would not start
from the field module's state (R163, R487). -/
def startFmt (v : Nat) (e : FmtEntry) : FmtEntry :=
  { e with current := fld v 0 24 2, choice := fld v 0 22 2, scaleExp := sgn (fld v 0 8 8) 8, downCount := fld v 4 24 8, eRef := sgn (fld v 4 0 9) 9, amaxLast := BitVec.ofNat 32 (fld v 8 0 32), observed := fld v 0xC 8 24, late := fld v 0xC 0 8 }

/-- A START's table applied as SET_TABLE writes would apply it, and the line after it (R486). (DEDUCED, log 68) -/
def State.startTable (q : State × Nat) (t : Nat × Nat × Nat) : State × Nat :=
  let r := q.1.trace
  let s := iter t.2.2 (fun i u =>
    let v := r.startEntry q.2 t.2.1 i
    let w := u.tabApply 0 { sel := t.1, core := none, ix := i, val := v }
    if t.1 = 0x03 then { w with fmt := mupd ({} : FmtEntry) w.fmt i (startFmt v) } else w) q.1
  (s, q.2 + cdiv (t.2.1 * t.2.2) 64)

/-- The registers of a START that software writes: PWR_CTRL, OP_TUNE, TIME_CTRL, PACE_CTRL and MILEPOST_REC, from its POWER and
TIME lines. -/
def State.startRegs (s : State) (base : Nat) : State :=
  let r := s.trace
  let w (line off : Nat) : W32 := BitVec.ofNat 32 (fld (mget 0 r.capture (base + line + off / 64)).toNat (off % 64) 0 32)
  ((((s.pwrCtrl (w 0 0)).plainWrite 0x3004 (w 0 4)).plainWrite 0x2008 (w 2 8)).plainWrite 0x2020 (w 2 0x20)).plainWrite 0x2030 (w 2 0x30)

/-- The START record taken at the end of GO's reset: floor plan, tables, registers, and the time base (R486). (DEDUCED, log 68) -/
def State.applyStart (s : State) : State :=
  let p := s.trace.planOf s.plan
  let s1 := { s with plan := p, cores := s.cores.filter (fun k => (mget ({} : CoreEntry) p.cores k.1).usable) }.measChanged 5
  let q := startTables.foldl State.startTable (s1, 150)
  let s2 := q.1.startRegs q.2
  let s3 := s2.stepTime ((s.trace.lineField 0 0 0 64 : Int) - s2.time.now)
  { s3 with trace := { s3.trace with feedAt := s3.trace.after 0 } }

/-- CP_RESET_DONE: READY, the conditions of the reset over, and a clean point for capture (R57, R437, R480); at a replay's reset
the START state is taken (R486). -/
def execCpResetDone (s : State) : Out :=
  let s1 := { s with boot := { s.boot with st := .ready, cpBusy := false, cpStage := 0 }, conds := {} }
  let s2 := if s.feeding && s.trace.feedAt == 0 then s1.applyStart else s1
  happen (s.boot.cpStage == 3) s s2.rephase.startCapture

/-! ### REPLAY_CTRL (R484, R485) -/

/-- Every link disabled (R484, R486). -/
def State.linksDisabled (s : State) : State :=
  (List.range 24).foldl (fun t l => if (t.link l).st = .down then t else t.linkLeave l .down unusable) s

/-- GO: the plan checked, the compute-part reset, and feeding (R486). (DEDUCED, log 68) -/
def State.replayGo (s : State) : State :=
  let r := s.trace
  if s.runsPlan (r.planOf s.plan) then
    let s1 := s.cpBegin.linksDisabled
    { s1 with
      trace := { s1.trace with replay := .feeding, fed := 0, feedAt := 0, used := [] }
      meas := mupd ({} : Meas) s1.meas 7 (fun x => { x with value := shaBlock256 (lineBytes (mget 0 r.capture 0)) }) }.measChanged 7
  else s.linksDisabled.endReplay 3

/-- A keyed write of REPLAY_CTRL, in the state that takes it (R484). -/
def State.replayCtrl (s : State) (v : W32) : State :=
  let x := v.toNat
  if !keyed v then s
  else
    match s.trace.replay with
    | .off =>
      if bit x 0 && s.boot.st == .ready && !s.legOn then
        { s with trace := { s.trace with replay := .loading, result := 0 } }.emit
          (.hostRead ((s.trace.srcHi.toNat * 2 ^ 32 + s.trace.srcLo.toNat) / 64 * 64) s.trace.len.toNat false)
      else s
    | .readyToGo => if bit x 1 && s.boot.st == .ready && !s.boot.cpBusy then s.replayGo else s
    | .feeding => if bit x 2 then s.endReplay 5 else s
    | _ => s

/-- REPLAY_LOAD. -/
def execReplayLoad (v : W32) (s : State) : Out :=
  if bit v.toNat 0 then s.regCmd 0x502C v (fun t => t.replayCtrl v) else .next s

/-- REPLAY_GO. -/
def execReplayGo (v : W32) (s : State) : Out :=
  if bit v.toNat 1 then s.regCmd 0x502C v (fun t => t.replayCtrl v) else .next s

/-- REPLAY_STOP. -/
def execReplayStop (v : W32) (s : State) : Out :=
  if bit v.toNat 2 then s.regCmd 0x502C v (fun t => t.replayCtrl v) else .next s

/-- A load that ends in OFF with CAPTURE_BAD (R484, R485). (DEDUCED, log 68) -/
def State.loadBad (s : State) : State := { s with trace := { s.trace with replay := .off, result := 4 } }

/-- A fetched capture in the window, each line with its EP bit. -/
def Recorder.loaded (r : Recorder) (ls : List (Line × Bool)) : Recorder :=
  { r with
    capture := msetRun 0 [] 0 (ls.map (·.1))
    capPoison := msetRun false [] 0 (ls.map (·.2))
    capLines := ls.length
    replay := .readyToGo }

/-- A host reply's line. -/
def replyLine : HostReply → Option (Line × Bool)
  | .line d ep => some (d, ep)
  | .abort => none

/-- REPLAY_LOAD_DONE: every line fetched, or the fetch failed. A capture longer than the window, or a window that a capture still
fills, fails too (R484). -/
def execReplayLoadDone (lines : List HostReply) (s : State) : Out :=
  let ls := lines.filterMap replyLine
  let bad := s.portHeld || lines.any (fun x => (replyLine x).isNone)
  let s1 := if bad then { s with host := { s.host with errAbort := true } } else s
  if s.trace.replay ≠ .loading ∨ (!bad ∧ lines.length ≠ s.trace.len.toNat) then .next s
  else if bad ∨ s.trace.capRoom < ls.length ∨ s.trace.capActive then .next s1.loadBad
  else
    let r := s.trace.loaded ls
    .next (if r.startOk then { s with trace := r } else s.loadBad)

/-! ### Feeding (R486) -/

/-- A register write of any kind applied, as a captured REG_WRITE is; REPLAY_CTRL's bits belong to the lab's own host. -/
def State.regAll (s : State) (off : Nat) (v : W32) : State :=
  if !s.answers off then s
  else if off = 0x0188 then (if !keyed v then s else if bit v.toNat 1 then s.moduleReset else if bit v.toNat 0 then s.cpReset else s)
  else if off = 0x0190 then s.trainCtrl v
  else if off = 0x01A4 then (if keyed v then s.imgCtrl v else s)
  else if off = 0x201C then s.timeSet v
  else if off = 0x2020 then s.paceCtrl v
  else if 0x2100 ≤ off ∧ off < 0x2900 ∧ off % 0x20 = 0 then s.policyWrite ((off - 0x2100) / 0x20) v
  else if off = 0x3000 then (s.pwrCtrl v).pinCheck 0
  else if off = 0x5000 then s.recCtrl v
  else if off = 0x5004 then s.recSize v
  else if off = 0x502C then s
  else if 0x1000 ≤ off ∧ off < 0x2000 ∧ off % 0x40 = 0x18 then s.ringCtrl ((off - 0x1000) / 0x40) v
  else s.ordinaryWrite off v

/-- The state that a command leaves. -/
def after (s : State) : Out → State
  | .next t => t
  | _ => s

/-- A captured sync block arrives as if received (R486). -/
def State.feedSync (s : State) (l : LinkIx) (b : Block) : State :=
  let x := syncOf b
  after s (match x.kind with
    | 1 => if x.leg = 0xFFFFFFFFFFFF then execJoinMarker l b s else execReady l b s
    | 2 => execStretch l b s
    | 3 => execDue l b s
    | 4 => execAbandon l b s
    | 6 => execHalt l b s
    | _ => .next s)

/-- A captured flit arrives as if received: a DATA flit from its lines, or a DONE flit from its header (R479). -/
def State.feedFlit (s : State) (i l : Nat) : State :=
  let r := s.trace
  if r.lineField i 8 0 16 = 0 then s.flitTaken l 1 (BitVec.ofNat 256 (r.lineField i 0x20 0 256)) []
  else
    let bytes := (List.range 8).flatMap (fun j => lineBytes (mget 0 r.capture (i + 1 + j)))
    let h : Block := BitVec.ofNat 256 (leNat (bytes.take 32))
    s.flitTaken l 0 h (wordsOf (((bytes.drop 32).take (16 * hf h 0 3 5)).map (fun b => (b, false))))

/-- The payload lines that a record of a kind may have. -/
def feedLines (kind n : Nat) : Bool :=
  if kind = 1 ∨ kind = 3 then n == 1 else if kind = 2 then decide (1 ≤ n) else if kind = 4 then n == 0 || n == 8
  else decide (5 ≤ kind) && decide (kind ≤ 9) && kind != 8 && n == 0

/-- A well-formed record header within the capture (R485). (DEDUCED, log 68) -/
def Recorder.recordOk (r : Recorder) (i : Nat) : Bool :=
  decide (r.after i ≤ r.len.toNat) && feedLines (r.lineField i 8 24 8) (r.lineField i 8 0 16)
    && (r.lineField i 8 24 8 != 4 && r.lineField i 8 24 8 != 5 || decide (r.lineField i 0xC 16 16 < 24))
    && (r.lineField i 8 24 8 != 1 || decide (r.lineField i 0xC 16 16 < 64))

/-- The module at a record's instant: its TIME outside a leg, else its road-mesh cycle in its leg; none while that leg has not
opened (R486). -/
def State.recordDue (s : State) (i : Nat) : Option State :=
  let r := s.trace
  let cyc := r.lineField i 0x10 0 32
  if cyc = 0xFFFFFFFF then some (s.toTime (r.lineField i 0 0 64))
  else if s.legOn ∧ r.lineField i 0x14 0 32 ≤ s.legNow % 2 ^ 32 then some (s.advance (s.clk.phaseNs + cdiv (10 * cyc) 14 - s.clk.ns))
  else none

/-- One record delivered to its source. A captured descriptor comes on a ring of its own, so that the lab's rings stand
(R486). (DEDUCED, log 68) -/
def State.feed (s : State) (i : Nat) : State :=
  let r := s.trace
  let src := r.lineField i 0xC 16 16
  let addr := r.lineField i 0x18 0 64
  let line := mget 0 r.capture (i + 1)
  match r.lineField i 8 24 8 with
  | 1 => s.takeDesc (64 + src) (addr / 64 % 65536) line
  | 3 => s.ddrWrite addr line (mget false r.capPoison (i + 1))
  | 4 => s.feedFlit i src
  | 5 => if h : src < 24 then s.feedSync ⟨src, h⟩ (BitVec.ofNat 256 (r.lineField i 0x20 0 256)) else s
  | 6 => after s (execPaceEdge s)
  | 7 => s.regAll src (BitVec.ofNat 32 addr)
  | _ => s

/-- REPLAY_FEED: the next record, at its instant. HOST_READ lines wait for the reads they answer; END stops the replay, and so
does a header that is malformed (R485, R486). -/
def execReplayFeed (s : State) : Out :=
  let r := s.trace
  let i := r.feedAt
  if !s.feeding ∨ i = 0 then .next s
  else if !r.recordOk i then .next (s.endReplay 4)
  else
    match s.recordDue i with
    | none => .next s
    | some t =>
      let t1 := { t with trace := { t.trace with fed := t.trace.fed + 1 } }
      if r.lineField i 8 24 8 = 9 then .next (t1.endReplay 1)
      else
        let u := t1.feed i
        .next (if u.feeding then { u with trace := { u.trace with feedAt := r.after i } } else u)

end Sys2Proof.Machine
end

