-- ==== Sys2Proof/Machine/Side.lean ====
section
/-! DEFINITION. The sideband target: its addresses, the CCCs it supports and its registers (19_electrical R501, R502). -/

namespace Sys2Proof.Machine

/-- Whether the sideband answers: in every state in which VAUX is up, but while the bus is held low (R463, R501). (PRESUMED, log 71) -/
def State.sbOn (s : State) : Bool := s.side.vaux && !s.power.sbStuck

/-- The static address (R501). -/
def State.staticAddr (s : State) : Nat := 0x40 + s.side.slot.toNat

/-- The answer to a CCC or a read. -/
def State.sbAnswer (s : State) (d : List Byte) : State := s.emit (.sideband d)

/-- The provisional identifier, 48 bits, most significant byte first, as I3C Basic sends it. (PRESUMED, log 71) -/
def pidBytes : List Byte := (leBytes 6 Config.pidLow).reverse

/-- ENTDAA: a target without a dynamic address sends its identifier, BCR and DCR and takes the address (R501). (PRESUMED, log 71) -/
def execEntdaa (addr : BitVec 7) (s : State) : Out :=
  happen (s.sbOn && s.side.dyn.isNone) s
    ({ s with side := { s.side with dyn := some addr } }.sbAnswer (pidBytes ++ [Config.sbBcr, Config.sbDcr]))

/-- SETDASA: the dynamic address set by way of the static address (R501). (PRESUMED, log 71) -/
def execSetdasa (static addr : BitVec 7) (s : State) : Out :=
  happen (s.sbOn && s.side.dyn.isNone && static.toNat == s.staticAddr) s { s with side := { s.side with dyn := some addr } }

/-- RSTDAA: the dynamic address cleared (R501). -/
def execRstdaa (s : State) : Out := happen s.sbOn s { s with side := { s.side with dyn := none } }

/-- GETPID, to the dynamic address (R501). -/
def execGetpid (s : State) : Out := happen (s.sbOn && s.side.dyn.isSome) s (s.sbAnswer pidBytes)

/-- GETBCR (R501). -/
def execGetbcr (s : State) : Out := happen (s.sbOn && s.side.dyn.isSome) s (s.sbAnswer [Config.sbBcr])

/-- GETDCR (R501). -/
def execGetdcr (s : State) : Out := happen (s.sbOn && s.side.dyn.isSome) s (s.sbAnswer [Config.sbDcr])

/-- GETSTATUS: two bytes that the spec leaves to I3C Basic, free at each read (R501). (PRESUMED, log 71) -/
def execGetstatus (s : State) : Out :=
  let f := s.free32
  happen (s.sbOn && s.side.dyn.isSome) s (f.2.sbAnswer (leBytes 2 f.1.toNat))

/-- The sideband register at an offset (R502). -/
def State.sbReg (s : State) (off : Nat) : Nat :=
  match off / 4 with
  | 0 => 0x58465342
  | 1 => at' s.boot.st.code 12 4 + at' s.side.slot.toNat 3 5 + at' (b2n s.side.flowOk) 2 1 + at' (b2n s.side.trayRstN) 1 1 + at' (b2n (s.boot.st == .stopped)) 0 1
  | 2 => at' (s.powerReg 0x18 / 2 ^ 16) 16 16 + at' (s.powerReg 0x1C) 0 16
  | 3 => s.powerReg 0x20
  | 4 => s.powerReg 0x40
  | 5 => Config.serial.toNat % 2 ^ 32
  | 6 => Config.serial.toNat / 2 ^ 32
  | _ => 0

/-- SB_READ: registers from the written offset on, little-endian, the offset advancing by 4 with each (R501). (PRESUMED, log 71) -/
def execSbRead (off : Byte) (n : Nat) (s : State) : Out :=
  let at4 (i : Nat) : Nat := (off.toNat / 4 * 4 + 4 * i) % 256
  happen s.sbOn s
    ({ s with side := { s.side with offset := BitVec.ofNat 8 (at4 n) } }.sbAnswer
      ((List.range n).flatMap (fun i => leBytes 4 (s.sbReg (at4 i)))))

end Sys2Proof.Machine
end

