-- ==== Sys2Proof/Machine/Spdm.lean ====
section
/-! DEFINITION. The SPDM responder: its connection, the certificate chain, the measurements, the device key's signatures and
the session in which IDE keys travel (18_identity_replay R469 to R474). The spec names DSP0274 for the messages' form: what it
does not lay down itself is free (`Config.spdmBytes`). -/

namespace Sys2Proof.Machine

/-- Whether the module answers SPDM: in every BOOT_STATE from FW_START onward, over the host port (R471). -/
def State.spdmOn (s : State) : Bool := s.side.perstN && !s.boot.inReset && decide (4 ≤ s.boot.st.code)

/-- A response by name, with its bytes. -/
def State.respond (s : State) (name : String) (d : List Byte) : State := s.emit (.spdm name d)

/-- The ERROR response to a request that is not supported or comes out of its order. (PRESUMED, log 69) -/
def State.spdmError (s : State) : State := s.respond "ERROR" (Config.spdmBytes 0x7F [])

/-- A request that needs a negotiated connection and no signature in progress. (PRESUMED, log 69) -/
def State.spdmAsk (s : State) (ok : Bool) (t : State) : Out := happen s.spdmOn s (if s.spdm.algs && ok then t else s.spdmError)

/-- A device-key signature, 17,088 bytes (R470). (PRESUMED, log 69) -/
def signature (m : List Byte) : List Byte :=
  let b := Config.slhSign m
  (List.range 17088).map (fun i => nth 0 b i)

/-- GET_VERSION: the version, and a connection begun anew (R471). -/
def execGetVersion (s : State) : Out :=
  happen s.spdmOn s ({ s with spdm := { version := true } }.respond "VERSION" (Config.spdmBytes 0x04 []))

/-- GET_CAPABILITIES (R471). -/
def execGetCapabilities (s : State) : Out :=
  happen s.spdmOn s
    (if s.spdm.version then { s with spdm := { s.spdm with caps := true } }.respond "CAPABILITIES" (Config.spdmBytes 0x61 [])
    else s.spdmError)

/-- NEGOTIATE_ALGORITHMS (R471). -/
def execNegotiateAlgorithms (s : State) : Out :=
  happen s.spdmOn s
    (if s.spdm.caps then { s with spdm := { s.spdm with algs := true } }.respond "ALGORITHMS" (Config.spdmBytes 0x63 [])
    else s.spdmError)

/-- GET_DIGESTS (R471). -/
def execGetDigests (s : State) : Out := s.spdmAsk true (s.respond "DIGESTS" (Config.spdmBytes 0x01 []))

/-- GET_CERTIFICATE: the part asked for of the slot 0 chain (R469, R471). (DESIGN CHOICE, log 70) -/
def execGetCertificate (slot off len : Nat) (s : State) : Out :=
  s.spdmAsk (slot == 0 && decide (off < Config.certChain.length))
    (s.respond "CERTIFICATE" ((Config.certChain.drop off).take len))

/-- A signature begun (R470). -/
def State.sign (s : State) (j : SignJob) : State := { s with spdm := { s.spdm with signing := some (j, s.clk.ns) } }

/-- CHALLENGE: a device-key signature begins (R470, R471). -/
def execChallenge (slot : Nat) (nonce : Block) (s : State) : Out :=
  s.spdmAsk (slot == 0 && s.spdm.signing.isNone) (s.sign (.challenge slot nonce))

/-- The measurement blocks that an index asks for: one of R473, or all with 0xFF. -/
def State.measBlocks (s : State) (ix : Nat) : List (Nat × Block) :=
  if ix = 0xFF then (List.range 7).map (fun i => (i + 1, s.measValue (i + 1)))
  else if 1 ≤ ix ∧ ix ≤ 7 then [(ix, s.measValue ix)] else []

/-- Measurement blocks as they are returned: the index and the value of each (R474). -/
def measBytes (l : List (Nat × Block)) : List Byte := l.flatMap (fun p => BitVec.ofNat 8 p.1 :: blockBytes p.2)

/-- GET_MEASUREMENTS: the blocks as they stand at the request, signed when asked; index 0 asks for their number (R474). -/
def execGetMeasurements (ix : Nat) (sign : Bool) (nonce : Block) (s : State) : Out :=
  let l := s.measBlocks ix
  s.spdmAsk (decide (ix ≤ 7 ∨ ix = 0xFF) && (!sign || s.spdm.signing.isNone))
    (if sign then s.sign (.measurements nonce l)
    else s.respond "MEASUREMENTS" (if ix = 0 then [7] else measBytes l))

/-- KEY_EXCHANGE: a session starts; its response carries a device-key signature (R471). -/
def execKeyExchange (exch : List Byte) (s : State) : Out :=
  s.spdmAsk s.spdm.signing.isNone { s.sign (.keyExchange exch) with spdm := { s.spdm with signing := some (.keyExchange exch, s.clk.ns), session := 1 } }

/-- FINISH: the session's handshake completed where its message holds (R471). -/
def execFinish (mac : List Byte) (s : State) : Out :=
  s.spdmAsk (s.spdm.session == 1 && s.spdm.signing.isNone && Config.spdmFinishOk s.clk.ns mac)
    ({ s with spdm := { s.spdm with session := 2 } }.respond "FINISH_RSP" (Config.spdmBytes 0x65 []))

/-- END_SESSION (R471). -/
def execEndSession (s : State) : Out :=
  s.spdmAsk (s.spdm.session == 2) ({ s with spdm := { s.spdm with session := 0 } }.respond "END_SESSION_ACK" (Config.spdmBytes 0x6C []))

/-- The signed response of a job: the values it returns, and the signature over its transcript (R470, R474). -/
def SignJob.response : SignJob → String × List Byte
  | .challenge _ n => ("CHALLENGE_AUTH", Config.spdmBytes 0x03 (blockBytes n) ++ signature (Config.spdmBytes 0x83 (blockBytes n)))
  | .measurements n l => ("MEASUREMENTS", measBytes l ++ signature (Config.spdmBytes 0xE0 (blockBytes n ++ measBytes l)))
  | .keyExchange e => ("KEY_EXCHANGE_RSP", Config.spdmBytes 0x64 e ++ signature (Config.spdmBytes 0xE4 e))

/-- SPDM_SIGN_DONE: the signed response is sent (R470). -/
def execSpdmSignDone (s : State) : Out :=
  match s.spdm.signing with
  | none => .next s
  | some (j, _) => happen s.spdmOn s ({ s with spdm := { s.spdm with signing := none } }.respond j.response.1 j.response.2)

end Sys2Proof.Machine
end

