-- ==== Sys2Proof/Machine/Dispatch.lean ====
section
/-! DEFINITION. The dispatcher: one arm for each command of spec/opcode_table.json, in the table's order. -/

namespace Sys2Proof.Machine

/-- The effect of a command on everything but the queue. -/
def exec (i : Instr) (s : State) : Host.Outcome State Fault Refusal :=
  match i with
  | .milepost => Sys2Proof.Machine.execMilepost s
  | .moduleReady => Sys2Proof.Machine.execModuleReady s
  | .ready l b => Sys2Proof.Machine.execReady l b s
  | .dueTime g => Sys2Proof.Machine.execDueTime g s
  | .stretch l b => Sys2Proof.Machine.execStretch l b s
  | .deadline g => Sys2Proof.Machine.execDeadline g s
  | .policyWrite g v => Sys2Proof.Machine.execPolicyWrite g v s
  | .abandon l b => Sys2Proof.Machine.execAbandon l b s
  | .paceEdge => Sys2Proof.Machine.execPaceEdge s
  | .paceWindowEnd => Sys2Proof.Machine.execPaceWindowEnd s
  | .paceAcquireTimeout => Sys2Proof.Machine.execPaceAcquireTimeout s
  | .due l b => Sys2Proof.Machine.execDue l b s
  | .realign v => Sys2Proof.Machine.execRealign v s
  | .timeSymbolSend => Sys2Proof.Machine.execTimeSymbolSend s
  | .time l b => Sys2Proof.Machine.execTime l b s
  | .timeSet hi => Sys2Proof.Machine.execTimeSet hi s
  | .timeNowRead => Sys2Proof.Machine.execTimeNowRead s
  | .legNoRead => Sys2Proof.Machine.execLegNoRead s
  | .joinMarker l b => Sys2Proof.Machine.execJoinMarker l b s
  | .arrayLoad c => Sys2Proof.Machine.execArrayLoad c s
  | .arrayFeed c st => Sys2Proof.Machine.execArrayFeed c st s
  | .gatherDeadline c => Sys2Proof.Machine.execGatherDeadline c s
  | .arrayReverse c st => Sys2Proof.Machine.execArrayReverse c st s
  | .arrayWgrad c st => Sys2Proof.Machine.execArrayWgrad c st s
  | .arrayOpEnd c k => Sys2Proof.Machine.execArrayOpEnd c k s
  | .caddyBind c z => Sys2Proof.Machine.execCaddyBind c z s
  | .caddyPush c z => Sys2Proof.Machine.execCaddyPush c z s
  | .caddyPop c z => Sys2Proof.Machine.execCaddyPop c z s
  | .caddyCopyDone e k => Sys2Proof.Machine.execCaddyCopyDone e k s
  | .gather c z host => Sys2Proof.Machine.execGather c z host s
  | .scatter c z host => Sys2Proof.Machine.execScatter c z host s
  | .segReduce c z => Sys2Proof.Machine.execSegReduce c z s
  | .sort c z => Sys2Proof.Machine.execSort c z s
  | .compact c z => Sys2Proof.Machine.execCompact c z s
  | .kettleOpen c z => Sys2Proof.Machine.execKettleOpen c z s
  | .kettleAdd c z => Sys2Proof.Machine.execKettleAdd c z s
  | .kettleDrain c z host => Sys2Proof.Machine.execKettleDrain c z host s
  | .kettleDiscard c z => Sys2Proof.Machine.execKettleDiscard c z s
  | .sparseCompress c z => Sys2Proof.Machine.execSparseCompress c z s
  | .bitmapPack c z => Sys2Proof.Machine.execBitmapPack c z s
  | .bitmapDecode c z => Sys2Proof.Machine.execBitmapDecode c z s
  | .mergeOpEnd c => Sys2Proof.Machine.execMergeOpEnd c s
  | .vecRun c z => Sys2Proof.Machine.execVecRun c z s
  | .vecRunEnd c => Sys2Proof.Machine.execVecRunEnd c s
  | .softmaxFwd c z => Sys2Proof.Machine.execSoftmaxFwd c z s
  | .softmaxBwd c z => Sys2Proof.Machine.execSoftmaxBwd c z s
  | .lnFwd c z => Sys2Proof.Machine.execLnFwd c z s
  | .lnBwd c z => Sys2Proof.Machine.execLnBwd c z s
  | .rmsFwd c z => Sys2Proof.Machine.execRmsFwd c z s
  | .rmsBwd c z => Sys2Proof.Machine.execRmsBwd c z s
  | .kdLoss c z => Sys2Proof.Machine.execKdLoss c z s
  | .statSave c z => Sys2Proof.Machine.execStatSave c z s
  | .statLoad c z => Sys2Proof.Machine.execStatLoad c z s
  | .rowOpEnd c => Sys2Proof.Machine.execRowOpEnd c s
  | .tensorMoveLoad c z host => Sys2Proof.Machine.execTensorMoveLoad c z host s
  | .tensorMoveStore c z host => Sys2Proof.Machine.execTensorMoveStore c z host s
  | .tensorMoveLocal c z => Sys2Proof.Machine.execTensorMoveLocal c z s
  | .accessOpEnd c => Sys2Proof.Machine.execAccessOpEnd c s
  | .nop c f => Sys2Proof.Machine.execNop c f s
  | .movi c f => Sys2Proof.Machine.execMovi c f s
  | .alu c f => Sys2Proof.Machine.execAlu c f s
  | .alui c f => Sys2Proof.Machine.execAlui c f s
  | .br c f => Sys2Proof.Machine.execBr c f s
  | .setlc c f => Sys2Proof.Machine.execSetlc c f s
  | .loop c f => Sys2Proof.Machine.execLoop c f s
  | .getsum c f => Sys2Proof.Machine.execGetsum c f s
  | .getfmt c f => Sys2Proof.Machine.execGetfmt c f s
  | .gettime c f => Sys2Proof.Machine.execGettime c f s
  | .setseed c f => Sys2Proof.Machine.execSetseed c f s
  | .onend c f => Sys2Proof.Machine.execOnend c f s
  | .patch c f => Sys2Proof.Machine.execPatch c f s
  | .cadd c f => Sys2Proof.Machine.execCadd c f s
  | .waitge c f => Sys2Proof.Machine.execWaitge c f s
  | .semsig c f => Sys2Proof.Machine.execSemsig c f s
  | .semwait c f => Sys2Proof.Machine.execSemwait c f s
  | .arrive c f => Sys2Proof.Machine.execArrive c f s
  | .barrierRound g => Sys2Proof.Machine.execBarrierRound g s
  | .fence c f => Sys2Proof.Machine.execFence c f s
  | .gate c f => Sys2Proof.Machine.execGate c f s
  | .onstatus c f => Sys2Proof.Machine.execOnstatus c f s
  | .legEnd c f => Sys2Proof.Machine.execLegEnd c f s
  | .engineOpIssue c f => Sys2Proof.Machine.execEngineOpIssue c f s
  | .unitShutdownDone c u => Sys2Proof.Machine.execUnitShutdownDone c u s
  | .unitPowerUpDone c u => Sys2Proof.Machine.execUnitPowerUpDone c u s
  | .corePowerDown c => Sys2Proof.Machine.execCorePowerDown c s
  | .corePowerUp c => Sys2Proof.Machine.execCorePowerUp c s
  | .programChunk c n data crc => Sys2Proof.Machine.execProgramChunk c n data crc s
  | .broadcastRepair => Sys2Proof.Machine.execBroadcastRepair s
  | .govDecision f => Sys2Proof.Machine.execGovDecision f s
  | .placementProposal host => Sys2Proof.Machine.execPlacementProposal host s
  | .mapVersionBuilt => Sys2Proof.Machine.execMapVersionBuilt s
  | .lossOfSignal l => Sys2Proof.Machine.execLossOfSignal l s
  | .linkSignalDetect l => Sys2Proof.Machine.execLinkSignalDetect l s
  | .linkTrained l id => Sys2Proof.Machine.execLinkTrained l id s
  | .linkTrainingFail l => Sys2Proof.Machine.execLinkTrainingFail l s
  | .laneRetire l lane => Sys2Proof.Machine.execLaneRetire l lane s
  | .sparingDone l => Sys2Proof.Machine.execSparingDone l s
  | .dataFlit l h p fec => Sys2Proof.Machine.execDataFlit l h p fec s
  | .done l h fec => Sys2Proof.Machine.execDone l h fec s
  | .ack l b => Sys2Proof.Machine.execAck l b s
  | .nak l b => Sys2Proof.Machine.execNak l b s
  | .ackTimer l => Sys2Proof.Machine.execAckTimer l s
  | .halt l b => Sys2Proof.Machine.execHalt l b s
  | .post => Sys2Proof.Machine.execPost s
  | .mark => Sys2Proof.Machine.execMark s
  | .compare => Sys2Proof.Machine.execCompare s
  | .compareDone => Sys2Proof.Machine.execCompareDone s
  | .adopt image => Sys2Proof.Machine.execAdopt image s
  | .adoptDone => Sys2Proof.Machine.execAdoptDone s
  | .memRetrainDone d ok => Sys2Proof.Machine.execMemRetrainDone d ok s
  | .scrub d line fixed bad last => Sys2Proof.Machine.execScrub d line fixed bad last s
  | .cxlMemRead a => Sys2Proof.Machine.execCxlMemRead a s
  | .cxlMemWrite a data poison => Sys2Proof.Machine.execCxlMemWrite a data poison s
  | .snpInv a => Sys2Proof.Machine.execSnpInv a s
  | .snpData a => Sys2Proof.Machine.execSnpData a s
  | .snpCur a => Sys2Proof.Machine.execSnpCur a s
  | .watchPoll r => Sys2Proof.Machine.execWatchPoll r s
  | .watchLineRead r reply => Sys2Proof.Machine.execWatchLineRead r reply s
  | .descTake r d => Sys2Proof.Machine.execDescTake r d s
  | .completionWriteFail r => Sys2Proof.Machine.execCompletionWriteFail r s
  | .hostAbort q => Sys2Proof.Machine.execHostAbort q s
  | .hostCompletionTimeout q => Sys2Proof.Machine.execHostCompletionTimeout q s
  | .ringEnable r v => Sys2Proof.Machine.execRingEnable r v s
  | .ringDisable r v => Sys2Proof.Machine.execRingDisable r v s
  | .loadProgram host => Sys2Proof.Machine.execLoadProgram host s
  | .runLegs => Sys2Proof.Machine.execRunLegs s
  | .runLegsStart g => Sys2Proof.Machine.execRunLegsStart g s
  | .move host => Sys2Proof.Machine.execMove host s
  | .fill => Sys2Proof.Machine.execFill s
  | .hostDmaDone => Sys2Proof.Machine.execHostDmaDone s
  | .setTable host => Sys2Proof.Machine.execSetTable host s
  | .join host => Sys2Proof.Machine.execJoin host s
  | .release => Sys2Proof.Machine.execRelease s
  | .descFence r => Sys2Proof.Machine.execDescFence r s
  | .descFenceDone r => Sys2Proof.Machine.execDescFenceDone r s
  | .recordMark => Sys2Proof.Machine.execRecordMark s
  | .query host => Sys2Proof.Machine.execQuery host s
  | .trayRstNAssert => Sys2Proof.Machine.execTrayRstNAssert s
  | .trayRstNRelease => Sys2Proof.Machine.execTrayRstNRelease s
  | .bootVerifyDone => Sys2Proof.Machine.execBootVerifyDone s
  | .fwStartDone => Sys2Proof.Machine.execFwStartDone s
  | .startupTestDone t => Sys2Proof.Machine.execStartupTestDone t s
  | .memoryTrainingDone ds => Sys2Proof.Machine.execMemoryTrainingDone ds s
  | .moduleReset v => Sys2Proof.Machine.execModuleReset v s
  | .cpReset v => Sys2Proof.Machine.execCpReset v s
  | .cpPowerOff => Sys2Proof.Machine.execCpPowerOff s
  | .cpTestDone t => Sys2Proof.Machine.execCpTestDone t s
  | .cpResetDone => Sys2Proof.Machine.execCpResetDone s
  | .push v => Sys2Proof.Machine.execPush v s
  | .update v => Sys2Proof.Machine.execUpdate v s
  | .imgDone image flashOk => Sys2Proof.Machine.execImgDone image flashOk s
  | .recordClear v => Sys2Proof.Machine.execRecordClear v s
  | .hostPerstNAssert => Sys2Proof.Machine.execHostPerstNAssert s
  | .hostPerstNRelease => Sys2Proof.Machine.execHostPerstNRelease s
  | .powerSample pkg inp => Sys2Proof.Machine.execPowerSample pkg inp s
  | .thermalSample junction => Sys2Proof.Machine.execThermalSample junction s
  | .hbmTempReport stack t => Sys2Proof.Machine.execHbmTempReport stack t s
  | .thermalStep => Sys2Proof.Machine.execThermalStep s
  | .droopDetect d => Sys2Proof.Machine.execDroopDetect d s
  | .droopHoldEnd d => Sys2Proof.Machine.execDroopHoldEnd d s
  | .droopRise d => Sys2Proof.Machine.execDroopRise d s
  | .opDecision => Sys2Proof.Machine.execOpDecision s
  | .voltageRaiseDone => Sys2Proof.Machine.execVoltageRaiseDone s
  | .pwrCtrlWrite v => Sys2Proof.Machine.execPwrCtrlWrite v s
  | .flowOkLow => Sys2Proof.Machine.execFlowOkLow s
  | .coolantStop => Sys2Proof.Machine.execCoolantStop s
  | .stopHaltLinks => Sys2Proof.Machine.execStopHaltLinks s
  | .stopDescriptorsCut => Sys2Proof.Machine.execStopDescriptorsCut s
  | .stopRailsOff => Sys2Proof.Machine.execStopRailsOff s
  | .inputUndervolt mv => Sys2Proof.Machine.execInputUndervolt mv s
  | .inputOvervolt mv => Sys2Proof.Machine.execInputOvervolt mv s
  | .inputRecovered mv => Sys2Proof.Machine.execInputRecovered mv s
  | .railShort r => Sys2Proof.Machine.execRailShort r s
  | .senseOpen r => Sys2Proof.Machine.execSenseOpen r s
  | .sidebandStuck => Sys2Proof.Machine.execSidebandStuck s
  | .sidebandRetry free => Sys2Proof.Machine.execSidebandRetry free s
  | .captureArm v => Sys2Proof.Machine.execCaptureArm v s
  | .freeze v => Sys2Proof.Machine.execFreeze v s
  | .recSizeWrite v => Sys2Proof.Machine.execRecSizeWrite v s
  | .ringNextRead => Sys2Proof.Machine.execRingNextRead s
  | .replayLoad v => Sys2Proof.Machine.execReplayLoad v s
  | .replayLoadDone lines => Sys2Proof.Machine.execReplayLoadDone lines s
  | .replayGo v => Sys2Proof.Machine.execReplayGo v s
  | .replayFeed => Sys2Proof.Machine.execReplayFeed s
  | .replayStop v => Sys2Proof.Machine.execReplayStop v s
  | .getVersion => Sys2Proof.Machine.execGetVersion s
  | .getCapabilities => Sys2Proof.Machine.execGetCapabilities s
  | .negotiateAlgorithms => Sys2Proof.Machine.execNegotiateAlgorithms s
  | .getDigests => Sys2Proof.Machine.execGetDigests s
  | .getCertificate slot off len => Sys2Proof.Machine.execGetCertificate slot off len s
  | .challenge slot nonce => Sys2Proof.Machine.execChallenge slot nonce s
  | .getMeasurements ix sign nonce => Sys2Proof.Machine.execGetMeasurements ix sign nonce s
  | .keyExchange exch => Sys2Proof.Machine.execKeyExchange exch s
  | .finish mac => Sys2Proof.Machine.execFinish mac s
  | .endSession => Sys2Proof.Machine.execEndSession s
  | .spdmSignDone => Sys2Proof.Machine.execSpdmSignDone s
  | .entdaa addr => Sys2Proof.Machine.execEntdaa addr s
  | .setdasa static addr => Sys2Proof.Machine.execSetdasa static addr s
  | .rstdaa => Sys2Proof.Machine.execRstdaa s
  | .getpid => Sys2Proof.Machine.execGetpid s
  | .getbcr => Sys2Proof.Machine.execGetbcr s
  | .getdcr => Sys2Proof.Machine.execGetdcr s
  | .getstatus => Sys2Proof.Machine.execGetstatus s
  | .sbRead off n => Sys2Proof.Machine.execSbRead off n s
  | .registerWrite off v => Sys2Proof.Machine.execRegisterWrite off v s
  | .flowOkHigh => Sys2Proof.Machine.execFlowOkHigh s
  | .vauxLost => Sys2Proof.Machine.execVauxLost s
  | .cxlConfigWrite cache mem => Sys2Proof.Machine.execCxlConfigWrite cache mem s
  | .hdmDecoderCommit base units => Sys2Proof.Machine.execHdmDecoderCommit base units s
  | .ideKm cachemem key go => Sys2Proof.Machine.execIdeKm cachemem key go s
  | .memInterfaceTemperature d t => Sys2Proof.Machine.execMemInterfaceTemperature d t s
  | .tagAreaFlashWritten => Sys2Proof.Machine.execTagAreaFlashWritten s

end Sys2Proof.Machine
end

