-- ==== Sys2Proof/WellFormed.lean ====
section
/-! DEFINITION. Which commands are well formed: the operands that arrive from outside lie in the ranges that the rules of
their rows give them. The table gives a command no bits, so nothing here concerns an encoding; the meanings are total and
answer on any operands, and a statement that needs a range names it. -/

namespace Sys2Proof

/-- What a start-up test or a fuse map can name: columns 0 to 131 of a core site (R64, R77), BLOCKS in bits 9 to 0 (R78). -/
def SiteDefect.wf (d : SiteDefect) : Bool := d.cols.all (fun c => decide (c < 132)) && decide (d.blocks.toNat < 1024)

/-- Findings of a start-up test within the module: bridges 0 to 3, lanes 0 to 4 of links 0 to 23, ports 0 to 23, memory
devices 0 to 19 and the three Module Controller devices after them (R62, R75, R442). -/
def Defects.wf (t : Defects) : Bool :=
  t.sites.all SiteDefect.wf && t.bridges.all (fun b => decide (b < 4))
    && t.links.all (fun p => decide (p.1 < 24) && decide (p.2 < 5)) && t.ports.all (fun p => decide (p < 24))
    && t.devices.all (fun d => decide (d < 23))

/-- The rows that an array operation's buffer may lack are rows of an operation: at most 65,535 (R108, R124). -/
def Stall.wf (st : Stall) : Bool := st.dry.all (fun p => decide (p.1 < 65535))

/-- A flit's payload is at most 30 units of 16 bytes, 120 words of 32 bits (R320, LEN16). -/
def payloadWf (p : List PWord) : Bool := decide (p.length ≤ 120)

/-- A program chunk is at most 4 KiB, 512 words of 64 bits (R280). -/
def chunkWf (d : List W64) : Bool := decide (d.length ≤ 512)

/-- A command's operands lie in the ranges of its rule. -/
def Instr.wf : Instr → Bool
  | .arrayFeed _ st => st.wf
  | .arrayReverse _ st => st.wf
  | .arrayWgrad _ st => st.wf
  | .programChunk _ _ d _ => chunkWf d
  | .dataFlit _ _ p _ => payloadWf p
  | .scrub _ _ fixed bad _ => fixed.all (fun w => !bad.contains w)
  | .startupTestDone t => t.wf
  | .cpTestDone t => t.wf
  | .memoryTrainingDone ds => decide (ds.length = 20)
  | .sbRead _ n => decide (n ≤ 256)
  | _ => true

end Sys2Proof
end

