-- ==== Sys2Proof/Safety.lean ====
section
/-! DEFINITION. What claims about runs are stated in: the canonical form of the memories, what a command leaves alone,
and the runs that meet a condition all along. -/

namespace Sys2Proof.Machine

/-! ### Canonical form -/

/-- Device memory in canonical form: bytes and poison of both spaces (R364 to R367). -/
def DevMem.canonical (m : DevMem) : Bool := mwf 0 m.hbm && mwf 0 m.ddr && mwf false m.hbmPoison && mwf false m.ddrPoison

/-- A core's store in canonical form: bytes and poison (R240, R367). -/
def Core.storeCanonical (k : Core) : Bool := mwf 0 k.store && mwf false k.storePoison

/-! ### What stands -/

/-- The state but for the record of one core: every field of the module and every other core stand. -/
def State.onlyCore (s t : State) (c : Nat) : Prop :=
  { t with cores := s.cores } = s ∧ ∀ d, d ≠ c → t.core d = s.core d

/-- A core's record but for what its leaf array changes as it runs: the operations at their feeders, on the load port and in
the drains, with their records; pairs; the cells, indices and exponents; the pot and its tickets; the store that runs are
written to; and the counters. Streams, queues, units, semaphores and all the rest stand. -/
def Core.arrayOnly (k k' : Core) : Prop :=
  { k' with
    flows := k.flows, load := k.load, drains := k.drains, arrayRun := k.arrayRun, adv := k.adv, pairs := k.pairs
    planes := k.planes, planePoison := k.planePoison, exps := k.exps, expPoison := k.expPoison, index := k.index
    indexPoison := k.indexPoison, modes := k.modes, secded := k.secded, pot := k.pot, potPoison := k.potPoison
    potHead := k.potHead, potDone := k.potDone, store := k.store, storePoison := k.storePoison, counters := k.counters } = k

/-- The state but for the clocks, and for what the leaf arrays do while they run. -/
def State.onlyClock (s t : State) : Prop :=
  { t with time := s.time, clk := s.clk, power := s.power, cores := s.cores } = s ∧ t.cores = (s.toTime t.time.now).cores

/-- The state but for the record of one core, the clocks, the trace and the free values drawn: what an engine's operation
that reaches no memory beyond its core may change. Every other core is as the clocks leave it. -/
def State.coreAndClock (s t : State) (c : Nat) : Prop :=
  { t with cores := s.cores, time := s.time, clk := s.clk, power := s.power, trace := s.trace, freeIx := s.freeIx } = s
    ∧ ∀ d, d ≠ c → t.core d = (s.toTime t.time.now).core d

/-- An engine has taken the operation `o` off its queue and runs it, to end with the status `st` after `cy` cycles: every
other queue and every other engine, the streams, the counters, the semaphores and the program stand, and the pot ticket
of `o` is served (R131, R265). -/
def Core.took (k k' : Core) (e : Eng) (o : Op) (st cy : Nat) : Prop :=
  k'.queue e = (k.queue e).filter (fun q => q.id != o.id)
  ∧ (∀ d, d ≠ e → k'.queue d = k.queue d ∧ k'.running d = k.running d)
  ∧ (∃ r ∈ k'.running e, r.op = o ∧ r.status = st ∧ r.cycles = cy)
  ∧ k'.potHead = (k.potPassOp o).potHead
  ∧ (∀ f, k'.stream f = k.stream f) ∧ k'.ctrs = k.ctrs ∧ k'.sems = k.sems ∧ k'.program = k.program

/-- A stream may execute its next instruction: the instruction's cycle has come, or the clock that brings it runs (R263). -/
def State.mayRun (s : State) (c : Nat) (f : StreamId) : Prop := ((s.core c).stream f).next ≤ s.cycles ∨ s.clk.stopped = false

/-- The module in the cycle in which a stream's next instruction executes, the words corrected at its fetch counted (R263, R283). -/
def State.fetched (s : State) (c : Nat) (f : StreamId) : State :=
  (s.seqAt c f).updCore c (fun k => k.count 0x160 (k.fetchFlips f))

/-- What an instruction that only writes its own stream leaves: the stream, in the instruction's cycle, one instruction counted
and the cycles that it waited (R111, R263, R288). -/
def State.streamIs (s : State) (c : Nat) (f : StreamId) (x : Stream) : State :=
  let u := s.fetched c f
  u.updCore c (fun k => (k.setStream f { x with next := u.cycles + 1, waiting := none }).counts [(0x130, 1), (0x148, x.waited u.cycles)])

/-- What a stream that waits leaves: it tries again in the next cycle, and the cycle is counted at `ctr` (R263, R288). -/
def State.waits (s : State) (c : Nat) (f : StreamId) (ctr : Nat) : State :=
  let u := s.fetched c f
  let x := (u.core c).stream f
  u.updCore c (fun k => (k.setStream f { x with next := u.cycles + 1, waiting := some (u.cycles + 1) }).count ctr (x.waited u.cycles + 1))

/-- The device memory byte at an address of a space. (DESIGN CHOICE, log 11) -/
def State.byteAt (s : State) (sp : Space) (a : Nat) : Byte := mget 0 (s.mem.bytes sp) a

/-- The poison of the device word at a word index of a space. -/
def State.poisonAt (s : State) (sp : Space) (w : Nat) : Bool := mget false (s.mem.poison sp) w

/-- The core-store byte of a core at an address. -/
def Core.byteAt (k : Core) (a : Nat) : Byte := mget 0 k.store a

/-- A sync block that is taken: its link carries such blocks, its CRC is good and its origin's number has not been seen (R317,
R324, R326). -/
def State.hears (s : State) (l : Nat) (b : Block) : Prop :=
  s.carries l = true ∧ blockGood b = true ∧ ((syncOf b).origin, (syncOf b).id) ∉ s.lnk.seen

/-- A descriptor completed at a time: it is no longer taken, and its entry is written at the tail of its ring's completion queue, or held where
the ring is failing (R399 to R401). -/
def State.completedAt (s t : State) (d : Desc) (tm status d0 d1 : Nat) : Prop :=
  (∀ q ∈ t.host.descs, q.order ≠ d.order)
  ∧ ((s.ring d.ring).failing = false → s.feeding = false → s.side.perstN = true →
      Output.hostWrite ((s.ring d.ring).cqBase.toNat + 32 * (s.ring d.ring).cqTail)
        (blockBytes (cqEntry tm d.tag status d.type (s.ring d.ring).sqHead d0 d1 (b2n (s.ring d.ring).phase) d.slot)) false ∈ t.outbox)
  ∧ ((s.ring d.ring).failing = true ∨ s.portHeld = true → (t.ring d.ring).held = (s.ring d.ring).held
      ++ [cqEntry tm d.tag status d.type (s.ring d.ring).sqHead d0 d1 (b2n (s.ring d.ring).phase) d.slot])

/-- A descriptor completed now. -/
def State.completed (s t : State) (d : Desc) (status d0 d1 : Nat) : Prop := s.completedAt t d s.time.now status d0 d1

/-- The registers, memories and tables of the computation: cores, device memory and groups. -/
def State.work (s : State) : Mem Core × DevMem × Mem Group := (s.cores, s.mem, s.groups)

/-- Every byte of a virtual range translates for a kind of access to device memory that is present, off the post lines and the
checker's line and below the reserved region, so that a write there reaches memory alone and no page-table entry (R255 to R258,
R371, R372). -/
def State.storable (s : State) (va n : Nat) (k : Acc) : Prop :=
  ∀ x, va ≤ x → x < va + n → ∃ t pa, s.xlate x k = .inr (t, pa) ∧ t ≠ 2 ∧ s.postHit (spaceOf t) pa = false ∧ s.memLost (spaceOf t) pa = false
    ∧ (t = 0 → pa + 4 ≤ s.plan.resBase)

/-! ### Safe runs -/

/-- A run of `n` steps in which every state meets a condition. -/
def State.safeFor (p : State → Prop) : Nat → State → Prop
  | 0, s => p s
  | n + 1, s => p s ∧ ∃ t, step s = .next t ∧ State.safeFor p n t

end Sys2Proof.Machine
end

