-- ==== Sys2Proof/Certificates/Slice0/Obligations.lean ====
section
/-! DEFINITION. The statements about the module, for the provers. Each names in its docstring the rules it says; a
statement that rests on a choice of the model names the log entry. Statements of a command's effect have as their
conclusion the next state that `exec` answers, or what holds of it. -/

open Sys2Proof Sys2Proof.Machine

/-! ### The machine -/

/-- One step runs the command at the front of the queue on the state with the rest of the queue; with none waiting the module's own clocks run on one nanosecond, which
is the model's own reading of an idle block (log entry 2). -/
def Obligations.StepRunsFrontCommand : Prop :=
  ∀ (s : State) (c : Instr) (r : List Instr),
    step { s with pending := c :: r } = exec c { s with pending := r }
    ∧ step { s with pending := [] } = .next ({ s with pending := [] } : State).tick ∧ ({ s with pending := [] } : State).tick.clk.ns = s.clk.ns + 1

/-- Every command answers a next state and leaves the queue of waiting commands as it is: none stops the module, none sends another.
Some clauses take the model's own reading where the rules leave one open (log entry 3). -/
def Obligations.CommandsAnswerAndKeepQueue : Prop :=
  ∀ (i : Instr) (s : State), ∃ t, exec i s = .next t ∧ t.pending = s.pending

/-- Every step keeps device memory canonical: bytes and poison of HBM4 and DDR5 stay listed at rising addresses, with no entry that reads as an unlisted one does. -/
def Obligations.EveryStepKeepsMemoryCanonical : Prop :=
  ∀ s t : State, s.mem.canonical = true → step s = .next t → t.mem.canonical = true

/-- What reset leaves: no step has run, the module is held in reset by TRAY_RST_N (R422), no descriptor, group, leg or transfer is there, every ring is disabled, no core runs, pace is
OFF, and the registers read the reset values of their tables (R60, R393, R395, R467, R482). Memory is canonical.
Some clauses take the model's own reading where the rules leave one open (log entry 1). -/
def Obligations.ResetState : Prop :=
  let s := State.reset
  s.pending = [] ∧ s.mem.canonical = true ∧ s.boot.inReset = true ∧ s.side.trayRstN = false ∧ s.boot.st = .rom ∧ s.series = none ∧ s.groups = [] ∧ s.cores = [] ∧ s.host.descs = []
    ∧ s.lnk.xfers = [] ∧ s.pace.st = .off ∧ s.adopt = none ∧ s.spdm = {} ∧ s.trace.replay = .off ∧ (∀ r < 64, (s.ring r).enable = false ∧ (s.ring r).stopped = true) ∧ (∀ l < 24, (s.link l).st = .down)
    ∧ s.timeReg 0x08 = 1 ∧ s.timeReg 0x20 = 0x100 ∧ s.powerReg 0x00 = 0x03E80083 ∧ s.powerReg 0x04 = 0x30080A28 ∧ s.recReg 0x00 = 0xC00000FE ∧ s.recReg 0x04 = 0x08000000
    ∧ s.readReg 0x0100 = 1 ∧ s.readReg 0x4010 = 1 ∧ s.power.k 0 = 64

/-- R364 to R367: device memory. A run of bytes written reads back, a clean word clears its poison and a poisoned one keeps it; every byte outside the run stands; the post lines and the checker's line store
nothing; a lost device takes nothing.
Some clauses take the model's own reading where the rules leave one open (log entry 12). -/
def Obligations.DeviceMemoryReadAfterWrite : Prop :=
  ∀ (s : State) (sp : Space) (a : Nat) (ds : List PByte),
    let t := s.devWrite sp a ds false
    (s.postHit sp a = false → s.memLost sp a = false →
      (∀ i < ds.length, t.byteAt sp (a + i) = (nth (0, false) ds i).1) ∧ (∀ x, (x < a ∨ a + ds.length ≤ x) → t.byteAt sp x = s.byteAt sp x)
      ∧ (∀ q x, q ≠ sp → t.byteAt q x = s.byteAt q x ∧ t.poisonAt q x = s.poisonAt q x) ∧ (∀ i < ds.length, (nth (0, false) ds i).2 = true → t.poisonAt sp ((a + i) / 4) = true)
      ∧ (∀ w, a ≤ 4 * w → 4 * w + 4 ≤ a + ds.length → (∀ i < 4, (nth (0, false) ds (4 * w + i - a)).2 = false) → t.poisonAt sp w = false)
      ∧ (∀ w, (4 * w + 4 ≤ a ∨ a + ds.length ≤ 4 * w) → t.poisonAt sp w = s.poisonAt sp w))
    ∧ (s.postHit sp a = true ∨ s.memLost sp a = true → t.mem = s.mem)
    ∧ t.cores = s.cores ∧ t.groups = s.groups ∧ t.host = s.host

/-- R430: the fused security floor. A start that reaches READY with an image of RAISE_FLOOR 1 whose SEC_VERSION is above the floor raises it to that SEC_VERSION; no step lowers it; it stays within 0 to 63, as
the running image's SEC_VERSION does; and an image with SEC_VERSION above 63 fails verification with result 2. -/
def Obligations.SecurityFloor : Prop :=
  let within (s : State) : Prop := s.secFloor ≤ 63 ∧ ∀ i, s.boot.running = some i → i.secVersion ≤ 63
  (∀ s t : State, step s = .next t → s.secFloor ≤ t.secFloor ∧ (within s → within t))
    ∧ (∀ (s t : State) ds i, exec (.memoryTrainingDone ds) s = .next t → s.boot.st = .train → t.boot.st = .ready → s.boot.running = some i →
        t.secFloor = (if i.raiseFloor = true ∧ s.secFloor < i.secVersion then i.secVersion else s.secFloor))
    ∧ (∀ (s : State) b, 63 < imgField b 4 2 → s.verifyImage b = 2)

/-- R47: slewing. With nothing commanded, the time base moves on by 1 ns, 2 ns or not at all as the offset asks, a correction comes at most once in 10 µs and takes 1 ns off the offset, and the time base never moves
backwards. -/
def Obligations.SlewingNeverMovesBack : Prop :=
  ∀ s : State, s.pending = [] → ∃ t, step s = .next t ∧ s.time.now ≤ t.time.now ∧ t.time.now ≤ s.time.now + 2
    ∧ (s.time.slewNs + 1 < 10000 → t.time.offset = s.time.offset ∧ t.time.now = s.time.now + 1 ∧ t.time.slewNs = s.time.slewNs + 1)
    ∧ (10000 ≤ s.time.slewNs + 1 → t.time.slewNs = 0 ∧ (s.time.syncEn = true → t.time.offset = s.time.offset - s.time.offset.sign ∧ (t.time.now : Int) = s.time.now + 1 + s.time.offset.sign))

/-! ### The sequencer (10) -/

/-- R263, R267: the instructions that only write their own stream's registers, on any stream whose fetch gives them. Each executes in its stream's next cycle, moves the 13-bit PC on by one
and counts one instruction, and the cycles that it waited; nothing else of the module changes, but for what the clocks do until that cycle. R267: the operations of ALU and ALUI by AUX, modulo 2^64, with logical shifts by the whole
second operand and signed minimum and maximum.
Some clauses take the model's own reading where the rules leave one open (log entry 5). R267, R270: BR and LOOP. A branch not taken falls through; one taken goes to IMM[12:0] when that lies below LEN_WORDS, and else ends the stream. LOOP
writes its counter either way. -/
def Obligations.SeqRegistersAndBranches : Prop :=
  ((∀ (s : State) (c : CoreIx) (f : StreamId) (i : Ctl), (s.core c.val).fetch f = .ctl i → s.mayRun c.val f →
        let x := (s.core c.val).stream f
        let u := s.fetched c.val f
        let y := { x with pc := (x.pc + 1) % 8192 }
        let imm : W64 := BitVec.signExtend 64 (BitVec.ofNat 32 i.imm)
        let e := mget ({} : FmtEntry) s.fmt (i.imm % 16384)
        (i.op = 0x80 → exec (.nop c f) s = .next (s.streamIs c.val f y))
        ∧ (i.op = 0x81 → exec (.movi c f) s = .next (s.streamIs c.val f { y with regs := mset 0 x.regs i.sd imm }))
        ∧ (i.op = 0x82 → exec (.alu c f) s = .next (s.streamIs c.val f
            { y with regs := mset 0 x.regs i.sd (aluOp i.aux (mget 0 x.regs i.sa) (mget 0 x.regs i.sb)) }))
        ∧ (i.op = 0x83 → exec (.alui c f) s = .next (s.streamIs c.val f
            { y with regs := mset 0 x.regs i.sd (aluOp i.aux (mget 0 x.regs i.sa) imm) }))
        ∧ (i.op = 0x85 → exec (.setlc c f) s = .next (s.streamIs c.val f { y with lcs := mset 0 x.lcs i.aux (BitVec.ofNat 32 i.imm) }))
        ∧ (i.op = 0x88 → exec (.getfmt c f) s = .next (s.streamIs c.val f
            { y with regs := mset 0 x.regs i.sd (BitVec.ofInt 56 e.scaleExp ++ BitVec.ofNat 8 (e.current % 4)) }))
        ∧ (i.op = 0x89 → exec (.gettime c f) s = .next (s.streamIs c.val f
            { y with regs := mset 0 x.regs i.sd (BitVec.ofNat 64 (if i.aux = 0 then u.time.now else s.legNow)) }))
        ∧ (i.op = 0x8A → exec (.setseed c f) s = .next (s.streamIs c.val f { y with seedLeg := (mget 0 x.regs i.sa).toNat % 2 ^ 48 }))
        ∧ (i.op = 0x94 → exec (.onstatus c f) s = .next (s.streamIs c.val f { y with cont := i.aux == 1 }))
        ∧ (i.op = 0x95 → exec (.legEnd c f) s = .next (s.streamIs c.val f { y with phase := .ended }))
        ∧ x.next ≤ u.cycles ∧ (x.next ≤ s.cycles → u.time = s.time ∧ u.clk = s.clk) ∧ (∀ d, d ≠ c.val → u.core d = (s.toTime u.time.now).core d))
   ∧ (∀ a b : W64,
        aluOp 0 a b = BitVec.ofNat 64 (a.toNat + b.toNat)
        ∧ aluOp 1 a b = BitVec.ofInt 64 (a.toInt - b.toInt)
        ∧ (∀ j < 64, (aluOp 2 a b).getLsbD j = (a.getLsbD j && b.getLsbD j))
        ∧ (∀ j < 64, (aluOp 3 a b).getLsbD j = (a.getLsbD j || b.getLsbD j))
        ∧ (∀ j < 64, (aluOp 4 a b).getLsbD j = (a.getLsbD j != b.getLsbD j))
        ∧ (aluOp 5 a b).toNat = a.toNat * 2 ^ b.toNat % 2 ^ 64
        ∧ (aluOp 6 a b).toNat = a.toNat / 2 ^ b.toNat
        ∧ (aluOp 7 a b).toInt = min a.toInt b.toInt
        ∧ (aluOp 8 a b).toInt = max a.toInt b.toInt))
  ∧ (∀ (s : State) (c : CoreIx) (f : StreamId) (i : Ctl) (p : Program), (s.core c.val).fetch f = .ctl i → s.mayRun c.val f →
       (s.core c.val).program = some p →
       let x := (s.core c.val).stream f
       let u := s.fetched c.val f
       let a := mget 0 x.regs i.sa
       let b := mget 0 x.regs i.sb
       let v : W32 := mget 0 x.lcs i.aux - 1
       let holds : Prop := (i.cond = 0 ∨ (i.cond = 1 ∧ a = b) ∨ (i.cond = 2 ∧ a ≠ b) ∨ (i.cond = 3 ∧ a.toInt < b.toInt)
         ∨ (i.cond = 4 ∧ b.toInt ≤ a.toInt) ∨ (i.cond = 5 ∧ a.toNat < b.toNat) ∨ (i.cond = 6 ∧ b.toNat ≤ a.toNat))
       (i.op = 0x84 → i.cond ≤ 6 → ¬ holds → exec (.br c f) s = .next (s.streamIs c.val f { x with pc := (x.pc + 1) % 8192 }))
       ∧ (i.op = 0x84 → holds → i.imm % 8192 < p.len → exec (.br c f) s = .next (s.streamIs c.val f { x with pc := i.imm % 8192 }))
       ∧ (i.op = 0x84 → holds → p.len ≤ i.imm % 8192 → exec (.br c f) s = .next (u.seqStop c.val f 0x71 0x84))
       ∧ (i.op = 0x86 → v = 0 → exec (.loop c f) s = .next (s.streamIs c.val f { x with pc := (x.pc + 1) % 8192, lcs := mset 0 x.lcs i.aux 0 }))
       ∧ (i.op = 0x86 → v ≠ 0 → i.imm % 8192 < p.len →
           exec (.loop c f) s = .next (s.streamIs c.val f { x with pc := i.imm % 8192, lcs := mset 0 x.lcs i.aux v }))
       ∧ (i.op = 0x86 → v ≠ 0 → p.len ≤ i.imm % 8192 → exec (.loop c f) s = .next (u.seqStop c.val f 0x71 0x86)))

/-- R263, R267, R272, R273: the instructions that use the core's counters and semaphores, and the waits. A counter is added to modulo 2^32 and a semaphore by 1, and what other instructions of the same cycle
read stands until the cycle's end. A wait that is satisfied moves PC on; one that is not tries again in the next cycle. The streams that wait for a semaphore are granted it in rotation from its pointer, as far as its count reaches.
Some clauses take the model's own reading where the rules leave one open (log entry 34). -/
def Obligations.SeqCountersSemaphores : Prop :=
  (∀ (s : State) (c : CoreIx) (f : StreamId) (i : Ctl), (s.core c.val).fetch f = .ctl i → s.mayRun c.val f →
    let u := s.fetched c.val f
    let k := u.core c.val
    let x := k.stream f
    let done := s.streamIs c.val f { x with pc := (x.pc + 1) % 8192 }
    let waits := Host.Outcome.next (φ := Fault) (ρ := Refusal) (s.waits c.val f 0x148)
    let sem : W16 := mget 0 k.sems i.aux
    let p := k.semAt i.aux u.cycles
    (i.op = 0x8D → ∃ t, exec (.cadd c f) s = .next t ∧ done.onlyCore t c.val
        ∧ { t.core c.val with ctrs := k.ctrs, ctrPast := k.ctrPast } = { done.core c.val with ctrs := k.ctrs, ctrPast := k.ctrPast }
        ∧ (t.core c.val).ctrs = mset 0 k.ctrs i.aux (mget 0 k.ctrs i.aux + BitVec.ofNat 32 i.imm)
        ∧ ∀ j, (t.core c.val).ctrAt j u.cycles = k.ctrAt j u.cycles)
    ∧ (i.op = 0x8E → i.imm ≤ (k.ctrAt i.aux u.cycles).toNat → exec (.waitge c f) s = .next done)
    ∧ (i.op = 0x8E → (k.ctrAt i.aux u.cycles).toNat < i.imm → exec (.waitge c f) s = waits)
    ∧ (i.op = 0x8F → sem ≠ 0xFFFF → ∃ t, exec (.semsig c f) s = .next t ∧ done.onlyCore t c.val
        ∧ { t.core c.val with sems := k.sems, semPast := k.semPast } = { done.core c.val with sems := k.sems, semPast := k.semPast }
        ∧ (t.core c.val).sems = mset 0 k.sems i.aux (sem + 1) ∧ ∀ j, (t.core c.val).semAt j u.cycles = k.semAt j u.cycles)
    ∧ (i.op = 0x8F → sem = 0xFFFF → exec (.semsig c f) s = .next (u.seqStop c.val f 0x72 0x8F))
    ∧ (i.op = 0x90 → k.semAhead i.aux u.cycles f < p.avail → ∃ t, exec (.semwait c f) s = .next t ∧ done.onlyCore t c.val
        ∧ { t.core c.val with sems := k.sems, semPast := k.semPast, arb := k.arb } = { done.core c.val with sems := k.sems, semPast := k.semPast, arb := k.arb }
        ∧ (t.core c.val).sems = mset 0 k.sems i.aux (sem - 1) ∧ ((t.core c.val).semAt i.aux u.cycles).avail = p.avail - 1)
    ∧ (i.op = 0x90 → p.avail ≤ k.semAhead i.aux u.cycles f → exec (.semwait c f) s = waits)
    ∧ (i.op = 0x92 → k.inCycle (anyEnd f) u.cycles = false → (∀ e, k.streamBusy f e = false) → exec (.fence c f) s = .next done)
    ∧ (i.op = 0x92 → (k.inCycle (anyEnd f) u.cycles = true ∨ ∃ e, k.streamBusy f e = true) → exec (.fence c f) s = waits))
  ∧ (∀ (k : Core) (i t : Nat), ((mget (0, 0) k.ctrPast i).1 ≠ t + 1 → k.ctrAt i t = mget 0 k.ctrs i)
      ∧ ((mget {} k.semPast i).cyc ≠ t + 1 → (k.semAt i t).avail = (mget 0 k.sems i).toNat ∧ (k.semAt i t).ptr = mget 0 k.arb (semArb i)))
  ∧ (∀ (k : Core) (i t : Nat) (f : StreamId), (∀ g, g ≠ f → k.wantsSem i t g = false) → k.semAhead i t f = 0)

/-- R267, R269, R274, R284, R287: GETSUM, the two forms of a prefix, ARRIVE and GATE, with where each stops its stream. A status
summary is read without a wait and cleared; another waits for the stream's most recent operation on its engine. A unit that is named by GATE and ON waits to shut down, or shuts down at once when it has nothing; one to which an
operation was issued in the same cycle stays ON. R274: a barrier round completes when every participant has arrived: the semaphore that its own arrival named takes one more, and a
full one stays.
Some clauses take the model's own reading where the rules leave one open (log entries 34, 75). -/
def Obligations.SeqSummariesPrefixesArrivals : Prop :=
  (∀ (s : State) (c : CoreIx) (f : StreamId) (i : Ctl), (s.core c.val).fetch f = .ctl i → s.mayRun c.val f →
       let u := s.fetched c.val f
       let k := u.core c.val
       let x := k.stream f
       let y := { x with pc := (x.pc + 1) % 8192 }
       let z := { y with next := u.cycles + 1, waiting := none }
       let g := s.group i.aux
       let rd (v : Nat) := mset 0 x.regs i.sd (BitVec.ofNat 64 v)
       let named (q : UnitId) : Bool := i.aux.testBit (match q with | .array => 0 | .merge => 1 | .vec => 2 | .row => 3)
       (i.op = 0x87 → i.aux = 0x50 → exec (.getsum c f) s = .next (s.streamIs c.val f { y with regs := rd x.status, status := 0, statusPc := 0 }))
       ∧ (i.op = 0x87 → i.aux = 0x51 → exec (.getsum c f) s = .next (s.streamIs c.val f { y with regs := rd x.statusPc, status := 0, statusPc := 0 }))
       ∧ (i.op = 0x87 → i.aux < 0x50 → k.latestBusy f (sumEng i.aux) u.cycles = false →
           exec (.getsum c f) s = .next (s.streamIs c.val f { y with regs := rd (x.sums.get i.aux) }))
       ∧ (i.op = 0x87 → i.aux < 0x50 → k.latestBusy f (sumEng i.aux) u.cycles = true → exec (.getsum c f) s = .next (s.waits c.val f 0x148))
       ∧ (i.op = 0x8B → x.onend = none → exec (.onend c f) s = .next (s.streamIs c.val f { y with onend := some (i.aux, i.imm % 65536) }))
       ∧ (i.op = 0x8B → x.onend ≠ none → exec (.onend c f) s = .next (u.seqStop c.val f 0x70 0x8B))
       ∧ (i.op = 0x8C → x.patches.length < 4 → ∃ q : Patch, q.word = i.imm % 16 ∧ q.lsb = i.imm / 256 % 32 ∧ q.w = i.imm / 65536 % 32 + 1
           ∧ q.val = (mget 0 x.regs i.sa).toNat % 2 ^ q.w ∧ exec (.patch c f) s = .next (s.streamIs c.val f { y with patches := x.patches ++ [q] }))
       ∧ (i.op = 0x8C → 4 ≤ x.patches.length → exec (.patch c f) s = .next (u.seqStop c.val f 0x70 0x8C))
       ∧ (i.op = 0x91 → g.active = true → g.barrier = true → c.val ∈ g.cores → ∃ t, exec (.arrive c f) s = .next t ∧ u.onlyCore t c.val
           ∧ (t.core c.val).stream f = z
           ∧ (mget ({} : Arrivals) (t.core c.val).arrivals i.aux).sems = (mget ({} : Arrivals) k.arrivals i.aux).sems ++ [i.imm % 8])
       ∧ (i.op = 0x91 → ¬ (g.active = true ∧ g.barrier = true ∧ c.val ∈ g.cores) → exec (.arrive c f) s = .next (u.seqStop c.val f 0x73 0x91))
       ∧ (i.op = 0x93 → ∃ t, exec (.gate c f) s = .next t ∧ u.onlyCore t c.val ∧ (t.core c.val).stream f = z
           ∧ (∀ q : UnitId, (k.unit q).st = .on → named q = true → k.inCycle (unitEng q).num u.cycles = false →
               (((t.core c.val).unit q).st = .gatePending ∨ ((t.core c.val).unit q).st = .shuttingDown)
               ∧ (((t.core c.val).unit q).st = .shuttingDown ↔ ((k.queue (unitEng q)).isEmpty = true ∧ (k.running (unitEng q)).isEmpty = true)))
           ∧ (∀ q : UnitId, (named q = false ∨ k.inCycle (unitEng q).num u.cycles = true) → (k.unit q).st ≠ .gatePending →
               (t.core c.val).unit q = k.unit q)))
  ∧ (∀ (s : State) (g : GroupIx), let r := s.group g.val
       r.active = true → r.barrier = true → r.cores ≠ [] → r.cores.Nodup →
       (∀ c ∈ r.cores, (mget ({} : Arrivals) (s.core c).arrivals g.val).sems ≠ []) →
       ∃ t, exec (.barrierRound g) s = .next t ∧ t.mem = s.mem ∧ t.groups = s.groups ∧
         ∀ c ∈ r.cores, ∀ j js, (mget ({} : Arrivals) (s.core c).arrivals g.val).sems = j :: js →
           (mget ({} : Arrivals) (t.core c).arrivals g.val).sems = js
           ∧ mget 0 (t.core c).sems j = (if mget 0 (s.core c).sems j = 0xFFFF then 0xFFFF else mget 0 (s.core c).sems j + 1))

/-- R270, R271: a status that the sequencer raises stops its stream whatever ON_STATUS holds, keeps the first status since
STREAM_STATUS was read, records a FAULT and leaves every other core's record, device memory and the time base as they
are. R270: where the fetch fails, every instruction command of the stream stops it with the fetch's status; where the stream
finds nothing, or its next cycle cannot come since the clock is stopped, none of them changes anything.
Some clauses take the model's own reading where the rules leave one open (log entry 3). -/
def Obligations.SeqStopsAndFetchFailures : Prop :=
  (∀ (s : State) (c : CoreIx) (f : StreamId) (st opc : Nat), st ∈ [0x70, 0x71, 0x72, 0x73] → (((s.core c.val).stream f).phase = .running) →
       let x := (s.core c.val).stream f
       let t := s.seqStop c.val f st opc
       ((t.core c.val).stream f).phase = .stopped
       ∧ ((t.core c.val).stream f).status = (if x.status = 0 then st else x.status)
       ∧ ((t.core c.val).stream f).statusPc = (if x.status = 0 then x.pc else x.statusPc)
       ∧ ((t.core c.val).stream f).regs = x.regs ∧ ((t.core c.val).stream f).pc = x.pc
       ∧ (∀ d, d ≠ c.val → t.core d = s.core d) ∧ t.mem = s.mem ∧ t.host = s.host ∧ t.time = s.time ∧ t.groups = s.groups
       ∧ (s.trace.eventEn = true → s.trace.ringFull = false → s.trace.wrap = true → 0 < s.trace.slots →
           ∃ w : Waymark, (s.trace.nextIx % s.trace.slots, w) ∈ t.trace.ring ∧ w.kind = 0x12 ∧ w.payload.toNat / 2 ^ 56 = st))
  ∧ (∀ (s : State) (c : CoreIx) (f : StreamId) (i : Instr),
       i ∈ [Instr.nop c f, .movi c f, .alu c f, .alui c f, .br c f, .setlc c f, .loop c f, .getsum c f, .getfmt c f, .gettime c f, .setseed c f,
         .onend c f, .patch c f, .cadd c f, .waitge c f, .semsig c f, .semwait c f, .arrive c f, .fence c f, .gate c f, .onstatus c f, .legEnd c f,
         .engineOpIssue c f] →
       (∀ st opc, (s.core c.val).fetch f = .fail st opc → s.mayRun c.val f → exec i s = .next ((s.fetched c.val f).seqStop c.val f st opc))
       ∧ ((s.core c.val).fetch f = .none → exec i s = .next s)
       ∧ (¬ s.mayRun c.val f → exec i s = .next s))

/-- R266, R268, R270: what a running stream of a powered core finds at its PC: the failures in their order, then an engine
operation by its opcode, or a control instruction whose reserved fields are zero and which no prefix awaits. A stream that
does not run finds nothing.
Some clauses take the model's own reading where the rules leave one open (log entry 35). -/
def Obligations.SeqFetch : Prop :=
  ∀ (k : Core) (f : StreamId) (p : Program), k.program = some p →
    let x := k.stream f
    let w := mget 0 p.words x.pc
    let op := w.toNat / 2 ^ 24 % 256
    let inRange := 8 + p.legCycle ≤ x.pc ∧ x.pc < p.len
    let good (n : Nat) : Prop := ∀ j < n, mget false p.bad (x.pc + j) = false
    let engine : Prop := (1 ≤ op ∧ op ≤ 4) ∨ op = 0x20 ∨ op = 0x24 ∨ (0x30 ≤ op ∧ op ≤ 0x41)
    (x.phase ≠ .running → k.fetch f = .none)
    ∧ (k.power ≠ .on → k.fetch f = .none)
    ∧ (x.phase = .running → k.power = .on →
      (¬ inRange → k.fetch f = .fail 0x71 0)
      ∧ (inRange → mget false p.bad x.pc = true → k.fetch f = .fail 0x74 0)
      ∧ (inRange → good 1 → engine → p.len < x.pc + opSpan op → k.fetch f = .fail 0x71 op)
      ∧ (inRange → engine → x.pc + opSpan op ≤ p.len → good (opSpan op) → k.fetch f = .eng op)
      ∧ (inRange → good 1 → engine → x.pc + opSpan op ≤ p.len → ¬ good (opSpan op) → k.fetch f = .fail 0x74 op)
      ∧ (inRange → good 1 → ¬ engine → (op < 0x80 ∨ 0x95 < op) → k.fetch f = .fail 0x70 op)
      ∧ (inRange → good 1 → 0x80 ≤ op → op ≤ 0x95 → (ctlOf w).reserved = true → k.fetch f = .fail 0x70 op)
      ∧ (inRange → good 1 → 0x80 ≤ op → op ≤ 0x95 → (ctlOf w).reserved = false → x.patches = [] → x.onend = none → k.fetch f = .ctl (ctlOf w))
      ∧ (inRange → good 1 → (op = 0x8B ∨ op = 0x8C) → (ctlOf w).reserved = false → k.fetch f = .ctl (ctlOf w))
      ∧ (inRange → good 1 → 0x80 ≤ op → op ≤ 0x95 → op ≠ 0x8B → op ≠ 0x8C → (x.patches ≠ [] ∨ x.onend ≠ none) → k.fetch f = .fail 0x70 op))

/-- R264, R267, R284: an engine operation issued to a queue with room that no other stream asks for in the cycle. Its words are the program's with the patches applied, it
takes a pot ticket when it uses the pot, the prefixes are used up, and the queue's arbiter points past the stream. With the queue full, or another stream ahead of it in the arbiter's rotation, the stream waits for the next cycle; with a PATCH
beyond the operation it stops.
Some clauses take the model's own reading where the rules leave one open (log entry 36). -/
def Obligations.SeqIssue : Prop :=
  ∀ (s : State) (c : CoreIx) (f : StreamId) (p : Program) (opc : Nat) (e : Eng), (s.core c.val).fetch f = .eng opc → s.mayRun c.val f →
    (s.core c.val).program = some p → engOf opc = some e →
    let u := s.fetched c.val f
    let k := u.core c.val
    let x := k.stream f
    ((∀ q ∈ x.patches, q.word < opWords opc) → k.queueFull e u.cycles = false → k.inCycle e.num u.cycles = false → k.inCycle potArb u.cycles = false →
        (∀ g, g ≠ f → k.request u.cycles g = none) → ∃ t o, exec (.engineOpIssue c f) s = .next t ∧ u.onlyCore t c.val
        ∧ (t.core c.val).queue e = k.queue e ++ [o] ∧ (∀ d, d ≠ e → (t.core c.val).queue d = k.queue d) ∧ o.stream = f ∧ o.pc = x.pc ∧ o.id = k.nextOp
        ∧ o.words = patchWords (p.opAt x.pc opc) x.patches ∧ o.onend = x.onend ∧ o.seed = x.seedLeg ∧ o.issued = u.cycles
        ∧ o.ticket = (if k.usesPot o then some k.potNext else none) ∧ (t.core c.val).potNext = k.potNext + (if k.usesPot o then 1 else 0)
        ∧ (t.core c.val).stream f = { x with pc := (x.pc + opSpan opc) % 8192, patches := [], onend := none, next := u.cycles + 1, waiting := none }
        ∧ mget 0 (t.core c.val).arb e.num = (strNum f + 1) % 3)
    ∧ ((∀ q ∈ x.patches, q.word < opWords opc) → (k.queueFull e u.cycles = true
        ∨ ∃ g o, k.request u.cycles g = some (e, o) ∧ rankOf (mget 0 k.arb e.num) g < rankOf (mget 0 k.arb e.num) f) →
        exec (.engineOpIssue c f) s = .next (s.waits c.val f 0x140))
    ∧ ((∃ q ∈ x.patches, opWords opc ≤ q.word) → exec (.engineOpIssue c f) s = .next (u.seqStop c.val f 0x70 opc))

/-- R284, R286: the power transitions of a gated unit. A shut-down of 256 cycles for the array and 96 for the others leaves it OFF,
or powering up when an operation came meanwhile; a power-up of 1,024 or 384 cycles leaves it ON. No memory of the core
changes but as the clocks leave it. R285: the power domains of cores. A usable core without a program begins to shut down and holds the fixed initial state, is then OFF or, where a program was loaded meanwhile, powers up, and holds
that state when it comes up, with the tensor flags that the Module Controller holds.
Some clauses take the model's own reading where the rules leave one open (log entry 61). -/
def Obligations.PowerDomains : Prop :=
  (∀ (s : State) (c : CoreIx) (u : UnitId), s.clk.stopped = false →
       let x := (s.core c.val).unit u
       (x.st = .shuttingDown → ∃ t, exec (.unitShutdownDone c u) s = .next t
           ∧ ((t.core c.val).unit u).st = (if x.again then .poweringUp else .off)
           ∧ (t.core c.val).store = ((s.toTime t.time.now).core c.val).store ∧ (t.core c.val).planes = ((s.toTime t.time.now).core c.val).planes
           ∧ (t.core c.val).kettle = (s.core c.val).kettle ∧ (t.core c.val).stats = (s.core c.val).stats
           ∧ (∀ d, d ≠ c.val → t.core d = (s.toTime t.time.now).core d) ∧ t.mem = s.mem ∧ t.trace = s.trace
           ∧ (s.power.settleNs = 0 → x.since + (if u = .array then 256 else 96) ≤ t.cycles))
       ∧ (x.st = .poweringUp → ∃ t, exec (.unitPowerUpDone c u) s = .next t ∧ ((t.core c.val).unit u).st = .on
           ∧ (t.core c.val).store = ((s.toTime t.time.now).core c.val).store ∧ (t.core c.val).planes = ((s.toTime t.time.now).core c.val).planes
           ∧ (t.core c.val).kettle = (s.core c.val).kettle ∧ (∀ d, d ≠ c.val → t.core d = (s.toTime t.time.now).core d) ∧ t.mem = s.mem ∧ t.trace = s.trace
           ∧ (s.power.settleNs = 0 → x.since + (if u = .array then 1024 else 384) ≤ t.cycles))
       ∧ (x.st ≠ .shuttingDown → exec (.unitShutdownDone c u) s = .next s)
       ∧ (x.st ≠ .poweringUp → exec (.unitPowerUpDone c u) s = .next s))
  ∧ (∀ (s : State) (c : CoreIx), let k := s.core c.val
       (s.coreOk c.val = true → k.power = .on → k.program = none → ∃ t, exec (.corePowerDown c) s = .next t ∧ s.onlyCore t c.val
           ∧ (t.core c.val).power = .shuttingDown ∧ (t.core c.val).kettle.st = .closed ∧ (t.core c.val).store = [] ∧ (t.core c.val).counters = k.counters)
       ∧ (k.power = .shuttingDown → ∃ t, exec (.corePowerDown c) s = .next t ∧ s.onlyCore t c.val
           ∧ t.core c.val = { k with power := if k.program = none then .off else .poweringUp })
       ∧ (k.power = .poweringUp → ∃ t, exec (.corePowerUp c) s = .next t ∧ s.onlyCore t c.val ∧ (t.core c.val).power = .on
           ∧ (t.core c.val).planes = [] ∧ (t.core c.val).modes = [] ∧ (t.core c.val).kettle.st = .closed ∧ (t.core c.val).store = [] ∧ (t.core c.val).pot = []
           ∧ (t.core c.val).program = k.program ∧ (t.core c.val).flags = mget [] s.flagsHeld c.val
           ∧ (∀ u : UnitId, ((t.core c.val).unit u).st = .on) ∧ (t.core c.val).counters = k.counters)
       ∧ (k.program ≠ none → k.power ≠ .shuttingDown → exec (.corePowerDown c) s = .next s))

/-- R280, R281: a chunk of a broadcast, the image's own with a good CRC-32C, is written to its place in the target's program store; one whose CRC is bad
changes nothing. A repair starts another try while fewer than three have been made; with nothing missing, or after the third, the
broadcast is over and its cores that miss a chunk hold no program. -/
def Obligations.ProgramBroadcast : Prop :=
  ∀ (s : State) (c : CoreIx) (b : Broadcast) (p : Program) (i : Nat) (data : List W64) (crc : W32), s.host.broadcast = some b →
    let bytes (l : List W64) := l.flatMap (fun w => leBytes 8 w.toNat)
    let n := min 512 (b.len - 512 * i)
    (c.val ∈ b.targets → (s.core c.val).power = .on → (s.core c.val).program = some p → i < b.chunks → data.length = n →
      crc32c (bytes data) = crc → crc32c (bytes (mgetRun 0 b.image (512 * i) n)) = crc → ∃ t q, exec (.programChunk c i data crc) s = .next t ∧ (t.core c.val).program = some q ∧ q.len = p.len
        ∧ q.words = msetRun 0 p.words (512 * i) data ∧ (∀ d, d ≠ c.val → t.core d = s.core d) ∧ t.mem = s.mem)
    ∧ (crc32c (bytes data) ≠ crc → exec (.programChunk c i data crc) s = .next s)
    ∧ (crc32c (bytes (mgetRun 0 b.image (512 * i) n)) ≠ crc → exec (.programChunk c i data crc) s = .next s)
    ∧ (b.missing ≠ [] → b.tries < 3 → ∃ t, exec .broadcastRepair s = .next t ∧ t.host.broadcast = some { b with tries := b.tries + 1 } ∧ t.cores = s.cores)
    ∧ (b.missing = [] → ∃ t, exec .broadcastRepair s = .next t ∧ t.host.broadcast = none ∧ t.cores = s.cores)
    ∧ (b.missing ≠ [] → 3 ≤ b.tries → ∃ t, exec .broadcastRepair s = .next t ∧ t.host.broadcast = none
        ∧ ∀ d ∈ b.missing, (t.core d).program = none)

/-! ### The leaf array (03, 04, 06) -/

/-- R110, R120, R125, R127, R228, R265: the operations of the leaf array that start and stop at once on a check. The array takes the operation that
its places let start, and it ends after one cycle with the first failing status, or SKIPPED_FROZEN where its tensor is frozen; no plane, pot entry or core-store byte changes, and a VEC_RUN paired with it learns that it failed. -/
def Obligations.ArrayChecksFail : Prop :=
  ∀ (s : State) (c : CoreIx) (o : Op) (st : Stall),
    let k := s.core c.val
    let w := s.width c.val
    let fails (e : Nat) (t : State) : Prop := s.onlyCore t c.val ∧ k.took (t.core c.val) .array o e 1 ∧ (t.core c.val).planes = k.planes
        ∧ (t.core c.val).index = k.index ∧ (t.core c.val).exps = k.exps ∧ (t.core c.val).pot = k.pot ∧ (t.core c.val).store = k.store ∧ (t.core c.val).flows = k.flows ∧ (t.core c.val).load = k.load
    let told (t : State) : Prop := ∀ p ∈ (t.core c.val).pairs, p.opId = o.id → p.failed = true
    (s.arrayHead c.val 1 = some o → k.loadStatus w o ≠ 0 → ∃ t, exec (.arrayLoad c) s = .next t ∧ fails (k.loadStatus w o) t)
    ∧ (s.arrayHead c.val 2 = some o → k.feedStatus w o false ≠ 0 → o.opc = 2 → ∃ t, exec (.arrayFeed c st) s = .next t ∧ fails (k.feedStatus w o false) t ∧ told t)
    ∧ (s.arrayHead c.val 3 = some o → k.feedStatus w o true ≠ 0 → o.opc = 3 → ∃ t, exec (.arrayReverse c st) s = .next t ∧ fails (k.feedStatus w o true) t ∧ told t)
    ∧ (s.arrayHead c.val 4 = some o → k.wgradStatus w o ≠ 0 → ∃ t, exec (.arrayWgrad c st) s = .next t ∧ fails (k.wgradStatus w o) t)
    ∧ (s.arrayHead c.val 4 = some o → mget false k.flags (o.f 4 0 8) = true → k.wgradStatus w o = 1)

/-- R92, R93, R172: an ARRAY_LOAD whose checks hold goes to the load port: its check pass of a sparse plane takes ceil(ROWS x COLS x lanes / 2048) cycles for each plane or pair, and nothing is written
by its start. R88, R90: the cycle that ends a dense load of a one-byte, one-lane weight format on a core that has nothing else in hand. The plane it completes holds, at each row and column of the partition, the
element of the packed plane in the core store, and the columns beyond the loaded ones hold 0; the load has left the port.
Some clauses take the model's own reading where the rules leave one open (log entries 5, 17). -/
def Obligations.ArrayLoads : Prop :=
  (∀ (s : State) (c : CoreIx) (o : Op) (pt : Part), s.arrayHead c.val 1 = some o → (s.core c.val).loadStatus (s.width c.val) o = 0 →
       Core.opPart o (s.width c.val) = some pt →
       let k := s.core c.val
       ∃ t l, exec (.arrayLoad c) s = .next t ∧ s.onlyCore t c.val ∧ (t.core c.val).load = some l ∧ l.op = o ∧ l.done = 0 ∧ l.writing = false
         ∧ l.check = (if o.f 4 30 2 = 0 then 0 else (o.loadUnit pt.h).2 * cdiv (pt.h * (o.f 4 0 8 * lanesOf (o.f 0 16 4))) 2048) ∧ l.verdict = k.checkPass pt o
         ∧ (t.core c.val).arrayQ = k.arrayQ.filter (fun q => q.id != o.id) ∧ (∃ r, (t.core c.val).arrayRun = k.arrayRun ++ [r] ∧ r.op = o ∧ s.cycles ≤ r.started)
         ∧ (t.core c.val).store = k.store ∧ (t.core c.val).pot = k.pot ∧ (t.core c.val).planes = k.planes ∧ (t.core c.val).flows = k.flows)
  ∧ (∀ (s : State) (c : CoreIx) (o : Op) (pt : Part) (l : LoadProg) (r : Running), Core.opPart o (s.width c.val) = some pt →
       let k := s.core c.val
       let p := o.f 0 8 6 + o.f 0 0 8 - 1
       let a := 64 * o.f 8 0 15 + (o.f 0 0 8 - 1) * (o.loadUnit pt.h).1
       k.load = some l → l.op = o → l.check = 0 → l.writing = true → l.done + 1 = o.f 0 0 8 * (pt.h / 4) → o.issued < s.cycles → k.flows = [] → k.drains = [] → k.arrayQ = [] →
       k.arrayRun = [r] → r.op = o → r.started ≤ s.cycles → s.clk.stopped = false → s.width c.val ≤ 128 → (o.f 0 16 4 = 0 ∨ o.f 0 16 4 = 1 ∨ o.f 0 16 4 = 5) → o.f 4 30 2 = 0 → 0 < o.f 0 0 8 →
       mwf {} s.cores = true →
       ∃ t, exec (.arrayOpEnd c 0) s = .next t ∧ (t.core c.val).load = none ∧ (t.core c.val).arrayRun = [] ∧ (t.core c.val).store = k.store ∧ t.cycles = s.cycles + 1
         ∧ (∀ i < pt.h, ∀ x < pt.w, mget 0 (t.core c.val).planes (cellIx p (pt.row0 + i) (pt.col0 + x))
             = (if x < o.f 4 0 8 then ((k.csRead (a + i * o.f 4 0 8 + x) 1).getD 0 (0, false)).1 else 0))
         ∧ (∀ q i x, q ≠ p → i < 128 → x < 128 → mget 0 (t.core c.val).planes (cellIx q i x) = mget 0 k.planes (cellIx q i x)))

/-- R91, R96, R112, R265: a feed, a reverse or a WGRAD whose checks hold starts at the feeder of its partition: it leaves the queue, the array takes its direction and mode, and its rows may issue when those that its
partition issued before have; nothing is written by its start, and its pot ticket is not passed. R126, R127: ARRAY_WGRAD of a frozen tensor ends SKIPPED_FROZEN after one cycle, counted, and writes nothing.
Some clauses take the model's own reading where the rules leave one open (log entries 7, 17). -/
def Obligations.ArrayFeedReverseAndWgrad : Prop :=
  ∀ (s : State) (c : CoreIx) (o : Op) (st : Stall) (pt : Part), Core.opPart o (s.width c.val) = some pt →
    let k := s.core c.val
    let w := s.width c.val
    let starts (t : State) : Prop := s.onlyCore t c.val ∧ (t.core c.val).arrayQ = k.arrayQ.filter (fun q => q.id != o.id)
        ∧ (∃ f, (t.core c.val).flows = k.flows ++ [f] ∧ f.op = o ∧ f.rows = o.f 4 16 16 ∧ f.issued = 0 ∧ f.flying = [] ∧ f.dry = st.dry ∧ f.begun = !o.gathers
            ∧ k.adv ≤ f.next ∧ (∀ g ∈ k.flows, g.op.place = o.place → g.next ≤ f.next) ∧ ((∀ g ∈ k.flows, g.op.place ≠ o.place) → f.next = k.adv))
        ∧ (∃ r, (t.core c.val).arrayRun = k.arrayRun ++ [r] ∧ r.op = o ∧ s.cycles ≤ r.started ∧ o.issued < r.started ∧ r.dirMode = o.dirMode)
        ∧ (t.core c.val).arrayDir = o.opc - 2 ∧ (t.core c.val).arrayMode = o.f 0 22 2 ∧ (t.core c.val).potHead = k.potHead
        ∧ (t.core c.val).store = k.store ∧ (t.core c.val).pot = k.pot ∧ (t.core c.val).planes = k.planes ∧ (t.core c.val).counters = k.counters
    (s.arrayHead c.val 2 = some o → k.feedStatus w o (o.opc == 3) = 0 → s.pairStatus c.val o pt = some 0 → ∃ t, exec (.arrayFeed c st) s = .next t ∧ starts t)
    ∧ (s.arrayHead c.val 3 = some o → k.feedStatus w o (o.opc == 3) = 0 → s.pairStatus c.val o pt = some 0 → ∃ t, exec (.arrayReverse c st) s = .next t ∧ starts t)
    ∧ (s.arrayHead c.val 4 = some o → k.wgradStatus w o = 0 → ∃ t, exec (.arrayWgrad c st) s = .next t ∧ starts t)
    ∧ (o.f 0 10 2 ≠ 2 → s.pairStatus c.val o pt = some 0)
    ∧ (s.arrayHead c.val 4 = some o → mget false k.flags (o.f 4 0 8) = true → ∃ t, exec (.arrayWgrad c st) s = .next t ∧ s.onlyCore t c.val ∧ k.took (t.core c.val) .array o 1 1
        ∧ (t.core c.val).pot = k.pot ∧ (t.core c.val).store = k.store ∧ (t.core c.val).flows = k.flows
        ∧ (mget 0 (t.core c.val).counters 0x50).toNat = min (2 ^ 64 - 1) ((mget 0 k.counters 0x50).toNat + 1))

/-- R97 to R101, R111: a cycle of the leaf array. In a pour hold, with a drain or the shadow registers full, or with a feeder dry, no row issues and no run moves towards its drain, in any partition, and the
cycle is counted once, a pour hold before a full drain before a dry feeder; else the array advances by one. R88, R265: the arrays run with the clock: with nothing commanded, every core that has an operation in hand runs the cycles that pass, and no other core changes.
Some clauses take the model's own reading where the rules leave one open (log entries 5, 17). -/
def Obligations.ArrayCycles : Prop :=
  (∀ (k : Core) (w : Nat) (bad : List Nat) (x : Nat) (hold : Bool),
     let p := k.ports w bad x
     let t := Core.arrayCycle w bad x hold k
     let ctr (o : Nat) (n : Nat) : Prop := (mget 0 t.counters o).toNat = min (2 ^ 64 - 1) ((mget 0 k.counters o).toNat + n)
     let stands : Prop := t.adv = k.adv ∧ (∀ f ∈ t.flows, ∃ g ∈ k.flows, g.op = f.op ∧ g.issued = f.issued ∧ g.flying = f.flying ∧ g.formed = f.formed)
     let busy : Prop := p.flows ≠ [] ∨ p.dryAt w x = true
     (hold = true → stands ∧ (busy → ctr 0x18 1) ∧ (¬ busy → ctr 0x18 0) ∧ ctr 0x10 0 ∧ ctr 0x08 0 ∧ ctr 0x20 0 ∧ ctr 0x00 0)
     ∧ (hold = false → p.holders ≠ [] → stands ∧ ctr 0x18 0 ∧ ctr 0x10 1 ∧ ctr 0x08 0 ∧ ctr 0x20 0 ∧ ctr 0x00 0)
     ∧ (hold = false → p.holders = [] → p.dryAt w x = true → stands ∧ ctr 0x18 0 ∧ ctr 0x10 0 ∧ ctr 0x08 1 ∧ ctr 0x20 (if p.loadWaits w x then 1 else 0) ∧ ctr 0x00 0)
     ∧ (hold = false → p.holders = [] → p.dryAt w x = false → t.adv = k.adv + 1 ∧ ctr 0x18 0 ∧ ctr 0x10 0 ∧ ctr 0x08 0 ∧ ctr 0x20 0))
  ∧ (∀ s : State, s.pending = [] → mwf {} s.cores = true → ∃ t, step s = .next t ∧ ∀ c : Nat,
       ((s.core c).arrayIdle = true → t.core c = s.core c)
       ∧ ((s.core c).arrayIdle = false → t.core c = iter (t.cycles - s.cycles) (fun j k => s.arrayCycle c (s.cycles + j) k) (s.core c)))

/-- R104, R105: a GATHER-mode feed. It starts waiting; in each cycle it samples the ready word: issue begins when FILL_TARGET slots are ready or DEADLINE cycles have passed, and between slots the feeder takes the lowest ready slot that it has not issued. Its
deadline, counted from its start, lets it begin with whatever is ready.
Some clauses take the model's own reading where the rules leave one open (log entries 17, 18). -/
def Obligations.ArrayGatherFeed : Prop :=
  (∀ (s : State) (c : CoreIx) (o : Op) (st : Stall) (pt : Part), s.arrayHead c.val 2 = some o → o.gathers = true → Core.opPart o (s.width c.val) = some pt →
     (s.core c.val).feedStatus (s.width c.val) o false = 0 → s.pairStatus c.val o pt = some 0 →
      ∃ t f, exec (.arrayFeed c st) s = .next t ∧ s.onlyCore t c.val ∧ (t.core c.val).flows = (s.core c.val).flows ++ [f] ∧ f.op = o ∧ f.begun = false ∧ f.since = max s.cycles (o.issued + 1) ∧ f.slots = []
        ∧ f.row = none)
  ∧ (∀ (k : Core) (x : Nat) (f : Flow), f.op.gathers = true → f.issued < f.rows → f.row = none → f.slots.Nodup →
      let word := leNat ((k.csRead (64 * f.op.f 20 0 15) 8).map (·.1))
      let ready (i : Nat) : Prop := i < f.op.f 24 24 8 ∧ word.testBit i = true
      let n := ((List.range (f.op.f 24 24 8)).filter (fun i => word.testBit i)).length
      let g := k.sample x f
      (g.begun = true ↔ (f.begun = true ∨ f.op.f 24 16 8 ≤ n ∨ f.since + f.op.f 24 0 16 ≤ x))
      ∧ (g.begun = false → g.slots = f.slots)
      ∧ (g.begun = true → (∀ i, ready i → i ∈ f.slots) → g.slots = f.slots)
      ∧ (g.begun = true → ∀ i, ready i → i ∉ f.slots → (∀ j < i, ready j → j ∈ f.slots) → g.slots = f.slots ++ [i])
      ∧ g.issued = f.issued ∧ g.op = f.op)
  ∧ (∀ (s : State) (c : CoreIx) (f : Flow), (s.core c.val).deadlines = [(f, f.since + f.op.f 24 0 16)] →
      ∃ t, exec (.gatherDeadline c) s = .next t ∧ s.coreAndClock t c.val ∧ (∀ g ∈ (t.core c.val).flows, g.op.id = f.op.id → g.begun = true)
        ∧ (t.core c.val).arrayQ = (s.core c.val).arrayQ ∧ (s.clk.stopped = false → f.since + f.op.f 24 0 16 ≤ t.cycles))

/-- R263, R267, R269, R271: the end of a running operation of each engine. It leaves the engine, gives its stream its summaries, adds its ONEND
update whatever the status, and on a failure stops a stream whose ON_STATUS is STOP. No memory changes but as the clocks leave it. R389, R329: an operation that waits for a host completion, or for a line that a controller holds, has not ended, and its end command changes nothing; nor has an array operation that waits for
something other than the array.
Some clauses take the model's own reading where the rules leave one open (log entries 5, 14, 15, 19). -/
def Obligations.EngineOperationsEnd : Prop :=
  (∀ (s : State) (c : CoreIx) (n : Nat) (r : Running), r.waitHost = false → s.lineHeld c.val r.op.id = false →
       let k := s.core c.val
       let x := k.stream r.op.stream
       let ends (e : Eng) (t : State) : Prop := s.coreAndClock t c.val
         ∧ ((t.core c.val).stream r.op.stream).sums = x.sums.after e r.op.id r.op.opc r.status r.vals
         ∧ (t.core c.val).ctrs = (match r.op.onend with | none => k.ctrs | some (i, m) => mset 0 k.ctrs i (mget 0 k.ctrs i + BitVec.ofNat 32 m))
         ∧ (r.status < 0x20 → ((t.core c.val).stream r.op.stream).phase = x.phase ∧ t.trace = s.trace)
         ∧ (0x20 ≤ r.status → x.phase = .running → x.cont = false → ((t.core c.val).stream r.op.stream).phase = .stopped)
         ∧ (t.core c.val).store = ((s.toTime t.time.now).core c.val).store ∧ (t.core c.val).pot = ((s.toTime t.time.now).core c.val).pot
         ∧ (t.core c.val).planes = ((s.toTime t.time.now).core c.val).planes ∧ ∀ d, (t.core c.val).queue d = k.queue d
       (k.arrayRun[n]? = some r → k.arrayRun.find? (fun q => q.op.id == r.op.id) = some r → k.inHand r.op.id = false → ∃ t, exec (.arrayOpEnd c n) s = .next t ∧ ends .array t
           ∧ (t.core c.val).arrayRun = ((s.toTime t.time.now).core c.val).arrayRun.filter (fun q => q.op.id != r.op.id))
       ∧ (k.mergeRun = some r → ∃ t, exec (.mergeOpEnd c) s = .next t ∧ ends .merge t ∧ (t.core c.val).mergeRun = none)
       ∧ (k.vecRun = some r → ∃ t, exec (.vecRunEnd c) s = .next t ∧ ends .vec t ∧ (t.core c.val).vecRun = none)
       ∧ (k.rowRun = some r → ∃ t, exec (.rowOpEnd c) s = .next t ∧ ends .row t ∧ (t.core c.val).rowRun = none)
       ∧ (k.accRun = some r → ∃ t, exec (.accessOpEnd c) s = .next t ∧ ends .acc t ∧ (t.core c.val).accRun = none))
  ∧ (∀ (s : State) (c : CoreIx) (r : Running), (r.waitHost = true ∨ s.lineHeld c.val r.op.id = true) →
       ((s.core c.val).mergeRun = some r → exec (.mergeOpEnd c) s = .next s) ∧ ((s.core c.val).accRun = some r → exec (.accessOpEnd c) s = .next s))
  ∧ (∀ (s : State) (c : CoreIx) (n : Nat) (r : Running), (s.core c.val).arrayRun[n]? = some r → s.toEnd c.val r.op.id = none → exec (.arrayOpEnd c n) s = .next s)

/-! ### Vector chain and row engine (08) -/

/-- R219, R227, R228, R230: VEC_RUN. One that is not fed from the drain ends after 12 cycles with its first failing check; with its
checks held it takes 36 cycles and one for each 64 elements, 128 in BF16, ends OK or with DATA_POISON, and writes the pot or the core store only
inside its output and scale ranges. One fed from the drain waits until its array operation has passed it every run, and ends with VEC_FORMAT or VEC_PAIRING where that operation failed.
Some clauses take the model's own reading where the rules leave one open (log entries 7, 17, 73). -/
def Obligations.VecRun : Prop :=
  ∀ (s : State) (c : CoreIx) (z : Nat) (o : Op), s.head c.val .vec 0x20 = some o →
    let k := s.core c.val
    (o.f 0 21 2 ≠ 1 → s.vecStatic c.val o ≠ 0 → ∃ t, exec (.vecRun c z) s = .next t ∧ s.onlyCore t c.val
        ∧ k.took (t.core c.val) .vec o (s.vecStatic c.val o) 12 ∧ (t.core c.val).store = k.store ∧ (t.core c.val).pot = k.pot)
    ∧ (o.f 0 21 2 ≠ 1 → s.vecStatic c.val o = 0 → ∃ t e, exec (.vecRun c z) s = .next t ∧ (e = 0 ∨ e = 0x90)
        ∧ k.took (t.core c.val) .vec o e (36 + cdiv (o.f 4 0 21) (if o.f 0 23 1 = 1 then 128 else 64) + z)
        ∧ (∀ d, d ≠ c.val → t.core d = s.core d) ∧ t.mem = s.mem ∧ t.fmt = s.fmt ∧ t.trace = s.trace
        ∧ (o.f 0 18 2 ≠ 0 → (∀ g ∈ k.vecStages o, g.func ≠ 0x30) → (t.core c.val).store = k.store)
        ∧ ((o.f 0 18 2 = 0 ∨ o.f 0 18 2 = 3) → (t.core c.val).pot = k.pot))
    ∧ (o.f 0 21 2 = 1 → (∀ p ∈ k.pairs, p.vecId ≠ some o.id) → exec (.vecRun c z) s = .next s)
    ∧ (∀ p, o.f 0 21 2 = 1 → k.pairs = [p] → p.vecId = some o.id → p.failed = true → ∃ t, exec (.vecRun c z) s = .next t ∧ s.onlyCore t c.val
        ∧ k.took (t.core c.val) .vec o (if drainFmtBad o p.int then 0x61 else 0x64) 12 ∧ (t.core c.val).store = k.store ∧ (t.core c.val).pot = k.pot ∧ (t.core c.val).pairs = [])
    ∧ (∀ p, o.f 0 21 2 = 1 → k.pairs = [p] → p.vecId = some o.id → p.failed = false → p.whole = none → exec (.vecRun c z) s = .next s)
    ∧ (∀ p w, o.f 0 21 2 = 1 → k.pairs = [p] → p.vecId = some o.id → p.failed = false → p.whole = some w → s.vecStatic c.val o = 0 → ∃ t e, exec (.vecRun c z) s = .next t ∧ (e = 0 ∨ e = 0x90)
        ∧ k.took (t.core c.val) .vec o e (24 + z) ∧ (t.core c.val).pairs = [] ∧ (∀ d, d ≠ c.val → t.core d = s.core d) ∧ t.mem = s.mem)

/-- R219, R220, R226, R227, R229: a VEC_RUN of one element-wise stage, COPY, ADD, SUB or MUL, on FP32 operands in the core store without poison, its output in the core store beside them, completes: it ends OK after 36 cycles and one for each
64 elements, output word i is the stage's result on words i of its operands, rounded once to FP32, and no other byte of the core store changes. -/
def Obligations.VecRunElementwiseCompletes : Prop :=
  ∀ (s : State) (c : CoreIx) (z : Nat) (o : Op) (fn : Nat), s.head c.val .vec 0x20 = some o →
    let k := s.core c.val
    let n := o.f 4 0 21
    let stageA := 64 * o.f 8 0 15
    let aA := 64 * o.f 12 0 15
    let bA := 64 * o.f 12 16 15
    let outA := 64 * o.f 16 0 15
    let word (base i : Nat) : Val := roundRne fp32 (dec fp32 (k.csWord (base + 4 * i)).1.toNat)
    k.storePoison = [] → fn ≤ 3 → leNat ((k.csRead stageA 8).map (·.1)) = fn * 2 ^ 58 + 2 ^ 56 + (if fn = 0 then 0 else 2 ^ 55) →
    o.zeros [(0, 0, 3), (0, 3, 3), (0, 6, 3), (0, 18, 2), (0, 21, 2), (0, 23, 1), (4, 21, 11), (8, 15, 1), (12, 31, 1), (12, 15, 1), (16, 31, 1), (16, 15, 1), (24, 0, 32), (28, 31, 1), (28, 15, 1)] = true →
    o.f 0 20 1 = 1 → o.f 0 14 4 = 8 → o.f 0 10 4 = 8 → 0 < n → n ≤ 1048576 →
    csOver aA (4 * n) = false → csOver bA (4 * n) = false → csOver outA (4 * n) = false →
    overlaps outA (4 * n) aA (4 * n) = false → overlaps outA (4 * n) bA (4 * n) = false → overlaps outA (4 * n) stageA 64 = false →
    ∃ t, exec (.vecRun c z) s = .next t ∧ s.onlyCore t c.val ∧ k.took (t.core c.val) .vec o 0 (36 + cdiv n 64 + z) ∧ (t.core c.val).pot = k.pot
      ∧ (∀ i < n, (t.core c.val).csWord (outA + 4 * i) = (BitVec.ofNat 32 (enc fp32 (roundRne fp32 (if fn = 0 then word aA i
          else if fn = 1 then vadd (word aA i) (word bA i) else if fn = 2 then vadd (word aA i) (word bA i).negate else vmul (word aA i) (word bA i)))), false))
      ∧ (∀ a, (a < outA ∨ outA + 4 * n ≤ a) → (t.core c.val).byteAt a = k.byteAt a)

/-- R231, R234, R235, R238, R239: the functions of the row engine. Each ends after 12 cycles with its first failing check and writes nothing, but that one with POT_RANGE keeps the additions it had begun; with
the checks held it ends OK, or with DATA_POISON, after 12 + ROWS × (passes × ⌈N / 64⌉ + 16) cycles, counts its rows, and changes neither
the planes nor, unless it takes affine gradients, the pot. A backward function leaves the statistics store as it is. R232, R236: STAT_SAVE and STAT_LOAD copy statistics between the store and the core store, two words for each row, and change nothing else of
the two. -/
def Obligations.RowFunctionsAndStatistics : Prop :=
  (∀ (s : State) (c : CoreIx) (z : Nat) (o : Op) (j : Instr) (fn passes : Nat), s.head c.val .row 0x24 = some o → o.rowFunc = fn →
       (j, fn, passes) ∈ [(Instr.softmaxFwd c z, 0, 3), (.softmaxBwd c z, 1, 2), (.lnFwd c z, 2, 3), (.lnBwd c z, 3, 3), (.rmsFwd c z, 4, 2), (.rmsBwd c z, 5, 2),
         (.kdLoss c z, 6, 4)] →
       let k := s.core c.val
       (rowStatus o ≠ 0 → rowStatus o ≠ 0x29 → ∃ t, exec j s = .next t ∧ s.onlyCore t c.val ∧ k.took (t.core c.val) .row o (rowStatus o) 12
           ∧ (t.core c.val).store = k.store ∧ (t.core c.val).pot = k.pot ∧ (t.core c.val).stats = k.stats)
       ∧ (rowStatus o = 0x29 → ∃ t cy, exec j s = .next t ∧ s.onlyCore t c.val ∧ k.took (t.core c.val) .row o 0x29 cy
           ∧ (t.core c.val).store = k.store ∧ (t.core c.val).stats = k.stats ∧ (t.core c.val).planes = k.planes
           ∧ ∀ i, (i < 16 * o.f 16 0 12 ∨ 65536 ≤ i) → mget 0 (t.core c.val).pot i = mget 0 k.pot i)
       ∧ (rowStatus o = 0 → ∃ t e, exec j s = .next t ∧ s.onlyCore t c.val ∧ (e = 0 ∨ e = 0x90)
           ∧ k.took (t.core c.val) .row o e (12 + o.f 4 16 16 * (passes * cdiv (o.f 4 0 14 + 1) 64 + 16) + z)
           ∧ (t.core c.val).planes = k.planes ∧ (o.f 0 8 1 = 0 → (t.core c.val).pot = k.pot) ∧ (fn ∈ [1, 3, 5, 6] → (t.core c.val).stats = k.stats)))
  ∧ (∀ (s : State) (c : CoreIx) (z : Nat) (o : Op), s.head c.val .row 0x24 = some o → (s.core c.val).secded = [] →
       let k := s.core c.val
       let rows := o.f 4 16 16
       let slot := o.f 16 16 13
       (o.rowFunc = 7 → rowStatus o = 0 → ∃ t e, exec (.statSave c z) s = .next t ∧ s.onlyCore t c.val ∧ (e = 0 ∨ e = 0x90)
           ∧ k.took (t.core c.val) .row o e (12 + cdiv rows 8 + z) ∧ (t.core c.val).stats = k.stats ∧ (t.core c.val).pot = k.pot
           ∧ (∀ i < 2 * rows, (mget (0, false) k.stats (2 * slot + i)).2 = false →
               (t.core c.val).csWord (64 * o.f 12 0 15 + 4 * i) = mget (0, false) k.stats (2 * slot + i))
           ∧ (∀ a, (a < 64 * o.f 12 0 15 ∨ 64 * o.f 12 0 15 + 8 * rows ≤ a) → (t.core c.val).byteAt a = k.byteAt a))
       ∧ (o.rowFunc = 8 → rowStatus o = 0 → ∃ t e, exec (.statLoad c z) s = .next t ∧ s.onlyCore t c.val ∧ (e = 0 ∨ e = 0x90)
           ∧ k.took (t.core c.val) .row o e (12 + cdiv rows 8 + z) ∧ (t.core c.val).store = k.store ∧ (t.core c.val).pot = k.pot
           ∧ (∀ i < 2 * rows, mget (0, false) (t.core c.val).stats (2 * slot + i) = k.csWord (64 * o.f 8 0 15 + 4 * i))
           ∧ (∀ i, (i < 2 * slot ∨ 2 * slot + 2 * rows ≤ i) → mget (0, false) (t.core c.val).stats i = mget (0, false) k.stats i))
       ∧ ((o.rowFunc = 7 ∨ o.rowFunc = 8) → rowStatus o ≠ 0 → rowStatus o ≠ 0x29 → ∃ t, exec (if o.rowFunc = 7 then .statSave c z else .statLoad c z) s = .next t
           ∧ k.took (t.core c.val) .row o (rowStatus o) 12 ∧ (t.core c.val).store = k.store ∧ (t.core c.val).stats = k.stats))

/-! ### The merge engine (06, 07) -/

/-- R193, R197, R199: GATHER and SCATTER whose field checks hold. One whose table lies in the core store or the
pot reaches no device memory: a GATHER writes its rows one after another and no other byte of the core store, a SCATTER only the table. A SCATTER
whose indices are to be distinct and are not ends with DUP_INDEX and writes nothing. R179 to R182, R187 to R190: SPARSE_COMPRESS, BITMAP_PACK and BITMAP_DECODE. Each ends with its first failing status and leaves the core store as it was, or
with its checks held writes only from its destination up. A pack takes 12 + 2 × ⌈bytes / 64⌉ cycles.
Some clauses take the model's own reading where the rules leave one open (log entries 37, 41). -/
def Obligations.GatherScatterSparseAndBitmap : Prop :=
  (∀ (s : State) (c : CoreIx) (z : Nat) (host : List HostReply) (o : Op),
       let k := s.core c.val
       (s.head c.val .merge 0x30 = some o → gsStatus o = 0 → o.f 0 22 2 ≠ 1 → k.idxFault o = none → ∃ t e cy, exec (.gather c z host) s = .next t ∧ s.onlyCore t c.val
           ∧ k.took (t.core c.val) .merge o e cy ∧ (e = 0 ∨ e = 0x90) ∧ (t.core c.val).pot = k.pot ∧ (t.core c.val).kettle = k.kettle
           ∧ (∃ r ∈ (t.core c.val).running .merge, r.vals.head? = some o.posN)
           ∧ (∀ a, (a < 64 * o.f 8 0 15 ∨ 64 * o.f 8 0 15 + 4 * o.rowWords * o.posN ≤ a) → (t.core c.val).byteAt a = k.byteAt a))
       ∧ (s.head c.val .merge 0x31 = some o → gsStatus o = 0 → o.f 0 22 2 ≠ 1 → k.idxFault o = none → k.dupAt o = none → ∃ t e cy, exec (.scatter c z host) s = .next t
           ∧ s.onlyCore t c.val ∧ k.took (t.core c.val) .merge o e cy ∧ e ∈ [0, 0x50, 0x90] ∧ (t.core c.val).kettle = k.kettle
           ∧ (o.f 0 22 2 = 2 → (t.core c.val).store = k.store) ∧ (o.f 0 22 2 = 0 → (t.core c.val).pot = k.pot))
       ∧ (∀ p, s.head c.val .merge 0x31 = some o → gsStatus o = 0 → k.idxFault o = none → k.dupAt o = some p → ∃ t cy, exec (.scatter c z host) s = .next t ∧ s.onlyCore t c.val
           ∧ k.took (t.core c.val) .merge o 0x53 cy ∧ (t.core c.val).store = k.store ∧ (t.core c.val).pot = k.pot)
       ∧ (∀ j opc, (j, opc) ∈ [(Instr.gather c z host, 0x30), (.scatter c z host, 0x31)] → s.head c.val .merge opc = some o → gsStatus o ≠ 0 →
           ∃ t, exec j s = .next t ∧ s.onlyCore t c.val ∧ k.took (t.core c.val) .merge o (gsStatus o) 12 ∧ (t.core c.val).store = k.store))
  ∧ (∀ (s : State) (c : CoreIx) (z : Nat) (o : Op),
       let k := s.core c.val
       (s.head c.val .merge 0x38 = some o → ∃ t cy, exec (.sparseCompress c z) s = .next t ∧ s.coreAndClock t c.val
           ∧ k.took (t.core c.val) .merge o (s.compressGo c.val o).status cy ∧ (t.core c.val).pot = k.pot ∧ (t.core c.val).planes = k.planes
           ∧ ((s.compressGo c.val o).status ∉ [0, 0x90] → (t.core c.val).store = k.store)
           ∧ (∀ a, a < 64 * o.f 0xC 0 15 → (t.core c.val).byteAt a = k.byteAt a))
       ∧ (s.head c.val .merge 0x39 = some o → ∃ t cy, exec (.bitmapPack c z) s = .next t ∧ s.onlyCore t c.val
           ∧ k.took (t.core c.val) .merge o (s.bitmapPackGo c.val o).status cy ∧ (t.core c.val).pot = k.pot
           ∧ ((s.bitmapPackGo c.val o).status ∉ [0, 0x90] → cy = 12 ∧ (t.core c.val).store = k.store)
           ∧ ((s.bitmapPackGo c.val o).status ∈ [0, 0x90] → cy = 12 + 2 * cdiv ((o.f 0 8 8 + 1) * (o.f 0 0 8 + 1) * esizeBytes (o.f 0 22 2)) 64 + z)
           ∧ (∀ a, a < 64 * o.f 8 0 15 → (t.core c.val).byteAt a = k.byteAt a))
       ∧ (s.head c.val .merge 0x3A = some o → ∃ t cy, exec (.bitmapDecode c z) s = .next t ∧ s.onlyCore t c.val
           ∧ k.took (t.core c.val) .merge o (s.bitmapDecodeGo c.val o).status cy ∧ (t.core c.val).pot = k.pot
           ∧ ((s.bitmapDecodeGo c.val o).status ∉ [0, 0x90] → cy = 12 ∧ (t.core c.val).store = k.store)
           ∧ (o.f 0 20 2 = 0 → ∀ a, a < 64 * o.f 8 0 15 → (t.core c.val).byteAt a = k.byteAt a)))

/-- R178 to R180, R182, R185, R187, R188, R208: on inputs without poison whose fields and ranges are good, SPARSE_COMPRESS of target 1 with LAX set and no mask completes OK; so does a BITMAP_PACK, and a BITMAP_DECODE of an escaped tile to its dense form, which writes the tile's elements in order. Each writes only from its destination up, within
its output. -/
def Obligations.SparseAndBitmapComplete : Prop :=
  ∀ (s : State) (c : CoreIx) (z : Nat) (o : Op), (s.core c.val).storePoison = [] →
    let k := s.core c.val
    (∀ (n gs rb : Nat), n = o.f 4 0 9 → gs = o.f 0 0 7 → rb = rowBytes (o.f 0 16 4) n → s.head c.val .merge 0x38 = some o →
        o.zeros [(0, 7, 9), (0, 23, 1), (4, 25, 7), (4, 9, 7), (8, 31, 1), (8, 15, 1), (0xC, 15, 17)] = true → o.f 0 22 1 = 1 → o.f 0 20 2 = 1 → o.f 0 16 4 < 8 → 0 < gs → gs ≤ 64 → 0 < n → n ≤ 256 →
        o.f 4 16 9 ≤ n → csOver (64 * o.f 8 0 15) (4 * gs * rb) = false → csOver (64 * o.f 0xC 0 15) (lineUp (2 * gs * rb) + lineUp (cdiv (4 * gs * n) 8)) = false →
        overlaps (64 * o.f 8 0 15) (4 * gs * rb) (64 * o.f 0xC 0 15) (lineUp (2 * gs * rb) + lineUp (cdiv (4 * gs * n) 8)) = false →
        ∃ t, exec (.sparseCompress c z) s = .next t ∧ s.onlyCore t c.val ∧ k.took (t.core c.val) .merge o 0 (12 + 2 * cdiv (4 * gs * rb) 64 + z) ∧ (t.core c.val).pot = k.pot ∧ (t.core c.val).planes = k.planes
          ∧ (∃ r ∈ (t.core c.val).running .merge, r.vals.head? = some (gs * n)) ∧ ∀ a, a < 64 * o.f 0xC 0 15 → (t.core c.val).byteAt a = k.byteAt a)
    ∧ (∀ (rows cols sz d : Nat), rows = o.f 0 8 8 + 1 → cols = o.f 0 0 8 + 1 → sz = esizeBytes (o.f 0 22 2) → d = 64 * o.f 8 0 15 → s.head c.val .merge 0x39 = some o →
        o.zeros [(0, 18, 4), (4, 15, 17), (8, 15, 17), (0xC, 0, 32)] = true → o.f 0 22 2 ≠ 3 → o.f 0 16 2 = 1 → csOver (64 * o.f 4 0 15) (rows * cols * sz) = false → csOver d (tileLd rows cols sz) = false →
        overlaps (64 * o.f 4 0 15) (rows * cols * sz) d (tileLd rows cols sz) = false →
        ∃ t, exec (.bitmapPack c z) s = .next t ∧ s.onlyCore t c.val ∧ k.took (t.core c.val) .merge o 0 (12 + 2 * cdiv (rows * cols * sz) 64 + z) ∧ (t.core c.val).pot = k.pot
          ∧ (∃ r ∈ (t.core c.val).running .merge, r.vals.head? = some (rows * cols))
          ∧ (∀ e < rows * cols, (t.core c.val).csNat (d + 64 + e * sz) sz = k.csNat (64 * o.f 4 0 15 + e * sz) sz)
          ∧ ∀ a, (a < d ∨ d + tileLd rows cols sz ≤ a) → (t.core c.val).byteAt a = k.byteAt a)
    ∧ (∀ (h rows cols sz d : Nat), h = k.csNat (64 * o.f 4 0 15) 64 → rows = fld h 0 8 8 + 1 → cols = fld h 0 0 8 + 1 → sz = esizeBytes (o.f 0 22 2) → d = 64 * o.f 8 0 15 → s.head c.val .merge 0x3A = some o →
        o.zeros [(0, 0, 20), (0, 20, 2), (4, 31, 1), (4, 15, 1), (8, 31, 1), (8, 15, 1), (0xC, 0, 32)] = true → fld h 0 31 1 = 1 → fld h 0 29 2 = o.f 0 22 2 → o.f 0 22 2 ≠ 3 →
        popCount 256 (fld h 0x10 0 256) = fld h 8 16 16 → 64 * fld h 8 0 16 = tileLd rows cols sz → csOver (64 * o.f 4 0 15) (tileLd rows cols sz) = false → csOver d (rows * cols * sz) = false →
        overlaps (64 * o.f 4 0 15) (tileLd rows cols sz) d (rows * cols * sz) = false →
        ∃ t cy, exec (.bitmapDecode c z) s = .next t ∧ s.onlyCore t c.val ∧ k.took (t.core c.val) .merge o 0 cy ∧ (t.core c.val).pot = k.pot
          ∧ (∃ r ∈ (t.core c.val).running .merge, r.vals.head? = some (fld h 4 0 32))
          ∧ (∀ e < rows * cols, (t.core c.val).csNat (d + e * sz) sz = k.csNat (64 * o.f 4 0 15 + 64 + e * sz) sz)
          ∧ ∀ a, (a < d ∨ d + rows * cols * sz ≤ a) → (t.core c.val).byteAt a = k.byteAt a)

/-- R202 to R207, R512: SEG_REDUCE, SORT and COMPACT complete on words that are not poisoned, with good fields, counts above 0, ranges within the core store and apart, and for SEG_REDUCE rising offsets from 0 to N: the words they write, and how many. Nothing
else of the core store changes but the scratch range of a SORT and the map of a COMPACT. R204: sorting is stable and loses nothing: the result is a permutation whose keys rise, and pairs of one key keep their order.
Some clauses take the model's own reading where the rules leave one open (log entries 37, 39). -/
def Obligations.SegReduceSortCompact : Prop :=
  (∀ (s : State) (c : CoreIx) (z : Nat) (o : Op), (s.core c.val).storePoison = [] →
       let k := s.core c.val
       let rw := o.rowWords
       let n := o.posN
       (∀ (segs inA offA outA : Nat) (off : Nat → Nat), segs = o.f 8 16 16 → inA = 64 * o.f 4 0 15 → offA = 64 * o.f 8 0 15 → outA = 64 * o.f 0xC 0 15 → s.head c.val .merge 0x32 = some o →
           o.zeros [(0, 10, 12), (4, 15, 1), (8, 15, 1), (0xC, 15, 17)] = true → 0 < n → 0 < segs →
           anyOver [(inA, 4 * rw * n), (offA, 4 * (segs + 1)), (outA, 4 * rw * segs)] = false → anyOverlap [(inA, 4 * rw * n), (offA, 4 * (segs + 1)), (outA, 4 * rw * segs)] = false →
           (∀ i ≤ segs, (k.csWord (offA + 4 * i)).1.toNat = off i) → off 0 = 0 → off segs = n → (∀ i < segs, off i ≤ off (i + 1)) →
           ∃ t, exec (.segReduce c z) s = .next t ∧ s.onlyCore t c.val ∧ k.took (t.core c.val) .merge o 0 (12 + cdiv (segs + 1) 16 + n * rowLines rw + z)
           ∧ (t.core c.val).pot = k.pot ∧ (∃ r ∈ (t.core c.val).running .merge, r.vals.head? = some segs)
           ∧ (∀ g < segs, ∀ j < rw, (t.core c.val).csWord (outA + 4 * (g * rw + j))
               = segWord (o.f 0 22 2) ((List.range (off (g + 1) - off g)).map (fun p => (off g + p, k.csWord (inA + 4 * ((off g + p) * rw + j))))))
           ∧ ∀ a, (a < outA ∨ outA + 4 * rw * segs ≤ a) → (t.core c.val).byteAt a = k.byteAt a)
       ∧ (∀ m io sc : Nat, m = o.f 4 0 17 → io = 64 * o.f 8 0 15 → sc = 64 * o.f 8 16 15 → s.head c.val .merge 0x33 = some o →
           o.zeros [(0, 0, 21), (4, 17, 15), (8, 31, 1), (8, 15, 1), (0xC, 0, 32)] = true → o.f 0 22 2 ≠ 3 → 0 < m → m ≤ 65536 →
           anyOver [(io, 8 * m), (sc, 8 * m)] = false → overlaps io (8 * m) sc (8 * m) = false →
           ∃ t, exec (.sort c z) s = .next t ∧ s.onlyCore t c.val
           ∧ k.took (t.core c.val) .merge o 0 (12 + cdiv m 8 + 4 * m + 1024 + z) ∧ (∃ r ∈ (t.core c.val).running .merge, r.vals.head? = some m)
           ∧ pairWords ((t.core c.val).csRun io (2 * m)) = sortBy (fun p => sortKey (o.f 0 22 2) (o.f 0 21 1 == 1) p.1.1) (pairWords (k.csRun io (2 * m)))
           ∧ ∀ a, (a < io ∨ io + 8 * m ≤ a) → (a < sc ∨ sc + 8 * m ≤ a) → (t.core c.val).byteAt a = k.byteAt a)
       ∧ (∀ (inA mA outA mapA mapB mB pad : Nat) (lens : Bool) (len : Nat → Nat) (kept : List Nat), inA = 64 * o.f 4 0 15 → mA = 64 * o.f 8 16 15 → outA = 64 * o.f 8 0 15 → mapA = 64 * o.f 0xC 0 15 →
           mapB = (if o.f 0 23 1 = 1 then 4 * n else 0) → pad = o.f 0xC 16 16 → lens = (o.f 0 22 1 == 1) → mB = (if lens then 4 * (n / pad) else cdiv n 8) → (∀ i, len i = (k.csWord (mA + 4 * i)).1.toNat) →
           kept = (List.range n).filter (fun p => if lens then decide (p % pad < len (p / pad)) else (k.csElem mA p 1).1 == 1) → s.head c.val .merge 0x34 = some o →
           o.zeros [(0, 10, 12), (4, 15, 1), (8, 31, 1), (8, 15, 1), (0xC, 15, 1)] = true → 0 < n → (lens = true → 0 < pad ∧ n % pad = 0 ∧ ∀ i < n / pad, len i ≤ pad) →
           anyOver [(inA, 4 * rw * n), (mA, mB), (outA, 4 * rw * n), (mapA, mapB)] = false → anyOverlap [(inA, 4 * rw * n), (mA, mB), (mapA, mapB)] = false →
           anyOverlap [(outA, 4 * rw * n), (mA, mB), (mapA, mapB)] = false → (inA = outA ∨ overlaps inA (4 * rw * n) outA (4 * rw * n) = false) →
           ∃ t, exec (.compact c z) s = .next t ∧ s.onlyCore t c.val
           ∧ k.took (t.core c.val) .merge o 0 (12 + (if lens then cdiv n (16 * pad) else cdiv n 512) + kept.length * rowLines rw + z)
           ∧ (t.core c.val).pot = k.pot ∧ (∃ r ∈ (t.core c.val).running .merge, r.vals.head? = some kept.length)
           ∧ (∀ i < kept.length, ∀ j < rw, (t.core c.val).csWord (outA + 4 * (i * rw + j)) = k.csWord (inA + 4 * (nth 0 kept i * rw + j)))
           ∧ (o.f 0 23 1 = 1 → ∀ i < kept.length, (t.core c.val).csWord (mapA + 4 * i) = (BitVec.ofNat 32 (nth 0 kept i), false))
           ∧ ∀ a, (a < outA ∨ outA + 4 * rw * kept.length ≤ a) → (a < mapA ∨ mapA + mapB ≤ a) → (t.core c.val).byteAt a = k.byteAt a))
  ∧ (∀ (key : PWord × PWord → Nat) (l : List (PWord × PWord)),
       (sortBy key l).Perm l ∧ (sortBy key l).Pairwise (fun a b => key a ≤ key b) ∧ ∀ n, (sortBy key l).filter (fun x => key x == n) = l.filter (fun x => key x == n))

/-- R209 to R212, R214: the kettle's open, add and discard. Opening a closed kettle with a good region leaves it empty and OPEN; a
discard leaves it CLOSED; adding to a kettle that is not open ends with its state's status. A pair whose key is not resident in a set with room becomes
resident, and one that is resident is added to. R212, R215: a KETTLE_DRAIN of a kettle that has spilled nothing, into the core store. Its resident pairs come out in rising key order and the kettle
is CLOSED, when they are no more than OUT_MAX; else it ends with DRAIN_OVER and the kettle stays OPEN with its pairs. A drain of a kettle that is not open
ends with its state's status.
Some clauses take the model's own reading where the rules leave one open (log entry 40). -/
def Obligations.KettleCommands : Prop :=
  (∀ (s : State) (c : CoreIx) (z : Nat) (o : Op), s.head c.val .merge 0x35 = some o → kettleEnc o = false →
       let k := s.core c.val
       (o.f 0 22 2 = 0 → k.kettle.st = .closed → o.f64 8 % 64 = 0 → o.f 4 0 32 % 8 = 0 → 8 ≤ o.f 4 0 32 → o.f 4 0 32 ≤ 268435456 →
           s.regionIn (o.f64 8) (16 * o.f 4 0 32) 0 = true → ∃ t, exec (.kettleOpen c z) s = .next t ∧ s.onlyCore t c.val
           ∧ k.took (t.core c.val) .merge o 0 (12 + z) ∧ (t.core c.val).kettle = { st := .opened, entries := [], nextIns := 0, base := o.f64 8, cap := o.f 4 0 32, spilled := 0 })
       ∧ (o.f 0 22 2 = 0 → k.kettle.st = .opened → ∃ t, exec (.kettleOpen c z) s = .next t ∧ k.took (t.core c.val) .merge o 0x55 12 ∧ (t.core c.val).kettle = k.kettle)
       ∧ (o.f 0 22 2 = 0 → k.kettle.st = .lost → ∃ t, exec (.kettleOpen c z) s = .next t ∧ k.took (t.core c.val) .merge o 0x5A 12 ∧ (t.core c.val).kettle = k.kettle)
       ∧ (o.f 0 22 2 = 3 → ∃ t, exec (.kettleDiscard c z) s = .next t ∧ s.onlyCore t c.val ∧ k.took (t.core c.val) .merge o 0 (12 + z) ∧ (t.core c.val).kettle.st = .closed)
       ∧ (o.f 0 22 2 = 1 → 0 < o.posN → csOver (64 * o.f 4 0 15) (8 * o.posN) = false → k.kettle.st ≠ .opened → ∃ t, exec (.kettleAdd c z) s = .next t ∧ s.onlyCore t c.val
           ∧ k.took (t.core c.val) .merge o (if k.kettle.st = .closed then 0x58 else 0x5A) 12 ∧ (t.core c.val).kettle = k.kettle)
       ∧ (o.f 0 22 2 = 1 → o.posN = 1 → csOver (64 * o.f 4 0 15) 8 = false → k.kettle.st = .opened → k.storePoison = [] → k.secded = [] →
           let key := k.csWord (64 * o.f 4 0 15)
           let v := k.csWord (64 * o.f 4 0 15 + 4)
           (∀ w, (∀ e ∈ k.kettle.entries, ¬ (e.set = kettleSet key.1.toNat ∧ e.key = key.1)) → k.kettle.freeWay (kettleSet key.1.toNat) = some w →
             ∃ t, exec (.kettleAdd c z) s = .next t ∧ s.onlyCore t c.val ∧ k.took (t.core c.val) .merge o 0 (13 + z)
               ∧ (t.core c.val).kettle.entries = k.kettle.entries ++ [{ set := kettleSet key.1.toNat, way := w, key := key.1, val := v, ins := k.kettle.nextIns }]
               ∧ (t.core c.val).store = k.store)
           ∧ (∀ e, k.kettle.entries = [e] → e.set = kettleSet key.1.toNat → e.key = key.1 →
             ∃ t, exec (.kettleAdd c z) s = .next t ∧ s.onlyCore t c.val ∧ k.took (t.core c.val) .merge o 0 (13 + z)
               ∧ (t.core c.val).kettle.entries = [{ e with val := (f32add e.val.1 v.1, e.val.2 || v.2) }] ∧ (t.core c.val).store = k.store)))
  ∧ (∀ (s : State) (c : CoreIx) (z : Nat) (host : List HostReply) (o : Op), s.head c.val .merge 0x35 = some o → o.f 0 22 2 = 2 → kettleEnc o = false → o.f 0 21 1 = 0 →
       let k := s.core c.val
       let pairs := (sortBy (·.ins) k.kettle.entries).map (fun e => (((e.key, false) : PWord), e.val))
       let out := sumRuns (sortBy (fun (x : PWord × PWord) => x.1.1.toNat) pairs)
       csOver (o.f64 8) (8 * min (o.f 4 0 32) (k.kettle.spilled + k.kettle.entries.length)) = false →
       (k.kettle.st = .opened → k.kettle.spilled = 0 → k.secded = [] → (∀ e ∈ k.kettle.entries, e.val.2 = false) → out.length ≤ o.f 4 0 32 →
           s.storable (k.kettle.base + 8 * k.kettle.cap) (8 * min k.kettle.entries.length k.kettle.cap) .plain → ∃ t cy, exec (.kettleDrain c z host) s = .next t
           ∧ k.took (t.core c.val) .merge o 0 cy ∧ (t.core c.val).kettle.st = .closed ∧ (∃ r ∈ (t.core c.val).running .merge, r.vals.head? = some out.length)
           ∧ (t.core c.val).csRun (o.f64 8) (2 * out.length) = out.flatMap (fun x => [x.1, x.2])
           ∧ (∀ a, (a < o.f64 8 ∨ o.f64 8 + 8 * out.length ≤ a) → (t.core c.val).byteAt a = k.byteAt a))
       ∧ (k.kettle.st = .opened → k.kettle.spilled = 0 → k.secded = [] → o.f 4 0 32 < out.length → ∃ t cy, exec (.kettleDrain c z host) s = .next t ∧ s.onlyCore t c.val
           ∧ k.took (t.core c.val) .merge o 0x57 cy ∧ (t.core c.val).kettle = k.kettle ∧ (t.core c.val).store = k.store)
       ∧ (k.kettle.st ≠ .opened → ∃ t, exec (.kettleDrain c z host) s = .next t ∧ s.onlyCore t c.val
           ∧ k.took (t.core c.val) .merge o (if k.kettle.st = .closed then 0x58 else 0x5A) 12 ∧ (t.core c.val).kettle = k.kettle ∧ (t.core c.val).store = k.store))

/-! ### The access unit (09) and the caddy (04) -/

/-- R243, R250, R259, R260: a TENSOR_MOVE that fails a check before its first request ends after 16 cycles with that status, moves
nothing and makes no request. R255, R256, R258: translation checks a request in this order: a word of the entry that reads poisoned, VALID, the permission of
its kind; an accumulate to a HOST page is refused. One that passes goes to the entry's target at its page's address. -/
def Obligations.AccessChecks : Prop :=
  (∀ (s : State) (c : CoreIx) (z : Nat) (host : List HostReply) (o : Op) (j : Instr) (dir : Nat), s.head c.val .acc 0x41 = some o → o.move.dir = dir → o.moveStatus ≠ 0 →
       (j, dir) ∈ [(Instr.tensorMoveLoad c z host, 0), (.tensorMoveStore c z host, 1), (.tensorMoveLocal c z, 2)] →
       ∃ t, exec j s = .next t ∧ s.coreAndClock t c.val ∧ (s.core c.val).took (t.core c.val) .acc o o.moveStatus 16
         ∧ (t.core c.val).store = (s.core c.val).store ∧ t.outbox = s.outbox ∧ t.time = s.time)
  ∧ (∀ (s : State) (va : Nat) (k : Acc),
       let n := va / 2097152
       let e := (mget 0 s.pages n).toNat
       let allowed : Prop := (k = .read ∧ e.testBit 62) ∨ (k = .plain ∧ e.testBit 61) ∨ (k = .add ∧ e.testBit 60 ∧ e / 2 ^ 58 % 4 ≠ 2)
       (s.entryBad n = true → s.xlate va k = .inl 0x67)
       ∧ (s.entryBad n = false → e.testBit 63 = false → s.xlate va k = .inl 0x6E)
       ∧ (s.entryBad n = false → e.testBit 63 = true → ¬ allowed → s.xlate va k = .inl 0x6F)
       ∧ (s.entryBad n = false → e.testBit 63 = true → allowed →
           s.xlate va k = .inr (e / 2 ^ 58 % 4, e / 2 ^ 21 % 2 ^ 31 * 2097152 + va % 2097152)))

/-- R244 to R252, R258: TENSOR_MOVE LOAD and LOCAL whose checks hold. The access unit runs them; device memory keeps every byte, and the core
store changes only where requests put their bytes on the packed side. A LOCAL makes no request to memory, so it ends OK, or with
DATA_POISON. R248, R258: TENSOR_MOVE STORE whose checks hold. The core store keeps every byte, and a byte of device memory changes only where
an element of a request is translated to it, by the table as it stands.
Some clauses take the model's own reading where the rules leave one open (log entry 42). -/
def Obligations.TensorMoves : Prop :=
  (∀ (s : State) (c : CoreIx) (z : Nat) (host : List HostReply) (o : Op), s.head c.val .acc 0x41 = some o → o.moveStatus = 0 →
       let k := s.core c.val
       (o.move.dir = 0 → ∃ t e cy, exec (.tensorMoveLoad c z host) s = .next t ∧ k.took (t.core c.val) .acc o e cy ∧ t.mem = s.mem
           ∧ (∀ d, d ≠ c.val → t.core d = s.core d) ∧ (t.core c.val).pot = k.pot ∧ t.lnk = s.lnk ∧ t.chk = s.chk
           ∧ ∀ a, (∀ q ∈ o.move.allReqs, a < q.packed ∨ q.packed + q.bytes ≤ a) → (t.core c.val).byteAt a = k.byteAt a)
       ∧ (o.move.dir = 2 → ∃ t e cy, exec (.tensorMoveLocal c z) s = .next t ∧ s.coreAndClock t c.val ∧ k.took (t.core c.val) .acc o e cy ∧ (e = 0 ∨ e = 0x90)
           ∧ (t.core c.val).pot = k.pot ∧ t.outbox = s.outbox
           ∧ ∀ a, (a < 64 * o.move.cs ∨ o.move.packedEnd ≤ a) → (t.core c.val).byteAt a = k.byteAt a))
  ∧ (∀ (s : State) (c : CoreIx) (z : Nat) (host : List HostReply) (o : Op), s.head c.val .acc 0x41 = some o → o.moveStatus = 0 → o.move.dir = 1 →
       ∃ t e cy, exec (.tensorMoveStore c z host) s = .next t ∧ (s.core c.val).took (t.core c.val) .acc o e cy
         ∧ (t.core c.val).store = (s.core c.val).store ∧ (t.core c.val).pot = (s.core c.val).pot ∧ (∀ d, d ≠ c.val → t.core d = s.core d)
         ∧ ∀ sp a, (∀ q ∈ o.move.allReqs, ∀ x ∈ q.at', ∀ tg pa, s.pageCheck x.1 (if o.move.add then .add else .plain) = .inr (tg, pa) → tg ≠ 2 → spaceOf tg = sp →
             a < pa ∨ pa + x.2 ≤ a) → t.byteAt sp a = s.byteAt sp a)

/-- R128, R134: CADDY_BIND. A core binds to a valid entry in a slot; the entry's first BIND clears its statistics. One that names an
entry that is not valid ends with CADDY_SETUP and binds nothing. R136, R138: CADDY_PUSH and CADDY_POP turned away: a core that is not bound, a slice length of 0, a pop with no frame that holds the core's slice, and a
slice that does not match its frame. Each ends after 16 cycles with its status and leaves the stacks, device memory and the core store as they are.
Some clauses take the model's own reading where the rules leave one open (log entry 43). -/
def Obligations.CaddyBindsAndRefusals : Prop :=
  (∀ (s : State) (c : CoreIx) (z : Nat) (o : Op), s.caddyOp c.val 0 = some o → s.caddyEnc o true = false →
       let e := o.f 0 10 6
       let x : CaddySt := mget {} s.caddySt e
       ((s.caddyEnt e).valid = true → (x.bound = true ∨ s.caddyBad (s.caddyEnt e) = false) → ∃ t, exec (.caddyBind c z) s = .next t
           ∧ (s.core c.val).took (t.core c.val) .acc o 0 (16 + z) ∧ (t.core c.val).caddy = some (e, o.f 0 4 6) ∧ (t.cst e).bound = true ∧ (t.cst e).frames = x.frames
           ∧ (x.bound = false → (t.cst e).pushes = 0 ∧ (t.cst e).pops = 0 ∧ (t.cst e).evicted = 0 ∧ (t.cst e).returned = 0 ∧ (t.cst e).popWait = 0 ∧ (t.cst e).highWater = 0)
           ∧ (x.bound = true → t.cst e = x) ∧ (∀ i, i ≠ e → t.cst i = s.cst i) ∧ t.mem = s.mem ∧ ∀ d, d ≠ c.val → t.core d = s.core d)
       ∧ ((s.caddyEnt e).valid = false → ∃ t, exec (.caddyBind c z) s = .next t ∧ s.onlyCore t c.val ∧ (s.core c.val).took (t.core c.val) .acc o 0x46 16
           ∧ (t.core c.val).caddy = (s.core c.val).caddy))
  ∧ (∀ (s : State) (c : CoreIx) (z : Nat) (o : Op),
       let e := o.f 0 10 6
       let fs := (s.cst e).stack (o.f 0 17 5)
       let ends (j : Instr) (st : Nat) : Prop := ∃ t, exec j s = .next t ∧ s.onlyCore t c.val ∧ (s.core c.val).took (t.core c.val) .acc o st 16
         ∧ (t.core c.val).store = (s.core c.val).store
       s.caddyEnc o false = false → csOver (64 * o.f 8 0 15) (64 * o.f 4 0 16) = false →
       (s.caddyOp c.val 1 = some o →
           (s.boundSlot c.val e = none → ends (.caddyPush c z) 0x40)
           ∧ (∀ slot, s.boundSlot c.val e = some slot → o.f 4 0 16 = 0 → ends (.caddyPush c z) 0x41))
       ∧ (s.caddyOp c.val 2 = some o →
           (s.boundSlot c.val e = none → ends (.caddyPop c z) 0x40)
           ∧ (∀ slot, s.boundSlot c.val e = some slot → (o.f 4 0 16 = 0 ∨ 32768 < o.f 4 0 16) → ends (.caddyPop c z) 0x41)
           ∧ (∀ slot, s.boundSlot c.val e = some slot → 0 < o.f 4 0 16 → o.f 4 0 16 ≤ 32768 → (∀ f ∈ fs, slot ∉ f.pushed ∨ slot ∈ f.popped) → ends (.caddyPop c z) 0x42)
           ∧ (∀ slot f, s.boundSlot c.val e = some slot → 0 < o.f 4 0 16 → o.f 4 0 16 ≤ 32768 → fs = [f] → slot ∈ f.pushed → slot ∉ f.popped →
               (f.lines ≠ o.f 4 0 16 ∨ f.tag ≠ BitVec.ofNat 32 (o.f 12 0 32)) → ends (.caddyPop c z) 0x43)))

/-- R135 to R137: a CADDY_PUSH of a bound core of which every older frame of its stack has its slice. With room for a new frame and no page fault on
the way, the stack gains a frame with the pushed slice's length and tag, in HBM4; the core store keeps its bytes. Without room, the oldest frame's copy to DDR5
begins and the push waits; it ends with CADDY_FULL where DDR5 has no room for that frame.
Some clauses take the model's own reading where the rules leave one open (log entry 43). -/
def Obligations.CaddyPushNewFrame : Prop :=
  (∀ (s : State) (c : CoreIx) (z : Nat) (o : Op) (slot : Nat), s.caddyOp c.val 1 = some o → s.caddyEnc o false = false → csOver (64 * o.f 8 0 15) (64 * o.f 4 0 16) = false →
    s.boundSlot c.val (o.f 0 10 6) = some slot →
    let en := s.caddyEnt (o.f 0 10 6)
    let n := o.f 4 0 16
    let st := o.f 0 17 5
    let fs := (s.cst (o.f 0 10 6)).stack st
    let size := en.members * n
    0 < n → n ≤ 32768 → size ≤ hbmFree en fs → (∀ f ∈ fs, slot ∈ f.pushed) →
    (∀ i < n, ∃ pa, s.xlate (en.hbmAt st + 64 * runLine (takeRuns en.hbmLines (fs.flatMap (·.hbm)) size) (slot * n + i)) .plain = .inr (0, pa) ∧ pa + 64 ≤ s.plan.resBase) →
    ∃ t e f, exec (.caddyPush c z) s = .next t ∧ (s.core c.val).took (t.core c.val) .acc o e (16 + n + z) ∧ (t.core c.val).store = (s.core c.val).store
      ∧ (t.cst (o.f 0 10 6)).stack st = fs ++ [f] ∧ f.lines = n ∧ f.tag = BitVec.ofNat 32 (o.f 12 0 32) ∧ f.pushed = [slot] ∧ f.popped = [] ∧ f.place = .hbm
      ∧ f.hbm = takeRuns en.hbmLines (fs.flatMap (·.hbm)) size ∧ (∀ i, i ≠ o.f 0 10 6 → t.cst i = s.cst i) ∧ ∀ d, d ≠ c.val → t.core d = s.core d)
  ∧ (∀ (s : State) (c : CoreIx) (z : Nat) (o : Op) (slot : Nat) (b : Frame), s.caddyOp c.val 1 = some o → s.caddyEnc o false = false →
       csOver (64 * o.f 8 0 15) (64 * o.f 4 0 16) = false → s.boundSlot c.val (o.f 0 10 6) = some slot →
       let en := s.caddyEnt (o.f 0 10 6)
       let n := o.f 4 0 16
       let st := o.f 0 17 5
       (s.cst (o.f 0 10 6)).stack st = [b] → slot ∈ b.pushed → b.place = .hbm → 0 < n → n ≤ 32768 → en.members * n ≤ en.hbmLines → hbmFree en [b] < en.members * n →
       (b.size ≤ ddrFree en [b] → ∃ t, exec (.caddyPush c z) s = .next t ∧ (∀ e, (t.core c.val).queue e = (s.core c.val).queue e)
           ∧ (t.cst (o.f 0 10 6)).stack st = [{ b with place := .toDdr, ddr := takeRuns en.ddrLines b.ddr b.size }] ∧ (t.core c.val).store = (s.core c.val).store)
       ∧ (ddrFree en [b] < b.size → ∃ t, exec (.caddyPush c z) s = .next t ∧ s.onlyCore t c.val ∧ (s.core c.val).took (t.core c.val) .acc o 0x44 16))

/-- R136, R137: a CADDY_POP of the only frame of a stack by the last member that has not popped it, with the frame in HBM4 and no page fault on the way: the frame goes
and POPS counts one; an older frame that lies in DDR5 starts its way back when HBM4 has room for it. A pop whose frame lies in DDR5 waits, the cycle counted in POP_WAIT. R137: a background copy that finishes. An eviction leaves the frame in DDR5 with its HBM4 lines given back, a read-ahead leaves it in HBM4 with its DDR5 lines
given back; either counts its lines.
Some clauses take the model's own reading where the rules leave one open (log entry 43). -/
def Obligations.CaddyPopsAndCopies : Prop :=
  (∀ (s : State) (c : CoreIx) (z : Nat) (o : Op) (slot : Nat) (f : Frame), s.caddyOp c.val 2 = some o → s.caddyEnc o false = false →
       csOver (64 * o.f 8 0 15) (64 * o.f 4 0 16) = false → s.boundSlot c.val (o.f 0 10 6) = some slot →
       let e := o.f 0 10 6
       let st := o.f 0 17 5
       let n := o.f 4 0 16
       let en := s.caddyEnt e
       let reads : Prop := ∀ i < n, ∃ pa, s.xlate (en.hbmAt st + 64 * runLine f.hbm (slot * n + i)) .read = .inr (0, pa)
       0 < n → n ≤ 32768 → slot ∈ f.pushed → slot ∉ f.popped → f.lines = n → f.tag = BitVec.ofNat 32 (o.f 12 0 32) →
       ((s.cst e).stack st = [f] → f.place = .hbm → f.popped.length + 1 = en.members → reads →
         ∃ t x, exec (.caddyPop c z) s = .next t ∧ (s.core c.val).took (t.core c.val) .acc o x (16 + n + z) ∧ (t.cst e).stack st = []
           ∧ (t.cst e).pops = min (2 ^ 32 - 1) ((s.cst e).pops + 1) ∧ t.mem = s.mem
           ∧ ∀ a, (a < 64 * o.f 8 0 15 ∨ 64 * o.f 8 0 15 + 64 * n ≤ a) → (t.core c.val).byteAt a = (s.core c.val).byteAt a)
       ∧ (∀ g, (s.cst e).stack st = [g, f] → f.place = .hbm → f.popped.length + 1 = en.members → reads → g.place = .ddr → g.size ≤ hbmFree en [g] →
         ∃ t x, exec (.caddyPop c z) s = .next t ∧ (s.core c.val).took (t.core c.val) .acc o x (16 + n + z)
           ∧ (t.cst e).stack st = [{ g with place := .toHbm, hbm := takeRuns en.hbmLines g.hbm g.size }])
       ∧ ((s.cst e).stack st = [f] → f.place = .ddr → ∃ t, exec (.caddyPop c z) s = .next t ∧ (t.cst e).stack st = [f] ∧ (∀ q, (t.core c.val).queue q = (s.core c.val).queue q)
           ∧ (t.cst e).popWait = sat 64 ((s.cst e).popWait + (s.cycles + 1 - (s.core c.val).popWait.getD s.cycles)) ∧ t.mem = s.mem
           ∧ ∀ d, d ≠ c.val → t.core d = s.core d))
  ∧ (∀ (s : State) (e : Fin 64) (k : Fin 32) (f : Frame), (s.cst e.val).stack k.val = [f] →
       (f.place = .toDdr → ∃ t, exec (.caddyCopyDone e k) s = .next t ∧ (t.cst e.val).stack k.val = [{ f with place := .ddr, hbm := [] }]
           ∧ (t.cst e.val).evicted = min (2 ^ 32 - 1) ((s.cst e.val).evicted + f.size) ∧ t.cores = s.cores)
       ∧ (f.place = .toHbm → ∃ t, exec (.caddyCopyDone e k) s = .next t ∧ (t.cst e.val).stack k.val = [{ f with place := .hbm, ddr := [] }]
           ∧ (t.cst e.val).returned = min (2 ^ 32 - 1) ((s.cst e.val).returned + f.size) ∧ t.cores = s.cores)
       ∧ (f.place = .hbm ∨ f.place = .ddr → exec (.caddyCopyDone e k) s = .next s))

/-! ### Governor and placement (05, 11) -/

/-- R160: what the governor wants of an observation. Any non-finite element asks for BF16; a choice that is too narrow is widened at
once; a narrower rank is taken only after HOLD_STEPS decisions in a row have found it enough; else the choice stands. A rank that suffices at
2^−DOWN_LOG2 is never narrower than the one that 2^−UP_LOG2 needs. R161: the format that applies. It is the pin's where the entry is pinned; else the wanted rank where it is allowed, else the
lowest allowed above it, else the highest allowed below it, and BF16 where none is allowed. -/
def Obligations.GovernorChoosesFormat : Prop :=
  (∀ (f : FmtEntry) (o : Obs) (n : Numerics),
       let need := o.rank f n.margin n.up
       let cand := o.rank f n.margin n.down
       (0 < o.nonfinite → govWant f o n = (2, 0))
       ∧ (o.nonfinite = 0 → f.choice < need → govWant f o n = (need, 0))
       ∧ (o.nonfinite = 0 → need ≤ f.choice → f.choice ≤ cand → govWant f o n = (f.choice, 0))
       ∧ (o.nonfinite = 0 → need ≤ f.choice → cand < f.choice → max n.holdSteps 1 ≤ f.downCount + 1 → govWant f o n = (cand, 0))
       ∧ (o.nonfinite = 0 → need ≤ f.choice → cand < f.choice → f.downCount + 1 < max n.holdSteps 1 → govWant f o n = (f.choice, f.downCount + 1))
       ∧ need ≤ cand ∧ cand ≤ 2)
  ∧ (∀ (f : FmtEntry) (w : Nat), w ≤ 2 →
       let ok (r : Nat) : Prop := f.allowed.toNat.testBit r = true
       let a := f.applied w
       (f.pin = true → a = f.pinFormat)
       ∧ (f.pin = false → (ok w → a = w)
         ∧ (¬ ok w → ∀ r, w < r → r ≤ 2 → ok r → (∀ q, w < q → q < r → ¬ ok q) → a = r)
         ∧ (∀ r, r < w → ok r → (∀ q, r < q → q ≤ 2 → ¬ ok q) → a = r)
         ∧ ((∀ r ≤ 2, ¬ ok r) → a = 2)))

/-- R159, R160: GOV_DECISION decides the earliest observation of the entry that has no decision, from the entry's state, and changes
neither the Format Table nor anything else. With none it changes nothing. R160, R161, R166: a decision that takes effect. The entry takes the choice, its counts, its scale and the format that applies, every other entry stands, a
POLICY waymark is recorded when the format in use changes and a POLICY_CONFLICT when it is not the wanted one.
Some clauses take the model's own reading where the rules leave one open (log entry 44). -/
def Obligations.GovernorDecidesAndApplies : Prop :=
  (∀ (s : State) (f : Fin 16384) (p : GovPend) (before after : List GovPend), mget [] s.gov.pend f.val = before ++ p :: after →
       (∀ q ∈ before, q.dec ≠ none) → p.dec = none → (∀ q ∈ before ++ after, q.closedAt ≠ p.closedAt) →
       ∃ t d, exec (.govDecision f) s = .next t ∧ mget [] t.gov.pend f.val = before ++ { p with dec := some d } :: after
         ∧ (d.want, d.downCount) = govWant (mget {} s.fmt f.val) p.obs s.num ∧ d.amax = p.obs.amax ∧ d.eRef = p.obs.eMax (mget {} s.fmt f.val)
         ∧ d.scaleExp = max (-128) (min 127 (15 - (s.num.margin : Int) - d.eRef)) ∧ { t with gov := s.gov } = s
         ∧ ∀ i, i ≠ f.val → mget [] t.gov.pend i = mget [] s.gov.pend i)
  ∧ (∀ (s : State) (f : Nat) (d : GovDec),
       let e : FmtEntry := mget {} s.fmt f
       let a := e.applied d.want
       let t := s.govApply f d
       mget {} t.fmt f = { e with choice := d.want, downCount := d.downCount, eRef := d.eRef, scaleExp := d.scaleExp, amaxLast := d.amax, observed := min (2 ^ 24 - 1) (e.observed + 1), current := a }
       ∧ (∀ i, i ≠ f → mget ({} : FmtEntry) t.fmt i = mget {} s.fmt i) ∧ t.cores = s.cores ∧ t.mem = s.mem ∧ t.groups = s.groups
       ∧ (a = d.want → a = e.current → t.trace = s.trace)
       ∧ (s.trace.eventEn = true → s.trace.ringFull = false → s.trace.wrap = true → 2 ≤ s.trace.slots → a ≠ e.current →
           ∃ i w, (i, w) ∈ t.trace.ring ∧ w.kind = 0x13 ∧ w.payload.toNat / 2 ^ 60 = 2 ∧ w.payload.toNat / 2 ^ 8 % 4 = a % 4 ∧ w.payload.toNat / 2 ^ 4 % 4 = e.current % 4))

/-- R291, R292, R293: what an Expert Map built from another, replica changes and software writes comes to: a pinned replica is active as its pin says, one that is
not provisioned is not active, and an expert with a provisioned replica that is not pinned keeps an active one. R300, R301, R302: PLACEMENT_PROPOSAL and MAP_VERSION_BUILT. A proposal reads the interval's load page, by the control block of its close (R304), and gives the awaited version its replica changes;
one whose page fails a check gives none, and records it. A version complete under a LEG group keeps the map in effect; one that a VETO_SEQ named is dropped, its writes kept for the next (R303); with no LEG group the map takes the
waiting writes at once, as the next version. R297, R298, R300: placement proposes no more replica changes than MAX_CHANGES, 0 acting as 1; and none where no expert
carries load.
Some clauses take the model's own reading where the rules leave one open (log entries 45, 46). -/
def Obligations.ExpertMapsAndPlacement : Prop :=
  (∀ (m : Mem W64) (toggles : List Nat) (writes : List (Nat × W64)), mwf 0 m = true →
       let b := buildMap m toggles writes
       (∀ i, exPin (mget 0 b i) = true → exActive (mget 0 b i) = exPinActive (mget 0 b i))
       ∧ (∀ i, exPin (mget 0 b i) = false → exProv (mget 0 b i) = false → exActive (mget 0 b i) = false)
       ∧ (∀ e, (∃ r < 8, exProv (mget 0 b (8 * e + r)) = true ∧ exPin (mget 0 b (8 * e + r)) = false) → ∃ r < 8, exActive (mget 0 b (8 * e + r)) = true))
  ∧ (∀ (s : State) (host : List HostReply),
       (∀ v, s.experts.pending = some v → v.proposed = false →
         let r := (McRun.start s host).run (v.ctrl.loadVa + 65536 * (v.interval % 2)) 65536
         let p := propose s.experts.map (fun e => nth 0 ((chunksOf 16384 4 r.data).map (fun b => loadOf (BitVec.ofNat 32 (leNat b)))) e) v.ctrl
         (r.fault = none → r.wait = false → ∃ t, exec (.placementProposal host) s = .next t ∧ t.experts.map = s.experts.map ∧ t.experts.seq = s.experts.seq
             ∧ t.experts.pending = some { v with proposed := true, toggles := p.toggles } ∧ t.cores = s.cores ∧ t.mem = s.mem)
         ∧ (∀ e, r.fault = some e → ∃ t, exec (.placementProposal host) s = .next t ∧ t.experts.pending = some { v with proposed := true, toggles := [] }
             ∧ t.experts.map = s.experts.map ∧ t.mem = s.mem))
       ∧ (∀ v, s.legOn = true → s.experts.pending = some v → v.built = false → v.proposed = true → ¬ (v.toggles = [] ∧ v.writes = []) → v.veto = false →
           ∃ t w, exec .mapVersionBuilt s = .next t ∧ t.experts.pending = some w ∧ w.built = true ∧ w.seq = v.seq ∧ w.effectLeg = v.effectLeg
             ∧ w.entries = buildMap s.experts.map v.toggles v.writes ∧ w.check = mapCheck w.entries ∧ t.experts.map = s.experts.map ∧ t.experts.seq = s.experts.seq ∧ t.mem = s.mem)
       ∧ (∀ v, s.legOn = true → s.experts.pending = some v → v.built = false → v.proposed = true → ¬ (v.toggles = [] ∧ v.writes = []) → v.veto = true →
           ∃ t, exec .mapVersionBuilt s = .next t ∧ t.experts.pending = none ∧ t.experts.writes = v.writes ++ s.experts.writes ∧ t.experts.map = s.experts.map
             ∧ t.experts.vetoed = min (2 ^ 32 - 1) (s.experts.vetoed + 1) ∧ t.mem = s.mem)
       ∧ (∀ v, s.legOn = true → s.experts.pending = some v → v.built = false → v.proposed = true → v.toggles = [] → v.writes = [] →
           ∃ t, exec .mapVersionBuilt s = .next t ∧ t.experts.pending = none ∧ t.experts.map = s.experts.map ∧ t.trace = s.trace)
       ∧ (s.legOn = false → s.experts.pending = none → s.experts.writes ≠ [] → ∃ t, exec .mapVersionBuilt s = .next t
             ∧ t.experts.map = buildMap s.experts.map [] s.experts.writes ∧ t.experts.seq = (s.experts.lastSeq + 1) % 2 ^ 24 ∧ t.experts.writes = [] ∧ t.experts.pending = none
             ∧ t.mem.ddr = s.mem.ddr))
  ∧ (∀ (m : Mem W64) (l : Nat → Nat) (x : ExpertCtrl), (propose m l x).toggles.length ≤ max x.maxChanges 1 ∧ ((∀ e, l e = 0) → (propose m l x).toggles = []))

/-! ### Links, transfers and the checker (12, 13) -/

/-- R316 to R318, R327: the states of a link. Loss of signal takes it DOWN; a signal on an enabled, good port starts training; training with at most one bad
lane ends UP with sequence numbers at 0 and the spare in place of the bad lane, with two it ends FAILED, and a third failed try does too; a lane that fails in service is spared once, by a good spare; a
HALT ends in HALTED. A link returns to use only on a die joined to D0 (R437). No core and no device memory changes.
Some clauses take the model's own reading where the rules leave one open (log entry 51). -/
def Obligations.LinkStates : Prop :=
  ∀ (s : State) (l : LinkIx),
    let k := s.link l.val
    let e : LinkEntry := mget {} s.plan.links l.val
    let same (t : State) : Prop := t.cores = s.cores ∧ t.mem = s.mem ∧ t.groups = s.groups ∧ t.host = s.host
    (k.st ≠ .down → k.st ≠ .failed → ∃ t, exec (.lossOfSignal l) s = .next t ∧ (t.link l.val).st = .down ∧ t.mem = s.mem ∧ t.groups = s.groups ∧ t.host = s.host)
    ∧ (k.st = .down → s.lnk.ctrl.en.toNat.testBit l.val = true → s.linksTrain = true → s.portGood l.val = true →
        ∃ t, exec (.linkSignalDetect l) s = .next t ∧ (t.link l.val).st = .training ∧ (t.link l.val).tries = 0 ∧ same t)
    ∧ (∀ id : LinkIdent, k.st = .training → s.dieJoined l.val = true → ((List.range 5).filter (fun i => (id.badLanes ||| e.testBad).toNat.testBit i)).length < 2 →
        ∃ t, exec (.linkTrained l id) s = .next t ∧ (t.link l.val).st = .up ∧ (t.link l.val).txSeq = 0 ∧ (t.link l.val).rxSeq = 0 ∧ (t.link l.val).delay = id.delay
          ∧ (t.link l.val).partner = id.coord ∧ (t.link l.val).partnerLink = id.link.val ∧ (t.link l.val).digest = id.digest
          ∧ (t.link l.val).trainings = min 65535 (k.trainings + 1) ∧ (mget ({} : LinkEntry) t.plan.links l.val).usable = true ∧ same t)
    ∧ (∀ id : LinkIdent, k.st = .training → s.dieJoined l.val = true → 2 ≤ ((List.range 5).filter (fun i => (id.badLanes ||| e.testBad).toNat.testBit i)).length →
        ∃ t, exec (.linkTrained l id) s = .next t ∧ (t.link l.val).st = .failed ∧ (mget ({} : LinkEntry) t.plan.links l.val).usable = false ∧ same t)
    ∧ (k.st = .training → ∃ t, exec (.linkTrainingFail l) s = .next t ∧ (t.link l.val).st = (if 2 ≤ k.tries then .failed else .training)
        ∧ (t.link l.val).tries = k.tries + 1 ∧ same t)
    ∧ (∀ lane : Fin 5, k.st = .up → e.spareFor = 7 → lane.val ≠ 4 → e.badLanes.toNat.testBit 4 = false → ∃ t, exec (.laneRetire l lane) s = .next t ∧ (t.link l.val).st = .sparing
        ∧ (t.link l.val).sparings = min 65535 (k.sparings + 1) ∧ (mget ({} : LinkEntry) t.plan.links l.val).spareFor = lane.val ∧ t.mem = s.mem ∧ t.host = s.host)
    ∧ (∀ lane : Fin 5, k.st = .up → (e.spareFor ≠ 7 ∧ lane.val ≠ e.spareFor) ∨ (e.spareFor = 7 ∧ lane.val ≠ 4 ∧ e.badLanes.toNat.testBit 4 = true) → ∃ t, exec (.laneRetire l lane) s = .next t ∧ (t.link l.val).st = .failed
        ∧ (mget ({} : LinkEntry) t.plan.links l.val).usable = false ∧ t.mem = s.mem ∧ t.host = s.host)
    ∧ (k.st = .sparing → s.dieJoined l.val = true → ∃ t, exec (.sparingDone l) s = .next t ∧ (t.link l.val).st = .up ∧ (mget ({} : LinkEntry) t.plan.links l.val).usable = true ∧ same t)
    ∧ (∀ b, (k.st = .up ∨ k.st = .sparing) → s.dieJoined l.val = true → blockGood b = true → (syncOf b).kind = 6 →
        ∃ t, exec (.halt l b) s = .next t ∧ (t.link l.val).st = .halted ∧ t.mem = s.mem ∧ t.host = s.host)

/-- R320, R321: the link's retry. An ACK frees the flits up to its number; a NAK sends the unacknowledged ones from its number on again, in order, and
counts them; a flit that the link's checks refuse is answered with a NAK and has no other effect; the ACK timer sends what is due. R322: a flit that waits
leaves when an ACK grants its class and channel a credit, with TIME stamped then (R320), and spends it. R324, R326: a sync block whose CRC is bad, or whose origin and number have been seen, has no effect but its link's count of lost copies. R317: a link that is not UP with a direction carries neither flits nor these blocks.
Some clauses take the model's own reading where the rules leave one open (log entries 8, 47). -/
def Obligations.LinkRetryAndLostBlocks : Prop :=
  (∀ (s : State) (l : LinkIx) (b : Block),
       let k := s.link l.val
       let seq := (syncOf b).value / 2 ^ 32 % 4096
       let from_ := k.unacked.dropWhile (fun f => hf f.header 0 12 12 != seq)
       let g := k.grant (BitVec.ofNat 32 (syncOf b).value)
       (blockGood b = true → (syncOf b).kind = 7 → s.carries l.val = true → k.waiting = [] → ∃ t, exec (.ack l b) s = .next t
           ∧ (t.link l.val).unacked = ackThrough seq k.unacked ∧ (t.link l.val).st = .up ∧ t.cores = s.cores ∧ t.mem = s.mem ∧ t.outbox = s.outbox)
       ∧ (∀ f, blockGood b = true → (syncOf b).kind = 7 → s.carries l.val = true → k.waiting = [f] → (ackThrough seq k.unacked).length < 512 → s.feeding = false →
           let sent := g.credited f
           ∃ t, exec (.ack l b) s = .next t ∧ (t.link l.val).waiting = (if sent then [] else [f]) ∧ t.cores = s.cores ∧ t.mem = s.mem
             ∧ t.outbox = s.outbox ++ (if sent then [.flit l.val (sealFlit ((f.stamp s.time.now).raw k.txSeq) f.payload) f.payload] else [])
             ∧ (t.link l.val).txSeq = (if sent then (k.txSeq + 1) % 4096 else k.txSeq)
             ∧ (t.link l.val).credit = (if sent then setAt g.credit f.flow (nth 0 g.credit f.flow - 1) else g.credit))
       ∧ (blockGood b = true → (syncOf b).kind = 8 → s.carries l.val = true → from_ ≠ [] → ¬ (k.lastNak = seq ∧ 8 ≤ k.sameNaks) → s.feeding = false →
           ∃ t, exec (.nak l b) s = .next t ∧ t.outbox = s.outbox ++ from_.map (fun f => Output.flit l.val f.header f.payload) ∧ (t.link l.val).unacked = k.unacked
             ∧ (t.link l.val).retries = min (2 ^ 32 - 1) (k.retries + from_.length) ∧ t.cores = s.cores ∧ t.mem = s.mem)
       ∧ (blockGood b = true → (syncOf b).kind = 8 → s.carries l.val = true → from_ ≠ [] → k.lastNak = seq → 8 ≤ k.sameNaks → ∃ t, exec (.nak l b) s = .next t
           ∧ (t.link l.val).st = .down ∧ t.mem = s.mem)
       ∧ (∀ h p fec (j : Instr), j ∈ [Instr.dataFlit l h p fec, .done l h fec] → (j = .done l h fec → p = []) → s.carries l.val = true →
           (fec = none ∨ flitGood h p = false ∨ h.toNat / 2 ^ 12 % 4096 ≠ k.rxSeq) → s.feeding = false →
           ∃ t x, exec j s = .next t ∧ t.outbox = s.outbox ++ [.linkBlock l.val x] ∧ (syncOf x).kind = 8 ∧ (t.link l.val).rxSeq = k.rxSeq ∧ (t.link l.val).uncorrectable = (if fec = none then min (2 ^ 32 - 1) (k.uncorrectable + 1) else k.uncorrectable) ∧ t.cores = s.cores ∧ t.mem = s.mem)
       ∧ (∀ d, s.carries l.val = true → k.oldestGood = some d → s.feeding = false → ∃ t x, exec (.ackTimer l) s = .next t ∧ t.outbox = s.outbox ++ [.linkBlock l.val x] ∧ (syncOf x).kind = 7
           ∧ (t.link l.val).oldestGood = none ∧ (t.link l.val).sinceAck = 0 ∧ t.cores = (s.toTime (d + 200)).cores ∧ t.mem = s.mem ∧ d + 200 ≤ t.time.now))
  ∧ (∀ (s : State) (l : LinkIx) (b : Block),
       let lost := Host.Outcome.next (φ := Fault) (ρ := Refusal)
         { s with lnk := { s.lnk with links := mset {} s.lnk.links l.val { s.link l.val with lostCopies := min (2 ^ 32 - 1) ((s.link l.val).lostCopies + 1) } } }
       (s.carries l.val = true → blockGood b = false → ∀ i ∈ [Instr.ready l b, .stretch l b, .abandon l b, .due l b, .joinMarker l b, .time l b, .ack l b, .nak l b, .halt l b], exec i s = lost)
       ∧ (s.carries l.val = true → blockGood b = true → ((syncOf b).origin, (syncOf b).id) ∈ s.lnk.seen →
           ((syncOf b).kind = 2 → exec (.stretch l b) s = lost) ∧ ((syncOf b).kind = 3 → exec (.due l b) s = lost) ∧ ((syncOf b).kind = 4 → exec (.abandon l b) s = lost)
           ∧ ((syncOf b).kind = 1 → (syncOf b).leg ≠ 0xFFFFFFFFFFFF → exec (.ready l b) s = lost)
           ∧ ((syncOf b).kind = 1 → (syncOf b).leg = 0xFFFFFFFFFFFF → exec (.joinMarker l b) s = lost))
       ∧ (s.carries l.val = false → ∀ i ∈ [Instr.ready l b, .stretch l b, .abandon l b, .due l b, .joinMarker l b, .ack l b, .nak l b], exec i s = .next s))

/-- R320, R331, R332: the flits of a transfer. A good data flit for this module that alone makes a transfer with no signal is written where its DST is translated, and DONE goes
back; one that a check of R258 stops writes nothing. A good DONE ends the transfer that it names: success adds DONE_ADD to its counter of the posting
core.
Some clauses take the model's own reading where the rules leave one open (log entry 49). R329, R330, R331: POST. A line that is no good post, or a post whose fields R330 refuses, is reported and has no transfer left; a post whose source a check of R258 stops ends at
once; one for this module itself is delivered without a flit on any link.
Some clauses take the model's own reading where the rules leave one open (log entry 49). -/
def Obligations.TransferFlitsAndPosts : Prop :=
  (∀ (s : State) (l : LinkIx) (h : Block),
     let k := s.link l.val
     let x := hdrOf h
     (∀ p n, s.carries l.val = true → s.lnk.rxHeld = [] → flitGood h p = true → h.toNat / 2 ^ 12 % 4096 = k.rxSeq → x.cls = 0 → x.dest = s.coord → x.flits = 1 → s.lnk.rx = [] → x.signal % 4096 = 0 → x.dst % 64 = 0 →
         p.length ≤ 16 → ∀ tg pa, s.xlate x.dst .plain = .inr (tg, pa) → tg < 2 → s.memLost (spaceOf tg) pa = false → s.postHit (spaceOf tg) pa = false →
         ∃ t, exec (.dataFlit l h p (some n)) s = .next t ∧ t.mem.bytes (spaceOf tg) = msetRun 0 (s.mem.bytes (spaceOf tg)) pa ((p.flatMap bytesOf).map (·.1))
           ∧ t.lnk.rx = [] ∧ t.cores = s.cores ∧ ∀ sp, sp ≠ spaceOf tg → t.mem.bytes sp = s.mem.bytes sp)
     ∧ (∀ p e n, s.carries l.val = true → s.lnk.rxHeld = [] → flitGood h p = true → h.toNat / 2 ^ 12 % 4096 = k.rxSeq → x.cls = 0 → x.dest = s.coord → s.lnk.rx = [] → p ≠ [] →
         s.xlate x.dst .plain = .inl e → ∃ t, exec (.dataFlit l h p (some n)) s = .next t ∧ t.mem = s.mem ∧ t.cores = s.cores)
     ∧ (∀ y c n, s.carries l.val = true → s.lnk.rxHeld = [] → flitGood h [] = true → h.toNat / 2 ^ 12 % 4096 = k.rxSeq → x.cls = 1 → x.dest = s.coord → s.lnk.xfers = [y] → x.tag = 64 * y.queue + y.count →
         y.count < 64 → y.queue < 64 → coreOfUnit (pf y.post 0x18 48 16) = some c → x.status = 0 → s.coreOk c = true → (s.core c).power = .on → pf y.post 0x10 0 12 ≠ 0 →
         ∃ t, exec (.done l h (some n)) s = .next t ∧ t.lnk.xfers = [] ∧ t.mem = s.mem
           ∧ mget 0 (t.core c).ctrs (pf y.post 0x10 28 4) = mget 0 (s.core c).ctrs (pf y.post 0x10 28 4) + BitVec.ofNat 32 (pf y.post 0x10 0 12)))
  ∧ (∀ (s : State) (w : LineWrite), s.lnk.xfers = [] → s.lnk.rx = [] → s.lnk.postLines = [w] →
       let only (t : State) : Prop := t.lnk.postLines = [] ∧ t.lnk.xfers = [] ∧ t.mem = s.mem ∧ t.outbox = s.outbox
       (w.line = none → ∃ t, exec .post s = .next t ∧ only t ∧ (w.held = false → t.cores = s.cores))
       ∧ (∀ p, w.line = some p → postBad p = true → ∃ t, exec .post s = .next t ∧ only t ∧ mget 0 t.lnk.posts w.queue = (mget 0 s.lnk.posts w.queue + 1) % 64)
       ∧ (∀ p, w.line = some p → postBad p = false → (∃ j, s.postRead (pf p 0 0 43) (pf p 8 45 19) = .inl j) → ∃ t, exec .post s = .next t ∧ only t)
       ∧ (∀ p ds tg pa, w.line = some p → postBad p = false → s.postRead (pf p 0 0 43) (pf p 8 45 19) = .inr ds → BitVec.ofNat 16 (pf p 0 48 16) = s.coord →
           pf p 8 45 19 = 1 → pf p 0x10 32 12 = 0 → s.xlate (pf p 8 0 43) .plain = .inr (tg, pa) → tg < 2 → s.memLost (spaceOf tg) pa = false → s.postHit (spaceOf tg) pa = false →
           ∃ t, exec .post s = .next t ∧ t.lnk.postLines = [] ∧ t.lnk.xfers = [] ∧ t.lnk.rx = [] ∧ t.outbox = s.outbox
             ∧ t.mem.bytes (spaceOf tg) = msetRun 0 (s.mem.bytes (spaceOf tg)) pa (ds.map (·.1))))

/-- R346 to R350: the reduction checker's commands. Requests are taken in order; one that R346 refuses is counted; a MARK counts and records GRAD_CONTRIB; a COMPARE begins and its end
counts a match, a mismatch or poison, or a bad request where a range cannot be read; host lines are free values. A request taken makes room for the oldest held at the
controller. Device memory stands, and the cores but for a held line's wait.
Some clauses take the model's own reading where the rules leave one open (log entries 9, 55). -/
def Obligations.CheckerCommands : Prop :=
  (∀ (s : State) (w : LineWrite) (q : List LineWrite), s.chk.current = none → s.chk.queue = w :: q →
    let same (t : State) : Prop := t.mem = s.mem ∧ t.groups = s.groups ∧ t.host = s.host ∧ t.lnk = s.lnk ∧ (q.length ≤ 255 → t.cores = s.cores ∧ t.chk.queue = q)
      ∧ (∀ v, q[255]? = some v → t.chk.queue = setAt q 255 { v with held := false })
    (∀ p, w.line = some p → checkBad p = false → cf p 0 62 2 = 0 → ∃ t, exec .mark s = .next t ∧ same t ∧ t.chk.marks = min (2 ^ 32 - 1) (s.chk.marks + 1) ∧ t.chk.current = none)
    ∧ (∀ p, w.line = some p → checkBad p = false → cf p 0 62 2 = 1 → ∃ t, exec .compare s = .next t ∧ same t ∧ t.trace = s.trace ∧ t.chk.current = some p)
    ∧ (∀ i ∈ [Instr.mark, .compare], w.line = none → ∃ t, exec i s = .next t ∧ same t ∧ t.chk.bad = min (2 ^ 32 - 1) (s.chk.bad + 1))
    ∧ (∀ i k p, (i, k) ∈ [(Instr.mark, 0), (.compare, 1)] → w.line = some p → checkBad p = true → (cf p 0 62 2 = k ∨ 2 ≤ cf p 0 62 2) →
        ∃ t, exec i s = .next t ∧ same t ∧ t.chk.bad = min (2 ^ 32 - 1) (s.chk.bad + 1) ∧ t.chk.current = none))
  ∧ (∀ (s : State) (p : Line), s.chk.current = some p →
      let ra := (McRun.start s (s.hostAnswers (2 * cf p 8 45 19 + 4))).run (cf p 8 0 43) (64 * cf p 8 45 19)
      let rb := ra.run (cf p 0x10 0 43) (64 * cf p 8 45 19)
      let ws := (wordsOf ra.bytes).zip (wordsOf rb.bytes)
      let poison := ws.any (fun q => q.1.2 || q.2.2)
      let differ := ws.any (fun q => q.1.1 != q.2.1)
      let ended (t : State) : Prop := t.cores = s.cores ∧ t.mem = s.mem ∧ t.groups = s.groups ∧ t.chk.current = none ∧ t.chk.queue = s.chk.queue
      (rb.fault ≠ none → ∃ t, exec .compareDone s = .next t ∧ ended t ∧ t.chk.bad = min (2 ^ 32 - 1) (s.chk.bad + 1))
      ∧ (rb.fault = none → ∃ t, exec .compareDone s = .next t ∧ ended t
          ∧ t.chk.compares = (if !poison && !differ then min (2 ^ 32 - 1) (s.chk.compares + 1) else s.chk.compares)
          ∧ t.chk.mismatches = (if !poison && differ then min (2 ^ 32 - 1) (s.chk.mismatches + 1) else s.chk.mismatches)
          ∧ t.chk.poisoned = (if poison then min (2 ^ 32 - 1) (s.chk.poisoned + 1) else s.chk.poisoned)
          ∧ (s.chk.halt = true → s.legOn = true → (poison || differ) = true → t.chk.blocked = true)))
/-! ### Legs, mileposts, pace, time, joining and adoption (01, 13) -/

/-- R21, R24, R28, R262: the milepost fires at its instant. The leg that opens has the next number (0 at milepost 0), every core's counters, semaphores and arrivals are
clear in it, and its active groups are RUNNING with nobody ready. Before its due time or a participant's ready time is known there is none.
Some clauses take the model's own reading where the rules leave one open (log entries 5, 27). -/
def Obligations.MilepostOpensLeg : Prop :=
  ∀ (s : State) (r : Series), s.series = some r → s.lnk.rxHeld = [] →
    (∀ t, s.milepostAt = some t → ∃ u, exec .milepost s = .next u ∧ ∀ q, u.series = some q →
      q.opened = some (max s.time.now t) ∧ q.legNo = (if r.opened.isSome then r.legNo + 1 else 0)
        ∧ (∀ c, (u.core c).ctrs = [] ∧ (u.core c).sems = [] ∧ (u.core c).arrivals = []) ∧ ∀ n, (u.group n).legActive = true → (u.group n).st = .running ∧ (u.group n).ready = [])
    ∧ (∀ t, s.milepostAt = some t → (∀ p ∈ s.groups, p.2.releasing = none ∧ p.2.doubt = false) →
        ((∃ n, (s.group n).legActive = true) ∨ ∃ n o a, (s.group n).joinOrder = some o ∧ (s.group n).barrier = false ∧ (s.group n).firstAt = some a ∧ a ≤ max s.time.now t) →
        ∃ u q, exec .milepost s = .next u ∧ u.series = some q ∧ q.opened = some (max s.time.now t) ∧ q.legNo = (if r.opened.isSome then r.legNo + 1 else 0) ∧ u.time.now = max s.time.now t
          ∧ (∀ c, (u.core c).ctrs = [] ∧ (u.core c).sems = [] ∧ (u.core c).arrivals = []) ∧ ∀ n, (u.group n).legActive = true → (u.group n).st = .running ∧ (u.group n).ready = [])
    ∧ (s.milepostAt = none → exec .milepost s = .next s)
    ∧ (∀ d, r.due = some d → r.opened.isSome = true → (s.group r.founder).allReady = true → (s.group r.founder).st ≠ .abandoned → s.milepostAt = some (max d ((s.group r.founder).lastReady + r.latency)))
    ∧ (∀ m ∈ (s.group r.founder).modules, r.opened.isSome = true → (s.group r.founder).readyOf m = none → s.milepostAt = none)

/-- R28, R36, R38, R43, R44, R45: readiness and its absence. A module whose participants have ended the leg puts its ready time into every active group, and one whose participants in a later group alone have ended it into that group;
a ready symbol of a participant is taken once; at the due time a RUNNING group with someone not ready is HELD, with a stretch symbol of this module where it is the late
one; a stretch symbol names an originator; at the deadline HOLD makes the group OVER_LIMIT and ABANDON stops its job, in doubt while nobody is known to be late, until the ready symbols show that all were ready by it; an abandon symbol stops it too; POLICY is written.
Some clauses take the model's own reading where the rules leave one open (log entries 5, 26, 28, 85). -/
def Obligations.LegReadinessAndOverruns : Prop :=
  ∀ (s : State) (l : LinkIx) (b : Block) (g : GroupIx),
    let x := syncOf b
    let heard : Prop := s.hears l.val b
    let k := s.group x.group
    let takes : Prop := k.listening = true ∧ x.leg = s.groupLeg x.group ∧ x.origin ∈ k.modules
    let y := s.group g.val
    let noJoins : Prop := ∀ p ∈ s.groups, p.2.joinOrder = none
    (∀ r n, s.series = some r → r.opened.isSome = true → n ∈ s.activeLegs → (s.group n).readyOf s.coord = none →
      (s.moduleEnded = true ∨ (n ≠ r.founder ∧ s.groupEnded n = true)) →
      ∃ t, exec .moduleReady s = .next t ∧ (s.coord, s.time.now) ∈ (t.group n).ready ∧ t.cores = s.cores ∧ t.mem = s.mem)
    ∧ (heard → x.kind = 1 → x.leg ≠ 0xFFFFFFFFFFFF → takes → k.readyOf x.origin = none → k.doubt = false →
        (∀ r, s.series = some r → r.opened = none ∨ r.founder ≠ x.group ∨ r.due = none ∨ ∃ m ∈ k.modules, m ≠ x.origin ∧ k.readyOf m = none) →
        ∃ t, exec (.ready l b) s = .next t ∧ (t.group x.group).readyOf x.origin = some x.value ∧ (∀ n, n ≠ x.group → t.group n = s.group n) ∧ t.cores = s.cores ∧ t.mem = s.mem)
    ∧ (∀ dl, heard → x.kind = 1 → x.leg ≠ 0xFFFFFFFFFFFF → takes → k.readyOf x.origin = none → k.doubt = true → k.ending = none → s.deadlineOf x.group = some dl →
        (∀ m ∈ k.modules, m ≠ x.origin → k.readyOf m ≠ none) → (∀ p ∈ k.ready, p.2 ≤ dl) → x.value ≤ dl → (∀ r, s.series = some r → r.founder ≠ x.group) →
        ∃ t, exec (.ready l b) s = .next t ∧ (t.group x.group).st = .held ∧ (t.group x.group).doubt = false ∧ t.cores = s.cores ∧ t.mem = s.mem)
    ∧ (∀ r d, s.series = some r → r.due = some d → r.opened.isSome = true → y.owed = none → y.legActive = true → y.st = .running → y.allReady = false →
        ∃ t, exec (.dueTime g) s = .next t ∧ (t.group g.val).st = .held ∧ t.time.now = max s.time.now d ∧ t.cores = (s.toTime d).cores ∧ t.mem = s.mem
          ∧ (y.readyOf s.coord = none → ∃ o ∈ (t.group g.val).origins, o.coord = s.coord) ∧ (y.readyOf s.coord ≠ none → (t.group g.val).origins = y.origins))
    ∧ (heard → x.kind = 2 → takes → (∀ dl, s.deadlineOf x.group = some dl → s.time.now ≤ dl) →
        ∃ t, exec (.stretch l b) s = .next t ∧ (∃ o ∈ (t.group x.group).origins, o.coord = x.origin) ∧ (t.group x.group).st = k.st ∧ t.cores = s.cores ∧ t.mem = s.mem)
    ∧ (∀ dl m, s.deadlineOf g.val = some dl → (∀ r, s.series = some r → r.opened.isSome = true) → y.ending = none → y.doubt = false → y.legActive = true → (y.st = .running ∨ y.st = .held) →
        m ∈ y.modules → y.readyOf m = none →
        (y.abandonPolicy = false → ∃ t, exec (.deadline g) s = .next t ∧ (t.group g.val).st = .overLimit ∧ (t.group g.val).overCount.toNat = min (2 ^ 32 - 1) (y.overCount.toNat + 1)
          ∧ t.time.now = max s.time.now dl ∧ t.cores = (s.toTime dl).cores ∧ ((t.group g.val).doubt = true ↔ s.surelyLate g.val dl = false) ∧ t.mem = s.mem)
        ∧ (y.abandonPolicy = true → noJoins → ∃ t, exec (.deadline g) s = .next t ∧ (t.group g.val).st = .abandoned ∧ (t.group g.val).active = false
          ∧ (t.group g.val).ending = some { leg := s.legNow, judge := dl, choice := dl + y.latency, soft := false }))
    ∧ (heard → x.kind = 4 → k.legActive = true → x.leg = s.legNow → k.releasing = none → noJoins → ∃ t, exec (.abandon l b) s = .next t
        ∧ (t.group x.group).st = .abandoned ∧ (t.group x.group).active = false)
    ∧ (∀ v : W32, s.answers (0x2100 + 0x20 * g.val) = true → y.legActive = true → (bit v.toNat 29 = false ∨ y.st = .running) →
        ∃ t, exec (.policyWrite g v) s = .next t ∧ t.group g.val = { y with abandonPolicy := bit v.toNat 29 } ∧ (∀ n, n ≠ g.val → t.group n = s.group n) ∧ t.cores = s.cores ∧ t.mem = s.mem)

/-- R30 to R35: pace. A stamped edge is kept, with all that a window can reach back to; an edge within T/8 of a compared milepost locks pace with its error and, on the leader, sets the next due time one period
and the error later; a window that closes without one loses pace and sets it one period later; a leader without edges places milepost 0 itself; a due symbol is taken; REALIGN is
noted by a leader that is LOST. No register of a core and no device memory changes.
Some clauses take the model's own reading where the rules leave one open (log entries 31, 32). -/
def Obligations.PaceCommands : Prop :=
  ∀ (s : State) (l : LinkIx) (b : Block) (v : W32),
    let x := syncOf b
    let now := s.time.now
    let at' (n : Nat) (t : State) : Prop := t.cores = (s.toTime n).cores ∧ t.mem = s.mem ∧ t.groups = s.groups
    let same (t : State) : Prop := t.cores = s.cores ∧ t.mem = s.mem ∧ t.groups = s.groups
    let stamped : Prop := s.side.trayRstN = true ∧ s.boot.inReset = false ∧ ∀ e ∈ s.pace.edges.head?, e + 1000 ≤ now ∨ now < e
    (stamped → ∃ t n, exec .paceEdge s = .next t ∧ 8 ≤ n ∧ t.pace.edges = (now :: s.pace.edges).take n ∧ same t
        ∧ ∀ r q e w, s.series = some r → s.pace.edges = q ++ e :: w → (∀ y ∈ q ++ [e], now ≤ y + r.period / 8) → e ∈ t.pace.edges)
    ∧ (¬ stamped → exec .paceEdge s = .next s)
    ∧ (∀ r o, s.series = some r → r.opened = some o → r.relock = false → r.window = true → near8 r.period o now = true → stamped →
        ∃ t, exec .paceEdge s = .next t ∧ t.pace.st = .locked ∧ t.pace.error = (now : Int) - o
          ∧ (s.leads r = true → t.series.bind (·.due) = some (((o + r.period : Nat) : Int) + ((now : Int) - o)).toNat) ∧ (s.leads r = false → t.series.bind (·.due) = r.due))
    ∧ (∀ r o, s.series = some r → r.opened = some o → r.window = true → ∃ t, exec .paceWindowEnd s = .next t ∧ t.pace.st = .lost ∧ t.pace.error = 0 ∧ at' (o + r.period / 8) t
          ∧ t.series.map (·.window) = some false ∧ (s.leads r = true → t.series.bind (·.due) = some (o + r.period)))
    ∧ (∀ r, s.series = some r → r.opened = none → r.due = none → s.leads r = true →
        ∃ t, exec .paceAcquireTimeout s = .next t ∧ t.pace.st = .lost ∧ t.series.bind (·.due) = some (max now (r.joinTime + r.latency + 2 * r.ratio * r.period) + 2 * r.latency) ∧ at' (r.joinTime + r.latency + 2 * r.ratio * r.period) t)
    ∧ (∀ r o, s.hears l.val b → x.kind = 3 → (s.group x.group).owed = none → s.series = some r → r.founder = x.group → s.leads r = false →
        r.opened = some o → x.leg = r.legNo + 1 → ∃ t, exec (.due l b) s = .next t ∧ t.series.bind (·.due) = some x.value ∧ same t
          ∧ (8 * (o + r.period) + r.period < 8 * x.value → t.series.bind (·.nominal) = some (o + r.period) ∧ t.conds.pace = true))
    ∧ (∀ r, bit v.toNat 1 = true → s.answers 0x2020 = true → s.series = some r → s.leads r = true → s.pace.st = .lost →
        ∃ t, exec (.realign v) s = .next t ∧ t.series = some { r with realign := true } ∧ t.pace.en = bit v.toNat 0 ∧ same t)

/-- R46 to R49, R60: the time base. TIME blocks go out on every aligned link and are noted when they come in; an offset of at most 1,000 ns is kept for slewing, and the module reads SYNCED while that and its neighbours' offsets are within 4 ns; a
greater one steps the time base while no leg runs; TIME_SET steps a master's; TIME_NOW_LO and LEG_NO_LO latch their upper halves as they are read.
Some clauses take the model's own reading where the rules leave one open (log entry 33). -/
def Obligations.TimeBase : Prop :=
  ∀ (s : State) (l : LinkIx) (b : Block) (hi : W32),
    let x := syncOf b
    (s.feeding = false → ∃ t, exec .timeSymbolSend s = .next t ∧ (∀ i < 24, s.linkAligned i = true → ∃ y, Output.linkBlock i y ∈ t.outbox)
        ∧ t.outbox.length = s.outbox.length + ((List.range 24).filter s.linkAligned).length ∧ { t with outbox := s.outbox, lnk := s.lnk } = s ∧ t.lnk.links = s.lnk.links)
    ∧ (blockGood b = true → x.kind = 5 → s.linkAligned l.val = true → ∃ t, exec (.time l b) s = .next t
        ∧ (mget ({} : TimeHeard) t.time.heard l.val).master = BitVec.ofNat 16 x.leg ∧ (mget ({} : TimeHeard) t.time.heard l.val).synced = bit x.leg 16
        ∧ (∀ i, i ≠ l.val → (mget ({} : TimeHeard) t.time.heard i).master = (mget ({} : TimeHeard) s.time.heard i).master)
        ∧ t.cores = s.cores ∧ t.mem = s.mem ∧ t.groups = s.groups)
    ∧ (∀ o : Int, -1000 ≤ o → o ≤ 1000 → s.estimate o = { s with time := { s.time with offset := o, synced := decide (-4 ≤ o) && decide (o ≤ 4) && s.neighboursNear } })
    ∧ (∀ o : Int, (o < -1000 ∨ 1000 < o) → s.time.syncEn = true → s.legOn = false → (s.estimate o).time.now = ((s.time.now : Int) + o).toNat ∧ (s.estimate o).time.stepSeen = true
        ∧ (s.estimate o).time.offset = 0 ∧ (s.estimate o).time.synced = (s.estimate o).neighboursNear)
    ∧ (s.answers 0x201C = true → s.time.master = true → s.legOn = false → ∃ t, exec (.timeSet hi) s = .next t ∧ t.time.now = hi.toNat * 2 ^ 32 + s.time.setLo.toNat
        ∧ t.time.stepSeen = true ∧ t.cores = s.cores ∧ t.mem = s.mem ∧ t.groups = s.groups)
    ∧ (s.answers 0x2000 = true → s.feeding = false → ∃ t, exec .timeNowRead s = .next t ∧ t.time.hiLatch = BitVec.ofNat 32 (s.time.now / 2 ^ 32)
        ∧ t.outbox = s.outbox ++ [.regData (BitVec.ofNat 32 (s.time.now % 2 ^ 32))] ∧ { t with outbox := s.outbox, time := s.time } = s)
    ∧ (s.answers 0x2038 = true → s.feeding = false → ∃ t, exec .legNoRead s = .next t ∧ t.legRegs.hiLatch = BitVec.ofNat 16 (s.legNow / 2 ^ 32)
        ∧ t.outbox = s.outbox ++ [.regData (BitVec.ofNat 32 (s.legNow % 2 ^ 32))] ∧ { t with outbox := s.outbox, legRegs := s.legRegs } = s)

/-- R36, R359 to R361, R418: joining and adoption. A join marker is kept, the latest of each origin; ADOPT takes its coordinate,
follows a master and owes its groups stretch symbols, and completes when ADOPT_DONE finds the module in its place; one with a leg on hand is refused with BUSY.
Some clauses take the model's own reading where the rules leave one open (log entries 30, 67). -/
def Obligations.JoinAndAdopt : Prop :=
  ∀ (s : State) (l : LinkIx) (b : Block),
    let x := syncOf b
    (s.hears l.val b → x.kind = 1 → x.leg = 0xFFFFFFFFFFFF → (s.group x.group).joinOrder = none → ∃ t, exec (.joinMarker l b) s = .next t
        ∧ (∃ m ∈ (t.group x.group).markers, m.origin = x.origin ∧ m.check = BitVec.ofNat 32 (x.value / 2 ^ 32) ∧ ∀ p ∈ (t.group x.group).markers, p.origin = x.origin → p = m)
        ∧ (∀ n, n ≠ x.group → t.group n = s.group n) ∧ t.cores = s.cores ∧ t.mem = s.mem)
    ∧ (∀ d, s.mcNext 9 = some d → d.adoptBad = false → s.adoptBusy = false → d.f 0x20 0 16 = 0 → ∃ t, exec (.adopt []) s = .next t ∧ t.coord = BitVec.ofNat 16 (d.f 8 16 16)
        ∧ t.adopt = some { order := d.order, applied := 0, tables := [] } ∧ t.time.syncEn = true ∧ t.cores = s.cores
        ∧ ∀ n < 64, (d.f 0x10 0 64).testBit n = true → (t.group n).owed = some { leg := none, due := none, sent := false, sub := 2 })
    ∧ (∀ d h, s.mcNext 9 = some d → d.adoptBad = false → s.adoptBusy = true → exec (.adopt h) s = .next (s.complete d 0x88 0 0))
    ∧ (∀ a, s.adopt = some a → ∃ t, exec .adoptDone s = .next t ∧ t.adopt = none ∧ t.desc a.order = none)

/-! ### Memory and the host port (14, 15) -/

/-- R365, R371, R377, R378: memory maintenance. A scrub poisons the words it finds bad, keeps every byte and counts what it corrected and each pass; a retrain that
succeeds counts and writes its record, one that fails loses the device; a temperature more than 8 °C from the last training asks for a retrain, at once with no leg
running.
Some clauses take the model's own reading where the rules leave one open (log entry 53). R367, R384, R387, R388, R397: the CXL port. Reads and writes of the DDR5 window reach present memory with their poison; a read outside what is present returns poison
and is counted, a write there or with writes disabled is counted and dropped; snoops are answered, and an invalidation makes the rings that watch the line read it again; configuration, window and keys are set.
Some clauses take the model's own reading where the rules leave one open (log entry 61). -/
def Obligations.MemoryMaintenanceAndCxlPort : Prop :=
  (∀ (s : State) (d : DevIx),
     let k := s.ctl d.val
     let bytes (t : State) : Prop := t.mem.hbm = s.mem.hbm ∧ t.mem.ddr = s.mem.ddr ∧ t.cores = s.cores ∧ t.groups = s.groups
     let calm : Prop := s.legOn = true ∨ ∀ i, (s.ctl i).pending = false
     (∀ line fixed bad last sp a, s.plan.physOf d.val (64 * line) = some (sp, a) → a % 64 = 0 → s.devHere d.val = true → s.mem.selfRefresh = false →
       ∃ t, exec (.scrub d line fixed bad last) s = .next t ∧ bytes t ∧ (∀ i ∈ bad, t.poisonAt sp (a / 4 + i.val) = true)
         ∧ (∀ w, (∀ i ∈ bad, w ≠ a / 4 + i.val) → t.poisonAt sp w = s.poisonAt sp w)
         ∧ (t.ctl d.val).scrubPasses = (if last then sat 32 (k.scrubPasses + 1) else k.scrubPasses) ∧ (fixed ≠ [] → (t.ctl d.val).corrected = sat 32 (k.corrected + fixed.length)))
     ∧ (k.st = 1 → calm → ∃ t, exec (.memRetrainDone d true) s = .next t ∧ bytes t ∧ (t.ctl d.val).st = 0 ∧ (t.ctl d.val).retrains = sat 16 (k.retrains + 1)
         ∧ (t.ctl d.val).trainedAt = k.temp ∧ mget noRecord t.flash.records d.val = { key := (devKey d.val).1, sub := (devKey d.val).2, temp := k.temp })
     ∧ (k.st = 1 → calm → ∃ t, exec (.memRetrainDone d false) s = .next t ∧ bytes t ∧ d.val ∈ t.mem.lost ∧ (mget ({} : MemEntry) t.plan.mems d.val).present = false
         ∧ t.flash = s.flash)
     ∧ (k.st ≠ 1 → ∀ ok, exec (.memRetrainDone d ok) s = .next s)
     ∧ (∀ x : Int, s.devHere d.val = true → calm → ∃ t, exec (.memInterfaceTemperature d x) s = .next t ∧ bytes t ∧ (t.ctl d.val).temp = x
         ∧ ((x - k.trainedAt).natAbs ≤ 64 → t = s.updCtl d.val (fun c => { c with temp := x })) ∧ (64 < (x - k.trainedAt).natAbs → s.legOn = true → (t.ctl d.val).pending = true)
         ∧ (64 < (x - k.trainedAt).natAbs → s.legOn = false → (∀ p ∈ s.mem.ctls, p.2.st ≠ 1) → k.st ≠ 1 → k.lastRetrain = none → (t.ctl d.val).st = 1)))
  ∧ (∀ (s : State) (a : W64),
       let same (t : State) : Prop := t.work = s.work
       (∀ o, s.window a = some o → s.mem.selfRefresh = false → s.memLost .ddr (o / 64 * 64) = false →
         (o < s.plan.ddrBytes → (∀ w < 16, s.poisonAt .ddr (o / 64 * 16 + w) = false) → ∃ t, exec (.cxlMemRead a) s = .next t
           ∧ t = { s with outbox := s.outbox ++ [.memData (bytesLine ((List.range 64).map (fun i => s.byteAt .ddr (o / 64 * 64 + i)))) false] })
         ∧ (o < s.plan.ddrBytes → (∃ w < 16, s.poisonAt .ddr (o / 64 * 16 + w) = true) → ∃ t v, exec (.cxlMemRead a) s = .next t ∧ same t ∧ t.outbox = s.outbox ++ [.memData v true])
         ∧ (s.plan.ddrBytes ≤ o → ∃ t v, exec (.cxlMemRead a) s = .next t ∧ same t ∧ t.outbox = s.outbox ++ [.memData v true] ∧ t.host.outOfRange = sat32 s.host.outOfRange))
       ∧ (∀ o data p, s.window a = some o → s.mem.selfRefresh = false → s.memLost .ddr (o / 64 * 64) = false →
         (o / 64 * 64 < s.plan.ddrBytes → s.host.winWriteEn = true → ∃ t, exec (.cxlMemWrite a data p) s = .next t
           ∧ (∀ i < 64, t.byteAt .ddr (o / 64 * 64 + i) = nth 0 (lineBytes data) i) ∧ (∀ w < 16, t.poisonAt .ddr (o / 64 * 16 + w) = p)
           ∧ (∀ x, (x < o / 64 * 64 ∨ o / 64 * 64 + 64 ≤ x) → t.byteAt .ddr x = s.byteAt .ddr x) ∧ (∀ x, t.byteAt .hbm x = s.byteAt .hbm x) ∧ t.cores = s.cores ∧ t.groups = s.groups)
         ∧ (s.plan.ddrBytes ≤ o / 64 * 64 ∨ s.host.winWriteEn = false → ∃ t, exec (.cxlMemWrite a data p) s = .next t ∧ same t ∧ t.host.outOfRange = sat32 s.host.outOfRange))
       ∧ (s.host.cacheUp = true → (∀ j ∈ [Instr.snpData a, .snpCur a], exec j s = .next { s with outbox := s.outbox ++ [.snpResp (s.holds a)] })
           ∧ ∃ t, exec (.snpInv a) s = .next t ∧ same t ∧ t.holds a = false ∧ Output.snpResp (s.holds a) ∈ t.outbox ∧ ∀ r ∈ s.watchers (a.toNat / 64 * 64), (t.ring r).reading = true)
       ∧ (s.side.perstN = true → s.boot.inReset = false →
           (∀ c m, ∃ t, exec (.cxlConfigWrite c m) s = .next t ∧ same t ∧ t.host.cacheUp = c ∧ t.host.memUp = m ∧ (c = false → t.host.lines = []))
           ∧ (∀ b u, exec (.hdmDecoderCommit b u) s = .next { s with host := { s.host with winBase := b, winUnits := u } }))
       ∧ (s.spdm.session = 2 → ∀ cm key, (∃ t, exec (.ideKm cm key false) s = .next t ∧ same t ∧ mget 0 t.host.ideNext (b2n cm) = key ∧ t.host.ideKeys = s.host.ideKeys)
           ∧ ∃ t, exec (.ideKm cm key true) s = .next t ∧ same t ∧ mget 0 t.host.ideKeys (b2n cm) = mget 0 s.host.ideNext (b2n cm) ∧ (if cm then t.host.ideCachemem else t.host.ideIo) = true))

/-- R389, R395 to R398, R400, R401: rings. An enable with a good configuration starts the ring from its bases and reads its watch line, a bad one sets CONFIG_ERR; a disable stops
taking; a watch line read gives the ring its indices unless it is out of range; a descriptor is taken in ring order; a failed completion write holds the entry; a failed
host read ends its operation.
Some clauses take the model's own reading where the rules leave one open (log entries 15, 58). -/
def Obligations.RingCommands : Prop :=
  ∀ (s : State) (r : RingIx) (v : W32),
    let x := s.ring r.val
    let same (t : State) : Prop := t.work = s.work ∧ ∀ q, q ≠ r.val → t.ring q = s.ring q
    (bit v.toNat 31 = true → s.answers (ringOff r.val 0x18) = true → x.enable = false →
      ((x.fields v).bad = false → ∃ t, exec (.ringEnable r v) s = .next t ∧ same t ∧ (t.ring r.val).enable = true ∧ (t.ring r.val).active = true ∧ (t.ring r.val).stopped = false
        ∧ (t.ring r.val).sqHead = 0 ∧ (t.ring r.val).cqTail = x.held.length ∧ (t.ring r.val).phase = true ∧ (t.ring r.val).held = [] ∧ (t.ring r.val).failing = false ∧ (t.ring r.val).reading = true)
      ∧ ((x.fields v).bad = true → ∃ t, exec (.ringEnable r v) s = .next t ∧ same t ∧ (t.ring r.val).enable = false ∧ (t.ring r.val).configErr = true))
    ∧ (bit v.toNat 31 = false → s.answers (ringOff r.val 0x18) = true → ∃ t, exec (.ringDisable r v) s = .next t ∧ same t ∧ (t.ring r.val).enable = false ∧ (t.ring r.val).active = false
        ∧ (s.inFlight r.val = 0 → (t.ring r.val).stopped = true) ∧ t.host.descs = s.host.descs)
    ∧ (x.enable = true → (s.caches x = false ∨ x.outOfRange = true) → s.feeding = false → s.side.perstN = true → ∃ t, exec (.watchPoll r) s = .next t ∧ same t ∧ (t.ring r.val).reading = true
        ∧ t.outbox = s.outbox ++ [.hostRead x.watch.toNat 1 (s.caches x)])
    ∧ (x.reading = true →
        (∀ d, s.portHeld = false → fld d.toNat 0 0 16 < 2 ^ x.sqLog2 → fld d.toNat 4 0 16 < 2 ^ x.cqLog2 → ∃ t, exec (.watchLineRead r (.line d false)) s = .next t ∧ same t
          ∧ (t.ring r.val).seenSqTail = fld d.toNat 0 0 16 ∧ (t.ring r.val).seenCqHead = fld d.toNat 4 0 16 ∧ (t.ring r.val).outOfRange = false ∧ (t.ring r.val).reading = false)
        ∧ (∀ y, (y = .abort ∨ s.portHeld = true ∨ ∃ d ep, y = .line d ep ∧ (ep = true ∨ 2 ^ x.sqLog2 ≤ fld d.toNat 0 0 16 ∨ 2 ^ x.cqLog2 ≤ fld d.toNat 4 0 16)) →
          ∃ t, exec (.watchLineRead r y) s = .next t ∧ same t ∧ t.host.errWatch = true ∧ (t.ring r.val).outOfRange = true ∧ (t.ring r.val).seenSqTail = x.seenSqTail))
    ∧ (s.ringTurn = some r.val →
        (∀ l ep, s.portHeld = false → knownType (fld l.toNat 0 24 8) = true → ∃ t, exec (.descTake r (.line l ep)) s = .next t ∧ same t ∧ (t.ring r.val).sqHead = (x.sqHead + 1) % 2 ^ x.sqLog2
          ∧ t.host.nextOrder = s.host.nextOrder + 1
          ∧ t.host.descs = s.host.descs ++ [{ order := s.host.nextOrder, ring := r.val, slot := x.sqHead, raw := l, taken := s.time.now, started := false, since := 0, result := none }])
        ∧ (∀ l ep, knownType (fld l.toNat 0 24 8) = false → ∃ t, exec (.descTake r (.line l ep)) s = .next t ∧ same t ∧ ∀ q ∈ t.host.descs, q.order ≠ s.host.nextOrder)
        ∧ ∀ y, y = .abort ∨ s.portHeld = true → ∃ t, exec (.descTake r y) s = .next t ∧ same t ∧ t.host.errAbort = true ∧ ∀ q ∈ t.host.descs, q ∈ s.host.descs)
    ∧ (s.ringTurn ≠ some r.val → ∀ d, exec (.descTake r d) s = .next s)
    ∧ (s.host.burst.2 = 0 → s.mayTake r.val = true → (∀ k < 64, (k + 64 - s.host.ringRr % 64) % 64 < (r.val + 64 - s.host.ringRr % 64) % 64 → s.mayTake k = false) → s.ringTurn = some r.val)
    ∧ (∀ e, x.lastEntry = some e → x.failing = false → ∃ t, exec (.completionWriteFail r) s = .next t ∧ same t ∧ (t.ring r.val).failing = true ∧ (t.ring r.val).active = false
        ∧ (t.ring r.val).held = x.held ++ [e] ∧ t.host.errCq = true)
    ∧ (∀ (c : CoreIx) (k : Running), (s.core c.val).accRun = some k → k.waitHost = true → ∀ j ∈ [Instr.hostAbort (.access c), .hostCompletionTimeout (.access c)],
        ∃ t, exec j s = .next t ∧ (t.core c.val).accRun = some k.unwait ∧ t.host.errAbort = true ∧ (∀ d, d ≠ c.val → t.core d = s.core d) ∧ t.mem = s.mem)
    ∧ (∀ (c : CoreIx) (k : Running), (s.core c.val).mergeRun = some k → k.waitHost = true → ∀ j ∈ [Instr.hostAbort (.merge c), .hostCompletionTimeout (.merge c)],
        ∃ t, exec j s = .next t ∧ (t.core c.val).mergeRun = some k.unwait ∧ t.host.errAbort = true ∧ (∀ d, d ≠ c.val → t.core d = s.core d) ∧ t.mem = s.mem)
    ∧ (∀ slot d, s.host.descs.find? (fun d => d.ring == r.val && d.slot == slot.toNat) = some d → d.started = true → d.result = none → d.type = 3 →
        ∃ t, exec (.hostAbort (.desc r slot)) s = .next t ∧ t.work = s.work ∧ t.host.errAbort = true ∧ ∀ q ∈ t.host.descs, q.order ≠ d.order)

/-- R420: the DESC_DONE waymark. A descriptor completed, with the event ring written, leaves a waymark of KIND 0x10 with this module's coordinate, D0's CXL controller as its unit, the descriptor's group where its type has one
and else 0, and a payload of the status, the type, the ring and the tag with every other bit 0. -/
def Obligations.DescDoneWaymark : Prop :=
  ∀ (s : State) (d : Desc) (status d0 d1 : Nat), s.trace.eventEn = true → s.trace.ringFull = false → s.trace.wrap = true → 2 ≤ s.trace.slots → status < 256 → d.ring < 64 →
    ∃ i w, (i, w) ∈ (s.complete d status d0 d1).trace.ring ∧ w.kind = 0x10 ∧ w.origin = s.coord ∧ w.unit = BitVec.ofNat 16 (unitCode 0 31 0 19)
      ∧ w.group = (if d.type = 2 ∨ d.type = 6 ∨ d.type = 7 ∨ d.type = 8 then d.groupNo else 0) ∧ w.payload.toNat = status * 2 ^ 56 + d.type * 2 ^ 48 + d.ring * 2 ^ 42 + d.tag

/-- R20, R36, R276, R279, R280, R405, R406, R408: the descriptors that run work. LOAD_PROGRAM of a good image on idle usable cores clears their streams and begins the broadcast, a bad one
completes with BAD_IMAGE, and one for a core that became absent in the leg with PARTICIPANT_ABSENT (R74); JOIN sets down its group and waits for the markers of the others; RUN_LEGS waits in its group and is accepted by a joined one; RELEASE of an active group waits for
its milepost, of an IDLE one completes.
Some clauses take the model's own reading where the rules leave one open (log entries 16, 22, 30). -/
def Obligations.DescriptorsThatRunWork : Prop :=
  ∀ (s : State) (d : Desc) (host : List HostReply) (g : GroupIx),
    let same (t : State) : Prop := t.cores = s.cores ∧ t.mem = s.mem
    let im := (McRun.start s host).image (d.f 8 0 64)
    let ms := (List.range (boxSize (d.f 0x10 0 32))).map (s.boxCoord (d.f 0x10 0 32))
    let x := s.group g.val
    (s.mcNext 1 = some d → s.boot.st ≠ .cpReset → d.f 0 0 24 = 0 → d.f 8 0 64 < 2 ^ 43 → d.f 0x10 0 64 < 2 ^ 43 → d.f 8 0 64 % 64 = 0 → d.clear 0x18 = true →
        im.1.fault = none → im.1.wait = false → (∀ c ∈ im.1.st.usableCores, (im.1.st.core c).idle = true) →
        ((∃ c ∈ im.1.st.usableCores, ∃ p ∈ im.1.st.plan.pendingAbsent, p.1 = c) → ∃ t, exec (.loadProgram host) s = .next t ∧ im.1.st.completed t d 0xA3 0 0)
        ∧ ((∀ c ∈ im.1.st.usableCores, ∀ p ∈ im.1.st.plan.pendingAbsent, p.1 ≠ c) → (imageBad im.2 = false → ∃ t b, exec (.loadProgram host) s = .next t ∧ t.host.broadcast = some b ∧ b.order = d.order ∧ b.len = imgLen im.2 ∧ b.targets = im.1.st.usableCores ∧ b.good = []
          ∧ t.mem = im.1.st.mem ∧ ∀ c ∈ im.1.st.usableCores, (t.core c).program = some { len := imgLen im.2, legCycle := imgCycle im.2 } ∧ (t.core c).fwd = {} ∧ (t.core c).ctrs = [] ∧ (t.core c).sems = [])
        ∧ (imageBad im.2 = true → ∃ t, exec (.loadProgram host) s = .next t ∧ im.1.st.completed t d 0xA4 0 0)))
    ∧ (s.mcNext 6 = some d → d.f 0 18 6 = 0 → (s.group d.groupNo).ending = none → s.boot.st ≠ .cpReset → d.joinReserved = false → d.f 0 0 7 ≤ 100 → s.boxBeyond (d.f 0x10 0 32) = false →
        s.coord ∈ ms → s.joinStatus d ms s.usableCores = 0 → (s.group d.groupNo).markers = [] → (∃ m ∈ ms, m ≠ s.coord) → ∃ t, exec (.join host) s = .next t ∧ same t
          ∧ (t.group d.groupNo).joinOrder = some d.order ∧ (t.group d.groupNo).modules = ms ∧ (t.group d.groupNo).cores = s.usableCores ∧ (t.group d.groupNo).period = d.f 8 0 24
          ∧ (t.group d.groupNo).limit = d.f 0 0 7 ∧ (t.group d.groupNo).latency = s.latencyOf ms ∧ (t.group d.groupNo).active = false ∧ (t.group d.groupNo).stretchCount = 0
          ∧ (∃ m ∈ (t.group d.groupNo).markers, m.origin = s.coord) ∧ ∀ n, n ≠ d.groupNo → t.group n = s.group n)
    ∧ (s.power.stopStage = 0 → s.nextOf [2] = some d → d.f 0 14 10 = 0 → d.f 8 0 32 ≠ 0 → d.f 0xC 0 32 = 0 → d.f 0x10 48 16 = 0 → d.clear 0x18 = true → ∃ t, exec .runLegs s = .next t ∧ same t
          ∧ (t.group d.groupNo).runs = (s.group d.groupNo).runs ++ [{ order := d.order, first := d.f 0 0 8, count := d.f 8 0 32, startLeg := if d.f 0x10 0 48 = 0 then none else some (d.f 0x10 0 48), accepted := false }])
    ∧ (∀ r rest, x.runs = r :: rest → r.accepted = false →
        (x.legActive = true → (∀ c ∈ x.cores, ∀ p, (s.core c).program = some p → r.first < p.legCycle) → (∀ k, r.startLeg = some k → s.legNow < k) →
          exec (.runLegsStart g) s = .next (s.updGroup g.val (fun y => { y with runs := { r with accepted := true } :: rest })))
        ∧ (x.legActive = false → x.joinOrder = none → ∃ t, exec (.runLegsStart g) s = .next t ∧ same t ∧ (t.group g.val).runs = rest ∧ ∀ q ∈ t.host.descs, q.order ≠ r.order))
    ∧ (s.mcNext 6 = some d → d.f 0 22 2 = 1 → d.joinReserved = false → (s.group d.groupNo).joinOrder = none → s.holdsOthers d.groupNo = false →
        (∀ q ∈ s.host.descs, q.type = 2 → q.groupNo ≠ d.groupNo) → (s.group d.groupNo).releasing = none →
        ((s.group d.groupNo).legActive = true → ∃ t, exec .release s = .next t ∧ same t ∧ (t.group d.groupNo).releasing = some d.order)
        ∧ ((s.group d.groupNo).legActive = false → (s.group d.groupNo).ending = none → ∃ t, exec .release s = .next t ∧ t.mem = s.mem ∧ (t.group d.groupNo).st = .idle
          ∧ (t.group d.groupNo).active = false ∧ ∀ q ∈ t.host.descs, q.order ≠ d.order))

/-- R411 to R413, R416, R417, R472: the descriptors that read and write tables, order and mark. SET_TABLE takes effect at once with no leg running and waits for a milepost otherwise; the tag area completes when its new copy is
in flash; QUERY writes the entries it names; a FENCE waits for those before it; a RECORD_MARK without AT_MILEPOST is stamped as it was taken.
Some clauses take the model's own reading where the rules leave one open (log entries 29, 56, 60). -/
def Obligations.DescriptorsOfTablesAndOrder : Prop :=
  ∀ (s : State) (d : Desc) (host : List HostReply) (r : RingIx),
    (∀ m ws, s.mcNext 5 = some d → (McRun.start s host).setTable d.raw = .ok m ws →
        (d.f 0 0 8 ≠ 0x0A → ∃ t, exec (.setTable host) s = .next t ∧ (m.st.setApply ws).completed t d 0 ws.length 0 ∧ t.num = (m.st.setApply ws).num ∧ t.pages = (m.st.setApply ws).pages
          ∧ t.fmt = (m.st.setApply ws).fmt ∧ t.caddy = (m.st.setApply ws).caddy ∧ t.host.tables = (m.st.setApply ws).host.tables)
        ∧ (d.f 0 0 8 = 0x0A → ∃ t tags, exec (.setTable host) s = .next t ∧ t.flash.tagNew = some (d.order, tags) ∧ t.flash.tags = m.st.flash.tags ∧ t.work = m.st.work))
    ∧ (∀ w : TabWrite, atOnce w.sel = false →
        (s.legOn = true → s.setApply [w] = { s with host := { s.host with tables := s.host.tables ++ [w] } })
        ∧ (s.legOn = false → w.sel = 4 → (s.setApply [w]).num = numericsOf w.val)
        ∧ (s.legOn = false → w.sel = 5 → mget 0 (s.setApply [w]).pages w.ix = BitVec.ofNat 64 w.val ∧ ∀ i, i ≠ w.ix → mget 0 (s.setApply [w]).pages i = mget 0 s.pages i)
        ∧ (s.legOn = false → w.sel = 3 → (mget ({} : FmtEntry) (s.setApply [w]).fmt w.ix).pin = bit w.val 31
            ∧ (mget ({} : FmtEntry) (s.setApply [w]).fmt w.ix).current = (if bit w.val 31 then bits w.val 26 2 else (mget ({} : FmtEntry) s.fmt w.ix).current)))
    ∧ (∀ o tags, s.flash.tagNew = some (o, tags) → ∃ t, exec .tagAreaFlashWritten s = .next t ∧ t.flash.tags = tags ∧ t.flash.tagCount = s.flash.tagCount + 1 ∧ t.flash.tagNew = none
        ∧ t.work = s.work ∧ t.desc o = none)
    ∧ (∀ size n bs, s.mcNext 10 = some d → s.queryShape (d.f 0 0 8) = some (size, n) → d.f 0 0 8 ≠ 1 → d.f 0 8 16 = 0 → d.f 0x18 0 16 = 0 → d.clear 0x20 = true → d.f 0x10 0 64 % 64 = 0 →
        0 < d.f 0xC 0 32 → d.f 8 0 32 + d.f 0xC 0 32 ≤ n → (tabCore d.raw).isSome = true → size * d.f 0xC 0 32 ≤ d.f 0x1C 0 32 →
        bs = (List.range (d.f 0xC 0 32)).flatMap (fun i => s.queryEntry (d.f 0 0 8) (nth 0 s.usableCores 0) (d.f 8 0 32 + i)) → 0 < bs.length → bs.length ≤ 64 → s.feeding = false → s.side.perstN = true →
        ∃ t, exec (.query []) s = .next t ∧ t.work = s.work ∧ Output.hostWrite (d.f 0x10 0 64) bs false ∈ t.outbox ∧ ∀ q ∈ t.host.descs, q.order ≠ d.order)
    ∧ (s.mcNext 8 = some d → d.f 0 23 1 = 0 → d.f 0 14 8 = 0 → d.f 0 0 8 = 0 → d.clear 0x10 = true → d.f 0 22 1 = 0 → ∃ t, exec .recordMark s = .next t ∧ t.work = s.work
        ∧ s.completedAt t d d.taken 0 0 0)
    ∧ (s.host.descs.find? (fun d => d.ring == r.val && !d.started && d.type == 7 && !s.fenced d) = some d → d.f 0 14 8 = 0 → d.f 0 0 8 = 0 → d.clear 8 = true →
        (d.f 0 22 1 = 0 ∨ (s.group d.groupNo).st = .running) → exec (.descFence r) s = .next (s.startDesc d))
    ∧ (s.host.descs.find? (fun d => d.ring == r.val && d.started && d.type == 7) = some d → d.f 0 22 1 = 0 →
        (s.fenceReady d = true → ∃ t, exec (.descFenceDone r) s = .next t ∧ t.work = s.work ∧ s.completed t d 0 0 0)
        ∧ (s.fenceReady d = false → exec (.descFenceDone r) s = .next s))

/-- R389, R409, R410: MOVE and FILL issue their lines in ascending order, some of them as they start and the rest by HOST_DMA_DONE, which completes the transfer with the lines it wrote. A FILL puts its pattern into
every line, a MOVE the host's lines or a line of device memory; bytes outside the lines written stand; a MOVE to the host changes no device memory. A transfer that lacks a host completion stays in hand.
Some clauses take the model's own reading where the rules leave one open (log entry 59). -/
def Obligations.MoveAndFill : Prop :=
  (∀ (s : State) (d : Desc) (pa : Nat → Nat) (n : Nat),
    let plain (dst : Nat) : Prop := dst % 64 = 0 ∧ ∀ i < n, s.xlate (dst + 64 * i) .plain = .inr (0, pa i) ∧ pa i % 64 = 0 ∧ s.postHit .hbm (pa i) = false ∧ s.memLost .hbm (pa i) = false ∧ pa i + 64 ≤ s.plan.resBase
    let apart : Prop := ∀ i < n, ∀ j < n, i ≠ j → pa i ≠ pa j
    let frame (t : State) (k : Nat) : Prop := k < n ∧ t.cores = s.cores ∧ t.groups = s.groups ∧ (∀ a, (∀ i < k, a < pa i ∨ pa i + 64 ≤ a) → t.byteAt .hbm a = s.byteAt .hbm a) ∧ t.mem.ddr = s.mem.ddr
    let inHand (t : State) (k : Nat) (r : List HostReply) : Prop := t.dmaHand = some { d with started := true, since := s.time.now, result := none, progress := k, replies := r, lost := false }
    (s.dmaNext 4 = some d → d.f 0 0 24 = 0 → d.f 0x10 0 28 = n → 0 < n → d.f 0x10 28 4 = 0 → d.clear 0x18 = true → d.f 8 0 64 < 2 ^ 43 → plain (d.f 8 0 64) →
        ∃ t k, exec .fill s = .next t ∧ frame t k ∧ inHand t k [] ∧ ∀ i < k, (∀ j < 64, t.byteAt .hbm (pa i + j) = (nth (0, false) d.pattern j).1) ∧ ∀ w < 16, t.poisonAt .hbm (pa i / 4 + w) = false)
    ∧ (s.dmaNext 3 = some d → d.f 0 0 22 = 0 → d.f 0x18 0 28 = n → 0 < n → d.f 0x18 28 4 = 0 → d.clear 0x1C = true → d.f 8 0 64 % 64 = 0 → d.f 0x10 0 64 % 64 = 0 →
        (d.f 0 22 2 = 0 → d.f 0x10 0 64 < 2 ^ 43 → s.feeding = false → s.side.perstN = true → plain (d.f 0x10 0 64) → apart → ∀ ls : List Line, ls.length = n →
          ∃ t k, exec (.move (ls.map (fun l => HostReply.line l false))) s = .next t ∧ frame t k ∧ inHand t k ((ls.drop k).map (fun l => HostReply.line l false))
            ∧ ∀ i < k, ∀ j < 64, t.byteAt .hbm (pa i + j) = nth 0 (lineBytes (nth 0 ls i)) j)
        ∧ (d.f 0 22 2 = 1 → d.f 8 0 64 < 2 ^ 43 → s.feeding = false → s.side.perstN = true → (∀ i < n, ∃ ds, s.vaRead (d.f 8 0 64 + 64 * i) 64 = .inr ds) →
          ∃ t k, exec (.move []) s = .next t ∧ k < n ∧ t.work = s.work ∧ inHand t k [] ∧ ∀ i < k, ∀ ds, s.vaRead (d.f 8 0 64 + 64 * i) 64 = .inr ds →
            Output.hostWrite (d.f 0x10 0 64 + 64 * i) (ds.map (·.1)) (ds.any (·.2)) ∈ t.outbox)
        ∧ (d.f 0 22 2 = 2 → d.f 8 0 64 < 2 ^ 43 → d.f 0x10 0 64 < 2 ^ 43 → (d.f 0x10 0 64 + 64 * n ≤ d.f 8 0 64 ∨ d.f 8 0 64 + 64 * n ≤ d.f 0x10 0 64) → plain (d.f 0x10 0 64) →
          (∀ i < n, ∃ ds, s.vaRead (d.f 8 0 64 + 64 * i) 64 = .inr ds) → ∃ t k, exec (.move []) s = .next t ∧ frame t k ∧ inHand t k [])))
  ∧ (∀ (s : State) (d : Desc) (pa : Nat → Nat), s.dmaHand = some d → d.lost = false →
    let n := d.dmaLines
    let plain (dst : Nat) : Prop := d.result = none ∧ d.progress < n ∧ dst % 64 = 0
      ∧ ∀ i < n, d.progress ≤ i → s.xlate (dst + 64 * i) .plain = .inr (0, pa i) ∧ pa i % 64 = 0 ∧ s.postHit .hbm (pa i) = false ∧ s.memLost .hbm (pa i) = false ∧ pa i + 64 ≤ s.plan.resBase
    let apart : Prop := ∀ i < n, ∀ j < n, i ≠ j → pa i ≠ pa j
    let frame (t : State) : Prop := t.cores = s.cores ∧ t.groups = s.groups ∧ (∀ a, (∀ i < n, d.progress ≤ i → a < pa i ∨ pa i + 64 ≤ a) → t.byteAt .hbm a = s.byteAt .hbm a) ∧ t.mem.ddr = s.mem.ddr
    (d.type = 4 → plain (d.f 8 0 64) → ∃ t, exec .hostDmaDone s = .next t ∧ frame t ∧ s.completed t d 0 n 0
        ∧ ∀ i < n, d.progress ≤ i → (∀ j < 64, t.byteAt .hbm (pa i + j) = (nth (0, false) d.pattern j).1) ∧ ∀ w < 16, t.poisonAt .hbm (pa i / 4 + w) = false)
    ∧ (d.type = 3 → d.f 0 22 2 = 0 → s.feeding = false → s.side.perstN = true → plain (d.f 0x10 0 64) → apart → ∀ ls : List Line, ls.length = n - d.progress → d.replies = ls.map (fun l => HostReply.line l false) →
        ∃ t, exec .hostDmaDone s = .next t ∧ frame t ∧ s.completed t d 0 n 0
          ∧ ∀ i < n, d.progress ≤ i → ∀ j < 64, t.byteAt .hbm (pa i + j) = nth 0 (lineBytes (nth 0 ls (i - d.progress))) j)
    ∧ (d.type = 3 → d.f 0 22 2 = 0 → s.feeding = false → s.side.perstN = true → d.result = none → d.progress < n → d.replies = [] → ∃ t, exec .hostDmaDone s = .next t ∧ t.work = s.work ∧ t.dmaHand = some d)
    ∧ (d.type = 3 → d.f 0 22 2 = 1 → s.feeding = false → s.side.perstN = true → d.result = none → d.progress < n → d.replies = [] → (∀ i < n, ∃ ds, s.vaRead (d.f 8 0 64 + 64 * i) 64 = .inr ds) →
        ∃ t, exec .hostDmaDone s = .next t ∧ t.work = s.work ∧ s.completed t d 0 n 0
          ∧ ∀ i < n, d.progress ≤ i → ∀ ds, s.vaRead (d.f 8 0 64 + 64 * i) 64 = .inr ds → Output.hostWrite (d.f 0x10 0 64 + 64 * i) (ds.map (·.1)) (ds.any (·.2)) ∈ t.outbox)
    ∧ (d.type = 3 → d.f 0 22 2 = 2 → plain (d.f 0x10 0 64) → (∀ i < n, ∃ ds, s.vaRead (d.f 8 0 64 + 64 * i) 64 = .inr ds) →
        ∃ t, exec .hostDmaDone s = .next t ∧ frame t ∧ s.completed t d 0 n 0
          ∧ (d.progress + 1 = n → ∀ ds, s.vaRead (d.f 8 0 64 + 64 * d.progress) 64 = .inr ds → ∀ j < 64, t.byteAt .hbm (pa d.progress + j) = (nth (0, false) ds j).1))
    ∧ (∀ st d0 d1, d.result = some (st, d0, d1) → ∃ t, exec .hostDmaDone s = .next t ∧ t.work = s.work ∧ s.completed t d st d0.toNat d1.toNat))
/-! ### Start-up, resets and images (16, 19) -/

/-- R62 to R65, R426, R428, R429, R431, R434, R435, R440, R442: start-up. The boot image is verified and runs, or the module waits for one; the start-up test's findings give each core its entry, a
usable one with W of its good columns and its domain on; a stack that trains makes the module READY, none makes it FAILED; images are fetched, verified and run or refused with their code; training
records are cleared, but for a clear that finds a retrain going on.
Some clauses take the model's own reading where the rules leave one open (log entries 62, 63). -/
def Obligations.StartUp : Prop :=
  ∀ (s : State) (v : W32),
    let b := s.boot
    (b.st = .rom → b.inReset = false →
        (s.verifyImage s.flashImage = 0 → ∃ t, exec .bootVerifyDone s = .next t ∧ t.boot.st = .fwStart ∧ t.boot.running = some (imageOf s.flashImage) ∧ { t with boot := s.boot } = s)
        ∧ (s.verifyImage s.flashImage ≠ 0 → ∃ t, exec .bootVerifyDone s = .next t ∧ t.boot.st = .waitImage ∧ t.boot.fail = s.verifyImage s.flashImage ∧ { t with boot := s.boot } = s))
    ∧ (b.st = .fwStart → exec .fwStartDone s = .next { s with boot := { s.boot with st := .test } })
    ∧ (∀ d : Defects, b.st = .test →
        ((∃ x ∈ d.devices, 20 ≤ x) → ∃ t, exec (.startupTestDone d) s = .next t ∧ t.boot.st = .failed ∧ t.boot.fail = 0x10)
        ∧ ((∀ x ∈ d.devices, x < 20) → (∃ x < 2, x ∉ d.devices ∧ Config.fuseDevices.contains x = false ∧ s.power.shut.toNat.testBit (8 + x) = false) →
          ∃ t, exec (.startupTestDone d) s = .next t ∧ t.boot.st = .train ∧ t.plan.generation = 1 ∧ t.plan.startTime = s.time.now ∧ t.mem = s.mem
          ∧ ∀ c < 1152, let e : CoreEntry := mget {} t.plan.cores c
            (e.usable = true → 120 ≤ 132 - e.badCols.length ∧ e.width = min (132 - e.badCols.length) 128 ∧ e.fuseBlocks ||| e.testBlocks = 0 ∧ t.core c = { power := .on, flags := mget [] s.flagsHeld c })
            ∧ (e.usable = false → t.core c = {})))
    ∧ (∀ ds, b.st = .train →
        ((∃ x < 8, (mget ({} : MemEntry) s.plan.mems x).present = true ∧ nth .full ds x ∈ [DevTrain.saved, .full]) → ∃ t, exec (.memoryTrainingDone ds) s = .next t ∧ t.boot.st = .ready ∧ t.boot.forceFull = false
          ∧ t.plan.valid = true ∧ t.cores = s.cores)
        ∧ ((∀ x < 8, (mget ({} : MemEntry) s.plan.mems x).present = false ∨ nth .full ds x ∉ [DevTrain.saved, .full]) → ∃ t, exec (.memoryTrainingDone ds) s = .next t ∧ t.boot.st = .failed
          ∧ t.boot.fail = 0x11))
    ∧ (keyed v = true → bit v.toNat 0 = true → s.answers 0x01A4 = true → b.st = .waitImage → ∃ t, exec (.push v) s = .next t ∧ t.boot.st = .receive ∧ t.boot.imgState = 1 ∧ t.boot.pushing = true
        ∧ t.boot.persist = bit v.toNat 2 ∧ t.work = s.work)
    ∧ (keyed v = true → bit v.toNat 1 = true → bit v.toNat 0 = false → s.answers 0x01A4 = true → ∃ t, exec (.update v) s = .next t ∧ t.boot.st = b.st ∧ t.work = s.work
        ∧ (b.st = .ready → b.imgState = 0 ∨ 4 ≤ b.imgState → t.boot.imgState = 1 ∧ t.boot.pushing = false) ∧ (b.st ≠ .ready ∨ (b.imgState ≠ 0 ∧ b.imgState < 4) → t.boot.imgResult = 7))
    ∧ (b.imgState ≠ 0 → b.imgState < 4 →
        (∀ i f, i = none ∨ s.portHeld = true → ∃ t, exec (.imgDone i f) s = .next t ∧ t.boot.imgState = 5 ∧ t.boot.imgResult = 1 ∧ (b.pushing = true → t.boot.st = .waitImage) ∧ t.flash = s.flash)
        ∧ (∀ i f, s.portHeld = false → s.verifyImage (i.take b.imgLen.toNat) ≠ 0 → ∃ t, exec (.imgDone (some i) f) s = .next t ∧ t.boot.imgState = 5 ∧ t.boot.imgResult = s.verifyImage (i.take b.imgLen.toNat) ∧ t.flash = s.flash)
        ∧ (∀ i, s.portHeld = false → i.length ≤ b.imgLen.toNat → s.verifyImage i = 0 → ∃ t, exec (.imgDone (some i) true) s = .next t ∧ t.boot.imgState = 4 ∧ (b.pushing = true → t.boot.st = .fwStart ∧ t.boot.running = some (imageOf i) ∧ t.boot.pushed = !b.persist)
          ∧ (b.pushing = false → t.boot.st = b.st ∧ t.boot.running = b.running) ∧ t.flash.image = (if b.pushing && !b.persist then s.flash.image else some i)))
    ∧ (bit v.toNat 1 = true → s.answers 0x0190 = true →
        (b.st ≠ .train → (∀ p ∈ s.mem.ctls, p.2.st ≠ 1) → ∃ t, exec (.recordClear v) s = .next t ∧ t.flash.records = [] ∧ t.boot.forceFull = bit v.toNat 0 ∧ t.work = s.work)
        ∧ ((∃ p ∈ s.mem.ctls, p.2.st = 1) → ∃ t, exec (.recordClear v) s = .next t ∧ t.flash = s.flash ∧ t.boot = s.boot ∧ t.work = s.work))

/-- R436: a write of CP_RESET is accepted only in READY. It is ignored while CP_BUSY is 1 and in any other state; an accepted one sets CP_BUSY and BOOT_STATE 8 and counts in CP_RESET_COUNT. -/
def Obligations.CpResetAcceptedOnlyInReady : Prop :=
  ∀ (s : State) (v : W32), keyed v = true → bit v.toNat 0 = true → bit v.toNat 1 = false → s.answers 0x0188 = true →
    (s.boot.st = .ready → s.boot.cpBusy = false → ∃ t, exec (.cpReset v) s = .next t ∧ t.boot.cpBusy = true ∧ t.boot.st.code = 8 ∧ t.boot.cpCount.toNat = min 65535 (s.boot.cpCount.toNat + 1))
    ∧ (s.boot.cpBusy = true ∨ s.boot.st ≠ .ready → ∃ t, exec (.cpReset v) s = .next t ∧ { t with trace := s.trace } = s)

/-- R422, R423, R432, R433, R436 to R439, R463, R492, R497, R498, R508: resets and power. A tray reset, a module reset and a loss of input clear what a cold start clears and keep the flash; a
compute-part reset stops every stream and leg, switches the cores off with device memory kept, and ends in READY; HOST_PERST_N holds the port in reset.
Some clauses take the model's own reading where the rules leave one open (log entries 63, 64, 66). -/
def Obligations.ResetsAndPower : Prop :=
  ∀ (s : State) (v : W32) (mv : W16),
    let clear (t : State) : Prop := t.cores = [] ∧ t.mem = {} ∧ t.groups = [] ∧ t.series = none ∧ t.host.descs = [] ∧ t.host.rings = [] ∧ t.spdm = {} ∧ t.flash.secFloor = s.flash.secFloor
        ∧ t.flash.tags = s.flash.tags ∧ t.flash.records = s.flash.records ∧ t.pending = s.pending
    (s.side.trayRstN = true → ∃ t, exec .trayRstNAssert s = .next t ∧ clear t ∧ t.boot.inReset = true ∧ t.power.railsOn = false ∧ t.side.trayRstN = false ∧ (s.boot.inReset = false → t.boot.lastReset = 1))
    ∧ (s.side.trayRstN = false → s.power.inputBad = false → s.side.vaux = true → ∃ t, exec .trayRstNRelease s = .next t ∧ clear t ∧ t.boot.inReset = false ∧ t.boot.st = .rom ∧ t.time.now = 0
        ∧ t.power.railsOn = true ∧ t.side.slot = Config.slotId)
    ∧ (keyed v = true → bit v.toNat 1 = true → s.answers 0x0188 = true → ∃ t, exec (.moduleReset v) s = .next t ∧ clear t ∧ t.boot.st = .rom ∧ t.boot.lastReset = 2 ∧ t.time.now = 0
        ∧ t.host.memUp = s.host.memUp ∧ t.host.cacheUp = s.host.cacheUp ∧ t.host.winBase = s.host.winBase ∧ t.host.winUnits = s.host.winUnits ∧ t.host.ideKeys = s.host.ideKeys)
    ∧ (keyed v = true → bit v.toNat 0 = true → bit v.toNat 1 = false → s.answers 0x0188 = true → s.boot.st = .ready → s.boot.cpBusy = false → ∃ t, exec (.cpReset v) s = .next t
        ∧ t.boot.st = .cpReset ∧ t.boot.cpBusy = true ∧ t.boot.cpStage = 1 ∧ t.boot.lastReset = 3 ∧ t.mem.hbm = s.mem.hbm ∧ t.mem.ddr = s.mem.ddr ∧ t.series = none
        ∧ (∀ c, (t.core c).fwd.phase = .idle ∧ (t.core c).bwd.phase = .idle ∧ (t.core c).upd.phase = .idle) ∧ ∀ n, (t.group n).legActive = false)
    ∧ (s.boot.st ≠ .ready → ∃ t, exec (.cpReset v) s = .next t ∧ t.boot = s.boot ∧ t.work = s.work)
    ∧ (s.boot.cpStage = 1 → ∃ t, exec .cpPowerOff s = .next t ∧ t.cores = [] ∧ t.clk.stopped = true ∧ t.boot.cpStage = 2 ∧ t.mem = s.mem ∧ t.groups = s.groups ∧ t.host = s.host)
    ∧ (∀ d, s.boot.cpStage = 2 → s.host.tables = [] → ∃ t, exec (.cpTestDone d) s = .next t ∧ t.clk.stopped = false ∧ t.boot.cpStage = 3 ∧ t.mem.hbm = s.mem.hbm ∧ t.mem.ddr = s.mem.ddr ∧ t.plan.generation = 1
        ∧ ∀ c < 1152, (mget ({} : CoreEntry) t.plan.cores c).usable = true → t.core c = { power := .on, flags := mget [] s.flagsHeld c })
    ∧ (s.boot.cpStage = 3 → s.feeding = false → ∃ t, exec .cpResetDone s = .next t ∧ t.boot.st = .ready ∧ t.boot.cpBusy = false ∧ t.boot.cpStage = 0 ∧ t.conds = {} ∧ t.work = s.work)
    ∧ (s.side.perstN = true → ∃ t, exec .hostPerstNAssert s = .next t ∧ t.side.perstN = false ∧ t.host.memUp = false ∧ t.host.cacheUp = false ∧ t.host.ideKeys = [] ∧ t.spdm = {} ∧ t.host.rings = s.host.rings
        ∧ t.host.descs = s.host.descs ∧ t.work = s.work)
    ∧ (s.side.perstN = false → ∃ t, exec .hostPerstNRelease s = .next t ∧ t.side.perstN = true ∧ t.host.rings = s.host.rings ∧ t.work = s.work)
    ∧ (s.power.inputBad = false → s.side.vaux = true → ∃ t u, exec (.inputUndervolt mv) s = .next t ∧ exec (.inputOvervolt mv) s = .next u ∧ clear t ∧ clear u ∧ t.power.inputBad = true
        ∧ u.power.inputBad = true ∧ t.power.events = s.power.events ||| 2 ∧ u.power.events = s.power.events ||| 4 ∧ t.power.railsOn = false ∧ u.boot.inReset = true)
    ∧ (s.power.inputBad = true → s.side.vaux = true → ∃ t, exec .vauxLost s = .next t ∧ clear t ∧ t.side.vaux = false ∧ t.power.events = 0 ∧ t.power.railFault = 0)
    ∧ (s.power.inputBad = true ∨ s.side.vaux = false → ∃ t, exec (.inputRecovered mv) s = .next t ∧ t.power.inputBad = false ∧ t.power.inMv = mv ∧ t.side.vaux = true
        ∧ (s.side.trayRstN = true → clear t ∧ t.boot.st = .rom ∧ t.boot.inReset = false ∧ t.power.railsOn = true))

/-! ### Power and thermal (17) -/

/-- R445 to R449, R456, R457, R467: the power loop and the thermal limit. A power sample is kept, and moves k_pow by one step of the loop: down by 8 at a peak, by 2 over the cap on average, up by 1 with all means well
below, else not at all. Junction samples and stack reports are kept, a hot reading cuts k_th to 32, and each thermal step halves it while one lasts and doubles it once all have cooled.
Some clauses take the model's own reading where the rules leave one open (log entries 23, 25). -/
def Obligations.PowerLoopAndThermalLimit : Prop :=
  ∀ (s : State), s.boot.inReset = false →
    let w := s.power
    (∀ pkg inp,
        let pk := (pkg :: w.pkg).take 1000
        let ip := (inp :: w.inp).take 1000
        let cap := 10 * w.pkgCap
        let peak : Prop := cap * 5 * min 50 pk.length < (pk.take 50).sum * 4 ∨ 17500 * min 50 ip.length < (ip.take 50).sum
        let average : Prop := cap * pk.length < pk.sum ∨ 14000 * ip.length < ip.sum
        let low : Prop := pk.sum * 100 < cap * 97 * pk.length ∧ ip.sum * 100 < 14000 * 97 * ip.length
          ∧ (pk.take 50).sum * 400 < 5 * cap * 95 * min 50 pk.length ∧ (ip.take 50).sum * 100 < 17500 * 95 * min 50 ip.length
        ∃ t, exec (.powerSample pkg inp) s = .next t ∧ t.power.pkg = pk ∧ t.power.inp = ip ∧ t.work = s.work
          ∧ (peak → t.power.kPow = max (w.kPow - 8) 1 ∧ t.power.peakActive = true) ∧ (¬ peak → t.power.peakActive = false) ∧ (¬ peak → average → t.power.kPow = max (w.kPow - 2) 1)
          ∧ (¬ peak → ¬ average → low → t.power.kPow = min (w.kPow + 1) 64) ∧ (¬ peak → ¬ average → ¬ low → t.power.kPow = w.kPow))
    ∧ (∀ js, (∀ p ∈ js, p.2 < 920) → ∃ t, exec (.thermalSample js) s = .next t ∧ t.work = s.work ∧ t.power.hotSamples = 0
        ∧ ((∃ p ∈ js, 840 ≤ p.2) → t.power.kTh = min w.kTh 32) ∧ ((∀ p ∈ js, p.2 < 840) → (∀ p ∈ w.hbmTemps, p.2 < 760) → t.power.kTh = w.kTh))
    ∧ (∀ k x, (x < 840 ∨ (if k.val ∈ w.hbmRound then w.hbmNowHot else w.hbmPrevHot) = false) → ∃ t, exec (.hbmTempReport k x) s = .next t ∧ t.work = s.work
        ∧ mget noTemp t.power.hbmTemps k.val = x ∧ (∀ i, i ≠ k.val → mget noTemp t.power.hbmTemps i = mget noTemp w.hbmTemps i)
        ∧ t.power.kTh = (if t.power.hot then min w.kTh 32 else w.kTh) ∧ (760 ≤ x → t.power.kTh = min w.kTh 32))
    ∧ ∃ t, exec .thermalStep s = .next t ∧ t.work = s.work
        ∧ t.power.kTh = (if w.hot then min w.kTh (max 8 (w.kTh / 2)) else if w.cool then min 64 (2 * w.kTh) else w.kTh)

/-- R445, R451 to R453, R455, R462, R467: droop and the operating points. A
new k_pow, k_th or P paces the arrays from the first cycle of a window, and the limit before it until then; a droop drops its die's limit to 32, and after a hold of 2 µs the limit rises by 8 a window; the policy's wish, held within the bounds, is scheduled; PWR_CTRL is taken whole or refused.
Some clauses take the model's own reading where the rules leave one open (log entries 5, 23, 24). -/
def Obligations.DroopAndOperatingPoints : Prop :=
  ∀ (s : State) (d : DieIx) (v : W32),
    let w := s.power
    let clocked (t : State) : Prop := t.cores = (s.toTime t.time.now).cores ∧ t.mem = s.mem ∧ t.groups = s.groups
    (w.railsOn = true → ∃ t, exec (.droopDetect d) s = .next t ∧ t.power.droopK d.val = 32 ∧ (∀ i, i ≠ d.val → t.power.droopK i = w.droopK i) ∧ t.power.lastDroop = some s.clk.ns ∧ t.work = s.work
        ∧ t.power.droopEvents = (if w.droopK d.val = 64 then sat32 w.droopEvents else w.droopEvents))
    ∧ (mget 0 w.held d.val ≠ 0 → ∃ t, exec (.droopHoldEnd d) s = .next t ∧ mget 0 t.power.held d.val = 0 ∧ mget 0 t.power.rising d.val ≠ 0 ∧ t.power.droopK d.val = w.droopK d.val ∧ clocked t ∧ s.time.now ≤ t.time.now)
    ∧ (mget 0 w.rising d.val ≠ 0 → ∃ t, exec (.droopRise d) s = .next t ∧ t.power.droopK d.val = min (w.droopK d.val + 8) 64 ∧ (64 ≤ w.droopK d.val + 8 → mget 0 t.power.rising d.val = 0) ∧ clocked t)
    ∧ (∀ g, w.lastLeg = some g → w.policyEn = true → g.cycles ≠ 0 → w.pinEn = false → w.fallback = false → ∃ t, exec .opDecision s = .next t ∧ t.work = s.work ∧ t.power.lastLeg = none
        ∧ t.power.lowN = (w.opWant g).2.1 ∧ t.power.highN = (w.opWant g).2.2 ∧ t.power.point = w.point
        ∧ (max w.high (min (w.opWant g).1 w.low) ≠ w.point → t.power.pending.map (·.target) = some (max w.high (min (w.opWant g).1 w.low)))
        ∧ (max w.high (min (w.opWant g).1 w.low) = w.point → t.power.pending = w.pending))
    ∧ (∀ q, w.pending = some q → q.target < w.point → exec .voltageRaiseDone s = .next { s with power := { s.power with raised := true } })
    ∧ (w.limFrom ≤ s.cycle → s.boot.inReset = false → s.answers 0x3000 = true → ∀ pkg inp, ∀ j ∈ [Instr.powerSample pkg inp, .thermalStep, .pwrCtrlWrite v], ∃ t, exec j s = .next t
        ∧ ∀ c i, s.cycle ≤ i → t.pourLimit c i = if i < s.windowCycle then s.pourLimit c i else max 1 (min t.power.common (t.power.droopK (c / 288))))
    ∧ (s.answers 0x3000 = true → ∃ t, exec (.pwrCtrlWrite v) s = .next t ∧ t.work = s.work
        ∧ (bits v.toNat 0 2 < bits v.toNat 2 2 → t.power.refused = true ∧ t.power.pkgCap = w.pkgCap ∧ t.power.pourPin = w.pourPin ∧ t.power.next = w.next)
        ∧ (bits v.toNat 2 2 ≤ bits v.toNat 0 2 → t.power.pkgCap = min 1000 (max 200 (bits v.toNat 16 16)) ∧ t.power.pourPin = bits v.toNat 8 8 ∧ t.power.policyEn = bit v.toNat 7
          ∧ t.power.next = some (bit v.toNat 6, bits v.toNat 4 2, bits v.toNat 2 2, bits v.toNat 0 2)))

/-- R457 to R460, R463, R464, R499, R500: protection. Two hot samples, or two rounds of stack reports with one at 105 °C, or 200 µs without coolant begin the stop, which halts every stream and leg, then the links, then cuts the descriptors, then the rails; a shorted rail is latched and what it feeds is lost; an
open sense line and a stuck bus are latched.
Some clauses take the model's own reading where the rules leave one open (log entry 65). -/
def Obligations.StopsAndFaults : Prop :=
  ∀ (s : State) (js : List (DieIx × Int)),
    let w := s.power
    let runs : Prop := s.boot.inReset = false ∧ w.stopStage = 0 ∧ s.boot.st ≠ .stopped ∧ s.boot.st ≠ .failed
    let stops (t : State) : Prop := t.boot.st = .stopped ∧ t.power.stopStage = 1 ∧ (∀ c, (t.core c).fwd.phase = .idle ∧ (t.core c).bwd.phase = .idle ∧ (t.core c).upd.phase = .idle)
        ∧ (∀ n, (t.group n).legActive = false) ∧ t.mem.hbm = s.mem.hbm ∧ t.mem.ddr = s.mem.ddr
    (∀ k x, runs → (if k.val ∈ w.hbmRound then w.hbmNowHot else w.hbmPrevHot) = true → 840 ≤ x → w.flowLowSince = none → ∃ t, exec (.hbmTempReport k x) s = .next t ∧ stops t
        ∧ t.power.events.toNat.testBit 7 = true)
    ∧ (runs → (∃ p ∈ js, 920 ≤ p.2) → 1 ≤ w.hotSamples → w.flowLowSince = none → ∃ t, exec (.thermalSample js) s = .next t ∧ stops t ∧ t.power.events.toNat.testBit 7 = true)
    ∧ (s.side.flowOk = true → s.boot.inReset = false → ∃ t, exec .flowOkLow s = .next t ∧ t.side.flowOk = false ∧ t.power.flowLowSince = some s.clk.ns ∧ t.work = s.work)
    ∧ (∀ x, s.side.flowOk = false → w.flowLowSince = some x → s.clk.ns < x + 200000 → ∃ t, exec .flowOkHigh s = .next t ∧ t.side.flowOk = true ∧ t.power.flowLowSince = none
        ∧ t.power.glitches = sat32 w.glitches ∧ t.work = s.work)
    ∧ (∀ x, runs → w.flowLowSince = some x → ∃ t, exec .coolantStop s = .next t ∧ stops t ∧ t.power.events.toNat.testBit 6 = true ∧ t.power.flowLowSince = none)
    ∧ (w.stopStage = 1 → ∃ t, exec .stopHaltLinks s = .next t ∧ t.power.stopStage = 2 ∧ t.mem.hbm = s.mem.hbm ∧ t.mem.ddr = s.mem.ddr
        ∧ ∀ l < 24, (t.link l).st = if (s.link l).st = .up ∨ (s.link l).st = .sparing then .halted else .down)
    ∧ (w.stopStage = 2 → ∃ t, exec .stopDescriptorsCut s = .next t ∧ t.power.stopStage = 3 ∧ t.host.descs = [] ∧ t.host.broadcast = none ∧ t.adopt = none ∧ t.trace.capActive = false ∧ t.work = s.work)
    ∧ (w.stopStage = 3 → ∃ t, exec .stopRailsOff s = .next t ∧ t.power.stopStage = 4 ∧ t.power.railsOn = false ∧ t.cores = [] ∧ t.clk.stopped = true ∧ t.mem = { s.mem with selfRefresh := true })
    ∧ (∀ r : Fin 34, s.boot.inReset = false → r.val ≠ 33 → ∃ t, exec (.railShort r) s = .next t ∧ t.power.railFault.toNat.testBit r.val = true ∧ t.power.events.toNat.testBit 3 = true
        ∧ (8 ≤ r.val → r.val < 28 → s.boot.st = .ready → s.devHere (r.val - 8) = true → r.val - 8 ∈ t.mem.lost)
        ∧ (28 ≤ r.val → r.val < 32 → s.boot.st = .ready → ∀ i < 6, (t.link (6 * (r.val - 28) + i)).st = .failed)
        ∧ (r.val = 0 ∨ r.val = 4 → s.boot.st = .ready → w.stopStage = 0 → t.boot.st = .stopped) ∧ (r.val = 32 → t.boot.inReset = true ∨ t.boot.st = .failed))
    ∧ (s.side.vaux = true → ∃ t, exec (.railShort 33) s = .next t ∧ t.side.vaux = false ∧ t.cores = [])
    ∧ (∀ r : Fin 8, w.railsOn = true → w.sense.toNat.testBit r.val = false → ∃ t, exec (.senseOpen r) s = .next t ∧ t.power.sense.toNat.testBit r.val = true ∧ t.power.fallback = true
        ∧ t.power.events.toNat.testBit 4 = true ∧ t.work = s.work)
    ∧ (s.side.vaux = true → w.sbStuck = false → ∃ t, exec .sidebandStuck s = .next t ∧ t.power.sbStuck = true ∧ t.sbOn = false ∧ t.power.events.toNat.testBit 5 = true ∧ t.work = s.work)
    ∧ (w.sbStuck = true → exec (.sidebandRetry true) s = .next { s with power := { s.power with sbStuck := false } } ∧ exec (.sidebandRetry false) s = .next s)

/-! ### Recorder, replay, SPDM, sideband and registers (15, 18, 19) -/

/-- R478, R480, R482, R484 to R486: the recorder and replay. REC_CTRL arms and freezes; sizes that fit are saved for the next start; a load puts the capture into the window, GO checks its floor plan
and starts the feed with a compute-part reset, each record is fed in turn, and STOP ends it.
Some clauses take the model's own reading where the rules leave one open (log entries 68, 72). -/
def Obligations.RecorderAndReplay : Prop :=
  ∀ (s : State) (v : W32),
    let r := s.trace
    (bit v.toNat 29 = true → bit v.toNat 27 = false → s.answers 0x5000 = true → ∃ t, exec (.captureArm v) s = .next t ∧ t.trace.arm = true ∧ t.trace.eventEn = bit v.toNat 31 ∧ t.trace.wrap = bit v.toNat 30
        ∧ t.trace.capSel = BitVec.ofNat 7 (v.toNat / 2) ∧ { t with trace := s.trace } = s)
    ∧ (bit v.toNat 27 = true → s.answers 0x5000 = true → ∃ t, exec (.freeze v) s = .next t ∧ t.trace.capActive = false ∧ t.trace.arm = bit v.toNat 29 ∧ { t with trace := s.trace } = s)
    ∧ (s.answers 0x5004 = true →
        let ring : W16 := BitVec.ofNat 16 (v.toNat / 65536)
        let cap : W16 := BitVec.ofNat 16 v.toNat
        ∃ t, exec (.recSizeWrite v) s = .next t ∧ t.work = s.work ∧ t.trace.ring2mNow = r.ring2mNow ∧ t.trace.cap2mNow = r.cap2mNow
          ∧ (s.plan.sizesFit ring.toNat cap.toNat = true → t.trace.ring2m = ring ∧ t.trace.cap2m = cap ∧ t.flash.ring2m = ring ∧ t.flash.cap2m = cap)
          ∧ (s.plan.sizesFit ring.toNat cap.toNat = false → t.trace.sizeRefused = true ∧ t.trace.ring2m = r.ring2m ∧ t.flash = s.flash))
    ∧ (s.answers 0x5010 = true → ∃ t, exec .ringNextRead s = .next t ∧ t.trace.nextHi = BitVec.ofNat 32 (r.nextIx / 2 ^ 32) ∧ t.outbox = s.outbox ++ [.regData (BitVec.ofNat 32 (r.nextIx % 2 ^ 32))]
        ∧ { t with trace := s.trace, outbox := s.outbox } = s)
    ∧ (keyed v = true → s.answers 0x502C = true → r.capActive = false →
        (bit v.toNat 0 = true → r.replay = .off → s.boot.st = .ready → s.legOn = false → ∃ t, exec (.replayLoad v) s = .next t ∧ t.trace.replay = .loading ∧ t.work = s.work)
        ∧ (bit v.toNat 1 = true → r.replay = .readyToGo → s.boot.st = .ready → s.boot.cpBusy = false → ∃ t, exec (.replayGo v) s = .next t
          ∧ (s.runsPlan (r.planOf s.plan) = true → t.trace.replay = .feeding ∧ t.trace.fed = 0 ∧ t.boot.st = .cpReset ∧ t.boot.cpBusy = true)
          ∧ (s.runsPlan (r.planOf s.plan) = false → t.trace.replay = .ended ∧ t.trace.result = 3 ∧ t.boot = s.boot))
        ∧ (bit v.toNat 2 = true → r.replay = .feeding → ∃ t, exec (.replayStop v) s = .next t ∧ t.trace.replay = .ended ∧ t.trace.result = 5 ∧ t.work = s.work))
    ∧ (r.replay = .loading →
        (∀ ls : List (Line × Bool), ls.length = r.len.toNat → ls.length ≤ r.capRoom → r.capActive = false → s.portHeld = false → ∃ t, exec (.replayLoadDone (ls.map (fun p => HostReply.line p.1 p.2))) s = .next t ∧ t.work = s.work
          ∧ ((r.loaded ls).startOk = true → t.trace = r.loaded ls ∧ t.trace.replay = .readyToGo) ∧ ((r.loaded ls).startOk = false → t.trace.replay = .off ∧ t.trace.result = 4))
        ∧ (∀ hs, HostReply.abort ∈ hs ∨ s.portHeld = true → ∃ t, exec (.replayLoadDone hs) s = .next t ∧ t.trace.replay = .off ∧ t.trace.result = 4 ∧ t.host.errAbort = true ∧ t.work = s.work))
    ∧ (r.replay = .feeding → r.feedAt ≠ 0 →
        (r.recordOk r.feedAt = false → ∃ t, exec .replayFeed s = .next t ∧ t.trace.replay = .ended ∧ t.trace.result = 4)
        ∧ (r.recordOk r.feedAt = true → s.recordDue r.feedAt = none → exec .replayFeed s = .next s)
        ∧ (∀ u, r.recordOk r.feedAt = true → s.recordDue r.feedAt = some u → r.lineField r.feedAt 8 24 8 = 9 → ∃ t, exec .replayFeed s = .next t ∧ t.trace.replay = .ended ∧ t.trace.result = 1)
        ∧ (∀ u, r.recordOk r.feedAt = true → s.recordDue r.feedAt = some u → r.lineField r.feedAt 8 24 8 ∈ [2, 3] → ∃ t, exec .replayFeed s = .next t ∧ t.trace.replay = .feeding
          ∧ t.trace.fed = r.fed + 1 ∧ t.trace.feedAt = r.after r.feedAt ∧ t.cores = u.cores))

/-- R469 to R471, R474: the SPDM responder. Version, capabilities and algorithms come in that order and begin the connection anew; digests, the certificate chain and unsigned measurements are returned at once; what needs a
signature starts one that SPDM_SIGN_DONE sends; a key exchange opens a session that FINISH completes. No other state changes.
Some clauses take the model's own reading where the rules leave one open (log entries 69, 70). R501, R502: the sideband. A target without a dynamic address takes one by ENTDAA, or by SETDASA to its own static address, and loses it by RSTDAA; its identifiers are answered to that address; SB_READ returns the registers from its offset on and leaves the offset after
them. Nothing but the sideband changes.
Some clauses take the model's own reading where the rules leave one open (log entry 71). -/
def Obligations.SpdmResponderAndSideband : Prop :=
  (∀ (s : State), s.spdmOn = true →
     let p := s.spdm
     let only (t : State) : Prop := { t with spdm := s.spdm, outbox := s.outbox } = s
     let sends (t : State) (n : String) (d : List Byte) : Prop := t.outbox = s.outbox ++ [.spdm n d]
     (∃ t, exec .getVersion s = .next t ∧ only t ∧ t.spdm = { version := true } ∧ sends t "VERSION" (Config.spdmBytes 0x04 []))
     ∧ (p.version = true → ∃ t, exec .getCapabilities s = .next t ∧ only t ∧ t.spdm = { p with caps := true } ∧ sends t "CAPABILITIES" (Config.spdmBytes 0x61 []))
     ∧ (p.caps = true → ∃ t, exec .negotiateAlgorithms s = .next t ∧ only t ∧ t.spdm = { p with algs := true } ∧ sends t "ALGORITHMS" (Config.spdmBytes 0x63 []))
     ∧ (p.algs = false → ∀ j ∈ [Instr.getDigests, .spdmSignDone, .endSession], (j = .spdmSignDone → p.signing = none) → ∃ t, exec j s = .next t ∧ only t ∧ t.spdm = p)
     ∧ (p.algs = true →
         (∃ t, exec .getDigests s = .next t ∧ only t ∧ t.spdm = p ∧ sends t "DIGESTS" (Config.spdmBytes 0x01 []))
         ∧ (∀ off len, off < Config.certChain.length → ∃ t, exec (.getCertificate 0 off len) s = .next t ∧ only t ∧ t.spdm = p ∧ sends t "CERTIFICATE" ((Config.certChain.drop off).take len))
         ∧ (∀ ix n, 1 ≤ ix → ix ≤ 7 → ∃ t, exec (.getMeasurements ix false n) s = .next t ∧ only t ∧ t.spdm = p ∧ sends t "MEASUREMENTS" (BitVec.ofNat 8 ix :: blockBytes (s.measValue ix)))
         ∧ (∀ n, ∃ t, exec (.getMeasurements 0 false n) s = .next t ∧ only t ∧ sends t "MEASUREMENTS" [7])
         ∧ (p.signing = none →
           (∀ n, ∃ t, exec (.challenge 0 n) s = .next t ∧ only t ∧ t.outbox = s.outbox ∧ t.spdm.signing = some (.challenge 0 n, s.clk.ns))
           ∧ (∀ ix n, 1 ≤ ix → ix ≤ 7 → ∃ t, exec (.getMeasurements ix true n) s = .next t ∧ only t ∧ t.outbox = s.outbox ∧ t.spdm.signing = some (.measurements n [(ix, s.measValue ix)], s.clk.ns))
           ∧ (∀ e, ∃ t, exec (.keyExchange e) s = .next t ∧ only t ∧ t.outbox = s.outbox ∧ t.spdm.signing = some (.keyExchange e, s.clk.ns) ∧ t.spdm.session = 1)
           ∧ (∀ m, p.session = 1 → Config.spdmFinishOk s.clk.ns m = true → ∃ t, exec (.finish m) s = .next t ∧ only t ∧ t.spdm = { p with session := 2 }))
         ∧ (p.session = 2 → ∃ t, exec .endSession s = .next t ∧ only t ∧ t.spdm = { p with session := 0 }))
     ∧ (∀ j x, p.signing = some (j, x) → ∃ t d, exec .spdmSignDone s = .next t ∧ only t ∧ t.spdm = { p with signing := none } ∧ sends t j.response.1 d ∧ 17088 ≤ d.length))
  ∧ (∀ (s : State) (a st : BitVec 7) (off : Byte) (n : Nat), s.sbOn = true →
       let only (t : State) : Prop := { t with side := s.side, outbox := s.outbox, freeIx := s.freeIx } = s
       let sends (t : State) (d : List Byte) : Prop := t.outbox = s.outbox ++ [.sideband d]
       (s.side.dyn = none → ∃ t, exec (.entdaa a) s = .next t ∧ only t ∧ t.side = { s.side with dyn := some a } ∧ sends t (pidBytes ++ [Config.sbBcr, Config.sbDcr]))
       ∧ (s.side.dyn = none → st.toNat = 0x40 + s.side.slot.toNat → exec (.setdasa st a) s = .next { s with side := { s.side with dyn := some a } })
       ∧ (st.toNat ≠ 0x40 + s.side.slot.toNat ∨ s.side.dyn ≠ none → exec (.setdasa st a) s = .next s)
       ∧ exec .rstdaa s = .next { s with side := { s.side with dyn := none } }
       ∧ (s.side.dyn ≠ none → (∃ t, exec .getpid s = .next t ∧ only t ∧ t.side = s.side ∧ sends t pidBytes) ∧ (∃ t, exec .getbcr s = .next t ∧ only t ∧ t.side = s.side ∧ sends t [Config.sbBcr])
           ∧ (∃ t, exec .getdcr s = .next t ∧ only t ∧ t.side = s.side ∧ sends t [Config.sbDcr]) ∧ ∃ t d, exec .getstatus s = .next t ∧ only t ∧ t.side = s.side ∧ sends t d ∧ d.length = 2)
       ∧ (∃ t, exec (.sbRead off n) s = .next t ∧ only t ∧ sends t ((List.range n).flatMap (fun i => leBytes 4 (s.sbReg ((off.toNat / 4 * 4 + 4 * i) % 256))))
           ∧ t.side = { s.side with offset := BitVec.ofNat 8 (off.toNat / 4 * 4 + 4 * n) })
       ∧ s.sbReg 0 = 0x58465342)

/-- R391, R393, R395, R482: register writes. A write to a block that does not answer, or that belongs to a command of its own, changes nothing; others set the fields of their register and no core, memory or
group, and W1C bits clear where the write has a 1. -/
def Obligations.RegisterWrites : Prop :=
  ∀ (s : State) (off : W16) (v : W32),
    (s.answers off.toNat = false ∨ ownRow off.toNat v = true → exec (.registerWrite off v) s = .next s)
    ∧ (∃ t, exec (.registerWrite off v) s = .next t ∧ t.work = s.work ∧ t.boot.st = s.boot.st ∧ t.pending = s.pending ∧ t.outbox = s.outbox)
    ∧ (s.answers off.toNat = true →
        (off = 0x4010 → ∃ t, exec (.registerWrite off v) s = .next t ∧ t.host.winWriteEn = bit v.toNat 0 ∧ t.readReg 0x4010 = v.toNat % 2)
        ∧ (off = 0x01A0 → ∃ t, exec (.registerWrite off v) s = .next t ∧ t.readReg 0x01A0 = v.toNat)
        ∧ (off = 0x2018 → ∃ t, exec (.registerWrite off v) s = .next t ∧ t.time.setLo = v)
        ∧ (off = 0x2008 → ∃ t, exec (.registerWrite off v) s = .next t ∧ t.readReg 0x2008 = v.toNat % 4)
        ∧ (off = 0x5028 → ∃ t, exec (.registerWrite off v) s = .next t ∧ t.readReg 0x5028 = v.toNat)
        ∧ (off = 0x3040 → ∃ t, exec (.registerWrite off v) s = .next t ∧ t.power.events = s.power.events &&& ~~~(BitVec.ofNat 8 v.toNat &&& 0xFE))
        ∧ (off = 0x0108 → ∃ t, exec (.registerWrite off v) s = .next t ∧ t.host.errCq = (s.host.errCq && !bit v.toNat 2) ∧ t.host.errWatch = (s.host.errWatch && !bit v.toNat 1)
          ∧ t.host.errAbort = (s.host.errAbort && !bit v.toNat 0))
        ∧ (∀ k < 64, off.toNat = 0x1000 + 0x40 * k → (s.ring k).enable = false → (s.ring k).stopped = true → ∃ t, exec (.registerWrite off v) s = .next t
          ∧ (t.ring k).sqBase.toNat % 2 ^ 32 = v.toNat ∧ (t.ring k).sqBase.toNat / 2 ^ 32 = (s.ring k).sqBase.toNat / 2 ^ 32 ∧ ∀ j, j ≠ k → t.ring j = s.ring j)
        ∧ (∀ k < 64, off.toNat = 0x1000 + 0x40 * k → (s.ring k).enable = true → ∃ t, exec (.registerWrite off v) s = .next t ∧ t.host.rings = s.host.rings))
end

