-- ==== Sys2Proof/Laws/Mem.lean ====
section
/-! SUPPORT. What reading, writing and clearing a bank come to: the laws hold of every list, canonical or not, and the
operations keep the canonical form. -/

namespace Sys2Proof.Machine

variable {α : Type} [DecidableEq α]

theorem mget_dropWhile_le (d : α) (m : Mem α) (i j : Nat) (h : i < j) :
    mget d (m.dropWhile (fun p => decide (p.1 ≤ i))) j = mget d m j := by
  induction m with
  | nil => rfl
  | cons p r ih =>
    obtain ⟨k, w⟩ := p
    by_cases hk : k ≤ i
    · simp [List.dropWhile, hk, mget, ih, show ¬ j < k by omega, show ¬ j = k by omega]
    · simp [List.dropWhile, hk]

theorem mget_dropWhile_ge (d : α) (m : Mem α) (i j : Nat) (h : j ≤ i) :
    mget d (m.dropWhile (fun p => decide (p.1 ≤ i))) j = d := by
  induction m with
  | nil => rfl
  | cons p r ih =>
    obtain ⟨k, w⟩ := p
    by_cases hk : k ≤ i
    · simpa [List.dropWhile, hk] using ih
    · simp [List.dropWhile, hk, mget, show j < k by omega]

/-- What is written at an index reads back there. -/
@[simp] theorem mget_mset_self (d : α) (m : Mem α) (i : Nat) (v : α) : mget d (mset d m i v) i = v := by
  induction m with
  | nil => by_cases h : v = d <;> simp [mset, mget, h]
  | cons p r ih =>
    obtain ⟨k, w⟩ := p
    by_cases hk : k < i
    · simp [mset, hk, mget, ih, show ¬ i < k by omega, show ¬ i = k by omega]
    · by_cases h : v = d
      · simp only [mset, hk, h, if_true, if_false]
        exact mget_dropWhile_ge d _ i i (le_refl i)
      · simp [mset, hk, h, mget]

/-- A write leaves every other index as it was. -/
theorem mget_mset_ne (d : α) (m : Mem α) (i j : Nat) (v : α) (h : j ≠ i) : mget d (mset d m i v) j = mget d m j := by
  induction m with
  | nil => by_cases hv : v = d <;> simp [mset, mget, hv, h]
  | cons p r ih =>
    obtain ⟨k, w⟩ := p
    by_cases hk : k < i
    · simp only [mset, hk, if_true, mget, ih]
    · have base : mget d (((k, w) :: r).dropWhile (fun p => decide (p.1 ≤ i))) j = mget d ((k, w) :: r) j := by
        rcases Nat.lt_or_gt_of_ne h with hj | hj
        · rw [mget_dropWhile_ge d _ i j (by omega)]; simp [mget, show j < k by omega]
        · exact mget_dropWhile_le d _ i j hj
      by_cases hv : v = d
      · simp only [mset, hk, hv, if_true, if_false]; exact base
      · simp only [mset, hk, hv, if_false]
        rcases Nat.lt_or_gt_of_ne h with hj | hj
        · simp [mget, hj, show j < k by omega]
        · rw [mget]; simp only [show ¬ j < i by omega, show ¬ j = i by omega, if_false]; exact base

/-- A write of a list of values leaves every index outside the run as it was. -/
theorem mget_msetRun_ne (d : α) (l : List α) : ∀ (m : Mem α) (i j : Nat), j < i ∨ i + l.length ≤ j →
    mget d (msetRun d m i l) j = mget d m j := by
  induction l with
  | nil => intro m i j _; rfl
  | cons v r ih =>
    intro m i j h
    simp only [List.length_cons] at h
    rw [msetRun, ih _ _ _ (by omega), mget_mset_ne _ _ _ _ _ (by omega)]

/-- A run written reads back. -/
theorem mget_msetRun_mem (d : α) (l : List α) : ∀ (m : Mem α) (i n : Nat) (h : n < l.length),
    mget d (msetRun d m i l) (i + n) = l[n] := by
  induction l with
  | nil => intro m i n h; simp at h
  | cons v r ih =>
    intro m i n h
    rw [msetRun]
    cases n with
    | zero => rw [mget_msetRun_ne _ _ _ _ _ (by omega)]; simp
    | succ n =>
      have := ih (mset d m i v) (i + 1) n (by simpa using h)
      rw [show i + (n + 1) = i + 1 + n by omega, this]; simp

theorem mwfFrom_mono (d : α) (m : Mem α) (a b : Nat) (h : a ≤ b) (hm : mwfFrom d b m = true) : mwfFrom d a m = true := by
  cases m with
  | nil => rfl
  | cons p r => obtain ⟨k, w⟩ := p; simp [mwfFrom] at hm ⊢; exact ⟨⟨by omega, hm.1.2⟩, hm.2⟩

theorem mwfFrom_dropWhile (d : α) (m : Mem α) (i a : Nat) (hm : mwfFrom d a m = true) :
    mwfFrom d (i + 1) (m.dropWhile (fun p => decide (p.1 ≤ i))) = true := by
  induction m generalizing a with
  | nil => rfl
  | cons p r ih =>
    obtain ⟨k, w⟩ := p
    simp only [mwfFrom, Bool.and_eq_true, decide_eq_true_eq] at hm
    by_cases hk : k ≤ i
    · simpa [List.dropWhile, hk] using ih _ hm.2
    · simp only [List.dropWhile, hk, decide_false]
      simp only [mwfFrom, Bool.and_eq_true, decide_eq_true_eq]
      exact ⟨⟨by omega, hm.1.2⟩, hm.2⟩

theorem mwfFrom_mset (d : α) (m : Mem α) (i a : Nat) (v : α) (ha : a ≤ i) (hm : mwfFrom d a m = true) :
    mwfFrom d a (mset d m i v) = true := by
  induction m generalizing a with
  | nil => by_cases h : v = d <;> simp [mset, mwfFrom, h, ha]
  | cons p r ih =>
    obtain ⟨k, w⟩ := p
    have hm' := hm
    simp only [mwfFrom, Bool.and_eq_true, decide_eq_true_eq] at hm
    by_cases hk : k < i
    · simp only [mset, hk, if_true, mwfFrom, Bool.and_eq_true, decide_eq_true_eq]
      exact ⟨hm.1, ih _ (by omega) hm.2⟩
    · have hr := mwfFrom_dropWhile d ((k, w) :: r) i a hm'
      by_cases h : v = d
      · simp only [mset, hk, h, if_true, if_false]; exact mwfFrom_mono d _ _ _ (by omega) hr
      · simp only [mset, hk, h, if_false, mwfFrom, Bool.and_eq_true, decide_eq_true_eq]
        exact ⟨⟨ha, h⟩, hr⟩

/-- A write keeps the canonical form. -/
theorem mwf_mset (d : α) (m : Mem α) (i : Nat) (v : α) (h : mwf d m = true) : mwf d (mset d m i v) = true :=
  mwfFrom_mset d m i 0 v (Nat.zero_le i) h

/-- An update keeps the canonical form. -/
theorem mwf_mupd (d : α) (m : Mem α) (i : Nat) (f : α → α) (h : mwf d m = true) : mwf d (mupd d m i f) = true := mwf_mset d m i _ h

/-- A run of writes keeps the canonical form. -/
theorem mwf_msetRun (d : α) (l : List α) : ∀ (m : Mem α) (i : Nat), mwf d m = true → mwf d (msetRun d m i l) = true := by
  induction l with
  | nil => intro m i h; exact h
  | cons v r ih => intro m i h; exact ih _ _ (mwf_mset d m i v h)

theorem mwfFrom_filter (d : α) (m : Mem α) (q : Nat × α → Bool) : ∀ a, mwfFrom d a m = true → mwfFrom d a (m.filter q) = true := by
  induction m with
  | nil => intro a _; rfl
  | cons p r ih =>
    obtain ⟨k, w⟩ := p
    intro a h
    simp only [mwfFrom, Bool.and_eq_true, decide_eq_true_eq] at h
    by_cases hq : q (k, w) = true
    · simp only [List.filter, hq, mwfFrom, Bool.and_eq_true, decide_eq_true_eq]; exact ⟨h.1, ih _ h.2⟩
    · simp only [List.filter, hq]; exact mwfFrom_mono d _ _ _ (by omega) (ih _ h.2)

/-- Leaving entries out keeps the canonical form. -/
theorem mwf_filter (d : α) (m : Mem α) (q : Nat × α → Bool) (h : mwf d m = true) : mwf d (m.filter q) = true := mwfFrom_filter d m q 0 h

/-- Clearing a range keeps the canonical form. -/
theorem mwf_mclear (d : α) (m : Mem α) (lo hi : Nat) (h : mwf d m = true) : mwf d (mclear m lo hi) = true := mwf_filter d m _ h

theorem mwfFrom_mmap (d : α) (f : Nat → α → α) (m : Mem α) : ∀ a, mwfFrom d a m = true → mwfFrom d a (mmap d f m) = true := by
  induction m with
  | nil => intro a _; rfl
  | cons p r ih =>
    obtain ⟨k, w⟩ := p
    intro a h
    simp only [mwfFrom, Bool.and_eq_true, decide_eq_true_eq] at h
    by_cases hq : f k w = d
    · simpa [mmap, hq] using mwfFrom_mono d _ _ _ (by omega) (ih _ h.2)
    · have := ih _ h.2
      simp only [mmap] at this
      simp only [mmap, List.map, List.filter, hq, ne_eq, not_false_eq_true, decide_true, mwfFrom, Bool.and_eq_true, decide_eq_true_eq]
      exact ⟨⟨h.1.1, trivial⟩, this⟩

/-- A function applied to every value keeps the canonical form. -/
theorem mwf_mmap (d : α) (f : Nat → α → α) (m : Mem α) (h : mwf d m = true) : mwf d (mmap d f m) = true := mwfFrom_mmap d f m 0 h

end Sys2Proof.Machine
end

