-- ==== Sys2Proof/Laws/Boot.lean ====
section
/-! SUPPORT. What a bank listed from a function reads as, and that it is canonical. -/

namespace Sys2Proof.Machine

variable {α : Type} [DecidableEq α]

theorem mget_listed (d : α) (f : Nat → α) (j : Nat) : ∀ n a, mget d (((List.range' a n).map (fun i => (i, f i))).filter (fun p => decide (p.2 ≠ d))) j
    = if a ≤ j ∧ j < a + n then f j else d := by
  intro n
  induction n with
  | zero => intro a; simp [mget]
  | succ n ih =>
    intro a
    rw [List.range'_succ, List.map_cons, List.filter_cons]
    have h := ih (a + 1)
    by_cases hv : f a = d
    · simp only [hv, ne_eq, not_true_eq_false, decide_false, Bool.false_eq_true, if_false]
      simp only [ne_eq] at h
      rw [h]
      by_cases hj : j = a
      · subst hj; simp [hv]
      · simp only [show (a + 1 ≤ j ∧ j < a + 1 + n) ↔ (a ≤ j ∧ j < a + (n + 1)) by omega]
    · simp only [ne_eq, hv, not_false_eq_true, decide_true, if_true, mget]
      simp only [ne_eq] at h
      rw [h]
      by_cases hj : j < a
      · simp [hj, show ¬ a ≤ j by omega]
      · by_cases hja : j = a
        · subst hja; simp
        · simp only [hj, hja, if_false, show (a + 1 ≤ j ∧ j < a + 1 + n) ↔ (a ≤ j ∧ j < a + (n + 1)) by omega]

/-- A bank listed from a function reads as the function within its size and as its default beyond. -/
theorem mget_mtab (d : α) (n : Nat) (f : Nat → α) (j : Nat) : mget d (mtab d n f) j = if j < n then f j else d := by
  have h := mget_listed d f j n 0
  rw [← List.range_eq_range'] at h
  simpa [mtab] using h

end Sys2Proof.Machine
end

