-- ==== Sys2Proof/Laws/State.lean ====
section
/-! SUPPORT. What each update of the state and of a core's record leaves: one lemma for each field, true by unfolding, so that
no proof unfolds a record update; and what is read back where it was written. -/

namespace Sys2Proof.Machine

/-! ### setCore -/

@[simp] theorem State.setCore_pending (s : State) (c : Nat) (k : Core) : (s.setCore c k).pending = s.pending := rfl
@[simp] theorem State.setCore_clk (s : State) (c : Nat) (k : Core) : (s.setCore c k).clk = s.clk := rfl
@[simp] theorem State.setCore_time (s : State) (c : Nat) (k : Core) : (s.setCore c k).time = s.time := rfl
@[simp] theorem State.setCore_pace (s : State) (c : Nat) (k : Core) : (s.setCore c k).pace = s.pace := rfl
@[simp] theorem State.setCore_legRegs (s : State) (c : Nat) (k : Core) : (s.setCore c k).legRegs = s.legRegs := rfl
@[simp] theorem State.setCore_series (s : State) (c : Nat) (k : Core) : (s.setCore c k).series = s.series := rfl
@[simp] theorem State.setCore_groups (s : State) (c : Nat) (k : Core) : (s.setCore c k).groups = s.groups := rfl
@[simp] theorem State.setCore_conds (s : State) (c : Nat) (k : Core) : (s.setCore c k).conds = s.conds := rfl
@[simp] theorem State.setCore_trace (s : State) (c : Nat) (k : Core) : (s.setCore c k).trace = s.trace := rfl
@[simp] theorem State.setCore_plan (s : State) (c : Nat) (k : Core) : (s.setCore c k).plan = s.plan := rfl
@[simp] theorem State.setCore_mem (s : State) (c : Nat) (k : Core) : (s.setCore c k).mem = s.mem := rfl
@[simp] theorem State.setCore_pages (s : State) (c : Nat) (k : Core) : (s.setCore c k).pages = s.pages := rfl
@[simp] theorem State.setCore_flagsHeld (s : State) (c : Nat) (k : Core) : (s.setCore c k).flagsHeld = s.flagsHeld := rfl
@[simp] theorem State.setCore_caddy (s : State) (c : Nat) (k : Core) : (s.setCore c k).caddy = s.caddy := rfl
@[simp] theorem State.setCore_caddySt (s : State) (c : Nat) (k : Core) : (s.setCore c k).caddySt = s.caddySt := rfl
@[simp] theorem State.setCore_fmt (s : State) (c : Nat) (k : Core) : (s.setCore c k).fmt = s.fmt := rfl
@[simp] theorem State.setCore_num (s : State) (c : Nat) (k : Core) : (s.setCore c k).num = s.num := rfl
@[simp] theorem State.setCore_gov (s : State) (c : Nat) (k : Core) : (s.setCore c k).gov = s.gov := rfl
@[simp] theorem State.setCore_experts (s : State) (c : Nat) (k : Core) : (s.setCore c k).experts = s.experts := rfl
@[simp] theorem State.setCore_lnk (s : State) (c : Nat) (k : Core) : (s.setCore c k).lnk = s.lnk := rfl
@[simp] theorem State.setCore_chk (s : State) (c : Nat) (k : Core) : (s.setCore c k).chk = s.chk := rfl
@[simp] theorem State.setCore_adopt (s : State) (c : Nat) (k : Core) : (s.setCore c k).adopt = s.adopt := rfl
@[simp] theorem State.setCore_host (s : State) (c : Nat) (k : Core) : (s.setCore c k).host = s.host := rfl
@[simp] theorem State.setCore_boot (s : State) (c : Nat) (k : Core) : (s.setCore c k).boot = s.boot := rfl
@[simp] theorem State.setCore_flash (s : State) (c : Nat) (k : Core) : (s.setCore c k).flash = s.flash := rfl
@[simp] theorem State.setCore_power (s : State) (c : Nat) (k : Core) : (s.setCore c k).power = s.power := rfl
@[simp] theorem State.setCore_meas (s : State) (c : Nat) (k : Core) : (s.setCore c k).meas = s.meas := rfl
@[simp] theorem State.setCore_spdm (s : State) (c : Nat) (k : Core) : (s.setCore c k).spdm = s.spdm := rfl
@[simp] theorem State.setCore_side (s : State) (c : Nat) (k : Core) : (s.setCore c k).side = s.side := rfl
@[simp] theorem State.setCore_outbox (s : State) (c : Nat) (k : Core) : (s.setCore c k).outbox = s.outbox := rfl
@[simp] theorem State.setCore_freeIx (s : State) (c : Nat) (k : Core) : (s.setCore c k).freeIx = s.freeIx := rfl

/-! ### updCore -/

@[simp] theorem State.updCore_pending (s : State) (c : Nat) (f : Core → Core) : (s.updCore c f).pending = s.pending := rfl
@[simp] theorem State.updCore_clk (s : State) (c : Nat) (f : Core → Core) : (s.updCore c f).clk = s.clk := rfl
@[simp] theorem State.updCore_time (s : State) (c : Nat) (f : Core → Core) : (s.updCore c f).time = s.time := rfl
@[simp] theorem State.updCore_pace (s : State) (c : Nat) (f : Core → Core) : (s.updCore c f).pace = s.pace := rfl
@[simp] theorem State.updCore_legRegs (s : State) (c : Nat) (f : Core → Core) : (s.updCore c f).legRegs = s.legRegs := rfl
@[simp] theorem State.updCore_series (s : State) (c : Nat) (f : Core → Core) : (s.updCore c f).series = s.series := rfl
@[simp] theorem State.updCore_groups (s : State) (c : Nat) (f : Core → Core) : (s.updCore c f).groups = s.groups := rfl
@[simp] theorem State.updCore_conds (s : State) (c : Nat) (f : Core → Core) : (s.updCore c f).conds = s.conds := rfl
@[simp] theorem State.updCore_trace (s : State) (c : Nat) (f : Core → Core) : (s.updCore c f).trace = s.trace := rfl
@[simp] theorem State.updCore_plan (s : State) (c : Nat) (f : Core → Core) : (s.updCore c f).plan = s.plan := rfl
@[simp] theorem State.updCore_mem (s : State) (c : Nat) (f : Core → Core) : (s.updCore c f).mem = s.mem := rfl
@[simp] theorem State.updCore_pages (s : State) (c : Nat) (f : Core → Core) : (s.updCore c f).pages = s.pages := rfl
@[simp] theorem State.updCore_flagsHeld (s : State) (c : Nat) (f : Core → Core) : (s.updCore c f).flagsHeld = s.flagsHeld := rfl
@[simp] theorem State.updCore_caddy (s : State) (c : Nat) (f : Core → Core) : (s.updCore c f).caddy = s.caddy := rfl
@[simp] theorem State.updCore_caddySt (s : State) (c : Nat) (f : Core → Core) : (s.updCore c f).caddySt = s.caddySt := rfl
@[simp] theorem State.updCore_fmt (s : State) (c : Nat) (f : Core → Core) : (s.updCore c f).fmt = s.fmt := rfl
@[simp] theorem State.updCore_num (s : State) (c : Nat) (f : Core → Core) : (s.updCore c f).num = s.num := rfl
@[simp] theorem State.updCore_gov (s : State) (c : Nat) (f : Core → Core) : (s.updCore c f).gov = s.gov := rfl
@[simp] theorem State.updCore_experts (s : State) (c : Nat) (f : Core → Core) : (s.updCore c f).experts = s.experts := rfl
@[simp] theorem State.updCore_lnk (s : State) (c : Nat) (f : Core → Core) : (s.updCore c f).lnk = s.lnk := rfl
@[simp] theorem State.updCore_chk (s : State) (c : Nat) (f : Core → Core) : (s.updCore c f).chk = s.chk := rfl
@[simp] theorem State.updCore_adopt (s : State) (c : Nat) (f : Core → Core) : (s.updCore c f).adopt = s.adopt := rfl
@[simp] theorem State.updCore_host (s : State) (c : Nat) (f : Core → Core) : (s.updCore c f).host = s.host := rfl
@[simp] theorem State.updCore_boot (s : State) (c : Nat) (f : Core → Core) : (s.updCore c f).boot = s.boot := rfl
@[simp] theorem State.updCore_flash (s : State) (c : Nat) (f : Core → Core) : (s.updCore c f).flash = s.flash := rfl
@[simp] theorem State.updCore_power (s : State) (c : Nat) (f : Core → Core) : (s.updCore c f).power = s.power := rfl
@[simp] theorem State.updCore_meas (s : State) (c : Nat) (f : Core → Core) : (s.updCore c f).meas = s.meas := rfl
@[simp] theorem State.updCore_spdm (s : State) (c : Nat) (f : Core → Core) : (s.updCore c f).spdm = s.spdm := rfl
@[simp] theorem State.updCore_side (s : State) (c : Nat) (f : Core → Core) : (s.updCore c f).side = s.side := rfl
@[simp] theorem State.updCore_outbox (s : State) (c : Nat) (f : Core → Core) : (s.updCore c f).outbox = s.outbox := rfl
@[simp] theorem State.updCore_freeIx (s : State) (c : Nat) (f : Core → Core) : (s.updCore c f).freeIx = s.freeIx := rfl

/-! ### setGroup -/

@[simp] theorem State.setGroup_pending (s : State) (g : Nat) (r : Group) : (s.setGroup g r).pending = s.pending := rfl
@[simp] theorem State.setGroup_clk (s : State) (g : Nat) (r : Group) : (s.setGroup g r).clk = s.clk := rfl
@[simp] theorem State.setGroup_time (s : State) (g : Nat) (r : Group) : (s.setGroup g r).time = s.time := rfl
@[simp] theorem State.setGroup_pace (s : State) (g : Nat) (r : Group) : (s.setGroup g r).pace = s.pace := rfl
@[simp] theorem State.setGroup_legRegs (s : State) (g : Nat) (r : Group) : (s.setGroup g r).legRegs = s.legRegs := rfl
@[simp] theorem State.setGroup_series (s : State) (g : Nat) (r : Group) : (s.setGroup g r).series = s.series := rfl
@[simp] theorem State.setGroup_conds (s : State) (g : Nat) (r : Group) : (s.setGroup g r).conds = s.conds := rfl
@[simp] theorem State.setGroup_trace (s : State) (g : Nat) (r : Group) : (s.setGroup g r).trace = s.trace := rfl
@[simp] theorem State.setGroup_plan (s : State) (g : Nat) (r : Group) : (s.setGroup g r).plan = s.plan := rfl
@[simp] theorem State.setGroup_mem (s : State) (g : Nat) (r : Group) : (s.setGroup g r).mem = s.mem := rfl
@[simp] theorem State.setGroup_pages (s : State) (g : Nat) (r : Group) : (s.setGroup g r).pages = s.pages := rfl
@[simp] theorem State.setGroup_cores (s : State) (g : Nat) (r : Group) : (s.setGroup g r).cores = s.cores := rfl
@[simp] theorem State.setGroup_flagsHeld (s : State) (g : Nat) (r : Group) : (s.setGroup g r).flagsHeld = s.flagsHeld := rfl
@[simp] theorem State.setGroup_caddy (s : State) (g : Nat) (r : Group) : (s.setGroup g r).caddy = s.caddy := rfl
@[simp] theorem State.setGroup_caddySt (s : State) (g : Nat) (r : Group) : (s.setGroup g r).caddySt = s.caddySt := rfl
@[simp] theorem State.setGroup_fmt (s : State) (g : Nat) (r : Group) : (s.setGroup g r).fmt = s.fmt := rfl
@[simp] theorem State.setGroup_num (s : State) (g : Nat) (r : Group) : (s.setGroup g r).num = s.num := rfl
@[simp] theorem State.setGroup_gov (s : State) (g : Nat) (r : Group) : (s.setGroup g r).gov = s.gov := rfl
@[simp] theorem State.setGroup_experts (s : State) (g : Nat) (r : Group) : (s.setGroup g r).experts = s.experts := rfl
@[simp] theorem State.setGroup_lnk (s : State) (g : Nat) (r : Group) : (s.setGroup g r).lnk = s.lnk := rfl
@[simp] theorem State.setGroup_chk (s : State) (g : Nat) (r : Group) : (s.setGroup g r).chk = s.chk := rfl
@[simp] theorem State.setGroup_adopt (s : State) (g : Nat) (r : Group) : (s.setGroup g r).adopt = s.adopt := rfl
@[simp] theorem State.setGroup_host (s : State) (g : Nat) (r : Group) : (s.setGroup g r).host = s.host := rfl
@[simp] theorem State.setGroup_boot (s : State) (g : Nat) (r : Group) : (s.setGroup g r).boot = s.boot := rfl
@[simp] theorem State.setGroup_flash (s : State) (g : Nat) (r : Group) : (s.setGroup g r).flash = s.flash := rfl
@[simp] theorem State.setGroup_power (s : State) (g : Nat) (r : Group) : (s.setGroup g r).power = s.power := rfl
@[simp] theorem State.setGroup_meas (s : State) (g : Nat) (r : Group) : (s.setGroup g r).meas = s.meas := rfl
@[simp] theorem State.setGroup_spdm (s : State) (g : Nat) (r : Group) : (s.setGroup g r).spdm = s.spdm := rfl
@[simp] theorem State.setGroup_side (s : State) (g : Nat) (r : Group) : (s.setGroup g r).side = s.side := rfl
@[simp] theorem State.setGroup_outbox (s : State) (g : Nat) (r : Group) : (s.setGroup g r).outbox = s.outbox := rfl
@[simp] theorem State.setGroup_freeIx (s : State) (g : Nat) (r : Group) : (s.setGroup g r).freeIx = s.freeIx := rfl

/-! ### updGroup -/

@[simp] theorem State.updGroup_pending (s : State) (g : Nat) (f : Group → Group) : (s.updGroup g f).pending = s.pending := rfl
@[simp] theorem State.updGroup_clk (s : State) (g : Nat) (f : Group → Group) : (s.updGroup g f).clk = s.clk := rfl
@[simp] theorem State.updGroup_time (s : State) (g : Nat) (f : Group → Group) : (s.updGroup g f).time = s.time := rfl
@[simp] theorem State.updGroup_pace (s : State) (g : Nat) (f : Group → Group) : (s.updGroup g f).pace = s.pace := rfl
@[simp] theorem State.updGroup_legRegs (s : State) (g : Nat) (f : Group → Group) : (s.updGroup g f).legRegs = s.legRegs := rfl
@[simp] theorem State.updGroup_series (s : State) (g : Nat) (f : Group → Group) : (s.updGroup g f).series = s.series := rfl
@[simp] theorem State.updGroup_conds (s : State) (g : Nat) (f : Group → Group) : (s.updGroup g f).conds = s.conds := rfl
@[simp] theorem State.updGroup_trace (s : State) (g : Nat) (f : Group → Group) : (s.updGroup g f).trace = s.trace := rfl
@[simp] theorem State.updGroup_plan (s : State) (g : Nat) (f : Group → Group) : (s.updGroup g f).plan = s.plan := rfl
@[simp] theorem State.updGroup_mem (s : State) (g : Nat) (f : Group → Group) : (s.updGroup g f).mem = s.mem := rfl
@[simp] theorem State.updGroup_pages (s : State) (g : Nat) (f : Group → Group) : (s.updGroup g f).pages = s.pages := rfl
@[simp] theorem State.updGroup_cores (s : State) (g : Nat) (f : Group → Group) : (s.updGroup g f).cores = s.cores := rfl
@[simp] theorem State.updGroup_flagsHeld (s : State) (g : Nat) (f : Group → Group) : (s.updGroup g f).flagsHeld = s.flagsHeld := rfl
@[simp] theorem State.updGroup_caddy (s : State) (g : Nat) (f : Group → Group) : (s.updGroup g f).caddy = s.caddy := rfl
@[simp] theorem State.updGroup_caddySt (s : State) (g : Nat) (f : Group → Group) : (s.updGroup g f).caddySt = s.caddySt := rfl
@[simp] theorem State.updGroup_fmt (s : State) (g : Nat) (f : Group → Group) : (s.updGroup g f).fmt = s.fmt := rfl
@[simp] theorem State.updGroup_num (s : State) (g : Nat) (f : Group → Group) : (s.updGroup g f).num = s.num := rfl
@[simp] theorem State.updGroup_gov (s : State) (g : Nat) (f : Group → Group) : (s.updGroup g f).gov = s.gov := rfl
@[simp] theorem State.updGroup_experts (s : State) (g : Nat) (f : Group → Group) : (s.updGroup g f).experts = s.experts := rfl
@[simp] theorem State.updGroup_lnk (s : State) (g : Nat) (f : Group → Group) : (s.updGroup g f).lnk = s.lnk := rfl
@[simp] theorem State.updGroup_chk (s : State) (g : Nat) (f : Group → Group) : (s.updGroup g f).chk = s.chk := rfl
@[simp] theorem State.updGroup_adopt (s : State) (g : Nat) (f : Group → Group) : (s.updGroup g f).adopt = s.adopt := rfl
@[simp] theorem State.updGroup_host (s : State) (g : Nat) (f : Group → Group) : (s.updGroup g f).host = s.host := rfl
@[simp] theorem State.updGroup_boot (s : State) (g : Nat) (f : Group → Group) : (s.updGroup g f).boot = s.boot := rfl
@[simp] theorem State.updGroup_flash (s : State) (g : Nat) (f : Group → Group) : (s.updGroup g f).flash = s.flash := rfl
@[simp] theorem State.updGroup_power (s : State) (g : Nat) (f : Group → Group) : (s.updGroup g f).power = s.power := rfl
@[simp] theorem State.updGroup_meas (s : State) (g : Nat) (f : Group → Group) : (s.updGroup g f).meas = s.meas := rfl
@[simp] theorem State.updGroup_spdm (s : State) (g : Nat) (f : Group → Group) : (s.updGroup g f).spdm = s.spdm := rfl
@[simp] theorem State.updGroup_side (s : State) (g : Nat) (f : Group → Group) : (s.updGroup g f).side = s.side := rfl
@[simp] theorem State.updGroup_outbox (s : State) (g : Nat) (f : Group → Group) : (s.updGroup g f).outbox = s.outbox := rfl
@[simp] theorem State.updGroup_freeIx (s : State) (g : Nat) (f : Group → Group) : (s.updGroup g f).freeIx = s.freeIx := rfl

/-! ### setRing -/

@[simp] theorem State.setRing_pending (s : State) (r : Nat) (x : Ring) : (s.setRing r x).pending = s.pending := rfl
@[simp] theorem State.setRing_clk (s : State) (r : Nat) (x : Ring) : (s.setRing r x).clk = s.clk := rfl
@[simp] theorem State.setRing_time (s : State) (r : Nat) (x : Ring) : (s.setRing r x).time = s.time := rfl
@[simp] theorem State.setRing_pace (s : State) (r : Nat) (x : Ring) : (s.setRing r x).pace = s.pace := rfl
@[simp] theorem State.setRing_legRegs (s : State) (r : Nat) (x : Ring) : (s.setRing r x).legRegs = s.legRegs := rfl
@[simp] theorem State.setRing_series (s : State) (r : Nat) (x : Ring) : (s.setRing r x).series = s.series := rfl
@[simp] theorem State.setRing_groups (s : State) (r : Nat) (x : Ring) : (s.setRing r x).groups = s.groups := rfl
@[simp] theorem State.setRing_conds (s : State) (r : Nat) (x : Ring) : (s.setRing r x).conds = s.conds := rfl
@[simp] theorem State.setRing_trace (s : State) (r : Nat) (x : Ring) : (s.setRing r x).trace = s.trace := rfl
@[simp] theorem State.setRing_plan (s : State) (r : Nat) (x : Ring) : (s.setRing r x).plan = s.plan := rfl
@[simp] theorem State.setRing_mem (s : State) (r : Nat) (x : Ring) : (s.setRing r x).mem = s.mem := rfl
@[simp] theorem State.setRing_pages (s : State) (r : Nat) (x : Ring) : (s.setRing r x).pages = s.pages := rfl
@[simp] theorem State.setRing_cores (s : State) (r : Nat) (x : Ring) : (s.setRing r x).cores = s.cores := rfl
@[simp] theorem State.setRing_flagsHeld (s : State) (r : Nat) (x : Ring) : (s.setRing r x).flagsHeld = s.flagsHeld := rfl
@[simp] theorem State.setRing_caddy (s : State) (r : Nat) (x : Ring) : (s.setRing r x).caddy = s.caddy := rfl
@[simp] theorem State.setRing_caddySt (s : State) (r : Nat) (x : Ring) : (s.setRing r x).caddySt = s.caddySt := rfl
@[simp] theorem State.setRing_fmt (s : State) (r : Nat) (x : Ring) : (s.setRing r x).fmt = s.fmt := rfl
@[simp] theorem State.setRing_num (s : State) (r : Nat) (x : Ring) : (s.setRing r x).num = s.num := rfl
@[simp] theorem State.setRing_gov (s : State) (r : Nat) (x : Ring) : (s.setRing r x).gov = s.gov := rfl
@[simp] theorem State.setRing_experts (s : State) (r : Nat) (x : Ring) : (s.setRing r x).experts = s.experts := rfl
@[simp] theorem State.setRing_lnk (s : State) (r : Nat) (x : Ring) : (s.setRing r x).lnk = s.lnk := rfl
@[simp] theorem State.setRing_chk (s : State) (r : Nat) (x : Ring) : (s.setRing r x).chk = s.chk := rfl
@[simp] theorem State.setRing_adopt (s : State) (r : Nat) (x : Ring) : (s.setRing r x).adopt = s.adopt := rfl
@[simp] theorem State.setRing_boot (s : State) (r : Nat) (x : Ring) : (s.setRing r x).boot = s.boot := rfl
@[simp] theorem State.setRing_flash (s : State) (r : Nat) (x : Ring) : (s.setRing r x).flash = s.flash := rfl
@[simp] theorem State.setRing_power (s : State) (r : Nat) (x : Ring) : (s.setRing r x).power = s.power := rfl
@[simp] theorem State.setRing_meas (s : State) (r : Nat) (x : Ring) : (s.setRing r x).meas = s.meas := rfl
@[simp] theorem State.setRing_spdm (s : State) (r : Nat) (x : Ring) : (s.setRing r x).spdm = s.spdm := rfl
@[simp] theorem State.setRing_side (s : State) (r : Nat) (x : Ring) : (s.setRing r x).side = s.side := rfl
@[simp] theorem State.setRing_outbox (s : State) (r : Nat) (x : Ring) : (s.setRing r x).outbox = s.outbox := rfl
@[simp] theorem State.setRing_freeIx (s : State) (r : Nat) (x : Ring) : (s.setRing r x).freeIx = s.freeIx := rfl

/-! ### setDesc -/

@[simp] theorem State.setDesc_pending (s : State) (d : Desc) : (s.setDesc d).pending = s.pending := rfl
@[simp] theorem State.setDesc_clk (s : State) (d : Desc) : (s.setDesc d).clk = s.clk := rfl
@[simp] theorem State.setDesc_time (s : State) (d : Desc) : (s.setDesc d).time = s.time := rfl
@[simp] theorem State.setDesc_pace (s : State) (d : Desc) : (s.setDesc d).pace = s.pace := rfl
@[simp] theorem State.setDesc_legRegs (s : State) (d : Desc) : (s.setDesc d).legRegs = s.legRegs := rfl
@[simp] theorem State.setDesc_series (s : State) (d : Desc) : (s.setDesc d).series = s.series := rfl
@[simp] theorem State.setDesc_groups (s : State) (d : Desc) : (s.setDesc d).groups = s.groups := rfl
@[simp] theorem State.setDesc_conds (s : State) (d : Desc) : (s.setDesc d).conds = s.conds := rfl
@[simp] theorem State.setDesc_trace (s : State) (d : Desc) : (s.setDesc d).trace = s.trace := rfl
@[simp] theorem State.setDesc_plan (s : State) (d : Desc) : (s.setDesc d).plan = s.plan := rfl
@[simp] theorem State.setDesc_mem (s : State) (d : Desc) : (s.setDesc d).mem = s.mem := rfl
@[simp] theorem State.setDesc_pages (s : State) (d : Desc) : (s.setDesc d).pages = s.pages := rfl
@[simp] theorem State.setDesc_cores (s : State) (d : Desc) : (s.setDesc d).cores = s.cores := rfl
@[simp] theorem State.setDesc_flagsHeld (s : State) (d : Desc) : (s.setDesc d).flagsHeld = s.flagsHeld := rfl
@[simp] theorem State.setDesc_caddy (s : State) (d : Desc) : (s.setDesc d).caddy = s.caddy := rfl
@[simp] theorem State.setDesc_caddySt (s : State) (d : Desc) : (s.setDesc d).caddySt = s.caddySt := rfl
@[simp] theorem State.setDesc_fmt (s : State) (d : Desc) : (s.setDesc d).fmt = s.fmt := rfl
@[simp] theorem State.setDesc_num (s : State) (d : Desc) : (s.setDesc d).num = s.num := rfl
@[simp] theorem State.setDesc_gov (s : State) (d : Desc) : (s.setDesc d).gov = s.gov := rfl
@[simp] theorem State.setDesc_experts (s : State) (d : Desc) : (s.setDesc d).experts = s.experts := rfl
@[simp] theorem State.setDesc_lnk (s : State) (d : Desc) : (s.setDesc d).lnk = s.lnk := rfl
@[simp] theorem State.setDesc_chk (s : State) (d : Desc) : (s.setDesc d).chk = s.chk := rfl
@[simp] theorem State.setDesc_adopt (s : State) (d : Desc) : (s.setDesc d).adopt = s.adopt := rfl
@[simp] theorem State.setDesc_boot (s : State) (d : Desc) : (s.setDesc d).boot = s.boot := rfl
@[simp] theorem State.setDesc_flash (s : State) (d : Desc) : (s.setDesc d).flash = s.flash := rfl
@[simp] theorem State.setDesc_power (s : State) (d : Desc) : (s.setDesc d).power = s.power := rfl
@[simp] theorem State.setDesc_meas (s : State) (d : Desc) : (s.setDesc d).meas = s.meas := rfl
@[simp] theorem State.setDesc_spdm (s : State) (d : Desc) : (s.setDesc d).spdm = s.spdm := rfl
@[simp] theorem State.setDesc_side (s : State) (d : Desc) : (s.setDesc d).side = s.side := rfl
@[simp] theorem State.setDesc_outbox (s : State) (d : Desc) : (s.setDesc d).outbox = s.outbox := rfl
@[simp] theorem State.setDesc_freeIx (s : State) (d : Desc) : (s.setDesc d).freeIx = s.freeIx := rfl

/-! ### startDesc -/

@[simp] theorem State.startDesc_pending (s : State) (d : Desc) : (s.startDesc d).pending = s.pending := rfl
@[simp] theorem State.startDesc_clk (s : State) (d : Desc) : (s.startDesc d).clk = s.clk := rfl
@[simp] theorem State.startDesc_time (s : State) (d : Desc) : (s.startDesc d).time = s.time := rfl
@[simp] theorem State.startDesc_pace (s : State) (d : Desc) : (s.startDesc d).pace = s.pace := rfl
@[simp] theorem State.startDesc_legRegs (s : State) (d : Desc) : (s.startDesc d).legRegs = s.legRegs := rfl
@[simp] theorem State.startDesc_series (s : State) (d : Desc) : (s.startDesc d).series = s.series := rfl
@[simp] theorem State.startDesc_groups (s : State) (d : Desc) : (s.startDesc d).groups = s.groups := rfl
@[simp] theorem State.startDesc_conds (s : State) (d : Desc) : (s.startDesc d).conds = s.conds := rfl
@[simp] theorem State.startDesc_trace (s : State) (d : Desc) : (s.startDesc d).trace = s.trace := rfl
@[simp] theorem State.startDesc_plan (s : State) (d : Desc) : (s.startDesc d).plan = s.plan := rfl
@[simp] theorem State.startDesc_mem (s : State) (d : Desc) : (s.startDesc d).mem = s.mem := rfl
@[simp] theorem State.startDesc_pages (s : State) (d : Desc) : (s.startDesc d).pages = s.pages := rfl
@[simp] theorem State.startDesc_cores (s : State) (d : Desc) : (s.startDesc d).cores = s.cores := rfl
@[simp] theorem State.startDesc_flagsHeld (s : State) (d : Desc) : (s.startDesc d).flagsHeld = s.flagsHeld := rfl
@[simp] theorem State.startDesc_caddy (s : State) (d : Desc) : (s.startDesc d).caddy = s.caddy := rfl
@[simp] theorem State.startDesc_caddySt (s : State) (d : Desc) : (s.startDesc d).caddySt = s.caddySt := rfl
@[simp] theorem State.startDesc_fmt (s : State) (d : Desc) : (s.startDesc d).fmt = s.fmt := rfl
@[simp] theorem State.startDesc_num (s : State) (d : Desc) : (s.startDesc d).num = s.num := rfl
@[simp] theorem State.startDesc_gov (s : State) (d : Desc) : (s.startDesc d).gov = s.gov := rfl
@[simp] theorem State.startDesc_experts (s : State) (d : Desc) : (s.startDesc d).experts = s.experts := rfl
@[simp] theorem State.startDesc_lnk (s : State) (d : Desc) : (s.startDesc d).lnk = s.lnk := rfl
@[simp] theorem State.startDesc_chk (s : State) (d : Desc) : (s.startDesc d).chk = s.chk := rfl
@[simp] theorem State.startDesc_adopt (s : State) (d : Desc) : (s.startDesc d).adopt = s.adopt := rfl
@[simp] theorem State.startDesc_boot (s : State) (d : Desc) : (s.startDesc d).boot = s.boot := rfl
@[simp] theorem State.startDesc_flash (s : State) (d : Desc) : (s.startDesc d).flash = s.flash := rfl
@[simp] theorem State.startDesc_power (s : State) (d : Desc) : (s.startDesc d).power = s.power := rfl
@[simp] theorem State.startDesc_meas (s : State) (d : Desc) : (s.startDesc d).meas = s.meas := rfl
@[simp] theorem State.startDesc_spdm (s : State) (d : Desc) : (s.startDesc d).spdm = s.spdm := rfl
@[simp] theorem State.startDesc_side (s : State) (d : Desc) : (s.startDesc d).side = s.side := rfl
@[simp] theorem State.startDesc_outbox (s : State) (d : Desc) : (s.startDesc d).outbox = s.outbox := rfl
@[simp] theorem State.startDesc_freeIx (s : State) (d : Desc) : (s.startDesc d).freeIx = s.freeIx := rfl

/-! ### updLink -/

@[simp] theorem State.updLink_pending (s : State) (l : Nat) (f : Link → Link) : (s.updLink l f).pending = s.pending := rfl
@[simp] theorem State.updLink_clk (s : State) (l : Nat) (f : Link → Link) : (s.updLink l f).clk = s.clk := rfl
@[simp] theorem State.updLink_time (s : State) (l : Nat) (f : Link → Link) : (s.updLink l f).time = s.time := rfl
@[simp] theorem State.updLink_pace (s : State) (l : Nat) (f : Link → Link) : (s.updLink l f).pace = s.pace := rfl
@[simp] theorem State.updLink_legRegs (s : State) (l : Nat) (f : Link → Link) : (s.updLink l f).legRegs = s.legRegs := rfl
@[simp] theorem State.updLink_series (s : State) (l : Nat) (f : Link → Link) : (s.updLink l f).series = s.series := rfl
@[simp] theorem State.updLink_groups (s : State) (l : Nat) (f : Link → Link) : (s.updLink l f).groups = s.groups := rfl
@[simp] theorem State.updLink_conds (s : State) (l : Nat) (f : Link → Link) : (s.updLink l f).conds = s.conds := rfl
@[simp] theorem State.updLink_trace (s : State) (l : Nat) (f : Link → Link) : (s.updLink l f).trace = s.trace := rfl
@[simp] theorem State.updLink_plan (s : State) (l : Nat) (f : Link → Link) : (s.updLink l f).plan = s.plan := rfl
@[simp] theorem State.updLink_mem (s : State) (l : Nat) (f : Link → Link) : (s.updLink l f).mem = s.mem := rfl
@[simp] theorem State.updLink_pages (s : State) (l : Nat) (f : Link → Link) : (s.updLink l f).pages = s.pages := rfl
@[simp] theorem State.updLink_cores (s : State) (l : Nat) (f : Link → Link) : (s.updLink l f).cores = s.cores := rfl
@[simp] theorem State.updLink_flagsHeld (s : State) (l : Nat) (f : Link → Link) : (s.updLink l f).flagsHeld = s.flagsHeld := rfl
@[simp] theorem State.updLink_caddy (s : State) (l : Nat) (f : Link → Link) : (s.updLink l f).caddy = s.caddy := rfl
@[simp] theorem State.updLink_caddySt (s : State) (l : Nat) (f : Link → Link) : (s.updLink l f).caddySt = s.caddySt := rfl
@[simp] theorem State.updLink_fmt (s : State) (l : Nat) (f : Link → Link) : (s.updLink l f).fmt = s.fmt := rfl
@[simp] theorem State.updLink_num (s : State) (l : Nat) (f : Link → Link) : (s.updLink l f).num = s.num := rfl
@[simp] theorem State.updLink_gov (s : State) (l : Nat) (f : Link → Link) : (s.updLink l f).gov = s.gov := rfl
@[simp] theorem State.updLink_experts (s : State) (l : Nat) (f : Link → Link) : (s.updLink l f).experts = s.experts := rfl
@[simp] theorem State.updLink_chk (s : State) (l : Nat) (f : Link → Link) : (s.updLink l f).chk = s.chk := rfl
@[simp] theorem State.updLink_adopt (s : State) (l : Nat) (f : Link → Link) : (s.updLink l f).adopt = s.adopt := rfl
@[simp] theorem State.updLink_host (s : State) (l : Nat) (f : Link → Link) : (s.updLink l f).host = s.host := rfl
@[simp] theorem State.updLink_boot (s : State) (l : Nat) (f : Link → Link) : (s.updLink l f).boot = s.boot := rfl
@[simp] theorem State.updLink_flash (s : State) (l : Nat) (f : Link → Link) : (s.updLink l f).flash = s.flash := rfl
@[simp] theorem State.updLink_power (s : State) (l : Nat) (f : Link → Link) : (s.updLink l f).power = s.power := rfl
@[simp] theorem State.updLink_meas (s : State) (l : Nat) (f : Link → Link) : (s.updLink l f).meas = s.meas := rfl
@[simp] theorem State.updLink_spdm (s : State) (l : Nat) (f : Link → Link) : (s.updLink l f).spdm = s.spdm := rfl
@[simp] theorem State.updLink_side (s : State) (l : Nat) (f : Link → Link) : (s.updLink l f).side = s.side := rfl
@[simp] theorem State.updLink_outbox (s : State) (l : Nat) (f : Link → Link) : (s.updLink l f).outbox = s.outbox := rfl
@[simp] theorem State.updLink_freeIx (s : State) (l : Nat) (f : Link → Link) : (s.updLink l f).freeIx = s.freeIx := rfl

/-! ### updCtl -/

@[simp] theorem State.updCtl_pending (s : State) (d : Nat) (f : MemCtl → MemCtl) : (s.updCtl d f).pending = s.pending := rfl
@[simp] theorem State.updCtl_clk (s : State) (d : Nat) (f : MemCtl → MemCtl) : (s.updCtl d f).clk = s.clk := rfl
@[simp] theorem State.updCtl_time (s : State) (d : Nat) (f : MemCtl → MemCtl) : (s.updCtl d f).time = s.time := rfl
@[simp] theorem State.updCtl_pace (s : State) (d : Nat) (f : MemCtl → MemCtl) : (s.updCtl d f).pace = s.pace := rfl
@[simp] theorem State.updCtl_legRegs (s : State) (d : Nat) (f : MemCtl → MemCtl) : (s.updCtl d f).legRegs = s.legRegs := rfl
@[simp] theorem State.updCtl_series (s : State) (d : Nat) (f : MemCtl → MemCtl) : (s.updCtl d f).series = s.series := rfl
@[simp] theorem State.updCtl_groups (s : State) (d : Nat) (f : MemCtl → MemCtl) : (s.updCtl d f).groups = s.groups := rfl
@[simp] theorem State.updCtl_conds (s : State) (d : Nat) (f : MemCtl → MemCtl) : (s.updCtl d f).conds = s.conds := rfl
@[simp] theorem State.updCtl_trace (s : State) (d : Nat) (f : MemCtl → MemCtl) : (s.updCtl d f).trace = s.trace := rfl
@[simp] theorem State.updCtl_plan (s : State) (d : Nat) (f : MemCtl → MemCtl) : (s.updCtl d f).plan = s.plan := rfl
@[simp] theorem State.updCtl_pages (s : State) (d : Nat) (f : MemCtl → MemCtl) : (s.updCtl d f).pages = s.pages := rfl
@[simp] theorem State.updCtl_cores (s : State) (d : Nat) (f : MemCtl → MemCtl) : (s.updCtl d f).cores = s.cores := rfl
@[simp] theorem State.updCtl_flagsHeld (s : State) (d : Nat) (f : MemCtl → MemCtl) : (s.updCtl d f).flagsHeld = s.flagsHeld := rfl
@[simp] theorem State.updCtl_caddy (s : State) (d : Nat) (f : MemCtl → MemCtl) : (s.updCtl d f).caddy = s.caddy := rfl
@[simp] theorem State.updCtl_caddySt (s : State) (d : Nat) (f : MemCtl → MemCtl) : (s.updCtl d f).caddySt = s.caddySt := rfl
@[simp] theorem State.updCtl_fmt (s : State) (d : Nat) (f : MemCtl → MemCtl) : (s.updCtl d f).fmt = s.fmt := rfl
@[simp] theorem State.updCtl_num (s : State) (d : Nat) (f : MemCtl → MemCtl) : (s.updCtl d f).num = s.num := rfl
@[simp] theorem State.updCtl_gov (s : State) (d : Nat) (f : MemCtl → MemCtl) : (s.updCtl d f).gov = s.gov := rfl
@[simp] theorem State.updCtl_experts (s : State) (d : Nat) (f : MemCtl → MemCtl) : (s.updCtl d f).experts = s.experts := rfl
@[simp] theorem State.updCtl_lnk (s : State) (d : Nat) (f : MemCtl → MemCtl) : (s.updCtl d f).lnk = s.lnk := rfl
@[simp] theorem State.updCtl_chk (s : State) (d : Nat) (f : MemCtl → MemCtl) : (s.updCtl d f).chk = s.chk := rfl
@[simp] theorem State.updCtl_adopt (s : State) (d : Nat) (f : MemCtl → MemCtl) : (s.updCtl d f).adopt = s.adopt := rfl
@[simp] theorem State.updCtl_host (s : State) (d : Nat) (f : MemCtl → MemCtl) : (s.updCtl d f).host = s.host := rfl
@[simp] theorem State.updCtl_boot (s : State) (d : Nat) (f : MemCtl → MemCtl) : (s.updCtl d f).boot = s.boot := rfl
@[simp] theorem State.updCtl_flash (s : State) (d : Nat) (f : MemCtl → MemCtl) : (s.updCtl d f).flash = s.flash := rfl
@[simp] theorem State.updCtl_power (s : State) (d : Nat) (f : MemCtl → MemCtl) : (s.updCtl d f).power = s.power := rfl
@[simp] theorem State.updCtl_meas (s : State) (d : Nat) (f : MemCtl → MemCtl) : (s.updCtl d f).meas = s.meas := rfl
@[simp] theorem State.updCtl_spdm (s : State) (d : Nat) (f : MemCtl → MemCtl) : (s.updCtl d f).spdm = s.spdm := rfl
@[simp] theorem State.updCtl_side (s : State) (d : Nat) (f : MemCtl → MemCtl) : (s.updCtl d f).side = s.side := rfl
@[simp] theorem State.updCtl_outbox (s : State) (d : Nat) (f : MemCtl → MemCtl) : (s.updCtl d f).outbox = s.outbox := rfl
@[simp] theorem State.updCtl_freeIx (s : State) (d : Nat) (f : MemCtl → MemCtl) : (s.updCtl d f).freeIx = s.freeIx := rfl

/-! ### setCst -/

@[simp] theorem State.setCst_pending (s : State) (e : Nat) (x : CaddySt) : (s.setCst e x).pending = s.pending := rfl
@[simp] theorem State.setCst_clk (s : State) (e : Nat) (x : CaddySt) : (s.setCst e x).clk = s.clk := rfl
@[simp] theorem State.setCst_time (s : State) (e : Nat) (x : CaddySt) : (s.setCst e x).time = s.time := rfl
@[simp] theorem State.setCst_pace (s : State) (e : Nat) (x : CaddySt) : (s.setCst e x).pace = s.pace := rfl
@[simp] theorem State.setCst_legRegs (s : State) (e : Nat) (x : CaddySt) : (s.setCst e x).legRegs = s.legRegs := rfl
@[simp] theorem State.setCst_series (s : State) (e : Nat) (x : CaddySt) : (s.setCst e x).series = s.series := rfl
@[simp] theorem State.setCst_groups (s : State) (e : Nat) (x : CaddySt) : (s.setCst e x).groups = s.groups := rfl
@[simp] theorem State.setCst_conds (s : State) (e : Nat) (x : CaddySt) : (s.setCst e x).conds = s.conds := rfl
@[simp] theorem State.setCst_trace (s : State) (e : Nat) (x : CaddySt) : (s.setCst e x).trace = s.trace := rfl
@[simp] theorem State.setCst_plan (s : State) (e : Nat) (x : CaddySt) : (s.setCst e x).plan = s.plan := rfl
@[simp] theorem State.setCst_mem (s : State) (e : Nat) (x : CaddySt) : (s.setCst e x).mem = s.mem := rfl
@[simp] theorem State.setCst_pages (s : State) (e : Nat) (x : CaddySt) : (s.setCst e x).pages = s.pages := rfl
@[simp] theorem State.setCst_cores (s : State) (e : Nat) (x : CaddySt) : (s.setCst e x).cores = s.cores := rfl
@[simp] theorem State.setCst_flagsHeld (s : State) (e : Nat) (x : CaddySt) : (s.setCst e x).flagsHeld = s.flagsHeld := rfl
@[simp] theorem State.setCst_caddy (s : State) (e : Nat) (x : CaddySt) : (s.setCst e x).caddy = s.caddy := rfl
@[simp] theorem State.setCst_fmt (s : State) (e : Nat) (x : CaddySt) : (s.setCst e x).fmt = s.fmt := rfl
@[simp] theorem State.setCst_num (s : State) (e : Nat) (x : CaddySt) : (s.setCst e x).num = s.num := rfl
@[simp] theorem State.setCst_gov (s : State) (e : Nat) (x : CaddySt) : (s.setCst e x).gov = s.gov := rfl
@[simp] theorem State.setCst_experts (s : State) (e : Nat) (x : CaddySt) : (s.setCst e x).experts = s.experts := rfl
@[simp] theorem State.setCst_lnk (s : State) (e : Nat) (x : CaddySt) : (s.setCst e x).lnk = s.lnk := rfl
@[simp] theorem State.setCst_chk (s : State) (e : Nat) (x : CaddySt) : (s.setCst e x).chk = s.chk := rfl
@[simp] theorem State.setCst_adopt (s : State) (e : Nat) (x : CaddySt) : (s.setCst e x).adopt = s.adopt := rfl
@[simp] theorem State.setCst_host (s : State) (e : Nat) (x : CaddySt) : (s.setCst e x).host = s.host := rfl
@[simp] theorem State.setCst_boot (s : State) (e : Nat) (x : CaddySt) : (s.setCst e x).boot = s.boot := rfl
@[simp] theorem State.setCst_flash (s : State) (e : Nat) (x : CaddySt) : (s.setCst e x).flash = s.flash := rfl
@[simp] theorem State.setCst_power (s : State) (e : Nat) (x : CaddySt) : (s.setCst e x).power = s.power := rfl
@[simp] theorem State.setCst_meas (s : State) (e : Nat) (x : CaddySt) : (s.setCst e x).meas = s.meas := rfl
@[simp] theorem State.setCst_spdm (s : State) (e : Nat) (x : CaddySt) : (s.setCst e x).spdm = s.spdm := rfl
@[simp] theorem State.setCst_side (s : State) (e : Nat) (x : CaddySt) : (s.setCst e x).side = s.side := rfl
@[simp] theorem State.setCst_outbox (s : State) (e : Nat) (x : CaddySt) : (s.setCst e x).outbox = s.outbox := rfl
@[simp] theorem State.setCst_freeIx (s : State) (e : Nat) (x : CaddySt) : (s.setCst e x).freeIx = s.freeIx := rfl

/-! ### updSeries -/

@[simp] theorem State.updSeries_pending (s : State) (f : Series → Series) : (s.updSeries f).pending = s.pending := rfl
@[simp] theorem State.updSeries_clk (s : State) (f : Series → Series) : (s.updSeries f).clk = s.clk := rfl
@[simp] theorem State.updSeries_time (s : State) (f : Series → Series) : (s.updSeries f).time = s.time := rfl
@[simp] theorem State.updSeries_pace (s : State) (f : Series → Series) : (s.updSeries f).pace = s.pace := rfl
@[simp] theorem State.updSeries_legRegs (s : State) (f : Series → Series) : (s.updSeries f).legRegs = s.legRegs := rfl
@[simp] theorem State.updSeries_groups (s : State) (f : Series → Series) : (s.updSeries f).groups = s.groups := rfl
@[simp] theorem State.updSeries_conds (s : State) (f : Series → Series) : (s.updSeries f).conds = s.conds := rfl
@[simp] theorem State.updSeries_trace (s : State) (f : Series → Series) : (s.updSeries f).trace = s.trace := rfl
@[simp] theorem State.updSeries_plan (s : State) (f : Series → Series) : (s.updSeries f).plan = s.plan := rfl
@[simp] theorem State.updSeries_mem (s : State) (f : Series → Series) : (s.updSeries f).mem = s.mem := rfl
@[simp] theorem State.updSeries_pages (s : State) (f : Series → Series) : (s.updSeries f).pages = s.pages := rfl
@[simp] theorem State.updSeries_cores (s : State) (f : Series → Series) : (s.updSeries f).cores = s.cores := rfl
@[simp] theorem State.updSeries_flagsHeld (s : State) (f : Series → Series) : (s.updSeries f).flagsHeld = s.flagsHeld := rfl
@[simp] theorem State.updSeries_caddy (s : State) (f : Series → Series) : (s.updSeries f).caddy = s.caddy := rfl
@[simp] theorem State.updSeries_caddySt (s : State) (f : Series → Series) : (s.updSeries f).caddySt = s.caddySt := rfl
@[simp] theorem State.updSeries_fmt (s : State) (f : Series → Series) : (s.updSeries f).fmt = s.fmt := rfl
@[simp] theorem State.updSeries_num (s : State) (f : Series → Series) : (s.updSeries f).num = s.num := rfl
@[simp] theorem State.updSeries_gov (s : State) (f : Series → Series) : (s.updSeries f).gov = s.gov := rfl
@[simp] theorem State.updSeries_experts (s : State) (f : Series → Series) : (s.updSeries f).experts = s.experts := rfl
@[simp] theorem State.updSeries_lnk (s : State) (f : Series → Series) : (s.updSeries f).lnk = s.lnk := rfl
@[simp] theorem State.updSeries_chk (s : State) (f : Series → Series) : (s.updSeries f).chk = s.chk := rfl
@[simp] theorem State.updSeries_adopt (s : State) (f : Series → Series) : (s.updSeries f).adopt = s.adopt := rfl
@[simp] theorem State.updSeries_host (s : State) (f : Series → Series) : (s.updSeries f).host = s.host := rfl
@[simp] theorem State.updSeries_boot (s : State) (f : Series → Series) : (s.updSeries f).boot = s.boot := rfl
@[simp] theorem State.updSeries_flash (s : State) (f : Series → Series) : (s.updSeries f).flash = s.flash := rfl
@[simp] theorem State.updSeries_power (s : State) (f : Series → Series) : (s.updSeries f).power = s.power := rfl
@[simp] theorem State.updSeries_meas (s : State) (f : Series → Series) : (s.updSeries f).meas = s.meas := rfl
@[simp] theorem State.updSeries_spdm (s : State) (f : Series → Series) : (s.updSeries f).spdm = s.spdm := rfl
@[simp] theorem State.updSeries_side (s : State) (f : Series → Series) : (s.updSeries f).side = s.side := rfl
@[simp] theorem State.updSeries_outbox (s : State) (f : Series → Series) : (s.updSeries f).outbox = s.outbox := rfl
@[simp] theorem State.updSeries_freeIx (s : State) (f : Series → Series) : (s.updSeries f).freeIx = s.freeIx := rfl

/-! ### The clocks -/

/-- The arrays run a number of cycles: the cores' records change, and nothing else (R97, R265). -/
theorem State.runArrays_only (s : State) (n : Nat) : { s.runArrays n with cores := s.cores } = s := by
  unfold State.runArrays
  split
  · rfl
  suffices h : ∀ (l : List Nat) (t : State), { l.foldl (fun t c => t.setCore c (iter n (fun j k => s.arrayCycle c (s.cycles + j) k) (s.core c))) t with cores := s.cores }
      = { t with cores := s.cores } from (h _ s).trans rfl
  intro l
  induction l with
  | nil => intro t; rfl
  | cons c l ih => intro t; exact (ih _).trans rfl

@[simp] theorem State.runArrays_pending (s : State) (n : Nat) : (s.runArrays n).pending = s.pending := by have h := congrArg State.pending (State.runArrays_only s n); exact h
@[simp] theorem State.runArrays_clk (s : State) (n : Nat) : (s.runArrays n).clk = s.clk := by have h := congrArg State.clk (State.runArrays_only s n); exact h
@[simp] theorem State.runArrays_time (s : State) (n : Nat) : (s.runArrays n).time = s.time := by have h := congrArg State.time (State.runArrays_only s n); exact h
@[simp] theorem State.runArrays_pace (s : State) (n : Nat) : (s.runArrays n).pace = s.pace := by have h := congrArg State.pace (State.runArrays_only s n); exact h
@[simp] theorem State.runArrays_legRegs (s : State) (n : Nat) : (s.runArrays n).legRegs = s.legRegs := by have h := congrArg State.legRegs (State.runArrays_only s n); exact h
@[simp] theorem State.runArrays_series (s : State) (n : Nat) : (s.runArrays n).series = s.series := by have h := congrArg State.series (State.runArrays_only s n); exact h
@[simp] theorem State.runArrays_groups (s : State) (n : Nat) : (s.runArrays n).groups = s.groups := by have h := congrArg State.groups (State.runArrays_only s n); exact h
@[simp] theorem State.runArrays_conds (s : State) (n : Nat) : (s.runArrays n).conds = s.conds := by have h := congrArg State.conds (State.runArrays_only s n); exact h
@[simp] theorem State.runArrays_trace (s : State) (n : Nat) : (s.runArrays n).trace = s.trace := by have h := congrArg State.trace (State.runArrays_only s n); exact h
@[simp] theorem State.runArrays_plan (s : State) (n : Nat) : (s.runArrays n).plan = s.plan := by have h := congrArg State.plan (State.runArrays_only s n); exact h
@[simp] theorem State.runArrays_mem (s : State) (n : Nat) : (s.runArrays n).mem = s.mem := by have h := congrArg State.mem (State.runArrays_only s n); exact h
@[simp] theorem State.runArrays_pages (s : State) (n : Nat) : (s.runArrays n).pages = s.pages := by have h := congrArg State.pages (State.runArrays_only s n); exact h
@[simp] theorem State.runArrays_flagsHeld (s : State) (n : Nat) : (s.runArrays n).flagsHeld = s.flagsHeld := by have h := congrArg State.flagsHeld (State.runArrays_only s n); exact h
@[simp] theorem State.runArrays_caddy (s : State) (n : Nat) : (s.runArrays n).caddy = s.caddy := by have h := congrArg State.caddy (State.runArrays_only s n); exact h
@[simp] theorem State.runArrays_caddySt (s : State) (n : Nat) : (s.runArrays n).caddySt = s.caddySt := by have h := congrArg State.caddySt (State.runArrays_only s n); exact h
@[simp] theorem State.runArrays_fmt (s : State) (n : Nat) : (s.runArrays n).fmt = s.fmt := by have h := congrArg State.fmt (State.runArrays_only s n); exact h
@[simp] theorem State.runArrays_num (s : State) (n : Nat) : (s.runArrays n).num = s.num := by have h := congrArg State.num (State.runArrays_only s n); exact h
@[simp] theorem State.runArrays_gov (s : State) (n : Nat) : (s.runArrays n).gov = s.gov := by have h := congrArg State.gov (State.runArrays_only s n); exact h
@[simp] theorem State.runArrays_experts (s : State) (n : Nat) : (s.runArrays n).experts = s.experts := by have h := congrArg State.experts (State.runArrays_only s n); exact h
@[simp] theorem State.runArrays_lnk (s : State) (n : Nat) : (s.runArrays n).lnk = s.lnk := by have h := congrArg State.lnk (State.runArrays_only s n); exact h
@[simp] theorem State.runArrays_chk (s : State) (n : Nat) : (s.runArrays n).chk = s.chk := by have h := congrArg State.chk (State.runArrays_only s n); exact h
@[simp] theorem State.runArrays_adopt (s : State) (n : Nat) : (s.runArrays n).adopt = s.adopt := by have h := congrArg State.adopt (State.runArrays_only s n); exact h
@[simp] theorem State.runArrays_host (s : State) (n : Nat) : (s.runArrays n).host = s.host := by have h := congrArg State.host (State.runArrays_only s n); exact h
@[simp] theorem State.runArrays_boot (s : State) (n : Nat) : (s.runArrays n).boot = s.boot := by have h := congrArg State.boot (State.runArrays_only s n); exact h
@[simp] theorem State.runArrays_flash (s : State) (n : Nat) : (s.runArrays n).flash = s.flash := by have h := congrArg State.flash (State.runArrays_only s n); exact h
@[simp] theorem State.runArrays_power (s : State) (n : Nat) : (s.runArrays n).power = s.power := by have h := congrArg State.power (State.runArrays_only s n); exact h
@[simp] theorem State.runArrays_meas (s : State) (n : Nat) : (s.runArrays n).meas = s.meas := by have h := congrArg State.meas (State.runArrays_only s n); exact h
@[simp] theorem State.runArrays_spdm (s : State) (n : Nat) : (s.runArrays n).spdm = s.spdm := by have h := congrArg State.spdm (State.runArrays_only s n); exact h
@[simp] theorem State.runArrays_side (s : State) (n : Nat) : (s.runArrays n).side = s.side := by have h := congrArg State.side (State.runArrays_only s n); exact h
@[simp] theorem State.runArrays_outbox (s : State) (n : Nat) : (s.runArrays n).outbox = s.outbox := by have h := congrArg State.outbox (State.runArrays_only s n); exact h
@[simp] theorem State.runArrays_freeIx (s : State) (n : Nat) : (s.runArrays n).freeIx = s.freeIx := by have h := congrArg State.freeIx (State.runArrays_only s n); exact h
@[simp] theorem State.advance_pending (s : State) (d : Nat) : (s.advance d).pending = s.pending := State.runArrays_pending ..
@[simp] theorem State.advance_pace (s : State) (d : Nat) : (s.advance d).pace = s.pace := State.runArrays_pace ..
@[simp] theorem State.advance_legRegs (s : State) (d : Nat) : (s.advance d).legRegs = s.legRegs := State.runArrays_legRegs ..
@[simp] theorem State.advance_series (s : State) (d : Nat) : (s.advance d).series = s.series := State.runArrays_series ..
@[simp] theorem State.advance_groups (s : State) (d : Nat) : (s.advance d).groups = s.groups := State.runArrays_groups ..
@[simp] theorem State.advance_conds (s : State) (d : Nat) : (s.advance d).conds = s.conds := State.runArrays_conds ..
@[simp] theorem State.advance_trace (s : State) (d : Nat) : (s.advance d).trace = s.trace := State.runArrays_trace ..
@[simp] theorem State.advance_plan (s : State) (d : Nat) : (s.advance d).plan = s.plan := State.runArrays_plan ..
@[simp] theorem State.advance_mem (s : State) (d : Nat) : (s.advance d).mem = s.mem := State.runArrays_mem ..
@[simp] theorem State.advance_pages (s : State) (d : Nat) : (s.advance d).pages = s.pages := State.runArrays_pages ..
@[simp] theorem State.advance_flagsHeld (s : State) (d : Nat) : (s.advance d).flagsHeld = s.flagsHeld := State.runArrays_flagsHeld ..
@[simp] theorem State.advance_caddy (s : State) (d : Nat) : (s.advance d).caddy = s.caddy := State.runArrays_caddy ..
@[simp] theorem State.advance_caddySt (s : State) (d : Nat) : (s.advance d).caddySt = s.caddySt := State.runArrays_caddySt ..
@[simp] theorem State.advance_fmt (s : State) (d : Nat) : (s.advance d).fmt = s.fmt := State.runArrays_fmt ..
@[simp] theorem State.advance_num (s : State) (d : Nat) : (s.advance d).num = s.num := State.runArrays_num ..
@[simp] theorem State.advance_gov (s : State) (d : Nat) : (s.advance d).gov = s.gov := State.runArrays_gov ..
@[simp] theorem State.advance_experts (s : State) (d : Nat) : (s.advance d).experts = s.experts := State.runArrays_experts ..
@[simp] theorem State.advance_lnk (s : State) (d : Nat) : (s.advance d).lnk = s.lnk := State.runArrays_lnk ..
@[simp] theorem State.advance_chk (s : State) (d : Nat) : (s.advance d).chk = s.chk := State.runArrays_chk ..
@[simp] theorem State.advance_adopt (s : State) (d : Nat) : (s.advance d).adopt = s.adopt := State.runArrays_adopt ..
@[simp] theorem State.advance_host (s : State) (d : Nat) : (s.advance d).host = s.host := State.runArrays_host ..
@[simp] theorem State.advance_boot (s : State) (d : Nat) : (s.advance d).boot = s.boot := State.runArrays_boot ..
@[simp] theorem State.advance_flash (s : State) (d : Nat) : (s.advance d).flash = s.flash := State.runArrays_flash ..
@[simp] theorem State.advance_meas (s : State) (d : Nat) : (s.advance d).meas = s.meas := State.runArrays_meas ..
@[simp] theorem State.advance_spdm (s : State) (d : Nat) : (s.advance d).spdm = s.spdm := State.runArrays_spdm ..
@[simp] theorem State.advance_side (s : State) (d : Nat) : (s.advance d).side = s.side := State.runArrays_side ..
@[simp] theorem State.advance_outbox (s : State) (d : Nat) : (s.advance d).outbox = s.outbox := State.runArrays_outbox ..
@[simp] theorem State.advance_freeIx (s : State) (d : Nat) : (s.advance d).freeIx = s.freeIx := State.runArrays_freeIx ..

/-! ### A core's record -/

@[simp] theorem Core.count_power (k : Core) (o n : Nat) : (k.count o n).power = k.power := rfl
@[simp] theorem Core.count_program (k : Core) (o n : Nat) : (k.count o n).program = k.program := rfl
@[simp] theorem Core.count_fwd (k : Core) (o n : Nat) : (k.count o n).fwd = k.fwd := rfl
@[simp] theorem Core.count_bwd (k : Core) (o n : Nat) : (k.count o n).bwd = k.bwd := rfl
@[simp] theorem Core.count_upd (k : Core) (o n : Nat) : (k.count o n).upd = k.upd := rfl
@[simp] theorem Core.count_ctrs (k : Core) (o n : Nat) : (k.count o n).ctrs = k.ctrs := rfl
@[simp] theorem Core.count_ctrPast (k : Core) (o n : Nat) : (k.count o n).ctrPast = k.ctrPast := rfl
@[simp] theorem Core.count_sems (k : Core) (o n : Nat) : (k.count o n).sems = k.sems := rfl
@[simp] theorem Core.count_semPast (k : Core) (o n : Nat) : (k.count o n).semPast = k.semPast := rfl
@[simp] theorem Core.count_arrivals (k : Core) (o n : Nat) : (k.count o n).arrivals = k.arrivals := rfl
@[simp] theorem Core.count_nextOp (k : Core) (o n : Nat) : (k.count o n).nextOp = k.nextOp := rfl
@[simp] theorem Core.count_potNext (k : Core) (o n : Nat) : (k.count o n).potNext = k.potNext := rfl
@[simp] theorem Core.count_potHead (k : Core) (o n : Nat) : (k.count o n).potHead = k.potHead := rfl
@[simp] theorem Core.count_potDone (k : Core) (o n : Nat) : (k.count o n).potDone = k.potDone := rfl
@[simp] theorem Core.count_arb (k : Core) (o n : Nat) : (k.count o n).arb = k.arb := rfl
@[simp] theorem Core.count_lately (k : Core) (o n : Nat) : (k.count o n).lately = k.lately := rfl
@[simp] theorem Core.count_arrayQ (k : Core) (o n : Nat) : (k.count o n).arrayQ = k.arrayQ := rfl
@[simp] theorem Core.count_mergeQ (k : Core) (o n : Nat) : (k.count o n).mergeQ = k.mergeQ := rfl
@[simp] theorem Core.count_vecQ (k : Core) (o n : Nat) : (k.count o n).vecQ = k.vecQ := rfl
@[simp] theorem Core.count_rowQ (k : Core) (o n : Nat) : (k.count o n).rowQ = k.rowQ := rfl
@[simp] theorem Core.count_accQ (k : Core) (o n : Nat) : (k.count o n).accQ = k.accQ := rfl
@[simp] theorem Core.count_arrayRun (k : Core) (o n : Nat) : (k.count o n).arrayRun = k.arrayRun := rfl
@[simp] theorem Core.count_mergeRun (k : Core) (o n : Nat) : (k.count o n).mergeRun = k.mergeRun := rfl
@[simp] theorem Core.count_vecRun (k : Core) (o n : Nat) : (k.count o n).vecRun = k.vecRun := rfl
@[simp] theorem Core.count_rowRun (k : Core) (o n : Nat) : (k.count o n).rowRun = k.rowRun := rfl
@[simp] theorem Core.count_accRun (k : Core) (o n : Nat) : (k.count o n).accRun = k.accRun := rfl
@[simp] theorem Core.count_arrayMode (k : Core) (o n : Nat) : (k.count o n).arrayMode = k.arrayMode := rfl
@[simp] theorem Core.count_arrayDir (k : Core) (o n : Nat) : (k.count o n).arrayDir = k.arrayDir := rfl
@[simp] theorem Core.count_flows (k : Core) (o n : Nat) : (k.count o n).flows = k.flows := rfl
@[simp] theorem Core.count_load (k : Core) (o n : Nat) : (k.count o n).load = k.load := rfl
@[simp] theorem Core.count_drains (k : Core) (o n : Nat) : (k.count o n).drains = k.drains := rfl
@[simp] theorem Core.count_adv (k : Core) (o n : Nat) : (k.count o n).adv = k.adv := rfl
@[simp] theorem Core.count_pairs (k : Core) (o n : Nat) : (k.count o n).pairs = k.pairs := rfl
@[simp] theorem Core.count_uArray (k : Core) (o n : Nat) : (k.count o n).uArray = k.uArray := rfl
@[simp] theorem Core.count_uMerge (k : Core) (o n : Nat) : (k.count o n).uMerge = k.uMerge := rfl
@[simp] theorem Core.count_uVec (k : Core) (o n : Nat) : (k.count o n).uVec = k.uVec := rfl
@[simp] theorem Core.count_uRow (k : Core) (o n : Nat) : (k.count o n).uRow = k.uRow := rfl
@[simp] theorem Core.count_store (k : Core) (o n : Nat) : (k.count o n).store = k.store := rfl
@[simp] theorem Core.count_storePoison (k : Core) (o n : Nat) : (k.count o n).storePoison = k.storePoison := rfl
@[simp] theorem Core.count_planes (k : Core) (o n : Nat) : (k.count o n).planes = k.planes := rfl
@[simp] theorem Core.count_planePoison (k : Core) (o n : Nat) : (k.count o n).planePoison = k.planePoison := rfl
@[simp] theorem Core.count_exps (k : Core) (o n : Nat) : (k.count o n).exps = k.exps := rfl
@[simp] theorem Core.count_expPoison (k : Core) (o n : Nat) : (k.count o n).expPoison = k.expPoison := rfl
@[simp] theorem Core.count_index (k : Core) (o n : Nat) : (k.count o n).index = k.index := rfl
@[simp] theorem Core.count_indexPoison (k : Core) (o n : Nat) : (k.count o n).indexPoison = k.indexPoison := rfl
@[simp] theorem Core.count_secded (k : Core) (o n : Nat) : (k.count o n).secded = k.secded := rfl
@[simp] theorem Core.count_modes (k : Core) (o n : Nat) : (k.count o n).modes = k.modes := rfl
@[simp] theorem Core.count_pot (k : Core) (o n : Nat) : (k.count o n).pot = k.pot := rfl
@[simp] theorem Core.count_potPoison (k : Core) (o n : Nat) : (k.count o n).potPoison = k.potPoison := rfl
@[simp] theorem Core.count_stats (k : Core) (o n : Nat) : (k.count o n).stats = k.stats := rfl
@[simp] theorem Core.count_flags (k : Core) (o n : Nat) : (k.count o n).flags = k.flags := rfl
@[simp] theorem Core.count_kettle (k : Core) (o n : Nat) : (k.count o n).kettle = k.kettle := rfl
@[simp] theorem Core.count_caddy (k : Core) (o n : Nat) : (k.count o n).caddy = k.caddy := rfl
@[simp] theorem Core.count_popWait (k : Core) (o n : Nat) : (k.count o n).popWait = k.popWait := rfl
@[simp] theorem Core.count_tlb (k : Core) (o n : Nat) : (k.count o n).tlb = k.tlb := rfl

@[simp] theorem Core.setStream_power (k : Core) (f : StreamId) (x : Stream) : (k.setStream f x).power = k.power := by cases f <;> rfl
@[simp] theorem Core.setStream_program (k : Core) (f : StreamId) (x : Stream) : (k.setStream f x).program = k.program := by cases f <;> rfl
@[simp] theorem Core.setStream_ctrs (k : Core) (f : StreamId) (x : Stream) : (k.setStream f x).ctrs = k.ctrs := by cases f <;> rfl
@[simp] theorem Core.setStream_ctrPast (k : Core) (f : StreamId) (x : Stream) : (k.setStream f x).ctrPast = k.ctrPast := by cases f <;> rfl
@[simp] theorem Core.setStream_sems (k : Core) (f : StreamId) (x : Stream) : (k.setStream f x).sems = k.sems := by cases f <;> rfl
@[simp] theorem Core.setStream_semPast (k : Core) (f : StreamId) (x : Stream) : (k.setStream f x).semPast = k.semPast := by cases f <;> rfl
@[simp] theorem Core.setStream_arrivals (k : Core) (f : StreamId) (x : Stream) : (k.setStream f x).arrivals = k.arrivals := by cases f <;> rfl
@[simp] theorem Core.setStream_nextOp (k : Core) (f : StreamId) (x : Stream) : (k.setStream f x).nextOp = k.nextOp := by cases f <;> rfl
@[simp] theorem Core.setStream_potNext (k : Core) (f : StreamId) (x : Stream) : (k.setStream f x).potNext = k.potNext := by cases f <;> rfl
@[simp] theorem Core.setStream_potHead (k : Core) (f : StreamId) (x : Stream) : (k.setStream f x).potHead = k.potHead := by cases f <;> rfl
@[simp] theorem Core.setStream_potDone (k : Core) (f : StreamId) (x : Stream) : (k.setStream f x).potDone = k.potDone := by cases f <;> rfl
@[simp] theorem Core.setStream_arb (k : Core) (f : StreamId) (x : Stream) : (k.setStream f x).arb = k.arb := by cases f <;> rfl
@[simp] theorem Core.setStream_lately (k : Core) (f : StreamId) (x : Stream) : (k.setStream f x).lately = k.lately := by cases f <;> rfl
@[simp] theorem Core.setStream_arrayQ (k : Core) (f : StreamId) (x : Stream) : (k.setStream f x).arrayQ = k.arrayQ := by cases f <;> rfl
@[simp] theorem Core.setStream_mergeQ (k : Core) (f : StreamId) (x : Stream) : (k.setStream f x).mergeQ = k.mergeQ := by cases f <;> rfl
@[simp] theorem Core.setStream_vecQ (k : Core) (f : StreamId) (x : Stream) : (k.setStream f x).vecQ = k.vecQ := by cases f <;> rfl
@[simp] theorem Core.setStream_rowQ (k : Core) (f : StreamId) (x : Stream) : (k.setStream f x).rowQ = k.rowQ := by cases f <;> rfl
@[simp] theorem Core.setStream_accQ (k : Core) (f : StreamId) (x : Stream) : (k.setStream f x).accQ = k.accQ := by cases f <;> rfl
@[simp] theorem Core.setStream_arrayRun (k : Core) (f : StreamId) (x : Stream) : (k.setStream f x).arrayRun = k.arrayRun := by cases f <;> rfl
@[simp] theorem Core.setStream_mergeRun (k : Core) (f : StreamId) (x : Stream) : (k.setStream f x).mergeRun = k.mergeRun := by cases f <;> rfl
@[simp] theorem Core.setStream_vecRun (k : Core) (f : StreamId) (x : Stream) : (k.setStream f x).vecRun = k.vecRun := by cases f <;> rfl
@[simp] theorem Core.setStream_rowRun (k : Core) (f : StreamId) (x : Stream) : (k.setStream f x).rowRun = k.rowRun := by cases f <;> rfl
@[simp] theorem Core.setStream_accRun (k : Core) (f : StreamId) (x : Stream) : (k.setStream f x).accRun = k.accRun := by cases f <;> rfl
@[simp] theorem Core.setStream_arrayMode (k : Core) (f : StreamId) (x : Stream) : (k.setStream f x).arrayMode = k.arrayMode := by cases f <;> rfl
@[simp] theorem Core.setStream_arrayDir (k : Core) (f : StreamId) (x : Stream) : (k.setStream f x).arrayDir = k.arrayDir := by cases f <;> rfl
@[simp] theorem Core.setStream_flows (k : Core) (f : StreamId) (x : Stream) : (k.setStream f x).flows = k.flows := by cases f <;> rfl
@[simp] theorem Core.setStream_load (k : Core) (f : StreamId) (x : Stream) : (k.setStream f x).load = k.load := by cases f <;> rfl
@[simp] theorem Core.setStream_drains (k : Core) (f : StreamId) (x : Stream) : (k.setStream f x).drains = k.drains := by cases f <;> rfl
@[simp] theorem Core.setStream_adv (k : Core) (f : StreamId) (x : Stream) : (k.setStream f x).adv = k.adv := by cases f <;> rfl
@[simp] theorem Core.setStream_pairs (k : Core) (f : StreamId) (x : Stream) : (k.setStream f x).pairs = k.pairs := by cases f <;> rfl
@[simp] theorem Core.setStream_uArray (k : Core) (f : StreamId) (x : Stream) : (k.setStream f x).uArray = k.uArray := by cases f <;> rfl
@[simp] theorem Core.setStream_uMerge (k : Core) (f : StreamId) (x : Stream) : (k.setStream f x).uMerge = k.uMerge := by cases f <;> rfl
@[simp] theorem Core.setStream_uVec (k : Core) (f : StreamId) (x : Stream) : (k.setStream f x).uVec = k.uVec := by cases f <;> rfl
@[simp] theorem Core.setStream_uRow (k : Core) (f : StreamId) (x : Stream) : (k.setStream f x).uRow = k.uRow := by cases f <;> rfl
@[simp] theorem Core.setStream_store (k : Core) (f : StreamId) (x : Stream) : (k.setStream f x).store = k.store := by cases f <;> rfl
@[simp] theorem Core.setStream_storePoison (k : Core) (f : StreamId) (x : Stream) : (k.setStream f x).storePoison = k.storePoison := by cases f <;> rfl
@[simp] theorem Core.setStream_planes (k : Core) (f : StreamId) (x : Stream) : (k.setStream f x).planes = k.planes := by cases f <;> rfl
@[simp] theorem Core.setStream_planePoison (k : Core) (f : StreamId) (x : Stream) : (k.setStream f x).planePoison = k.planePoison := by cases f <;> rfl
@[simp] theorem Core.setStream_exps (k : Core) (f : StreamId) (x : Stream) : (k.setStream f x).exps = k.exps := by cases f <;> rfl
@[simp] theorem Core.setStream_expPoison (k : Core) (f : StreamId) (x : Stream) : (k.setStream f x).expPoison = k.expPoison := by cases f <;> rfl
@[simp] theorem Core.setStream_index (k : Core) (f : StreamId) (x : Stream) : (k.setStream f x).index = k.index := by cases f <;> rfl
@[simp] theorem Core.setStream_indexPoison (k : Core) (f : StreamId) (x : Stream) : (k.setStream f x).indexPoison = k.indexPoison := by cases f <;> rfl
@[simp] theorem Core.setStream_secded (k : Core) (f : StreamId) (x : Stream) : (k.setStream f x).secded = k.secded := by cases f <;> rfl
@[simp] theorem Core.setStream_modes (k : Core) (f : StreamId) (x : Stream) : (k.setStream f x).modes = k.modes := by cases f <;> rfl
@[simp] theorem Core.setStream_pot (k : Core) (f : StreamId) (x : Stream) : (k.setStream f x).pot = k.pot := by cases f <;> rfl
@[simp] theorem Core.setStream_potPoison (k : Core) (f : StreamId) (x : Stream) : (k.setStream f x).potPoison = k.potPoison := by cases f <;> rfl
@[simp] theorem Core.setStream_stats (k : Core) (f : StreamId) (x : Stream) : (k.setStream f x).stats = k.stats := by cases f <;> rfl
@[simp] theorem Core.setStream_flags (k : Core) (f : StreamId) (x : Stream) : (k.setStream f x).flags = k.flags := by cases f <;> rfl
@[simp] theorem Core.setStream_kettle (k : Core) (f : StreamId) (x : Stream) : (k.setStream f x).kettle = k.kettle := by cases f <;> rfl
@[simp] theorem Core.setStream_caddy (k : Core) (f : StreamId) (x : Stream) : (k.setStream f x).caddy = k.caddy := by cases f <;> rfl
@[simp] theorem Core.setStream_popWait (k : Core) (f : StreamId) (x : Stream) : (k.setStream f x).popWait = k.popWait := by cases f <;> rfl
@[simp] theorem Core.setStream_tlb (k : Core) (f : StreamId) (x : Stream) : (k.setStream f x).tlb = k.tlb := by cases f <;> rfl
@[simp] theorem Core.setStream_counters (k : Core) (f : StreamId) (x : Stream) : (k.setStream f x).counters = k.counters := by cases f <;> rfl

@[simp] theorem Core.setQueue_power (k : Core) (e : Eng) (q : List Op) : (k.setQueue e q).power = k.power := by cases e <;> rfl
@[simp] theorem Core.setQueue_program (k : Core) (e : Eng) (q : List Op) : (k.setQueue e q).program = k.program := by cases e <;> rfl
@[simp] theorem Core.setQueue_fwd (k : Core) (e : Eng) (q : List Op) : (k.setQueue e q).fwd = k.fwd := by cases e <;> rfl
@[simp] theorem Core.setQueue_bwd (k : Core) (e : Eng) (q : List Op) : (k.setQueue e q).bwd = k.bwd := by cases e <;> rfl
@[simp] theorem Core.setQueue_upd (k : Core) (e : Eng) (q : List Op) : (k.setQueue e q).upd = k.upd := by cases e <;> rfl
@[simp] theorem Core.setQueue_ctrs (k : Core) (e : Eng) (q : List Op) : (k.setQueue e q).ctrs = k.ctrs := by cases e <;> rfl
@[simp] theorem Core.setQueue_ctrPast (k : Core) (e : Eng) (q : List Op) : (k.setQueue e q).ctrPast = k.ctrPast := by cases e <;> rfl
@[simp] theorem Core.setQueue_sems (k : Core) (e : Eng) (q : List Op) : (k.setQueue e q).sems = k.sems := by cases e <;> rfl
@[simp] theorem Core.setQueue_semPast (k : Core) (e : Eng) (q : List Op) : (k.setQueue e q).semPast = k.semPast := by cases e <;> rfl
@[simp] theorem Core.setQueue_arrivals (k : Core) (e : Eng) (q : List Op) : (k.setQueue e q).arrivals = k.arrivals := by cases e <;> rfl
@[simp] theorem Core.setQueue_nextOp (k : Core) (e : Eng) (q : List Op) : (k.setQueue e q).nextOp = k.nextOp := by cases e <;> rfl
@[simp] theorem Core.setQueue_potNext (k : Core) (e : Eng) (q : List Op) : (k.setQueue e q).potNext = k.potNext := by cases e <;> rfl
@[simp] theorem Core.setQueue_potHead (k : Core) (e : Eng) (q : List Op) : (k.setQueue e q).potHead = k.potHead := by cases e <;> rfl
@[simp] theorem Core.setQueue_potDone (k : Core) (e : Eng) (q : List Op) : (k.setQueue e q).potDone = k.potDone := by cases e <;> rfl
@[simp] theorem Core.setQueue_arb (k : Core) (e : Eng) (q : List Op) : (k.setQueue e q).arb = k.arb := by cases e <;> rfl
@[simp] theorem Core.setQueue_lately (k : Core) (e : Eng) (q : List Op) : (k.setQueue e q).lately = k.lately := by cases e <;> rfl
@[simp] theorem Core.setQueue_arrayRun (k : Core) (e : Eng) (q : List Op) : (k.setQueue e q).arrayRun = k.arrayRun := by cases e <;> rfl
@[simp] theorem Core.setQueue_mergeRun (k : Core) (e : Eng) (q : List Op) : (k.setQueue e q).mergeRun = k.mergeRun := by cases e <;> rfl
@[simp] theorem Core.setQueue_vecRun (k : Core) (e : Eng) (q : List Op) : (k.setQueue e q).vecRun = k.vecRun := by cases e <;> rfl
@[simp] theorem Core.setQueue_rowRun (k : Core) (e : Eng) (q : List Op) : (k.setQueue e q).rowRun = k.rowRun := by cases e <;> rfl
@[simp] theorem Core.setQueue_accRun (k : Core) (e : Eng) (q : List Op) : (k.setQueue e q).accRun = k.accRun := by cases e <;> rfl
@[simp] theorem Core.setQueue_arrayMode (k : Core) (e : Eng) (q : List Op) : (k.setQueue e q).arrayMode = k.arrayMode := by cases e <;> rfl
@[simp] theorem Core.setQueue_arrayDir (k : Core) (e : Eng) (q : List Op) : (k.setQueue e q).arrayDir = k.arrayDir := by cases e <;> rfl
@[simp] theorem Core.setQueue_flows (k : Core) (e : Eng) (q : List Op) : (k.setQueue e q).flows = k.flows := by cases e <;> rfl
@[simp] theorem Core.setQueue_load (k : Core) (e : Eng) (q : List Op) : (k.setQueue e q).load = k.load := by cases e <;> rfl
@[simp] theorem Core.setQueue_drains (k : Core) (e : Eng) (q : List Op) : (k.setQueue e q).drains = k.drains := by cases e <;> rfl
@[simp] theorem Core.setQueue_adv (k : Core) (e : Eng) (q : List Op) : (k.setQueue e q).adv = k.adv := by cases e <;> rfl
@[simp] theorem Core.setQueue_pairs (k : Core) (e : Eng) (q : List Op) : (k.setQueue e q).pairs = k.pairs := by cases e <;> rfl
@[simp] theorem Core.setQueue_uArray (k : Core) (e : Eng) (q : List Op) : (k.setQueue e q).uArray = k.uArray := by cases e <;> rfl
@[simp] theorem Core.setQueue_uMerge (k : Core) (e : Eng) (q : List Op) : (k.setQueue e q).uMerge = k.uMerge := by cases e <;> rfl
@[simp] theorem Core.setQueue_uVec (k : Core) (e : Eng) (q : List Op) : (k.setQueue e q).uVec = k.uVec := by cases e <;> rfl
@[simp] theorem Core.setQueue_uRow (k : Core) (e : Eng) (q : List Op) : (k.setQueue e q).uRow = k.uRow := by cases e <;> rfl
@[simp] theorem Core.setQueue_store (k : Core) (e : Eng) (q : List Op) : (k.setQueue e q).store = k.store := by cases e <;> rfl
@[simp] theorem Core.setQueue_storePoison (k : Core) (e : Eng) (q : List Op) : (k.setQueue e q).storePoison = k.storePoison := by cases e <;> rfl
@[simp] theorem Core.setQueue_planes (k : Core) (e : Eng) (q : List Op) : (k.setQueue e q).planes = k.planes := by cases e <;> rfl
@[simp] theorem Core.setQueue_planePoison (k : Core) (e : Eng) (q : List Op) : (k.setQueue e q).planePoison = k.planePoison := by cases e <;> rfl
@[simp] theorem Core.setQueue_exps (k : Core) (e : Eng) (q : List Op) : (k.setQueue e q).exps = k.exps := by cases e <;> rfl
@[simp] theorem Core.setQueue_expPoison (k : Core) (e : Eng) (q : List Op) : (k.setQueue e q).expPoison = k.expPoison := by cases e <;> rfl
@[simp] theorem Core.setQueue_index (k : Core) (e : Eng) (q : List Op) : (k.setQueue e q).index = k.index := by cases e <;> rfl
@[simp] theorem Core.setQueue_indexPoison (k : Core) (e : Eng) (q : List Op) : (k.setQueue e q).indexPoison = k.indexPoison := by cases e <;> rfl
@[simp] theorem Core.setQueue_secded (k : Core) (e : Eng) (q : List Op) : (k.setQueue e q).secded = k.secded := by cases e <;> rfl
@[simp] theorem Core.setQueue_modes (k : Core) (e : Eng) (q : List Op) : (k.setQueue e q).modes = k.modes := by cases e <;> rfl
@[simp] theorem Core.setQueue_pot (k : Core) (e : Eng) (q : List Op) : (k.setQueue e q).pot = k.pot := by cases e <;> rfl
@[simp] theorem Core.setQueue_potPoison (k : Core) (e : Eng) (q : List Op) : (k.setQueue e q).potPoison = k.potPoison := by cases e <;> rfl
@[simp] theorem Core.setQueue_stats (k : Core) (e : Eng) (q : List Op) : (k.setQueue e q).stats = k.stats := by cases e <;> rfl
@[simp] theorem Core.setQueue_flags (k : Core) (e : Eng) (q : List Op) : (k.setQueue e q).flags = k.flags := by cases e <;> rfl
@[simp] theorem Core.setQueue_kettle (k : Core) (e : Eng) (q : List Op) : (k.setQueue e q).kettle = k.kettle := by cases e <;> rfl
@[simp] theorem Core.setQueue_caddy (k : Core) (e : Eng) (q : List Op) : (k.setQueue e q).caddy = k.caddy := by cases e <;> rfl
@[simp] theorem Core.setQueue_popWait (k : Core) (e : Eng) (q : List Op) : (k.setQueue e q).popWait = k.popWait := by cases e <;> rfl
@[simp] theorem Core.setQueue_tlb (k : Core) (e : Eng) (q : List Op) : (k.setQueue e q).tlb = k.tlb := by cases e <;> rfl
@[simp] theorem Core.setQueue_counters (k : Core) (e : Eng) (q : List Op) : (k.setQueue e q).counters = k.counters := by cases e <;> rfl

@[simp] theorem Core.setRunning_power (k : Core) (e : Eng) (r : Running) : (k.setRunning e r).power = k.power := by cases e <;> rfl
@[simp] theorem Core.setRunning_program (k : Core) (e : Eng) (r : Running) : (k.setRunning e r).program = k.program := by cases e <;> rfl
@[simp] theorem Core.setRunning_fwd (k : Core) (e : Eng) (r : Running) : (k.setRunning e r).fwd = k.fwd := by cases e <;> rfl
@[simp] theorem Core.setRunning_bwd (k : Core) (e : Eng) (r : Running) : (k.setRunning e r).bwd = k.bwd := by cases e <;> rfl
@[simp] theorem Core.setRunning_upd (k : Core) (e : Eng) (r : Running) : (k.setRunning e r).upd = k.upd := by cases e <;> rfl
@[simp] theorem Core.setRunning_ctrs (k : Core) (e : Eng) (r : Running) : (k.setRunning e r).ctrs = k.ctrs := by cases e <;> rfl
@[simp] theorem Core.setRunning_ctrPast (k : Core) (e : Eng) (r : Running) : (k.setRunning e r).ctrPast = k.ctrPast := by cases e <;> rfl
@[simp] theorem Core.setRunning_sems (k : Core) (e : Eng) (r : Running) : (k.setRunning e r).sems = k.sems := by cases e <;> rfl
@[simp] theorem Core.setRunning_semPast (k : Core) (e : Eng) (r : Running) : (k.setRunning e r).semPast = k.semPast := by cases e <;> rfl
@[simp] theorem Core.setRunning_arrivals (k : Core) (e : Eng) (r : Running) : (k.setRunning e r).arrivals = k.arrivals := by cases e <;> rfl
@[simp] theorem Core.setRunning_nextOp (k : Core) (e : Eng) (r : Running) : (k.setRunning e r).nextOp = k.nextOp := by cases e <;> rfl
@[simp] theorem Core.setRunning_potNext (k : Core) (e : Eng) (r : Running) : (k.setRunning e r).potNext = k.potNext := by cases e <;> rfl
@[simp] theorem Core.setRunning_potHead (k : Core) (e : Eng) (r : Running) : (k.setRunning e r).potHead = k.potHead := by cases e <;> rfl
@[simp] theorem Core.setRunning_potDone (k : Core) (e : Eng) (r : Running) : (k.setRunning e r).potDone = k.potDone := by cases e <;> rfl
@[simp] theorem Core.setRunning_arb (k : Core) (e : Eng) (r : Running) : (k.setRunning e r).arb = k.arb := by cases e <;> rfl
@[simp] theorem Core.setRunning_lately (k : Core) (e : Eng) (r : Running) : (k.setRunning e r).lately = k.lately := by cases e <;> rfl
@[simp] theorem Core.setRunning_arrayQ (k : Core) (e : Eng) (r : Running) : (k.setRunning e r).arrayQ = k.arrayQ := by cases e <;> rfl
@[simp] theorem Core.setRunning_mergeQ (k : Core) (e : Eng) (r : Running) : (k.setRunning e r).mergeQ = k.mergeQ := by cases e <;> rfl
@[simp] theorem Core.setRunning_vecQ (k : Core) (e : Eng) (r : Running) : (k.setRunning e r).vecQ = k.vecQ := by cases e <;> rfl
@[simp] theorem Core.setRunning_rowQ (k : Core) (e : Eng) (r : Running) : (k.setRunning e r).rowQ = k.rowQ := by cases e <;> rfl
@[simp] theorem Core.setRunning_accQ (k : Core) (e : Eng) (r : Running) : (k.setRunning e r).accQ = k.accQ := by cases e <;> rfl
@[simp] theorem Core.setRunning_arrayMode (k : Core) (e : Eng) (r : Running) : (k.setRunning e r).arrayMode = k.arrayMode := by cases e <;> rfl
@[simp] theorem Core.setRunning_arrayDir (k : Core) (e : Eng) (r : Running) : (k.setRunning e r).arrayDir = k.arrayDir := by cases e <;> rfl
@[simp] theorem Core.setRunning_flows (k : Core) (e : Eng) (r : Running) : (k.setRunning e r).flows = k.flows := by cases e <;> rfl
@[simp] theorem Core.setRunning_load (k : Core) (e : Eng) (r : Running) : (k.setRunning e r).load = k.load := by cases e <;> rfl
@[simp] theorem Core.setRunning_drains (k : Core) (e : Eng) (r : Running) : (k.setRunning e r).drains = k.drains := by cases e <;> rfl
@[simp] theorem Core.setRunning_adv (k : Core) (e : Eng) (r : Running) : (k.setRunning e r).adv = k.adv := by cases e <;> rfl
@[simp] theorem Core.setRunning_pairs (k : Core) (e : Eng) (r : Running) : (k.setRunning e r).pairs = k.pairs := by cases e <;> rfl
@[simp] theorem Core.setRunning_uArray (k : Core) (e : Eng) (r : Running) : (k.setRunning e r).uArray = k.uArray := by cases e <;> rfl
@[simp] theorem Core.setRunning_uMerge (k : Core) (e : Eng) (r : Running) : (k.setRunning e r).uMerge = k.uMerge := by cases e <;> rfl
@[simp] theorem Core.setRunning_uVec (k : Core) (e : Eng) (r : Running) : (k.setRunning e r).uVec = k.uVec := by cases e <;> rfl
@[simp] theorem Core.setRunning_uRow (k : Core) (e : Eng) (r : Running) : (k.setRunning e r).uRow = k.uRow := by cases e <;> rfl
@[simp] theorem Core.setRunning_store (k : Core) (e : Eng) (r : Running) : (k.setRunning e r).store = k.store := by cases e <;> rfl
@[simp] theorem Core.setRunning_storePoison (k : Core) (e : Eng) (r : Running) : (k.setRunning e r).storePoison = k.storePoison := by cases e <;> rfl
@[simp] theorem Core.setRunning_planes (k : Core) (e : Eng) (r : Running) : (k.setRunning e r).planes = k.planes := by cases e <;> rfl
@[simp] theorem Core.setRunning_planePoison (k : Core) (e : Eng) (r : Running) : (k.setRunning e r).planePoison = k.planePoison := by cases e <;> rfl
@[simp] theorem Core.setRunning_exps (k : Core) (e : Eng) (r : Running) : (k.setRunning e r).exps = k.exps := by cases e <;> rfl
@[simp] theorem Core.setRunning_expPoison (k : Core) (e : Eng) (r : Running) : (k.setRunning e r).expPoison = k.expPoison := by cases e <;> rfl
@[simp] theorem Core.setRunning_index (k : Core) (e : Eng) (r : Running) : (k.setRunning e r).index = k.index := by cases e <;> rfl
@[simp] theorem Core.setRunning_indexPoison (k : Core) (e : Eng) (r : Running) : (k.setRunning e r).indexPoison = k.indexPoison := by cases e <;> rfl
@[simp] theorem Core.setRunning_secded (k : Core) (e : Eng) (r : Running) : (k.setRunning e r).secded = k.secded := by cases e <;> rfl
@[simp] theorem Core.setRunning_modes (k : Core) (e : Eng) (r : Running) : (k.setRunning e r).modes = k.modes := by cases e <;> rfl
@[simp] theorem Core.setRunning_pot (k : Core) (e : Eng) (r : Running) : (k.setRunning e r).pot = k.pot := by cases e <;> rfl
@[simp] theorem Core.setRunning_potPoison (k : Core) (e : Eng) (r : Running) : (k.setRunning e r).potPoison = k.potPoison := by cases e <;> rfl
@[simp] theorem Core.setRunning_stats (k : Core) (e : Eng) (r : Running) : (k.setRunning e r).stats = k.stats := by cases e <;> rfl
@[simp] theorem Core.setRunning_flags (k : Core) (e : Eng) (r : Running) : (k.setRunning e r).flags = k.flags := by cases e <;> rfl
@[simp] theorem Core.setRunning_kettle (k : Core) (e : Eng) (r : Running) : (k.setRunning e r).kettle = k.kettle := by cases e <;> rfl
@[simp] theorem Core.setRunning_caddy (k : Core) (e : Eng) (r : Running) : (k.setRunning e r).caddy = k.caddy := by cases e <;> rfl
@[simp] theorem Core.setRunning_popWait (k : Core) (e : Eng) (r : Running) : (k.setRunning e r).popWait = k.popWait := by cases e <;> rfl
@[simp] theorem Core.setRunning_tlb (k : Core) (e : Eng) (r : Running) : (k.setRunning e r).tlb = k.tlb := by cases e <;> rfl
@[simp] theorem Core.setRunning_counters (k : Core) (e : Eng) (r : Running) : (k.setRunning e r).counters = k.counters := by cases e <;> rfl

@[simp] theorem Core.setUnit_power (k : Core) (u : UnitId) (x : UnitSt) : (k.setUnit u x).power = k.power := by cases u <;> rfl
@[simp] theorem Core.setUnit_program (k : Core) (u : UnitId) (x : UnitSt) : (k.setUnit u x).program = k.program := by cases u <;> rfl
@[simp] theorem Core.setUnit_fwd (k : Core) (u : UnitId) (x : UnitSt) : (k.setUnit u x).fwd = k.fwd := by cases u <;> rfl
@[simp] theorem Core.setUnit_bwd (k : Core) (u : UnitId) (x : UnitSt) : (k.setUnit u x).bwd = k.bwd := by cases u <;> rfl
@[simp] theorem Core.setUnit_upd (k : Core) (u : UnitId) (x : UnitSt) : (k.setUnit u x).upd = k.upd := by cases u <;> rfl
@[simp] theorem Core.setUnit_ctrs (k : Core) (u : UnitId) (x : UnitSt) : (k.setUnit u x).ctrs = k.ctrs := by cases u <;> rfl
@[simp] theorem Core.setUnit_ctrPast (k : Core) (u : UnitId) (x : UnitSt) : (k.setUnit u x).ctrPast = k.ctrPast := by cases u <;> rfl
@[simp] theorem Core.setUnit_sems (k : Core) (u : UnitId) (x : UnitSt) : (k.setUnit u x).sems = k.sems := by cases u <;> rfl
@[simp] theorem Core.setUnit_semPast (k : Core) (u : UnitId) (x : UnitSt) : (k.setUnit u x).semPast = k.semPast := by cases u <;> rfl
@[simp] theorem Core.setUnit_arrivals (k : Core) (u : UnitId) (x : UnitSt) : (k.setUnit u x).arrivals = k.arrivals := by cases u <;> rfl
@[simp] theorem Core.setUnit_nextOp (k : Core) (u : UnitId) (x : UnitSt) : (k.setUnit u x).nextOp = k.nextOp := by cases u <;> rfl
@[simp] theorem Core.setUnit_potNext (k : Core) (u : UnitId) (x : UnitSt) : (k.setUnit u x).potNext = k.potNext := by cases u <;> rfl
@[simp] theorem Core.setUnit_potHead (k : Core) (u : UnitId) (x : UnitSt) : (k.setUnit u x).potHead = k.potHead := by cases u <;> rfl
@[simp] theorem Core.setUnit_potDone (k : Core) (u : UnitId) (x : UnitSt) : (k.setUnit u x).potDone = k.potDone := by cases u <;> rfl
@[simp] theorem Core.setUnit_arb (k : Core) (u : UnitId) (x : UnitSt) : (k.setUnit u x).arb = k.arb := by cases u <;> rfl
@[simp] theorem Core.setUnit_lately (k : Core) (u : UnitId) (x : UnitSt) : (k.setUnit u x).lately = k.lately := by cases u <;> rfl
@[simp] theorem Core.setUnit_arrayQ (k : Core) (u : UnitId) (x : UnitSt) : (k.setUnit u x).arrayQ = k.arrayQ := by cases u <;> rfl
@[simp] theorem Core.setUnit_mergeQ (k : Core) (u : UnitId) (x : UnitSt) : (k.setUnit u x).mergeQ = k.mergeQ := by cases u <;> rfl
@[simp] theorem Core.setUnit_vecQ (k : Core) (u : UnitId) (x : UnitSt) : (k.setUnit u x).vecQ = k.vecQ := by cases u <;> rfl
@[simp] theorem Core.setUnit_rowQ (k : Core) (u : UnitId) (x : UnitSt) : (k.setUnit u x).rowQ = k.rowQ := by cases u <;> rfl
@[simp] theorem Core.setUnit_accQ (k : Core) (u : UnitId) (x : UnitSt) : (k.setUnit u x).accQ = k.accQ := by cases u <;> rfl
@[simp] theorem Core.setUnit_arrayRun (k : Core) (u : UnitId) (x : UnitSt) : (k.setUnit u x).arrayRun = k.arrayRun := by cases u <;> rfl
@[simp] theorem Core.setUnit_mergeRun (k : Core) (u : UnitId) (x : UnitSt) : (k.setUnit u x).mergeRun = k.mergeRun := by cases u <;> rfl
@[simp] theorem Core.setUnit_vecRun (k : Core) (u : UnitId) (x : UnitSt) : (k.setUnit u x).vecRun = k.vecRun := by cases u <;> rfl
@[simp] theorem Core.setUnit_rowRun (k : Core) (u : UnitId) (x : UnitSt) : (k.setUnit u x).rowRun = k.rowRun := by cases u <;> rfl
@[simp] theorem Core.setUnit_accRun (k : Core) (u : UnitId) (x : UnitSt) : (k.setUnit u x).accRun = k.accRun := by cases u <;> rfl
@[simp] theorem Core.setUnit_arrayMode (k : Core) (u : UnitId) (x : UnitSt) : (k.setUnit u x).arrayMode = k.arrayMode := by cases u <;> rfl
@[simp] theorem Core.setUnit_arrayDir (k : Core) (u : UnitId) (x : UnitSt) : (k.setUnit u x).arrayDir = k.arrayDir := by cases u <;> rfl
@[simp] theorem Core.setUnit_flows (k : Core) (u : UnitId) (x : UnitSt) : (k.setUnit u x).flows = k.flows := by cases u <;> rfl
@[simp] theorem Core.setUnit_load (k : Core) (u : UnitId) (x : UnitSt) : (k.setUnit u x).load = k.load := by cases u <;> rfl
@[simp] theorem Core.setUnit_drains (k : Core) (u : UnitId) (x : UnitSt) : (k.setUnit u x).drains = k.drains := by cases u <;> rfl
@[simp] theorem Core.setUnit_adv (k : Core) (u : UnitId) (x : UnitSt) : (k.setUnit u x).adv = k.adv := by cases u <;> rfl
@[simp] theorem Core.setUnit_pairs (k : Core) (u : UnitId) (x : UnitSt) : (k.setUnit u x).pairs = k.pairs := by cases u <;> rfl
@[simp] theorem Core.setUnit_store (k : Core) (u : UnitId) (x : UnitSt) : (k.setUnit u x).store = k.store := by cases u <;> rfl
@[simp] theorem Core.setUnit_storePoison (k : Core) (u : UnitId) (x : UnitSt) : (k.setUnit u x).storePoison = k.storePoison := by cases u <;> rfl
@[simp] theorem Core.setUnit_planes (k : Core) (u : UnitId) (x : UnitSt) : (k.setUnit u x).planes = k.planes := by cases u <;> rfl
@[simp] theorem Core.setUnit_planePoison (k : Core) (u : UnitId) (x : UnitSt) : (k.setUnit u x).planePoison = k.planePoison := by cases u <;> rfl
@[simp] theorem Core.setUnit_exps (k : Core) (u : UnitId) (x : UnitSt) : (k.setUnit u x).exps = k.exps := by cases u <;> rfl
@[simp] theorem Core.setUnit_expPoison (k : Core) (u : UnitId) (x : UnitSt) : (k.setUnit u x).expPoison = k.expPoison := by cases u <;> rfl
@[simp] theorem Core.setUnit_index (k : Core) (u : UnitId) (x : UnitSt) : (k.setUnit u x).index = k.index := by cases u <;> rfl
@[simp] theorem Core.setUnit_indexPoison (k : Core) (u : UnitId) (x : UnitSt) : (k.setUnit u x).indexPoison = k.indexPoison := by cases u <;> rfl
@[simp] theorem Core.setUnit_secded (k : Core) (u : UnitId) (x : UnitSt) : (k.setUnit u x).secded = k.secded := by cases u <;> rfl
@[simp] theorem Core.setUnit_modes (k : Core) (u : UnitId) (x : UnitSt) : (k.setUnit u x).modes = k.modes := by cases u <;> rfl
@[simp] theorem Core.setUnit_pot (k : Core) (u : UnitId) (x : UnitSt) : (k.setUnit u x).pot = k.pot := by cases u <;> rfl
@[simp] theorem Core.setUnit_potPoison (k : Core) (u : UnitId) (x : UnitSt) : (k.setUnit u x).potPoison = k.potPoison := by cases u <;> rfl
@[simp] theorem Core.setUnit_stats (k : Core) (u : UnitId) (x : UnitSt) : (k.setUnit u x).stats = k.stats := by cases u <;> rfl
@[simp] theorem Core.setUnit_flags (k : Core) (u : UnitId) (x : UnitSt) : (k.setUnit u x).flags = k.flags := by cases u <;> rfl
@[simp] theorem Core.setUnit_kettle (k : Core) (u : UnitId) (x : UnitSt) : (k.setUnit u x).kettle = k.kettle := by cases u <;> rfl
@[simp] theorem Core.setUnit_caddy (k : Core) (u : UnitId) (x : UnitSt) : (k.setUnit u x).caddy = k.caddy := by cases u <;> rfl
@[simp] theorem Core.setUnit_popWait (k : Core) (u : UnitId) (x : UnitSt) : (k.setUnit u x).popWait = k.popWait := by cases u <;> rfl
@[simp] theorem Core.setUnit_tlb (k : Core) (u : UnitId) (x : UnitSt) : (k.setUnit u x).tlb = k.tlb := by cases u <;> rfl
@[simp] theorem Core.setUnit_counters (k : Core) (u : UnitId) (x : UnitSt) : (k.setUnit u x).counters = k.counters := by cases u <;> rfl

/-! ### Notes and pot tickets -/

@[simp] theorem Core.note_power (k : Core) (i t : Nat) : (k.note i t).power = k.power := rfl
@[simp] theorem Core.note_program (k : Core) (i t : Nat) : (k.note i t).program = k.program := rfl
@[simp] theorem Core.note_fwd (k : Core) (i t : Nat) : (k.note i t).fwd = k.fwd := rfl
@[simp] theorem Core.note_bwd (k : Core) (i t : Nat) : (k.note i t).bwd = k.bwd := rfl
@[simp] theorem Core.note_upd (k : Core) (i t : Nat) : (k.note i t).upd = k.upd := rfl
@[simp] theorem Core.note_ctrs (k : Core) (i t : Nat) : (k.note i t).ctrs = k.ctrs := rfl
@[simp] theorem Core.note_ctrPast (k : Core) (i t : Nat) : (k.note i t).ctrPast = k.ctrPast := rfl
@[simp] theorem Core.note_sems (k : Core) (i t : Nat) : (k.note i t).sems = k.sems := rfl
@[simp] theorem Core.note_semPast (k : Core) (i t : Nat) : (k.note i t).semPast = k.semPast := rfl
@[simp] theorem Core.note_arrivals (k : Core) (i t : Nat) : (k.note i t).arrivals = k.arrivals := rfl
@[simp] theorem Core.note_nextOp (k : Core) (i t : Nat) : (k.note i t).nextOp = k.nextOp := rfl
@[simp] theorem Core.note_potNext (k : Core) (i t : Nat) : (k.note i t).potNext = k.potNext := rfl
@[simp] theorem Core.note_potHead (k : Core) (i t : Nat) : (k.note i t).potHead = k.potHead := rfl
@[simp] theorem Core.note_potDone (k : Core) (i t : Nat) : (k.note i t).potDone = k.potDone := rfl
@[simp] theorem Core.note_arb (k : Core) (i t : Nat) : (k.note i t).arb = k.arb := rfl
@[simp] theorem Core.note_arrayQ (k : Core) (i t : Nat) : (k.note i t).arrayQ = k.arrayQ := rfl
@[simp] theorem Core.note_mergeQ (k : Core) (i t : Nat) : (k.note i t).mergeQ = k.mergeQ := rfl
@[simp] theorem Core.note_vecQ (k : Core) (i t : Nat) : (k.note i t).vecQ = k.vecQ := rfl
@[simp] theorem Core.note_rowQ (k : Core) (i t : Nat) : (k.note i t).rowQ = k.rowQ := rfl
@[simp] theorem Core.note_accQ (k : Core) (i t : Nat) : (k.note i t).accQ = k.accQ := rfl
@[simp] theorem Core.note_arrayRun (k : Core) (i t : Nat) : (k.note i t).arrayRun = k.arrayRun := rfl
@[simp] theorem Core.note_mergeRun (k : Core) (i t : Nat) : (k.note i t).mergeRun = k.mergeRun := rfl
@[simp] theorem Core.note_vecRun (k : Core) (i t : Nat) : (k.note i t).vecRun = k.vecRun := rfl
@[simp] theorem Core.note_rowRun (k : Core) (i t : Nat) : (k.note i t).rowRun = k.rowRun := rfl
@[simp] theorem Core.note_accRun (k : Core) (i t : Nat) : (k.note i t).accRun = k.accRun := rfl
@[simp] theorem Core.note_arrayMode (k : Core) (i t : Nat) : (k.note i t).arrayMode = k.arrayMode := rfl
@[simp] theorem Core.note_arrayDir (k : Core) (i t : Nat) : (k.note i t).arrayDir = k.arrayDir := rfl
@[simp] theorem Core.note_flows (k : Core) (i t : Nat) : (k.note i t).flows = k.flows := rfl
@[simp] theorem Core.note_load (k : Core) (i t : Nat) : (k.note i t).load = k.load := rfl
@[simp] theorem Core.note_drains (k : Core) (i t : Nat) : (k.note i t).drains = k.drains := rfl
@[simp] theorem Core.note_adv (k : Core) (i t : Nat) : (k.note i t).adv = k.adv := rfl
@[simp] theorem Core.note_pairs (k : Core) (i t : Nat) : (k.note i t).pairs = k.pairs := rfl
@[simp] theorem Core.note_uArray (k : Core) (i t : Nat) : (k.note i t).uArray = k.uArray := rfl
@[simp] theorem Core.note_uMerge (k : Core) (i t : Nat) : (k.note i t).uMerge = k.uMerge := rfl
@[simp] theorem Core.note_uVec (k : Core) (i t : Nat) : (k.note i t).uVec = k.uVec := rfl
@[simp] theorem Core.note_uRow (k : Core) (i t : Nat) : (k.note i t).uRow = k.uRow := rfl
@[simp] theorem Core.note_store (k : Core) (i t : Nat) : (k.note i t).store = k.store := rfl
@[simp] theorem Core.note_storePoison (k : Core) (i t : Nat) : (k.note i t).storePoison = k.storePoison := rfl
@[simp] theorem Core.note_planes (k : Core) (i t : Nat) : (k.note i t).planes = k.planes := rfl
@[simp] theorem Core.note_planePoison (k : Core) (i t : Nat) : (k.note i t).planePoison = k.planePoison := rfl
@[simp] theorem Core.note_exps (k : Core) (i t : Nat) : (k.note i t).exps = k.exps := rfl
@[simp] theorem Core.note_expPoison (k : Core) (i t : Nat) : (k.note i t).expPoison = k.expPoison := rfl
@[simp] theorem Core.note_index (k : Core) (i t : Nat) : (k.note i t).index = k.index := rfl
@[simp] theorem Core.note_indexPoison (k : Core) (i t : Nat) : (k.note i t).indexPoison = k.indexPoison := rfl
@[simp] theorem Core.note_secded (k : Core) (i t : Nat) : (k.note i t).secded = k.secded := rfl
@[simp] theorem Core.note_modes (k : Core) (i t : Nat) : (k.note i t).modes = k.modes := rfl
@[simp] theorem Core.note_pot (k : Core) (i t : Nat) : (k.note i t).pot = k.pot := rfl
@[simp] theorem Core.note_potPoison (k : Core) (i t : Nat) : (k.note i t).potPoison = k.potPoison := rfl
@[simp] theorem Core.note_stats (k : Core) (i t : Nat) : (k.note i t).stats = k.stats := rfl
@[simp] theorem Core.note_flags (k : Core) (i t : Nat) : (k.note i t).flags = k.flags := rfl
@[simp] theorem Core.note_kettle (k : Core) (i t : Nat) : (k.note i t).kettle = k.kettle := rfl
@[simp] theorem Core.note_caddy (k : Core) (i t : Nat) : (k.note i t).caddy = k.caddy := rfl
@[simp] theorem Core.note_popWait (k : Core) (i t : Nat) : (k.note i t).popWait = k.popWait := rfl
@[simp] theorem Core.note_tlb (k : Core) (i t : Nat) : (k.note i t).tlb = k.tlb := rfl
@[simp] theorem Core.note_counters (k : Core) (i t : Nat) : (k.note i t).counters = k.counters := rfl
@[simp] theorem Core.potPassOp_power (k : Core) (o : Op) : (k.potPassOp o).power = k.power := by unfold Core.potPassOp; split <;> rfl
@[simp] theorem Core.potPassOp_program (k : Core) (o : Op) : (k.potPassOp o).program = k.program := by unfold Core.potPassOp; split <;> rfl
@[simp] theorem Core.potPassOp_fwd (k : Core) (o : Op) : (k.potPassOp o).fwd = k.fwd := by unfold Core.potPassOp; split <;> rfl
@[simp] theorem Core.potPassOp_bwd (k : Core) (o : Op) : (k.potPassOp o).bwd = k.bwd := by unfold Core.potPassOp; split <;> rfl
@[simp] theorem Core.potPassOp_upd (k : Core) (o : Op) : (k.potPassOp o).upd = k.upd := by unfold Core.potPassOp; split <;> rfl
@[simp] theorem Core.potPassOp_ctrs (k : Core) (o : Op) : (k.potPassOp o).ctrs = k.ctrs := by unfold Core.potPassOp; split <;> rfl
@[simp] theorem Core.potPassOp_ctrPast (k : Core) (o : Op) : (k.potPassOp o).ctrPast = k.ctrPast := by unfold Core.potPassOp; split <;> rfl
@[simp] theorem Core.potPassOp_sems (k : Core) (o : Op) : (k.potPassOp o).sems = k.sems := by unfold Core.potPassOp; split <;> rfl
@[simp] theorem Core.potPassOp_semPast (k : Core) (o : Op) : (k.potPassOp o).semPast = k.semPast := by unfold Core.potPassOp; split <;> rfl
@[simp] theorem Core.potPassOp_arrivals (k : Core) (o : Op) : (k.potPassOp o).arrivals = k.arrivals := by unfold Core.potPassOp; split <;> rfl
@[simp] theorem Core.potPassOp_nextOp (k : Core) (o : Op) : (k.potPassOp o).nextOp = k.nextOp := by unfold Core.potPassOp; split <;> rfl
@[simp] theorem Core.potPassOp_potNext (k : Core) (o : Op) : (k.potPassOp o).potNext = k.potNext := by unfold Core.potPassOp; split <;> rfl
@[simp] theorem Core.potPassOp_arb (k : Core) (o : Op) : (k.potPassOp o).arb = k.arb := by unfold Core.potPassOp; split <;> rfl
@[simp] theorem Core.potPassOp_lately (k : Core) (o : Op) : (k.potPassOp o).lately = k.lately := by unfold Core.potPassOp; split <;> rfl
@[simp] theorem Core.potPassOp_arrayQ (k : Core) (o : Op) : (k.potPassOp o).arrayQ = k.arrayQ := by unfold Core.potPassOp; split <;> rfl
@[simp] theorem Core.potPassOp_mergeQ (k : Core) (o : Op) : (k.potPassOp o).mergeQ = k.mergeQ := by unfold Core.potPassOp; split <;> rfl
@[simp] theorem Core.potPassOp_vecQ (k : Core) (o : Op) : (k.potPassOp o).vecQ = k.vecQ := by unfold Core.potPassOp; split <;> rfl
@[simp] theorem Core.potPassOp_rowQ (k : Core) (o : Op) : (k.potPassOp o).rowQ = k.rowQ := by unfold Core.potPassOp; split <;> rfl
@[simp] theorem Core.potPassOp_accQ (k : Core) (o : Op) : (k.potPassOp o).accQ = k.accQ := by unfold Core.potPassOp; split <;> rfl
@[simp] theorem Core.potPassOp_arrayRun (k : Core) (o : Op) : (k.potPassOp o).arrayRun = k.arrayRun := by unfold Core.potPassOp; split <;> rfl
@[simp] theorem Core.potPassOp_mergeRun (k : Core) (o : Op) : (k.potPassOp o).mergeRun = k.mergeRun := by unfold Core.potPassOp; split <;> rfl
@[simp] theorem Core.potPassOp_vecRun (k : Core) (o : Op) : (k.potPassOp o).vecRun = k.vecRun := by unfold Core.potPassOp; split <;> rfl
@[simp] theorem Core.potPassOp_rowRun (k : Core) (o : Op) : (k.potPassOp o).rowRun = k.rowRun := by unfold Core.potPassOp; split <;> rfl
@[simp] theorem Core.potPassOp_accRun (k : Core) (o : Op) : (k.potPassOp o).accRun = k.accRun := by unfold Core.potPassOp; split <;> rfl
@[simp] theorem Core.potPassOp_arrayMode (k : Core) (o : Op) : (k.potPassOp o).arrayMode = k.arrayMode := by unfold Core.potPassOp; split <;> rfl
@[simp] theorem Core.potPassOp_arrayDir (k : Core) (o : Op) : (k.potPassOp o).arrayDir = k.arrayDir := by unfold Core.potPassOp; split <;> rfl
@[simp] theorem Core.potPassOp_flows (k : Core) (o : Op) : (k.potPassOp o).flows = k.flows := by unfold Core.potPassOp; split <;> rfl
@[simp] theorem Core.potPassOp_load (k : Core) (o : Op) : (k.potPassOp o).load = k.load := by unfold Core.potPassOp; split <;> rfl
@[simp] theorem Core.potPassOp_drains (k : Core) (o : Op) : (k.potPassOp o).drains = k.drains := by unfold Core.potPassOp; split <;> rfl
@[simp] theorem Core.potPassOp_adv (k : Core) (o : Op) : (k.potPassOp o).adv = k.adv := by unfold Core.potPassOp; split <;> rfl
@[simp] theorem Core.potPassOp_pairs (k : Core) (o : Op) : (k.potPassOp o).pairs = k.pairs := by unfold Core.potPassOp; split <;> rfl
@[simp] theorem Core.potPassOp_uArray (k : Core) (o : Op) : (k.potPassOp o).uArray = k.uArray := by unfold Core.potPassOp; split <;> rfl
@[simp] theorem Core.potPassOp_uMerge (k : Core) (o : Op) : (k.potPassOp o).uMerge = k.uMerge := by unfold Core.potPassOp; split <;> rfl
@[simp] theorem Core.potPassOp_uVec (k : Core) (o : Op) : (k.potPassOp o).uVec = k.uVec := by unfold Core.potPassOp; split <;> rfl
@[simp] theorem Core.potPassOp_uRow (k : Core) (o : Op) : (k.potPassOp o).uRow = k.uRow := by unfold Core.potPassOp; split <;> rfl
@[simp] theorem Core.potPassOp_store (k : Core) (o : Op) : (k.potPassOp o).store = k.store := by unfold Core.potPassOp; split <;> rfl
@[simp] theorem Core.potPassOp_storePoison (k : Core) (o : Op) : (k.potPassOp o).storePoison = k.storePoison := by unfold Core.potPassOp; split <;> rfl
@[simp] theorem Core.potPassOp_planes (k : Core) (o : Op) : (k.potPassOp o).planes = k.planes := by unfold Core.potPassOp; split <;> rfl
@[simp] theorem Core.potPassOp_planePoison (k : Core) (o : Op) : (k.potPassOp o).planePoison = k.planePoison := by unfold Core.potPassOp; split <;> rfl
@[simp] theorem Core.potPassOp_exps (k : Core) (o : Op) : (k.potPassOp o).exps = k.exps := by unfold Core.potPassOp; split <;> rfl
@[simp] theorem Core.potPassOp_expPoison (k : Core) (o : Op) : (k.potPassOp o).expPoison = k.expPoison := by unfold Core.potPassOp; split <;> rfl
@[simp] theorem Core.potPassOp_index (k : Core) (o : Op) : (k.potPassOp o).index = k.index := by unfold Core.potPassOp; split <;> rfl
@[simp] theorem Core.potPassOp_indexPoison (k : Core) (o : Op) : (k.potPassOp o).indexPoison = k.indexPoison := by unfold Core.potPassOp; split <;> rfl
@[simp] theorem Core.potPassOp_secded (k : Core) (o : Op) : (k.potPassOp o).secded = k.secded := by unfold Core.potPassOp; split <;> rfl
@[simp] theorem Core.potPassOp_modes (k : Core) (o : Op) : (k.potPassOp o).modes = k.modes := by unfold Core.potPassOp; split <;> rfl
@[simp] theorem Core.potPassOp_pot (k : Core) (o : Op) : (k.potPassOp o).pot = k.pot := by unfold Core.potPassOp; split <;> rfl
@[simp] theorem Core.potPassOp_potPoison (k : Core) (o : Op) : (k.potPassOp o).potPoison = k.potPoison := by unfold Core.potPassOp; split <;> rfl
@[simp] theorem Core.potPassOp_stats (k : Core) (o : Op) : (k.potPassOp o).stats = k.stats := by unfold Core.potPassOp; split <;> rfl
@[simp] theorem Core.potPassOp_flags (k : Core) (o : Op) : (k.potPassOp o).flags = k.flags := by unfold Core.potPassOp; split <;> rfl
@[simp] theorem Core.potPassOp_kettle (k : Core) (o : Op) : (k.potPassOp o).kettle = k.kettle := by unfold Core.potPassOp; split <;> rfl
@[simp] theorem Core.potPassOp_caddy (k : Core) (o : Op) : (k.potPassOp o).caddy = k.caddy := by unfold Core.potPassOp; split <;> rfl
@[simp] theorem Core.potPassOp_popWait (k : Core) (o : Op) : (k.potPassOp o).popWait = k.popWait := by unfold Core.potPassOp; split <;> rfl
@[simp] theorem Core.potPassOp_tlb (k : Core) (o : Op) : (k.potPassOp o).tlb = k.tlb := by unfold Core.potPassOp; split <;> rfl
@[simp] theorem Core.potPassOp_counters (k : Core) (o : Op) : (k.potPassOp o).counters = k.counters := by unfold Core.potPassOp; split <;> rfl

@[simp] theorem Core.queue_note (k : Core) (i t : Nat) (d : Eng) : (k.note i t).queue d = k.queue d := by cases d <;> simp [Core.queue]
@[simp] theorem Core.running_note (k : Core) (i t : Nat) (d : Eng) : (k.note i t).running d = k.running d := by cases d <;> simp [Core.running]
@[simp] theorem Core.stream_note (k : Core) (i t : Nat) (d : StreamId) : (k.note i t).stream d = k.stream d := by cases d <;> simp [Core.stream]
@[simp] theorem Core.queue_potPassOp (k : Core) (o : Op) (d : Eng) : (k.potPassOp o).queue d = k.queue d := by cases d <;> simp [Core.queue]
@[simp] theorem Core.running_potPassOp (k : Core) (o : Op) (d : Eng) : (k.potPassOp o).running d = k.running d := by cases d <;> simp [Core.running]
@[simp] theorem Core.stream_potPassOp (k : Core) (o : Op) (d : StreamId) : (k.potPassOp o).stream d = k.stream d := by cases d <;> simp [Core.stream]
@[simp] theorem Core.queue_setRunning (k : Core) (e : Eng) (r : Running) (d : Eng) : (k.setRunning e r).queue d = k.queue d := by cases e <;> cases d <;> rfl
@[simp] theorem Core.stream_setRunning (k : Core) (e : Eng) (r : Running) (d : StreamId) : (k.setRunning e r).stream d = k.stream d := by cases e <;> cases d <;> rfl
@[simp] theorem Core.running_setQueue (k : Core) (e : Eng) (q : List Op) (d : Eng) : (k.setQueue e q).running d = k.running d := by cases e <;> cases d <;> rfl
@[simp] theorem Core.stream_setQueue (k : Core) (e : Eng) (q : List Op) (d : StreamId) : (k.setQueue e q).stream d = k.stream d := by cases e <;> cases d <;> rfl
@[simp] theorem Core.queue_setStream (k : Core) (g : StreamId) (x : Stream) (d : Eng) : (k.setStream g x).queue d = k.queue d := by cases g <;> cases d <;> rfl
@[simp] theorem Core.running_setStream (k : Core) (g : StreamId) (x : Stream) (d : Eng) : (k.setStream g x).running d = k.running d := by cases g <;> cases d <;> rfl

/-! ### What is read back -/

@[simp] theorem State.core_setCore_self (s : State) (c : Nat) (k : Core) : (s.setCore c k).core c = k := mget_mset_self _ _ _ _
theorem State.core_setCore_ne (s : State) (c d : Nat) (k : Core) (h : d ≠ c) : (s.setCore c k).core d = s.core d := mget_mset_ne _ _ _ _ _ h
@[simp] theorem State.core_updCore_self (s : State) (c : Nat) (f : Core → Core) : (s.updCore c f).core c = f (s.core c) := mget_mset_self _ _ _ _
theorem State.core_updCore_ne (s : State) (c d : Nat) (f : Core → Core) (h : d ≠ c) : (s.updCore c f).core d = s.core d := mget_mset_ne _ _ _ _ _ h
@[simp] theorem State.group_setGroup_self (s : State) (g : Nat) (r : Group) : (s.setGroup g r).group g = r := mget_mset_self _ _ _ _
theorem State.group_setGroup_ne (s : State) (g n : Nat) (r : Group) (h : n ≠ g) : (s.setGroup g r).group n = s.group n := mget_mset_ne _ _ _ _ _ h
@[simp] theorem State.group_updGroup_self (s : State) (g : Nat) (f : Group → Group) : (s.updGroup g f).group g = f (s.group g) := mget_mset_self _ _ _ _
theorem State.group_updGroup_ne (s : State) (g n : Nat) (f : Group → Group) (h : n ≠ g) : (s.updGroup g f).group n = s.group n := mget_mset_ne _ _ _ _ _ h
@[simp] theorem State.ring_setRing_self (s : State) (r : Nat) (x : Ring) : (s.setRing r x).ring r = x := mget_mset_self _ _ _ _
theorem State.ring_setRing_ne (s : State) (r q : Nat) (x : Ring) (h : q ≠ r) : (s.setRing r x).ring q = s.ring q := mget_mset_ne _ _ _ _ _ h
@[simp] theorem State.link_updLink_self (s : State) (l : Nat) (f : Link → Link) : (s.updLink l f).link l = f (s.link l) := mget_mset_self _ _ _ _
theorem State.link_updLink_ne (s : State) (l q : Nat) (f : Link → Link) (h : q ≠ l) : (s.updLink l f).link q = s.link q := mget_mset_ne _ _ _ _ _ h
@[simp] theorem State.ctl_updCtl_self (s : State) (d : Nat) (f : MemCtl → MemCtl) : (s.updCtl d f).ctl d = f (s.ctl d) := mget_mset_self _ _ _ _
theorem State.ctl_updCtl_ne (s : State) (d q : Nat) (f : MemCtl → MemCtl) (h : q ≠ d) : (s.updCtl d f).ctl q = s.ctl q := mget_mset_ne _ _ _ _ _ h
@[simp] theorem State.cst_setCst_self (s : State) (e : Nat) (x : CaddySt) : (s.setCst e x).cst e = x := mget_mset_self _ _ _ _
theorem State.cst_setCst_ne (s : State) (e q : Nat) (x : CaddySt) (h : q ≠ e) : (s.setCst e x).cst q = s.cst q := mget_mset_ne _ _ _ _ _ h
@[simp] theorem Core.stream_setStream_self (k : Core) (f : StreamId) (x : Stream) : (k.setStream f x).stream f = x := by cases f <;> rfl
theorem Core.stream_setStream_ne (k : Core) (f g : StreamId) (x : Stream) (h : g ≠ f) : (k.setStream f x).stream g = k.stream g := by
  cases f <;> cases g <;> first | rfl | exact absurd rfl h
@[simp] theorem Core.queue_setQueue_self (k : Core) (e : Eng) (q : List Op) : (k.setQueue e q).queue e = q := by cases e <;> rfl
theorem Core.queue_setQueue_ne (k : Core) (e d : Eng) (q : List Op) (h : d ≠ e) : (k.setQueue e q).queue d = k.queue d := by
  cases e <;> cases d <;> first | rfl | exact absurd rfl h
theorem Core.running_setRunning_ne (k : Core) (e d : Eng) (r : Running) (h : d ≠ e) : (k.setRunning e r).running d = k.running d := by
  cases e <;> cases d <;> first | rfl | exact absurd rfl h
@[simp] theorem Core.unit_setUnit_self (k : Core) (u : UnitId) (x : UnitSt) : (k.setUnit u x).unit u = x := by cases u <;> rfl
theorem Core.unit_setUnit_ne (k : Core) (u v : UnitId) (x : UnitSt) (h : v ≠ u) : (k.setUnit u x).unit v = k.unit v := by
  cases u <;> cases v <;> first | rfl | exact absurd rfl h
@[simp] theorem Core.count_stream (k : Core) (o n : Nat) (f : StreamId) : (k.count o n).stream f = k.stream f := by cases f <;> rfl
@[simp] theorem Core.count_queue (k : Core) (o n : Nat) (e : Eng) : (k.count o n).queue e = k.queue e := by cases e <;> rfl
@[simp] theorem Core.count_running (k : Core) (o n : Nat) (e : Eng) : (k.count o n).running e = k.running e := by cases e <;> rfl

end Sys2Proof.Machine
end

