-- ==== Sys2Proof/Laws/Ops.lean ====
section
/-! SUPPORT. What the shared operations can do: an output, a waymark, a captured input, a completion, a bus write. Each lemma
says once everything that its operation changes. -/

namespace Sys2Proof.Machine

/-- An output changes the outbox alone (R484). -/
theorem State.emit_only (s : State) (o : Output) : { s.emit o with outbox := s.outbox } = s := by
  unfold State.emit; split <;> rfl

/-- An output stands at the end of the outbox, outside a replay's feed and with the port in service. -/
theorem State.emit_outbox (s : State) (o : Output) (h : s.feeding = false) (hp : s.portHeld = false) : (s.emit o).outbox = s.outbox ++ [o] := by
  unfold State.emit; simp [h, hp]

/-- The end of a capture changes the recorder alone (R479, R480). -/
theorem State.endCapture_only (s : State) (r : Nat) : { s.endCapture r with trace := s.trace } = s := by
  unfold State.endCapture; split <;> rfl

/-- A captured input changes the recorder alone (R479). -/
theorem State.captureIn_only (s : State) (k src a i : Nat) (l : List Line) : { s.captureIn k src a i l with trace := s.trace } = s := by
  unfold State.captureIn
  split
  · simp only []
    split
    · rfl
    · exact State.endCapture_only s 2
  · rfl

/-- A waymark changes the recorder alone (R51, R477, R480). -/
theorem State.markAt_only (s : State) (t k ca g : Nat) (o : W16) (u : Nat) (j : W16) (l p : Nat) : { s.markAt t k ca g o u j l p with trace := s.trace } = s := by
  unfold State.markAt
  simp only []
  split
  · exact congrArg (fun q : State => { q with trace := s.trace }) (State.endCapture_only _ 1)
  · rfl

@[simp] theorem State.emit_pending (s : State) (o : Output) : (s.emit o).pending = s.pending := by have h := congrArg State.pending (State.emit_only s o); exact h
@[simp] theorem State.emit_clk (s : State) (o : Output) : (s.emit o).clk = s.clk := by have h := congrArg State.clk (State.emit_only s o); exact h
@[simp] theorem State.emit_time (s : State) (o : Output) : (s.emit o).time = s.time := by have h := congrArg State.time (State.emit_only s o); exact h
@[simp] theorem State.emit_pace (s : State) (o : Output) : (s.emit o).pace = s.pace := by have h := congrArg State.pace (State.emit_only s o); exact h
@[simp] theorem State.emit_legRegs (s : State) (o : Output) : (s.emit o).legRegs = s.legRegs := by have h := congrArg State.legRegs (State.emit_only s o); exact h
@[simp] theorem State.emit_series (s : State) (o : Output) : (s.emit o).series = s.series := by have h := congrArg State.series (State.emit_only s o); exact h
@[simp] theorem State.emit_groups (s : State) (o : Output) : (s.emit o).groups = s.groups := by have h := congrArg State.groups (State.emit_only s o); exact h
@[simp] theorem State.emit_conds (s : State) (o : Output) : (s.emit o).conds = s.conds := by have h := congrArg State.conds (State.emit_only s o); exact h
@[simp] theorem State.emit_trace (s : State) (o : Output) : (s.emit o).trace = s.trace := by have h := congrArg State.trace (State.emit_only s o); exact h
@[simp] theorem State.emit_plan (s : State) (o : Output) : (s.emit o).plan = s.plan := by have h := congrArg State.plan (State.emit_only s o); exact h
@[simp] theorem State.emit_mem (s : State) (o : Output) : (s.emit o).mem = s.mem := by have h := congrArg State.mem (State.emit_only s o); exact h
@[simp] theorem State.emit_pages (s : State) (o : Output) : (s.emit o).pages = s.pages := by have h := congrArg State.pages (State.emit_only s o); exact h
@[simp] theorem State.emit_cores (s : State) (o : Output) : (s.emit o).cores = s.cores := by have h := congrArg State.cores (State.emit_only s o); exact h
@[simp] theorem State.emit_flagsHeld (s : State) (o : Output) : (s.emit o).flagsHeld = s.flagsHeld := by have h := congrArg State.flagsHeld (State.emit_only s o); exact h
@[simp] theorem State.emit_caddy (s : State) (o : Output) : (s.emit o).caddy = s.caddy := by have h := congrArg State.caddy (State.emit_only s o); exact h
@[simp] theorem State.emit_caddySt (s : State) (o : Output) : (s.emit o).caddySt = s.caddySt := by have h := congrArg State.caddySt (State.emit_only s o); exact h
@[simp] theorem State.emit_fmt (s : State) (o : Output) : (s.emit o).fmt = s.fmt := by have h := congrArg State.fmt (State.emit_only s o); exact h
@[simp] theorem State.emit_num (s : State) (o : Output) : (s.emit o).num = s.num := by have h := congrArg State.num (State.emit_only s o); exact h
@[simp] theorem State.emit_gov (s : State) (o : Output) : (s.emit o).gov = s.gov := by have h := congrArg State.gov (State.emit_only s o); exact h
@[simp] theorem State.emit_experts (s : State) (o : Output) : (s.emit o).experts = s.experts := by have h := congrArg State.experts (State.emit_only s o); exact h
@[simp] theorem State.emit_lnk (s : State) (o : Output) : (s.emit o).lnk = s.lnk := by have h := congrArg State.lnk (State.emit_only s o); exact h
@[simp] theorem State.emit_chk (s : State) (o : Output) : (s.emit o).chk = s.chk := by have h := congrArg State.chk (State.emit_only s o); exact h
@[simp] theorem State.emit_adopt (s : State) (o : Output) : (s.emit o).adopt = s.adopt := by have h := congrArg State.adopt (State.emit_only s o); exact h
@[simp] theorem State.emit_host (s : State) (o : Output) : (s.emit o).host = s.host := by have h := congrArg State.host (State.emit_only s o); exact h
@[simp] theorem State.emit_boot (s : State) (o : Output) : (s.emit o).boot = s.boot := by have h := congrArg State.boot (State.emit_only s o); exact h
@[simp] theorem State.emit_flash (s : State) (o : Output) : (s.emit o).flash = s.flash := by have h := congrArg State.flash (State.emit_only s o); exact h
@[simp] theorem State.emit_power (s : State) (o : Output) : (s.emit o).power = s.power := by have h := congrArg State.power (State.emit_only s o); exact h
@[simp] theorem State.emit_meas (s : State) (o : Output) : (s.emit o).meas = s.meas := by have h := congrArg State.meas (State.emit_only s o); exact h
@[simp] theorem State.emit_spdm (s : State) (o : Output) : (s.emit o).spdm = s.spdm := by have h := congrArg State.spdm (State.emit_only s o); exact h
@[simp] theorem State.emit_side (s : State) (o : Output) : (s.emit o).side = s.side := by have h := congrArg State.side (State.emit_only s o); exact h
@[simp] theorem State.emit_freeIx (s : State) (o : Output) : (s.emit o).freeIx = s.freeIx := by have h := congrArg State.freeIx (State.emit_only s o); exact h

@[simp] theorem State.endCapture_pending (s : State) (r : Nat) : (s.endCapture r).pending = s.pending := by have h := congrArg State.pending (State.endCapture_only s r); exact h
@[simp] theorem State.endCapture_clk (s : State) (r : Nat) : (s.endCapture r).clk = s.clk := by have h := congrArg State.clk (State.endCapture_only s r); exact h
@[simp] theorem State.endCapture_time (s : State) (r : Nat) : (s.endCapture r).time = s.time := by have h := congrArg State.time (State.endCapture_only s r); exact h
@[simp] theorem State.endCapture_pace (s : State) (r : Nat) : (s.endCapture r).pace = s.pace := by have h := congrArg State.pace (State.endCapture_only s r); exact h
@[simp] theorem State.endCapture_legRegs (s : State) (r : Nat) : (s.endCapture r).legRegs = s.legRegs := by have h := congrArg State.legRegs (State.endCapture_only s r); exact h
@[simp] theorem State.endCapture_series (s : State) (r : Nat) : (s.endCapture r).series = s.series := by have h := congrArg State.series (State.endCapture_only s r); exact h
@[simp] theorem State.endCapture_groups (s : State) (r : Nat) : (s.endCapture r).groups = s.groups := by have h := congrArg State.groups (State.endCapture_only s r); exact h
@[simp] theorem State.endCapture_conds (s : State) (r : Nat) : (s.endCapture r).conds = s.conds := by have h := congrArg State.conds (State.endCapture_only s r); exact h
@[simp] theorem State.endCapture_plan (s : State) (r : Nat) : (s.endCapture r).plan = s.plan := by have h := congrArg State.plan (State.endCapture_only s r); exact h
@[simp] theorem State.endCapture_mem (s : State) (r : Nat) : (s.endCapture r).mem = s.mem := by have h := congrArg State.mem (State.endCapture_only s r); exact h
@[simp] theorem State.endCapture_pages (s : State) (r : Nat) : (s.endCapture r).pages = s.pages := by have h := congrArg State.pages (State.endCapture_only s r); exact h
@[simp] theorem State.endCapture_cores (s : State) (r : Nat) : (s.endCapture r).cores = s.cores := by have h := congrArg State.cores (State.endCapture_only s r); exact h
@[simp] theorem State.endCapture_flagsHeld (s : State) (r : Nat) : (s.endCapture r).flagsHeld = s.flagsHeld := by have h := congrArg State.flagsHeld (State.endCapture_only s r); exact h
@[simp] theorem State.endCapture_caddy (s : State) (r : Nat) : (s.endCapture r).caddy = s.caddy := by have h := congrArg State.caddy (State.endCapture_only s r); exact h
@[simp] theorem State.endCapture_caddySt (s : State) (r : Nat) : (s.endCapture r).caddySt = s.caddySt := by have h := congrArg State.caddySt (State.endCapture_only s r); exact h
@[simp] theorem State.endCapture_fmt (s : State) (r : Nat) : (s.endCapture r).fmt = s.fmt := by have h := congrArg State.fmt (State.endCapture_only s r); exact h
@[simp] theorem State.endCapture_num (s : State) (r : Nat) : (s.endCapture r).num = s.num := by have h := congrArg State.num (State.endCapture_only s r); exact h
@[simp] theorem State.endCapture_gov (s : State) (r : Nat) : (s.endCapture r).gov = s.gov := by have h := congrArg State.gov (State.endCapture_only s r); exact h
@[simp] theorem State.endCapture_experts (s : State) (r : Nat) : (s.endCapture r).experts = s.experts := by have h := congrArg State.experts (State.endCapture_only s r); exact h
@[simp] theorem State.endCapture_lnk (s : State) (r : Nat) : (s.endCapture r).lnk = s.lnk := by have h := congrArg State.lnk (State.endCapture_only s r); exact h
@[simp] theorem State.endCapture_chk (s : State) (r : Nat) : (s.endCapture r).chk = s.chk := by have h := congrArg State.chk (State.endCapture_only s r); exact h
@[simp] theorem State.endCapture_adopt (s : State) (r : Nat) : (s.endCapture r).adopt = s.adopt := by have h := congrArg State.adopt (State.endCapture_only s r); exact h
@[simp] theorem State.endCapture_host (s : State) (r : Nat) : (s.endCapture r).host = s.host := by have h := congrArg State.host (State.endCapture_only s r); exact h
@[simp] theorem State.endCapture_boot (s : State) (r : Nat) : (s.endCapture r).boot = s.boot := by have h := congrArg State.boot (State.endCapture_only s r); exact h
@[simp] theorem State.endCapture_flash (s : State) (r : Nat) : (s.endCapture r).flash = s.flash := by have h := congrArg State.flash (State.endCapture_only s r); exact h
@[simp] theorem State.endCapture_power (s : State) (r : Nat) : (s.endCapture r).power = s.power := by have h := congrArg State.power (State.endCapture_only s r); exact h
@[simp] theorem State.endCapture_meas (s : State) (r : Nat) : (s.endCapture r).meas = s.meas := by have h := congrArg State.meas (State.endCapture_only s r); exact h
@[simp] theorem State.endCapture_spdm (s : State) (r : Nat) : (s.endCapture r).spdm = s.spdm := by have h := congrArg State.spdm (State.endCapture_only s r); exact h
@[simp] theorem State.endCapture_side (s : State) (r : Nat) : (s.endCapture r).side = s.side := by have h := congrArg State.side (State.endCapture_only s r); exact h
@[simp] theorem State.endCapture_outbox (s : State) (r : Nat) : (s.endCapture r).outbox = s.outbox := by have h := congrArg State.outbox (State.endCapture_only s r); exact h
@[simp] theorem State.endCapture_freeIx (s : State) (r : Nat) : (s.endCapture r).freeIx = s.freeIx := by have h := congrArg State.freeIx (State.endCapture_only s r); exact h

@[simp] theorem State.captureIn_pending (s : State) (k src a i : Nat) (l : List Line) : (s.captureIn k src a i l).pending = s.pending := by have h := congrArg State.pending (State.captureIn_only s k src a i l); exact h
@[simp] theorem State.captureIn_clk (s : State) (k src a i : Nat) (l : List Line) : (s.captureIn k src a i l).clk = s.clk := by have h := congrArg State.clk (State.captureIn_only s k src a i l); exact h
@[simp] theorem State.captureIn_time (s : State) (k src a i : Nat) (l : List Line) : (s.captureIn k src a i l).time = s.time := by have h := congrArg State.time (State.captureIn_only s k src a i l); exact h
@[simp] theorem State.captureIn_pace (s : State) (k src a i : Nat) (l : List Line) : (s.captureIn k src a i l).pace = s.pace := by have h := congrArg State.pace (State.captureIn_only s k src a i l); exact h
@[simp] theorem State.captureIn_legRegs (s : State) (k src a i : Nat) (l : List Line) : (s.captureIn k src a i l).legRegs = s.legRegs := by have h := congrArg State.legRegs (State.captureIn_only s k src a i l); exact h
@[simp] theorem State.captureIn_series (s : State) (k src a i : Nat) (l : List Line) : (s.captureIn k src a i l).series = s.series := by have h := congrArg State.series (State.captureIn_only s k src a i l); exact h
@[simp] theorem State.captureIn_groups (s : State) (k src a i : Nat) (l : List Line) : (s.captureIn k src a i l).groups = s.groups := by have h := congrArg State.groups (State.captureIn_only s k src a i l); exact h
@[simp] theorem State.captureIn_conds (s : State) (k src a i : Nat) (l : List Line) : (s.captureIn k src a i l).conds = s.conds := by have h := congrArg State.conds (State.captureIn_only s k src a i l); exact h
@[simp] theorem State.captureIn_plan (s : State) (k src a i : Nat) (l : List Line) : (s.captureIn k src a i l).plan = s.plan := by have h := congrArg State.plan (State.captureIn_only s k src a i l); exact h
@[simp] theorem State.captureIn_mem (s : State) (k src a i : Nat) (l : List Line) : (s.captureIn k src a i l).mem = s.mem := by have h := congrArg State.mem (State.captureIn_only s k src a i l); exact h
@[simp] theorem State.captureIn_pages (s : State) (k src a i : Nat) (l : List Line) : (s.captureIn k src a i l).pages = s.pages := by have h := congrArg State.pages (State.captureIn_only s k src a i l); exact h
@[simp] theorem State.captureIn_cores (s : State) (k src a i : Nat) (l : List Line) : (s.captureIn k src a i l).cores = s.cores := by have h := congrArg State.cores (State.captureIn_only s k src a i l); exact h
@[simp] theorem State.captureIn_flagsHeld (s : State) (k src a i : Nat) (l : List Line) : (s.captureIn k src a i l).flagsHeld = s.flagsHeld := by have h := congrArg State.flagsHeld (State.captureIn_only s k src a i l); exact h
@[simp] theorem State.captureIn_caddy (s : State) (k src a i : Nat) (l : List Line) : (s.captureIn k src a i l).caddy = s.caddy := by have h := congrArg State.caddy (State.captureIn_only s k src a i l); exact h
@[simp] theorem State.captureIn_caddySt (s : State) (k src a i : Nat) (l : List Line) : (s.captureIn k src a i l).caddySt = s.caddySt := by have h := congrArg State.caddySt (State.captureIn_only s k src a i l); exact h
@[simp] theorem State.captureIn_fmt (s : State) (k src a i : Nat) (l : List Line) : (s.captureIn k src a i l).fmt = s.fmt := by have h := congrArg State.fmt (State.captureIn_only s k src a i l); exact h
@[simp] theorem State.captureIn_num (s : State) (k src a i : Nat) (l : List Line) : (s.captureIn k src a i l).num = s.num := by have h := congrArg State.num (State.captureIn_only s k src a i l); exact h
@[simp] theorem State.captureIn_gov (s : State) (k src a i : Nat) (l : List Line) : (s.captureIn k src a i l).gov = s.gov := by have h := congrArg State.gov (State.captureIn_only s k src a i l); exact h
@[simp] theorem State.captureIn_experts (s : State) (k src a i : Nat) (l : List Line) : (s.captureIn k src a i l).experts = s.experts := by have h := congrArg State.experts (State.captureIn_only s k src a i l); exact h
@[simp] theorem State.captureIn_lnk (s : State) (k src a i : Nat) (l : List Line) : (s.captureIn k src a i l).lnk = s.lnk := by have h := congrArg State.lnk (State.captureIn_only s k src a i l); exact h
@[simp] theorem State.captureIn_chk (s : State) (k src a i : Nat) (l : List Line) : (s.captureIn k src a i l).chk = s.chk := by have h := congrArg State.chk (State.captureIn_only s k src a i l); exact h
@[simp] theorem State.captureIn_adopt (s : State) (k src a i : Nat) (l : List Line) : (s.captureIn k src a i l).adopt = s.adopt := by have h := congrArg State.adopt (State.captureIn_only s k src a i l); exact h
@[simp] theorem State.captureIn_host (s : State) (k src a i : Nat) (l : List Line) : (s.captureIn k src a i l).host = s.host := by have h := congrArg State.host (State.captureIn_only s k src a i l); exact h
@[simp] theorem State.captureIn_boot (s : State) (k src a i : Nat) (l : List Line) : (s.captureIn k src a i l).boot = s.boot := by have h := congrArg State.boot (State.captureIn_only s k src a i l); exact h
@[simp] theorem State.captureIn_flash (s : State) (k src a i : Nat) (l : List Line) : (s.captureIn k src a i l).flash = s.flash := by have h := congrArg State.flash (State.captureIn_only s k src a i l); exact h
@[simp] theorem State.captureIn_power (s : State) (k src a i : Nat) (l : List Line) : (s.captureIn k src a i l).power = s.power := by have h := congrArg State.power (State.captureIn_only s k src a i l); exact h
@[simp] theorem State.captureIn_meas (s : State) (k src a i : Nat) (l : List Line) : (s.captureIn k src a i l).meas = s.meas := by have h := congrArg State.meas (State.captureIn_only s k src a i l); exact h
@[simp] theorem State.captureIn_spdm (s : State) (k src a i : Nat) (l : List Line) : (s.captureIn k src a i l).spdm = s.spdm := by have h := congrArg State.spdm (State.captureIn_only s k src a i l); exact h
@[simp] theorem State.captureIn_side (s : State) (k src a i : Nat) (l : List Line) : (s.captureIn k src a i l).side = s.side := by have h := congrArg State.side (State.captureIn_only s k src a i l); exact h
@[simp] theorem State.captureIn_outbox (s : State) (k src a i : Nat) (l : List Line) : (s.captureIn k src a i l).outbox = s.outbox := by have h := congrArg State.outbox (State.captureIn_only s k src a i l); exact h
@[simp] theorem State.captureIn_freeIx (s : State) (k src a i : Nat) (l : List Line) : (s.captureIn k src a i l).freeIx = s.freeIx := by have h := congrArg State.freeIx (State.captureIn_only s k src a i l); exact h

@[simp] theorem State.markAt_pending (s : State) (t k ca g : Nat) (o : W16) (u : Nat) (j : W16) (l p : Nat) : (s.markAt t k ca g o u j l p).pending = s.pending := by have h := congrArg State.pending (State.markAt_only s t k ca g o u j l p); exact h
@[simp] theorem State.markAt_clk (s : State) (t k ca g : Nat) (o : W16) (u : Nat) (j : W16) (l p : Nat) : (s.markAt t k ca g o u j l p).clk = s.clk := by have h := congrArg State.clk (State.markAt_only s t k ca g o u j l p); exact h
@[simp] theorem State.markAt_time (s : State) (t k ca g : Nat) (o : W16) (u : Nat) (j : W16) (l p : Nat) : (s.markAt t k ca g o u j l p).time = s.time := by have h := congrArg State.time (State.markAt_only s t k ca g o u j l p); exact h
@[simp] theorem State.markAt_pace (s : State) (t k ca g : Nat) (o : W16) (u : Nat) (j : W16) (l p : Nat) : (s.markAt t k ca g o u j l p).pace = s.pace := by have h := congrArg State.pace (State.markAt_only s t k ca g o u j l p); exact h
@[simp] theorem State.markAt_legRegs (s : State) (t k ca g : Nat) (o : W16) (u : Nat) (j : W16) (l p : Nat) : (s.markAt t k ca g o u j l p).legRegs = s.legRegs := by have h := congrArg State.legRegs (State.markAt_only s t k ca g o u j l p); exact h
@[simp] theorem State.markAt_series (s : State) (t k ca g : Nat) (o : W16) (u : Nat) (j : W16) (l p : Nat) : (s.markAt t k ca g o u j l p).series = s.series := by have h := congrArg State.series (State.markAt_only s t k ca g o u j l p); exact h
@[simp] theorem State.markAt_groups (s : State) (t k ca g : Nat) (o : W16) (u : Nat) (j : W16) (l p : Nat) : (s.markAt t k ca g o u j l p).groups = s.groups := by have h := congrArg State.groups (State.markAt_only s t k ca g o u j l p); exact h
@[simp] theorem State.markAt_conds (s : State) (t k ca g : Nat) (o : W16) (u : Nat) (j : W16) (l p : Nat) : (s.markAt t k ca g o u j l p).conds = s.conds := by have h := congrArg State.conds (State.markAt_only s t k ca g o u j l p); exact h
@[simp] theorem State.markAt_plan (s : State) (t k ca g : Nat) (o : W16) (u : Nat) (j : W16) (l p : Nat) : (s.markAt t k ca g o u j l p).plan = s.plan := by have h := congrArg State.plan (State.markAt_only s t k ca g o u j l p); exact h
@[simp] theorem State.markAt_mem (s : State) (t k ca g : Nat) (o : W16) (u : Nat) (j : W16) (l p : Nat) : (s.markAt t k ca g o u j l p).mem = s.mem := by have h := congrArg State.mem (State.markAt_only s t k ca g o u j l p); exact h
@[simp] theorem State.markAt_pages (s : State) (t k ca g : Nat) (o : W16) (u : Nat) (j : W16) (l p : Nat) : (s.markAt t k ca g o u j l p).pages = s.pages := by have h := congrArg State.pages (State.markAt_only s t k ca g o u j l p); exact h
@[simp] theorem State.markAt_cores (s : State) (t k ca g : Nat) (o : W16) (u : Nat) (j : W16) (l p : Nat) : (s.markAt t k ca g o u j l p).cores = s.cores := by have h := congrArg State.cores (State.markAt_only s t k ca g o u j l p); exact h
@[simp] theorem State.markAt_flagsHeld (s : State) (t k ca g : Nat) (o : W16) (u : Nat) (j : W16) (l p : Nat) : (s.markAt t k ca g o u j l p).flagsHeld = s.flagsHeld := by have h := congrArg State.flagsHeld (State.markAt_only s t k ca g o u j l p); exact h
@[simp] theorem State.markAt_caddy (s : State) (t k ca g : Nat) (o : W16) (u : Nat) (j : W16) (l p : Nat) : (s.markAt t k ca g o u j l p).caddy = s.caddy := by have h := congrArg State.caddy (State.markAt_only s t k ca g o u j l p); exact h
@[simp] theorem State.markAt_caddySt (s : State) (t k ca g : Nat) (o : W16) (u : Nat) (j : W16) (l p : Nat) : (s.markAt t k ca g o u j l p).caddySt = s.caddySt := by have h := congrArg State.caddySt (State.markAt_only s t k ca g o u j l p); exact h
@[simp] theorem State.markAt_fmt (s : State) (t k ca g : Nat) (o : W16) (u : Nat) (j : W16) (l p : Nat) : (s.markAt t k ca g o u j l p).fmt = s.fmt := by have h := congrArg State.fmt (State.markAt_only s t k ca g o u j l p); exact h
@[simp] theorem State.markAt_num (s : State) (t k ca g : Nat) (o : W16) (u : Nat) (j : W16) (l p : Nat) : (s.markAt t k ca g o u j l p).num = s.num := by have h := congrArg State.num (State.markAt_only s t k ca g o u j l p); exact h
@[simp] theorem State.markAt_gov (s : State) (t k ca g : Nat) (o : W16) (u : Nat) (j : W16) (l p : Nat) : (s.markAt t k ca g o u j l p).gov = s.gov := by have h := congrArg State.gov (State.markAt_only s t k ca g o u j l p); exact h
@[simp] theorem State.markAt_experts (s : State) (t k ca g : Nat) (o : W16) (u : Nat) (j : W16) (l p : Nat) : (s.markAt t k ca g o u j l p).experts = s.experts := by have h := congrArg State.experts (State.markAt_only s t k ca g o u j l p); exact h
@[simp] theorem State.markAt_lnk (s : State) (t k ca g : Nat) (o : W16) (u : Nat) (j : W16) (l p : Nat) : (s.markAt t k ca g o u j l p).lnk = s.lnk := by have h := congrArg State.lnk (State.markAt_only s t k ca g o u j l p); exact h
@[simp] theorem State.markAt_chk (s : State) (t k ca g : Nat) (o : W16) (u : Nat) (j : W16) (l p : Nat) : (s.markAt t k ca g o u j l p).chk = s.chk := by have h := congrArg State.chk (State.markAt_only s t k ca g o u j l p); exact h
@[simp] theorem State.markAt_adopt (s : State) (t k ca g : Nat) (o : W16) (u : Nat) (j : W16) (l p : Nat) : (s.markAt t k ca g o u j l p).adopt = s.adopt := by have h := congrArg State.adopt (State.markAt_only s t k ca g o u j l p); exact h
@[simp] theorem State.markAt_host (s : State) (t k ca g : Nat) (o : W16) (u : Nat) (j : W16) (l p : Nat) : (s.markAt t k ca g o u j l p).host = s.host := by have h := congrArg State.host (State.markAt_only s t k ca g o u j l p); exact h
@[simp] theorem State.markAt_boot (s : State) (t k ca g : Nat) (o : W16) (u : Nat) (j : W16) (l p : Nat) : (s.markAt t k ca g o u j l p).boot = s.boot := by have h := congrArg State.boot (State.markAt_only s t k ca g o u j l p); exact h
@[simp] theorem State.markAt_flash (s : State) (t k ca g : Nat) (o : W16) (u : Nat) (j : W16) (l p : Nat) : (s.markAt t k ca g o u j l p).flash = s.flash := by have h := congrArg State.flash (State.markAt_only s t k ca g o u j l p); exact h
@[simp] theorem State.markAt_power (s : State) (t k ca g : Nat) (o : W16) (u : Nat) (j : W16) (l p : Nat) : (s.markAt t k ca g o u j l p).power = s.power := by have h := congrArg State.power (State.markAt_only s t k ca g o u j l p); exact h
@[simp] theorem State.markAt_meas (s : State) (t k ca g : Nat) (o : W16) (u : Nat) (j : W16) (l p : Nat) : (s.markAt t k ca g o u j l p).meas = s.meas := by have h := congrArg State.meas (State.markAt_only s t k ca g o u j l p); exact h
@[simp] theorem State.markAt_spdm (s : State) (t k ca g : Nat) (o : W16) (u : Nat) (j : W16) (l p : Nat) : (s.markAt t k ca g o u j l p).spdm = s.spdm := by have h := congrArg State.spdm (State.markAt_only s t k ca g o u j l p); exact h
@[simp] theorem State.markAt_side (s : State) (t k ca g : Nat) (o : W16) (u : Nat) (j : W16) (l p : Nat) : (s.markAt t k ca g o u j l p).side = s.side := by have h := congrArg State.side (State.markAt_only s t k ca g o u j l p); exact h
@[simp] theorem State.markAt_outbox (s : State) (t k ca g : Nat) (o : W16) (u : Nat) (j : W16) (l p : Nat) : (s.markAt t k ca g o u j l p).outbox = s.outbox := by have h := congrArg State.outbox (State.markAt_only s t k ca g o u j l p); exact h
@[simp] theorem State.markAt_freeIx (s : State) (t k ca g : Nat) (o : W16) (u : Nat) (j : W16) (l p : Nat) : (s.markAt t k ca g o u j l p).freeIx = s.freeIx := by have h := congrArg State.freeIx (State.markAt_only s t k ca g o u j l p); exact h

@[simp] theorem State.mark_pending (s : State) (k ca g u p : Nat) : (s.mark k ca g u p).pending = s.pending := State.markAt_pending ..
@[simp] theorem State.mark_clk (s : State) (k ca g u p : Nat) : (s.mark k ca g u p).clk = s.clk := State.markAt_clk ..
@[simp] theorem State.mark_time (s : State) (k ca g u p : Nat) : (s.mark k ca g u p).time = s.time := State.markAt_time ..
@[simp] theorem State.mark_pace (s : State) (k ca g u p : Nat) : (s.mark k ca g u p).pace = s.pace := State.markAt_pace ..
@[simp] theorem State.mark_legRegs (s : State) (k ca g u p : Nat) : (s.mark k ca g u p).legRegs = s.legRegs := State.markAt_legRegs ..
@[simp] theorem State.mark_series (s : State) (k ca g u p : Nat) : (s.mark k ca g u p).series = s.series := State.markAt_series ..
@[simp] theorem State.mark_groups (s : State) (k ca g u p : Nat) : (s.mark k ca g u p).groups = s.groups := State.markAt_groups ..
@[simp] theorem State.mark_conds (s : State) (k ca g u p : Nat) : (s.mark k ca g u p).conds = s.conds := State.markAt_conds ..
@[simp] theorem State.mark_plan (s : State) (k ca g u p : Nat) : (s.mark k ca g u p).plan = s.plan := State.markAt_plan ..
@[simp] theorem State.mark_mem (s : State) (k ca g u p : Nat) : (s.mark k ca g u p).mem = s.mem := State.markAt_mem ..
@[simp] theorem State.mark_pages (s : State) (k ca g u p : Nat) : (s.mark k ca g u p).pages = s.pages := State.markAt_pages ..
@[simp] theorem State.mark_cores (s : State) (k ca g u p : Nat) : (s.mark k ca g u p).cores = s.cores := State.markAt_cores ..
@[simp] theorem State.mark_flagsHeld (s : State) (k ca g u p : Nat) : (s.mark k ca g u p).flagsHeld = s.flagsHeld := State.markAt_flagsHeld ..
@[simp] theorem State.mark_caddy (s : State) (k ca g u p : Nat) : (s.mark k ca g u p).caddy = s.caddy := State.markAt_caddy ..
@[simp] theorem State.mark_caddySt (s : State) (k ca g u p : Nat) : (s.mark k ca g u p).caddySt = s.caddySt := State.markAt_caddySt ..
@[simp] theorem State.mark_fmt (s : State) (k ca g u p : Nat) : (s.mark k ca g u p).fmt = s.fmt := State.markAt_fmt ..
@[simp] theorem State.mark_num (s : State) (k ca g u p : Nat) : (s.mark k ca g u p).num = s.num := State.markAt_num ..
@[simp] theorem State.mark_gov (s : State) (k ca g u p : Nat) : (s.mark k ca g u p).gov = s.gov := State.markAt_gov ..
@[simp] theorem State.mark_experts (s : State) (k ca g u p : Nat) : (s.mark k ca g u p).experts = s.experts := State.markAt_experts ..
@[simp] theorem State.mark_lnk (s : State) (k ca g u p : Nat) : (s.mark k ca g u p).lnk = s.lnk := State.markAt_lnk ..
@[simp] theorem State.mark_chk (s : State) (k ca g u p : Nat) : (s.mark k ca g u p).chk = s.chk := State.markAt_chk ..
@[simp] theorem State.mark_adopt (s : State) (k ca g u p : Nat) : (s.mark k ca g u p).adopt = s.adopt := State.markAt_adopt ..
@[simp] theorem State.mark_host (s : State) (k ca g u p : Nat) : (s.mark k ca g u p).host = s.host := State.markAt_host ..
@[simp] theorem State.mark_boot (s : State) (k ca g u p : Nat) : (s.mark k ca g u p).boot = s.boot := State.markAt_boot ..
@[simp] theorem State.mark_flash (s : State) (k ca g u p : Nat) : (s.mark k ca g u p).flash = s.flash := State.markAt_flash ..
@[simp] theorem State.mark_power (s : State) (k ca g u p : Nat) : (s.mark k ca g u p).power = s.power := State.markAt_power ..
@[simp] theorem State.mark_meas (s : State) (k ca g u p : Nat) : (s.mark k ca g u p).meas = s.meas := State.markAt_meas ..
@[simp] theorem State.mark_spdm (s : State) (k ca g u p : Nat) : (s.mark k ca g u p).spdm = s.spdm := State.markAt_spdm ..
@[simp] theorem State.mark_side (s : State) (k ca g u p : Nat) : (s.mark k ca g u p).side = s.side := State.markAt_side ..
@[simp] theorem State.mark_outbox (s : State) (k ca g u p : Nat) : (s.mark k ca g u p).outbox = s.outbox := State.markAt_outbox ..
@[simp] theorem State.mark_freeIx (s : State) (k ca g u p : Nat) : (s.mark k ca g u p).freeIx = s.freeIx := State.markAt_freeIx ..

@[simp] theorem State.faultMark_pending (s : State) (u st r : Nat) : (s.faultMark u st r).pending = s.pending := State.mark_pending ..
@[simp] theorem State.faultMark_clk (s : State) (u st r : Nat) : (s.faultMark u st r).clk = s.clk := State.mark_clk ..
@[simp] theorem State.faultMark_time (s : State) (u st r : Nat) : (s.faultMark u st r).time = s.time := State.mark_time ..
@[simp] theorem State.faultMark_pace (s : State) (u st r : Nat) : (s.faultMark u st r).pace = s.pace := State.mark_pace ..
@[simp] theorem State.faultMark_legRegs (s : State) (u st r : Nat) : (s.faultMark u st r).legRegs = s.legRegs := State.mark_legRegs ..
@[simp] theorem State.faultMark_series (s : State) (u st r : Nat) : (s.faultMark u st r).series = s.series := State.mark_series ..
@[simp] theorem State.faultMark_groups (s : State) (u st r : Nat) : (s.faultMark u st r).groups = s.groups := State.mark_groups ..
@[simp] theorem State.faultMark_conds (s : State) (u st r : Nat) : (s.faultMark u st r).conds = s.conds := State.mark_conds ..
@[simp] theorem State.faultMark_plan (s : State) (u st r : Nat) : (s.faultMark u st r).plan = s.plan := State.mark_plan ..
@[simp] theorem State.faultMark_mem (s : State) (u st r : Nat) : (s.faultMark u st r).mem = s.mem := State.mark_mem ..
@[simp] theorem State.faultMark_pages (s : State) (u st r : Nat) : (s.faultMark u st r).pages = s.pages := State.mark_pages ..
@[simp] theorem State.faultMark_cores (s : State) (u st r : Nat) : (s.faultMark u st r).cores = s.cores := State.mark_cores ..
@[simp] theorem State.faultMark_flagsHeld (s : State) (u st r : Nat) : (s.faultMark u st r).flagsHeld = s.flagsHeld := State.mark_flagsHeld ..
@[simp] theorem State.faultMark_caddy (s : State) (u st r : Nat) : (s.faultMark u st r).caddy = s.caddy := State.mark_caddy ..
@[simp] theorem State.faultMark_caddySt (s : State) (u st r : Nat) : (s.faultMark u st r).caddySt = s.caddySt := State.mark_caddySt ..
@[simp] theorem State.faultMark_fmt (s : State) (u st r : Nat) : (s.faultMark u st r).fmt = s.fmt := State.mark_fmt ..
@[simp] theorem State.faultMark_num (s : State) (u st r : Nat) : (s.faultMark u st r).num = s.num := State.mark_num ..
@[simp] theorem State.faultMark_gov (s : State) (u st r : Nat) : (s.faultMark u st r).gov = s.gov := State.mark_gov ..
@[simp] theorem State.faultMark_experts (s : State) (u st r : Nat) : (s.faultMark u st r).experts = s.experts := State.mark_experts ..
@[simp] theorem State.faultMark_lnk (s : State) (u st r : Nat) : (s.faultMark u st r).lnk = s.lnk := State.mark_lnk ..
@[simp] theorem State.faultMark_chk (s : State) (u st r : Nat) : (s.faultMark u st r).chk = s.chk := State.mark_chk ..
@[simp] theorem State.faultMark_adopt (s : State) (u st r : Nat) : (s.faultMark u st r).adopt = s.adopt := State.mark_adopt ..
@[simp] theorem State.faultMark_host (s : State) (u st r : Nat) : (s.faultMark u st r).host = s.host := State.mark_host ..
@[simp] theorem State.faultMark_boot (s : State) (u st r : Nat) : (s.faultMark u st r).boot = s.boot := State.mark_boot ..
@[simp] theorem State.faultMark_flash (s : State) (u st r : Nat) : (s.faultMark u st r).flash = s.flash := State.mark_flash ..
@[simp] theorem State.faultMark_power (s : State) (u st r : Nat) : (s.faultMark u st r).power = s.power := State.mark_power ..
@[simp] theorem State.faultMark_meas (s : State) (u st r : Nat) : (s.faultMark u st r).meas = s.meas := State.mark_meas ..
@[simp] theorem State.faultMark_spdm (s : State) (u st r : Nat) : (s.faultMark u st r).spdm = s.spdm := State.mark_spdm ..
@[simp] theorem State.faultMark_side (s : State) (u st r : Nat) : (s.faultMark u st r).side = s.side := State.mark_side ..
@[simp] theorem State.faultMark_outbox (s : State) (u st r : Nat) : (s.faultMark u st r).outbox = s.outbox := State.mark_outbox ..
@[simp] theorem State.faultMark_freeIx (s : State) (u st r : Nat) : (s.faultMark u st r).freeIx = s.freeIx := State.mark_freeIx ..

/-! ### Completions -/

@[simp] theorem State.settleRing_descs (s : State) (r : Nat) : (s.settleRing r).host.descs = s.host.descs := by
  unfold State.settleRing; simp only []; split <;> rfl

@[simp] theorem State.settleRing_pending (s : State) (r : Nat) : (s.settleRing r).pending = s.pending := by unfold State.settleRing; simp only []; split <;> rfl
@[simp] theorem State.settleRing_clk (s : State) (r : Nat) : (s.settleRing r).clk = s.clk := by unfold State.settleRing; simp only []; split <;> rfl
@[simp] theorem State.settleRing_time (s : State) (r : Nat) : (s.settleRing r).time = s.time := by unfold State.settleRing; simp only []; split <;> rfl
@[simp] theorem State.settleRing_pace (s : State) (r : Nat) : (s.settleRing r).pace = s.pace := by unfold State.settleRing; simp only []; split <;> rfl
@[simp] theorem State.settleRing_legRegs (s : State) (r : Nat) : (s.settleRing r).legRegs = s.legRegs := by unfold State.settleRing; simp only []; split <;> rfl
@[simp] theorem State.settleRing_series (s : State) (r : Nat) : (s.settleRing r).series = s.series := by unfold State.settleRing; simp only []; split <;> rfl
@[simp] theorem State.settleRing_groups (s : State) (r : Nat) : (s.settleRing r).groups = s.groups := by unfold State.settleRing; simp only []; split <;> rfl
@[simp] theorem State.settleRing_conds (s : State) (r : Nat) : (s.settleRing r).conds = s.conds := by unfold State.settleRing; simp only []; split <;> rfl
@[simp] theorem State.settleRing_trace (s : State) (r : Nat) : (s.settleRing r).trace = s.trace := by unfold State.settleRing; simp only []; split <;> rfl
@[simp] theorem State.settleRing_plan (s : State) (r : Nat) : (s.settleRing r).plan = s.plan := by unfold State.settleRing; simp only []; split <;> rfl
@[simp] theorem State.settleRing_mem (s : State) (r : Nat) : (s.settleRing r).mem = s.mem := by unfold State.settleRing; simp only []; split <;> rfl
@[simp] theorem State.settleRing_pages (s : State) (r : Nat) : (s.settleRing r).pages = s.pages := by unfold State.settleRing; simp only []; split <;> rfl
@[simp] theorem State.settleRing_cores (s : State) (r : Nat) : (s.settleRing r).cores = s.cores := by unfold State.settleRing; simp only []; split <;> rfl
@[simp] theorem State.settleRing_flagsHeld (s : State) (r : Nat) : (s.settleRing r).flagsHeld = s.flagsHeld := by unfold State.settleRing; simp only []; split <;> rfl
@[simp] theorem State.settleRing_caddy (s : State) (r : Nat) : (s.settleRing r).caddy = s.caddy := by unfold State.settleRing; simp only []; split <;> rfl
@[simp] theorem State.settleRing_caddySt (s : State) (r : Nat) : (s.settleRing r).caddySt = s.caddySt := by unfold State.settleRing; simp only []; split <;> rfl
@[simp] theorem State.settleRing_fmt (s : State) (r : Nat) : (s.settleRing r).fmt = s.fmt := by unfold State.settleRing; simp only []; split <;> rfl
@[simp] theorem State.settleRing_num (s : State) (r : Nat) : (s.settleRing r).num = s.num := by unfold State.settleRing; simp only []; split <;> rfl
@[simp] theorem State.settleRing_gov (s : State) (r : Nat) : (s.settleRing r).gov = s.gov := by unfold State.settleRing; simp only []; split <;> rfl
@[simp] theorem State.settleRing_experts (s : State) (r : Nat) : (s.settleRing r).experts = s.experts := by unfold State.settleRing; simp only []; split <;> rfl
@[simp] theorem State.settleRing_lnk (s : State) (r : Nat) : (s.settleRing r).lnk = s.lnk := by unfold State.settleRing; simp only []; split <;> rfl
@[simp] theorem State.settleRing_chk (s : State) (r : Nat) : (s.settleRing r).chk = s.chk := by unfold State.settleRing; simp only []; split <;> rfl
@[simp] theorem State.settleRing_adopt (s : State) (r : Nat) : (s.settleRing r).adopt = s.adopt := by unfold State.settleRing; simp only []; split <;> rfl
@[simp] theorem State.settleRing_boot (s : State) (r : Nat) : (s.settleRing r).boot = s.boot := by unfold State.settleRing; simp only []; split <;> rfl
@[simp] theorem State.settleRing_flash (s : State) (r : Nat) : (s.settleRing r).flash = s.flash := by unfold State.settleRing; simp only []; split <;> rfl
@[simp] theorem State.settleRing_power (s : State) (r : Nat) : (s.settleRing r).power = s.power := by unfold State.settleRing; simp only []; split <;> rfl
@[simp] theorem State.settleRing_meas (s : State) (r : Nat) : (s.settleRing r).meas = s.meas := by unfold State.settleRing; simp only []; split <;> rfl
@[simp] theorem State.settleRing_spdm (s : State) (r : Nat) : (s.settleRing r).spdm = s.spdm := by unfold State.settleRing; simp only []; split <;> rfl
@[simp] theorem State.settleRing_side (s : State) (r : Nat) : (s.settleRing r).side = s.side := by unfold State.settleRing; simp only []; split <;> rfl
@[simp] theorem State.settleRing_outbox (s : State) (r : Nat) : (s.settleRing r).outbox = s.outbox := by unfold State.settleRing; simp only []; split <;> rfl
@[simp] theorem State.settleRing_freeIx (s : State) (r : Nat) : (s.settleRing r).freeIx = s.freeIx := by unfold State.settleRing; simp only []; split <;> rfl

/-- A failed completion write changes the host record alone (R401, R498). -/
theorem State.portFail_only (s : State) (r : Nat) : { s.portFail r with host := s.host } = s := by
  unfold State.portFail; split <;> rfl

@[simp] theorem State.portFail_descs (s : State) (r : Nat) : (s.portFail r).host.descs = s.host.descs := by
  unfold State.portFail; split <;> rfl

@[simp] theorem State.portFail_pending (s : State) (r : Nat) : (s.portFail r).pending = s.pending := by have h := congrArg State.pending (State.portFail_only s r); exact h
@[simp] theorem State.portFail_clk (s : State) (r : Nat) : (s.portFail r).clk = s.clk := by have h := congrArg State.clk (State.portFail_only s r); exact h
@[simp] theorem State.portFail_time (s : State) (r : Nat) : (s.portFail r).time = s.time := by have h := congrArg State.time (State.portFail_only s r); exact h
@[simp] theorem State.portFail_pace (s : State) (r : Nat) : (s.portFail r).pace = s.pace := by have h := congrArg State.pace (State.portFail_only s r); exact h
@[simp] theorem State.portFail_legRegs (s : State) (r : Nat) : (s.portFail r).legRegs = s.legRegs := by have h := congrArg State.legRegs (State.portFail_only s r); exact h
@[simp] theorem State.portFail_series (s : State) (r : Nat) : (s.portFail r).series = s.series := by have h := congrArg State.series (State.portFail_only s r); exact h
@[simp] theorem State.portFail_groups (s : State) (r : Nat) : (s.portFail r).groups = s.groups := by have h := congrArg State.groups (State.portFail_only s r); exact h
@[simp] theorem State.portFail_conds (s : State) (r : Nat) : (s.portFail r).conds = s.conds := by have h := congrArg State.conds (State.portFail_only s r); exact h
@[simp] theorem State.portFail_trace (s : State) (r : Nat) : (s.portFail r).trace = s.trace := by have h := congrArg State.trace (State.portFail_only s r); exact h
@[simp] theorem State.portFail_plan (s : State) (r : Nat) : (s.portFail r).plan = s.plan := by have h := congrArg State.plan (State.portFail_only s r); exact h
@[simp] theorem State.portFail_mem (s : State) (r : Nat) : (s.portFail r).mem = s.mem := by have h := congrArg State.mem (State.portFail_only s r); exact h
@[simp] theorem State.portFail_pages (s : State) (r : Nat) : (s.portFail r).pages = s.pages := by have h := congrArg State.pages (State.portFail_only s r); exact h
@[simp] theorem State.portFail_cores (s : State) (r : Nat) : (s.portFail r).cores = s.cores := by have h := congrArg State.cores (State.portFail_only s r); exact h
@[simp] theorem State.portFail_flagsHeld (s : State) (r : Nat) : (s.portFail r).flagsHeld = s.flagsHeld := by have h := congrArg State.flagsHeld (State.portFail_only s r); exact h
@[simp] theorem State.portFail_caddy (s : State) (r : Nat) : (s.portFail r).caddy = s.caddy := by have h := congrArg State.caddy (State.portFail_only s r); exact h
@[simp] theorem State.portFail_caddySt (s : State) (r : Nat) : (s.portFail r).caddySt = s.caddySt := by have h := congrArg State.caddySt (State.portFail_only s r); exact h
@[simp] theorem State.portFail_fmt (s : State) (r : Nat) : (s.portFail r).fmt = s.fmt := by have h := congrArg State.fmt (State.portFail_only s r); exact h
@[simp] theorem State.portFail_num (s : State) (r : Nat) : (s.portFail r).num = s.num := by have h := congrArg State.num (State.portFail_only s r); exact h
@[simp] theorem State.portFail_gov (s : State) (r : Nat) : (s.portFail r).gov = s.gov := by have h := congrArg State.gov (State.portFail_only s r); exact h
@[simp] theorem State.portFail_experts (s : State) (r : Nat) : (s.portFail r).experts = s.experts := by have h := congrArg State.experts (State.portFail_only s r); exact h
@[simp] theorem State.portFail_lnk (s : State) (r : Nat) : (s.portFail r).lnk = s.lnk := by have h := congrArg State.lnk (State.portFail_only s r); exact h
@[simp] theorem State.portFail_chk (s : State) (r : Nat) : (s.portFail r).chk = s.chk := by have h := congrArg State.chk (State.portFail_only s r); exact h
@[simp] theorem State.portFail_adopt (s : State) (r : Nat) : (s.portFail r).adopt = s.adopt := by have h := congrArg State.adopt (State.portFail_only s r); exact h
@[simp] theorem State.portFail_boot (s : State) (r : Nat) : (s.portFail r).boot = s.boot := by have h := congrArg State.boot (State.portFail_only s r); exact h
@[simp] theorem State.portFail_flash (s : State) (r : Nat) : (s.portFail r).flash = s.flash := by have h := congrArg State.flash (State.portFail_only s r); exact h
@[simp] theorem State.portFail_power (s : State) (r : Nat) : (s.portFail r).power = s.power := by have h := congrArg State.power (State.portFail_only s r); exact h
@[simp] theorem State.portFail_meas (s : State) (r : Nat) : (s.portFail r).meas = s.meas := by have h := congrArg State.meas (State.portFail_only s r); exact h
@[simp] theorem State.portFail_spdm (s : State) (r : Nat) : (s.portFail r).spdm = s.spdm := by have h := congrArg State.spdm (State.portFail_only s r); exact h
@[simp] theorem State.portFail_side (s : State) (r : Nat) : (s.portFail r).side = s.side := by have h := congrArg State.side (State.portFail_only s r); exact h
@[simp] theorem State.portFail_outbox (s : State) (r : Nat) : (s.portFail r).outbox = s.outbox := by have h := congrArg State.outbox (State.portFail_only s r); exact h
@[simp] theorem State.portFail_freeIx (s : State) (r : Nat) : (s.portFail r).freeIx = s.freeIx := by have h := congrArg State.freeIx (State.portFail_only s r); exact h

@[simp] theorem State.completeAt_pending (s : State) (d : Desc) (t st a b : Nat) : (s.completeAt d t st a b).pending = s.pending := by unfold State.completeAt; simp only [State.settleRing_pending, State.markAt_pending]; split <;> simp
@[simp] theorem State.complete_pending (s : State) (d : Desc) (st a b : Nat) : (s.complete d st a b).pending = s.pending := State.completeAt_pending ..
@[simp] theorem State.completeAt_clk (s : State) (d : Desc) (t st a b : Nat) : (s.completeAt d t st a b).clk = s.clk := by unfold State.completeAt; simp only [State.settleRing_clk, State.markAt_clk]; split <;> simp
@[simp] theorem State.complete_clk (s : State) (d : Desc) (st a b : Nat) : (s.complete d st a b).clk = s.clk := State.completeAt_clk ..
@[simp] theorem State.completeAt_time (s : State) (d : Desc) (t st a b : Nat) : (s.completeAt d t st a b).time = s.time := by unfold State.completeAt; simp only [State.settleRing_time, State.markAt_time]; split <;> simp
@[simp] theorem State.complete_time (s : State) (d : Desc) (st a b : Nat) : (s.complete d st a b).time = s.time := State.completeAt_time ..
@[simp] theorem State.completeAt_pace (s : State) (d : Desc) (t st a b : Nat) : (s.completeAt d t st a b).pace = s.pace := by unfold State.completeAt; simp only [State.settleRing_pace, State.markAt_pace]; split <;> simp
@[simp] theorem State.complete_pace (s : State) (d : Desc) (st a b : Nat) : (s.complete d st a b).pace = s.pace := State.completeAt_pace ..
@[simp] theorem State.completeAt_legRegs (s : State) (d : Desc) (t st a b : Nat) : (s.completeAt d t st a b).legRegs = s.legRegs := by unfold State.completeAt; simp only [State.settleRing_legRegs, State.markAt_legRegs]; split <;> simp
@[simp] theorem State.complete_legRegs (s : State) (d : Desc) (st a b : Nat) : (s.complete d st a b).legRegs = s.legRegs := State.completeAt_legRegs ..
@[simp] theorem State.completeAt_series (s : State) (d : Desc) (t st a b : Nat) : (s.completeAt d t st a b).series = s.series := by unfold State.completeAt; simp only [State.settleRing_series, State.markAt_series]; split <;> simp
@[simp] theorem State.complete_series (s : State) (d : Desc) (st a b : Nat) : (s.complete d st a b).series = s.series := State.completeAt_series ..
@[simp] theorem State.completeAt_groups (s : State) (d : Desc) (t st a b : Nat) : (s.completeAt d t st a b).groups = s.groups := by unfold State.completeAt; simp only [State.settleRing_groups, State.markAt_groups]; split <;> simp
@[simp] theorem State.complete_groups (s : State) (d : Desc) (st a b : Nat) : (s.complete d st a b).groups = s.groups := State.completeAt_groups ..
@[simp] theorem State.completeAt_conds (s : State) (d : Desc) (t st a b : Nat) : (s.completeAt d t st a b).conds = s.conds := by unfold State.completeAt; simp only [State.settleRing_conds, State.markAt_conds]; split <;> simp
@[simp] theorem State.complete_conds (s : State) (d : Desc) (st a b : Nat) : (s.complete d st a b).conds = s.conds := State.completeAt_conds ..
@[simp] theorem State.completeAt_plan (s : State) (d : Desc) (t st a b : Nat) : (s.completeAt d t st a b).plan = s.plan := by unfold State.completeAt; simp only [State.settleRing_plan, State.markAt_plan]; split <;> simp
@[simp] theorem State.complete_plan (s : State) (d : Desc) (st a b : Nat) : (s.complete d st a b).plan = s.plan := State.completeAt_plan ..
@[simp] theorem State.completeAt_mem (s : State) (d : Desc) (t st a b : Nat) : (s.completeAt d t st a b).mem = s.mem := by unfold State.completeAt; simp only [State.settleRing_mem, State.markAt_mem]; split <;> simp
@[simp] theorem State.complete_mem (s : State) (d : Desc) (st a b : Nat) : (s.complete d st a b).mem = s.mem := State.completeAt_mem ..
@[simp] theorem State.completeAt_pages (s : State) (d : Desc) (t st a b : Nat) : (s.completeAt d t st a b).pages = s.pages := by unfold State.completeAt; simp only [State.settleRing_pages, State.markAt_pages]; split <;> simp
@[simp] theorem State.complete_pages (s : State) (d : Desc) (st a b : Nat) : (s.complete d st a b).pages = s.pages := State.completeAt_pages ..
@[simp] theorem State.completeAt_cores (s : State) (d : Desc) (t st a b : Nat) : (s.completeAt d t st a b).cores = s.cores := by unfold State.completeAt; simp only [State.settleRing_cores, State.markAt_cores]; split <;> simp
@[simp] theorem State.complete_cores (s : State) (d : Desc) (st a b : Nat) : (s.complete d st a b).cores = s.cores := State.completeAt_cores ..
@[simp] theorem State.completeAt_flagsHeld (s : State) (d : Desc) (t st a b : Nat) : (s.completeAt d t st a b).flagsHeld = s.flagsHeld := by unfold State.completeAt; simp only [State.settleRing_flagsHeld, State.markAt_flagsHeld]; split <;> simp
@[simp] theorem State.complete_flagsHeld (s : State) (d : Desc) (st a b : Nat) : (s.complete d st a b).flagsHeld = s.flagsHeld := State.completeAt_flagsHeld ..
@[simp] theorem State.completeAt_caddy (s : State) (d : Desc) (t st a b : Nat) : (s.completeAt d t st a b).caddy = s.caddy := by unfold State.completeAt; simp only [State.settleRing_caddy, State.markAt_caddy]; split <;> simp
@[simp] theorem State.complete_caddy (s : State) (d : Desc) (st a b : Nat) : (s.complete d st a b).caddy = s.caddy := State.completeAt_caddy ..
@[simp] theorem State.completeAt_caddySt (s : State) (d : Desc) (t st a b : Nat) : (s.completeAt d t st a b).caddySt = s.caddySt := by unfold State.completeAt; simp only [State.settleRing_caddySt, State.markAt_caddySt]; split <;> simp
@[simp] theorem State.complete_caddySt (s : State) (d : Desc) (st a b : Nat) : (s.complete d st a b).caddySt = s.caddySt := State.completeAt_caddySt ..
@[simp] theorem State.completeAt_fmt (s : State) (d : Desc) (t st a b : Nat) : (s.completeAt d t st a b).fmt = s.fmt := by unfold State.completeAt; simp only [State.settleRing_fmt, State.markAt_fmt]; split <;> simp
@[simp] theorem State.complete_fmt (s : State) (d : Desc) (st a b : Nat) : (s.complete d st a b).fmt = s.fmt := State.completeAt_fmt ..
@[simp] theorem State.completeAt_num (s : State) (d : Desc) (t st a b : Nat) : (s.completeAt d t st a b).num = s.num := by unfold State.completeAt; simp only [State.settleRing_num, State.markAt_num]; split <;> simp
@[simp] theorem State.complete_num (s : State) (d : Desc) (st a b : Nat) : (s.complete d st a b).num = s.num := State.completeAt_num ..
@[simp] theorem State.completeAt_gov (s : State) (d : Desc) (t st a b : Nat) : (s.completeAt d t st a b).gov = s.gov := by unfold State.completeAt; simp only [State.settleRing_gov, State.markAt_gov]; split <;> simp
@[simp] theorem State.complete_gov (s : State) (d : Desc) (st a b : Nat) : (s.complete d st a b).gov = s.gov := State.completeAt_gov ..
@[simp] theorem State.completeAt_experts (s : State) (d : Desc) (t st a b : Nat) : (s.completeAt d t st a b).experts = s.experts := by unfold State.completeAt; simp only [State.settleRing_experts, State.markAt_experts]; split <;> simp
@[simp] theorem State.complete_experts (s : State) (d : Desc) (st a b : Nat) : (s.complete d st a b).experts = s.experts := State.completeAt_experts ..
@[simp] theorem State.completeAt_lnk (s : State) (d : Desc) (t st a b : Nat) : (s.completeAt d t st a b).lnk = s.lnk := by unfold State.completeAt; simp only [State.settleRing_lnk, State.markAt_lnk]; split <;> simp
@[simp] theorem State.complete_lnk (s : State) (d : Desc) (st a b : Nat) : (s.complete d st a b).lnk = s.lnk := State.completeAt_lnk ..
@[simp] theorem State.completeAt_chk (s : State) (d : Desc) (t st a b : Nat) : (s.completeAt d t st a b).chk = s.chk := by unfold State.completeAt; simp only [State.settleRing_chk, State.markAt_chk]; split <;> simp
@[simp] theorem State.complete_chk (s : State) (d : Desc) (st a b : Nat) : (s.complete d st a b).chk = s.chk := State.completeAt_chk ..
@[simp] theorem State.completeAt_adopt (s : State) (d : Desc) (t st a b : Nat) : (s.completeAt d t st a b).adopt = s.adopt := by unfold State.completeAt; simp only [State.settleRing_adopt, State.markAt_adopt]; split <;> simp
@[simp] theorem State.complete_adopt (s : State) (d : Desc) (st a b : Nat) : (s.complete d st a b).adopt = s.adopt := State.completeAt_adopt ..
@[simp] theorem State.completeAt_boot (s : State) (d : Desc) (t st a b : Nat) : (s.completeAt d t st a b).boot = s.boot := by unfold State.completeAt; simp only [State.settleRing_boot, State.markAt_boot]; split <;> simp
@[simp] theorem State.complete_boot (s : State) (d : Desc) (st a b : Nat) : (s.complete d st a b).boot = s.boot := State.completeAt_boot ..
@[simp] theorem State.completeAt_flash (s : State) (d : Desc) (t st a b : Nat) : (s.completeAt d t st a b).flash = s.flash := by unfold State.completeAt; simp only [State.settleRing_flash, State.markAt_flash]; split <;> simp
@[simp] theorem State.complete_flash (s : State) (d : Desc) (st a b : Nat) : (s.complete d st a b).flash = s.flash := State.completeAt_flash ..
@[simp] theorem State.completeAt_power (s : State) (d : Desc) (t st a b : Nat) : (s.completeAt d t st a b).power = s.power := by unfold State.completeAt; simp only [State.settleRing_power, State.markAt_power]; split <;> simp
@[simp] theorem State.complete_power (s : State) (d : Desc) (st a b : Nat) : (s.complete d st a b).power = s.power := State.completeAt_power ..
@[simp] theorem State.completeAt_meas (s : State) (d : Desc) (t st a b : Nat) : (s.completeAt d t st a b).meas = s.meas := by unfold State.completeAt; simp only [State.settleRing_meas, State.markAt_meas]; split <;> simp
@[simp] theorem State.complete_meas (s : State) (d : Desc) (st a b : Nat) : (s.complete d st a b).meas = s.meas := State.completeAt_meas ..
@[simp] theorem State.completeAt_spdm (s : State) (d : Desc) (t st a b : Nat) : (s.completeAt d t st a b).spdm = s.spdm := by unfold State.completeAt; simp only [State.settleRing_spdm, State.markAt_spdm]; split <;> simp
@[simp] theorem State.complete_spdm (s : State) (d : Desc) (st a b : Nat) : (s.complete d st a b).spdm = s.spdm := State.completeAt_spdm ..
@[simp] theorem State.completeAt_side (s : State) (d : Desc) (t st a b : Nat) : (s.completeAt d t st a b).side = s.side := by unfold State.completeAt; simp only [State.settleRing_side, State.markAt_side]; split <;> simp
@[simp] theorem State.complete_side (s : State) (d : Desc) (st a b : Nat) : (s.complete d st a b).side = s.side := State.completeAt_side ..
@[simp] theorem State.completeAt_freeIx (s : State) (d : Desc) (t st a b : Nat) : (s.completeAt d t st a b).freeIx = s.freeIx := by unfold State.completeAt; simp only [State.settleRing_freeIx, State.markAt_freeIx]; split <;> simp
@[simp] theorem State.complete_freeIx (s : State) (d : Desc) (st a b : Nat) : (s.complete d st a b).freeIx = s.freeIx := State.completeAt_freeIx ..

/-- A completed descriptor is no longer taken, and no other is dropped (R399, R400). -/
theorem State.completeAt_descs (s : State) (d : Desc) (t st a b : Nat) : (s.completeAt d t st a b).host.descs = s.host.descs.filter (fun q => q.order != d.order) := by
  unfold State.completeAt
  simp only [State.settleRing_descs, State.markAt_host]
  split <;> simp [State.setRing]

/-! ### The device bus -/

/-- A REDUCE_BAD changes the checker's counters alone (R346, R352). -/
theorem State.reduceBad_only (s : State) : { s.reduceBad with chk := s.chk } = s := rfl

/-- A FAULT of the checker changes the recorder alone (R352). -/
theorem State.checkFault_only (s : State) (st a b : Nat) : { s.checkFault st a b with trace := s.trace } = s := State.markAt_only ..

/-- A bus write changes device memory, the post lines or the checker's queue, or records a bad write; nothing else (R329, R346, R364). -/
theorem State.devWrite_only (s : State) (sp : Space) (a : Nat) (ds : List PByte) (add : Bool) :
    { s.devWrite sp a ds add with mem := s.mem, lnk := s.lnk, chk := s.chk, trace := s.trace } = s := by
  unfold State.devWrite
  split
  · simp only []
    split
    · split
      · rfl
      · exact congrArg (fun q : State => { q with mem := s.mem, lnk := s.lnk, chk := s.chk }) (State.checkFault_only s.reduceBad 0x82 0 0)
    · rfl
  · split <;> rfl

@[simp] theorem State.devWrite_pending (s : State) (sp : Space) (a : Nat) (ds : List PByte) (add : Bool) : (s.devWrite sp a ds add).pending = s.pending := by have h := congrArg State.pending (State.devWrite_only s sp a ds add); exact h
@[simp] theorem State.devWrite_clk (s : State) (sp : Space) (a : Nat) (ds : List PByte) (add : Bool) : (s.devWrite sp a ds add).clk = s.clk := by have h := congrArg State.clk (State.devWrite_only s sp a ds add); exact h
@[simp] theorem State.devWrite_time (s : State) (sp : Space) (a : Nat) (ds : List PByte) (add : Bool) : (s.devWrite sp a ds add).time = s.time := by have h := congrArg State.time (State.devWrite_only s sp a ds add); exact h
@[simp] theorem State.devWrite_pace (s : State) (sp : Space) (a : Nat) (ds : List PByte) (add : Bool) : (s.devWrite sp a ds add).pace = s.pace := by have h := congrArg State.pace (State.devWrite_only s sp a ds add); exact h
@[simp] theorem State.devWrite_legRegs (s : State) (sp : Space) (a : Nat) (ds : List PByte) (add : Bool) : (s.devWrite sp a ds add).legRegs = s.legRegs := by have h := congrArg State.legRegs (State.devWrite_only s sp a ds add); exact h
@[simp] theorem State.devWrite_series (s : State) (sp : Space) (a : Nat) (ds : List PByte) (add : Bool) : (s.devWrite sp a ds add).series = s.series := by have h := congrArg State.series (State.devWrite_only s sp a ds add); exact h
@[simp] theorem State.devWrite_groups (s : State) (sp : Space) (a : Nat) (ds : List PByte) (add : Bool) : (s.devWrite sp a ds add).groups = s.groups := by have h := congrArg State.groups (State.devWrite_only s sp a ds add); exact h
@[simp] theorem State.devWrite_conds (s : State) (sp : Space) (a : Nat) (ds : List PByte) (add : Bool) : (s.devWrite sp a ds add).conds = s.conds := by have h := congrArg State.conds (State.devWrite_only s sp a ds add); exact h
@[simp] theorem State.devWrite_plan (s : State) (sp : Space) (a : Nat) (ds : List PByte) (add : Bool) : (s.devWrite sp a ds add).plan = s.plan := by have h := congrArg State.plan (State.devWrite_only s sp a ds add); exact h
@[simp] theorem State.devWrite_pages (s : State) (sp : Space) (a : Nat) (ds : List PByte) (add : Bool) : (s.devWrite sp a ds add).pages = s.pages := by have h := congrArg State.pages (State.devWrite_only s sp a ds add); exact h
@[simp] theorem State.devWrite_cores (s : State) (sp : Space) (a : Nat) (ds : List PByte) (add : Bool) : (s.devWrite sp a ds add).cores = s.cores := by have h := congrArg State.cores (State.devWrite_only s sp a ds add); exact h
@[simp] theorem State.devWrite_flagsHeld (s : State) (sp : Space) (a : Nat) (ds : List PByte) (add : Bool) : (s.devWrite sp a ds add).flagsHeld = s.flagsHeld := by have h := congrArg State.flagsHeld (State.devWrite_only s sp a ds add); exact h
@[simp] theorem State.devWrite_caddy (s : State) (sp : Space) (a : Nat) (ds : List PByte) (add : Bool) : (s.devWrite sp a ds add).caddy = s.caddy := by have h := congrArg State.caddy (State.devWrite_only s sp a ds add); exact h
@[simp] theorem State.devWrite_caddySt (s : State) (sp : Space) (a : Nat) (ds : List PByte) (add : Bool) : (s.devWrite sp a ds add).caddySt = s.caddySt := by have h := congrArg State.caddySt (State.devWrite_only s sp a ds add); exact h
@[simp] theorem State.devWrite_fmt (s : State) (sp : Space) (a : Nat) (ds : List PByte) (add : Bool) : (s.devWrite sp a ds add).fmt = s.fmt := by have h := congrArg State.fmt (State.devWrite_only s sp a ds add); exact h
@[simp] theorem State.devWrite_num (s : State) (sp : Space) (a : Nat) (ds : List PByte) (add : Bool) : (s.devWrite sp a ds add).num = s.num := by have h := congrArg State.num (State.devWrite_only s sp a ds add); exact h
@[simp] theorem State.devWrite_gov (s : State) (sp : Space) (a : Nat) (ds : List PByte) (add : Bool) : (s.devWrite sp a ds add).gov = s.gov := by have h := congrArg State.gov (State.devWrite_only s sp a ds add); exact h
@[simp] theorem State.devWrite_experts (s : State) (sp : Space) (a : Nat) (ds : List PByte) (add : Bool) : (s.devWrite sp a ds add).experts = s.experts := by have h := congrArg State.experts (State.devWrite_only s sp a ds add); exact h
@[simp] theorem State.devWrite_adopt (s : State) (sp : Space) (a : Nat) (ds : List PByte) (add : Bool) : (s.devWrite sp a ds add).adopt = s.adopt := by have h := congrArg State.adopt (State.devWrite_only s sp a ds add); exact h
@[simp] theorem State.devWrite_host (s : State) (sp : Space) (a : Nat) (ds : List PByte) (add : Bool) : (s.devWrite sp a ds add).host = s.host := by have h := congrArg State.host (State.devWrite_only s sp a ds add); exact h
@[simp] theorem State.devWrite_boot (s : State) (sp : Space) (a : Nat) (ds : List PByte) (add : Bool) : (s.devWrite sp a ds add).boot = s.boot := by have h := congrArg State.boot (State.devWrite_only s sp a ds add); exact h
@[simp] theorem State.devWrite_flash (s : State) (sp : Space) (a : Nat) (ds : List PByte) (add : Bool) : (s.devWrite sp a ds add).flash = s.flash := by have h := congrArg State.flash (State.devWrite_only s sp a ds add); exact h
@[simp] theorem State.devWrite_power (s : State) (sp : Space) (a : Nat) (ds : List PByte) (add : Bool) : (s.devWrite sp a ds add).power = s.power := by have h := congrArg State.power (State.devWrite_only s sp a ds add); exact h
@[simp] theorem State.devWrite_meas (s : State) (sp : Space) (a : Nat) (ds : List PByte) (add : Bool) : (s.devWrite sp a ds add).meas = s.meas := by have h := congrArg State.meas (State.devWrite_only s sp a ds add); exact h
@[simp] theorem State.devWrite_spdm (s : State) (sp : Space) (a : Nat) (ds : List PByte) (add : Bool) : (s.devWrite sp a ds add).spdm = s.spdm := by have h := congrArg State.spdm (State.devWrite_only s sp a ds add); exact h
@[simp] theorem State.devWrite_side (s : State) (sp : Space) (a : Nat) (ds : List PByte) (add : Bool) : (s.devWrite sp a ds add).side = s.side := by have h := congrArg State.side (State.devWrite_only s sp a ds add); exact h
@[simp] theorem State.devWrite_outbox (s : State) (sp : Space) (a : Nat) (ds : List PByte) (add : Bool) : (s.devWrite sp a ds add).outbox = s.outbox := by have h := congrArg State.outbox (State.devWrite_only s sp a ds add); exact h
@[simp] theorem State.devWrite_freeIx (s : State) (sp : Space) (a : Nat) (ds : List PByte) (add : Bool) : (s.devWrite sp a ds add).freeIx = s.freeIx := by have h := congrArg State.freeIx (State.devWrite_only s sp a ds add); exact h

/-- A run written to a memory keeps bytes and poison canonical (R364 to R367). -/
theorem pmWrite_wf (b : Mem Byte) (p : Mem Bool) (a : Nat) (ds : List PByte) (hb : mwf 0 b = true) (hp : mwf false p = true) :
    mwf 0 (pmWrite b p a ds).1 = true ∧ mwf false (pmWrite b p a ds).2 = true := by
  refine ⟨mwf_msetRun 0 _ _ _ hb, ?_⟩
  simp only [pmWrite, iter]
  generalize (if ds.isEmpty then 0 else (a + ds.length - 1) / 4 - a / 4 + 1) = n
  suffices h : ∀ (l : List Nat) (q : Mem Bool), mwf false q = true →
      mwf false (l.foldl (fun x j => mset false x (a / 4 + j) (poisonAfter (mget false p (a / 4 + j)) (a / 4 + j) a ds)) q) = true from h _ _ hp
  intro l
  induction l with
  | nil => intro q hq; exact hq
  | cons j l ih => intro q hq; exact ih _ (mwf_mset false q _ _ hq)

/-- A bus write keeps device memory canonical. -/
theorem State.devWrite_canonical (s : State) (sp : Space) (a : Nat) (ds : List PByte) (add : Bool) (h : s.mem.canonical = true) :
    (s.devWrite sp a ds add).mem.canonical = true := by
  unfold State.devWrite
  split
  · simp only []
    split
    · split
      · exact h
      · have e := congrArg State.mem (State.checkFault_only s.reduceBad 0x82 0 0)
        exact (congrArg DevMem.canonical e).trans h
    · exact h
  · split
    · exact h
    · simp only [DevMem.canonical, Bool.and_eq_true] at h ⊢
      obtain ⟨⟨⟨h1, h2⟩, h3⟩, h4⟩ := h
      cases sp
      · exact ⟨⟨⟨(pmWrite_wf _ _ _ _ h1 h3).1, h2⟩, (pmWrite_wf _ _ _ _ h1 h3).2⟩, h4⟩
      · exact ⟨⟨⟨h1, (pmWrite_wf _ _ _ _ h2 h4).1⟩, h3⟩, (pmWrite_wf _ _ _ _ h2 h4).2⟩

/-- A core-store write keeps the store canonical and changes nothing else of the core (R240, R367). -/
theorem Core.csWrite_only (k : Core) (a : Nat) (ds : List PByte) : { k.csWrite a ds with store := k.store, storePoison := k.storePoison } = k := rfl

theorem Core.csWrite_canonical (k : Core) (a : Nat) (ds : List PByte) (h : k.storeCanonical = true) : (k.csWrite a ds).storeCanonical = true := by
  simp only [Core.storeCanonical, Bool.and_eq_true] at h ⊢
  exact pmWrite_wf _ _ _ _ h.1 h.2

end Sys2Proof.Machine
end

