-- ==== Sys2Proof/Laws/Flow.lean ====
section
/-! SUPPORT. What a cycle of the leaf array changes of its core, and what the clocks change of the module while the arrays run. -/

namespace Sys2Proof.Machine

/-! ### The array's part of a core -/

theorem Core.arrayOnly_refl (k : Core) : k.arrayOnly k := rfl

theorem Core.arrayOnly_trans {k x y : Core} (h : k.arrayOnly x) (g : x.arrayOnly y) : k.arrayOnly y := by
  unfold Core.arrayOnly at *
  rw [← h, ← g]

theorem Core.arrayOnly_ite {k x y : Core} (p : Prop) [Decidable p] (h : k.arrayOnly x) (g : k.arrayOnly y) : k.arrayOnly (if p then x else y) := by
  split
  · exact h
  · exact g

/-- Folding operations that each change the array's part alone. -/
theorem Core.arrayOnly_foldl {α : Type} (f : Core → α → Core) (hf : ∀ (x : Core) a, x.arrayOnly (f x a)) (l : List α) :
    ∀ k : Core, k.arrayOnly (l.foldl f k) := by
  induction l with
  | nil => exact Core.arrayOnly_refl
  | cons a l ih => intro k; exact Core.arrayOnly_trans (hf k a) (ih (f k a))

theorem Core.arrayOnly_iter (n : Nat) (f : Nat → Core → Core) (hf : ∀ i (x : Core), x.arrayOnly (f i x)) (k : Core) : k.arrayOnly (iter n f k) :=
  Core.arrayOnly_foldl (fun x i => f i x) (fun x i => hf i x) _ k

theorem Core.arrayOnly_count {k x : Core} (h : k.arrayOnly x) (o n : Nat) : k.arrayOnly (x.count o n) := h

theorem Core.arrayOnly_setFlow (k : Core) (f : Flow) : k.arrayOnly (k.setFlow f) := rfl

theorem Core.arrayOnly_counts {k x : Core} (h : k.arrayOnly x) (l : List (Nat × Nat)) : k.arrayOnly (x.counts l) :=
  Core.arrayOnly_trans h (Core.arrayOnly_foldl (fun (y : Core) (p : Nat × Nat) => y.count p.1 p.2) (fun y p => Core.arrayOnly_count (Core.arrayOnly_refl y) p.1 p.2) l x)

theorem Core.arrayOnly_potSet (k : Core) (i : Nat) (v : PWord) : k.arrayOnly (k.potSet i v) := rfl

theorem Core.arrayOnly_potAdd (k : Core) (i : Nat) (v : PWord) : k.arrayOnly (k.potAdd i v) :=
  Core.arrayOnly_count (Core.arrayOnly_potSet ..) ..

theorem Core.arrayOnly_potApply (k : Core) (set : Bool) (i : Nat) (vs : List PWord) : k.arrayOnly (k.potApply set i vs) := by
  refine Core.arrayOnly_count (Core.arrayOnly_foldl _ (fun x p => ?_) _ k) ..
  cases set
  · exact Core.arrayOnly_potAdd ..
  · exact Core.arrayOnly_potSet ..

theorem Core.arrayOnly_potPassOp (k : Core) (o : Op) : k.arrayOnly (k.potPassOp o) := by
  unfold Core.potPassOp; split <;> rfl

theorem Core.arrayOnly_loadPlane (k : Core) (bad : List Nat) (pt : Part) (code sparse cc p a : Nat) :
    k.arrayOnly (k.loadPlane bad pt code sparse cc p a) := by
  have hc : ∀ (x : Core) row col v po, x.arrayOnly (x.loadCell bad code p row col v po) := fun _ _ _ _ _ => rfl
  have hi : ∀ (x : Core) cc n a, x.arrayOnly (x.loadIndices bad pt cc n p a) := by
    intro x cc n a
    refine Core.arrayOnly_iter _ _ (fun r y => Core.arrayOnly_iter _ _ (fun j z => ?_) y) x
    simp only []
    split <;> rfl
  have he : ∀ (x : Core) cc n a, x.arrayOnly (x.loadExps bad pt cc n p a) := by
    intro x cc n a
    refine Core.arrayOnly_iter _ _ (fun r y => Core.arrayOnly_iter _ _ (fun j z => ?_) y) x
    simp only []
    split <;> rfl
  have hk : ∀ (x : Core) m, k.arrayOnly x → k.arrayOnly { x with modes := m } := fun _ _ h => h
  unfold Core.loadPlane
  simp only []
  apply hk
  have h1 : k.arrayOnly (k.freshWords bad pt code sparse cc p) := rfl
  generalize k.freshWords bad pt code sparse cc p = k0 at *
  have h2 := Core.arrayOnly_trans h1 (Core.arrayOnly_iter pt.h (fun r x => iter pt.w (fun c y =>
      if c < cc then
        y.loadCell bad code p (pt.row0 + r) (pt.col0 + c)
          ((((List.range (lanesOf code)).map (fun l => k.csElem (a + r * rowBytes code (cc * lanesOf code)) ((l * cc + c) * fmtBits code) (fmtBits code))).zipIdx 0).map (fun e => e.1.1 * 2 ^ (4 * e.2))).sum
          (((List.range (lanesOf code)).map (fun l => k.csElem (a + r * rowBytes code (cc * lanesOf code)) ((l * cc + c) * fmtBits code) (fmtBits code))).any (·.2))
      else y.loadCell bad code p (pt.row0 + r) (pt.col0 + c) 0 false) x)
    (fun r x => Core.arrayOnly_iter _ _ (fun c y => by split <;> exact hc ..) x) k0)
  generalize (iter pt.h _ k0) = k1 at *
  split
  · split
    · exact Core.arrayOnly_trans h2 (he ..)
    · exact Core.arrayOnly_trans h2 (Core.arrayOnly_trans (hi ..) (he ..))
  · split
    · exact h2
    · exact Core.arrayOnly_trans h2 (hi ..)

/-! ### One cycle (R88 to R101) -/

theorem Core.arrayOnly_poison (k : Core) (n st : Nat) : k.arrayOnly (k.poisonCounts n st) := rfl

theorem Core.arrayOnly_writeRun (k : Core) (o : Op) (r : QRun) : k.arrayOnly (k.writeRun o r) := by
  unfold Core.writeRun
  simp only []
  refine Core.arrayOnly_count ?_ ..
  split
  · rfl
  · split
    · exact Core.arrayOnly_potApply ..
    · rfl

theorem Core.arrayOnly_drainOne (k : Core) (x p : Nat) : k.arrayOnly (k.drainOne x p) := by
  unfold Core.drainOne
  split
  · rfl
  · split
    · rfl
    · split
      · rfl
      · split
        · exact Core.arrayOnly_trans (x := { k with drains := mset [] k.drains p _ }) rfl (Core.arrayOnly_writeRun ..)
        · rfl

theorem Core.arrayOnly_shiftOne (k : Core) (f : Flow) : k.arrayOnly (k.shiftOne f) := by
  unfold Core.shiftOne
  split
  · rfl
  · split
    · rfl
    · split
      · rfl
      · split
        · exact Core.arrayOnly_trans (x := k.setFlow _) rfl (Core.arrayOnly_count (Core.arrayOnly_potApply ..) ..)
        · rfl

theorem Core.arrayOnly_drainStep (k : Core) (x : Nat) : k.arrayOnly (k.drainStep x) :=
  Core.arrayOnly_trans (Core.arrayOnly_foldl _ (fun y p => Core.arrayOnly_drainOne y x p) _ k)
    (Core.arrayOnly_foldl _ (fun y f => Core.arrayOnly_shiftOne y f) _ _)

theorem Core.arrayOnly_loadStep (k : Core) (w : Nat) (bad : List Nat) (x : Nat) : k.arrayOnly (k.loadStep w bad x) := by
  unfold Core.loadStep
  split
  · rfl
  · split
    · rfl
    · simp only []
      split
      · rfl
      · split
        · split <;> rfl
        · split
          · rfl
          · have he : ∀ (y : Core) id st, k.arrayOnly y → k.arrayOnly (y.arrayEnded id st x) := fun _ _ _ h => h
            have hl : ∀ (y : Core) l, k.arrayOnly y → k.arrayOnly { y with load := l } := fun _ _ h => h
            have hp : ∀ (y : Core) n st, k.arrayOnly y → k.arrayOnly (y.poisonCounts n st) := fun _ _ _ h => h
            have h1 : ∀ q : Prop, ∀ (_ : Decidable q) (y : Core), k.arrayOnly y → k.arrayOnly (if q then y else k) := by
              intro q _ y h; split
              · exact h
              · rfl
            split
            · exact he _ _ _ (hp _ _ _ (hl _ _ (Core.arrayOnly_count (h1 _ _ _ (Core.arrayOnly_loadPlane ..)) ..)))
            · exact hl _ _ (Core.arrayOnly_count (h1 _ _ _ (Core.arrayOnly_loadPlane ..)) ..)

theorem Core.arrayOnly_endFlow (k : Core) (f : Flow) (st x : Nat) : k.arrayOnly (k.endFlow f st x) := by
  unfold Core.endFlow
  simp only []
  have he : ∀ (y : Core) id st, k.arrayOnly y → k.arrayOnly (y.arrayEnded id st x) := fun _ _ _ h => h
  have hp : ∀ (y : Core) n st, k.arrayOnly y → k.arrayOnly (y.poisonCounts n st) := fun _ _ _ h => h
  refine he _ _ _ (hp _ _ _ (Core.arrayOnly_trans ?_ (Core.arrayOnly_potPassOp ..)))
  rfl

theorem Core.arrayOnly_issueToken (k : Core) (bad : List Nat) (f : Flow) (pt : Part) (t : Nat) : k.arrayOnly (k.issueToken bad f pt t) :=
  Core.arrayOnly_counts (Core.arrayOnly_counts (Core.arrayOnly_setFlow ..) _) _

theorem Core.arrayOnly_issueSums (k : Core) (bad : List Nat) (f : Flow) (pt : Part) (i : Nat) : k.arrayOnly (k.issueSums bad f pt i) :=
  Core.arrayOnly_counts (Core.arrayOnly_counts (Core.arrayOnly_setFlow ..) _) _

theorem Core.arrayOnly_issueRow (k : Core) (w : Nat) (bad : List Nat) (x id : Nat) : k.arrayOnly (k.issueRow w bad x id) := by
  unfold Core.issueRow
  split
  · rfl
  · split
    · split
      · exact Core.arrayOnly_issueToken ..
      · exact Core.arrayOnly_ite _ (Core.arrayOnly_issueSums ..) (Core.arrayOnly_endFlow ..)
    · rfl

theorem Core.arrayOnly_arrive (k : Core) (w x : Nat) (f : Flow) : k.arrayOnly (k.arrive w x f) := by
  unfold Core.arrive
  simp only []
  split
  · rfl
  · split <;> rfl

theorem Core.arrayOnly_ports (k : Core) (w : Nat) (bad : List Nat) (x : Nat) : k.arrayOnly (k.ports w bad x) := by
  have hf : ∀ (y : Core) q, k.arrayOnly y → k.arrayOnly { y with flows := q } := fun _ _ h => h
  exact hf _ _ (Core.arrayOnly_trans (Core.arrayOnly_trans (Core.arrayOnly_count (Core.arrayOnly_refl k) _ _) (Core.arrayOnly_drainStep ..)) (Core.arrayOnly_loadStep ..))

theorem Core.arrayOnly_advanceRows (k : Core) (w : Nat) (bad : List Nat) (x : Nat) : k.arrayOnly (k.advanceRows w bad x) := by
  have hn : ∀ (y : Core) n, k.arrayOnly y → k.arrayOnly { y with adv := n } := fun _ _ h => h
  exact Core.arrayOnly_count (hn _ _ (Core.arrayOnly_trans (Core.arrayOnly_foldl _ (fun y f => Core.arrayOnly_arrive y w x f) _ _)
    (Core.arrayOnly_foldl _ (fun y id => Core.arrayOnly_issueRow y w bad x id) _ _))) _ _

theorem Core.arrayOnly_endIfDone (k : Core) (x : Nat) (f : Flow) : k.arrayOnly (k.endIfDone x f) := by
  unfold Core.endIfDone
  exact Core.arrayOnly_ite _ (Core.arrayOnly_endFlow ..) (Core.arrayOnly_ite _ (Core.arrayOnly_potPassOp ..) rfl)

/-- A cycle of the array changes the array's part of its core alone. -/
theorem Core.arrayCycle_only (w : Nat) (bad : List Nat) (x : Nat) (hold : Bool) (k : Core) : k.arrayOnly (Core.arrayCycle w bad x hold k) := by
  have hf : ∀ y : Core, k.arrayOnly y → k.arrayOnly (y.fillAll x) := fun _ h => h
  have h := hf _ (Core.arrayOnly_ports k w bad x)
  exact Core.arrayOnly_trans
    (Core.arrayOnly_ite _ (Core.arrayOnly_ite _ h (Core.arrayOnly_count h _ _))
      (Core.arrayOnly_ite _ (Core.arrayOnly_counts h _)
        (Core.arrayOnly_ite _ (Core.arrayOnly_counts h _) (Core.arrayOnly_trans h (Core.arrayOnly_advanceRows ..)))))
    (Core.arrayOnly_foldl _ (fun y f => Core.arrayOnly_endIfDone y x f) _ _)

/-! ### The clocks -/

/-- While the arrays run, every core changes its array's part alone. -/
theorem State.runArrays_core (s : State) (n c : Nat) : (s.core c).arrayOnly ((s.runArrays n).core c) := by
  unfold State.runArrays
  split
  · rfl
  suffices h : ∀ (l : List Nat) (t : State), (t.core c = s.core c ∨ (s.core c).arrayOnly (t.core c)) →
      (s.core c).arrayOnly ((l.foldl (fun t d => t.setCore d (iter n (fun j k => s.arrayCycle d (s.cycles + j) k) (s.core d))) t).core c) from h _ s (.inl rfl)
  intro l
  induction l with
  | nil => intro t h; rcases h with h | h
           · rw [List.foldl_nil, h]; rfl
           · exact h
  | cons d l ih =>
    intro t h
    refine ih _ (.inr ?_)
    by_cases hd : c = d
    · subst hd
      rw [State.core_setCore_self]
      exact Core.arrayOnly_iter n _ (fun j k => Core.arrayCycle_only ..) _
    · rw [State.core_setCore_ne _ _ _ _ hd]
      rcases h with h | h
      · rw [h]; rfl
      · exact h

/-- The clocks' advance changes every core's array part alone (R265). -/
theorem State.advance_core (s : State) (d c : Nat) : (s.core c).arrayOnly ((s.advance d).core c) := State.runArrays_core s _ c

@[simp] theorem State.advance_now (s : State) (d : Nat) : (s.advance d).time.now = s.time.now + d := by
  simp [State.advance, State.clocks]
@[simp] theorem State.advance_ns (s : State) (d : Nat) : (s.advance d).clk.ns = s.clk.ns + d := by
  simp [State.advance, State.clocks]

theorem State.toTime_now (s : State) (t : Nat) : (s.toTime t).time.now = max s.time.now t := by
  simp only [State.toTime, State.advance_now]; omega

theorem State.toTime_core (s : State) (t c : Nat) : (s.core c).arrayOnly ((s.toTime t).core c) := State.advance_core ..

/-- Time moved on changes the clocks and what the arrays do meanwhile. -/
theorem State.advance_only (s : State) (d : Nat) : s.onlyClock (s.advance d) := by
  refine ⟨?_, ?_⟩
  · exact congrArg (fun q : State => { q with time := s.time, clk := s.clk, power := s.power }) (State.runArrays_only s _)
  · rw [State.advance_now, State.toTime, Nat.add_sub_cancel_left]

theorem State.advance_zero (s : State) : s.advance 0 = s := by
  have h : s.clocks 0 = s := by simp [State.clocks]
  unfold State.advance
  rw [h, Nat.sub_self]
  exact h

theorem State.toTime_only (s : State) (t : Nat) : s.onlyClock (s.toTime t) := State.advance_only ..

theorem State.onlyClock_refl (s : State) : s.onlyClock s := ⟨rfl, by rw [State.toTime, Nat.sub_self, State.advance_zero]⟩

theorem State.toCycle_only (s : State) (n : Nat) : s.onlyClock (s.toCycle n) := by
  unfold State.toCycle
  split
  · exact State.onlyClock_refl s
  · exact State.advance_only ..

/-- The clocks' way to a cycle changes every core's array part alone. -/
theorem State.toCycle_core (s : State) (n c : Nat) : (s.core c).arrayOnly ((s.toCycle n).core c) := by
  unfold State.toCycle
  split
  · rfl
  · exact State.advance_core ..

/-- Where no core has an array operation in hand, the clocks change nothing of any core. -/
theorem State.runArrays_idle (s : State) (n : Nat) (h : ∀ p ∈ s.cores, p.2.arrayIdle = true) : s.runArrays n = s := by
  have : s.cores.filter (fun p => !p.2.arrayIdle) = [] := List.filter_eq_nil_iff.mpr (fun p hp => by simp [h p hp])
  unfold State.runArrays
  split
  · rfl
  · rw [this]; rfl

end Sys2Proof.Machine
end

