-- ==== Sys2Proof/Laws/Engine.lean ====
section
/-! SUPPORT. What the shared operations of the engines can do: an operation found at the head of its queue,
started and ended, a stream meeting a failure, a request translated. -/

namespace Sys2Proof.Machine

/-! ### Operations (R131, R264, R265, R267) -/

/-- What an operation that an engine may start is: at the head of its queue with the opcode, the engine free, its unit and core on. -/
theorem State.head_spec (s : State) (c : Nat) (e : Eng) (opc : Nat) (o : Op) (h : s.head c e opc = some o) :
    (∃ r, (s.core c).queue e = o :: r) ∧ o.opc = opc ∧ ((s.core c).unitOf e = .on ∨ (s.core c).unitOf e = .gatePending)
      ∧ (s.core c).running e = [] ∧ (s.core c).potTurn o = true ∧ (s.core c).power = .on := by
  unfold State.head at h
  simp only [] at h
  split at h
  · simp at h
  · rename_i q r hq
    split at h
    · rename_i hc
      simp only [Option.some.injEq] at h
      subst h
      simp only [Bool.and_eq_true, Bool.or_eq_true, beq_iff_eq, List.isEmpty_iff] at hc
      obtain ⟨⟨⟨⟨h1, h2⟩, h3⟩, h4⟩, h5⟩ := hc
      exact ⟨⟨r, hq⟩, h1, h2, h3, h4, h5⟩
    · simp at h

theorem Core.potPassOp_head (k k' : Core) (o : Op) (h : k.potHead = k'.potHead) (g : k.potDone = k'.potDone) :
    (k.potPassOp o).potHead = (k'.potPassOp o).potHead := by
  unfold Core.potPassOp
  split
  · exact h
  · simp only [Core.potPass, h, g]

/-- What starting an operation changes of its core: its queue, its engine, and the pot ticket served. -/
theorem Core.start_spec (k : Core) (e : Eng) (o : Op) (now st cy : Nat) (vs : List Nat) (w : Bool) (dm : Nat) :
    let k' := k.start e o now st cy vs w dm
    k'.queue e = (k.queue e).filter (fun q => q.id != o.id)
      ∧ (∀ d, d ≠ e → k'.queue d = k.queue d ∧ k'.running d = k.running d)
      ∧ (∃ r ∈ k'.running e, r = { op := o, status := st, cycles := cy, started := o.startAt now, vals := vs, waitHost := w, dirMode := dm })
      ∧ k'.potHead = (k.potPassOp o).potHead
      ∧ (∀ f, k'.stream f = k.stream f) ∧ k'.store = k.store ∧ k'.storePoison = k.storePoison ∧ k'.pot = k.pot ∧ k'.planes = k.planes
      ∧ k'.stats = k.stats ∧ k'.kettle = k.kettle ∧ k'.caddy = k.caddy ∧ k'.ctrs = k.ctrs ∧ k'.sems = k.sems ∧ k'.program = k.program
      ∧ k'.counters = k.counters ∧ k'.power = k.power := by
  refine ⟨by simp [Core.start], fun d h => ?_, ?_, ?_, by simp [Core.start], ?_⟩
  · simp [Core.start, Core.queue_setQueue_ne _ _ _ _ h, Core.running_setRunning_ne _ _ _ _ h]
  · exact ⟨_, by cases e <;> simp [Core.start, Core.setRunning, Core.running], rfl⟩
  · simp only [Core.start, Core.setRunning_potHead]
    exact Core.potPassOp_head _ _ _ (by simp) (by simp)
  · simp [Core.start]

/-- The statement form of a start: the operation is taken off its queue and runs. -/
theorem Core.start_took (k : Core) (e : Eng) (o : Op) (now st cy : Nat) (vs : List Nat) (w : Bool) (dm : Nat) :
    k.took (k.start e o now st cy vs w dm) e o st cy := by
  obtain ⟨h1, h2, ⟨r, hr, h3⟩, h4, h5, -, -, -, -, -, -, -, h6, h7, h8, -, -⟩ := Core.start_spec k e o now st cy vs w dm
  exact ⟨h1, h2, ⟨r, hr, by subst h3; exact ⟨rfl, rfl, rfl⟩⟩, h4, h5, h6, h7, h8⟩

/-! ### Failures (R270, R271) -/

/-- A failure leaves a stream's registers and PC, and keeps the first status since STREAM_STATUS was read. -/
theorem Stream.fail_spec (x : Stream) (st pc : Nat) :
    let y := x.fail st pc
    y.regs = x.regs ∧ y.pc = x.pc ∧ y.lcs = x.lcs ∧ y.sums = x.sums ∧ y.status = (if x.status = 0 then st else x.status)
      ∧ y.statusPc = (if x.status = 0 then pc else x.statusPc) ∧ (y.phase = x.phase ∨ y.phase = .stopped) := by
  simp only [Stream.fail]
  by_cases h : x.status = 0 <;> simp only [h, if_true, if_false] <;> split <;> (try split) <;> simp_all

/-- A status that the sequencer raises stops a stream that runs, whatever ON_STATUS holds. -/
theorem Stream.fail_stops (x : Stream) (st pc : Nat) (h : 0x70 ≤ st ∧ st ≤ 0x74) (hr : x.phase = .running) : (x.fail st pc).phase = .stopped := by
  simp only [Stream.fail, h.1, h.2, and_self, decide_true, Bool.not_true, Bool.and_false, Bool.false_eq_true, if_false]
  by_cases hs : x.status = 0 <;> simp [hs, hr]

/-- The FAULT waymark of a failure changes the recorder alone. -/
@[simp] theorem State.seqFault_cores (s : State) (c : Nat) (f : StreamId) (st opc pc : Nat) : (s.seqFault c f st opc pc).cores = s.cores := State.mark_cores ..
theorem State.seqFault_only (s : State) (c : Nat) (f : StreamId) (st opc pc : Nat) : { s.seqFault c f st opc pc with trace := s.trace } = s :=
  State.markAt_only ..

/-- The end of an operation changes its core's record and the recorder alone. -/
theorem State.endOp_only (s : State) (c : Nat) (e : Eng) (r : Running) : { s.endOp c e r with cores := s.cores, trace := s.trace } = s := by
  unfold State.endOp
  simp only []
  generalize (match r.op.onend with | none => _ | some (i, n) => _ : Core) = k2
  split
  · exact congrArg (fun q : State => { q with cores := s.cores }) (State.seqFault_only _ c r.op.stream r.status r.op.opc r.op.pc)
  · rfl

theorem State.endOp_core_ne (s : State) (c d : Nat) (e : Eng) (r : Running) (h : d ≠ c) : (s.endOp c e r).core d = s.core d := by
  unfold State.endOp
  simp only []
  generalize (match r.op.onend with | none => _ | some (i, n) => _ : Core) = k2
  split
  · exact (congrArg (fun m => mget ({} : Core) m d) (State.seqFault_cores ..)).trans (State.core_setCore_ne s c d _ h)
  · exact State.core_setCore_ne s c d _ h

/-! ### Requests (R255, R258) -/

/-- A request changes its core's translation cache and its own counts; it stops at the first failing check, and reads the table's
entry only where the cache does not hold it. -/
theorem MemRun.request_spec (m : MemRun) (va : Nat) (k : Acc) :
    let q := m.request va k
    let res : Sum Nat (Nat × Nat) :=
      if (tlbTouch (m.st.core m.core).tlb (va / 2097152)).2 && m.st.entryBad (va / 2097152) then .inl 0x67 else m.st.pageCheck va k
    q.1.st.mem = m.st.mem ∧ q.1.st.outbox = m.st.outbox ∧ q.1.st.groups = m.st.groups ∧ (∀ d, d ≠ m.core → q.1.st.core d = m.st.core d)
      ∧ q.1.core = m.core ∧ q.1.host = m.host
      ∧ (m.fault ≠ none → q = (m, none))
      ∧ (m.fault = none → (∀ e, res = .inl e → q.1.fault = some (e, va) ∧ q.2 = none) ∧ ∀ r, res = .inr r → q.1.fault = none ∧ q.2 = some r) := by
  simp only []
  unfold MemRun.request
  cases hf : m.fault with
  | some a => simp [hf]
  | none =>
    simp only []
    generalize ((tlbTouch (m.st.core m.core).tlb (va / 2097152)).2 && m.st.entryBad (va / 2097152)) = bad
    cases bad
    · cases hx : m.st.pageCheck va k <;> (simp [hx]; exact fun d hd => State.core_updCore_ne _ _ _ _ hd)
    · simp

end Sys2Proof.Machine
end

