-- ==== Sys2Proof/Laws/Links.lean ====
section
/-! SUPPORT. What the shared operations of the links can do: a sync block sent, forwarded, originated and heard, a link block, flits
offered and sent. Each changes the links and the outbox, and nothing else but what its lemma names. -/

namespace Sys2Proof.Machine

/-- The state but for the links and the outbox. -/
def State.onlyLinks (s t : State) : Prop := { t with lnk := s.lnk, outbox := s.outbox } = s

theorem State.onlyLinks_refl (s : State) : s.onlyLinks s := rfl

theorem State.onlyLinks_trans {s t u : State} (h : s.onlyLinks t) (g : t.onlyLinks u) : s.onlyLinks u := by
  unfold State.onlyLinks at *
  rw [← h, ← g]

theorem State.onlyLinks_emit (s : State) (o : Output) : s.onlyLinks (s.emit o) := by
  have h := State.emit_only s o
  exact (congrArg (fun q : State => { q with lnk := s.lnk }) h)

/-- Folding operations that each change the links and the outbox alone. -/
theorem State.onlyLinks_foldl {α : Type} (f : State → α → State) (hf : ∀ (t : State) a, t.onlyLinks (f t a)) (l : List α) :
    ∀ s : State, s.onlyLinks (l.foldl f s) := by
  induction l with
  | nil => exact State.onlyLinks_refl
  | cons a l ih => intro s; exact State.onlyLinks_trans (hf s a) (ih (f s a))

/-- A block sent in a direction (R325). -/
theorem State.sendDir_only (s : State) (d : Nat) (x : Sync) : s.onlyLinks (s.sendDir d x) := by
  unfold State.sendDir
  split
  · exact State.onlyLinks_refl s
  · split
    · exact State.onlyLinks_emit ..
    · generalize (if d % 2 = 0 then d + 1 else d - 1) = back
      simp only []
      split
      · exact State.onlyLinks_emit ..
      · exact State.onlyLinks_refl s

/-- A block sent both ways in a dimension (R325). -/
theorem State.sendBoth_only (s : State) (d : Nat) (x : Sync) (p m : Nat) : s.onlyLinks (s.sendBoth d x p m) := by
  unfold State.sendBoth
  simp only []
  split
  · exact State.onlyLinks_trans (State.sendDir_only ..) (State.sendDir_only ..)
  · split
    · exact State.sendDir_only ..
    · exact State.sendDir_only ..

/-- A symbol forwarded (R325). -/
theorem State.forward_only (s : State) (l : Nat) (x : Sync) : s.onlyLinks (s.forward l x) := by
  unfold State.forward
  simp only []
  split
  · exact State.onlyLinks_refl s
  · exact State.onlyLinks_trans (State.sendDir_only ..) (State.onlyLinks_foldl _ (fun t e => State.sendBoth_only t e _ _ _) _ _)

/-- A symbol originated into a box (R325). -/
theorem State.originate_only (s : State) (lo n : Nat → Nat) (x : Sync) : s.onlyLinks (s.originate lo n x) := by
  unfold State.originate
  simp only []
  refine State.onlyLinks_trans (t := { s with lnk := { s.lnk with symbolId := (s.lnk.symbolId + 1) % 65536 } }) rfl ?_
  exact State.onlyLinks_foldl _ (fun t d => State.sendBoth_only t d _ _ _) _ _

/-- A sync block is taken on a link that carries it when its CRC is good and its origin's number has not been seen; it is then
noted and captured (R317, R323, R324, R326). -/
theorem State.syncIn_spec (s : State) (l : Nat) (b : Block) :
    (s.syncIn l b = none ↔ ¬ s.hears l b)
      ∧ ∀ x t, s.syncIn l b = some (x, t) → x = syncOf b ∧ (x.origin, x.id) ∈ t.lnk.seen ∧ { t with lnk := s.lnk, trace := s.trace } = s
        ∧ t.lnk.links = s.lnk.links ∧ t.lnk.ctrl = s.lnk.ctrl := by
  unfold State.syncIn State.hears
  simp only []
  split
  · rename_i h
    refine ⟨⟨fun _ hx => ?_, fun _ => rfl⟩, fun x t ht => by simp at ht⟩
    simp only [Bool.or_eq_true, Bool.not_eq_true', List.contains_iff_mem] at h
    rcases h with (h | h) | h
    · exact absurd hx.1 (by simp [h])
    · exact absurd hx.2.1 (by simp [h])
    · exact hx.2.2 h
  · rename_i h
    simp only [Bool.or_eq_true, Bool.not_eq_true', List.contains_iff_mem, not_or, Bool.not_eq_false] at h
    refine ⟨⟨fun hn => by simp at hn, fun hn => absurd ⟨h.1.1, h.1.2, h.2⟩ hn⟩, fun x t ht => ?_⟩
    simp only [Option.some.injEq, Prod.mk.injEq] at ht
    obtain ⟨rfl, rfl⟩ := ht
    refine ⟨rfl, List.mem_append_right _ (List.mem_singleton.mpr rfl), ?_, ?_, ?_⟩
    · exact congrArg (fun q : State => { q with lnk := s.lnk }) (State.captureIn_only s 5 l 0 b.toNat [])
    · have h5 := congrArg LinkSys.links (State.captureIn_lnk s 5 l 0 b.toNat []); exact h5
    · have h5 := congrArg LinkSys.ctrl (State.captureIn_lnk s 5 l 0 b.toNat []); exact h5

/-- A discarded copy is counted on its link. -/
theorem State.syncLost_only (s : State) (l : Nat) : s.onlyLinks (s.syncLost l) := by
  unfold State.syncLost; split <;> rfl

/-- An ACK or a NAK of the module's own; the credits it grants draw one free word (R321). -/
theorem State.linkBlock_only (s : State) (l k q : Nat) : ({ s with freeIx := s.freeIx + 1 } : State).onlyLinks (s.linkBlock l k q) := by
  unfold State.linkBlock
  simp only []
  refine State.onlyLinks_trans (t := { s with freeIx := s.freeIx + 1, lnk := { s.lnk with symbolId := (s.lnk.symbolId + 1) % 65536 } }) rfl ?_
  exact State.onlyLinks_emit ..

/-- A flit sent (R320 to R322). -/
theorem State.sendOne_only (s : State) (l : Nat) : s.onlyLinks (s.sendOne l) := by
  unfold State.sendOne
  simp only []
  split
  · exact State.onlyLinks_refl s
  · split
    · exact State.onlyLinks_refl s
    · exact State.onlyLinks_trans (t := s.updLink l _) rfl (State.onlyLinks_emit ..)

theorem State.pump_only (s : State) (l : Nat) : s.onlyLinks (s.pump l) :=
  State.onlyLinks_foldl _ (fun t _ => State.sendOne_only t l) _ s

/-- A flit offered to the links of a direction (R322, R328). -/
theorem State.offer_only (s t : State) (d : Nat) (b : Bool) (f : TxFlit) (h : s.offer d b f = some t) : s.onlyLinks t := by
  unfold State.offer at h
  simp only [] at h
  split at h
  · simp only [Option.some.injEq] at h; subst h; exact State.onlyLinks_refl s
  · split at h
    · simp at h
    · simp only [Option.some.injEq] at h
      subst h
      exact State.onlyLinks_trans (t := s.updLink _ _) rfl (State.pump_only ..)

end Sys2Proof.Machine
end

