-- ==== Sys2Proof/Tests/Slice0.lean ====
section
/-! SUPPORT. Tests: an ill-formed command for each check of WellFormed, and for each statement of Certificates/Slice0 concrete
states and operands that meet the hypotheses of its clauses. Expected values are worked out by hand from the spec's rules. -/

namespace Sys2Proof.Tests
open Sys2Proof Sys2Proof.Machine

/-! ### Well-formed commands -/

theorem test_wf_defect_ranges :
    Instr.wf (.startupTestDone { sites := [{ core := 0, blocks := 1024, cols := [] }], bridges := [], links := [], ports := [], devices := [] }) = false
    ∧ Instr.wf (.startupTestDone { sites := [{ core := 0, blocks := 0, cols := [132] }], bridges := [], links := [], ports := [], devices := [] }) = false
    ∧ Instr.wf (.cpTestDone { sites := [], bridges := [4], links := [], ports := [], devices := [] }) = false
    ∧ Instr.wf (.cpTestDone { sites := [], bridges := [], links := [(24, 0)], ports := [], devices := [] }) = false
    ∧ Instr.wf (.cpTestDone { sites := [], bridges := [], links := [(0, 5)], ports := [], devices := [] }) = false
    ∧ Instr.wf (.cpTestDone { sites := [], bridges := [], links := [], ports := [24], devices := [] }) = false
    ∧ Instr.wf (.cpTestDone { sites := [], bridges := [], links := [], ports := [], devices := [23] }) = false
    ∧ Instr.wf (.cpTestDone { sites := [{ core := 0, blocks := 1023, cols := [131] }], bridges := [3], links := [(23, 4)], ports := [23], devices := [22] }) = true := by decide

/-! ### A small state -/

/-- A module in READY with every core site usable, its stacks and no other memory device present, and core 0's record. -/
def ready (k : Core) : State :=
  { boot := { st := .ready, inReset := false }
    side := { trayRstN := true, perstN := true }
    plan := { valid := true }
    power := { railsOn := true }
    cores := mset {} [] 0 k }

/-- A powered core whose forward stream stands at the first word of a program: a leg table of one entry, then the words. -/
def running (ws : List W64) : Core :=
  { power := .on, program := some { words := msetRun 0 [] 9 ws, len := 9 + ws.length, legCycle := 1 }, fwd := { phase := .running, pc := 9 } }

/-- A control word: opcode, SD, SA, SB, COND, AUX and IMM at the bits of R266. -/
def ctl (op sd sa sb cond aux imm : Nat) : W64 :=
  BitVec.ofNat 64 (imm * 2 ^ 32 + op * 2 ^ 24 + sd * 2 ^ 20 + sa * 2 ^ 16 + sb * 2 ^ 12 + cond * 2 ^ 8 + aux)

set_option maxRecDepth 20000 in
theorem test_wf_operands :
    Instr.wf (.programChunk 0 0 (List.replicate 513 0) 0) = false ∧ Instr.wf (.programChunk 0 0 (List.replicate 512 0) 0) = true
    ∧ Instr.wf (.dataFlit 0 0 (List.replicate 121 (0, false)) none) = false ∧ Instr.wf (.dataFlit 0 0 (List.replicate 120 (0, false)) none) = true
    ∧ Instr.wf (.scrub 0 0 [1] [1] false) = false ∧ Instr.wf (.scrub 0 0 [1] [2] false) = true ∧ Instr.wf (.memoryTrainingDone []) = false
    ∧ Instr.wf (.memoryTrainingDone (List.replicate 20 .full)) = true ∧ Instr.wf (.sbRead 0 257) = false ∧ Instr.wf (.sbRead 0 256) = true := by decide

/-! ### The sequencer (10): hypotheses met, clause by clause -/

/-- What a control word with only an opcode, AUX and IMM gives. -/
def bare (op aux imm : Nat) : Ctl := { op := op, sd := 0, sa := 0, sb := 0, cond := 0, aux := aux, imm := imm }

theorem test_hyps_seq_register :
    (∀ op ∈ [0x80, 0x81, 0x82, 0x83, 0x85, 0x88, 0x89, 0x8A, 0x94, 0x95], ((ready (running [ctl op 0 0 0 0 0 0])).core 0).fetch .fwd = .ctl (bare op 0 0))
    ∧ (∀ f ∈ streams, (((ready (running [])).core 0).stream f).next ≤ (ready (running [])).cycles) ∧ (ready (running [])).clk.stopped = false := by decide

theorem test_hyps_seq_branches :
    (running [ctl 0x84 0 0 0 2 0 9]).fetch .fwd = .ctl { bare 0x84 0 9 with cond := 2 }
    ∧ (running [ctl 0x84 0 0 0 0 0 9]).fetch .fwd = .ctl (bare 0x84 0 9) ∧ (running [ctl 0x84 0 0 0 0 0 10]).fetch .fwd = .ctl (bare 0x84 0 10)
    ∧ (running [ctl 0x84 0 0 0 0 0 9]).program.map (·.len) = some 10
    ∧ ({ running [ctl 0x86 0 0 0 0 1 9] with fwd := { phase := .running, pc := 9, lcs := [(1, 1)] } } : Core).fetch .fwd = .ctl (bare 0x86 1 9)
    ∧ (running [ctl 0x86 0 0 0 0 1 10]).fetch .fwd = .ctl (bare 0x86 1 10) := by decide

theorem test_hyps_seq_counters :
    (∀ op ∈ [0x8D, 0x8E, 0x8F, 0x90, 0x92], (running [ctl op 0 0 0 0 0 0]).fetch .fwd = .ctl (bare op 0 0))
    ∧ (running [ctl 0x8E 0 0 0 0 0 1]).fetch .fwd = .ctl (bare 0x8E 0 1) ∧ ((running []).ctrAt 0 0).toNat < 1
    ∧ ({ running [ctl 0x8F 0 0 0 0 0 0] with sems := [(0, 0xFFFF)] } : Core).fetch .fwd = .ctl (bare 0x8F 0 0)
    ∧ ({ running [ctl 0x90 0 0 0 0 0 0] with sems := [(0, 1)] } : Core).fetch .fwd = .ctl (bare 0x90 0 0)
    ∧ ({ running [ctl 0x90 0 0 0 0 0 0] with sems := [(0, 1)] } : Core).semAhead 0 0 .fwd < (({ running [] with sems := [(0, 1)] } : Core).semAt 0 0).avail
    ∧ ((running [ctl 0x90 0 0 0 0 0 0]).semAt 0 0).avail ≤ (running [ctl 0x90 0 0 0 0 0 0]).semAhead 0 0 .fwd
    ∧ (∀ e ∈ [Eng.array, .merge, .vec, .row, .acc], (running [ctl 0x92 0 0 0 0 0 0]).streamBusy .fwd e = false) ∧ (running [ctl 0x92 0 0 0 0 0 0]).inCycle (anyEnd .fwd) 0 = false
    ∧ ({ running [] with lately := [(anyEnd .fwd, 1)] } : Core).inCycle (anyEnd .fwd) 0 = true ∧ (∀ g ∈ streams, (running []).wantsSem 0 0 g = false)
    ∧ (mget (0, 0) (running []).ctrPast 0).1 ≠ 0 + 1 ∧ (mget {} (running []).semPast 0).cyc ≠ 0 + 1 := by decide

/-- An operation on an engine's queue: an opcode and some fields, each at its byte offset and first bit (R264). -/
def opOf (n opc : Nat) (fs : List (Nat × Nat × Nat)) : Op :=
  let w (b : Nat) : W32 := BitVec.ofNat 32 (((fs.filter (fun x => x.1 == b)).map (fun x => x.2.2 * 2 ^ x.2.1)).sum)
  { id := n, stream := .fwd, pc := 9, words := [w 0 + BitVec.ofNat 32 (opc * 2 ^ 24), w 4, w 8, w 12, w 16, w 20, w 24, w 28], ticket := none, onend := none, issued := 0, seed := 0 }

/-- A powered core. -/
def on : Core := { power := .on }

theorem test_hyps_seq_summaries :
    (∀ op ∈ [0x8B, 0x8C, 0x91, 0x93], (running [ctl op 0 0 0 0 0 0]).fetch .fwd = .ctl (bare op 0 0))
    ∧ (∀ aux ∈ [0, 0x50, 0x51], (running [ctl 0x87 0 0 0 0 aux 0]).fetch .fwd = .ctl (bare 0x87 aux 0))
    ∧ (running []).latestBusy .fwd (sumEng 0) 0 = false ∧ ({ running [] with arrayQ := [opOf 0 1 []] } : Core).latestBusy .fwd (sumEng 0) 0 = true
    ∧ ({ running [ctl 0x8B 0 0 0 0 0 0] with fwd := { phase := .running, pc := 9, onend := some (0, 0) } } : Core).fetch .fwd = .ctl (bare 0x8B 0 0)
    ∧ ({ running [ctl 0x8C 0 0 0 0 0 0] with fwd := { phase := .running, pc := 9, patches := List.replicate 4 ⟨0, 0, 1, 0⟩ } } : Core).fetch .fwd = .ctl (bare 0x8C 0 0)
    ∧ ((running []).unit .vec).st = .on ∧ (2 : Nat).testBit 1 = true ∧ (running []).inCycle Eng.vec.num 0 = false ∧ (running []).inCycle Eng.array.num 0 = false
    ∧ ({ running [] with lately := [(Eng.array.num, 1)] } : Core).inCycle Eng.array.num 0 = true := by decide

/-- A state in which core 0 takes part in an active BARRIER group 0 and has arrived there. -/
def barrier (k : Core) : State :=
  { ready { k with arrivals := [(0, { rounds := 0, sems := [3] })] } with groups := [(0, { active := true, barrier := true, cores := [0] })] }

theorem test_hyps_barrier :
    ((barrier (running [])).group 0).active = true ∧ ((barrier (running [])).group 0).barrier = true ∧ ((barrier (running [])).group 0).cores = [0]
    ∧ (mget ({} : Arrivals) ((barrier (running [])).core 0).arrivals 0).sems = [3]
    ∧ ((barrier (running [ctl 0x91 0 0 0 0 0 0])).core 0).fetch .fwd = .ctl (bare 0x91 0 0) := by decide

theorem test_barrier_round :
    ∃ t, exec (.barrierRound 0) (barrier (running [])) = .next t ∧ mget 0 (t.core 0).sems 3 = 1 := by
  exact ⟨_, rfl, by decide⟩

theorem test_hyps_seq_fetch :
    (running []).fetch .fwd = .fail 0x71 0
    ∧ ({ running [0] with program := some { words := [], bad := [(9, true)], len := 10, legCycle := 1 } } : Core).fetch .fwd = .fail 0x74 0
    ∧ (running [0x01000000]).fetch .fwd = .fail 0x71 1
    ∧ (running (0x01000000 :: List.replicate 8 0)).fetch .fwd = .eng 1
    ∧ ({ running [] with program := some { words := [(9, 0x01000000)], bad := [(10, true)], len := 20, legCycle := 1 } } : Core).fetch .fwd = .fail 0x74 1
    ∧ (running [0]).fetch .fwd = .fail 0x70 0 ∧ (running [0x80000001]).fetch .fwd = .fail 0x70 0x80
    ∧ ({ running [ctl 0x80 0 0 0 0 0 0] with fwd := { phase := .running, pc := 9, onend := some (0, 0) } } : Core).fetch .fwd = .fail 0x70 0x80
    ∧ (on.fetch .fwd = .none) := by decide

theorem test_hyps_seq_issue :
    (running (0x01000000 :: List.replicate 8 0)).queueFull .array 0 = false ∧ engOf 1 = some .array
    ∧ ({ running [] with arrayQ := List.replicate 16 (opOf 0 1 []) } : Core).queueFull .array 0 = true
    ∧ opWords 1 ≤ 8 ∧ (⟨0, 0, 1, 0⟩ : Patch).word < opWords 1 ∧ opWords 1 ≤ (⟨15, 0, 1, 0⟩ : Patch).word
    ∧ (running (0x01000000 :: List.replicate 8 0)).inCycle Eng.array.num 0 = false ∧ (running (0x01000000 :: List.replicate 8 0)).inCycle potArb 0 = false
    ∧ (∀ g ∈ streams, g ≠ .fwd → (running (0x01000000 :: List.replicate 8 0)).request 0 g = none)
    ∧ (({ running (0x01000000 :: List.replicate 8 0) with upd := { phase := .running, pc := 9 } } : Core).request 0 .upd).map (·.1) = some .array
    ∧ rankOf 2 .upd < rankOf 2 .fwd
    ∧ (∃ t o, exec (.engineOpIssue 0 .fwd) (ready (running (0x01000000 :: List.replicate 8 0))) = .next t ∧ (t.core 0).arrayQ = [o] ∧ o.pc = 9) := by
  refine ⟨by decide, by decide, by decide, by decide, by decide, by decide, by decide, by decide, by decide, by decide, by decide, _, _, rfl, rfl, by decide⟩

/-- A stream that waits for a cycle which cannot come, since the clock is stopped. -/
theorem test_hyps_seq_stands :
    ¬ ({ ready { running [] with fwd := { phase := .running, pc := 9, next := 1 } } with clk := { stopped := true } } : State).mayRun 0 .fwd
    ∧ (running []).fwd.phase = .running := by
  refine ⟨?_, by decide⟩
  unfold State.mayRun
  decide

theorem test_hyps_power_domains :
    ((ready { on with uArray := { st := .shuttingDown } }).core 0).unit .array = { st := .shuttingDown }
    ∧ ((ready { on with uVec := { st := .poweringUp } }).core 0).unit .vec = { st := .poweringUp } ∧ (ready on).clk.stopped = false
    ∧ (ready on).coreOk 0 = true ∧ ((ready on).core 0).power = .on ∧ ((ready on).core 0).program = none
    ∧ ((ready { power := .poweringUp }).core 0).power = .poweringUp ∧ ((ready { power := .shuttingDown }).core 0).power = .shuttingDown ∧ (ready on).power.settleNs = 0 ∧ (running []).program ≠ none := by decide

/-- A broadcast of an image of one chunk of ten words to core 0, which has made `n` tries and lacks its chunk. -/
def sending (n : Nat) (good : List (Nat × Nat)) : State :=
  { ready (running []) with host := { broadcast := some { order := 0, image := [], len := 10, legCycle := 1, chunks := 1, targets := [0], good := good, tries := n } } }

theorem test_hyps_broadcast :
    (sending 1 []).host.broadcast.map (·.missing) = some [0] ∧ (sending 3 []).host.broadcast.map (·.tries) = some 3
    ∧ (sending 1 [(0, 0)]).host.broadcast.map (·.missing) = some [] ∧ ((sending 1 []).core 0).power = .on
    ∧ ((sending 1 []).core 0).program.isSome = true ∧ (List.replicate 10 (0 : W64)).length = min 512 (10 - 512 * 0)
    ∧ mgetRun (0 : W64) [] (512 * 0) (min 512 (10 - 512 * 0)) = List.replicate 10 0 := by decide

set_option maxRecDepth 20000 in
/-- CRC-32C of nothing is 0, so the CRC of an empty image chunk is not 1. -/
theorem test_broadcast_crc : crc32c [] = 0 ∧ crc32c [] ≠ 1 ∧ crc32c [0x31, 0x32, 0x33, 0x34, 0x35, 0x36, 0x37, 0x38, 0x39] = 0xE3069283 := by decide

/-! ### The array (03, 04, 06) -/

/-- A dense ARRAY_LOAD of one plane of FP8 with one column. -/
def load1 : Op := opOf 0 1 [(0, 0, 1), (4, 0, 1)]

/-- A feed of one row, one element wide, to the core store or to the pot, or one in GATHER mode that waits for one slot (R97, R104). -/
def feed1 (dest gat : Nat) : Op :=
  opOf 0 2 [(0, 10, dest), (0, 7, gat), (4, 16, 1), (4, 8, 1), (4, 0, 1), (16, 0, 1), (28, 16, 1), (28, 0, 1), (24, 24, gat), (24, 16, gat), (24, 0, 5)]

/-- A reverse of one row, one element wide, and an ARRAY_WGRAD of one row and a tile of one value. -/
def rev1 : Op := opOf 0 3 [(4, 16, 1), (4, 8, 1), (4, 0, 1), (16, 0, 1), (28, 16, 1), (28, 0, 1)]
def wgrad1 : Op := opOf 0 4 [(4, 16, 1), (16, 16, 1), (16, 8, 1)]

/-- A state whose array has one operation waiting. -/
def arr (o : Op) : State := ready { on with arrayQ := [o] }

theorem test_hyps_array_loads :
    (arr load1).arrayHead 0 1 = some load1 ∧ ((arr load1).core 0).loadStatus 128 load1 = 0 ∧ load1.f 4 30 2 = 0 ∧ load1.f 0 16 4 = 0
    ∧ (arr (opOf 0 1 [])).arrayHead 0 1 = some (opOf 0 1 []) ∧ ((arr (opOf 0 1 [])).core 0).loadStatus 128 (opOf 0 1 []) = 0x23
    ∧ (Core.opPart load1 128).isSome = true ∧ (arr load1).width 0 = 128 := by decide

/-- A dense load at its last write of its one column: 31 of the 32 writes of four rows are made. -/
def loading1 : Core :=
  { on with load := some { op := load1, check := 0, verdict := 0, writing := true, done := 31, poison := false }
            arrayRun := [{ op := load1, status := 0, cycles := 1, started := 0, vals := [], waitHost := false, dirMode := 0 }] }
def loadEnds : State := { ready loading1 with clk := { milli := 1000 } }

theorem test_hyps_array_load_end :
    (loadEnds.core 0).load.map (·.op) = some load1 ∧ 31 + 1 = load1.f 0 0 8 * (128 / 4) ∧ load1.issued < loadEnds.cycles ∧ (loadEnds.core 0).flows = []
    ∧ (loadEnds.core 0).drains = [] ∧ (loadEnds.core 0).arrayQ = [] ∧ loadEnds.clk.stopped = false ∧ loadEnds.width 0 = 128 ∧ 0 < load1.f 0 0 8
    ∧ (Core.opPart load1 128).map (·.h) = some 128 ∧ mwf {} loadEnds.cores = true := by decide

set_option maxRecDepth 20000 in
theorem test_hyps_array_feeds :
    (∀ d < 2, (arr (feed1 d 0)).arrayHead 0 2 = some (feed1 d 0) ∧ ((arr (feed1 d 0)).core 0).feedStatus 128 (feed1 d 0) false = 0 ∧ (feed1 d 0).f 0 10 2 ≠ 2)
    ∧ (arr rev1).arrayHead 0 3 = some rev1 ∧ ((arr rev1).core 0).feedStatus 128 rev1 true = 0 ∧ (Core.opPart rev1 128).isSome = true
    ∧ (arr (opOf 0 2 [])).arrayHead 0 2 = some (opOf 0 2 []) ∧ ((arr (opOf 0 2 [])).core 0).feedStatus 128 (opOf 0 2 []) false = 0x21
    ∧ (arr (opOf 0 3 [])).arrayHead 0 3 = some (opOf 0 3 []) ∧ ((arr (opOf 0 3 [])).core 0).feedStatus 128 (opOf 0 3 []) true = 0x21
    ∧ (opOf 0 2 []).opc = 2 ∧ (opOf 0 3 []).opc = 3 ∧ (arr rev1).pourLimit 0 0 = 64 := by decide

set_option maxRecDepth 20000 in
theorem test_hyps_array_wgrad :
    (arr wgrad1).arrayHead 0 4 = some wgrad1 ∧ ((arr wgrad1).core 0).wgradStatus 128 wgrad1 = 0 ∧ (Core.opPart wgrad1 128).isSome = true
    ∧ ((arr (opOf 0 4 [])).core 0).wgradStatus 128 (opOf 0 4 []) = 0x21 ∧ (arr (opOf 0 4 [])).arrayHead 0 4 = some (opOf 0 4 [])
    ∧ (ready { on with arrayQ := [wgrad1], flags := [(0, true)] }).arrayHead 0 4 = some wgrad1 := by decide

set_option maxRecDepth 20000 in
theorem test_hyps_array_gather :
    (arr (feed1 0 1)).arrayHead 0 2 = some (feed1 0 1) ∧ ((arr (feed1 0 1)).core 0).feedStatus 128 (feed1 0 1) false = 0 ∧ (feed1 0 1).gathers = true
    ∧ (feed1 0 1).f 24 16 8 = 1 ∧ leNat ((((arr (feed1 0 1)).core 0).csRead 0 8).map (·.1)) = 0 := by decide

/-- A feed at its feeder, its row of a given number of formed runs in the array. -/
def flow1 (gat : Nat) (fl : List Flying) : Flow := { op := feed1 0 gat, sparse := 0, rows := 1, begun := gat == 0, flying := fl }

set_option maxRecDepth 20000 in
theorem test_hyps_array_sample :
    (flow1 1 []).op.gathers = true ∧ (flow1 1 []).issued < (flow1 1 []).rows ∧ (flow1 1 []).row = none ∧ (flow1 1 []).slots.Nodup
    ∧ ({ on with store := [(0, 1)] } : Core).readySlots (feed1 0 1) = [0] ∧ on.readySlots (feed1 0 1) = []
    ∧ (({ on with store := [(0, 1)] } : Core).sample 0 (flow1 1 [])).slots = [0] ∧ (on.sample 4 (flow1 1 [])).begun = false ∧ (on.sample 5 (flow1 1 [])).begun = true
    ∧ ({ on with flows := [flow1 1 []] } : Core).deadlines = [(flow1 1 [], 5)] := by decide

/-- A drain that holds four runs of the feed, one at its head and three behind it. -/
def fullDrain : List QRun := [0, 1, 2, 3].map (fun i => { opId := 0, run := i, vals := [], enter := 9, left := 1 })

set_option maxRecDepth 20000 in
theorem test_hyps_array_cycles :
    (({ on with flows := [flow1 0 [⟨0, 0, []⟩]], drains := [((feed1 0 0).place, fullDrain)] } : Core).ports 128 [] 5).holders ≠ []
    ∧ (({ on with flows := [{ flow1 0 [] with dry := [(0, 1)] }] } : Core).ports 128 [] 5).holders = []
    ∧ (({ on with flows := [{ flow1 0 [] with dry := [(0, 1)] }] } : Core).ports 128 [] 5).dryAt 128 5 = true
    ∧ (on.ports 128 [] 5).holders = [] ∧ (on.ports 128 [] 5).dryAt 128 5 = false ∧ (on.ports 128 [] 5).flows = []
    ∧ (ready on).pending = [] ∧ mwf {} (ready on).cores = true ∧ ((ready on).core 0).arrayIdle = true ∧ (loadEnds.core 0).arrayIdle = false := by decide

/-- An operation that has run, to end with a status. -/
def ran (o : Op) (st : Nat) (w : Bool) : Running := { op := o, status := st, cycles := 1, started := 0, vals := [], waitHost := w, dirMode := 0 }

theorem test_hyps_engine_end :
    ({ on with arrayRun := [ran load1 0 false] } : Core).arrayRun[0]? = some (ran load1 0 false) ∧ (ran load1 0x26 false).waitHost = false
    ∧ ({ on with arrayRun := [ran load1 0 false] } : Core).arrayRun.find? (fun q => q.op.id == 0) = some (ran load1 0 false)
    ∧ ({ on with arrayRun := [ran load1 0 false] } : Core).inHand 0 = false ∧ (ready on).lineHeld 0 0 = false
    ∧ ({ ready on with lnk := { postLines := [{ queue := 0, line := none, src := some (0, 0), held := true }] } } : State).lineHeld 0 0 = true
    ∧ (ran load1 0x67 true).waitHost = true ∧ (running []).fwd.phase = .running ∧ (running []).fwd.cont = false := by decide

/-- A load on the port of a partition that the array has not: nothing the array does ends it. -/
def stuck : LoadProg := { op := opOf 0 1 [(0, 20, 1)], check := 0, verdict := 0, writing := false, done := 0, poison := false }

/-- What stands in such a core. -/
def Stands (k : Core) : Prop := k.load = some stuck ∧ k.flows = [] ∧ k.drains = []

theorem stands_counts (l : List (Nat × Nat)) (k : Core) (h : Stands k) : Stands (k.counts l) := by
  induction l generalizing k with
  | nil => exact h
  | cons p l ih => exact ih (k.count p.1 p.2) h

theorem stands_cycle (bad : List Nat) (x : Nat) (hold : Bool) (k : Core) (h : Stands k) : Stands (Core.arrayCycle 128 bad x hold k) := by
  obtain ⟨h1, h2, h3⟩ := h
  have hp : Core.opPart stuck.op 128 = none := by decide
  have hq : Stands (k.ports 128 bad x) := by
    have : k.ports 128 bad x = k.count 0xE0 (k.idleChains x) := by
      simp [Core.ports, Core.drainStep, Core.loadStep, Core.count, h1, h2, h3, hp]
    rw [this]
    exact ⟨h1, h2, h3⟩
  have hf : Stands ((k.ports 128 bad x).fillAll x) := ⟨hq.1, by simp [Core.fillAll, hq.2.1], hq.2.2⟩
  have ha : Stands (((k.ports 128 bad x).fillAll x).advanceRows 128 bad x) := by
    obtain ⟨a1, a2, a3⟩ := hf
    have hd : ((k.ports 128 bad x).fillAll x).dueFlows x = [] := by simp [Core.dueFlows, a2]
    unfold Core.advanceRows
    rw [hd, a2]
    exact ⟨a1, a2, a3⟩
  have stop : ∀ y : Core, Stands y → Stands (y.flows.foldl (fun z f => z.endIfDone x f) y) := by
    intro y hy
    rw [hy.2.1]
    exact hy
  refine stop _ ?_
  split
  · split
    · exact hf
    · exact stands_counts [(0x18, 1)] _ hf
  · split
    · exact stands_counts _ _ hf
    · split
      · exact stands_counts _ _ hf
      · exact ha

/-- The module with such a load: its end does not come. -/
def waiting1 : State := ready { on with load := some stuck, arrayRun := [ran stuck.op 0 false] }

theorem test_hyps_array_waits : (waiting1.core 0).arrayRun[0]? = some (ran stuck.op 0 false) ∧ waiting1.toEnd 0 0 = none := by
  refine ⟨by decide, ?_⟩
  have key : ∀ (n j : Nat) (k : Core), Stands k → waiting1.endsIn 0 0 n j k = none := by
    intro n
    induction n with
    | zero => intro j k _; rfl
    | succ n ih =>
      intro j k h
      have hh : k.inHand 0 = true := by simp [Core.inHand, h.1, stuck, opOf]
      rw [State.endsIn, if_pos hh]
      exact ih _ _ (stands_cycle _ _ _ _ h)
  exact congrArg (Option.map _) (key (waiting1.core 0).arrayBound 0 (waiting1.core 0) ⟨rfl, rfl, rfl⟩)

/-! ### Vector chain, row engine, merge engine, access unit, caddy (04, 06 to 09) -/

/-- A VEC_RUN of one FP32 element from the core store to the core store, to the pot or nowhere; one that is fed from the drain. -/
def vec1 (out : Nat) : Op := opOf 0 0x20 [(0, 14, 8), (0, 18, out), (4, 0, 1), (8, 0, 1), (16, 0, 4), (12, 0, 2)]
def vecDrain : Op := opOf 0 0x20 [(0, 21, 1), (0, 14, 8), (4, 0, 1), (8, 0, 1), (16, 0, 4), (12, 0, 2)]

theorem test_hyps_vec :
    (∀ d ∈ [0, 1, 3], (ready { on with vecQ := [vec1 d] }).head 0 .vec 0x20 = some (vec1 d) ∧ (ready { on with vecQ := [vec1 d] }).vecStatic 0 (vec1 d) = 0)
    ∧ (ready { on with vecQ := [opOf 0 0x20 []] }).head 0 .vec 0x20 = some (opOf 0 0x20 []) ∧ (ready { on with vecQ := [opOf 0 0x20 []] }).vecStatic 0 (opOf 0 0x20 []) = 0x62
    ∧ (opOf 0 0x20 []).f 0 21 2 ≠ 1 ∧ (ready { on with vecQ := [vecDrain] }).head 0 .vec 0x20 = some vecDrain ∧ vecDrain.f 0 21 2 = 1
    ∧ (ready { on with vecQ := [vecDrain] }).vecStatic 0 vecDrain = 0
    ∧ (∀ w ∈ [none, some 5], ∀ b ∈ [false, true], ({ opId := 1, stream := .fwd, vecId := some 0, whole := w, failed := b } : Pair).vecId = some vecDrain.id) := by decide

/-- A VEC_RUN of one element-wise stage on one element, and a core whose store holds the stage's word: COPY, ADD, SUB or MUL. -/
def elem1 : Op := opOf 0 0x20 [(0, 20, 1), (0, 14, 8), (0, 10, 8), (4, 0, 1), (12, 0, 1), (12, 16, 2), (16, 0, 3)]
def elemCore (fn : Nat) : Core := { on with vecQ := [elem1], store := if fn = 0 then [(7, 1)] else [(6, 0x80), (7, BitVec.ofNat 8 (4 * fn + 1))] }

theorem test_hyps_vec_elementwise :
    (∀ fn < 4, (ready (elemCore fn)).head 0 .vec 0x20 = some elem1 ∧ (elemCore fn).storePoison = []
      ∧ leNat (((elemCore fn).csRead (64 * elem1.f 8 0 15) 8).map (·.1)) = fn * 2 ^ 58 + 2 ^ 56 + (if fn = 0 then 0 else 2 ^ 55))
    ∧ elem1.zeros [(0, 0, 3), (0, 3, 3), (0, 6, 3), (0, 18, 2), (0, 21, 2), (0, 23, 1), (4, 21, 11), (8, 15, 1), (12, 31, 1), (12, 15, 1), (16, 31, 1), (16, 15, 1), (24, 0, 32), (28, 31, 1), (28, 15, 1)] = true
    ∧ elem1.f 0 20 1 = 1 ∧ elem1.f 0 14 4 = 8 ∧ elem1.f 0 10 4 = 8 ∧ 0 < elem1.f 4 0 21 ∧ csOver 64 4 = false ∧ csOver 128 4 = false ∧ csOver 192 4 = false
    ∧ overlaps 192 4 64 4 = false ∧ overlaps 192 4 128 4 = false ∧ overlaps 192 4 0 64 = false := by decide

/-- A row operation of one FP32 row of one element, by its function. -/
def row1 (f : Nat) : Op :=
  opOf 0 0x24 [(0, 20, f), (0, 16, 8), (0, 12, 8), (0, 7, if f = 6 then 1 else 0), (4, 16, 1), (12, 0, 4), (12, 16, 8), (8, 16, 12), (28, 0, 16)]

theorem test_hyps_row :
    ∀ f < 9, (ready { on with rowQ := [row1 f] }).head 0 .row 0x24 = some (row1 f) ∧ (row1 f).rowFunc = f ∧ rowStatus (row1 f) = 0
      ∧ rowStatus (opOf 0 0x24 [(0, 20, f)]) ≠ 0 ∧ (opOf 0 0x24 [(0, 20, f)]).rowFunc = f := by decide

/-- A state whose merge engine has one operation waiting. -/
def mrg (o : Op) : State := ready { on with mergeQ := [o] }

/-- A GATHER or SCATTER of `n` positions with a core-store table of one row of one word; DUP_CHECK for a SCATTER of two. -/
def gs1 (opc n : Nat) : Op := opOf 0 opc [(0, 17, n - 1), (4, 16, n), (8, 0, 1), (8, 16, 2), (0xC, 0, 1), (0x10, 0, 256), (0x18, 0, 4)]

theorem test_hyps_gather_scatter :
    (mrg (gs1 0x30 1)).head 0 .merge 0x30 = some (gs1 0x30 1) ∧ gsStatus (gs1 0x30 1) = 0 ∧ ((mrg (gs1 0x30 1)).core 0).idxFault (gs1 0x30 1) = none
    ∧ (mrg (gs1 0x31 1)).head 0 .merge 0x31 = some (gs1 0x31 1) ∧ gsStatus (gs1 0x31 1) = 0 ∧ ((mrg (gs1 0x31 1)).core 0).dupAt (gs1 0x31 1) = none
    ∧ gsStatus (gs1 0x31 2) = 0 ∧ ((mrg (gs1 0x31 2)).core 0).dupAt (gs1 0x31 2) = some 1 ∧ ((mrg (gs1 0x31 2)).core 0).idxFault (gs1 0x31 2) = none
    ∧ gsStatus (opOf 0 0x30 []) = 0x51 ∧ gsStatus (opOf 0 0x31 []) = 0x51 := by decide

/-- A SPARSE_COMPRESS of one group and column, a BITMAP_PACK of one element, a BITMAP_DECODE of an empty header. -/
def sparse1 : Op := opOf 0 0x38 [(0, 0, 1), (0, 20, 1), (4, 0, 1), (8, 0, 1), (0xC, 0, 2)]
def pack1 : Op := opOf 0 0x39 [(8, 0, 1)]
def decode1 : Op := opOf 0 0x3A [(8, 0, 1)]

set_option maxRecDepth 20000 in
theorem test_hyps_sparse_bitmap :
    (mrg sparse1).head 0 .merge 0x38 = some sparse1 ∧ ((mrg sparse1).compressGo 0 sparse1).status = 0
    ∧ ((mrg (opOf 0 0x38 [])).compressGo 0 (opOf 0 0x38 [])).status = 0x4A
    ∧ (mrg pack1).head 0 .merge 0x39 = some pack1 ∧ ((mrg pack1).bitmapPackGo 0 pack1).status = 0
    ∧ ((mrg (opOf 0 0x39 [])).bitmapPackGo 0 (opOf 0 0x39 [])).status = 0x54
    ∧ (mrg decode1).head 0 .merge 0x3A = some decode1 ∧ ((mrg decode1).bitmapDecodeGo 0 decode1).status = 0x4C := by decide

/-- The same of a LAX compression, of a packing mode that never escapes, and of a header of one escaped element. -/
def sparseLax : Op := opOf 0 0x38 [(0, 0, 1), (0, 20, 1), (0, 22, 1), (4, 0, 1), (8, 0, 1), (0xC, 0, 2)]
def packEsc : Op := opOf 0 0x39 [(0, 16, 1), (8, 0, 1)]
def decodeEsc : Op := opOf 0 0x3A [(8, 0, 2)]
def tileCore : Core := { on with mergeQ := [decodeEsc], store := [(3, 0x80), (8, 2)] }

set_option maxRecDepth 20000 in
theorem test_hyps_sparse_bitmap_complete :
    (mrg sparseLax).head 0 .merge 0x38 = some sparseLax ∧ sparseLax.zeros [(0, 7, 9), (0, 23, 1), (4, 25, 7), (4, 9, 7), (8, 31, 1), (8, 15, 1), (0xC, 15, 17)] = true
    ∧ sparseLax.f 0 22 1 = 1 ∧ sparseLax.f 0 20 2 = 1 ∧ sparseLax.f 0 16 4 < 8 ∧ sparseLax.f 0 0 7 = 1 ∧ sparseLax.f 4 0 9 = 1 ∧ sparseLax.f 4 16 9 ≤ 1
    ∧ csOver 64 (4 * 1 * rowBytes 0 1) = false ∧ csOver 128 (lineUp (2 * rowBytes 0 1) + lineUp (cdiv 4 8)) = false
    ∧ overlaps 64 (4 * rowBytes 0 1) 128 (lineUp (2 * rowBytes 0 1) + lineUp (cdiv 4 8)) = false
    ∧ (mrg packEsc).head 0 .merge 0x39 = some packEsc ∧ packEsc.zeros [(0, 18, 4), (4, 15, 17), (8, 15, 17), (0xC, 0, 32)] = true ∧ packEsc.f 0 22 2 ≠ 3
    ∧ packEsc.f 0 16 2 = 1 ∧ csOver 0 (esizeBytes 0) = false ∧ csOver 64 (tileLd 1 1 (esizeBytes 0)) = false ∧ overlaps 0 (esizeBytes 0) 64 (tileLd 1 1 (esizeBytes 0)) = false
    ∧ (ready tileCore).head 0 .merge 0x3A = some decodeEsc ∧ tileCore.storePoison = []
    ∧ decodeEsc.zeros [(0, 0, 20), (0, 20, 2), (4, 31, 1), (4, 15, 1), (8, 31, 1), (8, 15, 1), (0xC, 0, 32)] = true
    ∧ (let h := tileCore.csNat 0 64
       fld h 0 31 1 = 1 ∧ fld h 0 29 2 = decodeEsc.f 0 22 2 ∧ decodeEsc.f 0 22 2 ≠ 3 ∧ popCount 256 (fld h 0x10 0 256) = fld h 8 16 16
         ∧ 64 * fld h 8 0 16 = tileLd (fld h 0 8 8 + 1) (fld h 0 0 8 + 1) (esizeBytes 0))
    ∧ csOver 0 (tileLd 1 1 (esizeBytes 0)) = false ∧ csOver 128 (esizeBytes 0) = false
    ∧ overlaps 0 (tileLd 1 1 (esizeBytes 0)) 128 (esizeBytes 0) = false := by decide

/-- A SEG_REDUCE of one row in one segment, a SORT of one pair, a COMPACT of one row under a mask. -/
def seg1 : Op := opOf 0 0x32 [(4, 16, 1), (8, 16, 1), (8, 0, 1), (12, 0, 2)]
def sort1 : Op := opOf 0 0x33 [(4, 0, 1), (8, 16, 1)]
def compact1 : Op := opOf 0 0x34 [(4, 16, 1), (8, 0, 1), (8, 16, 2), (12, 0, 3)]
/-- A COMPACT by lengths, groups of one row, with a map. -/
def compactLens : Op := opOf 0 0x34 [(0, 22, 1), (0, 23, 1), (4, 16, 1), (8, 0, 1), (8, 16, 2), (12, 0, 3), (12, 16, 1)]

theorem test_hyps_seg_compact :
    (ready { on with mergeQ := [seg1], store := [(68, 1)] }).head 0 .merge 0x32 = some seg1
    ∧ ((ready { on with mergeQ := [seg1], store := [(68, 1)] }).segGo 0 seg1).status = 0
    ∧ seg1.zeros [(0, 10, 12), (4, 15, 1), (8, 15, 1), (0xC, 15, 17)] = true ∧ seg1.posN = 1 ∧ seg1.rowWords = 1
    ∧ (({ on with store := [(68, 1)] } : Core).csWord 64).1.toNat = 0 ∧ (({ on with store := [(68, 1)] } : Core).csWord 68).1.toNat = 1
    ∧ anyOver [(0, 4), (64, 8), (128, 4)] = false ∧ anyOverlap [(0, 4), (64, 8), (128, 4)] = false
    ∧ (mrg sort1).head 0 .merge 0x33 = some sort1 ∧ sort1.zeros [(0, 0, 21), (4, 17, 15), (8, 31, 1), (8, 15, 1), (0xC, 0, 32)] = true ∧ sort1.f 0 22 2 ≠ 3
    ∧ anyOver [(0, 8), (64, 8)] = false ∧ overlaps 0 8 64 8 = false
    ∧ (mrg compact1).head 0 .merge 0x34 = some compact1 ∧ ((mrg compact1).compactGo 0 compact1).status = 0
    ∧ (∀ o ∈ [compact1, compactLens], o.zeros [(0, 10, 12), (4, 15, 1), (8, 31, 1), (8, 15, 1), (0xC, 15, 1)] = true ∧ o.posN = 1) ∧ compactLens.f 0 22 1 = 1
    ∧ compactLens.f 0 23 1 = 1 ∧ compactLens.f 0xC 16 16 = 1 ∧ (mrg compactLens).head 0 .merge 0x34 = some compactLens
    ∧ anyOver [(0, 4), (128, 1), (64, 4), (192, 0)] = false ∧ anyOverlap [(0, 4), (128, 1), (192, 0)] = false ∧ anyOverlap [(64, 4), (128, 1), (192, 0)] = false
    ∧ anyOverlap [(0, 4), (128, 4), (192, 4)] = false ∧ anyOverlap [(64, 4), (128, 4), (192, 4)] = false ∧ overlaps 0 4 64 4 = false := by decide

/-- The status of a SORT does not rest on the arrangement it leaves in its scratch. -/
theorem test_hyps_sort : ((mrg sort1).sortGo 0 sort1).status = 0 := rfl

/-- A KETTLE operation by its SUBOP with a capacity of 8 entries, and an ADD of one pair. -/
def kettle1 (sub : Nat) : Op := opOf 0 0x35 [(0, 22, sub), (4, 0, if sub = 0 ∨ sub = 2 then 8 else 0)]
def add1 : Op := opOf 0 0x35 [(0, 22, 1), (4, 16, 1)]
/-- A KETTLE_DRAIN with room for no pair, and one with room for eight. -/
def drain0 : Op := opOf 0 0x35 [(0, 22, 2)]
def drain1 : Op := opOf 0 0x35 [(0, 22, 2), (4, 0, 8)]

/-- A state with one HBM4 stack whose first page is mapped for everything. -/
def mapped (k : Core) : State :=
  { ready k with pages := [(0, 0xF000000000000000)], plan := { valid := true, hbmStacks := [0], mems := [(0, { present := true, capacity := 64 })] } }

theorem test_hyps_kettle :
    (∀ n < 4, (mrg (kettle1 n)).head 0 .merge 0x35 = some (kettle1 n) ∧ (kettle1 n).f 0 22 2 = n ∧ kettleEnc (kettle1 n) = false)
    ∧ (mapped { on with mergeQ := [kettle1 0] }).regionIn 0 128 0 = true ∧ (kettle1 0).f 4 0 32 = 8
    ∧ kettleEnc add1 = false ∧ add1.posN = 1 ∧ csOver 0 8 = false
    ∧ ({ st := .opened } : Kettle).freeWay (kettleSet 0) = some 0 ∧ kettleSet 0 = 0
    ∧ (sumRuns ((sortBy (·.ins) [(⟨0, 0, 5, (0, false), 0⟩ : KEntry)]).map (fun e => ((e.key, false), e.val)))).length = 1
    ∧ drain1.f 0 22 2 = 2 ∧ kettleEnc drain1 = false ∧ drain1.f 0 21 1 = 0 ∧ drain1.f 4 0 32 = 8 ∧ drain0.f 4 0 32 = 0 ∧ kettleEnc drain0 = false
    ∧ (mrg drain1).head 0 .merge 0x35 = some drain1 ∧ csOver (drain1.f64 8) (8 * min 8 1) = false ∧ on.secded = [] := by decide

/-- What a kind of access needs of the first page of `mapped`: it goes to HBM4 at its own address (R258). -/
theorem mapped_at (k : Acc) (va : Nat) (h : va < 2097152) : (mapped on).xlate va k = .inr (0, va) := by
  have h0 : va / 2097152 = 0 := Nat.div_eq_of_lt h
  have h1 : ((mapped on).page 0).valid = true ∧ ((mapped on).page 0).read = true ∧ ((mapped on).page 0).write = true ∧ ((mapped on).page 0).add = true
      ∧ ((mapped on).page 0).target = 0 ∧ ((mapped on).page 0).phys = 0 ∧ (mapped on).entryBad 0 = false := by decide +kernel
  obtain ⟨h1, h2, h3, h4, h5, h6, h7⟩ := h1
  simp [State.xlate, State.pageCheck, h0, h1, h2, h3, h4, h5, h6, h7, Nat.mod_eq_of_lt h]

/-- The spill of one pair of a kettle in `mapped` memory may be stored. -/
theorem test_hyps_kettle_spill : (mapped on).storable (0 + 8 * 8) (8 * min 1 8) .plain := by
  intro x h1 h2
  have hx : x < 2097152 := by omega
  have hs : ∀ i < 8, (mapped on).postHit .hbm (64 + i) = false ∧ (mapped on).memLost .hbm (64 + i) = false ∧ 64 + i + 4 ≤ (mapped on).plan.resBase := by decide +kernel
  have h8 := hs (x - 64) (by omega)
  rw [show 64 + (x - 64) = x by omega] at h8
  exact ⟨0, x, mapped_at .plain x hx, by decide, h8.1, h8.2.1, fun _ => h8.2.2⟩

theorem test_drain_over :
    ∃ t, exec (.kettleDrain 0 0 []) (ready { on with mergeQ := [drain0], kettle := { st := .opened, entries := [⟨0, 0, 5, (0, false), 0⟩] } }) = .next t
      ∧ (t.core 0).mergeRun.map (·.status) = some 0x57 := ⟨_, rfl, by decide⟩

/-- A TENSOR_MOVE of one element and one dimension, by its direction. -/
def move1 (dir : Nat) : Op := opOf 0 0x41 [(0, 22, dir), (0, 12, 1), (0, 15, 2), (20, 0, 1), (4, 0, if dir = 2 then 1 else 0)]

theorem test_hyps_moves :
    (∀ d < 3, (ready { on with accQ := [move1 d] }).head 0 .acc 0x41 = some (move1 d) ∧ (move1 d).move.dir = d ∧ (move1 d).moveStatus = 0
      ∧ (opOf 0 0x41 [(0, 22, d)]).moveStatus = 0x69 ∧ (opOf 0 0x41 [(0, 22, d)]).move.dir = d)
    ∧ (mapped on).xlate 0 .read = .inr (0, 0) ∧ (mapped on).xlate 0 .add = .inr (0, 0) ∧ (mapped on).xlate 2097152 .read = .inl 0x6E
    ∧ ({ mapped on with mem := { hbmPoison := [((mapped on).plan.entryPhys 0 / 4, true)] } } : State).xlate 0 .plain = .inl 0x67
    ∧ ({ mapped on with pages := [(0, 0x8000000000000000)] } : State).xlate 0 .plain = .inl 0x6F
    ∧ ({ mapped on with pages := [(0, 0xF800000000000000)] } : State).xlate 0 .add = .inl 0x6F := by decide +kernel

/-- Caddy entry 0 of one member and one stack with one 64 KB slice of HBM4 at virtual address 0, a caddy operation of one line by its SUBOP, and frames. -/
def caddied (o : Op) (bound : Option (Nat × Nat)) (fs : List Frame) : State :=
  { mapped { on with accQ := [o], caddy := bound } with
      caddy := [(0, { valid := true, members := 1, nStacks := 1, sliceHbm := 1, hbmBase := 0, ddrBase := 0, sliceDdr := 0 })]
      caddySt := mset {} [] 0 { frames := mset [] [] 0 fs } }
def cad (sub n : Nat) : Op := opOf 0 0x40 [(0, 22, sub), (4, 0, n)]
def caddiedDdr (o : Op) (d : Nat) (fs : List Frame) : State :=
  { caddied o (some (0, 0)) fs with caddy := [(0, { valid := true, members := 1, nStacks := 1, sliceHbm := 1, hbmBase := 0, ddrBase := 0, sliceDdr := d })] }
def frame1 (n : Nat) (p : Place) : Frame := { hbm := [(0, 1)], ddr := [(0, 1)], lines := n, tag := 0, pushed := [0], popped := [], place := p }

theorem test_hyps_caddy_bind :
    (caddied (cad 0 0) none []).caddyOp 0 0 = some (cad 0 0) ∧ (caddied (cad 0 0) none []).caddyEnc (cad 0 0) true = false
    ∧ ((caddied (cad 0 0) none []).caddyEnt 0).valid = true ∧ (caddied (cad 0 0) none []).caddyBad ((caddied (cad 0 0) none []).caddyEnt 0) = false
    ∧ (ready { on with accQ := [cad 0 0] }).caddyOp 0 0 = some (cad 0 0) ∧ ((ready { on with accQ := [cad 0 0] }).caddyEnt 0).valid = false := by decide

theorem test_hyps_caddy_push :
    (∀ n < 2, (caddied (cad 1 n) (some (0, 0)) []).caddyOp 0 1 = some (cad 1 n) ∧ (caddied (cad 1 n) (some (0, 0)) []).caddyEnc (cad 1 n) false = false
      ∧ (caddied (cad 1 n) (some (0, 0)) []).boundSlot 0 0 = some 0 ∧ (caddied (cad 1 n) none []).boundSlot 0 0 = none ∧ csOver 0 (64 * n) = false)
    ∧ 1 ≤ hbmFree ((caddied (cad 1 1) (some (0, 0)) []).caddyEnt 0) [] ∧ ((caddied (cad 1 1) (some (0, 0)) []).cst 0).stack 0 = []
    ∧ (caddied (cad 1 1) (some (0, 0)) []).xlate 0 .plain = .inr (0, 0)
    ∧ takeRuns ((caddied (cad 1 1) (some (0, 0)) []).caddyEnt 0).hbmLines [] 1 = [(0, 1)] ∧ ((caddied (cad 1 1) none []).caddyEnt 0).hbmAt 0 = 0
    ∧ 0 + 64 ≤ (caddied (cad 1 1) (some (0, 0)) []).plan.resBase
    ∧ (∀ d < 2, (caddiedDdr (cad 1 1024) d [frame1 1 .hbm]).caddyOp 0 1 = some (cad 1 1024) ∧ (caddiedDdr (cad 1 1024) d [frame1 1 .hbm]).caddyEnc (cad 1 1024) false = false
      ∧ ((caddiedDdr (cad 1 1024) d [frame1 1 .hbm]).cst 0).stack 0 = [frame1 1 .hbm] ∧ (caddiedDdr (cad 1 1024) d [frame1 1 .hbm]).boundSlot 0 0 = some 0
      ∧ ((caddiedDdr (cad 1 1024) d []).caddyEnt 0).hbmLines = 1024 ∧ hbmFree ((caddiedDdr (cad 1 1024) d []).caddyEnt 0) [frame1 1 .hbm] < 1024)
    ∧ csOver 0 (64 * 1024) = false ∧ (frame1 1 .hbm).size ≤ ddrFree ((caddiedDdr (cad 1 1024) 1 []).caddyEnt 0) [frame1 1 .hbm]
    ∧ ddrFree ((caddiedDdr (cad 1 1024) 0 []).caddyEnt 0) [frame1 1 .hbm] < (frame1 1 .hbm).size := by decide +kernel

theorem test_hyps_caddy_pop :
    (∀ n < 2, (caddied (cad 2 n) (some (0, 0)) []).caddyOp 0 2 = some (cad 2 n) ∧ (caddied (cad 2 n) (some (0, 0)) []).boundSlot 0 0 = some 0)
    ∧ (∀ p ∈ [Place.hbm, .ddr, .toDdr, .toHbm], ((caddied (cad 2 1) (some (0, 0)) [frame1 1 p]).cst 0).stack 0 = [frame1 1 p])
    ∧ (frame1 1 .hbm).lines = 1 ∧ (frame1 2 .hbm).lines ≠ 1 ∧ 0 ∈ (frame1 1 .hbm).pushed ∧ (frame1 1 .hbm).popped = []
    ∧ (caddied (cad 2 1) (some (0, 0)) []).xlate 0 .read = .inr (0, 0)
    ∧ (frame1 1 .ddr).size ≤ hbmFree ((caddied (cad 2 1) (some (0, 0)) []).caddyEnt 0) [frame1 1 .ddr]
    ∧ ((caddied (cad 2 1) (some (0, 0)) [frame1 1 .ddr, frame1 1 .hbm]).cst 0).stack 0 = [frame1 1 .ddr, frame1 1 .hbm]
    ∧ (frame1 1 .hbm).popped.length + 1 = ((caddied (cad 2 1) (some (0, 0)) []).caddyEnt 0).members ∧ (caddied (cad 2 1) (some (0, 0)) []).caddyEnc (cad 2 1) false = false := by decide +kernel

/-! ### Governor and placement (05, 11) -/

/-- Of 2,048 elements one lies 31 octaves low: rank 0 suffices at 2^-10 and not at 2^-12 (R160). -/
theorem test_governor_ranks :
    Obs.rank { count := 2048, bins := [(31, 1)] } {} 1 10 = 0 ∧ Obs.rank { count := 2048, bins := [(31, 1)] } {} 1 12 = 2
    ∧ Obs.rank { count := 1, bins := [(31, 1)] } {} 1 10 = 2 ∧ Obs.rank {} {} 1 10 = 0 ∧ Obs.rank {} {} 1 12 = 0
    ∧ ({} : Numerics).up = 10 ∧ ({} : Numerics).down = 12 := by decide

theorem test_hyps_governor :
    govWant { choice := 0 } { count := 1, nonfinite := 1 } {} = (2, 0) ∧ govWant { choice := 0 } { count := 1, bins := [(31, 1)] } {} = (2, 0)
    ∧ govWant { choice := 0 } {} {} = (0, 0) ∧ govWant { choice := 2, downCount := 2 } {} {} = (0, 0) ∧ govWant { choice := 2 } {} {} = (2, 1) := by decide

/-- R161: pinned; allowed; the lowest allowed above; the highest allowed below; none allowed. -/
theorem test_governor_applied :
    ({ pin := true, pinFormat := 1 } : FmtEntry).applied 0 = 1 ∧ ({} : FmtEntry).applied 1 = 1 ∧ ({ allowed := 4 } : FmtEntry).applied 0 = 2
    ∧ ({ allowed := 1 } : FmtEntry).applied 2 = 0 ∧ ({ allowed := 0 } : FmtEntry).applied 1 = 2 := by decide

theorem test_hyps_gov_decision :
    let q : GovPend := { closedAt := 0, obs := {}, dec := some ⟨0, 0, 0, 0, 0⟩ }
    let p : GovPend := { closedAt := 1, obs := {}, dec := none }
    [q, p] = [q] ++ p :: [] ∧ q.dec ≠ none ∧ p.dec = none ∧ q.closedAt ≠ p.closedAt ∧ (ready on).trace.eventEn = true
    ∧ (ready on).trace.wrap = true ∧ (ready on).trace.ringFull = false ∧ 2 ≤ (ready on).trace.slots := by decide

/-- A version that awaits its effect, as its milepost left it. -/
def version (proposed : Bool) (ws : List (Nat × W64)) : Version :=
  { seq := 1, interval := 0, effectLeg := 8, check := 0, built := false, proposed := proposed, toggles := [], writes := ws, entries := [], ctrl := {}, veto := false }

/-- A module with a running LEG group 0. -/
def legged (s : State) : State := { s with groups := [(0, { active := true, st := .running })] }

theorem test_hyps_experts :
    mwf 0 ([] : Mem W64) = true ∧ (legged (ready on)).legOn = true ∧ (ready on).legOn = false
    ∧ (version false []).proposed = false ∧ (version true [(0, 1)]).writes ≠ [] ∧ (version true []).writes = [] ∧ (version true []).built = false ∧ (version true [(0, 1)]).veto = false ∧ ({ version true [(0, 1)] with veto := true } : Version).veto = true
    ∧ ({ ready on with experts := { writes := [(0, 1)] } } : State).experts.pending = none := by decide

/-- Pieces that all translate to HBM4 leave a read without a fault or a wait. -/
theorem pieces_fine (s : State) (l : List (Nat × Nat)) (hl : ∀ p ∈ l, s.xlate p.1 .read = .inr (0, p.1)) (m : McRun)
    (h : m.st = s ∧ m.fault = none ∧ m.wait = false) : let r := l.foldl (fun q p => q.piece p.1 p.2) m; r.fault = none ∧ r.wait = false := by
  induction l generalizing m with
  | nil => exact h.2
  | cons p l ih =>
    obtain ⟨hs, hf, hw⟩ := h
    refine ih (fun q hq => hl q (by simp [hq])) _ ?_
    have := hl p (by simp)
    simp [McRun.piece, hf, hw, hs, this]
/-- The 65,536 bytes of a load page in mapped memory are read without a fault or a wait (R300). -/
theorem test_hyps_load_page : ((McRun.start (mapped on) []).run 0 65536).fault = none ∧ ((McRun.start (mapped on) []).run 0 65536).wait = false := by
  refine pieces_fine (mapped on) _ (fun p hp => mapped_at .read p.1 ?_) _ ⟨rfl, rfl, rfl⟩
  have : ((linePieces (65536 / 64 + 2) 0 65536).all (fun p => decide (p.1 < 2097152))) = true := by decide +kernel
  exact of_decide_eq_true (List.all_eq_true.mp this p hp)

/-- With no page mapped the same read fails its first check. -/
theorem test_load_page_fault : (((McRun.start (ready on) []).piece 0 64).fault.isSome) = true := by decide

/-! ### Links, transfers and the checker (12, 13) -/

/-- A state whose link 0 is in a given link state. -/
def linked (s : State) (k : Link) : State := { s with lnk := { s.lnk with links := mset {} [] 0 k } }

/-- A sync block of a kind from module 1 with a number and a value. -/
def sblock (kind value : Nat) : Block := ({ kind := kind, origin := 1, id := 1, value := value, leg := 5 } : Sync).block

set_option maxRecDepth 20000 in
theorem test_hyps_link_states :
    (∀ st ∈ [LState.down, .training, .up, .sparing, .halted, .failed], ((linked (ready on) { st := st }).link 0).st = st)
    ∧ (ready on).linksTrain = true ∧ (ready on).portGood 0 = true ∧ (ready on).lnk.ctrl.en.toNat.testBit 0 = true ∧ (ready on).dieJoined 0 = true
    ∧ ((List.range 5).filter (fun i => (((1 : BitVec 5) ||| (0 : BitVec 5)).toNat.testBit i))).length < 2
    ∧ 2 ≤ ((List.range 5).filter (fun i => (((3 : BitVec 5) ||| (0 : BitVec 5)).toNat.testBit i))).length
    ∧ (mget ({} : LinkEntry) (ready on).plan.links 0).spareFor = 7 ∧ ({} : LinkEntry).badLanes.toNat.testBit 4 = false
    ∧ ({ badLanes := 16 } : LinkEntry).badLanes.toNat.testBit 4 = true ∧ ({ spareFor := 1 } : LinkEntry).spareFor ≠ 7
    ∧ blockGood (sblock 6 0) = true ∧ (syncOf (sblock 6 0)).kind = 6 ∧ (ready on).lnk.seen = [] := by decide

/-- A state whose link 0 carries flits and sync blocks, with a flit that waits where given. -/
def carrying (s : State) (ws : List TxFlit) : State := linked s { st := .up, dir := 0, waiting := ws }

set_option maxRecDepth 20000 in
theorem test_hyps_link_blocks :
    blockGood 0 = false ∧ (∀ k ∈ [1, 2, 3, 4, 7, 8], blockGood (sblock k 0) = true ∧ (syncOf (sblock k 0)).kind = k)
    ∧ (carrying (ready on) []).carries 0 = true ∧ (linked (ready on) { st := .up }).carries 0 = false ∧ (syncOf (sblock 1 0)).leg ≠ 0xFFFFFFFFFFFF
    ∧ ((syncOf (sblock 2 0)).origin, (syncOf (sblock 2 0)).id) ∈ ([(1, 1)] : List (W16 × Nat)) := by decide

/-- A flit that a link has sent and not had acknowledged. -/
def sent : TxFlit := { header := 0, payload := [], source := 0, queue := 0 }

set_option maxRecDepth 20000 in
theorem test_hyps_nak :
    ([sent].dropWhile (fun f => hf f.header 0 12 12 != (syncOf (sblock 8 0)).value / 2 ^ 32 % 4096)) ≠ []
    ∧ ({ st := .up, unacked := [sent], lastNak := 0, sameNaks := 8 } : Link).sameNaks = 8 ∧ ¬ (({} : Link).lastNak = 0 ∧ 8 ≤ ({} : Link).sameNaks)
    ∧ ({ oldestGood := some 0 } : Link).oldestGood = some 0 ∧ (ready on).feeding = false
    ∧ ((carrying (ready on) [sent]).link 0).waiting = [sent] ∧ (ackThrough 0 ((carrying (ready on) [sent]).link 0).unacked).length < 512 := by decide

/-- A good one-line data flit from module 1 to address `dst` of this module, and a good DONE of its transfer 0. -/
def flit1 (dst : Nat) : Block :=
  sealFlit (Hdr.raw { time := 0, cls := 0, vc := 0, len16 := 4, dest := 0, src := 1, tag := 0, no := 0, status := 0, flits := 1, dst := dst, signal := 0 } 0) (List.replicate 16 (0, false))
def done1 : Block := sealFlit (Hdr.raw { time := 0, cls := 1, vc := 0, len16 := 0, dest := 0, src := 1, tag := 0, no := 0, status := 0, flits := 1, dst := 0, signal := 0 } 0) []

set_option maxRecDepth 20000 in
theorem test_hyps_data_flit :
    flitGood (flit1 0) (List.replicate 16 (0, false)) = true ∧ (hdrOf (flit1 0)).cls = 0 ∧ (hdrOf (flit1 0)).dest = 0 ∧ (hdrOf (flit1 0)).flits = 1
    ∧ (hdrOf (flit1 0)).dst = 0 ∧ (hdrOf (flit1 0)).signal = 0 ∧ (flit1 0).toNat / 2 ^ 12 % 4096 = 0
    ∧ (carrying (mapped on) []).carries 0 = true ∧ (mapped on).lnk.rxHeld = [] ∧ (mapped on).lnk.rx = [] ∧ (mapped on).coord = 0 ∧ (mapped on).xlate 0 .plain = .inr (0, 0) ∧ (mapped on).memLost .hbm 0 = false ∧ (mapped on).postHit .hbm 0 = false
    ∧ (ready on).xlate 0 .plain = .inl 0x6E ∧ flitGood (flit1 0) [] = false := by decide +kernel

/-- A post of one line from address 0 to this module's address 0, by core 0, that adds 1 to its counter 0 (R330). -/
def post1 : Line := BitVec.ofNat 512 (2 ^ 63 + 2 ^ (64 + 45) + 2 ^ 128)

set_option exponentiation.threshold 600 in
set_option maxRecDepth 20000 in
theorem test_hyps_done :
    flitGood done1 [] = true ∧ (hdrOf done1).cls = 1 ∧ (hdrOf done1).dest = 0 ∧ (hdrOf done1).tag = 0 ∧ (hdrOf done1).status = 0
    ∧ coreOfUnit (pf post1 0x18 48 16) = some 0 ∧ pf post1 0x10 0 12 = 1 ∧ (ready on).coreOk 0 = true ∧ ((ready on).core 0).power = .on := by decide

set_option exponentiation.threshold 600 in
set_option maxRecDepth 20000 in
theorem test_hyps_post :
    postBad post1 = false ∧ postBad 0 = true ∧ pf post1 8 45 19 = 1 ∧ pf post1 0x10 32 12 = 0 ∧ BitVec.ofNat 16 (pf post1 0 48 16) = (0x8000 : W16)
    ∧ (ready on).postRead 0 1 = .inl 0 ∧ (match (mapped on).postRead 0 1 with | .inl _ => 0 | .inr l => l.length) = 64 
    ∧ ({ queue := 0, line := some post1 } : LineWrite).line = some post1 ∧ ({ queue := 0, line := none } : LineWrite).held = false := by decide +kernel

/-- A MARK and a COMPARE of one line (R346). -/
def mark1 : Line := BitVec.ofNat 512 (2 ^ 54)
def compare1 : Line := BitVec.ofNat 512 (2 ^ 62 + 2 ^ (64 + 45))

set_option exponentiation.threshold 600 in
set_option maxRecDepth 20000 in
theorem test_hyps_checker :
    checkBad mark1 = false ∧ cf mark1 0 62 2 = 0 ∧ checkBad compare1 = false ∧ cf compare1 0 62 2 = 1 ∧ checkBad (BitVec.ofNat 512 (2 ^ 63)) = true
    ∧ cf (BitVec.ofNat 512 (2 ^ 63)) 0 62 2 = 2 ∧ (mapped on).chk.current = none ∧ ({ (mapped on).chk with halt := true } : Checker).halt = true
    ∧ (List.replicate 256 ({ queue := 64, line := none, held := true } : LineWrite))[255]?.map (·.held) = some true ∧ ([] : List LineWrite).length ≤ 255
    ∧ (let r := ((McRun.start (mapped on) ((mapped on).hostAnswers 6)).run 0 64).run 0 64; r.fault = none ∧ r.bytes.length = 64)
    ∧ (((McRun.start (ready on) ((ready on).hostAnswers 6)).run 0 64).run 0 64).fault ≠ none := by decide +kernel

/-! ### Legs, pace, time, joining, adoption (01, 13) -/

/-- A series of period 1,000 and L 100 that this module's pace leads, with milepost 5 at 500 and leg 6 due at 1,500 (R21). -/
def ser : Series := { founder := 0, check := 0, period := 1000, latency := 100, joinTime := 0, ratio := 1, leader := some 0, opened := some 500, legNo := 5, due := some 1500 }

/-- Its founding group, with this module and module 1, RUNNING under a stretch limit of 1%. -/
def grp : Group := { active := true, st := .running, latency := 100, period := 1000, modules := [0, 1], limit := 1 }

/-- A module that runs them. -/
def legs (g : Group) (r : Series) : State := { ready on with series := some r, groups := [(0, g)] }

theorem test_hyps_milepost :
    (legs { grp with ready := [(0, 600), (1, 700)] } ser).milepostAt = some 1500 ∧ (legs grp ser).milepostAt = none
    ∧ ((legs { grp with ready := [(0, 600), (1, 700)] } ser).group 0).allReady = true ∧ (grp.readyOf 1) = none ∧ 1 ∈ grp.modules
    ∧ ((legs grp ser).group 0).legActive = true ∧ (legs grp ser).lnk.rxHeld = [] ∧ (∀ p ∈ (legs grp ser).groups, p.2.releasing = none ∧ p.2.doubt = false)
    ∧ grp.st ≠ .abandoned ∧ ser.due = some 1500 ∧ ser.opened.isSome = true := by decide

/-- A group whose JOIN waits for the first milepost of its series at 400 (R24). -/
theorem test_hyps_milepost0 :
    (legs { modules := [0, 1], joinOrder := some 3, firstAt := some 400 } { ser with opened := none, due := some 400 }).milepostAt = some 400
    ∧ ({ modules := [0, 1], joinOrder := some 3, firstAt := some 400 } : Group).barrier = false := by decide

theorem test_milepost_waits_for_readiness :
    (legs { grp with ready := [(0, 600), (1, 1700)] } ser).milepostAt = some 1800 := by decide

theorem test_hyps_legs :
    (legs grp ser).legOn = true ∧ grp.readyOf 0 = none ∧ grp.allReady = false ∧ 0 ∈ (legs grp ser).activeLegs
    ∧ ((legs grp ser).group 0).listening = true ∧ (legs grp ser).groupLeg 0 = 5 ∧ grp.readyOf 1 = none ∧ grp.doubt = false
    ∧ (legs grp ser).deadlineOf 0 = some 1510 ∧ grp.owed = none ∧ grp.ending = none ∧ grp.releasing = none ∧ grp.joinOrder = none
    ∧ ({ grp with abandonPolicy := true } : Group).abandonPolicy = true ∧ (legs { grp with abandonPolicy := true } ser).deadlineOf 0 = some 1510
    ∧ 0 ∈ grp.modules ∧ (0 : W16) ≠ 1 ∧ (legs grp ser).coord = 0
    ∧ (legs grp ser).legNow = 5 ∧ (legs grp ser).answers 0x2100 = true ∧ (legs grp ser).time.now ≤ 1510 := by decide

/-- A group that leads no series, whose deadline has passed with module 1's ready symbol still to come: it is in doubt. -/
def doubting : State := legs { grp with doubt := true, st := .overLimit, ready := [(0, 600)] } { ser with founder := 1 }

set_option maxRecDepth 20000 in
theorem test_hyps_doubt :
    (doubting.group 0).doubt = true ∧ (doubting.group 0).ending = none ∧ doubting.deadlineOf 0 = some 1510 ∧ (doubting.group 0).listening = true ∧ doubting.groupLeg 0 = 5
    ∧ (doubting.group 0).readyOf 1 = none ∧ (doubting.group 0).modules.all (fun m => m == 1 || (doubting.group 0).readyOf m != none) = true ∧ (∀ p ∈ (doubting.group 0).ready, p.2 ≤ 1510)
    ∧ (syncOf (sblock 1 7)).value ≤ 1510 ∧ (carrying doubting []).carries 0 = true
    ∧ ((syncOf (sblock 1 7)).origin, (syncOf (sblock 1 7)).id) ∉ (carrying doubting []).lnk.seen := by decide

/-- A second group whose own cores have ended the leg. -/
theorem test_hyps_group_ended :
    let s := { legs grp ser with groups := [(0, grp), (1, { grp with cores := [1] })] }
    s.groupEnded 1 = true ∧ 1 ∈ s.activeLegs ∧ (1 : Nat) ≠ ser.founder ∧ (s.group 1).readyOf s.coord = none := by decide +kernel

set_option maxRecDepth 20000 in
theorem test_hyps_leg_blocks :
    (syncOf (sblock 1 7)).leg = 5 ∧ (syncOf (sblock 1 7)).group = 0 ∧ (syncOf (sblock 1 7)).origin = 1 ∧ (syncOf (sblock 4 7)).leg = 5 := by decide

theorem test_hyps_module_ended : (legs grp ser).moduleEnded = true := by decide +kernel

/-- A stamped edge 20 ns after a compared milepost, with the window open. -/
def paced : State := { legs grp { ser with window := true } with time := { now := 520 } }

theorem test_hyps_pace :
    paced.side.trayRstN = true ∧ paced.boot.inReset = false ∧ paced.pace.edges = [] ∧ near8 1000 500 520 = true ∧ paced.leads ser = true
    ∧ ({ paced with pace := { edges := [519] } } : State).time.now < 519 + 1000 ∧ ({ ser with leader := some 1 }).leader = some 1
    ∧ paced.leads { ser with leader := some 1 } = false ∧ paced.answers 0x2020 = true ∧ ser.relock = false ∧ ser.opened.isSome = true
    ∧ ({ ser with opened := none, due := none } : Series).opened = none ∧ paced.leads { ser with opened := none, due := none } = true
    ∧ bit (2 : W32).toNat 1 = true ∧ (∀ y ∈ ([] : List Nat) ++ [519], 520 ≤ y + 1000 / 8) ∧ paced.pace.edges.head? = none := by decide

theorem test_pace_error :
    ∃ t, exec .paceEdge paced = .next t ∧ t.pace.st = .locked ∧ t.pace.error = 20 ∧ t.series.bind (·.due) = some 1520 := ⟨_, rfl, by decide⟩

/-- A due symbol for the next leg: the block's leg is 5, so the leg on hand is 4. -/
theorem test_hyps_due :
    (syncOf (sblock 3 1600)).leg = ({ ser with legNo := 4 } : Series).legNo + 1 ∧ (syncOf (sblock 3 1600)).value = 1600
    ∧ 8 * (500 + 1000) + 1000 < 8 * (syncOf (sblock 3 1700)).value ∧ ¬ 8 * (500 + 1000) + 1000 < 8 * (syncOf (sblock 3 1600)).value := by decide +kernel

set_option maxRecDepth 20000 in
theorem test_hyps_time :
    (ready on).feeding = false ∧ (∀ st ∈ [LState.training, .up, .sparing], (linked (ready on) { st := st }).linkAligned 0 = true) ∧ (ready on).answers 0x201C = true ∧ (ready on).answers 0x2000 = true
    ∧ (ready on).answers 0x2038 = true ∧ (ready on).legOn = false ∧ (ready on).time.syncEn = true ∧ blockGood (sblock 5 0) = true ∧ (syncOf (sblock 5 0)).kind = 5 := by decide

/-- A join marker from module 1. -/
def marker1 : Block := ({ kind := 1, origin := 1, id := 1, leg := 0xFFFFFFFFFFFF } : Sync).block

/-- A descriptor of a type, with some fields, each at its byte offset and first bit (R399, R403), and a state that has taken it. -/
def descOf (type : Nat) (fs : List (Nat × Nat × Nat)) : Desc :=
  { order := 7, ring := 0, slot := 0, raw := BitVec.ofNat 512 (type * 2 ^ 24 + (fs.map (fun x => x.2.2 * 2 ^ (8 * x.1 + x.2.1))).sum), taken := 3, started := false, since := 0, result := none }
def taken (s : State) (d : Desc) : State := { s with host := { s.host with descs := [d] } }

/-- An ADOPT of coordinate (0, 0, 0) in a torus of one module, with no image, for group 3. -/
def adopt1 : Desc := descOf 9 [(8, 31, 1), (0x10, 3, 1)]

theorem test_hyps_join_adopt :
    blockGood marker1 = true ∧ (syncOf marker1).leg = 0xFFFFFFFFFFFF ∧ (syncOf marker1).kind = 1
    ∧ (taken (ready on) adopt1).mcNext 9 = some adopt1 ∧ adopt1.adoptBad = false ∧ adopt1.f 0x20 0 16 = 0 ∧ (adopt1.f 0x10 0 64).testBit 3 = true
    ∧ (taken (ready on) adopt1).adoptBusy = false ∧ (taken (legs grp ser) adopt1).adoptBusy = true ∧ (taken (legs grp ser) adopt1).mcNext 9 = some adopt1 := by decide +kernel

/-! ### Memory and the host port (14, 15) -/

/-- `mapped` with HBM4 stack 0 present and its controller in a state. -/
def hbmReady (st : Nat) : State :=
  { mapped on with plan := { (mapped on).plan with mems := [(0, { present := true, capacity := 64 })] }, mem := { ctls := mset {} [] 0 { st := st } } }

theorem test_hyps_memory :
    (hbmReady 0).plan.physOf 0 (64 * 0) = some (.hbm, 0) ∧ (hbmReady 0).devHere 0 = true ∧ (hbmReady 1).devHere 0 = true ∧ ((hbmReady 1).ctl 0).st = 1 ∧ ((hbmReady 0).ctl 0).st ≠ 1
    ∧ (hbmReady 0).mem.selfRefresh = false ∧ (hbmReady 0).legOn = false ∧ (legged (hbmReady 0)).legOn = true ∧ ((hbmReady 0).ctl 0).lastRetrain = none
    ∧ ((hbmReady 0).ctl 0).pending = false ∧ 64 < ((65 : Int) - 0).natAbs := by decide

/-- A DDR5 band of one socket, and the CXL window over it. -/
def windowed : State :=
  { ready on with
      plan := { valid := true, bands := [{ base := 0, size := 2 ^ 28, chans := [0], used := [(8, 2 ^ 28)] }] }
      host := { memUp := true, cacheUp := true, winBase := 0, winUnits := 2 } }

theorem test_hyps_cxl :
    windowed.window 0 = some 0 ∧ windowed.window 0x10000000 = some (2 ^ 28) ∧ windowed.plan.ddrBytes = 2 ^ 28 ∧ windowed.memLost .ddr 0 = false
    ∧ windowed.memLost .ddr (2 ^ 28) = false ∧ windowed.mem.selfRefresh = false ∧ windowed.host.winWriteEn = true ∧ windowed.poisonAt .ddr 0 = false
    ∧ ({ windowed with mem := { ddrPoison := [(0, true)] } } : State).poisonAt .ddr 0 = true ∧ ({ windowed with spdm := { session := 2 } } : State).spdm.session = 2
    ∧ windowed.side.perstN = true ∧ (ready on).portHeld = false ∧ ({ ready on with side := {} } : State).portHeld = true := by decide +kernel

/-- A state whose ring 0 is given. -/
def ringed (x : Ring) : State := { ready on with host := { rings := mset {} [] 0 x, cacheUp := true } }

/-- A ring that is enabled, 16 descriptors and 16 entries deep, with one descriptor to take. -/
def ring1 : Ring := { enable := true, sqLog2 := 4, cqLog2 := 4, active := true, stopped := false, seenSqTail := 1 }

theorem test_hyps_rings :
    (ringed {}).answers (ringOff 0 0x18) = true ∧ (({} : Ring).fields 0x80040400).bad = false ∧ (({} : Ring).fields 0x80000000).bad = true
    ∧ bit (0x80040400 : W32).toNat 31 = true ∧ (ringed ring1).ringTurn = some 0 ∧ (ringed ring1).mayTake 0 = true ∧ (ringed ring1).host.burst.2 = 0 ∧ (ringed {}).ringTurn ≠ some 0 ∧ (ringed ring1).caches ring1 = true
    ∧ (ringed ring1).caches { ring1 with poll := true } = false ∧ (ringed ring1).inFlight 0 = 0 ∧ knownType 4 = true ∧ knownType 0 = false
    ∧ ({ ring1 with lastEntry := some 0, reading := true } : Ring).failing = false ∧ (taken (ringed ring1) (descOf 3 [])).host.descs.find? (fun d => d.ring == 0 && d.slot == 0) = some (descOf 3 []) := by decide +kernel

/-- An image of ten words whose leg table starts the three streams at word 9 (R276), in mapped memory. -/
def imaged : State :=
  { mapped { power := .on } with mem := { hbm := msetRun 0 [] 0 (([0x0001000A58475150, 1, 0, 0, 0, 0, 0, 0, 0x000900090009, 0] : List W64).flatMap (fun w => leBytes 8 w.toNat)) } }

theorem test_hyps_load_program :
    (taken imaged (descOf 1 [])).mcNext 1 = some (descOf 1 []) ∧ imageBad ((McRun.start imaged []).image 0).2 = false ∧ ((McRun.start imaged []).image 0).1.fault.isSome = false
    ∧ ((McRun.start imaged []).image 0).1.wait = false ∧ imageBad ((McRun.start (mapped on) []).image 0).2 = true ∧ ((McRun.start (mapped on) []).image 0).1.fault.isSome = false
    ∧ (descOf 1 []).clear 0x18 = true ∧ (imaged.core 0).idle = true ∧ (imaged.core 1).idle = true ∧ imaged.coreOk 0 = true ∧ imaged.boot.st ≠ .cpReset
    ∧ imaged.plan.pendingAbsent = [] ∧ (∃ c ∈ imaged.usableCores, ∃ p ∈ [((0 : Nat), (5 : Nat))], p.1 = c) := by decide +kernel

/-- A JOIN of two modules along z with a period of 4,000 ns, and a RELEASE. -/
def join1 : Desc := descOf 6 [(0, 0, 1), (8, 0, 4000), (0x10, 0, 1)]
def release1 : Desc := descOf 6 [(0, 22, 1)]
def joining : State := taken { ready on with lnk := { ctrl := { sizeZ := 1 } } } join1

theorem test_hyps_join :
    joining.mcNext 6 = some join1 ∧ join1.joinReserved = false ∧ joining.boxBeyond (join1.f 0x10 0 32) = false
    ∧ (List.range (boxSize (join1.f 0x10 0 32))).map (joining.boxCoord (join1.f 0x10 0 32)) = [0, 0x8001] ∧ joining.coord = 0
    ∧ joining.joinStatus join1 [0, 0x8001] joining.usableCores = 0 ∧ (joining.group 0).markers = [] ∧ (joining.group 0).ending = none := by decide +kernel

theorem test_hyps_run_release :
    (taken (ready on) (descOf 2 [(8, 0, 1)])).nextOf [2] = some (descOf 2 [(8, 0, 1)]) ∧ (descOf 2 [(8, 0, 1)]).f 8 0 32 = 1 ∧ (descOf 2 [(8, 0, 1)]).clear 0x18 = true
    ∧ grp.legActive = true ∧ ({} : Group).legActive = false ∧ ({} : Group).joinOrder = none
    ∧ (taken (legs grp ser) release1).mcNext 6 = some release1 ∧ release1.joinReserved = false ∧ release1.f 0 22 2 = 1
    ∧ (taken (legs grp ser) release1).holdsOthers 0 = false ∧ (taken (ready on) release1).holdsOthers 0 = false := by decide +kernel

/-- A SET_TABLE of the numerics block from address 0, a QUERY of one caddy entry, a RECORD_MARK and a FENCE. -/
def set1 : Desc := descOf 5 [(0, 0, 4), (0xC, 0, 1)]
def query1 : Desc := descOf 10 [(0, 0, 0x22), (0xC, 0, 1), (0x1C, 0, 32)]
def mark2 : Desc := descOf 8 []
def fence1 : Desc := descOf 7 []

/-- Whether a SET_TABLE comes to entries to write, and how many. -/
def setOutLen : SetOut → Option Nat
  | .ok _ ws => some ws.length
  | _ => none

/-- A SET_TABLE of one entry of the tag area, read from mapped device memory. -/
def setTag1 : Desc := descOf 5 [(0, 22, 2), (0, 0, 10), (0xC, 0, 1)]

theorem test_hyps_tables :
    (taken (mapped on) set1).mcNext 5 = some set1 ∧ setOutLen ((McRun.start (taken (mapped on) set1) []).setTable set1.raw) = some 1 ∧ set1.f 0 0 8 ≠ 0x0A
    ∧ setOutLen ((McRun.start (taken (mapped on) setTag1) []).setTable setTag1.raw) = some 1 ∧ setTag1.f 0 0 8 = 0x0A
    ∧ (∀ sel ∈ [3, 4, 5], atOnce sel = false) ∧ (legged (ready on)).legOn = true ∧ (ready on).legOn = false := by decide +kernel

theorem test_hyps_query :
    (taken (ready on) query1).mcNext 10 = some query1 ∧ (taken (ready on) query1).queryShape 0x22 = some (32, 64) ∧ query1.clear 0x20 = true ∧ (tabCore query1.raw).isSome = true
    ∧ ((taken (ready on) query1).queryEntry 0x22 0 0).length = 32 ∧ query1.f 0xC 0 32 = 1 ∧ query1.f 0x1C 0 32 = 32 ∧ query1.f 0x10 0 64 = 0 := by decide +kernel

theorem test_hyps_mark_fence :
    (taken (ready on) mark2).mcNext 8 = some mark2 ∧ mark2.clear 0x10 = true ∧ mark2.f 0 22 1 = 0
    ∧ (taken (ready on) fence1).host.descs.find? (fun d => d.ring == 0 && !d.started && d.type == 7 && !(taken (ready on) fence1).fenced d) = some fence1
    ∧ fence1.clear 8 = true ∧ (taken (ready on) { fence1 with started := true }).fenceReady fence1 = true
    ∧ ({ taken (ready on) fence1 with host := { descs := [{ mark2 with order := 1 }, { fence1 with started := true }] } } : State).fenceReady fence1 = false := by decide +kernel

/-- A FILL of one line at address 0; a MOVE of one line from the host, to the host, and within the module from 64 to 0. -/
def fill1 : Desc := descOf 4 [(0x10, 0, 1)]
def moveD (dir src : Nat) : Desc := descOf 3 [(0, 22, dir), (8, 0, src), (0x18, 0, 1)]

/-- Such a transfer in hand. -/
def inHand (d : Desc) : State := taken (mapped on) { d with started := true }

theorem test_hyps_move_fill :
    (taken (mapped on) fill1).dmaNext 4 = some fill1 ∧ fill1.f 0x10 0 28 = 1 ∧ fill1.clear 0x18 = true ∧ (mapped on).xlate 0 .plain = .inr (0, 0)
    ∧ (mapped on).postHit .hbm 0 = false ∧ (mapped on).memLost .hbm 0 = false
    ∧ (∀ d < 3, (taken (mapped on) (moveD d 64)).dmaNext 3 = some (moveD d 64) ∧ (moveD d 64).f 0 22 2 = d ∧ (moveD d 64).f 0x18 0 28 = 1 ∧ (moveD d 64).clear 0x1C = true
      ∧ (moveD d 64).f 0 0 22 = 0)
    ∧ (match (mapped on).vaRead 64 64 with | .inl _ => false | .inr l => l.length == 64) = true
    ∧ (∀ d < 3, (inHand (moveD d 64)).dmaHand = some { moveD d 64 with started := true } ∧ (moveD d 64).type = 3 ∧ (moveD d 64).dmaLines = 1)
    ∧ (inHand fill1).dmaHand = some { fill1 with started := true } ∧ fill1.dmaLines = 1 ∧ fill1.progress = 0 ∧ fill1.replies = [] ∧ fill1.lost = false
    ∧ ({ fill1 with started := true, result := some (0, 1, 0) } : Desc).result = some (0, 1, 0) ∧ fill1.type = 4 := by decide +kernel

/-! ### Start-up, resets, power (16, 17). Whether an image verifies or a fuse is blown rests on the free constants of Config; for those
hypotheses the two cases of a clause are each other's negation, and an image that fails is shown here. -/

/-- A module in a state of BOOT_STATE, with HBM4 stack 0 present. -/
def booting (st : Boot) : State := { hbmReady 0 with boot := { st := st, inReset := false } }

theorem test_hyps_startup :
    (booting .rom).boot.st = .rom ∧ (booting .rom).boot.inReset = false ∧ (booting .rom).verifyImage [] = 2
    ∧ (∀ x ∈ ([] : List Nat), x < 20) ∧ (∃ x ∈ [20], 20 ≤ x) ∧ (booting .test).power.shut.toNat.testBit 8 = false
    ∧ (mget ({} : MemEntry) (booting .train).plan.mems 0).present = true ∧ nth DevTrain.full [.saved] 0 ∈ [DevTrain.saved, .full]
    ∧ nth DevTrain.full [.empty] 0 ∉ [DevTrain.saved, .full] ∧ (∀ x < 8, x ≠ 0 → (mget ({} : MemEntry) (booting .train).plan.mems x).present = false)
    ∧ keyed 0xA5000001 = true ∧ keyed 0xA5000002 = true ∧ bit (0xA5000002 : W32).toNat 1 = true ∧ (booting .waitImage).answers 0x01A4 = true
    ∧ (booting .receive).side.perstN = true ∧ ({ booting .receive with side := { (booting .receive).side with perstN := false } } : State).side.perstN = false
    ∧ ([] : List Byte).take (booting .receive).boot.imgLen.toNat = [] ∧ ([] : List Byte).length ≤ (booting .receive).boot.imgLen.toNat
    ∧ (booting .ready).answers 0x0190 = true ∧ (∀ p ∈ (hbmReady 0).mem.ctls, p.2.st ≠ 1) ∧ (∃ p ∈ (hbmReady 1).mem.ctls, p.2.st = 1) := by decide

theorem test_hyps_resets :
    (booting .ready).answers 0x0188 = true ∧ (booting .ready).side.trayRstN = true ∧ (booting .ready).side.vaux = true ∧ (booting .ready).power.inputBad = false
    ∧ State.reset.side.trayRstN = false ∧ State.reset.side.vaux = true ∧ State.reset.power.inputBad = false ∧ (booting .ready).side.perstN = true
    ∧ ({ booting .cpReset with boot := { st := .cpReset, inReset := false, cpStage := 3 } } : State).boot.cpStage = 3 ∧ (booting .cpReset).host.tables = []
    ∧ bit (0xA5000001 : W32).toNat 0 = true ∧ bit (0xA5000001 : W32).toNat 1 = false := by decide

/-- The power samples of a module that runs at a package power and an input power. -/
theorem test_hyps_power :
    10 * (ready on).power.pkgCap * 5 * min 50 [15000].length < ([15000].take 50).sum * 4 ∧ ¬ 10 * (ready on).power.pkgCap * 5 * min 50 [11000].length < ([11000].take 50).sum * 4
    ∧ 10 * (ready on).power.pkgCap * [11000].length < [11000].sum ∧ ¬ 10 * (ready on).power.pkgCap * [5000].length < [5000].sum
    ∧ ([5000].sum * 100 < 10 * (ready on).power.pkgCap * 97 * 1 ∧ [5000].sum * 100 < 14000 * 97 * 1 ∧ [5000].sum * 400 < 5 * (10 * (ready on).power.pkgCap) * 95 * 1 ∧ [5000].sum * 100 < 17500 * 95 * 1)
    ∧ ¬ [10 * (ready on).power.pkgCap].sum * 100 < 10 * (ready on).power.pkgCap * 97 * 1 ∧ ¬ 10 * (ready on).power.pkgCap * 1 < [10 * (ready on).power.pkgCap].sum
    ∧ (ready on).boot.inReset = false ∧ (ready on).power.hbmTemps = [] ∧ (ready on).power.railsOn = true ∧ (ready on).answers 0x3000 = true
    ∧ (∃ p ∈ ([(0, 850)] : List (Nat × Int)), 840 ≤ p.2) ∧ (∀ p ∈ ([(0, 850)] : List (Nat × Int)), p.2 < 920) ∧ (800 : Int) < 840 ∧ (760 : Int) ≤ 800
    ∧ ({ hbmPrevHot := true } : Power).hbmPrevHot = true ∧ ({} : Power).hbmRound = [] ∧ ({} : Power).hbmPrevHot = false
    ∧ bits (0 : W32).toNat 0 2 = bits (0 : W32).toNat 2 2 ∧ bits (4 : W32).toNat 0 2 < bits (4 : W32).toNat 2 2 := by decide

theorem test_hyps_droop :
    (ready on).power.limFrom ≤ (ready on).cycle ∧ mget 0 ({ held := [(0, 5)] } : Power).held 0 ≠ 0 ∧ mget 0 ({ rising := [(0, 5)] } : Power).rising 0 ≠ 0 ∧ (({} : Power).pinEn = false) ∧ ({} : Power).fallback = false
    ∧ ({ lastLeg := some ⟨0, 1, (0, 0)⟩, policyEn := true } : Power).lastLeg = some ⟨0, 1, (0, 0)⟩ ∧ (1 : Nat) ≠ 0 ∧ ({ policyEn := true } : Power).policyEn = true := by decide

theorem test_hyps_stops :
    (ready on).power.stopStage = 0 ∧ (ready on).boot.st ≠ .stopped ∧ (ready on).boot.st ≠ .failed ∧ ({ hotSamples := 1 } : Power).flowLowSince = none
    ∧ (∃ p ∈ ([(0, 920)] : List (Nat × Int)), 920 ≤ p.2) ∧ ({ (ready on).side with flowOk := true } : Side).flowOk = true ∧ (ready on).side.flowOk = false
    ∧ (ready on).power.sense.toNat.testBit 0 = false ∧ (ready on).power.sbStuck = false ∧ (ready on).side.vaux = true
    ∧ (hbmReady 0).devHere (8 - 8) = true ∧ (ready on).boot.st = .ready := by decide

/-! ### Recorder, replay, SPDM, sideband, registers (15, 18, 19) -/

/-- The first line of a capture: a START record of the lines that R480 gives it. -/
def startLine : Line := capHead 0 8 (startTotal % 65536) 0 0 0 0 startTotal 0

/-- A record of a kind that feeds at time 0, at line 1 of a capture of two lines. -/
def feedRec (kind cyc : Nat) : Recorder :=
  { replay := .feeding, feedAt := 1, len := 2, capture := mset 0 [] 1 (capHead 0 kind 0 0 0 cyc 0 0 0) }

theorem test_hyps_replay :
    ({ len := BitVec.ofNat 32 (startTotal + 1), capture := [(0, startLine)] } : Recorder).startOk = true ∧ ({} : Recorder).startOk = false
    ∧ (feedRec 9 0xFFFFFFFF).recordOk 1 = true ∧ (feedRec 0 0).recordOk 1 = false ∧ (feedRec 9 0xFFFFFFFF).lineField 1 8 24 8 = 9
    ∧ ({ ready on with trace := feedRec 9 0xFFFFFFFF } : State).recordDue 1 ≠ none ∧ ({ ready on with trace := feedRec 9 0 } : State).recordDue 1 = none
    ∧ ({ feedRec 2 0xFFFFFFFF with capture := mset 0 [] 1 (capHead 0 2 1 0 0 0xFFFFFFFF 0 0 0), len := 3 } : Recorder).recordOk 1 = true
    ∧ (ready on).answers 0x502C = true ∧ (ready on).answers 0x5000 = true ∧ (ready on).answers 0x5004 = true ∧ (ready on).answers 0x5010 = true
    ∧ (mapped on).plan.sizesFit 2048 0 = true ∧ (mapped on).plan.sizesFit 0 0 = false := by decide +kernel

set_option exponentiation.threshold 600 in
/-- A capture whose plan has nothing usable can be run on any module; one that asks for a bridge this module has not, not. -/
theorem test_hyps_replay_plan (r : Recorder) (h : r.capture = []) : (ready on).runsPlan (r.planOf (ready on).plan) = true := by
  have hf : ∀ off lo w, r.planField off lo w = 0 := by
    intro off lo w
    simp [Recorder.planField, h, mget, fld, bits]
  have hb : (r.planOf (ready on).plan).bridgeOk = 0 := by simp [Recorder.planOf, hf]
  simp only [State.runsPlan, Bool.and_eq_true, List.all_eq_true, List.mem_range]
  refine ⟨⟨⟨⟨?_, ?_⟩, ?_⟩, ?_⟩, ?_⟩ <;> intro c hc
  · simp [Recorder.planOf, mget_mtab, hc, Recorder.coreOf, hf]
  · simp [Recorder.planOf, mget_mtab, hc, Recorder.linkOf, hf]
  · simp [hb]
  · simp [ready, mget]
  · simp [Recorder.planOf, mget_mtab, hc, Recorder.memOf, hf]

set_option exponentiation.threshold 600 in
theorem test_hyps_replay_mismatch : ({ ready on with plan := { valid := true, bridgeOk := 0 } } : State).runsPlan
    (({ capture := [(1, BitVec.ofNat 512 (2 ^ 256))] } : Recorder).planOf { valid := true, bridgeOk := 0 }) = false := by
  have h : (List.range 4).all (fun b => !(({ capture := [(1, BitVec.ofNat 512 (2 ^ 256))] } : Recorder).planOf { valid := true, bridgeOk := 0 }).bridgeOk.toNat.testBit b
    || (0 : BitVec 4).toNat.testBit b) = false := by decide +kernel
  simp only [State.runsPlan, Bool.and_eq_false_iff]
  exact .inl (.inl (.inr h))

theorem test_hyps_spdm :
    (ready on).spdmOn = true ∧ ({ version := true } : Spdm).version = true ∧ ({ algs := true } : Spdm).signing = none ∧ ({ algs := true, session := 1 } : Spdm).session = 1
    ∧ ({ signing := some (.challenge 0 0, 0) } : Spdm).signing = some (.challenge 0 0, 0) := by decide

theorem test_hyps_sideband :
    (ready on).sbOn = true ∧ (ready on).side.dyn = none ∧ (0x40 : BitVec 7).toNat = 0x40 + (ready on).side.slot.toNat ∧ (0x41 : BitVec 7).toNat ≠ 0x40 + (ready on).side.slot.toNat := by decide

theorem test_hyps_registers :
    (∀ off ∈ [0x4010, 0x01A0, 0x2018, 0x2008, 0x5028, 0x3040, 0x0108, 0x1000], (ready on).answers off = true) ∧ State.reset.answers 0x2000 = false
    ∧ ((ready on).ring 0).enable = false ∧ ((ready on).ring 0).stopped = true ∧ ((ringed ring1).ring 0).enable = true ∧ ownRow 0x5000 (BitVec.ofNat 32 (2 ^ 27)) = true := by decide

end Sys2Proof.Tests
end

-- ==== Sys2Proof/Proofs/Core.lean ====

section
namespace Sys2Proof.Machine

/-- Time moved on changes nothing of the time base but the time itself. -/
theorem State.advance_time (s : State) (d : Nat) : (s.advance d).time = { s.time with now := s.time.now + d } := by
  simp [State.advance, State.clocks]

/-- An idle nanosecond runs the oscillator on by one, whatever the slew does. -/
theorem State.tick_ns (s : State) : s.tick.clk.ns = s.clk.ns + 1 := by
  rw [← State.advance_ns s 1]
  unfold State.tick
  simp only []
  split
  · rfl
  · split
    · rfl
    · split <;> rfl

/-- An idle nanosecond before the slew's 10 µs are over (R47). -/
theorem State.tick_before_slew (s : State) (h : s.time.slewNs + 1 < 10000) :
    s.tick.time = { s.time with now := s.time.now + 1, slewNs := s.time.slewNs + 1 } := by
  simp [State.tick, h, State.advance_time]

/-- An idle nanosecond that ends the slew's 10 µs: with TIME sync enabled, one nanosecond of the offset is worked off (R47). -/
theorem State.tick_at_slew (s : State) (h : 10000 ≤ s.time.slewNs + 1) :
    s.tick.time.slewNs = 0 ∧ s.time.now ≤ s.tick.time.now ∧ s.tick.time.now ≤ s.time.now + 2
      ∧ (s.time.syncEn = true → s.tick.time.offset = s.time.offset - s.time.offset.sign
        ∧ (s.tick.time.now : Int) = s.time.now + 1 + s.time.offset.sign) := by
  have hn : ¬ s.time.slewNs + 1 < 10000 := by omega
  unfold State.tick
  simp only [hn, if_false]
  by_cases hs : s.time.syncEn = true
  · rcases lt_trichotomy s.time.offset 0 with ho | ho | ho
    · have : ¬ s.time.offset > 0 := by omega
      simp [hs, ho, this, State.advance_time, Int.sign_eq_neg_one_of_neg ho]
    · simp [hs, ho, State.advance_time]
    · simp [hs, ho, State.advance_time, Int.sign_eq_one_of_pos ho]
      omega
  · simp [hs, State.advance_time]

end Sys2Proof.Machine

open Sys2Proof Sys2Proof.Machine

/-- Settles O1: `step` takes the head of the queue, and an idle step is the tick of the module's clocks. -/
theorem stepRunsFrontCommand : Obligations.StepRunsFrontCommand := by
  intro s c r
  exact ⟨rfl, rfl, State.tick_ns _⟩

/-- Settles O7, by the two kinds of idle nanosecond: one before the slew's 10 µs are over, and the one that ends them. -/
theorem slewingNeverMovesBack : Obligations.SlewingNeverMovesBack := by
  intro s hp
  refine ⟨s.tick, by rw [step, hp], ?_⟩
  by_cases h : s.time.slewNs + 1 < 10000
  · rw [State.tick_before_slew s h]
    exact ⟨by simp, by simp, fun _ => ⟨rfl, rfl, rfl⟩, fun hge => absurd h (by omega)⟩
  · obtain ⟨hslew, hlo, hhi, hsync⟩ := State.tick_at_slew s (by omega)
    exact ⟨hlo, hhi, fun hlt => absurd hlt h, fun _ => ⟨hslew, hsync⟩⟩
end

-- ==== Sys2Proof/Proofs/TimeBase.lean ====

section
namespace Sys2Proof.Machine

/-- A TIME block, good, from a synchronised neighbour that follows the master at (1, 0, 0) and reads 2,000 ns. -/
def farTimeBlock : Block := ({ kind := 5, leg := 0x18400, value := 2000 } : Sync).block

/-- A module at (0, 0, 0) of a torus of two, link 0 up to its neighbour, in which the bank of what TIME blocks said lists link 3
twice. -/
def heardTwice : State :=
  { lnk := { ctrl := { coord := 0x8000, sizeX := 1 }, links := [(0, { st := .up, dir := 0 })] }
    time := { heard := [(3, { offset := 2000 }), (3, { master := 5 })] } }

/-- The master that link 3's entry names before any block is heard: none. -/
theorem heardTwice_link3 : (mget ({} : TimeHeard) heardTwice.time.heard 3).master = 0 := by decide

/-- The master that link 3's entry names in the state that a command answers. -/
def masterOfLink3 : Out → Option W16
  | .next t => some (mget ({} : TimeHeard) t.time.heard 3).master
  | _ => none

theorem farTimeBlock_good : blockGood farTimeBlock = true := by decide +kernel

theorem farTimeBlock_kind : (syncOf farTimeBlock).kind = 5 := by decide +kernel

theorem heardTwice_aligned : heardTwice.linkAligned (0 : LinkIx).val = true := by decide +kernel

/-- The block steps the time base by 2,000 ns, and link 3 then names master 5. -/
theorem heardTwice_steps : masterOfLink3 (exec (.time 0 farTimeBlock) heardTwice) = some 5 := by decide +kernel

end Sys2Proof.Machine

open Sys2Proof Sys2Proof.Machine

/-- Refutes O44: its frame of what the other links' TIME blocks said. A step of the time base maps every entry of that bank and
leaves out those that come to the default, so that in a bank that is not canonical an entry listed behind one of these shows: link 3,
which named no master, names master 5 after a TIME block of link 0. (Of a canonical bank the clause holds.) -/
theorem not_timeBase : ¬ Obligations.TimeBase := by
  intro h
  obtain ⟨-, hheard, -⟩ := h heardTwice 0 farTimeBlock 0
  obtain ⟨t, ht, -, -, hother, -⟩ := hheard farTimeBlock_good farTimeBlock_kind heardTwice_aligned
  have hstays := (hother 3 (by decide)).trans heardTwice_link3
  have hnow := heardTwice_steps
  rw [ht, masterOfLink3, hstays] at hnow
  exact absurd hnow (by decide)
end

-- ==== Sys2Proof/Proofs/Adoption.lean ====

section
namespace Sys2Proof.Machine

/-- An ADOPT of place (0, 0, 0) in a torus of one module, with no groups and no image descriptors. -/
def adoptPlain : Desc :=
  { order := 0, ring := 0, slot := 0, raw := BitVec.ofNat 512 (9 * 2 ^ 24 + 0x8000 * 2 ^ 80), taken := 0, started := false, since := 0, result := none }

/-- A DATA flit of this module, of send queue 0's first transfer, that awaits its acknowledgement. -/
def ownFlit (coord : Nat) : TxFlit := { header := BitVec.ofNat 256 (coord * 2 ^ 96), payload := [], source := 1, queue := 0 }

/-- The transfer of that flit; it adds 1 to counter 0 of core 0 should it fail (R331). -/
def failCounted : Xfer := { queue := 0, count := 0, post := BitVec.ofNat 512 (2 ^ 151) }

/-- Link 0 up with a direction, the flit in its retry buffer, and the transfer open. -/
def flitInFlight (coord : Nat) : LinkSys := { links := [(0, { st := .up, dir := 0, unacked := [ownFlit coord] })], xfers := [failCounted] }

/-- A spare with a flit in flight: its core 0 is powered and holds no program, and ADOPT is its next descriptor. -/
def spareInFlight : State :=
  { plan := { valid := true }
    cores := [(0, { power := .on })]
    lnk := flitInFlight 0x8000
    host := { descs := [adoptPlain] } }

/-- The counters of core 0 in the state that a command answers. -/
def countersOfCore0 : Out → Option (Mem W32)
  | .next t => some (t.core 0).ctrs
  | _ => none

theorem spareInFlight_next : spareInFlight.mcNext 9 = some adoptPlain := by decide +kernel
theorem adoptPlain_good : adoptPlain.adoptBad = false := by decide +kernel
theorem adoptPlain_noImage : adoptPlain.f 0x20 0 16 = 0 := by decide +kernel
theorem spareInFlight_free : spareInFlight.adoptBusy = false := by decide +kernel
theorem spareInFlight_clear : (spareInFlight.core 0).ctrs = [] := by decide +kernel

/-- The ADOPT takes the link's direction away, and the transfer's failure is counted (R317, R328, R331). -/
theorem spareInFlight_counts : countersOfCore0 (exec (.adopt []) spareInFlight) = some [(0, 1)] := by decide +kernel

end Sys2Proof.Machine

open Sys2Proof Sys2Proof.Machine

/-- Refutes O45: the frame of ADOPT's cores. ADOPT writes the module's new coordinate into the link control block, which takes link 0's
direction away; the link's unacknowledged flit then finds no route, its transfer fails, and its FAIL_CTR adds 1 to counter 0 of core 0
(R317, R328, R331). -/
theorem not_joinAndAdopt : ¬ Obligations.JoinAndAdopt := by
  intro h
  obtain ⟨-, hadopt, -⟩ := h spareInFlight 0 0
  obtain ⟨t, ht, -, -, -, hcores, -⟩ :=
    hadopt adoptPlain spareInFlight_next adoptPlain_good spareInFlight_free adoptPlain_noImage
  have hcount := spareInFlight_counts
  have hsame : t.core 0 = spareInFlight.core 0 := congrArg (fun m => mget ({} : Core) m 0) hcores
  rw [ht, countersOfCore0, hsame, spareInFlight_clear] at hcount
  exact absurd hcount (by decide)
end

-- ==== Sys2Proof/Proofs/Milepost.lean ====

section
namespace Sys2Proof.Machine

/-- A module at milepost 0 of a series without a pace leader: group 0 runs, a LINK_CTRL write that disables every link waits for
the milepost, and link 0 has a flit in flight. -/
def milepostInFlight : State :=
  { plan := { valid := true }
    cores := [(0, { power := .on })]
    lnk := flitInFlight 0
    series := some { founder := 0, check := 0, period := 2000, latency := 40, joinTime := 0, ratio := 1, leader := none, due := some 0 }
    groups := [(0, { active := true, st := .running })]
    host := { tables := [{ sel := 0x08, core := none, ix := 0, val := 0 }] } }

/-- Whether a series runs in the state that a command answers. -/
def hasSeries : Out → Bool
  | .next t => t.series.isSome
  | _ => false

theorem milepostInFlight_at : milepostInFlight.milepostAt = some 0 := by decide +kernel

/-- The waiting write disables link 0 after the milepost has cleared the counters, and the transfer's failure is counted (R24, R262,
R331, R412). -/
theorem milepostInFlight_counts : countersOfCore0 (exec .milepost milepostInFlight) = some [(0, 1)] := by decide +kernel

theorem milepostInFlight_goesOn : hasSeries (exec .milepost milepostInFlight) = true := by decide +kernel

end Sys2Proof.Machine

open Sys2Proof Sys2Proof.Machine

/-- Refutes O41: the clause that every core's counters are clear in the leg that opens. A waiting LINK_CTRL table write takes effect at
the milepost after the counters are cleared (R24, R412); it disables link 0, whose flit finds no other route, so the flit's transfer
fails and counts in core 0 (R331). -/
theorem not_milepostOpensLeg : ¬ Obligations.MilepostOpensLeg := by
  intro h
  obtain ⟨hfires, -⟩ := h milepostInFlight _ rfl rfl
  obtain ⟨u, hu, hopens⟩ := hfires 0 milepostInFlight_at
  have hon := milepostInFlight_goesOn
  have hcount := milepostInFlight_counts
  rw [hu] at hon hcount
  obtain ⟨q, hq⟩ := Option.isSome_iff_exists.mp hon
  obtain ⟨-, -, hclear, -⟩ := hopens q hq
  rw [countersOfCore0, (hclear 0).1] at hcount
  exact absurd hcount (by decide)
end

-- ==== Sys2Proof/Proofs/Symbols.lean ====

section
namespace Sys2Proof.Machine

/-! ### Folds -/

/-- A fold whose every step keeps a part of the state keeps it. -/
theorem State.foldl_keeps {α β : Type} (g : State → β) (f : State → α → State) (hf : ∀ t a, g (f t a) = g t) (l : List α) (s : State) :
    g (l.foldl f s) = g s := by
  induction l generalizing s with
  | nil => rfl
  | cons a l ih => exact (ih _).trans (hf s a)

/-! ### What symbols leave alone -/

/-- Groups, series, time, pace, cores, device memory and the module's place stand: what a symbol sent, heard or forwarded and a
waymark have in common. -/
structure State.legsStand (s t : State) : Prop where
  groups : t.groups = s.groups
  series : t.series = s.series
  time : t.time = s.time
  pace : t.pace = s.pace
  conds : t.conds = s.conds
  cores : t.cores = s.cores
  mem : t.mem = s.mem
  coord : t.coord = s.coord

theorem State.legsStand.trans {s t u : State} (h : s.legsStand t) (g : t.legsStand u) : s.legsStand u :=
  ⟨g.groups.trans h.groups, g.series.trans h.series, g.time.trans h.time, g.pace.trans h.pace, g.conds.trans h.conds, g.cores.trans h.cores,
    g.mem.trans h.mem, g.coord.trans h.coord⟩

/-- Where the links, the outbox and the recorder alone change, and not the module's place, the legs stand. -/
theorem State.legsStand.of_only {s t : State} {l : LinkSys} {o : List Output} {r : Recorder} (h : { t with lnk := l, outbox := o, trace := r } = s)
    (hc : t.coord = s.coord) : s.legsStand t := by
  subst h
  exact ⟨rfl, rfl, rfl, rfl, rfl, rfl, rfl, hc⟩

theorem State.onlyLinks.legsStand {s t : State} (h : s.onlyLinks t) (hc : t.coord = s.coord) : s.legsStand t :=
  .of_only (r := t.trace) h hc

theorem State.sendDir_lnk (s : State) (d : Nat) (x : Sync) : (s.sendDir d x).lnk = s.lnk := by
  unfold State.sendDir
  split
  · rfl
  · split
    · simp
    · generalize (if d % 2 = 0 then d + 1 else d - 1) = back
      simp only []
      split <;> simp

theorem State.sendBoth_lnk (s : State) (d : Nat) (x : Sync) (p m : Nat) : (s.sendBoth d x p m).lnk = s.lnk := by
  unfold State.sendBoth
  simp only []
  split
  · rw [State.sendDir_lnk, State.sendDir_lnk]
  · split <;> exact State.sendDir_lnk ..

theorem State.forward_lnk (s : State) (l : Nat) (x : Sync) : (s.forward l x).lnk = s.lnk := by
  unfold State.forward
  simp only []
  split
  · rfl
  · exact (State.foldl_keeps State.lnk _ (fun t e => State.sendBoth_lnk ..) _ _).trans (State.sendDir_lnk ..)

/-- A symbol originated leaves the module its place. -/
theorem State.originate_coord (s : State) (lo n : Nat → Nat) (x : Sync) : (s.originate lo n x).coord = s.coord := by
  unfold State.originate
  simp only []
  exact (State.foldl_keeps State.coord _ (fun t d => congrArg (fun q : LinkSys => q.ctrl.coord) (State.sendBoth_lnk ..)) _ _).trans rfl

/-- A symbol sent into a group's box leaves the legs. -/
theorem State.sendGroup_stands (s : State) (n : Nat) (x : Sync) : s.legsStand (s.sendGroup n x) :=
  (State.originate_only ..).legsStand (State.originate_coord ..)

@[simp] theorem State.sendGroup_groups (s : State) (n : Nat) (x : Sync) : (s.sendGroup n x).groups = s.groups := (s.sendGroup_stands n x).groups
@[simp] theorem State.sendGroup_series (s : State) (n : Nat) (x : Sync) : (s.sendGroup n x).series = s.series := (s.sendGroup_stands n x).series
@[simp] theorem State.sendGroup_time (s : State) (n : Nat) (x : Sync) : (s.sendGroup n x).time = s.time := (s.sendGroup_stands n x).time
@[simp] theorem State.sendGroup_pace (s : State) (n : Nat) (x : Sync) : (s.sendGroup n x).pace = s.pace := (s.sendGroup_stands n x).pace
@[simp] theorem State.sendGroup_conds (s : State) (n : Nat) (x : Sync) : (s.sendGroup n x).conds = s.conds := (s.sendGroup_stands n x).conds
@[simp] theorem State.sendGroup_cores (s : State) (n : Nat) (x : Sync) : (s.sendGroup n x).cores = s.cores := (s.sendGroup_stands n x).cores
@[simp] theorem State.sendGroup_mem (s : State) (n : Nat) (x : Sync) : (s.sendGroup n x).mem = s.mem := (s.sendGroup_stands n x).mem
@[simp] theorem State.sendGroup_coord (s : State) (n : Nat) (x : Sync) : (s.sendGroup n x).coord = s.coord := (s.sendGroup_stands n x).coord

/-- A symbol that is heard is taken with its fields and forwarded, and the legs stand (R323 to R326). -/
theorem State.hears_taken (s : State) (l : Nat) (b : Block) (h : s.hears l b) :
    ∃ t, s.syncIn l b = some (syncOf b, t) ∧ s.legsStand (t.forward l (syncOf b)) := by
  obtain ⟨hnone, hsome⟩ := s.syncIn_spec l b
  cases hs : s.syncIn l b with
  | none => exact absurd h (hnone.mp hs)
  | some p =>
    obtain ⟨x, t⟩ := p
    obtain ⟨rfl, -, hkeep, -, hctrl⟩ := hsome x t hs
    have hin : s.legsStand t := .of_only (o := t.outbox) hkeep (congrArg LinkCtrl.coord hctrl)
    have hfwd := (t.forward_only l (syncOf b)).legsStand (congrArg (fun q : LinkSys => q.ctrl.coord) (t.forward_lnk l (syncOf b)))
    exact ⟨t, rfl, hin.trans hfwd⟩

end Sys2Proof.Machine
end

-- ==== Sys2Proof/Proofs/Pace.lean ====

section
namespace Sys2Proof.Machine

/-! ### The pace operations (R30 to R35) -/

@[simp] theorem State.markG_work (s : State) (k c n : Nat) (o : W16) (p : Nat) : (s.markG k c n o p).work = s.work := by simp [State.markG, State.work]
@[simp] theorem State.markG_series (s : State) (k c n : Nat) (o : W16) (p : Nat) : (s.markG k c n o p).series = s.series := by simp [State.markG]
@[simp] theorem State.markG_time (s : State) (k c n : Nat) (o : W16) (p : Nat) : (s.markG k c n o p).time = s.time := by simp [State.markG]
@[simp] theorem State.markG_pace (s : State) (k c n : Nat) (o : W16) (p : Nat) : (s.markG k c n o p).pace = s.pace := by simp [State.markG]
@[simp] theorem State.markG_lnk (s : State) (k c n : Nat) (o : W16) (p : Nat) : (s.markG k c n o p).lnk = s.lnk := by simp [State.markG]

@[simp] theorem State.updSeries_work (s : State) (f : Series → Series) : (s.updSeries f).work = s.work := rfl

theorem State.updSeries_series (s : State) (f : Series → Series) : (s.updSeries f).series = s.series.map f := rfl

@[simp] theorem State.sendGroup_work (s : State) (n : Nat) (x : Sync) : (s.sendGroup n x).work = s.work := by simp [State.work]

@[simp] theorem State.milepostRecord_work (s : State) (r : Series) (t : Nat) (e : Int) : (s.milepostRecord r t e).work = s.work := by
  unfold State.milepostRecord; simp only []; split <;> simp [State.work]
@[simp] theorem State.milepostRecord_series (s : State) (r : Series) (t : Nat) (e : Int) : (s.milepostRecord r t e).series = s.series := by
  unfold State.milepostRecord; simp only []; split <;> simp
@[simp] theorem State.milepostRecord_pace (s : State) (r : Series) (t : Nat) (e : Int) : (s.milepostRecord r t e).pace = s.pace := by
  unfold State.milepostRecord; simp only []; split <;> simp

@[simp] theorem State.sidebandFault_work (s : State) : s.sidebandFault.work = s.work := by simp [State.sidebandFault, State.work]
@[simp] theorem State.sidebandFault_series (s : State) : s.sidebandFault.series = s.series := by simp [State.sidebandFault]
@[simp] theorem State.sidebandFault_time (s : State) : s.sidebandFault.time = s.time := by simp [State.sidebandFault]
@[simp] theorem State.sidebandFault_pace (s : State) : s.sidebandFault.pace = s.pace := by simp [State.sidebandFault]

/-- Setting the next due time sets it in the series; the due symbol that a leader sends changes nothing else here. -/
theorem State.setDue_series (s : State) (r : Series) (due : Nat) : (s.setDue r due).series = s.series.map (fun q => { q with due := some due }) := by
  unfold State.setDue State.sendDue; simp only []; split <;> simp [State.updSeries_series]
@[simp] theorem State.setDue_work (s : State) (r : Series) (due : Nat) : (s.setDue r due).work = s.work := by
  unfold State.setDue State.sendDue; simp only []; split <;> simp
@[simp] theorem State.setDue_pace (s : State) (r : Series) (due : Nat) : (s.setDue r due).pace = s.pace := by
  unfold State.setDue State.sendDue; simp only []; split <;> simp

/-- Milepost 0 placed: its due time stands in the series. -/
theorem State.placeZero_series (s : State) (r : Series) (due : Nat) : (s.placeZero r due).series = s.series.map (fun q => { q with due := some due }) := by
  simp [State.placeZero, State.sendDue, State.updSeries_series]
@[simp] theorem State.placeZero_work (s : State) (r : Series) (due : Nat) : (s.placeZero r due).work = s.work := by
  simp [State.placeZero, State.sendDue]
@[simp] theorem State.placeZero_pace (s : State) (r : Series) (due : Nat) : (s.placeZero r due).pace = s.pace := by
  simp [State.placeZero, State.sendDue]

/-- A milepost compared with an edge locks pace with the edge's error (R32). -/
theorem State.paceFound_pace (s : State) (r : Series) (t : Nat) (e : Int) : (s.paceFound r t e).pace = { s.pace with st := .locked, error := e } := by
  unfold State.paceFound; simp only []; split <;> split <;> simp
@[simp] theorem State.paceFound_work (s : State) (r : Series) (t : Nat) (e : Int) : (s.paceFound r t e).work = s.work := by
  unfold State.paceFound; simp only []; split <;> split <;> simp <;> rfl

/-- The leader's next due time after an edge is one period and the error later; a follower's stands (R31, R32). -/
theorem State.paceFound_due (s : State) (r q : Series) (t : Nat) (e : Int) (h : s.series = some q) :
    (s.paceFound r t e).series.bind (·.due) = if s.leads r then some (((t + r.period : Nat) : Int) + e).toNat else q.due := by
  unfold State.paceFound
  simp only []
  split <;> split <;> simp [State.setDue_series, State.updSeries_series, h]

/-- A window that closes without an edge loses pace (R32). -/
theorem State.paceMissed_pace (s : State) (r : Series) (t : Nat) (e : Int) : (s.paceMissed r t e).pace.st = .lost ∧ (s.paceMissed r t e).pace.error = 0 := by
  unfold State.paceMissed; simp only []; split <;> split <;> split <;> simp
@[simp] theorem State.paceMissed_work (s : State) (r : Series) (t : Nat) (e : Int) : (s.paceMissed r t e).work = s.work := by
  unfold State.paceMissed; simp only []; split <;> split <;> split <;> simp <;> rfl

/-- It closes the window, and the leader's next due time is one period later (R32). -/
theorem State.paceMissed_series (s : State) (r q : Series) (t : Nat) (e : Int) (h : s.series = some q) :
    (s.paceMissed r t e).series = some { q with window := false, due := if s.leads r then some (t + r.period) else q.due } := by
  unfold State.paceMissed
  simp only []
  split <;> split <;> split <;> simp_all [State.setDue_series, State.updSeries_series]

end Sys2Proof.Machine
end
section
namespace Sys2Proof.Machine

/-! ### Pace edges (R32, R500) -/

/-- An edge now is stamped: the module is out of reset, and the last stamped edge is not within 1 µs (R500). -/
def State.edgeStamped (s : State) : Prop :=
  s.side.trayRstN = true ∧ s.boot.inReset = false ∧ ∀ e ∈ s.pace.edges.head?, e + 1000 ≤ s.time.now ∨ s.time.now < e

/-- The module with an edge of now captured and kept. -/
def State.noteEdge (s : State) : State :=
  let u := s.captureIn 6 0 0 0 []
  { u with pace := { u.pace with edges := u.edgesKept (s.time.now :: u.pace.edges) s.time.now } }

@[simp] theorem State.noteEdge_work (s : State) : s.noteEdge.work = s.work := by simp [State.noteEdge, State.work]
@[simp] theorem State.noteEdge_series (s : State) : s.noteEdge.series = s.series := by simp [State.noteEdge]
@[simp] theorem State.noteEdge_lnk (s : State) : s.noteEdge.lnk = s.lnk := by simp [State.noteEdge]
theorem State.noteEdge_edges (s : State) : s.noteEdge.pace.edges = s.edgesKept (s.time.now :: s.pace.edges) s.time.now := by
  simp [State.noteEdge, State.edgesKept]

/-- What is kept is the latest edges, at least eight of them. -/
theorem State.edgesKept_take (s : State) (es : List Nat) (t : Nat) : ∃ n, 8 ≤ n ∧ s.edgesKept es t = es.take n := ⟨_, le_max_left .., rfl⟩

/-- An edge that the window of a milepost can reach back to, with every later one, is kept (R32). -/
theorem State.mem_edgesKept (s : State) (r : Series) (p w : List Nat) (e t : Nat) (hs : s.series = some r) (h : ∀ y ∈ p ++ [e], t ≤ y + r.period / 8) :
    e ∈ s.edgesKept (p ++ e :: w) t := by
  have hreach : (p ++ [e]).length ≤ ((p ++ e :: w).takeWhile (fun x => decide (t ≤ x + r.period / 8))).length := by
    rw [List.append_cons p e w, List.takeWhile_append_of_pos (fun y hy => by simpa using h y hy), List.length_append (as := p ++ [e])]
    exact Nat.le_add_right ..
  simp only [State.edgesKept, hs]
  refine List.mem_of_mem_take (i := (p ++ [e]).length) ?_
  rw [List.take_take, min_eq_left (hreach.trans (le_max_right ..)), List.append_cons p e w, List.take_left]
  simp

/-- The model's test of the last stamped edge. -/
theorem State.edgeStamped_iff_cons (s : State) (e : Nat) (l : List Nat) (h : s.pace.edges = e :: l) :
    s.edgeStamped ↔ s.side.trayRstN = true ∧ s.boot.inReset = false ∧ (e + 1000 ≤ s.time.now ∨ s.time.now < e) := by
  simp [State.edgeStamped, h]

theorem State.edgeStamped_iff_nil (s : State) (h : s.pace.edges = []) : s.edgeStamped ↔ s.side.trayRstN = true ∧ s.boot.inReset = false := by
  simp [State.edgeStamped, h]

theorem execPaceEdge_unstamped (s : State) (h : ¬ s.edgeStamped) : execPaceEdge s = .next s := by
  unfold execPaceEdge
  simp only []
  rw [if_pos]
  cases he : s.pace.edges with
  | nil => simpa [imp_iff_not_or] using (s.edgeStamped_iff_nil he).not.mp h
  | cons e l => simpa [imp_iff_not_or, or_assoc] using (s.edgeStamped_iff_cons e l he).not.mp h

/-- A stamped edge is kept, whatever waits for it, and nothing of the computation changes; in an open window it locks pace (R32). -/
theorem execPaceEdge_stamped (s : State) (h : s.edgeStamped) :
    ∃ t, execPaceEdge s = .next t ∧ t.pace.edges = s.noteEdge.pace.edges ∧ t.work = s.work
      ∧ ∀ r o, s.series = some r → r.opened = some o → r.relock = false → r.window = true → near8 r.period o s.time.now = true →
        t = s.noteEdge.paceFound r o ((s.time.now : Int) - o) := by
  unfold execPaceEdge
  simp only []
  rw [if_neg]
  · cases hs : s.series with
    | none => exact ⟨_, rfl, rfl, s.noteEdge_work, fun r o hr => by simp at hr⟩
    | some r =>
      simp only []
      cases ho : r.opened with
      | none =>
        simp only []
        split
        · exact ⟨_, rfl, by rw [State.placeZero_pace]; rfl, (State.placeZero_work ..).trans s.noteEdge_work, by rintro _ _ ⟨⟩ h; simp [ho] at h⟩
        · exact ⟨_, rfl, rfl, s.noteEdge_work, by rintro _ _ ⟨⟩ h; simp [ho] at h⟩
      | some o =>
        simp only []
        split
        · next hre =>
          have hno : r.relock ≠ false := by simp_all
          split
          · exact ⟨_, rfl, by rw [State.setDue_pace]; rfl, (State.setDue_work ..).trans s.noteEdge_work, by rintro _ _ ⟨⟩ - h; exact absurd h hno⟩
          · exact ⟨_, rfl, rfl, s.noteEdge_work, by rintro _ _ ⟨⟩ - h; exact absurd h hno⟩
        · split
          · exact ⟨_, rfl, by rw [State.paceFound_pace]; rfl, (State.paceFound_work ..).trans s.noteEdge_work,
              by rintro _ _ ⟨⟩ h - - -; rw [ho] at h; cases h; rfl⟩
          · next hwin => exact ⟨_, rfl, rfl, s.noteEdge_work, by rintro _ _ ⟨⟩ h - hw hn; rw [ho] at h; cases h; simp [hw, hn] at hwin⟩
  · cases he : s.pace.edges with
    | nil => simpa using (s.edgeStamped_iff_nil he).mp h
    | cons e l => simpa [imp_iff_not_or, and_assoc] using (s.edgeStamped_iff_cons e l he).mp h

end Sys2Proof.Machine
end
section
namespace Sys2Proof.Machine

/-! ### The other pace commands -/

@[simp] theorem State.toTime_series (s : State) (t : Nat) : (s.toTime t).series = s.series := State.advance_series ..
@[simp] theorem State.toTime_groups (s : State) (t : Nat) : (s.toTime t).groups = s.groups := State.advance_groups ..
@[simp] theorem State.toTime_mem (s : State) (t : Nat) : (s.toTime t).mem = s.mem := State.advance_mem ..
@[simp] theorem State.toTime_pace (s : State) (t : Nat) : (s.toTime t).pace = s.pace := State.advance_pace ..
@[simp] theorem State.toTime_lnk (s : State) (t : Nat) : (s.toTime t).lnk = s.lnk := State.advance_lnk ..
@[simp] theorem State.toTime_host (s : State) (t : Nat) : (s.toTime t).host = s.host := State.advance_host ..
@[simp] theorem State.leads_toTime (s : State) (t : Nat) (r : Series) : (s.toTime t).leads r = s.leads r := by simp [State.leads, State.coord]

/-- A compared milepost's window that closes is decided at its end (R32). -/
theorem execPaceWindowEnd_open (s : State) (r : Series) (o : Nat) (hs : s.series = some r) (ho : r.opened = some o) (hw : r.window = true) :
    execPaceWindowEnd s = .next ((s.toTime (o + r.period / 8)).paceMissed r o (nearestEdge s.pace.edges o)) := by
  simp [execPaceWindowEnd, hs, ho, hw, happen]

/-- Without an edge the leader loses pace and places milepost 0 at the end of the time it waits for one (R35). -/
theorem execPaceAcquireTimeout_leads (s : State) (r : Series) (hs : s.series = some r) (ho : r.opened = none) (hd : r.due = none) (hl : s.leads r = true) :
    ∃ t, execPaceAcquireTimeout s = .next t ∧ t.pace.st = .lost
      ∧ t.series.bind (·.due) = some (max s.time.now (r.joinTime + r.latency + 2 * r.ratio * r.period) + 2 * r.latency)
      ∧ t.work = (s.toTime (r.joinTime + r.latency + 2 * r.ratio * r.period)).work := by
  refine ⟨_, by unfold execPaceAcquireTimeout; rw [hs]; simp only [happen, ho, hd, hl, Option.isNone_none, Bool.and_self, if_true]; rfl, ?_, ?_, ?_⟩
  · simp
  · simp [State.placeZero_series, hs, State.toTime_now]
  · rw [State.placeZero_work, State.sidebandFault_work, State.markG_work]; rfl

/-- A symbol for a group that is owed nothing teaches nothing of it. -/
theorem State.learnOwed_none (s : State) (x : Sync) (h : (s.group x.group).owed = none) : s.learnOwed x = s := by simp [State.learnOwed, h]

/-- A due time learnt stands in the series; one later than a correction can give marks a realigned leg (R32, R34). -/
theorem State.learnDue_spec (s : State) (r : Series) (o due : Nat) (hs : s.series = some r) (ho : r.opened = some o) :
    (s.learnDue r due).series.bind (·.due) = some due ∧ (s.learnDue r due).work = s.work
      ∧ (8 * (o + r.period) + r.period < 8 * due → (s.learnDue r due).series.bind (·.nominal) = some (o + r.period) ∧ (s.learnDue r due).conds.pace = true) := by
  simp only [State.learnDue, ho]
  split
  · exact ⟨by simp [State.updSeries_series, hs], rfl, fun _ => ⟨by simp [State.updSeries_series, hs], rfl⟩⟩
  · next h => exact ⟨by simp [State.updSeries_series, hs], rfl, fun hlate => absurd (.inl hlate) h⟩

/-- A due symbol of the series' founding group for the next leg is taken by a module that does not lead (R31, R35). -/
theorem execDue_taken (s : State) (l : LinkIx) (b : Block) (r : Series) (o : Nat) (hh : s.hears l.val b) (hk : (syncOf b).kind = 3)
    (hw : (s.group (syncOf b).group).owed = none) (hs : s.series = some r) (hf : r.founder = (syncOf b).group) (hl : s.leads r = false)
    (ho : r.opened = some o) (hleg : (syncOf b).leg = r.legNo + 1) :
    ∃ t : State, execDue l b s = .next (t.learnDue r (syncOf b).value) ∧ t.series = some r ∧ t.work = s.work := by
  obtain ⟨t, hin, hstand⟩ := s.hears_taken l.val b hh
  have howed : ((t.forward l.val (syncOf b)).group (syncOf b).group).owed = none := by rw [State.group, hstand.groups]; exact hw
  have hlead : (t.forward l.val (syncOf b)).leads r = false := by rw [State.leads, hstand.coord]; exact hl
  refine ⟨t.forward l.val (syncOf b), ?_, hstand.series.trans hs, by rw [State.work, hstand.cores, hstand.mem, hstand.groups]; rfl⟩
  simp [execDue, hk, hin, State.learnOwed_none _ _ howed, hs, hf, hl, ho, hleg]

theorem State.work_eq_iff (s t : State) : t.work = s.work ↔ t.cores = s.cores ∧ t.mem = s.mem ∧ t.groups = s.groups := by simp [State.work]

/-- A register write that answers acts on the state with the write captured (R391, R479). -/
theorem State.regCmd_answers (s : State) (off : Nat) (v : W32) (f : State → State) (h : s.answers off = true) : s.regCmd off v f = .next (f (s.regIn off v)) := by
  simp [State.regCmd, h]

@[simp] theorem State.regIn_series (s : State) (off : Nat) (v : W32) : (s.regIn off v).series = s.series := State.captureIn_series ..
@[simp] theorem State.regIn_groups (s : State) (off : Nat) (v : W32) : (s.regIn off v).groups = s.groups := State.captureIn_groups ..
@[simp] theorem State.regIn_pace (s : State) (off : Nat) (v : W32) : (s.regIn off v).pace = s.pace := State.captureIn_pace ..
@[simp] theorem State.regIn_time (s : State) (off : Nat) (v : W32) : (s.regIn off v).time = s.time := State.captureIn_time ..
@[simp] theorem State.regIn_lnk (s : State) (off : Nat) (v : W32) : (s.regIn off v).lnk = s.lnk := State.captureIn_lnk ..
@[simp] theorem State.regIn_work (s : State) (off : Nat) (v : W32) : (s.regIn off v).work = s.work := by simp [State.regIn, State.work]

/-- REALIGN on a leader that is LOST is noted in its series (R34). -/
theorem State.paceCtrl_realign (s : State) (v : W32) (r : Series) (hv : bit v.toNat 1 = true) (hs : s.series = some r) (hl : s.leads r = true)
    (hp : s.pace.st = .lost) :
    (s.paceCtrl v).series = some { r with realign := true } ∧ (s.paceCtrl v).pace.en = bit v.toNat 0 ∧ (s.paceCtrl v).work = s.work := by
  have hl' : ∀ p, ({ s with pace := p } : State).leads r = true := fun _ => hl
  simp only [State.paceCtrl, hs, hv, hl', hp, beq_self_eq_true, Bool.and_self, if_true]
  exact ⟨by simp [State.updSeries_series], rfl, rfl⟩

end Sys2Proof.Machine
end

section
open Sys2Proof Sys2Proof.Machine

/-- Settles O43: a clause for each pace command, from what each can do to pace, the series and the computation. -/
theorem paceCommands : Obligations.PaceCommands := by
  intro s l b v
  refine ⟨?_, ?_, ?_, ?_, ?_, ?_, ?_⟩
  · intro h
    obtain ⟨t, ht, hedges, hwork, -⟩ := execPaceEdge_stamped s h
    obtain ⟨n, hn, htake⟩ := s.edgesKept_take (s.time.now :: s.pace.edges) s.time.now
    rw [s.noteEdge_edges] at hedges
    refine ⟨t, n, ht, hn, hedges.trans htake, (s.work_eq_iff t).mp hwork, fun r p e w hs he hreach => ?_⟩
    rw [hedges, he]
    refine s.mem_edgesKept r (s.time.now :: p) w e s.time.now hs (fun y hy => ?_)
    rcases List.mem_cons.mp hy with rfl | hy
    · exact Nat.le_add_right ..
    · exact hreach y hy
  · exact execPaceEdge_unstamped s
  · intro r o hs ho hre hw hn h
    obtain ⟨t, ht, -, -, hlock⟩ := execPaceEdge_stamped s h
    obtain rfl := hlock r o hs ho hre hw hn
    have hleads : s.noteEdge.leads r = s.leads r := by simp [State.leads, State.coord]
    have hdue := s.noteEdge.paceFound_due r r o ((s.time.now : Int) - o) (s.noteEdge_series.trans hs)
    rw [hleads] at hdue
    exact ⟨_, ht, by rw [State.paceFound_pace], by rw [State.paceFound_pace], fun hl => by rw [hdue, if_pos hl], fun hl => by rw [hdue, hl]; rfl⟩
  · intro r o hs ho hw
    have hq := (s.toTime (o + r.period / 8)).paceMissed_series r r o (nearestEdge s.pace.edges o) ((s.toTime_series _).trans hs)
    obtain ⟨hst, herr⟩ := (s.toTime (o + r.period / 8)).paceMissed_pace r o (nearestEdge s.pace.edges o)
    refine ⟨_, execPaceWindowEnd_open s r o hs ho hw, hst, herr, ?_, by rw [hq]; rfl, fun hl => by simp [hq, hl]⟩
    simpa using (State.work_eq_iff _ _).mp ((s.toTime (o + r.period / 8)).paceMissed_work r o (nearestEdge s.pace.edges o))
  · intro r hs ho hd hl
    obtain ⟨t, ht, hst, hdue, hwork⟩ := execPaceAcquireTimeout_leads s r hs ho hd hl
    exact ⟨t, ht, hst, hdue, by simpa using (State.work_eq_iff _ _).mp hwork⟩
  · intro r o hh hk howed hs hf hl ho hleg
    obtain ⟨t, ht, hts, htw⟩ := execDue_taken s l b r o hh hk howed hs hf hl ho hleg
    obtain ⟨hdue, hwork, hlate⟩ := t.learnDue_spec r o (syncOf b).value hts ho
    exact ⟨_, ht, hdue, (State.work_eq_iff _ _).mp (hwork.trans htw), hlate⟩
  · intro r hv ha hs hl hp
    obtain ⟨hq, hen, hwork⟩ := (s.regIn 0x2020 v).paceCtrl_realign v r hv (by simpa using hs) (by simpa [State.leads, State.coord] using hl) (by simpa using hp)
    have hx : exec (.realign v) s = s.regCmd 0x2020 v (fun t => t.paceCtrl v) := by
      show execRealign v s = _
      simp [execRealign, hv]
    exact ⟨_, hx.trans (s.regCmd_answers _ v _ ha), hq, hen, (State.work_eq_iff _ _).mp (hwork.trans (s.regIn_work _ v))⟩
end

-- ==== Sys2Proof/Proofs/Descriptors.lean ====

section
namespace Sys2Proof.Machine

/-! ### Completions (R399 to R401) -/

/-- The completion entry that `completeAt` writes or holds: of the ring as it stands. -/
def State.entryOf (s : State) (d : Desc) (tm status d0 d1 : Nat) : Block :=
  cqEntry tm d.tag status d.type (s.ring d.ring).sqHead d0 d1 (b2n (s.ring d.ring).phase) d.slot

@[simp] theorem State.emit_ring (s : State) (o : Output) (r : Nat) : (s.emit o).ring r = s.ring r := by simp [State.ring]

@[simp] theorem State.markAt_ring (s : State) (t k ca g : Nat) (o : W16) (u : Nat) (j : W16) (l p r : Nat) :
    (s.markAt t k ca g o u j l p).ring r = s.ring r := by simp [State.ring]

@[simp] theorem State.settleRing_held (s : State) (r : Nat) : ((s.settleRing r).ring r).held = (s.ring r).held := by
  unfold State.settleRing
  simp only []
  split <;> simp

/-- With the port out of reset no completion write fails (R498). -/
theorem State.portFail_off (s : State) (r : Nat) (h : s.portHeld = false) : s.portFail r = s := by
  simp [State.portFail, h]

/-- A failed completion write changes ACTIVE and the failing flag of its ring alone. -/
theorem State.portFail_ring (s : State) (r : Nat) :
    (s.portFail r).ring r = { s.ring r with active := ((s.portFail r).ring r).active, failing := (s.ring r).failing || s.portHeld } := by
  by_cases h : (s.portHeld && !(s.ring r).failing) = true
  · have hring : (s.portFail r).ring r = (s.ring r).fail := by
      rw [State.portFail, if_pos h]
      exact State.ring_setRing_self ..
    rw [hring, (Bool.and_eq_true_iff.mp h).1, Bool.or_true]
    rfl
  · rw [State.portFail, if_neg h]
    have hfail : ((s.ring r).failing || s.portHeld) = (s.ring r).failing := by
      cases hf : (s.ring r).failing
      · simpa [hf] using h
      · rfl
    rw [hfail]

theorem State.entryOf_portFail (s : State) (d : Desc) (tm status d0 d1 : Nat) :
    (s.portFail d.ring).entryOf d tm status d0 d1 = s.entryOf d tm status d0 d1 := by
  unfold State.entryOf
  rw [State.portFail_ring]

/-- The entry is held where the ring fails. -/
theorem State.completeAt_held (s : State) (d : Desc) (tm status d0 d1 : Nat) (h : (s.ring d.ring).failing = true ∨ s.portHeld = true) :
    ((s.completeAt d tm status d0 d1).ring d.ring).held = (s.ring d.ring).held ++ [s.entryOf d tm status d0 d1] := by
  have hfail : ((s.portFail d.ring).ring d.ring).failing = true := by
    rw [State.portFail_ring]
    simpa using h
  have hheld : ((s.portFail d.ring).ring d.ring).held = (s.ring d.ring).held := by rw [State.portFail_ring]
  rw [← State.entryOf_portFail, ← hheld]
  simp [State.completeAt, hfail, Ring.push, State.entryOf]

/-- The entry is written at the tail of the completion queue where nothing stops the write. -/
theorem State.completeAt_written (s : State) (d : Desc) (tm status d0 d1 : Nat) (hf : (s.ring d.ring).failing = false)
    (hr : s.feeding = false) (hp : s.portHeld = false) :
    Output.hostWrite ((s.ring d.ring).cqBase.toNat + 32 * (s.ring d.ring).cqTail) (blockBytes (s.entryOf d tm status d0 d1)) false
      ∈ (s.completeAt d tm status d0 d1).outbox := by
  unfold State.completeAt
  simp only [State.portFail_off s d.ring hp, hf, State.settleRing_outbox, State.markAt_outbox]
  rw [if_neg (by decide), State.emit_outbox _ _ (by simpa [State.feeding] using hr) (by simpa [State.portHeld, State.feeding] using hp)]
  exact List.mem_append_right _ (List.mem_singleton.mpr rfl)

theorem State.completeAt_gone (s : State) (d : Desc) (tm status d0 d1 : Nat) : ∀ q ∈ (s.completeAt d tm status d0 d1).host.descs, q.order ≠ d.order := by
  simp [State.completeAt_descs]

theorem State.complete_completed (s : State) (d : Desc) (status d0 d1 : Nat) : s.completed (s.complete d status d0 d1) d status d0 d1 :=
  ⟨s.completeAt_gone d _ status d0 d1,
    fun hf hr hp => s.completeAt_written d _ status d0 d1 hf hr (by simp [State.portHeld, hp]),
    s.completeAt_held d _ status d0 d1⟩

@[simp] theorem State.completeOrder_cores (s : State) (o st a b : Nat) : (s.completeOrder o st a b).cores = s.cores := by
  unfold State.completeOrder
  split <;> simp

@[simp] theorem State.completeOrder_mem (s : State) (o st a b : Nat) : (s.completeOrder o st a b).mem = s.mem := by
  unfold State.completeOrder
  split <;> simp

@[simp] theorem State.completeOrder_groups (s : State) (o st a b : Nat) : (s.completeOrder o st a b).groups = s.groups := by
  unfold State.completeOrder
  split <;> simp

@[simp] theorem State.complete_group (s : State) (d : Desc) (st a b n : Nat) : (s.complete d st a b).group n = s.group n :=
  congrArg (fun m => mget ({} : Group) m n) (State.complete_groups ..)

@[simp] theorem State.completeOrder_group (s : State) (o st a b n : Nat) : (s.completeOrder o st a b).group n = s.group n :=
  congrArg (fun m => mget ({} : Group) m n) (State.completeOrder_groups ..)

/-- No descriptor of a completed order is left. -/
theorem State.completeOrder_gone (s : State) (o st a b : Nat) : ∀ q ∈ (s.completeOrder o st a b).host.descs, q.order ≠ o := by
  unfold State.completeOrder State.desc
  split
  case h_1 d hd =>
    have ho : d.order = o := by simpa using List.find?_some hd
    exact ho ▸ s.completeAt_gone d _ st a b
  case h_2 hd => simpa using hd

/-! ### Fields that lie within a field that is 0 -/

theorem bits_eq_zero_of_within {x lo w lo' w' : Nat} (h : bits x lo w = 0) (hl : lo ≤ lo') (hw : lo' + w' ≤ lo + w) : bits x lo' w' = 0 := by
  apply Nat.eq_of_testBit_eq
  intro i
  have hbit := congrArg (fun n => n.testBit (lo' - lo + i)) h
  simp only [bits, Nat.testBit_mod_two_pow, Nat.testBit_shiftRight, Nat.zero_testBit] at hbit ⊢
  rw [show lo + (lo' - lo + i) = lo' + i by omega] at hbit
  by_cases hi : i < w'
  · simpa [hi, show lo' - lo + i < w by omega] using hbit
  · simp [hi]

theorem Desc.f_eq_zero_of_within {d : Desc} {off lo w : Nat} (h : d.f off lo w = 0) (lo' w' : Nat) (hl : lo ≤ lo') (hw : lo' + w' ≤ lo + w) :
    d.f off lo' w' = 0 :=
  bits_eq_zero_of_within h (by omega) (by omega)

/-! ### LOAD_PROGRAM (R405, R280) -/

theorem State.mem_usableCores (s : State) (c : Nat) (h : c ∈ s.usableCores) : s.coreOk c = true := (List.mem_filter.mp h).2

/-- What an update establishes of any core, a fold of that update establishes of the cores listed. -/
theorem State.core_foldl_updCore (f : Core → Core) (l : List Nat) (c : Nat) (hc : c ∈ l) (P : Core → Prop) (hf : ∀ k, P (f k)) :
    ∀ s : State, P ((l.foldl (fun t c => t.updCore c f) s).core c) := by
  induction l using List.reverseRecOn with
  | nil => simp at hc
  | append_singleton l a ih =>
    intro s
    rw [List.foldl_append, List.foldl_cons, List.foldl_nil]
    by_cases ha : c = a
    · subst ha
      rw [State.core_updCore_self]
      exact hf _
    · rw [State.core_updCore_ne _ _ _ _ ha]
      exact ih (by simpa [ha] using hc) s

/-- The state with a program's load begun on some cores. -/
def State.loadingOn (s : State) (l : List Nat) (len cyc : Nat) : State := l.foldl (fun t c => t.updCore c (fun k => k.loading len cyc)) s

@[simp] theorem State.loadingOn_mem (s : State) (l : List Nat) (len cyc : Nat) : (s.loadingOn l len cyc).mem = s.mem :=
  State.foldl_keeps State.mem (fun t c => t.updCore c (fun k => k.loading len cyc)) (fun _ _ => rfl) l s

/-- A core after LOAD_PROGRAM: its program is the image's, and its forward stream, counters and semaphores are clear. -/
theorem State.loadingOn_core (s : State) (l : List Nat) (len cyc c : Nat) (hc : c ∈ l) :
    let k := (s.loadingOn l len cyc).core c
    k.program = some { len := len, legCycle := cyc } ∧ k.fwd = {} ∧ k.ctrs = [] ∧ k.sems = [] :=
  State.core_foldl_updCore _ l c hc (fun k => k.program = some { len := len, legCycle := cyc } ∧ k.fwd = {} ∧ k.ctrs = [] ∧ k.sems = [])
    (fun _ => ⟨rfl, rfl, rfl, rfl⟩) s

/-- The state with a broadcast in progress. -/
def State.broadcasts (s : State) (b : Broadcast) : State := { s with host := { s.host with broadcast := some b } }

@[simp] theorem State.broadcasts_core (s : State) (b : Broadcast) (c : Nat) : (s.broadcasts b).core c = s.core c := rfl

@[simp] theorem State.broadcasts_mem (s : State) (b : Broadcast) : (s.broadcasts b).mem = s.mem := rfl

/-- A LOAD_PROGRAM of all cores in good form, past the read of its image: what is left of its checks. -/
theorem execLoadProgram_all (s : State) (d : Desc) (host : List HostReply) (hn : s.mcNext 1 = some d) (hb : s.boot.st ≠ .cpReset)
    (h0 : d.f 0 0 24 = 0) (hva : d.f 8 0 64 < 2 ^ 43) (hmva : d.f 0x10 0 64 < 2 ^ 43) (hal : d.f 8 0 64 % 64 = 0) (hcl : d.clear 0x18 = true)
    (im : McRun × List W64) (him : (McRun.start s host).image (d.f 8 0 64) = im) (hfa : im.1.fault = none) (hwt : im.1.wait = false)
    (hidle : ∀ c ∈ im.1.st.usableCores, (im.1.st.core c).idle = true) :
    exec (.loadProgram host) s =
      if im.1.st.usableCores.any (fun c => im.1.st.plan.pendingAbsent.any (fun p => p.1 == c)) then .next (im.1.st.complete d 0xA3 0 0)
      else if imageBad im.2 then .next (im.1.st.complete d 0xA4 0 0)
      else
        .next (((im.1.st.startDesc d).loadingOn im.1.st.usableCores (imgLen im.2) (imgCycle im.2)).broadcasts
          { order := d.order, image := msetRun 0 [] 0 im.2, len := imgLen im.2, legCycle := imgCycle im.2, chunks := cdiv (8 * imgLen im.2) 4096,
            targets := im.1.st.usableCores, good := [], tries := 0 }) := by
  have hsel : (d.f 0 0 1 == 1) = false := by rw [Desc.f_eq_zero_of_within h0 0 1 (by omega) (by omega)]; rfl
  have hres : d.f 0 1 23 = 0 := Desc.f_eq_zero_of_within h0 1 23 (by omega) (by omega)
  have hok : im.1.st.usableCores.any (fun c => !im.1.st.coreOk c || im.1.st.plan.pendingAbsent.any (fun p => p.1 == c))
      = im.1.st.usableCores.any (fun c => im.1.st.plan.pendingAbsent.any (fun p => p.1 == c)) := by
    rw [Bool.eq_iff_iff]
    simp only [List.any_eq_true]
    exact exists_congr fun c => and_congr_right fun hc => by simp [im.1.st.mem_usableCores c hc]
  have hbusy : im.1.st.usableCores.any (fun c => !(im.1.st.core c).idle) = false := by simpa using hidle
  have hform : ¬ (d.f 0 1 23 ≠ 0 ∨ 2 ^ 43 ≤ d.f 8 0 64 ∨ 2 ^ 43 ≤ d.f 0x10 0 64 ∨ d.f 8 0 64 % 64 ≠ 0 ∨ !d.clear 0x18) := by
    rintro (h | h | h | h | h)
    · exact h hres
    · exact absurd hva (by omega)
    · exact absurd hmva (by omega)
    · exact h hal
    · simp [hcl] at h
  show execLoadProgram host s = _
  unfold execLoadProgram
  simp only [hn, if_neg hform, if_neg hb, hsel, him, Bool.false_eq_true, if_false, hfa, hwt, hok, hbusy, State.loadingOn, State.broadcasts]

/-! ### JOIN (R407, R408) -/

/-- A JOIN whose participants all have sent no marker but this module waits. -/
theorem State.joinCheck_waits (s : State) (n o : Nat) (m : Marker) (hj : (s.group n).joinOrder = some o) (hf : (s.group n).firstAt = none)
    (hm : (s.group n).markers = [m]) (hc : m.check = (s.group n).check) (hothers : ∃ c ∈ (s.group n).modules, c ≠ m.origin) : s.joinCheck n = s := by
  obtain ⟨c, hcm, hne⟩ := hothers
  have hsub : ∀ x ∈ (s.group n).markers.filter (fun m => (s.group n).modules.contains m.origin), x = m := by
    intro x hx
    have := (List.mem_filter.mp hx).1
    rw [hm] at this
    exact List.mem_singleton.mp this
  have hagree : ((s.group n).markers.filter (fun m => (s.group n).modules.contains m.origin)).any (fun x => x.check != (s.group n).check) = false := by
    rw [List.any_eq_false]
    intro x hx
    simp [hsub x hx, hc]
  have hwait : (s.group n).modules.all (fun c => ((s.group n).markers.filter (fun m => (s.group n).modules.contains m.origin)).any (fun m => m.origin == c)) = false := by
    rw [List.all_eq_false]
    refine ⟨c, hcm, ?_⟩
    simp only [List.any_eq_true, not_exists, not_and]
    intro x hx
    simp [hsub x hx, hne.symm]
  unfold State.joinCheck
  simp only [hj, hf, hagree, hwait, Option.isSome_none, Bool.false_eq_true, if_false, Bool.not_false, if_true]

@[simp] theorem State.startDesc_group (s : State) (d : Desc) (n : Nat) : (s.startDesc d).group n = s.group n := by simp [State.group]

@[simp] theorem State.startDesc_coord (s : State) (d : Desc) : (s.startDesc d).coord = s.coord := by simp [State.coord]

@[simp] theorem State.sendGroup_group (s : State) (n : Nat) (x : Sync) (m : Nat) : (s.sendGroup n x).group m = s.group m := by simp [State.group]

/-- The marker of this module for a JOIN of a group. -/
def State.ownMarker (s : State) (n : Nat) : Marker :=
  let sf : Bool × Nat × W32 := match s.series with | some r => (true, r.founder, r.check) | none => (false, 0, 0)
  { origin := s.coord, check := (s.group n).check, time := s.time.now, series := sf.1, founder := sf.2.1, paceEn := s.pace.en, founderCheck := sf.2.2 }

/-- `sendMarker` keeps this module's marker in the group, and sends it. -/
theorem State.sendMarker_eq (s : State) (n : Nat) : ∃ x, s.sendMarker n = (s.updGroup n (fun g => g.mark (s.ownMarker n))).sendGroup n x :=
  ⟨_, rfl⟩

@[simp] theorem State.sendMarker_cores (s : State) (n : Nat) : (s.sendMarker n).cores = s.cores := by
  obtain ⟨x, hx⟩ := s.sendMarker_eq n
  simp [hx]

@[simp] theorem State.sendMarker_mem (s : State) (n : Nat) : (s.sendMarker n).mem = s.mem := by
  obtain ⟨x, hx⟩ := s.sendMarker_eq n
  simp [hx]

@[simp] theorem State.sendMarker_group_self (s : State) (n : Nat) : (s.sendMarker n).group n = (s.group n).mark (s.ownMarker n) := by
  obtain ⟨x, hx⟩ := s.sendMarker_eq n
  simp [hx]

theorem State.sendMarker_group_ne (s : State) (n i : Nat) (h : i ≠ n) : (s.sendMarker n).group i = s.group i := by
  obtain ⟨x, hx⟩ := s.sendMarker_eq n
  simp [hx, State.group_updGroup_ne _ _ _ _ h]

/-- The group that an accepted JOIN of all modules of its box and all usable cores sets down. -/
def State.joined (s : State) (d : Desc) : Group :=
  let ms := (List.range (boxSize (d.f 0x10 0 32))).map (s.boxCoord (d.f 0x10 0 32))
  { barrier := d.f 0 21 1 == 1, abandonPolicy := d.f 0 20 1 == 1, limit := d.f 0 0 7, latency := s.latencyOf ms, period := d.f 8 0 24,
    jobTag := BitVec.ofNat 16 (d.f 0xC 16 16), check := d.joinCheck, box := d.f 0x10 0 32, modules := ms, cores := s.usableCores,
    joinOrder := some d.order, joinTime := s.time.now, markers := (s.group d.groupNo).markers, early := (s.group d.groupNo).early,
    runs := (s.group d.groupNo).runs }

/-- A JOIN in good form of all modules of its box and all usable cores that passes its checks. -/
theorem execJoin_accepted (s : State) (d : Desc) (host : List HostReply) (hn : s.mcNext 6 = some d) (h0 : d.f 0 18 6 = 0)
    (he : (s.group d.groupNo).ending = none) (hb : s.boot.st ≠ .cpReset) (hr : d.joinReserved = false) (hl : d.f 0 0 7 ≤ 100)
    (hbox : s.boxBeyond (d.f 0x10 0 32) = false)
    (hin : s.coord ∈ (List.range (boxSize (d.f 0x10 0 32))).map (s.boxCoord (d.f 0x10 0 32)))
    (hst : s.joinStatus d ((List.range (boxSize (d.f 0x10 0 32))).map (s.boxCoord (d.f 0x10 0 32))) s.usableCores = 0) :
    exec (.join host) s = .next ((((s.startDesc d).setGroup d.groupNo (s.joined d)).sendMarker d.groupNo).joinCheck d.groupNo) := by
  have field (lo w : Nat) (hl : 18 ≤ lo) (hw : lo + w ≤ 24) : d.f 0 lo w = 0 := Desc.f_eq_zero_of_within h0 lo w hl hw
  show execJoin host s = _
  unfold execJoin
  simp only [hn, field 22 2 (by omega) (by omega), field 21 1 (by omega) (by omega), field 18 1 (by omega) (by omega), field 19 1 (by omega) (by omega), he, hr, hbox]
  rw [if_neg (by simp), if_neg (by simp; omega), if_neg hb]
  simp [McRun.start, hin, hst, State.joined, field 21 1 (by omega) (by omega)]

/-- An accepted JOIN whose group held no marker yet, of more modules than this one, waits with its own marker. -/
theorem State.joined_waits (s : State) (d : Desc) (hm : (s.group d.groupNo).markers = []) (hothers : ∃ c ∈ (s.joined d).modules, c ≠ s.coord) :
    ∃ t m, (((s.startDesc d).setGroup d.groupNo (s.joined d)).sendMarker d.groupNo).joinCheck d.groupNo = t ∧ m.origin = s.coord
      ∧ t.group d.groupNo = (s.joined d).mark m ∧ t.cores = s.cores ∧ t.mem = s.mem ∧ ∀ n, n ≠ d.groupNo → t.group n = s.group n := by
  let u := (s.startDesc d).setGroup d.groupNo (s.joined d)
  have hu : u.group d.groupNo = s.joined d := State.group_setGroup_self ..
  have hcoord : (u.ownMarker d.groupNo).origin = s.coord := by simp [State.ownMarker, State.coord, u]
  have hg : (u.sendMarker d.groupNo).group d.groupNo = (s.joined d).mark (u.ownMarker d.groupNo) := by rw [State.sendMarker_group_self, hu]
  have hwaits : (u.sendMarker d.groupNo).joinCheck d.groupNo = u.sendMarker d.groupNo := by
    apply State.joinCheck_waits _ d.groupNo d.order (u.ownMarker d.groupNo) <;> rw [hg]
    · rfl
    · rfl
    · simp [Group.mark, State.joined, hm]
    · rw [← hu]
      rfl
    · exact hothers
  refine ⟨_, u.ownMarker d.groupNo, hwaits, hcoord, hg, by simp [u], by simp [u], fun n hn => ?_⟩
  rw [State.sendMarker_group_ne _ _ _ hn, State.group_setGroup_ne _ _ _ _ hn, State.startDesc_group]

/-! ### RUN_LEGS (R406) -/

/-- The run that a RUN_LEGS adds to its group. -/
def Desc.asRun (d : Desc) : Run :=
  { order := d.order, first := d.f 0 0 8, count := d.f 8 0 32, startLeg := if d.f 0x10 0 48 = 0 then none else some (d.f 0x10 0 48), accepted := false }

/-- A RUN_LEGS in good form waits in its group. -/
theorem execRunLegs_waits (s : State) (d : Desc) (hstop : s.power.stopStage = 0) (hn : s.nextOf [2] = some d) (h14 : d.f 0 14 10 = 0)
    (hcount : d.f 8 0 32 ≠ 0) (hc : d.f 0xC 0 32 = 0) (h48 : d.f 0x10 48 16 = 0) (hcl : d.clear 0x18 = true) :
    exec .runLegs s = .next ((s.startDesc d).updGroup d.groupNo (fun g => { g with runs := g.runs ++ [d.asRun] })) := by
  show execRunLegs s = _
  unfold execRunLegs
  simp [hstop, hn, h14, hcount, hc, h48, hcl, Desc.asRun]

/-- RUN_LEGS_START in an active LEG group that its cores' leg cycles and its first leg allow. -/
theorem execRunLegsStart_accepts (s : State) (g : GroupIx) (r : Run) (rest : List Run) (hr : (s.group g.val).runs = r :: rest)
    (ha : r.accepted = false) (hl : (s.group g.val).legActive = true)
    (hc : ∀ c ∈ (s.group g.val).cores, ∀ p, (s.core c).program = some p → r.first < p.legCycle) (hk : ∀ k, r.startLeg = some k → s.legNow < k) :
    exec (.runLegsStart g) s = .next (s.updGroup g.val (fun y => { y with runs := { r with accepted := true } :: rest })) := by
  show execRunLegsStart g s = _
  unfold execRunLegsStart
  simp only [hr, ha, hl, Bool.true_or, Bool.not_true, Bool.false_eq_true, if_false]
  rw [if_neg, if_neg]
  · cases hs : r.startLeg with
    | none => simp
    | some k => simp [hk k hs]
  · simp only [List.any_eq_true, not_exists, not_and]
    intro c hcm
    cases hp : (s.core c).program with
    | none => simp
    | some p => simpa using hc c hcm p hp

/-- RUN_LEGS_START in a group that runs nothing and joins nothing: the run is dropped and its descriptor completed. -/
theorem execRunLegsStart_refused (s : State) (g : GroupIx) (r : Run) (rest : List Run) (hr : (s.group g.val).runs = r :: rest)
    (ha : r.accepted = false) (hl : (s.group g.val).legActive = false) (hj : (s.group g.val).joinOrder = none) :
    exec (.runLegsStart g) s = .next ((s.updGroup g.val (fun y => { y with runs := rest })).completeOrder r.order 0xA8 0 0) := by
  show execRunLegsStart g s = _
  unfold execRunLegsStart
  simp [hr, ha, hl, hj]

/-! ### RELEASE (R36, R408) -/

/-- A RELEASE in good form of a group that holds no other, has no RUN_LEGS taken and no RELEASE waiting. -/
theorem execRelease_taken (s : State) (d : Desc) (hn : s.mcNext 6 = some d) (h22 : d.f 0 22 2 = 1) (hr : d.joinReserved = false)
    (hj : (s.group d.groupNo).joinOrder = none) (hh : s.holdsOthers d.groupNo = false) (hq : ∀ q ∈ s.host.descs, q.type = 2 → q.groupNo ≠ d.groupNo)
    (hrel : (s.group d.groupNo).releasing = none) :
    exec .release s =
      if (s.group d.groupNo).legActive ∨ (s.group d.groupNo).ending.isSome then
        .next ((s.startDesc d).updGroup d.groupNo (fun x => { x with releasing := some d.order }))
      else
        let t := s.updGroup d.groupNo Group.gone
        .next (({ t with cores := mmap {} (fun _ k => { k with arrivals := mset {} k.arrivals d.groupNo {} }) t.cores } : State).complete d 0 0 0) := by
  have hruns : s.host.descs.any (fun q => q.type == 2 && q.groupNo == d.groupNo) = false := by simpa using hq
  show execRelease s = _
  unfold execRelease
  simp [hn, h22, hr, hj, hh, hrel, hruns]

end Sys2Proof.Machine
end

section
open Sys2Proof Sys2Proof.Machine

/-- Settles O49, clause by clause: LOAD_PROGRAM by the checks left after its image's read, JOIN by the one marker it finds in its group, RUN_LEGS,
RUN_LEGS_START and RELEASE by what the checks leave. -/
theorem descriptorsThatRunWork : Obligations.DescriptorsThatRunWork := by
  intro s d host g
  refine ⟨?_, ?_, ?_, ?_, ?_⟩
  · intro hn hb h0 hva hmva hal hcl hfa hwt hidle
    have hx := execLoadProgram_all s d host hn hb h0 hva hmva hal hcl _ rfl hfa hwt hidle
    generalize (McRun.start s host).image (d.f 8 0 64) = im at *
    refine ⟨fun habs => ?_, fun habs => ?_⟩
    · rw [if_pos (by simpa using habs)] at hx
      exact ⟨_, hx, State.complete_completed ..⟩
    · have hnone : ¬ im.1.st.usableCores.any (fun c => im.1.st.plan.pendingAbsent.any (fun p => p.1 == c)) = true := by
        simp only [List.any_eq_true, beq_iff_eq]
        rintro ⟨c, hc, p, hp, hpc⟩
        exact habs c hc p hp hpc
      rw [if_neg hnone] at hx
      refine ⟨fun hgood => ?_, fun hbad => ?_⟩
      · rw [if_neg (by simp [hgood])] at hx
        refine ⟨_, _, hx, rfl, rfl, rfl, ?_, rfl, by simp, fun c hc => ?_⟩
        · dsimp only
        · rw [State.broadcasts_core]
          exact State.loadingOn_core _ _ _ _ c hc
      · rw [if_pos hbad] at hx
        exact ⟨_, hx, State.complete_completed ..⟩
  · intro hn h0 he hb hr hl hbox hin hst hm hothers
    obtain ⟨t, m, hwaits, horigin, hg, hcores, hmem, hrest⟩ := s.joined_waits d hm hothers
    refine ⟨t, (execJoin_accepted s d host hn h0 he hb hr hl hbox hin hst).trans (congrArg _ hwaits), ⟨hcores, hmem⟩, ?_⟩
    rw [hg]
    exact ⟨rfl, rfl, by simp only [Group.mark, State.joined], rfl, rfl, rfl, rfl, rfl, ⟨m, List.mem_append_right _ (List.mem_singleton.mpr rfl), horigin⟩, hrest⟩
  · intro hstop hn h14 hcount hc h48 hcl
    exact ⟨_, execRunLegs_waits s d hstop hn h14 hcount hc h48 hcl, ⟨rfl, rfl⟩, by simp [Desc.asRun]⟩
  · intro r rest hr ha
    refine ⟨fun hl hc hk => execRunLegsStart_accepts s g r rest hr ha hl hc hk, fun hl hj => ?_⟩
    exact ⟨_, execRunLegsStart_refused s g r rest hr ha hl hj, ⟨by simp, by simp⟩, by simp, State.completeOrder_gone _ _ _ _ _⟩
  · intro hn h22 hr hj hh hq hrel
    have hx := execRelease_taken s d hn h22 hr hj hh hq hrel
    refine ⟨fun ha => ?_, fun ha he => ?_⟩
    · rw [if_pos (Or.inl ha)] at hx
      exact ⟨_, hx, ⟨rfl, rfl⟩, by simp⟩
    · rw [if_neg (by simp [ha, he])] at hx
      have hgone : (s.updGroup d.groupNo Group.gone).group d.groupNo = (s.group d.groupNo).gone := State.group_updGroup_self ..
      refine ⟨_, hx, by simp, ?_, ?_, State.completeAt_gone _ _ _ _ _ _⟩
      · rw [State.complete_group]
        exact congrArg Group.st hgone
      · rw [State.complete_group]
        exact congrArg Group.active hgone
end

-- ==== Sys2Proof/Proofs/GroupFrames.lean ====

section
namespace Sys2Proof.Machine

/-! ### What leaves the groups alone: the ends of transfers -/

@[simp] theorem State.xferFault_groups (s : State) (u st : Nat) (d : W16) (n : Nat) : (s.xferFault u st d n).groups = s.groups := State.faultMark_groups ..

@[simp] theorem State.anyPort_groups (s : State) : s.anyPort.2.groups = s.groups := rfl

@[simp] theorem State.free32_groups (s : State) : s.free32.2.groups = s.groups := rfl

@[simp] theorem State.free64_groups (s : State) : s.free64.2.groups = s.groups := rfl

@[simp] theorem State.addCounter_groups (s : State) (c i n : Nat) : (s.addCounter c i n).groups = s.groups := by
  unfold State.addCounter
  split <;> simp

@[simp] theorem State.xferEnd_groups (s : State) (x : Xfer) (ok : Bool) : (s.xferEnd x ok).groups = s.groups := by
  unfold State.xferEnd
  simp only []
  split
  · rfl
  · split
    · split <;> simp
    · split <;> simp

@[simp] theorem State.abortXfers_groups (s : State) (p : Xfer → Bool) : (s.abortXfers p).groups = s.groups := by
  unfold State.abortXfers
  exact State.foldl_keeps State.groups _ (fun t x => by simp) _ _

/-- A group's job stopped changes no group's record (R44, R337). -/
@[simp] theorem State.stopGroup_groups (s : State) (n : Nat) : (s.stopGroup n).groups = s.groups := by
  unfold State.stopGroup
  simp only [State.abortXfers_groups]
  exact State.foldl_keeps State.groups _ (fun t c => by simp) _ _

/-! ### What leaves the groups alone: the links -/

theorem State.onlyLinks.groups_eq {s t : State} (h : s.onlyLinks t) : t.groups = s.groups := by
  have hgroups := congrArg State.groups h
  exact hgroups

theorem State.offer_groups (s t : State) (d : Nat) (b : Bool) (f : TxFlit) (h : s.offer d b f = some t) : t.groups = s.groups :=
  State.onlyLinks.groups_eq (s.offer_only t d b f h)

@[simp] theorem State.sendDone_groups (s : State) (d : W16) (tag st : Nat) : (s.sendDone d tag st).groups = s.groups := by
  unfold State.sendDone
  simp only []
  split
  · rfl
  · split
    case h_1 h => exact s.offer_groups _ _ _ _ h
    case h_2 => simp

@[simp] theorem State.routeFault_groups (s : State) (f : TxFlit) : (s.routeFault f).groups = s.groups := by
  unfold State.routeFault
  simp only []
  split
  · split <;> simp
  · split <;> simp

@[simp] theorem State.resend_groups (s : State) (d : Nat) (fs : List TxFlit) : (s.resend d fs).groups = s.groups := by
  unfold State.resend
  refine State.foldl_keeps State.groups _ (fun t f => ?_) _ _
  split
  case h_1 h => exact t.offer_groups _ _ _ _ h
  case h_2 => simp

@[simp] theorem State.measChanged_groups (s : State) (i : Nat) : (s.measChanged i).groups = s.groups := State.mark_groups ..

@[simp] theorem State.planChange_groups (s : State) (f : Plan → Plan) : (s.planChange f).groups = s.groups := by
  unfold State.planChange
  split <;> simp

@[simp] theorem State.dropHeard_groups (s : State) (l : Nat) : (s.dropHeard l).groups = s.groups := rfl

@[simp] theorem State.linkUse_groups (s : State) (l : Nat) (f : LinkEntry → LinkEntry) : (s.linkUse l f).groups = s.groups := by
  unfold State.linkUse
  simp only []
  split <;> simp

@[simp] theorem State.linkLeave_groups (s : State) (l : Nat) (st : LState) (f : LinkEntry → LinkEntry) : (s.linkLeave l st f).groups = s.groups := by
  unfold State.linkLeave
  simp only []
  split <;> split <;> simp

@[simp] theorem State.assignDir_groups (s : State) (l : Nat) : (s.assignDir l).groups = s.groups := by
  simp [State.assignDir, apply_ite State.groups]

@[simp] theorem State.linkCtrl_groups (s : State) (c : LinkCtrl) : (s.linkCtrl c).groups = s.groups := by
  unfold State.linkCtrl
  refine State.foldl_keeps State.groups _ (fun t l => ?_) _ _
  simp only []
  split <;> split <;> split <;> simp

/-! ### What leaves the groups alone: the DMA engine -/

@[simp] theorem State.endReplay_groups (s : State) (c : Nat) : (s.endReplay c).groups = s.groups := by
  unfold State.endReplay
  simp only []
  split <;> simp

@[simp] theorem State.hostLine_groups (s : State) (u a : Nat) (hs : List HostReply) : (s.hostLine u a hs).1.groups = s.groups := by
  unfold State.hostLine
  split
  · simp only []
    split
    · split <;> simp
    · simp
  · split
    · rfl
    · split <;> simp

@[simp] theorem State.hostPost_groups (s : State) (ds : List (Nat × List Byte × Bool)) (hs : List HostReply) : (s.hostPost ds hs).1.groups = s.groups := by
  have hput : (ds.foldl (fun t d => t.emit (.hostWrite d.1 d.2.1 d.2.2)) s).groups = s.groups :=
    State.foldl_keeps State.groups (fun t d => t.emit (.hostWrite d.1 d.2.1 d.2.2)) (fun t d => State.emit_groups ..) ds s
  unfold State.hostPost
  simp only []
  split
  · exact hput
  · split
    · rfl
    · split <;> exact hput

@[simp] theorem Dma.put_groups (m : Dma) (va : Nat) (ds : List PByte) : (m.put va ds).st.groups = m.st.groups := by
  unfold Dma.put
  split
  · rfl
  · split <;> simp

@[simp] theorem Dma.fromHost_groups (m : Dma) (a b : Nat) : (m.fromHost a b).st.groups = m.st.groups := by
  have hline := m.st.hostLine_groups cxlUnit a m.hs
  unfold Dma.fromHost
  split <;> simp_all

@[simp] theorem Dma.within_groups (m : Dma) (a b : Nat) : (m.within a b).st.groups = m.st.groups := by
  unfold Dma.within
  split <;> simp

@[simp] theorem Dma.toHost_groups (m : Dma) (a b : Nat) : (m.toHost a b).st.groups = m.st.groups := by
  unfold Dma.toHost
  split
  · rfl
  · simp only []
    split <;> simp

@[simp] theorem Dma.line_groups (d : Desc) (m : Dma) : (m.line d).st.groups = m.st.groups := by
  unfold Dma.line
  simp only []
  split
  · rfl
  · split
    · simp
    · split <;> simp

/-- The lines that a transfer issues leave the groups. -/
@[simp] theorem State.dmaGo_groups (s : State) (d : Desc) (k : Nat) : (s.dmaGo d k).groups = s.groups := by
  have hiter : ∀ (l : List Nat) (m : Dma), (l.foldl (fun x _ => x.line d) m).st.groups = m.st.groups := by
    intro l
    induction l with
    | nil => intro m; rfl
    | cons a l ih => intro m; exact (ih _).trans (Dma.line_groups d m)
  exact hiter (List.range k) (d.dma s)

@[simp] theorem State.dmaSome_groups (s : State) : s.dmaSome.groups = s.groups := by
  unfold State.dmaSome
  split
  · rfl
  · split <;> simp [State.dmaPart]

/-! ### What leaves the groups alone: table writes and the end of a series -/

@[simp] theorem State.pageWrite_groups (s : State) (i v : Nat) : (s.pageWrite i v).groups = s.groups := by
  simp [State.pageWrite, State.emptyTlbs]

@[simp] theorem State.mapCurrent_groups (s : State) : s.mapCurrent.groups = s.groups := by
  unfold State.mapCurrent
  simp only []
  split <;> simp

@[simp] theorem State.verCheck_groups (s : State) (v : Version) : (s.verCheck v).2.groups = s.groups := by
  unfold State.verCheck
  split <;> simp

@[simp] theorem State.dropVersion_groups (s : State) (v : Version) (c : Nat) : (s.dropVersion v c).groups = s.groups := by
  simp [State.dropVersion, State.placePolicy]

@[simp] theorem State.vetoVersion_groups (s : State) (v : Version) : (s.vetoVersion v).groups = s.groups := by
  simp [State.vetoVersion, State.placeConflict]

@[simp] theorem State.expertCtrl_groups (s : State) (leg : Nat) (c : ExpertCtrl) : (s.expertCtrl leg c).groups = s.groups := by
  cases hp : s.experts.pending <;> simp [State.expertCtrl, hp, apply_ite State.groups]

@[simp] theorem State.flagWrite_groups (s : State) (c i : Nat) (b : Bool) : (s.flagWrite c i b).groups = s.groups := by
  unfold State.flagWrite
  simp only []
  split <;> simp

@[simp] theorem State.caddyWrite_groups (s : State) (e v : Nat) : (s.caddyWrite e v).groups = s.groups := by
  unfold State.caddyWrite
  simp only [State.setCst_groups]
  split <;> rfl

/-- A table write that takes effect leaves the groups (R412). -/
@[simp] theorem State.tabApply_groups (s : State) (leg : Nat) (w : TabWrite) : (s.tabApply leg w).groups = s.groups := by
  unfold State.tabApply
  split
  · split
    · simp
    · exact State.foldl_keeps State.groups _ (fun t c => by simp) _ _
  all_goals simp [State.fmtWrite]

@[simp] theorem State.tablesDue_groups (s : State) : s.tablesDue.groups = s.groups := by
  unfold State.tablesDue
  exact State.foldl_keeps State.groups _ (fun t w => by simp) _ _

@[simp] theorem State.applyAbsent_groups (s : State) : s.applyAbsent.groups = s.groups := by
  unfold State.applyAbsent
  exact State.foldl_keeps State.groups _ (fun t p => by simp) _ _

@[simp] theorem State.rephase_groups (s : State) : s.rephase.groups = s.groups := rfl

@[simp] theorem State.startRetrain_groups (s : State) (d : Nat) : (s.startRetrain d).groups = s.groups := by
  simp [State.startRetrain]

@[simp] theorem State.retrainNext_groups (s : State) : s.retrainNext.groups = s.groups := by
  unfold State.retrainNext
  split <;> simp

end Sys2Proof.Machine
end

-- ==== Sys2Proof/Proofs/Abandonment.lean ====

section
namespace Sys2Proof.Machine

/-! ### The banks that list the groups -/

/-- What a write leaves listed: old entries, and the one written. -/
theorem mem_mset {α : Type} [DecidableEq α] (d : α) (m : Mem α) (i : Nat) (v : α) (q : Nat × α) (h : q ∈ mset d m i v) : q ∈ m ∨ q = (i, v) := by
  induction m with
  | nil =>
    by_cases hv : v = d
    · simp [mset, hv] at h
    · exact .inr (by simpa [mset, hv] using h)
  | cons p r ih =>
    obtain ⟨k, w⟩ := p
    have hrest (hq : q ∈ ((k, w) :: r).dropWhile (fun p => decide (p.1 ≤ i))) : q ∈ (k, w) :: r := (List.dropWhile_sublist _).mem hq
    unfold mset at h
    split at h
    · rcases List.mem_cons.mp h with rfl | hq
      · exact .inl (List.mem_cons_self ..)
      · exact (ih hq).imp_left (List.mem_cons_of_mem _)
    · simp only [] at h
      split at h
      · exact .inl (hrest h)
      · rcases List.mem_cons.mp h with rfl | hq
        · exact .inr rfl
        · exact .inl (hrest hq)

/-- What reads back other than the default is listed. -/
theorem mem_of_mget_ne {α : Type} (d : α) (m : Mem α) (i : Nat) (h : mget d m i ≠ d) : (i, mget d m i) ∈ m := by
  induction m with
  | nil => exact absurd rfl h
  | cons p r ih =>
    obtain ⟨k, w⟩ := p
    unfold mget at h ⊢
    split
    case isTrue hlt => exact absurd (by simp [hlt]) h
    case isFalse hge =>
      split
      case isTrue heq => simp [heq]
      case isFalse hne => exact List.mem_cons_of_mem _ (ih (by simpa [hge, hne] using h))

/-- An active LEG group is listed among them. -/
theorem State.mem_activeLegs (s : State) (n : Nat) (h : (s.group n).legActive = true) : n ∈ s.activeLegs := by
  have hne : s.group n ≠ {} := by
    intro he
    rw [he] at h
    exact absurd h (by decide)
  exact List.mem_map.mpr ⟨_, List.mem_filter.mpr ⟨mem_of_mget_ne _ _ _ hne, h⟩, rfl⟩

/-- An active LEG group falls with itself (R36). -/
theorem State.mem_fallsWith (s : State) (n : Nat) (h : (s.group n).legActive = true) : n ∈ s.fallsWith n := by
  unfold State.fallsWith
  split
  · exact List.mem_singleton.mpr rfl
  · split
    · exact s.mem_activeLegs n h
    · exact List.mem_singleton.mpr rfl

/-! ### No JOIN waits -/

/-- No group listed has a JOIN that waits. -/
def State.noJoins (s : State) : Prop := ∀ p ∈ s.groups, p.2.joinOrder = none

theorem State.noJoins.group {s : State} (h : s.noJoins) (n : Nat) : (s.group n).joinOrder = none := by
  by_cases he : s.group n = {}
  · rw [he]
  · exact h _ (mem_of_mget_ne _ _ _ he)

theorem State.noJoins.of_groups {s t : State} (h : s.noJoins) (hg : t.groups = s.groups) : t.noJoins := by
  rw [State.noJoins, hg]
  exact h

theorem State.noJoins.updGroup {s : State} (h : s.noJoins) (n : Nat) (f : Group → Group) (hf : ∀ g, (f g).joinOrder = g.joinOrder) :
    (s.updGroup n f).noJoins := by
  intro p hp
  rcases mem_mset _ _ _ _ _ hp with hold | rfl
  · exact h p hold
  · exact (hf _).trans (h.group n)

/-! ### Folds over groups -/

/-- A fold whose every step keeps a property of the state keeps it. -/
theorem State.foldl_preserves {α : Type} (P : State → Prop) (f : State → α → State) (hf : ∀ t a, P t → P (f t a)) (l : List α) (s : State) (h : P s) :
    P (l.foldl f s) := by
  induction l generalizing s with
  | nil => exact h
  | cons a l ih => exact ih _ (hf s a h)

/-- A fold whose every step does nothing does nothing. -/
theorem State.foldl_id {α : Type} (f : State → α → State) (l : List α) (hf : ∀ t, ∀ a ∈ l, f t a = t) (s : State) : l.foldl f s = s := by
  induction l generalizing s with
  | nil => rfl
  | cons a l ih =>
    rw [List.foldl_cons, hf s a (List.mem_cons_self ..)]
    exact ih (fun t b hb => hf t b (List.mem_cons_of_mem _ hb)) s

/-- A fold of updates of the groups listed changes a group listed once, where the update is idempotent. -/
theorem State.group_foldl (f : State → Nat → State) (h : Group → Group) (hh : ∀ g, h (h g) = h g)
    (hself : ∀ t n, (f t n).group n = h (t.group n)) (hne : ∀ t i n, n ≠ i → (f t i).group n = t.group n) (l : List Nat) (n : Nat) (s : State) :
    (l.foldl f s).group n = if n ∈ l then h (s.group n) else s.group n := by
  induction l generalizing s with
  | nil => simp
  | cons a l ih =>
    rw [List.foldl_cons, ih]
    by_cases ha : n = a
    · subst ha
      by_cases hl : n ∈ l <;> simp [hl, hself, hh]
    · simp [ha, hne s a n ha]

/-! ### Abandonment (R44) -/

/-- With no JOIN waiting, the end of a series leaves the groups. -/
theorem State.noJoins.seriesEnd_groups {s : State} (h : s.noJoins) : s.seriesEnd.groups = s.groups := by
  unfold State.seriesEnd
  simp only [State.applyAbsent_groups]
  rw [State.foldl_id]
  intro t p hp
  simp only [h p hp]

theorem State.noJoins.seriesOver_groups {s : State} (h : s.noJoins) : s.seriesOver.groups = s.groups := by
  simp [State.seriesOver, h.seriesEnd_groups]

/-- A group put in ABANDONED. -/
def Group.abandoned (g : Group) : Group := { g with st := .abandoned, active := false }

theorem State.group_stopped_self (s : State) (n : Nat) : ((s.stopGroup n).updGroup n Group.abandoned).group n = (s.group n).abandoned := by
  rw [State.group_updGroup_self, State.group, State.stopGroup_groups]
  rfl

theorem State.group_stopped_ne (s : State) (i n : Nat) (h : n ≠ i) : ((s.stopGroup i).updGroup i Group.abandoned).group n = s.group n := by
  rw [State.group_updGroup_ne _ _ _ _ h, State.group, State.stopGroup_groups]
  rfl

/-- With no JOIN waiting, putting groups in ABANDONED changes their records in nothing else. -/
theorem State.noJoins.putAbandoned_group {s : State} (h : s.noJoins) (ns : List Nat) (n : Nat) (hn : n ∈ ns) :
    (s.putAbandoned ns).group n = (s.group n).abandoned := by
  let f (t : State) (i : Nat) : State := (t.stopGroup i).updGroup i Group.abandoned
  have hfold : (ns.foldl f s).group n = (s.group n).abandoned := by
    rw [State.group_foldl f Group.abandoned (fun _ => rfl) State.group_stopped_self State.group_stopped_ne, if_pos hn]
  have hjoins : (ns.foldl f s).noJoins :=
    State.foldl_preserves State.noJoins f (fun t i ht => (ht.of_groups (t.stopGroup_groups i)).updGroup i _ (fun _ => rfl)) ns s h
  show (if (ns.foldl f s).legOn || (ns.foldl f s).series.isNone then ns.foldl f s else (ns.foldl f s).seriesOver).group n = _
  split
  · exact hfold
  · rw [State.group, hjoins.seriesOver_groups]
    exact hfold

end Sys2Proof.Machine
end

-- ==== Sys2Proof/Proofs/Readiness.lean ====

section
namespace Sys2Proof.Machine

/-! ### Ready times -/

/-- A group with one more ready time. -/
def Group.addReady (g : Group) (m : W16) (t : Nat) : Group := { g with ready := g.ready ++ [(m, t)] }

theorem Group.readyOf_addReady_self (g : Group) (m : W16) (t : Nat) (h : g.readyOf m = none) : (g.addReady m t).readyOf m = some t := by
  simp only [Group.readyOf, Option.map_eq_none_iff] at h
  simp [Group.readyOf, Group.addReady, List.find?_append, h]

theorem Group.readyOf_addReady_ne (g : Group) (m o : W16) (t : Nat) (h : o ≠ m) : (g.addReady m t).readyOf o = g.readyOf o := by
  have hne : (m == o) = false := by simpa using h.symm
  simp [Group.readyOf, Group.addReady, List.find?_append, hne]

/-- With the last one ready, all are. -/
theorem Group.allReady_addReady (g : Group) (m : W16) (t : Nat) (hm : g.readyOf m = none) (h : ∀ o ∈ g.modules, o ≠ m → g.readyOf o ≠ none) :
    (g.addReady m t).allReady = true := by
  refine List.all_eq_true.mpr fun o ho => ?_
  by_cases hom : o = m
  · rw [hom, Group.readyOf_addReady_self g m t hm]
    rfl
  · rw [Group.readyOf_addReady_ne g m o t hom]
    exact Option.isSome_iff_ne_none.mpr (h o ho hom)

theorem Group.allReady_eq_false (g : Group) (m : W16) (hm : m ∈ g.modules) (h : g.readyOf m = none) : g.allReady = false :=
  List.all_eq_false.mpr ⟨m, hm, by simp [h]⟩

theorem foldl_max_le (l : List Nat) (a b : Nat) (ha : a ≤ b) (h : ∀ x ∈ l, x ≤ b) : l.foldl max a ≤ b := by
  induction l generalizing a with
  | nil => exact ha
  | cons x l ih => exact ih _ (max_le ha (h x (List.mem_cons_self ..))) (fun y hy => h y (List.mem_cons_of_mem _ hy))

theorem Group.lastReady_addReady_le (g : Group) (m : W16) (t b : Nat) (h : ∀ p ∈ g.ready, p.2 ≤ b) (ht : t ≤ b) : (g.addReady m t).lastReady ≤ b := by
  refine foldl_max_le _ _ _ (Nat.zero_le b) fun x hx => ?_
  obtain ⟨p, hp, rfl⟩ := List.mem_map.mp hx
  rcases List.mem_append.mp hp with hp | hp
  · exact h p hp
  · rw [List.mem_singleton.mp hp]
    exact ht

/-! ### Symbols heard (R323 to R326) -/

/-- What a symbol of a group leaves as it is forwarded: of the groups it can change what its own group owes, and nothing of the series,
the time, the conditions, the cores, device memory and the module's place. -/
structure State.heard (s t : State) (n : Nat) : Prop where
  self : ∃ w, t.group n = { s.group n with owed := w }
  other : ∀ i, i ≠ n → t.group i = s.group i
  joins : s.noJoins → t.noJoins
  series : t.series = s.series
  time : t.time = s.time
  conds : t.conds = s.conds
  cores : t.cores = s.cores
  mem : t.mem = s.mem
  coord : t.coord = s.coord

/-- What a symbol teaches of an owed stretch symbol is kept in its group (R361, R439). -/
theorem State.learnOwed_cases (s : State) (x : Sync) :
    s.learnOwed x = s ∨ ∃ w, s.learnOwed x = s.updGroup x.group (fun g => { g with owed := w }) := by
  unfold State.learnOwed
  split
  · exact .inl rfl
  · split
    · exact .inr ⟨_, rfl⟩
    · generalize (if x.kind = 3 then x.leg - 1 else x.leg) = leg
      generalize (if x.kind = 3 then x.value else s.time.now) = due
      simp only []
      split
      · split
        · exact .inr ⟨_, rfl⟩
        · split
          · exact .inr ⟨_, rfl⟩
          · exact .inl rfl
      · exact .inr ⟨_, rfl⟩

theorem State.learnOwed_heard (s : State) (x : Sync) : s.heard (s.learnOwed x) x.group := by
  rcases s.learnOwed_cases x with h | ⟨w, h⟩
  · rw [h]
    exact ⟨⟨_, rfl⟩, fun _ _ => rfl, id, rfl, rfl, rfl, rfl, rfl, rfl⟩
  · rw [h]
    exact ⟨⟨w, State.group_updGroup_self ..⟩, fun i hi => State.group_updGroup_ne _ _ _ _ hi, fun hj => hj.updGroup _ _ (fun _ => rfl), rfl, rfl, rfl, rfl, rfl, rfl⟩

/-- A symbol heard is taken, forwarded and learnt from. -/
theorem State.hears_heard (s : State) (l : Nat) (b : Block) (h : s.hears l b) :
    ∃ t u, s.syncIn l b = some (syncOf b, t) ∧ (t.forward l (syncOf b)).learnOwed (syncOf b) = u ∧ s.heard u (syncOf b).group := by
  obtain ⟨t, hin, hst⟩ := s.hears_taken l b h
  obtain ⟨hself, hother, hjoins, hseries, htime, hconds, hcores, hmem, hcoord⟩ := (t.forward l (syncOf b)).learnOwed_heard (syncOf b)
  have hgroup (i : Nat) : (t.forward l (syncOf b)).group i = s.group i := congrArg (fun m => mget ({} : Group) m i) hst.groups
  refine ⟨t, _, hin, rfl, ?_, fun i hi => (hother i hi).trans (hgroup i), fun hj => hjoins (hj.of_groups hst.groups), hseries.trans hst.series,
    htime.trans hst.time, hconds.trans hst.conds, hcores.trans hst.cores, hmem.trans hst.mem, hcoord.trans hst.coord⟩
  rw [hgroup] at hself
  exact hself

theorem State.heard.legNow {s t : State} {n : Nat} (h : s.heard t n) : t.legNow = s.legNow := by simp [State.legNow, h.series]

theorem State.heard.groupLeg {s t : State} {n : Nat} (h : s.heard t n) : t.groupLeg n = s.groupLeg n := by
  obtain ⟨w, hw⟩ := h.self
  simp [State.groupLeg, hw, h.legNow]

theorem State.heard.deadlineOf {s t : State} {n : Nat} (h : s.heard t n) : t.deadlineOf n = s.deadlineOf n := by
  obtain ⟨w, hw⟩ := h.self
  simp [State.deadlineOf, hw, h.series]

/-! ### Ready symbols (R28, R36, R43) -/

/-- A milepost has an instant only with its due time known, and its founding group's participants ready in a leg. -/
theorem State.milepostAt_some (s : State) (r : Series) (i : Nat) (hs : s.series = some r) (h : s.milepostAt = some i) :
    r.due ≠ none ∧ (r.opened = none ∨ (s.group r.founder).allReady = true) := by
  simp only [State.milepostAt, hs] at h
  cases hd : r.due with
  | none => simp [hd] at h
  | some d =>
    refine ⟨by simp, ?_⟩
    by_cases ho : r.opened = none
    · exact .inl ho
    · refine .inr ?_
      cases ha : (s.group r.founder).allReady with
      | true => rfl
      | false => simp [hd, ha, ho] at h

/-- A ready symbol that a group awaits: of its leg, from a participant not known to be ready. -/
structure State.awaits (s : State) (l : LinkIx) (b : Block) : Prop where
  hears : s.hears l.val b
  kind : (syncOf b).kind = 1
  noMarker : (syncOf b).leg ≠ 0xFFFFFFFFFFFF
  listening : (s.group (syncOf b).group).listening = true
  leg : (syncOf b).leg = s.groupLeg (syncOf b).group
  member : (syncOf b).origin ∈ (s.group (syncOf b).group).modules
  unready : (s.group (syncOf b).group).readyOf (syncOf b).origin = none

/-- A ready symbol awaited is kept, and takes no milepost where none has an instant in a leg of its group's series. -/
theorem State.awaits.kept {s : State} {l : LinkIx} {b : Block} (h : s.awaits l b) :
    ∃ t u : State, s.heard t (syncOf b).group
      ∧ u = (t.updGroup (syncOf b).group (fun g => g.addReady (syncOf b).origin (syncOf b).value)).undoubt (syncOf b).group
      ∧ ((∀ r i, u.series = some r → u.milepostAt = some i → r.opened = none ∨ r.founder ≠ (syncOf b).group) → exec (.ready l b) s = .next u) := by
  obtain ⟨hh, hk, hf, hl, hleg, hm, hr⟩ := h
  obtain ⟨t0, t, hin, ht, hheard⟩ := s.hears_heard l.val b hh
  obtain ⟨w, hw⟩ := hheard.self
  refine ⟨t, _, hheard, rfl, fun hno => ?_⟩
  have hform : (blockGood b && ((syncOf b).kind != 1 || (syncOf b).leg == 0xFFFFFFFFFFFF)) = false := by simp [hk, hf]
  have hpass : (!(t.group (syncOf b).group).listening || decide ((syncOf b).leg ≠ t.groupLeg (syncOf b).group)
      || !(t.group (syncOf b).group).modules.contains (syncOf b).origin || ((t.group (syncOf b).group).readyOf (syncOf b).origin).isSome) = false := by
    rw [hheard.groupLeg, hw]
    have hl' : ({ s.group (syncOf b).group with owed := w } : Group).listening = true := hl
    have hr' : ({ s.group (syncOf b).group with owed := w } : Group).readyOf (syncOf b).origin = none := hr
    simp [hl', hr', ← hleg, hm]
  show execReady l b s = _
  unfold execReady
  simp only [hform, hin, ht, hpass, Bool.false_eq_true, if_false]
  split
  case h_1 r i hs hi =>
    rw [if_neg]
    · rfl
    · rcases hno r i hs hi with h | h <;> simp [h]
  case h_2 => rfl

end Sys2Proof.Machine
end
section
namespace Sys2Proof.Machine

/-! ### Doubts ended by ready symbols (R43) -/

theorem State.undoubt_certain (s : State) (n : Nat) (h : (s.group n).doubt = false) : s.undoubt n = s := by
  unfold State.undoubt
  simp only [h, Bool.false_and, Bool.false_eq_true, if_false]
  split <;> rfl

/-- A group out of doubt, HELD again. -/
def Group.undoubted (g : Group) : Group :=
  { g with st := .held, active := true, ending := none, doubt := false, overCount := if g.st = .overLimit then g.overCount - 1 else g.overCount }

theorem State.undoubt_all (s : State) (n dl : Nat) (hd : (s.group n).doubt = true) (he : (s.group n).ending = none) (hdl : s.deadlineOf n = some dl)
    (ha : (s.group n).allReady = true) (hl : (s.group n).lastReady ≤ dl) : s.undoubt n = s.updGroup n Group.undoubted := by
  simp [State.undoubt, State.mates, hd, he, hdl, ha, hl]
  rfl

/-- A ready symbol awaited is kept, where no milepost can come of it and the group is not in doubt. -/
theorem State.awaits.counted {s : State} {l : LinkIx} {b : Block} (h : s.awaits l b) (hd : (s.group (syncOf b).group).doubt = false)
    (hno : ∀ r, s.series = some r → r.opened = none ∨ r.founder ≠ (syncOf b).group ∨ r.due = none
      ∨ ∃ m ∈ (s.group (syncOf b).group).modules, m ≠ (syncOf b).origin ∧ (s.group (syncOf b).group).readyOf m = none) :
    ∃ t, exec (.ready l b) s = .next t ∧ (t.group (syncOf b).group).readyOf (syncOf b).origin = some (syncOf b).value
      ∧ (∀ n, n ≠ (syncOf b).group → t.group n = s.group n) ∧ t.cores = s.cores ∧ t.mem = s.mem := by
  obtain ⟨t, u, hheard, hu, hx⟩ := h.kept
  obtain ⟨w, hw⟩ := hheard.self
  have hcertain : u = t.updGroup (syncOf b).group (fun g => g.addReady (syncOf b).origin (syncOf b).value) := by
    rw [hu, State.undoubt_certain]
    rw [State.group_updGroup_self, hw]
    exact hd
  have hg : u.group (syncOf b).group = ({ s.group (syncOf b).group with owed := w } : Group).addReady (syncOf b).origin (syncOf b).value := by
    rw [hcertain, State.group_updGroup_self, hw]
  refine ⟨u, hx fun r i hs hi => ?_, ?_, fun n hn => ?_, by rw [hcertain]; exact hheard.cores, by rw [hcertain]; exact hheard.mem⟩
  · obtain ⟨hdue, hopen⟩ := u.milepostAt_some r i hs hi
    rw [hcertain] at hs
    rcases hno r (hheard.series.symm.trans hs) with hc | hc | hc | ⟨m, hmm, hmo, hmr⟩
    · exact .inl hc
    · exact .inr hc
    · exact absurd hc hdue
    · refine hopen.imp_right fun hall hfounder => ?_
      have hnot : (u.group (syncOf b).group).allReady = false := by
        rw [hg]
        refine Group.allReady_eq_false _ m hmm ?_
        rw [Group.readyOf_addReady_ne _ _ _ _ hmo]
        exact hmr
      rw [hfounder, hnot] at hall
      exact absurd hall (by decide)
  · rw [hg]
    exact Group.readyOf_addReady_self _ _ _ h.unready
  · rw [hcertain, State.group_updGroup_ne _ _ _ _ hn]
    exact hheard.other n hn

/-- The last ready symbol awaited of a group in doubt, all of them from the deadline or before it, ends the doubt. -/
theorem State.awaits.undoubts {s : State} {l : LinkIx} {b : Block} (h : s.awaits l b) (dl : Nat) (hd : (s.group (syncOf b).group).doubt = true)
    (he : (s.group (syncOf b).group).ending = none) (hdl : s.deadlineOf (syncOf b).group = some dl)
    (hall : ∀ m ∈ (s.group (syncOf b).group).modules, m ≠ (syncOf b).origin → (s.group (syncOf b).group).readyOf m ≠ none)
    (hready : ∀ p ∈ (s.group (syncOf b).group).ready, p.2 ≤ dl) (hval : (syncOf b).value ≤ dl)
    (hf : ∀ r, s.series = some r → r.founder ≠ (syncOf b).group) :
    ∃ t, exec (.ready l b) s = .next t ∧ (t.group (syncOf b).group).st = .held ∧ (t.group (syncOf b).group).doubt = false ∧ t.cores = s.cores
      ∧ t.mem = s.mem := by
  obtain ⟨t, u, hheard, hu, hx⟩ := h.kept
  obtain ⟨w, hw⟩ := hheard.self
  let v : State := t.updGroup (syncOf b).group (fun g => g.addReady (syncOf b).origin (syncOf b).value)
  have hg : v.group (syncOf b).group = ({ s.group (syncOf b).group with owed := w } : Group).addReady (syncOf b).origin (syncOf b).value := by
    rw [State.group_updGroup_self, hw]
  have hdl' : v.deadlineOf (syncOf b).group = some dl := by
    rw [← hdl, ← hheard.deadlineOf]
    simp [v, State.deadlineOf, Group.addReady]
  have hheld : u = v.updGroup (syncOf b).group Group.undoubted := by
    rw [hu]
    refine State.undoubt_all _ _ dl ?_ ?_ hdl' ?_ ?_ <;> rw [hg]
    · exact hd
    · exact he
    · exact Group.allReady_addReady _ _ _ h.unready hall
    · exact Group.lastReady_addReady_le _ _ _ _ hready hval
  have hgu : u.group (syncOf b).group = (v.group (syncOf b).group).undoubted := by rw [hheld, State.group_updGroup_self]
  refine ⟨u, hx fun r i hs _ => ?_, by rw [hgu]; rfl, by rw [hgu]; rfl, by rw [hheld]; exact hheard.cores, by rw [hheld]; exact hheard.mem⟩
  rw [hheld] at hs
  exact .inr (hf r (hheard.series.symm.trans hs))

/-! ### Originators (R38, R39) -/

/-- `stretchBegin` sees to it that the group knows the originator, and changes nothing else of the legs. -/
theorem State.stretchBegin_group (s : State) (n : Nat) (m : W16) (c sub : Nat) :
    ∃ os, (s.stretchBegin n m c sub).group n = { s.group n with origins := os } ∧ ∃ o ∈ os, o.coord = m := by
  unfold State.stretchBegin
  split
  case isTrue h =>
    obtain ⟨o, ho, hm⟩ := List.any_eq_true.mp h
    exact ⟨_, rfl, o, ho, beq_iff_eq.mp hm⟩
  case isFalse h =>
    refine ⟨(s.group n).origins ++ [({ coord := m, cause := c, sub := sub } : Origin)], ?_, _, List.mem_append_right _ (List.mem_singleton.mpr rfl), rfl⟩
    simp only []
    split
    · exact State.group_updGroup_self ..
    · rw [State.group, State.markG, State.markAt_groups]
      exact State.group_updGroup_self ..

/-- Nothing but the groups and the recorder changes as an originator is learnt of. -/
theorem State.stretchBegin_only (s : State) (n : Nat) (m : W16) (c sub : Nat) :
    { s.stretchBegin n m c sub with groups := s.groups, trace := s.trace } = s := by
  unfold State.stretchBegin
  split
  · rfl
  · simp only []
    split
    · rfl
    · have hmark (t : State) : { t.markG 2 c n m sub with groups := s.groups, trace := s.trace } = { t with groups := s.groups, trace := s.trace } := by
        have h := congrArg (fun u : State => { u with groups := s.groups, trace := s.trace })
          (t.markAt_only t.time.now 2 c n m mpUnit (t.jobOf n) t.legNow sub)
        exact h
      exact hmark _

@[simp] theorem State.stretchBegin_cores (s : State) (n : Nat) (m : W16) (c sub : Nat) : (s.stretchBegin n m c sub).cores = s.cores := by
  have h := congrArg State.cores (s.stretchBegin_only n m c sub); exact h
@[simp] theorem State.stretchBegin_mem (s : State) (n : Nat) (m : W16) (c sub : Nat) : (s.stretchBegin n m c sub).mem = s.mem := by
  have h := congrArg State.mem (s.stretchBegin_only n m c sub); exact h
@[simp] theorem State.stretchBegin_series (s : State) (n : Nat) (m : W16) (c sub : Nat) : (s.stretchBegin n m c sub).series = s.series := by
  have h := congrArg State.series (s.stretchBegin_only n m c sub); exact h
@[simp] theorem State.stretchBegin_time (s : State) (n : Nat) (m : W16) (c sub : Nat) : (s.stretchBegin n m c sub).time = s.time := by
  have h := congrArg State.time (s.stretchBegin_only n m c sub); exact h

/-- This module's stretch symbol sent: the group knows the module as an originator. -/
theorem State.sendStretch_group (s : State) (n c sub : Nat) :
    ∃ os, (s.sendStretch n c sub).group n = { s.group n with origins := os } ∧ ∃ o ∈ os, o.coord = s.coord := by
  obtain ⟨os, hos, ho⟩ := s.stretchBegin_group n s.coord c sub
  exact ⟨os, (State.sendGroup_group ..).trans hos, ho⟩

@[simp] theorem State.sendStretch_cores (s : State) (n c sub : Nat) : (s.sendStretch n c sub).cores = s.cores := by simp [State.sendStretch]
@[simp] theorem State.sendStretch_mem (s : State) (n c sub : Nat) : (s.sendStretch n c sub).mem = s.mem := by simp [State.sendStretch]
@[simp] theorem State.sendStretch_time (s : State) (n c sub : Nat) : (s.sendStretch n c sub).time = s.time := by simp [State.sendStretch]

@[simp] theorem State.toTime_group (s : State) (t n : Nat) : (s.toTime t).group n = s.group n := by simp [State.group]

@[simp] theorem State.toTime_coord (s : State) (t : Nat) : (s.toTime t).coord = s.coord := by simp [State.coord]

@[simp] theorem State.toTime_legNow (s : State) (t : Nat) : (s.toTime t).legNow = s.legNow := by simp [State.legNow]

/-- A group HELD at an instant. -/
def State.heldAt (s : State) (n d : Nat) : State := (s.toTime d).updGroup n (fun y => { y with st := .held })

theorem State.heldAt_group (s : State) (n d : Nat) : (s.heldAt n d).group n = { s.group n with st := .held } := by
  simp [State.heldAt]

/-- At the due time a RUNNING group with someone not ready is HELD, and this module's stretch symbol goes out where it is the late one. -/
theorem execDueTime_held (s : State) (g : GroupIx) (r : Series) (d : Nat) (hs : s.series = some r) (hd : r.due = some d) (ho : r.opened.isSome = true)
    (hw : (s.group g.val).owed = none) (ha : (s.group g.val).legActive = true) (hst : (s.group g.val).st = .running)
    (hr : (s.group g.val).allReady = false) :
    exec (.dueTime g) s = .next
      (if ((s.group g.val).readyOf s.coord).isSome then s.heldAt g.val d
        else (s.heldAt g.val d).sendStretch g.val (s.heldAt g.val d).conds.cause.1 (s.heldAt g.val d).conds.cause.2) := by
  show execDueTime g s = _
  unfold execDueTime
  simp only [hs, hw, hd, happen, ho, ha, hst, hr]
  rfl

/-- A stretch symbol of a participant, learnt by the deadline, names its originator. -/
theorem execStretch_named (s : State) (l : LinkIx) (b : Block) (hh : s.hears l.val b) (hk : (syncOf b).kind = 2)
    (hl : (s.group (syncOf b).group).listening = true) (hleg : (syncOf b).leg = s.groupLeg (syncOf b).group)
    (hm : (syncOf b).origin ∈ (s.group (syncOf b).group).modules) (hdl : ∀ dl, s.deadlineOf (syncOf b).group = some dl → s.time.now ≤ dl) :
    ∃ t, s.heard t (syncOf b).group
      ∧ exec (.stretch l b) s = .next (t.stretchBegin (syncOf b).group (syncOf b).origin (syncOf b).cause (syncOf b).sub) := by
  obtain ⟨t0, t, hin, ht, hheard⟩ := s.hears_heard l.val b hh
  obtain ⟨w, hw⟩ := hheard.self
  refine ⟨t, hheard, ?_⟩
  have hpass : (!(t.group (syncOf b).group).listening || decide ((syncOf b).leg ≠ t.groupLeg (syncOf b).group)
      || !(t.group (syncOf b).group).modules.contains (syncOf b).origin) = false := by
    rw [hheard.groupLeg, hw]
    have hl' : ({ s.group (syncOf b).group with owed := w } : Group).listening = true := hl
    simp [hl', ← hleg, hm]
  obtain ⟨os, hos, -⟩ := t.stretchBegin_group (syncOf b).group (syncOf b).origin (syncOf b).cause (syncOf b).sub
  have hdl' : (t.stretchBegin (syncOf b).group (syncOf b).origin (syncOf b).cause (syncOf b).sub).deadlineOf (syncOf b).group
      = s.deadlineOf (syncOf b).group := by
    rw [← hheard.deadlineOf]
    simp [State.deadlineOf, hos]
  show execStretch l b s = _
  unfold execStretch
  simp only [hk, hin, ht, hpass, hdl', bne_self_eq_false, Bool.and_false, Bool.false_eq_true, if_false, State.stretchBegin_time, hheard.time]
  split
  case h_1 dl hd =>
    have hnow : ¬ dl < s.time.now := by have := hdl dl hd; omega
    simp [hnow]
  case h_2 => rfl

end Sys2Proof.Machine
end
section
namespace Sys2Proof.Machine

/-! ### The deadline (R41 to R43) -/

theorem toNat_sat32 (x : W32) : (sat32 x).toNat = min (2 ^ 32 - 1) (x.toNat + 1) := by
  simp only [sat32, sat, BitVec.toNat_ofNat]
  omega

@[simp] theorem State.limitMark_group (s : State) (n dl i : Nat) : (s.limitMark n dl).group i = s.group i := by
  simp [State.limitMark, State.group]

/-- At the deadline of a leg in progress, with a participant not ready, the group's policy is applied. -/
theorem execDeadline_decides (s : State) (g : GroupIx) (dl : Nat) (m : W16) (hdl : s.deadlineOf g.val = some dl)
    (ho : ∀ r, s.series = some r → r.opened.isSome = true) (he : (s.group g.val).ending = none) (hd : (s.group g.val).doubt = false)
    (ha : (s.group g.val).legActive = true) (hst : (s.group g.val).st = .running ∨ (s.group g.val).st = .held)
    (hm : m ∈ (s.group g.val).modules) (hr : (s.group g.val).readyOf m = none) :
    exec (.deadline g) s = .next ((s.toTime dl).atDeadline g.val dl (s.surelyLate g.val dl)) := by
  have hst' : ((s.group g.val).st == .running || (s.group g.val).st == .held) = true := by simpa using hst
  have hop : (s.series.map (·.opened.isSome)).getD false = true := by
    cases hs : s.series with
    | none => simp [State.deadlineOf, hs] at hdl
    | some r => exact ho r hs
  show execDeadline g s = _
  unfold execDeadline
  simp only [he, hdl, hd, Bool.false_eq_true, if_false, happen, ha, hst', hop, Bool.and_true, Bool.true_and]
  rw [if_pos]
  refine List.any_eq_true.mpr ⟨m, hm, ?_⟩
  rw [hr]

/-- HOLD at the deadline: the group is OVER_LIMIT, and in doubt while nobody is known to be late. -/
theorem State.atDeadline_hold (s : State) (n dl : Nat) (sure : Bool) (hp : (s.group n).abandonPolicy = false) :
    (s.atDeadline n dl sure).group n = { s.group n with st := .overLimit, overCount := sat32 (s.group n).overCount, doubt := !sure }
      ∧ (s.atDeadline n dl sure).cores = s.cores ∧ (s.atDeadline n dl sure).mem = s.mem ∧ (s.atDeadline n dl sure).time = s.time := by
  unfold State.atDeadline
  simp only [hp, Bool.false_eq_true, if_false]
  split
  · exact ⟨by simp [hp], by simp [State.limitMark], by simp [State.limitMark], by simp [State.limitMark]⟩
  · exact ⟨by simp [hp], rfl, rfl, rfl⟩

/-- The choice that an abandonment at a deadline waits for. -/
def State.hardEnding (s : State) (n dl : Nat) : Ending := { leg := s.legNow, judge := dl, choice := dl + (s.group n).latency, soft := false }

/-- ABANDON at the deadline: the group is ABANDONED, with the choice of originator L later. -/
theorem State.atDeadline_abandon (s : State) (n dl : Nat) (sure : Bool) (hp : (s.group n).abandonPolicy = true) (ha : (s.group n).legActive = true)
    (hj : s.noJoins) :
    ((s.atDeadline n dl sure).group n).st = .abandoned ∧ ((s.atDeadline n dl sure).group n).active = false
      ∧ ((s.atDeadline n dl sure).group n).ending = some (s.hardEnding n dl) := by
  let e : Ending := s.hardEnding n dl
  let f (t : State) (i : Nat) : State := t.updGroup i (fun x => { x with ending := some e })
  let k (t : State) (i : Nat) : State := t.updGroup i (fun x => { x with st := .abandoned, active := false, doubt := true })
  have hn := s.mem_fallsWith n ha
  have hend : ((s.fallsWith n).foldl f s).group n = { s.group n with ending := some e } := by
    rw [State.group_foldl f (fun x => { x with ending := some e }) (fun _ => rfl) (fun t i => State.group_updGroup_self ..)
      (fun t i i' h => State.group_updGroup_ne _ _ _ _ h), if_pos hn]
  have hjoins : ((s.fallsWith n).foldl f s).noJoins :=
    State.foldl_preserves State.noJoins f (fun t i ht => ht.updGroup i _ (fun _ => rfl)) _ s hj
  unfold State.atDeadline
  simp only [hp, if_true]
  split
  · have h := hjoins.putAbandoned_group _ n hn
    rw [hend] at h
    exact ⟨congrArg Group.st h, congrArg Group.active h, congrArg Group.ending h⟩
  · have h := State.group_foldl k (fun x => { x with st := .abandoned, active := false, doubt := true }) (fun _ => rfl)
      (fun t i => State.group_updGroup_self ..) (fun t i i' h => State.group_updGroup_ne _ _ _ _ h) (s.fallsWith n) n ((s.fallsWith n).foldl f s)
    rw [if_pos hn, hend] at h
    exact ⟨congrArg Group.st h, congrArg Group.active h, congrArg Group.ending h⟩

/-! ### An abandonment concluded (R44) -/

theorem State.updGroup_groups_congr {s t : State} (h : t.groups = s.groups) (n : Nat) (f : Group → Group) :
    (t.updGroup n f).groups = (s.updGroup n f).groups := by
  simp only [State.updGroup, State.setGroup, State.group, h]

/-- The RUN_LEGS and the waiting marks of a group ended: of the groups, its runs alone change. -/
theorem State.endRuns_groups (s : State) (n st a b : Nat) : (s.endRuns n st a b).groups = (s.updGroup n (fun g => { g with runs := [] })).groups := by
  let f (u : State) (r : Run) : State := u.completeOrder r.order st a b
  have hruns : ((s.group n).runs.foldl f s).groups = s.groups := State.foldl_keeps State.groups f (fun u r => by simp [f]) _ s
  unfold State.endRuns
  exact (State.foldl_keeps State.groups (fun u d => u.complete d 0xA8 0 0) (fun u d => State.complete_groups ..) _ _).trans
    (State.updGroup_groups_congr hruns n _)

theorem State.endRuns_group_self (s : State) (n st a b : Nat) : (s.endRuns n st a b).group n = { s.group n with runs := [] } := by
  rw [State.group, State.endRuns_groups]
  exact State.group_updGroup_self ..

theorem State.endRuns_group_ne (s : State) (n st a b i : Nat) (h : i ≠ n) : (s.endRuns n st a b).group i = s.group i := by
  rw [State.group, State.endRuns_groups]
  exact State.group_updGroup_ne _ _ _ _ h

@[simp] theorem State.markAt_group (s : State) (t k ca g : Nat) (o : W16) (u : Nat) (j : W16) (l p n : Nat) :
    (s.markAt t k ca g o u j l p).group n = s.group n := by simp [State.group]

/-- A group that no RELEASE waits for stays as it is but for its runs, its choice and its doubt. -/
theorem State.concludeGroup_self (s : State) (n leg : Nat) (m : W16) (c sub : Nat) (soft : Bool) (hr : (s.group n).releasing = none) :
    (s.concludeGroup n leg m c sub soft).group n = { s.group n with runs := [], ending := none, doubt := false } := by
  unfold State.concludeGroup
  simp only [State.markAt_group, State.group_updGroup_self, State.endRuns_group_self, hr]

theorem State.concludeGroup_ne (s : State) (n leg : Nat) (m : W16) (c sub : Nat) (soft : Bool) (i : Nat) (h : i ≠ n) :
    (s.concludeGroup n leg m c sub soft).group i = s.group i := by
  unfold State.concludeGroup
  simp only []
  split
  · rw [State.markAt_group, State.group_updGroup_ne _ _ _ _ h, State.endRuns_group_ne _ _ _ _ _ _ h]
  · rw [State.completeOrder_group, State.group_updGroup_ne _ _ _ _ h, State.markAt_group, State.group_updGroup_ne _ _ _ _ h,
      State.endRuns_group_ne _ _ _ _ _ _ h]

/-- An active LEG group that no RELEASE waits for is ABANDONED by an abandonment that names it. -/
theorem State.abandonNow_group (s : State) (n : Nat) (m : W16) (c sub : Nat) (soft : Bool) (ha : (s.group n).legActive = true)
    (hr : (s.group n).releasing = none) (hj : s.noJoins) :
    ((s.abandonNow n m c sub soft).group n).st = .abandoned ∧ ((s.abandonNow n m c sub soft).group n).active = false := by
  let P (t : State) : Prop := (t.group n).st = .abandoned ∧ (t.group n).active = false ∧ (t.group n).releasing = none
  have hput : P (s.putAbandoned (s.fallsWith n)) := by
    simp only [P, hj.putAbandoned_group _ n (s.mem_fallsWith n ha)]
    exact ⟨rfl, rfl, hr⟩
  have hend : P (s.abandonNow n m c sub soft) := by
    refine State.foldl_preserves P _ (fun t i ht => ?_) _ _ hput
    obtain ⟨hst, hact, hrel⟩ := ht
    by_cases hi : n = i
    · subst hi
      simp only [P, State.concludeGroup_self _ _ _ _ _ _ _ hrel]
      exact ⟨hst, hact, hrel⟩
    · simp only [P, State.concludeGroup_ne _ _ _ _ _ _ _ _ hi]
      exact ⟨hst, hact, hrel⟩
  exact ⟨hend.1, hend.2.1⟩

/-- An abandon symbol of the leg in progress stops its group's job. -/
theorem execAbandon_stops (s : State) (l : LinkIx) (b : Block) (hh : s.hears l.val b) (hk : (syncOf b).kind = 4)
    (ha : (s.group (syncOf b).group).legActive = true) (hleg : (syncOf b).leg = s.legNow) (hr : (s.group (syncOf b).group).releasing = none)
    (hj : s.noJoins) :
    ∃ t, exec (.abandon l b) s = .next t ∧ (t.group (syncOf b).group).st = .abandoned ∧ (t.group (syncOf b).group).active = false := by
  obtain ⟨t0, t, hin, ht, hheard⟩ := s.hears_heard l.val b hh
  obtain ⟨w, hw⟩ := hheard.self
  let u : State := t.updGroup (syncOf b).group (fun y => { y with ending := none })
  have hu : u.group (syncOf b).group = { s.group (syncOf b).group with owed := w, ending := none } := by
    rw [State.group_updGroup_self, hw]
  have hau : (u.group (syncOf b).group).legActive = true := by rw [hu]; exact ha
  have hru : (u.group (syncOf b).group).releasing = none := by rw [hu]; exact hr
  have hpass : ((t.group (syncOf b).group).legActive && (syncOf b).leg == t.legNow) = true := by
    rw [hw, hheard.legNow, hleg, beq_self_eq_true, Bool.and_true]
    exact ha
  refine ⟨_, ?_, u.abandonNow_group _ (BitVec.ofNat 16 (syncOf b).value) (syncOf b).cause (syncOf b).sub true hau hru
    ((hheard.joins hj).updGroup _ _ (fun _ => rfl))⟩
  show execAbandon l b s = _
  unfold execAbandon
  simp only [hk, hin, ht, hpass, bne_self_eq_false, Bool.and_false, Bool.false_eq_true, if_false, if_true]
  rfl

/-! ### POLICY (R43) -/

/-- A write of POLICY in an active LEG group that is RUNNING, or one that does not ask for ABANDON, sets POLICY alone. -/
theorem State.policyWrite_sets (s : State) (n : Nat) (v : W32) (ha : (s.group n).legActive = true)
    (h : bit v.toNat 29 = false ∨ (s.group n).st = .running) :
    s.policyWrite n v = s.updGroup n (fun x => { x with abandonPolicy := bit v.toNat 29 }) := by
  have hno : (bit v.toNat 29 && !(s.group n).abandonPolicy && ((s.group n).st == .held || (s.group n).st == .overLimit)) = false := by
    rcases h with h | h <;> simp [h]
  unfold State.policyWrite
  simp only [ha, Bool.not_true, Bool.false_eq_true, if_false, hno, Bool.false_and]
  split <;> rfl

/-! ### MODULE_READY (R28) -/

/-- The checker's leg end leaves groups, cores, device memory and the module's place. -/
theorem State.checkMissing_stands (s : State) :
    s.checkMissing.groups = s.groups ∧ s.checkMissing.cores = s.cores ∧ s.checkMissing.mem = s.mem ∧ s.checkMissing.coord = s.coord := by
  have h : (fun t : State => (t.groups, t.cores, t.mem, t.coord)) s.checkMissing = (s.groups, s.cores, s.mem, s.coord) := by
    unfold State.checkMissing
    exact (State.foldl_keeps (fun t : State => (t.groups, t.cores, t.mem, t.coord)) _ (fun t q => by simp [State.checkFault, State.checkMark, State.coord]) _ _).trans rfl
  simpa using h

/-- This module's ready time said to a group: kept there, and sent. -/
def State.sayReady (s : State) (leg t n : Nat) : State :=
  (s.updGroup n (fun g => g.addReady s.coord t)).sendGroup n { kind := 1, leg := leg, value := t }

@[simp] theorem State.sayReady_coord (s : State) (leg t n : Nat) : (s.sayReady leg t n).coord = s.coord := by simp [State.sayReady]; rfl

@[simp] theorem State.sayReady_cores (s : State) (leg t n : Nat) : (s.sayReady leg t n).cores = s.cores := by simp [State.sayReady]

@[simp] theorem State.sayReady_mem (s : State) (leg t n : Nat) : (s.sayReady leg t n).mem = s.mem := by simp [State.sayReady]

/-- Once said to a group, the ready time stays there. -/
theorem State.mem_ready_foldl_sayReady (leg t n : Nat) (l : List Nat) (hn : n ∈ l) (s : State) :
    (s.coord, t) ∈ ((l.foldl (fun u i => u.sayReady leg t i) s).group n).ready := by
  induction l using List.reverseRecOn with
  | nil => simp at hn
  | append_singleton l a ih =>
    have hcoord : (l.foldl (fun u i => u.sayReady leg t i) s).coord = s.coord := State.foldl_keeps State.coord _ (fun u i => by simp) l s
    rw [List.foldl_append, List.foldl_cons, List.foldl_nil, State.sayReady, State.sendGroup_group, hcoord]
    by_cases ha : n = a
    · subst ha
      rw [State.group_updGroup_self]
      exact List.mem_append_right _ (List.mem_singleton.mpr rfl)
    · rw [State.group_updGroup_ne _ _ _ _ ha]
      exact ih (by simpa [ha] using hn)

/-- MODULE_READY says the ready time to every group for which the module has become ready. -/
theorem execModuleReady_says (s : State) (r : Series) (n : Nat) (hs : s.series = some r) (ho : r.opened.isSome = true) (hn : n ∈ s.nowReady r) :
    ∃ t, exec .moduleReady s = .next t ∧ (s.coord, s.time.now) ∈ (t.group n).ready ∧ t.cores = s.cores ∧ t.mem = s.mem := by
  let u : State := if s.moduleEnded then s.checkMissing else s
  have hu : u.cores = s.cores ∧ u.mem = s.mem ∧ u.coord = s.coord := by
    obtain ⟨-, hcores, hmem, hcoord⟩ := s.checkMissing_stands
    unfold u
    split
    · exact ⟨hcores, hmem, hcoord⟩
    · exact ⟨rfl, rfl, rfl⟩
  obtain ⟨hcores, hmem, hcoord⟩ := hu
  have hne : (s.nowReady r).isEmpty = false := List.isEmpty_eq_false_iff_exists_mem.mpr ⟨n, hn⟩
  have hx : exec .moduleReady s = .next ((s.nowReady r).foldl (fun t i => t.sayReady r.legNo s.time.now i) u) := by
    show execModuleReady s = _
    simp only [execModuleReady, hs, happen, ho, hne]
    rfl
  refine ⟨_, hx, ?_, (State.foldl_keeps State.cores _ (fun t i => by simp) _ _).trans hcores,
    (State.foldl_keeps State.mem _ (fun t i => by simp) _ _).trans hmem⟩
  rw [← hcoord]
  exact State.mem_ready_foldl_sayReady _ _ _ _ hn u

end Sys2Proof.Machine
end

section
open Sys2Proof Sys2Proof.Machine

/-- Settles O42, clause by clause: each by what its command does where the clause's hypotheses decide its checks. Abandonments rest on
`State.noJoins`: with no JOIN waiting the end of the series changes no group's record. -/
theorem legReadinessAndOverruns : Obligations.LegReadinessAndOverruns := by
  intro s l b g
  refine ⟨?_, ?_, ?_, ?_, ?_, ?_, ?_, ?_⟩
  · intro r n hs ho hact hr hended
    have hn : n ∈ s.nowReady r := List.mem_filter.mpr ⟨hact, by simpa [hr] using hended⟩
    exact execModuleReady_says s r n hs ho hn
  · intro hh hk hleg ⟨hl, hgl, hm⟩ hr hd hno
    exact State.awaits.counted ⟨hh, hk, hleg, hl, hgl, hm, hr⟩ hd hno
  · intro dl hh hk hleg ⟨hl, hgl, hm⟩ hr hd he hdl hall hready hval hf
    exact State.awaits.undoubts ⟨hh, hk, hleg, hl, hgl, hm, hr⟩ dl hd he hdl hall hready hval hf
  · intro r d hs hd ho hw ha hst hr
    have hx := execDueTime_held s g r d hs hd ho hw ha hst hr
    have hg := s.heldAt_group g.val d
    have hnow := s.toTime_now d
    have hmem := s.toTime_mem d
    have hcoord : (s.heldAt g.val d).coord = s.coord := s.toTime_coord d
    by_cases hme : (s.group g.val).readyOf s.coord = none
    · rw [if_neg (by simp [hme])] at hx
      obtain ⟨os, hos, ho⟩ := (s.heldAt g.val d).sendStretch_group g.val (s.heldAt g.val d).conds.cause.1 (s.heldAt g.val d).conds.cause.2
      rw [hg] at hos
      rw [hcoord] at ho
      exact ⟨_, hx, by rw [hos], by rw [State.sendStretch_time]; exact hnow, State.sendStretch_cores .., (State.sendStretch_mem ..).trans hmem,
        fun _ => by rw [hos]; exact ho, fun h => absurd hme h⟩
    · rw [if_pos (Option.isSome_iff_ne_none.mpr hme)] at hx
      exact ⟨_, hx, by rw [hg], hnow, rfl, hmem, fun h => absurd h hme, fun _ => by rw [hg]⟩
  · intro hh hk ⟨hl, hgl, hm⟩ hdl
    obtain ⟨t, hheard, hx⟩ := execStretch_named s l b hh hk hl hgl hm hdl
    obtain ⟨w, hw⟩ := hheard.self
    obtain ⟨os, hos, ho⟩ := t.stretchBegin_group (syncOf b).group (syncOf b).origin (syncOf b).cause (syncOf b).sub
    exact ⟨_, hx, by rw [hos]; exact ho, by rw [hos, hw], by rw [State.stretchBegin_cores, hheard.cores], by rw [State.stretchBegin_mem, hheard.mem]⟩
  · intro dl m hdl ho he hd ha hst hm hr
    have hx := execDeadline_decides s g dl m hdl ho he hd ha hst hm hr
    refine ⟨fun hp => ?_, fun hp hj => ?_⟩
    · obtain ⟨hg, hcores, hmem, htime⟩ := (s.toTime dl).atDeadline_hold g.val dl (s.surelyLate g.val dl) (by rw [State.toTime_group]; exact hp)
      rw [State.toTime_group] at hg
      exact ⟨_, hx, by rw [hg], by rw [hg]; exact toNat_sat32 _, by rw [htime]; exact s.toTime_now dl, hcores, by rw [hg]; simp, by rw [hmem, State.toTime_mem]⟩
    · have hall := (s.toTime dl).atDeadline_abandon g.val dl (s.surelyLate g.val dl) (by rw [State.toTime_group]; exact hp)
        (by rw [State.toTime_group]; exact ha) (State.noJoins.of_groups hj (s.toTime_groups dl))
      refine ⟨_, hx, ?_⟩
      simpa [State.hardEnding] using hall
  · intro hh hk ha hleg hr hj
    exact execAbandon_stops s l b hh hk ha hleg hr hj
  · intro v hans ha hv
    have hstands : ∀ n, (s.regIn (0x2100 + 0x20 * g.val) v).group n = s.group n := fun n => by simp [State.group]
    have hsets := (s.regIn (0x2100 + 0x20 * g.val) v).policyWrite_sets g.val v (by rw [hstands]; exact ha) (by rw [hstands]; exact hv)
    have hx : exec (.policyWrite g v) s = _ := (s.regCmd_answers _ v (fun t => t.policyWrite g.val v) hans).trans (congrArg _ hsets)
    refine ⟨_, hx, ?_, fun n hn => ?_, ?_, ?_⟩
    · rw [State.group_updGroup_self, hstands]
    · rw [State.group_updGroup_ne _ _ _ _ hn, hstands]
    · exact State.captureIn_cores ..
    · exact State.captureIn_mem ..
end

-- ==== Sys2Proof/Proofs/StartUp.lean ====

section
namespace Sys2Proof.Machine

/-! ### What training and READY do to the cores (R57, R376, R426) -/

@[simp] theorem State.measChanged_cores (s : State) (i : Nat) : (s.measChanged i).cores = s.cores := State.mark_cores ..

@[simp] theorem State.measFixed_cores (s : State) : s.measFixed.cores = s.cores := rfl

@[simp] theorem State.raiseFloor_cores (s : State) : s.raiseFloor.cores = s.cores := by
  unfold State.raiseFloor
  split
  · rfl
  · split
    · exact State.measChanged_cores ..
    · rfl

@[simp] theorem State.rangeMark_cores (s : State) : s.rangeMark.cores = s.cores := by
  unfold State.rangeMark
  split
  · exact State.faultMark_cores ..
  · rfl

@[simp] theorem State.putStart_cores (s : State) (p : List Line) : (s.putStart p).cores = s.cores := by
  simp only [State.putStart]
  split
  · exact State.endCapture_cores ..
  · rfl

@[simp] theorem State.startCapture_cores (s : State) : s.startCapture.cores = s.cores := by
  unfold State.startCapture
  split
  · rfl
  · split
    · rfl
    · exact State.putStart_cores ..

/-- A phase point treats equal banks of cores alike. -/
theorem State.rephase_cores_congr {s t : State} (h : t.cores = s.cores) : t.rephase.cores = s.rephase.cores := by
  simp only [State.rephase, h]

/-- READY is a phase point, and nothing else that it does reaches a core. -/
theorem State.reachReady_cores (s : State) : s.reachReady.cores = s.rephase.cores := by
  simp only [State.reachReady, State.startCapture_cores]
  exact State.rephase_cores_congr (by simp)

@[simp] theorem State.untrained_cores (s : State) (d status : Nat) : (s.untrained d status).cores = s.cores := State.faultMark_cores ..

theorem State.trainDevice_cores (s : State) (d : Nat) (r : DevTrain) : (s.trainDevice d r).cores = s.cores := by
  simp only [State.trainDevice]
  split
  · rfl
  · split
    · rfl
    · split
      · exact State.untrained_cores ..
      · split
        · exact State.untrained_cores ..
        · split <;> rfl

/-- Training that makes the module READY leaves the cores as a phase point does. -/
theorem execMemoryTrainingDone_cores (ds : List DevTrain) (s t : State) (hst : s.boot.st = .train)
    (h : exec (.memoryTrainingDone ds) s = .next t) (hr : t.boot.st = .ready) : t.cores = s.rephase.cores := by
  have htrained := State.foldl_keeps State.cores (fun t d => t.trainDevice d (nth .full ds d)) (fun t d => t.trainDevice_cores d _) (List.range 20) s
  change execMemoryTrainingDone ds s = .next t at h
  simp only [execMemoryTrainingDone, happen, hst, beq_self_eq_true, if_true, Host.Outcome.next.injEq] at h
  split at h
  · subst h
    exact absurd (show Boot.failed = .ready from hr) (by decide)
  · subst h
    exact (State.reachReady_cores _).trans (State.rephase_cores_congr htrained)

/-! ### A core whose arbiter has granted -/

/-- A module in TRAIN with HBM4 stack 0 present, in which an arbiter of core 0 points past stream F. -/
def grantedInTrain : State :=
  { boot := { st := .train, inReset := false }
    plan := { mems := [(0, { present := true })] }
    cores := [(0, { power := .on, arb := [(0, 1)] })] }

/-- The phase point takes the pointer back to 0. -/
theorem grantedInTrain_rephase_cores : grantedInTrain.rephase.cores ≠ grantedInTrain.cores := by decide

end Sys2Proof.Machine

open Sys2Proof Sys2Proof.Machine

/-- Refutes O52: the clause that training leaves the cores. READY is a phase point, at which every core's arbiters return to 0 (R57), so
a core in TRAIN whose arbiter points elsewhere is changed by the MEMORY_TRAINING_DONE that makes the module READY. (The start-up test
leaves every core's arbiters at 0, and there the phase point changes no core.) -/
theorem not_startUp : ¬ Obligations.StartUp := by
  intro h
  obtain ⟨-, -, -, htrain, -⟩ := h grantedInTrain 0
  obtain ⟨t, ht, hready, -, -, hcores⟩ := (htrain [.saved] rfl).1 ⟨0, by decide, rfl, by decide⟩
  have hphase := execMemoryTrainingDone_cores [.saved] grantedInTrain t rfl ht hready
  exact grantedInTrain_rephase_cores (hphase.symm.trans hcores)
end

-- ==== Sys2Proof/Proofs/ArrayStarts.lean ====

section
namespace Sys2Proof.Machine

/-! ### Operations that a check ends (R110, R228) -/

/-- A core's record replaced leaves the rest of the module. -/
theorem State.onlyCore_setCore (s : State) (c : Nat) (k : Core) : s.onlyCore (s.setCore c k) c :=
  ⟨rfl, fun d hd => State.core_setCore_ne s c d k hd⟩

theorem execArrayLoad_head (s : State) (c : CoreIx) (o : Op) (h : s.arrayHead c.val 1 = some o) : exec (.arrayLoad c) s = .next (s.arrayLoad c.val o) := by
  show execArrayLoad c s = _
  rw [execArrayLoad, h]

theorem execArrayFeed_head (s : State) (c : CoreIx) (st : Stall) (o : Op) (h : s.arrayHead c.val 2 = some o) :
    exec (.arrayFeed c st) s = .next (s.arrayRows c.val o st) := by
  show execArrayFeed c st s = _
  rw [execArrayFeed, h]

theorem execArrayReverse_head (s : State) (c : CoreIx) (st : Stall) (o : Op) (h : s.arrayHead c.val 3 = some o) :
    exec (.arrayReverse c st) s = .next (s.arrayRows c.val o st) := by
  show execArrayReverse c st s = _
  rw [execArrayReverse, h]

theorem execArrayWgrad_head (s : State) (c : CoreIx) (st : Stall) (o : Op) (h : s.arrayHead c.val 4 = some o) :
    exec (.arrayWgrad c st) s = .next (s.arrayWgrad c.val o st) := by
  show execArrayWgrad c st s = _
  rw [execArrayWgrad, h]

theorem State.arrayLoad_fails (s : State) (c : Nat) (o : Op) (h : (s.core c).loadStatus (s.width c) o ≠ 0) :
    s.arrayLoad c o = s.setCore c ((s.core c).start .array o s.cycles ((s.core c).loadStatus (s.width c) o) 1 [] false 4) := by
  unfold State.arrayLoad
  simp only []
  split
  next h0 _ => exact absurd h0 h
  next => rfl

theorem State.arrayRows_fails (s : State) (c : Nat) (o : Op) (st : Stall) (h : (s.core c).feedStatus (s.width c) o (o.opc == 3) ≠ 0) :
    s.arrayRows c o st = s.setCore c ((s.core c).arrayFail o s.cycles ((s.core c).feedStatus (s.width c) o (o.opc == 3)) o.dirMode) := by
  unfold State.arrayRows
  simp only []
  split
  next h0 _ => exact absurd h0 h
  next => rfl

theorem State.arrayWgrad_fails (s : State) (c : Nat) (o : Op) (st : Stall) (h0 : (s.core c).wgradStatus (s.width c) o ≠ 0)
    (h1 : (s.core c).wgradStatus (s.width c) o ≠ 1) :
    s.arrayWgrad c o st = s.setCore c ((s.core c).arrayFail o s.cycles ((s.core c).wgradStatus (s.width c) o) o.dirMode) := by
  unfold State.arrayWgrad
  simp only []
  split
  next h _ => exact absurd h h0
  next h => exact absurd h h1
  next => rfl

/-- A WGRAD of a frozen tensor is counted and skipped (R126, R127). -/
theorem State.arrayWgrad_skips (s : State) (c : Nat) (o : Op) (st : Stall) (h : (s.core c).wgradStatus (s.width c) o = 1) :
    s.arrayWgrad c o st = s.setCore c (((s.core c).count 0x50 1).start .array o s.cycles 1 1 [] false 4) := by
  unfold State.arrayWgrad
  simp only [h]

/-- The frozen flag is the first of WGRAD's checks (R127, R511). -/
theorem Core.wgradStatus_frozen (k : Core) (w : Nat) (o : Op) (h : mget false k.flags (o.f 4 0 8) = true) : k.wgradStatus w o = 1 := by
  unfold Core.wgradStatus
  simp only [h]
  split <;> rfl

/-- What an engine takes does not depend on the pairs and the counters of its core. -/
theorem Core.took_aside (k k' : Core) (ps : List Pair) (cs : Counters) (e : Eng) (o : Op) (st cy : Nat)
    (h : ({ k with pairs := ps, counters := cs } : Core).took k' e o st cy) : k.took k' e o st cy := by
  obtain ⟨hqueue, hothers, hrun, hpot, hstream, hrest⟩ := h
  refine ⟨hqueue.trans (by cases e <;> rfl), fun d hd => ?_, hrun, hpot.trans (Core.potPassOp_head _ _ o rfl rfl), fun f => ?_, hrest⟩
  · obtain ⟨hq, hr⟩ := hothers d hd
    exact ⟨hq.trans (by cases d <;> rfl), hr.trans (by cases d <;> rfl)⟩
  · exact (hstream f).trans (by cases f <;> rfl)

/-- An array operation that starts to end after one cycle with a status, pairs and counters aside: it is taken, and no cell, pot entry,
core-store byte, row or load changes. -/
theorem State.start_fails (s : State) (c : Nat) (o : Op) (e dm : Nat) (ps : List Pair) (cs : Counters) :
    let k := s.core c
    let t := s.setCore c (({ k with pairs := ps, counters := cs } : Core).start .array o s.cycles e 1 [] false dm)
    s.onlyCore t c ∧ k.took (t.core c) .array o e 1 ∧ (t.core c).planes = k.planes ∧ (t.core c).index = k.index ∧ (t.core c).exps = k.exps
      ∧ (t.core c).pot = k.pot ∧ (t.core c).store = k.store ∧ (t.core c).flows = k.flows ∧ (t.core c).load = k.load := by
  refine ⟨State.onlyCore_setCore .., ?_⟩
  rw [State.core_setCore_self]
  refine ⟨Core.took_aside _ _ ps cs _ _ _ _ (Core.start_took ..), ?_⟩
  simp [Core.start]

/-- What a list with some elements changed holds: a changed element, or one that stood. -/
theorem mem_updWhere {α : Type} {p : α → Bool} {f : α → α} {l : List α} {x : α} (h : x ∈ updWhere p f l) :
    (∃ y ∈ l, p y = true ∧ f y = x) ∨ (x ∈ l ∧ p x = false) := by
  obtain ⟨y, hy, rfl⟩ := List.mem_map.mp h
  cases hp : p y
  · exact .inr (by simpa using ⟨hy, hp⟩)
  · exact .inl ⟨y, hy, hp, by simp⟩

/-- A VEC_RUN paired with an operation that a check ended learns that it failed (R228). -/
theorem Core.arrayFail_tells (k : Core) (o : Op) (now st dm : Nat) : ∀ p ∈ (k.arrayFail o now st dm).pairs, p.opId = o.id → p.failed = true := by
  intro p hp hid
  simp only [Core.arrayFail, Core.start, Core.setRunning_pairs, Core.potPassOp_pairs, Core.note_pairs, Core.setQueue_pairs, Core.updPair] at hp
  rcases mem_updWhere hp with ⟨q, -, -, rfl⟩ | ⟨-, hne⟩
  · rfl
  · simp [hid] at hne

/-! ### Row operations at their feeders (R91, R96, R112, R265) -/

theorem le_foldl_max (l : List Nat) (a x : Nat) (h : x ≤ a ∨ x ∈ l) : x ≤ l.foldl max a := by
  induction l generalizing a with
  | nil => exact h.resolve_right List.not_mem_nil
  | cons b l ih =>
    rcases h with h | h
    · exact ih _ (.inl (le_max_of_le_left h))
    · rcases List.mem_cons.mp h with rfl | h
      · exact ih _ (.inl (le_max_right ..))
      · exact ih _ (.inr h)

theorem Op.issued_lt_startAt (o : Op) (now : Nat) : now ≤ o.startAt now ∧ o.issued < o.startAt now :=
  ⟨le_max_left .., Nat.lt_of_succ_le (le_max_right ..)⟩

/-- The flow that a row operation adds at its feeder. -/
def Core.newFlow (k : Core) (o : Op) (now sparse : Nat) (st : Stall) : Flow :=
  { op := o, sparse := sparse, rows := o.f 4 16 16, next := ((k.flows.filter (fun f => f.op.place == o.place)).map (·.next)).foldl max k.adv,
    dry := st.dry, since := o.startAt now, begun := !o.gathers }

theorem Core.beginRows_flows (k : Core) (o : Op) (now sparse : Nat) (st : Stall) :
    (k.beginRows o now sparse st).flows = k.flows ++ [k.newFlow o now sparse st] := rfl

/-- A partition's next row waits for the array's present cycle and for the rows issued before into the partition, and for nothing else. -/
theorem Core.newFlow_next (k : Core) (o : Op) (now sparse : Nat) (st : Stall) :
    let f := k.newFlow o now sparse st
    k.adv ≤ f.next ∧ (∀ g ∈ k.flows, g.op.place = o.place → g.next ≤ f.next) ∧ ((∀ g ∈ k.flows, g.op.place ≠ o.place) → f.next = k.adv) := by
  refine ⟨le_foldl_max _ _ _ (.inl le_rfl), fun g hg hp => ?_, fun hnone => ?_⟩
  · exact le_foldl_max _ _ _ (.inr (List.mem_map.mpr ⟨g, List.mem_filter.mpr ⟨hg, by simpa using hp⟩, rfl⟩))
  · have hfilter : k.flows.filter (fun f => f.op.place == o.place) = [] := List.filter_eq_nil_iff.mpr (fun g hg => by simpa using hnone g hg)
    simp [Core.newFlow, hfilter]

/-- What a row operation's start leaves: it is off the queue and at its feeder, the array has its direction and mode, and nothing is
written. -/
theorem State.beginRows_starts (s : State) (c : Nat) (o : Op) (sparse : Nat) (st : Stall) :
    let k := s.core c
    let t := s.setCore c (k.beginRows o s.cycles sparse st)
    s.onlyCore t c ∧ (t.core c).arrayQ = k.arrayQ.filter (fun q => q.id != o.id)
      ∧ (∃ f, (t.core c).flows = k.flows ++ [f] ∧ f.op = o ∧ f.rows = o.f 4 16 16 ∧ f.issued = 0 ∧ f.flying = [] ∧ f.dry = st.dry ∧ f.begun = !o.gathers
          ∧ k.adv ≤ f.next ∧ (∀ g ∈ k.flows, g.op.place = o.place → g.next ≤ f.next) ∧ ((∀ g ∈ k.flows, g.op.place ≠ o.place) → f.next = k.adv))
      ∧ (∃ r, (t.core c).arrayRun = k.arrayRun ++ [r] ∧ r.op = o ∧ s.cycles ≤ r.started ∧ o.issued < r.started ∧ r.dirMode = o.dirMode)
      ∧ (t.core c).arrayDir = o.opc - 2 ∧ (t.core c).arrayMode = o.f 0 22 2 ∧ (t.core c).potHead = k.potHead
      ∧ (t.core c).store = k.store ∧ (t.core c).pot = k.pot ∧ (t.core c).planes = k.planes ∧ (t.core c).counters = k.counters := by
  refine ⟨State.onlyCore_setCore .., ?_⟩
  rw [State.core_setCore_self]
  obtain ⟨hnow, hissued⟩ := o.issued_lt_startAt s.cycles
  exact ⟨rfl, ⟨_, Core.beginRows_flows .., rfl, rfl, rfl, rfl, rfl, rfl, Core.newFlow_next (s.core c) o s.cycles sparse st⟩,
    ⟨_, rfl, rfl, hnow, hissued, rfl⟩, rfl, rfl, rfl, rfl, rfl, rfl, rfl⟩

theorem State.arrayRows_starts (s : State) (c : Nat) (o : Op) (st : Stall) (pt : Part) (hp : Core.opPart o (s.width c) = some pt)
    (hf : (s.core c).feedStatus (s.width c) o (o.opc == 3) = 0) (hv : s.pairStatus c o pt = some 0) :
    s.arrayRows c o st = s.setCore c ((s.core c).beginRows o s.cycles ((s.core c).firstMode pt o) st) := by
  simp only [State.arrayRows, hf, hp, hv]

theorem State.arrayWgrad_starts (s : State) (c : Nat) (o : Op) (st : Stall) (pt : Part) (hp : Core.opPart o (s.width c) = some pt)
    (hw : (s.core c).wgradStatus (s.width c) o = 0) :
    s.arrayWgrad c o st
      = s.setCore c ((s.core c).beginRows o s.cycles (((s.core c).modeOf pt (tagPlanes (o.f 0 3 4) (o.f 4 10 6))).getD 0) st) := by
  simp only [State.arrayWgrad, hw, hp]

theorem toNat_sat64 (x : W64) (n : Nat) : (sat64 x n).toNat = min (2 ^ 64 - 1) (x.toNat + n) := by
  simp only [sat64, sat, BitVec.toNat_ofNat]
  omega

/-- A counter advanced (R111). -/
theorem Core.count_self (k : Core) (off n : Nat) :
    (mget 0 (k.count off n).counters off).toNat = min (2 ^ 64 - 1) ((mget 0 k.counters off).toNat + n) := by
  simp only [Core.count, mget_mset_self, toNat_sat64]

end Sys2Proof.Machine

open Sys2Proof Sys2Proof.Machine

/-- Settles O16, by the failing branch of each operation's start: it is a start that ends after one cycle. -/
theorem arrayChecksFail : Obligations.ArrayChecksFail := by
  intro s c o st
  refine ⟨fun hh he => ?_, fun hh he ho => ?_, fun hh he ho => ?_, fun hh he => ?_, fun _ hf => Core.wgradStatus_frozen _ _ _ hf⟩
  · rw [execArrayLoad_head s c o hh, State.arrayLoad_fails _ _ _ he]
    exact ⟨_, rfl, State.start_fails ..⟩
  · have hrev : (o.opc == 3) = false := by rw [ho]; rfl
    rw [execArrayFeed_head s c st o hh, State.arrayRows_fails _ _ _ _ (by rwa [hrev]), hrev]
    refine ⟨_, rfl, State.start_fails .., ?_⟩
    simpa only [State.core_setCore_self] using Core.arrayFail_tells _ o _ _ _
  · have hrev : (o.opc == 3) = true := by rw [ho]; rfl
    rw [execArrayReverse_head s c st o hh, State.arrayRows_fails _ _ _ _ (by rwa [hrev]), hrev]
    refine ⟨_, rfl, State.start_fails .., ?_⟩
    simpa only [State.core_setCore_self] using Core.arrayFail_tells _ o _ _ _
  · rw [execArrayWgrad_head s c st o hh]
    by_cases h1 : (s.core c.val).wgradStatus (s.width c.val) o = 1
    · rw [State.arrayWgrad_skips _ _ _ _ h1, h1]
      exact ⟨_, rfl, State.start_fails ..⟩
    · rw [State.arrayWgrad_fails _ _ _ _ he h1]
      exact ⟨_, rfl, State.start_fails ..⟩

/-- Settles O18, by the start of a row operation at its feeder, and by the skip of a WGRAD whose tensor is frozen. -/
theorem arrayFeedReverseAndWgrad : Obligations.ArrayFeedReverseAndWgrad := by
  intro s c o st pt hp
  refine ⟨fun hh hf hv => ?_, fun hh hf hv => ?_, fun hh hw => ?_, fun hd => if_neg hd, fun hh hfrozen => ?_⟩
  · rw [execArrayFeed_head s c st o hh, State.arrayRows_starts _ _ _ _ pt hp hf hv]
    exact ⟨_, rfl, State.beginRows_starts ..⟩
  · rw [execArrayReverse_head s c st o hh, State.arrayRows_starts _ _ _ _ pt hp hf hv]
    exact ⟨_, rfl, State.beginRows_starts ..⟩
  · rw [execArrayWgrad_head s c st o hh, State.arrayWgrad_starts _ _ _ _ pt hp hw]
    exact ⟨_, rfl, State.beginRows_starts ..⟩
  · rw [execArrayWgrad_head s c st o hh, State.arrayWgrad_skips _ _ _ _ (Core.wgradStatus_frozen _ _ _ hfrozen)]
    obtain ⟨honly, htook, -, -, -, hpot, hstore, hflows, -⟩ := s.start_fails c.val o 1 4 (s.core c.val).pairs ((s.core c.val).count 0x50 1).counters
    refine ⟨_, rfl, honly, htook, hpot, hstore, hflows, ?_⟩
    rw [State.core_setCore_self, ← Core.count_self]
    simp only [Core.start, Core.setRunning_counters, Core.potPassOp_counters, Core.note_counters, Core.setQueue_counters]
end

-- ==== Sys2Proof/Proofs/ArrayClock.lean ====

section
namespace Sys2Proof.Machine

/-! ### The arithmetic clock (R450) -/

theorem pointMhz_bounds (p : Nat) : 0 < pointMhz p ∧ pointMhz p ≤ 700 := by
  unfold pointMhz
  split
  · decide
  · split
    · decide
    · split <;> decide

/-- A clock of `m` MHz that runs for the nanoseconds that `n` thousandths of a cycle take is past them by less than a nanosecond's. -/
theorem cdiv_mul_bounds (n m : Nat) (hm : 0 < m) : n ≤ cdiv n m * m ∧ cdiv n m * m < n + m := by
  have hdiv := Nat.div_add_mod (n + m - 1) m
  have hmod := Nat.mod_lt (n + m - 1) hm
  rw [cdiv, Nat.mul_comm]
  omega

/-- The clocks' way to a cycle to come ends in that cycle. -/
theorem State.toCycle_cycles (s : State) (n : Nat) (hs : s.clk.stopped = false) (hn : s.cycles < n) : (s.toCycle n).cycles = n := by
  obtain ⟨hpos, hle⟩ := pointMhz_bounds s.power.point
  obtain ⟨hlo, hhi⟩ := cdiv_mul_bounds (1000 * n - s.clk.milli) _ hpos
  have hfar : ¬ (n ≤ s.cycles ∨ s.clk.stopped = true) := by simp [hs, hn]
  have hmilli : (s.toCycle n).clk.milli = s.clk.milli + cdiv (1000 * n - s.clk.milli) (pointMhz s.power.point) * pointMhz s.power.point := by
    rw [State.toCycle, if_neg hfar]
    simp [State.advance, State.clocks, hs]
  simp only [State.cycles] at hn ⊢
  omega

theorem State.toCycle_past (s : State) (n : Nat) (hn : n ≤ s.cycles) : s.toCycle n = s := if_pos (.inl hn)

/-- The clocks' way to a cycle comes there, unless the arithmetic clock stands. -/
theorem State.le_toCycle_cycles (s : State) (n : Nat) (hs : s.clk.stopped = false) : n ≤ (s.toCycle n).cycles := by
  rcases Nat.lt_or_ge s.cycles n with h | h
  · exact (s.toCycle_cycles n hs h).ge
  · rwa [s.toCycle_past n h]

/-! ### The arrays run with the clock (R88, R265) -/

/-- In a bank in canonical form, what is listed reads back. -/
theorem mget_of_mem {α : Type} [DecidableEq α] (d : α) (m : Mem α) (i : Nat) (v : α) (lo : Nat) (hm : mwfFrom d lo m = true) (h : (i, v) ∈ m) :
    lo ≤ i ∧ mget d m i = v := by
  induction m generalizing lo with
  | nil => simp at h
  | cons p r ih =>
    obtain ⟨k, w⟩ := p
    simp only [mwfFrom, Bool.and_eq_true, decide_eq_true_eq] at hm
    obtain ⟨⟨hlo, -⟩, hr⟩ := hm
    rcases List.mem_cons.mp h with heq | hmem
    · obtain ⟨rfl, rfl⟩ := Prod.mk.inj heq
      exact ⟨hlo, by simp [mget]⟩
    · obtain ⟨hk, hv⟩ := ih (k + 1) hr hmem
      exact ⟨by omega, by simpa [mget, show ¬ i < k by omega, show ¬ i = k by omega] using hv⟩

/-- The numbers of the cores whose arrays have something in hand. -/
def State.busyArrays (s : State) : List Nat := (s.cores.filter (fun p => !p.2.arrayIdle)).map (·.1)

/-- A core is listed among them just when its array has something in hand. -/
theorem State.mem_busyArrays (s : State) (c : Nat) (hm : mwf {} s.cores = true) : c ∈ s.busyArrays ↔ (s.core c).arrayIdle = false := by
  constructor
  · intro h
    obtain ⟨⟨c, k⟩, hk, rfl⟩ := List.mem_map.mp h
    obtain ⟨hmem, hidle⟩ := List.mem_filter.mp hk
    have hcore : s.core c = k := (mget_of_mem _ _ _ _ 0 hm hmem).2
    simpa [hcore] using hidle
  · intro h
    have hne : s.core c ≠ {} := by
      intro he
      rw [he] at h
      exact absurd h (by decide)
    exact List.mem_map.mpr ⟨_, List.mem_filter.mpr ⟨mem_of_mget_ne _ _ _ hne, by simpa [State.core] using h⟩, rfl⟩

/-- Setting cores to what each has alone of the state before: a core listed has its own, any other stands. -/
theorem State.core_foldl_setCore (g : Nat → Core) (l : List Nat) (c : Nat) (t : State) :
    (l.foldl (fun t d => t.setCore d (g d)) t).core c = if c ∈ l then g c else t.core c := by
  induction l generalizing t with
  | nil => simp
  | cons d l ih =>
    rw [List.foldl_cons, ih]
    by_cases hd : c = d
    · subst hd
      simp
    · simp [hd, State.core_setCore_ne _ _ _ _ hd]

/-- While the arrays run, a core with something in hand runs the cycles, and any other stands. -/
theorem State.runArrays_core_eq (s : State) (n c : Nat) (hm : mwf {} s.cores = true) :
    (s.runArrays n).core c = if (s.core c).arrayIdle then s.core c else iter n (fun j k => s.arrayCycle c (s.cycles + j) k) (s.core c) := by
  unfold State.runArrays
  split
  case isTrue h =>
    subst h
    exact (ite_self _).symm
  case isFalse =>
    have hfold := State.core_foldl_setCore (fun d => iter n (fun j k => s.arrayCycle d (s.cycles + j) k) (s.core d)) s.busyArrays c s
    refine hfold.trans ?_
    cases hi : (s.core c).arrayIdle
    · simp [(s.mem_busyArrays c hm).mpr hi]
    · simp [mt (s.mem_busyArrays c hm).mp (by simp [hi])]

/-- The clocks run the arrays for the cycles that pass. -/
theorem State.advance_core_eq (s : State) (d c : Nat) (hm : mwf {} s.cores = true) :
    (s.advance d).core c = if (s.core c).arrayIdle then s.core c
      else iter ((s.advance d).cycles - s.cycles) (fun j k => s.arrayCycle c (s.cycles + j) k) (s.core c) := by
  have hc : (s.advance d).cycles = (s.clocks d).cycles := by simp [State.cycles, State.advance, State.clocks]
  rw [hc, ← s.runArrays_core_eq _ c hm]
  rfl

end Sys2Proof.Machine
end

-- ==== Sys2Proof/Proofs/ArrayGather.lean ====

section
namespace Sys2Proof.Machine

/-! ### Gathered feeds (R104, R105) -/

theorem Op.gathers_iff (o : Op) : o.gathers = true ↔ o.opc = 2 ∧ o.f 0 7 1 = 1 := by simp [Op.gathers]

/-- Whether a gathered feed's issue has begun once it has sampled in cycle `x` (R104). -/
def Core.begins (k : Core) (x : Nat) (f : Flow) : Bool :=
  f.begun || decide (f.op.f 24 16 8 ≤ (k.readySlots f.op).length) || decide (f.since + f.op.f 24 0 16 ≤ x)

/-- The lowest ready slot that a feed has not taken. -/
def Core.nextSlot (k : Core) (f : Flow) : Option Nat := (k.readySlots f.op).find? (fun i => !f.slots.contains i)

/-- A feeder between slots samples: its issue begins where it may, and it then takes the next slot, if there is one. -/
theorem Core.sample_between (k : Core) (x : Nat) (f : Flow) (hg : f.op.gathers = true) (hi : f.issued < f.rows) (hr : f.row = none) :
    k.sample x f = { f with begun := k.begins x f, slots := f.slots ++ (if k.begins x f then (k.nextSlot f).toList else []) } := by
  have hrow : Flow.row { f with begun := k.begins x f } = none := hr
  unfold Core.sample
  rw [if_pos (by simp [hg, hi])]
  show (if k.begins x f && (Flow.row { f with begun := k.begins x f }).isNone then
      match k.nextSlot f with
      | some i => ({ f with begun := k.begins x f, slots := f.slots ++ [i] } : Flow)
      | none => { f with begun := k.begins x f }
    else { f with begun := k.begins x f }) = _
  rw [hrow]
  cases hb : k.begins x f
  · simp
  · cases hn : k.nextSlot f <;> simp

theorem Core.mem_readySlots (k : Core) (o : Op) (i : Nat) :
    i ∈ k.readySlots o ↔ i < o.f 24 24 8 ∧ (leNat ((k.csRead (64 * o.f 20 0 15) 8).map (·.1))).testBit i = true := by
  simp [Core.readySlots, bit]

theorem Core.nextSlot_eq_none (k : Core) (f : Flow) (h : ∀ i ∈ k.readySlots f.op, i ∈ f.slots) : k.nextSlot f = none :=
  List.find?_eq_none.mpr (fun i hi => by simpa using h i hi)

/-- Slots are ready in rising order, so that the first one not taken is the lowest. -/
theorem Core.nextSlot_eq_some (k : Core) (f : Flow) (i : Nat) (hi : i ∈ k.readySlots f.op) (hn : i ∉ f.slots)
    (hlow : ∀ j ∈ k.readySlots f.op, j < i → j ∈ f.slots) : k.nextSlot f = some i := by
  have hsorted : (k.readySlots f.op).Pairwise (· < ·) := List.pairwise_lt_range.filter _
  obtain ⟨pre, post, hsplit⟩ := List.append_of_mem hi
  rw [hsplit] at hsorted
  refine List.find?_eq_some_iff_append.mpr ⟨by simpa using hn, pre, post, hsplit, fun j hj => ?_⟩
  have hlt : j < i := (List.pairwise_append.mp hsorted).2.2 j hj i (List.mem_cons_self ..)
  simpa using hlow j (by rw [hsplit]; exact List.mem_append_left _ hj) hlt

theorem Core.arrayOnly.arrayQ {k k' : Core} (h : k.arrayOnly k') : k'.arrayQ = k.arrayQ := by
  unfold Core.arrayOnly at h
  have hq := congrArg Core.arrayQ h
  exact hq

theorem execGatherDeadline_one (s : State) (c : CoreIx) (f : Flow) (due : Nat) (h : (s.core c.val).deadlines = [(f, due)]) :
    exec (.gatherDeadline c) s = .next ((s.toCycle due).updCore c.val (fun k =>
      { k with flows := updWhere (fun (g : Flow) => g.op.id == f.op.id) (fun g => { g with begun := true }) k.flows })) := by
  show execGatherDeadline c s = _
  rw [execGatherDeadline, h]
  rfl

/-- A core changed after the clocks have run is a change of one core and the clocks. -/
theorem State.onlyClock.coreAndClock_updCore {s u : State} (h : s.onlyClock u) (c : Nat) (g : Core → Core) : s.coreAndClock (u.updCore c g) c := by
  obtain ⟨hrest, hcores⟩ := h
  refine ⟨congrArg (fun q : State => { q with trace := s.trace, freeIx := s.freeIx }) hrest, fun d hd => ?_⟩
  rw [State.core_updCore_ne _ _ _ _ hd]
  exact congrArg (fun m => mget ({} : Core) m d) hcores

end Sys2Proof.Machine

open Sys2Proof Sys2Proof.Machine

/-- Settles O20, by a gathered feed's start, its sampling between slots, and the one deadline that has come. -/
theorem arrayGatherFeed : Obligations.ArrayGatherFeed := by
  refine ⟨fun s c o st pt hh hg hp hf hv => ?_, fun k x f hg hi hr _ => ?_, fun s c f hd => ?_⟩
  · have hrev : (o.opc == 3) = false := by simp [(o.gathers_iff.mp hg).1]
    rw [execArrayFeed_head s c st o hh, State.arrayRows_starts _ _ _ _ pt hp (by rwa [hrev]) hv]
    refine ⟨_, (s.core c.val).newFlow o s.cycles ((s.core c.val).firstMode pt o) st, rfl, State.onlyCore_setCore .., ?_⟩
    rw [State.core_setCore_self, Core.beginRows_flows]
    refine ⟨rfl, rfl, by simp [Core.newFlow, hg], rfl, rfl, ?_⟩
    simp [Flow.row, Core.newFlow, hg]
  · have hready := k.mem_readySlots f.op
    rw [Core.sample_between k x f hg hi hr]
    refine ⟨?_, fun hb => by simp [show k.begins x f = false from hb], fun hb hall => ?_, fun hb i hi hn hlow => ?_, rfl, rfl⟩
    · simp only [Core.begins, Bool.or_eq_true, decide_eq_true_eq, or_assoc]
      exact Iff.rfl
    · have hnone := k.nextSlot_eq_none f (fun i hi => hall i ((hready i).mp hi))
      simp [hnone]
    · have hsome := k.nextSlot_eq_some f i ((hready i).mpr hi) hn (fun j hj hlt => hlow j hlt ((hready j).mp hj))
      simp [hsome, show k.begins x f = true from hb]
  · rw [execGatherDeadline_one s c f _ hd]
    refine ⟨_, rfl, (s.toCycle_only _).coreAndClock_updCore .., ?_⟩
    rw [State.core_updCore_self]
    refine ⟨fun g hg hid => ?_, (s.toCycle_core _ c.val).arrayQ, fun hs => s.le_toCycle_cycles _ hs⟩
    rcases mem_updWhere hg with ⟨g', -, -, rfl⟩ | ⟨-, hne⟩
    · rfl
    · simp [hid] at hne
end

-- ==== Sys2Proof/Proofs/ArrayCells.lean ====

section
namespace Sys2Proof.Machine

/-! ### Loops -/

/-- What every turn of a loop keeps holds at its end. -/
theorem iter_induction {α : Type} (P : α → Prop) (n : Nat) (f : Nat → α → α) (a : α) (h : P a) (hf : ∀ i x, P x → P (f i x)) : P (iter n f a) :=
  List.foldlRecOn _ _ h (fun x hx i _ => hf i x hx)

/-! ### The cells (R84, R85, R147, R171) -/

/-- A core's record but for the cells of its array, with their exponents, indices and recorded modes. -/
def Core.cellsOnly (k k' : Core) : Prop :=
  { k' with
    planes := k.planes, planePoison := k.planePoison, exps := k.exps, expPoison := k.expPoison
    index := k.index, indexPoison := k.indexPoison, secded := k.secded, modes := k.modes } = k

theorem Core.cellsOnly_loadIndices {k x : Core} (h : k.cellsOnly x) (bad : List Nat) (pt : Part) (cc n p a : Nat) :
    k.cellsOnly (x.loadIndices bad pt cc n p a) :=
  iter_induction _ _ _ _ h (fun _ _ hy => iter_induction _ _ _ _ hy (fun _ _ hz => by
    simp only []
    split <;> exact hz))

theorem Core.cellsOnly_loadExps {k x : Core} (h : k.cellsOnly x) (bad : List Nat) (pt : Part) (cc n p a : Nat) :
    k.cellsOnly (x.loadExps bad pt cc n p a) :=
  iter_induction _ _ _ _ h (fun _ _ hy => iter_induction _ _ _ _ hy (fun _ _ hz => by
    simp only []
    split <;> exact hz))

/-- A plane loaded changes the cells alone. -/
theorem Core.loadPlane_cellsOnly (k : Core) (bad : List Nat) (pt : Part) (code sparse cc p a : Nat) :
    k.cellsOnly (k.loadPlane bad pt code sparse cc p a) := by
  delta Core.loadPlane
  extract_lets lanes n sec planes wb k1 k2 k3
  have h1 : k.cellsOnly k1 :=
    iter_induction _ _ _ _ rfl (fun _ _ hx => iter_induction _ _ _ _ hx (fun _ _ hy => by split <;> exact hy))
  have h2 : k.cellsOnly k2 := by
    unfold k2
    split
    · exact h1
    · exact Core.cellsOnly_loadIndices h1 ..
  have h3 : k.cellsOnly k3 := by
    unfold k3
    split
    · exact Core.cellsOnly_loadExps h2 ..
    · exact h2
  exact h3
end Sys2Proof.Machine
end

-- ==== Sys2Proof/Proofs/ArrayCycle.lean ====

section
namespace Sys2Proof.Machine

/-! ### What the parts of a cycle keep (R97, R98, R111)

The array's advance and the counters of its stalls and issues change in a cycle's own branch alone: in every other part of the
cycle they stand. In a frozen cycle the rows and runs of the row operations stand as well. -/

/-- ISSUE_CYCLES, FREEZE_DRY, FREEZE_FULL, POUR_HOLD and LOAD_WAIT: the counters that a cycle's own branch changes (R100, R111). -/
def cycleCounters : List Nat := [0x00, 0x08, 0x10, 0x18, 0x20]

/-- The array's advance and the cycle counters stand. -/
def Core.clockStands (k k' : Core) : Prop := k'.adv = k.adv ∧ ∀ o ∈ cycleCounters, mget 0 k'.counters o = mget 0 k.counters o

/-- Every row operation left is one that there was, with its rows issued, its runs formed and its runs in the array as they were. -/
def Core.rowsStand (k k' : Core) : Prop :=
  ∀ f ∈ k'.flows, ∃ g ∈ k.flows, g.op = f.op ∧ g.issued = f.issued ∧ g.flying = f.flying ∧ g.formed = f.formed

/-- The array stands: its advance, its cycle counters and its rows. -/
def Core.stands (k k' : Core) : Prop := k.clockStands k' ∧ k.rowsStand k'

theorem Core.clockStands_refl (k : Core) : k.clockStands k := ⟨rfl, fun _ _ => rfl⟩

theorem Core.rowsStand_refl (k : Core) : k.rowsStand k := fun f hf => ⟨f, hf, rfl, rfl, rfl, rfl⟩

theorem Core.stands_refl (k : Core) : k.stands k := ⟨k.clockStands_refl, k.rowsStand_refl⟩

theorem Core.clockStands.trans {k x y : Core} (h : k.clockStands x) (g : x.clockStands y) : k.clockStands y :=
  ⟨g.1.trans h.1, fun o ho => (g.2 o ho).trans (h.2 o ho)⟩

theorem Core.rowsStand.trans {k x y : Core} (h : k.rowsStand x) (g : x.rowsStand y) : k.rowsStand y := by
  intro f hf
  obtain ⟨f1, hf1, h1, h2, h3, h4⟩ := g f hf
  obtain ⟨f0, hf0, g1, g2, g3, g4⟩ := h f1 hf1
  exact ⟨f0, hf0, g1.trans h1, g2.trans h2, g3.trans h3, g4.trans h4⟩

theorem Core.stands.trans {k x y : Core} (h : k.stands x) (g : x.stands y) : k.stands y := ⟨h.1.trans g.1, h.2.trans g.2⟩

/-- What leaves the advance, the counters and the row operations alone leaves the array standing. -/
theorem Core.stands_of_eq {k x : Core} (ha : x.adv = k.adv) (hc : x.counters = k.counters) (hf : x.flows = k.flows) : k.stands x :=
  ⟨⟨ha, fun _ _ => by rw [hc]⟩, by rw [Core.rowsStand, hf]; exact k.rowsStand_refl⟩

theorem Core.clockStands_count (k : Core) (o n : Nat) (ho : o ∉ cycleCounters) : k.clockStands (k.count o n) :=
  ⟨rfl, fun _ hp => mget_mset_ne _ _ _ _ _ (fun he => ho (he ▸ hp))⟩

theorem Core.stands_count (k : Core) (o n : Nat) (ho : o ∉ cycleCounters) : k.stands (k.count o n) :=
  ⟨k.clockStands_count o n ho, k.rowsStand_refl⟩

theorem Core.clockStands_counts (k : Core) (l : List (Nat × Nat)) (hl : ∀ p ∈ l, p.1 ∉ cycleCounters) : k.clockStands (k.counts l) :=
  List.foldlRecOn (motive := k.clockStands) l _ k.clockStands_refl (fun x hx p hp => hx.trans (x.clockStands_count p.1 p.2 (hl p hp)))

theorem Core.stands_ite {k x y : Core} (p : Prop) [Decidable p] (h : k.stands x) (g : k.stands y) : k.stands (if p then x else y) := by
  split
  · exact h
  · exact g

/-! ### Drains, shadow registers and the pot (R91, R121, R131) -/

theorem Core.stands_potAdd (k : Core) (i : Nat) (v : PWord) : k.stands (k.potAdd i v) :=
  (Core.stands_of_eq (k := k) (x := k.potSet i _) rfl rfl rfl).trans (Core.stands_count _ _ _ (by decide))

theorem Core.stands_potApply (k : Core) (set : Bool) (i : Nat) (vs : List PWord) : k.stands (k.potApply set i vs) := by
  refine Core.stands.trans ?_ (Core.stands_count _ _ _ (by decide))
  refine List.foldlRecOn (motive := k.stands) _ _ k.stands_refl (fun x hx p _ => hx.trans ?_)
  cases set
  · exact x.stands_potAdd ..
  · exact Core.stands_of_eq rfl rfl rfl

theorem Core.stands_potPassOp (k : Core) (o : Op) : k.stands (k.potPassOp o) := Core.stands_of_eq (by simp) (by simp) (by simp)

theorem Core.stands_writeRun (k : Core) (o : Op) (r : QRun) : k.stands (k.writeRun o r) := by
  unfold Core.writeRun
  refine Core.stands.trans ?_ (Core.stands_count _ _ _ (by decide))
  split
  · exact Core.stands_of_eq rfl rfl rfl
  · split
    · exact k.stands_potApply ..
    · exact Core.stands_of_eq rfl rfl rfl

theorem Core.stands_drainOne (k : Core) (x p : Nat) : k.stands (k.drainOne x p) := by
  unfold Core.drainOne
  split
  · exact k.stands_refl
  · split
    · exact Core.stands_of_eq rfl rfl rfl
    · split
      · exact k.stands_refl
      · split
        · exact (Core.stands_of_eq rfl rfl rfl).trans (Core.stands_writeRun ..)
        · exact Core.stands_of_eq rfl rfl rfl

/-- A row operation's record replaced by one with its rows and runs as they were. -/
theorem Core.stands_setFlow {k x : Core} (h : k.stands x) (f g : Flow) (hf : f ∈ k.flows) (ho : g.op = f.op) (hi : g.issued = f.issued)
    (hy : g.flying = f.flying) (hr : g.formed = f.formed) : k.stands (x.setFlow g) := by
  refine ⟨h.1, fun e he => ?_⟩
  rcases mem_updWhere he with ⟨_, -, -, rfl⟩ | ⟨hold, -⟩
  · exact ⟨f, hf, ho.symm, hi.symm, hy.symm, hr.symm⟩
  · exact h.2 e hold

theorem Core.stands_shiftOne {k x : Core} (h : k.stands x) (f : Flow) (hf : f ∈ k.flows) : k.stands (x.shiftOne f) := by
  have hset (n : Nat) (vs : List PWord) : k.stands (x.setFlow { f with shadow := some (n, vs) }) := Core.stands_setFlow h f _ hf rfl rfl rfl rfl
  unfold Core.shiftOne
  split
  · exact h
  · split
    · exact hset ..
    · split
      · exact h
      · split
        · exact ((hset ..).trans (Core.stands_potApply ..)).trans (Core.stands_count _ _ _ (by decide))
        · exact hset ..

theorem Core.stands_drainStep (k : Core) (x : Nat) : k.stands (k.drainStep x) := by
  unfold Core.drainStep
  simp only []
  have hdrains : k.stands ((k.drains.map (·.1)).foldl (fun y p => y.drainOne x p) k) :=
    List.foldlRecOn (motive := k.stands) _ _ k.stands_refl (fun y hy p _ => hy.trans (y.stands_drainOne x p))
  refine hdrains.trans ?_
  generalize (k.drains.map (·.1)).foldl (fun y p => y.drainOne x p) k = k1
  exact List.foldlRecOn (motive := k1.stands) k1.flows _ k1.stands_refl (fun _ hy f hf => Core.stands_shiftOne hy f hf)

/-! ### The load port, sampling and buffers (R92, R98, R104) -/

theorem Core.stands_poisonCounts (k : Core) (n st : Nat) : k.stands (k.poisonCounts n st) :=
  (Core.stands_count k 0x168 n (by decide)).trans (Core.stands_count _ _ _ (by decide))

theorem Core.stands_arrayEnded (k : Core) (id st x : Nat) : k.stands (k.arrayEnded id st x) := Core.stands_of_eq rfl rfl rfl

theorem Core.stands_setLoad (k : Core) (l : Option LoadProg) : k.stands { k with load := l } := Core.stands_of_eq rfl rfl rfl

theorem Core.stands_loadPlane (k : Core) (bad : List Nat) (pt : Part) (code sparse cc p a : Nat) : k.stands (k.loadPlane bad pt code sparse cc p a) := by
  have h := k.loadPlane_cellsOnly bad pt code sparse cc p a
  unfold Core.cellsOnly at h
  have ha := congrArg Core.adv h
  have hc := congrArg Core.counters h
  have hf := congrArg Core.flows h
  exact Core.stands_of_eq ha hc hf

theorem Core.stands_loadStep (k : Core) (w : Nat) (bad : List Nat) (x : Nat) : k.stands (k.loadStep w bad x) := by
  delta Core.loadStep
  split
  · exact k.stands_refl
  · split
    · exact k.stands_refl
    · split
      · exact k.stands_refl
      · split
        · exact Core.stands_ite _ ((k.stands_setLoad none).trans (Core.stands_arrayEnded ..)) (k.stands_setLoad _)
        · split
          · exact k.stands_refl
          · extract_lets code step each n u sz a np k1 poison st
            have h1 : k.stands k1 :=
              (Core.stands_ite _ (k.stands_loadPlane ..) k.stands_refl).trans (Core.stands_count _ _ _ (by decide))
            clear_value k1
            split
            · exact ((h1.trans (k1.stands_setLoad none)).trans (Core.stands_poisonCounts ..)).trans (Core.stands_arrayEnded ..)
            · exact h1.trans (k1.stands_setLoad _)

/-- Every row operation's record changed in what is not its rows and runs. -/
theorem Core.stands_mapFlows (k : Core) (m : Flow → Flow)
    (hm : ∀ f, (m f).op = f.op ∧ (m f).issued = f.issued ∧ (m f).flying = f.flying ∧ (m f).formed = f.formed) :
    k.stands { k with flows := k.flows.map m } := by
  refine ⟨k.clockStands_refl, fun f hf => ?_⟩
  obtain ⟨g, hg, rfl⟩ := List.mem_map.mp hf
  obtain ⟨h1, h2, h3, h4⟩ := hm g
  exact ⟨g, hg, h1.symm, h2.symm, h3.symm, h4.symm⟩

theorem Core.sample_rows (k : Core) (x : Nat) (f : Flow) :
    (k.sample x f).op = f.op ∧ (k.sample x f).issued = f.issued ∧ (k.sample x f).flying = f.flying ∧ (k.sample x f).formed = f.formed := by
  unfold Core.sample
  simp only []
  split
  · split
    · split <;> exact ⟨rfl, rfl, rfl, rfl⟩
    · exact ⟨rfl, rfl, rfl, rfl⟩
  · exact ⟨rfl, rfl, rfl, rfl⟩

theorem Flow.fill_rows (f : Flow) : f.fill.op = f.op ∧ f.fill.issued = f.issued ∧ f.fill.flying = f.flying ∧ f.fill.formed = f.formed := by
  unfold Flow.fill
  split <;> exact ⟨rfl, rfl, rfl, rfl⟩

theorem Core.stands_ports (k : Core) (w : Nat) (bad : List Nat) (x : Nat) : k.stands (k.ports w bad x) :=
  (((Core.stands_count k 0xE0 _ (by decide)).trans (Core.stands_drainStep ..)).trans (Core.stands_loadStep ..)).trans
    (Core.stands_mapFlows _ _ (Core.sample_rows _ x))

theorem Core.stands_fillAll (k : Core) (x : Nat) : k.stands (k.fillAll x) := by
  refine Core.stands_mapFlows k _ (fun f => ?_)
  split
  · exact f.fill_rows
  · exact ⟨rfl, rfl, rfl, rfl⟩

/-! ### Ends of row operations (R91, R131) -/

theorem Core.stands_endFlow (k : Core) (f : Flow) (st x : Nat) : k.stands (k.endFlow f st x) := by
  delta Core.endFlow
  extract_lets ok k1 k2
  have h1 : k.stands k1 := ⟨k.clockStands_refl, fun g hg => k.rowsStand_refl g (List.mem_of_mem_filter hg)⟩
  have h2 : k.stands k2 := (h1.trans (Core.stands_of_eq rfl rfl rfl)).trans (Core.stands_potPassOp ..)
  exact (h2.trans (Core.stands_poisonCounts ..)).trans (Core.stands_arrayEnded ..)

theorem Core.stands_endIfDone (k : Core) (x : Nat) (f : Flow) : k.stands (k.endIfDone x f) :=
  Core.stands_ite _ (k.stands_endFlow ..) (Core.stands_ite _ (k.stands_potPassOp ..) k.stands_refl)

/-- The row operations that have nothing more to do ended. -/
def Core.endDone (k : Core) (x : Nat) : Core := k.flows.foldl (fun y f => y.endIfDone x f) k

theorem Core.stands_endDone (k : Core) (x : Nat) : k.stands (k.endDone x) :=
  List.foldlRecOn (motive := k.stands) _ _ k.stands_refl (fun y hy f _ => hy.trans (y.stands_endIfDone x f))

/-! ### The array's advance (R88, R90, R114, R120) -/

theorem Core.cellFlips_counters (k : Core) (bad : List Nat) (pt : Part) (ps : List Nat) (rows cols : Nat) (plane sparse : Bool) :
    ∀ p ∈ k.cellFlips bad pt ps rows cols plane sparse, p.1 ∉ cycleCounters := by
  unfold Core.cellFlips
  split
  · simp
  · simp [cycleCounters]

theorem Core.clockStands_issueSums (k : Core) (bad : List Nat) (f : Flow) (pt : Part) (i : Nat) : k.clockStands (k.issueSums bad f pt i) := by
  refine Core.clockStands.trans ?_ (Core.clockStands_counts _ _ (k.cellFlips_counters _ _ _ _ _ _ _))
  refine Core.clockStands.trans (x := k.setFlow _) ⟨rfl, fun _ _ => rfl⟩ (Core.clockStands_counts _ _ ?_)
  simp only [List.forall_mem_cons, List.not_mem_nil, false_implies, implies_true, and_true]
  exact ⟨by split <;> decide, by decide, by decide⟩

theorem Core.clockStands_issueToken (k : Core) (bad : List Nat) (f : Flow) (pt : Part) (t : Nat) : k.clockStands (k.issueToken bad f pt t) := by
  refine Core.clockStands.trans ?_ (Core.clockStands_counts _ _ (k.cellFlips_counters _ _ _ _ _ _ _))
  refine Core.clockStands.trans (x := k.setFlow _) ⟨rfl, fun _ _ => rfl⟩ (Core.clockStands_counts _ _ ?_)
  simp only [List.forall_mem_cons, List.not_mem_nil, false_implies, implies_true, and_true]
  decide

theorem Core.clockStands_issueRow (k : Core) (w : Nat) (bad : List Nat) (x id : Nat) : k.clockStands (k.issueRow w bad x id) := by
  unfold Core.issueRow
  split
  · exact k.clockStands_refl
  · split
    · split
      · exact k.clockStands_issueToken ..
      · extract_lets e
        split
        · exact k.clockStands_issueSums ..
        · exact (k.stands_endFlow ..).1
    · exact k.clockStands_refl

theorem Core.clockStands_arrive (k : Core) (w x : Nat) (f : Flow) : k.clockStands (k.arrive w x f) := by
  unfold Core.arrive
  simp only []
  split
  · exact k.clockStands_refl
  · split <;> exact ⟨rfl, fun _ _ => rfl⟩

/-- An advance: the runs that arrive and the rows that issue, then one cycle of the array more, and a cycle of issue counted where
there is one. -/
theorem Core.advanceRows_counts (k : Core) (w : Nat) (bad : List Nat) (x : Nat) :
    ∃ y n, k.clockStands y ∧ k.advanceRows w bad x = ({ y with adv := y.adv + 1 } : Core).counts [(0x00, n)] := by
  refine ⟨_, _, ?_, rfl⟩
  refine List.foldlRecOn (motive := k.clockStands) _ _ ?_ (fun y hy id _ => hy.trans (y.clockStands_issueRow w bad x id))
  exact List.foldlRecOn (motive := k.clockStands) _ _ k.clockStands_refl (fun y hy f _ => hy.trans (y.clockStands_arrive w x f))

/-! ### One cycle (R97 to R101, R111) -/

/-- What a list of counts adds to a counter. -/
def addedTo (l : List (Nat × Nat)) (o : Nat) : Nat := ((l.filter (fun p => p.1 == o)).map (·.2)).sum

/-- Counters advance by what is added to each, and are held at their limit (R111). -/
theorem Core.counts_toNat (l : List (Nat × Nat)) (o : Nat) (k : Core) :
    (mget 0 (k.counts l).counters o).toNat = min (2 ^ 64 - 1) ((mget 0 k.counters o).toNat + addedTo l o) := by
  induction l generalizing k with
  | nil =>
    have hlt := (mget 0 k.counters o).isLt
    simp only [Core.counts, List.foldl_nil, addedTo, List.filter_nil, List.map_nil, List.sum_nil]
    omega
  | cons p l ih =>
    refine (ih (k.count p.1 p.2)).trans ?_
    by_cases hp : p.1 = o
    · subst hp
      rw [Core.count_self]
      simp only [addedTo, List.filter_cons, beq_self_eq_true, if_true, List.map_cons, List.sum_cons]
      omega
    · have hstands : mget 0 (k.count p.1 p.2).counters o = mget 0 k.counters o := mget_mset_ne _ _ _ _ _ (Ne.symm hp)
      rw [hstands]
      simp [addedTo, hp]

/-- A cycle in which the array stands counts what its branch counts, and nothing else of the cycle counters. -/
theorem Core.clockStands.counted {k x : Core} (h : k.clockStands x) (l : List (Nat × Nat)) (c : Nat) (o : Nat) (ho : o ∈ cycleCounters) :
    (mget 0 ((x.counts l).endDone c).counters o).toNat = min (2 ^ 64 - 1) ((mget 0 k.counters o).toNat + addedTo l o) := by
  rw [(Core.stands_endDone _ c).1.2 o ho, Core.counts_toNat, h.2 o ho]

/-- With counts alone after the ports and the buffers, no row issues and no run moves. -/
theorem Core.stands_counted {k x : Core} (h : k.stands x) (l : List (Nat × Nat)) (c : Nat) :
    ((x.counts l).endDone c).adv = k.adv ∧ k.rowsStand ((x.counts l).endDone c) := by
  have hadv : (x.counts l).adv = x.adv := List.foldlRecOn (motive := fun y : Core => y.adv = x.adv) l _ rfl (fun _ hy _ _ => hy)
  have hflows : (x.counts l).flows = x.flows := List.foldlRecOn (motive := fun y : Core => y.flows = x.flows) l _ rfl (fun _ hy _ _ => hy)
  have hend := Core.stands_endDone (x.counts l) c
  refine ⟨hend.1.1.trans (hadv.trans h.1.1), h.2.trans (Core.rowsStand.trans ?_ hend.2)⟩
  rw [Core.rowsStand, hflows]
  exact x.rowsStand_refl

/-- The array's record after the ports and the buffers, before its cycle stalls or advances. -/
def Core.ported (k : Core) (w : Nat) (bad : List Nat) (x : Nat) : Core := (k.ports w bad x).fillAll x

theorem Core.stands_ported (k : Core) (w : Nat) (bad : List Nat) (x : Nat) : k.stands (k.ported w bad x) :=
  (k.stands_ports w bad x).trans (Core.stands_fillAll ..)

theorem Core.arrayCycle_held_idle (k : Core) (w : Nat) (bad : List Nat) (x : Nat) (hf : (k.ports w bad x).flows = [])
    (hd : (k.ports w bad x).dryAt w x = false) : Core.arrayCycle w bad x true k = ((k.ported w bad x).counts []).endDone x := by
  simp only [Core.arrayCycle, hf, hd, if_true, List.isEmpty_nil, Bool.not_false, Bool.and_self]
  rfl

theorem Core.arrayCycle_held_busy (k : Core) (w : Nat) (bad : List Nat) (x : Nat)
    (h : (k.ports w bad x).flows ≠ [] ∨ (k.ports w bad x).dryAt w x = true) :
    Core.arrayCycle w bad x true k = ((k.ported w bad x).counts [(0x18, 1)]).endDone x := by
  have hbusy : ((k.ports w bad x).flows.isEmpty && !(k.ports w bad x).dryAt w x) = false := by
    rcases h with h | h <;> simp [h]
  simp only [Core.arrayCycle, hbusy, if_true, Bool.false_eq_true, if_false]
  rfl

theorem Core.arrayCycle_full (k : Core) (w : Nat) (bad : List Nat) (x : Nat) (hh : (k.ports w bad x).holders ≠ []) :
    Core.arrayCycle w bad x false k = ((k.ported w bad x).counts [(0x10, 1),
      (0x58, b2n ((k.ports w bad x).holders.any (fun f => f.op.dest == 1 && !k.served f.op))),
      (0xE0, b2n ((k.ports w bad x).holders.any (fun f => f.op.dest == 2)))]).endDone x := by
  have hfull : (!(k.ports w bad x).holders.isEmpty) = true := by simp [hh]
  simp only [Core.arrayCycle, hfull, Bool.false_eq_true, if_false, if_true]
  rfl

theorem Core.arrayCycle_dry (k : Core) (w : Nat) (bad : List Nat) (x : Nat) (hh : (k.ports w bad x).holders = [])
    (hd : (k.ports w bad x).dryAt w x = true) :
    Core.arrayCycle w bad x false k = ((k.ported w bad x).counts [(0x08, 1), (0x20, b2n ((k.ports w bad x).loadWaits w x))]).endDone x := by
  simp only [Core.arrayCycle, hh, hd, Bool.false_eq_true, if_false, if_true, List.isEmpty_nil, Bool.not_true]
  rfl

theorem Core.arrayCycle_advances (k : Core) (w : Nat) (bad : List Nat) (x : Nat) (hh : (k.ports w bad x).holders = [])
    (hd : (k.ports w bad x).dryAt w x = false) : Core.arrayCycle w bad x false k = ((k.ported w bad x).advanceRows w bad x).endDone x := by
  simp only [Core.arrayCycle, hh, hd, Bool.false_eq_true, if_false, List.isEmpty_nil, Bool.not_true]
  rfl

/-- An idle nanosecond leaves the cores as the clocks do, and the clocks as they run. -/
theorem State.tick_cores_clk (s : State) : s.tick.cores = (s.advance 1).cores ∧ s.tick.clk = (s.advance 1).clk := by
  unfold State.tick
  simp only []
  split
  · exact ⟨rfl, rfl⟩
  · split
    · exact ⟨rfl, rfl⟩
    · split <;> exact ⟨rfl, rfl⟩

end Sys2Proof.Machine

open Sys2Proof Sys2Proof.Machine

/-- Settles O19, by the four branches of a cycle: what goes on in each of them leaves the array standing and counts nothing of the
cycle counters, so that the branch alone decides both. -/
theorem arrayCycles : Obligations.ArrayCycles := by
  refine ⟨fun k w bad x hold => ?_, fun s hp hm => ?_⟩
  · have hported := k.stands_ported w bad x
    have hcount := hported.1.counted
    refine ⟨fun hh => ?_, fun hh hfull => ?_, fun hh hfree hdry => ?_, fun hh hfree hwet => ?_⟩
    · subst hh
      by_cases hbusy : (k.ports w bad x).flows ≠ [] ∨ (k.ports w bad x).dryAt w x = true
      · rw [Core.arrayCycle_held_busy k w bad x hbusy]
        exact ⟨Core.stands_counted hported _ x, fun _ => hcount _ x 0x18 (by decide), fun hn => absurd hbusy hn,
          hcount _ x 0x10 (by decide), hcount _ x 0x08 (by decide), hcount _ x 0x20 (by decide), hcount _ x 0x00 (by decide)⟩
      · obtain ⟨hf, hd⟩ := not_or.mp hbusy
        rw [Core.arrayCycle_held_idle k w bad x (not_not.mp hf) (by simpa using hd)]
        exact ⟨Core.stands_counted hported _ x, fun hb => absurd hb hbusy, fun _ => hcount _ x 0x18 (by decide), hcount _ x 0x10 (by decide),
          hcount _ x 0x08 (by decide), hcount _ x 0x20 (by decide), hcount _ x 0x00 (by decide)⟩
    · subst hh
      rw [Core.arrayCycle_full k w bad x hfull]
      exact ⟨Core.stands_counted hported _ x, hcount _ x 0x18 (by decide), hcount _ x 0x10 (by decide), hcount _ x 0x08 (by decide), hcount _ x 0x20 (by decide),
        hcount _ x 0x00 (by decide)⟩
    · subst hh
      rw [Core.arrayCycle_dry k w bad x hfree hdry]
      exact ⟨Core.stands_counted hported _ x, hcount _ x 0x18 (by decide), hcount _ x 0x10 (by decide), hcount _ x 0x08 (by decide), hcount _ x 0x20 (by decide),
        hcount _ x 0x00 (by decide)⟩
    · subst hh
      rw [Core.arrayCycle_advances k w bad x hfree hwet]
      obtain ⟨y, n, hy, heq⟩ := (k.ported w bad x).advanceRows_counts w bad x
      rw [heq]
      have hclock : k.clockStands y := hported.1.trans hy
      have hmoved : ({ y with adv := y.adv + 1 } : Core).clockStands { y with adv := y.adv + 1 } := Core.clockStands_refl _
      have hadvanced (o : Nat) (ho : o ∈ cycleCounters) := (hmoved.counted [(0x00, n)] x o ho).trans (by rw [hclock.2 o ho])
      refine ⟨?_, hadvanced 0x18 (by decide), hadvanced 0x10 (by decide), hadvanced 0x08 (by decide), hadvanced 0x20 (by decide)⟩
      rw [(Core.stands_counted (Core.stands_refl _) _ x).1, ← hclock.1]
  · refine ⟨s.tick, by rw [step, hp], fun c => ?_⟩
    obtain ⟨hcores, hclk⟩ := s.tick_cores_clk
    have hcore : s.tick.core c = (s.advance 1).core c := congrArg (fun m => mget ({} : Core) m c) hcores
    have hcycles : s.tick.cycles = (s.advance 1).cycles := congrArg (fun q : Clock => q.milli / 1000) hclk
    rw [hcore, hcycles, s.advance_core_eq 1 c hm]
    exact ⟨fun hi => by rw [if_pos hi], fun hi => by simp [hi]⟩
end

-- ==== Sys2Proof/Proofs/PlaneLoad.lean ====

section
namespace Sys2Proof.Machine

/-! ### Loops that write each place once -/

/-- What no turn of a loop changes stands at its end. -/
theorem iter_keeps {α β : Type} (g : α → β) (n : Nat) (f : Nat → α → α) (a : α) (h : ∀ i < n, ∀ x, g (f i x) = g x) : g (iter n f a) = g a :=
  List.foldlRecOn (motive := fun x => g x = g a) _ _ rfl (fun x hx i hi => (h i (List.mem_range.mp hi) x).trans hx)

/-- What one turn of a loop sets and no other changes is set at its end. -/
theorem iter_sets {α β : Type} (g : α → β) (n : Nat) (f : Nat → α → α) (a : α) (i : Nat) (b : β) (hi : i < n) (hset : ∀ x, g (f i x) = b)
    (hkeep : ∀ j < n, j ≠ i → ∀ x, g (f j x) = g x) : g (iter n f a) = b := by
  induction n with
  | zero => exact absurd hi (Nat.not_lt_zero i)
  | succ n ih =>
    have hlast : iter (n + 1) f a = f n (iter n f a) := by simp [iter, List.range_succ, List.foldl_append]
    rw [hlast]
    rcases Nat.lt_succ_iff_lt_or_eq.mp hi with hlt | rfl
    · rw [hkeep n (Nat.lt_succ_self n) (by omega)]
      exact ih hlt (fun j hj => hkeep j (Nat.lt_succ_of_lt hj))
    · exact hset _

/-! ### A dense plane loaded (R84, R85, R92) -/

theorem cellIx_inj {p q i j x y : Nat} (hi : i < 128) (hj : j < 128) (hx : x < 128) (hy : y < 128) (h : cellIx p i x = cellIx q j y) :
    p = q ∧ i = j ∧ x = y := by
  unfold cellIx at h
  omega

theorem Core.loadCell_planes (k : Core) (bad : List Nat) (code p row col v : Nat) (po : Bool) (hc : is16 code = false) :
    (k.loadCell bad code p row col v po).planes = mset 0 k.planes (cellIx p row col) (BitVec.ofNat 8 v) := by
  simp [Core.loadCell, hc]

theorem Core.csElem_byte (k : Core) (a j : Nat) : BitVec.ofNat 8 (k.csElem a (j * 8) 8).1 = ((k.csRead (a + j) 1).getD 0 (0, false)).1 := by
  have hbyte (b : Byte) : BitVec.ofNat 8 (b.toNat % 256) = b := BitVec.eq_of_toNat_eq (by simpa using b.isLt)
  simp [Core.csElem, Core.csRead, pmRead, leNat, bits, hbyte]

/-- A partition lies within the array's rows and columns. -/
theorem Core.opPart_within (o : Op) (w : Nat) (pt : Part) (hw : w ≤ 128) (h : Core.opPart o w = some pt) :
    pt.row0 + pt.h ≤ 128 ∧ pt.col0 + pt.w ≤ 128 ∧ (pt.h = 64 ∨ pt.h = 128) := by
  have hp : o.f 0 20 2 < 4 := Nat.mod_lt _ (by decide)
  unfold Core.opPart partOf at h
  split_ifs at h <;> obtain rfl := Option.some.inj h <;> exact ⟨by simp only []; omega, by simp only []; omega, by simp⟩

/-- A weight format of one byte and one lane: the FP8 formats and INT8 (R84). -/
def byteFormat (code : Nat) : Prop := code = 0 ∨ code = 1 ∨ code = 5

theorem byteFormat.facts {code : Nat} (h : byteFormat code) :
    is16 code = false ∧ lanesOf code = 1 ∧ fmtBits code = 8 ∧ (∀ n, rowBytes code n = n) ∧ planeStep code = 1 := by
  rcases h with rfl | rfl | rfl <;> exact ⟨rfl, rfl, rfl, fun n => Nat.mul_one n, rfl⟩

/-- The step of a load that writes the cell at row `r` and column `c` of its partition. -/
def Core.cellLoad (k : Core) (bad : List Nat) (pt : Part) (code cc p a r c : Nat) (y : Core) : Core :=
  if c < cc then
    let es := (List.range (lanesOf code)).map (fun l => k.csElem (a + r * rowBytes code (cc * lanesOf code)) ((l * cc + c) * fmtBits code) (fmtBits code))
    y.loadCell bad code p (pt.row0 + r) (pt.col0 + c) ((es.zipIdx 0).map (fun e => e.1.1 * 2 ^ (4 * e.2))).sum (es.any (·.2))
  else y.loadCell bad code p (pt.row0 + r) (pt.col0 + c) 0 false

/-- The byte that a cell of a one-byte plane packed from `a` holds: its element, or 0 beyond the loaded columns (R84, R92). -/
def Core.packedByte (k : Core) (a cc r c : Nat) : Byte := if c < cc then ((k.csRead (a + r * cc + c) 1).getD 0 (0, false)).1 else 0

theorem Core.cellLoad_planes (k : Core) (bad : List Nat) (pt : Part) (code cc p a r c : Nat) (y : Core) (hc : byteFormat code) :
    (k.cellLoad bad pt code cc p a r c y).planes = mset 0 y.planes (cellIx p (pt.row0 + r) (pt.col0 + c)) (k.packedByte a cc r c) := by
  obtain ⟨h16, hlanes, hbits, hrow, -⟩ := hc.facts
  unfold Core.cellLoad Core.packedByte
  split
  · rw [Core.loadCell_planes _ _ _ _ _ _ _ _ h16, hlanes, hbits, hrow, Nat.mul_one, ← Core.csElem_byte]
    simp
  · exact Core.loadCell_planes _ _ _ _ _ _ _ _ h16

theorem Core.loadExps_planes (k : Core) (bad : List Nat) (pt : Part) (cc n p a : Nat) : (k.loadExps bad pt cc n p a).planes = k.planes :=
  iter_keeps Core.planes _ _ _ (fun _ _ _ => iter_keeps Core.planes _ _ _ (fun _ _ _ => by
    simp only []
    split <;> rfl))

/-- A dense plane's cells are those that its cell writes leave: exponents lie elsewhere. -/
theorem Core.loadPlane_planes (k : Core) (bad : List Nat) (pt : Part) (code cc p a : Nat) :
    (k.loadPlane bad pt code 0 cc p a).planes
      = (iter pt.h (fun r x => iter pt.w (fun c y => k.cellLoad bad pt code cc p a r c y) x) (k.freshWords bad pt code 0 cc p)).planes := by
  delta Core.loadPlane
  extract_lets lanes n sec planes wb k1 k2 k3
  show k3.planes = k1.planes
  unfold k3
  split
  · exact Core.loadExps_planes ..
  · rfl

section
variable (k : Core) (bad : List Nat) (pt : Part) (code cc p a : Nat) (hc : byteFormat code) (hrow : pt.row0 + pt.h ≤ 128) (hcol : pt.col0 + pt.w ≤ 128)
include hc hrow hcol

/-- A cell of the partition holds its byte of the packed plane once the plane is loaded (R84, R92). -/
theorem Core.loadPlane_cell (i x : Nat) (hi : i < pt.h) (hx : x < pt.w) :
    mget 0 (k.loadPlane bad pt code 0 cc p a).planes (cellIx p (pt.row0 + i) (pt.col0 + x)) = k.packedByte a cc i x := by
  rw [Core.loadPlane_planes]
  refine iter_sets (fun y : Core => mget 0 y.planes (cellIx p (pt.row0 + i) (pt.col0 + x))) _ _ _ i _ hi (fun y => ?_) (fun j hj hne y => ?_)
  · refine iter_sets (fun y : Core => mget 0 y.planes (cellIx p (pt.row0 + i) (pt.col0 + x))) _ _ _ x _ hx (fun z => ?_) (fun j hj hne z => ?_)
    · simp only [Core.cellLoad_planes _ _ _ _ _ _ _ _ _ _ hc, mget_mset_self]
    · simp only [Core.cellLoad_planes _ _ _ _ _ _ _ _ _ _ hc]
      refine mget_mset_ne _ _ _ _ _ (fun he => hne ?_)
      have := (cellIx_inj (by omega) (by omega) (by omega) (by omega) he).2.2
      omega
  · refine iter_keeps (fun y : Core => mget 0 y.planes (cellIx p (pt.row0 + i) (pt.col0 + x))) _ _ _ (fun c hc' z => ?_)
    simp only [Core.cellLoad_planes _ _ _ _ _ _ _ _ _ _ hc]
    refine mget_mset_ne _ _ _ _ _ (fun he => hne ?_)
    have := (cellIx_inj (by omega) (by omega) (by omega) (by omega) he).2.1
    omega

/-- A plane loaded leaves every other plane. -/
theorem Core.loadPlane_others (q i x : Nat) (hq : q ≠ p) (hi : i < 128) (hx : x < 128) :
    mget 0 (k.loadPlane bad pt code 0 cc p a).planes (cellIx q i x) = mget 0 k.planes (cellIx q i x) := by
  rw [Core.loadPlane_planes]
  have hkeep := iter_keeps (fun y : Core => mget 0 y.planes (cellIx q i x)) pt.h
    (fun r x => iter pt.w (fun c y => k.cellLoad bad pt code cc p a r c y) x) (k.freshWords bad pt code 0 cc p) (fun r hr y => ?_)
  · exact hkeep
  · refine iter_keeps (fun y : Core => mget 0 y.planes (cellIx q i x)) _ _ _ (fun c hc' z => ?_)
    simp only [Core.cellLoad_planes _ _ _ _ _ _ _ _ _ _ hc]
    exact mget_mset_ne _ _ _ _ _ (fun he => hq (cellIx_inj (by omega) (by omega) (by omega) (by omega) he).1)

end

end Sys2Proof.Machine
end

-- ==== Sys2Proof/Proofs/ArrayLoads.lean ====

section
namespace Sys2Proof.Machine

/-! ### A load's start (R92, R93, R172) -/

/-- A load as it goes to the port: its check pass, which a dense plane has none of, and its writes are still to come. -/
def Core.newLoad (k : Core) (o : Op) (pt : Part) : LoadProg :=
  { op := o, check := if o.f 4 30 2 = 0 then 0 else (o.loadUnit pt.h).2 * cdiv (pt.h * (o.f 4 0 8 * lanesOf (o.f 0 16 4))) 2048,
    verdict := k.checkPass pt o, writing := false, done := 0, poison := false }

theorem State.arrayLoad_starts (s : State) (c : Nat) (o : Op) (pt : Part) (hp : Core.opPart o (s.width c) = some pt)
    (hs : (s.core c).loadStatus (s.width c) o = 0) :
    s.arrayLoad c o = s.setCore c { (s.core c).arrayBegin o s.cycles 4 with load := some ((s.core c).newLoad o pt) } := by
  simp only [State.arrayLoad, hs, hp]
  rfl

/-! ### The last write of a load (R92) -/

/-- A load at the last write of its last plane, of a dense one-byte format. -/
structure Core.lastWrite (k : Core) (l : LoadProg) (pt : Part) (x : Nat) : Prop where
  load : k.load = some l
  issued : l.op.issued < x
  check : l.check = 0
  writing : l.writing = true
  format : byteFormat (l.op.f 0 16 4)
  dense : l.op.f 4 30 2 = 0
  count : 0 < l.op.f 0 0 8
  height : pt.h = 64 ∨ pt.h = 128
  last : l.done + 1 = l.op.f 0 0 8 * (pt.h / 4)

/-- The last plane that a load writes. -/
def Op.lastPlane (o : Op) : Nat := o.f 0 8 6 + o.f 0 0 8 - 1

/-- Where in the core store a load's last plane is packed. -/
def Op.lastSource (o : Op) (h : Nat) : Nat := 64 * o.f 8 0 15 + (o.f 0 0 8 - 1) * (o.loadUnit h).1

/-- The core once a load's last plane is written. -/
def Core.lastLoaded (k : Core) (bad : List Nat) (pt : Part) (o : Op) : Core :=
  k.loadPlane bad pt (o.f 0 16 4) 0 (o.f 4 0 8) o.lastPlane (o.lastSource pt.h)

/-- The poisoned words that a load's last plane is packed with. -/
def Core.lastPoison (k : Core) (o : Op) (h : Nat) : Nat := k.csPoisoned (o.lastSource h) (o.loadUnit h).1

/-- The status that a load ends with at its last write: DATA_POISON where it took poison (R368, R380). -/
def Core.lastStatus (k : Core) (l : LoadProg) (h : Nat) : Nat := if l.poison || k.lastPoison l.op h != 0 then 0x90 else 0

/-- The cycle of a load's last write writes the plane, frees the port and ends the operation. -/
theorem Core.loadStep_lastWrite (k : Core) (w : Nat) (bad : List Nat) (x : Nat) (l : LoadProg) (pt : Part) (hp : Core.opPart l.op w = some pt)
    (h : k.lastWrite l pt x) :
    k.loadStep w bad x = (({ (k.lastLoaded bad pt l.op).count 0x168 (k.lastPoison l.op pt.h) with load := none } : Core).poisonCounts 0
      (k.lastStatus l pt.h)).arrayEnded l.op.id (k.lastStatus l pt.h) x := by
  have hstep := h.format.facts.2.2.2.2
  have hlate : ¬ x ≤ l.op.issued := by have := h.issued; omega
  have heach : 0 < pt.h / 4 := by have := h.height; omega
  have hmod : l.op.f 0 0 8 * (pt.h / 4) % (pt.h / 4) = 0 := Nat.mul_mod_left ..
  have hdiv : l.op.f 0 0 8 * (pt.h / 4) / (pt.h / 4) = l.op.f 0 0 8 := Nat.mul_div_cancel _ heach
  have hplane : l.op.f 0 8 6 + (l.op.f 0 0 8 - 1) = l.op.lastPlane := by have := h.count; unfold Op.lastPlane; omega
  unfold Core.loadStep
  simp only [h.load, hp, hlate, h.check, h.writing, hstep, h.dense, h.last, hmod, hdiv, hplane, ne_eq, not_true_eq_false, if_false, if_true, Bool.not_true,
    Bool.false_and, Bool.false_eq_true, Nat.one_mul, Nat.mul_one]
  rfl

/-- The plane of a load's last write leaves the core store, the row operations and the running operations. -/
theorem Core.lastLoaded_only (k : Core) (bad : List Nat) (pt : Part) (o : Op) :
    (k.lastLoaded bad pt o).store = k.store ∧ (k.lastLoaded bad pt o).flows = k.flows ∧ (k.lastLoaded bad pt o).arrayRun = k.arrayRun := by
  have h : k.cellsOnly (k.lastLoaded bad pt o) := k.loadPlane_cellsOnly ..
  unfold Core.cellsOnly at h
  have hstore := congrArg Core.store h
  have hflows := congrArg Core.flows h
  have hrun := congrArg Core.arrayRun h
  exact ⟨hstore, hflows, hrun⟩

/-- What the cycle of a load's last write leaves: the port free, the operation ended, the plane written, and the rest of the array
as it was. -/
theorem Core.loadStep_lastWrite_fields (k : Core) (w : Nat) (bad : List Nat) (x : Nat) (l : LoadProg) (pt : Part)
    (hp : Core.opPart l.op w = some pt) (h : k.lastWrite l pt x) :
    let t := k.loadStep w bad x
    t.load = none ∧ t.flows = k.flows ∧ t.store = k.store ∧ t.arrayRun = (k.arrayEnded l.op.id (k.lastStatus l pt.h) x).arrayRun
      ∧ t.planes = (k.lastLoaded bad pt l.op).planes := by
  obtain ⟨hstore, hflows, hrun⟩ := k.lastLoaded_only bad pt l.op
  rw [Core.loadStep_lastWrite k w bad x l pt hp h]
  generalize k.lastLoaded bad pt l.op = y at hstore hflows hrun
  simp [Core.arrayEnded, Core.poisonCounts, hstore, hflows, hrun]

/-! ### A cycle with no row operations -/

/-- A core's record but for the array's advance and the counters. -/
def Core.advanceOnly (k k' : Core) : Prop := { k' with adv := k.adv, counters := k.counters } = k

theorem Core.advanceOnly_counts (k : Core) (l : List (Nat × Nat)) : k.advanceOnly (k.counts l) :=
  List.foldlRecOn (motive := k.advanceOnly) l _ rfl (fun _ hy _ _ => hy)

theorem Core.fillAll_noRows (k : Core) (x : Nat) (h : k.flows = []) : k.fillAll x = k := by
  cases k
  simp only at h
  subst h
  rfl

theorem Core.advanceRows_noRows (k : Core) (w : Nat) (bad : List Nat) (x : Nat) (h : k.flows = []) : k.advanceOnly (k.advanceRows w bad x) := by
  have hdue : k.dueFlows x = [] := by simp [Core.dueFlows, h]
  unfold Core.advanceRows
  rw [hdue, h]
  rfl

theorem Core.endDone_noRows (k : Core) (x : Nat) (h : k.flows = []) : k.endDone x = k := by simp [Core.endDone, h]

theorem Core.advanceOnly.flows {k k' : Core} (h : k.advanceOnly k') : k'.flows = k.flows := by
  unfold Core.advanceOnly at h
  have hf := congrArg Core.flows h
  exact hf

/-- With no row operation at a feeder, a cycle is what the ports do, the array's advance and the counters aside. -/
theorem Core.arrayCycle_noRows (k : Core) (w : Nat) (bad : List Nat) (x : Nat) (hold : Bool) (h : (k.ports w bad x).flows = []) :
    (k.ports w bad x).advanceOnly (Core.arrayCycle w bad x hold k) := by
  have hported : k.ported w bad x = k.ports w bad x := Core.fillAll_noRows _ x h
  have hend (y : Core) (hy : (k.ports w bad x).advanceOnly y) : (k.ports w bad x).advanceOnly (y.endDone x) := by
    rwa [Core.endDone_noRows y x (hy.flows.trans h)]
  cases hold
  · by_cases hh : (k.ports w bad x).holders = []
    · cases hd : (k.ports w bad x).dryAt w x
      · rw [Core.arrayCycle_advances k w bad x hh hd, hported]
        exact hend _ (Core.advanceRows_noRows _ w bad x h)
      · rw [Core.arrayCycle_dry k w bad x hh hd, hported]
        exact hend _ (Core.advanceOnly_counts ..)
    · rw [Core.arrayCycle_full k w bad x hh, hported]
      exact hend _ (Core.advanceOnly_counts ..)
  · cases hd : (k.ports w bad x).dryAt w x
    · rw [Core.arrayCycle_held_idle k w bad x h hd, hported]
      exact hend _ (Core.advanceOnly_counts ..)
    · rw [Core.arrayCycle_held_busy k w bad x (.inr hd), hported]
      exact hend _ (Core.advanceOnly_counts ..)

theorem Core.ports_noRows (k : Core) (w : Nat) (bad : List Nat) (x : Nat) (hf : k.flows = []) (hd : k.drains = []) :
    k.ports w bad x = (k.count 0xE0 (k.idleChains x)).loadStep w bad x := by
  have hdrain : (k.count 0xE0 (k.idleChains x)).drainStep x = k.count 0xE0 (k.idleChains x) := by simp [Core.drainStep, hf, hd]
  have hflows : ((k.count 0xE0 (k.idleChains x)).loadStep w bad x).flows = [] := by
    have := (Core.stands_loadStep (k.count 0xE0 (k.idleChains x)) w bad x).2
    exact List.eq_nil_iff_forall_not_mem.mpr (fun f hmem => by
      obtain ⟨g, hg, -⟩ := this f hmem
      simp [hf] at hg)
  unfold Core.ports
  rw [hdrain]
  generalize (k.count 0xE0 (k.idleChains x)).loadStep w bad x = y at hflows
  cases y
  simp only at hflows
  subst hflows
  rfl

/-- The cycle of a load's last write, with nothing else in the array: the port is free, the operation has its status, and the core
store stands. -/
theorem Core.arrayCycle_lastWrite (k : Core) (w : Nat) (bad : List Nat) (x : Nat) (hold : Bool) (l : LoadProg) (pt : Part)
    (hp : Core.opPart l.op w = some pt) (h : k.lastWrite l pt x) (hf : k.flows = []) (hd : k.drains = []) :
    let t := Core.arrayCycle w bad x hold k
    t.load = none ∧ t.flows = [] ∧ t.store = k.store ∧ (∃ st, t.arrayRun = (k.arrayEnded l.op.id st x).arrayRun)
      ∧ t.planes = ((k.count 0xE0 (k.idleChains x)).lastLoaded bad pt l.op).planes := by
  have hports := k.ports_noRows w bad x hf hd
  have hlast : (k.count 0xE0 (k.idleChains x)).lastWrite l pt x :=
    ⟨h.load, h.issued, h.check, h.writing, h.format, h.dense, h.count, h.height, h.last⟩
  obtain ⟨hload, hflows, hstore, hrun, hplanes⟩ := Core.loadStep_lastWrite_fields _ w bad x l pt hp hlast
  rw [← hports] at hload hflows hstore hrun hplanes
  have hnone : (k.ports w bad x).flows = [] := hflows.trans hf
  have hcycle := Core.arrayCycle_noRows k w bad x hold hnone
  have hend := hcycle.flows.trans hnone
  unfold Core.advanceOnly at hcycle
  have h1 := congrArg Core.load hcycle
  have h2 := congrArg Core.store hcycle
  have h3 := congrArg Core.arrayRun hcycle
  have h4 := congrArg Core.planes hcycle
  exact ⟨h1.trans hload, hend, h2.trans hstore, ⟨_, h3.trans hrun⟩, h4.trans hplanes⟩

/-! ### The end of an array operation (R91, R265) -/

/-- The way to a cycle to come runs every array that has something in hand. -/
theorem State.toCycle_core_eq (s : State) (n c : Nat) (hm : mwf {} s.cores = true) (hs : s.clk.stopped = false) (hn : s.cycles < n)
    (hi : (s.core c).arrayIdle = false) : (s.toCycle n).core c = iter (n - s.cycles) (fun j k => s.arrayCycle c (s.cycles + j) k) (s.core c) := by
  have hcycles := s.toCycle_cycles n hs hn
  have hfar : ¬ (n ≤ s.cycles ∨ s.clk.stopped = true) := by simp [hs, hn]
  rw [State.toCycle, if_neg hfar] at hcycles ⊢
  rw [State.advance_core_eq _ _ _ hm, hcycles, hi]
  rfl

/-- An operation that leaves the array in the present cycle ends with the next. -/
theorem State.toEnd_next (s : State) (c id : Nat) (h0 : (s.core c).inHand id = true)
    (h1 : (s.arrayCycle c s.cycles (s.core c)).inHand id = false) : s.toEnd c id = some (s.toCycle (s.cycles + 1)) := by
  have hbound : 2 ≤ (s.core c).arrayBound := by unfold Core.arrayBound; omega
  obtain ⟨n, hn⟩ := Nat.exists_eq_add_of_le' hbound
  simp [State.toEnd, hn, State.endsIn, h0, h1]

/-- What the end of an operation leaves of its core's array: the end concerns its stream (R267, R269, R271). -/
theorem State.endOp_core (s : State) (c : Nat) (e : Eng) (r : Running) :
    ((s.endOp c e r).core c).load = (s.core c).load ∧ ((s.endOp c e r).core c).arrayRun = (s.core c).arrayRun
      ∧ ((s.endOp c e r).core c).store = (s.core c).store ∧ ((s.endOp c e r).core c).planes = (s.core c).planes := by
  delta State.endOp
  extract_lets k0 x k x1 x2 k1 k2
  have hk : k.load = (s.core c).load ∧ k.arrayRun = (s.core c).arrayRun ∧ k.store = (s.core c).store ∧ k.planes = (s.core c).planes := by
    unfold k
    split <;> exact ⟨rfl, rfl, rfl, rfl⟩
  have hk2 : k2.load = k.load ∧ k2.arrayRun = k.arrayRun ∧ k2.store = k.store ∧ k2.planes = k.planes := by
    unfold k2
    split <;> simp [k1, Core.addCtr]
  obtain ⟨h1, h2, h3, h4⟩ := hk2
  rw [← hk.1, ← hk.2.1, ← hk.2.2.1, ← hk.2.2.2, ← h1, ← h2, ← h3, ← h4]
  split
  · rw [show ((s.setCore c (k2.count 0x158 1)).seqFault c r.op.stream r.status r.op.opc r.op.pc).core c = k2.count 0x158 1 from
      (congrArg (fun m => mget ({} : Core) m c) (State.seqFault_cores ..)).trans (State.core_setCore_self ..)]
    exact ⟨rfl, rfl, rfl, rfl⟩
  · rw [State.core_setCore_self]
    exact ⟨rfl, rfl, rfl, rfl⟩

/-- An array operation whose last cycle has passed leaves the array, and what the array holds stands. -/
theorem State.arrayRetire_fields (s : State) (c id : Nat) (r : Running) (hfind : (s.core c).arrayRun.find? (fun r => r.op.id == id) = some r)
    (hdue : r.started + r.cycles ≤ s.cycles) :
    let t := s.arrayRetire c id
    (t.core c).load = (s.core c).load ∧ (t.core c).arrayRun = (s.core c).arrayRun.filter (fun q => q.op.id != id)
      ∧ (t.core c).store = (s.core c).store ∧ (t.core c).planes = (s.core c).planes ∧ t.cycles = s.cycles := by
  simp only [State.arrayRetire, hfind, s.toCycle_past _ hdue]
  obtain ⟨hload, hrun, hstore, hplanes⟩ := State.endOp_core (s.updCore c (fun x => { x with arrayRun := x.arrayRun.filter (fun q => q.op.id != id) })) c .array r
  have hclk := congrArg (fun q : State => q.clk.milli / 1000)
    (State.endOp_only (s.updCore c (fun x => { x with arrayRun := x.arrayRun.filter (fun q => q.op.id != id) })) c .array r)
  rw [State.core_updCore_self] at hload hrun hstore hplanes ⊢
  exact ⟨hload, hrun, hstore, hplanes, hclk⟩

/-- An array operation that has left the array at its end's instant retires there. -/
theorem execArrayOpEnd_retires (s t : State) (c : CoreIx) (n : Nat) (r : Running) (hr : (s.core c.val).arrayRun[n]? = some r)
    (ht : s.toEnd c.val r.op.id = some t) (hout : (t.core c.val).inHand r.op.id = false) :
    exec (.arrayOpEnd c n) s = .next (t.arrayRetire c.val r.op.id) := by
  show execArrayOpEnd c n s = _
  simp [execArrayOpEnd, hr, ht, hout]

/-! ### The end of a load (R88, R90) -/

/-- The next cycle runs on a core that has something in hand. -/
theorem State.toCycle_next_core (s : State) (c : Nat) (hm : mwf {} s.cores = true) (hs : s.clk.stopped = false) (hi : (s.core c).arrayIdle = false) :
    (s.toCycle (s.cycles + 1)).core c = s.arrayCycle c s.cycles (s.core c) := by
  rw [s.toCycle_core_eq _ c hm hs (Nat.lt_add_one _) hi, Nat.add_sub_cancel_left]
  rfl

/-- A load at its last write with nothing else in the array ends with that cycle: the port and the array are free, the plane is written,
and the core store stands. -/
theorem execArrayOpEnd_lastWrite (s : State) (c : CoreIx) (l : LoadProg) (pt : Part) (r : Running) (hp : Core.opPart l.op (s.width c.val) = some pt)
    (h : (s.core c.val).lastWrite l pt s.cycles) (hf : (s.core c.val).flows = []) (hd : (s.core c.val).drains = [])
    (hrun : (s.core c.val).arrayRun = [r]) (hop : r.op = l.op) (hstarted : r.started ≤ s.cycles) (hs : s.clk.stopped = false)
    (hm : mwf {} s.cores = true) :
    ∃ t, exec (.arrayOpEnd c 0) s = .next t ∧ (t.core c.val).load = none ∧ (t.core c.val).arrayRun = [] ∧ (t.core c.val).store = (s.core c.val).store
      ∧ t.cycles = s.cycles + 1
      ∧ (t.core c.val).planes
        = (((s.core c.val).count 0xE0 ((s.core c.val).idleChains s.cycles)).lastLoaded (s.coreEntry c.val).badCols pt l.op).planes := by
  have hidle : (s.core c.val).arrayIdle = false := by simp [Core.arrayIdle, h.load]
  have hin : (s.core c.val).inHand r.op.id = true := by simp [Core.inHand, h.load, hop]
  have hcore := s.toCycle_next_core c.val hm hs hidle
  have hcycles := s.toCycle_cycles (s.cycles + 1) hs (Nat.lt_add_one _)
  obtain ⟨hload, hflows, hstore, ⟨st, hended⟩, hplanes⟩ :=
    Core.arrayCycle_lastWrite (s.core c.val) (s.width c.val) (s.coreEntry c.val).badCols s.cycles (s.holdAt c.val s.cycles) l pt hp h hf hd
  rw [show Core.arrayCycle (s.width c.val) (s.coreEntry c.val).badCols s.cycles (s.holdAt c.val s.cycles) (s.core c.val)
    = s.arrayCycle c.val s.cycles (s.core c.val) from rfl, ← hcore] at hload hflows hstore hended hplanes
  have hout : ((s.toCycle (s.cycles + 1)).core c.val).inHand r.op.id = false := by simp [Core.inHand, Core.flow, hload, hflows]
  have hrun' : ((s.toCycle (s.cycles + 1)).core c.val).arrayRun = [{ r with status := st, cycles := s.cycles + 1 - r.started }] := by
    rw [hended]
    simp [Core.arrayEnded, updWhere, hrun, hop]
  obtain ⟨rload, rrun, rstore, rplanes, rcycles⟩ := (s.toCycle (s.cycles + 1)).arrayRetire_fields c.val r.op.id
    { r with status := st, cycles := s.cycles + 1 - r.started } (by simp [hrun']) (by simp only [hcycles]; omega)
  refine ⟨_, execArrayOpEnd_retires s _ c 0 r (by simp [hrun]) (s.toEnd_next c.val r.op.id hin (by rwa [hcore] at hout)) hout, rload.trans hload, ?_,
    rstore.trans hstore, rcycles.trans hcycles, rplanes.trans hplanes⟩
  rw [rrun, hrun']
  simp

end Sys2Proof.Machine

open Sys2Proof Sys2Proof.Machine

/-- Settles O17, by the start of a load on its port, and by the cycle of its last write: the one cycle that the clocks run to the end
of the operation, in which every cell of the plane is written once. -/
theorem arrayLoads : Obligations.ArrayLoads := by
  refine ⟨fun s c o pt hh hs hp => ?_, fun s c o pt l r hp hload hop hcheck hwriting hlast hissued hflows hdrains _ hrun hrop hstarted
    hclk hwidth hformat hdense hcount hm => ?_⟩
  · rw [execArrayLoad_head s c o hh, State.arrayLoad_starts _ _ _ pt hp hs]
    refine ⟨_, (s.core c.val).newLoad o pt, rfl, State.onlyCore_setCore .., ?_⟩
    rw [State.core_setCore_self]
    obtain ⟨hnow, -⟩ := o.issued_lt_startAt s.cycles
    exact ⟨rfl, rfl, rfl, rfl, rfl, rfl, rfl, ⟨_, rfl, rfl, hnow⟩, rfl, rfl, rfl, rfl⟩
  · subst hop
    obtain ⟨hrow, hcol, hheight⟩ := Core.opPart_within _ _ _ hwidth hp
    obtain ⟨t, ht, tload, trun, tstore, tcycles, tplanes⟩ := execArrayOpEnd_lastWrite s c l pt r hp
      ⟨hload, hissued, hcheck, hwriting, hformat, hdense, hcount, hheight, hlast⟩ hflows hdrains hrun hrop hstarted hclk hm
    refine ⟨t, ht, tload, trun, tstore, tcycles, fun i hi x hx => ?_, fun q i x hq hi hx => ?_⟩
    · rw [tplanes]
      exact Core.loadPlane_cell _ _ pt _ _ _ _ hformat hrow hcol i x hi hx
    · rw [tplanes]
      exact Core.loadPlane_others _ _ pt _ _ _ _ hformat hrow hcol q i x hq hi hx
end

-- ==== Sys2Proof/Proofs/AccessRequests.lean ====

section
namespace Sys2Proof.Machine

/-! ### The host port (R389, R485, R498) -/

/-- The caddies and the cores stand: so much a use of the host port leaves, and a write to memory. -/
structure State.keepsCores (s t : State) : Prop where
  caddy : t.caddy = s.caddy
  caddySt : t.caddySt = s.caddySt
  cores : t.cores = s.cores

theorem State.keepsCores_refl (s : State) : s.keepsCores s := ⟨rfl, rfl, rfl⟩

theorem State.keepsCores.trans {s t u : State} (h : s.keepsCores t) (g : t.keepsCores u) : s.keepsCores u :=
  ⟨g.caddy.trans h.caddy, g.caddySt.trans h.caddySt, g.cores.trans h.cores⟩

theorem State.keepsCores_emit (s : State) (o : Output) : s.keepsCores (s.emit o) := ⟨by simp, by simp, by simp⟩

theorem State.keepsCores_measChanged (s : State) (i : Nat) : s.keepsCores (s.measChanged i) :=
  ⟨State.mark_caddy .., State.mark_caddySt .., State.mark_cores ..⟩

theorem State.keepsCores_endReplay (s : State) (code : Nat) : s.keepsCores (s.endReplay code) := by
  unfold State.endReplay
  simp only []
  split
  · refine State.keepsCores.trans ?_ (State.keepsCores_measChanged ..)
    exact ⟨State.mark_caddy .., State.mark_caddySt .., State.mark_cores ..⟩
  · exact ⟨State.mark_caddy .., State.mark_caddySt .., State.mark_cores ..⟩

/-- A host read, whatever it comes to. -/
theorem State.keepsCores_hostLine (s : State) (src a : Nat) (hs : List HostReply) : s.keepsCores (s.hostLine src a hs).1 := by
  have hemit := s.keepsCores_emit (.hostRead a 1 false)
  unfold State.hostLine
  split
  · simp only []
    split
    · split
      · exact ⟨rfl, rfl, rfl⟩
      · exact s.keepsCores_endReplay 2
    · exact s.keepsCores_endReplay 2
  · split
    · exact ⟨rfl, rfl, rfl⟩
    · split
      · exact hemit.trans ⟨by simp, by simp, by simp⟩
      · exact hemit.trans ⟨rfl, rfl, rfl⟩
      · exact hemit

/-- A host write, whatever the host answers. -/
theorem State.keepsCores_hostPost (s : State) (ds : List (Nat × List Byte × Bool)) (hs : List HostReply) : s.keepsCores (s.hostPost ds hs).1 := by
  have hput : s.keepsCores (ds.foldl (fun t d => t.emit (.hostWrite d.1 d.2.1 d.2.2)) s) :=
    List.foldlRecOn (motive := s.keepsCores) ds _ s.keepsCores_refl (fun t ht _ _ => ht.trans (t.keepsCores_emit _))
  unfold State.hostPost
  simp only []
  split
  · exact hput
  · split
    · exact ⟨rfl, rfl, rfl⟩
    · split
      · exact hput.trans ⟨rfl, rfl, rfl⟩
      · exact hput
      · exact hput

theorem State.keepsCores_devWrite (s : State) (sp : Space) (a : Nat) (ds : List PByte) (add : Bool) : s.keepsCores (s.devWrite sp a ds add) :=
  ⟨by simp, by simp, by simp⟩

/-! ### What an access operation leaves of its core -/

/-- A core's record but for what its access unit changes before it starts an operation: the translation cache, the counters, the
caddy's binding and wait, and the core store. -/
def Core.accessOnly (k k' : Core) : Prop :=
  { k' with
    tlb := k.tlb, counters := k.counters, caddy := k.caddy, popWait := k.popWait, store := k.store, storePoison := k.storePoison } = k

/-- What the access unit does not change reads the same. -/
theorem Core.accessOnly.same {k x : Core} (h : k.accessOnly x) {α : Type} (g : Core → α) : g { x with
    tlb := k.tlb, counters := k.counters, caddy := k.caddy, popWait := k.popWait, store := k.store, storePoison := k.storePoison } = g k :=
  congrArg g h

theorem Core.accessOnly.trans {k x y : Core} (h : k.accessOnly x) (g : x.accessOnly y) : k.accessOnly y := by
  unfold Core.accessOnly at h g ⊢
  exact (congrArg (fun q : Core => { q with
    tlb := k.tlb, counters := k.counters, caddy := k.caddy, popWait := k.popWait, store := k.store, storePoison := k.storePoison }) g).trans h

theorem Core.accessOnly.queue {k x : Core} (h : k.accessOnly x) (e : Eng) : x.queue e = k.queue e := by
  have hq := h.same (fun q : Core => q.queue e)
  cases e <;> exact hq

theorem Core.accessOnly.running {k x : Core} (h : k.accessOnly x) (e : Eng) : x.running e = k.running e := by
  have hr := h.same (fun q : Core => q.running e)
  cases e <;> exact hr

theorem Core.accessOnly.stream {k x : Core} (h : k.accessOnly x) (f : StreamId) : x.stream f = k.stream f := by
  have hs := h.same (fun q : Core => q.stream f)
  cases f <;> exact hs

/-- What an engine takes does not depend on what the access unit changes. -/
theorem Core.accessOnly.took {k x y : Core} (h : k.accessOnly x) {e : Eng} {o : Op} {st cy : Nat} (g : x.took y e o st cy) : k.took y e o st cy := by
  obtain ⟨hqueue, hothers, hrun, hpot, hstream, hctrs, hsems, hprogram⟩ := g
  have hhead := h.same Core.potHead
  have hdone := h.same Core.potDone
  refine ⟨?_, fun d hd => ?_, hrun, hpot.trans (Core.potPassOp_head _ _ o hhead hdone), fun f => (hstream f).trans (h.stream f),
    hctrs.trans (h.same Core.ctrs), hsems.trans (h.same Core.sems), hprogram.trans (h.same Core.program)⟩
  · rw [hqueue, h.queue]
  · obtain ⟨hq, hr⟩ := hothers d hd
    exact ⟨hq.trans (h.queue d), hr.trans (h.running d)⟩

/-! ### Requests of an access unit (R255, R258) -/

/-- What the requests of core `c` leave, whatever they come to: the caddies, every other core, and of `c` all but what its access
unit keeps of them; its store stands. -/
structure State.requested (s t : State) (c : Nat) : Prop where
  caddy : t.caddy = s.caddy
  caddySt : t.caddySt = s.caddySt
  core : (s.core c).accessOnly (t.core c)
  store : (t.core c).store = (s.core c).store
  others : ∀ d, d ≠ c → t.core d = s.core d

theorem State.requested.trans {s t u : State} {c : Nat} (h : s.requested t c) (g : t.requested u c) : s.requested u c :=
  ⟨g.caddy.trans h.caddy, g.caddySt.trans h.caddySt, h.core.trans g.core, g.store.trans h.store, fun d hd => (g.others d hd).trans (h.others d hd)⟩

theorem State.keepsCores.requested {s t : State} (h : s.keepsCores t) (c : Nat) : s.requested t c := by
  have hcore (d : Nat) : t.core d = s.core d := congrArg (fun m => mget ({} : Core) m d) h.cores
  exact ⟨h.caddy, h.caddySt, by rw [hcore]; rfl, by rw [hcore], fun d _ => hcore d⟩

theorem State.requested_refl (s : State) (c : Nat) : s.requested s c := s.keepsCores_refl.requested c

/-- A change of the translation cache or the counters of the core that requests. -/
theorem State.requested_updCore (s : State) (c : Nat) (f : Core → Core) (hf : (s.core c).accessOnly (f (s.core c)))
    (hstore : (f (s.core c)).store = (s.core c).store) : s.requested (s.updCore c f) c :=
  ⟨rfl, rfl, by rwa [State.core_updCore_self], by rwa [State.core_updCore_self], fun d hd => State.core_updCore_ne s c d f hd⟩

/-- A request changes nothing of the module, or its core's translation cache. -/
theorem MemRun.request_st (m : MemRun) (va : Nat) (k : Acc) :
    (m.request va k).1.st = m.st ∨ ∃ tl, (m.request va k).1.st = m.st.updCore m.core (fun x => { x with tlb := tl }) := by
  unfold MemRun.request
  cases m.fault with
  | some a => exact .inl rfl
  | none =>
    simp only []
    generalize ((tlbTouch (m.st.core m.core).tlb (va / 2097152)).2 && m.st.entryBad (va / 2097152)) = bad
    cases bad
    · cases m.st.pageCheck va k <;> exact .inr ⟨_, rfl⟩
    · exact .inl rfl

theorem MemRun.request_core (m : MemRun) (va : Nat) (k : Acc) : (m.request va k).1.core = m.core := by
  obtain ⟨-, -, -, -, hcore, -⟩ := m.request_spec va k
  exact hcore

/-- A later view of the same core's requests. -/
def MemRun.leadsTo (m m' : MemRun) : Prop := m'.core = m.core ∧ m.st.requested m'.st m.core

theorem MemRun.leadsTo_refl (m : MemRun) : m.leadsTo m := ⟨rfl, m.st.requested_refl _⟩

theorem MemRun.leadsTo.trans {m x y : MemRun} (h : m.leadsTo x) (g : x.leadsTo y) : m.leadsTo y := by
  obtain ⟨hcore, hst⟩ := h
  obtain ⟨gcore, gst⟩ := g
  exact ⟨gcore.trans hcore, hst.trans (hcore ▸ gst)⟩

theorem MemRun.leadsTo_request (m : MemRun) (va : Nat) (k : Acc) : m.leadsTo (m.request va k).1 := by
  refine ⟨m.request_core va k, ?_⟩
  rcases m.request_st va k with h | ⟨tl, h⟩ <;> rw [h]
  · exact m.st.requested_refl _
  · exact m.st.requested_updCore _ _ rfl rfl

theorem MemRun.leadsTo_read (m : MemRun) (va n : Nat) : m.leadsTo (m.read va n).1 := by
  have hreq := m.leadsTo_request va .read
  unfold MemRun.read
  rcases hr : m.request va .read with ⟨m1, _ | ⟨t, pa⟩⟩ <;> rw [hr] at hreq
  · exact hreq
  · simp only []
    split
    · have hline := m1.st.keepsCores_hostLine (coreUnit m1.core m1.blk) (pa / 64 * 64) m1.host
      rcases hl : m1.st.hostLine (coreUnit m1.core m1.blk) (pa / 64 * 64) m1.host with ⟨st, got, r⟩
      rw [hl] at hline
      cases got <;> exact hreq.trans ⟨rfl, hline.requested _⟩
    · exact hreq.trans ⟨rfl, m1.st.requested_refl _⟩

theorem MemRun.leadsTo_write (m : MemRun) (va : Nat) (ds : List PByte) : m.leadsTo (m.write va ds) := by
  have hreq := m.leadsTo_request va .plain
  unfold MemRun.write
  rcases hr : m.request va .plain with ⟨m1, _ | ⟨t, pa⟩⟩ <;> rw [hr] at hreq
  · exact hreq
  · simp only []
    split
    · exact hreq.trans ⟨rfl, (m1.st.keepsCores_hostPost ..).requested _⟩
    · exact hreq.trans ⟨rfl, (m1.st.keepsCores_devWrite ..).requested _⟩

/-! ### Requests that translate -/

theorem State.xlate_inr (s : State) (va : Nat) (k : Acc) (r : Nat × Nat) (h : s.xlate va k = .inr r) :
    s.entryBad (va / 2097152) = false ∧ s.pageCheck va k = .inr r := by
  unfold State.xlate at h
  split at h
  next => simp at h
  next hgood => exact ⟨Bool.eq_false_of_not_eq_true hgood, h⟩

/-- A word of a memory stays as it was poisoned where a run of bytes written ends before it. -/
theorem pmWrite_poison_above (b : Mem Byte) (p : Mem Bool) (a : Nat) (ds : List PByte) (w : Nat) (h : a + ds.length ≤ 4 * w) :
    mget false (pmWrite b p a ds).2 w = mget false p w := by
  unfold pmWrite
  refine iter_keeps (fun q => mget false q w) _ _ p (fun i hi q => mget_mset_ne _ _ _ _ _ ?_)
  cases ds with
  | nil => simp at hi
  | cons d l => simp only [List.isEmpty_cons, Bool.false_eq_true, if_false, List.length_cons] at hi h; omega

/-- An entry of the page table reads badly where its device is lost or one of its bytes lies in a poisoned word (R258, R365, R371). -/
theorem State.entryBad_eq (s : State) (n : Nat) : s.entryBad n = (s.memLost .hbm (s.plan.entryPhys n)
    || (List.range 8).any (fun i => mget false s.mem.hbmPoison ((s.plan.entryPhys n + i) / 4))) := by
  unfold State.entryBad State.devRead
  split
  next hlost => rw [hlost]; rfl
  next hlost =>
    rw [Bool.eq_false_of_not_eq_true hlost, Bool.false_or]
    simp only [pmRead, List.any_map]
    congr 1
    funext i
    show (if _ then _ else _ : PByte).2 = mget false s.mem.hbmPoison _
    split
    next hp => exact hp.symm
    next hp => exact (Bool.eq_false_of_not_eq_true hp).symm

/-- A write below the reserved region leaves every entry of the page table as good or bad as it was (R258, R372). -/
theorem State.entryBad_devWrite (s : State) (a : Nat) (ds : List PByte) (h : a + ds.length ≤ s.plan.resBase) (n : Nat) :
    (s.devWrite .hbm a ds false).entryBad n = s.entryBad n := by
  have hbase : 4 * (s.plan.resBase / 4) = s.plan.resBase := by unfold Plan.resBase; omega
  have hpost : s.postHit .hbm a = false := by
    have : ¬ s.plan.postPhys ≤ a := by unfold Plan.postPhys; omega
    simp [State.postHit, this]
  unfold State.devWrite
  simp only [hpost, Bool.false_eq_true, if_false]
  split
  · rfl
  · rw [State.entryBad_eq, State.entryBad_eq]
    refine congrArg (s.memLost .hbm (s.plan.entryPhys n) || List.any (List.range 8) ·) (funext fun i => ?_)
    exact pmWrite_poison_above (s.mem.bytes .hbm) _ _ _ _ (by simp only [Plan.entryPhys]; omega)

/-- A view of core `c`'s requests that none has failed, with addresses translated as in the state `s` (R255, R258). -/
structure MemRun.unfailed (s : State) (c : Nat) (m : MemRun) : Prop where
  fault : m.fault = none
  core : m.core = c
  requested : s.requested m.st c
  plan : m.st.plan = s.plan
  pages : m.st.pages = s.pages
  entryBad : ∀ n, m.st.entryBad n = s.entryBad n

theorem MemRun.unfailed_start (s : State) (c blk : Nat) (host : List HostReply) : (MemRun.start s c blk host).unfailed s c :=
  ⟨rfl, rfl, s.requested_refl c, rfl, rfl, fun _ => rfl⟩

/-- A request for an address that translates is made. -/
theorem MemRun.unfailed.request {s : State} {c : Nat} {m : MemRun} (h : m.unfailed s c) {va : Nat} {k : Acc} {r : Nat × Nat} (hx : s.xlate va k = .inr r) :
    (m.request va k).2 = some r ∧ (m.request va k).1.unfailed s c ∧ (m.request va k).1.st.mem = m.st.mem := by
  obtain ⟨hgood, hcheck⟩ := s.xlate_inr va k r hx
  have hcheck' : m.st.pageCheck va k = .inr r := by rw [← hcheck, State.pageCheck, State.page, h.pages, State.pageCheck, State.page]
  obtain ⟨hmem, -, -, -, hcore, -, -, hmade⟩ := m.request_spec va k
  obtain ⟨-, hsome⟩ := hmade h.fault
  obtain ⟨hfault, hgot⟩ := hsome r (by simp [h.entryBad, hgood, hcheck'])
  refine ⟨hgot, ⟨hfault, hcore.trans h.core, h.requested.trans ?_, ?_, ?_, fun n => ?_⟩, hmem⟩
  · rw [← h.core]; exact (m.leadsTo_request va k).2
  all_goals rcases m.request_st va k with he | ⟨tl, he⟩ <;> rw [he]
  · exact h.plan
  · exact h.plan
  · exact h.pages
  · exact h.pages
  · exact h.entryBad n
  · exact h.entryBad n

/-- A read from HBM4 at an address that translates returns as many bytes as it asks for, and writes no memory. -/
theorem MemRun.unfailed.read {s : State} {c : Nat} {m : MemRun} (h : m.unfailed s c) {va pa : Nat} (n : Nat) (hx : s.xlate va .read = .inr (0, pa)) :
    (m.read va n).1.unfailed s c ∧ (m.read va n).1.st.mem = m.st.mem ∧ (m.read va n).2.length = n := by
  obtain ⟨hgot, hreq, hmem⟩ := h.request hx
  unfold MemRun.read
  rcases hr : m.request va .read with ⟨m1, got⟩
  rw [hr] at hgot hreq hmem
  subst hgot
  obtain ⟨hfault, hcore, hkept, hplan, hpages, hbad⟩ := hreq
  exact ⟨⟨hfault, hcore, hkept, hplan, hpages, hbad⟩, hmem, by simp [State.devRead, pmRead]; split <;> simp⟩

/-- A write to HBM4 at an address that translates to a place below the reserved region is made. -/
theorem MemRun.unfailed.write {s : State} {c : Nat} {m : MemRun} (h : m.unfailed s c) {va pa : Nat} (ds : List PByte) (hx : s.xlate va .plain = .inr (0, pa))
    (hpa : pa + ds.length ≤ s.plan.resBase) : (m.write va ds).unfailed s c := by
  obtain ⟨hgot, hreq, -⟩ := h.request hx
  rcases hr : m.request va .plain with ⟨m1, got⟩
  rw [hr] at hgot hreq
  subst hgot
  obtain ⟨hfault, hcore, hkept, hplan, hpages, hbad⟩ := hreq
  have hmade : m.write va ds = { m1 with st := m1.st.devWrite .hbm pa ds false, lost := m1.lost || m1.st.memLost .hbm pa } := by
    simp [MemRun.write, hr, spaceOf]
  rw [hmade]
  refine ⟨hfault, hcore, hkept.trans ((State.keepsCores_devWrite ..).requested c), by simpa using hplan, by simpa using hpages, fun n => ?_⟩
  exact (State.entryBad_devWrite _ _ _ (by rwa [hplan]) n).trans (hbad n)

end Sys2Proof.Machine
end

-- ==== Sys2Proof/Proofs/Caddy.lean ====

section
namespace Sys2Proof.Machine

/-! ### Operations that the access unit starts (R131, R260) -/

theorem Core.accessOnly_count (k : Core) (off n : Nat) : k.accessOnly (k.count off n) := rfl

theorem Core.accessOnly_counts (k : Core) (l : List (Nat × Nat)) : k.accessOnly (k.counts l) :=
  List.foldlRecOn (motive := k.accessOnly) l _ rfl (fun x hx p _ => hx.trans (x.accessOnly_count p.1 p.2))

theorem Core.accessOnly_poisonCounts (k : Core) (n st : Nat) : k.accessOnly (k.poisonCounts n st) := rfl

theorem State.onlyCore.cst {s t : State} {c : Nat} (h : s.onlyCore t c) (e : Nat) : t.cst e = s.cst e := by
  have hx := congrArg (fun q : State => q.cst e) h.1
  exact hx

theorem State.onlyCore.mem {s t : State} {c : Nat} (h : s.onlyCore t c) : t.mem = s.mem := by
  have hm := congrArg State.mem h.1
  exact hm

/-- An access operation that a check ends changes its core alone, and of it neither the store nor the caddy's binding. -/
theorem State.accFail_ends (s : State) (c : Nat) (o : Op) (st : Nat) (vals : List Nat) :
    let t := s.accFail c o st vals
    s.onlyCore t c ∧ (s.core c).took (t.core c) .acc o st 16 ∧ (t.core c).store = (s.core c).store ∧ (t.core c).caddy = (s.core c).caddy := by
  refine ⟨State.onlyCore_setCore .., ?_⟩
  unfold State.accFail
  rw [State.core_updCore_self]
  exact ⟨(Core.accessOnly_count ..).took (Core.start_took ..), by simp [Core.start], by simp [Core.start]⟩

/-- A caddy operation that no request failed changes its core alone, and leaves the store. -/
theorem State.caddyStart_unfailed (s : State) (c : Nat) (o : Op) (m : MemRun) (st np z : Nat) (hm : m.fault = none) :
    let t := s.caddyStart c o m st np z
    s.onlyCore t c ∧ (s.core c).took (t.core c) .acc o st (16 + o.cLines + z) ∧ (t.core c).store = (s.core c).store := by
  unfold State.caddyStart
  simp only [hm]
  refine ⟨⟨rfl, fun d hd => ?_⟩, ?_⟩
  · rw [State.core_updCore_ne _ _ _ _ hd, State.core_updCore_ne _ _ _ _ hd]
  · rw [State.core_updCore_self, State.core_updCore_self]
    exact ⟨((Core.accessOnly_counts ..).trans (Core.accessOnly_poisonCounts ..)).took (Core.start_took ..),
      by simp [Core.start, Core.poisonCounts, Core.counts]⟩

/-! ### A stack and its frames (R136, R137) -/

@[simp] theorem CaddySt.stack_setStack_self (x : CaddySt) (k : Nat) (l : List Frame) : (x.setStack k l).stack k = l := mget_mset_self ..

/-- The newest frame of a stack that holds a slot's slice not yet popped, with its index (R136). -/
def poppable (fs : List Frame) (slot : Nat) : Option (Frame × Nat) :=
  (fs.zipIdx.filter (fun p => p.1.pushed.contains slot && !p.1.popped.contains slot)).getLast?

theorem poppable_none (fs : List Frame) (slot : Nat) (h : ∀ f ∈ fs, slot ∉ f.pushed ∨ slot ∈ f.popped) : poppable fs slot = none := by
  rw [poppable, List.getLast?_eq_none_iff, List.filter_eq_nil_iff]
  intro p hp
  rcases h p.1 (List.fst_mem_of_mem_zipIdx hp) with hf | hf <;> simp [hf]

theorem poppable_last (fs : List Frame) (f : Frame) (slot : Nat) (hpush : slot ∈ f.pushed) (hpop : slot ∉ f.popped) :
    poppable (fs ++ [f]) slot = some (f, fs.length) := by
  simp [poppable, List.zipIdx_append, List.filter_append, hpush, hpop]

/-- No frame of a stack lacks a slot's slice. -/
theorem find_unpushed_none (fs : List Frame) (slot : Nat) (h : ∀ f ∈ fs, slot ∈ f.pushed) :
    fs.zipIdx.find? (fun p => !p.1.pushed.contains slot) = none := by
  rw [List.find?_eq_none]
  intro p hp
  simp [h p.1 (List.fst_mem_of_mem_zipIdx hp)]

/-! ### BIND (R128, R134, R135) -/

/-- The first failing check of a BIND. -/
def State.bindStatus (s : State) (o : Op) : Nat :=
  firstFail [(s.caddyEnc o true, 0x25), (!(s.caddyEnt o.cEntry).valid || (!(s.cst o.cEntry).bound && s.caddyBad (s.caddyEnt o.cEntry)), 0x46)]

/-- A caddy's record as a BIND leaves it: the first one clears the statistics. -/
def CaddySt.binds (x : CaddySt) : CaddySt :=
  if x.bound then x else { x with bound := true, pushes := 0, pops := 0, evicted := 0, returned := 0, popWait := 0, highWater := 0 }

theorem execCaddyBind_fails (s : State) (c : CoreIx) (z : Nat) (o : Op) (h : s.caddyOp c.val 0 = some o) (hst : s.bindStatus o ≠ 0) :
    exec (.caddyBind c z) s = .next (s.accFail c.val o (s.bindStatus o) []) := by
  show execCaddyBind c z s = _
  rw [execCaddyBind, h]
  simp only []
  split
  next h0 => exact absurd h0 hst
  next => rfl

/-- A core bound by a BIND of caddy `e`'s record `x` in a slot. -/
def State.bindStart (s : State) (c e slot z : Nat) (o : Op) (x : CaddySt) : State :=
  (s.setCst e x).updCore c (fun k => ({ k with caddy := some (e, slot) }.count 0x118 z).start .acc o s.cycles 0 (16 + z) [] false 0)

theorem execCaddyBind_binds (s : State) (c : CoreIx) (z : Nat) (o : Op) (h : s.caddyOp c.val 0 = some o) (hst : s.bindStatus o = 0) :
    exec (.caddyBind c z) s = .next (s.bindStart c.val o.cEntry (o.f 0 4 6) z o (s.cst o.cEntry).binds) := by
  show execCaddyBind c z s = _
  rw [execCaddyBind, h]
  simp only []
  split
  next => rfl
  next h0 => exact absurd hst h0

theorem State.bindStatus_ok (s : State) (o : Op) (henc : s.caddyEnc o true = false) (hvalid : (s.caddyEnt o.cEntry).valid = true)
    (hgood : (s.cst o.cEntry).bound = true ∨ s.caddyBad (s.caddyEnt o.cEntry) = false) : s.bindStatus o = 0 := by
  rcases hgood with hg | hg <;> simp [State.bindStatus, firstFail, henc, hvalid, hg]

theorem State.bindStatus_invalid (s : State) (o : Op) (henc : s.caddyEnc o true = false) (hvalid : (s.caddyEnt o.cEntry).valid = false) :
    s.bindStatus o = 0x46 := by
  simp [State.bindStatus, firstFail, henc, hvalid]

/-- A binding of a core: its caddy's record and the core's binding, and what stands. -/
theorem State.bindStart_spec (s : State) (c e slot z : Nat) (o : Op) (x : CaddySt) :
    let t := s.bindStart c e slot z o x
    (s.core c).took (t.core c) .acc o 0 (16 + z) ∧ (t.core c).caddy = some (e, slot) ∧ t.cst e = x ∧ (∀ i, i ≠ e → t.cst i = s.cst i)
      ∧ t.mem = s.mem ∧ ∀ d, d ≠ c → t.core d = s.core d := by
  refine ⟨?_, ?_, State.cst_setCst_self s e x, fun i hi => State.cst_setCst_ne s e i x hi, rfl, fun d hd => State.core_updCore_ne (s.setCst e x) c d _ hd⟩
  all_goals rw [State.bindStart, State.core_updCore_self]
  · refine Core.accessOnly.took (x := { s.core c with caddy := some (e, slot) }.count 0x118 z) ?_ (Core.start_took ..)
    exact Core.accessOnly.trans (x := { s.core c with caddy := some (e, slot) }) rfl (Core.accessOnly_count ..)
  · simp [Core.start]

/-- The first BIND of an entry clears its statistics; a later one changes nothing. -/
theorem CaddySt.binds_spec (x : CaddySt) : x.binds.bound = true ∧ x.binds.frames = x.frames ∧ (x.bound = true → x.binds = x)
    ∧ (x.bound = false → x.binds.pushes = 0 ∧ x.binds.pops = 0 ∧ x.binds.evicted = 0 ∧ x.binds.returned = 0 ∧ x.binds.popWait = 0 ∧ x.binds.highWater = 0) := by
  unfold CaddySt.binds
  cases hb : x.bound <;> simp [hb]

/-! ### PUSH (R135 to R137) -/

/-- The first failing check of a PUSH before its stack is looked at. -/
def State.pushStatus (s : State) (c : Nat) (o : Op) : Nat :=
  let en := s.caddyEnt o.cEntry
  firstFail [(s.caddyEnc o false, 0x25), (csOver o.cAddr (64 * o.cLines), 0x21), ((s.boundSlot c o.cEntry).isNone, 0x40),
    (o.cLines == 0 || decide (32768 < o.cLines) || decide (en.hbmLines < en.members * o.cLines), 0x41)]

theorem State.pushStatus_ok (s : State) (c slot : Nat) (o : Op) (henc : s.caddyEnc o false = false) (hcs : csOver o.cAddr (64 * o.cLines) = false)
    (hslot : s.boundSlot c o.cEntry = some slot) (hpos : 0 < o.cLines) (hmax : o.cLines ≤ 32768)
    (hfits : (s.caddyEnt o.cEntry).members * o.cLines ≤ (s.caddyEnt o.cEntry).hbmLines) : s.pushStatus c o = 0 := by
  simp [State.pushStatus, firstFail, henc, hcs, hslot, hfits, hmax, Nat.pos_iff_ne_zero.mp hpos]

theorem State.pushStatus_unbound (s : State) (c : Nat) (o : Op) (henc : s.caddyEnc o false = false) (hcs : csOver o.cAddr (64 * o.cLines) = false)
    (hslot : s.boundSlot c o.cEntry = none) : s.pushStatus c o = 0x40 := by
  simp [State.pushStatus, firstFail, henc, hcs, hslot]

theorem State.pushStatus_empty (s : State) (c slot : Nat) (o : Op) (henc : s.caddyEnc o false = false)
    (hslot : s.boundSlot c o.cEntry = some slot) (hlen : o.cLines = 0) : s.pushStatus c o = 0x41 := by
  simp [State.pushStatus, firstFail, henc, hslot, hlen, csOver]

theorem execCaddyPush_fails (s : State) (c : CoreIx) (z : Nat) (o : Op) (h : s.caddyOp c.val 1 = some o) (hst : s.pushStatus c.val o ≠ 0) :
    exec (.caddyPush c z) s = .next (s.accFail c.val o (s.pushStatus c.val o) []) := by
  show execCaddyPush c z s = _
  rw [execCaddyPush, h]
  simp only []
  split
  next h0 => exact absurd h0 hst
  next => rfl

/-- The frame that a PUSH begins, before any slice is in it (R136). -/
def State.newFrame (s : State) (o : Op) : Frame :=
  let en := s.caddyEnt o.cEntry
  { hbm := takeRuns en.hbmLines (((s.cst o.cEntry).stack o.cStack).flatMap (·.hbm)) (en.members * o.cLines), ddr := [], lines := o.cLines
    tag := BitVec.ofNat 32 (o.f 12 0 32), pushed := [], popped := [], place := .hbm }

/-- The eviction of a frame begun: its copy goes to DDR5's lowest free lines (R137). -/
def State.evict (s : State) (c : Nat) (o : Op) (b : Frame) (i : Nat) : State :=
  let en := s.caddyEnt o.cEntry
  s.startCopy c o.cEntry o.cStack i
    { b with place := .toDdr, ddr := takeRuns en.ddrLines (((s.cst o.cEntry).stack o.cStack).flatMap (·.ddr)) b.size }

/-- A PUSH whose first checks hold, of a core whose slot every frame holds (R136, R137). -/
def State.pushNew (s : State) (c z : Nat) (o : Op) (slot : Nat) : State :=
  let en := s.caddyEnt o.cEntry
  let fs := (s.cst o.cEntry).stack o.cStack
  if en.members * o.cLines ≤ hbmFree en fs then s.pushInto c o slot fs.length z fs (s.newFrame o)
  else if fs.any (fun f => f.place == .toDdr) then s
  else match fs.zipIdx.find? (fun p => p.1.place == .hbm) with
    | none => s
    | some (b, i) => if ddrFree en fs < b.size then s.accFail c o 0x44 [] else s.evict c o b i

theorem execCaddyPush_new (s : State) (c : CoreIx) (z : Nat) (o : Op) (slot : Nat) (h : s.caddyOp c.val 1 = some o) (hst : s.pushStatus c.val o = 0)
    (hslot : s.boundSlot c.val o.cEntry = some slot) (hold : ∀ f ∈ (s.cst o.cEntry).stack o.cStack, slot ∈ f.pushed) :
    exec (.caddyPush c z) s = .next (s.pushNew c.val z o slot) := by
  have hfind := find_unpushed_none _ slot hold
  show execCaddyPush c z s = _
  rw [execCaddyPush, h]
  simp only []
  split
  next =>
    simp only [hslot, Option.getD_some, hfind]
    unfold State.pushNew
    simp only []
    by_cases hroom : (s.caddyEnt o.cEntry).members * o.cLines ≤ hbmFree (s.caddyEnt o.cEntry) ((s.cst o.cEntry).stack o.cStack)
    · rw [if_pos hroom, if_pos hroom]
      rfl
    · rw [if_neg hroom, if_neg hroom]
      cases ((s.cst o.cEntry).stack o.cStack).any (fun f => f.place == .toDdr) with
      | true => rfl
      | false =>
        cases ((s.cst o.cEntry).stack o.cStack).zipIdx.find? (fun p => p.1.place == .hbm) with
        | none => rfl
        | some p => exact (apply_ite Host.Outcome.next _ _ _).symm
  next h0 => exact absurd hst h0

/-! ### POP (R136 to R138) -/

/-- The first failing check of a POP before its stack is looked at. -/
def State.popStatus (s : State) (c : Nat) (o : Op) : Nat :=
  firstFail [(s.caddyEnc o false, 0x25), (csOver o.cAddr (64 * o.cLines), 0x21), ((s.boundSlot c o.cEntry).isNone, 0x40),
    (o.cLines == 0 || decide (32768 < o.cLines), 0x41)]

theorem State.popStatus_ok (s : State) (c slot : Nat) (o : Op) (henc : s.caddyEnc o false = false) (hcs : csOver o.cAddr (64 * o.cLines) = false)
    (hslot : s.boundSlot c o.cEntry = some slot) (hpos : 0 < o.cLines) (hmax : o.cLines ≤ 32768) : s.popStatus c o = 0 := by
  simp [State.popStatus, firstFail, henc, hcs, hslot, hmax, Nat.pos_iff_ne_zero.mp hpos]

theorem State.popStatus_unbound (s : State) (c : Nat) (o : Op) (henc : s.caddyEnc o false = false) (hcs : csOver o.cAddr (64 * o.cLines) = false)
    (hslot : s.boundSlot c o.cEntry = none) : s.popStatus c o = 0x40 := by
  simp [State.popStatus, firstFail, henc, hcs, hslot]

theorem State.popStatus_length (s : State) (c slot : Nat) (o : Op) (henc : s.caddyEnc o false = false) (hcs : csOver o.cAddr (64 * o.cLines) = false)
    (hslot : s.boundSlot c o.cEntry = some slot) (hlen : o.cLines = 0 ∨ 32768 < o.cLines) : s.popStatus c o = 0x41 := by
  simp [State.popStatus, firstFail, henc, hcs, hslot, hlen]

theorem execCaddyPop_fails (s : State) (c : CoreIx) (z : Nat) (o : Op) (h : s.caddyOp c.val 2 = some o) (hst : s.popStatus c.val o ≠ 0) :
    exec (.caddyPop c z) s = .next (s.accFail c.val o (s.popStatus c.val o) []) := by
  show execCaddyPop c z s = _
  rw [execCaddyPop, h]
  simp only []
  split
  next h0 => exact absurd h0 hst
  next => rfl

/-- A POP whose first checks hold, by the frame that it finds (R136, R137). -/
def State.popFound (s : State) (c z : Nat) (o : Op) (slot : Nat) : Option (Frame × Nat) → State
  | none => s.accFail c o 0x42 []
  | some (f, i) =>
    if f.lines ≠ o.cLines ∨ f.tag.toNat ≠ o.f 12 0 32 then s.accFail c o 0x43 []
    else if f.place = .hbm then (s.popWaits c o.cEntry true).popFrom c o slot i z ((s.cst o.cEntry).stack o.cStack) f
    else s.popWaits c o.cEntry false

theorem execCaddyPop_found (s : State) (c : CoreIx) (z : Nat) (o : Op) (slot : Nat) (h : s.caddyOp c.val 2 = some o) (hst : s.popStatus c.val o = 0)
    (hslot : s.boundSlot c.val o.cEntry = some slot) :
    exec (.caddyPop c z) s = .next (s.popFound c.val z o slot (poppable ((s.cst o.cEntry).stack o.cStack) slot)) := by
  show execCaddyPop c z s = _
  rw [execCaddyPop, h]
  simp only []
  split
  next =>
    simp only [hslot, Option.getD_some]
    unfold poppable
    cases (((s.cst o.cEntry).stack o.cStack).zipIdx.filter (fun p => p.1.pushed.contains slot && !p.1.popped.contains slot)).getLast? with
    | none => rfl
    | some p =>
      simp only [State.popFound, apply_ite Host.Outcome.next]
  next h0 => exact absurd hst h0

theorem State.popFound_pops (s : State) (c z : Nat) (o : Op) (slot : Nat) (f : Frame) (i : Nat) (hlines : f.lines = o.cLines)
    (htag : f.tag = BitVec.ofNat 32 (o.f 12 0 32)) (hp : f.place = .hbm) :
    s.popFound c z o slot (some (f, i)) = (s.popWaits c o.cEntry true).popFrom c o slot i z ((s.cst o.cEntry).stack o.cStack) f := by
  simp [State.popFound, hlines, htag, hp, Op.f, bits]

theorem State.popFound_waits (s : State) (c z : Nat) (o : Op) (slot : Nat) (f : Frame) (i : Nat) (hlines : f.lines = o.cLines)
    (htag : f.tag = BitVec.ofNat 32 (o.f 12 0 32)) (hp : f.place ≠ .hbm) :
    s.popFound c z o slot (some (f, i)) = s.popWaits c o.cEntry false := by
  simp [State.popFound, hlines, htag, hp, Op.f, bits]

theorem State.popFound_missing (s : State) (c z : Nat) (o : Op) (slot : Nat) : s.popFound c z o slot none = s.accFail c o 0x42 [] := rfl

theorem State.popFound_mismatch (s : State) (c z : Nat) (o : Op) (slot : Nat) (f : Frame) (i : Nat)
    (h : f.lines ≠ o.cLines ∨ f.tag ≠ BitVec.ofNat 32 (o.f 12 0 32)) : s.popFound c z o slot (some (f, i)) = s.accFail c o 0x43 [] := by
  have htag (ht : f.tag.toNat = o.f 12 0 32) : f.tag = BitVec.ofNat 32 (o.f 12 0 32) := by rw [← ht, BitVec.ofNat_toNat, BitVec.setWidth_eq]
  exact if_pos (h.imp_right (mt htag))

end Sys2Proof.Machine

open Sys2Proof Sys2Proof.Machine

/-- Settles O31: a BIND by its two checks, a PUSH and a POP by the first check that fails or by the frame that a POP finds. -/
theorem caddyBindsAndRefusals : Obligations.CaddyBindsAndRefusals := by
  refine ⟨fun s c z o hop henc => ⟨fun hvalid hgood => ?_, fun hvalid => ?_⟩, fun s c z o => ?_⟩
  · rw [execCaddyBind_binds s c z o hop (s.bindStatus_ok o henc hvalid hgood)]
    obtain ⟨htook, hbinding, hcst, hothers, hmem, hcores⟩ := s.bindStart_spec c.val o.cEntry (o.f 0 4 6) z o (s.cst o.cEntry).binds
    obtain ⟨hbound, hframes, hlater, hfirst⟩ := (s.cst o.cEntry).binds_spec
    rw [← hcst] at hbound hframes hlater hfirst
    exact ⟨_, rfl, htook, hbinding, hbound, hframes, hfirst, hlater, hothers, hmem, hcores⟩
  · have hst := s.bindStatus_invalid o henc hvalid
    obtain ⟨honly, htook, -, hcaddy⟩ := s.accFail_ends c.val o 0x46 []
    rw [execCaddyBind_fails s c z o hop (by rw [hst]; decide), hst]
    exact ⟨_, rfl, honly, htook, hcaddy⟩
  · intro e fs ends henc hcs
    have hends {j : Instr} {st : Nat} (hj : exec j s = .next (s.accFail c.val o st [])) : ends j st := by
      obtain ⟨honly, htook, hstore, -⟩ := s.accFail_ends c.val o st []
      exact ⟨_, hj, honly, htook, hstore⟩
    have hpush {st : Nat} (hop : s.caddyOp c.val 1 = some o) (hne : st ≠ 0) (hst : s.pushStatus c.val o = st) : ends (.caddyPush c z) st :=
      hends (hst ▸ execCaddyPush_fails s c z o hop (hst ▸ hne))
    have hpop {st : Nat} (hop : s.caddyOp c.val 2 = some o) (hne : st ≠ 0) (hst : s.popStatus c.val o = st) : ends (.caddyPop c z) st :=
      hends (hst ▸ execCaddyPop_fails s c z o hop (hst ▸ hne))
    refine ⟨fun hop => ⟨fun hnone => hpush hop (by decide) (s.pushStatus_unbound _ o henc hcs hnone),
        fun slot hslot hlen => hpush hop (by decide) (s.pushStatus_empty _ slot o henc hslot hlen)⟩,
      fun hop => ⟨fun hnone => hpop hop (by decide) (s.popStatus_unbound _ o henc hcs hnone),
        fun slot hslot hlen => hpop hop (by decide) (s.popStatus_length _ slot o henc hcs hslot hlen),
        fun slot hslot hpos hmax hall => hends ?_, fun slot f hslot hpos hmax hfs hin hout hne => hends ?_⟩⟩
    all_goals rw [execCaddyPop_found s c z o slot hop (s.popStatus_ok c.val slot o henc hcs hslot hpos hmax) hslot]
    · rw [show poppable ((s.cst o.cEntry).stack o.cStack) slot = none from poppable_none _ _ hall, State.popFound_missing]
    · rw [show (s.cst o.cEntry).stack o.cStack = [] ++ [f] from hfs, poppable_last _ _ _ hin hout, State.popFound_mismatch _ _ _ _ _ _ _ hne]
end

-- ==== Sys2Proof/Proofs/CaddyPush.lean ====

section
namespace Sys2Proof.Machine

theorem State.requested.cst {s t : State} {c : Nat} (h : s.requested t c) (e : Nat) : t.cst e = s.cst e :=
  congrArg (fun m => mget ({} : CaddySt) m e) h.caddySt

/-! ### Background copies begun (R137) -/

theorem MemRun.leadsTo_copyLines (m : MemRun) (n : Nat) (src dst : Nat → Nat) : m.leadsTo (m.copyLines n src dst) := by
  refine List.foldlRecOn (motive := m.leadsTo) _ _ m.leadsTo_refl (fun q hq i _ => hq.trans ?_)
  have hread := q.leadsTo_read (src i) 64
  simp only []
  split
  · exact hread
  · exact hread.trans (MemRun.leadsTo_write ..)

/-- An operation's requests counted in its core (R261). -/
theorem MemRun.requested_counted (m : MemRun) (c st : Nat) : m.st.requested (m.counted c st) c :=
  State.requested_updCore _ _ _ (Core.accessOnly_counts ..) (by simp [Core.counts])

/-- A copy that begins replaces its frame in the stack; its requests leave the rest, whatever they come to. -/
theorem State.requested_startCopy (s : State) (c e k i : Nat) (f : Frame) :
    (s.setCst e ((s.cst e).setStack k (setAt ((s.cst e).stack k) i f))).requested (s.startCopy c e k i f) c := by
  unfold State.startCopy
  obtain ⟨-, hcopy⟩ := MemRun.leadsTo_copyLines (MemRun.start (s.setCst e ((s.cst e).setStack k (setAt ((s.cst e).stack k) i f))) c 6 []) f.size _ _
  exact hcopy.trans (MemRun.requested_counted ..)

/-- The copy of a stack's only frame begun. -/
theorem State.startCopy_only (s : State) (c e k : Nat) (b f : Frame) (hstack : (s.cst e).stack k = [b]) :
    let t := s.startCopy c e k 0 f
    (t.cst e).stack k = [f] ∧ (s.core c).accessOnly (t.core c) ∧ (t.core c).store = (s.core c).store := by
  have h := s.requested_startCopy c e k 0 f
  refine ⟨?_, h.core, h.store⟩
  rw [h.cst, State.cst_setCst_self, CaddySt.stack_setStack_self, hstack]
  rfl

/-! ### A slice pushed (R136) -/

/-- Where a line of a slot's slice of a frame lies in HBM4 (R134, R136). -/
def State.sliceAt (s : State) (o : Op) (slot : Nat) (f : Frame) (j : Nat) : Nat :=
  (s.caddyEnt o.cEntry).hbmAt o.cStack + 64 * runLine f.hbm (slot * f.lines + j)

theorem MemRun.unfailed.pushLines {s : State} {c : Nat} {m : MemRun} (h : m.unfailed s c) (k : Core) (o : Op) (at_ : Nat → Nat)
    (hx : ∀ i < o.cLines, ∃ pa, s.xlate (at_ i) .plain = .inr (0, pa) ∧ pa + 64 ≤ s.plan.resBase) : (pushLines m k o at_).unfailed s c := by
  refine List.foldlRecOn (motive := MemRun.unfailed s c) _ _ h (fun q hq i hi => ?_)
  obtain ⟨pa, hpa, hbelow⟩ := hx i (List.mem_range.mp hi)
  simp only [hq.fault, Option.isSome_none, Bool.false_eq_true, if_false]
  exact hq.write _ hpa (by simpa [Core.csRead, pmRead] using hbelow)

/-- A slice whose lines all translate is written, and a new frame in HBM4 goes to the end of its stack. -/
theorem State.pushInto_written (s : State) (c z : Nat) (o : Op) (slot : Nat) (fs : List Frame) (f : Frame) (hp : f.place = .hbm)
    (hx : ∀ j < o.cLines, ∃ pa, s.xlate (s.sliceAt o slot f j) .plain = .inr (0, pa) ∧ pa + 64 ≤ s.plan.resBase) :
    ∃ (m : MemRun) (x : CaddySt) (st np : Nat), s.pushInto c o slot fs.length z fs f = (m.st.setCst o.cEntry x).caddyStart c o m st np z ∧ m.unfailed s c
      ∧ x.stack o.cStack = fs ++ [{ f with pushed := f.pushed ++ [slot] }] := by
  have hm := (MemRun.unfailed_start s c 6 []).pushLines (s.core c) o (s.sliceAt o slot f) hx
  unfold State.sliceAt at hm
  unfold State.pushInto
  simp only [hp, reduceCtorEq, if_false, Nat.lt_irrefl, hm.fault, Option.isSome_none, Bool.false_eq_true]
  exact ⟨_, _, _, _, rfl, hm, mget_mset_self ..⟩

/-! ### A push without room (R137) -/

theorem State.pushNew_room (s : State) (c z : Nat) (o : Op) (slot : Nat)
    (h : (s.caddyEnt o.cEntry).members * o.cLines ≤ hbmFree (s.caddyEnt o.cEntry) ((s.cst o.cEntry).stack o.cStack)) :
    s.pushNew c z o slot
      = s.pushInto c o slot ((s.cst o.cEntry).stack o.cStack).length z ((s.cst o.cEntry).stack o.cStack) (s.newFrame o) :=
  if_pos h

/-- A push onto a stack whose only frame lies in HBM4 and leaves no room: DDR5 takes that frame, or has no room for it. -/
theorem State.pushNew_evicts (s : State) (c z : Nat) (o : Op) (slot : Nat) (b : Frame) (hstack : (s.cst o.cEntry).stack o.cStack = [b]) (hp : b.place = .hbm)
    (h : hbmFree (s.caddyEnt o.cEntry) [b] < (s.caddyEnt o.cEntry).members * o.cLines) (hroom : b.size ≤ ddrFree (s.caddyEnt o.cEntry) [b]) :
    s.pushNew c z o slot = s.evict c o b 0 := by
  simp [State.pushNew, hstack, Nat.not_le.mpr h, hp, Nat.not_lt.mpr hroom]

theorem State.pushNew_full (s : State) (c z : Nat) (o : Op) (slot : Nat) (b : Frame) (hstack : (s.cst o.cEntry).stack o.cStack = [b]) (hp : b.place = .hbm)
    (h : hbmFree (s.caddyEnt o.cEntry) [b] < (s.caddyEnt o.cEntry).members * o.cLines) (hfull : ddrFree (s.caddyEnt o.cEntry) [b] < b.size) :
    s.pushNew c z o slot = s.accFail c o 0x44 [] := by
  simp [State.pushNew, hstack, Nat.not_le.mpr h, hp, hfull]

theorem State.evict_only (s : State) (c : Nat) (o : Op) (b : Frame) (hstack : (s.cst o.cEntry).stack o.cStack = [b]) :
    let t := s.evict c o b 0
    (t.cst o.cEntry).stack o.cStack = [{ b with place := .toDdr, ddr := takeRuns (s.caddyEnt o.cEntry).ddrLines b.ddr b.size }]
      ∧ (s.core c).accessOnly (t.core c) ∧ (t.core c).store = (s.core c).store := by
  have h := s.startCopy_only c o.cEntry o.cStack b { b with place := .toDdr, ddr := takeRuns (s.caddyEnt o.cEntry).ddrLines b.ddr b.size } hstack
  have he : s.evict c o b 0
      = s.startCopy c o.cEntry o.cStack 0 { b with place := .toDdr, ddr := takeRuns (s.caddyEnt o.cEntry).ddrLines b.ddr b.size } := by
    simp [State.evict, hstack]
  rwa [← he] at h

end Sys2Proof.Machine

open Sys2Proof Sys2Proof.Machine

/-- Settles O32: with room, the run of write requests that no page stops ends in a new frame; without, the only frame's eviction begins,
or finds DDR5 full. -/
theorem caddyPushNewFrame : Obligations.CaddyPushNewFrame := by
  refine ⟨fun s c z o slot hop henc hcs hslot => ?_, fun s c z o slot b hop henc hcs hslot => ?_⟩
  · intro en n st fs size hpos hmax hroom hold hx
    have hst := s.pushStatus_ok c.val slot o henc hcs hslot hpos hmax (hroom.trans (Nat.sub_le ..))
    rw [execCaddyPush_new s c z o slot hop hst hslot hold, s.pushNew_room c.val z o slot hroom]
    obtain ⟨m, x, e, np, hpush, ⟨hfault, -, hreq, -⟩, hstack⟩ := s.pushInto_written c.val z o slot fs (s.newFrame o) rfl hx
    obtain ⟨honly, htook, hstore⟩ := (m.st.setCst o.cEntry x).caddyStart_unfailed c.val o m e np z hfault
    refine ⟨_, e, { s.newFrame o with pushed := [slot] }, congrArg _ hpush, hreq.core.took htook, hstore.trans hreq.store, ?_,
      rfl, rfl, rfl, rfl, rfl, rfl, fun i hi => ?_, fun d hd => (honly.2 d hd).trans (hreq.others d hd)⟩
    · exact (congrArg (CaddySt.stack · o.cStack) ((honly.cst _).trans (State.cst_setCst_self ..))).trans hstack
    · exact (honly.cst i).trans ((State.cst_setCst_ne m.st o.cEntry i x hi).trans (hreq.cst i))
  · intro en n st hstack hin hp hpos hmax hfits hfull
    have hst := s.pushStatus_ok c.val slot o henc hcs hslot hpos hmax hfits
    have hold : ∀ f ∈ (s.cst o.cEntry).stack o.cStack, slot ∈ f.pushed := by
      rw [show (s.cst o.cEntry).stack o.cStack = [b] from hstack]
      simpa using hin
    rw [execCaddyPush_new s c z o slot hop hst hslot hold]
    refine ⟨fun hroom => ?_, fun hover => ?_⟩
    · rw [s.pushNew_evicts c.val z o slot b hstack hp hfull hroom]
      obtain ⟨hframe, hcore, hstore⟩ := s.evict_only c.val o b hstack
      exact ⟨_, rfl, hcore.queue, hframe, hstore⟩
    · rw [s.pushNew_full c.val z o slot b hstack hp hfull hover]
      obtain ⟨honly, htook, -⟩ := s.accFail_ends c.val o 0x44 []
      exact ⟨_, rfl, honly, htook⟩
end

-- ==== Sys2Proof/Proofs/CaddyPop.lean ====

section
namespace Sys2Proof.Machine

/-! ### A slice popped (R136, R137) -/

/-- Lines read one after another until a request fails, with their bytes. -/
def MemRun.readLines (m : MemRun) (n : Nat) (at_ : Nat → Nat) : MemRun × List PByte :=
  (List.range n).foldl (fun q j => if q.1.fault.isSome then q else ((q.1.read (at_ j) 64).1, q.2 ++ (q.1.read (at_ j) 64).2)) (m, [])

theorem MemRun.readLines_succ (m : MemRun) (n : Nat) (at_ : Nat → Nat) (h : (m.readLines n at_).1.fault = none) :
    m.readLines (n + 1) at_ = (((m.readLines n at_).1.read (at_ n) 64).1, (m.readLines n at_).2 ++ ((m.readLines n at_).1.read (at_ n) 64).2) := by
  unfold MemRun.readLines at h ⊢
  rw [List.range_succ, List.foldl_append, List.foldl_cons, List.foldl_nil, if_neg (by rw [h]; decide)]

/-- Lines that all translate are read in full, and no memory is written. -/
theorem MemRun.unfailed.readLines {s : State} {c : Nat} {m : MemRun} (h : m.unfailed s c) (at_ : Nat → Nat) (n : Nat)
    (hx : ∀ j < n, ∃ pa, s.xlate (at_ j) .read = .inr (0, pa)) :
    (m.readLines n at_).1.unfailed s c ∧ (m.readLines n at_).1.st.mem = m.st.mem ∧ (m.readLines n at_).2.length = 64 * n := by
  induction n with
  | zero => exact ⟨h, rfl, rfl⟩
  | succ n ih =>
    obtain ⟨hq, hmem, hlen⟩ := ih (fun j hj => hx j (Nat.lt_succ_of_lt hj))
    obtain ⟨pa, hpa⟩ := hx n (Nat.lt_succ_self n)
    obtain ⟨hr, hmem', hlen'⟩ := hq.read 64 hpa
    rw [MemRun.readLines_succ _ _ _ hq.fault]
    exact ⟨hr, hmem'.trans hmem, by rw [List.length_append, hlen, hlen']; rfl⟩

/-- The lines of a slot's slice of a frame in HBM4 read. -/
def State.popLines (s : State) (c : Nat) (o : Op) (slot : Nat) (f : Frame) : MemRun × List PByte :=
  (MemRun.start s c 6 []).readLines o.cLines (s.sliceAt o slot f)

/-- What the last member's POP of a stack's newest frame leaves: the bytes read in the core store, the frame gone, POPS counted. -/
def State.popLast (s : State) (c : Nat) (o : Op) (fs : List Frame) (q : MemRun × List PByte) : State :=
  (q.1.st.updCore c (fun k => k.csWrite o.cAddr q.2)).setCst o.cEntry
    { (s.cst o.cEntry).setStack o.cStack fs with pops := sat 32 ((s.cst o.cEntry).pops + 1) }

theorem State.popFrom_last (s : State) (c z : Nat) (o : Op) (slot : Nat) (fs : List Frame) (f : Frame) (h : (s.popLines c o slot f).1.fault = none)
    (hpop : f.popped.length + 1 = (s.caddyEnt o.cEntry).members) :
    ∃ st np : Nat, s.popFrom c o slot fs.length z (fs ++ [f]) f
      = ((s.popLast c o fs (s.popLines c o slot f)).readAhead c o.cEntry o.cStack).caddyStart c o (s.popLines c o slot f).1 st np z := by
  unfold State.popLines MemRun.readLines State.sliceAt at h
  unfold State.popFrom
  simp only [h, Option.isSome_none, Bool.false_eq_true, if_false, List.length_append, List.length_cons, List.length_nil, hpop, if_true]
  rw [List.eraseIdx_append_of_length_le (Nat.le_refl _), Nat.sub_self, List.eraseIdx_cons_zero, List.append_nil]
  exact ⟨_, _, rfl⟩

/-- A core-store write leaves every byte outside its run. -/
theorem Core.csWrite_byteAt (k : Core) (a : Nat) (ds : List PByte) (i : Nat) (h : i < a ∨ a + ds.length ≤ i) : (k.csWrite a ds).byteAt i = k.byteAt i :=
  mget_msetRun_ne _ _ _ _ _ (by simpa using h)

theorem Core.accessOnly_csWrite (k : Core) (a : Nat) (ds : List PByte) : k.accessOnly (k.csWrite a ds) := rfl

theorem State.popLast_core (s : State) (c : Nat) (o : Op) (fs : List Frame) (q : MemRun × List PByte) :
    (s.popLast c o fs q).core c = (q.1.st.core c).csWrite o.cAddr q.2 :=
  State.core_updCore_self q.1.st c (fun k => k.csWrite o.cAddr q.2)

theorem State.popLast_cst (s : State) (c : Nat) (o : Op) (fs : List Frame) (q : MemRun × List PByte) : (s.popLast c o fs q).cst o.cEntry
    = { (s.cst o.cEntry).setStack o.cStack fs with pops := sat 32 ((s.cst o.cEntry).pops + 1) } := State.cst_setCst_self ..

theorem State.popLast_stack (s : State) (c : Nat) (o : Op) (fs : List Frame) (q : MemRun × List PByte) :
    ((s.popLast c o fs q).cst o.cEntry).stack o.cStack = fs := by
  rw [State.popLast_cst]
  exact mget_mset_self ..

/-! ### Read-ahead (R137) -/

theorem State.readAhead_empty (s : State) (c e k : Nat) (h : (s.cst e).stack k = []) : s.readAhead c e k = s := by
  simp [State.readAhead, h]

theorem State.readAhead_only (s : State) (c e k : Nat) (g : Frame) (h : (s.cst e).stack k = [g]) (hp : g.place = .ddr)
    (hroom : g.size ≤ hbmFree (s.caddyEnt e) [g]) :
    s.readAhead c e k = s.startCopy c e k 0 { g with place := .toHbm, hbm := takeRuns (s.caddyEnt e).hbmLines g.hbm g.size } := by
  simp [State.readAhead, h, hp, Nat.not_lt.mpr hroom]

/-! ### The wait of a POP (R138) -/

theorem State.popWaits_core (s : State) (c e : Nat) (goes : Bool) :
    (s.core c).accessOnly ((s.popWaits c e goes).core c) ∧ ((s.popWaits c e goes).core c).store = (s.core c).store := by
  rw [State.popWaits, State.core_updCore_self]
  exact ⟨rfl, rfl⟩

theorem State.popWaits_others (s : State) (c e d : Nat) (goes : Bool) (h : d ≠ c) : (s.popWaits c e goes).core d = s.core d :=
  State.core_updCore_ne _ _ _ _ h

theorem State.popWaits_cst (s : State) (c e : Nat) : (s.popWaits c e false).cst e
    = { s.cst e with popWait := sat 64 ((s.cst e).popWait + (s.cycles + 1 - (s.core c).popWait.getD s.cycles)) } :=
  State.cst_setCst_self ..

/-- A wait counted leaves the stacks and POPS. -/
theorem State.popWaits_stack (s : State) (c e k : Nat) (goes : Bool) :
    ((s.popWaits c e goes).cst e).stack k = (s.cst e).stack k ∧ ((s.popWaits c e goes).cst e).pops = (s.cst e).pops := by
  have h : (s.popWaits c e goes).cst e = _ := State.cst_setCst_self ..
  rw [h]
  exact ⟨rfl, rfl⟩

/-- The last member's POP of a stack's newest frame, all of whose lines translate: the bytes read, then the frame gone. -/
theorem execCaddyPop_last (s : State) (c : CoreIx) (z : Nat) (o : Op) (slot : Nat) (fs : List Frame) (f : Frame) (hop : s.caddyOp c.val 2 = some o)
    (hst : s.popStatus c.val o = 0) (hslot : s.boundSlot c.val o.cEntry = some slot) (hfs : (s.cst o.cEntry).stack o.cStack = fs ++ [f])
    (hin : slot ∈ f.pushed) (hout : slot ∉ f.popped) (hlines : f.lines = o.cLines) (htag : f.tag = BitVec.ofNat 32 (o.f 12 0 32)) (hp : f.place = .hbm)
    (hpop : f.popped.length + 1 = (s.caddyEnt o.cEntry).members) (hx : ∀ j < o.cLines, ∃ pa, s.xlate (s.sliceAt o slot f j) .read = .inr (0, pa)) :
    let w := s.popWaits c.val o.cEntry true
    ∃ (q : MemRun × List PByte) (st np : Nat), exec (.caddyPop c z) s = .next (((w.popLast c.val o fs q).readAhead c.val o.cEntry o.cStack).caddyStart c.val o q.1 st np z)
      ∧ q.1.unfailed w c.val ∧ q.1.st.mem = s.mem ∧ q.2.length = 64 * o.cLines := by
  intro w
  have hxw : ∀ j < o.cLines, ∃ pa, w.xlate (w.sliceAt o slot f j) .read = .inr (0, pa) := hx
  obtain ⟨hq, hmem, hlen⟩ := (MemRun.unfailed_start w c.val 6 []).readLines (w.sliceAt o slot f) o.cLines hxw
  obtain ⟨st, np, hgoes⟩ := w.popFrom_last c.val z o slot fs f hq.fault hpop
  refine ⟨w.popLines c.val o slot f, st, np, ?_, hq, hmem, hlen⟩
  rw [execCaddyPop_found s c z o slot hop hst hslot, hfs, poppable_last _ _ _ hin hout, State.popFound_pops _ _ _ _ _ _ _ hlines htag hp, hfs, hgoes]

/-! ### Background copies ended (R137) -/

theorem execCaddyCopyDone_evicted (s : State) (e : Fin 64) (k : Fin 32) (f : Frame) (hstack : (s.cst e.val).stack k.val = [f]) (hp : f.place = .toDdr) :
    exec (.caddyCopyDone e k) s = .next (s.setCst e.val
      { (s.cst e.val).setStack k.val [{ f with place := .ddr, hbm := [] }] with evicted := sat 32 ((s.cst e.val).evicted + f.size) }) := by
  show execCaddyCopyDone e k s = _
  simp [execCaddyCopyDone, hstack, hp, setAt]

theorem execCaddyCopyDone_returned (s : State) (e : Fin 64) (k : Fin 32) (f : Frame) (hstack : (s.cst e.val).stack k.val = [f]) (hp : f.place = .toHbm) :
    exec (.caddyCopyDone e k) s = .next (s.setCst e.val
      { (s.cst e.val).setStack k.val [{ f with place := .hbm, ddr := [] }] with returned := sat 32 ((s.cst e.val).returned + f.size) }) := by
  show execCaddyCopyDone e k s = _
  simp [execCaddyCopyDone, hstack, hp, setAt]

theorem execCaddyCopyDone_idle (s : State) (e : Fin 64) (k : Fin 32) (f : Frame) (hstack : (s.cst e.val).stack k.val = [f])
    (hp : f.place = .hbm ∨ f.place = .ddr) : exec (.caddyCopyDone e k) s = .next s := by
  show execCaddyCopyDone e k s = _
  rcases hp with hp | hp <;> simp [execCaddyCopyDone, hstack, hp]

end Sys2Proof.Machine

open Sys2Proof Sys2Proof.Machine

/-- Settles O33: a POP by the place of the frame that it finds, with the read-ahead of the frame below; the end of a copy by its
direction. -/
theorem caddyPopsAndCopies : Obligations.CaddyPopsAndCopies := by
  refine ⟨fun s c z o slot f hop henc hcs hslot => ?_, fun s e k f hstack => ⟨fun hp => ?_, fun hp => ?_, fun hp => ?_⟩⟩
  · intro e st n en reads hpos hmax hin hout hlines htag
    have hstatus := s.popStatus_ok c.val slot o henc hcs hslot hpos hmax
    obtain ⟨hwait, hwaitStore⟩ := s.popWaits_core c.val o.cEntry true
    have hread (hx : reads) : ∀ j < o.cLines, ∃ pa, s.xlate (s.sliceAt o slot f j) .read = .inr (0, pa) := by
      unfold State.sliceAt
      rw [hlines]
      exact hx
    refine ⟨fun hstack hp hpop hx => ?_, fun g hstack hp hpop hx hg hroom => ?_, fun hstack hp => ?_⟩
    · obtain ⟨q, x, np, hexec, ⟨hfault, -, hreq, -⟩, hmem, hlen⟩ :=
        execCaddyPop_last s c z o slot [] f hop hstatus hslot hstack hin hout hlines htag hp hpop (hread hx)
      rw [State.readAhead_empty _ _ _ _ (State.popLast_stack ..)] at hexec
      obtain ⟨honly, htook, hstore⟩ := ((s.popWaits c.val o.cEntry true).popLast c.val o [] q).caddyStart_unfailed c.val o q.1 x np z hfault
      have hcst := (honly.cst o.cEntry).trans (State.popLast_cst ..)
      rw [State.popLast_core] at htook hstore
      refine ⟨_, x, hexec, (hwait.trans (hreq.core.trans (Core.accessOnly_csWrite ..))).took htook, ?_, ?_, honly.mem.trans hmem, fun a ha => ?_⟩
      · exact (congrArg (CaddySt.stack · o.cStack) hcst).trans (mget_mset_self ..)
      · obtain ⟨-, hpops⟩ := s.popWaits_stack c.val o.cEntry o.cStack true
        refine (congrArg CaddySt.pops hcst).trans ?_
        show sat 32 (((s.popWaits c.val o.cEntry true).cst o.cEntry).pops + 1) = _
        rw [hpops]
        exact Nat.min_comm ..
      · have hwrite := (q.1.st.core c.val).csWrite_byteAt o.cAddr q.2 a (by rwa [hlen])
        exact (congrArg (mget 0 · a) hstore).trans (hwrite.trans (congrArg (mget 0 · a) (hreq.store.trans hwaitStore)))
    · obtain ⟨q, x, np, hexec, ⟨hfault, -, hreq, -⟩, -, -⟩ :=
        execCaddyPop_last s c z o slot [g] f hop hstatus hslot hstack hin hout hlines htag hp hpop (hread hx)
      have hstack' := (s.popWaits c.val o.cEntry true).popLast_stack c.val o [g] q
      have hcaddy : ((s.popWaits c.val o.cEntry true).popLast c.val o [g] q).caddyEnt o.cEntry = en := congrArg (mget ({} : CaddyEntry) · o.cEntry) hreq.caddy
      obtain ⟨hframe, hcore, -⟩ := State.startCopy_only _ c.val o.cEntry o.cStack g { g with place := .toHbm, hbm := takeRuns en.hbmLines g.hbm g.size } hstack'
      rw [State.readAhead_only _ _ _ _ g hstack' hg (hcaddy ▸ hroom), hcaddy] at hexec
      obtain ⟨honly, htook, -⟩ := State.caddyStart_unfailed _ c.val o q.1 x np z hfault
      rw [State.popLast_core] at hcore
      exact ⟨_, x, hexec, (hwait.trans (hreq.core.trans ((Core.accessOnly_csWrite ..).trans hcore))).took htook,
        (congrArg (CaddySt.stack · st) (honly.cst o.cEntry)).trans hframe⟩
    · have hfound := poppable_last [] f slot hin hout
      rw [execCaddyPop_found s c z o slot hop hstatus hslot, show (s.cst o.cEntry).stack o.cStack = [] ++ [f] from hstack, hfound,
        State.popFound_waits _ _ _ _ _ _ _ hlines htag (by rw [hp]; decide)]
      obtain ⟨hcore, -⟩ := s.popWaits_core c.val o.cEntry false
      exact ⟨_, rfl, (s.popWaits_stack c.val o.cEntry o.cStack false).1.trans hstack, hcore.queue, congrArg CaddySt.popWait (s.popWaits_cst c.val o.cEntry), rfl,
        fun d hd => s.popWaits_others c.val o.cEntry d false hd⟩
  · rw [execCaddyCopyDone_evicted s e k f hstack hp]
    refine ⟨_, rfl, ?_, ?_, rfl⟩ <;> rw [State.cst_setCst_self]
    · exact mget_mset_self ..
    · exact Nat.min_comm ..
  · rw [execCaddyCopyDone_returned s e k f hstack hp]
    refine ⟨_, rfl, ?_, ?_, rfl⟩ <;> rw [State.cst_setCst_self]
    · exact mget_mset_self ..
    · exact Nat.min_comm ..
  · exact execCaddyCopyDone_idle s e k f hstack hp
end

-- ==== Sys2Proof/Proofs/Governor.lean ====

section
namespace Sys2Proof.Machine

/-! ### The rank wanted (R160) -/

theorem Obs.rank_le_two (o : Obs) (f : FmtEntry) (margin k : Nat) : o.rank f margin k ≤ 2 := by
  unfold Obs.rank
  simp only []
  split_ifs <;> decide

/-- A smaller share of elements out of range takes a rank at least as wide. -/
theorem Obs.rank_mono (o : Obs) (f : FmtEntry) (margin : Nat) {k l : Nat} (h : k ≤ l) : o.rank f margin k ≤ o.rank f margin l := by
  have hgrow (x : Nat) : x * 2 ^ k ≤ x * 2 ^ l := Nat.mul_le_mul_left x (Nat.pow_le_pow_right (by decide) h)
  have h4 := hgrow (o.from (clampI (18 - (o.eMax f - f.eRef)) 0 31).toNat)
  have h5 := hgrow (o.from (clampI (31 - (margin : Int) - (o.eMax f - f.eRef)) 0 31).toNat)
  unfold Obs.rank
  simp only []
  split_ifs <;> omega

theorem Numerics.up_le_down (n : Numerics) : n.up ≤ n.down := Nat.le_max_right ..

theorem govWant_nonfinite (f : FmtEntry) (o : Obs) (n : Numerics) (h : 0 < o.nonfinite) : govWant f o n = (2, 0) := if_pos h

section
variable (f : FmtEntry) (o : Obs) (n : Numerics) (h : o.nonfinite = 0)
include h

theorem govWant_widens (hneed : f.choice < o.rank f n.margin n.up) : govWant f o n = (o.rank f n.margin n.up, 0) := by
  simp [govWant, h, hneed]

theorem govWant_stands (hneed : o.rank f n.margin n.up ≤ f.choice) (hcand : f.choice ≤ o.rank f n.margin n.down) :
    govWant f o n = (f.choice, 0) := by
  simp [govWant, h, hneed.not_gt, hcand.not_gt]

theorem govWant_narrows (hneed : o.rank f n.margin n.up ≤ f.choice) (hcand : o.rank f n.margin n.down < f.choice)
    (hhold : max n.holdSteps 1 ≤ f.downCount + 1) : govWant f o n = (o.rank f n.margin n.down, 0) := by
  simp only [govWant, h, lt_irrefl, hneed.not_gt, hcand, hhold, if_true, if_false]

theorem govWant_counts (hneed : o.rank f n.margin n.up ≤ f.choice) (hcand : o.rank f n.margin n.down < f.choice)
    (hhold : f.downCount + 1 < max n.holdSteps 1) : govWant f o n = (f.choice, f.downCount + 1) := by
  simp only [govWant, h, lt_irrefl, hneed.not_gt, hcand, hhold.not_ge, if_true, if_false]

end

/-! ### The format that applies (R161) -/

/-- Searched upwards, the ranks give the lowest that is sought. -/
theorem find?_ranks_up (p : Nat → Bool) (r : Nat) (hr : r ≤ 2) (hp : p r = true) (hlow : ∀ q < r, p q = false) :
    [0, 1, 2].find? p = some r := by
  interval_cases r <;> simp [hp, hlow]

/-- Searched downwards, the ranks give the highest that is sought. -/
theorem find?_ranks_down (p : Nat → Bool) (r : Nat) (hr : r ≤ 2) (hp : p r = true) (hhigh : ∀ q, r < q → q ≤ 2 → p q = false) :
    [2, 1, 0].find? p = some r := by
  interval_cases r <;> simp [hp, hhigh]

section
variable (w : Nat) (allowed : BitVec 3)

theorem govBound_allowed (h : allowed.toNat.testBit w = true) : govBound w allowed = w := if_pos h

theorem govBound_raised (hw : ¬ allowed.toNat.testBit w = true) (r : Nat) (hwr : w < r) (hr : r ≤ 2) (hok : allowed.toNat.testBit r = true)
    (hlow : ∀ q, w < q → q < r → ¬ allowed.toNat.testBit q = true) : govBound w allowed = r := by
  have hfind : [0, 1, 2].find? (fun q => decide (w < q) && allowed.toNat.testBit q) = some r :=
    find?_ranks_up _ r hr (by simp [hwr, hok]) fun q hq => by
      by_cases hwq : w < q
      · simp [hlow q hwq hq]
      · simp [hwq]
  simp only [govBound, hw, hfind, if_false, Bool.false_eq_true]

/-- Where no rank from `w` up is allowed, the search upwards finds none. -/
theorem find?_above_eq_none (h : ∀ q, w ≤ q → q ≤ 2 → ¬ allowed.toNat.testBit q = true) :
    [0, 1, 2].find? (fun q => decide (w < q) && allowed.toNat.testBit q) = none := by
  refine List.find?_eq_none.2 fun q hq hsought => ?_
  obtain ⟨hwq, hok⟩ := Bool.and_eq_true_iff.1 hsought
  have hq2 : q ≤ 2 := by simp at hq; omega
  exact h q (of_decide_eq_true hwq).le hq2 hok

theorem govBound_lowered (hw : w ≤ 2) (r : Nat) (hrw : r < w) (hok : allowed.toNat.testBit r = true)
    (hhigh : ∀ q, r < q → q ≤ 2 → ¬ allowed.toNat.testBit q = true) : govBound w allowed = r := by
  have hfind : [2, 1, 0].find? (fun q => decide (q < w) && allowed.toNat.testBit q) = some r :=
    find?_ranks_down _ r (by omega) (by simp [hrw, hok]) fun q hrq hq => by simp [hhigh q hrq hq]
  have habove := find?_above_eq_none w allowed fun q hwq hq => hhigh q (by omega) hq
  simp only [govBound, hhigh w hrw hw, habove, hfind, if_false, Bool.false_eq_true]

theorem govBound_none (hw : w ≤ 2) (h : ∀ r ≤ 2, ¬ allowed.toNat.testBit r = true) : govBound w allowed = 2 := by
  have hbelow : [2, 1, 0].find? (fun q => decide (q < w) && allowed.toNat.testBit q) = none :=
    List.find?_eq_none.2 fun q hq => by simp [h q (by simp at hq; omega)]
  have habove := find?_above_eq_none w allowed fun q _ hq => h q hq
  simp only [govBound, h w hw, habove, hbelow, if_false, Bool.false_eq_true]

end

theorem FmtEntry.applied_pinned (f : FmtEntry) (w : Nat) (h : f.pin = true) : f.applied w = f.pinFormat := if_pos h

theorem FmtEntry.applied_unpinned (f : FmtEntry) (w : Nat) (h : f.pin = false) : f.applied w = govBound w f.allowed := by
  simp [FmtEntry.applied, h]

/-! ### A decision made (R159, R160) -/

/-- The first element sought is taken out from among the rest. -/
theorem takeFirst_of_first {α : Type} (p : α → Bool) (before after : List α) (x : α) (hb : ∀ q ∈ before, p q = false) (hx : p x = true) :
    takeFirst p (before ++ x :: after) = some (x, before ++ after) := by
  induction before with
  | nil => simp [takeFirst, hx]
  | cons y ys ih =>
    have hrest := ih fun q hq => hb q (List.mem_cons_of_mem y hq)
    simp [takeFirst, hb y List.mem_cons_self, hrest]

/-- A decision goes to the one observation that was closed at its leg. -/
theorem map_decided (before after : List GovPend) (p : GovPend) (d : GovDec) (h : ∀ q ∈ before ++ after, q.closedAt ≠ p.closedAt) :
    (before ++ p :: after).map (fun q => if q.closedAt = p.closedAt then { q with dec := some d } else q)
      = before ++ { p with dec := some d } :: after := by
  have hstand (l : List GovPend) (hl : l ⊆ before ++ after) :
      l.map (fun q => if q.closedAt = p.closedAt then { q with dec := some d } else q) = l :=
    (List.map_congr_left fun q hq => if_neg (h q (hl hq))).trans (List.map_id' l)
  rw [List.map_append, List.map_cons, hstand before (List.subset_append_left ..), hstand after (List.subset_append_right ..), if_pos rfl]

/-- GOV_DECISION with observations that wait: the earliest with no decision gets one, from the entry's state. -/
theorem exec_govDecision_earliest (s : State) (f : Fin 16384) (p : GovPend) (before after : List GovPend)
    (hpend : mget [] s.gov.pend f.val = before ++ p :: after) (hb : ∀ q ∈ before, q.dec ≠ none) (hp : p.dec = none)
    (hleg : ∀ q ∈ before ++ after, q.closedAt ≠ p.closedAt) :
    exec (.govDecision f) s = .next { s with gov := { s.gov with
      pend := mset [] s.gov.pend f.val (before ++ { p with dec := some (govDecide (mget {} s.fmt f.val) p.obs s.num) } :: after) } } := by
  have hfirst := takeFirst_of_first (fun q : GovPend => q.dec.isNone) before after p
    (fun q hq => Option.isNone_eq_false_iff.2 (Option.isSome_iff_ne_none.2 (hb q hq))) (Option.isNone_iff_eq_none.2 hp)
  show execGovDecision f s = _
  simp only [execGovDecision, hpend, hfirst, map_decided before after p _ hleg]

theorem clampI_eq_max_min (v lo hi : Int) (h : lo ≤ hi) : clampI v lo hi = max lo (min hi v) := by
  unfold clampI
  split_ifs <;> omega

/-! ### Waymarks in the event ring (R51, R477) -/

/-- The recorder takes every waymark: enabled, not full, and its event ring wraps. -/
def Recorder.takesAll (r : Recorder) : Prop := r.eventEn = true ∧ r.ringFull = false ∧ r.wrap = true

/-- A waymark offered to a recorder that takes all is in its ring, and the recorder goes on taking all. -/
theorem Recorder.takesAll.record {r : Recorder} (h : r.takesAll) (w : Waymark) :
    (r.record w).takesAll ∧ ∃ i, (i, { w with seq := r.seq, dropBefore := r.dropFlag }) ∈ (r.record w).ring := by
  obtain ⟨hen, hfull, hwrap⟩ := h
  refine ⟨?_, r.nextIx % r.slots, ?_⟩ <;> simp [Recorder.record, Recorder.takesAll, hen, hfull, hwrap]

/-- What a waymark of the module, no FAULT, comes to: one record of its kind and payload. -/
theorem State.mark_trace (s : State) (k ca g u p : Nat) (hk : k ≠ 0x12) :
    ∃ w : Waymark, w.kind = k ∧ w.payload = BitVec.ofNat 64 p ∧ (s.mark k ca g u p).trace = s.trace.record w := by
  refine ⟨_, ?_, ?_, congrArg State.trace (if_neg fun h => hk h.1)⟩ <;> rfl

/-- A state that differs from another in the recorder alone still does so after a waymark. -/
theorem State.mark_only_of {s t : State} (h : { t with trace := s.trace } = s) (k ca g u p : Nat) : { t.mark k ca g u p with trace := s.trace } = s := by
  have hmark := congrArg (fun q : State => { q with trace := s.trace }) (t.markAt_only t.time.now k ca g t.coord u
    (if g = 0 ∧ k ≥ 0x11 then 0 else t.jobOf g) t.legNow p)
  exact hmark.trans h

/-- POLICY_ID, the new format and the one before it, in a governor waymark's payload (R166). -/
theorem govPayload_fields (f new prev : Nat) (late low : Bool) :
    let x := (BitVec.ofNat 64 (govPayload f new prev late low)).toNat
    x / 2 ^ 60 = 2 ∧ x / 2 ^ 8 % 4 = new % 4 ∧ x / 2 ^ 4 % 4 = prev % 4 := by
  simp only [govPayload, at', BitVec.toNat_ofNat]
  omega

/-! ### A decision taking effect (R160, R161, R166) -/

/-- A Format Table entry after a decision: the choice, the counts, the scale and the format that applies. -/
def FmtEntry.decided (e : FmtEntry) (d : GovDec) : FmtEntry :=
  { e with
    choice := d.want, downCount := d.downCount, eRef := d.eRef, scaleExp := d.scaleExp, amaxLast := d.amax
    observed := min (2 ^ 24 - 1) (e.observed + 1), current := e.applied d.want }

/-- The state with the decision entered in the Format Table and no waymark yet. -/
def State.govEnter (s : State) (f : Nat) (d : GovDec) : State := { s with fmt := mset {} s.fmt f ((mget {} s.fmt f : FmtEntry).decided d) }

/-- That state with the POLICY_CONFLICT waymark of a format that is not the wanted one. -/
def State.govConflict (s : State) (f : Nat) (d : GovDec) : State :=
  let e : FmtEntry := mget {} s.fmt f
  let a := e.applied d.want
  if a ≠ d.want then (s.govEnter f d).mark 0x14 0 0 mcUnit (govPayload f a d.want false (!e.pin)) else s.govEnter f d

theorem State.govApply_eq (s : State) (f : Nat) (d : GovDec) :
    let e : FmtEntry := mget {} s.fmt f
    let a := e.applied d.want
    s.govApply f d = if a ≠ e.current then (s.govConflict f d).mark 0x13 0 0 mcUnit (govPayload f a e.current false false) else s.govConflict f d := by
  simp only [State.govApply, State.govConflict, State.govEnter, FmtEntry.decided, sat, Nat.min_comm]

/-- A decision that takes effect changes its entry and the recorder alone. -/
theorem State.govApply_only (s : State) (f : Nat) (d : GovDec) : { s.govApply f d with trace := s.trace } = s.govEnter f d := by
  have hconflict : { s.govConflict f d with trace := s.trace } = s.govEnter f d := by
    unfold State.govConflict
    simp only []
    split
    · exact State.mark_only_of (s := s.govEnter f d) rfl ..
    · rfl
  rw [State.govApply_eq]
  split
  · exact State.mark_only_of (s := s.govEnter f d) hconflict ..
  · exact hconflict

/-- A decision whose format is the wanted one and already in use records nothing. -/
theorem State.govApply_quiet (s : State) (f : Nat) (d : GovDec) (hwant : (mget {} s.fmt f : FmtEntry).applied d.want = d.want)
    (hcur : (mget {} s.fmt f : FmtEntry).applied d.want = (mget {} s.fmt f : FmtEntry).current) : (s.govApply f d).trace = s.trace := by
  rw [State.govApply_eq, if_neg (not_not.2 hcur), State.govConflict, if_neg (not_not.2 hwant)]
  rfl

theorem State.govConflict_takesAll (s : State) (f : Nat) (d : GovDec) (h : s.trace.takesAll) : (s.govConflict f d).trace.takesAll := by
  unfold State.govConflict
  simp only []
  split
  · obtain ⟨w, -, -, htrace⟩ := (s.govEnter f d).mark_trace 0x14 0 0 mcUnit
      (govPayload f ((mget {} s.fmt f : FmtEntry).applied d.want) d.want false (!(mget {} s.fmt f : FmtEntry).pin)) (by decide)
    rw [htrace]
    exact (Recorder.takesAll.record h w).1
  · exact h

/-- A change of the format in use leaves a POLICY waymark in a ring that takes all. -/
theorem State.govApply_policy (s : State) (f : Nat) (d : GovDec) (h : s.trace.takesAll)
    (hcur : (mget {} s.fmt f : FmtEntry).applied d.want ≠ (mget {} s.fmt f : FmtEntry).current) :
    ∃ i w, (i, w) ∈ (s.govApply f d).trace.ring ∧ w.kind = 0x13
      ∧ w.payload = BitVec.ofNat 64 (govPayload f ((mget {} s.fmt f : FmtEntry).applied d.want) (mget {} s.fmt f : FmtEntry).current false false) := by
  rw [State.govApply_eq, if_pos hcur]
  obtain ⟨w, hkind, hpayload, htrace⟩ := (s.govConflict f d).mark_trace 0x13 0 0 mcUnit
    (govPayload f ((mget {} s.fmt f : FmtEntry).applied d.want) (mget {} s.fmt f : FmtEntry).current false false) (by decide)
  rw [htrace]
  obtain ⟨-, i, hmem⟩ := (s.govConflict_takesAll f d h).record w
  exact ⟨i, _, hmem, hkind, hpayload⟩

end Sys2Proof.Machine

open Sys2Proof Sys2Proof.Machine

/-- Settles O34: the rank wanted by the branches of R160, with thresholds that order the two ranks; the format that applies by the pin
and by the searches up and down of R161. -/
theorem governorChoosesFormat : Obligations.GovernorChoosesFormat := by
  refine ⟨fun f o n => ?_, fun f w hw => ⟨f.applied_pinned w, fun hpin => ?_⟩⟩
  · exact ⟨govWant_nonfinite f o n, govWant_widens f o n, govWant_stands f o n, govWant_narrows f o n, govWant_counts f o n,
      o.rank_mono f n.margin n.up_le_down, o.rank_le_two ..⟩
  · simp only [f.applied_unpinned w hpin]
    exact ⟨govBound_allowed w f.allowed, govBound_raised w f.allowed, govBound_lowered w f.allowed hw, govBound_none w f.allowed hw⟩

/-- Settles O35: a decision by the first observation that waits for one; its effect by the one entry that it writes and by the waymarks
that follow, of which POLICY is the last. -/
theorem governorDecidesAndApplies : Obligations.GovernorDecidesAndApplies := by
  refine ⟨fun s f p before after hpend hb hp hleg => ?_, fun s f d => ?_⟩
  · exact ⟨_, _, exec_govDecision_earliest s f p before after hpend hb hp hleg, mget_mset_self .., rfl, rfl, rfl,
      clampI_eq_max_min _ _ _ (by decide), rfl, fun i hi => mget_mset_ne _ _ _ _ _ hi⟩
  · intro e a t
    have honly := s.govApply_only f d
    have hfmt : t.fmt = mset {} s.fmt f (e.decided d) := congrArg State.fmt honly
    refine ⟨?_, fun i hi => ?_, (congrArg State.cores honly :), (congrArg State.mem honly :), (congrArg State.groups honly :),
      s.govApply_quiet f d, fun hen hfull hwrap _ hcur => ?_⟩
    · rw [hfmt, mget_mset_self]
      rfl
    · rw [hfmt, mget_mset_ne _ _ _ _ _ hi]
    · obtain ⟨i, w, hin, hkind, hpayload⟩ := s.govApply_policy f d ⟨hen, hfull, hwrap⟩ hcur
      refine ⟨i, w, hin, hkind, ?_⟩
      rw [hpayload]
      exact govPayload_fields ..
end

-- ==== Sys2Proof/Proofs/CleanStore.lean ====

section
namespace Sys2Proof.Machine

/-! ### Runs of a bank -/

theorem mgetRun_append {α : Type} (d : α) (b : Mem α) (a m n : Nat) : mgetRun d b a (m + n) = mgetRun d b a m ++ mgetRun d b (a + m) n := by
  simp [mgetRun, List.range_add, Nat.add_assoc]

/-- Runs of `w` values, one after another, are one run. -/
theorem flatMap_mgetRun {α : Type} (d : α) (b : Mem α) (a w n : Nat) :
    (List.range n).flatMap (fun e => mgetRun d b (a + e * w) w) = mgetRun d b a (n * w) := by
  induction n with
  | zero => simp [mgetRun]
  | succ n ih => rw [List.range_succ, List.flatMap_append, ih, Nat.succ_mul, mgetRun_append, List.flatMap_singleton]

@[simp] theorem length_mgetRun {α : Type} (d : α) (b : Mem α) (a n : Nat) : (mgetRun d b a n).length = n := by simp [mgetRun]

/-! ### Bytes of numbers -/

@[simp] theorem length_leBytes (n x : Nat) : (leBytes n x).length = n := by
  induction n generalizing x with
  | zero => rfl
  | succ n ih => simp [leBytes, ih]

theorem leBytes_leNat (l : List Byte) : leBytes l.length (leNat l) = l := by
  induction l with
  | nil => rfl
  | cons b r ih =>
    have hlow : BitVec.ofNat 8 (b.toNat + 256 * leNat r) = b := BitVec.eq_of_toNat_eq (by simp [Nat.mod_eq_of_lt b.isLt])
    have hrest : (b.toNat + 256 * leNat r) / 256 = leNat r := by have := b.isLt; omega
    rw [List.length_cons, leNat, leBytes, hlow, hrest, ih]

theorem le_lineUp (n : Nat) : n ≤ lineUp n := (cdiv_mul_bounds n 64 (by decide)).1

/-! ### A core store without poison (R240, R366, R367) -/

/-- Bytes without poison. -/
def cleanBytes (l : List Byte) : List PByte := l.map (fun b => (b, false))

section
variable {k : Core} (hk : k.storePoison = [])
include hk

theorem Core.csRead_clean (a n : Nat) : k.csRead a n = cleanBytes (mgetRun 0 k.store a n) := by
  simp [Core.csRead, pmRead, hk, mget, mgetRun, cleanBytes]

theorem Core.csPoisoned_clean (a n : Nat) : k.csPoisoned a n = 0 := by
  simp [Core.csPoisoned, hk, mget]

theorem Core.csNat_clean (a n : Nat) : k.csNat a n = leNat (mgetRun 0 k.store a n) := by
  simp [Core.csNat, Core.csRead_clean hk, cleanBytes, Function.comp_def]

theorem Core.leBytes_csNat (a n : Nat) : leBytes n (k.csNat a n) = mgetRun 0 k.store a n := by
  simpa [Core.csNat_clean hk] using leBytes_leNat (mgetRun 0 k.store a n)

/-- Elements of `w` bytes, taken in order, give back the bytes that hold them. -/
theorem Core.flatMap_leBytes_csNat (a w n : Nat) :
    (List.range n).flatMap (fun e => leBytes w (k.csNat (a + e * w) w)) = mgetRun 0 k.store a (n * w) := by
  simp only [Core.leBytes_csNat hk, flatMap_mgetRun]

theorem Core.flatMap_cleanBytes_csNat (a w n : Nat) :
    (List.range n).flatMap (fun e => cleanBytes (leBytes w (k.csNat (a + e * w) w))) = cleanBytes (mgetRun 0 k.store a (n * w)) := by
  rw [← Core.flatMap_leBytes_csNat hk]
  exact List.map_flatMap.symm

theorem Core.csWrite_storePoison (a : Nat) (l : List Byte) : (k.csWrite a (cleanBytes l)).storePoison = [] := by
  have hclear (w : Nat) : poisonAfter (mget false k.storePoison w) w a (cleanBytes l) = false := by
    have hmine : ∀ x ∈ (cleanBytes l).zipIdx a, x.1.2 = false := fun x hx => by
      have hx' := List.fst_mem_of_mem_zipIdx hx
      simp only [cleanBytes, List.mem_map] at hx'
      obtain ⟨b, -, hb⟩ := hx'
      rw [← hb]
    simp only [poisonAfter, hk, mget]
    rw [if_neg (by simp only [List.any_eq_true, List.mem_filter]; rintro ⟨x, ⟨hx, -⟩, hp⟩; simp [hmine x hx] at hp)]
    split <;> rfl
  refine iter_induction (fun q : Mem Bool => q = []) _ _ _ hk (fun i q hq => ?_)
  rw [hclear, hq]
  rfl

end

theorem Core.csWrite_store (k : Core) (a : Nat) (l : List Byte) : (k.csWrite a (cleanBytes l)).store = msetRun 0 k.store a l := by
  simp [Core.csWrite, pmWrite, cleanBytes, Function.comp_def]

/-- Two clean ranges that hold the same bytes hold the same number. -/
theorem Core.csNat_congr {k k' : Core} (hk : k.storePoison = []) (hk' : k'.storePoison = []) (a a' n : Nat)
    (h : ∀ i < n, k'.byteAt (a' + i) = k.byteAt (a + i)) : k'.csNat a' n = k.csNat a n := by
  have hrun : mgetRun 0 k'.store a' n = mgetRun 0 k.store a n := List.map_congr_left fun i hi => h i (List.mem_range.mp hi)
  rw [Core.csNat_clean hk, Core.csNat_clean hk', hrun]

theorem Core.csNat_of_store {k k' : Core} (hstore : k'.store = k.store) (hpoison : k'.storePoison = k.storePoison) (a n : Nat) :
    k'.csNat a n = k.csNat a n := by simp only [Core.csNat, Core.csRead, hstore, hpoison]

/-- A byte written within a run. -/
theorem Core.csWrite_byteAt_mid (k : Core) (d : Nat) (before mid after : List Byte) (j : Nat) (hj : j < mid.length) :
    (k.csWrite d (cleanBytes (before ++ (mid ++ after)))).byteAt (d + before.length + j) = mid[j] := by
  have hlen : before.length + j < (before ++ (mid ++ after)).length := by simp only [List.length_append]; omega
  rw [Core.byteAt, Core.csWrite_store, Nat.add_assoc, mget_msetRun_mem _ _ _ _ _ hlen]
  simp [List.getElem_append_right, List.getElem_append_left, hj]

/-- Elements of a clean store written elsewhere, between `before` and `after`, read there in their order. -/
theorem Core.csNat_csWrite_elements {k : Core} (hk : k.storePoison = []) (d src w n : Nat) (before after : List Byte) (e : Nat) (he : e < n) :
    (k.csWrite d (cleanBytes (before ++ (mgetRun 0 k.store src (n * w) ++ after)))).csNat (d + before.length + e * w) w
      = k.csNat (src + e * w) w := by
  refine Core.csNat_congr hk (Core.csWrite_storePoison hk _ _) _ _ _ fun i hi => ?_
  have hin : e * w + i < (mgetRun 0 k.store src (n * w)).length := by
    have hmul : (e + 1) * w ≤ n * w := Nat.mul_le_mul_right w he
    rw [Nat.succ_mul] at hmul
    rw [length_mgetRun]
    omega
  have hbyte := k.csWrite_byteAt_mid d before (mgetRun 0 k.store src (n * w)) after (e * w + i) hin
  rw [Nat.add_assoc (d + before.length), hbyte]
  simp [mgetRun, Core.byteAt, Nat.add_assoc]

end Sys2Proof.Machine
end

-- ==== Sys2Proof/Proofs/MergeCourse.lean ====

section
namespace Sys2Proof.Machine

/-! ### The course of a merge operation (R193, R213, R215) -/

theorem State.onlyCore.trans {s t u : State} {c : Nat} (h : s.onlyCore t c) (g : t.onlyCore u c) : s.onlyCore u c :=
  ⟨(congrArg (fun q : State => { q with cores := s.cores }) g.1).trans h.1, fun d hd => (g.2 d hd).trans (h.2 d hd)⟩

/-- An operation that wrote no line of a post or of the checker owns none. -/
theorem State.ownLines_none (s : State) (c id : Nat) : s.ownLines s.lnk.postLines.length s.chk.queue.length c id = s := by
  simp [State.ownLines]

theorem State.mergeCmd_head (s : State) (c opc z : Nat) (o : Op) (run : Op → MergeOut) (h : s.head c .merge opc = some o) :
    s.mergeCmd c opc z anyOp run = .next (s.mergeStart c o z (run o)) := by
  simp [State.mergeCmd, h, anyOp]

/-- A merge operation that changed its core alone, and of it the store and counters: it runs, to end with its status, and leaves the
store that it wrote. -/
theorem State.mergeStart_runs (s : State) (c : Nat) (o : Op) (z : Nat) (m : MergeOut) (honly : s.onlyCore m.st c)
    (hcore : (s.core c).accessOnly (m.st.core c)) :
    let t := s.mergeStart c o z m
    s.onlyCore t c ∧ (s.core c).took (t.core c) .merge o m.status (m.cycles + if m.cycles = 12 ∧ m.status ≠ 0 then 0 else z)
      ∧ (t.core c).pot = (s.core c).pot ∧ (t.core c).planes = (s.core c).planes ∧ (∃ r ∈ (t.core c).running .merge, r.vals.head? = some m.count)
      ∧ (t.core c).store = (m.st.core c).store ∧ (t.core c).storePoison = (m.st.core c).storePoison := by
  have hlnk : m.st.lnk = s.lnk := (congrArg State.lnk honly.1 :)
  have hchk : m.st.chk = s.chk := (congrArg State.chk honly.1 :)
  intro t
  have ht : t = _ := State.mergeStart.eq_def ..
  rw [← hlnk, ← hchk, State.ownLines_none] at ht
  set k1 := m.st.core c
  set k2 := (k1.counts [(0x98, m.rows), (0xD0, if m.cycles = 12 ∧ m.status ≠ 0 then 0 else z)]).poisonCounts m.poison m.status with hk2
  have hk : k1.accessOnly k2 := (Core.accessOnly_counts ..).trans (Core.accessOnly_poisonCounts ..)
  have hstart : t.core c = k2.start .merge o s.cycles m.status (m.cycles + if m.cycles = 12 ∧ m.status ≠ 0 then 0 else z) [m.count, m.pos]
      m.waitHost 0 := by rw [ht, State.core_updCore_self]
  obtain ⟨-, -, ⟨r, hr, hrun⟩, -, -, hstore, hpoison, hpot, hplanes, -⟩ :=
    k2.start_spec .merge o s.cycles m.status (m.cycles + if m.cycles = 12 ∧ m.status ≠ 0 then 0 else z) [m.count, m.pos] m.waitHost 0
  have hsame := hcore.trans hk
  rw [hstart]
  refine ⟨honly.trans (by rw [ht]; exact State.onlyCore_setCore ..), hsame.took (Core.start_took ..), hpot.trans (hsame.same Core.pot),
    hplanes.trans (hsame.same Core.planes), ⟨r, hr, by rw [hrun]; rfl⟩, hstore.trans ?_, hpoison.trans ?_⟩
  · simp [hk2, Core.poisonCounts, Core.counts]
  · simp [hk2, Core.poisonCounts, Core.counts]

/-- What the work of a merge operation on core `c` leaves where it completes: the core `x`, which differs in its store and its counters
alone, status OK, its own cycles and the count of R213. -/
structure State.leaves (s : State) (c : Nat) (m : MergeOut) (cycles count : Nat) (x : Core) : Prop where
  only : s.onlyCore m.st c
  core : m.st.core c = x
  keeps : (s.core c).accessOnly x
  status : m.status = 0
  cycles : m.cycles = cycles
  count : m.count = count

/-- A merge command whose operation completes: it runs to end OK, and its core's store is the one that its work left. -/
theorem State.mergeCmd_completes {s : State} {c opc : Nat} {o : Op} {run : Op → MergeOut} {cycles count : Nat} {x : Core} (z : Nat)
    (hhead : s.head c .merge opc = some o) (h : s.leaves c (run o) cycles count x) :
    ∃ t, s.mergeCmd c opc z anyOp run = .next t ∧ s.onlyCore t c ∧ (s.core c).took (t.core c) .merge o 0 (cycles + z)
      ∧ (t.core c).pot = (s.core c).pot ∧ (t.core c).planes = (s.core c).planes ∧ (∃ r ∈ (t.core c).running .merge, r.vals.head? = some count)
      ∧ (t.core c).store = x.store ∧ (t.core c).storePoison = x.storePoison := by
  obtain ⟨honly, htook, hpot, hplanes, hrun, hstore, hpoison⟩ := s.mergeStart_runs c o z (run o) h.only (by rw [h.core]; exact h.keeps)
  rw [h.status, h.cycles, if_neg (fun hz => hz.2 rfl)] at htook
  rw [h.count] at hrun
  rw [h.core] at hstore hpoison
  exact ⟨_, s.mergeCmd_head c opc z o run hhead, honly, htook, hpot, hplanes, hrun, hstore, hpoison⟩

end Sys2Proof.Machine
end

-- ==== Sys2Proof/Proofs/SparseTiles.lean ====

section
namespace Sys2Proof.Machine

/-! ### Fields and ranges -/

/-- A list of zero fields without its second, which is zero too. -/
theorem Op.zeros_second (o : Op) {p q : Nat × Nat × Nat} {l : List (Nat × Nat × Nat)} (h : o.zeros (p :: q :: l) = true) :
    o.f q.1 q.2.1 q.2.2 = 0 ∧ o.zeros (p :: l) = true := by
  simp only [Op.zeros, List.all_cons, Bool.and_eq_true, beq_iff_eq] at h ⊢
  obtain ⟨hp, hq, hl⟩ := h
  exact ⟨hq, hp, hl⟩

theorem csOver_zero (a : Nat) : csOver a 0 = false := by simp [csOver]

theorem overlaps_zero (a n b : Nat) : overlaps a n b 0 = false := by simp [overlaps]

/-! ### A tile packed with its escape forced (R185 to R188) -/

/-- The row-major elements of a tile, each of `w` bytes, packed from an address. -/
def Core.elements (k : Core) (a w n : Nat) : List Nat := (List.range n).map (fun e => k.csNat (a + e * w) w)

theorem Core.flatMap_elements {k : Core} (hk : k.storePoison = []) (a w n : Nat) : (k.elements a w n).flatMap (leBytes w) = mgetRun 0 k.store a (n * w) := by
  rw [Core.elements, List.flatMap_map, Core.flatMap_leBytes_csNat hk]

/-- A tile whose escape is forced: a header of one line, the bytes of the elements in order, and zeros to the end of the last line. -/
theorem packTile_escaped (esz rows cols : Nat) (es : List Nat) :
    ∃ head tail : List Byte, head.length = 64 ∧ tail.length = lineUp (rows * cols * esizeBytes esz) - (es.flatMap (leBytes (esizeBytes esz))).length
      ∧ (packTile esz rows cols 1 es).1 = head ++ (es.flatMap (leBytes (esizeBytes esz)) ++ tail) := by
  refine ⟨?head, List.replicate (lineUp (rows * cols * esizeBytes esz) - _) 0, ?length, List.length_replicate, ?bytes⟩
  case bytes =>
    simp only [packTile, if_true, tileLd, Nat.add_sub_cancel_left]
    rfl
  case length => simp

/-- The core after a clean tile is packed with its escape forced. -/
def Core.packed (k : Core) (esz rows cols a d : Nat) : Core :=
  let t := packTile esz rows cols 1 (k.elements a (esizeBytes esz) (rows * cols))
  (k.csWrite d (cleanBytes t.1)).count 0x90 (b2n t.2)

section
variable {k : Core} (hk : k.storePoison = []) (esz rows cols a d : Nat)

theorem Core.accessOnly_packed : k.accessOnly (k.packed esz rows cols a d) := (Core.accessOnly_csWrite ..).trans (Core.accessOnly_count ..)

include hk

/-- What is packed: the bytes of the source after a header of one line, up to whole lines. -/
theorem Core.packed_store : ∃ head tail : List Byte, head.length = 64 ∧ head.length + (rows * cols * esizeBytes esz + tail.length) = tileLd rows cols (esizeBytes esz)
    ∧ let x := k.csWrite d (cleanBytes (head ++ (mgetRun 0 k.store a (rows * cols * esizeBytes esz) ++ tail)))
      (k.packed esz rows cols a d).store = x.store ∧ (k.packed esz rows cols a d).storePoison = x.storePoison := by
  obtain ⟨head, tail, hhead, htail, htile⟩ := packTile_escaped esz rows cols (k.elements a (esizeBytes esz) (rows * cols))
  rw [Core.flatMap_elements hk] at htail htile
  rw [length_mgetRun] at htail
  have hfits := le_lineUp (rows * cols * esizeBytes esz)
  refine ⟨head, tail, hhead, by rw [tileLd]; omega, ?_⟩
  rw [Core.packed, htile]
  exact ⟨rfl, rfl⟩

theorem Core.packed_csNat (e : Nat) (he : e < rows * cols) :
    (k.packed esz rows cols a d).csNat (d + 64 + e * esizeBytes esz) (esizeBytes esz) = k.csNat (a + e * esizeBytes esz) (esizeBytes esz) := by
  obtain ⟨head, tail, hhead, -, hstore, hpoison⟩ := Core.packed_store hk esz rows cols a d
  rw [Core.csNat_of_store hstore hpoison, ← hhead]
  exact Core.csNat_csWrite_elements hk d a (esizeBytes esz) (rows * cols) head tail e he

theorem Core.packed_byteAt (i : Nat) (hi : i < d ∨ d + tileLd rows cols (esizeBytes esz) ≤ i) : (k.packed esz rows cols a d).byteAt i = k.byteAt i := by
  obtain ⟨head, tail, -, hlen, hstore, -⟩ := Core.packed_store hk esz rows cols a d
  rw [Core.byteAt, hstore]
  exact k.csWrite_byteAt d _ i (by simpa [cleanBytes, hlen] using hi)

end

/-! ### The dense form of an escaped tile (R187, R208) -/

/-- An escaped tile holds every element, in order, after its header (R187). -/
theorem Core.nth_tileSrc_escaped (k : Core) (a sz rows cols ne blocks e : Nat) (he : e < rows * cols) :
    nth none (k.tileSrc a sz rows cols ne true blocks) e = some (a + 64 + e * sz) := by
  simp [nth, Core.tileSrc, he]

/-- The core after a clean escaped tile is decoded to its dense form: the bytes after the header, copied. -/
def Core.decoded (k : Core) (a d n : Nat) : Core := k.csWrite d (cleanBytes (mgetRun 0 k.store (a + 64) n))

theorem Core.decoded_csNat {k : Core} (hk : k.storePoison = []) (a d w n e : Nat) (he : e < n) :
    (k.decoded a d (n * w)).csNat (d + e * w) w = k.csNat (a + 64 + e * w) w := by
  have h := Core.csNat_csWrite_elements hk d (a + 64) w n [] [] e he
  simpa [Core.decoded] using h

theorem Core.decoded_byteAt (k : Core) (a d n i : Nat) (hi : i < d ∨ d + n ≤ i) : (k.decoded a d n).byteAt i = k.byteAt i :=
  k.csWrite_byteAt d _ i (by simpa [cleanBytes] using hi)

/-! ### What the three operations leave (R178 to R182, R187 to R189) -/

/-- No mask kept and target 1: some pair of slots is chosen for every column (R180). -/
theorem chooseSlots_derived_one (n split : Nat) (mask : Nat → Nat × Nat) (vals : Nat → List Val) : chooseSlots false 1 n split mask vals ≠ none := by
  simp [chooseSlots]

section
variable (s : State) (c : Nat) (o : Op) (hk : (s.core c).storePoison = [])
include hk

theorem State.bitmapPackGo_forced (rows cols sz d : Nat) (hrows : rows = o.f 0 8 8 + 1) (hcols : cols = o.f 0 0 8 + 1) (hsz : sz = esizeBytes (o.f 0 22 2))
    (hd : d = 64 * o.f 8 0 15) (hzeros : o.zeros [(0, 18, 4), (4, 15, 17), (8, 15, 17), (0xC, 0, 32)] = true) (hesz : o.f 0 22 2 ≠ 3) (hforce : o.f 0 16 2 = 1)
    (hsrc : csOver (64 * o.f 4 0 15) (rows * cols * sz) = false) (hdst : csOver d (tileLd rows cols sz) = false)
    (hapart : overlaps (64 * o.f 4 0 15) (rows * cols * sz) d (tileLd rows cols sz) = false) :
    s.leaves c (s.bitmapPackGo c o) (12 + 2 * cdiv (rows * cols * sz) 64) (rows * cols) ((s.core c).packed (o.f 0 22 2) rows cols (64 * o.f 4 0 15) d) := by
  have hgo : s.bitmapPackGo c o = { st := s.setCore c ((s.core c).packed (o.f 0 22 2) rows cols (64 * o.f 4 0 15) d), status := 0
                                    cycles := 12 + 2 * cdiv (rows * cols * sz) 64, count := rows * cols, pos := posNone, rows := 0, poison := 0, waitHost := false } := by
    unfold State.bitmapPackGo
    subst hrows hcols hsz hd
    simp [hzeros, hforce, hsrc, hdst, hapart, hesz, firstFail, Core.csPoisoned_clean hk, withPoison, Core.packed, Core.elements, cleanBytes]
  rw [hgo]
  exact ⟨State.onlyCore_setCore .., State.core_setCore_self .., Core.accessOnly_packed .., rfl, rfl, rfl⟩

theorem State.bitmapDecodeGo_escaped (h rows cols sz d : Nat) (hh : h = (s.core c).csNat (64 * o.f 4 0 15) 64) (hrows : rows = fld h 0 8 8 + 1)
    (hcols : cols = fld h 0 0 8 + 1) (hsz : sz = esizeBytes (o.f 0 22 2)) (hd : d = 64 * o.f 8 0 15)
    (hzeros : o.zeros [(0, 0, 20), (0, 20, 2), (4, 31, 1), (4, 15, 1), (8, 31, 1), (8, 15, 1), (0xC, 0, 32)] = true) (hesc : fld h 0 31 1 = 1)
    (hsame : fld h 0 29 2 = o.f 0 22 2) (hesz : o.f 0 22 2 ≠ 3) (hblocks : popCount 256 (fld h 0x10 0 256) = fld h 8 16 16)
    (hlen : 64 * fld h 8 0 16 = tileLd rows cols sz) (hsrc : csOver (64 * o.f 4 0 15) (tileLd rows cols sz) = false)
    (hdst : csOver d (rows * cols * sz) = false) (hapart : overlaps (64 * o.f 4 0 15) (tileLd rows cols sz) d (rows * cols * sz) = false) :
    s.leaves c (s.bitmapDecodeGo c o) (12 + fld h 8 0 16 + cdiv (rows * cols * sz) 64) (fld h 4 0 32)
      ((s.core c).decoded (64 * o.f 4 0 15) d (rows * cols * sz)) := by
  obtain ⟨hform, hfields⟩ := o.zeros_second hzeros
  have hline : csOver (64 * o.f 4 0 15) 64 = false := by simp [csOver, tileLd] at hsrc ⊢; omega
  have hlines : max 1 (fld h 8 0 16) = fld h 8 0 16 := by simp only [tileLd] at hlen; omega
  have hgo : s.bitmapDecodeGo c o = { st := s.setCore c ((s.core c).decoded (64 * o.f 4 0 15) d (rows * cols * sz)), status := 0
                                      cycles := 12 + fld h 8 0 16 + cdiv (rows * cols * sz) 64, count := fld h 4 0 32, pos := posNone, rows := 0, poison := 0, waitHost := false } := by
    unfold State.bitmapDecodeGo
    subst hd
    simp [← hh, ← hrows, ← hcols, hfields, hform, hline, hesc, hsame, ← hsz, hesz, hblocks, hlines, hlen, hsrc, hdst, hapart, firstFail, anyOver,
      anyOverlap, rangeHit, withPoison, Core.csPoisoned_clean hk]
    rw [Core.decoded, ← Core.flatMap_cleanBytes_csNat hk]
    refine congrArg (fun l => s.setCore c ((s.core c).csWrite _ l)) (List.flatMap_congr fun e he => ?_)
    rw [Core.nth_tileSrc_escaped (he := List.mem_range.mp he)]
    simp [Core.csRead_clean hk, cleanBytes]
  rw [hgo]
  exact ⟨State.onlyCore_setCore .., State.core_setCore_self .., Core.accessOnly_csWrite .., rfl, rfl, rfl⟩

/-- LAX lets an overfull group pass, no mask leaves nothing outside it, and target 1 needs no search, so that no free value is drawn. -/
theorem State.compressGo_lax (n gs rb : Nat) (hn : n = o.f 4 0 9) (hgs : gs = o.f 0 0 7) (hrb : rb = rowBytes (o.f 0 16 4) n)
    (hzeros : o.zeros [(0, 7, 9), (0, 23, 1), (4, 25, 7), (4, 9, 7), (8, 31, 1), (8, 15, 1), (0xC, 15, 17)] = true)
    (hlax : o.f 0 22 1 = 1) (htarget : o.f 0 20 2 = 1) (hformat : o.f 0 16 4 < 8) (hgs0 : 0 < gs) (hgs64 : gs ≤ 64) (hn0 : 0 < n) (hn256 : n ≤ 256)
    (hsplit : o.f 4 16 9 ≤ n) (hsrc : csOver (64 * o.f 8 0 15) (4 * gs * rb) = false)
    (hdst : csOver (64 * o.f 0xC 0 15) (lineUp (2 * gs * rb) + lineUp (cdiv (4 * gs * n) 8)) = false)
    (hapart : overlaps (64 * o.f 8 0 15) (4 * gs * rb) (64 * o.f 0xC 0 15) (lineUp (2 * gs * rb) + lineUp (cdiv (4 * gs * n) 8)) = false) :
    ∃ x, s.leaves c (s.compressGo c o) (12 + 2 * cdiv (4 * gs * rb) 64) (gs * n) x ∧ ∀ a < 64 * o.f 0xC 0 15, x.byteAt a = (s.core c).byteAt a := by
  obtain ⟨hmask, hfields⟩ := o.zeros_second hzeros
  have hwidth : (if o.f 4 16 9 = 0 then n else o.f 4 16 9) ≤ n := by split <;> omega
  subst hn hgs hrb
  generalize hm : s.compressGo c o = m
  revert hm
  unfold State.compressGo
  extract_lets k keepM lax target wf gs n split mA a d rb vB iB outB srcB rs w el vals mix mask cells nzs overfull outside badIx slots np f search s1 one st
    slot gp padTo rows ix
  have hkeep : keepM = false := by simp [keepM, hmask]
  have hone : target = 1 := htarget
  have hchecks : firstFail [(!o.zeros [(0, 7, 9), (4, 25, 7), (4, 9, 7), (8, 31, 1), (8, 15, 1), (0xC, 15, 17)], 0x52),
      (target == 0 || target == 3 || decide (8 ≤ wf) || gs == 0 || decide (64 < gs) || n == 0 || decide (256 < n) || decide (n < split), 0x4A),
      (anyOver rs, 0x51), (anyOverlap rs, 0x54)] = 0 := by
    have hover : anyOver rs = false := by simp [anyOver, rs, hkeep, a, srcB, d, outB, gs, rb, vB, iB, n, wf, hsrc, hdst, csOver_zero]
    have hoverlap : anyOverlap rs = false := by simp [anyOverlap, rangeHit, rs, hkeep, a, srcB, d, outB, gs, rb, vB, iB, n, wf, hapart, overlaps_zero]
    have hshape : ¬ 8 ≤ wf ∧ gs ≠ 0 ∧ ¬ 64 < gs ∧ n ≠ 0 ∧ ¬ 256 < n ∧ ¬ n < split :=
      ⟨hformat.not_ge, hgs0.ne', hgs64.not_gt, hn0.ne', hn256.not_gt, hwidth.not_gt⟩
    simp [firstFail, hfields, hone, hshape, hover, hoverlap]
  have hst : st = 0 := by
    simp [st, firstFail, badIx, hkeep, lax, hlax, outside, slots, hone, chooseSlots_derived_one]
  have hs1 : s1 = s.updCore c (fun x => x.counts [(0x78, overfull), (0x80, outside)]) := by simp [s1, hone]
  have hnp : np = 0 := by simp [np, hkeep, k, Core.csPoisoned_clean hk]
  have hsearch : search = 0 := by simp [search, hone]
  rw [hchecks, hst, hs1, hnp]
  simp only [ne_eq, not_true_eq_false, if_false]
  rintro rfl
  refine ⟨(k.counts [(0x78, overfull), (0x80, outside)]).csWrite d (padTo (lineUp vB) rows ++ padTo (lineUp iB) ix), ⟨?_, ?_, ?_, rfl, ?_, rfl⟩,
    fun b hb => (Core.csWrite_byteAt _ _ _ _ (.inl hb)).trans rfl⟩
  · exact (State.onlyCore_setCore ..).trans (State.onlyCore_setCore ..)
  · rw [State.core_updCore_self, State.core_updCore_self]
  · exact (Core.accessOnly_counts ..).trans (Core.accessOnly_csWrite ..)
  · simp only [one, hsearch, srcB, gs, rb, n, wf]
    omega

end

end Sys2Proof.Machine

open Sys2Proof Sys2Proof.Machine

/-- Settles O26: each of the three operations leaves its core with its output written and completes; of a tile packed or decoded the
elements are the source's, since a store without poison gives back the bytes that it holds. -/
theorem sparseAndBitmapComplete : Obligations.SparseAndBitmapComplete := by
  intro s c z o hk k
  refine ⟨fun n gs rb hn hgs hrb hhead hzeros hlax htarget hformat hgs0 hgs64 hn0 hn256 hsplit hsrc hdst hapart => ?_,
    fun rows cols sz d hrows hcols hsz hd hhead hzeros hesz hforce hsrc hdst hapart => ?_,
    fun h rows cols sz d hh hrows hcols hsz hd hhead hzeros hesc hsame hesz hblocks hlen hsrc hdst hapart => ?_⟩
  · obtain ⟨x, hleaves, hbelow⟩ := s.compressGo_lax c.val o hk n gs rb hn hgs hrb hzeros hlax htarget hformat hgs0 hgs64 hn0 hn256 hsplit hsrc hdst hapart
    obtain ⟨t, hexec, honly, htook, hpot, hplanes, hrun, hstore, -⟩ := State.mergeCmd_completes z hhead hleaves
    exact ⟨t, hexec, honly, htook, hpot, hplanes, hrun, fun a ha => (congrArg (mget 0 · a) hstore).trans (hbelow a ha)⟩
  · have hleaves := s.bitmapPackGo_forced c.val o hk rows cols sz d hrows hcols hsz hd hzeros hesz hforce hsrc hdst hapart
    obtain ⟨t, hexec, honly, htook, hpot, -, hrun, hstore, hpoison⟩ := State.mergeCmd_completes z hhead hleaves
    subst hsz
    exact ⟨t, hexec, honly, htook, hpot, hrun, fun e he => (Core.csNat_of_store hstore hpoison ..).trans (Core.packed_csNat hk _ _ _ _ _ e he),
      fun a ha => (congrArg (mget 0 · a) hstore).trans (Core.packed_byteAt hk _ _ _ _ _ a ha)⟩
  · have hleaves := s.bitmapDecodeGo_escaped c.val o hk h rows cols sz d hh hrows hcols hsz hd hzeros hesc hsame hesz hblocks hlen hsrc hdst hapart
    obtain ⟨t, hexec, honly, htook, hpot, -, hrun, hstore, hpoison⟩ := State.mergeCmd_completes z hhead hleaves
    exact ⟨t, _, hexec, honly, htook, hpot, hrun, fun e he => (Core.csNat_of_store hstore hpoison ..).trans (Core.decoded_csNat hk _ _ _ _ e he),
      fun a ha => (congrArg (mget 0 · a) hstore).trans (Core.decoded_byteAt _ _ _ _ a ha)⟩
end

-- ==== Sys2Proof/Proofs/StoreWords.lean ====

section
namespace Sys2Proof.Machine

/-! ### Lists of blocks of one length -/

theorem length_flatMap_blocks {α β : Type} {f : α → List β} {w : Nat} (hw : ∀ x, (f x).length = w) (l : List α) : (l.flatMap f).length = w * l.length := by
  simp [List.length_flatMap, hw, Nat.mul_comm]

/-- Entry `j` of block `i`. -/
theorem getElem?_flatMap_blocks {α β : Type} {f : α → List β} {w : Nat} (hw : ∀ x, (f x).length = w) (l : List α) (i j : Nat) (hj : j < w) :
    (l.flatMap f)[i * w + j]? = l[i]?.bind (fun x => (f x)[j]?) := by
  induction l generalizing i with
  | nil => simp
  | cons x r ih =>
    rw [List.flatMap_cons]
    cases i with
    | zero => simp [List.getElem?_append_left (show j < (f x).length by rwa [hw])]
    | succ i =>
      have hskip : (i + 1) * w + j = (f x).length + (i * w + j) := by rw [hw, Nat.succ_mul]; omega
      rw [hskip, List.getElem?_append_right (Nat.le_add_right ..), Nat.add_sub_cancel_left, ih]
      rfl

theorem nth_eq_of_getElem? {α : Type} {d x : α} {l : List α} {i : Nat} (h : l[i]? = some x) : nth d l i = x := by
  rw [nth, List.getD_eq_getElem?_getD, h, Option.getD_some]

theorem nth_eq_getElem {α : Type} (d : α) (l : List α) (i : Nat) (h : i < l.length) : nth d l i = l[i] := nth_eq_of_getElem? (List.getElem?_eq_getElem h)

/-! ### A word as four bytes -/

@[simp] theorem length_bytesOf (w : PWord) : (bytesOf w).length = 4 := by simp [bytesOf]

theorem length_flatMap_bytesOf (ws : List PWord) : (ws.flatMap bytesOf).length = 4 * ws.length := length_flatMap_blocks length_bytesOf ws

theorem leNat_leBytes (n x : Nat) : leNat (leBytes n x) = x % 256 ^ n := by
  induction n generalizing x with
  | zero => simp [leBytes, leNat, Nat.mod_one]
  | succ n ih =>
    rw [leBytes, leNat, ih, Nat.pow_succ, Nat.mul_comm (256 ^ n) 256, Nat.mod_mul]
    simp

theorem wordOf_bytesOf (w : PWord) : wordOf (bytesOf w) = w := by
  have hval : leNat ((bytesOf w).map (·.1)) = w.1.toNat := by
    simp [bytesOf, Function.comp_def, leNat_leBytes, Nat.mod_eq_of_lt w.1.isLt]
  have hpoison : (bytesOf w).any (·.2) = w.2 := by simp [bytesOf, leBytes]
  rw [wordOf, hval, hpoison, BitVec.ofNat_toNat, BitVec.setWidth_eq]

/-! ### Whole words written (R240, R367) -/

/-- Of words written from word `m` up, the bytes that fall in word `w` are those of the word written there. -/
theorem filter_zipIdx_words (ws : List PWord) (m i : Nat) :
    ((ws.flatMap bytesOf).zipIdx (4 * m)).filter (fun q => q.2 / 4 == m + i) = (ws[i]?.toList.flatMap bytesOf).zipIdx (4 * (m + i)) := by
  have hword (x : PWord) (n : Nat) (q : PByte × Nat) (hq : q ∈ (bytesOf x).zipIdx (4 * n)) : q.2 / 4 = n := by
    have hq' := List.mem_zipIdx hq
    rw [length_bytesOf] at hq'
    omega
  have hall (x : PWord) (n : Nat) : ((bytesOf x).zipIdx (4 * n)).filter (fun q => q.2 / 4 == n) = (bytesOf x).zipIdx (4 * n) :=
    List.filter_eq_self.mpr fun q hq => by simp [hword x n q hq]
  have hnone (x : PWord) (n i : Nat) (hi : n ≠ i) : ((bytesOf x).zipIdx (4 * n)).filter (fun q => q.2 / 4 == i) = [] :=
    List.filter_eq_nil_iff.mpr fun q hq => by simp [hword x n q hq, hi]
  have hlater (ws : List PWord) (n i : Nat) (hi : i < n) : ((ws.flatMap bytesOf).zipIdx (4 * n)).filter (fun q => q.2 / 4 == i) = [] :=
    List.filter_eq_nil_iff.mpr fun q hq => by have := List.le_snd_of_mem_zipIdx hq; simp; omega
  induction ws generalizing m i with
  | nil => simp
  | cons x r ih =>
    rw [List.flatMap_cons, List.zipIdx_append, List.filter_append, length_bytesOf, show 4 * m + 4 = 4 * (m + 1) by omega]
    cases i with
    | zero => simp [hall, hlater r (m + 1) m (Nat.lt_succ_self m)]
    | succ i => rw [hnone x m _ (by omega), List.nil_append, show m + (i + 1) = m + 1 + i by omega, ih, List.getElem?_cons_succ]

/-- A word written whole takes the poison of what is written, and any other keeps its own. -/
theorem poisonAfter_words (old : Bool) (ws : List PWord) (m i : Nat) : poisonAfter old (m + i) (4 * m) (ws.flatMap bytesOf) = (ws[i]?).elim old (·.2) := by
  unfold poisonAfter
  rw [filter_zipIdx_words]
  cases ws[i]? with
  | none => simp
  | some x => rcases x with ⟨v, _ | _⟩ <;> simp [bytesOf, leBytes]

theorem Core.csWords_poison_mem (k : Core) (m : Nat) (ws : List PWord) (i : Nat) (hi : i < ws.length) :
    mget false (k.csWords (4 * m) ws).storePoison (m + i) = ws[i].2 := by
  have hlen := length_flatMap_bytesOf ws
  unfold Core.csWords Core.csWrite pmWrite
  rw [show 4 * m / 4 = m by omega, hlen, if_neg (by simp [← List.length_eq_zero_iff, hlen]; omega)]
  refine iter_sets (mget false · (m + i)) _ _ _ i _ (by omega) (fun x => ?_) (fun j _ hj x => mget_mset_ne _ _ _ _ _ (by omega))
  rw [mget_mset_self, poisonAfter_words, List.getElem?_eq_getElem hi]
  rfl

theorem Core.csWords_poison_ne (k : Core) (m : Nat) (ws : List PWord) (w : Nat) (hw : w < m ∨ m + ws.length ≤ w) :
    mget false (k.csWords (4 * m) ws).storePoison w = mget false k.storePoison w := by
  have hlen := length_flatMap_bytesOf ws
  unfold Core.csWords Core.csWrite pmWrite
  rw [show 4 * m / 4 = m by omega, hlen]
  refine iter_keeps (mget false · w) _ _ _ (fun j hj x => mget_mset_ne _ _ _ _ _ ?_)
  split at hj
  next => omega
  next hsome =>
    rw [List.isEmpty_iff_length_eq_zero, hlen] at hsome
    omega

theorem Core.csWords_byteAt (k : Core) (a : Nat) (ws : List PWord) (i : Nat) (h : i < a ∨ a + 4 * ws.length ≤ i) : (k.csWords a ws).byteAt i = k.byteAt i :=
  k.csWrite_byteAt a _ i (by rwa [length_flatMap_bytesOf])

/-! ### Words read (R240) -/

theorem Core.byteAt_of_store {k k' : Core} (hstore : k'.store = k.store) (a : Nat) : k'.byteAt a = k.byteAt a := congrArg (mget 0 · a) hstore

/-- A word is read the same where its bytes and its poison stand. -/
theorem Core.csWord_congr {k k' : Core} {a : Nat} (ha : 4 ∣ a) (hpoison : mget false k'.storePoison (a / 4) = mget false k.storePoison (a / 4))
    (hbytes : ∀ j < 4, k'.byteAt (a + j) = k.byteAt (a + j)) : k'.csWord a = k.csWord a := by
  rw [Core.csWord, Core.csWord, Core.csRead, Core.csRead, pmRead, pmRead]
  refine congrArg wordOf (List.map_congr_left fun j hj => ?_)
  have hj' : j < 4 := List.mem_range.mp hj
  have hb : mget 0 k'.store (a + j) = mget 0 k.store (a + j) := hbytes j hj'
  rw [show (a + j) / 4 = a / 4 by omega, hpoison, hb]

theorem Core.csWord_of_store {k k' : Core} (hstore : k'.store = k.store) (hpoison : k'.storePoison = k.storePoison) (a : Nat) : k'.csWord a = k.csWord a := by
  simp only [Core.csWord, Core.csRead, hstore, hpoison]

theorem Core.csWord_clean {k : Core} (hk : k.storePoison = []) (a : Nat) : (k.csWord a).2 = false := by
  simp [Core.csWord, Core.csRead_clean hk, wordOf, cleanBytes]

/-- A word without poison, written, reads back. -/
theorem Core.csWord_csWords_mem (k : Core) {a : Nat} (ha : 4 ∣ a) (ws : List PWord) (i : Nat) (hi : i < ws.length) (hclean : ws[i].2 = false) :
    (k.csWords a ws).csWord (a + 4 * i) = ws[i] := by
  obtain ⟨m, rfl⟩ := ha
  have hread : (k.csWords (4 * m) ws).csRead (4 * m + 4 * i) 4 = bytesOf ws[i] := by
    refine List.ext_getElem (by simp [Core.csRead, pmRead]) fun j _ hj => ?_
    have hblock := getElem?_flatMap_blocks length_bytesOf ws i j (by simpa using hj)
    rw [List.getElem?_eq_getElem hi, Option.bind_some, List.getElem?_eq_getElem hj] at hblock
    obtain ⟨hin, hval⟩ := List.getElem?_eq_some_iff.mp hblock
    rw [length_bytesOf] at hj
    have hbyte : mget 0 (k.csWords (4 * m) ws).store (4 * m + 4 * i + j) = ((bytesOf ws[i])[j]'(by simpa using hj)).1 := by
      rw [Nat.add_assoc, Nat.mul_comm 4 i, ← hval]
      exact (mget_msetRun_mem 0 _ k.store (4 * m) (i * 4 + j) (by rwa [List.length_map])).trans (by rw [List.getElem_map])
    have hpoison : ((bytesOf ws[i])[j]'(by simpa using hj)).2 = ws[i].2 := by simp [bytesOf]
    simp only [Core.csRead, pmRead, List.getElem_map, List.getElem_range, show (4 * m + 4 * i + j) / 4 = m + i by omega,
      Core.csWords_poison_mem k m ws i hi, hclean, Bool.false_eq_true, if_false, hbyte]
    exact Prod.ext rfl (hclean.symm.trans hpoison.symm)
  rw [Core.csWord, hread, wordOf_bytesOf]

theorem Core.csWord_csWords_ne (k : Core) {a b : Nat} (ha : 4 ∣ a) (hb : 4 ∣ b) (ws : List PWord) (h : b + 4 ≤ a ∨ a + 4 * ws.length ≤ b) :
    (k.csWords a ws).csWord b = k.csWord b := by
  obtain ⟨m, rfl⟩ := ha
  exact Core.csWord_congr hb (k.csWords_poison_ne m ws _ (by omega)) (fun j hj => k.csWords_byteAt _ ws _ (by omega))

/-! ### Runs of words -/

@[simp] theorem Core.length_csRun (k : Core) (a n : Nat) : (k.csRun a n).length = n := by simp [Core.csRun]

@[simp] theorem Core.getElem_csRun (k : Core) (a n i : Nat) (h : i < (k.csRun a n).length) : (k.csRun a n)[i] = k.csWord (a + 4 * i) := by simp [Core.csRun]

theorem Core.nth_csRun (k : Core) (d : PWord) (a n i : Nat) (hi : i < n) : nth d (k.csRun a n) i = k.csWord (a + 4 * i) := by
  rw [nth_eq_getElem _ _ _ (by simpa using hi), Core.getElem_csRun]

theorem Core.csRun_clean {k : Core} (hk : k.storePoison = []) (a n : Nat) : ∀ w ∈ k.csRun a n, w.2 = false := by
  simp [Core.csRun, Core.csWord_clean hk]

theorem poisoned_clean {l : List PWord} (h : ∀ w ∈ l, w.2 = false) : poisoned l = 0 := by
  simpa [poisoned] using h

/-- Words without poison, written, read back. -/
theorem Core.csRun_csWords (k : Core) {a : Nat} (ha : 4 ∣ a) (ws : List PWord) (hclean : ∀ w ∈ ws, w.2 = false) : (k.csWords a ws).csRun a ws.length = ws :=
  List.ext_getElem (by simp) fun i _ hi => by rw [Core.getElem_csRun, k.csWord_csWords_mem ha ws i hi (hclean _ (List.getElem_mem hi))]

theorem Core.csRun_of_store {k k' : Core} (hstore : k'.store = k.store) (hpoison : k'.storePoison = k.storePoison) (a n : Nat) : k'.csRun a n = k.csRun a n :=
  List.map_congr_left fun _ _ => Core.csWord_of_store hstore hpoison _

theorem Core.csRun_csWords_ne (k : Core) {a b : Nat} (ha : 4 ∣ a) (hb : 4 ∣ b) (ws : List PWord) (n : Nat) (h : b + 4 * n ≤ a ∨ a + 4 * ws.length ≤ b) :
    (k.csWords a ws).csRun b n = k.csRun b n :=
  List.map_congr_left fun i hi => k.csWord_csWords_ne ha (by omega) ws (by have := List.mem_range.mp hi; omega)

end Sys2Proof.Machine
end

-- ==== Sys2Proof/Proofs/SegSortCompact.lean ====

section
namespace Sys2Proof.Machine

/-! ### A stable sort (R204) -/

theorem insertBy_perm {α : Type} (key : α → Nat) (x : α) (l : List α) : (insertBy key x l).Perm (x :: l) := by
  induction l with
  | nil => exact List.Perm.refl _
  | cons y r ih =>
    rw [insertBy]
    split
    · exact List.Perm.refl _
    · exact (ih.cons y).trans (List.Perm.swap x y r)

theorem insertBy_rises {α : Type} (key : α → Nat) (x : α) (l : List α) (h : l.Pairwise (fun a b => key a ≤ key b)) :
    (insertBy key x l).Pairwise (fun a b => key a ≤ key b) := by
  induction l with
  | nil => exact List.pairwise_singleton _ _
  | cons y r ih =>
    obtain ⟨hy, hr⟩ := List.pairwise_cons.mp h
    rw [insertBy]
    split
    next hlt =>
      refine List.pairwise_cons.mpr ⟨fun z hz => ?_, h⟩
      rcases List.mem_cons.mp hz with rfl | hz
      · exact hlt.le
      · exact hlt.le.trans (hy z hz)
    next hge =>
      refine List.pairwise_cons.mpr ⟨fun z hz => ?_, ih hr⟩
      rcases List.mem_cons.mp ((insertBy_perm key x r).mem_iff.mp hz) with rfl | hz
      · exact Nat.le_of_not_lt hge
      · exact hy z hz

/-- An element goes behind those of its key. -/
theorem filter_insertBy {α : Type} (key : α → Nat) (x : α) (l : List α) (h : l.Pairwise (fun a b => key a ≤ key b)) (n : Nat) :
    (insertBy key x l).filter (fun y => key y == n) = l.filter (fun y => key y == n) ++ [x].filter (fun y => key y == n) := by
  induction l with
  | nil => rfl
  | cons y r ih =>
    obtain ⟨hy, hr⟩ := List.pairwise_cons.mp h
    rw [insertBy]
    split
    next hlt =>
      by_cases hx : key x = n
      · have hnone : (y :: r).filter (fun y => key y == n) = [] := List.filter_eq_nil_iff.mpr fun z hz => by
          have hz' : key x < key z := by
            rcases List.mem_cons.mp hz with rfl | hz
            · exact hlt
            · exact hlt.trans_le (hy z hz)
          simpa using (hx ▸ hz').ne'
        rw [List.filter_cons, hnone]
        simp [hx]
      · simp [hx, List.filter_cons]
    next => rw [List.filter_cons, List.filter_cons, ih hr]; split <;> rfl

theorem sortBy_append {α : Type} (key : α → Nat) (l : List α) (x : α) : sortBy key (l ++ [x]) = insertBy key x (sortBy key l) := by
  simp [sortBy]

theorem sortBy_perm {α : Type} (key : α → Nat) (l : List α) : (sortBy key l).Perm l := by
  induction l using List.reverseRecOn with
  | nil => exact List.Perm.refl _
  | append_singleton l x ih =>
    rw [sortBy_append]
    exact ((insertBy_perm key x _).trans (ih.cons x)).trans (List.perm_append_singleton x l).symm

theorem sortBy_rises {α : Type} (key : α → Nat) (l : List α) : (sortBy key l).Pairwise (fun a b => key a ≤ key b) := by
  induction l using List.reverseRecOn with
  | nil => exact List.Pairwise.nil
  | append_singleton l x ih => rw [sortBy_append]; exact insertBy_rises key x _ ih

theorem sortBy_stable {α : Type} (key : α → Nat) (l : List α) (n : Nat) : (sortBy key l).filter (fun x => key x == n) = l.filter (fun x => key x == n) := by
  induction l using List.reverseRecOn with
  | nil => rfl
  | append_singleton l x ih => rw [sortBy_append, filter_insertBy key x _ (sortBy_rises key l), ih, List.filter_append]

/-! ### Pairs of words -/

/-- The words of pairs, in order. -/
def flatPairs (l : List (PWord × PWord)) : List PWord := l.flatMap (fun p => [p.1, p.2])

@[simp] theorem length_flatPairs (l : List (PWord × PWord)) : (flatPairs l).length = 2 * l.length := length_flatMap_blocks (w := 2) (fun _ => rfl) l

theorem pairWords_flatPairs (l : List (PWord × PWord)) : pairWords (flatPairs l) = l := by
  induction l with
  | nil => rfl
  | cons p r ih => exact congrArg (p :: ·) ih

theorem flatPairs_pairWords (n : Nat) (l : List PWord) (h : l.length = 2 * n) : flatPairs (pairWords l) = l := by
  induction n generalizing l with
  | zero => rw [List.length_eq_zero_iff.mp h]; rfl
  | succ n ih =>
    match l with
    | [] => simp at h
    | [_] => simp only [List.length_singleton] at h; omega
    | a :: b :: r => exact congrArg (fun q => a :: b :: q) (ih r (by simp at h; omega))

theorem length_pairWords (n : Nat) (l : List PWord) (h : l.length = 2 * n) : (pairWords l).length = n := by
  have hlen := length_flatPairs (pairWords l)
  rw [flatPairs_pairWords n l h] at hlen
  omega

theorem forall_mem_flatPairs {P : PWord → Prop} {l : List (PWord × PWord)} : (∀ w ∈ flatPairs l, P w) ↔ ∀ p ∈ l, P p.1 ∧ P p.2 := by
  simp only [flatPairs, List.mem_flatMap, List.mem_cons, List.not_mem_nil, or_false]
  exact ⟨fun h p hp => ⟨h _ ⟨p, hp, .inl rfl⟩, h _ ⟨p, hp, .inr rfl⟩⟩, by rintro h w ⟨p, hp, rfl | rfl⟩; exacts [(h p hp).1, (h p hp).2]⟩

theorem length_arrange_le {α : Type} (f : Nat) (l : List α) (code : Nat) : (arrange f l code).length ≤ f := by
  induction f generalizing l code with
  | zero => simp [arrange]
  | succ f ih =>
    rw [arrange]
    split
    · simp
    · simpa using ih _ _

/-! ### Fields and ranges as counts -/

theorem Op.f_lt (o : Op) (off lo w : Nat) : o.f off lo w < 2 ^ w := Nat.mod_lt _ (Nat.two_pow_pos w)

/-- A word of a small number is that number with its sign. -/
theorem toInt_of_small {w : W32} {n : Nat} (h : w.toNat = n) (hn : n < 2 ^ 31) : w.toInt = n := by
  rw [BitVec.toInt_eq_toNat_of_lt (by omega), h]

theorem apart_of_overlaps {a n b m : Nat} (h : overlaps a n b m = false) (hn : n ≠ 0) (hm : m ≠ 0) : a + n ≤ b ∨ b + m ≤ a := by
  simp only [overlaps, decide_eq_false_iff_not] at h
  omega

/-! ### What SEG_REDUCE leaves (R202, R203) -/

theorem segWord_clean (op : Nat) (l : List (Nat × PWord)) (h : ∀ x ∈ l, x.2.2 = false) : (segWord op l).2 = false := by
  have hany : l.any (fun x => x.2.2) = false := by simpa using h
  unfold segWord
  cases l with
  | nil => rfl
  | cons x r => exact hany

/-- The words that segment `g` has in column `j`, with their positions. -/
def Core.segColumn (k : Core) (inA rw : Nat) (off : Nat → Nat) (g j : Nat) : List (Nat × PWord) :=
  (List.range (off (g + 1) - off g)).map (fun p => (off g + p, k.csWord (inA + 4 * ((off g + p) * rw + j))))

/-- The words that SEG_REDUCE writes, segment by segment. -/
def Core.segOut (k : Core) (op inA rw segs : Nat) (off : Nat → Nat) : List PWord :=
  (List.range segs).flatMap (fun g => (List.range rw).map (fun j => segWord op (k.segColumn inA rw off g j)))

section
variable {k : Core} (hk : k.storePoison = []) (op inA rw segs : Nat) (off : Nat → Nat)

theorem Core.length_segOut : (k.segOut op inA rw segs off).length = rw * segs := by
  rw [Core.segOut, length_flatMap_blocks (w := rw) (fun _ => by simp), List.length_range]

theorem Core.getElem?_segOut (g j : Nat) (hg : g < segs) (hj : j < rw) :
    (k.segOut op inA rw segs off)[g * rw + j]? = some (segWord op (k.segColumn inA rw off g j)) := by
  rw [Core.segOut, getElem?_flatMap_blocks (fun _ => by simp) _ _ _ hj]
  simp [hg, hj]

include hk

theorem Core.segOut_clean : ∀ w ∈ k.segOut op inA rw segs off, w.2 = false := by
  have hcol (g j : Nat) : ∀ x ∈ k.segColumn inA rw off g j, x.2.2 = false := by
    intro x hx
    obtain ⟨p, -, rfl⟩ := List.mem_map.mp hx
    exact Core.csWord_clean hk _
  intro w hw
  obtain ⟨g, -, hw⟩ := List.mem_flatMap.mp hw
  obtain ⟨j, -, rfl⟩ := List.mem_map.mp hw
  exact segWord_clean op _ (hcol g j)

end

/-- Offsets that rise to `segs` lie between 0 and the last. -/
theorem rising_le {off : Nat → Nat} {segs : Nat} (h : ∀ i < segs, off i ≤ off (i + 1)) (i : Nat) (hi : i ≤ segs) : off i ≤ off segs := by
  induction hi using Nat.decreasingInduction with
  | self => exact Nat.le_refl _
  | of_succ i hi ih => exact (h i hi).trans ih

/-- A SEG_REDUCE that passes its checks: good fields, counts above 0, its ranges within the core store and apart, and offsets `off` that
rise from 0 to N (R202). -/
structure Core.segGood (k : Core) (o : Op) (off : Nat → Nat) : Prop where
  zeros : o.zeros [(0, 10, 12), (4, 15, 1), (8, 15, 1), (0xC, 15, 17)] = true
  rows : 0 < o.posN
  segs : 0 < o.f 8 16 16
  fits : anyOver [(64 * o.f 4 0 15, 4 * o.rowWords * o.posN), (64 * o.f 8 0 15, 4 * (o.f 8 16 16 + 1)), (64 * o.f 0xC 0 15, 4 * o.rowWords * o.f 8 16 16)] = false
  apart : anyOverlap [(64 * o.f 4 0 15, 4 * o.rowWords * o.posN), (64 * o.f 8 0 15, 4 * (o.f 8 16 16 + 1)), (64 * o.f 0xC 0 15, 4 * o.rowWords * o.f 8 16 16)] = false
  words : ∀ i ≤ o.f 8 16 16, (k.csWord (64 * o.f 8 0 15 + 4 * i)).1.toNat = off i
  first : off 0 = 0
  last : off (o.f 8 16 16) = o.posN
  rise : ∀ i < o.f 8 16 16, off i ≤ off (i + 1)

/-- The pairs that SORT leaves in place. -/
def Core.sortOut (k : Core) (o : Op) : List (PWord × PWord) :=
  sortBy (fun p => sortKey (o.f 0 22 2) (o.f 0 21 1 == 1) p.1.1) (pairWords (k.csRun (64 * o.f 8 0 15) (2 * o.f 4 0 17)))

theorem Core.length_sortOut (k : Core) (o : Op) : (k.sortOut o).length = o.f 4 0 17 :=
  (sortBy_perm _ _).length_eq.trans (length_pairWords _ _ (k.length_csRun ..))

section
variable (s : State) (c : Nat) (o : Op) (hk : (s.core c).storePoison = [])
include hk

theorem State.segGo_good (off : Nat → Nat) (h : (s.core c).segGood o off) :
    s.leaves c (s.segGo c o) (12 + cdiv (o.f 8 16 16 + 1) 16 + o.posN * rowLines o.rowWords) (o.f 8 16 16)
      ((s.core c).csWords (64 * o.f 0xC 0 15) ((s.core c).segOut (o.f 0 22 2) (64 * o.f 4 0 15) o.rowWords (o.f 8 16 16) off)) := by
  obtain ⟨hzeros, hn0, hsegs0, hover, hapart, hoff, hfirst, hlast, hrise⟩ := h
  generalize hm : s.segGo c o = m
  revert hm
  unfold State.segGo
  extract_lets k n rw segs inA offA outA rs offs off' base early inp word out np
  replace hk : k.storePoison = [] := hk
  replace hover : anyOver rs = false := hover
  replace hapart : anyOverlap rs = false := hapart
  have hint (i : Nat) (hi : i ≤ segs) : off' i = off i := by
    have hbound := rising_le hrise i hi
    have hn : o.posN < 2 ^ 16 := o.f_lt ..
    simp only [off', offs]
    rw [Core.nth_csRun _ _ _ _ _ (by omega)]
    exact toInt_of_small (hoff i hi) (by omega)
  have hchecks : firstFail [(!o.zeros [(0, 10, 12), (4, 15, 1), (8, 15, 1), (0xC, 15, 17)], 0x52), (n == 0 || segs == 0, 0x51), (anyOver rs, 0x51),
      (anyOverlap rs, 0x54)] = 0 := by
    simp [firstFail, hzeros, hover, hapart, n, segs, hn0.ne', hsegs0.ne']
  have hpoison : (List.range (segs + 1)).find? (fun i => (nth (0, false) offs i).2) = none :=
    List.find?_eq_none.mpr fun i hi => by simp [offs, Core.nth_csRun _ _ _ _ _ (List.mem_range.mp hi), Core.csWord_clean hk]
  have hgood : ¬ (off' 0 ≠ 0 ∨ off' segs ≠ n ∨ (List.range segs).any (fun i => decide (off' (i + 1) < off' i))) := by
    have hanyfall : ∀ i < segs, off' i ≤ off' (i + 1) := fun i hi => by rw [hint i hi.le, hint (i + 1) hi]; exact_mod_cast hrise i hi
    rw [hint 0 (Nat.zero_le _), hint segs (Nat.le_refl _), hfirst, hlast]
    simpa [n] using hanyfall
  have hword : out = k.segOut (o.f 0 22 2) inA rw segs off := by
    refine List.flatMap_congr fun g hg => List.map_congr_left fun j hj => congrArg (segWord _) ?_
    have hg : g < segs := List.mem_range.mp hg
    rw [hint g hg.le, hint (g + 1) hg, Int.toNat_natCast, Int.toNat_natCast]
    refine List.map_congr_left fun p hp => ?_
    have hp : p < off (g + 1) - off g := List.mem_range.mp hp
    have hpos : off g + p < n := by have := rising_le hrise (g + 1) hg; omega
    have hlin : (off g + p + 1) * rw ≤ n * rw := Nat.mul_le_mul_right rw hpos
    have hj : j < rw := List.mem_range.mp hj
    rw [Nat.succ_mul] at hlin
    exact congrArg (Prod.mk _) (Core.nth_csRun _ _ _ _ _ (by omega))
  have hnp : np = 0 := poisoned_clean (Core.csRun_clean hk _ _)
  rw [hchecks, hpoison]
  simp only [if_neg hgood]
  rintro rfl
  refine ⟨State.onlyCore_setCore .., ?_, Core.accessOnly_csWrite .., ?_, rfl, rfl⟩
  · rw [State.core_updCore_self, hword]
  · rw [hnp]; rfl

/-! ### What SORT leaves (R204, R205) -/

theorem Core.sortOut_clean : ∀ w ∈ flatPairs ((s.core c).sortOut o), w.2 = false := by
  have hsource := (s.core c).csRun_clean hk (64 * o.f 8 0 15) (2 * o.f 4 0 17)
  rw [← flatPairs_pairWords _ _ ((s.core c).length_csRun ..)] at hsource
  exact forall_mem_flatPairs.mpr fun p hp => forall_mem_flatPairs.mp hsource p ((sortBy_perm _ _).mem_iff.mp hp)

theorem State.sortGo_clean (hzeros : o.zeros [(0, 0, 21), (4, 17, 15), (8, 31, 1), (8, 15, 1), (0xC, 0, 32)] = true) (htype : o.f 0 22 2 ≠ 3)
    (hm0 : 0 < o.f 4 0 17) (hmax : o.f 4 0 17 ≤ 65536) (hover : anyOver [(64 * o.f 8 0 15, 8 * o.f 4 0 17), (64 * o.f 8 16 15, 8 * o.f 4 0 17)] = false)
    (hapart : overlaps (64 * o.f 8 0 15) (8 * o.f 4 0 17) (64 * o.f 8 16 15) (8 * o.f 4 0 17) = false) :
    ∃ scratch : List (PWord × PWord), scratch.length ≤ o.f 4 0 17 ∧ s.leaves c (s.sortGo c o) (12 + cdiv (o.f 4 0 17) 8 + 4 * o.f 4 0 17 + 1024) (o.f 4 0 17)
      (((s.core c).csWords (64 * o.f 8 0 15) (flatPairs ((s.core c).sortOut o))).csWords (64 * o.f 8 16 15) (flatPairs scratch)) := by
  generalize hout : s.sortGo c o = out
  revert hout
  unfold State.sortGo
  extract_lets k n io sc rs early ws ps badKey sorted flat scratch np
  replace hk : k.storePoison = [] := hk
  replace hover : anyOver rs = false := hover
  have hchecks : firstFail [(!o.zeros [(0, 0, 21), (4, 17, 15), (8, 31, 1), (8, 15, 1), (0xC, 0, 32)] || o.f 0 22 2 == 3, 0x52),
      (n == 0 || decide (65536 < n), 0x51), (anyOver rs, 0x51), (anyOverlap rs, 0x54)] = 0 := by
    have hoverlap : anyOverlap rs = false := by simpa [anyOverlap, rangeHit, rs] using hapart
    simp [firstFail, hzeros, htype, hover, hoverlap, n, hm0.ne', hmax.not_gt]
  have hclean : ∀ w ∈ ws, w.2 = false := Core.csRun_clean hk _ _
  have hbad : badKey = false := by
    have hpairs := forall_mem_flatPairs.mp (show ∀ w ∈ flatPairs ps, w.2 = false by rwa [flatPairs_pairWords n ws (by simp [ws])])
    exact List.any_eq_false.mpr fun p hp => by simp [(hpairs p hp).1]
  have hflat (l : List (PWord × PWord)) : flat l false = flatPairs l := by simp [flat, flatPairs]
  have hnp : np = 0 := poisoned_clean hclean
  rw [hchecks]
  simp only [hbad, hnp, hflat]
  rintro rfl
  refine ⟨scratch, length_arrange_le .., State.onlyCore_setCore .., State.core_updCore_self .., ?_, rfl, rfl, rfl⟩
  exact (Core.accessOnly_csWrite ..).trans (Core.accessOnly_csWrite ..)

end

/-! ### What COMPACT leaves (R206, R207) -/

/-- The rows that COMPACT keeps, one after another. -/
def Core.keptRows (k : Core) (inA rw : Nat) (kept : List Nat) : List PWord := kept.flatMap (fun p => k.csRun (inA + 4 * rw * p) rw)

/-- The map of COMPACT: the positions kept. -/
def keptMap (kept : List Nat) : List PWord := kept.map (fun p => (BitVec.ofNat 32 p, false))

/-- The core after a clean compaction: the rows kept, and the map where one is asked for. -/
def Core.compacted (k : Core) (inA outA mapA rw : Nat) (hasMap : Bool) (kept : List Nat) : Core :=
  let x := k.csWords outA (k.keptRows inA rw kept)
  if hasMap then x.csWords mapA (keptMap kept) else x

section
variable (k : Core) (inA outA mapA rw : Nat) (hasMap : Bool) (kept : List Nat)

theorem Core.accessOnly_compacted : k.accessOnly (k.compacted inA outA mapA rw hasMap kept) := by
  unfold Core.compacted
  split
  · exact (Core.accessOnly_csWrite ..).trans (Core.accessOnly_csWrite ..)
  · exact Core.accessOnly_csWrite ..

theorem Core.length_keptRows : (k.keptRows inA rw kept).length = rw * kept.length := length_flatMap_blocks (fun _ => k.length_csRun _ rw) kept

theorem Core.keptRows_clean (hk : k.storePoison = []) : ∀ w ∈ k.keptRows inA rw kept, w.2 = false := by
  intro w hw
  obtain ⟨p, -, hw⟩ := List.mem_flatMap.mp hw
  exact Core.csRun_clean hk _ _ w hw

theorem Core.getElem?_keptRows (i j : Nat) (hi : i < kept.length) (hj : j < rw) :
    (k.keptRows inA rw kept)[i * rw + j]? = some (k.csWord (inA + 4 * (nth 0 kept i * rw + j))) := by
  have hat : inA + 4 * rw * kept[i] + 4 * j = inA + 4 * (kept[i] * rw + j) := by ring
  rw [Core.keptRows, getElem?_flatMap_blocks (fun _ => k.length_csRun _ rw) _ _ _ hj, List.getElem?_eq_getElem hi, Option.bind_some,
    List.getElem?_eq_getElem (by simpa using hj), Core.getElem_csRun, hat, nth_eq_getElem 0 kept i hi]

/-- A row kept stands at its place in the output: the map is written elsewhere. -/
theorem Core.compacted_row (hk : k.storePoison = []) (hout : 4 ∣ outA) (hmap : 4 ∣ mapA)
    (hapart : hasMap = true → outA + 4 * (rw * kept.length) ≤ mapA ∨ mapA + 4 * kept.length ≤ outA) (i j : Nat) (hi : i < kept.length) (hj : j < rw) :
    (k.compacted inA outA mapA rw hasMap kept).csWord (outA + 4 * (i * rw + j)) = k.csWord (inA + 4 * (nth 0 kept i * rw + j)) := by
  obtain ⟨hlt, hrow⟩ := List.getElem?_eq_some_iff.mp (k.getElem?_keptRows inA rw kept i j hi hj)
  have hwritten := k.csWord_csWords_mem hout _ _ hlt (k.keptRows_clean inA rw kept hk _ (List.getElem_mem hlt))
  rw [Core.length_keptRows] at hlt
  unfold Core.compacted
  simp only []
  split
  next h =>
    have hapart := hapart h
    rw [Core.csWord_csWords_ne _ hmap (by omega) _ (by simp only [keptMap, List.length_map]; omega), hwritten, hrow]
  next => rw [hwritten, hrow]

theorem Core.compacted_map (hmap : 4 ∣ mapA) (i : Nat) (hi : i < kept.length) :
    (k.compacted inA outA mapA rw true kept).csWord (mapA + 4 * i) = (BitVec.ofNat 32 (nth 0 kept i), false) := by
  rw [Core.compacted, if_pos rfl, Core.csWord_csWords_mem _ hmap _ i (by simpa [keptMap] using hi) (by simp [keptMap])]
  simp [keptMap, nth_eq_getElem 0 kept i hi]

theorem Core.compacted_byteAt (a : Nat) (hout : a < outA ∨ outA + 4 * (rw * kept.length) ≤ a)
    (hmap : hasMap = true → a < mapA ∨ mapA + 4 * kept.length ≤ a) : (k.compacted inA outA mapA rw hasMap kept).byteAt a = k.byteAt a := by
  have hrows := k.csWords_byteAt outA (k.keptRows inA rw kept) a (by rwa [Core.length_keptRows])
  unfold Core.compacted
  simp only []
  split
  next h => rw [Core.csWords_byteAt _ _ _ _ (by simpa [keptMap] using hmap h), hrows]
  next => exact hrows

end

/-- Bytes of the mask of a COMPACT, or of its lengths. -/
def Op.maskBytes (o : Op) : Nat := if o.f 0 22 1 == 1 then 4 * (o.posN / o.f 0xC 16 16) else cdiv o.posN 8

/-- Bytes of the map of a COMPACT. -/
def Op.mapBytes (o : Op) : Nat := if o.f 0 23 1 = 1 then 4 * o.posN else 0

/-- The length of a group of a COMPACT by lengths. -/
def Core.groupLen (k : Core) (o : Op) (i : Nat) : Nat := (k.csWord (64 * o.f 8 16 15 + 4 * i)).1.toNat

/-- The positions that a COMPACT keeps: those below their group's length, or those whose mask bit is 1 (R206). -/
def Core.keptBy (k : Core) (o : Op) : List Nat :=
  (List.range o.posN).filter (fun p => if o.f 0 22 1 == 1 then decide (p % o.f 0xC 16 16 < k.groupLen o (p / o.f 0xC 16 16))
    else (k.csElem (64 * o.f 8 16 15) p 1).1 == 1)

theorem Core.length_keptBy_le (k : Core) (o : Op) : (k.keptBy o).length ≤ o.posN :=
  (List.length_filter_le ..).trans_eq List.length_range

/-- A COMPACT that passes its checks: good fields, rows, groups that fit their lengths, and ranges within the core store and apart but for
an output in place (R206). -/
structure Core.compactGood (k : Core) (o : Op) : Prop where
  zeros : o.zeros [(0, 10, 12), (4, 15, 1), (8, 31, 1), (8, 15, 1), (0xC, 15, 1)] = true
  rows : 0 < o.posN
  groups : (o.f 0 22 1 == 1) = true → 0 < o.f 0xC 16 16 ∧ o.posN % o.f 0xC 16 16 = 0 ∧ ∀ i < o.posN / o.f 0xC 16 16, k.groupLen o i ≤ o.f 0xC 16 16
  fits : anyOver [(64 * o.f 4 0 15, 4 * o.rowWords * o.posN), (64 * o.f 8 16 15, o.maskBytes), (64 * o.f 8 0 15, 4 * o.rowWords * o.posN), (64 * o.f 0xC 0 15, o.mapBytes)] = false
  source : anyOverlap [(64 * o.f 4 0 15, 4 * o.rowWords * o.posN), (64 * o.f 8 16 15, o.maskBytes), (64 * o.f 0xC 0 15, o.mapBytes)] = false
  output : anyOverlap [(64 * o.f 8 0 15, 4 * o.rowWords * o.posN), (64 * o.f 8 16 15, o.maskBytes), (64 * o.f 0xC 0 15, o.mapBytes)] = false
  place : 64 * o.f 4 0 15 = 64 * o.f 8 0 15 ∨ overlaps (64 * o.f 4 0 15) (4 * o.rowWords * o.posN) (64 * o.f 8 0 15) (4 * o.rowWords * o.posN) = false

theorem State.compactGo_good (s : State) (c : Nat) (o : Op) (hk : (s.core c).storePoison = []) (h : (s.core c).compactGood o) :
    s.leaves c (s.compactGo c o)
      (12 + (if o.f 0 22 1 == 1 then cdiv o.posN (16 * o.f 0xC 16 16) else cdiv o.posN 512) + ((s.core c).keptBy o).length * rowLines o.rowWords) ((s.core c).keptBy o).length
      ((s.core c).compacted (64 * o.f 4 0 15) (64 * o.f 8 0 15) (64 * o.f 0xC 0 15) o.rowWords (o.f 0 23 1 == 1) ((s.core c).keptBy o)) := by
  obtain ⟨hzeros, hn0, hgood, hover, hin, hout, hsame⟩ := h
  generalize hm : s.compactGo c o = m
  revert hm
  unfold State.compactGo
  extract_lets k n rw lens pad inA mA outA mapA hasMap mB inR outR mR mapR len base mPois early keep ps rows bad np k1 k2
  replace hk : k.storePoison = [] := hk
  replace hgood : lens = true → 0 < pad ∧ n % pad = 0 ∧ ∀ i < n / pad, k.groupLen o i ≤ pad := hgood
  have hmapR : mapR = (64 * o.f 0xC 0 15, o.mapBytes) := by simp [mapR, mapA, hasMap, Op.mapBytes, n]
  have hchecks : firstFail [(!o.zeros [(0, 10, 12), (4, 15, 1), (8, 31, 1), (8, 15, 1), (0xC, 15, 1)], 0x52),
      (n == 0 || (lens && (pad == 0 || n % pad != 0)), 0x51), (anyOver [inR, mR, outR, mapR], 0x51),
      (anyOverlap [inR, mR, mapR] || anyOverlap [outR, mR, mapR] || (inA != outA && rangeHit inR outR), 0x54)] = 0 := by
    have hshape : (n == 0 || (lens && (pad == 0 || n % pad != 0))) = false := by
      have h0 : (n == 0) = false := by simpa using hn0.ne'
      cases hl : lens with
      | false => simp [h0]
      | true =>
        obtain ⟨hpad0, hmod, -⟩ := hgood hl
        simp [h0, hpad0.ne', hmod]
    have hplace : (inA != outA && rangeHit inR outR) = false := by
      rcases hsame with h | h
      · simp [show inA = outA from h]
      · rw [show rangeHit inR outR = false from h, Bool.and_false]
    rw [hmapR]
    simp [firstFail, hzeros, hshape, hplace, show anyOver [inR, mR, outR, (64 * o.f 0xC 0 15, o.mapBytes)] = false from hover,
      show anyOverlap [inR, mR, (64 * o.f 0xC 0 15, o.mapBytes)] = false from hin, show anyOverlap [outR, mR, (64 * o.f 0xC 0 15, o.mapBytes)] = false from hout]
  have hlen (i : Nat) (hl : lens = true) (hi : i < n / pad) : len i = k.groupLen o i ∧ k.groupLen o i ≤ pad := by
    obtain ⟨-, -, hle⟩ := hgood hl
    have hpad : pad < 2 ^ 16 := o.f_lt ..
    have hi := hle i hi
    exact ⟨toInt_of_small rfl (show k.groupLen o i < 2 ^ 31 by omega), hi⟩
  have hgroups : ¬ (lens && (List.range (n / pad)).any (fun i => decide (len i < 0) || decide ((pad : Int) < len i))) = true := by
    simp only [Bool.and_eq_true, List.any_eq_true, not_and]
    rintro hl ⟨i, hi, hbad⟩
    obtain ⟨hval, hle⟩ := hlen i hl (List.mem_range.mp hi)
    rw [hval] at hbad
    simp at hbad
    omega
  have hps : ps = k.keptBy o := by
    refine List.filter_congr fun p hp => ?_
    simp only [keep]
    split
    next hl =>
      obtain ⟨-, hmod, -⟩ := hgood hl
      obtain ⟨hval, -⟩ := hlen (p / pad) hl (Nat.div_lt_div_of_lt_of_dvd (Nat.dvd_of_mod_eq_zero hmod) (List.mem_range.mp hp))
      rw [hval]
      exact decide_eq_decide.mpr Int.ofNat_lt
    next => rfl
  have hmPois : mPois = 0 := Core.csPoisoned_clean hk _ _
  have hrows : rows = k.keptRows inA rw (k.keptBy o) := by rw [← hps]; rfl
  have hnp : np = 0 := by rw [show np = mPois + poisoned rows from rfl, hmPois, hrows, poisoned_clean (k.keptRows_clean inA rw _ hk)]
  have hk2 : k2 = k.compacted inA outA mapA rw hasMap (k.keptBy o) := by
    simp [k2, k1, bad, hmPois, hrows, hps, Core.compacted, keptMap]
  rw [hchecks]
  simp only [if_neg hgroups]
  rintro rfl
  refine ⟨State.onlyCore_setCore .., ?_, Core.accessOnly_compacted .., by rw [hnp]; rfl, by rw [hps], congrArg List.length hps⟩
  rw [State.core_setCore_self, hk2]

end Sys2Proof.Machine

open Sys2Proof Sys2Proof.Machine

/-- Settles O27: each of the three operations leaves its core with its output written and completes. What is read back of the output is what
was written, since words without poison read back, and the sort is an insertion sort that puts a pair behind those of its key. -/
theorem segReduceSortCompact : Obligations.SegReduceSortCompact := by
  refine ⟨fun s c z o hk => ⟨fun segs inA offA outA off hsegs hinA hoffA houtA hhead hzeros hn0 hsegs0 hover hapart hoff hfirst hlast hrise => ?_,
    fun m io sc hm hio hsc hhead hzeros htype hm0 hmax hover hapart => ?_,
    fun inA mA outA mapA mapB mB pad lens len kept hinA hmA houtA hmapA hmapB hpad hlens hmB hlen hkept hhead hzeros hn0 hgroups hover hin hout hsame => ?_⟩,
    fun key l => ⟨sortBy_perm key l, sortBy_rises key l, sortBy_stable key l⟩⟩
  · subst hsegs hinA hoffA houtA
    have hleaves := s.segGo_good c.val o hk off ⟨hzeros, hn0, hsegs0, hover, hapart, hoff, hfirst, hlast, hrise⟩
    obtain ⟨t, hexec, honly, htook, hpot, -, hrun, hstore, hpoison⟩ := State.mergeCmd_completes z hhead hleaves
    refine ⟨t, hexec, honly, htook, hpot, hrun, fun g hg j hj => ?_, fun a ha => ?_⟩
    · obtain ⟨hlt, hword⟩ := List.getElem?_eq_some_iff.mp ((s.core c.val).getElem?_segOut (o.f 0 22 2) (64 * o.f 4 0 15) o.rowWords _ off g j hg hj)
      rw [Core.csWord_of_store hstore hpoison, Core.csWord_csWords_mem _ (by omega) _ _ hlt (Core.segOut_clean hk _ _ _ _ _ _ (List.getElem_mem hlt)), hword]
      rfl
    · refine (Core.byteAt_of_store hstore a).trans (Core.csWords_byteAt _ _ _ a ?_)
      rwa [Core.length_segOut, ← Nat.mul_assoc]
  · subst hm hio hsc
    obtain ⟨scratch, hscratch, hleaves⟩ := s.sortGo_clean c.val o hk hzeros htype hm0 hmax hover hapart
    obtain ⟨t, hexec, honly, htook, -, -, hrun, hstore, hpoison⟩ := State.mergeCmd_completes z hhead hleaves
    refine ⟨t, hexec, honly, htook, hrun, ?_, fun a ha hs => (Core.byteAt_of_store hstore a).trans ?_⟩
    · have hfar := apart_of_overlaps hapart (by omega) (by omega)
      have hback := (s.core c.val).csRun_csWords (show 4 ∣ 64 * o.f 8 0 15 by omega) (flatPairs ((s.core c.val).sortOut o)) (Core.sortOut_clean s c.val o hk)
      rw [length_flatPairs, Core.length_sortOut] at hback
      rw [Core.csRun_of_store hstore hpoison, Core.csRun_csWords_ne _ (by omega) (by omega) _ _ (by rw [length_flatPairs]; omega), hback, pairWords_flatPairs]
      rfl
    · rw [Core.csWords_byteAt _ _ _ a (by rw [length_flatPairs]; omega)]
      exact Core.csWords_byteAt _ _ _ a (by rw [length_flatPairs, Core.length_sortOut]; omega)
  · obtain rfl : len = (s.core c.val).groupLen o := funext fun i => by rw [hlen, hmA]; rfl
    have hmBytes : mB = o.maskBytes := by rw [hmB, hlens, hpad]; rfl
    have hmapBytes : mapB = o.mapBytes := hmapB
    have hkeptBy : kept = (s.core c.val).keptBy o := by rw [hkept, hlens, hpad, hmA]; rfl
    subst hkeptBy hinA hmA houtA hmapA hpad hlens
    rw [hmBytes, hmapBytes] at hover hin hout
    have hleaves := s.compactGo_good c.val o hk ⟨hzeros, hn0, hgroups, hover, hin, hout, hsame⟩
    obtain ⟨t, hexec, honly, htook, hpot, -, hrun, hstore, hpoison⟩ := State.mergeCmd_completes z hhead hleaves
    have hfar (h : o.f 0 23 1 = 1) : 64 * o.f 8 0 15 + 4 * (o.rowWords * ((s.core c.val).keptBy o).length) ≤ 64 * o.f 0xC 0 15
        ∨ 64 * o.f 0xC 0 15 + 4 * ((s.core c.val).keptBy o).length ≤ 64 * o.f 8 0 15 := by
      have hle := (s.core c.val).length_keptBy_le o
      have hrows : o.rowWords * ((s.core c.val).keptBy o).length ≤ o.rowWords * o.posN := Nat.mul_le_mul_left _ hle
      have hbytes : o.mapBytes = 4 * o.posN := if_pos h
      have hapart : overlaps (64 * o.f 8 0 15) (4 * o.rowWords * o.posN) (64 * o.f 0xC 0 15) o.mapBytes = false := by
        simp only [anyOverlap, rangeHit, List.any_cons, Bool.or_eq_false_iff] at hout
        obtain ⟨⟨-, hmap, -⟩, -⟩ := hout
        exact hmap
      have hpos : 0 < o.rowWords * o.posN := Nat.mul_pos (Nat.succ_pos _) hn0
      rw [Nat.mul_assoc] at hapart
      have := apart_of_overlaps hapart (by omega) (by omega)
      omega
    refine ⟨t, hexec, honly, htook, hpot, hrun, fun i hi j hj => ?_, fun hmap i hi => ?_, fun a ha hmap => (Core.byteAt_of_store hstore a).trans ?_⟩
    · exact (Core.csWord_of_store hstore hpoison _).trans (Core.compacted_row _ _ _ _ _ _ _ hk (by omega) (by omega) (fun h => hfar (by simpa using h)) i j hi hj)
    · rw [Core.csWord_of_store hstore hpoison, hmap]
      exact Core.compacted_map _ _ _ _ _ _ (by omega) i hi
    · refine Core.compacted_byteAt _ _ _ _ _ _ _ a (by rwa [← Nat.mul_assoc]) (fun h => ?_)
      have hbytes : o.mapBytes = 4 * o.posN := if_pos (by simpa using h)
      have hle := (s.core c.val).length_keptBy_le o
      omega
end

-- ==== Sys2Proof/Proofs/MergeRecord.lean ====

section
namespace Sys2Proof.Machine

/-! ### What a merge operation leaves of its core -/

/-- A core's record but for what a merge operation changes before it starts: the translation cache, the counters, the check bits of
its SRAMs, the pot, the kettle, the core store, and what its requests move of the access unit. -/
def Core.mergeOnly (k k' : Core) : Prop :=
  { k' with
    tlb := k.tlb, counters := k.counters, secded := k.secded, pot := k.pot, potPoison := k.potPoison, kettle := k.kettle
    store := k.store, storePoison := k.storePoison, caddy := k.caddy, popWait := k.popWait } = k

/-- A core's record but for its counters and the check bits of its SRAMs: what reading an SRAM leaves (R365). -/
def Core.errorsOnly (k k' : Core) : Prop := { k' with counters := k.counters, secded := k.secded } = k

/-- A core's record but for its store, its counters and check bits. -/
def Core.storeOnly (k k' : Core) : Prop :=
  { k' with counters := k.counters, secded := k.secded, store := k.store, storePoison := k.storePoison } = k

/-- A core's record but for its pot, its counters and check bits. -/
def Core.potOnly (k k' : Core) : Prop :=
  { k' with counters := k.counters, secded := k.secded, pot := k.pot, potPoison := k.potPoison } = k

/-- What a merge operation does not change reads the same. -/
theorem Core.mergeOnly.same {k x : Core} (h : k.mergeOnly x) {α : Type} (g : Core → α) : g { x with
    tlb := k.tlb, counters := k.counters, secded := k.secded, pot := k.pot, potPoison := k.potPoison, kettle := k.kettle
    store := k.store, storePoison := k.storePoison, caddy := k.caddy, popWait := k.popWait } = g k :=
  congrArg g h

theorem Core.mergeOnly.trans {k x y : Core} (h : k.mergeOnly x) (g : x.mergeOnly y) : k.mergeOnly y := by
  unfold Core.mergeOnly at h g ⊢
  exact (congrArg (fun q : Core => { q with
    tlb := k.tlb, counters := k.counters, secded := k.secded, pot := k.pot, potPoison := k.potPoison, kettle := k.kettle
    store := k.store, storePoison := k.storePoison, caddy := k.caddy, popWait := k.popWait }) g).trans h

theorem Core.storeOnly.trans {k x y : Core} (h : k.storeOnly x) (g : x.storeOnly y) : k.storeOnly y := by
  unfold Core.storeOnly at h g ⊢
  exact (congrArg (fun q : Core => { q with
    counters := k.counters, secded := k.secded, store := k.store, storePoison := k.storePoison }) g).trans h

theorem Core.potOnly.trans {k x y : Core} (h : k.potOnly x) (g : x.potOnly y) : k.potOnly y := by
  unfold Core.potOnly at h g ⊢
  exact (congrArg (fun q : Core => { q with
    counters := k.counters, secded := k.secded, pot := k.pot, potPoison := k.potPoison }) g).trans h

theorem Core.storeOnly.mergeOnly {k x : Core} (h : k.storeOnly x) : k.mergeOnly x := by
  unfold Core.storeOnly at h
  unfold Core.mergeOnly
  exact congrArg (fun q : Core => { q with tlb := k.tlb, pot := k.pot, potPoison := k.potPoison, kettle := k.kettle, caddy := k.caddy, popWait := k.popWait }) h

theorem Core.potOnly.mergeOnly {k x : Core} (h : k.potOnly x) : k.mergeOnly x := by
  unfold Core.potOnly at h
  unfold Core.mergeOnly
  exact congrArg (fun q : Core => { q with tlb := k.tlb, kettle := k.kettle, store := k.store, storePoison := k.storePoison, caddy := k.caddy, popWait := k.popWait }) h

theorem Core.errorsOnly.storeOnly {k x : Core} (h : k.errorsOnly x) : k.storeOnly x := by
  unfold Core.errorsOnly at h
  unfold Core.storeOnly
  exact congrArg (fun q : Core => { q with store := k.store, storePoison := k.storePoison }) h

theorem Core.errorsOnly.potOnly {k x : Core} (h : k.errorsOnly x) : k.potOnly x := by
  unfold Core.errorsOnly at h
  unfold Core.potOnly
  exact congrArg (fun q : Core => { q with pot := k.pot, potPoison := k.potPoison }) h

theorem Core.errorsOnly.trans {k x y : Core} (h : k.errorsOnly x) (g : x.errorsOnly y) : k.errorsOnly y := by
  unfold Core.errorsOnly at h g ⊢
  exact (congrArg (fun q : Core => { q with counters := k.counters, secded := k.secded }) g).trans h

theorem Core.errorsOnly_refl (k : Core) : k.errorsOnly k := rfl

theorem Core.errorsOnly_count (k : Core) (off n : Nat) : k.errorsOnly (k.count off n) := rfl

theorem Core.errorsOnly_mend (k : Core) (m : Sram) (w : Nat) : k.errorsOnly (k.mend m w) := rfl

theorem Core.errorsOnly_foldl {α : Type} (f : Core → α → Core) (hf : ∀ (x : Core) a, x.errorsOnly (f x a)) (l : List α) (k : Core) :
    k.errorsOnly (l.foldl f k) :=
  List.foldlRecOn (motive := k.errorsOnly) l f k.errorsOnly_refl (fun x hx a _ => hx.trans (hf x a))

theorem Core.errorsOnly_counts (k : Core) (l : List (Nat × Nat)) : k.errorsOnly (k.counts l) :=
  Core.errorsOnly_foldl (fun (x : Core) (p : Nat × Nat) => x.count p.1 p.2) (fun _ _ => rfl) l k

theorem Core.errorsOnly_poisonCounts (k : Core) (n st : Nat) : k.errorsOnly (k.poisonCounts n st) := rfl

theorem Core.storeOnly_csWrite (k : Core) (a : Nat) (ds : List PByte) : k.storeOnly (k.csWrite a ds) := rfl

theorem Core.potOnly_potSet (k : Core) (a : Nat) (v : PWord) : k.potOnly (k.potSet a v) := rfl

theorem Core.potOnly_count (k : Core) (off n : Nat) : k.potOnly (k.count off n) := rfl

theorem Core.potOnly_potAdd (k : Core) (a : Nat) (v : PWord) : k.potOnly (k.potAdd a v) := by
  rw [Core.potAdd]
  exact (Core.potOnly_potSet ..).trans (Core.potOnly_count ..)

theorem Core.potOnly_potApply (k : Core) (set : Bool) (i : Nat) (vs : List PWord) : k.potOnly (k.potApply set i vs) := by
  have happly : k.potOnly ((vs.zipIdx i).foldl (fun x p => if set then x.potSet p.2 p.1 else x.potAdd p.2 p.1) k) :=
    List.foldlRecOn (motive := k.potOnly) _ _ rfl (fun x hx p _ => by
      split
      · exact hx.trans (Core.potOnly_potSet ..)
      · exact hx.trans (Core.potOnly_potAdd ..))
  rw [Core.potApply]
  exact happly.trans (Core.potOnly_count ..)

/-- What an engine takes does not depend on what a merge operation changes. -/
theorem Core.mergeOnly.took {k x y : Core} (h : k.mergeOnly x) {e : Eng} {o : Op} {st cy : Nat} (g : x.took y e o st cy) : k.took y e o st cy := by
  obtain ⟨hqueue, hothers, hrun, hpot, hstream, hctrs, hsems, hprogram⟩ := g
  have hq (d : Eng) : x.queue d = k.queue d := by
    have hread := h.same (fun q : Core => q.queue d)
    cases d <;> exact hread
  have hr (d : Eng) : x.running d = k.running d := by
    have hread := h.same (fun q : Core => q.running d)
    cases d <;> exact hread
  have hs (f : StreamId) : x.stream f = k.stream f := by
    have hread := h.same (fun q : Core => q.stream f)
    cases f <;> exact hread
  refine ⟨by rw [hqueue, hq], fun d hd => ?_, hrun, hpot.trans (Core.potPassOp_head _ _ o (h.same Core.potHead) (h.same Core.potDone)),
    fun f => (hstream f).trans (hs f), hctrs.trans (h.same Core.ctrs), hsems.trans (h.same Core.sems), hprogram.trans (h.same Core.program)⟩
  obtain ⟨hqd, hrd⟩ := hothers d hd
  exact ⟨hqd.trans (hq d), hrd.trans (hr d)⟩

/-! ### The start of an operation on what its work left (R213) -/

theorem State.core_ownLines (s : State) (n m c id d : Nat) : (s.ownLines n m c id).core d = s.core d := rfl

/-- An operation whose work changed of its core what a merge operation changes: it runs, to end with its status and its count, on the
store, the pot and the kettle that its work left. -/
theorem State.mergeStart_core (s : State) (c : Nat) (o : Op) (z : Nat) (m : MergeOut) (h : (s.core c).mergeOnly (m.st.core c)) :
    let k := (s.mergeStart c o z m).core c
    (s.core c).took k .merge o m.status (m.cycles + if m.cycles = 12 ∧ m.status ≠ 0 then 0 else z)
      ∧ (∃ r ∈ k.running .merge, r.vals.head? = some m.count) ∧ k.planes = (s.core c).planes ∧ k.store = (m.st.core c).store
      ∧ k.storePoison = (m.st.core c).storePoison ∧ k.pot = (m.st.core c).pot ∧ k.kettle = (m.st.core c).kettle := by
  intro k
  set w := if m.cycles = 12 ∧ m.status ≠ 0 then 0 else z with hw
  have hcounted := (Core.errorsOnly_counts (m.st.core c) [(0x98, m.rows), (0xD0, w)]).trans (Core.errorsOnly_poisonCounts _ m.poison m.status)
  set x := ((m.st.core c).counts [(0x98, m.rows), (0xD0, w)]).poisonCounts m.poison m.status with hx
  have hk : k = x.start .merge o s.cycles m.status (m.cycles + w) [m.count, m.pos] m.waitHost 0 := by
    simp only [k, State.mergeStart, State.core_updCore_self, State.core_ownLines]
    rfl
  obtain ⟨-, -, ⟨r, hr, hrun⟩, -, -, hstore, hpoison, hpot, hplanes, -, hkettle, -⟩ :=
    x.start_spec .merge o s.cycles m.status (m.cycles + w) [m.count, m.pos] m.waitHost 0
  have hsame := h.trans hcounted.storeOnly.mergeOnly
  have hfield {α : Type} (g : Core → α) : g { x with counters := (m.st.core c).counters, secded := (m.st.core c).secded } = g (m.st.core c) := congrArg g hcounted
  rw [hk]
  exact ⟨hsame.took (Core.start_took ..), ⟨r, hr, by rw [hrun]; rfl⟩, hplanes.trans (hsame.same Core.planes), hstore.trans (hfield Core.store),
    hpoison.trans (hfield Core.storePoison), hpot.trans (hfield Core.pot), hkettle.trans (hfield Core.kettle)⟩

theorem State.mergeStart_core_ne (s : State) (c d : Nat) (o : Op) (z : Nat) (m : MergeOut) (h : d ≠ c) : (s.mergeStart c o z m).core d = m.st.core d :=
  State.core_updCore_ne _ _ _ _ h

/-- An operation that changed no module state beyond its core and the free values drawn leaves it so. -/
theorem State.mergeStart_beyond (s : State) (c : Nat) (o : Op) (z : Nat) (m : MergeOut) (h : { m.st with cores := s.cores, freeIx := s.freeIx } = s) :
    { s.mergeStart c o z m with cores := s.cores, freeIx := s.freeIx } = s ∧ (s.mergeStart c o z m).freeIx = m.st.freeIx := by
  have hlnk : m.st.lnk = s.lnk := (congrArg State.lnk h :)
  have hchk : m.st.chk = s.chk := (congrArg State.chk h :)
  have howned := m.st.ownLines_none c o.id
  rw [hlnk, hchk] at howned
  rw [State.mergeStart, howned]
  exact ⟨h, rfl⟩

theorem State.mergeStart_onlyCore (s : State) (c : Nat) (o : Op) (z : Nat) (m : MergeOut) (h : s.onlyCore m.st c) : s.onlyCore (s.mergeStart c o z m) c := by
  obtain ⟨hbeyond, hothers⟩ := h
  have hfree : m.st.freeIx = s.freeIx := (congrArg State.freeIx hbeyond :)
  obtain ⟨hall, hix⟩ := s.mergeStart_beyond c o z m (by rw [← hfree]; exact hbeyond)
  refine ⟨?_, fun d hd => (s.mergeStart_core_ne c d o z m hd).trans (hothers d hd)⟩
  rw [← hix.trans hfree] at hall
  exact hall

theorem State.onlyCore_refl (s : State) (c : Nat) : s.onlyCore s c := ⟨rfl, fun _ _ => rfl⟩

/-- A merge command whose operation changed nothing but its core: what the start of the operation keeps of it. -/
theorem State.mergeCmd_runs {s : State} {c opc : Nat} {o : Op} {kind : Op → Bool} {run : Op → MergeOut} (z : Nat) (hhead : s.head c .merge opc = some o)
    (hkind : kind o = true) (honly : s.onlyCore (run o).st c) (hcore : (s.core c).mergeOnly ((run o).st.core c)) :
    ∃ t, s.mergeCmd c opc z kind run = .next t ∧ s.onlyCore t c
      ∧ (s.core c).took (t.core c) .merge o (run o).status ((run o).cycles + if (run o).cycles = 12 ∧ (run o).status ≠ 0 then 0 else z)
      ∧ (∃ r ∈ (t.core c).running .merge, r.vals.head? = some (run o).count) ∧ (t.core c).planes = (s.core c).planes
      ∧ (t.core c).store = ((run o).st.core c).store ∧ (t.core c).storePoison = ((run o).st.core c).storePoison
      ∧ (t.core c).pot = ((run o).st.core c).pot ∧ (t.core c).kettle = ((run o).st.core c).kettle :=
  ⟨s.mergeStart c o z (run o), by simp only [State.mergeCmd, hhead, hkind, if_true], s.mergeStart_onlyCore c o z _ honly, s.mergeStart_core c o z _ hcore⟩

/-- A merge command whose operation ends before its work: the core keeps its store, its pot and its kettle. -/
theorem State.mergeCmd_untouched {s : State} {c opc : Nat} {o : Op} {kind : Op → Bool} {run : Op → MergeOut} (z : Nat) (hhead : s.head c .merge opc = some o)
    (hkind : kind o = true) (hst : (run o).st = s) :
    ∃ t, s.mergeCmd c opc z kind run = .next t ∧ s.onlyCore t c
      ∧ (s.core c).took (t.core c) .merge o (run o).status ((run o).cycles + if (run o).cycles = 12 ∧ (run o).status ≠ 0 then 0 else z)
      ∧ (t.core c).store = (s.core c).store ∧ (t.core c).pot = (s.core c).pot ∧ (t.core c).kettle = (s.core c).kettle := by
  obtain ⟨t, hexec, honly, htook, -, -, hstore, -, hpot, hkettle⟩ := State.mergeCmd_runs (run := run) z hhead hkind (by rw [hst]; exact s.onlyCore_refl c) (by rw [hst]; rfl)
  rw [hst] at hstore hpot hkettle
  exact ⟨t, hexec, honly, htook, hstore, hpot, hkettle⟩

end Sys2Proof.Machine
end

-- ==== Sys2Proof/Proofs/GatherScatter.lean ====

section
namespace Sys2Proof.Machine

/-! ### Changes of one core that requests make (R197 to R200) -/

/-- A relation of a core and what it becomes that holds of the changes which single-bit corrections make, and of one such change after another. -/
structure CoreChange (R : Core → Core → Prop) : Prop where
  corrected : ∀ {k x : Core}, k.errorsOnly x → R k x
  trans : ∀ {k x y : Core}, R k x → R x y → R k y

/-- The core store changes, and of its bytes those from `lo` up to `hi` alone. -/
def Core.writesIn (lo hi : Nat) (k x : Core) : Prop := k.storeOnly x ∧ ∀ a, (a < lo ∨ hi ≤ a) → x.byteAt a = k.byteAt a

/-- The table that a SCATTER changes: the pot, or a range of the core store. -/
def Core.scatters (sp : Nat) (k x : Core) : Prop := if sp = 2 then k.potOnly x else k.storeOnly x

theorem Core.storeOnly.pot {k x : Core} (h : k.storeOnly x) : x.pot = k.pot := (congrArg Core.pot h :)

theorem Core.storeOnly.kettle {k x : Core} (h : k.storeOnly x) : x.kettle = k.kettle := (congrArg Core.kettle h :)

theorem Core.storeOnly.planes {k x : Core} (h : k.storeOnly x) : x.planes = k.planes := (congrArg Core.planes h :)

theorem Core.potOnly.store {k x : Core} (h : k.potOnly x) : x.store = k.store := (congrArg Core.store h :)

theorem Core.potOnly.kettle {k x : Core} (h : k.potOnly x) : x.kettle = k.kettle := (congrArg Core.kettle h :)

theorem Core.errorsOnly.store {k x : Core} (h : k.errorsOnly x) : x.store = k.store := (congrArg Core.store h :)

theorem coreChange_writesIn (lo hi : Nat) : CoreChange (Core.writesIn lo hi) where
  corrected h := ⟨h.storeOnly, fun a _ => Core.byteAt_of_store h.store a⟩
  trans h g := ⟨h.1.trans g.1, fun a ha => (g.2 a ha).trans (h.2 a ha)⟩

theorem coreChange_scatters (sp : Nat) : CoreChange (Core.scatters sp) where
  corrected h := by
    unfold Core.scatters
    split
    · exact h.potOnly
    · exact h.storeOnly
  trans h g := by
    unfold Core.scatters at h g ⊢
    split at h
    next hsp => rw [if_pos hsp] at g ⊢; exact h.trans g
    next hsp => rw [if_neg hsp] at g ⊢; exact h.trans g

theorem Core.scatters.mergeOnly {sp : Nat} {k x : Core} (h : Core.scatters sp k x) : k.mergeOnly x := by
  unfold Core.scatters at h
  split at h
  · exact h.mergeOnly
  · exact h.mergeOnly

theorem Core.scatters.kettle {sp : Nat} {k x : Core} (h : Core.scatters sp k x) : x.kettle = k.kettle := by
  unfold Core.scatters at h
  split at h
  · exact h.kettle
  · exact h.kettle

/-- A view of core `c`'s requests that has reached no memory beyond its core, and of the core has made a change `R`. -/
structure MemRun.within (R : Core → Core → Prop) (s : State) (c : Nat) (m : MemRun) : Prop where
  only : s.onlyCore m.st c
  core : R (s.core c) (m.st.core c)
  fault : m.fault = none
  lost : m.lost = false

section
variable {R : Core → Core → Prop} (hR : CoreChange R) {s : State} {c : Nat}
include hR

theorem MemRun.within_start (s : State) (c blk : Nat) (host : List HostReply) : (MemRun.start s c blk host).within R s c :=
  ⟨s.onlyCore_refl c, hR.corrected (Core.errorsOnly_refl _), rfl, rfl⟩

theorem MemRun.within.setCore {m : MemRun} (h : m.within R s c) {k : Core} (hk : R (m.st.core c) k) :
    { m with st := m.st.setCore c k }.within R s c :=
  ⟨h.only.trans (State.onlyCore_setCore ..), by rw [State.core_setCore_self]; exact hR.trans h.core hk, h.fault, h.lost⟩

/-! ### A row of the table read (R197, R200) -/

theorem GsRun.within_hotRead {g : GsRun} (h : g.m.within R s c) (rw i : Nat) : (g.hotRead c rw i).1.m.within R s c :=
  h.setCore hR (hR.corrected ((Core.errorsOnly_foldl (fun (x : Core) w => x.mend .hotRow w) (fun x w => Core.errorsOnly_mend x .hotRow w) _ _).trans
    (Core.errorsOnly_count ..)))

end

theorem GsRun.hotPut_m (g : GsRun) (rw r : Nat) (ws : List PWord) : (g.hotPut rw r ws).m = g.m := by
  unfold GsRun.hotPut
  split <;> rfl

theorem GsRun.hotPut_count (g : GsRun) (rw r : Nat) (ws : List PWord) : (g.hotPut rw r ws).count = g.count := by
  unfold GsRun.hotPut
  split <;> rfl

theorem GsRun.hotPut_stop (g : GsRun) (rw r : Nat) (ws : List PWord) : (g.hotPut rw r ws).stop = g.stop := by
  unfold GsRun.hotPut
  split <;> rfl

/-- What a step leaves of a GATHER that has stopped nowhere: its requests within its core, as many positions done as before, and `n` words. -/
structure GsRun.fetched (R : Core → Core → Prop) (s : State) (c : Nat) (g : GsRun) (n : Nat) (q : GsRun × List PWord) : Prop where
  within : q.1.m.within R s c
  count : q.1.count = g.count
  stop : q.1.stop = g.stop
  length : q.2.length = n

section
variable {R : Core → Core → Prop} (hR : CoreChange R) {s : State} {c : Nat}
include hR

/-- A row of a table in the core store or the pot is read without a request. -/
theorem GsRun.fetched_fetch {g : GsRun} {o : Op} {r : Nat} {q : GsRun × List PWord} (hq : g.fetch o c r = q) (h : g.m.within R s c)
    (hsp : o.f 0 22 2 = 0 ∨ o.f 0 22 2 = 2) : g.fetched R s c o.rowWords q := by
  rw [← hq]
  unfold GsRun.fetch
  rcases hsp with hstore | hpot
  · simp only [hstore, OfNat.zero_ne_ofNat, if_false, if_true]
    cases g.held 0 o.rowWords r with
    | none => exact ⟨by rw [GsRun.hotPut_m]; exact h, GsRun.hotPut_count .., GsRun.hotPut_stop .., Core.length_csRun ..⟩
    | some i =>
      have hread := GsRun.within_hotRead hR h o.rowWords i
      simp only []
      split
      · exact ⟨hread, rfl, rfl, Core.length_csRun ..⟩
      · exact ⟨hread, rfl, rfl, Core.length_csRun ..⟩
  · simp only [hpot, if_true]
    exact ⟨h.setCore hR (hR.corrected (Core.errorsOnly_count ..)), rfl, rfl, by simp⟩

end

/-! ### The positions of a GATHER (R197 to R199) -/

/-- A GATHER that has stopped nowhere after `p` positions, the output its only range. -/
structure GsRun.gathered (s : State) (c : Nat) (o : Op) (p : Nat) (g : GsRun) : Prop where
  within : g.m.within (Core.writesIn (64 * o.f 8 0 15) (64 * o.f 8 0 15 + 4 * o.rowWords * o.posN)) s c
  count : g.count = p
  stop : g.stop = none

/-- The row of a position lies in the output. -/
theorem Core.writesIn_row (k : Core) (out rw n p : Nat) (hp : p < n) (ws : List PWord) (hlen : ws.length = rw) :
    Core.writesIn out (out + 4 * rw * n) k (k.csWords (out + 4 * rw * p) ws) := by
  refine ⟨Core.storeOnly_csWrite .., fun a ha => Core.csWords_byteAt _ _ _ a ?_⟩
  have hrow : 4 * rw * p + 4 * rw ≤ 4 * rw * n := by
    calc 4 * rw * p + 4 * rw = 4 * rw * (p + 1) := (Nat.mul_succ ..).symm
      _ ≤ 4 * rw * n := Nat.mul_le_mul_left _ hp
  rw [hlen]
  omega

theorem GsRun.gathered.step {s : State} {c : Nat} {o : Op} {p : Nat} {g : GsRun} (h : g.gathered s c o p) (hsp : o.f 0 22 2 = 0 ∨ o.f 0 22 2 = 2)
    (hp : p < o.posN) : (gatherPos o c g p).gathered s c o (p + 1) := by
  have hR := coreChange_writesIn (64 * o.f 8 0 15) (64 * o.f 8 0 15 + 4 * o.rowWords * o.posN)
  have hput {m : MemRun} (hm : m.within (Core.writesIn (64 * o.f 8 0 15) (64 * o.f 8 0 15 + 4 * o.rowWords * o.posN)) s c) (ws : List PWord)
      (hlen : ws.length = o.rowWords) := hm.setCore hR ((m.st.core c).writesIn_row (64 * o.f 8 0 15) o.rowWords o.posN p hp ws hlen)
  obtain ⟨hwithin, hcount, hstop⟩ := h
  unfold gatherPos
  simp only [hstop]
  split
  next => exact ⟨hput hwithin _ List.length_replicate, congrArg (· + 1) hcount, rfl⟩
  next =>
    split
    next => exact ⟨hput hwithin _ List.length_replicate, congrArg (· + 1) hcount, rfl⟩
    next r _ =>
      generalize hq : GsRun.fetch _ o c r = q
      obtain ⟨hfetch, hcount1, hstop1, hlen⟩ := GsRun.fetched_fetch hR hq hwithin hsp
      split
      next hfault => exact absurd (hfault.symm.trans hfetch.fault) (by simp)
      next => exact ⟨hput hfetch _ hlen, congrArg (· + 1) (hcount1.trans hcount), hstop1⟩

theorem GsRun.gathered.foldl {s : State} {c : Nat} {o : Op} {g : GsRun} (h : g.gathered s c o 0) (hsp : o.f 0 22 2 = 0 ∨ o.f 0 22 2 = 2) :
    ∀ n ≤ o.posN, ((List.range n).foldl (gatherPos o c) g).gathered s c o n
  | 0, _ => h
  | n + 1, hn => by
    rw [List.range_succ, List.foldl_append]
    exact (h.foldl hsp n (by omega)).step hsp hn

/-! ### The positions of a SCATTER (R199) -/

theorem Core.scatters_pot {sp : Nat} (hsp : sp = 2) {k x : Core} (h : k.potOnly x) : Core.scatters sp k x := by
  rwa [Core.scatters, if_pos hsp]

theorem Core.scatters_store {sp : Nat} (hsp : sp = 0) {k x : Core} (h : k.storeOnly x) : Core.scatters sp k x := by
  rwa [Core.scatters, if_neg (by omega)]

/-- A row placed in a table of the core store or the pot changes the table alone, and stops nowhere. -/
theorem GsRun.scatters_place {s : State} {c : Nat} {g q : GsRun} {o : Op} {r : Nat} {ws : List PWord} (hq : g.place o c r ws = q)
    (h : g.m.within (Core.scatters (o.f 0 22 2)) s c) (hsp : o.f 0 22 2 = 0 ∨ o.f 0 22 2 = 2) :
    q.m.within (Core.scatters (o.f 0 22 2)) s c ∧ q.stop = g.stop := by
  have hR := coreChange_scatters (o.f 0 22 2)
  rw [← hq]
  unfold GsRun.place
  rcases hsp with hstore | hpot
  · have hwrite {g : GsRun} (hg : g.m.within (Core.scatters (o.f 0 22 2)) s c) (l : List PWord) :
        { g.m with st := g.m.st.setCore c ((g.m.st.core c).csWords (o.rowAddr r) l) }.within (Core.scatters (o.f 0 22 2)) s c :=
      hg.setCore hR (Core.scatters_store hstore (Core.storeOnly_csWrite ..))
    simp only [hstore, OfNat.zero_ne_ofNat, if_false, if_true]
    rw [hstore] at h hwrite hR
    split
    next => exact ⟨hwrite h _, rfl⟩
    next =>
      split
      next => exact ⟨hwrite (by rw [GsRun.hotPut_m]; exact h) _, GsRun.hotPut_stop ..⟩
      next i _ => exact ⟨hwrite (GsRun.within_hotRead hR h o.rowWords i) _, rfl⟩
  · simp only [hpot, if_true]
    rw [hpot] at h hR
    exact ⟨h.setCore hR (Core.scatters_pot rfl (Core.potOnly_potApply ..)), trivial⟩

/-- A SCATTER that has stopped nowhere, or at a poisoned index; the table is all that it changed. -/
structure GsRun.scattered (s : State) (c : Nat) (o : Op) (g : GsRun) : Prop where
  within : g.m.within (Core.scatters (o.f 0 22 2)) s c
  stop : g.stop = none ∨ ∃ p, g.stop = some (0x50, p)

theorem GsRun.scattered.step {s : State} {c : Nat} {o : Op} {g : GsRun} (h : g.scattered s c o) (hsp : o.f 0 22 2 = 0 ∨ o.f 0 22 2 = 2) (p : Nat) :
    (scatterPos o c g p).scattered s c o := by
  unfold scatterPos
  split
  next => exact h
  next hstop =>
    obtain ⟨hwithin, -⟩ := h
    simp only []
    split
    next => exact ⟨hwithin, .inr ⟨p, rfl⟩⟩
    next =>
      split
      next => exact ⟨hwithin, .inl hstop⟩
      next r _ =>
        generalize hq : GsRun.place _ o c r _ = q
        obtain ⟨hplace, hstop1⟩ := GsRun.scatters_place hq hwithin hsp
        split
        next hfault => exact absurd (hfault.symm.trans hplace.fault) (by simp)
        next => exact ⟨hplace, .inl (hstop1.trans hstop)⟩

theorem GsRun.scattered.foldl {s : State} {c : Nat} {o : Op} {g : GsRun} (h : g.scattered s c o) (hsp : o.f 0 22 2 = 0 ∨ o.f 0 22 2 = 2) (l : List Nat) :
    (l.foldl (scatterPos o c) g).scattered s c o :=
  List.foldlRecOn (motive := GsRun.scattered s c o) l _ h (fun _ hx p _ => hx.step hsp p)

/-! ### The end of the positions (R197, R213) -/

/-- A GATHER or SCATTER before its first position. -/
def GsRun.start (s : State) (c : Nat) (host : List HostReply) : GsRun :=
  { m := MemRun.start s c 2 host, hot := [], entered := 0, hits := 0, adj := 0, firstAdj := none, count := 0, done := 0, cost := 0, poison := 0, stop := none }

/-- A GATHER or SCATTER after its positions. -/
def State.gsRun (s : State) (c : Nat) (host : List HostReply) (o : Op) : GsRun :=
  (List.range o.posN).foldl (if o.opc = 0x30 then gatherPos o c else scatterPos o c) (GsRun.start s c host)

/-- The status of a run that reached no memory beyond its core: that of the position it stopped at, else OK or DATA_POISON. -/
def GsRun.status (g : GsRun) : Nat :=
  match g.stop with
  | some (e, _) => e
  | none => withPoison 0 g.poison

theorem withPoison_zero (n : Nat) : withPoison 0 n = 0 ∨ withPoison 0 n = 0x90 := by
  unfold withPoison
  split
  · exact .inr rfl
  · exact .inl rfl

/-- A GATHER or SCATTER whose checks hold ends with its run's status and count, and changes of its core what its run did. -/
theorem State.gsGo_within {R : Core → Core → Prop} (hR : CoreChange R) (s : State) (c : Nat) (host : List HostReply) (o : Op) (hst : gsStatus o = 0)
    (hfault : (s.core c).idxFault o = none) (hdup : o.opc = 0x31 → (s.core c).dupAt o = none) (hrun : (s.gsRun c host o).m.within R s c) :
    s.onlyCore (s.gsGo c host o).st c ∧ R (s.core c) ((s.gsGo c host o).st.core c) ∧ (s.gsGo c host o).status = (s.gsRun c host o).status
      ∧ (s.gsGo c host o).count = (s.gsRun c host o).count := by
  have hfirst : (if o.opc = 0x31 then (s.core c).dupAt o else none) = none := by
    split
    next hopc => exact hdup hopc
    next => rfl
  generalize hm : s.gsGo c host o = m
  unfold State.gsGo at hm
  simp only [hst, hfault, hfirst] at hm
  rw [← GsRun.start, ← State.gsRun] at hm
  generalize hg : s.gsRun c host o = g at hm hrun
  obtain ⟨honly, hcore, hnone, hlost⟩ := hrun
  rw [hnone, hlost] at hm
  subst hm
  have hcounted (l : List (Nat × Nat)) (st : Nat) : R (s.core c) (((g.m.counted c st).updCore c (fun x => x.counts l)).core c) := by
    rw [State.core_updCore_self, MemRun.counted, State.core_updCore_self]
    exact hR.trans hcore (hR.corrected ((Core.errorsOnly_counts ..).trans (Core.errorsOnly_counts ..)))
  refine ⟨(honly.trans (State.onlyCore_setCore ..)).trans (State.onlyCore_setCore ..), hcounted _ _, rfl, rfl⟩

theorem State.gsGo_early {s : State} {c : Nat} {host : List HostReply} {o : Op} (hst : gsStatus o ≠ 0) :
    (s.gsGo c host o).st = s ∧ (s.gsGo c host o).status = gsStatus o ∧ (s.gsGo c host o).cycles = 12 := by
  unfold State.gsGo
  split
  next h => exact absurd h hst
  next => exact ⟨rfl, rfl, rfl⟩

theorem State.gsGo_dup {s : State} {c : Nat} {host : List HostReply} {o : Op} {p : Nat} (hst : gsStatus o = 0) (hopc : o.opc = 0x31)
    (hfault : (s.core c).idxFault o = none) (hdup : (s.core c).dupAt o = some p) : (s.gsGo c host o).st = s ∧ (s.gsGo c host o).status = 0x53 := by
  unfold State.gsGo
  simp [hst, hfault, hopc, hdup, mergeEarly]

/-- Checks that hold leave SPACE the core store, device memory or the pot (R197). -/
theorem space_of_gsStatus {o : Op} (h : gsStatus o = 0) (hdev : o.f 0 22 2 ≠ 1) : o.f 0 22 2 = 0 ∨ o.f 0 22 2 = 2 := by
  have hlt : o.f 0 22 2 < 4 := o.f_lt 0 22 2
  have hthree : o.f 0 22 2 ≠ 3 := by
    intro hsp
    simp [gsStatus, hsp, firstFail] at h
  omega

end Sys2Proof.Machine
end

-- ==== Sys2Proof/Proofs/SparseFrames.lean ====

section
namespace Sys2Proof.Machine

/-! ### What the compressor and the tile operations leave alone (R179 to R182, R187 to R190) -/

theorem firstFail_mem (l : List (Bool × Nat)) : firstFail l = 0 ∨ firstFail l ∈ l.map (·.2) := by
  induction l with
  | nil => exact .inl rfl
  | cons p r ih =>
    obtain ⟨failed, st⟩ := p
    cases failed
    · exact ih.imp_right (List.mem_cons_of_mem _)
    · exact .inr List.mem_cons_self

/-- A status that ends an operation before its work. -/
theorem firstFail_fails {l : List (Bool × Nat)} {e : Nat} (h : firstFail l = e) (h0 : e ≠ 0) (hl : 0x90 ∉ l.map (·.2)) : e ∉ [0, 0x90] := by
  have hmem := (firstFail_mem l).resolve_left (by rwa [h])
  rw [h] at hmem
  have h90 : e ≠ 0x90 := fun h => hl (h ▸ hmem)
  simp [h0, h90]

theorem withPoison_mem (n : Nat) : withPoison 0 n ∈ [0, 0x90] := by
  rcases withPoison_zero n with h | h <;> simp [h]

/-- What an operation on core `c` that writes the core store alone leaves, free values aside: the store as it was where it fails. -/
structure State.storesOnly (s : State) (c : Nat) (m : MergeOut) : Prop where
  beyond : { m.st with cores := s.cores, freeIx := s.freeIx } = s
  others : ∀ d, d ≠ c → m.st.core d = s.core d
  core : (s.core c).storeOnly (m.st.core c)
  failed : m.status ∉ [0, 0x90] → (m.st.core c).store = (s.core c).store

/-- An operation that a check ends before its first read. -/
theorem State.storesOnly_self {s : State} {c : Nat} {m : MergeOut} (h : m.st = s) : s.storesOnly c m :=
  ⟨by rw [h], fun d _ => by rw [h], by rw [h]; rfl, fun _ => by rw [h]⟩

/-- An operation that leaves its core `x`. -/
theorem State.storesOnly_setCore {s : State} {c : Nat} {m : MergeOut} {x : Core} (h : m.st = s.setCore c x) (hx : (s.core c).storeOnly x)
    (hst : m.status ∈ [0, 0x90]) : s.storesOnly c m :=
  ⟨by rw [h]; rfl, fun d hd => by rw [h]; exact State.core_setCore_ne _ _ _ _ hd, by rw [h, State.core_setCore_self]; exact hx, fun hno => absurd hst hno⟩

theorem State.storesOnly.onlyCore {s : State} {c : Nat} {m : MergeOut} (h : s.storesOnly c m) (hfree : m.st.freeIx = s.freeIx) : s.onlyCore m.st c := by
  refine ⟨?_, h.others⟩
  have hbeyond := h.beyond
  rw [← hfree] at hbeyond
  exact hbeyond

/-- A pack writes from its destination up, in 12 cycles where a check ends it (R187, R188). -/
theorem State.bitmapPackGo_frame (s : State) (c : Nat) (o : Op) :
    let m := s.bitmapPackGo c o
    s.storesOnly c m ∧ m.st.freeIx = s.freeIx ∧ (∀ a < 64 * o.f 8 0 15, (m.st.core c).byteAt a = (s.core c).byteAt a)
      ∧ (m.status ∉ [0, 0x90] → m.cycles = 12 ∧ m.status ≠ 0)
      ∧ (m.status ∈ [0, 0x90] → m.cycles = 12 + 2 * cdiv ((o.f 0 8 8 + 1) * (o.f 0 0 8 + 1) * esizeBytes (o.f 0 22 2)) 64) := by
  intro m
  generalize hm : m = y
  rw [show m = s.bitmapPackGo c o from rfl] at hm
  revert hm
  unfold State.bitmapPackGo
  extract_lets k es sz rows cols force a d nb most src np t k1
  clear_value t np
  have hstores : k.storeOnly k1 := (Core.storeOnly_csWrite ..).trans (Core.errorsOnly_count ..).storeOnly
  have hbelow (b : Nat) (hb : b < d) : k1.byteAt b = k.byteAt b :=
    (Core.byteAt_of_store (Core.count_store ..) b).trans (Core.csWrite_byteAt k d _ b (.inl hb))
  clear_value k1
  rintro rfl
  split
  next =>
    refine ⟨State.storesOnly_setCore rfl hstores (withPoison_mem _), rfl, fun b hb => ?_, fun hno => absurd (withPoison_mem _) hno, fun _ => rfl⟩
    rw [State.core_setCore_self]
    exact hbelow b hb
  next e he =>
    have hfails := firstFail_fails rfl he (by simp)
    exact ⟨State.storesOnly_self rfl, rfl, fun _ _ => rfl, fun _ => ⟨rfl, he⟩, fun hin => absurd hin hfails⟩

/-- A decode to the dense form writes from its destination up; one that fails ends after its start-up (R189). -/
theorem State.bitmapDecodeGo_frame (s : State) (c : Nat) (o : Op) :
    let m := s.bitmapDecodeGo c o
    s.storesOnly c m ∧ m.st.freeIx = s.freeIx ∧ (o.f 0 20 2 = 0 → ∀ a < 64 * o.f 8 0 15, (m.st.core c).byteAt a = (s.core c).byteAt a)
      ∧ (m.status ∉ [0, 0x90] → m.cycles = 12 ∧ m.status ≠ 0) := by
  intro m
  generalize hm : m = x
  simp only [m, State.bitmapDecodeGo] at hm
  split at hm
  next =>
    split at hm
    next =>
      subst hm
      refine ⟨State.storesOnly_setCore rfl ?_ (withPoison_mem _), rfl, fun hform a ha => ?_, fun hno => absurd (withPoison_mem _) hno⟩
      · split
        · exact Core.storeOnly_csWrite ..
        · exact ((Core.storeOnly_csWrite ..).trans (Core.storeOnly_csWrite ..)).trans (Core.storeOnly_csWrite ..)
      · rw [State.core_setCore_self, if_pos (by simp [hform])]
        exact Core.csWrite_byteAt _ _ _ a (.inl ha)
    next e he =>
      subst hm
      exact ⟨State.storesOnly_self rfl, rfl, fun _ _ _ => rfl, fun _ => ⟨rfl, he⟩⟩
  next e he =>
    subst hm
    exact ⟨State.storesOnly_self rfl, rfl, fun _ _ _ => rfl, fun _ => ⟨rfl, he⟩⟩

/-- The compressor writes from its destination up, and draws a free value where it searches (R179 to R182). -/
theorem State.compressGo_frame (s : State) (c : Nat) (o : Op) :
    let m := s.compressGo c o
    s.storesOnly c m ∧ ∀ a < 64 * o.f 0xC 0 15, (m.st.core c).byteAt a = (s.core c).byteAt a := by
  intro m
  generalize hm : m = y
  rw [show m = s.compressGo c o from rfl] at hm
  revert hm
  unfold State.compressGo
  extract_lets k keepM lax target wf gs n split mA a d rb vB iB outB srcB rs w el vals mix mask cells nzs overfull outside badIx slots np f search s1 one st
    slot gp padTo rows ix
  have hs1 : { s1 with cores := s.cores, freeIx := s.freeIx } = s ∧ (∀ d, d ≠ c → s1.core d = s.core d) ∧ (s.core c).errorsOnly (s1.core c) := by
    simp only [s1, f, State.free32]
    split
    · exact ⟨rfl, fun d hd => State.core_updCore_ne _ _ _ _ hd, by rw [State.core_updCore_self]; exact Core.errorsOnly_counts ..⟩
    · exact ⟨rfl, fun d hd => State.core_updCore_ne _ _ _ _ hd, by rw [State.core_updCore_self]; exact Core.errorsOnly_counts ..⟩
  clear_value s1
  obtain ⟨hbeyond, hothers, herrors⟩ := hs1
  rintro rfl
  split
  next =>
    split
    next => exact ⟨⟨hbeyond, hothers, herrors.storeOnly, fun _ => herrors.store⟩, fun b _ => Core.byteAt_of_store herrors.store b⟩
    next =>
      refine ⟨⟨hbeyond, fun d hd => (State.core_updCore_ne _ _ _ _ hd).trans (hothers d hd), ?_, fun hno => absurd (withPoison_mem _) hno⟩, fun b hb => ?_⟩
      · rw [State.core_updCore_self]
        exact herrors.storeOnly.trans (Core.storeOnly_csWrite ..)
      · rw [State.core_updCore_self]
        exact (Core.csWrite_byteAt _ _ _ b (.inl hb)).trans (Core.byteAt_of_store herrors.store b)
  next => exact ⟨State.storesOnly_self rfl, fun _ _ => rfl⟩

/-- A merge command whose operation writes the core store alone. -/
theorem State.mergeCmd_stores {s : State} {c opc : Nat} {o : Op} {run : Op → MergeOut} (z : Nat) (hhead : s.head c .merge opc = some o)
    (h : s.storesOnly c (run o)) :
    ∃ t, s.mergeCmd c opc z anyOp run = .next t ∧ s.coreAndClock t c ∧ ((run o).st.freeIx = s.freeIx → s.onlyCore t c)
      ∧ (s.core c).took (t.core c) .merge o (run o).status ((run o).cycles + if (run o).cycles = 12 ∧ (run o).status ≠ 0 then 0 else z)
      ∧ (t.core c).pot = (s.core c).pot ∧ (t.core c).planes = (s.core c).planes ∧ (t.core c).store = ((run o).st.core c).store := by
  obtain ⟨hbeyond, -⟩ := s.mergeStart_beyond c o z (run o) h.beyond
  obtain ⟨htook, -, hplanes, hstore, -, hpot, -⟩ := s.mergeStart_core c o z (run o) h.core.mergeOnly
  have hothers (d : Nat) (hd : d ≠ c) : (s.mergeStart c o z (run o)).core d = s.core d := (s.mergeStart_core_ne c d o z _ hd).trans (h.others d hd)
  have htime : (s.mergeStart c o z (run o)).time = s.time := (congrArg State.time hbeyond :)
  refine ⟨_, s.mergeCmd_head c opc z o run hhead, ⟨congrArg (fun q : State => { q with time := s.time, clk := s.clk, power := s.power, trace := s.trace }) hbeyond,
    fun d hd => ?_⟩, fun hfree => s.mergeStart_onlyCore c o z _ (h.onlyCore hfree), htook, hpot.trans h.core.pot, hplanes, hstore⟩
  rw [hothers d hd, htime, State.toTime, Nat.sub_self, State.advance_zero]

end Sys2Proof.Machine

open Sys2Proof Sys2Proof.Machine

/-- Settles O25. Every position of a GATHER or SCATTER whose table is on the core keeps the change within its output or its table, and no
request is made that could fail; the compressor and the tile operations write the core store once, after their checks. -/
theorem gatherScatterSparseAndBitmap : Obligations.GatherScatterSparseAndBitmap := by
  refine ⟨fun s c z host o => ⟨fun hhead hst hdev hfault => ?_, fun hhead hst hdev hfault hdup => ?_, fun p hhead hst hfault hdup => ?_,
    fun j opc hj hhead hst => ?_⟩, fun s c z o => ⟨fun hhead => ?_, fun hhead => ?_, fun hhead => ?_⟩⟩
  · have hsp := space_of_gsStatus hst hdev
    obtain ⟨-, hopc, -⟩ := s.head_spec c.val .merge 0x30 o hhead
    have hrun : (s.gsRun c.val host o).gathered s c.val o o.posN := by
      rw [State.gsRun, if_pos hopc]
      exact GsRun.gathered.foldl ⟨MemRun.within_start (coreChange_writesIn ..) .., rfl, rfl⟩ hsp _ le_rfl
    obtain ⟨honly, ⟨hstores, hframe⟩, hstatus, hcount⟩ := s.gsGo_within (coreChange_writesIn ..) c.val host o hst hfault (by omega) hrun.within
    obtain ⟨t, hexec, honlyT, htook, hvals, -, hstore, -, hpot, hkettle⟩ := State.mergeCmd_runs (kind := anyOp) z hhead rfl honly hstores.mergeOnly
    rw [hcount, hrun.count] at hvals
    refine ⟨t, _, _, hexec, honlyT, htook, ?_, hpot.trans hstores.pot, hkettle.trans hstores.kettle, hvals,
      fun a ha => (Core.byteAt_of_store hstore a).trans (hframe a ha)⟩
    rw [hstatus, GsRun.status, hrun.stop]
    exact withPoison_zero _
  · have hsp := space_of_gsStatus hst hdev
    obtain ⟨-, hopc, -⟩ := s.head_spec c.val .merge 0x31 o hhead
    have hrun : (s.gsRun c.val host o).scattered s c.val o := by
      rw [State.gsRun, if_neg (by omega)]
      exact GsRun.scattered.foldl ⟨MemRun.within_start (coreChange_scatters _) .., .inl rfl⟩ hsp _
    obtain ⟨honly, htable, hstatus, -⟩ := s.gsGo_within (coreChange_scatters _) c.val host o hst hfault (fun _ => hdup) hrun.within
    obtain ⟨t, hexec, honlyT, htook, -, -, hstore, -, hpot, hkettle⟩ := State.mergeCmd_runs (kind := anyOp) z hhead rfl honly htable.mergeOnly
    refine ⟨t, _, _, hexec, honlyT, htook, ?_, ?_, fun h2 => hstore.trans ?_, fun h0 => hpot.trans ?_⟩
    · rw [hstatus, GsRun.status]
      rcases hrun.stop with hstop | ⟨p, hstop⟩
      · rcases withPoison_zero (s.gsRun c.val host o).poison with h | h <;> simp [hstop, h]
      · simp [hstop]
    · exact hkettle.trans (Core.scatters.kettle htable)
    · rw [Core.scatters, if_pos h2] at htable
      exact htable.store
    · rw [Core.scatters, if_neg (by omega)] at htable
      exact htable.pot
  · obtain ⟨-, hopc, -⟩ := s.head_spec c.val .merge 0x31 o hhead
    obtain ⟨hsame, hstatus⟩ := State.gsGo_dup (host := host) hst hopc hfault hdup
    obtain ⟨t, hexec, honly, htook, hstore, hpot, -⟩ := State.mergeCmd_untouched (kind := anyOp) (run := s.gsGo c.val host) z hhead rfl hsame
    rw [hstatus] at htook
    exact ⟨t, _, hexec, honly, htook, hstore, hpot⟩
  · obtain ⟨hsame, hstatus, hcycles⟩ := State.gsGo_early (s := s) (c := c.val) (host := host) hst
    obtain ⟨t, hexec, honly, htook, hstore, -⟩ := State.mergeCmd_untouched (kind := anyOp) (run := s.gsGo c.val host) z hhead rfl hsame
    rw [hstatus, hcycles, if_pos ⟨rfl, hst⟩] at htook
    refine ⟨t, ?_, honly, htook, hstore⟩
    simp only [List.mem_cons, Prod.mk.injEq, List.not_mem_nil, or_false] at hj
    rcases hj with ⟨rfl, rfl⟩ | ⟨rfl, rfl⟩
    · exact hexec
    · exact hexec
  · obtain ⟨hframe, hbelow⟩ := s.compressGo_frame c.val o
    obtain ⟨t, hexec, hclock, -, htook, hpot, hplanes, hstore⟩ := State.mergeCmd_stores z hhead hframe
    exact ⟨t, _, hexec, hclock, htook, hpot, hplanes, fun hno => hstore.trans (hframe.failed hno), fun a ha => (Core.byteAt_of_store hstore a).trans (hbelow a ha)⟩
  · obtain ⟨hframe, hfree, hbelow, hfails, hcycles⟩ := s.bitmapPackGo_frame c.val o
    obtain ⟨t, hexec, -, honly, htook, hpot, -, hstore⟩ := State.mergeCmd_stores z hhead hframe
    refine ⟨t, _, hexec, honly hfree, htook, hpot, fun hno => ⟨?_, hstore.trans (hframe.failed hno)⟩, fun hin => ?_,
      fun a ha => (Core.byteAt_of_store hstore a).trans (hbelow a ha)⟩
    · obtain ⟨hstart, hne⟩ := hfails hno
      rw [if_pos ⟨hstart, hne⟩, hstart]
    · rw [hcycles hin, if_neg]
      have hbytes : 0 < (o.f 0 8 8 + 1) * (o.f 0 0 8 + 1) * esizeBytes (o.f 0 22 2) := Nat.mul_pos (Nat.mul_pos (Nat.succ_pos _) (Nat.succ_pos _)) (Nat.two_pow_pos _)
      obtain ⟨hlines, -⟩ := cdiv_mul_bounds ((o.f 0 8 8 + 1) * (o.f 0 0 8 + 1) * esizeBytes (o.f 0 22 2)) 64 (by omega)
      omega
  · obtain ⟨hframe, hfree, hbelow, hfails⟩ := s.bitmapDecodeGo_frame c.val o
    obtain ⟨t, hexec, -, honly, htook, hpot, -, hstore⟩ := State.mergeCmd_stores z hhead hframe
    refine ⟨t, _, hexec, honly hfree, htook, hpot, fun hno => ⟨?_, hstore.trans (hframe.failed hno)⟩, fun hform a ha => (Core.byteAt_of_store hstore a).trans (hbelow hform a ha)⟩
    obtain ⟨hstart, hne⟩ := hfails hno
    rw [if_pos ⟨hstart, hne⟩, hstart]
end

-- ==== Sys2Proof/Proofs/KettlePairs.lean ====

section
namespace Sys2Proof.Machine

/-! ### The kettle's own changes (R209, R211) -/

/-- A core's record but for its kettle, its counters and check bits. -/
def Core.kettleOnly (k x : Core) : Prop := { x with counters := k.counters, secded := k.secded, kettle := k.kettle } = k

theorem Core.kettleOnly.trans {k x y : Core} (h : k.kettleOnly x) (g : x.kettleOnly y) : k.kettleOnly y := by
  unfold Core.kettleOnly at h g ⊢
  exact (congrArg (fun q : Core => { q with counters := k.counters, secded := k.secded, kettle := k.kettle }) g).trans h

theorem Core.errorsOnly.kettleOnly {k x : Core} (h : k.errorsOnly x) : k.kettleOnly x := by
  unfold Core.errorsOnly at h
  unfold Core.kettleOnly
  exact congrArg (fun q : Core => { q with kettle := k.kettle }) h

theorem Core.kettleOnly_set (k : Core) (t : Kettle) : k.kettleOnly { k with kettle := t } := rfl

theorem Core.kettleOnly.mergeOnly {k x : Core} (h : k.kettleOnly x) : k.mergeOnly x := by
  unfold Core.kettleOnly at h
  unfold Core.mergeOnly
  exact congrArg (fun q : Core => { q with
    tlb := k.tlb, pot := k.pot, potPoison := k.potPoison, store := k.store, storePoison := k.storePoison, caddy := k.caddy, popWait := k.popWait }) h

theorem Core.kettleOnly.store {k x : Core} (h : k.kettleOnly x) : x.store = k.store := (congrArg Core.store h :)

theorem Core.errorsOnly.kettle {k x : Core} (h : k.errorsOnly x) : x.kettle = k.kettle := (congrArg Core.kettle h :)

theorem Core.flaw_clean {k : Core} (h : k.secded = []) (m : Sram) (w : Nat) : k.flaw m w = 0 := by
  rw [Core.flaw, h]
  rfl

theorem Core.kettleVal_clean {k : Core} (h : k.secded = []) (e : KEntry) : k.kettleVal e = e.val := by
  simp [Core.kettleVal, Core.flaw_clean h]

theorem KState.refuses_eq_zero {x : KState} : x.refuses = 0 ↔ x = .opened := by cases x <;> simp [KState.refuses]

theorem KState.refuses_of_not_opened {x : KState} (h : x ≠ .opened) : x.refuses = if x = .closed then 0x58 else 0x5A := by
  cases x
  · rfl
  · exact absurd rfl h
  · rfl

/-! ### One pair (R211) -/

/-- An ADD of one pair that is done, the kettle left with the entries `es`. -/
structure AddRun.added (s : State) (c : Nat) (es : List KEntry) (g : AddRun) : Prop where
  only : s.onlyCore g.m.st c
  core : (s.core c).kettleOnly (g.m.st.core c)
  entries : (g.m.st.core c).kettle.entries = es
  fault : g.m.fault = none
  lost : g.m.lost = false
  count : g.count = 1
  poison : g.poison = 0
  stop : g.stop = none

/-- An ADD before its first pair. -/
def AddRun.start (s : State) (c : Nat) : AddRun := { m := MemRun.start s c 2 [], count := 0, hits := 0, boils := 0, poison := 0, stop := none }

section
variable {s : State} {c : Nat} (hstore : (s.core c).storePoison = []) (hcheck : (s.core c).secded = []) (inA : Nat)
include hstore hcheck

/-- A pair whose key is not resident takes the free way of its set. -/
theorem kettlePair_inserts {w : Nat}
    (hnew : ∀ e ∈ (s.core c).kettle.entries, ¬ (e.set = kettleSet ((s.core c).csWord inA).1.toNat ∧ e.key = ((s.core c).csWord inA).1))
    (hway : (s.core c).kettle.freeWay (kettleSet ((s.core c).csWord inA).1.toNat) = some w) :
    (kettlePair c inA (AddRun.start s c) 0).added s c ((s.core c).kettle.entries ++
      [{ set := kettleSet ((s.core c).csWord inA).1.toNat, way := w, key := ((s.core c).csWord inA).1, val := (s.core c).csWord (inA + 4)
         ins := (s.core c).kettle.nextIns }]) := by
  have hnone : (s.core c).kettle.entries.find? (fun e => e.set == kettleSet ((s.core c).csWord inA).1.toNat && e.key == ((s.core c).csWord inA).1) = none := by
    simpa using hnew
  have hkey : ((s.core c).csWord inA).2 = false := Core.csWord_clean hstore _
  have hval : ((s.core c).csWord (inA + 4)).2 = false := Core.csWord_clean hstore _
  generalize hg : kettlePair c inA (AddRun.start s c) 0 = g
  simp only [kettlePair, AddRun.start, MemRun.start, Nat.mul_zero, Nat.add_zero, hkey, Core.flaw_clean hcheck, hnone, hway] at hg
  simp only [Bool.false_eq_true, ↓reduceIte, Nat.reduceBEq, List.any_map, Function.false_comp, List.any_filter, Bool.and_false, List.any_eq_true, and_false,
    exists_false, zero_add] at hg
  subst hg
  refine ⟨?_, ?_, ?_, rfl, rfl, rfl, by simp [hval, b2n], rfl⟩
  · exact ((State.onlyCore_setCore ..).trans (State.onlyCore_setCore ..)).trans (State.onlyCore_setCore ..)
  · simp only [State.core_updCore_self, State.core_setCore_self]
    exact (((Core.errorsOnly_count ..).trans (Core.errorsOnly_mend ..)).trans (Core.errorsOnly_mend ..)).kettleOnly.trans (Core.kettleOnly_set ..)
  · simp only [State.core_updCore_self]

/-- A pair whose key is the one resident is added to its value. -/
theorem kettlePair_adds {e : KEntry} (hone : (s.core c).kettle.entries = [e]) (hset : e.set = kettleSet ((s.core c).csWord inA).1.toNat)
    (hsame : e.key = ((s.core c).csWord inA).1) :
    (kettlePair c inA (AddRun.start s c) 0).added s c
      [{ e with val := (f32add e.val.1 ((s.core c).csWord (inA + 4)).1, e.val.2 || ((s.core c).csWord (inA + 4)).2) }] := by
  have hkey : ((s.core c).csWord inA).2 = false := Core.csWord_clean hstore _
  have hval : ((s.core c).csWord (inA + 4)).2 = false := Core.csWord_clean hstore _
  have hfind : (s.core c).kettle.entries.find? (fun e => e.set == kettleSet ((s.core c).csWord inA).1.toNat && e.key == ((s.core c).csWord inA).1) = some e := by
    simp [hone, hset, hsame]
  generalize hg : kettlePair c inA (AddRun.start s c) 0 = g
  simp only [kettlePair, AddRun.start, MemRun.start, Nat.mul_zero, Nat.add_zero, hkey, Core.flaw_clean hcheck, hfind, Core.kettleVal_clean hcheck] at hg
  simp only [Bool.false_eq_true, ↓reduceIte, Nat.reduceBEq, List.any_map, Function.false_comp, List.any_filter, Bool.and_false, List.any_eq_true, and_false,
    exists_false, zero_add] at hg
  subst hg
  refine ⟨?_, ?_, ?_, rfl, rfl, rfl, by simp [hval, b2n], rfl⟩
  · exact ((State.onlyCore_setCore ..).trans (State.onlyCore_setCore ..)).trans (State.onlyCore_setCore ..)
  · simp only [State.core_updCore_self, State.core_setCore_self]
    exact ((Core.errorsOnly_count ..).trans (Core.errorsOnly_mend ..)).kettleOnly.trans (Core.kettleOnly_set ..)
  · simp [hone, updWhere]

end

/-! ### What the kettle's operations leave (R209 to R212) -/

/-- A good ADD of one pair ends OK in 13 cycles, its kettle left as its pair left it. -/
theorem State.kettleAddGo_one {s : State} {c : Nat} {o : Op} {es : List KEntry} (henc : kettleEnc o = false) (hn : o.posN = 1)
    (hover : csOver (64 * o.f 4 0 15) 8 = false) (hopen : (s.core c).kettle.st = .opened)
    (h : (kettlePair c (64 * o.f 4 0 15) (AddRun.start s c) 0).added s c es) :
    let m := s.kettleAddGo c o
    s.onlyCore m.st c ∧ (s.core c).kettleOnly (m.st.core c) ∧ (m.st.core c).kettle.entries = es ∧ m.status = 0 ∧ m.cycles = 13 := by
  intro m
  generalize hm : m = x
  simp only [m, State.kettleAddGo, hn] at hm
  simp only [firstFail, henc, Bool.false_eq_true, ↓reduceIte, Nat.reduceBEq, mul_one, hover, Bool.or_self, KState.refuses, hopen, List.range_one,
    List.foldl_cons, List.foldl_nil] at hm
  rw [← AddRun.start] at hm
  generalize hg : kettlePair c (64 * o.f 4 0 15) (AddRun.start s c) 0 = g at h
  simp only [hg] at hm
  obtain ⟨honly, hcore, hentries, hfault, hlost, hcount, hpoison, hstop⟩ := h
  simp only [hfault, hstop, hlost, Bool.false_eq_true, ↓reduceIte, withPoison, hpoison, ne_eq, not_true_eq_false, and_false, OfNat.zero_ne_ofNat, hcount,
    Nat.reduceAdd] at hm
  subst hm
  have herrors (l : List (Nat × Nat)) (st : Nat) : (g.m.st.core c).errorsOnly (((g.m.counted c st).updCore c (fun x => x.counts l)).core c) := by
    rw [State.core_updCore_self, MemRun.counted, State.core_updCore_self]
    exact (Core.errorsOnly_counts ..).trans (Core.errorsOnly_counts ..)
  exact ⟨(honly.trans (State.onlyCore_setCore ..)).trans (State.onlyCore_setCore ..), hcore.trans (herrors _ _).kettleOnly,
    (congrArg Kettle.entries (herrors _ _).kettle).trans hentries, rfl, rfl⟩

theorem State.kettleAddGo_refused {s : State} {c : Nat} {o : Op} (henc : kettleEnc o = false) (hn : 0 < o.posN)
    (hover : csOver (64 * o.f 4 0 15) (8 * o.posN) = false) (hopen : (s.core c).kettle.st ≠ .opened) :
    s.kettleAddGo c o = mergeEarly s (s.core c).kettle.st.refuses := by
  have hpos : o.posN ≠ 0 := by omega
  unfold State.kettleAddGo
  simp only [henc, hover, beq_eq_false_iff_ne.mpr hpos, firstFail, Bool.or_self, Bool.false_eq_true, if_false]
  split
  next h => exact absurd (KState.refuses_eq_zero.mp h) hopen
  next => rfl

theorem State.kettleOpenGo_good {s : State} {c : Nat} {o : Op} (henc : kettleEnc o = false) (hclosed : (s.core c).kettle.st = .closed)
    (hbase : o.f64 8 % 64 = 0) (hcap8 : o.f 4 0 32 % 8 = 0) (hcapMin : 8 ≤ o.f 4 0 32) (hcapMax : o.f 4 0 32 ≤ 268435456)
    (hregion : s.regionIn (o.f64 8) (16 * o.f 4 0 32) 0 = true) :
    s.kettleOpenGo c o = mergeOk (s.setCore c { s.core c with kettle := { st := .opened, base := o.f64 8, cap := o.f 4 0 32 } }) := by
  unfold State.kettleOpenGo
  simp [henc, hclosed, hbase, hcap8, hcapMin.not_gt, hcapMax.not_gt, hregion, firstFail]

/-- OPEN of a kettle that is OPEN or LOST is turned away. -/
theorem State.kettleOpenGo_refused {s : State} {c : Nat} {o : Op} (henc : kettleEnc o = false) (hopen : (s.core c).kettle.st ≠ .closed) :
    s.kettleOpenGo c o = mergeEarly s (if (s.core c).kettle.st = .opened then 0x55 else 0x5A) := by
  unfold State.kettleOpenGo
  cases hst : (s.core c).kettle.st with
  | closed => exact absurd hst hopen
  | opened => simp [henc, hst, firstFail]
  | lost => simp [henc, hst, firstFail]

theorem State.kettleDiscardGo_good {s : State} {c : Nat} {o : Op} (henc : kettleEnc o = false) :
    s.kettleDiscardGo c o = mergeOk (s.setCore c (if (s.core c).kettle.st = .closed then s.core c else { s.core c with kettle := {} })) := by
  simp [State.kettleDiscardGo, henc]

/-- A merge operation turned away by the kettle's state or a check of its fields. -/
theorem State.mergeCmd_early {s : State} {c opc e : Nat} {o : Op} {kind : Op → Bool} {run : Op → MergeOut} (z : Nat) (hhead : s.head c .merge opc = some o)
    (hkind : kind o = true) (he : e ≠ 0) (hrun : run o = mergeEarly s e) :
    ∃ t, s.mergeCmd c opc z kind run = .next t ∧ s.onlyCore t c ∧ (s.core c).took (t.core c) .merge o e 12
      ∧ (t.core c).store = (s.core c).store ∧ (t.core c).kettle = (s.core c).kettle := by
  obtain ⟨t, hexec, honly, htook, hstore, -, hkettle⟩ := State.mergeCmd_untouched (kind := kind) (run := run) z hhead hkind (by rw [hrun]; rfl)
  simp only [hrun, mergeEarly, ne_eq, he, not_false_eq_true, and_self, if_true, Nat.add_zero] at htook
  exact ⟨t, hexec, honly, htook, hstore, hkettle⟩

/-- A merge operation that leaves its core `x`, whose kettle alone it changed, and ends OK after its start-up. -/
theorem State.mergeCmd_kettleOk {s : State} {c opc : Nat} {o : Op} {kind : Op → Bool} {run : Op → MergeOut} {x : Core} (z : Nat)
    (hhead : s.head c .merge opc = some o) (hkind : kind o = true) (hx : (s.core c).kettleOnly x) (hrun : run o = mergeOk (s.setCore c x)) :
    ∃ t, s.mergeCmd c opc z kind run = .next t ∧ s.onlyCore t c ∧ (s.core c).took (t.core c) .merge o 0 (12 + z) ∧ (t.core c).kettle = x.kettle := by
  have hst : (run o).st = s.setCore c x := by rw [hrun]; rfl
  obtain ⟨t, hexec, honly, htook, -, -, -, -, -, hkettle⟩ := State.mergeCmd_runs (kind := kind) (run := run) z hhead hkind
    (by rw [hst]; exact State.onlyCore_setCore ..) (by rw [hst, State.core_setCore_self]; exact hx.mergeOnly)
  rw [hst, State.core_setCore_self] at hkettle
  simp only [hrun, mergeOk, mergeEarly, ne_eq, not_true_eq_false, and_false, if_false] at htook
  exact ⟨t, hexec, honly, htook, hkettle⟩

/-- A good ADD of one pair: the kettle holds the entries that the pair left, and the core store stands. -/
theorem State.mergeCmd_kettleAdds {s : State} {c : Nat} {o : Op} {es : List KEntry} (z : Nat) (hhead : s.head c .merge 0x35 = some o)
    (hsub : o.f 0 22 2 = 1) (henc : kettleEnc o = false) (hn : o.posN = 1) (hover : csOver (64 * o.f 4 0 15) 8 = false)
    (hopen : (s.core c).kettle.st = .opened) (h : (kettlePair c (64 * o.f 4 0 15) (AddRun.start s c) 0).added s c es) :
    ∃ t, s.mergeCmd c 0x35 z (kettleSub 1) (s.kettleAddGo c) = .next t ∧ s.onlyCore t c ∧ (s.core c).took (t.core c) .merge o 0 (13 + z)
      ∧ (t.core c).kettle.entries = es ∧ (t.core c).store = (s.core c).store := by
  obtain ⟨honly, hcore, hentries, hstatus, hcycles⟩ := State.kettleAddGo_one henc hn hover hopen h
  obtain ⟨t, hexec, honlyT, htook, -, -, hstore, -, -, hkettle⟩ := State.mergeCmd_runs (kind := kettleSub 1) z hhead (by simp [kettleSub, hsub]) honly hcore.mergeOnly
  rw [hstatus, hcycles, if_neg (by simp)] at htook
  exact ⟨t, hexec, honlyT, htook, (congrArg Kettle.entries hkettle).trans hentries, hstore.trans hcore.store⟩

end Sys2Proof.Machine
end

-- ==== Sys2Proof/Proofs/KettleDrain.lean ====

section
namespace Sys2Proof.Machine

/-! ### A range written through the page table (R255 to R258, R371) -/

/-- A piece of a range lies in the range, and in one line. -/
theorem linePieces_mem (f a n : Nat) {p : Nat × Nat} (h : p ∈ linePieces f a n) : a ≤ p.1 ∧ p.1 + p.2 ≤ a + n ∧ 0 < p.2 ∧ p.1 % 64 + p.2 ≤ 64 := by
  induction f generalizing a n with
  | zero => simp [linePieces] at h
  | succ f ih =>
    rw [linePieces] at h
    split at h
    · simp at h
    next hn =>
      rcases List.mem_cons.mp h with rfl | h
      · simp only
        omega
      · obtain ⟨hlo, hhi, hpos, hline⟩ := ih _ _ h
        omega

/-- Two addresses of one page translate to places as far apart as they are (R256). -/
theorem State.xlate_add (s : State) {va pa t j : Nat} {k : Acc} (h : s.xlate va k = .inr (t, pa)) (hj : va % 2097152 + j < 2097152) :
    s.xlate (va + j) k = .inr (t, pa + j) := by
  have hpage : (va + j) / 2097152 = va / 2097152 := by omega
  have hoff : (va + j) % 2097152 = va % 2097152 + j := by omega
  obtain ⟨hgood, hcheck⟩ := s.xlate_inr va k _ h
  rw [State.xlate, hpage, if_neg (by simp [hgood])]
  simp only [State.pageCheck, hpage, hoff] at hcheck ⊢
  split_ifs at hcheck ⊢
  simp only [Sum.inr.injEq, Prod.mk.injEq] at hcheck ⊢
  omega

theorem State.entryBad_devWrite_ddr (s : State) (a : Nat) (ds : List PByte) (n : Nat) : (s.devWrite .ddr a ds false).entryBad n = s.entryBad n := by
  have hpost : s.postHit .ddr a = false := rfl
  unfold State.devWrite
  simp only [hpost, Bool.false_eq_true, if_false]
  split
  · rfl
  · rfl

theorem State.devWrite_present (s : State) (sp : Space) (a : Nat) (ds : List PByte) (h : s.postHit sp a = false) :
    (s.devWrite sp a ds false).mem.lost = s.mem.lost := by
  unfold State.devWrite
  simp only [h, Bool.false_eq_true, if_false]
  split
  · rfl
  · cases sp <;> rfl

theorem MemRun.request_lost (m : MemRun) (va : Nat) (k : Acc) : (m.request va k).1.lost = m.lost := by
  unfold MemRun.request
  cases m.fault with
  | some a => rfl
  | none =>
    simp only []
    split <;> rfl

/-- A view of core `c`'s requests whose writes have all been made. -/
structure MemRun.stored (s : State) (c : Nat) (m : MemRun) : Prop where
  unfailed : m.unfailed s c
  lost : m.lost = false
  present : m.st.mem.lost = s.mem.lost

theorem MemRun.stored_start (s : State) (c blk : Nat) (host : List HostReply) : (MemRun.start s c blk host).stored s c :=
  ⟨MemRun.unfailed_start .., rfl, rfl⟩

theorem MemRun.stored.write {s : State} {c : Nat} {m : MemRun} (h : m.stored s c) {va t pa : Nat} {ds : List PByte} (hx : s.xlate va .plain = .inr (t, pa))
    (ht : t ≠ 2) (hpost : s.postHit (spaceOf t) pa = false) (hlost : s.memLost (spaceOf t) pa = false) (hres : t = 0 → pa + ds.length ≤ s.plan.resBase) :
    (m.write va ds).stored s c := by
  obtain ⟨hun, hnone, hpresent⟩ := h
  obtain ⟨hgot, hreq, hmem⟩ := hun.request hx
  have hkeep := m.request_lost va .plain
  rcases hr : m.request va .plain with ⟨m1, got⟩
  rw [hr] at hgot hreq hmem hkeep
  subst hgot
  obtain ⟨hfault, hcore, hkept, hplan, hpages, hbad⟩ := hreq
  have hpresent1 : m1.st.mem.lost = s.mem.lost := (congrArg DevMem.lost hmem).trans hpresent
  have hpost1 : m1.st.postHit (spaceOf t) pa = false := by rw [State.postHit, hplan]; exact hpost
  have hlost1 : m1.st.memLost (spaceOf t) pa = false := by rw [State.memLost, hpresent1, hplan]; exact hlost
  have hmade : m.write va ds = { m1 with st := m1.st.devWrite (spaceOf t) pa ds false, lost := m1.lost || m1.st.memLost (spaceOf t) pa } := by
    simp [MemRun.write, hr, ht]
  rw [hmade]
  refine ⟨⟨hfault, hcore, hkept.trans ((State.keepsCores_devWrite ..).requested c), by simpa using hplan, by simpa using hpages, fun n => ?_⟩, ?_,
    (State.devWrite_present _ _ _ _ hpost1).trans hpresent1⟩
  · rw [← hbad n]
    by_cases h0 : t = 0
    · subst h0
      exact State.entryBad_devWrite _ _ _ (by rw [hplan]; exact hres rfl) n
    · rw [spaceOf, if_neg h0]
      exact State.entryBad_devWrite_ddr ..
  · rw [hlost1, hkeep.trans hnone]
    rfl

/-- A range that a write may reach is written without a failure. -/
theorem MemRun.stored.writeRun {s : State} {c : Nat} {m : MemRun} (h : m.stored s c) (va : Nat) (ds : List PByte) (hrange : s.storable va ds.length .plain) :
    (m.writeRun va ds).stored s c := by
  refine List.foldlRecOn (motive := MemRun.stored s c) _ _ h (fun q hq p hp => ?_)
  obtain ⟨hlo, hhi, hpos, hline⟩ := linePieces_mem _ _ _ hp
  obtain ⟨t, pa, hx, ht, hpost, hlost, -⟩ := hrange p.1 hlo (by omega)
  obtain ⟨t', pa', hx', -, -, -, hres⟩ := hrange (p.1 + (p.2 - 1)) (by omega) (by omega)
  rw [s.xlate_add hx (by omega)] at hx'
  simp only [Sum.inr.injEq, Prod.mk.injEq] at hx'
  obtain ⟨rfl, rfl⟩ := hx'
  refine hq.write hx ht hpost hlost (fun h0 => ?_)
  have hlen : ((ds.drop (p.1 - va)).take p.2).length ≤ p.2 := List.length_take_le ..
  have hbelow := hres h0
  omega

/-! ### The pairs of a drain (R212) -/

/-- The resident pairs, in the order of their insertion. -/
def Core.residents (k : Core) : List (PWord × PWord) := (sortBy (·.ins) k.kettle.entries).map (fun e => ((e.key, false), e.val))

/-- The pairs that a drain writes where nothing has spilled. -/
def Core.drained (k : Core) : List (PWord × PWord) := sumRuns (sortBy (fun (x : PWord × PWord) => x.1.1.toNat) k.residents)

/-- A pair without poison. -/
def cleanPair (x : PWord × PWord) : Prop := x.1.2 = false ∧ x.2.2 = false

theorem sumRuns_clean {l : List (PWord × PWord)} (h : ∀ x ∈ l, cleanPair x) : ∀ x ∈ sumRuns l, cleanPair x := by
  have hacc := List.foldlRecOn (motive := fun acc : List (PWord × PWord) => ∀ x ∈ acc, cleanPair x) l
    (fun (acc : List (PWord × PWord)) x =>
      match acc with
      | y :: q => if y.1.1 = x.1.1 then ((y.1.1, y.1.2 || x.1.2), (f32add y.2.1 x.2.1, y.2.2 || x.2.2)) :: q else x :: y :: q
      | [] => [x]) (b := []) (by simp) (fun acc hacc x hx => ?_)
  · intro x hx
    exact hacc x (List.mem_reverse.mp hx)
  · have hclean := h x hx
    cases acc with
    | nil => simpa using hclean
    | cons y q =>
      obtain ⟨hy, hq⟩ := List.forall_mem_cons.mp hacc
      simp only []
      split
      · exact List.forall_mem_cons.mpr ⟨⟨by simp [hy.1, hclean.1], by simp [hy.2, hclean.2]⟩, hq⟩
      · exact List.forall_mem_cons.mpr ⟨hclean, hacc⟩

theorem Core.residents_clean {k : Core} (h : ∀ e ∈ k.kettle.entries, e.val.2 = false) : ∀ x ∈ k.residents, cleanPair x := by
  intro x hx
  obtain ⟨e, he, rfl⟩ := List.mem_map.mp hx
  exact ⟨rfl, h e ((sortBy_perm _ _).mem_iff.mp he)⟩

theorem Core.drained_clean {k : Core} (h : ∀ e ∈ k.kettle.entries, e.val.2 = false) : ∀ x ∈ k.drained, cleanPair x :=
  sumRuns_clean (fun x hx => Core.residents_clean h x ((sortBy_perm _ _).mem_iff.mp hx))

/-! ### What a drain leaves (R212) -/

/-- Words drawn change nothing but the place of the free values, and are as many as asked for. -/
theorem State.freeWords_spec (s : State) (n : Nat) : (s.freeWords n).1.length = n ∧ ∃ i, (s.freeWords n).2 = { s with freeIx := i } := by
  unfold State.freeWords iter
  induction n with
  | zero => exact ⟨rfl, s.freeIx, rfl⟩
  | succ n ih =>
    obtain ⟨hlen, i, hst⟩ := ih
    rw [List.range_succ, List.foldl_append]
    refine ⟨?_, i + 1, ?_⟩
    · simpa using hlen
    · simp only [List.foldl_cons, List.foldl_nil, hst]
      rfl

theorem Core.accessOnly.mergeOnly {k x : Core} (h : k.accessOnly x) : k.mergeOnly x := by
  unfold Core.accessOnly at h
  unfold Core.mergeOnly
  exact congrArg (fun q : Core => { q with secded := k.secded, pot := k.pot, potPoison := k.potPoison, kettle := k.kettle }) h

theorem Core.errorsOnly.storePoison {k x : Core} (h : k.errorsOnly x) : x.storePoison = k.storePoison := (congrArg Core.storePoison h :)

/-- Words of clean pairs put out, the poison of the keys spread to each. -/
theorem flatMap_spread_false (l : List (PWord × PWord)) : l.flatMap (fun x => [(x.1.1, x.1.2 || false), (x.2.1, x.2.2 || false)]) = flatPairs l := by
  simp [flatPairs]

theorem poisoned_flatPairs {l : List (PWord × PWord)} (h : ∀ x ∈ l, cleanPair x) : poisoned (flatPairs l) = 0 :=
  poisoned_clean (forall_mem_flatPairs.mpr h)

/-- What a drain into the core store leaves of its core: the output written at its base, the kettle CLOSED. -/
structure Core.drainedTo (k : Core) (base : Nat) (x : Core) : Prop where
  core : k.mergeOnly x
  kettle : x.kettle = {}
  output : ∃ y : Core, y.store = k.store ∧ x.store = (y.csWords base (flatPairs k.drained)).store ∧ x.storePoison = (y.csWords base (flatPairs k.drained)).storePoison

section
variable {s : State} {c : Nat} {host : List HostReply} {o : Op} (henc : kettleEnc o = false) (hdest : o.f 0 21 1 = 0)
  (hover : csOver (o.f64 8) (8 * min (o.f 4 0 32) ((s.core c).kettle.spilled + (s.core c).kettle.entries.length)) = false)
include henc hdest hover

theorem State.kettleDrainGo_refused (hopen : (s.core c).kettle.st ≠ .opened) :
    s.kettleDrainGo c host o = mergeEarly s (s.core c).kettle.st.refuses := by
  unfold State.kettleDrainGo
  simp only [henc, hdest, hover, firstFail, Bool.and_false, Bool.false_eq_true, if_false]
  split
  next h => exact absurd (KState.refuses_eq_zero.mp h) hopen
  next => rfl

/-- A drain of an OPEN kettle that has spilled nothing: it ends before its output where that is more than OUT_MAX, and else it writes its
scratch and then its output. -/
theorem State.kettleDrainGo_opened (hopen : (s.core c).kettle.st = .opened) (hspilled : (s.core c).kettle.spilled = 0) (hcheck : (s.core c).secded = []) :
    let m := s.kettleDrainGo c host o
    (o.f 4 0 32 < (s.core c).drained.length → m.status = 0x57 ∧ s.onlyCore m.st c ∧ (s.core c).errorsOnly (m.st.core c))
    ∧ ((s.core c).drained.length ≤ o.f 4 0 32 → (∀ e ∈ (s.core c).kettle.entries, e.val.2 = false) →
        s.storable ((s.core c).kettle.base + 8 * (s.core c).kettle.cap) (8 * min (s.core c).kettle.entries.length (s.core c).kettle.cap) .plain →
        m.status = 0 ∧ m.count = (s.core c).drained.length ∧ (s.core c).drainedTo (o.f64 8) (m.st.core c)) := by
  intro m
  generalize hm : m = r
  rw [show m = s.kettleDrainGo c host o from rfl] at hm
  revert hm
  unfold State.kettleDrainGo
  extract_lets k t mx base dev p q sp held res all out np badKey d cyc fin src lostOut fr m0 ws m1 s2
  have hchecks : firstFail [(kettleEnc o, 0x52), (!dev && csOver base (8 * min mx p), 0x51)] = 0 := by
    simp [firstFail, henc, dev, hdest, base, mx, p, t, k, hover]
  have hrefuses : t.st.refuses = 0 := KState.refuses_eq_zero.mpr hopen
  have hq : q = (MemRun.start s c 2 host, []) := by
    simp only [q, t, k, hspilled]
    rfl
  have hq1 : q.1 = MemRun.start s c 2 host := by rw [hq]
  have hfault : q.1.fault = none := by rw [hq1]; rfl
  have hkeys : (held.any fun w => k.flaw .kettleKey w == 2) = false := by simp [Core.flaw_clean (show k.secded = [] from hcheck)]
  have hall : all = k.residents := by
    simp only [all, sp, hq, res, Core.residents, Core.kettleVal_clean (show k.secded = [] from hcheck)]
    rfl
  have hout : out = k.drained := by rw [Core.drained, ← hall]
  have hfin (m : MemRun) (st rows : Nat) (hm : m.fault = none) : (fin m st rows).status = st ∧ (fin m st rows).count = d
      ∧ m.st.onlyCore (fin m st rows).st c ∧ (m.st.core c).errorsOnly ((fin m st rows).st.core c) := by
    simp only [fin, hm]
    refine ⟨trivial, trivial, (State.onlyCore_setCore ..).trans (State.onlyCore_setCore ..), ?_⟩
    rw [State.core_updCore_self, MemRun.counted, State.core_updCore_self]
    exact (Core.errorsOnly_counts ..).trans (Core.errorsOnly_counts ..)
  have hd : d = k.drained.length := congrArg List.length hout
  clear_value fin lostOut
  rw [hchecks, hrefuses, hfault, hkeys]
  simp only [Bool.false_eq_true, if_false]
  rintro rfl
  refine ⟨fun hmore => ?_, fun hfits hclean hroom => ?_⟩
  · rw [if_pos (by rw [hd]; exact hmore)]
    obtain ⟨hstatus, -, honly, hcore⟩ := hfin q.1 0x57 p hfault
    have hst : q.1.st = s := by rw [hq1]; rfl
    rw [hst] at honly hcore
    exact ⟨hstatus, honly, hcore⟩
  · have hresidents := Core.residents_clean (k := k) hclean
    have hbadKey : badKey = false := by
      simp only [badKey, hall, List.any_eq_false, Bool.not_eq_true]
      exact fun x hx => (hresidents x hx).1
    have hnp : np = 0 := by
      rw [← poisoned_flatPairs hresidents, ← hall]
      rfl
    have hws : ws = flatPairs k.drained := by
      rw [← hout, ← flatMap_spread_false, ← hbadKey]
    obtain ⟨hdrawn, i, hfree⟩ := q.1.st.freeWords_spec (2 * min p t.cap)
    have hp : p = (s.core c).kettle.entries.length := by simp only [p, t, k, hspilled, Nat.zero_add]
    have hm0 : m0.stored { s with freeIx := i } c := by
      have hstart : ({ src with st := fr.2 } : MemRun) = MemRun.start { s with freeIx := i } c 2 host := by
        rw [show fr.2 = _ from hfree, show src = _ from hq1, hq1]
        rfl
      have hlen : (fr.1.flatMap (fun w => bytesOf (w, false))).length = 8 * min (s.core c).kettle.entries.length t.cap := by
        rw [length_flatMap_blocks (w := 4) (fun _ => length_bytesOf _), show fr.1.length = _ from hdrawn, hp]
        omega
      refine (hstart ▸ MemRun.stored_start ..).writeRun _ _ ?_
      rw [hlen]
      exact hroom
    obtain ⟨⟨hfault0, -, hrequested, -⟩, hlost0, -⟩ := hm0
    have hm1 : m1 = { m0 with st := m0.st.updCore c (fun x => x.csWords base ws) } := by
      simp [m1, dev, hdest, hfault0]
    have hfault1 : m1.fault = none := by rw [hm1]; exact hfault0
    have hlost1 : m1.lost = false := by rw [hm1]; exact hlost0
    rw [if_neg (by rw [hd]; exact hfits.not_gt)]
    split
    next hfailed => exact absurd (hfailed.symm.trans hfault1) (by simp)
    rw [if_neg (by rw [hlost1]; exact Bool.false_ne_true), hnp]
    obtain ⟨hstatus, hcount, -, hcore⟩ := hfin { m1 with st := s2 } (withPoison 0 0) p hfault1
    have hs2 : s2.core c = { (m0.st.core c).csWords base ws with kettle := {} } := by
      simp only [s2, hm1, State.core_updCore_self]
    rw [hs2, hws] at hcore
    have hwritten : ((m0.st.core c).csWords base (flatPairs k.drained)).kettleOnly { (m0.st.core c).csWords base (flatPairs k.drained) with kettle := {} } :=
      Core.kettleOnly_set ..
    refine ⟨hstatus, hcount.trans hd, ⟨?_, hcore.kettle, m0.st.core c, hrequested.store, hcore.store, hcore.storePoison⟩⟩
    exact ((hrequested.core.mergeOnly.trans (Core.storeOnly_csWrite ..).mergeOnly).trans hwritten.mergeOnly).trans hcore.storeOnly.mergeOnly
end

end Sys2Proof.Machine

open Sys2Proof Sys2Proof.Machine

/-- Settles O28. The kettle's operations change the kettle of their core and, of the rest, counters and check bits. A drain's scratch is written
where every address translates to memory that is present, so that nothing fails before its output, which is without poison and reads back. -/
theorem kettleCommands : Obligations.KettleCommands := by
  refine ⟨fun s c z o hhead henc => ⟨fun hsub hclosed hbase hcap8 hcapMin hcapMax hregion => ?_, fun hsub hopen => ?_, fun hsub hlost => ?_, fun hsub => ?_,
    fun hsub hn hover hopen => ?_, fun hsub hn hover hopen hstore hcheck => ⟨fun w hnew hway => ?_, fun e hone hset hsame => ?_⟩⟩,
    fun s c z host o hhead hsub henc hdest hover => ⟨fun hopen hspilled hcheck hclean hfits hroom => ?_,
      fun hopen hspilled hcheck hmore => ?_, fun hopen => ?_⟩⟩
  · exact State.mergeCmd_kettleOk (kind := kettleSub 0) (run := s.kettleOpenGo c.val) z hhead (by simp [kettleSub, hsub]) (Core.kettleOnly_set ..)
      (State.kettleOpenGo_good henc hclosed hbase hcap8 hcapMin hcapMax hregion)
  · have hrun := State.kettleOpenGo_refused henc (s := s) (c := c.val) (by rw [hopen]; decide)
    rw [if_pos hopen] at hrun
    obtain ⟨t, hexec, -, htook, -, hkettle⟩ := State.mergeCmd_early (kind := kettleSub 0) z hhead (by simp [kettleSub, hsub]) (by decide) hrun
    exact ⟨t, hexec, htook, hkettle⟩
  · have hrun := State.kettleOpenGo_refused henc (s := s) (c := c.val) (by rw [hlost]; decide)
    rw [if_neg (by rw [hlost]; decide)] at hrun
    obtain ⟨t, hexec, -, htook, -, hkettle⟩ := State.mergeCmd_early (kind := kettleSub 0) z hhead (by simp [kettleSub, hsub]) (by decide) hrun
    exact ⟨t, hexec, htook, hkettle⟩
  · have hx : (s.core c.val).kettleOnly (if (s.core c.val).kettle.st = .closed then s.core c.val else { s.core c.val with kettle := {} }) := by
      split
      · exact rfl
      · exact Core.kettleOnly_set ..
    obtain ⟨t, hexec, honly, htook, hkettle⟩ := State.mergeCmd_kettleOk (kind := kettleSub 3) (run := s.kettleDiscardGo c.val) z hhead
      (by simp [kettleSub, hsub]) hx (State.kettleDiscardGo_good henc)
    refine ⟨t, hexec, honly, htook, (congrArg Kettle.st hkettle).trans ?_⟩
    split
    next hclosed => exact hclosed
    next => rfl
  · obtain ⟨t, hexec, honly, htook, -, hkettle⟩ := State.mergeCmd_early (kind := kettleSub 1) z hhead (by simp [kettleSub, hsub])
      (mt KState.refuses_eq_zero.mp hopen) (State.kettleAddGo_refused henc hn hover hopen)
    rw [KState.refuses_of_not_opened hopen] at htook
    exact ⟨t, hexec, honly, htook, hkettle⟩
  · exact State.mergeCmd_kettleAdds z hhead hsub henc hn hover hopen (kettlePair_inserts hstore hcheck _ hnew hway)
  · exact State.mergeCmd_kettleAdds z hhead hsub henc hn hover hopen (kettlePair_adds hstore hcheck _ hone hset hsame)
  · obtain ⟨-, hdrain⟩ := State.kettleDrainGo_opened (host := host) henc hdest hover hopen hspilled hcheck
    obtain ⟨hstatus, hcount, hdrained⟩ := hdrain hfits hclean hroom
    obtain ⟨htook, hvals, -, hstore, hpoison, -, hkettle⟩ := s.mergeStart_core c.val o z (s.kettleDrainGo c.val host o) hdrained.core
    obtain ⟨y, hy, hwritten, hspread⟩ := hdrained.output
    have hwords : ∀ w ∈ flatPairs (s.core c.val).drained, w.2 = false := forall_mem_flatPairs.mpr (Core.drained_clean hclean)
    have hbase : o.f64 8 % 64 = 0 := by
      simp only [kettleEnc, hsub, Bool.or_eq_false_iff] at henc
      obtain ⟨-, halign⟩ := henc
      simpa using halign
    have hback := y.csRun_csWords (show 4 ∣ o.f64 8 by omega) (flatPairs (s.core c.val).drained) hwords
    rw [length_flatPairs] at hback
    rw [hstatus] at htook
    rw [hcount] at hvals
    refine ⟨_, _, by
      show s.mergeCmd _ _ _ _ _ = _
      simp only [State.mergeCmd, hhead, kettleSub, hsub, beq_self_eq_true, if_true], htook, ?_, hvals, ?_, fun a ha => ?_⟩
    · rw [hkettle, hdrained.kettle]
    · exact (Core.csRun_of_store (hstore.trans hwritten) (hpoison.trans hspread) _ _).trans hback
    · rw [Core.byteAt_of_store (hstore.trans hwritten), Core.csWords_byteAt _ _ _ a (by rw [length_flatPairs, ← Nat.mul_assoc]; exact ha)]
      exact Core.byteAt_of_store hy a
  · obtain ⟨hdrain, -⟩ := State.kettleDrainGo_opened (host := host) henc hdest hover hopen hspilled hcheck
    obtain ⟨hstatus, honly, hcore⟩ := hdrain hmore
    obtain ⟨t, hexec, honlyT, htook, -, -, hstore, -, -, hkettle⟩ := State.mergeCmd_runs (kind := kettleSub 2) (run := s.kettleDrainGo c.val host) z hhead
      (by simp [kettleSub, hsub]) honly hcore.storeOnly.mergeOnly
    rw [hstatus] at htook
    exact ⟨t, _, hexec, honlyT, htook, hkettle.trans hcore.kettle, hstore.trans hcore.store⟩
  · obtain ⟨t, hexec, honly, htook, hstore, hkettle⟩ := State.mergeCmd_early (kind := kettleSub 2) z hhead (by simp [kettleSub, hsub])
      (mt KState.refuses_eq_zero.mp hopen) (State.kettleDrainGo_refused (host := host) henc hdest hover hopen)
    rw [KState.refuses_of_not_opened hopen] at htook
    exact ⟨t, hexec, honly, htook, hkettle, hstore⟩
end

-- ==== Sys2Proof/Proofs/EngineData.lean ====

section
namespace Sys2Proof.Machine

/-! ### What a vector or row operation leaves of its core (R217, R234, R265) -/

/-- A core's record but for the data that its vector chain and its row engine work on: the core store, the pot, the statistics store,
the pairs of R228, the counters and the check bits of its SRAMs. -/
def Core.dataOnly (k k' : Core) : Prop :=
  { k' with
    counters := k.counters, secded := k.secded, pot := k.pot, potPoison := k.potPoison, store := k.store
    storePoison := k.storePoison, stats := k.stats, pairs := k.pairs } = k

/-- What these engines do not change reads the same. -/
theorem Core.dataOnly.same {k x : Core} (h : k.dataOnly x) {α : Type} (g : Core → α) : g { x with
    counters := k.counters, secded := k.secded, pot := k.pot, potPoison := k.potPoison, store := k.store
    storePoison := k.storePoison, stats := k.stats, pairs := k.pairs } = g k :=
  congrArg g h

theorem Core.dataOnly.trans {k x y : Core} (h : k.dataOnly x) (g : x.dataOnly y) : k.dataOnly y := by
  unfold Core.dataOnly at h g ⊢
  exact (congrArg (fun q : Core => { q with
    counters := k.counters, secded := k.secded, pot := k.pot, potPoison := k.potPoison, store := k.store
    storePoison := k.storePoison, stats := k.stats, pairs := k.pairs }) g).trans h

theorem Core.storeOnly.dataOnly {k x : Core} (h : k.storeOnly x) : k.dataOnly x := by
  unfold Core.storeOnly at h
  unfold Core.dataOnly
  exact congrArg (fun q : Core => { q with pot := k.pot, potPoison := k.potPoison, stats := k.stats, pairs := k.pairs }) h

theorem Core.potOnly.dataOnly {k x : Core} (h : k.potOnly x) : k.dataOnly x := by
  unfold Core.potOnly at h
  unfold Core.dataOnly
  exact congrArg (fun q : Core => { q with store := k.store, storePoison := k.storePoison, stats := k.stats, pairs := k.pairs }) h

theorem Core.dataOnly.queue {k x : Core} (h : k.dataOnly x) (e : Eng) : x.queue e = k.queue e := by
  have hq := h.same (fun q : Core => q.queue e)
  cases e <;> exact hq

theorem Core.dataOnly.running {k x : Core} (h : k.dataOnly x) (e : Eng) : x.running e = k.running e := by
  have hr := h.same (fun q : Core => q.running e)
  cases e <;> exact hr

theorem Core.dataOnly.stream {k x : Core} (h : k.dataOnly x) (f : StreamId) : x.stream f = k.stream f := by
  have hs := h.same (fun q : Core => q.stream f)
  cases f <;> exact hs

/-- What an engine takes does not depend on the data that it works on. -/
theorem Core.dataOnly.took {k x y : Core} (h : k.dataOnly x) {e : Eng} {o : Op} {st cy : Nat} (g : x.took y e o st cy) : k.took y e o st cy := by
  obtain ⟨hqueue, hothers, hrun, hpot, hstream, hctrs, hsems, hprogram⟩ := g
  refine ⟨by rw [hqueue, h.queue], fun d hd => ?_, hrun, hpot.trans (Core.potPassOp_head _ _ o (h.same Core.potHead) (h.same Core.potDone)),
    fun f => (hstream f).trans (h.stream f), hctrs.trans (h.same Core.ctrs), hsems.trans (h.same Core.sems), hprogram.trans (h.same Core.program)⟩
  obtain ⟨hqd, hrd⟩ := hothers d hd
  exact ⟨hqd.trans (h.queue d), hrd.trans (h.running d)⟩

/-! ### The start of an operation on what its work left -/

/-- The core `k'` has started the operation `o` of core `k` on the data that its work left in `x`. -/
structure Core.started (k x k' : Core) (e : Eng) (o : Op) (st cy : Nat) : Prop where
  took : k.took k' e o st cy
  planes : k'.planes = k.planes
  store : k'.store = x.store
  storePoison : k'.storePoison = x.storePoison
  pot : k'.pot = x.pot
  stats : k'.stats = x.stats
  pairs : k'.pairs = x.pairs

/-- An operation started once its counters have moved. -/
theorem Core.dataOnly.start {k x y : Core} (h : k.dataOnly x) (g : x.errorsOnly y) (e : Eng) (o : Op) (now st cy : Nat) (vs : List Nat) (w : Bool) (dm : Nat) :
    k.started x (y.start e o now st cy vs w dm) e o st cy := by
  obtain ⟨-, -, -, -, -, hstore, hpoison, hpot, hplanes, hstats, -⟩ := y.start_spec e o now st cy vs w dm
  have hsame := h.trans g.storeOnly.dataOnly
  exact
    { took := hsame.took (Core.start_took ..)
      planes := hplanes.trans (hsame.same Core.planes)
      store := hstore.trans g.store
      storePoison := hpoison.trans g.storePoison
      pot := hpot.trans (congrArg Core.pot g :)
      stats := hstats.trans (congrArg Core.stats g :)
      pairs := (show (y.start e o now st cy vs w dm).pairs = y.pairs by simp [Core.start]).trans (congrArg Core.pairs g :) }

theorem Core.errorsOnly_counted (k : Core) (l : List (Nat × Nat)) (n st : Nat) : k.errorsOnly ((k.counts l).poisonCounts n st) :=
  (k.errorsOnly_counts l).trans (Core.errorsOnly_poisonCounts ..)

/-! ### Pot entries outside a range that is applied (R131) -/

theorem Core.potSet_pot_ne (k : Core) {i j : Nat} (v : PWord) (h : j ≠ i) : mget 0 (k.potSet i v).pot j = mget 0 k.pot j :=
  mget_mset_ne _ _ _ _ _ h

theorem Core.potAdd_pot_ne (k : Core) {i j : Nat} (v : PWord) (h : j ≠ i) : mget 0 (k.potAdd i v).pot j = mget 0 k.pot j :=
  Core.potSet_pot_ne _ _ h

theorem Core.potApply_pot_outside (k : Core) (set : Bool) (i : Nat) (vs : List PWord) (j : Nat) (h : j < i ∨ i + vs.length ≤ j) :
    mget 0 (k.potApply set i vs).pot j = mget 0 k.pot j := by
  rw [Core.potApply, Core.count_pot]
  refine List.foldlRecOn (motive := fun x : Core => mget 0 x.pot j = mget 0 k.pot j) _ _ rfl (fun x hx p hp => ?_)
  have hrange := List.mem_zipIdx hp
  have hne : j ≠ p.2 := by omega
  split
  · exact (x.potSet_pot_ne p.1 hne).trans hx
  · exact (x.potAdd_pot_ne p.1 hne).trans hx

end Sys2Proof.Machine
end

-- ==== Sys2Proof/Proofs/RowEngine.lean ====

section
namespace Sys2Proof.Machine

/-! ### The commands of the row engine (R235) -/

section
variable {s : State} {c z f : Nat} {o : Op} (hhead : s.head c .row 0x24 = some o) (hfunc : o.rowFunc = f)
include hhead hfunc

theorem State.rowCmd_fails (h0 : rowStatus o ≠ 0) (h29 : rowStatus o ≠ 0x29) : s.rowCmd c f z = .next (s.rowFail c o (rowStatus o)) := by
  -- `h0` and `h29` rule out the match's first two branches
  simp only [State.rowCmd, hhead, hfunc, ne_eq, not_true_eq_false, if_false]

theorem State.rowCmd_overPot (h29 : rowStatus o = 0x29) : s.rowCmd c f z = .next (s.rowOverPot c o z) := by
  simp [State.rowCmd, hhead, hfunc, h29]

theorem State.rowCmd_runs (h0 : rowStatus o = 0) : s.rowCmd c f z = .next (if f = 7 ∨ f = 8 then s.statCopy c o z else s.rowRunFn c o z) := by
  simp [State.rowCmd, hhead, hfunc, h0]

end

/-- The commands of the seven functions of rows, with the FUNC and the passes of each. -/
theorem exec_rowFunction {s : State} {c : CoreIx} {z : Nat} {j : Instr} {f passes : Nat}
    (h : (j, f, passes) ∈ [(Instr.softmaxFwd c z, 0, 3), (.softmaxBwd c z, 1, 2), (.lnFwd c z, 2, 3), (.lnBwd c z, 3, 3), (.rmsFwd c z, 4, 2), (.rmsBwd c z, 5, 2),
      (.kdLoss c z, 6, 4)]) :
    exec j s = s.rowCmd c.val f z ∧ rowPasses f = passes ∧ ¬ (f = 7 ∨ f = 8) := by
  simp only [List.mem_cons, Prod.mk.injEq, List.not_mem_nil, or_false] at h
  rcases h with ⟨rfl, rfl, rfl⟩ | ⟨rfl, rfl, rfl⟩ | ⟨rfl, rfl, rfl⟩ | ⟨rfl, rfl, rfl⟩ | ⟨rfl, rfl, rfl⟩ | ⟨rfl, rfl, rfl⟩ |
      ⟨rfl, rfl, rfl⟩ <;>
    exact ⟨rfl, rfl, by decide⟩

/-! ### Operations that a check ends (R236, R237) -/

theorem State.rowFail_started (s : State) (c : Nat) (o : Op) (st : Nat) :
    s.onlyCore (s.rowFail c o st) c ∧ (s.core c).started (s.core c) ((s.rowFail c o st).core c) .row o st 12 := by
  refine ⟨State.onlyCore_setCore .., ?_⟩
  rw [State.rowFail, State.core_updCore_self]
  exact Core.dataOnly.start (k := s.core c) rfl (Core.errorsOnly_refl _) ..

/-- An operation that would pass the end of the pot writes the pot alone, from its POT_LINE up to the end. -/
theorem State.rowOverPot_started (s : State) (c : Nat) (o : Op) (z : Nat) :
    ∃ x cy, s.onlyCore (s.rowOverPot c o z) c ∧ (s.core c).started x ((s.rowOverPot c o z).core c) .row o 0x29 cy ∧ (s.core c).potOnly x
      ∧ ∀ i, (i < 16 * o.f 16 0 12 ∨ 65536 ≤ i) → mget 0 x.pot i = mget 0 (s.core c).pot i := by
  unfold State.rowOverPot
  extract_lets k n ln pot r ng nb k1
  have hpot : k.potOnly k1 := (Core.potOnly_potApply ..).trans (Core.potOnly_potApply ..)
  refine ⟨k1, 12 + rowPasses o.rowFunc * cdiv n 64 + 16 + z, State.onlyCore_setCore .., ?_, hpot, fun i hi => ?_⟩
  · rw [State.core_setCore_self]
    exact hpot.dataOnly.start (Core.errorsOnly_count ..) ..
  · have hdg : ((r.dg.take ng).map wordP).length ≤ ng := by simp
    have hdb : ((r.db.take nb).map wordP).length ≤ nb := by simp
    have hends : i < pot ∨ (pot + ng ≤ i ∧ pot + n + nb ≤ i) ∨ nb = 0 ∧ pot + ng ≤ i := by
      have hline : o.f 16 0 12 < 4096 := Nat.mod_lt _ (by decide)
      simp only [ng, nb, n, pot] at hi ⊢
      split <;> omega
    have hfirst := k.potApply_pot_outside false pot ((r.dg.take ng).map wordP) i (by omega)
    have hsecond := (k.potApply false pot ((r.dg.take ng).map wordP)).potApply_pot_outside false (pot + n) ((r.db.take nb).map wordP) i (by omega)
    exact hsecond.trans hfirst

/-! ### The work of a function of rows (R232 to R234) -/

theorem Core.dataOnly_statSet (k : Core) (e w : Nat) (v : PWord) : k.dataOnly (k.statSet e w v) := rfl

theorem Core.statSet_pot (k : Core) (e w : Nat) (v : PWord) : (k.statSet e w v).pot = k.pot := rfl

theorem Core.dataOnly_foldl {α : Type} (f : Core → α → Core) (hf : ∀ (x : Core) a, x.dataOnly (f x a)) (l : List α) (k : Core) : k.dataOnly (l.foldl f k) :=
  List.foldlRecOn (motive := k.dataOnly) l f rfl (fun x hx a _ => hx.trans (hf x a))

theorem Core.storeOnly.stats {k x : Core} (h : k.storeOnly x) : x.stats = k.stats := (congrArg Core.stats h :)

theorem Core.potOnly.stats {k x : Core} (h : k.potOnly x) : x.stats = k.stats := (congrArg Core.stats h :)

theorem Core.potOnly_foldl {α : Type} (f : Core → α → Core) (hf : ∀ (x : Core) a, x.potOnly (f x a)) (l : List α) (k : Core) : k.potOnly (l.foldl f k) :=
  List.foldlRecOn (motive := k.potOnly) l f rfl (fun x hx a _ => hx.trans (hf x a))

/-- The statistics of rows written. -/
theorem Core.foldl_statSet (k : Core) (slot : Nat) (l : List (RowOut × Nat)) :
    let y := l.foldl (fun x r => (x.statSet (slot + r.2) 0 (wordP r.1.stat.1)).statSet (slot + r.2) 1 (wordP r.1.stat.2)) k
    k.dataOnly y ∧ y.pot = k.pot := by
  refine List.foldlRecOn (motive := fun x : Core => k.dataOnly x ∧ x.pot = k.pot) _ _ ⟨rfl, rfl⟩ (fun x hx r _ => ?_)
  obtain ⟨hdata, hpot⟩ := hx
  exact ⟨hdata.trans ((Core.dataOnly_statSet ..).trans (Core.dataOnly_statSet ..)), by rw [Core.statSet_pot, Core.statSet_pot, hpot]⟩

/-- What a function of rows leaves: without GRAD_PARAM the pot as it was, and without statistics to save the statistics store. -/
theorem State.rowRunFn_started (s : State) (c : Nat) (o : Op) (z : Nat) :
    ∃ x e, s.onlyCore (s.rowRunFn c o z) c ∧ (e = 0 ∨ e = 0x90)
      ∧ (s.core c).started x ((s.rowRunFn c o z).core c) .row o e (12 + o.f 4 16 16 * (rowPasses o.rowFunc * cdiv (o.f 4 0 14 + 1) 64 + 16) + z)
      ∧ (o.f 0 8 1 = 0 → x.pot = (s.core c).pot) ∧ (¬ (o.rowFunc = 0 ∨ o.rowFunc = 2 ∨ o.rowFunc = 4) → x.stats = (s.core c).stats) := by
  unfold State.rowRunFn
  extract_lets k f rows n outs of' conv slot k1 k2 thr goes bitmap k3 pot k4 outV empty amax vals np status k5
  clear_value outs bitmap np vals
  have h1 : k.storeOnly k1 := Core.storeOnly_csWrite ..
  have h2 : k1.dataOnly k2 ∧ k2.pot = k1.pot ∧ (¬ (f = 0 ∨ f = 2 ∨ f = 4) → k2 = k1) := by
    simp only [k2]
    split
    next hsaves =>
      obtain ⟨hdata, hpot⟩ := k1.foldl_statSet slot (outs.zipIdx 0)
      exact ⟨hdata, hpot, fun h => absurd hsaves h⟩
    next => exact ⟨rfl, rfl, fun _ => rfl⟩
  have h3 : k2.storeOnly k3 := by
    simp only [k3]
    split
    · exact Core.storeOnly_csWrite ..
    · split
      · exact Core.storeOnly_csWrite ..
      · rfl
  have h4 : k3.potOnly k4 := by
    simp only [k4]
    split
    · exact Core.potOnly_foldl _ (fun x r => (Core.potOnly_potApply ..).trans (Core.potOnly_potApply ..)) _ _
    · rfl
  obtain ⟨h2data, h2pot, h2stats⟩ := h2
  refine ⟨k4, status, State.onlyCore_setCore .., withPoison_zero np, ?_, fun hgrad => ?_, fun hstats => ?_⟩
  · rw [State.core_setCore_self]
    exact (h1.dataOnly.trans (h2data.trans (h3.dataOnly.trans h4.dataOnly))).start (Core.errorsOnly_counted ..) ..
  · have hk4 : k4 = k3 := by simp [k4, hgrad]
    rw [hk4, h3.pot, h2pot, h1.pot]
  · rw [h4.stats, h3.stats, h2stats hstats, h1.stats]

/-! ### Statistics saved and loaded (R234, R236) -/

/-- The words that STAT_SAVE copies, of a store whose words hold no error. -/
theorem Core.statGet_sound {k : Core} (hk : k.secded = []) (i : Nat) : k.statGet (i / 2) (i % 2) = mget (0, false) k.stats i := by
  simp [Core.statGet, Core.flaw, hk, mget, Nat.div_add_mod]

/-- The work of STAT_SAVE. -/
def Core.statSaved (k : Core) (o : Op) : Core := k.csWords (64 * o.f 12 0 15) (o.statWords.map (fun i => mget (0, false) k.stats i))

/-- The work of STAT_LOAD. -/
def Core.statLoaded (k : Core) (o : Op) : Core :=
  { o.statWords.foldl (fun x i => x.mend .stats i) k with stats := msetRun (0, false) k.stats (2 * o.f 16 16 13) (k.csRun (64 * o.f 8 0 15) (2 * o.f 4 16 16)) }

theorem Core.dataOnly_statLoaded (k : Core) (o : Op) : k.dataOnly (k.statLoaded o) :=
  (Core.errorsOnly_foldl _ (fun x i => x.errorsOnly_mend .stats i) o.statWords k).storeOnly.dataOnly

theorem State.statCopy_started (s : State) (c : Nat) (o : Op) (z : Nat) (hk : (s.core c).secded = []) :
    let x := if o.rowFunc = 7 then (s.core c).statSaved o else (s.core c).statLoaded o
    ∃ e, s.onlyCore (s.statCopy c o z) c ∧ (e = 0 ∨ e = 0x90) ∧ (s.core c).started x ((s.statCopy c o z).core c) .row o e (12 + cdiv (o.f 4 16 16) 8 + z) := by
  unfold State.statCopy
  extract_lets x k rows slot save srcW mended k1 np status k2
  clear_value np
  have hk1 : k1 = x := by
    by_cases h7 : o.rowFunc = 7
    · simp [k1, x, save, srcW, h7, Core.statSaved, Core.statGet_sound hk, k]
    · have hsave : save = false := by simpa [save] using h7
      simp only [k1, x, srcW, hsave, h7, Bool.false_eq_true, if_false]
      rfl
  refine ⟨status, State.onlyCore_setCore .., withPoison_zero np, ?_⟩
  rw [State.core_setCore_self, ← hk1]
  refine Core.dataOnly.start ?_ (Core.errorsOnly_counted ..) ..
  rw [hk1]
  simp only [x]
  split
  · exact (Core.storeOnly_csWrite ..).dataOnly
  · exact k.dataOnly_statLoaded o

/-- The words that STAT_SAVE wrote, and no others. -/
theorem Core.statSaved_store (k : Core) (o : Op) :
    (∀ i < 2 * o.f 4 16 16, (mget (0, false) k.stats (2 * o.f 16 16 13 + i)).2 = false →
        (k.statSaved o).csWord (64 * o.f 12 0 15 + 4 * i) = mget (0, false) k.stats (2 * o.f 16 16 13 + i))
      ∧ ∀ a, (a < 64 * o.f 12 0 15 ∨ 64 * o.f 12 0 15 + 8 * o.f 4 16 16 ≤ a) → (k.statSaved o).byteAt a = k.byteAt a := by
  refine ⟨fun i hi hclean => ?_, fun a ha => k.csWords_byteAt _ _ a ?_⟩
  · have hget := k.csWord_csWords_mem (a := 64 * o.f 12 0 15) (by omega) (o.statWords.map (fun i => mget (0, false) k.stats i)) i
      (by simpa [Op.statWords] using hi)
    simp only [Op.statWords, List.getElem_map, List.getElem_range] at hget
    exact hget hclean
  · simp only [Op.statWords, List.length_map, List.length_range]
    omega

/-- The words that STAT_LOAD wrote, and no others. -/
theorem Core.statLoaded_stats (k : Core) (o : Op) :
    (∀ i < 2 * o.f 4 16 16, mget (0, false) (k.statLoaded o).stats (2 * o.f 16 16 13 + i) = k.csWord (64 * o.f 8 0 15 + 4 * i))
      ∧ ∀ i, (i < 2 * o.f 16 16 13 ∨ 2 * o.f 16 16 13 + 2 * o.f 4 16 16 ≤ i) → mget (0, false) (k.statLoaded o).stats i = mget (0, false) k.stats i := by
  refine ⟨fun i hi => ?_, fun i hi => mget_msetRun_ne _ _ _ _ _ (by rwa [Core.length_csRun])⟩
  exact (mget_msetRun_mem _ _ k.stats _ i (by rwa [Core.length_csRun])).trans (Core.getElem_csRun ..)

theorem Core.statLoaded_keeps (k : Core) (o : Op) : (k.statLoaded o).store = k.store ∧ (k.statLoaded o).pot = k.pot := by
  have hmended := k.errorsOnly_foldl (fun x i => x.mend .stats i) (fun x i => x.errorsOnly_mend .stats i) o.statWords
  exact ⟨hmended.store, hmended.storeOnly.pot⟩

end Sys2Proof.Machine

open Sys2Proof Sys2Proof.Machine

/-- Settles O24. Each command of the row engine is `State.rowCmd` at its FUNC; what it leaves is the start of the operation on the
data that its work wrote. -/
theorem rowFunctionsAndStatistics : Obligations.RowFunctionsAndStatistics := by
  unfold Obligations.RowFunctionsAndStatistics
  refine ⟨fun s c z o j fn passes hhead hfunc hj => ?_, fun s c z o hhead hsound => ⟨fun h7 h0 => ?_, fun h8 h0 => ?_, fun hstat h0 h29 => ?_⟩⟩
  · obtain ⟨hexec, hpasses, hrows⟩ := exec_rowFunction (s := s) hj
    rw [hexec]
    refine ⟨fun h0 h29 => ?_, fun h29 => ?_, fun h0 => ?_⟩
    · obtain ⟨honly, hstart⟩ := s.rowFail_started c.val o (rowStatus o)
      exact ⟨_, State.rowCmd_fails hhead hfunc h0 h29, honly, hstart.took, hstart.store, hstart.pot, hstart.stats⟩
    · obtain ⟨x, cy, honly, hstart, hpot, houtside⟩ := s.rowOverPot_started c.val o z
      exact ⟨_, cy, State.rowCmd_overPot hhead hfunc h29, honly, hstart.took, hstart.store.trans hpot.store, hstart.stats.trans hpot.stats, hstart.planes,
        fun i hi => by rw [hstart.pot]; exact houtside i hi⟩
    · obtain ⟨x, e, honly, he, hstart, hpot, hstats⟩ := s.rowRunFn_started c.val o z
      rw [hfunc, hpasses] at hstart
      refine ⟨_, e, State.rowCmd_runs hhead hfunc h0, ?_⟩
      rw [if_neg hrows]
      refine ⟨honly, he, hstart.took, hstart.planes, fun hgrad => hstart.pot.trans (hpot hgrad), fun hback => hstart.stats.trans (hstats ?_)⟩
      simp only [List.mem_cons, List.not_mem_nil, or_false] at hback
      omega
  · obtain ⟨e, honly, he, hstart⟩ := s.statCopy_started c.val o z hsound
    rw [if_pos h7] at hstart
    obtain ⟨hwords, hframe⟩ := (s.core c.val).statSaved_store o
    exact ⟨_, e, State.rowCmd_runs hhead h7 h0, honly, he, hstart.took, hstart.stats, hstart.pot,
      fun i hi hclean => (Core.csWord_of_store hstart.store hstart.storePoison _).trans (hwords i hi hclean),
      fun a ha => (Core.byteAt_of_store hstart.store a).trans (hframe a ha)⟩
  · obtain ⟨e, honly, he, hstart⟩ := s.statCopy_started c.val o z hsound
    rw [if_neg (by omega)] at hstart
    obtain ⟨hwords, hframe⟩ := (s.core c.val).statLoaded_stats o
    obtain ⟨hstore, hpot⟩ := (s.core c.val).statLoaded_keeps o
    refine ⟨_, e, State.rowCmd_runs hhead h8 h0, honly, he, hstart.took, hstart.store.trans hstore, hstart.pot.trans hpot, ?_⟩
    rw [if_pos (.inr rfl), hstart.stats]
    exact ⟨hwords, hframe⟩
  · obtain ⟨-, hstart⟩ := s.rowFail_started c.val o (rowStatus o)
    refine ⟨_, ?_, hstart.took, hstart.store, hstart.stats⟩
    rcases hstat with h7 | h8
    · rw [if_pos h7]
      exact State.rowCmd_fails hhead h7 h0 h29
    · rw [if_neg (by omega)]
      exact State.rowCmd_fails hhead h8 h0 h29
end

-- ==== Sys2Proof/Proofs/VectorChain.lean ====

section
namespace Sys2Proof.Machine

/-! ### The commands of the vector chain (R219, R228) -/

/-- The module with the pairs of a core taken off it. -/
def State.unpaired (s : State) (c : Nat) : State := s.updCore c (fun k => { k with pairs := [] })

theorem State.unpaired_core (s : State) (c : Nat) : (s.unpaired c).core c = { s.core c with pairs := [] } := State.core_updCore_self ..

theorem State.unpaired_dataOnly (s : State) (c : Nat) : (s.core c).dataOnly ((s.unpaired c).core c) := by
  rw [State.unpaired_core]
  rfl

section
variable {s : State} {c : CoreIx} {z : Nat} {o : Op} (hhead : s.head c.val .vec 0x20 = some o)
include hhead

theorem execVecRun_fails (hdrain : o.f 0 21 2 ≠ 1) (h : s.vecStatic c.val o ≠ 0) : exec (.vecRun c z) s = .next (s.vecFail c.val o (s.vecStatic c.val o)) := by
  show execVecRun c z s = _
  -- `h` rules out the branch of the status OK
  simp only [execVecRun, hhead, hdrain, if_false]

theorem execVecRun_runs (hdrain : o.f 0 21 2 ≠ 1) (h : s.vecStatic c.val o = 0) : exec (.vecRun c z) s = .next (s.vecGo c.val o none z) := by
  show execVecRun c z s = _
  simp only [execVecRun, hhead, hdrain, if_false, h]

theorem execVecRun_unpaired (hdrain : o.f 0 21 2 = 1) (h : ∀ p ∈ (s.core c.val).pairs, p.vecId ≠ some o.id) : exec (.vecRun c z) s = .next s := by
  have hfind : (s.core c.val).pairs.find? (fun p => p.vecId == some o.id) = none := List.find?_eq_none.mpr fun p hp => by simpa using h p hp
  show execVecRun c z s = _
  simp only [execVecRun, hhead, hdrain, if_true, hfind]

section
variable {p : Pair} (hdrain : o.f 0 21 2 = 1) (hpairs : (s.core c.val).pairs = [p]) (hvec : p.vecId = some o.id)
include hdrain hpairs hvec

theorem execVecRun_waits (hfailed : p.failed = false) (hwhole : p.whole = none) : exec (.vecRun c z) s = .next s := by
  show execVecRun c z s = _
  simp [execVecRun, hhead, hdrain, hpairs, hvec, hfailed, hwhole]

theorem execVecRun_pairFailed (hfailed : p.failed = true) :
    exec (.vecRun c z) s = .next ((s.unpaired c.val).vecFail c.val o (if drainFmtBad o p.int then 0x61 else 0x64)) := by
  show execVecRun c z s = _
  simp [execVecRun, hhead, hdrain, hpairs, hvec, hfailed, State.unpaired, State.updCore]

theorem execVecRun_drained {w : Nat} (hfailed : p.failed = false) (hwhole : p.whole = some w) (h : s.vecStatic c.val o = 0) :
    exec (.vecRun c z) s = .next ((s.unpaired c.val).vecGo c.val o (some (p.vals, w)) z) := by
  show execVecRun c z s = _
  simp [execVecRun, hhead, hdrain, hpairs, hvec, hfailed, hwhole, h, State.unpaired, State.updCore]

end

end

/-! ### An operation that a check ends (R227, R230) -/

theorem State.vecFail_started (s : State) (c : Nat) (o : Op) (st : Nat) :
    s.onlyCore (s.vecFail c o st) c ∧ (s.core c).started (s.core c) ((s.vecFail c o st).core c) .vec o st 12 := by
  refine ⟨State.onlyCore_setCore .., ?_⟩
  rw [State.vecFail, State.core_updCore_self]
  exact Core.dataOnly.start (k := s.core c) rfl (Core.errorsOnly_poisonCounts ..) ..

/-! ### The stages (R220 to R223) -/

/-- A stage that converts nothing gives no scales and adds to no observation. -/
theorem State.runStage_unconverted (s : State) (o : Op) (ia ib : List PVal) (rowLen mxRow : Nat) {g : Stage} (i : Nat) (ch : Chain) (hg : g.func ≠ 0x30) :
    (s.runStage o ia ib rowLen mxRow g i ch).scales = ch.scales ∧ (s.runStage o ia ib rowLen mxRow g i ch).opened = ch.opened := by
  unfold State.runStage
  extract_lets bfl f rl zero cst src xs rows tops mag nxt
  have hnxt : nxt.scales = ch.scales ∧ nxt.opened = ch.opened := by
    simp only [nxt, hg, if_false]
    split
    · exact ⟨rfl, rfl⟩
    · split <;> exact ⟨rfl, rfl⟩
  split
  · exact hnxt
  · exact hnxt

theorem State.runStages_unconverted (s : State) (o : Op) (ia ib : List PVal) (rowLen mxRow : Nat) (gs : List Stage) (hgs : ∀ g ∈ gs, g.func ≠ 0x30)
    (i : Nat) (ch : Chain) :
    (s.runStages o ia ib rowLen mxRow gs i ch).scales = ch.scales ∧ (s.runStages o ia ib rowLen mxRow gs i ch).opened = ch.opened := by
  induction gs generalizing i ch with
  | nil => exact ⟨rfl, rfl⟩
  | cons g r ih =>
    obtain ⟨hscales, hopened⟩ := s.runStage_unconverted o ia ib rowLen mxRow i ch (hgs g List.mem_cons_self)
    obtain ⟨hrestScales, hrestOpened⟩ := ih (fun g hg => hgs g (List.mem_cons_of_mem _ hg)) (i + 1) (s.runStage o ia ib rowLen mxRow g i ch)
    exact ⟨hrestScales.trans hscales, hrestOpened.trans hopened⟩

/-! ### The parts of a VEC_RUN that passed its checks (R219, R227) -/

/-- The values of IN_A: the drain's, or the core store's. -/
def State.vecA (s : State) (c : Nat) (o : Op) (drain : Option (List PWord × Nat)) : List PVal :=
  let k := s.core c
  let rl := roundRne (if o.f 0 23 1 == 1 then bf16 else fp32)
  match drain with
  | some (l, _) => (l.zipIdx 0).map (fun p =>
      let v := elemVal (o.f 0 14 4) p.1.1.toNat
      if o.f 24 30 2 = 1 then let sc := k.csWord (64 * o.f 28 0 15); (rl (vmul v (v32 sc.1)), p.1.2 || sc.2) else (rl v, p.1.2))
  | none =>
    if o.f 0 21 2 = 0 then (List.range (o.f 4 0 21)).map (k.vecIn rl (o.f 0 14 4) (o.f 12 0 15) (o.f 24 30 2) (o.f 28 0 15) (o.f 8 16 16 + 1)) else []

/-- The values of IN_B. -/
def State.vecB (s : State) (c : Nat) (o : Op) : List PVal :=
  let rl := roundRne (if o.f 0 23 1 == 1 then bf16 else fp32)
  if o.f 0 20 1 = 1 then (List.range (o.f 4 0 21)).map ((s.core c).vecIn rl (o.f 0 10 4) (o.f 12 16 15) (o.f 24 28 2) (o.f 28 16 15) (o.f 8 16 16 + 1)) else []

/-- The elements that enter stage 0. -/
def vecEntry (s : State) (o : Op) (ia : List PVal) : Chain :=
  { es := (List.range (o.f 4 0 21)).map (fun i => { v := nth (.fin false 0 0, false) ia i, flag := false, fp := false })
    satN := 0, nanN := 0, opened := s.gov.opened, scales := [], raw := [], obsAt := [] }

/-- What the last stage gives out. -/
def State.vecChain (s : State) (c : Nat) (o : Op) (drain : Option (List PWord × Nat)) : Chain :=
  let st := (s.core c).vecStages o
  s.runStages o (s.vecA c o drain) (s.vecB c o) (o.f 8 16 16 + 1) (vecMxRow st (o.f 4 0 21) (o.f 8 16 16 + 1)) st 0 (vecEntry s o (s.vecA c o drain))

/-- The output's elements in the form in which they are written. -/
def State.vecRaw (s : State) (c : Nat) (o : Op) (drain : Option (List PWord × Nat)) : List (Nat × Bool) :=
  let ch := s.vecChain c o drain
  if ch.raw.isEmpty then ch.es.map (fun e => (enc (if o.f 0 23 1 == 1 then bf16 else fp32) e.v.1, e.v.2)) else ch.raw

/-- The core with the output written. -/
def State.vecOutput (s : State) (c : Nat) (o : Op) (drain : Option (List PWord × Nat)) : Core :=
  let k := s.core c
  let raw := s.vecRaw c o drain
  if o.f 0 18 2 = 0 then k.csWrite (64 * o.f 16 0 15) (packElems (s.outBits o (((s.core c).vecStages o).getLastD (stageOf 0))) raw)
  else if o.f 0 18 2 = 3 then k
  else k.potApply (o.f 0 18 2 == 2) (16 * o.f 16 0 12) (raw.map (fun e => (BitVec.ofNat 32 e.1, e.2)))

/-- The core with the output's scales written as well. -/
def State.vecWritten (s : State) (c : Nat) (o : Op) (drain : Option (List PWord × Nat)) : Core :=
  let ch := s.vecChain c o drain
  if ch.scales.isEmpty || o.f 0 18 2 = 3 then s.vecOutput c o drain else (s.vecOutput c o drain).csWrite (64 * o.f 16 16 15) (packElems 8 ch.scales)

/-- The status of a VEC_RUN that passed its checks. -/
def State.vecEnds (s : State) (c : Nat) (o : Op) (drain : Option (List PWord × Nat)) : Nat :=
  if (s.vecA c o drain ++ s.vecB c o).any (·.2) then 0x90 else 0

/-- Its cycles, apart from those in which it waits. -/
def vecCycles (o : Op) (drain : Option (List PWord × Nat)) : Nat :=
  match drain with
  | some _ => 24
  | none => 36 + cdiv (o.f 4 0 21) (if o.f 0 23 1 == 1 then 128 else 64)

theorem State.vecGo_started (s : State) (c : Nat) (o : Op) (drain : Option (List PWord × Nat)) (z : Nat) :
    let t := s.vecGo c o drain z
    { t with cores := s.cores, gov := s.gov } = s ∧ t.gov = { s.gov with opened := (s.vecChain c o drain).opened } ∧ (∀ d, d ≠ c → t.core d = s.core d)
      ∧ ((s.core c).dataOnly (s.vecWritten c o drain) →
          (s.core c).started (s.vecWritten c o drain) (t.core c) .vec o (s.vecEnds c o drain) (vecCycles o drain + z)) := by
  refine ⟨rfl, rfl, fun d hd => State.core_setCore_ne s c d _ hd, fun h => ?_⟩
  unfold State.vecGo
  extract_lets k bfl rl n rowLen st lastS af sc ia ib zero ch0 ch outB raw words od k1 k2 obs vals np poisoned status k3 t gov
  have hstatus : status = s.vecEnds c o drain := rfl
  have hk3 : (s.vecWritten c o drain).errorsOnly k3 := Core.errorsOnly_counted ..
  have hcore : t.core c = _ := State.core_setCore_self ..
  show (s.core c).started _ (t.core c) .vec o _ _
  rw [hcore, ← hstatus]
  clear_value status k3
  cases drain with
  | none => exact h.start hk3 ..
  | some _ => exact h.start hk3 ..

theorem State.vecEnds_cases (s : State) (c : Nat) (o : Op) (drain : Option (List PWord × Nat)) : s.vecEnds c o drain = 0 ∨ s.vecEnds c o drain = 0x90 := by
  unfold State.vecEnds
  split
  · exact .inr rfl
  · exact .inl rfl

/-- The output goes to the core store under OUT_DEST 0, and under 1 and 2 to the pot. -/
theorem State.vecOutput_only (s : State) (c : Nat) (o : Op) (drain : Option (List PWord × Nat)) :
    ((o.f 0 18 2 = 0 ∨ o.f 0 18 2 = 3) ∧ (s.core c).storeOnly (s.vecOutput c o drain)) ∨ ((s.core c).potOnly (s.vecOutput c o drain)) := by
  unfold State.vecOutput
  extract_lets k raw
  split
  next h => exact .inl ⟨.inl h, Core.storeOnly_csWrite ..⟩
  next =>
    split
    next h => exact .inl ⟨.inr h, rfl⟩
    next => exact .inr (Core.potOnly_potApply ..)

theorem State.vecWritten_output (s : State) (c : Nat) (o : Op) (drain : Option (List PWord × Nat)) :
    (s.vecOutput c o drain).storeOnly (s.vecWritten c o drain) := by
  unfold State.vecWritten
  simp only []
  split
  · rfl
  · exact Core.storeOnly_csWrite ..

theorem State.vecWritten_dataOnly (s : State) (c : Nat) (o : Op) (drain : Option (List PWord × Nat)) : (s.core c).dataOnly (s.vecWritten c o drain) := by
  have hscales := (s.vecWritten_output c o drain).dataOnly
  rcases s.vecOutput_only c o drain with ⟨-, hstore⟩ | hpot
  · exact hstore.dataOnly.trans hscales
  · exact hpot.dataOnly.trans hscales

theorem State.vecWritten_pairs (s : State) (c : Nat) (o : Op) (drain : Option (List PWord × Nat)) : (s.vecWritten c o drain).pairs = (s.core c).pairs := by
  have hscales : (s.vecWritten c o drain).pairs = (s.vecOutput c o drain).pairs := (congrArg Core.pairs (s.vecWritten_output c o drain) :)
  rcases s.vecOutput_only c o drain with ⟨-, hstore⟩ | hpot
  · exact hscales.trans (congrArg Core.pairs hstore :)
  · exact hscales.trans (congrArg Core.pairs hpot :)

/-- An output for the core store, or for none, leaves the pot. -/
theorem State.vecWritten_pot (s : State) (c : Nat) (o : Op) (drain : Option (List PWord × Nat)) (h : o.f 0 18 2 = 0 ∨ o.f 0 18 2 = 3) :
    (s.vecWritten c o drain).pot = (s.core c).pot := by
  rw [(s.vecWritten_output c o drain).pot, State.vecOutput]
  rcases h with h | h <;> simp only [h] <;> rfl

/-- An output for the pot, or for none, that no stage converts leaves the core store. -/
theorem State.vecWritten_store (s : State) (c : Nat) (o : Op) (drain : Option (List PWord × Nat)) (h : o.f 0 18 2 ≠ 0)
    (hstages : ∀ g ∈ (s.core c).vecStages o, g.func ≠ 0x30) : (s.vecWritten c o drain).store = (s.core c).store := by
  have hscales : (s.vecChain c o drain).scales = [] := (s.runStages_unconverted o _ _ _ _ _ hstages 0 _).1
  simp only [State.vecWritten, hscales, List.isEmpty_nil, Bool.true_or, if_true, State.vecOutput, h, if_false]
  split
  · rfl
  · exact (Core.potOnly_potApply ..).store

end Sys2Proof.Machine

open Sys2Proof Sys2Proof.Machine

/-- Settles O22. What a VEC_RUN leaves is the start of the operation on its core with the output and its scales written; a pair with the array
is taken off the core first. -/
theorem vecRun : Obligations.VecRun := by
  unfold Obligations.VecRun
  intro s c z o hhead k
  have hcycles : vecCycles o none + z = 36 + cdiv (o.f 4 0 21) (if o.f 0 23 1 = 1 then 128 else 64) + z := by
    simp [vecCycles]
  refine ⟨fun hdrain hst => ?_, fun hdrain hst => ?_, fun hdrain hnone => execVecRun_unpaired hhead hdrain hnone,
    fun p hdrain hpairs hvec hfailed => ?_, fun p hdrain hpairs hvec hfailed hwhole => execVecRun_waits hhead hdrain hpairs hvec hfailed hwhole,
    fun p w hdrain hpairs hvec hfailed hwhole hst => ?_⟩
  · obtain ⟨honly, hstart⟩ := s.vecFail_started c.val o (s.vecStatic c.val o)
    exact ⟨_, execVecRun_fails hhead hdrain hst, honly, hstart.took, hstart.store, hstart.pot⟩
  · obtain ⟨hbeyond, hgov, hothers, hstarted⟩ := s.vecGo_started c.val o none z
    have hstart := hstarted (s.vecWritten_dataOnly ..)
    rw [hcycles] at hstart
    exact ⟨_, _, execVecRun_runs hhead hdrain hst, s.vecEnds_cases .., hstart.took, hothers, (congrArg State.mem hbeyond :), (congrArg State.fmt hbeyond :),
      (congrArg State.trace hbeyond :), fun hdest hstages => hstart.store.trans (s.vecWritten_store _ _ _ hdest hstages),
      fun hdest => hstart.pot.trans (s.vecWritten_pot _ _ _ hdest)⟩
  · obtain ⟨honly, hstart⟩ := (s.unpaired c.val).vecFail_started c.val o (if drainFmtBad o p.int then 0x61 else 0x64)
    have hcore := s.unpaired_core c.val
    exact ⟨_, execVecRun_pairFailed hhead hdrain hpairs hvec hfailed, (State.onlyCore_setCore ..).trans honly, (s.unpaired_dataOnly c.val).took hstart.took,
      hstart.store.trans (by rw [hcore]), hstart.pot.trans (by rw [hcore]), hstart.pairs.trans (by rw [hcore])⟩
  · obtain ⟨hbeyond, -, hothers, hstarted⟩ := (s.unpaired c.val).vecGo_started c.val o (some (p.vals, w)) z
    have hstart := hstarted (State.vecWritten_dataOnly ..)
    exact ⟨_, _, execVecRun_drained hhead hdrain hpairs hvec hfailed hwhole hst, State.vecEnds_cases .., (s.unpaired_dataOnly c.val).took hstart.took,
      (hstart.pairs.trans (State.vecWritten_pairs ..)).trans (by rw [s.unpaired_core]), fun d hd => (hothers d hd).trans (State.core_updCore_ne _ _ _ _ hd),
      (congrArg State.mem hbeyond :)⟩
end

-- ==== Sys2Proof/Proofs/VectorElementwise.lean ====

section
namespace Sys2Proof.Machine

/-! ### Elements of whole words (R227, R240) -/

/-- Elements of 32 bits are packed as words. -/
theorem packElems_cons (e : Nat × Bool) (es : List (Nat × Bool)) : packElems 32 (e :: es) = bytesOf (BitVec.ofNat 32 e.1, e.2) ++ packElems 32 es := by
  unfold packElems
  simp only [List.foldr_cons, List.length_cons]
  set v := es.foldr (fun e acc => acc * 2 ^ 32 + e.1 % 2 ^ 32) 0
  rw [show ((es.length + 1) * 32 + 7) / 8 = 4 + (es.length * 32 + 7) / 8 by omega, List.range_add, List.map_append, List.map_map]
  congr 1
  · simp only [bytesOf, leBytes, List.range_succ, List.range_zero, List.nil_append, List.cons_append, List.map_cons, List.map_nil, List.cons.injEq,
      Prod.mk.injEq, BitVec.toNat_ofNat, ← BitVec.toNat_inj]
    simp
    omega
  · refine List.map_congr_left fun i _ => ?_
    have hvalue : (v * 2 ^ 32 + e.1 % 2 ^ 32) / 256 ^ (4 + i) = v / 256 ^ i := by
      rw [Nat.pow_add, ← Nat.div_div_eq_div_mul]
      congr 1
      omega
    have hskip : 8 * (4 + i) / 32 = 8 * i / 32 + 1 := by omega
    have hlast : (8 * (4 + i) + 7) / 32 = (8 * i + 7) / 32 + 1 := by omega
    simp only [Function.comp_apply, hvalue, hskip, hlast, List.drop_succ_cons, Nat.add_sub_add_right]

theorem packElems_words (es : List (Nat × Bool)) : packElems 32 es = (es.map (fun e => ((BitVec.ofNat 32 e.1, e.2) : PWord))).flatMap bytesOf := by
  induction es with
  | nil => rfl
  | cons e r ih => rw [packElems_cons, ih, List.map_cons, List.flatMap_cons]

/-- A 32-bit element at the place of a word. -/
theorem Core.csElem_word (k : Core) (a i : Nat) : k.csElem a (i * 32) 32 = ((k.csWord (a + 4 * i)).1.toNat, (k.csWord (a + 4 * i)).2) := by
  have hplace : a + i * 32 / 8 = a + 4 * i := by omega
  simp [Core.csElem, Core.csWord, wordOf, hplace, bits, show (i * 32 % 8) = 0 by omega]

/-! ### Empty ranges -/

@[simp] theorem csOver_empty (a : Nat) : csOver a 0 = false := by simp [csOver]
@[simp] theorem overlaps_empty_left (a b m : Nat) : overlaps a 0 b m = false := by simp [overlaps]
@[simp] theorem overlaps_empty_right (a n b : Nat) : overlaps a n b 0 = false := by simp [overlaps]

/-! ### A chain of one element-wise stage (R220, R226) -/

/-- The stage word of COPY, ADD, SUB or MUL on IN_A and IN_B. -/
def elementStage (fn : Nat) : Stage :=
  { func := fn, sx := 1, sy := if fn = 0 then 0 else 2, target := 0, sr := false, ovf := false, stats := false, gov := false, fid := 0, const := 0 }

theorem elementStage_func_ne {fn : Nat} (h : fn ≤ 3) : (elementStage fn).func ≠ 0x30 := by
  simp only [elementStage]
  omega

theorem isRed_elementwise {fn : Nat} (h : fn ≤ 3) : isRed fn = false := by
  simp only [isRed, decide_eq_false_iff_not]
  omega

theorem stageOf_elementStage {fn : Nat} (h : fn ≤ 3) : stageOf (fn * 2 ^ 58 + 2 ^ 56 + (if fn = 0 then 0 else 2 ^ 55)) = elementStage fn := by
  interval_cases fn <;> decide

/-- The result of a stage word, before it is rounded. -/
def elementFn (fn : Nat) (x y : Val) : Val := if fn = 0 then x else if fn = 1 then vadd x y else if fn = 2 then vadd x y.negate else vmul x y

/-- Word `i` of an FP32 operand. -/
def Core.operand (k : Core) (a i : Nat) : Val := roundRne fp32 (dec fp32 (k.csWord (a + 4 * i)).1.toNat)

/-- Element `i` of the result, rounded once. -/
def Core.elementResult (k : Core) (o : Op) (fn i : Nat) : Val :=
  roundRne fp32 (elementFn fn (k.operand (64 * o.f 12 0 15) i) (k.operand (64 * o.f 12 16 15) i))

/-- A stage gives out its result on clean operands; COPY leaves its operand Y. -/
theorem stageFn_elementStage {fn : Nat} (h : fn ≤ 3) (rl : Val → Val) (cst : Val) (e : Elem) (x : Val) (y : PVal) (hy : fn = 0 ∨ y.2 = false) :
    stageFn rl (elementStage fn) cst e (x, false) y = { e with v := (rl (elementFn fn x y.1), false) } := by
  interval_cases fn <;> simp_all [stageFn, elementStage, elementFn, usesY]

/-- The stream after the one stage: IN_A with IN_B, element by element, or with itself where COPY names no Y. -/
theorem State.runStage_elementStage (s : State) (o : Op) (ia ib : List PVal) (rowLen mxRow : Nat) {fn : Nat} (ch : Chain) (h : fn ≤ 3) (hlanes : o.f 0 23 1 = 0) :
    let zero : PVal := (.fin false 0 0, false)
    let out := s.runStage o ia ib rowLen mxRow (elementStage fn) 0 ch
    out.es = (ch.es.zipIdx 0).map (fun p => stageFn (roundRne fp32) (elementStage fn) (roundRne fp32 (dec fp32 0)) p.1 (nth zero ia p.2)
        (if fn = 0 then p.1.v else nth zero ib p.2))
      ∧ out.raw = [] := by
  have hconvert : fn ≠ 0x30 := by omega
  have htop : fn ≠ 0x3C := by omega
  have hred := isRed_elementwise h
  unfold State.runStage
  simp only [elementStage, hlanes, hconvert, htop, hred, if_false, Bool.false_eq_true]
  by_cases hcopy : fn = 0
  · split <;> exact ⟨List.map_congr_left fun p _ => by simp [hcopy], rfl⟩
  · split <;> exact ⟨List.map_congr_left fun p _ => by simp, rfl⟩

/-- A VEC_RUN of one element-wise stage on clean FP32 operands of the core store, its output beside them. -/
structure Core.elementwise (k : Core) (o : Op) (fn : Nat) : Prop where
  clean : k.storePoison = []
  func : fn ≤ 3
  stage : leNat ((k.csRead (64 * o.f 8 0 15) 8).map (·.1)) = fn * 2 ^ 58 + 2 ^ 56 + (if fn = 0 then 0 else 2 ^ 55)
  zeros : o.zeros [(0, 0, 3), (0, 3, 3), (0, 6, 3), (0, 18, 2), (0, 21, 2), (0, 23, 1), (4, 21, 11), (8, 15, 1), (12, 31, 1), (12, 15, 1), (16, 31, 1),
    (16, 15, 1), (24, 0, 32), (28, 31, 1), (28, 15, 1)] = true
  srcB : o.f 0 20 1 = 1
  fmtA : o.f 0 14 4 = 8
  fmtB : o.f 0 10 4 = 8
  pos : 0 < o.f 4 0 21
  fits : o.f 4 0 21 ≤ 1048576
  inA : csOver (64 * o.f 12 0 15) (4 * o.f 4 0 21) = false
  inB : csOver (64 * o.f 12 16 15) (4 * o.f 4 0 21) = false
  out : csOver (64 * o.f 16 0 15) (4 * o.f 4 0 21) = false
  apartA : overlaps (64 * o.f 16 0 15) (4 * o.f 4 0 21) (64 * o.f 12 0 15) (4 * o.f 4 0 21) = false
  apartB : overlaps (64 * o.f 16 0 15) (4 * o.f 4 0 21) (64 * o.f 12 16 15) (4 * o.f 4 0 21) = false
  apartStage : overlaps (64 * o.f 16 0 15) (4 * o.f 4 0 21) (64 * o.f 8 0 15) 64 = false

/-- The fields of a VEC_RUN that hold 0 in one of a single element-wise stage. -/
structure Op.plainVec (o : Op) : Prop where
  last : o.f 0 3 3 = 0
  sum : o.f 0 6 3 = 0
  dest : o.f 0 18 2 = 0
  srcA : o.f 0 21 2 = 0
  lanes : o.f 0 23 1 = 0
  scaleA : o.f 24 30 2 = 0
  scaleB : o.f 24 28 2 = 0
  reserved : o.zeros [(0, 0, 3), (4, 21, 11), (8, 15, 1), (12, 31, 1), (12, 15, 1), (16, 31, 1), (16, 15, 1), (24, 0, 28), (28, 31, 1), (28, 15, 1)] = true

theorem Op.f_eq_zero_of_within {o : Op} {off lo w : Nat} (h : o.f off lo w = 0) (lo' w' : Nat) (hl : lo ≤ lo') (hw : lo' + w' ≤ lo + w) : o.f off lo' w' = 0 :=
  bits_eq_zero_of_within h hl hw

section
variable {s : State} {c : Nat} {o : Op} {fn : Nat} (h : (s.core c).elementwise o fn)
include h

theorem Core.elementwise.plain : o.plainVec := by
  have hzeros := h.zeros
  simp only [Op.zeros, List.all_cons, List.all_nil, Bool.and_true, Bool.and_eq_true, beq_iff_eq] at hzeros
  obtain ⟨h00, hlast, hsum, hdest, hsrcA, hlanes, h4, h8, h12, h12', h16, h16', h24, h28, h28'⟩ := hzeros
  refine ⟨hlast, hsum, hdest, hsrcA, hlanes, Op.f_eq_zero_of_within h24 30 2 (by decide) (by decide), Op.f_eq_zero_of_within h24 28 2 (by decide) (by decide), ?_⟩
  simp [Op.zeros, h00, h4, h8, h12, h12', h16, h16', h28, h28', Op.f_eq_zero_of_within h24 0 28 (by decide) (by decide)]

theorem Core.elementwise.stages : (s.core c).vecStages o = [elementStage fn] := by
  simp only [Core.vecStages, h.plain.last, Nat.zero_add, List.range_one, List.map_cons, List.map_nil, Nat.mul_zero, Nat.add_zero, h.stage, stageOf_elementStage h.func]

theorem Core.elementwise.stagesBad : s.stagesBad o [elementStage fn] 0 false = false := by
  have hfunc := h.func
  simp only [State.stagesBad, State.stageBad, h.plain.srcA, h.srcB, h.plain.last, elementStage, Bool.or_false]
  interval_cases fn <;> simp [knownFn, usesY, isRed, bits]

theorem Core.elementwise.outBits : s.outBits o (elementStage fn) = 32 := by
  simp [State.outBits, elementStage_func_ne h.func, h.plain.lanes]

theorem Core.elementwise.vecStatic : s.vecStatic c o = 0 := by
  have hfunc : (elementStage fn).func = fn := rfl
  have hconvert : fn ≠ 0x30 := elementStage_func_ne h.func
  have hbits : elemBits 8 = 32 := rfl
  have hbytes : cdiv (o.f 4 0 21 * 32) 8 = 4 * o.f 4 0 21 := by simp only [cdiv]; omega
  have hcfg : ((s.core c).csRead (64 * o.f 8 0 15) (8 * (o.f 0 3 3 + 1))).any (·.2) = false := by
    simp [Core.csRead_clean h.clean, cleanBytes]
  unfold State.vecStatic
  simp only [h.stages, List.getLastD_cons, List.getLastD_nil, hcfg, h.plain.reserved, h.plain.sum, h.plain.srcA, h.plain.dest, h.plain.lanes,
    h.plain.scaleA, h.plain.scaleB, h.srcB, h.fmtA, h.fmtB, h.stagesBad, h.outBits, hbits]
  simp [firstFail, vecFmtOk, vecOutCount, hfunc, hconvert, isRed_elementwise h.func, hbytes, h.inA, h.inB, h.out, h.apartA, h.apartB, h.apartStage, h.pos.ne', h.fits.not_gt]

/-! ### What the stage gives out -/

theorem Core.elementwise.vecIn (rl : Val → Val) (line scale rowLen i : Nat) :
    (s.core c).vecIn rl 8 line 0 scale rowLen i = (rl (dec fp32 ((s.core c).csWord (64 * line + 4 * i)).1.toNat), false) := by
  have hclean := Core.csWord_clean h.clean (64 * line + 4 * i)
  simp [Core.vecIn, elemBits, elemVal, Core.csElem_word, hclean]

theorem Core.elementwise.vecA : s.vecA c o none = (List.range (o.f 4 0 21)).map (fun i => ((s.core c).operand (64 * o.f 12 0 15) i, false)) := by
  simp only [State.vecA, h.plain.srcA, h.plain.lanes, h.plain.scaleA, h.fmtA, if_true]
  exact List.map_congr_left fun i _ => h.vecIn ..

theorem Core.elementwise.vecB : s.vecB c o = (List.range (o.f 4 0 21)).map (fun i => ((s.core c).operand (64 * o.f 12 16 15) i, false)) := by
  simp only [State.vecB, h.srcB, h.plain.lanes, h.plain.scaleB, h.fmtB, if_true]
  exact List.map_congr_left fun i _ => h.vecIn ..

theorem Core.elementwise.vecEnds : s.vecEnds c o none = 0 := by
  simp [State.vecEnds, h.vecA, h.vecB]

/-- The elements that the stage gives out. -/
theorem Core.elementwise.chain :
    (s.vecChain c o none).es = (List.range (o.f 4 0 21)).map (fun i => { v := ((s.core c).elementResult o fn i, false), flag := false, fp := false })
      ∧ (s.vecChain c o none).raw = [] := by
  obtain ⟨hes, hraw⟩ := s.runStage_elementStage o (s.vecA c o none) (s.vecB c o) (o.f 8 16 16 + 1) (vecMxRow [elementStage fn] (o.f 4 0 21) (o.f 8 16 16 + 1))
    (vecEntry s o (s.vecA c o none)) h.func h.plain.lanes
  simp only [State.vecChain, h.stages, State.runStages]
  refine ⟨hes.trans (List.ext_getElem (by simp [vecEntry]) fun i hi hi' => ?_), hraw⟩
  have hn : i < o.f 4 0 21 := by simpa using hi'
  have hA (d : PVal) : nth d (s.vecA c o none) i = ((s.core c).operand (64 * o.f 12 0 15) i, false) := nth_eq_of_getElem? (by simp [h.vecA, hn])
  have hB (d : PVal) : nth d (s.vecB c o) i = ((s.core c).operand (64 * o.f 12 16 15) i, false) := nth_eq_of_getElem? (by simp [h.vecB, hn])
  simp only [List.getElem_map, List.getElem_zipIdx, Nat.zero_add, vecEntry, List.getElem_range, hA, hB]
  rw [stageFn_elementStage h.func _ _ _ _ _ (by by_cases h0 : fn = 0 <;> simp [h0])]
  by_cases h0 : fn = 0 <;> simp [h0, Core.elementResult, elementFn]

/-- Nothing is converted: the output has no scales, and no observation is added to. -/
theorem Core.elementwise.unconverted : (s.vecChain c o none).scales = [] ∧ (s.vecChain c o none).opened = s.gov.opened :=
  s.runStages_unconverted o _ _ _ _ _ (fun g hg => by
    rw [h.stages, List.mem_singleton] at hg
    rw [hg]
    exact elementStage_func_ne h.func) 0 _

/-- The words written to the core store. -/
theorem Core.elementwise.vecWritten : s.vecWritten c o none
    = (s.core c).csWords (64 * o.f 16 0 15) ((List.range (o.f 4 0 21)).map (fun i => (BitVec.ofNat 32 (enc fp32 ((s.core c).elementResult o fn i)), false))) := by
  obtain ⟨hes, hraw⟩ := h.chain
  simp [State.vecWritten, h.unconverted, State.vecOutput, h.plain.dest, State.vecRaw, hes, hraw, h.plain.lanes, h.stages, h.outBits, packElems_words,
    Core.csWords, Function.comp_def]

theorem Core.elementwise.vecCycles : vecCycles o none = 36 + cdiv (o.f 4 0 21) 64 := by
  simp [Machine.vecCycles, h.plain.lanes]

end

end Sys2Proof.Machine

open Sys2Proof Sys2Proof.Machine

/-- Settles O23. Such an operation has one stage and passes every check; its output is the words of the stage's results, which are without
poison and read back. -/
theorem vecRunElementwiseCompletes : Obligations.VecRunElementwiseCompletes := by
  unfold Obligations.VecRunElementwiseCompletes
  intro s c z o fn hhead k n stageA aA bA outA word hclean hfunc hstage hzeros hsrcB hfmtA hfmtB hpos hfits hinA hinB hout hapartA hapartB hapartStage
  have h : (s.core c.val).elementwise o fn :=
    ⟨hclean, hfunc, hstage, hzeros, hsrcB, hfmtA, hfmtB, hpos, hfits, hinA, hinB, hout, hapartA, hapartB, hapartStage⟩
  obtain ⟨hbeyond, hgov, hothers, hstarted⟩ := s.vecGo_started c.val o none z
  have hstart := hstarted (s.vecWritten_dataOnly ..)
  rw [h.vecEnds, h.vecCycles] at hstart
  obtain ⟨-, hopened⟩ := h.unconverted
  rw [hopened] at hgov
  have hgovStands : (s.vecGo c.val o none z).gov = s.gov := hgov
  rw [← hgovStands] at hbeyond
  refine ⟨_, execVecRun_runs hhead (by rw [h.plain.srcA]; decide) h.vecStatic, ⟨hbeyond, hothers⟩, hstart.took,
    hstart.pot.trans (s.vecWritten_pot _ _ _ (.inl h.plain.dest)), fun i hi => ?_, fun a ha => ?_⟩
  · rw [Core.csWord_of_store hstart.store hstart.storePoison, h.vecWritten, Core.csWord_csWords_mem _ (by omega) _ i (by simpa using hi) (by simp)]
    simp only [List.getElem_map, List.getElem_range]
    rfl
  · rw [Core.byteAt_of_store hstart.store, h.vecWritten]
    exact Core.csWords_byteAt _ _ _ a (by simpa using ha)
end

-- ==== Sys2Proof/Proofs/AccessChecks.lean ====

section
namespace Sys2Proof.Machine

/-! ### Checks before the first request (R250, R259, R260) -/

/-- The FAULT waymark of a request changes the recorder alone (R260). -/
theorem State.auFault_only (s : State) (c blk dir st va : Nat) : { s.auFault c blk dir st va with trace := s.trace } = s := State.markAt_only ..

/-- A TENSOR_MOVE that fails a check ends with its status, once the recorder has what R260 records. -/
theorem State.moveCmd_fails {s : State} {c dir : Nat} {o : Op} (host : List HostReply) (z : Nat) (hhead : s.head c .acc 0x41 = some o) (hdir : o.move.dir = dir)
    (hst : o.moveStatus ≠ 0) :
    ∃ (u : State) (vals : List Nat), s.moveCmd c dir host z = .next (u.accFail c o o.moveStatus vals) ∧ { u with trace := s.trace } = s := by
  unfold State.moveCmd
  rw [hhead]
  simp only [hdir, ne_eq, not_true_eq_false, if_false]
  split
  next h => exact absurd h hst
  next h => exact ⟨_, _, by rw [h], State.auFault_only ..⟩
  next => exact ⟨s, _, rfl, rfl⟩

/-- A TENSOR_MOVE whose checks hold. -/
theorem State.moveCmd_goes {s : State} {c dir : Nat} {o : Op} (host : List HostReply) (z : Nat) (hhead : s.head c .acc 0x41 = some o) (hdir : o.move.dir = dir)
    (hst : o.moveStatus = 0) : s.moveCmd c dir host z = .next (s.moveGo c host o z) := by
  simp [State.moveCmd, hhead, hdir, hst]

/-- One core and the recorder changed, at the time as it was, is a change of one core and the clocks. -/
theorem State.coreAndClock_of_core {s t : State} {c : Nat} (hrest : { t with cores := s.cores, trace := s.trace } = s)
    (hothers : ∀ d, d ≠ c → t.core d = s.core d) : s.coreAndClock t c := by
  have htime : t.time = s.time := (congrArg State.time hrest :)
  refine ⟨congrArg (fun q : State => { q with time := s.time, clk := s.clk, power := s.power, freeIx := s.freeIx }) hrest, fun d hd => ?_⟩
  rw [hothers d hd, htime, State.toTime, Nat.sub_self, State.advance_zero]

/-! ### Translation (R255, R256, R258) -/

/-- The permissions of an entry that let a request of a kind pass; none lets an accumulate through to a HOST page (R258). -/
def Page.permits (p : Page) : Acc → Prop
  | .read => p.read = true
  | .plain => p.write = true
  | .add => p.add = true ∧ p.target ≠ 2

theorem State.pageCheck_invalid {s : State} {va : Nat} (k : Acc) (h : (s.page (va / 2097152)).valid = false) : s.pageCheck va k = .inl 0x6E := by
  simp [State.pageCheck, h]

theorem State.pageCheck_refused {s : State} {va : Nat} {k : Acc} (h : (s.page (va / 2097152)).valid = true) (hno : ¬ (s.page (va / 2097152)).permits k) :
    s.pageCheck va k = .inl 0x6F := by
  cases k <;> simp_all [State.pageCheck, Page.permits, imp_iff_not_or]

theorem State.pageCheck_passes {s : State} {va : Nat} {k : Acc} (h : (s.page (va / 2097152)).valid = true) (hok : (s.page (va / 2097152)).permits k) :
    s.pageCheck va k = .inr ((s.page (va / 2097152)).target, (s.page (va / 2097152)).phys + va % 2097152) := by
  cases k <;> simp_all [State.pageCheck, Page.permits]

theorem State.xlate_bad {s : State} {va : Nat} (k : Acc) (h : s.entryBad (va / 2097152) = true) : s.xlate va k = .inl 0x67 := by simp [State.xlate, h]

theorem State.xlate_good {s : State} {va : Nat} (k : Acc) (h : s.entryBad (va / 2097152) = false) : s.xlate va k = s.pageCheck va k := by simp [State.xlate, h]

/-- The permissions as bits of the entry (R256). -/
theorem State.permits_page (s : State) (n : Nat) (k : Acc) :
    let e := (mget 0 s.pages n).toNat
    (s.page n).permits k ↔ (k = .read ∧ e.testBit 62) ∨ (k = .plain ∧ e.testBit 61) ∨ (k = .add ∧ e.testBit 60 ∧ e / 2 ^ 58 % 4 ≠ 2) := by
  cases k <;> simp [Page.permits, State.page, bit, bits, Nat.shiftRight_eq_div_pow]

/-- Where an entry's page goes, as fields of the entry (R256). -/
theorem State.page_place (s : State) (n : Nat) :
    (s.page n).target = (mget 0 s.pages n).toNat / 2 ^ 58 % 4 ∧ (s.page n).phys = (mget 0 s.pages n).toNat / 2 ^ 21 % 2 ^ 31 * 2097152 := by
  simp [State.page, bits, Nat.shiftRight_eq_div_pow]

end Sys2Proof.Machine

open Sys2Proof Sys2Proof.Machine

/-- Settles O29. A failed check ends the operation in its core and the recorder; a translation that passes is the last branch of `pageCheck`. -/
theorem accessChecks : Obligations.AccessChecks := by
  refine ⟨fun s c z host o j dir hhead hdir hst hj => ?_, fun s va k => ?_⟩
  · have hend (hs : List HostReply) (hexec : exec j s = s.moveCmd c.val dir hs z) :
        ∃ t, exec j s = .next t ∧ s.coreAndClock t c.val ∧ (s.core c.val).took (t.core c.val) .acc o o.moveStatus 16
          ∧ (t.core c.val).store = (s.core c.val).store ∧ t.outbox = s.outbox ∧ t.time = s.time := by
      obtain ⟨u, vals, hcmd, hu⟩ := s.moveCmd_fails hs z hhead hdir hst
      obtain ⟨⟨hbeyond, hothers⟩, htook, hstore, -⟩ := u.accFail_ends c.val o o.moveStatus vals
      have hcore (d : Nat) : u.core d = s.core d := (congrArg (State.core · d) hu :)
      rw [hcore] at htook hstore
      have hrest := (congrArg (fun q : State => { q with cores := s.cores, trace := s.trace }) hbeyond).trans (congrArg (fun q : State => { q with cores := s.cores }) hu)
      exact ⟨_, hexec.trans hcmd, State.coreAndClock_of_core hrest (fun d hd => (hothers d hd).trans (hcore d)), htook, hstore,
        (congrArg State.outbox hrest :), (congrArg State.time hrest :)⟩
    simp only [List.mem_cons, Prod.mk.injEq, List.not_mem_nil, or_false] at hj
    rcases hj with ⟨rfl, rfl⟩ | ⟨rfl, rfl⟩ | ⟨rfl, rfl⟩
    · exact hend host rfl
    · exact hend host rfl
    · exact hend [] rfl
  · intro n e allowed
    obtain ⟨htarget, hphys⟩ := s.page_place n
    have hpermits : (s.page n).permits k ↔ allowed := s.permits_page n k
    refine ⟨s.xlate_bad k, fun hgood hvalid => ?_, fun hgood hvalid hno => ?_, fun hgood hvalid hok => ?_⟩
    all_goals rw [s.xlate_good k hgood]
    · exact s.pageCheck_invalid k hvalid
    · exact s.pageCheck_refused hvalid (hpermits.not.mpr hno)
    · rw [s.pageCheck_passes hvalid (hpermits.mpr hok)]
      exact congrArg Sum.inr (Prod.ext htarget (congrArg (· + va % 2097152) hphys))
end

-- ==== Sys2Proof/Proofs/TensorGeometry.lean ====

section
namespace Sys2Proof.Machine

/-! ### Runs of bytes (R247, R248) -/

/-- Whether one of a list of runs of bytes covers an address. -/
def runsCover (l : List (Nat × List PByte)) (a : Nat) : Prop := ∃ w ∈ l, w.1 ≤ a ∧ a < w.1 + w.2.length

theorem runsCover_cons (x : Nat × List PByte) (l : List (Nat × List PByte)) (a : Nat) :
    runsCover (x :: l) a ↔ (x.1 ≤ a ∧ a < x.1 + x.2.length) ∨ runsCover l a := by
  simp [runsCover]

theorem runsCover_reverse (l : List (Nat × List PByte)) (a : Nat) : runsCover l.reverse a ↔ runsCover l a := by simp [runsCover]

/-- A run is joined with the first of the runs after it where that one touches it, and stands alone where not. -/
theorem joinRuns_cons (x : Nat × List PByte) (r : List (Nat × List PByte)) :
    joinRuns (x :: r) = x :: joinRuns r ∨ ∃ y q, joinRuns r = y :: q ∧ y.1 = x.1 + x.2.length ∧ joinRuns (x :: r) = (x.1, x.2 ++ y.2) :: q := by
  have hstep : joinRuns (x :: r) = match joinRuns r with
      | y :: q => if y.1 = x.1 + x.2.length then (x.1, x.2 ++ y.2) :: q else x :: y :: q
      | [] => [x] := rfl
  rw [hstep]
  cases joinRuns r with
  | nil => exact .inl rfl
  | cons y q =>
    simp only []
    split
    next htouch => exact .inr ⟨y, q, rfl, htouch, rfl⟩
    next => exact .inl rfl

/-- Runs joined where they touch cover nothing that they did not cover before. -/
theorem runsCover_joinRuns {l : List (Nat × List PByte)} {a : Nat} (h : runsCover (joinRuns l) a) : runsCover l a := by
  induction l with
  | nil => exact h
  | cons x r ih =>
    rw [runsCover_cons]
    rcases joinRuns_cons x r with hj | ⟨y, q, hr, htouch, hj⟩ <;> rw [hj, runsCover_cons] at h
    · exact h.imp_right ih
    · rw [hr, runsCover_cons] at ih
      simp only [List.length_append] at h
      rcases h with ⟨hlo, hhi⟩ | h
      · by_cases hx : a < x.1 + x.2.length
        · exact .inl ⟨hlo, hx⟩
        · exact .inr (ih (.inl (by omega)))
      · exact .inr (ih (.inr h))

/-- What a write request leaves in its line lies in the line, and in one of its elements (R248). -/
theorem runsCover_overlay {line a : Nat} {ws : List (Nat × List PByte)} (h : runsCover (overlay line ws) a) : a / 64 = line ∧ runsCover ws a := by
  obtain ⟨w, hw, hlo, hhi⟩ := runsCover_joinRuns h
  obtain ⟨i, hi, hcell⟩ := List.mem_filterMap.mp hw
  have hi64 : i < 64 := List.mem_range.mp hi
  obtain ⟨b, hb, rfl⟩ := Option.map_eq_some_iff.mp hcell
  simp only [List.length_singleton] at hlo hhi
  obtain rfl : a = 64 * line + i := by omega
  obtain ⟨v, hv, hfound⟩ := List.exists_of_findSome?_eq_some hb
  split at hfound
  next hin => exact ⟨by omega, v, List.mem_reverse.mp hv, hin⟩
  next => cases hfound

/-- Runs of bytes written to the core store, in their order. -/
def Core.writes (k : Core) (l : List (Nat × List PByte)) : Core := l.foldl (fun k w => k.csWrite w.1 w.2) k

theorem Core.accessOnly_writes (k : Core) (l : List (Nat × List PByte)) : k.accessOnly (k.writes l) :=
  List.foldlRecOn (motive := k.accessOnly) l _ rfl (fun x hx w _ => hx.trans (x.accessOnly_csWrite w.1 w.2))

theorem Core.writes_byteAt (k : Core) (l : List (Nat × List PByte)) {a : Nat} (h : ¬ runsCover l a) : (k.writes l).byteAt a = k.byteAt a := by
  refine List.foldlRecOn (motive := fun x : Core => x.byteAt a = k.byteAt a) l _ rfl (fun x hx w hw => ?_)
  refine (x.csWrite_byteAt w.1 w.2 a ?_).trans hx
  by_contra hin
  exact h ⟨w, hw, by omega, by omega⟩

/-! ### A run's requests (R248, R250) -/

/-- An element joins the first request of the elements after it where their lines agree, and is a request of its own where not. -/
theorem groupLines_cons (sz a p : Nat) (r : List (Nat × Nat)) :
    groupLines sz ((a, p) :: r) = { at' := [(a, sz)], packed := p, bytes := sz } :: groupLines sz r
      ∨ ∃ q qs, groupLines sz r = q :: qs ∧ q.line = a / 64
        ∧ groupLines sz ((a, p) :: r) = { at' := (a, sz) :: q.at', packed := p, bytes := q.bytes + sz } :: qs := by
  rw [groupLines]
  cases groupLines sz r with
  | nil => exact .inl rfl
  | cons q qs =>
    simp only []
    split
    next h => exact .inr ⟨q, qs, rfl, h, rfl⟩
    next => exact .inl rfl

/-- A request whose elements lie in one line, of as many bytes as they have together (R250). -/
structure Req.wellMade (q : Req) : Prop where
  line : ∀ x ∈ q.at', x.1 / 64 = q.line
  bytes : (q.at'.map (·.2)).sum = q.bytes

theorem Req.wellMade_single (a n p : Nat) : Req.wellMade { at' := [(a, n)], packed := p, bytes := n } :=
  ⟨by simp [Req.line], by simp⟩

theorem groupLines_wellMade (sz : Nat) (l : List (Nat × Nat)) : ∀ q ∈ groupLines sz l, q.wellMade ∧ ∀ x ∈ q.at', x.2 = sz := by
  induction l with
  | nil => simp [groupLines]
  | cons x r ih =>
    obtain ⟨a, p⟩ := x
    rcases groupLines_cons sz a p r with h | ⟨q, qs, hr, hline, h⟩ <;> rw [h, List.forall_mem_cons]
    · exact ⟨⟨Req.wellMade_single a sz p, by simp⟩, ih⟩
    · rw [hr, List.forall_mem_cons] at ih
      obtain ⟨⟨⟨hlines, hbytes⟩, hsize⟩, hqs⟩ := ih
      refine ⟨⟨⟨?_, ?_⟩, ?_⟩, hqs⟩
      · exact List.forall_mem_cons.mpr ⟨rfl, fun y hy => (hlines y hy).trans hline⟩
      · simp only [List.map_cons, List.sum_cons, hbytes, Nat.add_comm]
      · exact List.forall_mem_cons.mpr ⟨rfl, hsize⟩

/-- Elements that lie one after another on the packed side: each request has its place there, and the first starts with the first element. -/
theorem groupLines_packed (sz : Nat) (f : Nat → Nat) (p n i : Nat) :
    (∀ q ∈ groupLines sz ((List.range' i n).map (fun j => (f j, p + j * sz))), p + i * sz ≤ q.packed ∧ q.packed + q.bytes ≤ p + (i + n) * sz)
      ∧ ∀ q ∈ (groupLines sz ((List.range' i n).map (fun j => (f j, p + j * sz)))).head?, q.packed = p + i * sz := by
  induction n generalizing i with
  | zero => simp [groupLines]
  | succ n ih =>
    obtain ⟨hall, hfirst⟩ := ih (i + 1)
    have hnext : p + (i + 1) * sz = p + i * sz + sz := by rw [Nat.succ_mul, Nat.add_assoc]
    have hlast : p + i * sz + sz ≤ p + (i + 1 + n) * sz := by rw [← hnext]; exact Nat.add_le_add_left (Nat.mul_le_mul_right _ (by omega)) _
    rw [hnext] at hall hfirst
    rw [List.range'_succ, List.map_cons, show i + (n + 1) = i + 1 + n by omega]
    rcases groupLines_cons sz (f i) (p + i * sz) ((List.range' (i + 1) n).map (fun j => (f j, p + j * sz))) with h | ⟨q, qs, hr, -, h⟩ <;>
      rw [h, List.forall_mem_cons]
    · exact ⟨⟨⟨le_rfl, hlast⟩, fun q hq => ⟨by have := (hall q hq).1; omega, (hall q hq).2⟩⟩, by simp⟩
    · rw [hr, List.forall_mem_cons] at hall
      rw [hr] at hfirst
      obtain ⟨⟨-, hend⟩, hqs⟩ := hall
      have hstart : q.packed = p + i * sz + sz := hfirst q rfl
      refine ⟨⟨⟨le_rfl, ?_⟩, fun x hx => ⟨?_, (hqs x hx).2⟩⟩, by simp⟩
      · simp only
        omega
      · have := (hqs x hx).1
        omega

theorem Move.reqs_sub {m : Move} (h : m.sub = true) (r : Nat) : m.reqs r = (linePieces (m.unit / 64 + 2) (m.runAt r).toNat m.unit).map
    (fun x => { at' := [x], packed := m.packedAt r + (x.1 - (m.runAt r).toNat), bytes := x.2 }) := by
  simp [Move.reqs, h]

theorem Move.reqs_whole {m : Move} (h : m.sub = false) (r : Nat) : m.reqs r = groupLines m.unit
    ((List.range (m.s 0)).map (fun (i : Nat) => ((m.runAt r + (i : Int) * m.t 0).toNat, m.packedAt r + i * m.unit))) := by
  simp [Move.reqs, h]

theorem Move.reqs_wellMade (m : Move) (r : Nat) : ∀ q ∈ m.reqs r, q.wellMade ∧ (m.sub = false → ∀ x ∈ q.at', x.2 = m.unit) := by
  intro q hq
  cases hsub : m.sub with
  | true =>
    rw [Move.reqs_sub hsub, List.mem_map] at hq
    obtain ⟨x, -, rfl⟩ := hq
    exact ⟨Req.wellMade_single .., nofun⟩
  | false =>
    rw [Move.reqs_whole hsub] at hq
    obtain ⟨hmade, hsize⟩ := groupLines_wellMade _ _ q hq
    exact ⟨hmade, fun _ => hsize⟩

theorem Move.allReqs_wellMade (m : Move) : ∀ q ∈ m.allReqs, q.wellMade ∧ (m.sub = false → ∀ x ∈ q.at', x.2 = m.unit) := by
  intro q hq
  obtain ⟨r, -, hr⟩ := List.mem_flatMap.mp hq
  exact m.reqs_wellMade r q hr

/-! ### The packed side (R245, R251) -/

/-- Elements of whole bytes lie one after another in as many bytes as they have. -/
theorem Move.mul_unit {m : Move} (h : m.sub = false) (n : Nat) : n * m.unit = cdiv (n * m.bits) 8 := by
  have hwhole : m.bits = 8 * (m.bits / 8) := by
    unfold Move.sub at h
    unfold Move.bits
    generalize m.elem = e at h
    match e with
    | 2 | 3 | 4 | 5 => rfl
    | e + 6 => simp [nth]
  have hmul : n * m.bits = 8 * (n * (m.bits / 8)) := by rw [hwhole, Nat.mul_div_cancel_left _ (by decide), Nat.mul_left_comm]
  have hunit : m.unit = m.bits / 8 := by simp [Move.unit, h]
  rw [hunit, hmul, cdiv]
  omega

/-- A run lies between the packed side's first byte and its end. -/
theorem Move.packedAt_bounds (m : Move) {r : Nat} (hr : r < m.slices * m.runs) :
    64 * m.cs ≤ m.packedAt r ∧ m.packedAt r + m.runBytes ≤ m.packedEnd := by
  have hruns : 0 < m.runs := Nat.pos_of_mul_pos_left (Nat.zero_lt_of_lt hr)
  have hslice : r / m.runs ≤ m.slices - 1 := by have := (Nat.div_lt_iff_lt_mul hruns).mpr hr; omega
  have hrun : r % m.runs ≤ m.runs - 1 := by have := Nat.mod_lt r hruns; omega
  have hslices := Nat.mul_le_mul_right m.slicePitch hslice
  have hpitches := Nat.mul_le_mul_right m.runPitch hrun
  unfold Move.packedAt Move.packedEnd Move.sliceBytes
  omega

/-- The requests of a run lie in the run on the packed side. -/
theorem Move.reqs_packed {m : Move} (htr : m.tr = false) (r : Nat) :
    ∀ q ∈ m.reqs r, m.packedAt r ≤ q.packed ∧ q.packed + q.bytes ≤ m.packedAt r + m.runBytes := by
  intro q hq
  have hlen : m.runBytes = cdiv (m.s 0 * m.bits) 8 := by simp [Move.runBytes, Move.runLen, htr]
  cases hsub : m.sub with
  | true =>
    rw [Move.reqs_sub hsub, List.mem_map] at hq
    obtain ⟨x, hx, rfl⟩ := hq
    obtain ⟨hlo, hhi, -⟩ := linePieces_mem _ _ _ hx
    have hunit : m.unit = cdiv (m.s 0 * m.bits) 8 := by simp [Move.unit, hsub]
    simp only
    omega
  | false =>
    rw [Move.reqs_whole hsub, List.range_eq_range'] at hq
    have hplace := (groupLines_packed m.unit (fun i => (m.runAt r + (i : Int) * m.t 0).toNat) (m.packedAt r) (m.s 0) 0).1 q hq
    rwa [Nat.zero_mul, Nat.add_zero, Nat.zero_add, m.mul_unit hsub, ← hlen] at hplace

/-- Without TRANSPOSE the requests lie between the packed side's first byte and its end. -/
theorem Move.allReqs_packed {m : Move} (htr : m.tr = false) : ∀ q ∈ m.allReqs, 64 * m.cs ≤ q.packed ∧ q.packed + q.bytes ≤ m.packedEnd := by
  intro q hq
  obtain ⟨r, hr, hq⟩ := List.mem_flatMap.mp hq
  have hruns : m.runs = m.s 1 := by simp [Move.runs, htr]
  obtain ⟨hfirst, hend⟩ := m.packedAt_bounds (r := r) (by rw [hruns, Nat.mul_comm]; exact List.mem_range.mp hr)
  obtain ⟨hlo, hhi⟩ := Move.reqs_packed htr r q hq
  omega

theorem Core.length_csRead (k : Core) (a n : Nat) : (k.csRead a n).length = n := by simp [Core.csRead, pmRead]

/-- The runs that TRANSPOSE makes lie between the packed side's first byte and its end. -/
theorem Move.transposed_packed {m : Move} (htr : m.tr = true) (hsub : m.sub = false) (k : Core) {a : Nat} (h : runsCover (m.transposed k) a) :
    64 * m.cs ≤ a ∧ a < m.packedEnd := by
  obtain ⟨w, hw, hlo, hhi⟩ := h
  obtain ⟨r, hr, rfl⟩ := List.mem_map.mp hw
  have hruns : m.runs = m.s 0 := by simp [Move.runs, htr]
  obtain ⟨hfirst, hend⟩ := m.packedAt_bounds (r := r) (by rw [hruns]; exact List.mem_range.mp hr)
  have hlen : m.runBytes = m.unit * m.s 1 := by rw [Nat.mul_comm, m.mul_unit hsub]; simp [Move.runBytes, Move.runLen, htr]
  simp only [length_flatMap_blocks (fun _ => Core.length_csRead ..), List.length_range, ← hlen] at hlo hhi
  omega

/-! ### What the encoding checks grant (R243, R249, R251) -/

theorem Op.moveEnc_of_status {o : Op} (h : o.moveStatus = 0) : o.moveEnc = false := by
  by_contra henc
  simp [Op.moveStatus, firstFail, Bool.eq_true_of_not_eq_false henc] at h

theorem Op.move_tr {o : Op} (h : o.moveStatus = 0) (htr : o.move.tr = true) : o.move.dir = 2 ∧ o.move.sub = false := by
  have henc := Op.moveEnc_of_status h
  simp only [Op.moveEnc, htr, Bool.true_and, Bool.or_eq_false_iff, Bool.not_eq_false', Bool.or_eq_true, beq_iff_eq, bne_eq_false_iff_eq] at henc
  obtain ⟨-, ⟨hdir, helem⟩, -⟩ := henc
  exact ⟨hdir, decide_eq_false (by omega)⟩

/-- An accumulating store has elements of one word. -/
theorem Op.move_add {o : Op} (h : o.moveStatus = 0) (hadd : o.move.add = true) : o.move.sub = false ∧ o.move.unit = 4 := by
  have henc := Op.moveEnc_of_status h
  simp only [Op.moveEnc, hadd, Bool.true_and, Bool.or_eq_false_iff, bne_eq_false_iff_eq] at henc
  obtain ⟨⟨⟨-, -, helem⟩, -⟩, -⟩ := henc
  have hsub : o.move.sub = false := by simp [Move.sub, helem]
  exact ⟨hsub, by rw [Move.unit, if_neg (by simp [hsub]), Move.bits, helem]; rfl⟩

end Sys2Proof.Machine
end

-- ==== Sys2Proof/Proofs/TensorRequests.lean ====

section
namespace Sys2Proof.Machine

/-! ### The host port (R389, R485, R498) -/

/-- The state but for what requests to host memory change, and the core's translation cache: outputs, the recorder, a replay's measurement and
the host's own record. Memory, its pages, the links and the checker stand. -/
def State.portOnly (s t : State) : Prop :=
  { t with cores := s.cores, outbox := s.outbox, trace := s.trace, meas := s.meas, host := s.host } = s

theorem State.portOnly_refl (s : State) : s.portOnly s := rfl

theorem State.portOnly.trans {s t u : State} (h : s.portOnly t) (g : t.portOnly u) : s.portOnly u := by
  unfold State.portOnly at h g ⊢
  exact (congrArg (fun q : State => { q with cores := s.cores, outbox := s.outbox, trace := s.trace, meas := s.meas, host := s.host }) g).trans h

theorem State.portOnly.same {s t : State} (h : s.portOnly t) {α : Type} (g : State → α) :
    g { t with cores := s.cores, outbox := s.outbox, trace := s.trace, meas := s.meas, host := s.host } = g s := congrArg g h

theorem State.portOnly_emit (s : State) (o : Output) : s.portOnly (s.emit o) := by
  unfold State.portOnly
  exact congrArg (fun q : State => { q with cores := s.cores, trace := s.trace, meas := s.meas, host := s.host }) (s.emit_only o)

theorem State.portOnly_captureIn (s : State) (k src a i : Nat) (l : List Line) : s.portOnly (s.captureIn k src a i l) := by
  unfold State.portOnly
  exact congrArg (fun q : State => { q with cores := s.cores, outbox := s.outbox, meas := s.meas, host := s.host }) (s.captureIn_only k src a i l)

theorem State.portOnly_mark (s : State) (kind cause group unit payload : Nat) : s.portOnly (s.mark kind cause group unit payload) := by
  unfold State.portOnly
  exact congrArg (fun q : State => { q with cores := s.cores, outbox := s.outbox, meas := s.meas, host := s.host }) (State.markAt_only ..)

theorem State.portOnly_measChanged (s : State) (i : Nat) : s.portOnly (s.measChanged i) := by
  unfold State.measChanged
  refine State.portOnly.trans ?_ (State.portOnly_mark ..)
  rfl

theorem State.portOnly_endReplay (s : State) (code : Nat) : s.portOnly (s.endReplay code) := by
  unfold State.endReplay
  simp only []
  split
  · refine State.portOnly.trans (State.portOnly.trans ?_ (State.portOnly_mark ..)) (State.portOnly_measChanged ..)
    rfl
  · refine State.portOnly.trans ?_ (State.portOnly_mark ..)
    rfl

/-- A host read, whatever it comes to. -/
theorem State.portOnly_hostLine (s : State) (src a : Nat) (hs : List HostReply) : s.portOnly (s.hostLine src a hs).1 := by
  have hemit := s.portOnly_emit (.hostRead a 1 false)
  unfold State.hostLine
  split
  · simp only []
    split
    · split
      · rfl
      · exact s.portOnly_endReplay 2
    · exact s.portOnly_endReplay 2
  · split
    · rfl
    · split
      · exact hemit.trans (State.portOnly_captureIn ..)
      · exact hemit.trans rfl
      · exact hemit

/-- A host write, whatever the host answers. -/
theorem State.portOnly_hostPost (s : State) (ds : List (Nat × List Byte × Bool)) (hs : List HostReply) : s.portOnly (s.hostPost ds hs).1 := by
  have hput : s.portOnly (ds.foldl (fun t d => t.emit (.hostWrite d.1 d.2.1 d.2.2)) s) :=
    List.foldlRecOn (motive := s.portOnly) ds _ s.portOnly_refl (fun t ht _ _ => ht.trans (t.portOnly_emit _))
  unfold State.hostPost
  simp only []
  split
  · exact hput
  · split
    · rfl
    · split
      · exact hput.trans rfl
      · exact hput
      · exact hput

theorem MemRun.portOnly_request (m : MemRun) (va : Nat) (k : Acc) : m.st.portOnly (m.request va k).1.st := by
  rcases m.request_st va k with h | ⟨tl, h⟩ <;> rw [h]
  · rfl
  · rfl

theorem MemRun.portOnly_read (m : MemRun) (va n : Nat) : m.st.portOnly (m.read va n).1.st := by
  have hreq := m.portOnly_request va .read
  unfold MemRun.read
  rcases hr : m.request va .read with ⟨m1, _ | ⟨t, pa⟩⟩ <;> rw [hr] at hreq
  · exact hreq
  · simp only []
    split
    · have hline := m1.st.portOnly_hostLine (coreUnit m1.core m1.blk) (pa / 64 * 64) m1.host
      rcases hl : m1.st.hostLine (coreUnit m1.core m1.blk) (pa / 64 * 64) m1.host with ⟨st, got, r⟩
      rw [hl] at hline
      cases got <;> exact hreq.trans hline
    · exact hreq

/-- A request that goes on to memory is one that the checks of its page let through (R258). -/
theorem MemRun.request_some {m : MemRun} {va : Nat} {k : Acc} {r : Nat × Nat} (h : (m.request va k).2 = some r) : m.st.pageCheck va k = .inr r := by
  obtain ⟨-, -, -, -, -, -, hfailed, hmade⟩ := m.request_spec va k
  cases hf : m.fault with
  | some f => rw [hfailed (by simp [hf])] at h; cases h
  | none =>
    obtain ⟨hno, hyes⟩ := hmade hf
    split at hno
    next => rw [(hno _ rfl).2] at h; cases h
    next hgood =>
      rw [if_neg hgood] at hyes
      cases hx : m.st.pageCheck va k with
      | inl e => rw [(hno e hx).2] at h; cases h
      | inr r' => rw [(hyes r' hx).2] at h; rw [Option.some.inj h]

/-! ### Requests that read (R247) -/

/-- A request's bytes taken from a line `ds` that was obtained as `m`, the line from then on in the holder. -/
def MoveRun.take (g : MoveRun) (q : Req) (m : MemRun) (ds : List PByte) (b : Nat) : MoveRun :=
  let bs := q.at'.flatMap (fun p => ((ds.drop (p.1 - 64 * q.line)).take p.2).zipIdx.map (fun x => (p.1 + x.2, x.1)))
  { m := m, holder := some (q.line, ds), packed := (q.packed, bs.map (·.2)) :: g.packed, moved := g.moved + q.bytes
    reqs := g.reqs + 1, bcast := g.bcast + b, poison := g.poison + poisonWords bs }

/-- What a LOAD or LOCAL request can come to: nothing, after a failure; its bytes from the core, or else from a memory read; or that read's failure. -/
theorem moveIn_cases (mv : Move) (c : Nat) (g : MoveRun) (q : Req) :
    (g.m.fault ≠ none ∧ moveIn mv c g q = g)
      ∨ (∃ ds b, moveIn mv c g q = g.take q { g.m with reqs := g.m.reqs + 1 } ds b)
      ∨ (mv.dir ≠ 2 ∧ ((∃ ds, moveIn mv c g q = g.take q (g.m.read (64 * q.line) 64).1 ds 0)
          ∨ ∃ f, moveIn mv c g q = { g with m := { (g.m.read (64 * q.line) 64).1 with fault := f } })) := by
  unfold moveIn
  split
  next hf => exact .inl ⟨by rw [← Option.isSome_iff_ne_none]; exact hf, rfl⟩
  next =>
    extract_lets held mk
    split
    next => exact .inr (.inl ⟨_, _, rfl⟩)
    next =>
      split
      next => exact .inr (.inl ⟨_, _, rfl⟩)
      next hdir =>
        refine .inr (.inr ⟨hdir, ?_⟩)
        split
        next => exact .inr ⟨_, rfl⟩
        next => exact .inl ⟨_, rfl⟩

/-- The packed runs of `g` each lie at a request's place, and have no more bytes than the request. -/
def MoveRun.packs (g : MoveRun) (l : List Req) : Prop := ∀ w ∈ g.packed, ∃ q ∈ l, w.1 = q.packed ∧ w.2.length ≤ q.bytes

theorem MoveRun.packs.take {g : MoveRun} {l : List Req} (h : g.packs l) {q : Req} (hq : q ∈ l) (hmade : q.wellMade) (m : MemRun) (ds : List PByte) (b : Nat) :
    (g.take q m ds b).packs l := by
  refine List.forall_mem_cons.mpr ⟨⟨q, hq, rfl, ?_⟩, h⟩
  rw [← hmade.bytes]
  simp only [List.length_map, List.length_flatMap, List.length_zipIdx, List.length_take]
  exact List.sum_le_sum (fun x _ => Nat.min_le_left ..)

theorem MoveRun.packs.moveIn {g : MoveRun} {l : List Req} (h : g.packs l) {q : Req} (hq : q ∈ l) (hmade : q.wellMade) (mv : Move) (c : Nat) :
    (moveIn mv c g q).packs l := by
  rcases moveIn_cases mv c g q with ⟨-, he⟩ | ⟨ds, b, he⟩ | ⟨-, ⟨ds, he⟩ | ⟨f, he⟩⟩ <;> rw [he]
  · exact h
  · exact h.take hq hmade _ _ _
  · exact h.take hq hmade _ _ _
  · exact h

/-- A byte of the joined runs lies in a request's place on the packed side. -/
theorem MoveRun.packs.covered {g : MoveRun} {l : List Req} (h : g.packs l) {a : Nat} (ha : runsCover (joinRuns g.packed.reverse) a) :
    ∃ q ∈ l, q.packed ≤ a ∧ a < q.packed + q.bytes := by
  obtain ⟨w, hw, hlo, hhi⟩ := (runsCover_reverse ..).mp (runsCover_joinRuns ha)
  obtain ⟨q, hq, hplace, hlen⟩ := h w hw
  exact ⟨q, hq, by omega, by omega⟩

theorem MemRun.leadsTo_moveIn (mv : Move) (c : Nat) (g : MoveRun) (q : Req) : g.m.leadsTo (moveIn mv c g q).m ∧ g.m.st.portOnly (moveIn mv c g q).m.st := by
  have hread := g.m.leadsTo_read (64 * q.line) 64
  have hport := g.m.portOnly_read (64 * q.line) 64
  rcases moveIn_cases mv c g q with ⟨-, he⟩ | ⟨ds, b, he⟩ | ⟨-, ⟨ds, he⟩ | ⟨f, he⟩⟩ <;> rw [he]
  · exact ⟨g.m.leadsTo_refl, rfl⟩
  · exact ⟨⟨rfl, g.m.st.requested_refl _⟩, rfl⟩
  · exact ⟨hread, hport⟩
  · exact ⟨hread, hport⟩

/-- A LOCAL makes no request to memory. -/
theorem moveIn_local {mv : Move} (hdir : mv.dir = 2) (c : Nat) {g : MoveRun} (hf : g.m.fault = none) (q : Req) :
    (moveIn mv c g q).m = { g.m with reqs := g.m.reqs + 1 } := by
  rcases moveIn_cases mv c g q with ⟨hfault, -⟩ | ⟨ds, b, he⟩ | ⟨hno, -⟩
  · exact absurd hf hfault
  · rw [he]; rfl
  · exact absurd hdir hno

/-! ### Requests that write (R248, R258) -/

/-- A kind of write, by ADD. -/
def Move.kind (mv : Move) : Acc := if mv.add then .add else .plain

/-- The elements of a request with the bytes of the packed side that each takes. -/
def Move.elements (mv : Move) (q : Req) (src : List PByte) : List (Nat × List PByte) :=
  q.at'.zipIdx.map (fun x => (x.1.1, (src.drop (x.2 * mv.unit)).take x.1.2))

/-- The place of an address in the line whose address `va` goes to `pa`. -/
def linePlace (va pa a : Nat) : Nat := pa - va % 64 + a % 64

/-- What a STORE request does to a device space: it adds its elements, each to its word, or writes what they leave in their line. -/
def State.storeLine (s : State) (add : Bool) (sp : Space) (va pa : Nat) (src : List PByte) (ws : List (Nat × List PByte)) : State :=
  if add then
    if s.postHit sp pa then s.devWrite sp pa src true
    else ws.foldl (fun s w => s.devWrite sp (linePlace va pa w.1)
      ((addWords (wordsOf (s.devRead sp (linePlace va pa w.1) 4)) (wordsOf w.2)).flatMap bytesOf) true) s
  else (overlay (va / 64) ws).foldl (fun s w => s.devWrite sp (linePlace va pa w.1) w.2 false) s

/-- The first address of a request. -/
def Req.first (q : Req) : Nat := match q.at' with | [] => 0 | p :: _ => p.1

theorem Req.line_eq (q : Req) : q.line = q.first / 64 := rfl

/-- What a STORE request can come to: nothing, after a failure; its page's refusal; a write to host memory; or a write to device memory. -/
theorem moveOut_cases {mv : Move} {c : Nat} {g x : MoveRun} {q : Req} (hx : moveOut mv c g q = x) :
    let r := g.m.request q.first mv.kind
    x.m = g.m ∨ x.m = r.1
      ∨ (∃ ds, x.m.core = r.1.core ∧ x.m.st = (r.1.st.hostPost ds r.1.host).1)
      ∨ ∃ t pa src, r.2 = some (t, pa) ∧ t ≠ 2 ∧ x.m.core = r.1.core
        ∧ x.m.st = r.1.st.storeLine mv.add (spaceOf t) q.first pa src (mv.elements q src) := by
  intro r
  unfold moveOut at hx
  split at hx
  next => exact .inl (by rw [← hx])
  next =>
    extract_lets -lift va src ws r1 at hx
    -- `moveOut` writes out the request's first address and kind
    have hr : r1 = r := rfl
    clear_value r1
    subst hr
    refine .inr ?_
    rcases hgot : r.2 with _ | ⟨t, pa⟩
    · simp only [hgot] at hx
      exact .inl (by rw [← hx])
    · simp only [hgot] at hx
      refine .inr ?_
      split at hx
      next => exact .inl ⟨_, by rw [← hx], by rw [← hx]⟩
      next =>
        split at hx
        next => exact .inl ⟨_, by rw [← hx], by rw [← hx]⟩
        next ht => exact .inr ⟨t, pa, src, rfl, ht, by rw [← hx], by rw [← hx]; rfl⟩

/-! ### Device memory written by a request (R248, R258) -/

/-- A bus write changes memory only off the post lines and the checker's line, and there only its own space. -/
theorem State.devWrite_mem (s : State) (sp : Space) (a : Nat) (ds : List PByte) (add : Bool) :
    (s.devWrite sp a ds add).mem = s.mem ∨ (s.postHit sp a = false ∧ ∃ p, (s.devWrite sp a ds add).mem = s.mem.put sp (msetRun 0 (s.mem.bytes sp) a (ds.map (·.1))) p) := by
  unfold State.devWrite
  split
  next =>
    simp only []
    split
    · split
      · exact .inl rfl
      · exact .inl (congrArg State.mem (State.checkFault_only s.reduceBad 0x82 0 0) :)
    · exact .inl rfl
  next hmiss =>
    split
    · exact .inl rfl
    · exact .inr ⟨Bool.eq_false_of_not_eq_true hmiss, _, rfl⟩

theorem DevMem.bytes_put (m : DevMem) (sp sp' : Space) (b : Mem Byte) (p : Mem Bool) : (m.put sp b p).bytes sp' = if sp' = sp then b else m.bytes sp' := by
  cases sp <;> cases sp' <;> rfl

/-- A bus write leaves every byte outside its run, and every byte of the other space. -/
theorem State.devWrite_byteAt (s : State) (sp : Space) (a : Nat) (ds : List PByte) (add : Bool) {sp' : Space} {b : Nat}
    (h : sp' = sp → b < a ∨ a + ds.length ≤ b) : (s.devWrite sp a ds add).byteAt sp' b = s.byteAt sp' b := by
  unfold State.byteAt
  rcases s.devWrite_mem sp a ds add with hm | ⟨-, p, hm⟩ <;> rw [hm]
  rw [DevMem.bytes_put]
  split
  next hsp =>
    subst hsp
    exact mget_msetRun_ne 0 _ _ _ _ (by simpa using h rfl)
  next => rfl

theorem length_wordsOf_four {ds : List PByte} (h : ds.length = 4) : (wordsOf ds).length = 1 := by
  match ds, h with
  | [_, _, _, _], _ => rfl

/-- Contributions added to one word of memory are one word. -/
theorem State.length_added (s : State) (sp : Space) (a : Nat) (ws : List PWord) :
    ((addWords (wordsOf (s.devRead sp a 4)) ws).flatMap bytesOf).length ≤ 4 := by
  have hread : (s.devRead sp a 4).length = 4 := by unfold State.devRead; split <;> simp [pmRead]
  rw [length_flatMap_bytesOf, addWords, List.length_zipWith, length_wordsOf_four hread]
  omega

/-- An address of a line goes where its page's check sends it (R256, R258). -/
theorem State.pageCheck_line {s : State} {va x t pa : Nat} {k : Acc} (h : s.pageCheck va k = .inr (t, pa)) (hline : x / 64 = va / 64) :
    s.pageCheck x k = .inr (t, linePlace va pa x) := by
  have hpage : x / 2097152 = va / 2097152 := by omega
  cases hv : (s.page (va / 2097152)).valid with
  | false => rw [State.pageCheck_invalid k hv] at h; cases h
  | true =>
    by_cases hok : (s.page (va / 2097152)).permits k
    · rw [State.pageCheck_passes hv hok] at h
      rw [State.pageCheck_passes (by rw [hpage]; exact hv) (by rw [hpage]; exact hok), hpage]
      simp only [Sum.inr.injEq, Prod.mk.injEq, linePlace] at h ⊢
      omega
    · rw [State.pageCheck_refused hv hok] at h; cases h

theorem Move.mem_elements {mv : Move} {q : Req} {src : List PByte} {w : Nat × List PByte} (h : w ∈ mv.elements q src) :
    ∃ x ∈ q.at', w.1 = x.1 ∧ w.2.length ≤ x.2 := by
  obtain ⟨x, hx, rfl⟩ := List.mem_map.mp h
  exact ⟨x.1, List.fst_mem_of_mem_zipIdx hx, rfl, List.length_take_le ..⟩

/-- What every write of a request keeps, the request keeps. -/
theorem State.storeLine_keeps {P : State → Prop} {s : State} (hs : P s) {sp : Space} (hP : ∀ t a ds add, P t → P (t.devWrite sp a ds add))
    (add : Bool) (va pa : Nat) (src : List PByte) (ws : List (Nat × List PByte)) : P (s.storeLine add sp va pa src ws) := by
  unfold State.storeLine
  split
  · split
    · exact hP _ _ _ _ hs
    · exact List.foldlRecOn (motive := P) ws _ hs (fun t ht w _ => hP _ _ _ _ ht)
  · exact List.foldlRecOn (motive := P) (overlay (va / 64) ws) _ hs (fun t ht w _ => hP _ _ _ _ ht)

/-- A request's writes leave every byte where none of its elements goes. -/
theorem State.storeLine_byteAt (s : State) {mv : Move} {q : Req} (hmade : q.wellMade) (hadd : mv.add = true → ∀ x ∈ q.at', x.2 = 4)
    (sp : Space) (pa : Nat) (src : List PByte) {sp' : Space} {b : Nat}
    (h : sp' = sp → ∀ x ∈ q.at', b < linePlace q.first pa x.1 ∨ linePlace q.first pa x.1 + x.2 ≤ b) :
    (s.storeLine mv.add sp q.first pa src (mv.elements q src)).byteAt sp' b = s.byteAt sp' b := by
  unfold State.storeLine
  split
  next hacc =>
    split
    next hhit =>
      unfold State.byteAt
      rcases s.devWrite_mem sp pa src true with hm | ⟨hmiss, -⟩
      · rw [hm]
      · rw [hhit] at hmiss; cases hmiss
    next =>
      refine List.foldlRecOn (motive := fun t : State => t.byteAt sp' b = s.byteAt sp' b) _ _ rfl (fun t ht w hw => ?_)
      obtain ⟨x, hx, hwx, -⟩ := Move.mem_elements hw
      refine (t.devWrite_byteAt sp _ _ true fun hsp => ?_).trans ht
      have hout := h hsp x hx
      have hlen := t.length_added sp (linePlace q.first pa w.1) (wordsOf w.2)
      rw [hadd hacc x hx, ← hwx] at hout
      omega
  next =>
    refine List.foldlRecOn (motive := fun t : State => t.byteAt sp' b = s.byteAt sp' b) _ _ rfl (fun t ht w hw => ?_)
    refine (t.devWrite_byteAt sp _ _ false fun hsp => ?_).trans ht
    by_contra hin
    have hcover (j : Nat) (hj : j < w.2.length) := runsCover_overlay (line := q.first / 64) (a := w.1 + j) ⟨w, hw, by omega, by omega⟩
    obtain ⟨hstart, -⟩ := hcover 0 (by omega)
    obtain ⟨hline, v, hv, hlo, hhi⟩ := hcover (b - linePlace q.first pa w.1) (by omega)
    obtain ⟨x, hx, hvx, hlen⟩ := Move.mem_elements hv
    have hxline := hmade.line x hx
    have hout := h hsp x hx
    rw [Req.line_eq] at hxline
    unfold linePlace at hin hlo hhi hline hout
    omega

end Sys2Proof.Machine
end

-- ==== Sys2Proof/Proofs/TensorMoves.lean ====

section
namespace Sys2Proof.Machine

/-! ### The requests of a TENSOR_MOVE -/

/-- A TENSOR_MOVE once all its requests have been made. -/
def State.moveRun (s : State) (c : Nat) (host : List HostReply) (o : Op) : MoveRun :=
  o.move.allReqs.foldl (if o.move.dir = 1 then moveOut o.move c else moveIn o.move c)
    { m := MemRun.start s c 6 host, holder := none, packed := [], moved := 0, reqs := 0, bcast := 0, poison := 0 }

/-- A LOAD so far: its requests have changed nothing beyond the host port and their core, and have brought their own bytes. -/
structure State.loading (s : State) (c : Nat) (l : List Req) (g : MoveRun) : Prop where
  core : g.m.core = c
  requested : s.requested g.m.st c
  port : s.portOnly g.m.st
  packs : g.packs l

theorem State.moveRun_load (s : State) (c : Nat) (host : List HostReply) {o : Op} (hdir : o.move.dir = 0) :
    s.loading c o.move.allReqs (s.moveRun c host o) := by
  rw [State.moveRun, if_neg (by simp [hdir])]
  refine List.foldlRecOn (motive := s.loading c o.move.allReqs) _ _ ⟨rfl, s.requested_refl c, rfl, by simp [MoveRun.packs]⟩ (fun g hg q hq => ?_)
  obtain ⟨hmade, -⟩ := o.move.allReqs_wellMade q hq
  obtain ⟨⟨hcore, hreq⟩, hport⟩ := MemRun.leadsTo_moveIn o.move c g q
  rw [hg.core] at hreq
  exact ⟨hcore.trans hg.core, hg.requested.trans hreq, hg.port.trans hport, hg.packs.moveIn hq hmade _ _⟩

/-- A LOCAL so far: the module as it was, no failure, and the requests' own bytes. -/
structure State.copying (s : State) (l : List Req) (g : MoveRun) : Prop where
  st : g.m.st = s
  fault : g.m.fault = none
  lost : g.m.lost = false
  packs : g.packs l

theorem State.moveRun_local (s : State) (c : Nat) (host : List HostReply) {o : Op} (hdir : o.move.dir = 2) :
    s.copying o.move.allReqs (s.moveRun c host o) := by
  rw [State.moveRun, if_neg (by simp [hdir])]
  refine List.foldlRecOn (motive := s.copying o.move.allReqs) _ _ ⟨rfl, rfl, rfl, by simp [MoveRun.packs]⟩ (fun g hg q hq => ?_)
  obtain ⟨hmade, -⟩ := o.move.allReqs_wellMade q hq
  have hm := moveIn_local hdir c hg.fault q
  exact ⟨(congrArg MemRun.st hm).trans hg.st, (congrArg MemRun.fault hm).trans hg.fault, (congrArg MemRun.lost hm).trans hg.lost, hg.packs.moveIn hq hmade _ _⟩

/-- No element of a request is translated to a byte of device memory. -/
def State.spares (s : State) (k : Acc) (sp : Space) (a : Nat) (q : Req) : Prop :=
  ∀ x ∈ q.at', ∀ tg pa, s.pageCheck x.1 k = .inr (tg, pa) → tg ≠ 2 → spaceOf tg = sp → a < pa ∨ pa + x.2 ≤ a

/-- A STORE so far: its requests have left the page table, their core's store, and every byte of device memory that all of `l` spare. -/
structure State.storing (s : State) (c : Nat) (k : Acc) (l : List Req) (g : MoveRun) : Prop where
  core : g.m.core = c
  requested : s.requested g.m.st c
  pages : g.m.st.pages = s.pages
  byteAt : ∀ sp a, (∀ q ∈ l, s.spares k sp a q) → g.m.st.byteAt sp a = s.byteAt sp a

/-- A STORE request leaves the bytes that it spares. -/
theorem State.storing.moveOut {s : State} {c : Nat} {l : List Req} {g : MoveRun} {mv : Move} (h : s.storing c mv.kind l g) {q : Req} (hq : q ∈ l)
    (hmade : q.wellMade) (hadd : mv.add = true → ∀ x ∈ q.at', x.2 = 4) : s.storing c mv.kind l (moveOut mv c g q) := by
  obtain ⟨hcore, hreq⟩ := g.m.leadsTo_request q.first mv.kind
  have hport := g.m.portOnly_request q.first mv.kind
  rw [h.core] at hcore hreq
  have hmem : (g.m.request q.first mv.kind).1.st.mem = g.m.st.mem := hport.same State.mem
  have hpages : (g.m.request q.first mv.kind).1.st.pages = s.pages := (hport.same State.pages).trans h.pages
  have hbyte (sp : Space) (a : Nat) (hl : ∀ q ∈ l, s.spares mv.kind sp a q) : (g.m.request q.first mv.kind).1.st.byteAt sp a = s.byteAt sp a := by
    rw [← h.byteAt sp a hl, State.byteAt, hmem]
    rfl
  rcases moveOut_cases (rfl : Machine.moveOut mv c g q = _) with he | he | ⟨ds, hc, he⟩ | ⟨t, pa, src, hgot, ht, hc, he⟩
  · exact ⟨by rw [he]; exact h.core, by rw [he]; exact h.requested, by rw [he]; exact h.pages, by rw [he]; exact h.byteAt⟩
  · exact ⟨by rw [he]; exact hcore, by rw [he]; exact h.requested.trans hreq, by rw [he]; exact hpages, by rw [he]; exact hbyte⟩
  · have hpost := State.portOnly_hostPost (g.m.request q.first mv.kind).1.st ds (g.m.request q.first mv.kind).1.host
    have hkeep := State.keepsCores_hostPost (g.m.request q.first mv.kind).1.st ds (g.m.request q.first mv.kind).1.host
    rw [← he] at hpost hkeep
    refine ⟨hc.trans hcore, (h.requested.trans hreq).trans (hkeep.requested c), (hpost.same State.pages).trans hpages, fun sp a hl => ?_⟩
    rw [← hbyte sp a hl, State.byteAt, hpost.same State.mem]
    rfl
  · have hkeep := State.storeLine_keeps (P := fun t => (g.m.request q.first mv.kind).1.st.keepsCores t ∧ t.pages = s.pages)
      ⟨State.keepsCores_refl _, hpages⟩ (sp := spaceOf t)
      (fun t a ds add ht => ⟨ht.1.trans (t.keepsCores_devWrite ..), (State.devWrite_pages ..).trans ht.2⟩) mv.add q.first pa src (mv.elements q src)
    obtain ⟨hcores, hpages'⟩ := hkeep
    have hcheck := MemRun.request_some hgot
    have hcheck' : s.pageCheck q.first mv.kind = .inr (t, pa) := by rw [← hcheck, State.pageCheck, State.page, State.pageCheck, State.page, h.pages]
    refine ⟨hc.trans hcore, ?_, ?_, fun sp a hl => ?_⟩ <;> rw [he]
    · exact (h.requested.trans hreq).trans (hcores.requested c)
    · exact hpages'
    · exact (State.storeLine_byteAt _ hmade hadd _ _ _ fun hsp x hx =>
        hl q hq x hx t _ (s.pageCheck_line hcheck' (hmade.line x hx)) ht hsp.symm).trans (hbyte sp a hl)

theorem State.moveRun_store (s : State) (c : Nat) (host : List HostReply) {o : Op} (hst : o.moveStatus = 0) (hdir : o.move.dir = 1) :
    s.storing c o.move.kind o.move.allReqs (s.moveRun c host o) := by
  rw [State.moveRun, if_pos hdir]
  refine List.foldlRecOn (motive := s.storing c o.move.kind o.move.allReqs) _ _ ⟨rfl, s.requested_refl c, rfl, fun _ _ _ => rfl⟩ (fun g hg q hq => ?_)
  obtain ⟨hmade, hsize⟩ := o.move.allReqs_wellMade q hq
  refine hg.moveOut hq hmade (fun hadd x hx => ?_)
  obtain ⟨hsub, hunit⟩ := Op.move_add hst hadd
  exact (hsize hsub x hx).trans hunit

/-! ### The start of a TENSOR_MOVE on what its requests left (R250, R260, R261) -/

/-- The runs of bytes that a TENSOR_MOVE writes to its core's store. -/
def Move.written (mv : Move) (k : Core) (g : MoveRun) : List (Nat × List PByte) :=
  if mv.dir = 1 then [] else if mv.tr then mv.transposed k else joinRuns g.packed.reverse

/-- The state but for the recorder and one core, whose counters have moved and to whose store runs were written. -/
structure State.wrote (s t : State) (c : Nat) (l : List (Nat × List PByte)) : Prop where
  rest : { t with cores := s.cores, trace := s.trace } = s
  others : ∀ d, d ≠ c → t.core d = s.core d
  core : ∃ n, t.core c = ((s.core c).counts n).writes l

theorem State.wrote.auFault {s t : State} {c : Nat} {l : List (Nat × List PByte)} (h : s.wrote t c l) (d blk dir st va : Nat) :
    s.wrote (t.auFault d blk dir st va) c l := by
  have honly := t.auFault_only d blk dir st va
  have hcore (i : Nat) : (t.auFault d blk dir st va).core i = t.core i := (congrArg (State.core · i) honly :)
  obtain ⟨hrest, hothers, n, hn⟩ := h
  exact ⟨(congrArg (fun q : State => { q with cores := s.cores, trace := s.trace }) honly).trans hrest, fun i hi => (hcore i).trans (hothers i hi),
    n, (hcore c).trans hn⟩

theorem MemRun.wrote_counted (m : MemRun) (c st : Nat) : m.st.wrote (m.counted c st) c [] := by
  refine ⟨rfl, fun d hd => State.core_updCore_ne _ _ _ _ hd, [(0x100, m.reqs), (0x110, m.misses), (0x128, if 0x67 ≤ st ∧ st ≤ 0x6F then 1 else 0)], ?_⟩
  rw [MemRun.counted, State.core_updCore_self]
  rfl

theorem State.wrote.writes {s t : State} {c : Nat} (h : s.wrote t c []) (l : List (Nat × List PByte)) : s.wrote (t.updCore c (·.writes l)) c l := by
  obtain ⟨hrest, hothers, n, hn⟩ := h
  exact ⟨hrest, fun d hd => (State.core_updCore_ne _ _ _ _ hd).trans (hothers d hd), n, (State.core_updCore_self ..).trans (congrArg (Core.writes · l) hn)⟩

/-- A TENSOR_MOVE, its requests made: the store written, the failure recorded, the operation started. -/
theorem State.moveGo_starts (s : State) (c : Nat) (host : List HostReply) (o : Op) (z : Nat) :
    let g := s.moveRun c host o
    ∃ (u : State) (n : List (Nat × Nat)) (e cy : Nat) (vals : List Nat), g.m.st.wrote u c (o.move.written (s.core c) g)
      ∧ (g.m.fault = none → g.m.lost = false → e = 0 ∨ e = 0x90)
      ∧ s.moveGo c host o z = (u.ownLines s.lnk.postLines.length s.chk.queue.length c o.id).updCore c
          (fun k => ((k.counts n).poisonCounts g.poison e).start .acc o s.cycles e cy vals g.m.waiting 0) := by
  intro g
  unfold State.moveGo
  extract_lets mv g0 g' out status b fast slow cyc s1 s2 s3 fa
  have hg : g = g' := rfl
  clear_value g
  subst hg
  clear_value g'
  have hs1 : g'.m.st.wrote s1 c [] := g'.m.wrote_counted c status
  have hout : o.move.written (s.core c) g' = if mv.dir = 1 then [] else out := rfl
  rw [hout]
  clear_value s1 out
  have hs2 : g'.m.st.wrote s2 c (if mv.dir = 1 then [] else out) := by
    simp only [s2]
    split
    · exact hs1
    · exact hs1.writes out
  clear_value s2
  have hs3 : g'.m.st.wrote s3 c (if mv.dir = 1 then [] else out) := by
    simp only [s3]
    split
    · split
      · exact hs2.auFault ..
      · exact hs2
    · exact hs2
  clear_value s3
  refine ⟨s3, _, status, _, _, hs3, fun hfault hlost => ?_, rfl⟩
  have hstatus : status = withPoison 0 g'.poison := by
    show (match g'.m.fault with | some (e, _) => e | none => if g'.m.lost then 0x91 else withPoison 0 g'.poison) = _
    rw [hfault, hlost]
    rfl
  rw [hstatus]
  exact withPoison_zero _

/-! ### What a TENSOR_MOVE leaves (R243 to R252) -/

/-- A TENSOR_MOVE of core `c` started on what its requests `g` left: its runs written to the store, and all else as the requests left it. -/
structure State.moved (s t : State) (c : Nat) (o : Op) (g : MoveRun) (e cy : Nat) : Prop where
  took : (s.core c).took (t.core c) .acc o e cy
  pot : (t.core c).pot = (s.core c).pot
  store : ∃ x : Core, x.store = (g.m.st.core c).store ∧ (t.core c).store = (x.writes (o.move.written (s.core c) g)).store
  others : ∀ d, d ≠ c → t.core d = g.m.st.core d
  mem : t.mem = g.m.st.mem
  rest : g.m.st.lnk = s.lnk → g.m.st.chk = s.chk → { t with cores := g.m.st.cores, trace := g.m.st.trace } = g.m.st
  status : g.m.fault = none → g.m.lost = false → e = 0 ∨ e = 0x90

theorem State.moveGo_moved {s : State} {c : Nat} {host : List HostReply} {o : Op} (z : Nat)
    (h : (s.core c).accessOnly ((s.moveRun c host o).m.st.core c)) : ∃ e cy, s.moved (s.moveGo c host o z) c o (s.moveRun c host o) e cy := by
  obtain ⟨u, n, e, cy, vals, ⟨hrest, hothers, n', hcore⟩, hstatus, hgo⟩ := s.moveGo_starts c host o z
  rw [hgo]
  generalize s.moveRun c host o = g at *
  have hpre : ((g.m.st.core c).counts n').accessOnly (u.core c) := by rw [hcore]; exact Core.accessOnly_writes ..
  have herrors := (u.core c).errorsOnly_counted n g.poison e
  have hkeep := ((h.trans (Core.accessOnly_counts _ n')).trans hpre).trans ((Core.accessOnly_counts _ n).trans (Core.accessOnly_poisonCounts _ g.poison e))
  obtain ⟨-, -, -, -, -, hstore, -, hpot, -⟩ := (((u.core c).counts n).poisonCounts g.poison e).start_spec .acc o s.cycles e cy vals g.m.waiting 0
  refine ⟨e, cy, ?_, ?_, ⟨(g.m.st.core c).counts n', (Core.errorsOnly_counts ..).store, ?_⟩, fun d hd => ?_, (congrArg State.mem hrest :), fun hlnk hchk => ?_, hstatus⟩
  · rw [State.core_updCore_self, State.core_ownLines]
    exact hkeep.took (Core.start_took ..)
  · rw [State.core_updCore_self, State.core_ownLines]
    exact hpot.trans (hkeep.same Core.pot)
  · rw [State.core_updCore_self, State.core_ownLines, ← hcore]
    exact hstore.trans herrors.store
  · rw [State.core_updCore_ne _ _ _ _ hd, State.core_ownLines]
    exact hothers d hd
  · have hl : u.lnk = g.m.st.lnk := (congrArg State.lnk hrest :)
    have hc : u.chk = g.m.st.chk := (congrArg State.chk hrest :)
    have howned := u.ownLines_none c o.id
    rw [hl, hc, hlnk, hchk] at howned
    rw [howned]
    exact hrest

/-- A byte of the store that no run of a TENSOR_MOVE covers stands. -/
theorem State.moved.byteAt {s t : State} {c : Nat} {o : Op} {g : MoveRun} {e cy : Nat} (h : s.moved t c o g e cy)
    (hstore : (g.m.st.core c).store = (s.core c).store) {a : Nat} (ha : ¬ runsCover (o.move.written (s.core c) g) a) :
    (t.core c).byteAt a = (s.core c).byteAt a := by
  obtain ⟨x, hx, hstart⟩ := h.store
  calc (t.core c).byteAt a = (x.writes _).byteAt a := Core.byteAt_of_store hstart a
    _ = x.byteAt a := x.writes_byteAt _ ha
    _ = (s.core c).byteAt a := Core.byteAt_of_store (hx.trans hstore) a

/-- A LOAD writes only where its requests put their bytes. -/
theorem Op.written_load {o : Op} (hst : o.moveStatus = 0) (hdir : o.move.dir = 0) (k : Core) {g : MoveRun} (hg : g.packs o.move.allReqs) {a : Nat}
    (h : runsCover (o.move.written k g) a) : ∃ q ∈ o.move.allReqs, q.packed ≤ a ∧ a < q.packed + q.bytes := by
  have htr : ¬ o.move.tr = true := fun htr => by have := (Op.move_tr hst htr).1; omega
  rw [Move.written, if_neg (by omega), if_neg htr] at h
  exact hg.covered h

/-- A LOCAL writes only between the packed side's first byte and its end. -/
theorem Op.written_local {o : Op} (hst : o.moveStatus = 0) (hdir : o.move.dir = 2) (k : Core) {g : MoveRun} (hg : g.packs o.move.allReqs) {a : Nat}
    (h : runsCover (o.move.written k g) a) : 64 * o.move.cs ≤ a ∧ a < o.move.packedEnd := by
  rw [Move.written, if_neg (by omega)] at h
  cases htr : o.move.tr with
  | true =>
    rw [if_pos htr] at h
    exact Move.transposed_packed htr (Op.move_tr hst htr).2 k h
  | false =>
    rw [if_neg (by simp [htr])] at h
    obtain ⟨q, hq, hlo, hhi⟩ := hg.covered h
    obtain ⟨hfirst, hend⟩ := Move.allReqs_packed htr q hq
    omega

end Sys2Proof.Machine

open Sys2Proof Sys2Proof.Machine

/-- Settles O30, by what the requests of each direction leave: a LOAD's read alone, a LOCAL makes none, and a STORE's write only where an
element's address is translated. -/
theorem tensorMoves : Obligations.TensorMoves := by
  refine ⟨fun s c z host o hhead hst => ⟨fun hdir => ?_, fun hdir => ?_⟩, fun s c z host o hhead hst hdir => ?_⟩
  · have hload := s.moveRun_load c.val host hdir
    obtain ⟨e, cy, hmoved⟩ := State.moveGo_moved z hload.requested.core
    have hlnk := hload.port.same State.lnk
    have hchk := hload.port.same State.chk
    have hrest := hmoved.rest hlnk hchk
    refine ⟨_, e, cy, s.moveCmd_goes host z hhead hdir hst, hmoved.took, hmoved.mem.trans (hload.port.same State.mem),
      fun d hd => (hmoved.others d hd).trans (hload.requested.others d hd), hmoved.pot, (congrArg State.lnk hrest :).trans hlnk,
      (congrArg State.chk hrest :).trans hchk, fun a ha => hmoved.byteAt hload.requested.store fun hin => ?_⟩
    obtain ⟨q, hq, hlo, hhi⟩ := Op.written_load hst hdir (s.core c.val) hload.packs hin
    have hout := ha q hq
    omega
  · have hlocal := s.moveRun_local c.val [] hdir
    obtain ⟨e, cy, hmoved⟩ := State.moveGo_moved (host := []) z (by rw [hlocal.st]; rfl)
    have hrest := hmoved.rest (by rw [hlocal.st]) (by rw [hlocal.st])
    have hothers := hmoved.others
    rw [hlocal.st] at hrest hothers
    refine ⟨_, e, cy, s.moveCmd_goes [] z hhead hdir hst, State.coreAndClock_of_core hrest hothers, hmoved.took, hmoved.status hlocal.fault hlocal.lost,
      hmoved.pot, (congrArg State.outbox hrest :), fun a ha => hmoved.byteAt (by rw [hlocal.st]) fun hin => ?_⟩
    have hin' := Op.written_local hst hdir (s.core c.val) hlocal.packs hin
    omega
  · have hstore := s.moveRun_store c.val host hst hdir
    obtain ⟨e, cy, hmoved⟩ := State.moveGo_moved z hstore.requested.core
    obtain ⟨x, hx, hwritten⟩ := hmoved.store
    rw [Move.written, if_pos hdir] at hwritten
    refine ⟨_, e, cy, s.moveCmd_goes host z hhead hdir hst, hmoved.took, (hwritten.trans hx).trans hstore.requested.store, hmoved.pot,
      fun d hd => (hmoved.others d hd).trans (hstore.requested.others d hd), fun sp a ha => ?_⟩
    exact (congrArg (fun m : DevMem => mget 0 (m.bytes sp) a) hmoved.mem).trans (hstore.byteAt sp a ha)
end

-- ==== Sys2Proof/Proofs/SeqTurn.lean ====

section
namespace Sys2Proof.Machine

/-! ### What the arrays leave of a core (R265) -/

theorem Core.arrayOnly.stream {k k' : Core} (h : k.arrayOnly k') (f : StreamId) : k'.stream f = k.stream f := by
  unfold Core.arrayOnly at h
  have hs := congrArg (fun q : Core => q.stream f) h
  cases f <;> exact hs

theorem Core.arrayOnly.queue {k k' : Core} (h : k.arrayOnly k') (e : Eng) : k'.queue e = k.queue e := by
  unfold Core.arrayOnly at h
  have hq := congrArg (fun q : Core => q.queue e) h
  cases e <;> exact hq

theorem Core.arrayOnly.program {k k' : Core} (h : k.arrayOnly k') : k'.program = k.program := by
  unfold Core.arrayOnly at h
  have hp := congrArg Core.program h
  exact hp

theorem Core.arrayOnly.power {k k' : Core} (h : k.arrayOnly k') : k'.power = k.power := by
  unfold Core.arrayOnly at h
  have hp := congrArg Core.power h
  exact hp

/-- What a stream finds at its PC is no matter of the arrays. -/
theorem Core.arrayOnly.fetch {k k' : Core} (h : k.arrayOnly k') (f : StreamId) : k'.fetch f = k.fetch f := by
  rw [Core.fetch, Core.fetch, h.stream f, h.program, h.power]

/-! ### The cycle of a stream's next instruction (R263, R283) -/

theorem State.fetched_onlyClock (s : State) (c : Nat) (f : StreamId) :
    { s.fetched c f with time := s.time, clk := s.clk, power := s.power, cores := s.cores } = s :=
  (s.toCycle_only ((s.core c).stream f).next).1

theorem State.fetched_arrayOnly (s : State) (c : Nat) (f : StreamId) : (s.core c).arrayOnly ((s.fetched c f).core c) := by
  rw [State.fetched, State.core_updCore_self]
  exact Core.arrayOnly_count (s.toCycle_core _ c) ..

theorem State.fetched_stream (s : State) (c : Nat) (f g : StreamId) : ((s.fetched c f).core c).stream g = (s.core c).stream g :=
  (s.fetched_arrayOnly c f).stream g

theorem State.fetched_others {s : State} {c d : Nat} (f : StreamId) (h : d ≠ c) :
    (s.fetched c f).core d = (s.toTime (s.fetched c f).time.now).core d := by
  rw [State.fetched, State.core_updCore_ne _ _ _ _ h]
  exact congrArg (fun m => mget ({} : Core) m d) (s.toCycle_only ((s.core c).stream f).next).2

/-- An instruction whose cycle has come executes at the present time. -/
theorem State.fetched_now {s : State} {c : Nat} {f : StreamId} (h : ((s.core c).stream f).next ≤ s.cycles) :
    (s.fetched c f).time = s.time ∧ (s.fetched c f).clk = s.clk := by
  rw [State.fetched, State.seqAt, s.toCycle_past _ h]
  exact ⟨rfl, rfl⟩

/-- A stream that may run has reached its instruction's cycle. -/
theorem State.mayRun.next_le {s : State} {c : Nat} {f : StreamId} (h : s.mayRun c f) : ((s.core c).stream f).next ≤ (s.fetched c f).cycles := by
  show _ ≤ (s.toCycle _).cycles
  rcases h with h | h
  · rwa [s.toCycle_past _ h]
  · exact s.le_toCycle_cycles _ h

theorem State.mayRun.seqDue {s : State} {c : Nat} {f : StreamId} (h : s.mayRun c f) : (s.seqAt c f).seqDue c f = true := by
  rw [State.seqDue, State.seqAt, (s.toCycle_core _ c).stream f]
  exact decide_eq_true h.next_le

/-! ### A stream's turn (R263, R270) -/

section
variable {s : State} {c : Nat} {f : StreamId} (run : State → Fetch → State)

theorem State.seqTurn_stands (h : ¬ s.mayRun c f) : s.seqTurn c f run = s := by
  obtain ⟨hfar, hstop⟩ := not_or.mp h
  have hsame : s.seqAt c f = s := if_pos (.inr (by simpa using hstop))
  rw [State.seqTurn, hsame, State.seqDue, decide_eq_false hfar]
  rfl

theorem State.seqTurn_none (hf : (s.core c).fetch f = .none) : s.seqTurn c f run = s := by
  simp [State.seqTurn, hf]

theorem State.seqTurn_fail {st opc : Nat} (hm : s.mayRun c f) (hf : (s.core c).fetch f = .fail st opc) :
    s.seqTurn c f run = (s.fetched c f).seqStop c f st opc := by
  rw [State.seqTurn, hm.seqDue, hf]
  rfl

theorem State.seqTurn_ctl {i : Ctl} (hm : s.mayRun c f) (hf : (s.core c).fetch f = .ctl i) : s.seqTurn c f run = run (s.fetched c f) (.ctl i) := by
  rw [State.seqTurn, hm.seqDue, hf]
  rfl

theorem State.seqTurn_eng {opc : Nat} (hm : s.mayRun c f) (hf : (s.core c).fetch f = .eng opc) : s.seqTurn c f run = run (s.fetched c f) (.eng opc) := by
  rw [State.seqTurn, hm.seqDue, hf]
  rfl

end

/-- A stream's instruction command that names the instruction which its fetch gives. -/
theorem State.seqCmd_ctl {s : State} {c op : Nat} {f : StreamId} {i : Ctl} {x : Stream} (hm : s.mayRun c f) (hf : (s.core c).fetch f = .ctl i)
    (hx : ((s.fetched c f).core c).stream f = x) (hop : i.op = op) (run : State → Ctl → Stream → State) :
    s.seqCmd c f op run = .next (run (s.fetched c f) i x) := by
  rw [State.seqCmd, State.seqTurn_ctl _ hm hf, ← hx]
  exact congrArg _ (if_pos hop)

/-- An instruction that goes on to a PC leaves its stream as `State.streamIs` says. -/
theorem State.seqNext_fetched {s : State} {c : Nat} {f : StreamId} {x : Stream} (hx : ((s.fetched c f).core c).stream f = x) (pc : Nat) (g : Stream → Stream)
    (hg : (g x).waiting = x.waiting) : (s.fetched c f).seqNext c f pc g = s.streamIs c f { g x with pc := pc % 8192 } := by
  have hwait : ∀ t, (g x).waited t = x.waited t := fun t => by rw [Stream.waited, hg]; rfl
  rw [State.seqNext, State.seqDone, State.streamIs, State.updCore, hx]
  exact congrArg (fun n => (s.fetched c f).setCore c (Core.counts _ [(0x130, 1), (0x148, n)])) (hwait _).symm

/-- A stream whose 13-bit PC has moved on by one. -/
def Stream.stepped (x : Stream) : Stream := { x with pc := (x.pc + 1) % 8192 }

/-- An instruction that writes nothing but the PC. -/
theorem State.seqNext_stepped {s : State} {c : Nat} {f : StreamId} {x : Stream} (hx : ((s.fetched c f).core c).stream f = x) :
    (s.fetched c f).seqNext c f (x.pc + 1) id = s.streamIs c f x.stepped := State.seqNext_fetched hx _ _ rfl

/-- A stream's instruction that goes on to a PC, having written its own stream alone. -/
theorem State.seqCmd_streamIs {s : State} {c op pc : Nat} {f : StreamId} {i : Ctl} {x z : Stream} {run : State → Ctl → Stream → State} {g : Stream → Stream}
    (hm : s.mayRun c f) (hf : (s.core c).fetch f = .ctl i) (hx : ((s.fetched c f).core c).stream f = x) (hop : i.op = op)
    (hrun : run (s.fetched c f) i x = (s.fetched c f).seqNext c f pc g) (hg : (g x).waiting = x.waiting)
    (hz : { g x with pc := pc % 8192 } = z) : s.seqCmd c f op run = .next (s.streamIs c f z) := by
  rw [State.seqCmd_ctl hm hf hx hop, hrun, State.seqNext_fetched hx pc g hg, hz]

/-! ### Fields of a control word (R266) -/

theorem bits_eq_div (x lo w : Nat) : bits x lo w = x / 2 ^ lo % 2 ^ w := by
  rw [bits, Nat.shiftRight_eq_div_pow]

theorem bits_low (x w : Nat) : bits x 0 w = x % 2 ^ w := rfl

/-- A control instruction that a stream finds is a word of its program split. -/
theorem Core.fetch_ctl {k : Core} {f : StreamId} {i : Ctl} (h : k.fetch f = .ctl i) : ∃ w, i = ctlOf w := by
  unfold Core.fetch at h
  simp only [] at h
  split at h
  · simp at h
  · rename_i p hp
    split_ifs at h
    exact ⟨_, (Fetch.ctl.inj h).symm⟩

theorem Core.fetch_ctl_imm_lt {k : Core} {f : StreamId} {i : Ctl} (h : k.fetch f = .ctl i) : i.imm < 2 ^ 32 := by
  obtain ⟨w, rfl⟩ := Core.fetch_ctl h
  exact Nat.mod_lt _ (by decide)

end Sys2Proof.Machine
end

-- ==== Sys2Proof/Proofs/SeqRegisters.lean ====

section
namespace Sys2Proof.Machine

/-! ### Values of the instructions on scalar registers (R267) -/

/-- IMM as a 64-bit value is its 32 bits sign-extended. -/
theorem Ctl.value_eq_signExtend {i : Ctl} (h : i.imm < 2 ^ 32) : i.value = BitVec.signExtend 64 (BitVec.ofNat 32 i.imm) := by
  have htoInt : (BitVec.ofNat 32 i.imm).toInt = sgn i.imm 32 := by
    rw [BitVec.toInt_ofNat', sgn]
    split_ifs <;> simp only [Int.bmod] <;> omega
  rw [Ctl.value, ← htoInt]
  rfl

/-- What GETFMT returns: SCALE_EXP above CURRENT's byte. -/
theorem getfmt_value (cur : Nat) (e : Int) :
    BitVec.ofNat 64 (at' cur 0 2 + at' (unsgn e 56) 8 56) = BitVec.ofInt 56 e ++ BitVec.ofNat 8 (cur % 4) := by
  apply BitVec.eq_of_toNat_eq
  rw [BitVec.toNat_append, ← Nat.shiftLeft_add_eq_or_of_lt (BitVec.isLt _), Nat.shiftLeft_eq]
  simp only [at', unsgn, BitVec.toNat_ofNat, BitVec.toNat_ofInt]
  omega

theorem aluOp_sub (a b : W64) : aluOp 1 a b = BitVec.ofInt 64 (a.toInt - b.toInt) :=
  BitVec.eq_of_toInt_eq (by simp [aluOp, BitVec.toInt_sub])

theorem aluOp_shiftLeft (a b : W64) : (aluOp 5 a b).toNat = a.toNat * 2 ^ b.toNat % 2 ^ 64 := by
  simp only [aluOp]
  split
  case isTrue h =>
    obtain ⟨n, hn⟩ := Nat.exists_eq_add_of_le h
    have hzero : a.toNat * 2 ^ b.toNat = 2 ^ 64 * (a.toNat * 2 ^ n) := by rw [hn, pow_add]; ring
    simp [hzero]
  case isFalse => simp [BitVec.toNat_shiftLeft, Nat.shiftLeft_eq]

theorem aluOp_shiftRight (a b : W64) : (aluOp 6 a b).toNat = a.toNat / 2 ^ b.toNat := by
  simp only [aluOp]
  split
  case isTrue h =>
    have hlt : a.toNat < 2 ^ b.toNat := a.isLt.trans_le (Nat.pow_le_pow_right (by decide) h)
    simp [Nat.div_eq_of_lt hlt]
  case isFalse => simp [Nat.shiftRight_eq_div_pow]

theorem aluOp_min (a b : W64) : (aluOp 7 a b).toInt = min a.toInt b.toInt := by
  simp only [aluOp]
  split <;> omega

theorem aluOp_max (a b : W64) : (aluOp 8 a b).toInt = max a.toInt b.toInt := by
  simp only [aluOp]
  split <;> omega

/-! ### Branches (R267, R270) -/

/-- The condition of BR that a code below 7 names (R266). -/
def Ctl.holds (i : Ctl) (a b : W64) : Prop :=
  i.cond = 0 ∨ (i.cond = 1 ∧ a = b) ∨ (i.cond = 2 ∧ a ≠ b) ∨ (i.cond = 3 ∧ a.toInt < b.toInt)
    ∨ (i.cond = 4 ∧ b.toInt ≤ a.toInt) ∨ (i.cond = 5 ∧ a.toNat < b.toNat) ∨ (i.cond = 6 ∧ b.toNat ≤ a.toNat)

theorem Ctl.brTaken_iff {i : Ctl} (h : i.cond ≤ 6) (a b : W64) : brTaken i.cond a b = true ↔ i.holds a b := by
  rw [Ctl.holds]
  generalize i.cond = n at h ⊢
  interval_cases n <;> simp [brTaken]

theorem Ctl.brTaken_of_holds {i : Ctl} {a b : W64} (h : i.holds a b) : brTaken i.cond a b = true := by
  refine (Ctl.brTaken_iff ?_ a b).mpr h
  unfold Ctl.holds at h
  omega

section
variable {s : State} {c : Nat} {f : StreamId} {i : Ctl} {p : Program} (g : Stream → Stream)

theorem State.branch_within (hp : (s.core c).program = some p) (h : i.imm % 8192 < p.len) : s.branch c f i g = s.seqNext c f (i.imm % 8192) g := by
  simp only [State.branch, hp]
  exact if_neg (Nat.not_le.mpr h)

theorem State.branch_beyond (hp : (s.core c).program = some p) (h : p.len ≤ i.imm % 8192) : s.branch c f i g = s.seqStop c f 0x71 i.op := by
  simp only [State.branch, hp]
  exact if_pos h

end

/-! ### Instructions that only write their own stream (R267) -/

section
variable {s : State} {c : CoreIx} {f : StreamId} {i : Ctl} {x : Stream} (hm : s.mayRun c.val f) (hf : (s.core c.val).fetch f = .ctl i)
  (hx : ((s.fetched c.val f).core c.val).stream f = x)
include hm hf hx

theorem exec_nop (hop : i.op = 0x80) : exec (.nop c f) s = .next (s.streamIs c.val f x.stepped) := by
  show execNop c f s = _
  exact State.seqCmd_streamIs hm hf hx hop rfl rfl rfl

theorem exec_movi (hop : i.op = 0x81) :
    exec (.movi c f) s = .next (s.streamIs c.val f { x.stepped with regs := mset 0 x.regs i.sd (BitVec.signExtend 64 (BitVec.ofNat 32 i.imm)) }) := by
  rw [← Ctl.value_eq_signExtend (Core.fetch_ctl_imm_lt hf)]
  show execMovi c f s = _
  exact State.seqCmd_streamIs hm hf hx hop rfl rfl rfl

theorem exec_alu (hop : i.op = 0x82) :
    exec (.alu c f) s = .next (s.streamIs c.val f { x.stepped with regs := mset 0 x.regs i.sd (aluOp i.aux (mget 0 x.regs i.sa) (mget 0 x.regs i.sb)) }) := by
  show execAlu c f s = _
  exact State.seqCmd_streamIs hm hf hx hop rfl rfl rfl

theorem exec_alui (hop : i.op = 0x83) :
    exec (.alui c f) s = .next (s.streamIs c.val f
      { x.stepped with regs := mset 0 x.regs i.sd (aluOp i.aux (mget 0 x.regs i.sa) (BitVec.signExtend 64 (BitVec.ofNat 32 i.imm))) }) := by
  rw [← Ctl.value_eq_signExtend (Core.fetch_ctl_imm_lt hf)]
  show execAlui c f s = _
  exact State.seqCmd_streamIs hm hf hx hop rfl rfl rfl

theorem exec_setlc (hop : i.op = 0x85) :
    exec (.setlc c f) s = .next (s.streamIs c.val f { x.stepped with lcs := mset 0 x.lcs i.aux (BitVec.ofNat 32 i.imm) }) := by
  show execSetlc c f s = _
  exact State.seqCmd_streamIs hm hf hx hop rfl rfl rfl

/-- GETFMT reads the Format Table, which the clocks leave alone. -/
theorem exec_getfmt (hop : i.op = 0x88) :
    let e := mget ({} : FmtEntry) s.fmt (i.imm % 16384)
    exec (.getfmt c f) s = .next (s.streamIs c.val f
      { x.stepped with regs := mset 0 x.regs i.sd (BitVec.ofInt 56 e.scaleExp ++ BitVec.ofNat 8 (e.current % 4)) }) := by
  have hfmt : (s.fetched c.val f).fmt = s.fmt := (congrArg State.fmt (s.fetched_onlyClock c.val f) :)
  simp only [← getfmt_value, ← hfmt]
  show execGetfmt c f s = _
  exact State.seqCmd_streamIs hm hf hx hop rfl rfl rfl

/-- GETTIME reads the time base of its cycle, or the leg's number, which the clocks leave alone. -/
theorem exec_gettime (hop : i.op = 0x89) :
    exec (.gettime c f) s = .next (s.streamIs c.val f
      { x.stepped with regs := mset 0 x.regs i.sd (BitVec.ofNat 64 (if i.aux = 0 then (s.fetched c.val f).time.now else s.legNow)) }) := by
  have hleg : (s.fetched c.val f).legNow = s.legNow := (congrArg State.legNow (s.fetched_onlyClock c.val f) :)
  rw [← hleg]
  show execGettime c f s = _
  exact State.seqCmd_streamIs hm hf hx hop rfl rfl rfl

theorem exec_setseed (hop : i.op = 0x8A) :
    exec (.setseed c f) s = .next (s.streamIs c.val f { x.stepped with seedLeg := (mget 0 x.regs i.sa).toNat % 2 ^ 48 }) := by
  show execSetseed c f s = _
  exact State.seqCmd_streamIs hm hf hx hop rfl rfl rfl

theorem exec_onstatus (hop : i.op = 0x94) : exec (.onstatus c f) s = .next (s.streamIs c.val f { x.stepped with cont := i.aux == 1 }) := by
  show execOnstatus c f s = _
  exact State.seqCmd_streamIs hm hf hx hop rfl rfl rfl

theorem exec_legEnd (hop : i.op = 0x95) : exec (.legEnd c f) s = .next (s.streamIs c.val f { x.stepped with phase := .ended }) := by
  show execLegEnd c f s = _
  exact State.seqCmd_streamIs hm hf hx hop rfl rfl rfl

/-! ### BR and LOOP -/

theorem exec_br (hop : i.op = 0x84) :
    exec (.br c f) s = .next (if brTaken i.cond (mget 0 x.regs i.sa) (mget 0 x.regs i.sb) then (s.fetched c.val f).branch c.val f i id
      else (s.fetched c.val f).seqNext c.val f (x.pc + 1) id) := by
  show execBr c f s = _
  exact State.seqCmd_ctl hm hf hx hop _

theorem exec_loop (hop : i.op = 0x86) {v : W32} (hv : mget 0 x.lcs i.aux - 1 = v) :
    exec (.loop c f) s = .next (if v ≠ 0 then (s.fetched c.val f).branch c.val f i (fun y => { y with lcs := mset 0 y.lcs i.aux v })
      else (s.fetched c.val f).seqNext c.val f (x.pc + 1) (fun y => { y with lcs := mset 0 y.lcs i.aux v })) := by
  subst hv
  show execLoop c f s = _
  exact State.seqCmd_ctl hm hf hx hop _

end

end Sys2Proof.Machine

open Sys2Proof Sys2Proof.Machine

/-- Settles O8: each instruction on registers alone goes on to the next PC having written its own stream; a branch goes where its target lies within
the program, and stops its stream where it does not. -/
theorem seqRegistersAndBranches : Obligations.SeqRegistersAndBranches := by
  refine ⟨⟨fun s c f i hf hm => ?_, fun a b => ?_⟩, fun s c f i p hf hm hp => ?_⟩
  · have hx := s.fetched_stream c.val f f
    exact ⟨exec_nop hm hf hx, exec_movi hm hf hx, exec_alu hm hf hx, exec_alui hm hf hx, exec_setlc hm hf hx, exec_getfmt hm hf hx, exec_gettime hm hf hx,
      exec_setseed hm hf hx, exec_onstatus hm hf hx, exec_legEnd hm hf hx, hm.next_le, State.fetched_now, fun d => State.fetched_others f⟩
  · exact ⟨BitVec.eq_of_toNat_eq (by simp [aluOp]), aluOp_sub a b, fun j _ => by simp [aluOp], fun j _ => by simp [aluOp], fun j _ => by simp [aluOp],
      aluOp_shiftLeft a b, aluOp_shiftRight a b, aluOp_min a b, aluOp_max a b⟩
  · intro x u a b v holds
    have hx : (u.core c.val).stream f = x := s.fetched_stream c.val f f
    have hpu : (u.core c.val).program = some p := (s.fetched_arrayOnly c.val f).program.trans hp
    refine ⟨fun hop hcond hno => ?_, fun hop hyes hin => ?_, fun hop hyes hout => ?_, fun hop hv => ?_, fun hop hv hin => ?_, fun hop hv hout => ?_⟩
    · rw [exec_br hm hf hx hop, if_neg (mt (Ctl.brTaken_iff hcond a b).mp hno)]
      exact congrArg _ (State.seqNext_fetched hx _ _ rfl)
    · rw [exec_br hm hf hx hop, if_pos (Ctl.brTaken_of_holds hyes), State.branch_within _ hpu hin, State.seqNext_fetched hx _ _ rfl, Nat.mod_mod]
      rfl
    · rw [exec_br hm hf hx hop, if_pos (Ctl.brTaken_of_holds hyes), State.branch_beyond _ hpu hout, hop]
    · rw [exec_loop hm hf hx hop hv, if_neg (not_not.mpr rfl)]
      exact congrArg _ (State.seqNext_fetched hx _ _ rfl)
    · rw [exec_loop hm hf hx hop rfl, if_pos hv, State.branch_within _ hpu hin, State.seqNext_fetched hx _ _ rfl, Nat.mod_mod]
    · rw [exec_loop hm hf hx hop rfl, if_pos hv, State.branch_beyond _ hpu hout, hop]
end

-- ==== Sys2Proof/Proofs/SeqCounters.lean ====

section
namespace Sys2Proof.Machine

/-! ### A core whose streams alone have gone on -/

/-- The core but for its streams and its performance counters. -/
def Core.streamsOnly (k k' : Core) : Prop := { k' with fwd := k.fwd, bwd := k.bwd, upd := k.upd, counters := k.counters } = k

theorem Core.streamsOnly_setStream (k : Core) (f : StreamId) (x : Stream) (l : List (Nat × Nat)) : k.streamsOnly ((k.setStream f x).counts l) :=
  List.foldlRecOn (motive := k.streamsOnly) l _ (by cases f <;> rfl) (fun _ hy _ _ => hy)

theorem State.streamIs_streamsOnly (s : State) (c : Nat) (f : StreamId) (x : Stream) :
    ((s.fetched c f).core c).streamsOnly ((s.streamIs c f x).core c) := by
  rw [State.streamIs, State.core_updCore_self]
  exact Core.streamsOnly_setStream ..

/-! ### Counters and semaphores within a cycle (R263, R272, R273) -/

/-- What the instructions of a cycle read of a counter stands until its end. -/
theorem Core.ctrAt_addCtr (k : Core) (i n t j : Nat) : (k.addCtr i n t).ctrAt j t = k.ctrAt j t := by
  by_cases h : j = i
  · subst h
    rw [Core.ctrAt]
    simp [Core.addCtr]
  · simp [Core.ctrAt, Core.addCtr, mget_mset_ne _ _ _ _ _ h]

theorem Core.semAt_cyc (k : Core) (i t : Nat) : (k.semAt i t).cyc = t + 1 := by
  simp only [Core.semAt]
  split
  case isTrue h => exact h
  case isFalse => rfl

/-- What the waits of a cycle see of a semaphore stands when it is signalled. -/
theorem Core.semAt_signal (k : Core) (i t j : Nat) : (k.signal i t).semAt j t = k.semAt j t := by
  by_cases h : j = i
  · subst h
    rw [Core.semAt]
    simp [Core.signal, Core.semAt_cyc]
  · simp [Core.semAt, Core.signal, mget_mset_ne _ _ _ _ _ h]

/-- A grant of a cycle leaves one less for the cycle's other waits. -/
theorem Core.semAt_takeSem_avail (k : Core) (i t r : Nat) : ((k.takeSem i t r).semAt i t).avail = (k.semAt i t).avail - 1 := by
  rw [Core.semAt]
  simp [Core.takeSem, Core.semAt_cyc]

theorem Core.semAt_outside {k : Core} {i t : Nat} (h : (mget {} k.semPast i).cyc ≠ t + 1) :
    k.semAt i t = { cyc := t + 1, avail := (mget 0 k.sems i).toNat, ptr := mget 0 k.arb (semArb i), last := 0 } := if_neg h

/-- A stream that alone waits for a semaphore has none ahead of it. -/
theorem Core.semAhead_alone {k : Core} {i t : Nat} {f : StreamId} (h : ∀ g, g ≠ f → k.wantsSem i t g = false) : k.semAhead i t f = 0 := by
  rw [Core.semAhead, List.length_eq_zero_iff, List.filter_eq_nil_iff]
  intro g _
  by_cases hg : g = f <;> simp [hg, h]

/-! ### The instructions -/

section
variable {s : State} {c : CoreIx} {f : StreamId} {i : Ctl} {x : Stream} (hm : s.mayRun c.val f) (hf : (s.core c.val).fetch f = .ctl i)
  (hx : ((s.fetched c.val f).core c.val).stream f = x)
include hm hf hx

theorem exec_cadd (hop : i.op = 0x8D) :
    exec (.cadd c f) s = .next ((s.streamIs c.val f x.stepped).updCore c.val (fun k => k.addCtr i.aux i.imm (s.fetched c.val f).cycles)) := by
  rw [← State.seqNext_stepped hx]
  show execCadd c f s = _
  exact State.seqCmd_ctl hm hf hx hop _

theorem exec_waitge (hop : i.op = 0x8E) :
    exec (.waitge c f) s = .next (if i.imm ≤ (((s.fetched c.val f).core c.val).ctrAt i.aux (s.fetched c.val f).cycles).toNat then s.streamIs c.val f x.stepped
      else s.waits c.val f 0x148) := by
  rw [← State.seqNext_stepped hx]
  show execWaitge c f s = _
  exact State.seqCmd_ctl hm hf hx hop _

theorem exec_semsig (hop : i.op = 0x8F) :
    exec (.semsig c f) s = .next (if mget 0 ((s.fetched c.val f).core c.val).sems i.aux = 0xFFFF then (s.fetched c.val f).seqStop c.val f 0x72 i.op
      else (s.streamIs c.val f x.stepped).updCore c.val (fun k => k.signal i.aux (s.fetched c.val f).cycles)) := by
  rw [← State.seqNext_stepped hx]
  show execSemsig c f s = _
  exact State.seqCmd_ctl hm hf hx hop _

theorem exec_semwait (hop : i.op = 0x90) :
    let u := s.fetched c.val f
    let p := (u.core c.val).semAt i.aux u.cycles
    exec (.semwait c f) s = .next (if p.avail ≤ (u.core c.val).semAhead i.aux u.cycles f then s.waits c.val f 0x148
      else (s.streamIs c.val f x.stepped).updCore c.val (fun k => k.takeSem i.aux u.cycles (rankOf p.ptr f))) := by
  rw [← State.seqNext_stepped hx]
  show execSemwait c f s = _
  exact State.seqCmd_ctl hm hf hx hop _

theorem exec_fence (hop : i.op = 0x92) :
    let u := s.fetched c.val f
    exec (.fence c f) s = .next (if (u.core c.val).inCycle (anyEnd f) u.cycles || [Eng.array, .merge, .vec, .row, .acc].any ((u.core c.val).streamBusy f)
      then s.waits c.val f 0x148 else s.streamIs c.val f x.stepped) := by
  rw [← State.seqNext_stepped hx]
  show execFence c f s = _
  exact State.seqCmd_ctl hm hf hx hop _

end

theorem any_engines (p : Eng → Bool) : [Eng.array, .merge, .vec, .row, .acc].any p = true ↔ ∃ e, p e = true := by
  constructor
  · intro h
    obtain ⟨e, -, he⟩ := List.any_eq_true.mp h
    exact ⟨e, he⟩
  · rintro ⟨e, he⟩
    exact List.any_eq_true.mpr ⟨e, by cases e <;> simp, he⟩

end Sys2Proof.Machine

open Sys2Proof Sys2Proof.Machine

/-- Settles O9: a counter or a semaphore changes beside a stream that goes on, and what the cycle's other instructions read of it stands; a wait goes on or
is tried again as its condition says. -/
theorem seqCountersSemaphores : Obligations.SeqCountersSemaphores := by
  refine ⟨fun s c f i hf hm => ?_, fun k i t => ⟨fun h => if_neg h, fun h => ?_⟩, fun k i t f => Core.semAhead_alone⟩
  · intro u k x done waits sem p
    have hx : (u.core c.val).stream f = x := rfl
    have honly := s.streamIs_streamsOnly c.val f x.stepped
    have hctrs : (done.core c.val).ctrs = k.ctrs := (congrArg Core.ctrs honly :)
    have hsems : (done.core c.val).sems = k.sems := (congrArg Core.sems honly :)
    have hctrAt : ∀ j, (done.core c.val).ctrAt j u.cycles = k.ctrAt j u.cycles := fun j => (congrArg (fun q : Core => q.ctrAt j u.cycles) honly :)
    have hsemAt : ∀ j, (done.core c.val).semAt j u.cycles = k.semAt j u.cycles := fun j => (congrArg (fun q : Core => q.semAt j u.cycles) honly :)
    refine ⟨fun hop => ?_, fun hop hge => ?_, fun hop hlt => ?_, fun hop hsem => ?_, fun hop hfull => ?_, fun hop hahead => ?_, fun hop hnone => ?_,
      fun hop hend hfree => ?_, fun hop hbusy => ?_⟩
    · refine ⟨_, exec_cadd hm hf hx hop, State.onlyCore_setCore .., ?_, ?_, fun j => ?_⟩ <;> rw [State.core_updCore_self]
      · rfl
      · exact congrArg (fun m => mset 0 m i.aux (mget 0 m i.aux + BitVec.ofNat 32 i.imm)) hctrs
      · exact (Core.ctrAt_addCtr ..).trans (hctrAt j)
    · rw [exec_waitge hm hf hx hop, if_pos hge]
      rfl
    · rw [exec_waitge hm hf hx hop, if_neg (Nat.not_le.mpr hlt)]
    · refine ⟨_, (exec_semsig hm hf hx hop).trans (congrArg _ (if_neg hsem)), State.onlyCore_setCore .., ?_, ?_, fun j => ?_⟩ <;> rw [State.core_updCore_self]
      · rfl
      · exact congrArg (fun m => mset 0 m i.aux (mget 0 m i.aux + 1)) hsems
      · exact (Core.semAt_signal ..).trans (hsemAt j)
    · rw [exec_semsig hm hf hx hop, if_pos hfull, hop]
    · refine ⟨_, (exec_semwait hm hf hx hop).trans (congrArg _ (if_neg (Nat.not_le.mpr hahead))), State.onlyCore_setCore .., ?_, ?_, ?_⟩ <;>
        rw [State.core_updCore_self]
      · rfl
      · exact congrArg (fun m => mset 0 m i.aux (mget 0 m i.aux - 1)) hsems
      · exact (Core.semAt_takeSem_avail ..).trans (congrArg (·.avail - 1) (hsemAt i.aux))
    · exact (exec_semwait hm hf hx hop).trans (congrArg _ (if_pos hnone))
    · refine (exec_fence hm hf hx hop).trans (congrArg _ (if_neg ?_))
      rw [Bool.or_eq_true, any_engines]
      rintro (h | ⟨e, he⟩)
      · exact absurd (h.symm.trans hend) (by decide)
      · exact absurd (he.symm.trans (hfree e)) (by decide)
    · refine (exec_fence hm hf hx hop).trans (congrArg _ (if_pos ?_))
      rwa [Bool.or_eq_true, any_engines]
  · rw [Core.semAt_outside h]
    exact ⟨rfl, rfl⟩
end

-- ==== Sys2Proof/Proofs/SeqSummaries.lean ====

section
namespace Sys2Proof.Machine

/-! ### What an instruction leaves of its core -/

theorem State.streamIs_stream (s : State) (c : Nat) (f : StreamId) (x : Stream) :
    ((s.streamIs c f x).core c).stream f = { x with next := (s.fetched c f).cycles + 1, waiting := none } := by
  simp [State.streamIs, Core.counts]

theorem State.onlyCore_updCore_streamIs (s : State) (c : Nat) (f : StreamId) (x : Stream) (g : Core → Core) :
    (s.fetched c f).onlyCore ((s.streamIs c f x).updCore c g) c :=
  State.onlyCore.trans (State.onlyCore_setCore ..) (State.onlyCore_setCore ..)

theorem State.fetched_group (s : State) (c : Nat) (f : StreamId) (n : Nat) : (s.fetched c f).group n = s.group n :=
  (congrArg (fun q : State => q.group n) (s.fetched_onlyClock c f) :)

/-! ### GATE (R284, R287) -/

/-- The core with the units that AUX names waiting to shut down, but for those an operation was issued to in the cycle. -/
def Core.gateUnits (k : Core) (aux t : Nat) : Core :=
  let g (n : Nat) (e : Eng) (x : UnitSt) : UnitSt := if aux.testBit n then x.gate (k.inCycle e.num t) else x
  { k with uArray := g 0 .array k.uArray, uMerge := g 1 .merge k.uMerge, uVec := g 2 .vec k.uVec, uRow := g 3 .row k.uRow }

@[simp] theorem UnitSt.gate_issued (x : UnitSt) : x.gate true = x := if_neg (by simp)

theorem UnitSt.settle_of_ne {x : UnitSt} (idle : Bool) (t : Nat) (h : x.st ≠ .gatePending) : x.settle idle t = x := if_neg (by simp [h])

/-- A unit that is ON and named waits to shut down, or begins to where it has nothing to do. -/
theorem UnitSt.settle_gate {x : UnitSt} (idle : Bool) (t : Nat) (h : x.st = .on) :
    (((x.gate false).settle idle t).st = .gatePending ∨ ((x.gate false).settle idle t).st = .shuttingDown)
      ∧ (((x.gate false).settle idle t).st = .shuttingDown ↔ idle = true) := by
  have hgate : x.gate false = { x with st := .gatePending, again := false } := if_pos ⟨h, rfl⟩
  rw [hgate, UnitSt.settle]
  cases idle <;> simp

/-! ### The instructions -/

section
variable {s : State} {c : CoreIx} {f : StreamId} {i : Ctl} {x : Stream} (hm : s.mayRun c.val f) (hf : (s.core c.val).fetch f = .ctl i)
  (hx : ((s.fetched c.val f).core c.val).stream f = x)
include hm hf hx

/-- GETSUM of the status or of its PC: read without a wait, and both cleared. -/
theorem exec_getsum_status (hop : i.op = 0x87) (haux : i.aux = 0x50 ∨ i.aux = 0x51) :
    exec (.getsum c f) s = .next (s.streamIs c.val f
      { x.stepped with regs := mset 0 x.regs i.sd (BitVec.ofNat 64 (if i.aux = 0x50 then x.status else x.statusPc)), status := 0, statusPc := 0 }) := by
  show execGetsum c f s = _
  exact State.seqCmd_streamIs hm hf hx hop (if_pos haux) rfl rfl

/-- GETSUM of an engine's summary, once the stream's most recent operation there has ended. -/
theorem exec_getsum_engine (hop : i.op = 0x87) (haux : i.aux < 0x50) :
    exec (.getsum c f) s = .next (if ((s.fetched c.val f).core c.val).latestBusy f (sumEng i.aux) (s.fetched c.val f).cycles then s.waits c.val f 0x148
      else s.streamIs c.val f { x.stepped with regs := mset 0 x.regs i.sd (BitVec.ofNat 64 (x.sums.get i.aux)) }) := by
  show execGetsum c f s = _
  rw [execGetsum, State.seqCmd_ctl hm hf hx hop, if_neg (by omega)]
  split
  · rfl
  · exact congrArg _ (State.seqNext_fetched hx _ _ rfl)

theorem exec_onend (hop : i.op = 0x8B) :
    exec (.onend c f) s = .next (if x.onend.isSome then (s.fetched c.val f).seqStop c.val f 0x70 i.op
      else s.streamIs c.val f { x.stepped with onend := some (i.aux, i.imm % 65536) }) := by
  show execOnend c f s = _
  rw [execOnend, State.seqCmd_ctl hm hf hx hop]
  split
  · rfl
  · exact congrArg _ (State.seqNext_fetched hx _ _ rfl)

/-- The PATCH that an instruction names. -/
theorem exec_patch (hop : i.op = 0x8C) :
    let q : Patch := { word := i.imm % 16, lsb := i.imm / 256 % 32, w := i.imm / 65536 % 32 + 1, val := (mget 0 x.regs i.sa).toNat % 2 ^ (i.imm / 65536 % 32 + 1) }
    exec (.patch c f) s = .next (if 4 ≤ x.patches.length then (s.fetched c.val f).seqStop c.val f 0x70 i.op
      else s.streamIs c.val f { x.stepped with patches := x.patches ++ [q] }) := by
  have hlsb : i.imm / 256 % 32 = bits i.imm 8 5 := (bits_eq_div i.imm 8 5).symm
  have hw : i.imm / 65536 % 32 = bits i.imm 16 5 := (bits_eq_div i.imm 16 5).symm
  rw [hlsb, hw]
  show execPatch c f s = _
  rw [execPatch, State.seqCmd_ctl hm hf hx hop]
  split
  · rfl
  · exact congrArg _ (State.seqNext_fetched hx _ _ rfl)

theorem exec_arrive (hop : i.op = 0x91) :
    exec (.arrive c f) s = .next (if (s.group i.aux).active && (s.group i.aux).barrier && (s.group i.aux).cores.contains c.val
      then (s.streamIs c.val f x.stepped).updCore c.val (fun k =>
        { k with arrivals := mupd ({} : Arrivals) k.arrivals i.aux (fun a => { a with sems := a.sems ++ [i.imm % 8] }) })
      else (s.fetched c.val f).seqStop c.val f 0x73 i.op) := by
  rw [← State.seqNext_stepped hx, ← s.fetched_group c.val f]
  show execArrive c f s = _
  exact State.seqCmd_ctl hm hf hx hop _

theorem exec_gate (hop : i.op = 0x93) :
    exec (.gate c f) s = .next ((s.streamIs c.val f x.stepped).updCore c.val (fun k =>
      (k.gateUnits i.aux (s.fetched c.val f).cycles).settleUnits (s.fetched c.val f).cycles)) := by
  rw [← State.seqNext_stepped hx]
  show execGate c f s = _
  exact State.seqCmd_ctl hm hf hx hop _

end

/-! ### Barrier rounds (R274) -/

/-- What a completed round does to a participant: its oldest arrival is taken, and the semaphore that it named takes one more unless it is full. -/
def Core.rounded (g : Nat) (k k' : Core) : Prop :=
  ∀ j js, (mget ({} : Arrivals) k.arrivals g).sems = j :: js →
    (mget ({} : Arrivals) k'.arrivals g).sems = js ∧ mget 0 k'.sems j = if mget 0 k.sems j = 0xFFFF then 0xFFFF else mget 0 k.sems j + 1

theorem State.roundSignal_core_ne {s : State} {c d : Nat} (g : Nat) (h : d ≠ c) : (s.roundSignal g c).core d = s.core d := by
  delta State.roundSignal
  extract_lets k a i v k1
  split
  · exact (congrArg (fun m => mget ({} : Core) m d) (State.faultMark_cores ..)).trans (State.core_setCore_ne _ _ _ _ h)
  · exact State.core_setCore_ne _ _ _ _ h

theorem State.roundSignal_frame (s : State) (g c : Nat) : (s.roundSignal g c).mem = s.mem ∧ (s.roundSignal g c).groups = s.groups := by
  delta State.roundSignal
  extract_lets k a i v k1
  split
  · exact ⟨State.faultMark_mem .., State.faultMark_groups ..⟩
  · exact ⟨rfl, rfl⟩

theorem State.roundSignal_rounded (s : State) (g c : Nat) : (s.core c).rounded g ((s.roundSignal g c).core c) := by
  intro j js hsems
  delta State.roundSignal
  extract_lets k a i v k1
  have hi : i = j := by simp [i, a, k, hsems, nth]
  have hdrop : a.sems.drop 1 = js := by simp [a, k, hsems]
  have hv : mget 0 (s.core c).sems j = v := by simp [v, hi, k]
  have harr : mget {} k1.arrivals g = { rounds := a.rounds + 1, sems := js } := by simp [k1, hdrop]
  rw [hv]
  split
  case isTrue hfull =>
    have hcore : ((s.setCore c k1).faultMark (coreUnit c 5) 0x72 0).core c = k1 :=
      (congrArg (fun m => mget ({} : Core) m c) (State.faultMark_cores ..)).trans (State.core_setCore_self ..)
    rw [hcore, harr]
    exact ⟨rfl, hv.trans hfull⟩
  case isFalse =>
    rw [State.core_setCore_self]
    refine ⟨congrArg Arrivals.sems harr, ?_⟩
    rw [← hi]
    exact mget_mset_self _ _ _ _

theorem State.rounds_core_of_notMem (g : Nat) {c : Nat} (l : List Nat) (s : State) (h : c ∉ l) :
    (l.foldl (fun t c => t.roundSignal g c) s).core c = s.core c :=
  List.foldlRecOn (motive := fun t : State => t.core c = s.core c) l _ rfl
    (fun _ ht _ hd => (State.roundSignal_core_ne g (ne_of_mem_of_not_mem hd h).symm).trans ht)

/-- A round signals each participant once. -/
theorem State.rounds_rounded (g : Nat) {c : Nat} (l : List Nat) (s : State) (hl : l.Nodup) (hc : c ∈ l) :
    (s.core c).rounded g ((l.foldl (fun t c => t.roundSignal g c) s).core c) := by
  induction l generalizing s with
  | nil => simp at hc
  | cons d l ih =>
    obtain ⟨hd, hl⟩ := List.nodup_cons.mp hl
    rw [List.foldl_cons]
    rcases List.mem_cons.mp hc with rfl | hc
    · rw [State.rounds_core_of_notMem g l _ hd]
      exact s.roundSignal_rounded g c
    · rw [← State.roundSignal_core_ne g (ne_of_mem_of_not_mem hc hd)]
      exact ih _ hl hc

theorem State.rounds_frame (g : Nat) (l : List Nat) (s : State) :
    (l.foldl (fun t c => t.roundSignal g c) s).mem = s.mem ∧ (l.foldl (fun t c => t.roundSignal g c) s).groups = s.groups :=
  List.foldlRecOn (motive := fun t : State => t.mem = s.mem ∧ t.groups = s.groups) l _ ⟨rfl, rfl⟩
    (fun t ht d _ => ⟨(t.roundSignal_frame g d).1.trans ht.1, (t.roundSignal_frame g d).2.trans ht.2⟩)

theorem exec_barrierRound {s : State} {g : GroupIx} (ha : (s.group g.val).active = true) (hb : (s.group g.val).barrier = true) (hne : (s.group g.val).cores ≠ [])
    (hall : ∀ c ∈ (s.group g.val).cores, (mget ({} : Arrivals) (s.core c).arrivals g.val).sems ≠ []) :
    exec (.barrierRound g) s = .next ((s.group g.val).cores.foldl (fun t c => t.roundSignal g.val c) s) := by
  show execBarrierRound g s = _
  refine congrArg _ (if_pos ?_)
  simpa [ha, hb, hne] using hall

end Sys2Proof.Machine

open Sys2Proof Sys2Proof.Machine

/-- Settles O10, instruction by instruction; a round by what one signal does to its own core, with each participant listed once. -/
theorem seqSummariesPrefixesArrivals : Obligations.SeqSummariesPrefixesArrivals := by
  refine ⟨fun s c f i hf hm => ?_, fun s g => ?_⟩
  · intro u k x y z g rd named
    have hx : (u.core c.val).stream f = x := rfl
    have hz := s.streamIs_stream c.val f x.stepped
    have honly := s.streamIs_streamsOnly c.val f x.stepped
    refine ⟨fun hop haux => ?_, fun hop haux => ?_, fun hop haux hfree => ?_, fun hop haux hbusy => ?_, fun hop hpre => ?_, fun hop hpre => ?_,
      fun hop hroom => ?_, fun hop hfull => ?_, fun hop hga hgb hgc => ?_, fun hop hno => ?_, fun hop => ?_⟩
    · rw [exec_getsum_status hm hf hx hop (.inl haux), if_pos haux]
      rfl
    · rw [exec_getsum_status hm hf hx hop (.inr haux), if_neg (by omega)]
      rfl
    · rw [exec_getsum_engine hm hf hx hop haux, if_neg (by simpa using hfree)]
      rfl
    · exact (exec_getsum_engine hm hf hx hop haux).trans (congrArg _ (if_pos hbusy))
    · rw [exec_onend hm hf hx hop, if_neg (by simp [hpre])]
      rfl
    · rw [exec_onend hm hf hx hop, if_pos (by simpa [Option.isSome_iff_ne_none] using hpre), hop]
    · exact ⟨_, rfl, rfl, rfl, rfl, (exec_patch hm hf hx hop).trans (congrArg _ (if_neg (by omega)))⟩
    · rw [exec_patch hm hf hx hop, if_pos hfull, hop]
    · refine ⟨_, (exec_arrive hm hf hx hop).trans (congrArg _ (if_pos ?_)), State.onlyCore_updCore_streamIs .., ?_, ?_⟩
      · exact Bool.and_eq_true_iff.mpr ⟨Bool.and_eq_true_iff.mpr ⟨hga, hgb⟩, List.contains_iff_mem.mpr hgc⟩
      · rw [State.core_updCore_self]
        cases f <;> exact hz
      · have harr : ((s.streamIs c.val f x.stepped).core c.val).arrivals = k.arrivals := (congrArg Core.arrivals honly :)
        rw [State.core_updCore_self, harr]
        exact congrArg Arrivals.sems (mget_mset_self ..)
    · rw [exec_arrive hm hf hx hop, if_neg (fun hyes => hno ?_), hop]
      obtain ⟨hab, hc⟩ := Bool.and_eq_true_iff.mp hyes
      obtain ⟨ha, hb⟩ := Bool.and_eq_true_iff.mp hab
      exact ⟨ha, hb, List.contains_iff_mem.mp hc⟩
    · have hunit : ∀ q, ((((s.streamIs c.val f x.stepped).core c.val).gateUnits i.aux u.cycles).settleUnits u.cycles).unit q
          = (if named q then (k.unit q).gate (k.inCycle (unitEng q).num u.cycles) else k.unit q).settle
            ((k.queue (unitEng q)).isEmpty && (k.running (unitEng q)).isEmpty) u.cycles := by
        intro q
        have hq := (congrArg (fun y : Core => ((y.gateUnits i.aux u.cycles).settleUnits u.cycles).unit q) honly :)
        refine hq.trans ?_
        cases q <;> rfl
      refine ⟨_, exec_gate hm hf hx hop, State.onlyCore_updCore_streamIs .., ?_, fun q hon hnamed hfree => ?_, fun q hout hst => ?_⟩ <;>
        rw [State.core_updCore_self]
      · cases f <;> exact hz
      · rw [hunit, if_pos hnamed, hfree, ← Bool.and_eq_true_iff]
        exact UnitSt.settle_gate _ _ hon
      · rw [hunit]
        rcases hout with hout | hout
        · rw [if_neg (by simp [hout])]
          exact UnitSt.settle_of_ne _ _ hst
        · rw [hout, UnitSt.gate_issued, ite_self]
          exact UnitSt.settle_of_ne _ _ hst
  · intro r ha hb hne hnodup hall
    exact ⟨_, exec_barrierRound ha hb hne hall, (State.rounds_frame ..).1, (State.rounds_frame ..).2, fun c hc => State.rounds_rounded g.val _ s hnodup hc⟩
end

-- ==== Sys2Proof/Proofs/SeqStops.lean ====

section
namespace Sys2Proof.Machine

/-! ### A stream's stop (R270, R271) -/

/-- The end of a capture leaves the event ring. -/
theorem State.endCapture_ring (s : State) (r : Nat) : (s.endCapture r).trace.ring = s.trace.ring := by
  unfold State.endCapture
  split <;> rfl

/-- A waymark offered to an enabled recorder whose ring is not full, and wraps, is written to the ring's next slot (R477). -/
theorem Recorder.record_mem {r : Recorder} (hen : r.eventEn = true) (hfull : r.ringFull = false) (hwrap : r.wrap = true) (w : Waymark) :
    (r.nextIx % r.slots, { w with seq := r.seq, dropBefore := r.dropFlag }) ∈ (r.record w).ring := by
  simp [Recorder.record, hen, hfull, hwrap]

/-- The FAULT of a failure is in the ring's next slot, with its status in the payload's top byte (R53, R271). -/
theorem State.seqFault_recorded {s : State} (c : Nat) (f : StreamId) {st : Nat} (opc pc : Nat) (hst : st < 256) (hen : s.trace.eventEn = true)
    (hfull : s.trace.ringFull = false) (hwrap : s.trace.wrap = true) :
    ∃ w : Waymark, (s.trace.nextIx % s.trace.slots, w) ∈ (s.seqFault c f st opc pc).trace.ring ∧ w.kind = 0x12 ∧ w.payload.toNat / 2 ^ 56 = st := by
  rw [State.seqFault, State.mark]
  delta State.markAt
  extract_lets w s'
  have hmem := Recorder.record_mem hen hfull hwrap w
  refine ⟨{ w with seq := s.trace.seq, dropBefore := s.trace.dropFlag }, ?_, rfl, ?_⟩
  · split
    · rwa [State.endCapture_ring]
    · exact hmem
  · simp only [w, at', BitVec.toNat_ofNat]
    omega

theorem State.seqStop_own {s : State} (c : Nat) (f : StreamId) {st : Nat} (opc : Nat) (h : st ≠ 0x74) :
    s.seqStop c f st opc = (s.updCore c (fun k => k.setStream f { ((s.core c).stream f).fail st ((s.core c).stream f).pc with waiting := none })).seqFault
      c f st opc ((s.core c).stream f).pc := if_neg h

/-- A stop by the sequencer's own status changes its core and the recorder alone. -/
theorem State.seqStop_only {s : State} (c : Nat) (f : StreamId) {st : Nat} (opc : Nat) (h : st ≠ 0x74) :
    { s.seqStop c f st opc with cores := s.cores, trace := s.trace } = s := by
  rw [State.seqStop_own c f opc h]
  exact congrArg (fun q : State => { q with cores := s.cores }) (State.seqFault_only ..)

theorem State.seqStop_stream {s : State} (c : Nat) (f : StreamId) {st : Nat} (opc : Nat) (h : st ≠ 0x74) :
    ((s.seqStop c f st opc).core c).stream f = { ((s.core c).stream f).fail st ((s.core c).stream f).pc with waiting := none } := by
  rw [State.seqStop_own c f opc h, State.core, State.seqFault_cores]
  exact (congrArg (fun k : Core => k.stream f) (State.core_updCore_self ..)).trans (Core.stream_setStream_self ..)

theorem State.seqStop_core_ne {s : State} {c d : Nat} (f : StreamId) {st : Nat} (opc : Nat) (h : st ≠ 0x74) (hd : d ≠ c) :
    (s.seqStop c f st opc).core d = s.core d := by
  rw [State.seqStop_own c f opc h, State.core, State.seqFault_cores]
  exact State.core_updCore_ne _ _ _ _ hd

/-! ### The instruction commands of a stream (R270) -/

/-- The instruction commands of a stream. -/
def streamInstrs (c : CoreIx) (f : StreamId) : List Instr :=
  [.nop c f, .movi c f, .alu c f, .alui c f, .br c f, .setlc c f, .loop c f, .getsum c f, .getfmt c f, .gettime c f, .setseed c f, .onend c f, .patch c f,
    .cadd c f, .waitge c f, .semsig c f, .semwait c f, .arrive c f, .fence c f, .gate c f, .onstatus c f, .legEnd c f, .engineOpIssue c f]

/-- Each is a turn of its stream. -/
theorem exec_streamInstrs {c : CoreIx} {f : StreamId} {j : Instr} (hj : j ∈ streamInstrs c f) (s : State) :
    ∃ run, exec j s = .next (s.seqTurn c.val f run) := by
  unfold streamInstrs at hj
  fin_cases hj <;> exact ⟨_, rfl⟩

end Sys2Proof.Machine

open Sys2Proof Sys2Proof.Machine

/-- Settles O11: a stop by the failure of its stream and the FAULT that it records; the rest because every instruction command is its stream's turn. -/
theorem seqStopsAndFetchFailures : Obligations.SeqStopsAndFetchFailures := by
  refine ⟨fun s c f st opc hst hrun => ?_, fun s c f j hj => ?_⟩
  · intro x t
    have hown : 0x70 ≤ st ∧ st ≤ 0x73 := by
      simp only [List.mem_cons, List.not_mem_nil, or_false] at hst
      omega
    have hne : st ≠ 0x74 := by omega
    have hstream : (t.core c.val).stream f = { x.fail st x.pc with waiting := none } := State.seqStop_stream _ f opc hne
    have honly := State.seqStop_only (s := s) c.val f opc hne
    obtain ⟨hregs, hpc, -, -, hstatus, hstatusPc, -⟩ := x.fail_spec st x.pc
    rw [hstream]
    refine ⟨x.fail_stops st x.pc (by omega) hrun, hstatus, hstatusPc, hregs, hpc, fun d hd => State.seqStop_core_ne f opc hne hd, (congrArg State.mem honly :),
      (congrArg State.host honly :), (congrArg State.time honly :), (congrArg State.groups honly :), fun hen hfull hwrap _ => ?_⟩
    unfold t
    rw [State.seqStop_own _ f opc hne]
    exact State.seqFault_recorded _ f opc x.pc (by omega) hen hfull hwrap
  · obtain ⟨run, hturn⟩ := exec_streamInstrs hj s
    rw [hturn]
    exact ⟨fun st opc hf hm => congrArg _ (State.seqTurn_fail run hm hf), fun hf => congrArg _ (State.seqTurn_none run hf),
      fun hm => congrArg _ (State.seqTurn_stands run hm)⟩
end

-- ==== Sys2Proof/Proofs/SeqFetch.lean ====

section
namespace Sys2Proof.Machine

/-! ### The fetch (R266, R268, R270) -/

theorem ctlOf_op (w : W64) : (ctlOf w).op = w.toNat / 2 ^ 24 % 256 := bits_eq_div ..

/-- The opcodes of the engines (R268). -/
theorem engOf_isSome (op : Nat) : (engOf op).isSome = true ↔ (1 ≤ op ∧ op ≤ 4) ∨ op = 0x20 ∨ op = 0x24 ∨ (0x30 ≤ op ∧ op ≤ 0x41) := by
  unfold engOf
  split_ifs <;> simp <;> omega

theorem opSpan_pos (op : Nat) : 1 ≤ opSpan op := by
  unfold opSpan opWords
  split_ifs <;> decide

/-- No word of a run is struck by an uncorrectable error. -/
def Program.clean (p : Program) (pc n : Nat) : Prop := ∀ j < n, mget false p.bad (pc + j) = false

theorem Program.clean_iff (p : Program) (pc n : Nat) : p.clean pc n ↔ ¬ (List.range n).any (fun j => mget false p.bad (pc + j)) = true := by
  simp [Program.clean]

section
variable {k : Core} {f : StreamId} {p : Program} (hp : k.program = some p)
include hp

theorem Core.fetch_idle (h : (k.stream f).phase ≠ .running ∨ k.power ≠ .on) : k.fetch f = .none := by
  simp only [Core.fetch, hp]
  exact if_pos h

variable (hrun : (k.stream f).phase = .running) (hon : k.power = .on)
include hrun hon

theorem Core.fetch_outside (h : ¬ (8 + p.legCycle ≤ (k.stream f).pc ∧ (k.stream f).pc < p.len)) : k.fetch f = .fail 0x71 0 := by
  simp only [Core.fetch, hp]
  rw [if_neg (by simp [hrun, hon]), if_pos (by omega)]

variable (hin : 8 + p.legCycle ≤ (k.stream f).pc ∧ (k.stream f).pc < p.len)
include hin

theorem Core.fetch_struck (h : mget false p.bad (k.stream f).pc = true) : k.fetch f = .fail 0x74 0 := by
  simp only [Core.fetch, hp]
  rw [if_neg (by simp [hrun, hon]), if_neg (by omega), if_pos h]

variable (hgood : p.clean (k.stream f).pc 1)
include hgood

/-- An engine operation at PC. -/
theorem Core.fetch_engine {w : W64} (hw : mget 0 p.words (k.stream f).pc = w) (he : (engOf (ctlOf w).op).isSome = true) :
    k.fetch f = if p.len < (k.stream f).pc + opSpan (ctlOf w).op then .fail 0x71 (ctlOf w).op
      else if (List.range (opSpan (ctlOf w).op)).any (fun j => mget false p.bad ((k.stream f).pc + j)) then .fail 0x74 (ctlOf w).op
      else .eng (ctlOf w).op := by
  have hfirst := hgood 0 Nat.one_pos
  simp only [Core.fetch, hp]
  rw [if_neg (by simp [hrun, hon]), if_neg (by omega), if_neg (by simpa using hfirst), hw, if_pos he]

/-- What is no engine operation at PC: illegal, or a control instruction. -/
theorem Core.fetch_control {w : W64} (hw : mget 0 p.words (k.stream f).pc = w) (he : ¬ (engOf (ctlOf w).op).isSome = true) :
    k.fetch f = if (ctlOf w).op < 0x80 ∨ 0x95 < (ctlOf w).op ∨ (ctlOf w).reserved = true
        ∨ ((!(k.stream f).patches.isEmpty || (k.stream f).onend.isSome) = true ∧ (ctlOf w).op ≠ 0x8B ∧ (ctlOf w).op ≠ 0x8C)
      then .fail 0x70 (ctlOf w).op else .ctl (ctlOf w) := by
  have hfirst := hgood 0 Nat.one_pos
  simp only [Core.fetch, hp]
  rw [if_neg (by simp [hrun, hon]), if_neg (by omega), if_neg (by simpa using hfirst), hw, if_neg he]

end

end Sys2Proof.Machine

open Sys2Proof Sys2Proof.Machine

/-- Settles O12, by the order of the fetch's checks: the range, the first word, the operation's span and words, the opcode, the reserved fields and the
prefixes. -/
theorem seqFetch : Obligations.SeqFetch := by
  intro k f p hp x w op inRange good engine
  have hop : (ctlOf w).op = op := ctlOf_op w
  have heng : (engOf (ctlOf w).op).isSome = true ↔ engine := by rw [hop]; exact engOf_isSome op
  have hctl : 0x80 ≤ op → ¬ (engOf (ctlOf w).op).isSome = true := fun h he => by
    rcases heng.mp he with he | he | he | he <;> omega
  have hprefix : (!x.patches.isEmpty || x.onend.isSome) = true ↔ (x.patches ≠ [] ∨ x.onend ≠ none) := by
    simp [Option.isSome_iff_ne_none]
  refine ⟨fun h => Core.fetch_idle hp (.inl h), fun h => Core.fetch_idle hp (.inr h), fun hrun hon => ?_⟩
  refine ⟨Core.fetch_outside hp hrun hon, Core.fetch_struck hp hrun hon, fun hin hgood he hlen => ?_, fun hin he hlen hgood => ?_,
    fun hin hgood he hlen hbad => ?_, fun hin hgood he hout => ?_, fun hin hgood hlo hhi hres => ?_, fun hin hgood hlo hhi hres hpat hend => ?_,
    fun hin hgood hpre hres => ?_, fun hin hgood hlo hhi h8b h8c hwait => ?_⟩
  · rw [Core.fetch_engine hp hrun hon hin hgood rfl (heng.mpr he), hop]
    exact if_pos hlen
  · have hfirst : good 1 := fun j hj => hgood j (hj.trans_le (opSpan_pos op))
    rw [Core.fetch_engine hp hrun hon hin hfirst rfl (heng.mpr he), hop]
    exact (if_neg (Nat.not_lt.mpr hlen)).trans (if_neg ((p.clean_iff ..).mp hgood))
  · rw [Core.fetch_engine hp hrun hon hin hgood rfl (heng.mpr he), hop]
    exact (if_neg (Nat.not_lt.mpr hlen)).trans (if_pos (not_not.mp (mt (p.clean_iff ..).mpr hbad)))
  · rw [Core.fetch_control hp hrun hon hin hgood rfl (mt heng.mp he), hop]
    exact if_pos (hout.imp_right .inl)
  · rw [Core.fetch_control hp hrun hon hin hgood rfl (hctl hlo), hop]
    exact if_pos (.inr (.inr (.inl hres)))
  · rw [Core.fetch_control hp hrun hon hin hgood rfl (hctl hlo), hop]
    refine if_neg ?_
    rintro (h | h | h | ⟨h, -⟩)
    · omega
    · omega
    · exact absurd (h.symm.trans hres) (by decide)
    · exact (hprefix.mp h).elim (absurd hpat) (absurd hend)
  · rw [Core.fetch_control hp hrun hon hin hgood rfl (hctl (by omega)), hop]
    refine if_neg ?_
    rintro (h | h | h | ⟨-, h8b, h8c⟩)
    · omega
    · omega
    · exact absurd (h.symm.trans hres) (by decide)
    · exact hpre.elim h8b h8c
  · rw [Core.fetch_control hp hrun hon hin hgood rfl (hctl hlo), hop]
    exact if_pos (.inr (.inr (.inr ⟨hprefix.mpr hwait, h8b, h8c⟩)))
end

-- ==== Sys2Proof/Proofs/SeqIssue.lean ====

section
namespace Sys2Proof.Machine

/-! ### Arbiters (R56, R264) -/

theorem mem_streams (f : StreamId) : f ∈ streams := by cases f <;> decide

/-- A stream that alone requests is the first in any rotation. -/
theorem Core.rotate_alone {k : Core} {arb : Nat} {wants : StreamId → Bool} {f : StreamId} (hf : wants f = true) (hothers : ∀ g, g ≠ f → wants g = false) :
    k.rotate arb wants = some f := by
  rw [Core.rotate]
  cases hfind : (sortBy (rankOf (mget 0 k.arb arb)) streams).find? wants with
  | none => exact absurd hf (List.find?_eq_none.mp hfind f ((sortBy_perm _ _).mem_iff.mpr (mem_streams f)))
  | some g =>
    by_contra hg
    exact absurd (List.find?_some hfind) (by simp [hothers g fun he => hg (he ▸ rfl)])

/-- A stream is not the first where another that requests comes before it. -/
theorem Core.rotate_behind {k : Core} {arb : Nat} {wants : StreamId → Bool} {f g : StreamId} (hg : wants g = true)
    (hrank : rankOf (mget 0 k.arb arb) g < rankOf (mget 0 k.arb arb) f) : k.rotate arb wants ≠ some f := by
  intro hfind
  obtain ⟨-, before, after, hsplit, hbefore⟩ := List.find?_eq_some_iff_append.mp hfind
  have hsorted := sortBy_rises (rankOf (mget 0 k.arb arb)) streams
  have hmem := (sortBy_perm (rankOf (mget 0 k.arb arb)) streams).mem_iff.mpr (mem_streams g)
  rw [hsplit] at hsorted hmem
  rcases List.mem_append.mp hmem with h | h
  · exact absurd hg (by simpa using hbefore g h)
  · rcases List.mem_cons.mp h with rfl | h
    · exact lt_irrefl _ hrank
    · exact absurd (List.rel_of_pairwise_cons (List.pairwise_append.mp hsorted).2.1 h) (Nat.not_le.mpr hrank)

/-! ### The operation at PC (R264, R267) -/

/-- The operation that a stream offers in a cycle: the program's words with the patches applied, with a pot ticket where it uses the pot. -/
def Core.opToIssue (k : Core) (f : StreamId) (p : Program) (opc t : Nat) : Op :=
  let x := k.stream f
  let o : Op := { id := k.nextOp, stream := f, pc := x.pc, words := patchWords (p.opAt x.pc opc) x.patches, ticket := none, onend := x.onend, issued := t, seed := x.seedLeg }
  { o with ticket := if k.usesPot o then some k.potNext else none }

theorem Core.opToIssue_ticket (k : Core) (f : StreamId) (p : Program) (opc t : Nat) :
    (k.opToIssue f p opc t).ticket = if k.usesPot (k.opToIssue f p opc t) then some k.potNext else none := rfl

section
variable {k : Core} {f : StreamId} {p : Program} {opc : Nat} (hf : k.fetch f = .eng opc) (hp : k.program = some p)
include hf hp

theorem Core.offered_within {e : Eng} (he : engOf opc = some e) (hpatch : ∀ q ∈ (k.stream f).patches, q.word < opWords opc) (t : Nat) :
    k.offered f t = some (e, k.opToIssue f p opc t) := by
  have hno : ¬ (k.stream f).patches.any (fun q => decide (opWords opc ≤ q.word)) = true := by simpa using hpatch
  simp only [Core.offered, hf, hp]
  rw [if_neg hno, he, Option.map_some, Core.opToIssue]
  split <;> rfl

theorem Core.offered_beyond (hpatch : ∃ q ∈ (k.stream f).patches, opWords opc ≤ q.word) (t : Nat) : k.offered f t = none := by
  have hsome : (k.stream f).patches.any (fun q => decide (opWords opc ≤ q.word)) = true := by simpa using hpatch
  simp only [Core.offered, hf, hp]
  exact if_pos hsome

end

/-! ### The grant (R264) -/

theorem Core.chosen_alone {k : Core} {t : Nat} {f : StreamId} {e : Eng} {o : Op} (hfull : k.queueFull e t = false) (hgrant : k.inCycle e.num t = false)
    (hf : k.request t f = some (e, o)) (hothers : ∀ g, g ≠ f → k.request t g = none) : k.chosen t e = some f := by
  rw [Core.chosen, if_neg (by simp [hfull, hgrant])]
  exact Core.rotate_alone (by simp [hf]) (fun g hg => by simp [hothers g hg])

theorem Core.granted_alone {k : Core} {t : Nat} {f : StreamId} {e : Eng} {o : Op} (hfull : k.queueFull e t = false) (hgrant : k.inCycle e.num t = false)
    (hpot : k.inCycle potArb t = false) (hf : k.request t f = some (e, o)) (hothers : ∀ g, g ≠ f → k.request t g = none) :
    k.granted t f e o = true := by
  have hchosen := Core.chosen_alone hfull hgrant hf hothers
  rw [Core.granted, hchosen, beq_self_eq_true, Bool.true_and]
  cases hticket : o.ticket with
  | none => rfl
  | some n =>
    have hrotate : k.rotate potArb (k.chosenPot t) = some f :=
      Core.rotate_alone (by simp [Core.chosenPot, hf, hchosen, hticket]) (fun g hg => by simp [Core.chosenPot, hothers g hg])
    simp [hpot, hrotate]

theorem Core.not_granted_full {k : Core} {t : Nat} {f : StreamId} {e : Eng} (o : Op) (h : k.queueFull e t = true) : ¬ k.granted t f e o = true := by
  simp [Core.granted, Core.chosen, h]

theorem Core.not_granted_behind {k : Core} {t : Nat} {f g : StreamId} {e : Eng} {o : Op} (o' : Op) (hg : k.request t g = some (e, o))
    (hrank : rankOf (mget 0 k.arb e.num) g < rankOf (mget 0 k.arb e.num) f) : ¬ k.granted t f e o' = true := by
  have hchosen : k.chosen t e ≠ some f := by
    rw [Core.chosen]
    split
    · simp
    · exact Core.rotate_behind (by simp [hg]) hrank
  simp [Core.granted, hchosen]

/-! ### The issue (R264, R284) -/

/-- The core but for what the issue of an operation changes beside its queue: units, arbiters, tickets, numbers, pairs and counters. -/
def Core.issueOnly (k k' : Core) : Prop :=
  { k' with
    uArray := k.uArray, uMerge := k.uMerge, uVec := k.uVec, uRow := k.uRow, arb := k.arb, lately := k.lately, nextOp := k.nextOp, potNext := k.potNext
    pairs := k.pairs, counters := k.counters } = k

theorem Core.issueOnly.trans {k x y : Core} (h : k.issueOnly x) (g : x.issueOnly y) : k.issueOnly y := by
  unfold Core.issueOnly at *
  rw [← h, ← g]

theorem Core.issueOnly_wake (k : Core) (e : Eng) (t : Nat) : k.issueOnly (k.wake e t) := by
  cases e <;> rfl

theorem Core.issueOnly_count (k : Core) (o n : Nat) : k.issueOnly (k.count o n) := rfl

theorem Core.issueOnly_grant (k : Core) (a t : Nat) (f : StreamId) : k.issueOnly (k.grant a t f) := rfl

/-- The pairing of an operation changes the pairs alone (R228). -/
theorem Core.notePair_pairs (k : Core) (o : Op) : ∃ ps, k.notePair o = { k with pairs := ps } := by
  unfold Core.notePair
  split
  · exact ⟨_, rfl⟩
  · split
    · split <;> exact ⟨_, rfl⟩
    · exact ⟨_, rfl⟩

theorem Core.issueOnly_notePair (k : Core) (o : Op) : k.issueOnly (k.notePair o) := by
  obtain ⟨ps, h⟩ := k.notePair_pairs o
  rw [h]
  rfl

@[simp] theorem Core.notePair_potNext (k : Core) (o : Op) : (k.notePair o).potNext = k.potNext := by
  obtain ⟨ps, h⟩ := k.notePair_pairs o
  rw [h]

@[simp] theorem Core.notePair_arb (k : Core) (o : Op) : (k.notePair o).arb = k.arb := by
  obtain ⟨ps, h⟩ := k.notePair_pairs o
  rw [h]

/-- The core with an operation numbered, its pot ticket drawn where it has one. -/
def Core.numbered (k : Core) (o : Op) : Core := { k with nextOp := k.nextOp + 1, potNext := k.potNext + (if o.ticket.isSome then 1 else 0) }

theorem Core.issueOnly_numbered (k : Core) (o : Op) : k.issueOnly (k.numbered o) := rfl

/-- An operation in its queue, granted by the queue's arbiter and not yet by the pot's. -/
def Core.queued (k : Core) (t : Nat) (f : StreamId) (e : Eng) (o : Op) : Core :=
  (((((k.setQueue e (k.queue e ++ [o])).wake e t).count 0x138 1).numbered o).grant e.num t f).notePair o

theorem Core.issue_eq (k : Core) (t : Nat) (f : StreamId) (e : Eng) (o : Op) :
    k.issue t f e o = if o.ticket.isSome then (k.queued t f e o).grant potArb t f else k.queued t f e o := by
  cases e <;> rfl

/-- The issue of an operation adds it to its engine's queue; every other queue, the streams and the program stand. -/
theorem Core.issue_only (k : Core) (t : Nat) (f : StreamId) (e : Eng) (o : Op) :
    (k.setQueue e (k.queue e ++ [o])).issueOnly (k.issue t f e o) := by
  have hqueued : (k.setQueue e (k.queue e ++ [o])).issueOnly (k.queued t f e o) :=
    ((((Core.issueOnly_wake ..).trans (Core.issueOnly_count ..)).trans (Core.issueOnly_numbered ..)).trans (Core.issueOnly_grant ..)).trans
      (Core.issueOnly_notePair ..)
  rw [Core.issue_eq]
  split
  · exact hqueued.trans (Core.issueOnly_grant ..)
  · exact hqueued

theorem Core.issue_queue_self (k : Core) (t : Nat) (f : StreamId) (e : Eng) (o : Op) : (k.issue t f e o).queue e = k.queue e ++ [o] := by
  have h := congrArg (fun q : Core => q.queue e) (k.issue_only t f e o)
  refine Eq.trans ?_ (h.trans (Core.queue_setQueue_self ..))
  cases e <;> rfl

theorem Core.issue_queue_ne (k : Core) (t : Nat) (f : StreamId) {e d : Eng} (o : Op) (hd : d ≠ e) : (k.issue t f e o).queue d = k.queue d := by
  have h := congrArg (fun q : Core => q.queue d) (k.issue_only t f e o)
  refine Eq.trans ?_ (h.trans (Core.queue_setQueue_ne _ _ _ _ hd))
  cases d <;> rfl

theorem Core.issue_stream (k : Core) (t : Nat) (f g : StreamId) (e : Eng) (o : Op) : (k.issue t f e o).stream g = k.stream g := by
  have h := congrArg (fun q : Core => q.stream g) (k.issue_only t f e o)
  refine Eq.trans ?_ (h.trans (Core.stream_setQueue ..))
  cases g <;> rfl

theorem Core.issue_potNext (k : Core) (t : Nat) (f : StreamId) (e : Eng) (o : Op) :
    (k.issue t f e o).potNext = k.potNext + (if o.ticket.isSome then 1 else 0) := by
  have hqueued : (k.queued t f e o).potNext = k.potNext + (if o.ticket.isSome then 1 else 0) := by
    rw [Core.queued, Core.notePair_potNext]
    cases e <;> rfl
  rw [← hqueued, Core.issue_eq]
  split <;> rfl

/-- The queue's arbiter points past the stream; the pot's is another. -/
theorem Core.issue_arb (k : Core) (t : Nat) (f : StreamId) (e : Eng) (o : Op) : mget 0 (k.issue t f e o).arb e.num = (strNum f + 1) % 3 := by
  have hqueued : mget 0 (k.queued t f e o).arb e.num = (strNum f + 1) % 3 := by
    rw [Core.queued, Core.notePair_arb]
    exact mget_mset_self ..
  rw [Core.issue_eq]
  split
  · exact (mget_mset_ne _ _ _ _ _ (by cases e <;> decide)).trans hqueued
  · exact hqueued

/-! ### ENGINE_OP_ISSUE -/

/-- The module once a stream's operation is in its queue and the stream has gone on, its prefixes used up. -/
def State.issued (u : State) (c : Nat) (f : StreamId) (e : Eng) (o : Op) (span : Nat) : State :=
  (u.updCore c (fun k => k.issue u.cycles f e o)).seqDone c f 0x140 (o.pc + span) (fun y => { y with patches := [], onend := none })

theorem State.issued_onlyCore (u : State) (c : Nat) (f : StreamId) (e : Eng) (o : Op) (span : Nat) : u.onlyCore (u.issued c f e o span) c :=
  State.onlyCore.trans (State.onlyCore_setCore ..) (State.onlyCore_setCore ..)

theorem State.issued_streamsOnly (u : State) (c : Nat) (f : StreamId) (e : Eng) (o : Op) (span : Nat) :
    ((u.core c).issue u.cycles f e o).streamsOnly ((u.issued c f e o span).core c) := by
  rw [State.issued, State.seqDone, State.core_updCore_self, State.core_updCore_self]
  exact Core.streamsOnly_setStream ..

theorem State.issued_stream (u : State) (c : Nat) (f : StreamId) (e : Eng) (o : Op) (span : Nat) :
    ((u.issued c f e o span).core c).stream f
      = { (u.core c).stream f with pc := (o.pc + span) % 8192, patches := [], onend := none, next := u.cycles + 1, waiting := none } := by
  simp only [State.issued, State.seqDone, State.core_updCore_self, Core.counts, List.foldl_cons, List.foldl_nil, Core.count_stream,
    Core.stream_setStream_self, Core.issue_stream]
  rfl

section
variable {s : State} {c : CoreIx} {f : StreamId} {opc : Nat} (hm : s.mayRun c.val f) (hf : (s.core c.val).fetch f = .eng opc)
include hm hf

theorem exec_issue_none (ho : ((s.fetched c.val f).core c.val).offered f (s.fetched c.val f).cycles = none) :
    exec (.engineOpIssue c f) s = .next ((s.fetched c.val f).seqStop c.val f 0x70 opc) := by
  show execEngineOpIssue c f s = _
  rw [execEngineOpIssue, State.seqTurn_eng _ hm hf]
  simp only [ho]

theorem exec_issue_some {e : Eng} {o : Op} (ho : ((s.fetched c.val f).core c.val).offered f (s.fetched c.val f).cycles = some (e, o)) :
    let u := s.fetched c.val f
    exec (.engineOpIssue c f) s = .next (if (u.core c.val).granted u.cycles f e o then u.issued c.val f e o (opSpan opc) else s.waits c.val f 0x140) := by
  show execEngineOpIssue c f s = _
  rw [execEngineOpIssue, State.seqTurn_eng _ hm hf]
  simp only [ho]
  rfl

end

theorem Core.streamsOnly.queue {k k' : Core} (h : k.streamsOnly k') (e : Eng) : k'.queue e = k.queue e := by
  have hq := congrArg (fun q : Core => q.queue e) h
  cases e <;> exact hq

end Sys2Proof.Machine

open Sys2Proof Sys2Proof.Machine

/-- Settles O13: the operation offered at PC is granted where its stream alone requests, is not where the queue is full or another stream comes first, and there
is none where a PATCH names a word beyond it. -/
theorem seqIssue : Obligations.SeqIssue := by
  intro s c f p opc e hf hm hp he u k x
  have honly := s.fetched_arrayOnly c.val f
  have hfk : k.fetch f = .eng opc := (honly.fetch f).trans hf
  have hpk : k.program = some p := honly.program.trans hp
  refine ⟨fun hpatch hfull hgrant hpot hothers => ?_, fun hpatch hbusy => ?_, fun hpatch => exec_issue_none hm hf (Core.offered_beyond hfk hpk hpatch _)⟩
  · have hoffered := Core.offered_within hfk hpk he hpatch u.cycles
    have hnext : x.next ≤ u.cycles := (congrArg Stream.next (s.fetched_stream c.val f f)).le.trans hm.next_le
    have hgranted := Core.granted_alone hfull hgrant hpot ((if_pos hnext).trans hoffered) hothers
    have hdone := u.issued_streamsOnly c.val f e (k.opToIssue f p opc u.cycles) (opSpan opc)
    refine ⟨_, k.opToIssue f p opc u.cycles, (exec_issue_some hm hf hoffered).trans (congrArg _ (if_pos hgranted)), u.issued_onlyCore ..,
      (hdone.queue e).trans (Core.issue_queue_self ..), fun d hd => (hdone.queue d).trans (Core.issue_queue_ne _ _ _ _ hd), rfl, rfl, rfl, rfl, rfl, rfl, rfl,
      rfl, ?_, u.issued_stream .., (congrArg (fun q : Core => mget 0 q.arb e.num) hdone :).trans (Core.issue_arb ..)⟩
    refine (congrArg Core.potNext hdone :).trans ((Core.issue_potNext ..).trans (congrArg (k.potNext + ·) ?_))
    rw [Core.opToIssue_ticket]
    split <;> rfl
  · rw [exec_issue_some hm hf (Core.offered_within hfk hpk he hpatch u.cycles), if_neg]
    rcases hbusy with hfull | ⟨g, o, hg, hrank⟩
    · exact Core.not_granted_full _ hfull
    · exact Core.not_granted_behind _ hg hrank
end

-- ==== Sys2Proof/Proofs/PowerDomains.lean ====

section
namespace Sys2Proof.Machine

/-! ### A core changed at a cycle to come -/

theorem State.onlyClock.core {s t : State} (h : s.onlyClock t) (d : Nat) : t.core d = (s.toTime t.time.now).core d :=
  congrArg (fun m => mget ({} : Core) m d) h.2

theorem Core.arrayOnly.kettle {k k' : Core} (h : k.arrayOnly k') : k'.kettle = k.kettle := by
  unfold Core.arrayOnly at h
  have hk := congrArg Core.kettle h
  exact hk

theorem Core.arrayOnly.stats {k k' : Core} (h : k.arrayOnly k') : k'.stats = k.stats := by
  unfold Core.arrayOnly at h
  have hs := congrArg Core.stats h
  exact hs

/-- The core but for its gated units and its counters. -/
def Core.unitsOnly (k k' : Core) : Prop :=
  { k' with uArray := k.uArray, uMerge := k.uMerge, uVec := k.uVec, uRow := k.uRow, counters := k.counters } = k

theorem Core.unitsOnly_setUnit (k : Core) (u : UnitId) (x : UnitSt) : k.unitsOnly (k.setUnit u x) := by
  cases u <;> rfl

theorem Core.unitsOnly_setUnit_count (k : Core) (u : UnitId) (x : UnitSt) (o n : Nat) : k.unitsOnly ((k.setUnit u x).count o n) :=
  k.unitsOnly_setUnit u x

/-- Units of a core changed at a cycle to come: memories and the other cores are as the clocks leave them. -/
theorem State.unitsAt (s : State) (c n : Nat) {g : Core → Core} (hg : ∀ k : Core, k.unitsOnly (g k)) :
    let t := (s.toCycle n).updCore c g
    (t.core c).store = ((s.toTime t.time.now).core c).store ∧ (t.core c).planes = ((s.toTime t.time.now).core c).planes
      ∧ (t.core c).kettle = (s.core c).kettle ∧ (t.core c).stats = (s.core c).stats ∧ (∀ d, d ≠ c → t.core d = (s.toTime t.time.now).core d)
      ∧ t.mem = s.mem ∧ t.trace = s.trace := by
  have hclock := s.toCycle_only n
  have hcore := hclock.core c
  have harray := s.toCycle_core n c
  have hunits := hg ((s.toCycle n).core c)
  simp only [State.core_updCore_self]
  exact ⟨(congrArg Core.store hunits :).trans (congrArg Core.store hcore), (congrArg Core.planes hunits :).trans (congrArg Core.planes hcore),
    (congrArg Core.kettle hunits :).trans harray.kettle, (congrArg Core.stats hunits :).trans harray.stats,
    fun d hd => (State.core_updCore_ne _ _ _ _ hd).trans (hclock.core d), (congrArg State.mem hclock.1 :), (congrArg State.trace hclock.1 :)⟩

/-! ### Units (R284, R286) -/

section
variable {s : State} {c : CoreIx} {u : UnitId}

theorem exec_unitShutdownDone (h : ((s.core c.val).unit u).st = .shuttingDown) :
    let x := (s.core c.val).unit u
    let t := s.toCycle (x.since + (if u = .array then 256 else 96))
    exec (.unitShutdownDone c u) s
      = .next (t.updCore c.val (fun k => k.setUnit u (if x.again then { st := .poweringUp, since := t.cycles, again := false } else { x with st := .off }))) := by
  show execUnitShutdownDone c u s = _
  exact congrArg _ (if_pos (beq_iff_eq.mpr h))

theorem exec_unitShutdownDone_stands (h : ((s.core c.val).unit u).st ≠ .shuttingDown) : exec (.unitShutdownDone c u) s = .next s := by
  show execUnitShutdownDone c u s = _
  exact congrArg _ (if_neg (mt beq_iff_eq.mp h))

theorem exec_unitPowerUpDone (h : ((s.core c.val).unit u).st = .poweringUp) :
    let x := (s.core c.val).unit u
    let t := s.toCycle (x.since + (if u = .array then 1024 else 384))
    exec (.unitPowerUpDone c u) s = .next (t.updCore c.val (fun k =>
      (k.setUnit u { x with st := .on }).count 0x150 (((k.queue (unitEng u)).map (fun o => t.cycles - o.issued)).sum))) := by
  show execUnitPowerUpDone c u s = _
  exact congrArg _ (if_pos (beq_iff_eq.mpr h))

theorem exec_unitPowerUpDone_stands (h : ((s.core c.val).unit u).st ≠ .poweringUp) : exec (.unitPowerUpDone c u) s = .next s := by
  show execUnitPowerUpDone c u s = _
  exact congrArg _ (if_neg (mt beq_iff_eq.mp h))

end

@[simp] theorem Core.unit_count (k : Core) (o n : Nat) (u : UnitId) : (k.count o n).unit u = k.unit u := by cases u <;> rfl

/-! ### Cores (R285) -/

section
variable {s : State} {c : CoreIx}

theorem exec_corePowerDown_begins (hok : s.coreOk c.val = true) (hon : (s.core c.val).power = .on) (hp : (s.core c.val).program = none) :
    exec (.corePowerDown c) s = .next (s.setCore c.val ((s.core c.val).fresh .shuttingDown [])) := by
  show execCorePowerDown c s = _
  exact if_pos (by simp [hok, hon, hp])

theorem exec_corePowerDown_ends (h : (s.core c.val).power = .shuttingDown) :
    exec (.corePowerDown c) s
      = .next (s.setCore c.val { s.core c.val with power := if (s.core c.val).program.isSome then .poweringUp else .off }) := by
  show execCorePowerDown c s = _
  exact (if_neg (by simp [h])).trans (congrArg _ (if_pos (beq_iff_eq.mpr h)))

theorem exec_corePowerDown_stands (hp : (s.core c.val).program ≠ none) (h : (s.core c.val).power ≠ .shuttingDown) :
    exec (.corePowerDown c) s = .next s := by
  show execCorePowerDown c s = _
  exact (if_neg (by simp [hp])).trans (congrArg _ (if_neg (mt beq_iff_eq.mp h)))

theorem exec_corePowerUp (h : (s.core c.val).power = .poweringUp) :
    exec (.corePowerUp c) s = .next (s.setCore c.val ((s.core c.val).fresh .on (mget [] s.flagsHeld c.val))) := by
  show execCorePowerUp c s = _
  exact congrArg _ (if_pos (beq_iff_eq.mpr h))

end

end Sys2Proof.Machine

open Sys2Proof Sys2Proof.Machine

/-- Settles O14, transition by transition: a unit's changes its core at the cycle of its end, a core's at once. -/
theorem powerDomains : Obligations.PowerDomains := by
  refine ⟨fun s c u hstop => ?_, fun s c => ?_⟩
  · intro x
    refine ⟨fun h => ?_, fun h => ?_, exec_unitShutdownDone_stands, exec_unitPowerUpDone_stands⟩
    · obtain ⟨hstore, hplanes, hkettle, hstats, hothers, hmem, htrace⟩ :=
        s.unitsAt c.val (x.since + (if u = .array then 256 else 96)) (fun k => k.unitsOnly_setUnit u _)
      refine ⟨_, exec_unitShutdownDone h, ?_, hstore, hplanes, hkettle, hstats, hothers, hmem, htrace, fun _ => s.le_toCycle_cycles _ hstop⟩
      rw [State.core_updCore_self, Core.unit_setUnit_self]
      exact apply_ite UnitSt.st ..
    · obtain ⟨hstore, hplanes, hkettle, -, hothers, hmem, htrace⟩ :=
        s.unitsAt c.val (x.since + (if u = .array then 1024 else 384)) (fun k => k.unitsOnly_setUnit_count u _ 0x150 _)
      refine ⟨_, exec_unitPowerUpDone h, ?_, hstore, hplanes, hkettle, hothers, hmem, htrace, fun _ => s.le_toCycle_cycles _ hstop⟩
      rw [State.core_updCore_self, Core.unit_count, Core.unit_setUnit_self]
  · intro k
    refine ⟨fun hok hon hp => ⟨_, exec_corePowerDown_begins hok hon hp, State.onlyCore_setCore .., ?_⟩,
      fun h => ⟨_, exec_corePowerDown_ends h, State.onlyCore_setCore .., ?_⟩, fun h => ⟨_, exec_corePowerUp h, State.onlyCore_setCore .., ?_⟩,
      exec_corePowerDown_stands⟩ <;> rw [State.core_setCore_self]
    · exact ⟨rfl, rfl, rfl, rfl⟩
    · cases hp : (s.core c.val).program <;> simp [k, hp]
    · exact ⟨rfl, rfl, rfl, rfl, rfl, rfl, rfl, rfl, fun u => by cases u <;> rfl, rfl⟩
end

-- ==== Sys2Proof/Proofs/ProgramBroadcast.lean ====

section
namespace Sys2Proof.Machine

/-! ### Absent cores (R74) -/

@[simp] theorem State.planChange_cores (s : State) (f : Plan → Plan) : (s.planChange f).cores = s.cores := by
  unfold State.planChange
  split
  · exact State.measChanged_cores ..
  · rfl

@[simp] theorem State.planChange_host (s : State) (f : Plan → Plan) : (s.planChange f).host = s.host := by
  unfold State.planChange
  split
  · exact State.mark_host ..
  · rfl

@[simp] theorem State.absent_cores (s : State) (c cause : Nat) : (s.absent c cause).cores = s.cores := by
  unfold State.absent
  split
  · rfl
  · split
    · rfl
    · exact (State.mark_cores ..).trans (State.planChange_cores ..)

@[simp] theorem State.absent_host (s : State) (c cause : Nat) : (s.absent c cause).host = s.host := by
  unfold State.absent
  split
  · rfl
  · split
    · rfl
    · exact (State.mark_host ..).trans (State.planChange_host ..)

/-! ### Completions leave the broadcast -/

@[simp] theorem State.settleRing_broadcast (s : State) (r : Nat) : (s.settleRing r).host.broadcast = s.host.broadcast := by
  unfold State.settleRing
  simp only []
  split <;> rfl

@[simp] theorem State.portFail_broadcast (s : State) (r : Nat) : (s.portFail r).host.broadcast = s.host.broadcast := by
  unfold State.portFail
  split <;> rfl

@[simp] theorem State.complete_broadcast (s : State) (d : Desc) (st a b : Nat) : (s.complete d st a b).host.broadcast = s.host.broadcast := by
  unfold State.complete State.completeAt
  simp only [State.settleRing_broadcast, State.markAt_host]
  split
  · exact State.portFail_broadcast ..
  · rw [State.emit_host]
    exact State.portFail_broadcast ..

/-! ### Chunks (R280) -/

section
variable {s : State} {b : Broadcast} (hb : s.host.broadcast = some b)
include hb

/-- A chunk that is refused: its own CRC, or that of the image's chunk, does not fit. -/
theorem exec_programChunk_refused {c : CoreIx} {i : Nat} {data : List W64} {crc : W32}
    (h : crc32c (data.flatMap (fun w => leBytes 8 w.toNat)) ≠ crc
      ∨ crc32c ((mgetRun 0 b.image (512 * i) (min 512 (b.len - 512 * i))).flatMap (fun w => leBytes 8 w.toNat)) ≠ crc) :
    exec (.programChunk c i data crc) s = .next s := by
  show execProgramChunk c i data crc s = _
  simp only [execProgramChunk, hb]
  refine if_pos ?_
  simp only [Bool.or_eq_true, bne_iff_ne]
  rcases h with h | h
  · exact .inr h
  · exact .inl (.inr h)

/-- A chunk that a target takes is written to its place; the set of good chunks is the broadcast's own matter. -/
theorem exec_programChunk_taken {c : CoreIx} {i : Nat} {data : List W64} {crc : W32} {p : Program} (hc : c.val ∈ b.targets)
    (hon : (s.core c.val).power = .on) (hp : (s.core c.val).program = some p) (hi : i < b.chunks) (hlen : data.length = min 512 (b.len - 512 * i))
    (hcrc : crc32c (data.flatMap (fun w => leBytes 8 w.toNat)) = crc)
    (hsent : crc32c ((mgetRun 0 b.image (512 * i) (min 512 (b.len - 512 * i))).flatMap (fun w => leBytes 8 w.toNat)) = crc) :
    ∃ h : HostSt, exec (.programChunk c i data crc) s
      = .next { s.setCore c.val { s.core c.val with program := some { p with words := msetRun 0 p.words (512 * i) data } } with host := h } := by
  show ∃ h : HostSt, execProgramChunk c i data crc s = _
  simp only [execProgramChunk, hb, hp]
  exact ⟨_, (if_neg (by simpa [hc, hon, hi, hlen, hcrc] using hsent)).trans rfl⟩

/-! ### The repair (R281) -/

theorem exec_broadcastRepair_again (hmiss : b.missing ≠ []) (htries : b.tries < 3) :
    exec .broadcastRepair s = .next { s with host := { s.host with broadcast := some { b with tries := b.tries + 1 } } } := by
  show execBroadcastRepair s = _
  simp only [execBroadcastRepair, hb]
  exact (if_neg (by simpa using hmiss)).trans (if_pos htries)

theorem exec_broadcastRepair_over (h : b.missing = [] ∨ 3 ≤ b.tries) : exec .broadcastRepair s = .next (s.loadEnd b b.missing) := by
  show execBroadcastRepair s = _
  simp only [execBroadcastRepair, hb]
  by_cases hmiss : b.missing = []
  · rw [hmiss]
    rfl
  · exact (if_neg (by simpa using hmiss)).trans (if_neg (Nat.not_lt.mpr (h.resolve_left hmiss)))

end

/-- The cores that miss a chunk lose their program and become absent. -/
def State.dropPrograms (s : State) (l : List Nat) : State := l.foldl (fun t c => (t.updCore c (fun k => { k with program := none })).absent c 5) s

theorem State.dropPrograms_program (l : List Nat) (s : State) (d : Nat) :
    ((s.dropPrograms l).core d).program = if d ∈ l then none else (s.core d).program := by
  induction l generalizing s with
  | nil => simp [State.dropPrograms]
  | cons c l ih =>
    refine (ih _).trans ?_
    have hcore : ((s.updCore c (fun k => { k with program := none })).absent c 5).core d = (s.updCore c (fun k => { k with program := none })).core d :=
      congrArg (fun m => mget ({} : Core) m d) (State.absent_cores ..)
    rw [hcore]
    by_cases hd : d = c
    · subst hd
      simp
    · simp [hd, State.core_updCore_ne _ _ _ _ hd]

theorem State.dropPrograms_host (l : List Nat) (s : State) : (s.dropPrograms l).host = s.host :=
  List.foldlRecOn (motive := fun t : State => t.host = s.host) l _ rfl (fun _ ht _ _ => (State.absent_host ..).trans ht)

/-- The end of a load: the broadcast is over, and the cores are as the missing ones' loss leaves them. -/
theorem State.loadEnd_spec (s : State) (b : Broadcast) (l : List Nat) :
    (s.loadEnd b l).host.broadcast = none
      ∧ (s.loadEnd b l).cores = (({ s with host := { s.host with broadcast := none } } : State).dropPrograms l).cores := by
  have hhost := State.dropPrograms_host l { s with host := { s.host with broadcast := none } }
  have hnone : (({ s with host := { s.host with broadcast := none } } : State).dropPrograms l).host.broadcast = none := by rw [hhost]
  unfold State.loadEnd
  simp only []
  split
  · exact ⟨hnone, rfl⟩
  · exact ⟨(State.complete_broadcast ..).trans hnone, State.complete_cores ..⟩

end Sys2Proof.Machine

open Sys2Proof Sys2Proof.Machine

/-- Settles O15: a chunk by its checks, and the repair by whether it goes on or ends the load. -/
theorem programBroadcast : Obligations.ProgramBroadcast := by
  intro s c b p i data crc hb bytes n
  refine ⟨fun hc hon hp hi hlen hcrc hsent => ?_, fun h => exec_programChunk_refused hb (.inl h), fun h => exec_programChunk_refused hb (.inr h),
    fun hmiss htries => ⟨_, exec_broadcastRepair_again hb hmiss htries, rfl, rfl⟩, fun hmiss => ?_, fun _ htries => ?_⟩
  · obtain ⟨h, hexec⟩ := exec_programChunk_taken hb hc hon hp hi hlen hcrc hsent
    exact ⟨_, { p with words := msetRun 0 p.words (512 * i) data }, hexec, congrArg Core.program (State.core_setCore_self s c.val _), rfl, rfl,
      fun d hd => State.core_setCore_ne s c.val d _ hd, rfl⟩
  · obtain ⟨hover, hcores⟩ := s.loadEnd_spec b b.missing
    refine ⟨_, exec_broadcastRepair_over hb (.inl hmiss), hover, hcores.trans ?_⟩
    rw [hmiss]
    rfl
  · obtain ⟨hover, hcores⟩ := s.loadEnd_spec b b.missing
    refine ⟨_, exec_broadcastRepair_over hb (.inr htries), hover, fun d hd => ?_⟩
    rw [State.core, hcores]
    exact (State.dropPrograms_program b.missing _ d).trans (if_pos hd)
end

-- ==== Sys2Proof/Proofs/OperationsEnd.lean ====

section
namespace Sys2Proof.Machine

/-! ### What the end of an operation may change of its core -/

/-- The core but for its lists of running operations. -/
def Core.runsOnly (k k' : Core) : Prop :=
  { k' with arrayRun := k.arrayRun, mergeRun := k.mergeRun, vecRun := k.vecRun, rowRun := k.rowRun, accRun := k.accRun } = k

/-- The core but for its streams, its counters and the states of its units. -/
def Core.endOnly (k k' : Core) : Prop :=
  { k' with fwd := k.fwd, bwd := k.bwd, upd := k.upd, ctrs := k.ctrs, ctrPast := k.ctrPast, lately := k.lately, counters := k.counters
            uArray := k.uArray, uMerge := k.uMerge, uVec := k.uVec, uRow := k.uRow } = k

theorem Core.runsOnly.stream {k k' : Core} (h : k.runsOnly k') (f : StreamId) : k'.stream f = k.stream f := by
  have hf := congrArg (fun q : Core => q.stream f) h
  cases f <;> exact hf

theorem Core.runsOnly.queue {k k' : Core} (h : k.runsOnly k') (e : Eng) : k'.queue e = k.queue e := by
  have hq := congrArg (fun q : Core => q.queue e) h
  cases e <;> exact hq

theorem Core.endOnly.queue {k k' : Core} (h : k.endOnly k') (e : Eng) : k'.queue e = k.queue e := by
  have hq := congrArg (fun q : Core => q.queue e) h
  cases e <;> exact hq

theorem Core.endOnly.running {k k' : Core} (h : k.endOnly k') (e : Eng) : k'.running e = k.running e := by
  have hr := congrArg (fun q : Core => q.running e) h
  cases e <;> exact hr

/-- The core without the first running operation of an engine. -/
def Core.dropFirst (e : Eng) (k : Core) : Core :=
  match e with
  | .array => { k with arrayRun := k.arrayRun.drop 1 }
  | .merge => { k with mergeRun := none }
  | .vec => { k with vecRun := none }
  | .row => { k with rowRun := none }
  | .acc => { k with accRun := none }

theorem Core.runsOnly_dropFirst (e : Eng) (k : Core) : k.runsOnly (k.dropFirst e) := by
  cases e <;> rfl

/-! ### The stream and the counters at an operation's end (R263, R267, R271) -/

/-- A stream when one of its operations has ended. -/
def Stream.ended (x : Stream) (e : Eng) (r : Running) : Stream :=
  let y := { x with sums := x.sums.after e r.op.id r.op.opc r.status r.vals }
  if 0x20 ≤ r.status then y.fail r.status r.op.pc else y

theorem Stream.ended_sums (x : Stream) (e : Eng) (r : Running) : (x.ended e r).sums = x.sums.after e r.op.id r.op.opc r.status r.vals := by
  unfold Stream.ended
  simp only []
  split
  · exact (Stream.fail_spec ..).2.2.2.1
  · rfl

/-- A completion leaves the stream's phase. -/
theorem Stream.ended_phase_ok (x : Stream) (e : Eng) (r : Running) (h : r.status < 0x20) : (x.ended e r).phase = x.phase :=
  (congrArg Stream.phase (if_neg (Nat.not_le.mpr h))).trans rfl

/-- A failure stops a running stream whose ON_STATUS is STOP. -/
theorem Stream.ended_stops (x : Stream) (e : Eng) (r : Running) (h : 0x20 ≤ r.status) (hrun : x.phase = .running) (hstop : x.cont = false) :
    (x.ended e r).phase = .stopped := by
  refine (congrArg Stream.phase (if_pos h)).trans ?_
  simp [Stream.fail, hrun, hstop, apply_ite Stream.cont]

/-- What an operation's ONEND update makes of the core counters. -/
def Op.onendCtrs (o : Op) (m : Mem W32) : Mem W32 :=
  match o.onend with
  | none => m
  | some (i, n) => mset 0 m i (mget 0 m i + BitVec.ofNat 32 n)

/-- The end of an operation: its stream, the counters, and nothing else that another operation uses. -/
theorem State.endOp_ends (s : State) (c : Nat) (e : Eng) (r : Running) :
    (s.core c).endOnly ((s.endOp c e r).core c) ∧ ((s.endOp c e r).core c).stream r.op.stream = ((s.core c).stream r.op.stream).ended e r
      ∧ ((s.endOp c e r).core c).ctrs = r.op.onendCtrs (s.core c).ctrs := by
  delta State.endOp
  extract_lets k0 x k x1 x2 k1 k2
  have hx : x = (s.core c).stream r.op.stream := by
    unfold x
    cases r.op.stream <;> rfl
  have hk : (s.core c).endOnly k ∧ k.ctrs = (s.core c).ctrs := by
    unfold k
    split <;> exact ⟨rfl, rfl⟩
  have hk1 : (s.core c).endOnly k1 ∧ k1.stream r.op.stream = x2 ∧ k1.ctrs = (s.core c).ctrs := by
    refine ⟨?_, Core.stream_setStream_self .., (Core.setStream_ctrs ..).trans hk.2⟩
    unfold k1
    cases r.op.stream <;> exact hk.1
  have hk2 : (s.core c).endOnly k2 ∧ k2.stream r.op.stream = x2 ∧ k2.ctrs = r.op.onendCtrs (s.core c).ctrs := by
    obtain ⟨honly, hstream, hctrs⟩ := hk1
    unfold k2 Op.onendCtrs
    cases r.op.onend with
    | none => exact ⟨honly, hstream, hctrs⟩
    | some p =>
      refine ⟨honly, Eq.trans ?_ hstream, ?_⟩
      · cases r.op.stream <;> rfl
      · rw [← hctrs]
        rfl
  have hx2 : x2 = ((s.core c).stream r.op.stream).ended e r := by rw [← hx]; rfl
  rw [← hx2]
  split
  · rw [show ((s.setCore c (k2.count 0x158 1)).seqFault c r.op.stream r.status r.op.opc r.op.pc).core c = k2.count 0x158 1 from
      (congrArg (fun m => mget ({} : Core) m c) (State.seqFault_cores ..)).trans (State.core_setCore_self ..)]
    exact ⟨hk2.1, (Core.count_stream ..).trans hk2.2.1, hk2.2.2⟩
  · rw [State.core_setCore_self]
    exact hk2

/-- A completion records nothing. -/
theorem State.endOp_trace (s : State) (c : Nat) (e : Eng) (r : Running) (h : r.status < 0x20) : (s.endOp c e r).trace = s.trace :=
  (congrArg State.trace (if_neg (Nat.not_le.mpr h))).trans rfl

/-! ### The end of an operation in its cycle -/

/-- An operation of a core has ended on an engine, at a cycle to which the clocks have run. -/
def State.opEnds (s t : State) (c : Nat) (e : Eng) (r : Running) : Prop :=
  let k := s.core c
  let x := k.stream r.op.stream
  s.coreAndClock t c
    ∧ ((t.core c).stream r.op.stream).sums = x.sums.after e r.op.id r.op.opc r.status r.vals
    ∧ (t.core c).ctrs = r.op.onendCtrs k.ctrs
    ∧ (r.status < 0x20 → ((t.core c).stream r.op.stream).phase = x.phase ∧ t.trace = s.trace)
    ∧ (0x20 ≤ r.status → x.phase = .running → x.cont = false → ((t.core c).stream r.op.stream).phase = .stopped)
    ∧ (t.core c).store = ((s.toTime t.time.now).core c).store ∧ (t.core c).pot = ((s.toTime t.time.now).core c).pot
    ∧ (t.core c).planes = ((s.toTime t.time.now).core c).planes ∧ ∀ d, (t.core c).queue d = k.queue d

theorem State.coreAndClock.of_ended {s u t : State} {c : Nat} (h : s.coreAndClock u c) (hrest : { t with cores := u.cores, trace := u.trace } = u)
    (hothers : ∀ d, d ≠ c → t.core d = u.core d) : s.coreAndClock t c := by
  obtain ⟨hs, hcores⟩ := h
  have htime : t.time = u.time := (congrArg State.time hrest :)
  refine ⟨(congrArg (fun q : State => { q with cores := s.cores, time := s.time, clk := s.clk, power := s.power, trace := s.trace, freeIx := s.freeIx }) hrest).trans hs,
    fun d hd => ?_⟩
  rw [hothers d hd, htime]
  exact hcores d hd

/-- The state in which an operation's engine has let it go, its stream has its end, and its units settle. -/
def State.opGone (s : State) (c n : Nat) (e : Eng) (r : Running) (g : Core → Core) : State :=
  (((s.toCycle n).updCore c g).endOp c e r).updCore c (fun k => k.settleUnits ((s.toCycle n).updCore c g).cycles)

theorem State.opGone_core (s : State) (c n : Nat) (e : Eng) (r : Running) (g : Core → Core) :
    let k := g ((s.toCycle n).core c)
    let k' := (s.opGone c n e r g).core c
    k.endOnly k' ∧ k'.stream r.op.stream = (k.stream r.op.stream).ended e r ∧ k'.ctrs = r.op.onendCtrs k.ctrs := by
  have hends := ((s.toCycle n).updCore c g).endOp_ends c e r
  rw [State.core_updCore_self] at hends
  obtain ⟨honly, hstream, hctrs⟩ := hends
  simp only [State.opGone, State.core_updCore_self]
  refine ⟨honly, Eq.trans ?_ hstream, hctrs⟩
  cases r.op.stream <;> rfl

theorem State.opGone_rest (s : State) (c n : Nat) (e : Eng) (r : Running) (g : Core → Core) :
    { s.opGone c n e r g with cores := ((s.toCycle n).updCore c g).cores, trace := ((s.toCycle n).updCore c g).trace } = (s.toCycle n).updCore c g :=
  State.endOp_only ..

/-- The cycle of the end, told by the time of the state that it leaves. -/
theorem State.toCycle_core_opGone (s : State) (c n : Nat) (e : Eng) (r : Running) (g : Core → Core) :
    (s.toCycle n).core c = (s.toTime (s.opGone c n e r g).time.now).core c := by
  have hnow : (s.opGone c n e r g).time.now = (s.toCycle n).time.now := (congrArg (fun q : State => q.time.now) (s.opGone_rest c n e r g) :)
  rw [hnow]
  exact (s.toCycle_only n).core c

/-- The end of an operation, whose engine lets it go in a cycle to come. -/
theorem State.opGone_ends (s : State) (c n : Nat) (e : Eng) (r : Running) {g : Core → Core} (hg : ∀ k : Core, k.runsOnly (g k)) :
    s.opEnds (s.opGone c n e r g) c e r := by
  obtain ⟨hend, hstream, hctrs⟩ := s.opGone_core c n e r g
  have hclock := s.toCycle_only n
  have harray := s.toCycle_core n c
  have hruns := hg ((s.toCycle n).core c)
  have hnow := s.toCycle_core_opGone c n e r g
  have hothers : ∀ d, d ≠ c → (s.opGone c n e r g).core d = ((s.toCycle n).updCore c g).core d := fun d hd =>
    (State.core_updCore_ne _ _ _ _ hd).trans (State.endOp_core_ne _ _ _ _ _ hd)
  have hx : (g ((s.toCycle n).core c)).stream r.op.stream = (s.core c).stream r.op.stream := (hruns.stream _).trans (harray.stream _)
  rw [hx] at hstream
  have hk : (g ((s.toCycle n).core c)).ctrs = (s.core c).ctrs := (congrArg Core.ctrs hruns :).trans (congrArg Core.ctrs harray :)
  refine ⟨(hclock.coreAndClock_updCore c g).of_ended (s.opGone_rest c n e r g) hothers, ?_, ?_, fun hok => ⟨?_, ?_⟩, fun hbad hrun hstop => ?_, ?_, ?_, ?_, fun d => ?_⟩
  · rw [hstream, Stream.ended_sums]
  · rw [hctrs, hk]
  · rw [hstream, Stream.ended_phase_ok _ _ _ hok]
  · exact (State.endOp_trace _ _ _ _ hok).trans (congrArg State.trace hclock.1 :)
  · rw [hstream, Stream.ended_stops _ _ _ hbad hrun hstop]
  · rw [← hnow]
    exact (congrArg Core.store hend :).trans (congrArg Core.store hruns :)
  · rw [← hnow]
    exact (congrArg Core.pot hend :).trans (congrArg Core.pot hruns :)
  · rw [← hnow]
    exact (congrArg Core.planes hend :).trans (congrArg Core.planes hruns :)
  · exact (hend.queue d).trans ((hruns.queue d).trans (harray.queue d))

theorem State.opGone_running (s : State) (c n : Nat) (e d : Eng) (r : Running) (g : Core → Core) :
    ((s.opGone c n e r g).core c).running d = (g ((s.toCycle n).core c)).running d :=
  (s.opGone_core c n e r g).1.running d

/-! ### The engines that run one operation at a time -/

/-- An engine's operation that waits for nothing retires. -/
theorem State.retire_ends (s : State) (c : Nat) (e : Eng) (r : Running) (l : List Running) (hrun : (s.core c).running e = r :: l)
    (hhost : r.waitHost = false) (hline : s.lineHeld c r.op.id = false) :
    s.retire c e = s.opGone c (r.started + r.cycles) e r (Core.dropFirst e) := by
  simp only [State.retire, hrun, hhost, hline, Bool.or_self, Bool.false_eq_true, if_false]
  cases e <;> rfl

/-- An operation that waits for a host completion, or for a line that a controller holds, goes on (R329, R389). -/
theorem State.retire_waits (s : State) (c : Nat) (e : Eng) (r : Running) (l : List Running) (hrun : (s.core c).running e = r :: l)
    (hwait : r.waitHost = true ∨ s.lineHeld c r.op.id = true) : s.retire c e = s := by
  simp only [State.retire, hrun]
  exact if_pos (by simpa using hwait)

/-- An engine that runs an operation starts none. -/
theorem State.head_of_running (s : State) (c : Nat) (e : Eng) (opc : Nat) (r : Running) (l : List Running) (hrun : (s.core c).running e = r :: l) :
    s.head c e opc = none := by
  refine Option.eq_none_iff_forall_ne_some.mpr (fun o ho => ?_)
  obtain ⟨-, -, -, hnone, -, -⟩ := s.head_spec c e opc o ho
  exact List.cons_ne_nil _ _ (hrun.symm.trans hnone)

theorem exec_mergeOpEnd_running (s : State) (c : CoreIx) (r : Running) (h : (s.core c.val).mergeRun = some r) :
    exec (.mergeOpEnd c) s = .next (s.retire c.val .merge) := by
  have hhead := fun opc => s.head_of_running c.val .merge opc r [] (congrArg Option.toList h)
  show execMergeOpEnd c s = _
  simp only [execMergeOpEnd, hhead]
  split <;> simp

theorem exec_rowOpEnd_running (s : State) (c : CoreIx) (r : Running) (h : (s.core c.val).rowRun = some r) :
    exec (.rowOpEnd c) s = .next (s.retire c.val .row) := by
  have hhead := fun opc => s.head_of_running c.val .row opc r [] (congrArg Option.toList h)
  show execRowOpEnd c s = _
  simp only [execRowOpEnd, hhead]

theorem exec_accessOpEnd_running (s : State) (c : CoreIx) (r : Running) (h : (s.core c.val).accRun = some r) :
    exec (.accessOpEnd c) s = .next (s.retire c.val .acc) := by
  have hhead := fun opc => s.head_of_running c.val .acc opc r [] (congrArg Option.toList h)
  show execAccessOpEnd c s = _
  simp only [execAccessOpEnd, hhead]

/-- The one running operation of an engine ends: its summaries and its update are given, and the engine is free. -/
theorem State.retire_opEnds {s : State} {c : Nat} {e : Eng} {r : Running} (hrun : (s.core c).running e = [r]) (hhost : r.waitHost = false)
    (hline : s.lineHeld c r.op.id = false) (he : ∀ k : Core, (k.dropFirst e).running e = []) :
    s.opEnds (s.retire c e) c e r ∧ ((s.retire c e).core c).running e = [] := by
  rw [s.retire_ends c e r [] hrun hhost hline]
  exact ⟨s.opGone_ends _ _ _ _ (Core.runsOnly_dropFirst e), (s.opGone_running ..).trans (he _)⟩

/-! ### The array -/

/-- An operation that is neither at its feeder nor on the load port has come to its end. -/
theorem State.toEnd_of_out (s : State) (c id : Nat) (h : (s.core c).inHand id = false) : s.toEnd c id = some s := by
  obtain ⟨n, hn⟩ := Nat.exists_eq_add_of_le' (show 1 ≤ (s.core c).arrayBound by unfold Core.arrayBound; omega)
  simp [State.toEnd, hn, State.endsIn, h, s.toCycle_past s.cycles le_rfl]

/-- The core without an operation of the array. -/
def Core.dropArrayOp (id : Nat) (k : Core) : Core := { k with arrayRun := k.arrayRun.filter (fun q => q.op.id != id) }

theorem Core.runsOnly_dropArrayOp (id : Nat) (k : Core) : k.runsOnly (k.dropArrayOp id) := rfl

theorem State.arrayRetire_opGone (s : State) (c : Nat) (r : Running) (hfind : (s.core c).arrayRun.find? (fun q => q.op.id == r.op.id) = some r) :
    s.arrayRetire c r.op.id = s.opGone c (r.started + r.cycles) .array r (Core.dropArrayOp r.op.id) := by
  simp only [State.arrayRetire, hfind]
  rfl

/-- An operation of the array ends: the array's others stay. -/
theorem State.arrayRetire_opEnds {s : State} {c : Nat} {r : Running} (hfind : (s.core c).arrayRun.find? (fun q => q.op.id == r.op.id) = some r) :
    let t := s.arrayRetire c r.op.id
    s.opEnds t c .array r ∧ (t.core c).arrayRun = ((s.toTime t.time.now).core c).arrayRun.filter (fun q => q.op.id != r.op.id) := by
  rw [s.arrayRetire_opGone c r hfind]
  refine ⟨s.opGone_ends _ _ _ _ (Core.runsOnly_dropArrayOp _), (s.opGone_running c _ .array .array r _).trans ?_⟩
  rw [← s.toCycle_core_opGone c _ .array r (Core.dropArrayOp r.op.id)]
  rfl

end Sys2Proof.Machine

open Sys2Proof Sys2Proof.Machine

/-- Settles O21: the array's operation leaves its list, every other engine's is its only one; an operation that waits keeps its engine. -/
theorem engineOperationsEnd : Obligations.EngineOperationsEnd := by
  refine ⟨fun s c n r hhost hline => ⟨fun hr hfind hout => ?_, fun h => ?_, fun h => ?_, fun h => ?_, fun h => ?_⟩,
    fun s c r hwait => ⟨fun h => ?_, fun h => ?_⟩, fun s c n r hr hend => ?_⟩
  · exact ⟨_, execArrayOpEnd_retires s s c n r hr (s.toEnd_of_out c.val r.op.id hout) hout, State.arrayRetire_opEnds hfind⟩
  · obtain ⟨hends, hfree⟩ := State.retire_opEnds (e := .merge) (congrArg Option.toList h) hhost hline (fun _ => rfl)
    exact ⟨_, exec_mergeOpEnd_running s c r h, hends, Option.toList_eq_nil_iff.mp hfree⟩
  · obtain ⟨hends, hfree⟩ := State.retire_opEnds (e := .vec) (congrArg Option.toList h) hhost hline (fun _ => rfl)
    exact ⟨_, rfl, hends, Option.toList_eq_nil_iff.mp hfree⟩
  · obtain ⟨hends, hfree⟩ := State.retire_opEnds (e := .row) (congrArg Option.toList h) hhost hline (fun _ => rfl)
    exact ⟨_, exec_rowOpEnd_running s c r h, hends, Option.toList_eq_nil_iff.mp hfree⟩
  · obtain ⟨hends, hfree⟩ := State.retire_opEnds (e := .acc) (congrArg Option.toList h) hhost hline (fun _ => rfl)
    exact ⟨_, exec_accessOpEnd_running s c r h, hends, Option.toList_eq_nil_iff.mp hfree⟩
  · rw [exec_mergeOpEnd_running s c r h, s.retire_waits c.val .merge r [] (congrArg Option.toList h) hwait]
  · rw [exec_accessOpEnd_running s c r h, s.retire_waits c.val .acc r [] (congrArg Option.toList h) hwait]
  · show execArrayOpEnd c n s = _
    simp only [execArrayOpEnd, hr, hend]
end

-- ==== Sys2Proof/Proofs/ExpertMap.lean ====

section
namespace Sys2Proof.Machine

/-! ### The bits of an entry (R289) -/

theorem b2n_lt_two (a : Bool) : b2n a < 2 := by cases a <;> decide

/-- Bit 62 set to a value: the bits above and below it stand. -/
theorem toNat_exSet (e : W64) (a : Bool) : (exSet e a).toNat = 2 ^ 62 * (2 * (e.toNat / 2 ^ 63) + b2n a) + e.toNat % 2 ^ 62 := by
  have ha := b2n_lt_two a
  simp only [exSet, setBits, bits_eq_div, BitVec.toNat_ofNat]
  omega

theorem bit_exSet (e : W64) (a : Bool) (i : Nat) : bit (exSet e a).toNat i = if i = 62 then a else bit e.toNat i := by
  have ha := b2n_lt_two a
  rw [bit, toNat_exSet, Nat.testBit_two_pow_mul_add _ (Nat.mod_lt _ (by decide))]
  rcases Nat.lt_trichotomy i 62 with h | rfl | h
  · rw [if_pos h, if_neg h.ne, Nat.testBit_mod_two_pow, decide_eq_true h, Bool.true_and, bit]
  · cases a <;> simp [b2n]
  · have hhalf : (2 * (e.toNat / 2 ^ 63) + b2n a) / 2 = e.toNat / 2 ^ 63 := by omega
    rw [if_neg h.not_gt, if_neg h.ne', show i - 62 = i - 63 + 1 by omega, Nat.testBit_succ, hhalf, Nat.testBit_div_two_pow,
      show i - 63 + 63 = i by omega, bit]

@[simp] theorem exProv_exSet (e : W64) (a : Bool) : exProv (exSet e a) = exProv e := bit_exSet e a 63
@[simp] theorem exActive_exSet (e : W64) (a : Bool) : exActive (exSet e a) = a := bit_exSet e a 62
@[simp] theorem exPin_exSet (e : W64) (a : Bool) : exPin (exSet e a) = exPin e := bit_exSet e a 61
@[simp] theorem exPinActive_exSet (e : W64) (a : Bool) : exPinActive (exSet e a) = exPinActive e := bit_exSet e a 60

/-! ### The rules of R291 for one entry -/

@[simp] theorem exPin_exRule (x : W64) : exPin (exRule x) = exPin x := by
  unfold exRule
  split_ifs <;> simp

@[simp] theorem exProv_exRule (x : W64) : exProv (exRule x) = exProv x := by
  unfold exRule
  split_ifs <;> simp

theorem exActive_exRule_pinned (x : W64) (h : exPin x = true) : exActive (exRule x) = exPinActive (exRule x) := by
  simp [exRule, h]

theorem exActive_exRule_unprovisioned (x : W64) (hpin : exPin x = false) (hprov : exProv x = false) : exActive (exRule x) = false := by
  simp [exRule, hpin, hprov]

/-! ### A function applied to every value reads back, where it keeps the default -/

theorem mget_mmap {α : Type} [DecidableEq α] (d : α) (f : Nat → α → α) (m : Mem α) (i : Nat) (hm : mwf d m = true) (hd : f i d = d) :
    mget d (mmap d f m) i = f i (mget d m i) := by
  by_cases hf : f i (mget d m i) = d
  · rw [hf]
    by_contra hne
    obtain ⟨hin, -⟩ := List.mem_filter.1 (mem_of_mget_ne d _ i hne)
    obtain ⟨⟨k, v⟩, hv, heq⟩ := List.mem_map.1 hin
    obtain ⟨rfl, hval⟩ := Prod.mk.inj heq
    exact hne (hval.symm.trans ((mget_of_mem d m k v 0 hm hv).2 ▸ hf))
  · have hlisted : mget d m i ≠ d := fun h => hf (h.symm ▸ hd)
    have hin := List.mem_map_of_mem (f := fun p : Nat × α => (p.1, f p.1 p.2)) (mem_of_mget_ne d m i hlisted)
    exact (mget_of_mem d _ i _ 0 (mwf_mmap d f m hm) (List.mem_filter.2 ⟨hin, decide_eq_true hf⟩)).2

/-! ### Entries made active for their experts (R291) -/

/-- Whether an entry is a replica that its expert may wake: provisioned, with no pin. -/
def exFree (e : W64) : Bool := exProv e && !exPin e

/-- One map comes from another by making free entries active. -/
structure mapWoken (m m' : Mem W64) : Prop where
  prov (i : Nat) : exProv (mget 0 m' i) = exProv (mget 0 m i)
  pin (i : Nat) : exPin (mget 0 m' i) = exPin (mget 0 m i)
  active (i : Nat) : exActive (mget 0 m i) = true → exActive (mget 0 m' i) = true
  stands (i : Nat) : exFree (mget 0 m i) = false → mget 0 m' i = mget 0 m i

theorem mapWoken.refl (m : Mem W64) : mapWoken m m := ⟨fun _ => rfl, fun _ => rfl, fun _ => id, fun _ _ => rfl⟩

theorem mapWoken.free {m m' : Mem W64} (h : mapWoken m m') (i : Nat) : exFree (mget 0 m' i) = exFree (mget 0 m i) := by
  rw [exFree, h.prov, h.pin, exFree]

theorem mapWoken.trans {m m' m'' : Mem W64} (h : mapWoken m m') (g : mapWoken m' m'') : mapWoken m m'' where
  prov i := (g.prov i).trans (h.prov i)
  pin i := (g.pin i).trans (h.pin i)
  active i := g.active i ∘ h.active i
  stands i hi := (g.stands i ((h.free i).trans hi)).trans (h.stands i hi)

theorem mapWoken_mset (m : Mem W64) (j : Nat) (hj : exFree (mget 0 m j) = true) : mapWoken m (mset 0 m j (exSet (mget 0 m j) true)) := by
  have hread (i : Nat) : mget 0 (mset 0 m j (exSet (mget 0 m j) true)) i = mget 0 m i
      ∨ (exFree (mget 0 m i) = true ∧ mget 0 (mset 0 m j (exSet (mget 0 m j) true)) i = exSet (mget 0 m i) true) := by
    by_cases h : i = j
    · exact .inr ⟨h ▸ hj, by rw [h, mget_mset_self]⟩
    · exact .inl (mget_mset_ne _ _ _ _ _ h)
  constructor <;> intro i <;> rcases hread i with h | ⟨hfree, h⟩ <;> rw [h]
  · rw [exProv_exSet]
  · rw [exPin_exSet]
  · exact id
  · exact fun _ => exActive_exSet ..
  · exact fun _ => rfl
  · exact fun hno => absurd hfree (by rw [hno]; decide)

/-- An expert's turn: nothing, where a replica is active already or none is free; else one free replica made active. -/
theorem exWake_cases (m : Mem W64) (e : Nat) :
    (exWake m e = m ∧ ((∃ r < 8, exActive (mget 0 m (8 * e + r)) = true) ∨ ∀ r < 8, exFree (mget 0 m (8 * e + r)) = false))
    ∨ ∃ r < 8, exFree (mget 0 m (8 * e + r)) = true ∧ exWake m e = mset 0 m (8 * e + r) (exSet (mget 0 m (8 * e + r)) true) := by
  unfold exWake
  simp only []
  split_ifs with hany
  · exact .inl ⟨rfl, .inl (by simpa using hany)⟩
  · split
    next j hj =>
      obtain ⟨r, hr, rfl⟩ := List.mem_map.1 (List.mem_of_find?_eq_some hj)
      exact .inr ⟨r, List.mem_range.1 hr, List.find?_some (p := fun i => exFree (mget 0 m i)) hj, rfl⟩
    next hnone =>
      refine .inl ⟨rfl, .inr fun r hr => Bool.eq_false_of_not_eq_true ?_⟩
      exact List.find?_eq_none.1 hnone (8 * e + r) (List.mem_map.2 ⟨r, List.mem_range.2 hr, rfl⟩)

theorem mapWoken_exWake (m : Mem W64) (e : Nat) : mapWoken m (exWake m e) := by
  rcases exWake_cases m e with ⟨h, -⟩ | ⟨r, -, hfree, h⟩ <;> rw [h]
  · exact .refl m
  · exact mapWoken_mset m _ hfree

theorem mapWoken_foldl (l : List Nat) (m : Mem W64) : mapWoken m (l.foldl exWake m) :=
  List.foldlRecOn (motive := mapWoken m) l _ (.refl m) fun a h e _ => h.trans (mapWoken_exWake a e)

/-- An expert with a free replica has an active one after its turn. -/
theorem exWake_active (m : Mem W64) (e : Nat) (h : ∃ r < 8, exFree (mget 0 m (8 * e + r)) = true) :
    ∃ r < 8, exActive (mget 0 (exWake m e) (8 * e + r)) = true := by
  obtain ⟨r, hr, hfree⟩ := h
  rcases exWake_cases m e with ⟨heq, hactive | hnone⟩ | ⟨j, hj, -, heq⟩
  · exact heq.symm ▸ hactive
  · exact absurd hfree (by rw [hnone r hr]; decide)
  · exact ⟨j, hj, by rw [heq, mget_mset_self, exActive_exSet]⟩

/-- After the turns of many experts, each of them with a free replica has an active one. -/
theorem foldl_exWake_active (l : List Nat) (m : Mem W64) (e : Nat) (he : e ∈ l) (h : ∃ r < 8, exFree (mget 0 m (8 * e + r)) = true) :
    ∃ r < 8, exActive (mget 0 (l.foldl exWake m) (8 * e + r)) = true := by
  induction l generalizing m with
  | nil => cases he
  | cons x l ih =>
    rcases List.mem_cons.1 he with rfl | hl
    · obtain ⟨r, hr, ha⟩ := exWake_active m e h
      exact ⟨r, hr, (mapWoken_foldl l _).active _ ha⟩
    · obtain ⟨r, hr, hfree⟩ := h
      exact ih _ hl ⟨r, hr, ((mapWoken_exWake m x).free _).trans hfree⟩

/-! ### The map of a version (R291 to R293, R301) -/

/-- A version's entries with replica changes and software writes made and no rule of R291 applied. -/
def changedMap (m : Mem W64) (toggles : List Nat) (writes : List (Nat × W64)) : Mem W64 :=
  writes.foldl (fun a w => mset 0 a w.1 (exWrite (mget 0 a w.1) w.2)) (toggles.foldl (fun a i => mupd 0 a i (fun e => exSet e (!exActive e))) m)

/-- A version's entries with the rules for single entries applied, and no expert woken. -/
def ruledMap (m : Mem W64) (toggles : List Nat) (writes : List (Nat × W64)) : Mem W64 := mmap 0 (fun _ e => exRule e) (changedMap m toggles writes)

section
variable (m : Mem W64) (toggles : List Nat) (writes : List (Nat × W64))

theorem buildMap_eq : buildMap m toggles writes = (mapExperts (ruledMap m toggles writes)).foldl exWake (ruledMap m toggles writes) := rfl

theorem mapWoken_buildMap : mapWoken (ruledMap m toggles writes) (buildMap m toggles writes) := mapWoken_foldl ..

theorem mwf_changedMap (hm : mwf 0 m = true) : mwf 0 (changedMap m toggles writes) = true :=
  List.foldlRecOn (motive := fun a => mwf 0 a = true) writes _
    (List.foldlRecOn (motive := fun a => mwf 0 a = true) toggles _ hm fun a ha i _ => mwf_mupd 0 a i _ ha) fun a ha w _ => mwf_mset 0 a w.1 _ ha

theorem mget_ruledMap (hm : mwf 0 m = true) (i : Nat) : mget 0 (ruledMap m toggles writes) i = exRule (mget 0 (changedMap m toggles writes) i) :=
  mget_mmap 0 _ _ i (mwf_changedMap m toggles writes hm) (by decide)

end

theorem mem_mapExperts {m : Mem W64} {e r : Nat} (hr : r < 8) (h : mget 0 m (8 * e + r) ≠ 0) : e ∈ mapExperts m :=
  List.mem_dedup.2 (List.mem_map.2 ⟨_, mem_of_mget_ne 0 m _ h, by simp only []; omega⟩)

section
variable {m : Mem W64} (toggles : List Nat) (writes : List (Nat × W64))

theorem buildMap_pinned (hm : mwf 0 m = true) (i : Nat) (h : exPin (mget 0 (buildMap m toggles writes) i) = true) :
    exActive (mget 0 (buildMap m toggles writes) i) = exPinActive (mget 0 (buildMap m toggles writes) i) := by
  have hw := mapWoken_buildMap m toggles writes
  rw [hw.pin] at h
  rw [hw.stands i (by rw [exFree, h, Bool.not_true, Bool.and_false])]
  rw [mget_ruledMap m toggles writes hm] at h ⊢
  exact exActive_exRule_pinned _ (by simpa using h)

theorem buildMap_unprovisioned (hm : mwf 0 m = true) (i : Nat) (hpin : exPin (mget 0 (buildMap m toggles writes) i) = false)
    (hprov : exProv (mget 0 (buildMap m toggles writes) i) = false) : exActive (mget 0 (buildMap m toggles writes) i) = false := by
  have hw := mapWoken_buildMap m toggles writes
  rw [hw.pin] at hpin
  rw [hw.prov] at hprov
  rw [hw.stands i (by rw [exFree, hprov, Bool.false_and])]
  rw [mget_ruledMap m toggles writes hm] at hpin hprov ⊢
  exact exActive_exRule_unprovisioned _ (by simpa using hpin) (by simpa using hprov)

theorem buildMap_active (e : Nat) (h : ∃ r < 8, exProv (mget 0 (buildMap m toggles writes) (8 * e + r)) = true
      ∧ exPin (mget 0 (buildMap m toggles writes) (8 * e + r)) = false) :
    ∃ r < 8, exActive (mget 0 (buildMap m toggles writes) (8 * e + r)) = true := by
  obtain ⟨r, hr, hprov, hpin⟩ := h
  have hw := mapWoken_buildMap m toggles writes
  rw [hw.prov] at hprov
  rw [hw.pin] at hpin
  rw [buildMap_eq]
  have hlisted : mget 0 (ruledMap m toggles writes) (8 * e + r) ≠ 0 := fun h0 => absurd hprov (by rw [h0]; decide)
  exact foldl_exWake_active _ _ e (mem_mapExperts hr hlisted) ⟨r, hr, by rw [exFree, hprov, hpin]; rfl⟩

end

/-! ### Proposals (R297, R298, R302) -/

/-- An expert's turn changes nothing, or one replica where the limit leaves room. -/
theorem Proposal.change_toggles (p : Proposal) (limit code e : Nat) :
    (p.change limit code e).toggles = p.toggles ∨ (p.toggles.length < limit ∧ ∃ i, (p.change limit code e).toggles = p.toggles ++ [i]) := by
  unfold Proposal.change
  split
  case isTrue => exact .inl rfl
  case isFalse hroom =>
    simp only []
    generalize List.find? _ _ = found
    cases found with
    | none => exact .inl rfl
    | some i => exact .inr ⟨Nat.lt_of_not_le hroom, i, rfl⟩

theorem Proposal.change_length {p : Proposal} {limit : Nat} (code e : Nat) (h : p.toggles.length ≤ limit) :
    (p.change limit code e).toggles.length ≤ limit := by
  rcases p.change_toggles limit code e with heq | ⟨hroom, i, heq⟩
  · rwa [heq]
  · rwa [heq, List.length_append, List.length_singleton]

theorem Proposal.changes_length (limit code : Nat) (l : List Nat) {p : Proposal} (h : p.toggles.length ≤ limit) :
    (l.foldl (fun p e => p.change limit code e) p).toggles.length ≤ limit :=
  List.foldlRecOn (motive := fun q : Proposal => q.toggles.length ≤ limit) l _ h fun _ hq e _ => Proposal.change_length code e hq

theorem propose_length (m : Mem W64) (l : Nat → Nat) (x : ExpertCtrl) : (propose m l x).toggles.length ≤ max x.maxChanges 1 := by
  unfold propose
  simp only []
  split_ifs
  · exact Nat.zero_le _
  · exact Proposal.changes_length _ 1 _ (Proposal.changes_length _ 0 _ (Nat.zero_le _))

theorem propose_unloaded (m : Mem W64) (l : Nat → Nat) (x : ExpertCtrl) (h : ∀ e, l e = 0) : (propose m l x).toggles = [] := by
  have hsum (q : List Nat) : (q.map l).sum = 0 := List.sum_eq_zero fun n hn => by
    obtain ⟨e, -, rfl⟩ := List.mem_map.1 hn
    exact h e
  unfold propose
  simp only []
  rw [if_pos (hsum _)]

end Sys2Proof.Machine
end

-- ==== Sys2Proof/Proofs/ExpertVersions.lean ====

section
namespace Sys2Proof.Machine

/-! ### Reads of the Module Controller (R255, R405) -/

@[simp] theorem State.endReplay_cores (s : State) (c : Nat) : (s.endReplay c).cores = s.cores := by
  unfold State.endReplay
  simp only []
  split <;> simp [State.measChanged]

@[simp] theorem State.hostLine_cores (s : State) (u a : Nat) (hs : List HostReply) : (s.hostLine u a hs).1.cores = s.cores := by
  unfold State.hostLine
  split
  · simp only []
    split
    · split <;> simp
    · simp
  · split
    · rfl
    · split <;> simp

/-- A piece read leaves the module as it is, or asks the host for one line. -/
theorem McRun.piece_st (m : McRun) (va n : Nat) : (m.piece va n).st = m.st ∨ ∃ a, (m.piece va n).st = (m.st.hostLine mcUnit a m.host).1 := by
  unfold McRun.piece
  split
  · exact .inl rfl
  · split
    · exact .inl rfl
    next pa _ =>
      split
      · refine .inr ⟨pa / 64 * 64, ?_⟩
        split
        next heq => rw [heq]
        next heq => rw [heq]
        next heq => rw [heq]
      · exact .inl rfl

/-- The state but for what the Module Controller's own reads change: outputs, the recorder, a replay's measurement and the host's own record. -/
def State.mcRead (s t : State) : Prop := s.portOnly t ∧ t.cores = s.cores

theorem State.mcRead_run (s : State) (host : List HostReply) (va n : Nat) : s.mcRead ((McRun.start s host).run va n).st := by
  refine List.foldlRecOn (motive := fun m : McRun => s.mcRead m.st) _ _ ⟨s.portOnly_refl, rfl⟩ fun m ⟨hport, hcores⟩ p _ => ?_
  rcases m.piece_st p.1 p.2 with h | ⟨a, h⟩ <;> rw [h]
  · exact ⟨hport, hcores⟩
  · exact ⟨hport.trans (m.st.portOnly_hostLine ..), (m.st.hostLine_cores ..).trans hcores⟩

theorem State.mcRead.faultMark {s t : State} (h : s.mcRead t) (u st rest : Nat) : s.mcRead (t.faultMark u st rest) :=
  ⟨h.1.trans (t.portOnly_mark ..), (t.faultMark_cores ..).trans h.2⟩

/-! ### What waymarks of placement leave alone (R305) -/

@[simp] theorem State.placePolicy_experts (s : State) (code seq check : Nat) : (s.placePolicy code seq check).experts = s.experts := State.mark_experts ..
@[simp] theorem State.placePolicy_mem (s : State) (code seq check : Nat) : (s.placePolicy code seq check).mem = s.mem := State.mark_mem ..

@[simp] theorem State.placeConflict_cores (s : State) (code seq e : Nat) : (s.placeConflict code seq e).cores = s.cores := State.mark_cores ..
@[simp] theorem State.placeConflict_mem (s : State) (code seq e : Nat) : (s.placeConflict code seq e).mem = s.mem := State.mark_mem ..
@[simp] theorem State.placeConflict_experts (s : State) (code seq e : Nat) :
    (s.placeConflict code seq e).experts = { s.experts with conflicts := sat 32 (s.experts.conflicts + 1) } := State.mark_experts ..

/-! ### PLACEMENT_PROPOSAL (R300, R302, R304) -/

/-- The placement state without its count of policy conflicts. -/
def Experts.uncounted (x : Experts) : Experts := { x with conflicts := 0 }

theorem State.placeConflict_uncounted (s : State) (code seq e : Nat) : (s.placeConflict code seq e).experts.uncounted = s.experts.uncounted := by
  rw [State.placeConflict_experts, Experts.uncounted, Experts.uncounted]

/-- The awaited version with its replica changes. -/
def Version.withToggles (v : Version) (toggles : List Nat) : Version := { v with proposed := true, toggles := toggles }

section
variable (s : State) (v : Version) (p : Proposal)

theorem State.proposed_cores : (s.proposed v p).cores = s.cores :=
  State.foldl_keeps State.cores _ (fun t _ => t.placeConflict_cores ..) p.blocked _

theorem State.proposed_mem : (s.proposed v p).mem = s.mem :=
  State.foldl_keeps State.mem _ (fun t _ => t.placeConflict_mem ..) p.blocked _

theorem State.proposed_experts :
    (s.proposed v p).experts.uncounted = { s.experts with pending := some (v.withToggles p.toggles) }.uncounted :=
  State.foldl_keeps (fun t => t.experts.uncounted) _ (fun t _ => t.placeConflict_uncounted ..) p.blocked _

end

/-- What a proposal made after reads of the Module Controller gives the awaited version, and what it keeps. -/
theorem State.proposed_after_mcRead {s t : State} (h : s.mcRead t) (v : Version) (p : Proposal) :
    (t.proposed v p).experts.pending = some (v.withToggles p.toggles) ∧ (t.proposed v p).experts.map = s.experts.map
    ∧ (t.proposed v p).experts.seq = s.experts.seq ∧ (t.proposed v p).cores = s.cores ∧ (t.proposed v p).mem = s.mem := by
  obtain ⟨hport, hcores⟩ := h
  have hexperts : t.experts = s.experts := (congrArg State.experts hport :)
  have hmem : t.mem = s.mem := (congrArg State.mem hport :)
  have honly := t.proposed_experts v p
  rw [hexperts] at honly
  exact ⟨(congrArg Experts.pending honly :), (congrArg Experts.map honly :), (congrArg Experts.seq honly :),
    (t.proposed_cores v p).trans hcores, (t.proposed_mem v p).trans hmem⟩

section
variable {s : State} {host : List HostReply} {v : Version} {r : McRun} (hpend : s.experts.pending = some v) (hprop : v.proposed = false)
  (hr : (McRun.start s host).run (v.ctrl.loadVa + 65536 * (v.interval % 2)) 65536 = r)
include hpend hprop hr

theorem exec_placementProposal_read (hfault : r.fault = none) (hwait : r.wait = false) :
    exec (.placementProposal host) s = .next (r.st.proposed v
      (propose s.experts.map (fun e => nth 0 ((chunksOf 16384 4 r.data).map (fun b => loadOf (BitVec.ofNat 32 (leNat b)))) e) v.ctrl)) := by
  show execPlacementProposal host s = _
  simp only [execPlacementProposal, hpend, hprop, hr, hfault, hwait, Bool.false_eq_true, if_false]

theorem exec_placementProposal_fault {e : Nat × Nat} (hfault : r.fault = some e) :
    exec (.placementProposal host) s
      = .next ((r.st.faultMark mcUnit e.1 (at' e.2 0 43)).proposed v { map := s.experts.map, toggles := [], blocked := [] }) := by
  show execPlacementProposal host s = _
  simp only [execPlacementProposal, hpend, hprop, hr, hfault, Bool.false_eq_true, if_false]

end

/-! ### Versions dropped (R301, R303) -/

@[simp] theorem State.verCheck_experts (s : State) (v : Version) : (s.verCheck v).2.experts = s.experts := by
  unfold State.verCheck
  split <;> rfl

@[simp] theorem State.verCheck_mem (s : State) (v : Version) : (s.verCheck v).2.mem = s.mem := by
  unfold State.verCheck
  split <;> rfl

@[simp] theorem State.dropVersion_experts (s : State) (v : Version) (code : Nat) :
    (s.dropVersion v code).experts = { s.experts with pending := none, writes := v.writes ++ s.experts.writes } := by
  simp [State.dropVersion]

@[simp] theorem State.dropVersion_mem (s : State) (v : Version) (code : Nat) : (s.dropVersion v code).mem = s.mem := by
  simp [State.dropVersion]

theorem State.vetoVersion_experts (s : State) (v : Version) :
    (s.vetoVersion v).experts = { s.experts with
      pending := none, writes := v.writes ++ s.experts.writes, vetoed := sat 32 (s.experts.vetoed + 1), lastSeq := v.seq
      conflicts := sat 32 (s.experts.conflicts + 1) } := by
  simp [State.vetoVersion, State.placeConflict]

theorem State.vetoVersion_mem (s : State) (v : Version) : (s.vetoVersion v).mem = s.mem := by
  simp [State.vetoVersion, State.placeConflict]

/-! ### Versions complete and switched in (R290, R301) -/

@[simp] theorem State.pageWrite_experts (s : State) (ix v : Nat) : (s.pageWrite ix v).experts = s.experts := by
  simp [State.pageWrite, State.emptyTlbs]

@[simp] theorem State.mapCurrent_experts (s : State) : s.mapCurrent.experts = s.experts := by
  unfold State.mapCurrent
  simp only []
  split <;> simp

/-- A write to HBM4 leaves DDR5's bytes and their poison. -/
theorem State.devWrite_hbm_ddr (s : State) (a : Nat) (ds : List PByte) (add : Bool) : (s.devWrite .hbm a ds add).mem.ddr = s.mem.ddr := by
  rcases s.devWrite_mem .hbm a ds add with h | ⟨-, p, h⟩ <;> rw [h]
  rfl

theorem State.emptyTlbs_mem (s : State) : s.emptyTlbs.mem = s.mem := rfl

@[simp] theorem State.pageWrite_ddr (s : State) (ix v : Nat) : (s.pageWrite ix v).mem.ddr = s.mem.ddr := by
  rw [State.pageWrite, State.emptyTlbs_mem, State.devWrite_hbm_ddr]

@[simp] theorem State.mapCurrent_ddr (s : State) : s.mapCurrent.mem.ddr = s.mem.ddr := by
  unfold State.mapCurrent
  simp only []
  split <;> simp

theorem State.switchVersion_experts (s : State) (v : Version) :
    (s.switchVersion v).experts = { s.experts with
      map := v.entries, seq := v.seq, pending := none, applied := sat 32 (s.experts.applied + 1)
      changes := sat 32 (s.experts.changes + v.toggles.length) } := by
  simp [State.switchVersion]

theorem State.switchVersion_ddr (s : State) (v : Version) : (s.switchVersion v).mem.ddr = s.mem.ddr := by
  simp [State.switchVersion]

/-- A version with its entries and MAP_CHECK. -/
def Version.complete (v : Version) (m : Mem W64) : Version :=
  { v with built := true, entries := buildMap m v.toggles v.writes, check := mapCheck (buildMap m v.toggles v.writes) }

theorem Version.complete_fields (v : Version) (m : Mem W64) :
    (v.complete m).built = true ∧ (v.complete m).seq = v.seq ∧ (v.complete m).effectLeg = v.effectLeg
    ∧ (v.complete m).entries = buildMap m v.toggles v.writes ∧ (v.complete m).check = mapCheck (v.complete m).entries := by
  cases v
  exact ⟨rfl, rfl, rfl, rfl, rfl⟩

theorem State.buildVersion_version (s : State) (v : Version) : (s.buildVersion v).2 = v.complete s.experts.map := rfl

theorem State.buildVersion_experts (s : State) (v : Version) :
    (s.buildVersion v).1.experts = { s.experts with
      lastSeq := v.seq, proposals := if v.toggles.isEmpty then s.experts.proposals else sat 32 (s.experts.proposals + 1) } :=
  State.placePolicy_experts ..

theorem State.buildVersion_mem (s : State) (v : Version) : (s.buildVersion v).1.mem = s.mem := State.placePolicy_mem ..

/-- The state with its awaited version complete. -/
def State.versionBuilt (s : State) (v : Version) : State :=
  { (s.buildVersion v).1 with experts := { (s.buildVersion v).1.experts with pending := some (v.complete s.experts.map) } }

theorem State.versionBuilt_experts (s : State) (v : Version) :
    (s.versionBuilt v).experts = { s.experts with
      pending := some (v.complete s.experts.map), lastSeq := v.seq
      proposals := if v.toggles.isEmpty then s.experts.proposals else sat 32 (s.experts.proposals + 1) } := by
  rw [State.versionBuilt, State.buildVersion_experts]

theorem State.versionBuilt_mem (s : State) (v : Version) : (s.versionBuilt v).mem = s.mem := s.buildVersion_mem v

/-! ### MAP_VERSION_BUILT (R301) -/

section
variable {s : State} {v : Version} (hleg : s.legOn = true) (hpend : s.experts.pending = some v) (hbuilt : v.built = false) (hprop : v.proposed = true)
include hleg hpend hbuilt hprop

theorem exec_mapVersionBuilt_complete (hsome : ¬ (v.toggles = [] ∧ v.writes = [])) (hveto : v.veto = false) :
    exec .mapVersionBuilt s = .next (s.versionBuilt v) := by
  show execMapVersionBuilt s = _
  simp [execMapVersionBuilt, hleg, hpend, hbuilt, hprop, hsome, hveto, State.versionBuilt, State.buildVersion_version]

theorem exec_mapVersionBuilt_vetoed (hsome : ¬ (v.toggles = [] ∧ v.writes = [])) (hveto : v.veto = true) :
    exec .mapVersionBuilt s = .next (s.vetoVersion v) := by
  show execMapVersionBuilt s = _
  simp [execMapVersionBuilt, hleg, hpend, hbuilt, hprop, hsome, hveto]

theorem exec_mapVersionBuilt_nothing (htoggles : v.toggles = []) (hwrites : v.writes = []) :
    exec .mapVersionBuilt s = .next { s with experts := { s.experts with pending := none } } := by
  show execMapVersionBuilt s = _
  simp [execMapVersionBuilt, hleg, hpend, hbuilt, hprop, htoggles, hwrites]

end

/-- The version that the waiting software writes make with no LEG group active. -/
def Experts.writesVersion (x : Experts) : Version :=
  { seq := x.nextSeq, interval := 0, effectLeg := 0, check := 0, built := false, proposed := true, toggles := [], writes := x.writes, entries := []
    ctrl := x.ctrl, veto := false }

/-- The state with the waiting software writes taken. -/
def State.takeWrites (s : State) : State := { s with experts := { s.experts with writes := [], pending := none } }

theorem exec_mapVersionBuilt_alone {s : State} (hleg : s.legOn = false) (hpend : s.experts.pending = none) (hwrites : s.experts.writes ≠ []) :
    exec .mapVersionBuilt s
      = .next ((s.takeWrites.buildVersion s.experts.writesVersion).1.switchVersion (s.experts.writesVersion.complete s.experts.map)) := by
  show execMapVersionBuilt s = _
  simp only [execMapVersionBuilt, hleg, hpend, List.nil_append, List.isEmpty_eq_false_iff.2 hwrites, Bool.false_eq_true, if_false]
  rfl

theorem sat_eq_min (w v : Nat) : sat w v = min (2 ^ w - 1) v := Nat.min_comm ..

end Sys2Proof.Machine

open Sys2Proof Sys2Proof.Machine

/-- Settles O36: the rules of R291 by the map before any expert is woken, of which waking changes free replicas alone; the two commands by
their equations; the limit of a proposal by its turns. -/
theorem expertMapsAndPlacement : Obligations.ExpertMapsAndPlacement := by
  refine ⟨fun m toggles writes hm => ?_, fun s host => ⟨?_, ?_, ?_, ?_, ?_⟩,
    fun m l x => ⟨propose_length m l x, propose_unloaded m l x⟩⟩
  · exact ⟨buildMap_pinned toggles writes hm, buildMap_unprovisioned toggles writes hm, buildMap_active toggles writes⟩
  · intro v hpend hprop r p
    have hread : s.mcRead r.st := s.mcRead_run host _ _
    refine ⟨fun hfault hwait => ?_, fun e hfault => ?_⟩
    · obtain ⟨hp, hmap, hseq, hcores, hmem⟩ := State.proposed_after_mcRead hread v p
      exact ⟨_, exec_placementProposal_read hpend hprop rfl hfault hwait, hmap, hseq, hp, hcores, hmem⟩
    · obtain ⟨hp, hmap, -, -, hmem⟩ := State.proposed_after_mcRead (hread.faultMark mcUnit e.1 (at' e.2 0 43)) v
        { map := s.experts.map, toggles := [], blocked := [] }
      exact ⟨_, exec_placementProposal_fault hpend hprop rfl hfault, hp, hmap, hmem⟩
  · intro v hleg hpend hbuilt hprop hsome hveto
    refine ⟨_, v.complete s.experts.map, exec_mapVersionBuilt_complete hleg hpend hbuilt hprop hsome hveto, ?_⟩
    rw [State.versionBuilt_experts]
    obtain ⟨hdone, hseq, heffect, hentries, hcheck⟩ := v.complete_fields s.experts.map
    exact ⟨rfl, hdone, hseq, heffect, hentries, hcheck, rfl, rfl, s.versionBuilt_mem v⟩
  · intro v hleg hpend hbuilt hprop hsome hveto
    refine ⟨_, exec_mapVersionBuilt_vetoed hleg hpend hbuilt hprop hsome hveto, ?_⟩
    rw [State.vetoVersion_experts]
    exact ⟨rfl, rfl, rfl, sat_eq_min .., s.vetoVersion_mem v⟩
  · intro v hleg hpend hbuilt hprop htoggles hwrites
    exact ⟨_, exec_mapVersionBuilt_nothing hleg hpend hbuilt hprop htoggles hwrites, rfl, rfl, rfl⟩
  · intro hleg hpend hwrites
    refine ⟨_, exec_mapVersionBuilt_alone hleg hpend hwrites, ?_⟩
    rw [State.switchVersion_experts, State.switchVersion_ddr, State.buildVersion_experts, State.buildVersion_mem]
    exact ⟨rfl, rfl, rfl, rfl, rfl⟩
end

