-- ==== Sys2Proof/Proofs/GroundRequests.lean ====
section
/-! SUPPORT. What the module-wide invariants O2, O3 and O6 speak of, the ground of a state, and that the functions which touch none of it
leave it: the trace, requests to memory, and the access unit. -/

namespace Sys2Proof.Machine

/-- The queue of commands, device memory, the floor in flash (R430) and the running image. -/
abbrev Ground := List Instr × DevMem × Option Nat × Option Image

/-- What O2, O3 and O6 speak of: the queue of commands, device memory, the floor in flash (R430) and the running image. -/
def State.ground (s : State) : Ground := (s.pending, s.mem, s.flash.secFloor, s.boot.running)

/-- The ground of a state written out field by field. -/
@[simp] theorem State.ground_mk (pending clk time pace legRegs series groups conds trace plan mem pages cores flagsHeld caddy caddySt fmt num gov experts
    lnk chk adopt host boot flash power meas spdm side outbox freeIx) :
    State.ground ⟨pending, clk, time, pace, legRegs, series, groups, conds, trace, plan, mem, pages, cores, flagsHeld, caddy, caddySt, fmt, num, gov,
      experts, lnk, chk, adopt, host, boot, flash, power, meas, spdm, side, outbox, freeIx⟩ = (pending, mem, flash.secFloor, boot.running) := rfl

@[simp] theorem State.ground_eta (s : State) : (s.pending, s.mem, s.flash.secFloor, s.boot.running) = s.ground := rfl

/-- An answer that leaves the ground as it is. -/
def Out.calm (s : State) (o : Out) : Prop := ∃ t, o = .next t ∧ t.ground = s.ground

@[simp] theorem Out.calm_next (s t : State) : Out.calm s (.next t) ↔ t.ground = s.ground := by
  constructor
  · rintro ⟨u, hu, h⟩
    cases hu
    exact h
  · exact fun h => ⟨t, rfl, h⟩

@[simp] theorem Out.calm_happen (c : Bool) (s t : State) : Out.calm s (happen c s t) ↔ (c = true → t.ground = s.ground) := by
  cases c <;> simp [happen]

@[simp] theorem State.ground_ite (c : Prop) [Decidable c] (a b : State) : (if c then a else b).ground = if c then a.ground else b.ground := apply_ite ..

@[simp] theorem State.ground_foldl {α : Type} (f : State → α → State) (h : ∀ t a, (f t a).ground = t.ground) (l : List α) (s : State) :
    (l.foldl f s).ground = s.ground := State.foldl_keeps State.ground f h l s

theorem Out.calm_ite {s : State} {a b : Out} (c : Prop) [Decidable c] (ha : Out.calm s a) (hb : Out.calm s b) : Out.calm s (if c then a else b) := by
  split <;> assumption

@[simp] theorem State.emit_ground (s : State) (o : Output) : (s.emit o).ground = s.ground := by
  unfold State.emit
  simp

@[simp] theorem State.answer_ground (s : State) (v : Nat) : (s.answer v).ground = s.ground := by
  unfold State.answer
  simp

@[simp] theorem State.setGroup_ground (s : State) (g : Nat) (r : Group) : (s.setGroup g r).ground = s.ground := by
  unfold State.setGroup
  simp

@[simp] theorem State.rephase_ground (s : State) : s.rephase.ground = s.ground := by
  unfold State.rephase
  simp

@[simp] theorem State.endCapture_ground (s : State) (reason : Nat) : (s.endCapture reason).ground = s.ground := by
  unfold State.endCapture
  simp

@[simp] theorem State.captureIn_ground (s : State) (kind source addr inl : Nat) (rest : List Line) : (s.captureIn kind source addr inl rest).ground = s.ground := by
  unfold State.captureIn
  simp

@[simp] theorem State.markAt_ground (s : State) (t kind cause group : Nat) (origin : W16) (unit : Nat) (job : W16) (leg payload : Nat) : (s.markAt t kind cause group origin unit job leg payload).ground = s.ground := by
  unfold State.markAt
  simp

@[simp] theorem State.mark_ground (s : State) (kind cause group unit payload : Nat) : (s.mark kind cause group unit payload).ground = s.ground := by
  unfold State.mark
  simp

@[simp] theorem State.markOf_ground (s : State) (kind group unit payload : Nat) : (s.markOf kind group unit payload).ground = s.ground := by
  unfold State.markOf
  simp

@[simp] theorem State.faultMark_ground (s : State) (unit status rest : Nat) : (s.faultMark unit status rest).ground = s.ground := by
  unfold State.faultMark
  simp

@[simp] theorem State.free32_ground (s : State) : s.free32.2.ground = s.ground := rfl

@[simp] theorem State.free64_ground (s : State) : s.free64.2.ground = s.ground := rfl

@[simp] theorem State.setCore_ground (s : State) (c : Nat) (k : Core) : (s.setCore c k).ground = s.ground := by
  unfold State.setCore
  simp

@[simp] theorem State.updCore_ground (s : State) (c : Nat) (f : Core → Core) : (s.updCore c f).ground = s.ground := by
  unfold State.updCore
  simp

@[simp] theorem State.measChanged_ground (s : State) (ix : Nat) : (s.measChanged ix).ground = s.ground := by
  unfold State.measChanged
  simp

@[simp] theorem State.planChange_ground (s : State) (f : Plan → Plan) : (s.planChange f).ground = s.ground := by
  unfold State.planChange
  simp

@[simp] theorem State.absent_ground (s : State) (c cause : Nat) : (s.absent c cause).ground = s.ground := by
  unfold State.absent
  simp

@[simp] theorem State.applyAbsent_ground (s : State) : s.applyAbsent.ground = s.ground := by
  unfold State.applyAbsent
  simp

@[simp] theorem State.endReplay_ground (s : State) (code : Nat) : (s.endReplay code).ground = s.ground := by
  unfold State.endReplay
  simp

@[simp] theorem State.hostLine_ground (s : State) (src a : Nat) (hs : List HostReply) : (s.hostLine src a hs).1.ground = s.ground := by
  unfold State.hostLine
  split
  · simp only []
    split
    · split <;> simp
    · simp
  · split
    · simp
    · split <;> simp

@[simp] theorem State.hostPost_ground (s : State) (ds : List (Nat × List Byte × Bool)) (hs : List HostReply) : (s.hostPost ds hs).1.ground = s.ground := by
  unfold State.hostPost
  repeat' split
  all_goals simp

@[simp] theorem State.checkMark_ground (s : State) (kind unit payload : Nat) : (s.checkMark kind unit payload).ground = s.ground := by
  unfold State.checkMark
  simp

@[simp] theorem State.checkFault_ground (s : State) (status words chunk : Nat) : (s.checkFault status words chunk).ground = s.ground := by
  unfold State.checkFault
  simp

@[simp] theorem State.reduceBad_ground (s : State) : s.reduceBad.ground = s.ground := by
  unfold State.reduceBad
  simp

@[simp] theorem MemRun.start_ground (s : State) (c blk : Nat) (host : List HostReply) : (MemRun.start s c blk host).st.ground = s.ground := rfl

@[simp] theorem MemRun.request_ground (m : MemRun) (va : Nat) (k : Acc) : (m.request va k).1.st.ground = m.st.ground := by
  unfold MemRun.request
  split
  · rfl
  · simp only []
    split <;> simp

@[simp] theorem MemRun.read_ground (m : MemRun) (va n : Nat) : (m.read va n).1.st.ground = m.st.ground := by
  have hreq := m.request_ground va .read
  unfold MemRun.read
  split
  case h_1 h => simpa [h] using hreq
  case h_2 m1 t pa h =>
    rw [h] at hreq
    have hline := m1.st.hostLine_ground (coreUnit m1.core m1.blk) (pa / 64 * 64) m1.host
    split
    · split
      all_goals
        rename_i hl
        rw [hl] at hline
        exact hline.trans hreq
    · exact hreq

@[simp] theorem McRun.start_ground (s : State) (host : List HostReply) : (McRun.start s host).st.ground = s.ground := rfl

@[simp] theorem McRun.ground_ite (c : Prop) [Decidable c] (a b : McRun) : (if c then a else b).st.ground = if c then a.st.ground else b.st.ground := by
  split <;> rfl

@[simp] theorem McRun.piece_ground (m : McRun) (va n : Nat) : (m.piece va n).st.ground = m.st.ground := by
  unfold McRun.piece
  split
  · rfl
  · split
    · rfl
    · rename_i t pa _
      have hline := m.st.hostLine_ground mcUnit (pa / 64 * 64) m.host
      split
      · split
        all_goals
          rename_i hl
          rw [hl] at hline
          exact hline
      · rfl

/-- Runs of pieces, one after another. -/
theorem McRun.foldl_ground {α : Type} (f : McRun → α → McRun) (h : ∀ q a, (f q a).st.ground = q.st.ground) (l : List α) (m : McRun) :
    (l.foldl f m).st.ground = m.st.ground := by
  induction l generalizing m with
  | nil => rfl
  | cons a l ih => exact (ih _).trans (h m a)

@[simp] theorem McRun.run_ground (m : McRun) (va n : Nat) : (m.run va n).st.ground = m.st.ground := by
  have hrun := McRun.foldl_ground (fun (q : McRun) (p : Nat × Nat) => q.piece p.1 p.2) (fun q p => q.piece_ground p.1 p.2)
    (linePieces (n / 64 + 2) va n) { m with bytes := [] }
  exact hrun

@[simp] theorem MemRun.readRun_ground (m : MemRun) (va n : Nat) : (m.readRun va n).1.st.ground = m.st.ground := by
  suffices h : ∀ (l : List (Nat × Nat)) (q : MemRun × List PByte),
      (l.foldl (fun q p => let r := q.1.read p.1 p.2; (r.1, q.2 ++ r.2)) q).1.st.ground = q.1.st.ground from h _ _
  intro l
  induction l with
  | nil => intro q; rfl
  | cons p l ih => intro q; exact (ih _).trans (q.1.read_ground p.1 p.2)

@[simp] theorem State.setRing_ground (s : State) (r : Nat) (x : Ring) : (s.setRing r x).ground = s.ground := by
  unfold State.setRing
  simp

@[simp] theorem State.settleRing_ground (s : State) (r : Nat) : (s.settleRing r).ground = s.ground := by
  unfold State.settleRing
  simp

@[simp] theorem State.portFail_ground (s : State) (r : Nat) : (s.portFail r).ground = s.ground := by
  unfold State.portFail
  simp

@[simp] theorem State.completeAt_ground (s0 : State) (d : Desc) (t status d0 d1 : Nat) : (s0.completeAt d t status d0 d1).ground = s0.ground := by
  unfold State.completeAt
  simp

@[simp] theorem State.complete_ground (s : State) (d : Desc) (status d0 d1 : Nat) : (s.complete d status d0 d1).ground = s.ground := by
  unfold State.complete
  simp

@[simp] theorem State.setDesc_ground (s : State) (d : Desc) : (s.setDesc d).ground = s.ground := by
  unfold State.setDesc
  simp

@[simp] theorem State.startDesc_ground (s : State) (d : Desc) : (s.startDesc d).ground = s.ground := by
  unfold State.startDesc
  simp

@[simp] theorem State.auFault_ground (s : State) (c blk dir status va : Nat) : (s.auFault c blk dir status va).ground = s.ground := by
  unfold State.auFault
  simp

@[simp] theorem MemRun.counted_ground (m : MemRun) (c status : Nat) : (m.counted c status).ground = m.st.ground := rfl

@[simp] theorem State.seqFault_ground (s : State) (c : Nat) (f : StreamId) (status opc pc : Nat) : (s.seqFault c f status opc pc).ground = s.ground := by
  unfold State.seqFault
  simp

@[simp] theorem State.endOp_ground (s : State) (c : Nat) (e : Eng) (r : Running) : (s.endOp c e r).ground = s.ground := by
  unfold State.endOp
  simp

@[simp] theorem State.runArrays_ground (s : State) (n : Nat) : (s.runArrays n).ground = s.ground := by
  unfold State.runArrays
  simp

@[simp] theorem State.clocks_ground (s : State) (d : Nat) : (s.clocks d).ground = s.ground := by
  unfold State.clocks
  simp

@[simp] theorem State.advance_ground (s : State) (d : Nat) : (s.advance d).ground = s.ground := by
  unfold State.advance
  simp

@[simp] theorem State.toTime_ground (s : State) (t : Nat) : (s.toTime t).ground = s.ground := by
  unfold State.toTime
  simp

@[simp] theorem State.toCycle_ground (s : State) (n : Nat) : (s.toCycle n).ground = s.ground := by
  unfold State.toCycle
  simp

@[simp] theorem State.tick_ground (s : State) : s.tick.ground = s.ground := by
  unfold State.tick
  simp

theorem State.toEnd_ground {s t : State} {c id : Nat} (h : s.toEnd c id = some t) : t.ground = s.ground := by
  obtain ⟨j, -, rfl⟩ := Option.map_eq_some_iff.mp h
  simp

@[simp] theorem State.ownLines_ground (s : State) (n m c id : Nat) : (s.ownLines n m c id).ground = s.ground := by
  unfold State.ownLines
  simp

@[simp] theorem State.lineIn_ground (s : State) (w : LineWrite) : (s.lineIn w).ground = s.ground := by
  unfold State.lineIn
  split <;> simp

@[simp] theorem State.retire_ground (s : State) (c : Nat) (e : Eng) : (s.retire c e).ground = s.ground := by
  unfold State.retire
  split <;> simp

@[simp] theorem moveIn_ground (mv : Move) (c : Nat) (g : MoveRun) (q : Req) : (moveIn mv c g q).m.st.ground = g.m.st.ground := by
  unfold moveIn
  split
  · rfl
  · simp only []
    repeat' split
    all_goals simp

@[simp] theorem State.accFail_ground (s : State) (c : Nat) (o : Op) (status : Nat) (vals : List Nat) : (s.accFail c o status vals).ground = s.ground := by
  unfold State.accFail
  simp

theorem execAccessOpEnd_calm (c : CoreIx) (s : State) : Out.calm s (execAccessOpEnd c s) := by
  unfold execAccessOpEnd
  repeat' split
  all_goals simp

end Sys2Proof.Machine
end

