-- ==== Sys2Proof/Proofs/GroundHost.lean ====
section
/-! SUPPORT. The ground stands: the checker, the governor, the host port and the sequencer. -/

namespace Sys2Proof.Machine

theorem State.checkNext_ground {s t : State} {w : Option Line} (h : s.checkNext = some (w, t)) : t.ground = s.ground := by
  unfold State.checkNext at h
  split at h
  · cases h
  · split at h
    · cases h
    · cases h
      simp only [State.ground_mk, State.ground_eta]
      split <;> simp

theorem State.checkTake_calm (s : State) (kind : Nat) (f : Line → State → State) (h : ∀ p t, (f p t).ground = t.ground) :
    Out.calm s (s.checkTake kind f) := by
  unfold State.checkTake
  split
  · simp
  · rename_i hn
    simp [State.checkNext_ground hn]
  · rename_i hn
    have ht := State.checkNext_ground hn
    repeat' split
    all_goals simp [h, ht]

theorem execMark_calm (s : State) : Out.calm s (execMark s) := s.checkTake_calm 0 _ (fun p t => by simp)

theorem execCompare_calm (s : State) : Out.calm s (execCompare s) := s.checkTake_calm 1 _ (fun p t => by simp)

theorem execCompareDone_calm (s0 : State) : Out.calm s0 (execCompareDone s0) := by
  unfold execCompareDone
  simp only []
  repeat' split
  all_goals simp

@[simp] theorem State.checkMissing_ground (s : State) : s.checkMissing.ground = s.ground := by
  unfold State.checkMissing
  simp

theorem execGovDecision_calm (f : Fin 16384) (s : State) : Out.calm s (execGovDecision f s) := by
  unfold execGovDecision
  simp only []
  split <;> simp

@[simp] theorem State.govApply_ground (s : State) (f : Nat) (d : GovDec) : (s.govApply f d).ground = s.ground := by
  unfold State.govApply
  simp

@[simp] theorem State.govLate_ground (s : State) (f : Nat) : (s.govLate f).ground = s.ground := by
  unfold State.govLate
  simp

@[simp] theorem State.govDue_ground (s : State) (leg f : Nat) : (s.govDue leg f).ground = s.ground := by
  unfold State.govDue
  refine State.ground_foldl _ (fun t x => ?_) _ _
  split <;> simp

@[simp] theorem State.govClose_ground (s : State) (leg : Nat) : (s.govClose leg).ground = s.ground := by
  unfold State.govClose
  simp

@[simp] theorem State.govMilepost_ground (s : State) (leg : Nat) : (s.govMilepost leg).ground = s.ground := by
  unfold State.govMilepost
  simp

@[simp] theorem Dma.toHost_ground (m : Dma) (src dst : Nat) : (m.toHost src dst).st.ground = m.st.ground := by
  unfold Dma.toHost
  split
  · rfl
  · simp only []
    split <;> simp

@[simp] theorem Desc.dma_ground (d : Desc) (s : State) : (d.dma s).st.ground = s.ground := rfl

@[simp] theorem State.regIn_ground (s : State) (off : Nat) (v : W32) : (s.regIn off v).ground = s.ground := by
  unfold State.regIn
  simp

theorem State.regCmd_calm (s : State) (off : Nat) (v : W32) (f : State → State) (h : ∀ t, (f t).ground = t.ground) :
    Out.calm s (s.regCmd off v f) := by
  unfold State.regCmd
  simp [h]

@[simp] theorem State.readWatch_ground (s : State) (r : Nat) : (s.readWatch r).ground = s.ground := by
  unfold State.readWatch
  simp

@[simp] theorem State.ringStart_ground (s : State) (r : Nat) (x : Ring) : (s.ringStart r x).ground = s.ground := by
  unfold State.ringStart
  simp

@[simp] theorem State.ringCtrl_ground (s : State) (r : Nat) (v : W32) : (s.ringCtrl r v).ground = s.ground := by
  unfold State.ringCtrl
  simp

theorem execRingEnable_calm (r : RingIx) (v : W32) (s : State) : Out.calm s (execRingEnable r v s) := by
  unfold execRingEnable
  split
  · exact s.regCmd_calm _ _ _ (fun t => t.ringCtrl_ground _ _)
  · simp

theorem execRingDisable_calm (r : RingIx) (v : W32) (s : State) : Out.calm s (execRingDisable r v s) := by
  unfold execRingDisable
  split
  · simp
  · exact s.regCmd_calm _ _ _ (fun t => t.ringCtrl_ground _ _)

theorem execWatchPoll_calm (r : RingIx) (s : State) : Out.calm s (execWatchPoll r s) := by
  unfold execWatchPoll
  simp

theorem execWatchLineRead_calm (r : RingIx) (reply : HostReply) (s : State) : Out.calm s (execWatchLineRead r reply s) := by
  unfold execWatchLineRead
  simp only []
  repeat' split
  all_goals simp

@[simp] theorem State.takeDesc_ground (s : State) (ring slot : Nat) (d : Line) : (s.takeDesc ring slot d).ground = s.ground := by
  unfold State.takeDesc
  simp

theorem execDescTake_calm (r : RingIx) (d : HostReply) (s : State) : Out.calm s (execDescTake r d s) := by
  unfold execDescTake
  repeat' split
  all_goals simp

theorem execCompletionWriteFail_calm (r : RingIx) (s : State) : Out.calm s (execCompletionWriteFail r s) := by
  unfold execCompletionWriteFail
  simp only []
  repeat' split
  all_goals simp

@[simp] theorem State.hostFail_ground (s : State) (q : HostReq) (timeout : Bool) : (s.hostFail q timeout).ground = s.ground := by
  unfold State.hostFail
  repeat' split
  all_goals simp

theorem execHostAbort_calm (q : HostReq) (s : State) : Out.calm s (execHostAbort q s) := by
  unfold execHostAbort
  simp

theorem execHostCompletionTimeout_calm (q : HostReq) (s : State) : Out.calm s (execHostCompletionTimeout q s) := by
  unfold execHostCompletionTimeout
  simp

theorem execDescFence_calm (r : RingIx) (s : State) : Out.calm s (execDescFence r s) := by
  unfold execDescFence
  repeat' split
  all_goals simp

theorem execDescFenceDone_calm (r : RingIx) (s : State) : Out.calm s (execDescFenceDone r s) := by
  unfold execDescFenceDone
  split <;> simp

@[simp] theorem State.recordMark_ground (s : State) (d : Desc) (t : Nat) : (s.recordMark d t).ground = s.ground := by
  unfold State.recordMark
  simp

theorem execRecordMark_calm (s : State) : Out.calm s (execRecordMark s) := by
  unfold execRecordMark
  repeat' split
  all_goals simp

@[simp] theorem State.outside_ground (s : State) : s.outside.ground = s.ground := by
  unfold State.outside
  simp

theorem execCxlMemRead_calm (a : W64) (s : State) : Out.calm s (execCxlMemRead a s) := by
  unfold execCxlMemRead
  repeat' split
  all_goals simp

theorem execSnpInv_calm (a : W64) (s : State) : Out.calm s (execSnpInv a s) := by
  unfold execSnpInv
  simp

theorem execSnpData_calm (a : W64) (s : State) : Out.calm s (execSnpData a s) := by
  unfold execSnpData
  simp

theorem execSnpCur_calm (a : W64) (s : State) : Out.calm s (execSnpCur a s) := by
  unfold execSnpCur
  simp

theorem execCxlConfigWrite_calm (cache mem : Bool) (s : State) : Out.calm s (execCxlConfigWrite cache mem s) := by
  unfold execCxlConfigWrite
  simp

theorem execHdmDecoderCommit_calm (base : W64) (units : W32) (s : State) : Out.calm s (execHdmDecoderCommit base units s) := by
  unfold execHdmDecoderCommit
  simp

theorem execIdeKm_calm (cachemem : Bool) (key : Block) (go : Bool) (s : State) : Out.calm s (execIdeKm cachemem key go s) := by
  unfold execIdeKm
  simp

@[simp] theorem State.seqStop_ground (s : State) (c : Nat) (f : StreamId) (status opc : Nat) : (s.seqStop c f status opc).ground = s.ground := by
  unfold State.seqStop
  simp

@[simp] theorem State.seqAt_ground (s : State) (c : Nat) (f : StreamId) : (s.seqAt c f).ground = s.ground := by
  unfold State.seqAt
  simp

@[simp] theorem State.seqDone_ground (s : State) (c : Nat) (f : StreamId) (ctr pc : Nat) (g : Stream → Stream) : (s.seqDone c f ctr pc g).ground = s.ground := by
  unfold State.seqDone
  simp

@[simp] theorem State.seqNext_ground (s : State) (c : Nat) (f : StreamId) (pc : Nat) (g : Stream → Stream) : (s.seqNext c f pc g).ground = s.ground := by
  unfold State.seqNext
  simp

@[simp] theorem State.seqHold_ground (s : State) (c : Nat) (f : StreamId) (ctr : Nat) : (s.seqHold c f ctr).ground = s.ground := by
  unfold State.seqHold
  simp

theorem State.seqTurn_ground (s : State) (c : Nat) (f : StreamId) (run : State → Fetch → State)
    (h : ∀ t x, t.ground = s.ground → (run t x).ground = s.ground) : (s.seqTurn c f run).ground = s.ground := by
  unfold State.seqTurn
  simp only []
  split
  · rfl
  · split
    · rfl
    · simp
    · exact h _ _ (by simp)

theorem State.seqCmd_calm (s : State) (c : Nat) (f : StreamId) (op : Nat) (run : State → Ctl → Stream → State)
    (h : ∀ t i x, (run t i x).ground = t.ground) : Out.calm s (s.seqCmd c f op run) := by
  unfold State.seqCmd
  refine (Out.calm_next s _).mpr (s.seqTurn_ground c f _ (fun t x ht => ?_))
  split
  · split
    · exact (h ..).trans ht
    · rfl
  · rfl

theorem execNop_calm (c : CoreIx) (f : StreamId) (s : State) : Out.calm s (execNop c f s) :=
  State.seqCmd_calm _ _ _ _ _ (fun t i x => by simp)

theorem execMovi_calm (c : CoreIx) (f : StreamId) (s : State) : Out.calm s (execMovi c f s) :=
  State.seqCmd_calm _ _ _ _ _ (fun t i x => by simp)

theorem execAlu_calm (c : CoreIx) (f : StreamId) (s : State) : Out.calm s (execAlu c f s) :=
  State.seqCmd_calm _ _ _ _ _ (fun t i x => by simp)

theorem execAlui_calm (c : CoreIx) (f : StreamId) (s : State) : Out.calm s (execAlui c f s) :=
  State.seqCmd_calm _ _ _ _ _ (fun t i x => by simp)

@[simp] theorem State.branch_ground (s : State) (c : Nat) (f : StreamId) (i : Ctl) (g : Stream → Stream) : (s.branch c f i g).ground = s.ground := by
  unfold State.branch
  split <;> simp

theorem execBr_calm (c : CoreIx) (f : StreamId) (s : State) : Out.calm s (execBr c f s) :=
  State.seqCmd_calm _ _ _ _ _ (fun t i x => by simp)

theorem execSetlc_calm (c : CoreIx) (f : StreamId) (s : State) : Out.calm s (execSetlc c f s) :=
  State.seqCmd_calm _ _ _ _ _ (fun t i x => by simp)

theorem execLoop_calm (c : CoreIx) (f : StreamId) (s : State) : Out.calm s (execLoop c f s) :=
  State.seqCmd_calm _ _ _ _ _ (fun t i x => by simp)

@[simp] theorem State.syncWait_ground (s : State) (c : Nat) (f : StreamId) : (s.syncWait c f).ground = s.ground := by
  unfold State.syncWait
  simp

theorem execGetsum_calm (c : CoreIx) (f : StreamId) (s : State) : Out.calm s (execGetsum c f s) :=
  State.seqCmd_calm _ _ _ _ _ (fun t i x => by simp)

theorem execGetfmt_calm (c : CoreIx) (f : StreamId) (s : State) : Out.calm s (execGetfmt c f s) :=
  State.seqCmd_calm _ _ _ _ _ (fun t i x => by simp)

theorem execGettime_calm (c : CoreIx) (f : StreamId) (s : State) : Out.calm s (execGettime c f s) :=
  State.seqCmd_calm _ _ _ _ _ (fun t i x => by simp)

theorem execSetseed_calm (c : CoreIx) (f : StreamId) (s : State) : Out.calm s (execSetseed c f s) :=
  State.seqCmd_calm _ _ _ _ _ (fun t i x => by simp)

theorem execOnend_calm (c : CoreIx) (f : StreamId) (s : State) : Out.calm s (execOnend c f s) :=
  State.seqCmd_calm _ _ _ _ _ (fun t i x => by simp)

theorem execPatch_calm (c : CoreIx) (f : StreamId) (s : State) : Out.calm s (execPatch c f s) :=
  State.seqCmd_calm _ _ _ _ _ (fun t i x => by simp)

theorem execCadd_calm (c : CoreIx) (f : StreamId) (s : State) : Out.calm s (execCadd c f s) :=
  State.seqCmd_calm _ _ _ _ _ (fun t i x => by simp)

theorem execWaitge_calm (c : CoreIx) (f : StreamId) (s : State) : Out.calm s (execWaitge c f s) :=
  State.seqCmd_calm _ _ _ _ _ (fun t i x => by simp)

theorem execSemsig_calm (c : CoreIx) (f : StreamId) (s : State) : Out.calm s (execSemsig c f s) :=
  State.seqCmd_calm _ _ _ _ _ (fun t i x => by simp)

theorem execSemwait_calm (c : CoreIx) (f : StreamId) (s : State) : Out.calm s (execSemwait c f s) :=
  State.seqCmd_calm _ _ _ _ _ (fun t i x => by simp)

theorem execArrive_calm (c : CoreIx) (f : StreamId) (s : State) : Out.calm s (execArrive c f s) :=
  State.seqCmd_calm _ _ _ _ _ (fun t i x => by simp)

@[simp] theorem State.roundSignal_ground (s : State) (g c : Nat) : (s.roundSignal g c).ground = s.ground := by
  unfold State.roundSignal
  simp

theorem execBarrierRound_calm (g : GroupIx) (s : State) : Out.calm s (execBarrierRound g s) := by
  unfold execBarrierRound
  simp

theorem execFence_calm (c : CoreIx) (f : StreamId) (s : State) : Out.calm s (execFence c f s) :=
  State.seqCmd_calm _ _ _ _ _ (fun t i x => by simp)

theorem execGate_calm (c : CoreIx) (f : StreamId) (s : State) : Out.calm s (execGate c f s) :=
  State.seqCmd_calm _ _ _ _ _ (fun t i x => by simp)

theorem execOnstatus_calm (c : CoreIx) (f : StreamId) (s : State) : Out.calm s (execOnstatus c f s) :=
  State.seqCmd_calm _ _ _ _ _ (fun t i x => by simp)

theorem execLegEnd_calm (c : CoreIx) (f : StreamId) (s : State) : Out.calm s (execLegEnd c f s) :=
  State.seqCmd_calm _ _ _ _ _ (fun t i x => by simp)

theorem execEngineOpIssue_calm (c : CoreIx) (f : StreamId) (s : State) : Out.calm s (execEngineOpIssue c f s) := by
  unfold execEngineOpIssue
  refine (Out.calm_next s _).mpr (s.seqTurn_ground c.val f _ (fun t x ht => ?_))
  split
  · simp only []
    split
    · simp [ht]
    · split <;> simp [ht]
  · rfl

theorem execUnitShutdownDone_calm (c : CoreIx) (u : UnitId) (s : State) : Out.calm s (execUnitShutdownDone c u s) := by
  unfold execUnitShutdownDone
  simp

theorem execUnitPowerUpDone_calm (c : CoreIx) (u : UnitId) (s : State) : Out.calm s (execUnitPowerUpDone c u s) := by
  unfold execUnitPowerUpDone
  simp

end Sys2Proof.Machine
end

