-- ==== Sys2Proof/Proofs/GroundLinks.lean ====
section
/-! SUPPORT. The ground stands: links, pace and power. -/

namespace Sys2Proof.Machine

@[simp] theorem State.updLink_ground (s : State) (l : Nat) (f : Link → Link) : (s.updLink l f).ground = s.ground := by
  unfold State.updLink
  simp

@[simp] theorem State.dropHeard_ground (s : State) (l : Nat) : (s.dropHeard l).ground = s.ground := by
  unfold State.dropHeard
  simp

@[simp] theorem State.linkUse_ground (s : State) (l : Nat) (f : LinkEntry → LinkEntry) : (s.linkUse l f).ground = s.ground := by
  unfold State.linkUse
  simp

@[simp] theorem State.sendDir_ground (s : State) (dir : Nat) (x : Sync) : (s.sendDir dir x).ground = s.ground := by
  unfold State.sendDir
  simp

@[simp] theorem State.sendBoth_ground (s : State) (d : Nat) (x : Sync) (plus minus : Nat) : (s.sendBoth d x plus minus).ground = s.ground := by
  unfold State.sendBoth
  simp

@[simp] theorem State.forward_ground (s : State) (l : Nat) (x : Sync) : (s.forward l x).ground = s.ground := by
  unfold State.forward
  simp

@[simp] theorem State.originate_ground (s : State) (lo n : Nat → Nat) (x : Sync) : (s.originate lo n x).ground = s.ground := by
  unfold State.originate
  simp

theorem State.syncIn_ground {s t : State} {l : Nat} {b : Block} {x : Sync} (h : s.syncIn l b = some (x, t)) : t.ground = s.ground := by
  unfold State.syncIn at h
  simp only [] at h
  split at h
  · cases h
  · cases h
    simp

@[simp] theorem State.syncLost_ground (s : State) (l : Nat) : (s.syncLost l).ground = s.ground := by
  unfold State.syncLost
  simp

@[simp] theorem State.linkBlock_ground (s : State) (l kind seq : Nat) : (s.linkBlock l kind seq).ground = s.ground := by
  unfold State.linkBlock
  simp

@[simp] theorem State.sendOne_ground (s : State) (l : Nat) : (s.sendOne l).ground = s.ground := by
  unfold State.sendOne
  simp only []
  repeat' split
  all_goals simp

@[simp] theorem State.pump_ground (s : State) (l : Nat) : (s.pump l).ground = s.ground := by
  unfold State.pump
  exact State.ground_foldl _ (fun t x => by simp) _ _

theorem State.offer_ground {s t : State} {dir : Nat} {turned : Bool} {f : TxFlit} (h : s.offer dir turned f = some t) : t.ground = s.ground := by
  have hlinks : { t with lnk := s.lnk, outbox := s.outbox } = s := s.offer_only t dir turned f h
  have hground := congrArg State.ground hlinks
  exact hground

@[simp] theorem State.xferFault_ground (s : State) (unit status : Nat) (dest : W16) (no : Nat) : (s.xferFault unit status dest no).ground = s.ground := by
  unfold State.xferFault
  simp

@[simp] theorem State.anyPort_ground (s : State) : s.anyPort.2.ground = s.ground := rfl

@[simp] theorem State.addCounter_ground (s : State) (c i n : Nat) : (s.addCounter c i n).ground = s.ground := by
  unfold State.addCounter
  simp

/-- A transfer taken off the engine's list. -/
def State.xferGone (s : State) (x : Xfer) : State :=
  { s with lnk := { s.lnk with xfers := s.lnk.xfers.filter (fun y => !(y.queue == x.queue && y.count == x.count)) } }

/-- A transfer's end takes it off the list and changes at most a counter of one core (R331). -/
theorem State.xferEnd_cases (s : State) (x : Xfer) (ok : Bool) : s.xferEnd x ok = s.xferGone x ∨ ∃ c f, s.xferEnd x ok = (s.xferGone x).updCore c f := by
  have hadd (c i n : Nat) : (s.xferGone x).addCounter c i n = s.xferGone x ∨ ∃ k f, (s.xferGone x).addCounter c i n = (s.xferGone x).updCore k f := by
    unfold State.addCounter
    split
    · exact .inr ⟨_, _, rfl⟩
    · exact .inl rfl
  cases hc : coreOfUnit (pf x.post 0x18 48 16) with
  | none => exact .inl (by simp only [State.xferEnd, hc]; rfl)
  | some c =>
    have hend : s.xferEnd x ok = if ok then (if pf x.post 0x10 0 12 = 0 then s.xferGone x else (s.xferGone x).addCounter c (pf x.post 0x10 28 4) (pf x.post 0x10 0 12))
        else if pf x.post 0x10 23 1 = 1 then (s.xferGone x).addCounter c (pf x.post 0x10 24 4) 1 else s.xferGone x := by
      simp only [State.xferEnd, hc]
      rfl
    rw [hend]
    split
    · split
      · exact .inl rfl
      · exact hadd ..
    · split
      · exact hadd ..
      · exact .inl rfl

/-- What neither the list of transfers nor a core tells is left by a transfer's end. -/
theorem State.xferEnd_keeps {β : Type} (g : State → β) (hgone : ∀ t x, g (State.xferGone t x) = g t) (hcore : ∀ t c f, g (State.updCore t c f) = g t)
    (s : State) (x : Xfer) (ok : Bool) : g (s.xferEnd x ok) = g s := by
  rcases s.xferEnd_cases x ok with h | ⟨c, f, h⟩
  · rw [h, hgone]
  · rw [h, hcore, hgone]

@[simp] theorem State.xferEnd_ground (s : State) (x : Xfer) (ok : Bool) : (s.xferEnd x ok).ground = s.ground :=
  State.xferEnd_keeps State.ground (fun _ _ => rfl) State.updCore_ground s x ok

@[simp] theorem State.sendDone_ground (s : State) (d : W16) (tag st : Nat) : (s.sendDone d tag st).ground = s.ground := by
  unfold State.sendDone
  simp only []
  split
  · rfl
  · split
    · exact State.offer_ground (by assumption)
    · simp

@[simp] theorem State.routeFault_ground (s : State) (f : TxFlit) : (s.routeFault f).ground = s.ground := by
  unfold State.routeFault
  simp only []
  repeat' split
  all_goals simp

@[simp] theorem State.resend_ground (s : State) (dir : Nat) (fs : List TxFlit) : (s.resend dir fs).ground = s.ground := by
  unfold State.resend
  refine State.ground_foldl _ (fun t f => ?_) _ _
  split
  · exact State.offer_ground (by assumption)
  · simp

@[simp] theorem State.linkLeave_ground (s : State) (l : Nat) (st : LState) (f : LinkEntry → LinkEntry) : (s.linkLeave l st f).ground = s.ground := by
  unfold State.linkLeave
  simp

@[simp] theorem State.remoteSignal_ground (s : State) (unit sig : Nat) (no : Nat) : (s.remoteSignal unit sig no).ground = s.ground := by
  unfold State.remoteSignal
  split <;> simp

@[simp] theorem State.dropFlits_ground (s : State) (xs : List Xfer) : (s.dropFlits xs).ground = s.ground := by
  unfold State.dropFlits
  simp

@[simp] theorem State.abortXfers_ground (s : State) (p : Xfer → Bool) : (s.abortXfers p).ground = s.ground := by
  unfold State.abortXfers
  simp

@[simp] theorem State.goodFlit_ground (s : State) (l : Nat) : (s.goodFlit l).ground = s.ground := by
  unfold State.goodFlit
  simp

@[simp] theorem State.transit_ground (s : State) (l : Nat) (h : Block) (p : List PWord) : (s.transit l h p).ground = s.ground := by
  unfold State.transit
  simp only []
  split
  · rfl
  · split
    · exact State.offer_ground (by assumption)
    · simp

@[simp] theorem State.fecSeen_ground (s : State) (l : Nat) (fec : Option Nat) : (s.fecSeen l fec).ground = s.ground := by
  unfold State.fecSeen
  simp

theorem execAck_calm (l : LinkIx) (b : Block) (s : State) : Out.calm s (execAck l b s) := by
  unfold execAck
  split <;> simp

theorem execNak_calm (l : LinkIx) (b : Block) (s : State) : Out.calm s (execNak l b s) := by
  unfold execNak
  simp only []
  repeat' split
  all_goals simp

theorem execAckTimer_calm (l : LinkIx) (s : State) : Out.calm s (execAckTimer l s) := by
  unfold execAckTimer
  split <;> simp

@[simp] theorem State.assignDir_ground (s : State) (l : Nat) : (s.assignDir l).ground = s.ground := by
  unfold State.assignDir
  simp

theorem execLossOfSignal_calm (l : LinkIx) (s : State) : Out.calm s (execLossOfSignal l s) := by
  unfold execLossOfSignal
  simp

theorem execLinkSignalDetect_calm (l : LinkIx) (s : State) : Out.calm s (execLinkSignalDetect l s) := by
  unfold execLinkSignalDetect
  simp

@[simp] theorem Flash.record_secFloor (f : Flash) (i : Nat) (r : TrainRec) : (f.record i r).secFloor = f.secFloor := rfl

@[simp] theorem Flash.trained_secFloor (f : Flash) (d : Nat) (temp : Int) : (f.trained d temp).secFloor = f.secFloor := rfl

@[simp] theorem State.linkRecord_ground (s : State) (l : Nat) (id : LinkIdent) (first : Bool) : (s.linkRecord l id first).ground = s.ground := by
  unfold State.linkRecord
  simp only []
  generalize (match s.flash.records.find? (fun p => p.1 == 20 + l) with
    | some (_, r) => r.key == id.digest && r.sub == id.link.val && id.margin && !(first && s.boot.forceFull)
    | none => false) = hit
  cases hit <;> cases first <;> simp

theorem execLinkTrained_calm (l : LinkIx) (id : LinkIdent) (s : State) : Out.calm s (execLinkTrained l id s) := by
  unfold execLinkTrained
  simp only []
  repeat' split
  all_goals simp

theorem execLinkTrainingFail_calm (l : LinkIx) (s : State) : Out.calm s (execLinkTrainingFail l s) := by
  unfold execLinkTrainingFail
  simp

theorem execLaneRetire_calm (l : LinkIx) (lane : Fin 5) (s : State) : Out.calm s (execLaneRetire l lane s) := by
  unfold execLaneRetire
  simp only []
  repeat' split
  all_goals simp

theorem execSparingDone_calm (l : LinkIx) (s : State) : Out.calm s (execSparingDone l s) := by
  unfold execSparingDone
  simp

theorem execHalt_calm (l : LinkIx) (b : Block) (s : State) : Out.calm s (execHalt l b s) := by
  unfold execHalt
  split <;> simp

@[simp] theorem State.linkCtrl_ground (s : State) (c : LinkCtrl) : (s.linkCtrl c).ground = s.ground := by
  unfold State.linkCtrl
  simp

@[simp] theorem State.sendGroup_ground (s : State) (n : Nat) (x : Sync) : (s.sendGroup n x).ground = s.ground := by
  unfold State.sendGroup
  simp

@[simp] theorem State.updGroup_ground (s : State) (n : Nat) (f : Group → Group) : (s.updGroup n f).ground = s.ground := by
  unfold State.updGroup
  simp

@[simp] theorem State.markG_ground (s : State) (kind cause n : Nat) (origin : W16) (payload : Nat) : (s.markG kind cause n origin payload).ground = s.ground := by
  unfold State.markG
  simp

@[simp] theorem State.updSeries_ground (s : State) (f : Series → Series) : (s.updSeries f).ground = s.ground := by
  unfold State.updSeries
  simp

@[simp] theorem State.learnOwed_ground (s : State) (x : Sync) : (s.learnOwed x).ground = s.ground := by
  unfold State.learnOwed
  repeat' split
  all_goals simp

@[simp] theorem State.sendDue_ground (s : State) (r : Series) (leg due : Nat) : (s.sendDue r leg due).ground = s.ground := by
  unfold State.sendDue
  simp

@[simp] theorem State.milepostRecord_ground (s : State) (r : Series) (t : Nat) (e : Int) : (s.milepostRecord r t e).ground = s.ground := by
  unfold State.milepostRecord
  simp

@[simp] theorem State.setDue_ground (s : State) (r : Series) (due : Nat) : (s.setDue r due).ground = s.ground := by
  unfold State.setDue
  simp

@[simp] theorem State.paceFound_ground (s : State) (r : Series) (t : Nat) (e : Int) : (s.paceFound r t e).ground = s.ground := by
  unfold State.paceFound
  simp

@[simp] theorem State.sidebandFault_ground (s : State) : s.sidebandFault.ground = s.ground := by
  unfold State.sidebandFault
  simp

@[simp] theorem State.paceMissed_ground (s : State) (r : Series) (t : Nat) (e : Int) : (s.paceMissed r t e).ground = s.ground := by
  unfold State.paceMissed
  simp

@[simp] theorem State.paceMilepost_ground (s : State) (r : Series) (t : Nat) : (s.paceMilepost r t).ground = s.ground := by
  unfold State.paceMilepost
  simp only []
  repeat' split
  all_goals simp

@[simp] theorem State.placeZero_ground (s : State) (r : Series) (due : Nat) : (s.placeZero r due).ground = s.ground := by
  unfold State.placeZero
  simp

theorem execPaceEdge_calm (s : State) : Out.calm s (execPaceEdge s) := by
  unfold execPaceEdge
  simp only []
  repeat' split
  all_goals simp

theorem execPaceWindowEnd_calm (s : State) : Out.calm s (execPaceWindowEnd s) := by
  unfold execPaceWindowEnd
  repeat' split
  all_goals simp

theorem execPaceAcquireTimeout_calm (s : State) : Out.calm s (execPaceAcquireTimeout s) := by
  unfold execPaceAcquireTimeout
  split
  · simp
  · refine (Out.calm_happen _ s _).mpr (fun _ => ?_)
    rw [State.placeZero_ground, State.sidebandFault_ground, State.markG_ground]
    exact State.toTime_ground ..

@[simp] theorem State.learnDue_ground (s : State) (r : Series) (due : Nat) : (s.learnDue r due).ground = s.ground := by
  unfold State.learnDue
  split <;> simp

theorem execDue_calm (l : LinkIx) (b : Block) (s : State) : Out.calm s (execDue l b s) := by
  unfold execDue
  split
  · simp
  · split
    · simp
    · rename_i hin
      have ht := State.syncIn_ground hin
      simp only []
      split
      · split <;> simp [ht]
      · split
        · simp [ht]
        · simp [ht]

@[simp] theorem State.paceCtrl_ground (s : State) (v : W32) : (s.paceCtrl v).ground = s.ground := by
  unfold State.paceCtrl
  split <;> simp

theorem execRealign_calm (v : W32) (s : State) : Out.calm s (execRealign v s) := by
  unfold execRealign
  split
  · exact s.regCmd_calm _ _ _ (fun t => t.paceCtrl_ground _)
  · simp

@[simp] theorem State.powerConds_ground (s : State) : s.powerConds.ground = s.ground := by
  unfold State.powerConds
  simp

@[simp] theorem State.pinCheck_ground (s : State) (d : Nat) : (s.pinCheck d).ground = s.ground := by
  unfold State.pinCheck
  simp

@[simp] theorem State.keepLimit_ground (s : State) : s.keepLimit.ground = s.ground := by
  unfold State.keepLimit
  simp

@[simp] theorem State.throttle_ground (s : State) (source d prev new : Nat) (peak : Bool) : (s.throttle source d prev new peak).ground = s.ground := by
  unfold State.throttle
  simp

@[simp] theorem State.setKPow_ground (s0 : State) (v : Nat) (peak : Bool) : (s0.setKPow v peak).ground = s0.ground := by
  unfold State.setKPow
  simp

@[simp] theorem State.setKTh_ground (s0 : State) (v : Nat) : (s0.setKTh v).ground = s0.ground := by
  unfold State.setKTh
  simp

@[simp] theorem State.setKDroop_ground (s : State) (d v : Nat) : (s.setKDroop d v).ground = s.ground := by
  unfold State.setKDroop
  simp

theorem execPowerSample_calm (pkg : Nat) (inp : Nat) (s : State) : Out.calm s (execPowerSample pkg inp s) := by
  unfold execPowerSample
  simp

theorem execDroopDetect_calm (d : DieIx) (s : State) : Out.calm s (execDroopDetect d s) := by
  unfold execDroopDetect
  simp

theorem execDroopHoldEnd_calm (d : DieIx) (s : State) : Out.calm s (execDroopHoldEnd d s) := by
  unfold execDroopHoldEnd
  simp

theorem execDroopRise_calm (d : DieIx) (s : State) : Out.calm s (execDroopRise d s) := by
  unfold execDroopRise
  simp

@[simp] theorem State.opPolicy_ground (s : State) (kind target : Nat) : (s.opPolicy kind target).ground = s.ground := by
  unfold State.opPolicy
  simp

@[simp] theorem State.opDue_ground (s : State) : s.opDue.ground = s.ground := by
  unfold State.opDue
  simp only []
  split <;> simp

@[simp] theorem State.opMilepost_ground (s : State) (closes : Bool) : (s.opMilepost closes).ground = s.ground := by
  unfold State.opMilepost
  split <;> simp

theorem execOpDecision_calm (s : State) : Out.calm s (execOpDecision s) := by
  unfold execOpDecision
  simp only []
  split
  · simp
  · refine Out.calm_ite _ ?_ (Out.calm_ite _ ?_ ?_) <;> simp

theorem execVoltageRaiseDone_calm (s : State) : Out.calm s (execVoltageRaiseDone s) := by
  unfold execVoltageRaiseDone
  simp

@[simp] theorem State.pwrCtrl_ground (s0 : State) (v : W32) : (s0.pwrCtrl v).ground = s0.ground := by
  unfold State.pwrCtrl
  simp

theorem execPwrCtrlWrite_calm (v : W32) (s : State) : Out.calm s (execPwrCtrlWrite v s) := s.regCmd_calm _ _ _ (fun t => by simp)

end Sys2Proof.Machine
end

