-- ==== Sys2Proof/Proofs/GroundEngines.lean ====
section
/-! SUPPORT. The ground stands: the vector, row and merge engines, the caddy, experts and programs. -/

namespace Sys2Proof.Machine

@[simp] theorem State.vecGo_ground (s : State) (c : Nat) (o : Op) (drain : Option (List PWord × Nat)) (z : Nat) : (s.vecGo c o drain z).ground = s.ground := by
  unfold State.vecGo
  simp

@[simp] theorem State.vecFail_ground (s : State) (c : Nat) (o : Op) (status : Nat) : (s.vecFail c o status).ground = s.ground := by
  unfold State.vecFail
  simp

theorem execVecRun_calm (c : CoreIx) (z : Nat) (s : State) : Out.calm s (execVecRun c z s) := by
  unfold execVecRun
  repeat' split
  all_goals simp

theorem execVecRunEnd_calm (c : CoreIx) (s : State) : Out.calm s (execVecRunEnd c s) := by
  unfold execVecRunEnd
  simp

@[simp] theorem State.rowRunFn_ground (s : State) (c : Nat) (o : Op) (z : Nat) : (s.rowRunFn c o z).ground = s.ground := by
  unfold State.rowRunFn
  simp

@[simp] theorem State.rowFail_ground (s : State) (c : Nat) (o : Op) (status : Nat) : (s.rowFail c o status).ground = s.ground := by
  unfold State.rowFail
  simp

@[simp] theorem State.rowOverPot_ground (s : State) (c : Nat) (o : Op) (z : Nat) : (s.rowOverPot c o z).ground = s.ground := by
  unfold State.rowOverPot
  simp

@[simp] theorem State.statCopy_ground (s : State) (c : Nat) (o : Op) (z : Nat) : (s.statCopy c o z).ground = s.ground := by
  unfold State.statCopy
  simp

theorem State.rowCmd_calm (s : State) (c : Nat) (f z : Nat) : Out.calm s (s.rowCmd c f z) := by
  unfold State.rowCmd
  repeat' split
  all_goals simp

theorem execSoftmaxFwd_calm (c : CoreIx) (z : Nat) (s : State) : Out.calm s (execSoftmaxFwd c z s) := s.rowCmd_calm ..

theorem execSoftmaxBwd_calm (c : CoreIx) (z : Nat) (s : State) : Out.calm s (execSoftmaxBwd c z s) := s.rowCmd_calm ..

theorem execLnFwd_calm (c : CoreIx) (z : Nat) (s : State) : Out.calm s (execLnFwd c z s) := s.rowCmd_calm ..

theorem execLnBwd_calm (c : CoreIx) (z : Nat) (s : State) : Out.calm s (execLnBwd c z s) := s.rowCmd_calm ..

theorem execRmsFwd_calm (c : CoreIx) (z : Nat) (s : State) : Out.calm s (execRmsFwd c z s) := s.rowCmd_calm ..

theorem execRmsBwd_calm (c : CoreIx) (z : Nat) (s : State) : Out.calm s (execRmsBwd c z s) := s.rowCmd_calm ..

theorem execKdLoss_calm (c : CoreIx) (z : Nat) (s : State) : Out.calm s (execKdLoss c z s) := s.rowCmd_calm ..

theorem execStatSave_calm (c : CoreIx) (z : Nat) (s : State) : Out.calm s (execStatSave c z s) := s.rowCmd_calm ..

theorem execStatLoad_calm (c : CoreIx) (z : Nat) (s : State) : Out.calm s (execStatLoad c z s) := s.rowCmd_calm ..

theorem execRowOpEnd_calm (c : CoreIx) (s : State) : Out.calm s (execRowOpEnd c s) := by
  unfold execRowOpEnd
  repeat' split
  all_goals simp

@[simp] theorem mergeEarly_ground (s : State) (status : Nat) : (mergeEarly s status).st.ground = s.ground := rfl

@[simp] theorem State.mergeStart_ground (s : State) (c : Nat) (o : Op) (z : Nat) (m : MergeOut) : (s.mergeStart c o z m).ground = m.st.ground := by
  simp [State.mergeStart]

theorem State.mergeCmd_calm (s : State) (c opc z : Nat) (kind : Op → Bool) (run : Op → MergeOut) (h : ∀ o, (run o).st.ground = s.ground) :
    Out.calm s (s.mergeCmd c opc z kind run) := by
  unfold State.mergeCmd
  split
  · simp
  · split <;> simp [h]

@[simp] theorem State.segGo_ground (s : State) (c : Nat) (o : Op) : (s.segGo c o).st.ground = s.ground := by
  unfold State.segGo
  simp only []
  repeat' split
  all_goals simp

theorem execSegReduce_calm (c : CoreIx) (z : Nat) (s : State) : Out.calm s (execSegReduce c z s) := s.mergeCmd_calm _ _ _ _ _ (s.segGo_ground c.val)

@[simp] theorem State.sortGo_ground (s : State) (c : Nat) (o : Op) : (s.sortGo c o).st.ground = s.ground := by
  unfold State.sortGo
  simp only []
  repeat' split
  all_goals simp

theorem execSort_calm (c : CoreIx) (z : Nat) (s : State) : Out.calm s (execSort c z s) := s.mergeCmd_calm _ _ _ _ _ (s.sortGo_ground c.val)

@[simp] theorem State.compactGo_ground (s : State) (c : Nat) (o : Op) : (s.compactGo c o).st.ground = s.ground := by
  unfold State.compactGo
  simp only []
  repeat' split
  all_goals simp

theorem execCompact_calm (c : CoreIx) (z : Nat) (s : State) : Out.calm s (execCompact c z s) := s.mergeCmd_calm _ _ _ _ _ (s.compactGo_ground c.val)

@[simp] theorem State.bitmapDecodeGo_ground (s : State) (c : Nat) (o : Op) : (s.bitmapDecodeGo c o).st.ground = s.ground := by
  unfold State.bitmapDecodeGo
  simp only []
  repeat' split
  all_goals simp

theorem execBitmapDecode_calm (c : CoreIx) (z : Nat) (s : State) : Out.calm s (execBitmapDecode c z s) := s.mergeCmd_calm _ _ _ _ _ (s.bitmapDecodeGo_ground c.val)

@[simp] theorem State.bitmapPackGo_ground (s : State) (c : Nat) (o : Op) : (s.bitmapPackGo c o).st.ground = s.ground := by
  unfold State.bitmapPackGo
  simp only []
  repeat' split
  all_goals simp

theorem execBitmapPack_calm (c : CoreIx) (z : Nat) (s : State) : Out.calm s (execBitmapPack c z s) := s.mergeCmd_calm _ _ _ _ _ (s.bitmapPackGo_ground c.val)

@[simp] theorem State.compressGo_ground (s : State) (c : Nat) (o : Op) : (s.compressGo c o).st.ground = s.ground := by
  unfold State.compressGo
  extract_lets +onlyGivenNames k keepM lax target wf gs n blocks mA a d rb vB iB outB srcB rs w el vals mix mask cells nzs overfull outside badIx slots np f search s1 one st
  have hs1 : s1.ground = s.ground := by
    unfold s1
    rw [State.updCore_ground]
    split
    · exact s.free32_ground
    · rfl
  clear_value s1 st
  generalize firstFail _ = code
  split
  · split
    · exact hs1
    · exact (State.updCore_ground ..).trans hs1
  · exact mergeEarly_ground ..

theorem execSparseCompress_calm (c : CoreIx) (z : Nat) (s : State) : Out.calm s (execSparseCompress c z s) := s.mergeCmd_calm _ _ _ _ _ (s.compressGo_ground c.val)

@[simp] theorem mergeOk_ground (s : State) : (mergeOk s).st.ground = s.ground := rfl

@[simp] theorem State.kettleOpenGo_ground (s : State) (c : Nat) (o : Op) : (s.kettleOpenGo c o).st.ground = s.ground := by
  unfold State.kettleOpenGo
  simp only []
  repeat' split
  all_goals simp

theorem execKettleOpen_calm (c : CoreIx) (z : Nat) (s : State) : Out.calm s (execKettleOpen c z s) := s.mergeCmd_calm _ _ _ _ _ (s.kettleOpenGo_ground c.val)

@[simp] theorem State.kettleDiscardGo_ground (s : State) (c : Nat) (o : Op) : (s.kettleDiscardGo c o).st.ground = s.ground := by
  unfold State.kettleDiscardGo
  simp only []
  repeat' split
  all_goals simp

theorem execKettleDiscard_calm (c : CoreIx) (z : Nat) (s : State) : Out.calm s (execKettleDiscard c z s) := s.mergeCmd_calm _ _ _ _ _ (s.kettleDiscardGo_ground c.val)

@[simp] theorem State.freeWords_ground (s : State) (n : Nat) : (s.freeWords n).2.ground = s.ground := by
  suffices h : ∀ (l : List Nat) (p : List W32 × State),
      (l.foldl (fun p _ => (p.1 ++ [p.2.free32.1], p.2.free32.2)) p).2.ground = p.2.ground from h _ _
  intro l
  induction l with
  | nil => intro p; rfl
  | cons i l ih => intro p; exact ih _

theorem execMergeOpEnd_calm (c : CoreIx) (s : State) : Out.calm s (execMergeOpEnd c s) := by
  unfold execMergeOpEnd
  simp only []
  repeat' split
  all_goals simp

@[simp] theorem State.setCst_ground (s : State) (e : Nat) (x : CaddySt) : (s.setCst e x).ground = s.ground := by
  unfold State.setCst
  simp

theorem execCaddyBind_calm (c : CoreIx) (z : Nat) (s : State) : Out.calm s (execCaddyBind c z s) := by
  unfold execCaddyBind
  simp only []
  repeat' split
  all_goals simp

@[simp] theorem State.caddyStart_ground (s : State) (c : Nat) (o : Op) (m : MemRun) (status poison z : Nat) : (s.caddyStart c o m status poison z).ground = s.ground := by
  unfold State.caddyStart
  simp only []
  split <;> simp

@[simp] theorem State.popWaits_ground (s : State) (c e : Nat) (goes : Bool) : (s.popWaits c e goes).ground = s.ground := by
  unfold State.popWaits
  simp

theorem execCaddyCopyDone_calm (e : Fin 64) (k : Fin 32) (s : State) : Out.calm s (execCaddyCopyDone e k s) := by
  unfold execCaddyCopyDone
  simp only []
  repeat' split
  all_goals simp

@[simp] theorem State.placePolicy_ground (s : State) (code seq check : Nat) : (s.placePolicy code seq check).ground = s.ground := by
  unfold State.placePolicy
  simp

@[simp] theorem State.placeConflict_ground (s : State) (code seq e : Nat) : (s.placeConflict code seq e).ground = s.ground := by
  unfold State.placeConflict
  simp

@[simp] theorem State.verCheck_ground (s : State) (v : Version) : (s.verCheck v).2.ground = s.ground := by
  unfold State.verCheck
  split <;> simp

@[simp] theorem State.dropVersion_ground (s : State) (v : Version) (code : Nat) : (s.dropVersion v code).ground = s.ground := by
  unfold State.dropVersion
  rw [State.placePolicy_ground]
  exact s.verCheck_ground v

@[simp] theorem State.proposed_ground (s : State) (v : Version) (p : Proposal) : (s.proposed v p).ground = s.ground := by
  unfold State.proposed
  simp

theorem execPlacementProposal_calm (host : List HostReply) (s : State) : Out.calm s (execPlacementProposal host s) := by
  unfold execPlacementProposal
  simp only []
  repeat' split
  all_goals simp

@[simp] theorem State.emptyTlbs_ground (s : State) : s.emptyTlbs.ground = s.ground := by
  unfold State.emptyTlbs
  simp

@[simp] theorem State.buildVersion_ground (s : State) (v : Version) : (s.buildVersion v).1.ground = s.ground := by
  simp [State.buildVersion]

@[simp] theorem State.vetoVersion_ground (s : State) (v : Version) : (s.vetoVersion v).ground = s.ground := by
  unfold State.vetoVersion
  rw [State.placeConflict_ground]
  exact s.dropVersion_ground v 2

@[simp] theorem State.closeInterval_ground (s : State) (leg : Nat) : (s.closeInterval leg).ground = s.ground := by
  unfold State.closeInterval
  simp

@[simp] theorem McRun.image_ground (m : McRun) (va : Nat) : (m.image va).1.st.ground = m.st.ground := by
  unfold McRun.image
  simp only []
  split <;> simp

theorem execLoadProgram_calm (host : List HostReply) (s : State) : Out.calm s (execLoadProgram host s) := by
  unfold execLoadProgram
  split
  · exact ⟨s, rfl, rfl⟩
  next d _ =>
    extract_lets +onlyGivenNames sel va mva im mk ws t cs b s1
    have hmk : mk.st.ground = s.ground := by
      unfold mk im
      split <;> simp
    have hs1 : s1.ground = s.ground := (State.foldl_keeps State.ground _ (fun u c => State.updCore_ground u c _) cs _).trans ((State.startDesc_ground ..).trans hmk)
    have ht : t.ground = s.ground := hmk
    clear_value s1 cs t mk
    split
    · exact ⟨_, rfl, State.complete_ground ..⟩
    · split
      · exact ⟨_, rfl, State.complete_ground ..⟩
      · split
        · exact ⟨_, rfl, (State.complete_ground ..).trans hmk⟩
        · split
          · exact ⟨s, rfl, rfl⟩
          · split
            · exact ⟨_, rfl, (State.complete_ground ..).trans ht⟩
            · split
              · exact ⟨_, rfl, (State.complete_ground ..).trans ht⟩
              · split
                · exact ⟨_, rfl, (State.complete_ground ..).trans ht⟩
                · exact ⟨_, rfl, hs1⟩

theorem execProgramChunk_calm (c : CoreIx) (i : Nat) (data : List W64) (crc : W32) (s : State) : Out.calm s (execProgramChunk c i data crc s) := by
  unfold execProgramChunk
  simp only []
  repeat' split
  all_goals simp

@[simp] theorem State.loadEnd_ground (s : State) (b : Broadcast) (bad : List Nat) : (s.loadEnd b bad).ground = s.ground := by
  unfold State.loadEnd
  simp only []
  split <;> simp

theorem execBroadcastRepair_calm (s : State) : Out.calm s (execBroadcastRepair s) := by
  unfold execBroadcastRepair
  simp only []
  repeat' split
  all_goals simp

theorem execCorePowerDown_calm (c : CoreIx) (s : State) : Out.calm s (execCorePowerDown c s) := by
  unfold execCorePowerDown
  simp only []
  split <;> simp

theorem execCorePowerUp_calm (c : CoreIx) (s : State) : Out.calm s (execCorePowerUp c s) := by
  unfold execCorePowerUp
  simp

end Sys2Proof.Machine
end

