-- ==== Sys2Proof/Proofs/GroundLegs.lean ====
section
/-! SUPPORT. The ground stands: tables, legs, the arrays, queries and time. -/

namespace Sys2Proof.Machine

@[simp] theorem State.flagWrite_ground (s : State) (c ix : Nat) (b : Bool) : (s.flagWrite c ix b).ground = s.ground := by
  unfold State.flagWrite
  simp

@[simp] theorem State.caddyWrite_ground (s : State) (e v : Nat) : (s.caddyWrite e v).ground = s.ground := by
  unfold State.caddyWrite
  simp

@[simp] theorem State.fmtWrite_ground (s : State) (f v : Nat) : (s.fmtWrite f v).ground = s.ground := by
  unfold State.fmtWrite
  simp

@[simp] theorem McRun.busPiece_ground (m : McRun) (a n : Nat) : (m.busPiece a n).st.ground = m.st.ground := by
  have hline := m.st.hostLine_ground mcUnit (a / 64 * 64) m.host
  unfold McRun.busPiece
  split
  · rfl
  · split
    all_goals
      rename_i hl
      rw [hl] at hline
      exact hline

@[simp] theorem McRun.bus_ground (m : McRun) (a n : Nat) : (m.bus a n).st.ground = m.st.ground := by
  have hrun := McRun.foldl_ground (fun (q : McRun) (p : Nat × Nat) => q.busPiece p.1 p.2) (fun q p => q.busPiece_ground p.1 p.2)
    (linePieces (n / 64 + 2) a n) { m with bytes := [] }
  exact hrun

theorem execTagAreaFlashWritten_calm (s : State) : Out.calm s (execTagAreaFlashWritten s) := by
  unfold execTagAreaFlashWritten
  simp only []
  repeat' split
  all_goals simp

@[simp] theorem State.stretchBegin_ground (s : State) (n : Nat) (m : W16) (cause sub : Nat) : (s.stretchBegin n m cause sub).ground = s.ground := by
  unfold State.stretchBegin
  simp

@[simp] theorem State.sendStretch_ground (s : State) (n : Nat) (cause sub : Nat) : (s.sendStretch n cause sub).ground = s.ground := by
  unfold State.sendStretch
  simp

@[simp] theorem State.stopGroup_ground (s : State) (n : Nat) : (s.stopGroup n).ground = s.ground := by
  unfold State.stopGroup
  simp

@[simp] theorem State.completeOrder_ground (s : State) (o status d0 d1 : Nat) : (s.completeOrder o status d0 d1).ground = s.ground := by
  unfold State.completeOrder
  split <;> simp

@[simp] theorem State.endRuns_ground (s : State) (n status d0 d1 : Nat) : (s.endRuns n status d0 d1).ground = s.ground := by
  unfold State.endRuns
  simp

@[simp] theorem State.concludeGroup_ground (s : State) (n leg : Nat) (m : W16) (cause sub : Nat) (soft : Bool) : (s.concludeGroup n leg m cause sub soft).ground = s.ground := by
  unfold State.concludeGroup
  simp only []
  split <;> simp

@[simp] theorem State.seriesEnd_ground (s : State) : s.seriesEnd.ground = s.ground := by
  unfold State.seriesEnd
  simp only [State.applyAbsent_ground]
  refine State.ground_foldl _ (fun t p => ?_) _ _
  split <;> simp

@[simp] theorem State.limitMark_ground (s : State) (n dl : Nat) : (s.limitMark n dl).ground = s.ground := by
  unfold State.limitMark
  simp

theorem execModuleReady_calm (s : State) : Out.calm s (execModuleReady s) := by
  unfold execModuleReady
  split <;> simp

@[simp] theorem State.roundsLeft_ground (s : State) : s.roundsLeft.ground = s.ground := by
  unfold State.roundsLeft
  simp

@[simp] theorem State.runMilepost_ground (s : State) (m n : Nat) : (s.runMilepost m n).ground = s.ground := by
  unfold State.runMilepost
  repeat' split
  all_goals simp

@[simp] theorem State.stretchEnd_ground (s : State) (r : Series) (due : Nat) : (s.stretchEnd r due).ground = s.ground := by
  unfold State.stretchEnd
  simp

@[simp] theorem State.releaseDue_ground (s : State) : s.releaseDue.ground = s.ground := by
  unfold State.releaseDue
  refine State.ground_foldl _ (fun t x => ?_) _ _
  split <;> simp

@[simp] theorem State.openConds_ground (s : State) : s.openConds.ground = s.ground := by
  unfold State.openConds
  simp

@[simp] theorem State.beginGroups_ground (s : State) (m : Nat) : (s.beginGroups m).ground = s.ground := by
  unfold State.beginGroups
  refine State.ground_foldl _ (fun t p => ?_) _ _
  split <;> simp

@[simp] theorem State.milepostDescs_ground (s : State) (ready : List Nat) : (s.milepostDescs ready).ground = s.ground := by
  unfold State.milepostDescs
  simp

@[simp] theorem State.undoubt_ground (s : State) (n : Nat) : (s.undoubt n).ground = s.ground := by
  unfold State.undoubt
  simp only []
  split <;> simp

@[simp] theorem State.sendOwed_ground (s : State) (n : Nat) (w : Owed) : (s.sendOwed n w).ground = s.ground := by
  simp [State.sendOwed]

theorem execDueTime_calm (g : GroupIx) (s : State) : Out.calm s (execDueTime g s) := by
  unfold execDueTime
  repeat' split
  all_goals simp

@[simp] theorem State.oweAdopted_ground (s : State) (mask box : Nat) : (s.oweAdopted mask box).ground = s.ground := by
  unfold State.oweAdopted
  simp

@[simp] theorem State.arrayLoad_ground (s : State) (c : Nat) (o : Op) : (s.arrayLoad c o).ground = s.ground := by
  unfold State.arrayLoad
  simp only []
  split <;> simp

@[simp] theorem State.arrayRows_ground (s : State) (c : Nat) (o : Op) (st : Stall) : (s.arrayRows c o st).ground = s.ground := by
  unfold State.arrayRows
  simp only []
  repeat' split
  all_goals simp

@[simp] theorem State.arrayWgrad_ground (s : State) (c : Nat) (o : Op) (st : Stall) : (s.arrayWgrad c o st).ground = s.ground := by
  unfold State.arrayWgrad
  simp only []
  split <;> simp

theorem execArrayLoad_calm (c : CoreIx) (s : State) : Out.calm s (execArrayLoad c s) := by
  unfold execArrayLoad
  split <;> simp

theorem execArrayFeed_calm (c : CoreIx) (st : Stall) (s : State) : Out.calm s (execArrayFeed c st s) := by
  unfold execArrayFeed
  split <;> simp

theorem execGatherDeadline_calm (c : CoreIx) (s : State) : Out.calm s (execGatherDeadline c s) := by
  unfold execGatherDeadline
  split <;> simp

theorem execArrayReverse_calm (c : CoreIx) (st : Stall) (s : State) : Out.calm s (execArrayReverse c st s) := by
  unfold execArrayReverse
  split <;> simp

theorem execArrayWgrad_calm (c : CoreIx) (st : Stall) (s : State) : Out.calm s (execArrayWgrad c st s) := by
  unfold execArrayWgrad
  split <;> simp

@[simp] theorem State.arrayRetire_ground (s : State) (c : Nat) (id : Nat) : (s.arrayRetire c id).ground = s.ground := by
  unfold State.arrayRetire
  split <;> simp

theorem execArrayOpEnd_calm (c : CoreIx) (n : Nat) (s : State) : Out.calm s (execArrayOpEnd c n s) := by
  unfold execArrayOpEnd
  split
  · simp
  · split
    · simp
    · rename_i hend
      simp [State.toEnd_ground hend]

theorem execTimeSymbolSend_calm (s : State) : Out.calm s (execTimeSymbolSend s) := by
  unfold execTimeSymbolSend
  simp

@[simp] theorem State.chooseParent_ground (s : State) (disagreed : Bool) : (s.chooseParent disagreed).ground = s.ground := by
  unfold State.chooseParent
  simp

@[simp] theorem State.stepTime_ground (s : State) (d : Int) : (s.stepTime d).ground = s.ground := by
  unfold State.stepTime
  simp

@[simp] theorem State.estimate_ground (s : State) (o : Int) : (s.estimate o).ground = s.ground := by
  unfold State.estimate
  simp

theorem execTime_calm (l : LinkIx) (b : Block) (s : State) : Out.calm s (execTime l b s) := by
  unfold execTime
  split <;> simp

@[simp] theorem State.timeSet_ground (s : State) (hi : W32) : (s.timeSet hi).ground = s.ground := by
  unfold State.timeSet
  simp

theorem execTimeSet_calm (hi : W32) (s : State) : Out.calm s (execTimeSet hi s) := s.regCmd_calm _ _ _ (fun t => t.timeSet_ground _)

theorem execTimeNowRead_calm (s : State) : Out.calm s (execTimeNowRead s) := by
  unfold execTimeNowRead
  simp

theorem execLegNoRead_calm (s : State) : Out.calm s (execLegNoRead s) := by
  unfold execLegNoRead
  simp

end Sys2Proof.Machine
end

