-- ==== Sys2Proof/Proofs/GroundControl.lean ====
section
/-! SUPPORT. The ground stands: registers, the recorder, start-up, joins, replay and the responder. -/

namespace Sys2Proof.Machine

theorem execRingNextRead_calm (s : State) : Out.calm s (execRingNextRead s) := by
  unfold execRingNextRead
  simp

@[simp] theorem State.ringWrite_ground (s : State) (k o : Nat) (v : W32) : (s.ringWrite k o v).ground = s.ground := by
  unfold State.ringWrite
  split <;> simp

/-- What an ordinary register write can do: it changes one block of the host port, start-up, time, pace, power or the recorder. -/
theorem State.plainWrite_cases {P : State → Prop} (s : State) (off : Nat) (v : W32) (hself : P s) (hhost : ∀ x, P { s with host := x })
    (hboot : ∀ x : BootSt, x.running = s.boot.running → x.st = s.boot.st → P { s with boot := x }) (htime : ∀ x, P { s with time := x })
    (hpace : ∀ x, P { s with pace := x }) (hpower : ∀ x, P { s with power := x }) (htrace : ∀ x, P { s with trace := x }) : P (s.plainWrite off v) := by
  unfold State.plainWrite
  dsimp only
  split
  case h_7 =>
    split
    · exact hboot _ rfl rfl
    · exact hself
  case h_1 | h_2 | h_18 => exact hhost _
  case h_3 | h_4 | h_5 | h_6 => exact hboot _ rfl rfl
  case h_8 | h_9 | h_10 => exact htime _
  case h_11 | h_12 => exact hpace _
  case h_13 | h_14 | h_15 | h_16 | h_17 => exact hpower _
  case h_19 | h_20 | h_21 | h_22 | h_23 => exact htrace _
  case h_24 => exact hself

@[simp] theorem State.plainWrite_ground (s : State) (off : Nat) (v : W32) : (s.plainWrite off v).ground = s.ground := by
  refine State.plainWrite_cases s off v (P := fun t => t.ground = s.ground) rfl (fun _ => rfl) (fun x hx _ => ?_) (fun _ => rfl) (fun _ => rfl)
    (fun _ => rfl) (fun _ => rfl)
  simp [hx]

@[simp] theorem State.ordinaryWrite_ground (s : State) (off : Nat) (v : W32) : (s.ordinaryWrite off v).ground = s.ground := by
  unfold State.ordinaryWrite
  simp

theorem execRegisterWrite_calm (off : W16) (v : W32) (s : State) : Out.calm s (execRegisterWrite off v s) := by
  unfold execRegisterWrite
  split
  · simp
  · exact s.regCmd_calm _ _ _ (fun t => t.ordinaryWrite_ground _ _)

@[simp] theorem State.putStart_ground (s : State) (p : List Line) : (s.putStart p).ground = s.ground := by
  unfold State.putStart
  simp

@[simp] theorem State.startCapture_ground (s : State) : s.startCapture.ground = s.ground := by
  unfold State.startCapture
  simp

@[simp] theorem State.recCtrl_ground (s : State) (v : W32) : (s.recCtrl v).ground = s.ground := by
  unfold State.recCtrl
  simp

theorem execCaptureArm_calm (v : W32) (s : State) : Out.calm s (execCaptureArm v s) := by
  unfold execCaptureArm
  split
  · exact s.regCmd_calm _ _ _ (fun t => t.recCtrl_ground _)
  · simp

theorem execFreeze_calm (v : W32) (s : State) : Out.calm s (execFreeze v s) := by
  unfold execFreeze
  split
  · exact s.regCmd_calm _ _ _ (fun t => t.recCtrl_ground _)
  · simp

@[simp] theorem State.recSize_ground (s : State) (v : W32) : (s.recSize v).ground = s.ground := by
  unfold State.recSize
  simp

theorem execRecSizeWrite_calm (v : W32) (s : State) : Out.calm s (execRecSizeWrite v s) := s.regCmd_calm _ _ _ (fun t => t.recSize_ground _)

@[simp] theorem State.failLink_ground (s : State) (l : Nat) : (s.failLink l).ground = s.ground := by
  unfold State.failLink
  simp

@[simp] theorem State.dropGroups_ground (s : State) (cause sub : Nat) : (s.dropGroups cause sub).ground = s.ground := by
  unfold State.dropGroups
  simp only []
  refine (State.ground_foldl _ (fun t p => ?_) _ _).trans (by simp)
  split
  · split <;> simp
  · rfl

@[simp] theorem State.haltCores_ground (s : State) : s.haltCores.ground = s.ground := by
  unfold State.haltCores
  simp

@[simp] theorem State.dropJoins_ground (s : State) (status : Option Nat) : (s.dropJoins status).ground = s.ground := by
  unfold State.dropJoins
  refine State.ground_foldl _ (fun t p => ?_) _ _
  split
  · rfl
  · split <;> simp

@[simp] theorem State.beginStop_ground (s : State) (sub die : Nat) : (s.beginStop sub die).ground = s.ground := by
  unfold State.beginStop
  simp

@[simp] theorem State.haltBlock_ground (s : State) (l : Nat) : (s.haltBlock l).ground = s.ground := by
  unfold State.haltBlock
  simp

@[simp] theorem State.linkOff_ground (s : State) (l : Nat) : (s.linkOff l).ground = s.ground := by
  unfold State.linkOff
  simp

theorem execStopHaltLinks_calm (s : State) : Out.calm s (execStopHaltLinks s) := by
  unfold execStopHaltLinks
  simp

theorem execStopDescriptorsCut_calm (s : State) : Out.calm s (execStopDescriptorsCut s) := by
  unfold execStopDescriptorsCut
  simp

@[simp] theorem State.thermalCut_ground (s : State) : s.thermalCut.ground = s.ground := by
  unfold State.thermalCut
  simp

@[simp] theorem State.thermalStop_ground (s : State) (die : Nat) : (s.thermalStop die).ground = s.ground := by
  unfold State.thermalStop
  split <;> simp

theorem execThermalSample_calm (junction : List (DieIx × Int)) (s : State) : Out.calm s (execThermalSample junction s) := by
  unfold execThermalSample
  simp only []
  split <;> simp

theorem execHbmTempReport_calm (stack : Fin 8) (t : Int) (s : State) : Out.calm s (execHbmTempReport stack t s) := by
  unfold execHbmTempReport
  simp

theorem execThermalStep_calm (s : State) : Out.calm s (execThermalStep s) := by
  unfold execThermalStep
  simp

theorem execFlowOkLow_calm (s : State) : Out.calm s (execFlowOkLow s) := by
  unfold execFlowOkLow
  simp

theorem execFlowOkHigh_calm (s : State) : Out.calm s (execFlowOkHigh s) := by
  unfold execFlowOkHigh
  split <;> simp

theorem execCoolantStop_calm (s : State) : Out.calm s (execCoolantStop s) := by
  have hflow (u : State) : ({ u with power := { u.power with flowLowSince := none } } : State).ground = u.ground := rfl
  unfold execCoolantStop
  split
  · exact ⟨s, rfl, rfl⟩
  · exact ⟨_, rfl, (State.beginStop_ground ..).trans ((hflow _).trans (State.advance_ground ..))⟩

@[simp] theorem State.portUp_ground (s : State) : s.portUp.ground = s.ground := by
  unfold State.portUp
  simp

theorem execSenseOpen_calm (r : Fin 8) (s : State) : Out.calm s (execSenseOpen r s) := by
  unfold execSenseOpen
  simp

theorem execSidebandStuck_calm (s : State) : Out.calm s (execSidebandStuck s) := by
  unfold execSidebandStuck
  simp

theorem execSidebandRetry_calm (free : Bool) (s : State) : Out.calm s (execSidebandRetry free s) := by
  unfold execSidebandRetry
  simp

@[simp] theorem State.newDefect_ground (s : State) (unit : Nat) : (s.newDefect unit).ground = s.ground := by
  unfold State.newDefect
  simp

@[simp] theorem State.markCores_ground (s : State) : s.markCores.ground = s.ground := by
  unfold State.markCores
  simp

@[simp] theorem State.markMems_ground (s : State) : s.markMems.ground = s.ground := by
  unfold State.markMems
  simp

@[simp] theorem State.markRest_ground (s : State) : s.markRest.ground = s.ground := by
  unfold State.markRest
  simp

@[simp] theorem State.coresOn_ground (s : State) : s.coresOn.ground = s.ground := by
  unfold State.coresOn
  simp

@[simp] theorem State.failStart_ground (s : State) (code : Nat) : (s.failStart code).ground = s.ground := by
  unfold State.failStart
  simp

theorem execFwStartDone_calm (s : State) : Out.calm s (execFwStartDone s) := by
  unfold execFwStartDone
  simp

theorem execStartupTestDone_calm (t : Defects) (s : State) : Out.calm s (execStartupTestDone t s) := by
  unfold execStartupTestDone
  simp

@[simp] theorem State.untrained_ground (s : State) (d status : Nat) : (s.untrained d status).ground = s.ground := by
  unfold State.untrained
  simp

@[simp] theorem State.measFixed_ground (s : State) : s.measFixed.ground = s.ground := by
  unfold State.measFixed
  simp

@[simp] theorem State.rangeMark_ground (s : State) : s.rangeMark.ground = s.ground := by
  unfold State.rangeMark
  simp

@[simp] theorem State.owe_ground (s : State) (ns : List Nat) (leg : Nat) (due : Option Nat) : (s.owe ns leg due).ground = s.ground := by
  unfold State.owe
  simp

@[simp] theorem State.cutBroadcast_ground (s : State) : s.cutBroadcast.ground = s.ground := by
  unfold State.cutBroadcast
  split <;> simp

@[simp] theorem State.dropBarriers_ground (s : State) : s.dropBarriers.ground = s.ground := by
  unfold State.dropBarriers
  simp

theorem execCpPowerOff_calm (s : State) : Out.calm s (execCpPowerOff s) := by
  unfold execCpPowerOff
  simp

@[simp] theorem State.imgBegin_ground (s : State) (push : Bool) : (s.imgBegin push).ground = s.ground := by
  unfold State.imgBegin
  simp

@[simp] theorem State.imgCtrl_ground (s : State) (v : W32) : (s.imgCtrl v).ground = s.ground := by
  unfold State.imgCtrl
  simp

theorem execPush_calm (v : W32) (s : State) : Out.calm s (execPush v s) := by
  unfold execPush
  split
  · exact s.regCmd_calm _ _ _ (fun t => t.imgCtrl_ground _)
  · simp

theorem execUpdate_calm (v : W32) (s : State) : Out.calm s (execUpdate v s) := by
  unfold execUpdate
  split
  · exact s.regCmd_calm _ _ _ (fun t => t.imgCtrl_ground _)
  · simp

@[simp] theorem State.imgFail_ground (s : State) (code : Nat) : (s.imgFail code).ground = s.ground := by
  unfold State.imgFail
  simp

@[simp] theorem State.captureImage_ground (s : State) (b : List Byte) : (s.captureImage b).ground = s.ground := by
  unfold State.captureImage
  simp

@[simp] theorem State.trainCtrl_ground (s : State) (v : W32) : (s.trainCtrl v).ground = s.ground := by
  unfold State.trainCtrl
  simp

theorem execRecordClear_calm (v : W32) (s : State) : Out.calm s (execRecordClear v s) := by
  unfold execRecordClear
  split
  · exact s.regCmd_calm _ _ _ (fun t => t.trainCtrl_ground _)
  · simp

theorem execHostPerstNAssert_calm (s : State) : Out.calm s (execHostPerstNAssert s) := by
  unfold execHostPerstNAssert
  simp

theorem execHostPerstNRelease_calm (s : State) : Out.calm s (execHostPerstNRelease s) := by
  unfold execHostPerstNRelease
  simp

@[simp] theorem State.joinFails_ground (s : State) (n o status : Nat) : (s.joinFails n o status).ground = s.ground := by
  unfold State.joinFails
  simp

@[simp] theorem State.foundSeries_ground (s : State) (n : Nat) (ms : List Marker) : (s.foundSeries n ms).ground = s.ground := by
  unfold State.foundSeries
  simp

@[simp] theorem State.joinCheck_ground (s : State) (n : Nat) : (s.joinCheck n).ground = s.ground := by
  unfold State.joinCheck
  simp only []
  repeat' split
  all_goals simp

@[simp] theorem State.sendMarker_ground (s : State) (n : Nat) : (s.sendMarker n).ground = s.ground := by
  unfold State.sendMarker
  simp

theorem execJoin_calm (host : List HostReply) (s : State) : Out.calm s (execJoin host s) := by
  unfold execJoin
  split
  · simp
  · refine Out.calm_ite _ (by simp) (Out.calm_ite _ (by simp) (Out.calm_ite _ (by simp) ?_))
    dsimp only
    split
    · simp
    · exact Out.calm_ite _ (by simp) (Out.calm_ite _ (by simp) (Out.calm_ite _ (by simp) (by simp)))

theorem execJoinMarker_calm (l : LinkIx) (b : Block) (s : State) : Out.calm s (execJoinMarker l b s) := by
  unfold execJoinMarker
  simp only []
  split
  · simp
  · split
    · simp
    · rename_i hin
      simp [State.syncIn_ground hin]

theorem execRunLegs_calm (s : State) : Out.calm s (execRunLegs s) := by
  unfold execRunLegs
  repeat' split
  all_goals simp

theorem execRunLegsStart_calm (g : GroupIx) (s : State) : Out.calm s (execRunLegsStart g s) := by
  unfold execRunLegsStart
  simp only []
  repeat' split
  all_goals simp

@[simp] theorem State.startRegs_ground (s : State) (base : Nat) : (s.startRegs base).ground = s.ground := by
  unfold State.startRegs
  simp

@[simp] theorem State.linksDisabled_ground (s : State) : s.linksDisabled.ground = s.ground := by
  refine State.ground_foldl (fun t l => if (t.link l).st = .down then t else t.linkLeave l .down unusable) (fun t l => ?_) (List.range 24) s
  split
  · rfl
  · exact State.linkLeave_ground ..

@[simp] theorem State.loadBad_ground (s : State) : s.loadBad.ground = s.ground := by
  unfold State.loadBad
  simp

theorem execReplayLoadDone_calm (lines : List HostReply) (s : State) : Out.calm s (execReplayLoadDone lines s) := by
  unfold execReplayLoadDone
  simp only []
  repeat' split
  all_goals simp

theorem State.recordDue_ground {s t : State} {i : Nat} (h : s.recordDue i = some t) : t.ground = s.ground := by
  unfold State.recordDue at h
  simp only [] at h
  repeat' split at h
  all_goals cases h
  all_goals simp

@[simp] theorem State.sbAnswer_ground (s : State) (d : List Byte) : (s.sbAnswer d).ground = s.ground := by
  unfold State.sbAnswer
  simp

theorem execEntdaa_calm (addr : BitVec 7) (s : State) : Out.calm s (execEntdaa addr s) := by
  unfold execEntdaa
  simp

theorem execSetdasa_calm (static addr : BitVec 7) (s : State) : Out.calm s (execSetdasa static addr s) := by
  unfold execSetdasa
  simp

theorem execRstdaa_calm (s : State) : Out.calm s (execRstdaa s) := by
  unfold execRstdaa
  simp

theorem execGetpid_calm (s : State) : Out.calm s (execGetpid s) := by
  unfold execGetpid
  simp

theorem execGetbcr_calm (s : State) : Out.calm s (execGetbcr s) := by
  unfold execGetbcr
  simp

theorem execGetdcr_calm (s : State) : Out.calm s (execGetdcr s) := by
  unfold execGetdcr
  simp

theorem execGetstatus_calm (s : State) : Out.calm s (execGetstatus s) := by
  unfold execGetstatus
  simp

theorem execSbRead_calm (off : Byte) (n : Nat) (s : State) : Out.calm s (execSbRead off n s) := by
  unfold execSbRead
  simp

@[simp] theorem State.respond_ground (s : State) (name : String) (d : List Byte) : (s.respond name d).ground = s.ground := by
  unfold State.respond
  simp

@[simp] theorem State.spdmError_ground (s : State) : s.spdmError.ground = s.ground := by
  unfold State.spdmError
  simp

theorem State.spdmAsk_calm (s : State) (ok : Bool) (t : State) (h : t.ground = s.ground) : Out.calm s (s.spdmAsk ok t) := by
  unfold State.spdmAsk
  rw [Out.calm_happen]
  intro _
  split <;> simp [h]

theorem execGetVersion_calm (s : State) : Out.calm s (execGetVersion s) := by
  unfold execGetVersion
  simp

theorem execGetCapabilities_calm (s : State) : Out.calm s (execGetCapabilities s) := by
  unfold execGetCapabilities
  simp

theorem execNegotiateAlgorithms_calm (s : State) : Out.calm s (execNegotiateAlgorithms s) := by
  unfold execNegotiateAlgorithms
  simp

theorem execGetDigests_calm (s : State) : Out.calm s (execGetDigests s) := by
  refine State.spdmAsk_calm _ _ _ ?_
  simp

theorem execGetCertificate_calm (slot off len : Nat) (s : State) : Out.calm s (execGetCertificate slot off len s) := by
  refine State.spdmAsk_calm _ _ _ ?_
  simp

@[simp] theorem State.sign_ground (s : State) (j : SignJob) : (s.sign j).ground = s.ground := by
  unfold State.sign
  simp

theorem execChallenge_calm (slot : Nat) (nonce : Block) (s : State) : Out.calm s (execChallenge slot nonce s) := by
  refine State.spdmAsk_calm _ _ _ ?_
  simp

theorem execGetMeasurements_calm (ix : Nat) (sign : Bool) (nonce : Block) (s : State) : Out.calm s (execGetMeasurements ix sign nonce s) := by
  refine State.spdmAsk_calm _ _ _ ?_
  repeat' split
  all_goals simp

theorem execKeyExchange_calm (exch : List Byte) (s : State) : Out.calm s (execKeyExchange exch s) := by
  refine State.spdmAsk_calm _ _ _ ?_
  simp

theorem execFinish_calm (mac : List Byte) (s : State) : Out.calm s (execFinish mac s) := by
  refine State.spdmAsk_calm _ _ _ ?_
  simp

theorem execEndSession_calm (s : State) : Out.calm s (execEndSession s) := by
  refine State.spdmAsk_calm _ _ _ ?_
  simp

theorem execSpdmSignDone_calm (s : State) : Out.calm s (execSpdmSignDone s) := by
  unfold execSpdmSignDone
  split <;> simp

@[simp] theorem State.withFetchWord_ground (s : State) (nbits w : Nat) : (s.withFetchWord nbits w).ground = s.ground := rfl

end Sys2Proof.Machine
end

