-- ==== Sys2Proof/Proofs/KeepsMemory.lean ====
section
/-! SUPPORT. What a step keeps of the ground, and that the writes of device memory, the DMA engine and memory maintenance keep it. -/

namespace Sys2Proof.Machine

/-- The floor that a ground holds: the fuses' where the flash holds none (R430). -/
def Ground.floor (a : Ground) : Nat := a.2.2.1.getD (Config.secFloor % 64)

/-- The floor and the running image's SEC_VERSION lie within 0 to 63 (R430). -/
def Ground.Within (a : Ground) : Prop := a.floor ≤ 63 ∧ ∀ i, a.2.2.2 = some i → i.secVersion ≤ 63

/-- What O2, O3 and O6 say of a step, from the ground before it to the ground after it. -/
structure Ground.Keeps (a b : Ground) : Prop where
  pending : b.1 = a.1
  mem : a.2.1.canonical = true → b.2.1.canonical = true
  floor : a.floor ≤ b.floor
  within : a.Within → b.Within

namespace Ground

@[simp] theorem Keeps.refl (a : Ground) : Keeps a a := ⟨rfl, id, le_rfl, id⟩

theorem Keeps.trans {a b c : Ground} (h : Keeps a b) (k : Keeps b c) : Keeps a c :=
  ⟨k.pending.trans h.pending, fun m => k.mem (h.mem m), h.floor.trans k.floor, fun w => k.within (h.within w)⟩

theorem Keeps.of_eq {a b c : Ground} (h : Keeps a b) (e : c = b) : Keeps a c := e ▸ h

/-- Where the memory alone changes, its canonical form is all there is to keep. -/
theorem Keeps.of_mem {g : Ground} {s t : State} (h : Keeps g s.ground) (e : t.ground = (s.pending, t.mem, s.flash.secFloor, s.boot.running))
    (hm : s.mem.canonical = true → t.mem.canonical = true) : Keeps g t.ground := by
  rw [e]
  exact h.trans ⟨rfl, hm, le_rfl, id⟩

@[simp] theorem keeps_ite (g a b : Ground) (c : Prop) [Decidable c] : Keeps g (if c then a else b) ↔ (c → Keeps g a) ∧ (¬c → Keeps g b) := by
  by_cases hc : c <;> simp [hc]

/-- A fold of turns that each keep the ground, of whatever carries a state along. -/
theorem Keeps.foldl {α β : Type} (π : β → State) {g : Ground} (f : β → α → β) (hf : ∀ t a, Keeps g (π t).ground → Keeps g (π (f t a)).ground) :
    ∀ (l : List α) (s : β), Keeps g (π s).ground → Keeps g (π (l.foldl f s)).ground
  | [], _, h => h
  | a :: l, s, h => Keeps.foldl π f hf l (f s a) (hf s a h)

/-- The same of a fold over states. -/
theorem Keeps.states {α : Type} {g : Ground} (f : State → α → State) (hf : ∀ t a, Keeps g t.ground → Keeps g (f t a).ground) (l : List α) (s : State)
    (h : Keeps g s.ground) : Keeps g (l.foldl f s).ground := Keeps.foldl (fun t => t) f hf l s h

theorem Keeps.iter {β : Type} (π : β → State) {g : Ground} (n : Nat) (f : Nat → β → β) (hf : ∀ i t, Keeps g (π t).ground → Keeps g (π (f i t)).ground)
    (s : β) (h : Keeps g (π s).ground) : Keeps g (π (iter n f s)).ground :=
  Keeps.foldl π (fun t i => f i t) (fun t i => hf i t) _ s h

end Ground

open Ground (Keeps)

/-- An answer that keeps the ground. -/
def Out.keeps (g : Ground) (o : Out) : Prop := ∃ t, o = .next t ∧ Keeps g t.ground

@[simp] theorem Out.keeps_next (g : Ground) (t : State) : Out.keeps g (.next t) ↔ Keeps g t.ground := by
  constructor
  · rintro ⟨u, hu, h⟩
    cases hu
    exact h
  · exact fun h => ⟨t, rfl, h⟩

theorem Out.calm.keeps {s : State} {o : Out} (h : Out.calm s o) : Out.keeps s.ground o := by
  obtain ⟨t, rfl, e⟩ := h
  exact ⟨t, rfl, (Keeps.refl _).of_eq e⟩

theorem Out.keeps_happen {g : Ground} {c : Bool} {s t : State} (hs : Keeps g s.ground) (ht : Keeps g t.ground) : Out.keeps g (happen c s t) := by
  cases c <;> simpa [happen]

theorem Out.keeps_ite {g : Ground} {a b : Out} (c : Prop) [Decidable c] (ha : Out.keeps g a) (hb : Out.keeps g b) : Out.keeps g (if c then a else b) := by
  split <;> assumption

@[simp] theorem State.devWrite_keeps {g : Ground} {s : State} (sp : Space) (a : Nat) (ds : List PByte) (add : Bool) (h : Keeps g s.ground) :
    Keeps g (s.devWrite sp a ds add).ground := by
  have hc := s.devWrite_canonical sp a ds add
  unfold State.devWrite at hc ⊢
  by_cases hp : s.postHit sp a
  · simp [hp, h]
  · by_cases hl : s.memLost sp a
    · simp [hp, hl, h]
    · simp only [hp, hl, Bool.false_eq_true, if_false] at hc ⊢
      exact Keeps.of_mem h rfl hc

theorem State.vaWrite_keeps {g : Ground} {s t : State} {va : Nat} {ds : List PByte} (h : Keeps g s.ground) (e : s.vaWrite va ds = .inr t) :
    Keeps g t.ground := by
  unfold State.vaWrite at e
  split at e
  · cases e
  · split at e <;> cases e
    simp [h]

@[simp] theorem MemRun.write_keeps {g : Ground} {m : MemRun} (va : Nat) (ds : List PByte) (h : Keeps g m.st.ground) : Keeps g (m.write va ds).st.ground := by
  have hr := MemRun.request_ground m va .plain
  unfold MemRun.write
  split <;> rename_i e <;> rw [e] at hr
  · exact h.of_eq hr
  · split
    · simp_all
    · simp_all

@[simp] theorem MemRun.addWrite_keeps {g : Ground} {m : MemRun} (va : Nat) (ws : List PWord) (h : Keeps g m.st.ground) :
    Keeps g (m.addWrite va ws).st.ground := by
  have hr := MemRun.request_ground m va .add
  unfold MemRun.addWrite
  split <;> rename_i e <;> rw [e] at hr
  · exact h.of_eq hr
  · exact State.devWrite_keeps _ _ _ _ (h.of_eq hr)

@[simp] theorem MemRun.writeRun_keeps {g : Ground} {m : MemRun} (va : Nat) (ds : List PByte) (h : Keeps g m.st.ground) :
    Keeps g (m.writeRun va ds).st.ground := Keeps.foldl MemRun.st _ (fun t a ht => by simp [ht]) _ _ h

@[simp] theorem MemRun.addRun_keeps {g : Ground} {m : MemRun} (va : Nat) (ws : List PWord) (h : Keeps g m.st.ground) :
    Keeps g (m.addRun va ws).st.ground := Keeps.foldl MemRun.st _ (fun t a ht => by simp [ht]) _ _ h

theorem State.devWrites_keeps {g : Ground} {α : Type} (sp : Space) (a : State → α → Nat) (ds : State → α → List PByte) (add : Bool) (l : List α) {s : State}
    (h : Keeps g s.ground) : Keeps g (l.foldl (fun t w => t.devWrite sp (a t w) (ds t w) add) s).ground :=
  Keeps.states _ (fun _ _ ht => State.devWrite_keeps _ _ _ _ ht) _ _ h

theorem moveOut_keeps {g : Ground} (mv : Move) (c : Nat) {r : MoveRun} (q : Req) (h : Keeps g r.m.st.ground) : Keeps g (moveOut mv c r q).m.st.ground := by
  unfold moveOut
  split
  · exact h
  · extract_lets va src ws r'
    have hr : Keeps g r'.1.st.ground := h.of_eq (MemRun.request_ground _ _ _)
    clear_value r' va
    split
    · exact hr
    · extract_lets ph sp st post
      have hp : Keeps g post.1.ground := hr.of_eq (State.hostPost_ground _ _ _)
      have hs : Keeps g st.ground := by
        unfold st
        split
        · split
          · exact State.devWrite_keeps _ _ _ _ hr
          · exact State.devWrites_keeps _ _ _ _ _ hr
        · exact State.devWrites_keeps _ _ _ _ _ hr
      split
      · exact hp
      · split
        · exact hp
        · exact hs

theorem State.moveGo_keeps {g : Ground} {s : State} (c : Nat) (host : List HostReply) (o : Op) (z : Nat) (h : Keeps g s.ground) :
    Keeps g (s.moveGo c host o z).ground := by
  unfold State.moveGo
  extract_lets mv g0 r out status b fast slow cyc s1 s2 s3 fa
  have hr : Keeps g r.m.st.ground := by
    refine Keeps.foldl (fun x => x.m.st) _ (fun t q ht => ?_) _ g0 h
    split
    · exact moveOut_keeps _ _ _ ht
    · exact ht.of_eq (moveIn_ground _ _ _ _)
  have h2 : Keeps g s2.ground := by
    unfold s2 s1
    simpa using hr
  have h3 : Keeps g s3.ground := by
    unfold s3
    split
    · simpa using h2
    · exact h2
  simpa using h3

@[simp] theorem State.updCtl_keeps {g : Ground} {s : State} (d : Nat) (f : MemCtl → MemCtl) (h : Keeps g s.ground) : Keeps g (s.updCtl d f).ground :=
  Keeps.of_mem h rfl id

@[simp] theorem State.loseDevice_keeps {g : Ground} {s : State} (d : Nat) (h : Keeps g s.ground) : Keeps g (s.loseDevice d).ground := by
  unfold State.loseDevice
  rw [State.planChange_ground]
  exact Keeps.of_mem h rfl id

@[simp] theorem State.startRetrain_keeps {g : Ground} {s : State} (d : Nat) (h : Keeps g s.ground) : Keeps g (s.startRetrain d).ground := by
  unfold State.startRetrain
  exact Keeps.of_mem h rfl id

@[simp] theorem State.retrainNext_keeps {g : Ground} {s : State} (h : Keeps g s.ground) : Keeps g s.retrainNext.ground := by
  unfold State.retrainNext
  split <;> simp [h]

@[simp] theorem State.needRetrain_keeps {g : Ground} {s : State} (d : Nat) (h : Keeps g s.ground) : Keeps g (s.needRetrain d).ground := by
  unfold State.needRetrain
  simp [h]

theorem State.scrubBad_keeps {g : Ground} {s : State} (d : Nat) (sp : Space) (a : Nat) (h : Keeps g s.ground) : Keeps g (s.scrubBad d sp a).ground := by
  unfold State.scrubBad
  split
  · exact h
  · simp only [State.faultMark_ground]
    refine State.updCtl_keeps _ _ (Keeps.of_mem h rfl fun hm => ?_)
    simp only [DevMem.canonical, Bool.and_eq_true] at hm ⊢
    obtain ⟨⟨⟨h1, h2⟩, h3⟩, h4⟩ := hm
    cases sp
    · exact ⟨⟨⟨h1, h2⟩, mwf_mset _ _ _ _ h3⟩, h4⟩
    · exact ⟨⟨⟨h1, h2⟩, h3⟩, mwf_mset _ _ _ _ h4⟩

@[simp] theorem State.corrected_keeps {g : Ground} {s : State} (d n : Nat) (h : Keeps g s.ground) : Keeps g (s.corrected d n).ground := by
  unfold State.corrected
  simp [h]

@[simp] theorem Dma.put_keeps {g : Ground} {m : Dma} (va : Nat) (ds : List PByte) (h : Keeps g m.st.ground) : Keeps g (m.put va ds).st.ground := by
  unfold Dma.put
  split
  · exact h
  · split <;> simp [h]

@[simp] theorem Dma.fromHost_keeps {g : Ground} {m : Dma} (src dst : Nat) (h : Keeps g m.st.ground) : Keeps g (m.fromHost src dst).st.ground := by
  have hr := State.hostLine_ground m.st cxlUnit src m.hs
  unfold Dma.fromHost
  split <;> rename_i e <;> rw [e] at hr
  · exact h.of_eq hr
  · exact h.of_eq hr
  · exact Dma.put_keeps _ _ (h.of_eq hr)

@[simp] theorem Dma.within_keeps {g : Ground} {m : Dma} (src dst : Nat) (h : Keeps g m.st.ground) : Keeps g (m.within src dst).st.ground := by
  unfold Dma.within
  split <;> simp [h]

@[simp] theorem Dma.line_keeps {g : Ground} (d : Desc) {m : Dma} (h : Keeps g m.st.ground) : Keeps g (m.line d).st.ground := by
  unfold Dma.line
  dsimp only
  repeat' split
  all_goals simp [h]

@[simp] theorem State.dmaGo_keeps {g : Ground} {s : State} (d : Desc) (k : Nat) (h : Keeps g s.ground) : Keeps g (s.dmaGo d k).ground := by
  unfold State.dmaGo
  simp only [State.setDesc_ground]
  exact Keeps.iter Dma.st _ _ (fun i t ht => Dma.line_keeps d ht) _ h

@[simp] theorem State.dmaPart_keeps {g : Ground} {s : State} (d : Desc) (h : Keeps g s.ground) : Keeps g (s.dmaPart d).ground :=
  State.dmaGo_keeps _ _ (by simpa using h)

@[simp] theorem State.dmaSome_keeps {g : Ground} {s : State} (h : Keeps g s.ground) : Keeps g s.dmaSome.ground := by
  unfold State.dmaSome
  split
  · exact h
  · split <;> simp [h]

@[simp] theorem State.dmaStart_keeps {g : Ground} {s : State} (d : Desc) (host : List HostReply) (h : Keeps g s.ground) : Keeps g (s.dmaStart d host).ground :=
  State.dmaPart_keeps _ h

@[simp] theorem State.ddrWrite_keeps {g : Ground} {s : State} (l : Nat) (data : Line) (poison : Bool) (h : Keeps g s.ground) :
    Keeps g (s.ddrWrite l data poison).ground := by
  unfold State.ddrWrite
  simp [h]

end Sys2Proof.Machine
end

