-- ==== Sys2Proof/Proofs/KeepsTransfers.lean ====
section
/-! SUPPORT. Transfers over links and the merge engine keep the ground. -/

namespace Sys2Proof.Machine
open Ground (Keeps)

/-- Two values taken where they are found by a search keep the ground when each of them does. -/
theorem Out.keeps_of_eq {g : Ground} {s t : State} (h : Keeps g s.ground) (e : t.ground = s.ground) : Out.keeps g (.next t) :=
  ⟨t, rfl, h.of_eq e⟩

theorem State.moveCmd_keeps (s : State) (c dir : Nat) (host : List HostReply) (z : Nat) : Out.keeps s.ground (s.moveCmd c dir host z) := by
  unfold State.moveCmd
  split
  · simp
  · split
    · simp
    · split
      · exact ⟨_, rfl, s.moveGo_keeps _ _ _ _ (Keeps.refl _)⟩
      · simp
      · simp

theorem execMemInterfaceTemperature_keeps (d : DevIx) (t : Int) (s : State) : Out.keeps s.ground (execMemInterfaceTemperature d t s) :=
  Out.keeps_happen (Keeps.refl _) (by simp)

theorem execMemRetrainDone_keeps (d : DevIx) (ok : Bool) (s : State) : Out.keeps s.ground (execMemRetrainDone d ok s) := by
  have hnext (t : State) (ht : Keeps s.ground t.ground) : Keeps s.ground (if t.legOn then t else t.retrainNext).ground := by simp [ht]
  refine Out.keeps_happen (Keeps.refl _) (hnext _ ?_)
  cases ok
  · simp
  · exact State.updCtl_keeps _ _ (Keeps.refl _)

theorem execScrub_keeps (d : DevIx) (line : Nat) (fixed bad : List (Fin 16)) (last : Bool) (s : State) :
    Out.keeps s.ground (execScrub d line fixed bad last s) := by
  unfold execScrub
  split
  · simp
  · refine Out.keeps_happen (Keeps.refl _) (State.corrected_keeps _ _ ?_)
    have h1 (l : List (Fin 16)) (sp : Space) (a : Nat) : Keeps s.ground (l.foldl (fun t i => t.scrubBad d.val sp (a + 4 * i.val)) s).ground :=
      Keeps.states _ (fun _ _ ht => State.scrubBad_keeps _ _ _ ht) _ _ (Keeps.refl _)
    split
    · exact State.updCtl_keeps _ _ (h1 _ _ _)
    · exact h1 _ _ _

theorem execMove_keeps (host : List HostReply) (s : State) : Out.keeps s.ground (execMove host s) := by
  unfold execMove
  split <;> simp

theorem execFill_keeps (s : State) : Out.keeps s.ground (execFill s) := by
  unfold execFill
  split <;> simp

theorem execHostDmaDone_keeps (s : State) : Out.keeps s.ground (execHostDmaDone s) := by
  unfold execHostDmaDone
  split
  · simp
  · extract_lets +onlyGivenNames t
    have ht : Keeps s.ground t.ground := by
      unfold t
      split <;> simp
    repeat' split
    all_goals simpa using ht

theorem execCxlMemWrite_keeps (a : W64) (data : Line) (poison : Bool) (s : State) : Out.keeps s.ground (execCxlMemWrite a data poison s) := by
  unfold execCxlMemWrite
  split
  · simp
  · simp only [Out.keeps_next]
    refine State.ddrWrite_keeps _ _ _ ?_
    split <;> simp

@[simp] theorem State.rxFlit_keeps {g : Ground} {s : State} (unit : Nat) (x : Hdr) (p : List PWord) (h : Keeps g s.ground) :
    Keeps g (s.rxFlit unit x p).1.ground := by
  unfold State.rxFlit
  extract_lets +onlyGivenNames key old ds ps bad s1 y all rest lnk s2
  have h1 : Keeps g s1.ground := by
    unfold s1
    split
    · exact h
    · refine Keeps.states _ (fun t q ht => ?_) _ _ h
      split
      · exact ht
      · exact State.vaWrite_keeps ht (by assumption)
  have h2 : Keeps g s2.ground := h1
  split
  · exact h
  · split
    · exact h2.of_eq (by simp)
    · split
      · simpa using h2
      · exact h2

theorem State.runXfer_keeps {g : Ground} {s : State} (x : Xfer) (ds : List PByte) (h : Keeps g s.ground) : Keeps g (s.runXfer x ds).ground := by
  unfold State.runXfer
  extract_lets +onlyGivenNames dest fs port
  split
  · refine Keeps.states _ (fun t f ht => ?_) _ _ (h.of_eq s.anyPort_ground)
    have := State.rxFlit_keeps port.1 f.1 f.2 ht
    dsimp only
    split
    · exact this
    · simpa using this
  · split
    · exact h.of_eq (by simp [port])
    · refine Keeps.states _ (fun t f ht => ?_) _ _ h
      dsimp only
      split
      · exact ht.of_eq (State.offer_ground (by assumption))
      · simpa using ht

theorem execPost_keeps (s : State) : Out.keeps s.ground (execPost s) := by
  unfold execPost
  extract_lets +onlyGivenNames room
  split
  · simp
  · extract_lets +onlyGivenNames k lnk s1 port
    have h1 : s1.ground = s.ground := by simp [s1, lnk]
    have hp : port.2.ground = s.ground := by simp [port, h1]
    split
    · simp [hp]
    · dsimp only
      split
      · simp [h1]
      · split
        · simp [h1]
        · exact ⟨_, rfl, State.runXfer_keeps _ _ ((Keeps.refl _).of_eq h1)⟩

@[simp] theorem State.flitTaken_keeps {g : Ground} {s : State} (l cls : Nat) (b : Block) (p : List PWord) (h : Keeps g s.ground) :
    Keeps g (s.flitTaken l cls b p).ground := by
  have hr := State.rxFlit_keeps (linkUnit l) (hdrOf b) p h
  unfold State.flitTaken
  dsimp only
  repeat' split
  all_goals simp [h, hr]

@[simp] theorem State.takeHeld_keeps {g : Ground} {s : State} (h : Keeps g s.ground) : Keeps g s.takeHeld.ground := by
  refine Keeps.iter (fun t => t) _ _ (fun i t ht => ?_) s h
  split
  · exact ht
  · split
    · exact State.flitTaken_keeps _ _ _ _ ht
    · exact ht

theorem State.flitIn_keeps (s : State) (l cls : Nat) (b : Block) (p : List PWord) (fec : Option Nat) : Keeps s.ground (s.flitIn l cls b p fec).ground := by
  unfold State.flitIn
  extract_lets +onlyGivenNames k s0
  have h0 : s0.ground = s.ground := by simp [s0]
  split
  · simp
  · split
    · simp [h0]
    · extract_lets +onlyGivenNames x bytes s1 s2
      have h2 : s2.ground = s.ground := by
        unfold s2 s1
        split <;> simp [h0]
      split
      · simp
      · split
        · simp [h2]
        · exact State.takeHeld_keeps (State.flitTaken_keeps _ _ _ _ ((Keeps.refl _).of_eq h2))

@[simp] theorem GsRun.hotPut_ground (g : GsRun) (rw r : Nat) (ws : List PWord) : (g.hotPut rw r ws).m.st.ground = g.m.st.ground := by
  unfold GsRun.hotPut
  split <;> rfl

@[simp] theorem GsRun.hotRead_ground (g : GsRun) (c rw i : Nat) : (g.hotRead c rw i).1.m.st.ground = g.m.st.ground := rfl

@[simp] theorem GsRun.fetch_ground (g : GsRun) (o : Op) (c r : Nat) : (g.fetch o c r).1.m.st.ground = g.m.st.ground := by
  unfold GsRun.fetch
  dsimp only
  repeat' split
  all_goals simp

theorem gatherPos_ground (o : Op) (c : Nat) (g : GsRun) (p : Nat) : (gatherPos o c g p).m.st.ground = g.m.st.ground := by
  unfold gatherPos
  dsimp only
  repeat' split
  all_goals simp

theorem GsRun.place_keeps {a : Ground} {g : GsRun} (o : Op) (c r : Nat) (ws : List PWord) (h : Keeps a g.m.st.ground) : Keeps a (g.place o c r ws).m.st.ground := by
  unfold GsRun.place
  extract_lets +onlyGivenNames b sp plain rw k
  split
  · exact h
  · extract_lets +onlyGivenNames q g1
    have h1 : Keeps a g1.m.st.ground := by
      unfold g1 q
      repeat' split
      all_goals simp [h]
    repeat' split
    · exact h1
    · exact h1
    · exact MemRun.writeRun_keeps _ _ h1
    · exact MemRun.addRun_keeps _ _ h1
    · exact MemRun.addRun_keeps _ _ h1

theorem scatterPos_keeps {a : Ground} {g : GsRun} (o : Op) (c p : Nat) (h : Keeps a g.m.st.ground) : Keeps a (scatterPos o c g p).m.st.ground := by
  unfold scatterPos
  split
  · exact h
  · extract_lets +onlyGivenNames k rw ix
    split
    · exact h
    · extract_lets +onlyGivenNames res g1
      split
      · exact h
      · extract_lets +onlyGivenNames weighted ws w q
        have hq : Keeps a q.m.st.ground := GsRun.place_keeps _ _ _ _ h
        split <;> exact hq

theorem State.mergeCmd_keeps (s : State) (c opc z : Nat) (kind : Op → Bool) (run : Op → MergeOut) (h : ∀ o, Keeps s.ground (run o).st.ground) :
    Out.keeps s.ground (s.mergeCmd c opc z kind run) := by
  unfold State.mergeCmd
  split
  · simp
  · split <;> simp [h]

theorem State.gsGo_keeps (s : State) (c : Nat) (host : List HostReply) (o : Op) : Keeps s.ground (s.gsGo c host o).st.ground := by
  unfold State.gsGo
  extract_lets +onlyGivenNames k n
  split
  · extract_lets +onlyGivenNames pre base bad
    split
    · exact Keeps.refl _
    split
    · exact Keeps.refl _
    · extract_lets +onlyGivenNames g0 g st s1 s2
      have hg : Keeps s.ground g.m.st.ground := by
        refine Keeps.foldl (fun x => x.m.st) _ (fun t p ht => ?_) _ g0 (Keeps.refl _)
        split
        · exact ht.of_eq (gatherPos_ground _ _ _ _)
        · exact scatterPos_keeps _ _ _ ht
      have h1 : Keeps s.ground s1.ground := by simpa [s1] using hg
      show Keeps s.ground s2.ground
      unfold s2
      repeat' split
      all_goals simp [h1]
  · simp

end Sys2Proof.Machine
end

