-- ==== Sys2Proof/Proofs/KeepsCaddy.lean ====
section
/-! SUPPORT. The kettle, the caddy, the Expert Map and tables keep the ground. -/

namespace Sys2Proof.Machine
open Ground (Keeps)

theorem kettlePair_keeps {g : Ground} (c inA : Nat) {r : AddRun} (p : Nat) (h : Keeps g r.m.st.ground) : Keeps g (kettlePair c inA r p).m.st.ground := by
  unfold kettlePair
  split
  · exact h
  · extract_lets +onlyGivenNames k t key v put set ways
    have hput (m : MemRun) (u : Kettle) (hit boil : Nat) (hm : Keeps g m.st.ground) : Keeps g (put m u hit boil).m.st.ground := hm
    split
    · exact h
    · split
      · exact h
      · extract_lets +onlyGivenNames ins gm read fresh
        have hread (vs : List Nat) : Keeps g (read vs).st.ground := h
        have hfresh (m : MemRun) (w : Nat) (b : Bool) (hm : Keeps g m.st.ground) : Keeps g (fresh m w b).st.ground := hm
        clear_value put read fresh
        split
        · exact hput _ _ _ _ (hfresh _ _ _ (hread _))
        · split
          · exact hput _ _ _ _ (hfresh _ _ _ (hread _))
          · split
            · exact h
            · split
              · exact hread _
              · extract_lets +onlyGivenNames m
                have hm : Keeps g m.st.ground := MemRun.writeRun_keeps _ _ (hread _)
                split
                · exact hm
                · exact hput _ _ _ _ (hfresh _ _ _ hm)

theorem State.kettleAddGo_keeps (s : State) (c : Nat) (o : Op) : Keeps s.ground (s.kettleAddGo c o).st.ground := by
  unfold State.kettleAddGo
  extract_lets +onlyGivenNames k n inA
  split
  · split
    · extract_lets +onlyGivenNames r st s1 s2
      have hr : Keeps s.ground r.m.st.ground :=
        Keeps.foldl (fun x : AddRun => x.m.st) _ (fun _ _ ht => kettlePair_keeps _ _ _ ht) _ _ (Keeps.refl _)
      have h1 : Keeps s.ground s1.ground := by simpa [s1] using hr
      show Keeps s.ground s2.ground
      unfold s2
      repeat' split
      all_goals simp [h1]
    · simp
  · simp

theorem State.kettleDrainGo_keeps (s : State) (c : Nat) (host : List HostReply) (o : Op) : Keeps s.ground (s.kettleDrainGo c host o).st.ground := by
  unfold State.kettleDrainGo
  extract_lets +onlyGivenNames k t mx base dev p
  split
  · split
    · extract_lets +onlyGivenNames q sp held res all out np badKey d cyc fin
      have hq : Keeps s.ground q.1.st.ground := (Keeps.refl _).of_eq (by simp [q])
      have hfin (m : MemRun) (st rows : Nat) (hm : Keeps s.ground m.st.ground) : Keeps s.ground (fin m st rows).st.ground := by
        unfold fin
        dsimp only
        repeat' split
        all_goals simp [hm]
      clear_value fin q
      split
      · exact hfin _ _ _ hq
      · split
        · exact hfin _ _ _ hq
        · split
          · exact hfin _ _ _ hq
          · extract_lets +onlyGivenNames fr qm m0 ws m1
            clear_value ws
            have h0 : Keeps s.ground m0.st.ground := MemRun.writeRun_keeps _ _ (by simpa [fr] using hq)
            clear_value m0
            have h1 : Keeps s.ground m1.st.ground := by
              unfold m1
              repeat' split
              · exact MemRun.writeRun_keeps _ _ h0
              · exact h0
              · exact h0
            split
            · exact hfin _ _ _ h1
            · exact hfin _ _ _ h1
    · simp
  · simp

@[simp] theorem MemRun.copyLines_keeps {g : Ground} {m : MemRun} (n : Nat) (src dst : Nat → Nat) (h : Keeps g m.st.ground) :
    Keeps g (m.copyLines n src dst).st.ground := by
  refine Keeps.iter MemRun.st _ _ (fun i t ht => ?_) m h
  have hr : Keeps g (t.read (src i) 64).1.st.ground := ht.of_eq (MemRun.read_ground _ _ _)
  extract_lets +onlyGivenNames r
  split
  · exact hr
  · exact MemRun.write_keeps _ _ hr

@[simp] theorem State.startCopy_keeps {g : Ground} {s : State} (c e k i : Nat) (f : Frame) (h : Keeps g s.ground) :
    Keeps g (s.startCopy c e k i f).ground := by
  unfold State.startCopy
  simp [h]

@[simp] theorem State.readAhead_keeps {g : Ground} {s : State} (c e k : Nat) (h : Keeps g s.ground) : Keeps g (s.readAhead c e k).ground := by
  unfold State.readAhead
  dsimp only
  repeat' split
  all_goals simp [h]

theorem pushLines_keeps {g : Ground} {m : MemRun} (k : Core) (o : Op) (at_ : Nat → Nat) (h : Keeps g m.st.ground) : Keeps g (pushLines m k o at_).st.ground := by
  refine Keeps.iter MemRun.st _ _ (fun i t ht => ?_) m h
  split <;> simp [ht]

theorem State.pushInto_keeps (s : State) (c : Nat) (o : Op) (slot i z : Nat) (fs : List Frame) (f : Frame) :
    Keeps s.ground (s.pushInto c o slot i z fs f).ground := by
  unfold State.pushInto
  extract_lets +onlyGivenNames en k addr m np status
  have hm : Keeps s.ground m.st.ground := pushLines_keeps _ _ _ (Keeps.refl _)
  split
  · simpa using hm
  · simpa using hm

theorem execCaddyPush_keeps (c : CoreIx) (z : Nat) (s : State) : Out.keeps s.ground (execCaddyPush c z s) := by
  unfold execCaddyPush
  dsimp only
  repeat' split
  all_goals simp [State.pushInto_keeps]

theorem State.popFrom_keeps {g : Ground} {s : State} (c : Nat) (o : Op) (slot i z : Nat) (fs : List Frame) (f : Frame) (h : Keeps g s.ground) :
    Keeps g (s.popFrom c o slot i z fs f).ground := by
  unfold State.popFrom
  extract_lets +onlyGivenNames en addr q m status s1
  have hq : Keeps g q.1.st.ground := by
    refine Keeps.foldl (fun x : MemRun × List PByte => x.1.st) _ (fun t j ht => ?_) _ _ h
    dsimp only
    split <;> simp [ht]
  have h1 : Keeps g s1.ground := hq
  split
  · simpa using h1
  · dsimp only
    split <;> simp [h1]

theorem execCaddyPop_keeps (c : CoreIx) (z : Nat) (s : State) : Out.keeps s.ground (execCaddyPop c z s) := by
  unfold execCaddyPop
  dsimp only
  repeat' split
  all_goals simp [State.popFrom_keeps]

@[simp] theorem State.pageWrite_keeps {g : Ground} {s : State} (ix v : Nat) (h : Keeps g s.ground) : Keeps g (s.pageWrite ix v).ground := by
  unfold State.pageWrite
  simp only [State.emptyTlbs_ground]
  exact State.devWrite_keeps _ _ _ _ h

@[simp] theorem State.mapCurrent_keeps {g : Ground} {s : State} (h : Keeps g s.ground) : Keeps g s.mapCurrent.ground := by
  unfold State.mapCurrent
  dsimp only
  split <;> simp [h]

/-- A version's entries laid over the map's cleared pages leave HBM4 canonical. -/
theorem DevMem.canonical_mapped (m : DevMem) (lo hi plo phi : Nat) {α : Type} (a : α → Nat) (b : α → List Byte) (l : List α) (h : m.canonical = true) :
    DevMem.canonical { m with hbm := l.foldl (fun x p => msetRun 0 x (a p) (b p)) (mclear m.hbm lo hi), hbmPoison := mclear m.hbmPoison plo phi } = true := by
  simp only [DevMem.canonical, Bool.and_eq_true] at h ⊢
  obtain ⟨⟨⟨h1, h2⟩, h3⟩, h4⟩ := h
  refine ⟨⟨⟨?_, h2⟩, mwf_mclear _ _ _ _ h3⟩, h4⟩
  exact List.foldlRecOn (motive := fun x => mwf 0 x = true) l _ (mwf_mclear 0 m.hbm lo hi h1) fun x hx p _ => mwf_msetRun _ _ _ _ hx

@[simp] theorem State.switchVersion_keeps {g : Ground} {s : State} (v : Version) (h : Keeps g s.ground) : Keeps g (s.switchVersion v).ground := by
  unfold State.switchVersion
  simp only [State.placePolicy_ground]
  exact State.mapCurrent_keeps (Keeps.of_mem h rfl (s.mem.canonical_mapped _ _ _ _ _ _ _))

theorem execMapVersionBuilt_keeps (s : State) : Out.keeps s.ground (execMapVersionBuilt s) := by
  unfold execMapVersionBuilt
  dsimp only
  repeat' split
  all_goals simp

@[simp] theorem State.mapMilepost_keeps {g : Ground} {s : State} (leg : Nat) (h : Keeps g s.ground) : Keeps g (s.mapMilepost leg).ground := by
  unfold State.mapMilepost
  extract_lets +onlyGivenNames x s1
  have h1 : Keeps g s1.ground := by
    unfold s1
    repeat' split
    · exact h
    · exact h
    · simp [h]
    · exact h
    · simp [h]
    · exact h.of_eq (State.dropVersion_ground s _ 3)
  split <;> simp [h1]

@[simp] theorem State.expertCtrl_keeps {g : Ground} {s : State} (leg : Nat) (c : ExpertCtrl) (h : Keeps g s.ground) : Keeps g (s.expertCtrl leg c).ground := by
  unfold State.expertCtrl
  extract_lets +onlyGivenNames old x s1 s2
  have h2 : Keeps g s2.ground := by
    unfold s2 s1
    repeat' split
    all_goals simp [h]
  split
  · exact h2
  · refine State.mapCurrent_keeps ?_
    split <;> simp [h2]

@[simp] theorem State.tabApply_keeps {g : Ground} {s : State} (leg : Nat) (w : TabWrite) (h : Keeps g s.ground) : Keeps g (s.tabApply leg w).ground := by
  unfold State.tabApply
  repeat' split
  all_goals simp [h]

/-- Tables written one after another (R411, R413). -/
@[simp] theorem State.tabApplies_keeps {g : Ground} {s : State} (leg : State → Nat) (ws : List TabWrite) (h : Keeps g s.ground) :
    Keeps g (ws.foldl (fun t w => t.tabApply (leg t) w) s).ground := Keeps.states _ (fun _ _ ht => State.tabApply_keeps _ _ ht) _ _ h

theorem State.setApply_keeps {g : Ground} {s : State} (ws : List TabWrite) (h : Keeps g s.ground) : Keeps g (s.setApply ws).ground := by
  refine Keeps.states _ (fun t w ht => ?_) _ _ h
  split
  · exact State.tabApply_keeps _ _ ht
  · exact ht

end Sys2Proof.Machine
end

