-- ==== Sys2Proof/Proofs/KeepsLegs.lean ====
section
/-! SUPPORT. Legs, mileposts, adoption and QUERY keep the ground. -/

namespace Sys2Proof.Machine
open Ground (Keeps)

/-- What a table's reader answers with carries the ground of `s`. -/
def SetOut.Calm (s : State) : SetOut → Prop
  | .wait => True
  | .fail m _ _ => m.st.ground = s.ground
  | .ok m _ => m.st.ground = s.ground

/-- The reader of a table's entries changes no ground (R411). -/
theorem McRun.setTable_calm (m : McRun) (l : Line) : (m.setTable l).Calm m.st := by
  unfold McRun.setTable
  extract_lets +onlyGivenNames sel mode first count
  split
  · rfl
  · rename_i size n _
    split
    · rfl
    · extract_lets +onlyGivenNames r
      have hr : r.st.ground = m.st.ground := by
        unfold r
        repeat' split
        all_goals simp
      clear_value r
      split
      · exact hr
      · split
        · trivial
        · extract_lets +onlyGivenNames vs
          repeat' split
          all_goals exact hr

theorem execSetTable_keeps (host : List HostReply) (s : State) : Out.keeps s.ground (execSetTable host s) := by
  unfold execSetTable
  split
  · simp
  · have hr := (McRun.start s host).setTable_calm (by assumption : Desc).raw
    split <;> rename_i e <;> rw [e] at hr
    · simp
    · exact Out.keeps_of_eq (Keeps.refl _) (by simpa [SetOut.Calm] using hr)
    · split
      · exact Out.keeps_of_eq (Keeps.refl _) (by simpa [SetOut.Calm] using hr)
      · simp only [Out.keeps_next, State.complete_ground]
        exact State.setApply_keeps _ ((Keeps.refl _).of_eq hr)

@[simp] theorem State.tablesDue_keeps {g : Ground} {s : State} (h : Keeps g s.ground) : Keeps g s.tablesDue.ground :=
  State.tabApplies_keeps _ _ h

@[simp] theorem State.seriesOver_keeps {g : Ground} {s : State} (h : Keeps g s.ground) : Keeps g s.seriesOver.ground := by
  unfold State.seriesOver
  refine State.retrainNext_keeps ?_
  rw [State.rephase_ground]
  exact State.tablesDue_keeps (by simpa using h)

@[simp] theorem State.putAbandoned_keeps {g : Ground} {s : State} (ns : List Nat) (h : Keeps g s.ground) : Keeps g (s.putAbandoned ns).ground := by
  unfold State.putAbandoned
  extract_lets +onlyGivenNames s1
  have h1 : Keeps g s1.ground := h.of_eq (State.ground_foldl _ (fun t n => by simp) _ _)
  split <;> simp [h1]

@[simp] theorem State.abandonNow_keeps {g : Ground} {s : State} (n : Nat) (m : W16) (cause sub : Nat) (soft : Bool) (h : Keeps g s.ground) :
    Keeps g (s.abandonNow n m cause sub soft).ground := by
  unfold State.abandonNow
  dsimp only
  exact (State.putAbandoned_keeps _ h).of_eq (State.ground_foldl _ (fun t n => by simp) _ _)

@[simp] theorem State.settleDoubt_keeps {g : Ground} {s : State} (n : Nat) (h : Keeps g s.ground) : Keeps g (s.settleDoubt n).ground := by
  unfold State.settleDoubt
  dsimp only
  repeat' split
  · exact h
  · exact State.putAbandoned_keeps _ (h.of_eq (State.ground_foldl _ (fun t n => by simp) _ _))
  · simpa using h
  · simpa using h

@[simp] theorem State.settleDoubts_keeps {g : Ground} {s : State} (h : Keeps g s.ground) : Keeps g s.settleDoubts.ground :=
  Keeps.states _ (fun _ _ ht => State.settleDoubt_keeps _ ht) _ _ h

@[simp] theorem State.changes_keeps {g : Ground} {s : State} (m : Nat) (closes : Bool) (h : Keeps g s.ground) : Keeps g (s.changes m closes).ground := by
  unfold State.changes
  extract_lets +onlyGivenNames s1 x s2
  have h1 : Keeps g s1.ground := by simpa [s1] using h
  refine State.mapMilepost_keeps _ ?_
  rw [State.govMilepost_ground]
  exact State.tabApplies_keeps _ _ h1

theorem State.fireMilepost_keeps {g : Ground} {s : State} (r : Series) (due : Nat) (h : Keeps g s.ground) : Keeps g (s.fireMilepost r due).ground := by
  unfold State.fireMilepost
  extract_lets +onlyGivenNames closes m fences s1 s2 s3 s4 s5
  have h1 : Keeps g s1.ground := by
    unfold s1
    split <;> simp [h]
  have h3 : Keeps g s3.ground := by
    unfold s3 s2
    split <;> simpa using h1
  have h4 : Keeps g s4.ground := by
    unfold s4
    rw [State.milepostDescs_ground]
    exact h3.of_eq (State.ground_foldl _ (fun t n => by simp) _ _)
  have h5 : Keeps g s5.ground := by simpa [s5] using h4
  extract_lets +onlyGivenNames lnk s5' s6
  clear_value s5
  have h6 : Keeps g s6.ground := by
    refine State.changes_keeps _ _ ?_
    rw [State.ground_mk]
    exact h5
  clear_value s6
  split
  · exact State.seriesOver_keeps h6
  · extract_lets +onlyGivenNames s7 s8 ahead s9 q s10
    have h7 : Keeps g s7.ground := by
      refine State.takeHeld_keeps ?_
      rw [State.ground_mk]
      exact h6
    clear_value s7
    have h10 : Keeps g s10.ground := by simpa [s10, s9, s8] using h7
    clear_value s10 ahead
    refine State.retrainNext_keeps ?_
    split <;> simpa using h10

theorem execMilepost_keeps (s : State) : Out.keeps s.ground (execMilepost s) := by
  unfold execMilepost
  split
  · exact ⟨_, rfl, State.fireMilepost_keeps _ _ (by simp)⟩
  · simp

theorem execReady_keeps (l : LinkIx) (b : Block) (s : State) : Out.keeps s.ground (execReady l b s) := by
  unfold execReady
  extract_lets +onlyGivenNames y
  split
  · simp
  · split
    · simp
    · rename_i hin
      have ht := State.syncIn_ground hin
      extract_lets +onlyGivenNames t k
      have h1 : t.ground = s.ground := by simp [t, ht]
      split
      · simp [h1]
      · extract_lets +onlyGivenNames u
        have h2 : u.ground = s.ground := by simp [u, h1]
        repeat' split
        · exact ⟨_, rfl, State.fireMilepost_keeps _ _ (by simp [h2])⟩
        · simp [h2]
        · simp [h2]

@[simp] theorem State.atDeadline_keeps {g : Ground} {s : State} (n dl : Nat) (sure : Bool) (h : Keeps g s.ground) : Keeps g (s.atDeadline n dl sure).ground := by
  unfold State.atDeadline
  dsimp only
  have hf (ns : List Nat) (f : Group → Group) (t : State) (ht : Keeps g t.ground) : Keeps g (ns.foldl (fun t i => t.updGroup i f) t).ground :=
    ht.of_eq (State.ground_foldl _ (fun t n => by simp) _ _)
  repeat' split
  · exact State.putAbandoned_keeps _ (hf _ _ _ h)
  · exact hf _ _ _ (hf _ _ _ h)
  · simpa using h
  · simpa using h

@[simp] theorem State.conclude_keeps {g : Ground} {s : State} (n : Nat) (e : Ending) (h : Keeps g s.ground) : Keeps g (s.conclude n e).ground := by
  unfold State.conclude
  dsimp only
  split
  · simp [h]
  · exact h.of_eq (State.ground_foldl _ (fun t n => by simp) _ _)

theorem execDeadline_keeps (k : GroupIx) (s : State) : Out.keeps s.ground (execDeadline k s) := by
  unfold execDeadline
  dsimp only
  split
  · simp
  · split
    · simp
    · split
      · simp
      · exact Out.keeps_happen (Keeps.refl _) (by simp)

theorem execStretch_keeps (l : LinkIx) (b : Block) (s : State) : Out.keeps s.ground (execStretch l b s) := by
  unfold execStretch
  split
  · simp
  · split
    · simp
    · rename_i hin
      have ht := State.syncIn_ground hin
      dsimp only
      repeat' split
      all_goals simp [ht]

@[simp] theorem State.policyWrite_keeps {g : Ground} {s : State} (n : Nat) (v : W32) (h : Keeps g s.ground) : Keeps g (s.policyWrite n v).ground := by
  unfold State.policyWrite
  dsimp only
  repeat' split
  all_goals simp [h]

theorem State.regCmd_keeps (s : State) (off : Nat) (v : W32) (f : State → State) (h : ∀ t, Keeps t.ground (f t).ground) :
    Out.keeps s.ground (s.regCmd off v f) := by
  unfold State.regCmd
  rw [Out.keeps_next]
  split
  · exact ((Keeps.refl _).of_eq (by simp)).trans (h _)
  · simp

theorem execPolicyWrite_keeps (k : GroupIx) (v : W32) (s : State) : Out.keeps s.ground (execPolicyWrite k v s) :=
  s.regCmd_keeps _ _ _ (fun _ => State.policyWrite_keeps _ _ (Keeps.refl _))

theorem execAbandon_keeps (l : LinkIx) (b : Block) (s : State) : Out.keeps s.ground (execAbandon l b s) := by
  unfold execAbandon
  split
  · simp
  · split
    · simp
    · rename_i hin
      have ht := State.syncIn_ground hin
      dsimp only
      split <;> simp [ht]

@[simp] theorem State.tagWrite_keeps {g : Ground} {s : State} (ws : List TabWrite) (h : Keeps g s.ground) : Keeps g (s.tagWrite ws).ground := by
  unfold State.tagWrite
  rw [State.measChanged_ground]
  exact State.tabApplies_keeps (fun u => u.legNow) ws h

theorem AdoptRun.step_keeps {g : Ground} (src : Nat) {a : AdoptRun} (h : Keeps g a.m.st.ground) : Keeps g (a.step src).m.st.ground := by
  unfold AdoptRun.step
  split
  · exact h
  · extract_lets +onlyGivenNames r
    have hr : Keeps g r.st.ground := h.of_eq (McRun.bus_ground _ _ _)
    split
    · exact hr
    · split
      · exact hr
      · extract_lets +onlyGivenNames l
        split
        · exact hr
        · have hs := r.setTable_calm l
          split <;> rename_i e <;> rw [e] at hs
          · exact hr
          · exact hr.of_eq hs
          · split
            · exact State.tagWrite_keeps _ (hr.of_eq hs)
            · exact hr.of_eq hs

@[simp] theorem State.adoptTables_keeps {g : Ground} {s : State} (ws : List TabWrite) (h : Keeps g s.ground) : Keeps g (s.adoptTables ws).ground :=
  State.tabApplies_keeps (fun t => t.legNow) ws h

theorem execAdopt_keeps (image : List HostReply) (s : State) : Out.keeps s.ground (execAdopt image s) := by
  unfold execAdopt
  split
  · simp
  · split
    · simp
    · split
      · simp
      · extract_lets +onlyGivenNames s1 x s2 a0 a t
        have ha : Keeps s.ground t.ground :=
          Keeps.iter (fun x : AdoptRun => x.m.st) _ _ (fun i x hx => AdoptRun.step_keeps _ hx) a0 ((Keeps.refl _).of_eq (by simp [a0, s2, s1]))
        split
        · simp
        · simp [ha]
        · simp [ha]
        · exact ⟨_, rfl, ha⟩

theorem execAdoptDone_keeps (s : State) : Out.keeps s.ground (execAdoptDone s) := by
  unfold execAdoptDone
  split
  · simp
  · rw [Out.keeps_next]
    rw [State.completeOrder_ground]
    exact State.adoptTables_keeps _ (Keeps.refl _)

@[simp] theorem Put.toHost_ground (q : Put) (a b : Nat) (ds : List Byte) : (q.toHost a b ds).st.ground = q.st.ground := State.hostPost_ground _ _ _

theorem Put.toDev_keeps {g : Ground} {q : Put} (a : Nat) (ds : List Byte) (h : Keeps g q.st.ground) : Keeps g (q.toDev a ds).st.ground := by
  unfold Put.toDev
  split
  · exact h
  · split <;> simp [h]

theorem State.queryPut_keeps (s : State) (dev : Bool) (a : Nat) (bs : List Byte) (host : List HostReply) : Keeps s.ground (s.queryPut dev a bs host).st.ground := by
  refine Keeps.foldl Put.st _ (fun q p hq => ?_) _ _ (Keeps.refl _)
  repeat' split
  · exact hq
  · exact Put.toDev_keeps _ _ hq
  · exact hq.of_eq (Put.toHost_ground _ _ _ _)

theorem execQuery_keeps (host : List HostReply) (s : State) : Out.keeps s.ground (execQuery host s) := by
  unfold execQuery
  dsimp only
  repeat' split
  all_goals simp [State.queryPut_keeps]

end Sys2Proof.Machine
end

