-- ==== Sys2Proof/Proofs/KeepsPower.lean ====
section
/-! SUPPORT. Losses of power, resets and start-up keep the ground. -/

namespace Sys2Proof.Machine
open Ground (Keeps)

theorem State.dropDevice_keeps {g : Ground} {s : State} (d : Nat) (h : Keeps g s.ground) : Keeps g (s.dropDevice d).ground := by
  unfold State.dropDevice
  split <;> simp [h]

theorem State.cutDie_keeps {g : Ground} {s : State} (cause d : Nat) (h : Keeps g s.ground) : Keeps g (s.cutDie cause d).ground := by
  unfold State.cutDie
  extract_lets +onlyGivenNames s1 s2 cs s3 s4
  have h2 : s2.ground = s.ground := by simp [s2, s1]
  have h3 : s3.ground = s.ground := by
    unfold s3
    rw [State.ground_foldl _ (fun t c => by simp), h2]
  have h4 : s4.ground = s.ground := by
    unfold s4
    rw [State.ground_foldl _ (fun t c => by simp), h3]
  clear_value s4
  exact Keeps.states _ (fun _ _ ht => State.dropDevice_keeps _ ht) _ s4 (h.of_eq h4)

@[simp] theorem State.loseDie_keeps {g : Ground} {s : State} (cause d : Nat) (h : Keeps g s.ground) : Keeps g (s.loseDie cause d).ground := by
  unfold State.loseDie
  extract_lets +onlyGivenNames s1 on
  have h1 : Keeps g s1.ground := h.of_eq (by simp [s1])
  clear_value s1
  generalize (List.range 4).filter _ = ds
  refine Keeps.states _ (fun t e ht => ?_) ds s1 h1
  exact State.cutDie_keeps (s := t) cause e ht

theorem execStopRailsOff_keeps (s : State) : Out.keeps s.ground (execStopRailsOff s) :=
  Out.keeps_happen (Keeps.refl _) (Keeps.of_mem (Keeps.refl _) rfl id)

/-- Memory that lost its power holds nothing; the floor is in flash, and no image runs (R430, R463). -/
theorem Keeps.unpowered (s : State) {t : State} (hp : t.pending = s.pending) (hm : t.mem = {}) (hf : t.flash.secFloor = s.flash.secFloor)
    (hr : t.boot.running = none) : Keeps s.ground t.ground where
  pending := hp
  mem _ := by
    show t.mem.canonical = true
    rw [hm]
    rfl
  floor := by
    show s.flash.secFloor.getD _ ≤ t.flash.secFloor.getD _
    rw [hf]
  within := fun ⟨h, _⟩ => ⟨(congrArg (fun o => o.getD (Config.secFloor % 64)) hf).trans_le h, fun i hi => by cases hr.symm.trans hi⟩

theorem State.tornFlash_secFloor (s : State) : s.tornFlash.1.secFloor = s.flash.secFloor := by
  unfold State.tornFlash
  dsimp only
  repeat' split
  all_goals rfl

theorem State.bare_keeps (s : State) : Keeps s.ground s.bare.ground := Keeps.unpowered s rfl rfl s.tornFlash_secFloor rfl

theorem State.inputLost_keeps (s : State) (bit : Byte) (mv : W16) : Keeps s.ground (s.inputLost bit mv).ground := s.bare_keeps

theorem State.vauxOff_keeps (s : State) : Keeps s.ground s.vauxOff.ground := Keeps.unpowered s rfl rfl s.tornFlash_secFloor rfl

theorem State.coldStart_keeps (s : State) (kind : Nat) : Keeps s.ground (s.coldStart kind).ground := by
  unfold State.coldStart
  rw [State.portUp_ground]
  exact Keeps.unpowered s rfl rfl s.tornFlash_secFloor rfl

theorem execInputUndervolt_keeps (mv : W16) (s : State) : Out.keeps s.ground (execInputUndervolt mv s) :=
  Out.keeps_happen (Keeps.refl _) (s.inputLost_keeps _ _)

theorem execInputOvervolt_keeps (mv : W16) (s : State) : Out.keeps s.ground (execInputOvervolt mv s) :=
  Out.keeps_happen (Keeps.refl _) (s.inputLost_keeps _ _)

theorem execVauxLost_keeps (s : State) : Out.keeps s.ground (execVauxLost s) := Out.keeps_happen (Keeps.refl _) s.vauxOff_keeps

theorem execInputRecovered_keeps (mv : W16) (s : State) : Out.keeps s.ground (execInputRecovered mv s) := by
  unfold execInputRecovered
  extract_lets +onlyGivenNames p d s1
  refine Out.keeps_happen (Keeps.refl _) ?_
  split
  · exact s1.coldStart_keeps 0
  · exact Keeps.refl _

theorem State.failLinks_ground (f : Nat → Nat) (l : List Nat) (s : State) : (l.foldl (fun t i => t.failLink (f i)) s).ground = s.ground :=
  State.ground_foldl _ (fun t i => by simp) _ _

theorem State.shortAtStart_keeps {g : Ground} {s : State} (r : Nat) (h : Keeps g s.ground) : Keeps g (s.shortAtStart r).ground := by
  unfold State.shortAtStart
  repeat' split
  · exact h
  · exact h
  · simp [h]
  · exact State.dropDevice_keeps _ h
  · exact h.of_eq (State.failLinks_ground (fun i => 6 * (r - 28) + i) _ _)

theorem State.shortInService_keeps {g : Ground} {s : State} (r : Nat) (h : Keeps g s.ground) : Keeps g (s.shortInService r).ground := by
  unfold State.shortInService
  repeat' split
  · simp [h]
  · simp [h]
  · exact State.dropDevice_keeps _ h
  · exact h.of_eq (State.failLinks_ground (fun i => 6 * (r - 28) + i) _ _)
  · exact h.trans s.bare_keeps

theorem execRailShort_keeps (r : Fin 34) (s : State) : Out.keeps s.ground (execRailShort r s) := by
  unfold execRailShort
  extract_lets +onlyGivenNames n one p s1 s2
  have h2 : Keeps s.ground s2.ground := (Keeps.refl _).of_eq (by simp [s2, s1])
  clear_value s2
  split
  · exact Out.keeps_happen (Keeps.refl _) s.vauxOff_keeps
  · split
    · simp
    · split
      · exact ⟨_, rfl, State.shortInService_keeps _ h2⟩
      · exact ⟨_, rfl, State.shortInService_keeps _ h2⟩
      · refine ⟨_, rfl, ?_⟩
        split
        · exact h2.trans s2.bare_keeps
        · exact h2
      · refine ⟨_, rfl, ?_⟩
        split
        · exact h2.trans s2.bare_keeps
        · exact h2
      · exact ⟨_, rfl, State.shortAtStart_keeps _ h2⟩

/-- An image that verifies has a SEC_VERSION within 0 to 63 (R430). -/
theorem State.verifyImage_version {s : State} {b : List Byte} (h : s.verifyImage b = 0) : imgField b 4 2 ≤ 63 := by
  unfold State.verifyImage at h
  dsimp only at h
  by_contra hc
  simp only [show 63 < imgField b 4 2 by omega, if_true] at h
  split at h <;> cases h

theorem State.verifyImage_above (s : State) (b : List Byte) (h : 63 < imgField b 4 2) : s.verifyImage b = 2 := by
  unfold State.verifyImage
  dsimp only
  simp only [h, if_true]
  split <;> rfl

/-- A verified image taken up as the running one. -/
theorem Keeps.runs {g : Ground} {s t : State} (b : List Byte) (h : Keeps g s.ground)
    (e : t.ground = (s.pending, s.mem, s.flash.secFloor, some (imageOf b))) (hb : imgField b 4 2 ≤ 63) : Keeps g t.ground := by
  rw [e]
  refine h.trans ⟨rfl, id, le_rfl, fun hw => ⟨hw.1, fun i hi => ?_⟩⟩
  cases hi
  exact hb

theorem execBootVerifyDone_keeps (s : State) : Out.keeps s.ground (execBootVerifyDone s) := by
  unfold execBootVerifyDone
  dsimp only
  refine Out.keeps_happen (Keeps.refl _) ?_
  by_cases hr : s.verifyImage s.flashImage = 0
  · simp only [hr, if_true]
    exact Keeps.runs _ (Keeps.refl _) rfl (State.verifyImage_version hr)
  · simp [hr]

theorem State.trainDevice_keeps {g : Ground} {s : State} (d : Nat) (r : DevTrain) (h : Keeps g s.ground) : Keeps g (s.trainDevice d r).ground := by
  unfold State.trainDevice
  extract_lets +onlyGivenNames rec' usable
  repeat' split
  · exact h
  · exact h
  · simpa using h
  · simpa using h
  · exact Keeps.of_mem h rfl id
  · exact Keeps.of_mem h rfl id

/-- The floor rises to the running image's SEC_VERSION (R430). -/
theorem Keeps.raised {g : Ground} {s t : State} {i : Image} (h : Keeps g s.ground) (hi : s.boot.running = some i) (hlt : s.secFloor < i.secVersion)
    (e : t.ground = (s.pending, s.mem, some i.secVersion, s.boot.running)) : Keeps g t.ground := by
  rw [e]
  exact h.trans ⟨rfl, id, hlt.le, fun hw => ⟨hw.2 i hi, hw.2⟩⟩

@[simp] theorem State.raiseFloor_keeps {g : Ground} {s : State} (h : Keeps g s.ground) : Keeps g s.raiseFloor.ground := by
  unfold State.raiseFloor
  split
  · exact h
  · rename_i hi
    split
    · rename_i hc
      simp only [Bool.and_eq_true, decide_eq_true_eq] at hc
      exact Keeps.raised h hi hc.2 (by simp)
    · exact h

@[simp] theorem State.reachReady_keeps {g : Ground} {s : State} (h : Keeps g s.ground) : Keeps g s.reachReady.ground := by
  unfold State.reachReady
  dsimp only
  rw [State.startCapture_ground, State.rephase_ground, State.rangeMark_ground]
  exact State.raiseFloor_keeps (by simpa using h)

theorem execMemoryTrainingDone_keeps (ds : List DevTrain) (s : State) : Out.keeps s.ground (execMemoryTrainingDone ds s) := by
  unfold execMemoryTrainingDone
  extract_lets +onlyGivenNames s1 fitted saved b s2
  have h1 : Keeps s.ground s1.ground := Keeps.states _ (fun _ _ ht => State.trainDevice_keeps _ _ ht) _ _ (Keeps.refl _)
  refine Out.keeps_happen (Keeps.refl _) ?_
  split
  · simpa using h1
  · exact State.reachReady_keeps h1

theorem execTrayRstNAssert_keeps (s : State) : Out.keeps s.ground (execTrayRstNAssert s) := Out.keeps_happen (Keeps.refl _) s.bare_keeps

theorem execTrayRstNRelease_keeps (s : State) : Out.keeps s.ground (execTrayRstNRelease s) := by
  unfold execTrayRstNRelease
  extract_lets +onlyGivenNames d s1
  refine Out.keeps_happen (Keeps.refl _) ?_
  split
  · exact s1.coldStart_keeps _
  · exact Keeps.refl _

theorem State.moduleReset_keeps {g : Ground} {s : State} (h : Keeps g s.ground) : Keeps g s.moduleReset.ground :=
  (h.of_eq (s.endCapture_ground 4)).trans (State.coldStart_keeps _ 2)

theorem execModuleReset_keeps (v : W32) (s : State) : Out.keeps s.ground (execModuleReset v s) :=
  Out.keeps_ite _ (s.regCmd_keeps _ _ _ (fun _ => State.moduleReset_keeps (Keeps.refl _))) (by simp)

@[simp] theorem State.cpBegin_keeps {g : Ground} {s : State} (h : Keeps g s.ground) : Keeps g s.cpBegin.ground := by
  unfold State.cpBegin
  extract_lets +onlyGivenNames due s1 s2 s3 s4
  have h2 : Keeps g s2.ground := by simpa [s2, s1] using h
  have h3 : Keeps g s3.ground := by
    unfold s3
    split <;> simp [h2]
  exact h3.of_eq (by simp [s4])

theorem State.cpReset_keeps {g : Ground} {s : State} (h : Keeps g s.ground) : Keeps g s.cpReset.ground := by
  unfold State.cpReset
  split <;> simp [h]

theorem execCpReset_keeps (v : W32) (s : State) : Out.keeps s.ground (execCpReset v s) :=
  Out.keeps_ite _ (s.regCmd_keeps _ _ _ (fun _ => State.cpReset_keeps (Keeps.refl _))) (by simp)

theorem execCpTestDone_keeps (t : Defects) (s : State) : Out.keeps s.ground (execCpTestDone t s) := by
  unfold execCpTestDone
  extract_lets +onlyGivenNames old p cutOf lost s0 s1
  have h0 : Keeps s.ground s0.ground := (Keeps.refl _).of_eq (State.ground_foldl _ (fun t l => by simp) _ _)
  have h1 : Keeps s.ground s1.ground := Keeps.states _ (fun _ _ ht => State.dropDevice_keeps _ ht) _ _ h0
  clear_value s1
  exact Out.keeps_happen (Keeps.refl _) (State.tablesDue_keeps (by simpa using h1))

theorem execImgDone_keeps (image : Option (List Byte)) (flashOk : Bool) (s : State) : Out.keeps s.ground (execImgDone image flashOk s) := by
  unfold execImgDone
  extract_lets +onlyGivenNames write
  split
  · simp
  · split
    · simp
    · extract_lets +onlyGivenNames b s1 r
      have h1 : s1.ground = s.ground := State.captureImage_ground _ _
      split
      · simp [h1]
      · split
        · exact Out.keeps_of_eq (Keeps.refl _) (by simp [h1])
        · rename_i hr _
          have hb := State.verifyImage_version (not_not.1 hr)
          have hf (c : Bool) : (if c then { s1.flash with image := some b } else s1.flash).secFloor = s1.flash.secFloor := by cases c <;> rfl
          dsimp only
          split
          · exact ⟨_, rfl, Keeps.runs (s := s1) b ((Keeps.refl _).of_eq h1) (by simp [hf]) hb⟩
          · exact Out.keeps_of_eq (Keeps.refl _) (by simp [hf, h1])

theorem execRelease_keeps (s : State) : Out.keeps s.ground (execRelease s) := by
  unfold execRelease
  split
  · simp
  · dsimp only
    repeat' split
    all_goals simp

end Sys2Proof.Machine
end

