-- ==== Sys2Proof/Proofs/StepInvariants.lean ====
section
/-! SUPPORT. Replay keeps the ground, and so does every command and every step. -/

namespace Sys2Proof.Machine
open Ground (Keeps)

@[simp] theorem State.startTable_keeps {g : Ground} {q : State × Nat} (t : Nat × Nat × Nat) (h : Keeps g q.1.ground) : Keeps g (State.startTable q t).1.ground := by
  unfold State.startTable
  refine Keeps.iter (fun u => u) _ _ (fun i u hu => ?_) q.1 h
  dsimp only
  have hw : Keeps g (u.tabApply 0 { sel := t.1, core := none, ix := i, val := q.1.trace.startEntry q.2 t.2.1 i }).ground := State.tabApply_keeps _ _ hu
  split <;> exact hw

theorem State.startTables_keeps {g : Ground} (ts : List (Nat × Nat × Nat)) {q : State × Nat} (h : Keeps g q.1.ground) :
    Keeps g (ts.foldl State.startTable q).1.ground :=
  Keeps.foldl (fun q : State × Nat => q.1) State.startTable (fun _ _ ht => State.startTable_keeps _ ht) ts q h

theorem State.applyStart_keeps {g : Ground} {s : State} (h : Keeps g s.ground) : Keeps g s.applyStart.ground := by
  unfold State.applyStart
  generalize startTables = ts
  extract_lets +onlyGivenNames p s1 q s2 s3
  have h1 : Keeps g s1.ground := h.of_eq (State.measChanged_ground _ _)
  clear_value s1
  have hq : Keeps g q.1.ground := State.startTables_keeps ts h1
  clear_value q
  have h2 : Keeps g s2.ground := hq.of_eq (State.startRegs_ground _ _)
  clear_value s2
  have h3 : Keeps g s3.ground := h2.of_eq (State.stepTime_ground _ _)
  clear_value s3
  rw [State.ground_mk]
  exact h3

theorem execCpResetDone_keeps (s : State) : Out.keeps s.ground (execCpResetDone s) := by
  unfold execCpResetDone
  extract_lets +onlyGivenNames b s1 s2
  have h2 : Keeps s.ground s2.ground := by
    unfold s2
    split
    · exact State.applyStart_keeps (Keeps.refl _)
    · exact Keeps.refl _
  exact Out.keeps_happen (Keeps.refl _) (by simpa using h2)

@[simp] theorem State.replayGo_keeps {g : Ground} {s : State} (h : Keeps g s.ground) : Keeps g s.replayGo.ground := by
  unfold State.replayGo
  dsimp only
  split <;> simp [h]

theorem State.replayCtrl_keeps {g : Ground} {s : State} (v : W32) (h : Keeps g s.ground) : Keeps g (s.replayCtrl v).ground := by
  unfold State.replayCtrl
  dsimp only
  repeat' split
  all_goals simp [h]

theorem execReplayLoad_keeps (v : W32) (s : State) : Out.keeps s.ground (execReplayLoad v s) :=
  Out.keeps_ite _ (s.regCmd_keeps _ _ _ (fun _ => State.replayCtrl_keeps _ (Keeps.refl _))) (by simp)

theorem execReplayGo_keeps (v : W32) (s : State) : Out.keeps s.ground (execReplayGo v s) :=
  Out.keeps_ite _ (s.regCmd_keeps _ _ _ (fun _ => State.replayCtrl_keeps _ (Keeps.refl _))) (by simp)

theorem execReplayStop_keeps (v : W32) (s : State) : Out.keeps s.ground (execReplayStop v s) :=
  Out.keeps_ite _ (s.regCmd_keeps _ _ _ (fun _ => State.replayCtrl_keeps _ (Keeps.refl _))) (by simp)

theorem State.regAll_keeps (s : State) (off : Nat) (v : W32) : Keeps s.ground (s.regAll off v).ground := by
  unfold State.regAll
  simp [State.moduleReset_keeps, State.cpReset_keeps]

/-- What a fed event leaves is the state its execution leaves. -/
theorem after_keeps {s : State} {o : Out} (h : Out.keeps s.ground o) : Keeps s.ground (after s o).ground := by
  obtain ⟨t, rfl, ht⟩ := h
  exact ht

theorem State.feedSync_keeps (s : State) (l : LinkIx) (b : Block) : Keeps s.ground (s.feedSync l b).ground := by
  refine after_keeps ?_
  split
  · exact Out.keeps_ite _ (execJoinMarker_calm l b s).keeps (execReady_keeps l b s)
  · exact execStretch_keeps l b s
  · exact (execDue_calm l b s).keeps
  · exact execAbandon_keeps l b s
  · exact (execHalt_calm l b s).keeps
  · simp

theorem State.feedFlit_keeps (s : State) (i l : Nat) : Keeps s.ground (s.feedFlit i l).ground := by
  unfold State.feedFlit
  dsimp only
  split <;> simp

theorem State.feed_keeps (s : State) (i : Nat) : Keeps s.ground (s.feed i).ground := by
  unfold State.feed
  dsimp only
  split
  · simp
  · simp
  · exact s.feedFlit_keeps _ _
  · split
    · exact s.feedSync_keeps _ _
    · simp
  · exact after_keeps (execPaceEdge_calm s).keeps
  · exact s.regAll_keeps _ _
  · simp

theorem execReplayFeed_keeps (s : State) : Out.keeps s.ground (execReplayFeed s) := by
  unfold execReplayFeed
  extract_lets +onlyGivenNames r i
  split
  · simp
  · split
    · simp
    · split
      · simp
      · rename_i hdue
        have ht := State.recordDue_ground hdue
        extract_lets +onlyGivenNames tr t1
        have h1 : Keeps s.ground t1.ground := by
          rw [State.ground_mk]
          exact (Keeps.refl _).of_eq ht
        split
        · simpa using h1
        · extract_lets +onlyGivenNames u
          have hu : Keeps s.ground u.ground := h1.trans (t1.feed_keeps i)
          clear_value u
          refine ⟨_, rfl, ?_⟩
          split
          · rw [State.ground_mk]
            exact hu
          · exact hu

theorem execTensorMoveLoad_keeps (c : CoreIx) (z : Nat) (host : List HostReply) (s : State) : Out.keeps s.ground (execTensorMoveLoad c z host s) :=
  s.moveCmd_keeps _ _ _ _

theorem execTensorMoveStore_keeps (c : CoreIx) (z : Nat) (host : List HostReply) (s : State) : Out.keeps s.ground (execTensorMoveStore c z host s) :=
  s.moveCmd_keeps _ _ _ _

theorem execTensorMoveLocal_keeps (c : CoreIx) (z : Nat) (s : State) : Out.keeps s.ground (execTensorMoveLocal c z s) := s.moveCmd_keeps _ _ _ _

theorem execGather_keeps (c : CoreIx) (z : Nat) (host : List HostReply) (s : State) : Out.keeps s.ground (execGather c z host s) :=
  s.mergeCmd_keeps _ _ _ _ _ (s.gsGo_keeps c.val host)

theorem execScatter_keeps (c : CoreIx) (z : Nat) (host : List HostReply) (s : State) : Out.keeps s.ground (execScatter c z host s) :=
  s.mergeCmd_keeps _ _ _ _ _ (s.gsGo_keeps c.val host)

theorem execKettleAdd_keeps (c : CoreIx) (z : Nat) (s : State) : Out.keeps s.ground (execKettleAdd c z s) :=
  s.mergeCmd_keeps _ _ _ _ _ (s.kettleAddGo_keeps c.val)

theorem execKettleDrain_keeps (c : CoreIx) (z : Nat) (host : List HostReply) (s : State) : Out.keeps s.ground (execKettleDrain c z host s) :=
  s.mergeCmd_keeps _ _ _ _ _ (s.kettleDrainGo_keeps c.val host)

theorem execDataFlit_keeps (l : LinkIx) (h : Block) (p : List PWord) (fec : Option Nat) (s : State) : Out.keeps s.ground (execDataFlit l h p fec s) :=
  ⟨_, rfl, s.flitIn_keeps _ _ _ _ _⟩

theorem execDone_keeps (l : LinkIx) (h : Block) (fec : Option Nat) (s : State) : Out.keeps s.ground (execDone l h fec s) :=
  ⟨_, rfl, s.flitIn_keeps _ _ _ _ _⟩

/-- Every command answers a next state and keeps the ground. -/
theorem exec_keeps : ∀ (i : Instr) (s : State), Out.keeps s.ground (exec i s)
  | .milepost, s => execMilepost_keeps s
  | .moduleReady, s => (execModuleReady_calm s).keeps
  | .ready l b, s => execReady_keeps l b s
  | .dueTime g, s => (execDueTime_calm g s).keeps
  | .stretch l b, s => execStretch_keeps l b s
  | .deadline g, s => execDeadline_keeps g s
  | .policyWrite g v, s => execPolicyWrite_keeps g v s
  | .abandon l b, s => execAbandon_keeps l b s
  | .paceEdge, s => (execPaceEdge_calm s).keeps
  | .paceWindowEnd, s => (execPaceWindowEnd_calm s).keeps
  | .paceAcquireTimeout, s => (execPaceAcquireTimeout_calm s).keeps
  | .due l b, s => (execDue_calm l b s).keeps
  | .realign v, s => (execRealign_calm v s).keeps
  | .timeSymbolSend, s => (execTimeSymbolSend_calm s).keeps
  | .time l b, s => (execTime_calm l b s).keeps
  | .timeSet hi, s => (execTimeSet_calm hi s).keeps
  | .timeNowRead, s => (execTimeNowRead_calm s).keeps
  | .legNoRead, s => (execLegNoRead_calm s).keeps
  | .joinMarker l b, s => (execJoinMarker_calm l b s).keeps
  | .arrayLoad c, s => (execArrayLoad_calm c s).keeps
  | .arrayFeed c st, s => (execArrayFeed_calm c st s).keeps
  | .gatherDeadline c, s => (execGatherDeadline_calm c s).keeps
  | .arrayReverse c st, s => (execArrayReverse_calm c st s).keeps
  | .arrayWgrad c st, s => (execArrayWgrad_calm c st s).keeps
  | .arrayOpEnd c k, s => (execArrayOpEnd_calm c k s).keeps
  | .caddyBind c z, s => (execCaddyBind_calm c z s).keeps
  | .caddyPush c z, s => execCaddyPush_keeps c z s
  | .caddyPop c z, s => execCaddyPop_keeps c z s
  | .caddyCopyDone e k, s => (execCaddyCopyDone_calm e k s).keeps
  | .gather c z host, s => execGather_keeps c z host s
  | .scatter c z host, s => execScatter_keeps c z host s
  | .segReduce c z, s => (execSegReduce_calm c z s).keeps
  | .sort c z, s => (execSort_calm c z s).keeps
  | .compact c z, s => (execCompact_calm c z s).keeps
  | .kettleOpen c z, s => (execKettleOpen_calm c z s).keeps
  | .kettleAdd c z, s => execKettleAdd_keeps c z s
  | .kettleDrain c z host, s => execKettleDrain_keeps c z host s
  | .kettleDiscard c z, s => (execKettleDiscard_calm c z s).keeps
  | .sparseCompress c z, s => (execSparseCompress_calm c z s).keeps
  | .bitmapPack c z, s => (execBitmapPack_calm c z s).keeps
  | .bitmapDecode c z, s => (execBitmapDecode_calm c z s).keeps
  | .mergeOpEnd c, s => (execMergeOpEnd_calm c s).keeps
  | .vecRun c z, s => (execVecRun_calm c z s).keeps
  | .vecRunEnd c, s => (execVecRunEnd_calm c s).keeps
  | .softmaxFwd c z, s => (execSoftmaxFwd_calm c z s).keeps
  | .softmaxBwd c z, s => (execSoftmaxBwd_calm c z s).keeps
  | .lnFwd c z, s => (execLnFwd_calm c z s).keeps
  | .lnBwd c z, s => (execLnBwd_calm c z s).keeps
  | .rmsFwd c z, s => (execRmsFwd_calm c z s).keeps
  | .rmsBwd c z, s => (execRmsBwd_calm c z s).keeps
  | .kdLoss c z, s => (execKdLoss_calm c z s).keeps
  | .statSave c z, s => (execStatSave_calm c z s).keeps
  | .statLoad c z, s => (execStatLoad_calm c z s).keeps
  | .rowOpEnd c, s => (execRowOpEnd_calm c s).keeps
  | .tensorMoveLoad c z host, s => execTensorMoveLoad_keeps c z host s
  | .tensorMoveStore c z host, s => execTensorMoveStore_keeps c z host s
  | .tensorMoveLocal c z, s => execTensorMoveLocal_keeps c z s
  | .accessOpEnd c, s => (execAccessOpEnd_calm c s).keeps
  | .nop c f, s => (execNop_calm c f s).keeps
  | .movi c f, s => (execMovi_calm c f s).keeps
  | .alu c f, s => (execAlu_calm c f s).keeps
  | .alui c f, s => (execAlui_calm c f s).keeps
  | .br c f, s => (execBr_calm c f s).keeps
  | .setlc c f, s => (execSetlc_calm c f s).keeps
  | .loop c f, s => (execLoop_calm c f s).keeps
  | .getsum c f, s => (execGetsum_calm c f s).keeps
  | .getfmt c f, s => (execGetfmt_calm c f s).keeps
  | .gettime c f, s => (execGettime_calm c f s).keeps
  | .setseed c f, s => (execSetseed_calm c f s).keeps
  | .onend c f, s => (execOnend_calm c f s).keeps
  | .patch c f, s => (execPatch_calm c f s).keeps
  | .cadd c f, s => (execCadd_calm c f s).keeps
  | .waitge c f, s => (execWaitge_calm c f s).keeps
  | .semsig c f, s => (execSemsig_calm c f s).keeps
  | .semwait c f, s => (execSemwait_calm c f s).keeps
  | .arrive c f, s => (execArrive_calm c f s).keeps
  | .barrierRound g, s => (execBarrierRound_calm g s).keeps
  | .fence c f, s => (execFence_calm c f s).keeps
  | .gate c f, s => (execGate_calm c f s).keeps
  | .onstatus c f, s => (execOnstatus_calm c f s).keeps
  | .legEnd c f, s => (execLegEnd_calm c f s).keeps
  | .engineOpIssue c f, s => (execEngineOpIssue_calm c f s).keeps
  | .unitShutdownDone c u, s => (execUnitShutdownDone_calm c u s).keeps
  | .unitPowerUpDone c u, s => (execUnitPowerUpDone_calm c u s).keeps
  | .corePowerDown c, s => (execCorePowerDown_calm c s).keeps
  | .corePowerUp c, s => (execCorePowerUp_calm c s).keeps
  | .programChunk c n data crc, s => (execProgramChunk_calm c n data crc s).keeps
  | .broadcastRepair, s => (execBroadcastRepair_calm s).keeps
  | .govDecision f, s => (execGovDecision_calm f s).keeps
  | .placementProposal host, s => (execPlacementProposal_calm host s).keeps
  | .mapVersionBuilt, s => execMapVersionBuilt_keeps s
  | .lossOfSignal l, s => (execLossOfSignal_calm l s).keeps
  | .linkSignalDetect l, s => (execLinkSignalDetect_calm l s).keeps
  | .linkTrained l id, s => (execLinkTrained_calm l id s).keeps
  | .linkTrainingFail l, s => (execLinkTrainingFail_calm l s).keeps
  | .laneRetire l lane, s => (execLaneRetire_calm l lane s).keeps
  | .sparingDone l, s => (execSparingDone_calm l s).keeps
  | .dataFlit l h p fec, s => execDataFlit_keeps l h p fec s
  | .done l h fec, s => execDone_keeps l h fec s
  | .ack l b, s => (execAck_calm l b s).keeps
  | .nak l b, s => (execNak_calm l b s).keeps
  | .ackTimer l, s => (execAckTimer_calm l s).keeps
  | .halt l b, s => (execHalt_calm l b s).keeps
  | .post, s => execPost_keeps s
  | .mark, s => (execMark_calm s).keeps
  | .compare, s => (execCompare_calm s).keeps
  | .compareDone, s => (execCompareDone_calm s).keeps
  | .adopt image, s => execAdopt_keeps image s
  | .adoptDone, s => execAdoptDone_keeps s
  | .memRetrainDone d ok, s => execMemRetrainDone_keeps d ok s
  | .scrub d line fixed bad last, s => execScrub_keeps d line fixed bad last s
  | .cxlMemRead a, s => (execCxlMemRead_calm a s).keeps
  | .cxlMemWrite a data poison, s => execCxlMemWrite_keeps a data poison s
  | .snpInv a, s => (execSnpInv_calm a s).keeps
  | .snpData a, s => (execSnpData_calm a s).keeps
  | .snpCur a, s => (execSnpCur_calm a s).keeps
  | .watchPoll r, s => (execWatchPoll_calm r s).keeps
  | .watchLineRead r reply, s => (execWatchLineRead_calm r reply s).keeps
  | .descTake r d, s => (execDescTake_calm r d s).keeps
  | .completionWriteFail r, s => (execCompletionWriteFail_calm r s).keeps
  | .hostAbort q, s => (execHostAbort_calm q s).keeps
  | .hostCompletionTimeout q, s => (execHostCompletionTimeout_calm q s).keeps
  | .ringEnable r v, s => (execRingEnable_calm r v s).keeps
  | .ringDisable r v, s => (execRingDisable_calm r v s).keeps
  | .loadProgram host, s => (execLoadProgram_calm host s).keeps
  | .runLegs, s => (execRunLegs_calm s).keeps
  | .runLegsStart g, s => (execRunLegsStart_calm g s).keeps
  | .move host, s => execMove_keeps host s
  | .fill, s => execFill_keeps s
  | .hostDmaDone, s => execHostDmaDone_keeps s
  | .setTable host, s => execSetTable_keeps host s
  | .join host, s => (execJoin_calm host s).keeps
  | .release, s => execRelease_keeps s
  | .descFence r, s => (execDescFence_calm r s).keeps
  | .descFenceDone r, s => (execDescFenceDone_calm r s).keeps
  | .recordMark, s => (execRecordMark_calm s).keeps
  | .query host, s => execQuery_keeps host s
  | .trayRstNAssert, s => execTrayRstNAssert_keeps s
  | .trayRstNRelease, s => execTrayRstNRelease_keeps s
  | .bootVerifyDone, s => execBootVerifyDone_keeps s
  | .fwStartDone, s => (execFwStartDone_calm s).keeps
  | .startupTestDone t, s => (execStartupTestDone_calm t s).keeps
  | .memoryTrainingDone ds, s => execMemoryTrainingDone_keeps ds s
  | .moduleReset v, s => execModuleReset_keeps v s
  | .cpReset v, s => execCpReset_keeps v s
  | .cpPowerOff, s => (execCpPowerOff_calm s).keeps
  | .cpTestDone t, s => execCpTestDone_keeps t s
  | .cpResetDone, s => execCpResetDone_keeps s
  | .push v, s => (execPush_calm v s).keeps
  | .update v, s => (execUpdate_calm v s).keeps
  | .imgDone image flashOk, s => execImgDone_keeps image flashOk s
  | .recordClear v, s => (execRecordClear_calm v s).keeps
  | .hostPerstNAssert, s => (execHostPerstNAssert_calm s).keeps
  | .hostPerstNRelease, s => (execHostPerstNRelease_calm s).keeps
  | .powerSample pkg inp, s => (execPowerSample_calm pkg inp s).keeps
  | .thermalSample junction, s => (execThermalSample_calm junction s).keeps
  | .hbmTempReport stack t, s => (execHbmTempReport_calm stack t s).keeps
  | .thermalStep, s => (execThermalStep_calm s).keeps
  | .droopDetect d, s => (execDroopDetect_calm d s).keeps
  | .droopHoldEnd d, s => (execDroopHoldEnd_calm d s).keeps
  | .droopRise d, s => (execDroopRise_calm d s).keeps
  | .opDecision, s => (execOpDecision_calm s).keeps
  | .voltageRaiseDone, s => (execVoltageRaiseDone_calm s).keeps
  | .pwrCtrlWrite v, s => (execPwrCtrlWrite_calm v s).keeps
  | .flowOkLow, s => (execFlowOkLow_calm s).keeps
  | .coolantStop, s => (execCoolantStop_calm s).keeps
  | .stopHaltLinks, s => (execStopHaltLinks_calm s).keeps
  | .stopDescriptorsCut, s => (execStopDescriptorsCut_calm s).keeps
  | .stopRailsOff, s => execStopRailsOff_keeps s
  | .inputUndervolt mv, s => execInputUndervolt_keeps mv s
  | .inputOvervolt mv, s => execInputOvervolt_keeps mv s
  | .inputRecovered mv, s => execInputRecovered_keeps mv s
  | .railShort r, s => execRailShort_keeps r s
  | .senseOpen r, s => (execSenseOpen_calm r s).keeps
  | .sidebandStuck, s => (execSidebandStuck_calm s).keeps
  | .sidebandRetry free, s => (execSidebandRetry_calm free s).keeps
  | .captureArm v, s => (execCaptureArm_calm v s).keeps
  | .freeze v, s => (execFreeze_calm v s).keeps
  | .recSizeWrite v, s => (execRecSizeWrite_calm v s).keeps
  | .ringNextRead, s => (execRingNextRead_calm s).keeps
  | .replayLoad v, s => execReplayLoad_keeps v s
  | .replayLoadDone lines, s => (execReplayLoadDone_calm lines s).keeps
  | .replayGo v, s => execReplayGo_keeps v s
  | .replayFeed, s => execReplayFeed_keeps s
  | .replayStop v, s => execReplayStop_keeps v s
  | .getVersion, s => (execGetVersion_calm s).keeps
  | .getCapabilities, s => (execGetCapabilities_calm s).keeps
  | .negotiateAlgorithms, s => (execNegotiateAlgorithms_calm s).keeps
  | .getDigests, s => (execGetDigests_calm s).keeps
  | .getCertificate slot off len, s => (execGetCertificate_calm slot off len s).keeps
  | .challenge slot nonce, s => (execChallenge_calm slot nonce s).keeps
  | .getMeasurements ix sign nonce, s => (execGetMeasurements_calm ix sign nonce s).keeps
  | .keyExchange exch, s => (execKeyExchange_calm exch s).keeps
  | .finish mac, s => (execFinish_calm mac s).keeps
  | .endSession, s => (execEndSession_calm s).keeps
  | .spdmSignDone, s => (execSpdmSignDone_calm s).keeps
  | .entdaa addr, s => (execEntdaa_calm addr s).keeps
  | .setdasa static addr, s => (execSetdasa_calm static addr s).keeps
  | .rstdaa, s => (execRstdaa_calm s).keeps
  | .getpid, s => (execGetpid_calm s).keeps
  | .getbcr, s => (execGetbcr_calm s).keeps
  | .getdcr, s => (execGetdcr_calm s).keeps
  | .getstatus, s => (execGetstatus_calm s).keeps
  | .sbRead off n, s => (execSbRead_calm off n s).keeps
  | .registerWrite off v, s => (execRegisterWrite_calm off v s).keeps
  | .flowOkHigh, s => (execFlowOkHigh_calm s).keeps
  | .vauxLost, s => execVauxLost_keeps s
  | .cxlConfigWrite cache mem, s => (execCxlConfigWrite_calm cache mem s).keeps
  | .hdmDecoderCommit base units, s => (execHdmDecoderCommit_calm base units s).keeps
  | .ideKm cachemem key go, s => (execIdeKm_calm cachemem key go s).keeps
  | .memInterfaceTemperature d t, s => execMemInterfaceTemperature_keeps d t s
  | .tagAreaFlashWritten, s => (execTagAreaFlashWritten_calm s).keeps

/-- A step, idle or not, keeps device memory canonical and the floor, and what holds of a floor within 0 to 63. -/
theorem step_keeps {s t : State} (h : step s = .next t) :
    (s.mem.canonical = true → t.mem.canonical = true) ∧ s.secFloor ≤ t.secFloor ∧ (Ground.Within s.ground → Ground.Within t.ground) := by
  unfold step at h
  split at h
  · cases h
    have e := s.tick_ground
    refine ⟨fun hm => (congrArg (fun g => g.2.1.canonical) e).trans hm, le_of_eq (congrArg Ground.floor e).symm, fun hw => ?_⟩
    rwa [e]
  · obtain ⟨u, hu, hk⟩ := exec_keeps _ _ |>.imp fun _ p => p
    cases h.symm.trans hu
    exact ⟨hk.mem, hk.floor, hk.within⟩

/-! ### The floor at a start -/

theorem State.trainDevice_fused (s : State) (d : Nat) (r : DevTrain) : (s.trainDevice d r).ground.2.2 = s.ground.2.2 := by
  unfold State.trainDevice
  extract_lets +onlyGivenNames rec' usable
  repeat' split
  · rfl
  · rfl
  · rw [State.untrained_ground]
  · rw [State.untrained_ground]
  · rfl
  · rfl

theorem State.trainDevices_fused (ds : List DevTrain) (l : List Nat) (s : State) :
    (l.foldl (fun t d => t.trainDevice d (nth .full ds d)) s).ground.2.2 = s.ground.2.2 :=
  State.foldl_keeps (fun t => t.ground.2.2) _ (fun t _ => t.trainDevice_fused _ _) l s

theorem State.secFloor_of_ground {s t : State} (h : t.ground = s.ground) : t.secFloor = s.secFloor := congrArg Ground.floor h

theorem State.raiseFloor_secFloor {s : State} {i : Image} (h : s.boot.running = some i) :
    s.raiseFloor.secFloor = if i.raiseFloor = true ∧ s.secFloor < i.secVersion then i.secVersion else s.secFloor := by
  unfold State.raiseFloor
  rw [h]
  by_cases hc : i.raiseFloor = true ∧ s.secFloor < i.secVersion
  · simp only [hc.1, hc.2, decide_true, Bool.and_self, if_true, and_self]
    rw [State.secFloor_of_ground (State.measChanged_ground _ _)]
    rfl
  · have : (i.raiseFloor && decide (s.secFloor < i.secVersion)) = false := by simpa using hc
    simp only [this, hc, if_false, Bool.false_eq_true]

/-- A start that lays down READY raises the floor and does nothing else to it (R430). -/
theorem State.reachReady_secFloor {s : State} {i : Image} (h : s.boot.running = some i) :
    s.reachReady.secFloor = if i.raiseFloor = true ∧ s.secFloor < i.secVersion then i.secVersion else s.secFloor := by
  unfold State.reachReady
  extract_lets +onlyGivenNames m p b w s1
  have h1 : (s1.measFixed.measChanged 5).ground = s.ground := by simp [s1, b]
  generalize s1.measFixed.measChanged 5 = t at h1 ⊢
  have ht : t.boot.running = some i := (congrArg (fun g => g.2.2.2) h1).trans h
  rw [State.secFloor_of_ground (State.startCapture_ground _), State.secFloor_of_ground (State.rephase_ground _),
    State.secFloor_of_ground (State.rangeMark_ground _), State.raiseFloor_secFloor ht, State.secFloor_of_ground h1]

theorem execMemoryTrainingDone_secFloor {s t : State} {ds : List DevTrain} {i : Image} (h : exec (.memoryTrainingDone ds) s = .next t)
    (hs : s.boot.st = .train) (ht : t.boot.st = .ready) (hi : s.boot.running = some i) :
    t.secFloor = if i.raiseFloor = true ∧ s.secFloor < i.secVersion then i.secVersion else s.secFloor := by
  change execMemoryTrainingDone ds s = .next t at h
  unfold execMemoryTrainingDone at h
  extract_lets +onlyGivenNames s1 fitted saved b s2 at h
  have h1 : s2.ground.2.2 = s.ground.2.2 := s.trainDevices_fused ds _
  clear_value s1 s2
  simp only [hs, happen, beq_self_eq_true, if_true] at h
  split at h <;> cases h
  · cases ht
  · have hr : s2.boot.running = some i := (congrArg Prod.snd h1).trans hi
    have hf : s2.secFloor = s.secFloor := congrArg (fun g => g.1.getD (Config.secFloor % 64)) h1
    rw [State.reachReady_secFloor hr, hf]

end Sys2Proof.Machine

open Sys2Proof Sys2Proof.Machine

/-- Settles O2. -/
theorem commandsAnswerAndKeepQueue : Obligations.CommandsAnswerAndKeepQueue := by
  intro i s
  obtain ⟨t, h, hk⟩ := exec_keeps i s
  exact ⟨t, h, hk.pending⟩

/-- Settles O3. -/
theorem everyStepKeepsMemoryCanonical : Obligations.EveryStepKeepsMemoryCanonical := fun _ _ hs h => (step_keeps h).1 hs

/-- Settles O6: every function that writes the flash or takes up an image keeps the floor's bounds; the last write of the floor is that of
READY, from the floor and the image that training leaves as they are. -/
theorem securityFloor : Obligations.SecurityFloor := by
  refine ⟨fun s t h => ?_, fun s t ds i h hs ht hi => execMemoryTrainingDone_secFloor h hs ht hi, fun s b hb => s.verifyImage_above b hb⟩
  obtain ⟨-, hf, hw⟩ := step_keeps h
  exact ⟨hf, hw⟩
end

