-- ==== Sys2Proof/Proofs/ComputePartReset.lean ====
section
/-! The compute-part reset: its acceptance and its end; and what the state of reset reads as. -/

namespace Sys2Proof.Machine

/-! ### What a compute-part reset's beginning leaves of the start-up's state -/

@[simp] theorem State.regIn_boot (s : State) (off : Nat) (v : W32) : (s.regIn off v).boot = s.boot := State.captureIn_boot ..

@[simp] theorem State.foldl_boot {α : Type} (f : State → α → State) (h : ∀ t a, (f t a).boot = t.boot) (l : List α) (s : State) :
    (l.foldl f s).boot = s.boot := State.foldl_keeps State.boot f h l s

@[simp] theorem State.measChanged_boot (s : State) (ix : Nat) : (s.measChanged ix).boot = s.boot := State.mark_boot ..

@[simp] theorem State.completeOrder_boot (s : State) (o st a b : Nat) : (s.completeOrder o st a b).boot = s.boot := by
  unfold State.completeOrder
  split <;> simp

@[simp] theorem State.endRuns_boot (s : State) (n st a b : Nat) : (s.endRuns n st a b).boot = s.boot := by simp [State.endRuns]

@[simp] theorem State.planChange_boot (s : State) (f : Plan → Plan) : (s.planChange f).boot = s.boot := by
  unfold State.planChange
  split <;> simp

@[simp] theorem State.applyAbsent_boot (s : State) : s.applyAbsent.boot = s.boot := by simp [State.applyAbsent]

@[simp] theorem State.seriesEnd_boot (s : State) : s.seriesEnd.boot = s.boot := by
  unfold State.seriesEnd
  simp only [State.applyAbsent_boot]
  refine State.foldl_boot _ (fun t p => ?_) _ _
  repeat' split
  all_goals simp

@[simp] theorem State.dropJoins_boot (s : State) (status : Option Nat) : (s.dropJoins status).boot = s.boot := by
  unfold State.dropJoins
  refine State.foldl_boot _ (fun t p => ?_) _ _
  repeat' split
  all_goals simp

@[simp] theorem State.cutBroadcast_boot (s : State) : s.cutBroadcast.boot = s.boot := by
  unfold State.cutBroadcast
  split <;> simp

@[simp] theorem State.dropBarriers_boot (s : State) : s.dropBarriers.boot = s.boot := by
  unfold State.dropBarriers
  refine State.foldl_boot _ (fun t p => ?_) _ _
  split <;> simp

@[simp] theorem State.dropGroups_boot (s : State) (cause sub : Nat) : (s.dropGroups cause sub).boot = s.boot := by
  unfold State.dropGroups
  dsimp only
  rw [State.foldl_boot, State.foldl_boot, State.foldl_boot]
  · simp
  · simp
  · intro t p
    repeat' split
    all_goals simp

@[simp] theorem State.owe_boot (s : State) (ns : List Nat) (leg : Nat) (due : Option Nat) : (s.owe ns leg due).boot = s.boot :=
  State.foldl_boot _ (fun _ _ => State.updGroup_boot ..) _ _

@[simp] theorem State.retrainNext_boot (s : State) : s.retrainNext.boot = s.boot := by
  unfold State.retrainNext
  split
  · rfl
  · simp [State.startRetrain]

@[simp] theorem State.xferEnd_boot (s : State) (x : Xfer) (ok : Bool) : (s.xferEnd x ok).boot = s.boot :=
  State.xferEnd_keeps State.boot (fun _ _ => rfl) State.updCore_boot s x ok

@[simp] theorem State.abortXfers_boot (s : State) (p : Xfer → Bool) : (s.abortXfers p).boot = s.boot := by
  refine State.foldl_boot _ (fun t x => ?_) _ _
  simp [State.xferFault, State.anyPort, State.free32]

/-- What an accepted reset does to the start-up's state (R436). -/
theorem State.cpBegin_boot (s : State) : s.cpBegin.boot = { s.boot with
    st := .cpReset, cpBusy := true, cpStage := 1, lastReset := 3, cpCount := BitVec.ofNat 16 (sat 16 (s.boot.cpCount.toNat + 1)) } := by
  unfold State.cpBegin
  extract_lets +onlyGivenNames due s1 s2 s3 s4
  have h2 : s2.boot = s.boot := by simp [s2, s1, State.haltCores]
  have h4 : s4.boot = s.boot := by
    unfold s4 s3
    split <;> simp [State.rephase, h2]
  simp [h4]

/-- A write that asks for a compute-part reset and for no module reset (R436). -/
theorem exec_cpReset {s : State} {v : W32} (hk : keyed v = true) (h0 : bit v.toNat 0 = true) (h1 : bit v.toNat 1 = false) (ha : s.answers 0x0188 = true) :
    exec (.cpReset v) s = .next (s.regIn 0x0188 v).cpReset := by
  show execCpReset v s = _
  simp [execCpReset, hk, h0, h1, State.regCmd_answers _ _ _ _ ha]

theorem State.cpReset_accepted {s : State} (hst : s.boot.st = .ready) (hb : s.boot.cpBusy = false) : s.cpReset = s.cpBegin := by
  simp [State.cpReset, hst, hb]

theorem State.cpReset_ignored {s : State} (h : s.boot.cpBusy = true ∨ s.boot.st ≠ .ready) : s.cpReset = s := by
  unfold State.cpReset
  rcases h with h | h <;> simp [h]

/-! ### A core whose arbiter has granted, at the end of a compute-part reset -/

/-- A module at the third stage of a compute-part reset, in which an arbiter of core 0 points past stream F. -/
def grantedAtReset : State := { boot := { st := .cpReset, cpStage := 3 }, cores := [(0, { power := .on, arb := [(0, 1)] })] }

/-- The phase point at the end of the reset takes the pointer back to 0 (R57). -/
theorem grantedAtReset_work : ∀ t, exec .cpResetDone grantedAtReset = .next t → t.work ≠ grantedAtReset.work := by
  intro t h
  cases h
  decide

end Sys2Proof.Machine

open Sys2Proof Sys2Proof.Machine

/-- Settles O53. -/
theorem cpResetAcceptedOnlyInReady : Obligations.CpResetAcceptedOnlyInReady := by
  intro s v hk h0 h1 ha
  refine ⟨fun hst hb => ⟨_, exec_cpReset hk h0 h1 ha, ?_⟩, fun h => ⟨_, exec_cpReset hk h0 h1 ha, ?_⟩⟩
  · rw [State.cpReset_accepted (by simpa using hst) (by simpa using hb), State.cpBegin_boot, State.regIn_boot]
    refine ⟨rfl, rfl, ?_⟩
    simp only [BitVec.toNat_ofNat, sat]
    omega
  · rw [State.cpReset_ignored (by simpa using h)]
    exact s.captureIn_only ..

/-- Refutes O54: the clause that CP_RESET_DONE leaves the module's work. It is a phase point, at which every core's arbiters return to 0
(R57), so a core whose arbiter points elsewhere is changed. (CP_TEST_DONE leaves every core's arbiters at 0, and there the phase point
changes no core.) -/
theorem not_resetsAndPower : ¬ Obligations.ResetsAndPower := by
  intro h
  obtain ⟨-, -, -, -, -, -, -, hdone, -⟩ := h grantedAtReset 0 0
  obtain ⟨t, ht, -, -, -, -, hwork⟩ := hdone rfl rfl
  exact grantedAtReset_work t ht hwork

/-- Settles O4: reset is one state, and every register of it is read off. -/
theorem resetState : Obligations.ResetState := by
  unfold Obligations.ResetState
  refine ⟨rfl, by decide, rfl, rfl, rfl, rfl, rfl, rfl, rfl, rfl, rfl, rfl, rfl, rfl, fun r _ => ⟨rfl, rfl⟩, fun l _ => rfl, ?_⟩
  exact ⟨by decide, by decide, by decide, by decide, by decide, by decide, by decide, by decide, by decide⟩
end

