-- ==== Sys2Proof/Proofs/Completions.lean ====
section
/-! Completions: their waymark, and a failed host read. -/

namespace Sys2Proof.Machine

/-! ### A MOVE within the device waits for no host line -/

/-- A MOVE from device memory to device memory (DIR 2), begun, with lines of it still to come. -/
def innerMove : Desc :=
  { order := 0, ring := 0, slot := 0, raw := BitVec.setWidth 512 0x3800000#32, taken := 0, started := true, since := 0, result := none }

theorem innerMove_raw : innerMove.raw.toNat = 0x3800000 := by
  rw [innerMove, BitVec.toNat_setWidth_of_le (by norm_num)]
  rfl

theorem innerMove_type : innerMove.type = 3 := by
  rw [Desc.type, innerMove_raw]
  rfl

theorem innerMove_dir : innerMove.f 0 22 2 = 2 := by
  rw [Desc.f, innerMove_raw]
  rfl

/-- A module whose one descriptor is that MOVE. -/
def movingInside : State := { host := { descs := [innerMove] } }

/-- A failed host read that names it finds no line outstanding and changes nothing (R389, R409). -/
theorem movingInside_hostAbort : exec (.hostAbort (.desc 0 0)) movingInside = .next movingInside := by
  have hfind : movingInside.host.descs.find? (fun d => d.ring == (0 : RingIx).val && d.slot == (0 : W16).toNat) = some innerMove := rfl
  show Host.Outcome.next (movingInside.hostFail (.desc 0 0) false) = _
  unfold State.hostFail
  dsimp only
  rw [hfind]
  simp [innerMove_dir]

/-! ### The waymark of a completion (R420) -/

@[simp] theorem State.portFail_coord (s : State) (r : Nat) : (s.portFail r).coord = s.coord := by
  unfold State.portFail
  split <;> rfl

/-- A waymark that is no FAULT goes to the recorder and ends no capture. -/
theorem State.markAt_trace (s : State) {t kind : Nat} (cause group : Nat) (origin : W16) (unit : Nat) (job : W16) (leg payload : Nat) (h : kind ≠ 0x12) :
    (s.markAt t kind cause group origin unit job leg payload).trace = s.trace.record
      { time := t, kind := kind, cause := cause, dropBefore := false, group := group, seq := 0, origin := origin, unit := BitVec.ofNat 16 unit,
        jobTag := job, legNo := leg, payload := BitVec.ofNat 64 payload } := by
  unfold State.markAt
  simp [h]

/-- A completion's payload: its four fields lie beside one another within 64 bits. -/
theorem descDone_payload {status type ring tag : Nat} (hs : status < 256) (ht : type < 256) (hr : ring < 64) (hu : tag < 2 ^ 32) :
    (BitVec.ofNat 64 (at' status 56 8 + at' type 48 8 + at' ring 42 6 + tag)).toNat = status * 2 ^ 56 + type * 2 ^ 48 + ring * 2 ^ 42 + tag := by
  simp only [at', BitVec.toNat_ofNat]
  omega

theorem Desc.type_lt (d : Desc) : d.type < 256 := Nat.mod_lt _ (by norm_num)

theorem Desc.tag_lt (d : Desc) : d.tag < 2 ^ 32 := Nat.mod_lt _ (by norm_num)

theorem State.complete_recorded {s : State} (d : Desc) (status d0 d1 : Nat) (hen : s.trace.eventEn = true) (hfull : s.trace.ringFull = false)
    (hwrap : s.trace.wrap = true) : ∃ i w, (i, w) ∈ (s.complete d status d0 d1).trace.ring ∧ w.kind = 0x10 ∧ w.origin = s.coord ∧ w.unit = BitVec.ofNat 16 cxlUnit
      ∧ w.group = (if hasGroup d.type then d.groupNo else 0)
      ∧ w.payload = BitVec.ofNat 64 (at' status 56 8 + at' d.type 48 8 + at' d.ring 42 6 + d.tag) := by
  unfold State.complete State.completeAt
  extract_lets +onlyGivenNames s0 x e h s1 s2 s3 g
  have h3 : s3.trace = s.trace := by
    unfold s3
    split <;> simp [s2, s1, s0]
  rw [State.settleRing_trace, State.markAt_trace _ _ _ _ _ _ _ _ (by decide), h3]
  exact ⟨_, _, Recorder.record_mem hen hfull hwrap _, rfl, State.portFail_coord .., rfl, rfl, rfl⟩

end Sys2Proof.Machine

open Sys2Proof Sys2Proof.Machine

/-- Refutes O47: the clause that a failed host read ends the MOVE that a HOST_ABORT names. A MOVE of DIR 2 reads no host line, so the
model leaves it in hand and sets no error; the clause has no hypothesis on DIR. -/
theorem not_ringCommands : ¬ Obligations.RingCommands := by
  intro h
  obtain ⟨-, -, -, -, -, -, -, -, -, -, hdesc⟩ := h movingInside 0 0
  obtain ⟨t, ht, -, herr, -⟩ := hdesc 0 innerMove rfl rfl rfl innerMove_type
  cases movingInside_hostAbort.symm.trans ht
  exact absurd herr (by decide)

/-- Settles O48. -/
theorem descDoneWaymark : Obligations.DescDoneWaymark := by
  intro s d status d0 d1 hen hfull hwrap _ hs hr
  obtain ⟨i, w, hw, hk, ho, hu, hg, hp⟩ := State.complete_recorded d status d0 d1 hen hfull hwrap
  refine ⟨i, w, hw, hk, ho, hu, ?_, ?_⟩
  · simp [hg, hasGroup, or_assoc]
  · rw [hp, descDone_payload hs d.type_lt hr d.tag_lt]
end

