-- ==== Sys2Proof/Proofs/DeviceMemory.lean ====
section
/-! Device memory: a run written reads back with its poison. -/

namespace Sys2Proof.Machine

/-! ### Poison of a run written (R366, R367) -/

/-- A word that the run reaches gets the poison its bytes leave. -/
theorem pmWrite_poison_in (b : Mem Byte) (p : Mem Bool) {a w : Nat} {ds : List PByte} (hne : ds ≠ []) (hlo : a / 4 ≤ w) (hhi : 4 * w < a + ds.length) :
    mget false (pmWrite b p a ds).2 w = poisonAfter (mget false p w) w a ds := by
  have hpos : 0 < ds.length := List.length_pos_iff.2 hne
  unfold pmWrite
  rw [if_neg (by simpa using hne)]
  refine iter_sets (mget false · w) _ _ _ (w - a / 4) _ (by omega) (fun x => ?_) (fun j _ hj x => mget_mset_ne _ _ _ _ _ (by omega))
  rw [Nat.add_sub_cancel' hlo, mget_mset_self]

theorem pmWrite_poison_below (b : Mem Byte) (p : Mem Bool) (a : Nat) (ds : List PByte) (w : Nat) (h : 4 * w + 4 ≤ a) :
    mget false (pmWrite b p a ds).2 w = mget false p w :=
  iter_keeps (fun q => mget false q w) _ _ p (fun i _ q => mget_mset_ne _ _ _ _ _ (by omega))

/-- A poisoned byte leaves its word poisoned. -/
theorem poisonAfter_poisoned (old : Bool) {a i : Nat} {ds : List PByte} (hi : i < ds.length) (h : (nth (0, false) ds i).2 = true) :
    poisonAfter old ((a + i) / 4) a ds = true := by
  have hmem : (nth (0, false) ds i, a + i) ∈ ds.zipIdx a := by
    rw [List.mk_mem_zipIdx_iff_le_and_getElem?_sub]
    simp [nth, List.getElem?_eq_getElem hi]
  unfold poisonAfter
  refine if_pos (List.any_eq_true.2 ⟨_, List.mem_filter.2 ⟨hmem, by simp⟩, h⟩)

/-- Of a run that covers word `w`, four bytes fall in it. -/
theorem length_filter_zipIdx_word {ds : List PByte} {a w : Nat} (hlo : a ≤ 4 * w) (hhi : 4 * w + 4 ≤ a + ds.length) :
    ((ds.zipIdx a).filter (fun q => q.2 / 4 == w)).length = 4 := by
  have hnone (b n : Nat) (h : ∀ x, b ≤ x → x < b + n → x / 4 ≠ w) : (List.range' b n).filter (· / 4 == w) = [] :=
    List.filter_eq_nil_iff.2 fun x hx => by
      obtain ⟨h1, h2⟩ := List.mem_range'_1.1 hx
      simp [h x h1 h2]
  have hall : (List.range' (4 * w) 4).filter (· / 4 == w) = List.range' (4 * w) 4 :=
    List.filter_eq_self.2 fun x hx => by
      obtain ⟨h1, h2⟩ := List.mem_range'_1.1 hx
      simp only [beq_iff_eq]
      omega
  have hsplit : List.range' a ds.length = List.range' a (4 * w - a) ++ (List.range' (4 * w) 4 ++ List.range' (4 * w + 4) (a + ds.length - (4 * w + 4))) := by
    rw [show List.range' (4 * w) 4 ++ List.range' (4 * w + 4) (a + ds.length - (4 * w + 4)) = List.range' (4 * w) (4 + (a + ds.length - (4 * w + 4))) from
      List.range'_append_1, show 4 * w = a + (4 * w - a) by omega, show a + (4 * w - a) - a = 4 * w - a by omega, List.range'_append_1]
    congr 1
    omega
  calc ((ds.zipIdx a).filter (fun q => q.2 / 4 == w)).length
      = (((ds.zipIdx a).map Prod.snd).filter (· / 4 == w)).length := by rw [List.filter_map, List.length_map]; rfl
    _ = ((List.range' a ds.length).filter (· / 4 == w)).length := by rw [List.zipIdx_map_snd]
    _ = 4 := by rw [hsplit, List.filter_append, List.filter_append, hnone _ _ (by omega), hall, hnone _ _ (by omega)]; simp

/-- Four clean bytes clear their word. -/
theorem poisonAfter_clean (old : Bool) {a w : Nat} {ds : List PByte} (hlo : a ≤ 4 * w) (hhi : 4 * w + 4 ≤ a + ds.length)
    (h : ∀ i < 4, (nth (0, false) ds (4 * w + i - a)).2 = false) : poisonAfter old w a ds = false := by
  have hclean : ((ds.zipIdx a).filter (fun q => q.2 / 4 == w)).any (fun q => q.1.2) = false := by
    rw [List.any_eq_false]
    intro q hq
    obtain ⟨hmem, hw⟩ := List.mem_filter.1 hq
    obtain ⟨hge, hlt, hget⟩ := List.mem_zipIdx hmem
    have hw' : q.2 / 4 = w := by simpa using hw
    have := h (q.2 - 4 * w) (by omega)
    rw [show 4 * w + (q.2 - 4 * w) - a = q.2 - a by omega] at this
    rw [hget]
    simpa [nth, List.getElem?_eq_getElem (show q.2 - a < ds.length by omega)] using this
  unfold poisonAfter
  simp [hclean, length_filter_zipIdx_word hlo hhi]

theorem DevMem.poison_put (m : DevMem) (sp sp' : Space) (b : Mem Byte) (p : Mem Bool) : (m.put sp b p).poison sp' = if sp' = sp then p else m.poison sp' := by
  cases sp <;> cases sp' <;> rfl

/-- A write that reaches present memory is `pmWrite` on its space (R364). -/
theorem State.devWrite_mem_eq {s : State} {sp : Space} {a : Nat} (ds : List PByte) (add : Bool) (hp : s.postHit sp a = false) (hl : s.memLost sp a = false) :
    (s.devWrite sp a ds add).mem = s.mem.put sp (pmWrite (s.mem.bytes sp) (s.mem.poison sp) a ds).1 (pmWrite (s.mem.bytes sp) (s.mem.poison sp) a ds).2 := by
  simp [State.devWrite, hp, hl]

/-- The post lines, the checker's line and a lost device store nothing (R329, R346, R371). -/
theorem State.devWrite_mem_stands {s : State} {sp : Space} {a : Nat} (ds : List PByte) (add : Bool) (h : s.postHit sp a = true ∨ s.memLost sp a = true) :
    (s.devWrite sp a ds add).mem = s.mem := by
  by_cases hp : s.postHit sp a = true
  · exact (s.devWrite_mem sp a ds add).resolve_right fun hput => Bool.false_ne_true (hput.1.symm.trans hp)
  · simp [State.devWrite, hp, h.resolve_left hp]

theorem State.devWrite_poisonAt {s : State} {sp : Space} {a : Nat} (ds : List PByte) (add : Bool) (hp : s.postHit sp a = false) (hl : s.memLost sp a = false) (w : Nat) :
    (s.devWrite sp a ds add).poisonAt sp w = mget false (pmWrite (s.mem.bytes sp) (s.mem.poison sp) a ds).2 w := by
  rw [State.poisonAt, State.devWrite_mem_eq ds add hp hl, DevMem.poison_put, if_pos rfl]

theorem State.devWrite_poisonAt_ne (s : State) {sp q : Space} (a : Nat) (ds : List PByte) (add : Bool) (w : Nat) (h : q ≠ sp) :
    (s.devWrite sp a ds add).poisonAt q w = s.poisonAt q w := by
  by_cases hs : s.postHit sp a = true ∨ s.memLost sp a = true
  · rw [State.poisonAt, State.devWrite_mem_stands ds add hs, State.poisonAt]
  · simp only [not_or, Bool.not_eq_true] at hs
    rw [State.poisonAt, State.devWrite_mem_eq ds add hs.1 hs.2, DevMem.poison_put, if_neg h, State.poisonAt]

theorem State.devWrite_byteAt_in {s : State} {sp : Space} {a : Nat} {ds : List PByte} (add : Bool) (hp : s.postHit sp a = false) (hl : s.memLost sp a = false)
    {i : Nat} (hi : i < ds.length) : (s.devWrite sp a ds add).byteAt sp (a + i) = (nth (0, false) ds i).1 := by
  rw [State.byteAt, State.devWrite_mem_eq ds add hp hl, DevMem.bytes_put, if_pos rfl]
  rw [show (pmWrite (s.mem.bytes sp) (s.mem.poison sp) a ds).1 = msetRun 0 (s.mem.bytes sp) a (ds.map (·.1)) from rfl,
    mget_msetRun_mem _ _ _ _ _ (by simpa using hi)]
  simp [nth, List.getElem?_eq_getElem hi]

end Sys2Proof.Machine

open Sys2Proof Sys2Proof.Machine

/-- Settles O5. -/
theorem deviceMemoryReadAfterWrite : Obligations.DeviceMemoryReadAfterWrite := by
  intro s sp a ds
  refine ⟨fun hp hl => ⟨fun i hi => State.devWrite_byteAt_in false hp hl hi, fun x hx => s.devWrite_byteAt sp a ds false fun _ => hx,
      fun q x hq => ⟨s.devWrite_byteAt sp a ds false fun h => absurd h hq, s.devWrite_poisonAt_ne a ds false x hq⟩, ?_, ?_, ?_⟩,
    fun h => State.devWrite_mem_stands ds false h, by simp, by simp, by simp⟩
  · intro i hi h
    have hne : ds ≠ [] := List.ne_nil_of_length_pos (by omega)
    rw [State.devWrite_poisonAt ds false hp hl, pmWrite_poison_in _ _ hne (by omega) (by omega), poisonAfter_poisoned _ hi h]
  · intro w hlo hhi h
    have hne : ds ≠ [] := List.ne_nil_of_length_pos (by omega)
    rw [State.devWrite_poisonAt ds false hp hl, pmWrite_poison_in _ _ hne (by omega) (by omega), poisonAfter_clean _ hlo hhi h]
  · intro w hw
    rw [State.devWrite_poisonAt ds false hp hl, State.poisonAt]
    rcases hw with hw | hw
    · exact pmWrite_poison_below _ _ _ _ _ hw
    · exact pmWrite_poison_above _ _ _ _ _ hw
end

