-- ==== Sys2Proof/Proofs/PowerLimits.lean ====
section
/-! The power loop, the thermal limit, droop and the operating points. -/

namespace Sys2Proof.Machine

/-- A command whose condition holds has its effect. -/
theorem happen_holds {c : Bool} {s t : State} (h : c = true) : happen c s t = .next t := by
  rw [h]
  rfl

/-! ### What a change of a limit leaves (R445, R446, R462) -/

@[simp] theorem State.mark_work (s : State) (k ca g u p : Nat) : (s.mark k ca g u p).work = s.work := by simp [State.work]

@[simp] theorem State.faultMark_work (s : State) (u st r : Nat) : (s.faultMark u st r).work = s.work := by simp [State.work]

@[simp] theorem State.keepLimit_work (s : State) : s.keepLimit.work = s.work := by
  unfold State.keepLimit
  split <;> rfl

@[simp] theorem State.powerConds_work (s : State) : s.powerConds.work = s.work := rfl

@[simp] theorem State.powerConds_power (s : State) : s.powerConds.power = s.power := rfl

@[simp] theorem State.pinCheck_work (s : State) (d : Nat) : (s.pinCheck d).work = s.work := by
  unfold State.pinCheck
  dsimp only
  split <;> simp [State.work]

/-- A pin check writes PIN_OVERRIDDEN and no other field of power (R462). -/
theorem State.pinCheck_power (s : State) (d : Nat) : (s.pinCheck d).power = { s.power with overridden := s.power.pourOver } := by
  unfold State.pinCheck
  dsimp only
  split <;> simp

@[simp] theorem State.throttle_work (s : State) (a d p n : Nat) (b : Bool) : (s.throttle a d p n b).work = s.work := by
  unfold State.throttle
  split <;> simp

/-- The waymark of a change writes PIN_OVERRIDDEN and no other field of power (R446, R462). -/
theorem State.throttle_power (s : State) (a d p n : Nat) (b : Bool) : ∃ o, (s.throttle a d p n b).power = { s.power with overridden := o } := by
  unfold State.throttle
  split
  · exact ⟨_, rfl⟩
  · exact ⟨_, by rw [State.powerConds_power, State.pinCheck_power, State.mark_power]⟩

/-- The limit that a change now keeps, and the cycle up to which it applies (R445). -/
def State.keptLimit (s : State) : Nat × Nat := if s.cycle < s.power.limFrom then (s.power.limWas, s.power.limFrom) else (s.power.common, s.windowCycle)

/-- Keeping the limit in force writes LIM_WAS and LIM_FROM (R445). -/
theorem State.keepLimit_power (s : State) : s.keepLimit.power = { s.power with limWas := s.keptLimit.1, limFrom := s.keptLimit.2 } := by
  unfold State.keepLimit State.keptLimit
  split
  · rfl
  · rfl

/-- A change of the limit made with the limit in force kept: LIM_WAS and LIM_FROM are those kept, and no k_droop changes. -/
def State.LimitKept (s t : State) : Prop := (t.power.limWas, t.power.limFrom) = s.keptLimit ∧ t.power.kDroop = s.power.kDroop

@[simp] theorem State.setKTh_work (s : State) (v : Nat) : (s.setKTh v).work = s.work := by
  unfold State.setKTh
  rw [State.throttle_work]
  exact s.keepLimit_work

theorem State.setKTh_power (s : State) (v : Nat) : ∃ o, (s.setKTh v).power =
    { s.power with kTh := v, limWas := s.keptLimit.1, limFrom := s.keptLimit.2, overridden := o } := by
  obtain ⟨o, ho⟩ := State.throttle_power { s.keepLimit with power := { s.keepLimit.power with kTh := v } } 1 0 s.keepLimit.power.kTh v false
  exact ⟨o, by rw [State.setKTh, ho, s.keepLimit_power]⟩

@[simp] theorem State.setKPow_work (s : State) (v : Nat) (b : Bool) : (s.setKPow v b).work = s.work := by
  unfold State.setKPow
  rw [State.throttle_work]
  exact s.keepLimit_work

theorem State.setKPow_power (s : State) (v : Nat) (b : Bool) : ∃ o x y z, (s.setKPow v b).power =
    { s.power with kPow := v, limWas := s.keptLimit.1, limFrom := s.keptLimit.2, overridden := o, kBefore := x, legK := y, legN := z } := by
  unfold State.setKPow
  extract_lets +onlyGivenNames t w n w1
  have hw : w = { s.power with limWas := s.keptLimit.1, limFrom := s.keptLimit.2 } := s.keepLimit_power
  have hw1 : ∃ x y z, w1 = { w with kPow := v, kBefore := x, legK := y, legN := z } := by
    unfold w1
    split
    · rename_i hv
      exact ⟨w.kBefore, w.legK, w.legN, by rw [hv]⟩
    · split
      · exact ⟨_, _, _, rfl⟩
      · exact ⟨_, _, _, rfl⟩
  obtain ⟨x, y, z, hx⟩ := hw1
  obtain ⟨o, ho⟩ := State.throttle_power { t with power := w1 } 0 0 w.kPow v b
  exact ⟨o, x, y, z, by rw [ho]; dsimp only; rw [hx, hw]⟩

/-! ### The power loop (R447 to R449) -/

/-- The samples of package and input power that one more makes, the latest first. -/
def keptSamples (x : Nat) (l : List Nat) : List Nat := (x :: l).take 1000

/-- A peak: a mean of 50 samples above 5/4 of the cap, or of 1,750 W of input. -/
def Power.atPeak (w : Power) (pk ip : List Nat) : Bool := above (meanOf 50 pk) (10 * w.pkgCap) 5 4 || above (meanOf 50 ip) 17500 1 1

/-- A mean of all samples above the cap, or above 1,400 W of input. -/
def Power.overCap (w : Power) (pk ip : List Nat) : Bool := above (meanOf 1000 pk) (10 * w.pkgCap) 1 1 || above (meanOf 1000 ip) 14000 1 1

/-- Every mean well below its limit. -/
def Power.wellBelow (w : Power) (pk ip : List Nat) : Bool :=
  below (meanOf 1000 pk) (10 * w.pkgCap) 97 100 && below (meanOf 1000 ip) 14000 97 100
    && below (meanOf 50 pk) (5 * (10 * w.pkgCap)) 95 400 && below (meanOf 50 ip) 17500 95 100

/-- k_pow after one step of the loop (R449). -/
def Power.loopStep (w : Power) (pk ip : List Nat) : Nat :=
  if w.atPeak pk ip then max (w.kPow - 8) 1 else if w.overCap pk ip then max (w.kPow - 2) 1 else if w.wellBelow pk ip then min (w.kPow + 1) 64 else w.kPow

theorem exec_powerSample {s : State} (h : s.boot.inReset = false) (pkg inp : Nat) : ∃ t, exec (.powerSample pkg inp) s = .next t ∧ t.work = s.work
    ∧ t.power.pkg = keptSamples pkg s.power.pkg ∧ t.power.inp = keptSamples inp s.power.inp
    ∧ t.power.peakActive = s.power.atPeak (keptSamples pkg s.power.pkg) (keptSamples inp s.power.inp)
    ∧ t.power.kPow = s.power.loopStep (keptSamples pkg s.power.pkg) (keptSamples inp s.power.inp) ∧ s.LimitKept t := by
  show ∃ t, execPowerSample pkg inp s = .next t ∧ _
  unfold execPowerSample
  extract_lets +onlyGivenNames w pk ip cap rHi rpHi low v unmet s1 s2
  refine ⟨_, happen_holds (by simp [h]), ?_⟩
  obtain ⟨o, x, y, z, hp⟩ := s1.setKPow_power v rpHi
  have h1 : s1.work = s.work := rfl
  have h2 : s2.work = s1.work := (State.powerConds_work _).trans (s1.setKPow_work v rpHi)
  have hp2 : s2.power = (s1.setKPow v rpHi).power := State.powerConds_power _
  clear_value s2
  have hfault (c : Prop) [Decidable c] : (if c then s2.faultMark pwrUnit 0xB0 0 else s2).work = s.work
      ∧ (if c then s2.faultMark pwrUnit 0xB0 0 else s2).power = (s1.setKPow v rpHi).power := by
    split
    · exact ⟨(s2.faultMark_work _ _ _).trans (h2.trans h1), (s2.faultMark_power _ _ _).trans hp2⟩
    · exact ⟨h2.trans h1, hp2⟩
  obtain ⟨hwork, hpower⟩ := hfault (unmet = 10000)
  refine ⟨hwork, ?_⟩
  rw [State.LimitKept, hpower, hp]
  exact ⟨rfl, rfl, rfl, rfl, rfl, rfl⟩

theorem length_keptSamples_le (x : Nat) (l : List Nat) : (keptSamples x l).length ≤ 1000 := by simp [keptSamples]

theorem meanOf_all {l : List Nat} (h : l.length ≤ 1000) : meanOf 1000 l = (l.sum, l.length) := by
  simp [meanOf, List.take_of_length_le h, h]

theorem above_iff (m : Nat × Nat) (x num den : Nat) : above m x num den = true ↔ x * num * m.2 < m.1 * den := decide_eq_true_iff

theorem below_iff (m : Nat × Nat) (x num den : Nat) : below m x num den = true ↔ m.1 * den < x * num * m.2 := decide_eq_true_iff

theorem Power.atPeak_iff (w : Power) (pk ip : List Nat) : w.atPeak pk ip = true
    ↔ 10 * w.pkgCap * 5 * min 50 pk.length < (pk.take 50).sum * 4 ∨ 17500 * min 50 ip.length < (ip.take 50).sum := by
  simp only [Power.atPeak, Bool.or_eq_true, above_iff, meanOf, Nat.mul_one]

theorem Power.overCap_iff (w : Power) {pk ip : List Nat} (hp : pk.length ≤ 1000) (hi : ip.length ≤ 1000) : w.overCap pk ip = true
    ↔ 10 * w.pkgCap * pk.length < pk.sum ∨ 14000 * ip.length < ip.sum := by
  simp only [Power.overCap, Bool.or_eq_true, above_iff, meanOf_all hp, meanOf_all hi, Nat.mul_one]

theorem Power.wellBelow_iff (w : Power) {pk ip : List Nat} (hp : pk.length ≤ 1000) (hi : ip.length ≤ 1000) : w.wellBelow pk ip = true
    ↔ pk.sum * 100 < 10 * w.pkgCap * 97 * pk.length ∧ ip.sum * 100 < 14000 * 97 * ip.length
      ∧ (pk.take 50).sum * 400 < 5 * (10 * w.pkgCap) * 95 * min 50 pk.length ∧ (ip.take 50).sum * 100 < 17500 * 95 * min 50 ip.length := by
  simp only [Power.wellBelow, Bool.and_eq_true, below_iff, meanOf_all hp, meanOf_all hi, and_assoc]
  rfl

/-! ### Temperatures (R456) -/

/-- What a bank lists after a write is what is written or was listed before. -/
theorem mem_of_mem_mset {α : Type} [DecidableEq α] {d : α} {i : Nat} {v : α} : ∀ {m : Mem α} {p : Nat × α}, p ∈ mset d m i v → p = (i, v) ∨ p ∈ m
  | [], p, h => by
    unfold mset at h
    split at h
    · exact absurd h List.not_mem_nil
    · exact .inl (List.mem_singleton.1 h)
  | (k, w) :: r, p, h => by
    unfold mset at h
    split at h
    · rcases List.mem_cons.1 h with rfl | h
      · exact .inr List.mem_cons_self
      · exact (mem_of_mem_mset h).imp id (List.mem_cons_of_mem _)
    · dsimp only at h
      split at h
      · exact .inr ((List.dropWhile_sublist _).mem h)
      · rcases List.mem_cons.1 h with rfl | h
        · exact .inl rfl
        · exact .inr ((List.dropWhile_sublist _).mem h)

/-- The junction readings by die, each die as its hottest. -/
def hottestByDie (js : List (DieIx × Int)) : Mem Int := js.foldl (fun m p => mset noTemp m p.1.val (max p.2 (mget noTemp m p.1.val))) []

theorem hottestByDie_append (js : List (DieIx × Int)) (p : DieIx × Int) :
    hottestByDie (js ++ [p]) = mset noTemp (hottestByDie js) p.1.val (max p.2 (mget noTemp (hottestByDie js) p.1.val)) := by
  simp [hottestByDie, List.foldl_append]

/-- Every reading is at most what its die is kept as. -/
theorem le_hottestByDie {js : List (DieIx × Int)} {p : DieIx × Int} (h : p ∈ js) : p.2 ≤ mget noTemp (hottestByDie js) p.1.val := by
  induction js using List.reverseRecOn with
  | nil => exact absurd h List.not_mem_nil
  | append_singleton js q ih =>
    rw [hottestByDie_append]
    by_cases hd : p.1.val = q.1.val
    · rw [hd, mget_mset_self]
      rcases List.mem_append.1 h with h | h
      · exact (hd ▸ ih h).trans (le_max_right _ _)
      · rw [List.mem_singleton.1 h]
        exact le_max_left _ _
    · rw [mget_mset_ne _ _ _ _ _ hd]
      rcases List.mem_append.1 h with h | h
      · exact ih h
      · exact absurd (congrArg (fun x => x.1.val) (List.mem_singleton.1 h)) hd

/-- Where every reading lies below a bound that an absent one lies below, so does every entry. -/
theorem hottestByDie_lt {js : List (DieIx × Int)} {x : Int} (hx : noTemp < x) (h : ∀ p ∈ js, p.2 < x) : ∀ p ∈ hottestByDie js, p.2 < x := by
  induction js using List.reverseRecOn with
  | nil => exact fun p hp => absurd hp List.not_mem_nil
  | append_singleton js q ih =>
    have hprev := ih fun p hp => h p (List.mem_append_left _ hp)
    have hq : q.2 < x := h q (by simp)
    have hget : mget noTemp (hottestByDie js) q.1.val < x := by
      by_cases hd : mget noTemp (hottestByDie js) q.1.val = noTemp
      · rwa [hd]
      · exact hprev _ (mem_of_mget_ne _ _ _ hd)
    intro p hp
    rw [hottestByDie_append] at hp
    rcases mem_of_mem_mset hp with rfl | hp
    · exact max_lt hq hget
    · exact hprev p hp

theorem stopDie_eq_none {js : List (DieIx × Int)} (h : ∀ p ∈ js, p.2 < 920) : stopDie js = none := by
  unfold stopDie
  rw [List.find?_eq_none]
  intro d _
  rw [Bool.not_eq_true, List.any_eq_false]
  intro p hp
  have := h p hp
  simp [this]

theorem Power.hot_iff (w : Power) : w.hot = true ↔ (∃ p ∈ w.juncTemps, 840 ≤ p.2) ∨ ∃ p ∈ w.hbmTemps, 760 ≤ p.2 := by
  simp [Power.hot]

/-! ### The thermal limit (R456) -/

@[simp] theorem State.thermalCut_work (s : State) : s.thermalCut.work = s.work := by
  unfold State.thermalCut
  split <;> simp

/-- A hot reading cuts k_th to 32 and leaves the rest of power but for the limit kept and the pin's flags. -/
theorem State.thermalCut_power (s : State) : ∃ i j o, s.thermalCut.power =
    { s.power with kTh := if s.power.hot then min s.power.kTh 32 else s.power.kTh, limWas := i, limFrom := j, overridden := o } := by
  unfold State.thermalCut
  by_cases hh : s.power.hot = true
  · by_cases hk : 32 < s.power.kTh
    · obtain ⟨o, h⟩ := s.setKTh_power 32
      refine ⟨s.keptLimit.1, s.keptLimit.2, o, ?_⟩
      simp only [hh, hk, decide_true, Bool.and_self, if_true, h, Nat.min_eq_right hk.le]
    · refine ⟨s.power.limWas, s.power.limFrom, s.power.overridden, ?_⟩
      simp only [hh, hk, decide_false, Bool.and_false, Bool.false_eq_true, if_false, if_true, Nat.min_eq_left (Nat.le_of_not_lt hk)]
  · refine ⟨s.power.limWas, s.power.limFrom, s.power.overridden, ?_⟩
    simp only [hh, Bool.false_and, Bool.false_eq_true, if_false]

/-- A sample with no junction at 115 °C (R456, R457). -/
theorem exec_thermalSample {s : State} (h : s.boot.inReset = false) {js : List (DieIx × Int)} (hjs : ∀ p ∈ js, p.2 < 920) :
    exec (.thermalSample js) s = .next { s with power := { s.power with juncTemps := hottestByDie js, hotSamples := 0 } }.thermalCut := by
  show execThermalSample js s = _
  unfold execThermalSample
  rw [stopDie_eq_none hjs]
  exact happen_holds (by simp [h])

/-- The state with a stack's report kept, before any cut (R456, R457). -/
def State.reported (s : State) (k : Fin 8) (x : Int) : State :=
  { s with power := { s.power with
    hbmTemps := mset noTemp s.power.hbmTemps k.val x
    hbmRound := if s.power.hbmRound.contains k.val then [k.val] else s.power.hbmRound ++ [k.val]
    hbmPrevHot := if s.power.hbmRound.contains k.val then s.power.hbmNowHot else s.power.hbmPrevHot
    hbmNowHot := (!s.power.hbmRound.contains k.val && s.power.hbmNowHot) || decide (840 ≤ x) } }

/-- A report: the cut, and a stop where the round before was hot and this report is (R457). -/
theorem exec_hbmTempReport {s : State} (h : s.boot.inReset = false) (k : Fin 8) (x : Int) : exec (.hbmTempReport k x) s = .next
    (if (if k.val ∈ s.power.hbmRound then s.power.hbmNowHot else s.power.hbmPrevHot) = true ∧ 840 ≤ x then (s.reported k x).thermalCut.thermalStop (k.val / 2)
      else (s.reported k x).thermalCut) := by
  show execHbmTempReport k x s = _
  unfold execHbmTempReport
  refine (happen_holds (by simp [h])).trans (congrArg Host.Outcome.next (if_congr ?_ rfl rfl))
  simp

/-- A step of the thermal limit (R456). -/
theorem exec_thermalStep {s : State} (h : s.boot.inReset = false) : exec .thermalStep s = .next
    (if s.power.hot then s.setKTh (min s.power.kTh (max 8 (s.power.kTh / 2))) else if s.power.cool then s.setKTh (min 64 (2 * s.power.kTh)) else s) :=
  happen_holds (by simp [h])

/-- What a step of the loop does in each of its four cases (R449). -/
theorem Power.loopStep_cases (w : Power) (pk ip : List Nat) :
    (w.atPeak pk ip = true → w.loopStep pk ip = max (w.kPow - 8) 1)
    ∧ (¬ w.atPeak pk ip = true → w.overCap pk ip = true → w.loopStep pk ip = max (w.kPow - 2) 1)
    ∧ (¬ w.atPeak pk ip = true → ¬ w.overCap pk ip = true → w.wellBelow pk ip = true → w.loopStep pk ip = min (w.kPow + 1) 64)
    ∧ (¬ w.atPeak pk ip = true → ¬ w.overCap pk ip = true → ¬ w.wellBelow pk ip = true → w.loopStep pk ip = w.kPow) := by
  unfold Power.loopStep
  refine ⟨fun h => by rw [if_pos h], fun h1 h2 => by rw [if_neg h1, if_pos h2], fun h1 h2 h3 => by rw [if_neg h1, if_neg h2, if_pos h3],
    fun h1 h2 h3 => by rw [if_neg h1, if_neg h2, if_neg h3]⟩

/-- A hot junction or stack is hot for the module. -/
theorem Power.hot_of_junction {w : Power} {js : List (DieIx × Int)} (hw : w.juncTemps = hottestByDie js) (h : ∃ p ∈ js, 840 ≤ p.2) : w.hot = true := by
  obtain ⟨p, hp, h840⟩ := h
  have hle := h840.trans (le_hottestByDie hp)
  have hne : mget noTemp (hottestByDie js) p.1.val ≠ noTemp := fun h => by
    rw [h] at hle
    exact absurd hle (by decide)
  refine w.hot_iff.2 (.inl ⟨(p.1.val, mget noTemp (hottestByDie js) p.1.val), ?_, hle⟩)
  rw [hw]
  exact mem_of_mget_ne _ _ _ hne

theorem Power.hot_of_stack {w : Power} {k : Nat} {x : Int} (hw : mget noTemp w.hbmTemps k = x) (h : 760 ≤ x) : w.hot = true := by
  refine w.hot_iff.2 (.inr ⟨_, mem_of_mget_ne noTemp _ k ?_, hw.symm ▸ h⟩)
  rw [hw]
  rintro rfl
  exact absurd h (by decide)

/-! ### Droop (R455) -/

@[simp] theorem State.setKDroop_work (s : State) (d v : Nat) : (s.setKDroop d v).work = s.work := by
  unfold State.setKDroop
  rw [State.throttle_work]
  rfl

theorem State.setKDroop_power (s : State) (d v : Nat) : ∃ o, (s.setKDroop d v).power = { s.power with kDroop := mset 64 s.power.kDroop d v, overridden := o } :=
  State.throttle_power ..

@[simp] theorem State.pinCheck_time (s : State) (d : Nat) : (s.pinCheck d).time = s.time := by
  unfold State.pinCheck
  dsimp only
  split <;> simp

@[simp] theorem State.throttle_time (s : State) (a d p n : Nat) (b : Bool) : (s.throttle a d p n b).time = s.time := by
  unfold State.throttle
  split
  · rfl
  · simp [State.powerConds]

@[simp] theorem State.setKDroop_time (s : State) (d v : Nat) : (s.setKDroop d v).time = s.time := by simp [State.setKDroop]

/-- The module with the clocks moved on and power's bookkeeping changed, as DROOP_HOLD_END and DROOP_RISE leave it. -/
theorem State.clocked_of_advance {s t : State} {n : Nat} (hw : t.work = (s.advance n).work) (ht : t.time = (s.advance n).time) :
    (t.cores = (s.toTime t.time.now).cores ∧ t.mem = s.mem ∧ t.groups = s.groups) ∧ s.time.now ≤ t.time.now := by
  obtain ⟨hc, hm, hg⟩ : t.cores = (s.advance n).cores ∧ t.mem = (s.advance n).mem ∧ t.groups = (s.advance n).groups := by
    simpa [State.work] using hw
  refine ⟨⟨?_, by rw [hm, State.advance_mem], by rw [hg, State.advance_groups]⟩, ?_⟩
  · rw [hc, ht]
    exact (s.advance_only n).2
  · rw [ht, State.advance_now]
    exact Nat.le_add_right _ _

theorem State.advance_power (s : State) (n : Nat) : ∃ x, (s.advance n).power = { s.power with settleNs := x } := by
  unfold State.advance
  exact ⟨_, congrArg (fun w : Power => { w with settleNs := w.settleNs - min n w.settleNs }) (State.runArrays_power s _)⟩

/-- DROOP_DETECT on a module with power (R455). -/
theorem exec_droopDetect {s : State} (h : s.power.railsOn = true) (d : DieIx) : ∃ t o, exec (.droopDetect d) s = .next t ∧ t.work = s.work ∧ t.power =
    { s.power with
      lastDroop := some s.clk.ns, held := mset 0 s.power.held d.val (s.clk.ns + 1), rising := mset 0 s.power.rising d.val 0
      droopEvents := if s.power.droopK d.val = 64 then sat32 s.power.droopEvents else s.power.droopEvents
      kDroop := mset 64 s.power.kDroop d.val 32, overridden := o } := by
  obtain ⟨o, ho⟩ := State.setKDroop_power { s with power := { s.power with
      lastDroop := some s.clk.ns, held := mset 0 s.power.held d.val (s.clk.ns + 1), rising := mset 0 s.power.rising d.val 0
      droopEvents := if s.power.droopK d.val = 64 then sat32 s.power.droopEvents else s.power.droopEvents } } d.val 32
  exact ⟨_, o, happen_holds h, State.setKDroop_work _ _ _, ho⟩

/-- DROOP_HOLD_END where a hold runs (R455). -/
theorem exec_droopHoldEnd {s : State} {d : DieIx} (h : mget 0 s.power.held d.val ≠ 0) : ∃ t n x, exec (.droopHoldEnd d) s = .next t
    ∧ t.work = (s.advance n).work ∧ t.time = (s.advance n).time ∧ t.power =
    { s.power with held := mset 0 s.power.held d.val 0, rising := mset 0 s.power.rising d.val ((s.advance n).clk.milli + 1), settleNs := x } := by
  obtain ⟨x, hx⟩ := s.advance_power (mget 0 s.power.held d.val - 1 + 2000 - s.clk.ns)
  exact ⟨_, _, x, happen_holds (by simpa using h), rfl, rfl, by rw [hx]⟩

/-- DROOP_RISE where a limit rises (R455). -/
theorem exec_droopRise {s : State} {d : DieIx} (h : mget 0 s.power.rising d.val ≠ 0) : ∃ t n x o, exec (.droopRise d) s = .next t
    ∧ t.work = (s.advance n).work ∧ t.time = (s.advance n).time ∧ t.power =
    { s.power with
      rising := mset 0 s.power.rising d.val (if min (s.power.droopK d.val + 8) 64 < 64 then (s.advance n).clk.milli + 1 else 0)
      kDroop := mset 64 s.power.kDroop d.val (min (s.power.droopK d.val + 8) 64), settleNs := x, overridden := o } := by
  obtain ⟨x, hx⟩ := s.advance_power (cdiv (s.boundaryAfter (mget 0 s.power.rising d.val - 1) - s.clk.milli) (pointMhz s.power.point))
  show ∃ t n x o, execDroopRise d s = .next t ∧ _
  unfold execDroopRise
  extract_lets +onlyGivenNames w r v s1
  have h1 : s1.power = { s.power with settleNs := x } := hx
  obtain ⟨o, ho⟩ := State.setKDroop_power { s1 with power := { s1.power with rising := mset 0 w.rising d.val (if v < 64 then s1.clk.milli + 1 else 0) } } d.val v
  refine ⟨_, _, x, o, happen_holds (by simpa [r, w] using h), State.setKDroop_work _ _ _, State.setKDroop_time _ _ _, ?_⟩
  rw [ho]
  dsimp only
  rw [h1]

/-! ### Operating points (R451 to R453) -/

/-- A decision for the point in effect schedules nothing; for another it leaves that point scheduled (R451 to R453). -/
theorem exec_opDecision {s : State} {g : OpLeg} (hg : s.power.lastLeg = some g) (hen : s.power.policyEn = true) (hc : g.cycles ≠ 0)
    (hpin : s.power.pinEn = false) (hfall : s.power.fallback = false) : ∃ t p r, exec .opDecision s = .next t ∧ t.work = s.work ∧ t.power =
      { s.power with lastLeg := none, lowN := (s.power.opWant g).2.1, highN := (s.power.opWant g).2.2, pending := p, raised := r }
      ∧ (max s.power.high (min (s.power.opWant g).1 s.power.low) ≠ s.power.point → p.map (·.target) = some (max s.power.high (min (s.power.opWant g).1 s.power.low)))
      ∧ (max s.power.high (min (s.power.opWant g).1 s.power.low) = s.power.point → p = s.power.pending) := by
  show ∃ t p r, execOpDecision s = .next t ∧ _
  unfold execOpDecision
  extract_lets +onlyGivenNames w
  have hw : w.lastLeg = some g := hg
  rw [hw]
  dsimp -zeta only
  extract_lets +onlyGivenNames run r base applied s1 moved s2
  have hrun : run = true := by simp [run, w, hen, hc]
  have hr : r = s.power.opWant g := if_pos hrun
  have happ : applied = max s.power.high (min (s.power.opWant g).1 s.power.low) := by
    simp only [applied, base, w, hfall, hpin, Bool.false_eq_true, if_false, hr]
  have h2 : s2.work = s.work ∧ s2.power = { s.power with lastLeg := none, lowN := (s.power.opWant g).2.1, highN := (s.power.opWant g).2.2 } := by
    rw [← hr]
    unfold s2
    split
    · exact ⟨State.mark_work .., State.mark_power ..⟩
    · exact ⟨rfl, rfl⟩
  obtain ⟨hwork, hpower⟩ := h2
  clear_value s2
  rw [← happ, if_neg (by simp [hrun])]
  split
  · rename_i hp
    exact ⟨_, s.power.pending, s.power.raised, rfl, hwork, by rw [hpower], fun h => absurd hp h, fun _ => rfl⟩
  · rename_i hp
    extract_lets +onlyGivenNames s3 keep q
    have h3 : s3.work = s.work ∧ s3.power = s2.power := ⟨(State.mark_work ..).trans hwork, State.mark_power ..⟩
    have hkeep (h : keep = true) : s.power.pending.map (·.target) = some applied := by
      revert h
      unfold keep
      split
      · rename_i p hq
        intro h
        rw [show s.power.pending = some p from hq, Option.map_some, beq_iff_eq.1 h]
      · exact fun h => absurd h Bool.false_ne_true
    have hq : q.target = applied := rfl
    obtain ⟨h3w, h3p⟩ := h3
    clear_value q s3 keep
    by_cases hk : keep = true
    · exact ⟨s3, s.power.pending, s.power.raised, by rw [if_pos hk], h3w, by rw [h3p, hpower], fun _ => hkeep hk, fun h => absurd h hp⟩
    · exact ⟨{ s3 with power := { s3.power with pending := some q, raised := false } }, some q, false, by rw [if_neg hk], h3w, by dsimp only; rw [h3p, hpower],
        fun _ => congrArg some hq, fun h => absurd h hp⟩

theorem exec_voltageRaiseDone {s : State} {q : OpPlan} (h : s.power.pending = some q) (hq : q.target < s.power.point) :
    exec .voltageRaiseDone s = .next { s with power := { s.power with raised := true } } := by
  refine happen_holds ?_
  rw [h]
  exact decide_eq_true hq

/-! ### The limit in force (R445) -/

/-- With LIM_FROM reached, a change that keeps the limit in force leaves it to the end of the window, and then the new one applies. -/
theorem State.LimitKept.pourLimit {s t : State} (h : s.LimitKept t) (hfrom : s.power.limFrom ≤ s.cycle) (c : Nat) {i : Nat} (hi : s.cycle ≤ i) :
    t.pourLimit c i = if i < s.windowCycle then s.pourLimit c i else max 1 (min t.power.common (t.power.droopK (c / 288))) := by
  obtain ⟨hlim, hdroop⟩ := h
  rw [State.keptLimit, if_neg (Nat.not_lt.2 hfrom), Prod.mk.injEq] at hlim
  obtain ⟨hwas, hfrom'⟩ := hlim
  have hs : s.pourLimit c i = max 1 (min s.power.common (s.power.droopK (c / 288))) := by
    rw [State.pourLimit, Power.inForce, if_neg (Nat.not_lt.2 (hfrom.trans hi))]
  have hd : t.power.droopK (c / 288) = s.power.droopK (c / 288) := by rw [Power.droopK, hdroop, Power.droopK]
  rw [hs, State.pourLimit, Power.inForce, hfrom', hwas, hd]
  split
  · rfl
  · rfl

/-- Where nothing changes, the limit in force is the one that applies. -/
theorem State.pourLimit_of_limFrom_le {s : State} (hfrom : s.power.limFrom ≤ s.cycle) (c : Nat) {i : Nat} (hi : s.cycle ≤ i) :
    s.pourLimit c i = if i < s.windowCycle then s.pourLimit c i else max 1 (min s.power.common (s.power.droopK (c / 288))) := by
  split
  · rfl
  · rw [State.pourLimit, Power.inForce, if_neg (Nat.not_lt.2 (hfrom.trans hi))]

theorem State.setKTh_limitKept (s : State) (v : Nat) : s.LimitKept (s.setKTh v) := by
  obtain ⟨o, ho⟩ := s.setKTh_power v
  rw [State.LimitKept, ho]
  exact ⟨rfl, rfl⟩

/-! ### PWR_CTRL (R467) -/

@[simp] theorem State.regIn_clk (s : State) (off : Nat) (v : W32) : (s.regIn off v).clk = s.clk := State.captureIn_clk ..

@[simp] theorem State.regIn_power (s : State) (off : Nat) (v : W32) : (s.regIn off v).power = s.power := State.captureIn_power ..

@[simp] theorem State.pwrCtrl_work (s : State) (v : W32) : (s.pwrCtrl v).work = s.work := by
  unfold State.pwrCtrl
  dsimp only
  split
  · exact s.keepLimit_work
  · rw [State.throttle_work]
    exact s.keepLimit_work

/-- What a PWR_CTRL write with its bounds in order sets. -/
def Power.ctrlSet (w : Power) (v : Nat) : Power :=
  { w with
    pkgCap := min 1000 (max 200 (bits v 16 16)), pourPin := bits v 8 8, policyEn := bit v 7
    next := some (bit v 6, bits v 4 2, bits v 2 2, bits v 0 2) }

/-- A write of PWR_CTRL is taken whole, or refused with its flag. -/
theorem State.pwrCtrl_power (s : State) (v : W32) : ∃ o, (s.pwrCtrl v).power =
    if bits v.toNat 0 2 < bits v.toNat 2 2 then { s.power with refused := true, limWas := s.keptLimit.1, limFrom := s.keptLimit.2, overridden := o }
    else { s.power.ctrlSet v.toNat with limWas := s.keptLimit.1, limFrom := s.keptLimit.2, overridden := o } := by
  unfold State.pwrCtrl
  extract_lets +onlyGivenNames t w x hi lo w1
  have hw : w = { s.power with limWas := s.keptLimit.1, limFrom := s.keptLimit.2 } := s.keepLimit_power
  have hw1 : w1 = { s.power.ctrlSet v.toNat with limWas := s.keptLimit.1, limFrom := s.keptLimit.2 } := by
    unfold w1
    rw [hw]
    rfl
  clear_value t w w1
  split
  · exact ⟨s.power.overridden, by dsimp only; rw [hw]⟩
  · obtain ⟨o, ho⟩ := State.throttle_power { t with power := w1 } 3 0 w.p w1.p false
    exact ⟨o, by rw [ho]; dsimp only; rw [hw1]⟩

theorem exec_pwrCtrlWrite {s : State} (h : s.answers 0x3000 = true) (v : W32) : ∃ t o, exec (.pwrCtrlWrite v) s = .next t ∧ t.work = s.work ∧ t.power =
    if bits v.toNat 0 2 < bits v.toNat 2 2 then { s.power with refused := true, limWas := s.keptLimit.1, limFrom := s.keptLimit.2, overridden := o }
    else { s.power.ctrlSet v.toNat with limWas := s.keptLimit.1, limFrom := s.keptLimit.2, overridden := o } := by
  have hkept : (s.regIn 0x3000 v).keptLimit = s.keptLimit := by
    have hc : (s.regIn 0x3000 v).cycle = s.cycle := by simp only [State.cycle, State.regIn_clk]
    unfold State.keptLimit State.windowCycle
    rw [hc, State.regIn_power]
  obtain ⟨o, ho⟩ := (s.regIn 0x3000 v).pwrCtrl_power v
  refine ⟨_, ((s.regIn 0x3000 v).pwrCtrl v).power.pourOver, s.regCmd_answers 0x3000 v (fun t => (t.pwrCtrl v).pinCheck 0) h, by rw [State.pinCheck_work, State.pwrCtrl_work, State.regIn_work], ?_⟩
  rw [State.pinCheck_power, ho, hkept, State.regIn_power]
  split
  · rfl
  · rfl

end Sys2Proof.Machine

open Sys2Proof Sys2Proof.Machine

/-- Settles O55: the loop by its four cases; the thermal limit by the cut that follows every reading. -/
theorem powerLoopAndThermalLimit : Obligations.PowerLoopAndThermalLimit := by
  intro s hreset
  refine ⟨fun pkg inp => ?_, fun js hjs => ?_, fun k x hx => ?_, ?_⟩
  · intro pk ip cap peak average low
    obtain ⟨t, ht, hwork, hpkg, hinp, hpeak, hk, -⟩ := exec_powerSample hreset pkg inp
    have hp : s.power.atPeak pk ip = true ↔ peak := s.power.atPeak_iff pk ip
    have ha : s.power.overCap pk ip = true ↔ average := s.power.overCap_iff (length_keptSamples_le _ _) (length_keptSamples_le _ _)
    have hl : s.power.wellBelow pk ip = true ↔ low := s.power.wellBelow_iff (length_keptSamples_le _ _) (length_keptSamples_le _ _)
    obtain ⟨h1, h2, h3, h4⟩ := s.power.loopStep_cases pk ip
    rw [hp] at h1 h2 h3 h4
    rw [ha] at h2 h3 h4
    rw [hl] at h3 h4
    refine ⟨t, ht, hpkg, hinp, hwork, fun h => ⟨hk.trans (h1 h), hpeak.trans (hp.2 h)⟩, fun h => ?_, fun h h' => hk.trans (h2 h h'),
      fun h h' h'' => hk.trans (h3 h h' h''), fun h h' h'' => hk.trans (h4 h h' h'')⟩
    exact hpeak.trans (Bool.eq_false_of_not_eq_true fun e => h (hp.1 e))
  · refine ⟨_, exec_thermalSample hreset hjs, State.thermalCut_work _, ?_⟩
    obtain ⟨i, j, o, hcut⟩ := State.thermalCut_power { s with power := { s.power with juncTemps := hottestByDie js, hotSamples := 0 } }
    rw [hcut]
    refine ⟨rfl, fun h => ?_, fun hj hs => ?_⟩
    · exact if_pos (Power.hot_of_junction rfl h)
    · refine if_neg fun h => ?_
      rcases (Power.hot_iff _).1 h with ⟨p, hp, hge⟩ | ⟨p, hp, hge⟩
      · exact absurd (hottestByDie_lt (by decide) hj p hp) (not_lt.2 hge)
      · exact absurd (hs p hp) (not_lt.2 hge)
  · have hno : ¬ ((if k.val ∈ s.power.hbmRound then s.power.hbmNowHot else s.power.hbmPrevHot) = true ∧ 840 ≤ x) := by
      rintro ⟨h1, h2⟩
      rcases hx with hx | hx
      · exact absurd hx (not_lt.2 h2)
      · exact Bool.false_ne_true (hx.symm.trans h1)
    refine ⟨(s.reported k x).thermalCut, (exec_hbmTempReport hreset k x).trans (by rw [if_neg hno]), (s.reported k x).thermalCut_work, ?_⟩
    obtain ⟨i, j, o, hcut⟩ := (s.reported k x).thermalCut_power
    rw [hcut]
    refine ⟨mget_mset_self .., fun n hn => mget_mset_ne _ _ _ _ _ hn, rfl, fun h => ?_⟩
    exact if_pos (Power.hot_of_stack (mget_mset_self ..) h)
  · refine ⟨_, exec_thermalStep hreset, ?_⟩
    obtain ⟨o, h1⟩ := s.setKTh_power (min s.power.kTh (max 8 (s.power.kTh / 2)))
    obtain ⟨o', h2⟩ := s.setKTh_power (min 64 (2 * s.power.kTh))
    split
    · exact ⟨s.setKTh_work _, by rw [h1]⟩
    · split
      · exact ⟨s.setKTh_work _, by rw [h2]⟩
      · exact ⟨rfl, rfl⟩

/-- Settles O56: the droop limit by its three commands; the decision by its cases; the limit in force from what every change keeps. -/
theorem droopAndOperatingPoints : Obligations.DroopAndOperatingPoints := by
  intro s d v
  refine ⟨fun hon => ?_, fun hheld => ?_, fun hrise => ?_, fun g hg hen hc hpin hfall => ?_, fun q hq hlt => exec_voltageRaiseDone hq hlt,
    fun hfrom hreset hans pkg inp j hj => ?_, fun hans => ?_⟩
  · obtain ⟨t, o, ht, hwork, hp⟩ := exec_droopDetect hon d
    refine ⟨t, ht, ?_⟩
    unfold Power.droopK
    rw [hp]
    exact ⟨mget_mset_self .., fun i hi => mget_mset_ne _ _ _ _ _ hi, rfl, hwork, rfl⟩
  · obtain ⟨t, n, x, ht, hwork, htime, hp⟩ := exec_droopHoldEnd hheld
    refine ⟨t, ht, ?_⟩
    unfold Power.droopK
    rw [hp]
    refine ⟨mget_mset_self .., ?_, rfl, State.clocked_of_advance hwork htime⟩
    rw [mget_mset_self]
    exact Nat.succ_ne_zero _
  · obtain ⟨t, n, x, o, ht, hwork, htime, hp⟩ := exec_droopRise hrise
    refine ⟨t, ht, ?_⟩
    unfold Power.droopK
    rw [hp]
    refine ⟨mget_mset_self .., fun h => ?_, (State.clocked_of_advance hwork htime).1⟩
    rw [mget_mset_self]
    exact if_neg (not_lt.2 (le_min h le_rfl))
  · obtain ⟨t, p, r, ht, hwork, hp, hne, heq⟩ := exec_opDecision hg hen hc hpin hfall
    refine ⟨t, ht, hwork, ?_⟩
    rw [hp]
    exact ⟨rfl, rfl, rfl, rfl, hne, heq⟩
  · simp only [List.mem_cons, List.not_mem_nil, or_false] at hj
    rcases hj with rfl | rfl | rfl
    · obtain ⟨t, ht, -, -, -, -, -, hkept⟩ := exec_powerSample hreset pkg inp
      exact ⟨t, ht, fun c i => hkept.pourLimit hfrom c⟩
    · refine ⟨_, exec_thermalStep hreset, fun c i => ?_⟩
      split
      · exact (s.setKTh_limitKept _).pourLimit hfrom c
      · split
        · exact (s.setKTh_limitKept _).pourLimit hfrom c
        · exact State.pourLimit_of_limFrom_le hfrom c
    · obtain ⟨t, o, ht, -, hp⟩ := exec_pwrCtrlWrite hans v
      have hkept : s.LimitKept t := by
        rw [State.LimitKept, hp]
        split
        · exact ⟨rfl, rfl⟩
        · exact ⟨rfl, rfl⟩
      exact ⟨t, ht, fun c i => hkept.pourLimit hfrom c⟩
  · obtain ⟨t, o, ht, hwork, hp⟩ := exec_pwrCtrlWrite hans v
    refine ⟨t, ht, hwork, fun h => ?_, fun h => ?_⟩
    · rw [hp, if_pos h]
      exact ⟨rfl, rfl, rfl, rfl⟩
    · rw [hp, if_neg (Nat.not_lt.2 h)]
      exact ⟨rfl, rfl, rfl, rfl⟩
end

