-- ==== Sys2Proof/Proofs/LinkSides.lean ====
section
/-! What sending, and a link that leaves its state, leave of the module. -/

namespace Sys2Proof.Machine

/-! ### What sending leaves of a link, and of the module -/

/-- A link without its sender's side: what waits, what is not acknowledged, its number, its turns and its credits. -/
def Link.port (k : Link) : Link := { k with txSeq := 0, unacked := [], waiting := [], rr := 0, qrr := 0, credit := [] }

/-- Every link without its sender's side. -/
def State.ports (s : State) (l : Nat) : Link := (s.link l).port

theorem State.link_st_of_ports {s t : State} (h : t.ports = s.ports) (l : Nat) : (t.link l).st = (s.link l).st := congrArg Link.st (a₁ := (t.link l).port) (a₂ := (s.link l).port) (congrFun h l)

@[simp] theorem State.foldl_ports {α : Type} (f : State → α → State) (h : ∀ t a, (f t a).ports = t.ports) (l : List α) (s : State) :
    (l.foldl f s).ports = s.ports := State.foldl_keeps State.ports f h l s

theorem State.ports_of_lnk {s t : State} (h : t.lnk = s.lnk) : t.ports = s.ports := by
  unfold State.ports State.link
  rw [h]

@[simp] theorem State.emit_ports (s : State) (o : Output) : (s.emit o).ports = s.ports := State.ports_of_lnk (State.emit_lnk ..)

@[simp] theorem State.mark_ports (s : State) (k ca g u p : Nat) : (s.mark k ca g u p).ports = s.ports := State.ports_of_lnk (State.mark_lnk ..)

@[simp] theorem State.faultMark_ports (s : State) (u st r : Nat) : (s.faultMark u st r).ports = s.ports := State.ports_of_lnk (State.faultMark_lnk ..)

/-- A link's record changed in its sender's side alone. -/
theorem State.updLink_ports {s : State} {l : Nat} {f : Link → Link} (h : (f (s.link l)).port = (s.link l).port) : (s.updLink l f).ports = s.ports := by
  funext i
  unfold State.ports
  by_cases hi : i = l
  · rw [hi, State.link_updLink_self, h]
  · rw [State.link_updLink_ne _ _ _ _ hi]

@[simp] theorem State.sendOne_ports (s : State) (l : Nat) : (s.sendOne l).ports = s.ports := by
  unfold State.sendOne
  dsimp only
  split
  · rfl
  · split
    · rfl
    · rw [State.emit_ports]
      exact State.updLink_ports rfl

@[simp] theorem State.pump_ports (s : State) (l : Nat) : (s.pump l).ports = s.ports :=
  State.foldl_ports _ (fun t _ => t.sendOne_ports l) _ _

theorem State.offer_ports {s t : State} {d : Nat} {b : Bool} {f : TxFlit} (h : s.offer d b f = some t) : t.ports = s.ports := by
  unfold State.offer at h
  dsimp only at h
  split at h
  · rw [← Option.some.inj h]
  · split at h
    · exact absurd h (by simp)
    · rw [← Option.some.inj h, State.pump_ports]
      exact State.updLink_ports rfl

@[simp] theorem State.anyPort_ports (s : State) : s.anyPort.2.ports = s.ports := rfl

@[simp] theorem State.free32_ports (s : State) : s.free32.2.ports = s.ports := rfl

@[simp] theorem State.xferFault_ports (s : State) (u st : Nat) (d : W16) (n : Nat) : (s.xferFault u st d n).ports = s.ports := State.faultMark_ports ..

@[simp] theorem State.xferEnd_ports (s : State) (x : Xfer) (ok : Bool) : (s.xferEnd x ok).ports = s.ports :=
  State.xferEnd_keeps State.ports (fun _ _ => rfl) (fun _ _ _ => rfl) s x ok

@[simp] theorem State.sendDone_ports (s : State) (d : W16) (tag st : Nat) : (s.sendDone d tag st).ports = s.ports := by
  unfold State.sendDone
  dsimp only
  split
  · rfl
  · split
    · exact State.offer_ports (by assumption)
    · simp

@[simp] theorem State.routeFault_ports (s : State) (f : TxFlit) : (s.routeFault f).ports = s.ports := by
  unfold State.routeFault
  dsimp only
  repeat' split
  all_goals simp

@[simp] theorem State.resend_ports (s : State) (d : Nat) (fs : List TxFlit) : (s.resend d fs).ports = s.ports := by
  refine State.foldl_ports _ (fun t f => ?_) _ _
  split
  · exact State.offer_ports (by assumption)
  · exact State.routeFault_ports ..

@[simp] theorem State.planChange_ports (s : State) (f : Plan → Plan) : (s.planChange f).ports = s.ports := by
  unfold State.planChange
  split
  · exact State.ports_of_lnk (State.mark_lnk ..)
  · rfl

@[simp] theorem State.linkUse_ports (s : State) (l : Nat) (f : LinkEntry → LinkEntry) : (s.linkUse l f).ports = s.ports := by
  unfold State.linkUse
  dsimp only
  split
  · rw [State.mark_ports]
    exact s.planChange_ports _
  · exact s.planChange_ports _

@[simp] theorem State.dropHeard_ports (s : State) (l : Nat) : (s.dropHeard l).ports = s.ports := rfl

/-- A link that leaves its state for another, and no other link, but for what it sent. -/
theorem State.linkLeave_ports (s : State) (l : Nat) (st : LState) (f : LinkEntry → LinkEntry) :
    (s.linkLeave l st f).ports = (s.updLink l (fun k => { k with st := st, unacked := [], waiting := [], sinceAck := 0, oldestGood := none })).ports := by
  unfold State.linkLeave
  dsimp only
  repeat' split
  all_goals simp

theorem State.linkLeave_st_self (s : State) (l : Nat) (st : LState) (f : LinkEntry → LinkEntry) : ((s.linkLeave l st f).link l).st = st := by
  rw [State.link_st_of_ports (s.linkLeave_ports l st f), State.link_updLink_self]

theorem State.linkLeave_st_ne (s : State) {l i : Nat} (st : LState) (f : LinkEntry → LinkEntry) (h : i ≠ l) : ((s.linkLeave l st f).link i).st = (s.link i).st := by
  rw [State.link_st_of_ports (s.linkLeave_ports l st f), State.link_updLink_ne _ _ _ _ h]

/-! ### What sending leaves of the host's side, of power and of the start-up -/

/-- The host's side, power and the start-up. -/
def State.apart (s : State) := (s.host, s.power, s.boot)

@[simp] theorem State.foldl_apart {α : Type} (f : State → α → State) (h : ∀ t a, (f t a).apart = t.apart) (l : List α) (s : State) :
    (l.foldl f s).apart = s.apart := State.foldl_keeps State.apart f h l s

@[simp] theorem State.mark_apart (s : State) (k ca g u p : Nat) : (s.mark k ca g u p).apart = s.apart := by simp [State.apart]

@[simp] theorem State.xferFault_apart (s : State) (u st : Nat) (d : W16) (n : Nat) : (s.xferFault u st d n).apart = s.apart := by
  simp [State.apart, State.xferFault]

@[simp] theorem State.anyPort_apart (s : State) : s.anyPort.2.apart = s.apart := rfl

@[simp] theorem State.free32_apart (s : State) : s.free32.2.apart = s.apart := rfl

theorem State.onlyLinks.apart {s t : State} (h : s.onlyLinks t) : t.apart = s.apart := by
  have hlinks : { t with lnk := s.lnk, outbox := s.outbox } = s := h
  have hapart := congrArg State.apart hlinks
  exact hapart

@[simp] theorem State.xferEnd_apart (s : State) (x : Xfer) (ok : Bool) : (s.xferEnd x ok).apart = s.apart :=
  State.xferEnd_keeps State.apart (fun _ _ => rfl) (fun _ _ _ => rfl) s x ok

@[simp] theorem State.sendDone_apart (s : State) (d : W16) (tag st : Nat) : (s.sendDone d tag st).apart = s.apart := by
  unfold State.sendDone
  dsimp only
  split
  · rfl
  · split
    · exact (State.offer_only _ _ _ _ _ (by assumption)).apart
    · simp

@[simp] theorem State.routeFault_apart (s : State) (f : TxFlit) : (s.routeFault f).apart = s.apart := by
  unfold State.routeFault
  dsimp only
  repeat' split
  all_goals simp

@[simp] theorem State.resend_apart (s : State) (d : Nat) (fs : List TxFlit) : (s.resend d fs).apart = s.apart := by
  refine State.foldl_apart _ (fun t f => ?_) _ _
  split
  · exact (State.offer_only _ _ _ _ _ (by assumption)).apart
  · exact State.routeFault_apart ..

@[simp] theorem State.planChange_apart (s : State) (f : Plan → Plan) : (s.planChange f).apart = s.apart := by
  unfold State.planChange
  split
  · exact State.mark_apart ..
  · rfl

@[simp] theorem State.linkUse_apart (s : State) (l : Nat) (f : LinkEntry → LinkEntry) : (s.linkUse l f).apart = s.apart := by
  unfold State.linkUse
  dsimp only
  split
  · rw [State.mark_apart]
    exact s.planChange_apart _
  · exact s.planChange_apart _

@[simp] theorem State.linkLeave_apart (s : State) (l : Nat) (st : LState) (f : LinkEntry → LinkEntry) : (s.linkLeave l st f).apart = s.apart := by
  unfold State.linkLeave
  extract_lets +onlyGivenNames k s1 s2
  have h1 : s1.apart = s.apart := rfl
  have h2 : s2.apart = s.apart := by
    unfold s2
    split
    · rw [State.linkUse_apart, h1]
    · exact h1
  clear_value s2
  split
  · rw [State.resend_apart, h2]
  · exact h2

@[simp] theorem State.failLink_apart (s : State) (l : Nat) : (s.failLink l).apart = s.apart := by
  unfold State.failLink
  split <;> simp

@[simp] theorem State.abortXfers_ports (s : State) (p : Xfer → Bool) : (s.abortXfers p).ports = s.ports :=
  State.foldl_ports _ (fun t x => by simp) _ _

@[simp] theorem State.abortXfers_apart (s : State) (p : Xfer → Bool) : (s.abortXfers p).apart = s.apart :=
  State.foldl_apart _ (fun t x => by simp) _ _

@[simp] theorem State.emit_apart (s : State) (o : Output) : (s.emit o).apart = s.apart := by simp [State.apart]

theorem State.haltBlock_apart (s : State) (l : Nat) : (s.haltBlock l).apart = s.apart := by
  unfold State.haltBlock
  rw [State.emit_apart]
  rfl

theorem State.linkOff_apart (s : State) (l : Nat) : (s.linkOff l).apart = s.apart := by
  unfold State.linkOff
  extract_lets +onlyGivenNames k used s1 s2 s3
  have h1 : s1.apart = s.apart := by
    unfold s1
    split
    · exact s.haltBlock_apart l
    · rfl
  have h3 : s3.apart = s1.apart := by
    unfold s3
    split
    · exact s2.linkUse_apart l _
    · rfl
  rw [State.foldl_apart _ (fun t f => t.routeFault_apart f), h3, h1]

theorem State.linkOff_power (s : State) (l : Nat) : (s.linkOff l).power = s.power := congrArg (·.2.1) (s.linkOff_apart l)

end Sys2Proof.Machine

open Sys2Proof Sys2Proof.Machine


end

