-- ==== Sys2Proof/Proofs/Protection.lean ====
section
/-! The stop sequence and electrical faults. -/

namespace Sys2Proof.Machine

/-! ### What the stop's operations leave of the cores and of power -/

/-- The cores and power. -/
def State.silicon (s : State) : Mem Core × Power := (s.cores, s.power)

theorem State.power_of_silicon {s t : State} (h : t.silicon = s.silicon) : t.power = s.power := congrArg Prod.snd h

theorem State.cores_of_silicon {s t : State} (h : t.silicon = s.silicon) : t.cores = s.cores := congrArg Prod.fst h

@[simp] theorem State.foldl_silicon {α : Type} (f : State → α → State) (h : ∀ t a, (f t a).silicon = t.silicon) (l : List α) (s : State) :
    (l.foldl f s).silicon = s.silicon := State.foldl_keeps State.silicon f h l s

@[simp] theorem State.mark_silicon (s : State) (k ca g u p : Nat) : (s.mark k ca g u p).silicon = s.silicon := by simp [State.silicon]

@[simp] theorem State.faultMark_silicon (s : State) (u st r : Nat) : (s.faultMark u st r).silicon = s.silicon := by simp [State.silicon]

@[simp] theorem State.updGroup_silicon (s : State) (n : Nat) (f : Group → Group) : (s.updGroup n f).silicon = s.silicon := rfl

@[simp] theorem State.complete_silicon (s : State) (d : Desc) (st a b : Nat) : (s.complete d st a b).silicon = s.silicon := by simp [State.silicon]

@[simp] theorem State.completeOrder_silicon (s : State) (o st a b : Nat) : (s.completeOrder o st a b).silicon = s.silicon := by
  unfold State.completeOrder
  split <;> simp

@[simp] theorem State.endRuns_silicon (s : State) (n st a b : Nat) : (s.endRuns n st a b).silicon = s.silicon := by simp [State.endRuns]

@[simp] theorem State.dropGroups_silicon (s : State) (cause sub : Nat) : (s.dropGroups cause sub).silicon = s.silicon := by
  unfold State.dropGroups
  dsimp only
  rw [State.foldl_silicon, State.foldl_silicon, State.foldl_silicon]
  · simp
  · simp
  · intro t p
    repeat' split
    all_goals simp

@[simp] theorem State.dropJoins_silicon (s : State) (status : Option Nat) : (s.dropJoins status).silicon = s.silicon := by
  refine State.foldl_silicon _ (fun t p => ?_) _ _
  repeat' split
  all_goals simp

@[simp] theorem State.planChange_silicon (s : State) (f : Plan → Plan) : (s.planChange f).silicon = s.silicon := by
  unfold State.planChange
  split
  · exact State.mark_silicon ..
  · rfl

@[simp] theorem State.applyAbsent_silicon (s : State) : s.applyAbsent.silicon = s.silicon :=
  State.foldl_silicon _ (fun t p => by simp) _ _

@[simp] theorem State.seriesEnd_silicon (s : State) : s.seriesEnd.silicon = s.silicon := by
  unfold State.seriesEnd
  dsimp only
  rw [State.applyAbsent_silicon, State.foldl_silicon]
  · rfl
  · intro t p
    repeat' split
    all_goals simp

theorem State.onlyLinks.silicon {s t : State} (h : s.onlyLinks t) : t.silicon = s.silicon := by
  have hlinks : { t with lnk := s.lnk, outbox := s.outbox } = s := h
  have hs := congrArg State.silicon hlinks
  exact hs

@[simp] theorem State.sendGroup_silicon (s : State) (n : Nat) (x : Sync) : (s.sendGroup n x).silicon = s.silicon := by
  unfold State.sendGroup
  exact (State.originate_only ..).silicon

theorem State.stretchBegin_power (s : State) (n : Nat) (m : W16) (c sub : Nat) : (s.stretchBegin n m c sub).power = s.power := by
  have h := congrArg State.power (s.stretchBegin_only n m c sub)
  exact h

@[simp] theorem State.sendStretch_silicon (s : State) (n c sub : Nat) : (s.sendStretch n c sub).silicon = s.silicon := by
  unfold State.sendStretch
  rw [State.sendGroup_silicon]
  unfold State.silicon
  rw [State.stretchBegin_power, State.stretchBegin_cores]

@[simp] theorem State.endReplay_silicon (s : State) (c : Nat) : (s.endReplay c).silicon = s.silicon := by
  unfold State.endReplay
  dsimp only
  split
  · unfold State.measChanged
    rw [State.mark_silicon]
    exact State.mark_silicon ..
  · exact State.mark_silicon ..

/-! ### Streams stopped (R459) -/

/-- Whether none of a core's streams runs. -/
def Core.Idle (k : Core) : Prop := k.fwd.phase = .idle ∧ k.bwd.phase = .idle ∧ k.upd.phase = .idle

theorem mem_mmap {α : Type} [DecidableEq α] {d : α} {f : Nat → α → α} {m : Mem α} {p : Nat × α} (h : p ∈ mmap d f m) : ∃ q ∈ m, f q.1 q.2 = p.2 := by
  obtain ⟨q, hq, rfl⟩ := List.mem_map.1 (List.mem_filter.1 h).1
  exact ⟨q, hq, rfl⟩

/-- Where no listed core runs a stream, no core does. -/
theorem State.core_idle {s : State} (h : ∀ p ∈ s.cores, p.2.Idle) (c : Nat) : (s.core c).Idle := by
  by_cases hd : s.core c = {}
  · rw [hd]
    exact ⟨rfl, rfl, rfl⟩
  · exact h _ (mem_of_mget_ne ({} : Core) s.cores c hd)

theorem State.haltCores_idle (s : State) : ∀ p ∈ s.haltCores.cores, p.2.Idle := by
  intro p hp
  obtain ⟨q, -, hq⟩ := mem_mmap (d := ({} : Core)) (f := fun _ k => k.halt s.cycles) hp
  rw [← hq]
  exact ⟨rfl, rfl, rfl⟩

theorem State.rephase_idle {s : State} (h : ∀ p ∈ s.cores, p.2.Idle) : ∀ p ∈ s.rephase.cores, p.2.Idle := by
  intro p hp
  obtain ⟨q, hq, heq⟩ := mem_mmap (d := ({} : Core)) (f := fun _ k => { k with arb := [], lately := [] }) hp
  rw [← heq]
  exact h q hq

/-! ### Legs ended (R439, R459) -/

/-- No LEG group is active. -/
def State.NoLegs (s : State) : Prop := ∀ n, (s.group n).legActive = false

theorem State.NoLegs.congr {s t : State} (h : s.NoLegs) (ht : t.groups = s.groups) : t.NoLegs := by
  intro n
  unfold State.group
  rw [ht]
  exact h n

theorem State.NoLegs.updGroup {s : State} (h : s.NoLegs) {f : Group → Group} (hf : ∀ g, (f g).legActive = false) (n : Nat) : (s.updGroup n f).NoLegs := by
  intro i
  by_cases hi : i = n
  · rw [hi, State.group_updGroup_self, hf]
  · rw [State.group_updGroup_ne _ _ _ _ hi, h i]

theorem Group.gone_legActive (g : Group) : g.gone.legActive = false := by simp [Group.legActive, Group.gone]

/-- One group's turn as every leg is dropped. -/
def State.dropGroup (t : State) (p : Nat × Group) : State :=
  if p.2.legActive ∨ p.2.ending.isSome then
    let u := t.updGroup p.1 (fun g => { g with st := .abandoned, active := false, ending := none })
    match p.2.releasing with
    | some o => (u.updGroup p.1 Group.gone).completeOrder o 0 0 0
    | none => u
  else t

/-- After its turn a group that had a leg has none, and no other group changed. -/
theorem State.dropGroup_group (t : State) (p : Nat × Group) (n : Nat) (h : ((t.dropGroup p).group n).legActive = true) :
    (t.group n).legActive = true ∧ (n = p.1 → p.2.legActive = false) := by
  unfold State.dropGroup at h
  split at h
  · have habandoned (g : Group) : ({ g with st := .abandoned, active := false, ending := none } : Group).legActive = false := by simp [Group.legActive]
    dsimp only at h
    by_cases hn : n = p.1
    · subst hn
      split at h
      · simp [Group.gone_legActive] at h
      · simp [habandoned] at h
    · refine ⟨?_, fun e => absurd e hn⟩
      split at h
      · simpa [State.group_updGroup_ne _ _ _ _ hn] using h
      · simpa [State.group_updGroup_ne _ _ _ _ hn] using h
  · rename_i hp
    exact ⟨h, fun _ => Bool.eq_false_of_not_eq_true fun e => hp (.inl e)⟩

/-- Every group that has a leg and is in the list has had its turn at the list's end. -/
theorem State.foldl_dropGroup (l : List (Nat × Group)) (t : State) (h : ∀ n, (t.group n).legActive = true → ∃ g, (n, g) ∈ l ∧ g.legActive = true) :
    (l.foldl State.dropGroup t).NoLegs := by
  induction l generalizing t with
  | nil =>
    intro n
    refine Bool.eq_false_of_not_eq_true fun e => ?_
    obtain ⟨g, hg, -⟩ := h n e
    exact absurd hg List.not_mem_nil
  | cons p l ih =>
    refine ih _ fun n hn => ?_
    obtain ⟨ht, hp⟩ := t.dropGroup_group p n hn
    obtain ⟨g, hg, hleg⟩ := h n ht
    rcases List.mem_cons.1 hg with rfl | hg
    · rw [hp rfl] at hleg
      exact absurd hleg Bool.false_ne_true
    · exact ⟨g, hg, hleg⟩

theorem State.dropGroups_noLegs (s : State) (cause sub : Nat) : (s.dropGroups cause sub).NoLegs := by
  unfold State.dropGroups
  refine State.foldl_dropGroup _ _ fun n hn => ⟨_, mem_of_mget_ne ({} : Group) _ n fun e => ?_, hn⟩
  unfold State.group at hn
  rw [e] at hn
  exact absurd hn (by decide)

theorem State.NoLegs.seriesEnd {s : State} (h : s.NoLegs) : s.seriesEnd.NoLegs := by
  unfold State.seriesEnd
  extract_lets +onlyGivenNames _src _src2 s1 s2
  refine State.NoLegs.congr (s := s2) (List.foldlRecOn (motive := State.NoLegs) _ _ h fun t ht p _ => ?_) (State.applyAbsent_groups _)
  split
  · split
    · exact State.NoLegs.updGroup (ht.congr (State.completeOrder_groups ..)) Group.gone_legActive _
    · exact ht
  · exact ht

/-! ### The stop begins (R457 to R459) -/

/-- Power as the stop begins, but for the first cycle of a new limit, which a re-phasing sets. -/
def Power.Stopping (w : Power) (sub : Nat) (w' : Power) : Prop :=
  ∃ i, w' = { w with stopStage := 1, events := w.events ||| (if sub = 1 then 0x80 else 0x40), limFrom := i }

theorem State.beginStop_spec {s : State} (hreset : s.boot.inReset = false) (hstage : s.power.stopStage = 0) (hst : s.boot.st ≠ .stopped) (hfail : s.boot.st ≠ .failed)
    (sub die : Nat) : (s.beginStop sub die).boot.st = .stopped ∧ s.power.Stopping sub (s.beginStop sub die).power
      ∧ (∀ c, ((s.beginStop sub die).core c).Idle) ∧ (s.beginStop sub die).NoLegs := by
  unfold State.beginStop
  rw [if_neg (by simp [hreset, hstage, hst, hfail])]
  extract_lets +onlyGivenNames s0 conds0 power0 s1 s2 s3 s4
  have h0 : s0.silicon = s.silicon := by
    unfold s0
    split
    · exact s.endReplay_silicon 6
    · rfl
  have h1 : s1.power = { s.power with stopStage := 1, events := s.power.events ||| (if sub = 1 then 0x80 else 0x40) } := by
    have hp : s0.power = s.power := State.power_of_silicon h0
    unfold s1
    rw [← hp]
  have h2 : s2.silicon = s1.silicon := State.foldl_silicon _ (fun t n => by simp) _ _
  have h3 : s3.silicon = (s2.dropJoins none).haltCores.silicon := State.dropGroups_silicon ..
  have h3p : s3.power = s1.power :=
    (State.power_of_silicon h3).trans ((State.power_of_silicon (s2.dropJoins_silicon none)).trans (State.power_of_silicon h2))
  have h3c : ∀ p ∈ s3.cores, p.2.Idle := by
    rw [State.cores_of_silicon h3]
    exact State.haltCores_idle _
  have h3l : s3.NoLegs := State.dropGroups_noLegs _ _ _
  clear_value s3
  have h4 : s.power.Stopping sub s4.power ∧ (∀ p ∈ s4.cores, p.2.Idle) ∧ s4.NoLegs := by
    unfold s4
    split
    · have he := s3.seriesEnd_silicon
      refine ⟨⟨0, ?_⟩, State.rephase_idle ?_, State.NoLegs.congr h3l.seriesEnd (State.rephase_groups _)⟩
      · rw [State.rephase, State.power_of_silicon he, h3p, h1]
      · rw [State.cores_of_silicon he]
        exact h3c
    · exact ⟨⟨s.power.limFrom, by rw [h3p, h1]⟩, h3c, h3l⟩
  obtain ⟨hp, hc, hl⟩ := h4
  clear_value s4
  refine ⟨?_, ?_, fun c => ?_, ?_⟩
  · rw [State.faultMark_boot]
  · rw [State.faultMark_power]
    exact hp
  · rw [State.core, State.faultMark_cores]
    exact State.core_idle hc c
  · exact State.NoLegs.congr (s := s4) hl (State.faultMark_groups ..)

/-- Whether a stop can begin: not in reset, not stopped or FAILED, and none has begun. -/
structure State.Running (s : State) : Prop where
  reset : s.boot.inReset = false
  stage : s.power.stopStage = 0
  stopped : s.boot.st ≠ .stopped
  failed : s.boot.st ≠ .failed

/-- What O57 says of a stop that begins: nothing runs, no leg is active, and device memory stands. -/
theorem State.Running.beginStop {s : State} (h : s.Running) (sub die : Nat) :
    ((s.beginStop sub die).boot.st = .stopped ∧ (s.beginStop sub die).power.stopStage = 1
      ∧ (∀ c, ((s.beginStop sub die).core c).Idle) ∧ (s.beginStop sub die).NoLegs
      ∧ (s.beginStop sub die).mem.hbm = s.mem.hbm ∧ (s.beginStop sub die).mem.ddr = s.mem.ddr)
    ∧ (s.beginStop sub die).power.events = s.power.events ||| (if sub = 1 then 0x80 else 0x40)
    ∧ (s.beginStop sub die).power.flowLowSince = s.power.flowLowSince ∧ (s.beginStop sub die).power.railFault = s.power.railFault := by
  obtain ⟨hst, ⟨i, hp⟩, hc, hl⟩ := State.beginStop_spec h.reset h.stage h.stopped h.failed sub die
  have hm : (s.beginStop sub die).mem = s.mem := congrArg (·.2.1) (s.beginStop_ground sub die)
  rw [hp, hm]
  exact ⟨⟨hst, rfl, hc, hl, rfl, rfl⟩, rfl, rfl, rfl⟩

theorem testBit_or_self {n : Nat} (a b : BitVec n) {i : Nat} (h : b.toNat.testBit i = true) : (a ||| b).toNat.testBit i = true := by
  rw [BitVec.toNat_or, Nat.testBit_or, h, Bool.or_true]

@[simp] theorem State.pinCheck_boot (s : State) (d : Nat) : (s.pinCheck d).boot = s.boot := by
  unfold State.pinCheck
  dsimp only
  split <;> simp

@[simp] theorem State.throttle_boot (s : State) (a d p n : Nat) (b : Bool) : (s.throttle a d p n b).boot = s.boot := by
  unfold State.throttle
  split
  · rfl
  · simp [State.powerConds]

@[simp] theorem State.thermalCut_boot (s : State) : s.thermalCut.boot = s.boot := by
  unfold State.thermalCut State.setKTh State.keepLimit
  split
  · rw [State.throttle_boot]
    split <;> rfl
  · rfl

/-- A cut changes neither whether a stop can begin, nor the latches, nor the coolant's timer. -/
theorem State.Running.thermalCut {s : State} (h : s.Running) : s.thermalCut.Running := by
  obtain ⟨i, j, o, hp⟩ := s.thermalCut_power
  exact ⟨s.thermalCut_boot.symm ▸ h.reset, by rw [hp]; exact h.stage, s.thermalCut_boot.symm ▸ h.stopped, s.thermalCut_boot.symm ▸ h.failed⟩

theorem State.thermalStop_of_flow {s : State} (h : s.power.flowLowSince = none) (die : Nat) : s.thermalStop die = s.beginStop 1 die := by
  unfold State.thermalStop
  rw [h]

theorem State.thermalCut_flow (s : State) : s.thermalCut.power.flowLowSince = s.power.flowLowSince := by
  obtain ⟨i, j, o, hp⟩ := s.thermalCut_power
  rw [hp]

theorem State.thermalCut_mem (s : State) : s.thermalCut.mem = s.mem := ((State.work_eq_iff ..).1 s.thermalCut_work).2.1

/-- A second hot sample in a row is a stop (R457). -/
theorem exec_thermalSample_hot {s : State} (h : s.boot.inReset = false) {js : List (DieIx × Int)} (hjs : ∃ p ∈ js, 920 ≤ p.2) (hs : 1 ≤ s.power.hotSamples) :
    ∃ d, exec (.thermalSample js) s =
      .next ({ s with power := { s.power with juncTemps := hottestByDie js, hotSamples := s.power.hotSamples + 1 } }.thermalCut.thermalStop d) := by
  obtain ⟨p, hp, h920⟩ := hjs
  obtain ⟨d, hd⟩ : ∃ d, stopDie js = some d := by
    refine Option.isSome_iff_exists.1 (List.find?_isSome.2 ⟨p.1.val, List.mem_range.2 p.1.isLt, ?_⟩)
    exact List.any_eq_true.2 ⟨p, hp, by simp [h920]⟩
  refine ⟨d, ?_⟩
  show execThermalSample js s = _
  unfold execThermalSample
  extract_lets +onlyGivenNames temps hot n power0 s1
  have hhot : hot = some d := hd
  have hn : n = s.power.hotSamples + 1 := by simp [n, hhot]
  have hs1 : s1 = { s with power := { s.power with juncTemps := hottestByDie js, hotSamples := s.power.hotSamples + 1 } }.thermalCut := by
    unfold s1
    rw [hn]
    rfl
  clear_value hot n s1
  have h2 : 2 ≤ n := hn ▸ Nat.succ_le_succ hs
  rw [hhot, hs1]
  exact (happen_holds (by simp [h])).trans (congrArg Host.Outcome.next (if_pos h2))

/-! ### The links halted (R337, R459) -/

@[simp] theorem State.haltBlock_ports (s : State) (l : Nat) : (s.haltBlock l).ports = s.ports := by
  unfold State.haltBlock
  rw [State.emit_ports]
  rfl

/-- What a link's record is after its transmitter is off. -/
def Link.off (k : Link) : Link :=
  { k with st := if k.st == .up || k.st == .sparing then .halted else .down, unacked := [], waiting := [], sinceAck := 0, oldestGood := none }

/-- Leaving a state changes what the port is in that state alone. -/
theorem Link.port_leave {k k' : Link} (h : k.port = k'.port) (st : LState) :
    ({ k with st := st, unacked := [], waiting := [], sinceAck := 0, oldestGood := none } : Link).port
      = ({ k' with st := st, unacked := [], waiting := [], sinceAck := 0, oldestGood := none } : Link).port :=
  congrArg (fun x : Link => { x with st := st, sinceAck := 0, oldestGood := none }) h

theorem State.linkOff_ports (s : State) (l : Nat) : (s.linkOff l).ports = (s.updLink l Link.off).ports := by
  unfold State.linkOff
  extract_lets +onlyGivenNames k used s1 s2 s3
  have h1 : s1.ports = s.ports := by
    unfold s1
    split
    · exact s.haltBlock_ports l
    · rfl
  have h2 : s2.ports = (s.updLink l Link.off).ports := by
    funext i
    by_cases hi : i = l
    · subst hi
      unfold State.ports s2
      rw [State.link_updLink_self, State.link_updLink_self]
      exact Link.port_leave (congrFun h1 i) _
    · unfold State.ports s2
      rw [State.link_updLink_ne _ _ _ _ hi, State.link_updLink_ne _ _ _ _ hi]
      exact congrFun h1 i
  have h3 : s3.ports = s2.ports := by
    unfold s3
    rw [State.dropHeard_ports]
    split
    · exact s2.linkUse_ports l _
    · rfl
  rw [State.foldl_ports _ (fun t f => t.routeFault_ports f), h3, h2]

/-- Each link of a range has its transmitter off, the others stand. -/
theorem State.linksOff_st (s : State) (n l : Nat) : (((List.range n).foldl (fun t i => t.linkOff i) s).link l).st = if l < n then (s.link l).off.st else (s.link l).st := by
  induction n with
  | zero => rfl
  | succ n ih =>
    rw [List.range_succ, List.foldl_append, List.foldl_cons, List.foldl_nil, State.link_st_of_ports (State.linkOff_ports _ n)]
    by_cases hl : l = n
    · subst hl
      rw [if_neg (Nat.lt_irrefl l)] at ih
      rw [if_pos (Nat.lt_succ_self l), State.link_updLink_self]
      unfold Link.off
      rw [ih]
    · rw [State.link_updLink_ne _ _ _ _ hl, ih]
      exact if_congr (by omega) rfl rfl

/-! ### Descriptors cut (R459) -/

theorem State.complete_descs (s : State) (d : Desc) (st a b : Nat) : (s.complete d st a b).host.descs = s.host.descs.filter (fun q => q.order != d.order) :=
  State.completeAt_descs ..

/-- Each descriptor of a list completed, those that are left have the order of none of them. -/
theorem State.foldl_complete_descs (f : Desc → Nat) (l : List Desc) (s : State) :
    ∀ q ∈ (l.foldl (fun t d => t.complete d (f d) 0 0) s).host.descs, q ∈ s.host.descs ∧ ∀ d ∈ l, q.order ≠ d.order := by
  induction l generalizing s with
  | nil => exact fun q hq => ⟨hq, fun d hd => absurd hd List.not_mem_nil⟩
  | cons d l ih =>
    intro q hq
    obtain ⟨hmem, hne⟩ := ih (s.complete d (f d) 0 0) q hq
    rw [State.complete_descs] at hmem
    obtain ⟨hin, hd⟩ := List.mem_filter.1 hmem
    refine ⟨hin, fun e he => ?_⟩
    rcases List.mem_cons.1 he with rfl | he
    · simpa using hd
    · exact hne e he

theorem State.completeAll_descs (s : State) : (s.host.descs.foldl (fun t d => t.complete d 0xAC 0 0) s).host.descs = [] := by
  refine List.eq_nil_iff_forall_not_mem.2 fun q hq => ?_
  obtain ⟨hin, hne⟩ := State.foldl_complete_descs (fun _ => 0xAC) s.host.descs s q hq
  exact hne q hin rfl

@[simp] theorem State.complete_work (s : State) (d : Desc) (st a b : Nat) : (s.complete d st a b).work = s.work := by simp [State.work]

theorem State.endCapture_active (s : State) (r : Nat) : (s.endCapture r).trace.capActive = false := by
  unfold State.endCapture
  split
  · rfl
  · rename_i h
    exact Bool.eq_false_of_not_eq_true h

theorem State.endCapture_work (s : State) (r : Nat) : (s.endCapture r).work = s.work := by simp [State.work]

theorem exec_stopDescriptorsCut {s : State} (h : s.power.stopStage = 2) : ∃ t, exec .stopDescriptorsCut s = .next t ∧ t.power.stopStage = 3 ∧ t.host.descs = []
    ∧ t.host.broadcast = none ∧ t.adopt = none ∧ t.trace.capActive = false ∧ t.work = s.work := by
  show ∃ t, execStopDescriptorsCut s = .next t ∧ _
  unfold execStopDescriptorsCut
  extract_lets +onlyGivenNames s1 host1 power1 s2
  have hd : s2.host.descs = [] := s.completeAll_descs
  have hw : s2.work = s.work := State.foldl_keeps State.work _ (fun t d => t.complete_work d _ _ _) _ s
  refine ⟨_, happen_holds (by simp [h]), ?_⟩
  rw [State.endCapture_power, State.endCapture_host, State.endCapture_adopt, State.endCapture_active, State.endCapture_work]
  exact ⟨rfl, hd, rfl, rfl, rfl, hw⟩

/-! ### A rail shorted (R464) -/

/-- A rail's fault and the event of one latched. -/
def State.Latched (r : Nat) (s : State) : Prop := s.power.railFault.toNat.testBit r = true ∧ s.power.events.toNat.testBit 3 = true

theorem State.Latched.congr {r : Nat} {s t : State} (h : s.Latched r) (hp : t.power = s.power) : t.Latched r := by
  unfold State.Latched
  rw [hp]
  exact h

theorem State.Latched.bare {r : Nat} {s : State} (h : s.Latched r) : s.bare.Latched r := h

theorem State.Latched.beginStop {r : Nat} {s : State} (h : s.Latched r) (sub die : Nat) : (s.beginStop sub die).Latched r := by
  by_cases hrun : s.Running
  · obtain ⟨-, he, -, hr⟩ := hrun.beginStop sub die
    unfold State.Latched
    rw [he, hr, BitVec.toNat_or, Nat.testBit_or, h.2]
    exact ⟨h.1, rfl⟩
  · have hstand : s.beginStop sub die = s := by
      unfold State.beginStop
      refine if_pos ?_
      by_contra hn
      simp only [Bool.or_eq_true, beq_iff_eq, bne_iff_ne, not_or, Bool.not_eq_true, ne_eq, not_not] at hn
      obtain ⟨⟨⟨h1, h2⟩, h3⟩, h4⟩ := hn
      exact hrun ⟨h1, h2, h3, h4⟩
    rw [hstand]
    exact h

theorem State.planChange_mem (s : State) (f : Plan → Plan) : (s.planChange f).mem = s.mem := congrArg (·.2.1) (s.planChange_ground f)

theorem State.planChange_power (s : State) (f : Plan → Plan) : (s.planChange f).power = s.power := congrArg Prod.snd (s.planChange_silicon f)

theorem State.foldl_power {α : Type} (f : State → α → State) (h : ∀ t a, (f t a).power = t.power) (l : List α) (s : State) :
    (l.foldl f s).power = s.power := State.foldl_keeps State.power f h l s

theorem State.loseDevice_power (s : State) (d : Nat) : (s.loseDevice d).power = s.power := by
  unfold State.loseDevice
  rw [State.planChange_power]
  rfl

theorem State.dropDevice_power (s : State) (d : Nat) : (s.dropDevice d).power = s.power := by
  unfold State.dropDevice
  split
  · exact s.loseDevice_power d
  · rfl

theorem State.absent_power (s : State) (c cause : Nat) : (s.absent c cause).power = s.power := by
  unfold State.absent
  repeat' split
  · rfl
  · rfl
  · rw [State.faultMark_power, State.planChange_power]

theorem State.failLink_power (s : State) (l : Nat) : (s.failLink l).power = s.power := congrArg (·.2.1) (s.failLink_apart l)

theorem State.cutDie_power (s : State) (cause d : Nat) : (s.cutDie cause d).power = s.power := by
  unfold State.cutDie
  dsimp only
  rw [State.foldl_power _ (fun t m => t.dropDevice_power m), State.foldl_power _ (fun t l => t.failLink_power l), State.foldl_power _ (fun t c => t.absent_power c cause)]
  exact s.planChange_power _

theorem State.loseDie_power (s : State) (cause d : Nat) : (s.loseDie cause d).power = s.power := by
  unfold State.loseDie
  dsimp only
  rw [State.foldl_power _ (fun t e => t.cutDie_power cause e)]
  exact s.planChange_power _

theorem State.failLinks_power (s : State) (f : Nat → Nat) (l : List Nat) : (l.foldl (fun t i => t.failLink (f i)) s).power = s.power :=
  State.foldl_power _ (fun t i => t.failLink_power (f i)) _ _

theorem State.Latched.shortInService {n : Nat} {s : State} (h : s.Latched n) (r : Nat) : (s.shortInService r).Latched n := by
  unfold State.shortInService
  repeat' split
  · exact h.beginStop 1 0
  · exact h.congr (s.loseDie_power ..)
  · exact h.congr (s.dropDevice_power _)
  · exact h.congr (s.failLinks_power _ _)
  · exact h.bare

theorem State.Latched.shortAtStart {n : Nat} {s : State} (h : s.Latched n) (r : Nat) : (s.shortAtStart r).Latched n := by
  unfold State.shortAtStart
  repeat' split
  · exact h
  · exact h
  · exact h.congr (s.loseDie_power ..)
  · exact h.congr (s.dropDevice_power _)
  · exact h.congr (s.failLinks_power _ _)

theorem State.failLink_failed (s : State) (l : Nat) : ((s.failLink l).link l).st = .failed := by
  unfold State.failLink
  split
  · assumption
  · exact s.linkLeave_st_self l _ _

/-- A link FAILED stays so as others fail. -/
theorem State.failLink_keeps_failed {s : State} {i : Nat} (h : (s.link i).st = .failed) (l : Nat) : ((s.failLink l).link i).st = .failed := by
  by_cases hi : i = l
  · rw [hi]
    exact s.failLink_failed l
  · unfold State.failLink
    split
    · exact h
    · rw [State.linkLeave_st_ne _ _ _ hi, h]

theorem State.failLinks_failed (f : Nat → Nat) (l : List Nat) (s : State) : ∀ i ∈ l, ((l.foldl (fun t j => t.failLink (f j)) s).link (f i)).st = .failed := by
  induction l using List.reverseRecOn with
  | nil => exact fun i hi => absurd hi List.not_mem_nil
  | append_singleton l j ih =>
    intro i hi
    rw [List.foldl_append, List.foldl_cons, List.foldl_nil]
    rcases List.mem_append.1 hi with hi | hi
    · exact State.failLink_keeps_failed (ih i hi) _
    · rw [List.mem_singleton.1 hi]
      exact State.failLink_failed ..

theorem State.loseDevice_lost (s : State) (d : Nat) : d ∈ (s.loseDevice d).mem.lost := by
  unfold State.loseDevice
  rw [State.planChange_mem]
  exact List.mem_append_right _ (List.mem_singleton.2 rfl)

/-- The state with a rail's short latched and recorded (R464). -/
def State.shorted (s : State) (r : Fin 34) : State :=
  { s with power := { s.power with
    events := s.power.events ||| 8, railFault := s.power.railFault ||| BitVec.ofNat 34 (2 ^ r.val), shut := s.power.shut ||| BitVec.ofNat 34 (2 ^ r.val) } }.faultMark pwrUnit 0xB1 r.val

theorem State.shorted_latched (s : State) (r : Fin 34) : (s.shorted r).Latched r.val := by
  unfold State.Latched State.shorted
  rw [State.faultMark_power]
  refine ⟨testBit_or_self _ _ ?_, testBit_or_self _ _ (by decide)⟩
  rw [BitVec.toNat_ofNat, Nat.mod_eq_of_lt (Nat.pow_lt_pow_right (by decide) r.isLt), Nat.testBit_two_pow_self]

/-- A short of a rail but V_AUX, on a module not in reset, by the state of its start-up (R464). -/
def State.shortTaken (s : State) (r : Fin 34) : State :=
  match s.boot.st with
  | .ready | .cpReset => (s.shorted r).shortInService r.val
  | .stopped | .failed => if r.val = 32 then (s.shorted r).bare else s.shorted r
  | _ => (s.shorted r).shortAtStart r.val

theorem exec_railShort {s : State} (h : s.boot.inReset = false) {r : Fin 34} (hr : r.val ≠ 33) : exec (.railShort r) s = .next (s.shortTaken r) := by
  show execRailShort r s = _
  unfold execRailShort State.shortTaken
  extract_lets +onlyGivenNames n one s1 s2
  rw [if_neg hr, if_neg (by simp [h])]
  cases s.boot.st <;> rfl

theorem State.shortTaken_ready {s : State} (h : s.boot.st = .ready) (r : Fin 34) : s.shortTaken r = (s.shorted r).shortInService r.val := by
  unfold State.shortTaken
  rw [h]

theorem State.shortTaken_latched (s : State) (r : Fin 34) : (s.shortTaken r).Latched r.val := by
  have hl := s.shorted_latched r
  unfold State.shortTaken
  repeat' split
  · exact hl.shortInService _
  · exact hl.shortInService _
  · exact hl.bare
  · exact hl
  · exact hl.bare
  · exact hl
  · exact hl.shortAtStart _

/-- The Module Controller's own rail takes it down, or makes its start FAILED. -/
theorem State.shortTaken_controller (s : State) {r : Fin 34} (h : r.val = 32) : (s.shortTaken r).boot.inReset = true ∨ (s.shortTaken r).boot.st = .failed := by
  have hservice : (s.shorted r).shortInService r.val = (s.shorted r).bare := by
    unfold State.shortInService
    rw [h, if_neg (by decide), if_neg (by decide), if_neg (by decide)]
  unfold State.shortTaken
  split
  · rw [hservice]
    exact .inl rfl
  · rw [hservice]
    exact .inl rfl
  · rw [if_pos h]
    exact .inl rfl
  · rw [if_pos h]
    exact .inl rfl
  · unfold State.shortAtStart
    rw [if_pos (.inr h)]
    exact .inr rfl

/-- In service, a stack's or a DIMM's rail loses its device. -/
theorem State.shortTaken_device {s : State} (hst : s.boot.st = .ready) {r : Fin 34} (h8 : 8 ≤ r.val) (h28 : r.val < 28) (hd : s.devHere (r.val - 8) = true) :
    r.val - 8 ∈ (s.shortTaken r).mem.lost := by
  have hd' : (s.shorted r).devHere (r.val - 8) = true := by
    unfold State.devHere State.shorted at *
    rwa [State.faultMark_plan, State.faultMark_mem]
  rw [State.shortTaken_ready hst, State.shortInService, if_neg (Nat.not_lt.2 h8), if_pos h28, State.dropDevice, if_pos hd']
  exact State.loseDevice_lost ..

/-- In service, a die's link rail loses its six links. -/
theorem State.shortTaken_links {s : State} (hst : s.boot.st = .ready) {r : Fin 34} (h28 : 28 ≤ r.val) (h32 : r.val < 32) :
    ∀ i < 6, ((s.shortTaken r).link (6 * (r.val - 28) + i)).st = .failed := by
  intro i hi
  rw [State.shortTaken_ready hst, State.shortInService, if_neg (by omega), if_neg (by omega), if_pos h32]
  exact State.failLinks_failed (fun i => 6 * (r.val - 28) + i) _ _ i (List.mem_range.2 hi)

theorem State.shorted_running {s : State} (hreset : s.boot.inReset = false) (hst : s.boot.st = .ready) (hstage : s.power.stopStage = 0) (r : Fin 34) :
    (s.shorted r).Running := by
  have hb : (s.shorted r).boot = s.boot := State.faultMark_boot ..
  have hp : (s.shorted r).power.stopStage = s.power.stopStage := by
    unfold State.shorted
    rw [State.faultMark_power]
  exact ⟨hb ▸ hreset, hp.trans hstage, by rw [hb, hst]; decide, by rw [hb, hst]; decide⟩

/-- In service, D0's core rails are a stop. -/
theorem State.shortTaken_stops {s : State} (hreset : s.boot.inReset = false) (hst : s.boot.st = .ready) (hstage : s.power.stopStage = 0) {r : Fin 34}
    (hr : r.val = 0 ∨ r.val = 4) : (s.shortTaken r).boot.st = .stopped := by
  rw [State.shortTaken_ready hst, State.shortInService, if_pos (by omega), if_pos (by omega)]
  exact ((State.shorted_running hreset hst hstage r).beginStop 1 0).1.1

/-! ### Coolant, links, sense lines and the sideband (R458, R459, R463) -/

theorem State.advance_running {s : State} (h : s.Running) (n : Nat) : ({ s.advance n with power := { (s.advance n).power with flowLowSince := none } } : State).Running := by
  obtain ⟨m, hp⟩ := s.advance_power n
  have hb : (s.advance n).boot = s.boot := State.advance_boot ..
  generalize s.advance n = t at hp hb
  refine ⟨?_, ?_, ?_, ?_⟩
  · rw [hb]
    exact h.reset
  · rw [hp]
    exact h.stage
  · rw [hb]
    exact h.stopped
  · rw [hb]
    exact h.failed

/-- The stop that follows time without coolant begins as any other (R457). -/
theorem State.coolantCut {s : State} (h : s.Running) (n : Nat) : ∃ t, State.beginStop { s.advance n with power := { (s.advance n).power with flowLowSince := none } } 2 0 = t
      ∧ (t.boot.st = .stopped ∧ t.power.stopStage = 1 ∧ (∀ c, (t.core c).Idle) ∧ t.NoLegs ∧ t.mem.hbm = s.mem.hbm ∧ t.mem.ddr = s.mem.ddr)
      ∧ t.power.events.toNat.testBit 6 = true ∧ t.power.flowLowSince = none := by
  have hrun := State.advance_running h n
  have hm : ({ s.advance n with power := { (s.advance n).power with flowLowSince := none } } : State).mem = s.mem := State.advance_mem ..
  have hf0 : ({ s.advance n with power := { (s.advance n).power with flowLowSince := none } } : State).power.flowLowSince = none := rfl
  generalize ({ s.advance n with power := { (s.advance n).power with flowLowSince := none } } : State) = u at hrun hm hf0
  obtain ⟨hstops, he, hf, -⟩ := hrun.beginStop 2 0
  rw [hm] at hstops
  refine ⟨_, rfl, hstops, ?_, hf.trans hf0⟩
  rw [he]
  exact testBit_or_self _ _ (by decide)

theorem exec_coolantStop {s : State} (hreset : s.boot.inReset = false) (hstage : s.power.stopStage = 0) (hstop : s.boot.st ≠ .stopped) (hfail : s.boot.st ≠ .failed) {x : Nat}
    (hflow : s.power.flowLowSince = some x) : ∃ t, exec .coolantStop s = .next t
      ∧ (t.boot.st = .stopped ∧ t.power.stopStage = 1 ∧ (∀ c, (t.core c).Idle) ∧ t.NoLegs ∧ t.mem.hbm = s.mem.hbm ∧ t.mem.ddr = s.mem.ddr)
      ∧ t.power.events.toNat.testBit 6 = true ∧ t.power.flowLowSince = none := by
  obtain ⟨t, ht, hall⟩ := State.coolantCut ⟨hreset, hstage, hstop, hfail⟩ (x + 200000 - s.clk.ns)
  refine ⟨t, ?_, hall⟩
  show execCoolantStop s = _
  unfold execCoolantStop
  rw [hflow]
  exact congrArg _ ht

theorem exec_stopHaltLinks {s : State} (h : s.power.stopStage = 1) : ∃ t, exec .stopHaltLinks s = .next t ∧ t.power.stopStage = 2 ∧ t.mem.hbm = s.mem.hbm ∧ t.mem.ddr = s.mem.ddr
    ∧ ∀ l < 24, (t.link l).st = if (s.link l).st = .up ∨ (s.link l).st = .sparing then .halted else .down := by
  show ∃ t, execStopHaltLinks s = .next t ∧ _
  unfold execStopHaltLinks
  extract_lets +onlyGivenNames s1 lnk1 power1 s2
  have hports : s2.ports = s.ports := s.abortXfers_ports _
  have hm : s2.mem = s.mem := congrArg (·.2.1) (s.abortXfers_ground _)
  have hp : s2.power.stopStage = 2 := rfl
  clear_value s2
  refine ⟨_, happen_holds (by simp [h]), ?_⟩
  rw [State.foldl_power _ (fun t l => t.linkOff_power l), State.foldl_keeps State.mem _ (fun t l => congrArg (·.2.1) (t.linkOff_ground l)), hm]
  refine ⟨hp, rfl, rfl, fun l hl => ?_⟩
  rw [State.linksOff_st, if_pos hl]
  unfold Link.off
  dsimp only
  rw [State.link_st_of_ports hports]
  simp only [Bool.or_eq_true, beq_iff_eq]

theorem exec_senseOpen {s : State} {r : Fin 8} (hon : s.power.railsOn = true) (h : s.power.sense.toNat.testBit r.val = false) :
    ∃ t, exec (.senseOpen r) s = .next t ∧ t.power.sense.toNat.testBit r.val = true ∧ t.power.fallback = true ∧ t.power.events.toNat.testBit 4 = true ∧ t.work = s.work := by
  refine ⟨_, happen_holds (by simp [hon, h]), ?_⟩
  rw [State.faultMark_power, State.faultMark_work]
  have hbit : (s.power.sense ||| BitVec.ofNat 8 (2 ^ r.val)).toNat.testBit r.val = true := by
    refine testBit_or_self _ _ ?_
    rw [BitVec.toNat_ofNat, Nat.mod_eq_of_lt (Nat.pow_lt_pow_right (by decide) r.isLt), Nat.testBit_two_pow_self]
  refine ⟨hbit, ?_, testBit_or_self _ _ (by decide), rfl⟩
  refine bne_iff_ne.2 fun h0 => ?_
  rw [show s.power.sense ||| BitVec.ofNat 8 (2 ^ r.val) = 0 from h0] at hbit
  exact absurd hbit (by simp)

theorem exec_sidebandStuck {s : State} (haux : s.side.vaux = true) (h : s.power.sbStuck = false) :
    ∃ t, exec .sidebandStuck s = .next t ∧ t.power.sbStuck = true ∧ t.sbOn = false ∧ t.power.events.toNat.testBit 5 = true ∧ t.work = s.work := by
  refine ⟨_, happen_holds (by simp [haux, h]), ?_⟩
  unfold State.sbOn
  split
  · exact ⟨rfl, by simp, testBit_or_self _ _ (by decide), rfl⟩
  · rw [State.sidebandFault_work, State.sidebandFault, State.faultMark_power]
    exact ⟨rfl, by simp, testBit_or_self _ _ (by decide), rfl⟩

/-- A bus that is not free stays stuck (R463). -/
theorem exec_sidebandRetry_waits (s : State) : exec (.sidebandRetry false) s = .next s := by
  show happen (s.power.sbStuck && false) s _ = _
  rw [Bool.and_false]
  rfl

end Sys2Proof.Machine

open Sys2Proof Sys2Proof.Machine

/-- Settles O57: the stop by what it leaves of streams and legs; its four stages one by one; each electrical fault by what it latches. -/
theorem stopsAndFaults : Obligations.StopsAndFaults := by
  intro s js
  refine ⟨fun k x hruns hround hx hflow => ?_, fun hruns hjs hs hflow => ?_, fun hok hreset => ?_, fun x hok hflow hlt => ?_, fun x hruns hflow => ?_, fun h1 => ?_,
    exec_stopDescriptorsCut, fun h3 => ⟨_, happen_holds (by simp [h3]), rfl, rfl, rfl, rfl, rfl⟩, fun r hreset hr => ?_, fun haux => ?_, fun r hon hsense => ?_, fun haux hsb => ?_,
    fun hsb => ⟨happen_holds (by simp [hsb]), exec_sidebandRetry_waits s⟩⟩
  · obtain ⟨hreset, hstage, hstop, hfail⟩ := hruns
    have hrun : (s.reported k x).thermalCut.Running := State.Running.thermalCut ⟨hreset, hstage, hstop, hfail⟩
    have hf : (s.reported k x).thermalCut.power.flowLowSince = none := (State.thermalCut_flow _).trans hflow
    have hm : (s.reported k x).thermalCut.mem = s.mem := State.thermalCut_mem _
    refine ⟨_, (exec_hbmTempReport hreset k x).trans (by rw [if_pos ⟨hround, hx⟩, State.thermalStop_of_flow hf]), ?_⟩
    obtain ⟨hstops, he, -, -⟩ := hrun.beginStop 1 (k.val / 2)
    rw [hm] at hstops
    refine ⟨hstops, ?_⟩
    rw [he]
    exact testBit_or_self _ _ (by decide)
  · obtain ⟨hreset, hstage, hstop, hfail⟩ := hruns
    obtain ⟨d, hd⟩ := exec_thermalSample_hot hreset hjs hs
    let s1 : State := { s with power := { s.power with juncTemps := hottestByDie js, hotSamples := s.power.hotSamples + 1 } }
    have hrun : s1.thermalCut.Running := State.Running.thermalCut ⟨hreset, hstage, hstop, hfail⟩
    have hf : s1.thermalCut.power.flowLowSince = none := (State.thermalCut_flow _).trans hflow
    have hm : s1.thermalCut.mem = s.mem := State.thermalCut_mem _
    refine ⟨_, hd.trans (congrArg Host.Outcome.next (State.thermalStop_of_flow hf d)), ?_⟩
    obtain ⟨hstops, he, -, -⟩ := hrun.beginStop 1 d
    rw [hm] at hstops
    refine ⟨hstops, ?_⟩
    rw [he]
    exact testBit_or_self _ _ (by decide)
  · refine ⟨_, happen_holds hok, ?_⟩
    rw [if_neg (by simp [hreset])]
    exact ⟨rfl, rfl, rfl⟩
  · refine ⟨_, happen_holds (by simp [hok]), ?_⟩
    rw [hflow]
    dsimp only
    rw [if_pos hlt]
    exact ⟨rfl, rfl, rfl, rfl⟩
  · exact exec_coolantStop hruns.1 hruns.2.1 hruns.2.2.1 hruns.2.2.2 hflow
  · exact exec_stopHaltLinks h1
  · obtain ⟨hfault, hevent⟩ := s.shortTaken_latched r
    exact ⟨_, exec_railShort hreset hr, hfault, hevent, fun h8 h28 hst hd => State.shortTaken_device hst h8 h28 hd, fun h28 h32 hst => State.shortTaken_links hst h28 h32,
      fun h04 hst hstage => State.shortTaken_stops hreset hst hstage h04, s.shortTaken_controller⟩
  · exact ⟨_, happen_holds haux, rfl, rfl⟩
  · exact exec_senseOpen hon hsense
  · exact exec_sidebandStuck haux hsb
end

