-- ==== Sys2Proof/Proofs/CheckerRequests.lean ====
section
/-! The reduction checker: requests taken, and the end of a comparison. -/

namespace Sys2Proof.Machine

/-! ### The checker takes a request (R346) -/

theorem setAt_of_length_le {α : Type} {l : List α} {i : Nat} (h : l.length ≤ i) (x : α) : setAt l i x = l := by
  unfold setAt
  refine (List.map_congr_left fun p hp => if_neg ?_).trans (List.zipIdx_map_fst ..)
  have := List.snd_lt_of_mem_zipIdx hp
  omega

/-- The state with its first request taken, and the oldest one held let into the queue (R346). -/
def State.checkTaken (s : State) (w : LineWrite) (q : List LineWrite) : State :=
  let t := match q[255]? with | some v => s.lineIn v | none => s
  { t with chk := { t.chk with queue := setAt q 255 { nth w q 255 with held := false } } }

theorem State.checkNext_cons {s : State} {w : LineWrite} {q : List LineWrite} (hnone : s.chk.current = none) (hq : s.chk.queue = w :: q) :
    s.checkNext = some (w.line, s.checkTaken w q) := by
  unfold State.checkNext
  rw [hnone, hq]
  rfl

/-- A line let in writes a core's waits and nothing else. -/
theorem State.lineIn_only (s : State) (w : LineWrite) : { s.lineIn w with cores := s.cores } = s := by
  unfold State.lineIn
  repeat' split
  all_goals rfl

/-- What O40 says of every request taken: what it leaves, and the queue after it. -/
structure State.TakenLeaves (s : State) (q : List LineWrite) (t : State) : Prop where
  mem : t.mem = s.mem
  groups : t.groups = s.groups
  host : t.host = s.host
  lnk : t.lnk = s.lnk
  short : q.length ≤ 255 → t.cores = s.cores ∧ t.chk.queue = q
  long : ∀ v, q[255]? = some v → t.chk.queue = setAt q 255 { v with held := false }

theorem State.checkTaken_leaves (s : State) (w : LineWrite) (q : List LineWrite) : s.TakenLeaves q (s.checkTaken w q) := by
  unfold State.checkTaken
  by_cases h : q.length ≤ 255
  · have hnone : q[255]? = none := List.getElem?_eq_none h
    rw [hnone]
    refine ⟨rfl, rfl, rfl, rfl, fun _ => ⟨rfl, setAt_of_length_le h _⟩, fun v hv => ?_⟩
    rw [hnone] at hv
    exact absurd hv (by simp)
  · obtain ⟨v, hv⟩ : ∃ v, q[255]? = some v := ⟨_, List.getElem?_eq_getElem (Nat.lt_of_not_le h)⟩
    have honly := s.lineIn_only v
    have hm := congrArg State.mem honly
    have hg := congrArg State.groups honly
    have hh := congrArg State.host honly
    have hl := congrArg State.lnk honly
    rw [hv]
    refine ⟨hm, hg, hh, hl, fun hq => absurd hq h, fun x hx => ?_⟩
    rw [hv, Option.some.injEq] at hx
    simp [nth, hv, hx]

/-- What a request taken is said to leave. -/
def State.beside (s : State) := (s.mem, s.groups, s.host, s.lnk, s.cores, s.chk.queue)

theorem State.TakenLeaves.congr {s t u : State} {q : List LineWrite} (h : s.TakenLeaves q t) (hu : u.beside = t.beside) : s.TakenLeaves q u := by
  unfold State.beside at hu
  simp only [Prod.mk.injEq] at hu
  obtain ⟨hm, hg, hh, hl, hc, hq⟩ := hu
  exact ⟨hm.trans h.mem, hg.trans h.groups, hh.trans h.host, hl.trans h.lnk, fun hn => ⟨hc.trans (h.short hn).1, hq.trans (h.short hn).2⟩,
    fun v hv => hq.trans (h.long v hv)⟩

@[simp] theorem State.checkMark_beside (s : State) (k u p : Nat) : (s.checkMark k u p).beside = s.beside := by simp [State.checkMark, State.beside]

@[simp] theorem State.checkFault_beside (s : State) (st a b : Nat) : (s.checkFault st a b).beside = s.beside := State.checkMark_beside ..

@[simp] theorem State.reduceBad_beside (s : State) : s.reduceBad.beside = s.beside := rfl

@[simp] theorem State.checkMark_chk (s : State) (k u p : Nat) : (s.checkMark k u p).chk = s.chk := by simp [State.checkMark]

@[simp] theorem State.checkFault_chk (s : State) (st a b : Nat) : (s.checkFault st a b).chk = s.chk := State.checkMark_chk ..

theorem State.lineIn_chk (s : State) (w : LineWrite) : (s.lineIn w).chk = s.chk := by
  have h := congrArg State.chk (s.lineIn_only w)
  exact h

theorem State.lineIn_trace (s : State) (w : LineWrite) : (s.lineIn w).trace = s.trace := by
  have h := congrArg State.trace (s.lineIn_only w)
  exact h

/-- The checker's own record, but for its queue, stands as a request is taken, and so does the recorder. -/
theorem State.checkTaken_chk (s : State) (w : LineWrite) (q : List LineWrite) :
    (∃ l, (s.checkTaken w q).chk = { s.chk with queue := l }) ∧ (s.checkTaken w q).trace = s.trace := by
  unfold State.checkTaken
  dsimp only
  split
  · rw [State.lineIn_chk, State.lineIn_trace]
    exact ⟨⟨_, rfl⟩, rfl⟩
  · exact ⟨⟨_, rfl⟩, rfl⟩

section
variable {s : State} {w : LineWrite} {q : List LineWrite} (hnone : s.chk.current = none) (hq : s.chk.queue = w :: q)
include hnone hq

/-- A request whose line is gone is counted. -/
theorem State.checkTake_none (hw : w.line = none) (k : Nat) (f : Line → State → State) : s.checkTake k f = .next (s.checkTaken w q).reduceBad := by
  unfold State.checkTake
  rw [State.checkNext_cons hnone hq, hw]

/-- A request that R346 refuses is counted by the command of its kind, and by either where it has none. -/
theorem State.checkTake_bad {p : Line} (hw : w.line = some p) (hb : checkBad p = true) {k : Nat} (hk : cf p 0 62 2 = k ∨ 2 ≤ cf p 0 62 2) (f : Line → State → State) :
    s.checkTake k f = .next ((s.checkTaken w q).reduceBad.checkFault 0x82 0 (cf p 0 0 32)) := by
  unfold State.checkTake
  rw [State.checkNext_cons hnone hq, hw]
  dsimp only
  rw [if_pos hb, if_pos hk]

/-- A good request has its kind's effect. -/
theorem State.checkTake_good {p : Line} (hw : w.line = some p) (hb : checkBad p = false) {k : Nat} (hk : cf p 0 62 2 = k) (f : Line → State → State) :
    s.checkTake k f = .next (f p (s.checkTaken w q)) := by
  unfold State.checkTake
  rw [State.checkNext_cons hnone hq, hw]
  dsimp only
  rw [if_neg (by simp [hb]), if_pos hk]

end

/-! ### The comparison's end (R348) -/

theorem State.mcRead.run {s : State} {m : McRun} (h : s.mcRead m.st) (va n : Nat) : s.mcRead (m.run va n).st := by
  refine List.foldlRecOn (motive := fun x : McRun => s.mcRead x.st) _ _ h fun x ⟨hport, hcores⟩ p _ => ?_
  rcases x.piece_st p.1 p.2 with hx | ⟨a, hx⟩
  · rw [hx]
    exact ⟨hport, hcores⟩
  · rw [hx]
    exact ⟨hport.trans (x.st.portOnly_hostLine ..), (x.st.hostLine_cores ..).trans hcores⟩

theorem differing_length_ne_zero (ws : List (PWord × PWord)) : (ws.filter (fun q => q.1.1 != q.2.1)).length ≠ 0 ↔ ws.any (fun q => q.1.1 != q.2.1) = true := by
  rw [← Nat.pos_iff_ne_zero, List.length_pos_iff_exists_mem, List.any_eq_true]
  simp only [List.mem_filter]

/-- The checker's record after a COMPARE's end: a range that cannot be read, poison, a difference, or none (R348, R349). -/
def Checker.outcome (c : Checker) (fault poison differ leg : Bool) : Checker :=
  if fault then { c with current := none, bad := sat 32 (c.bad + 1) }
  else if poison then { c with current := none, poisoned := sat 32 (c.poisoned + 1), blocked := c.blocked || (c.halt && leg) }
  else if differ then { c with current := none, mismatches := sat 32 (c.mismatches + 1), blocked := c.blocked || (c.halt && leg) }
  else { c with current := none, compares := sat 32 (c.compares + 1) }

/-- What a COMPARE's end concerns. -/
def State.checkPart (s : State) := (s.cores, s.mem, s.groups, s.chk)

@[simp] theorem State.checkMark_checkPart (s : State) (k u p : Nat) : (s.checkMark k u p).checkPart = s.checkPart := by simp [State.checkMark, State.checkPart]

@[simp] theorem State.checkFault_checkPart (s : State) (st a b : Nat) : (s.checkFault st a b).checkPart = s.checkPart := State.checkMark_checkPart ..

theorem State.mcRead.checkPart {s t : State} (h : s.mcRead t) : t.checkPart = s.checkPart := by
  obtain ⟨hport, hcores⟩ := h
  have hm := hport.same State.mem
  have hg := hport.same State.groups
  have hk := hport.same State.chk
  unfold State.checkPart
  rw [hcores, show t.mem = s.mem from hm, show t.groups = s.groups from hg, show t.chk = s.chk from hk]

theorem exec_compareDone {s : State} {p : Line} (hp : s.chk.current = some p) {a b : McRun}
    (ha : a = (McRun.start s (s.hostAnswers (2 * cf p 8 45 19 + 4))).run (cf p 8 0 43) (64 * cf p 8 45 19)) (hb : b = a.run (cf p 0x10 0 43) (64 * cf p 8 45 19)) :
    let ws := (wordsOf a.bytes).zip (wordsOf b.bytes)
    ∃ t, exec .compareDone s = .next t ∧ t.cores = s.cores ∧ t.mem = s.mem ∧ t.groups = s.groups
      ∧ t.chk = s.chk.outcome b.fault.isSome (ws.any (fun q => q.1.2 || q.2.2)) (ws.any (fun q => q.1.1 != q.2.1)) s.legOn := by
  subst ha hb
  intro ws
  show ∃ t, execCompareDone s = .next t ∧ _
  unfold execCompareDone
  rw [hp]
  dsimp -zeta only
  extract_lets +onlyGivenNames n chunk ra rb st0 u chk0 c ws' diff poison hold
  have hpart : u.checkPart = s.checkPart := ((s.mcRead_run _ _ _).run _ _).checkPart
  unfold State.checkPart at hpart
  simp only [Prod.mk.injEq] at hpart
  obtain ⟨hc, hm, hg, hk⟩ := hpart
  have hck : c = { s.chk with current := none } := congrArg (fun x : Checker => { x with current := none }) hk
  have hhold : hold = (s.chk.blocked || (s.chk.halt && s.legOn)) := by
    unfold hold
    rw [hck, State.legOn, hg, State.legOn]
  have hdiff : diff ≠ 0 ↔ ws.any (fun q => q.1.1 != q.2.1) = true := differing_length_ne_zero ws'
  change ∃ t : State, _ ∧ _ ∧ _ ∧ _ ∧ t.chk = s.chk.outcome rb.fault.isSome poison (ws.any (fun q => q.1.1 != q.2.1)) s.legOn
  clear_value u c hold diff poison
  subst hck hhold
  have hleft (v : State) (x : Checker) (hv : v.checkPart = ({ u with chk := x } : State).checkPart) :
      v.cores = s.cores ∧ v.mem = s.mem ∧ v.groups = s.groups ∧ v.chk = x := by
    unfold State.checkPart at hv
    simp only [Prod.mk.injEq] at hv
    obtain ⟨h1, h2, h3, h4⟩ := hv
    exact ⟨h1.trans hc, h2.trans hm, h3.trans hg, h4⟩
  unfold Checker.outcome
  split
  · exact ⟨_, rfl, hleft _ _ (State.checkFault_checkPart ..)⟩
  · split
    · exact ⟨_, rfl, hleft _ _ (State.checkFault_checkPart ..)⟩
    · simp only [← hdiff]
      split
      · exact ⟨_, rfl, hleft _ _ (State.checkFault_checkPart ..)⟩
      · exact ⟨_, rfl, hleft _ _ (State.checkMark_checkPart ..)⟩

end Sys2Proof.Machine

open Sys2Proof Sys2Proof.Machine

/-- Settles O40: a request taken by its three kinds of line; a comparison's end by its outcome. -/
theorem checkerCommands : Obligations.CheckerCommands := by
  refine ⟨fun s w q hnone hq => ?_, fun s p hp => ?_⟩
  · intro same
    have hleaves := s.checkTaken_leaves w q
    obtain ⟨⟨l, hchk⟩, htrace⟩ := s.checkTaken_chk w q
    have hsame (t : State) (h : t.beside = (s.checkTaken w q).beside) : same t := by
      have ht := hleaves.congr h
      exact ⟨ht.mem, ht.groups, ht.host, ht.lnk, ht.short, ht.long⟩
    refine ⟨fun p hw hb hk => ?_, fun p hw hb hk => ?_, fun i hi hw => ?_, fun i k p hi hw hb hk => ?_⟩
    · refine ⟨_, State.checkTake_good hnone hq hw hb hk _, hsame _ (State.checkMark_beside ..), ?_⟩
      rw [State.checkMark_chk, hchk]
      exact ⟨sat_eq_min .., hnone⟩
    · exact ⟨_, State.checkTake_good hnone hq hw hb hk _, hsame _ rfl, htrace, rfl⟩
    · have hend : same (s.checkTaken w q).reduceBad ∧ (s.checkTaken w q).reduceBad.chk.bad = min (2 ^ 32 - 1) (s.chk.bad + 1) := by
        refine ⟨hsame _ (State.reduceBad_beside _), ?_⟩
        rw [State.reduceBad, hchk]
        exact sat_eq_min ..
      simp only [List.mem_cons, List.not_mem_nil, or_false] at hi
      rcases hi with rfl | rfl
      · exact ⟨_, State.checkTake_none hnone hq hw 0 _, hend⟩
      · exact ⟨_, State.checkTake_none hnone hq hw 1 _, hend⟩
    · have hend : same ((s.checkTaken w q).reduceBad.checkFault 0x82 0 (cf p 0 0 32))
          ∧ ((s.checkTaken w q).reduceBad.checkFault 0x82 0 (cf p 0 0 32)).chk.bad = min (2 ^ 32 - 1) (s.chk.bad + 1)
          ∧ ((s.checkTaken w q).reduceBad.checkFault 0x82 0 (cf p 0 0 32)).chk.current = none := by
        refine ⟨hsame _ (State.checkFault_beside ..), ?_⟩
        rw [State.checkFault_chk, State.reduceBad, hchk]
        exact ⟨sat_eq_min .., hnone⟩
      simp only [List.mem_cons, List.not_mem_nil, or_false, Prod.mk.injEq] at hi
      rcases hi with ⟨rfl, rfl⟩ | ⟨rfl, rfl⟩
      · exact ⟨_, State.checkTake_bad hnone hq hw hb hk _, hend⟩
      · exact ⟨_, State.checkTake_bad hnone hq hw hb hk _, hend⟩
  · intro ra rb ws poison differ ended
    obtain ⟨t, ht, hc, hm, hg, hk⟩ := exec_compareDone hp (a := ra) (b := rb) rfl rfl
    change t.chk = s.chk.outcome rb.fault.isSome poison differ s.legOn at hk
    unfold Checker.outcome at hk
    refine ⟨fun hf => ?_, fun hf => ?_⟩
    · rw [if_pos (Option.isSome_iff_ne_none.2 hf)] at hk
      refine ⟨t, ht, ⟨hc, hm, hg, ?_⟩, ?_⟩
      · rw [hk]
        exact ⟨rfl, rfl⟩
      · rw [hk]
        exact sat_eq_min ..
    · rw [if_neg (by simp [hf])] at hk
      refine ⟨t, ht, ?_⟩
      unfold ended
      rw [hk]
      clear_value poison differ
      cases poison with
      | true => exact ⟨⟨hc, hm, hg, rfl, rfl⟩, rfl, rfl, sat_eq_min .., fun hh hl _ => by simp [hh, hl]⟩
      | false => cases differ with
        | true => exact ⟨⟨hc, hm, hg, rfl, rfl⟩, rfl, sat_eq_min .., rfl, fun hh hl _ => by simp [hh, hl]⟩
        | false => exact ⟨⟨hc, hm, hg, rfl, rfl⟩, sat_eq_min .., rfl, rfl, fun _ _ h => absurd h Bool.false_ne_true⟩
end

