-- ==== Sys2Proof/Proofs/LinkStates.lean ====
section
/-! The states of a link. -/

namespace Sys2Proof.Machine

/-! ### What sending leaves of the floor plan -/

@[simp] theorem State.xferFault_plan (s : State) (u st : Nat) (d : W16) (n : Nat) : (s.xferFault u st d n).plan = s.plan := State.faultMark_plan ..

@[simp] theorem State.xferEnd_plan (s : State) (x : Xfer) (ok : Bool) : (s.xferEnd x ok).plan = s.plan :=
  State.xferEnd_keeps State.plan (fun _ _ => rfl) (fun _ _ _ => rfl) s x ok

theorem State.offer_plan {s t : State} {d : Nat} {b : Bool} {f : TxFlit} (h : s.offer d b f = some t) : t.plan = s.plan := by
  have hlinks : { t with lnk := s.lnk, outbox := s.outbox } = s := State.offer_only s t d b f h
  have hplan := congrArg State.plan hlinks
  exact hplan

@[simp] theorem State.sendDone_plan (s : State) (d : W16) (tag st : Nat) : (s.sendDone d tag st).plan = s.plan := by
  unfold State.sendDone
  dsimp only
  split
  · rfl
  · split
    · exact State.offer_plan (by assumption)
    · exact State.xferFault_plan ..

@[simp] theorem State.routeFault_plan (s : State) (f : TxFlit) : (s.routeFault f).plan = s.plan := by
  unfold State.routeFault
  dsimp only
  repeat' split
  · rfl
  · exact (State.xferEnd_plan ..).trans (State.xferFault_plan ..)
  · exact (State.sendDone_plan ..).trans (State.xferFault_plan ..)
  · exact State.xferFault_plan ..

@[simp] theorem State.resend_plan (s : State) (d : Nat) (fs : List TxFlit) : (s.resend d fs).plan = s.plan := by
  refine State.foldl_keeps State.plan _ (fun t f => ?_) _ _
  split
  · exact State.offer_plan (by assumption)
  · exact State.routeFault_plan ..

/-! ### A link's entry in the floor plan -/

/-- The floor plan's entry of a link. -/
def State.linkEntry (s : State) (l : Nat) : LinkEntry := mget {} s.plan.links l

theorem State.planChange_links (s : State) (f : Plan → Plan) : (s.planChange f).plan.links = (f s.plan).links := by
  unfold State.planChange
  split
  · unfold State.measChanged
    rw [State.mark_plan]
    rfl
  · rfl

theorem State.linkUse_entry (s : State) (l : Nat) (f : LinkEntry → LinkEntry) : (s.linkUse l f).linkEntry l = f (s.linkEntry l) := by
  have hplan (t : State) (k ca g u p : Nat) : (t.free64.2.mark k ca g u p).plan = t.plan := State.mark_plan ..
  unfold State.linkUse State.linkEntry
  dsimp only
  split
  · rw [hplan, State.planChange_links, mget_mset_self]
  · rw [State.planChange_links, mget_mset_self]

theorem State.planChange_lnk (s : State) (f : Plan → Plan) : (s.planChange f).lnk = s.lnk := by
  unfold State.planChange
  split
  · exact State.mark_lnk ..
  · rfl

theorem State.linkUse_lnk (s : State) (l : Nat) (f : LinkEntry → LinkEntry) : (s.linkUse l f).lnk = s.lnk := by
  unfold State.linkUse
  dsimp only
  split
  · rw [State.mark_lnk]
    exact s.planChange_lnk _
  · exact s.planChange_lnk _

/-- A link that leaves UP, or goes there, changes its entry as asked. -/
theorem State.linkLeave_entry {s : State} {l : Nat} (h : (s.link l).st = .up) (st : LState) (f : LinkEntry → LinkEntry) :
    (s.linkLeave l st f).linkEntry l = f (s.linkEntry l) := by
  unfold State.linkLeave
  extract_lets +onlyGivenNames k s1 s2
  have h2 : s2 = s1.linkUse l f := if_pos (.inl h)
  rw [h2]
  split
  · unfold State.linkEntry
    rw [State.resend_plan]
    exact State.linkUse_entry ..
  · exact State.linkUse_entry ..

/-! ### What a link's state leaves of the rest -/

/-- What O37 says stands as a link changes its state with nothing sent. -/
def State.unlinked (s : State) := (s.cores, s.mem, s.groups, s.host)

@[simp] theorem State.mark_unlinked (s : State) (k ca g u p : Nat) : (s.mark k ca g u p).unlinked = s.unlinked := by simp [State.unlinked]

@[simp] theorem State.faultMark_unlinked (s : State) (u st r : Nat) : (s.faultMark u st r).unlinked = s.unlinked := by simp [State.unlinked]

@[simp] theorem State.linkUse_unlinked (s : State) (l : Nat) (f : LinkEntry → LinkEntry) : (s.linkUse l f).unlinked = s.unlinked := by
  have hplan (g : Plan → Plan) : (s.planChange g).unlinked = s.unlinked := by
    unfold State.planChange
    split
    · exact State.mark_unlinked ..
    · rfl
  unfold State.linkUse
  dsimp only
  split
  · rw [State.mark_unlinked]
    exact hplan _
  · exact hplan _

/-- A link that leaves its state for another leaves groups, memory and the host's side. -/
theorem State.linkLeave_beside (s : State) (l : Nat) (st : LState) (f : LinkEntry → LinkEntry) :
    (s.linkLeave l st f).mem = s.mem ∧ (s.linkLeave l st f).groups = s.groups ∧ (s.linkLeave l st f).host = s.host :=
  ⟨congrArg (·.2.1) (s.linkLeave_ground l st f), s.linkLeave_groups l st f, congrArg (·.1) (s.linkLeave_apart l st f)⟩

/-! ### Training and sparing (R316 to R318) -/

/-- The lanes of a link that are bad after a try: those found and those of fuses and test. -/
def badOf (lanes : BitVec 5) : List Nat := (List.range 5).filter (fun i => lanes.toNat.testBit i)

/-- The record of a link just trained, before its direction is assigned. -/
def Link.trained (k : Link) (id : LinkIdent) : Link :=
  { k with
    st := .up, partner := id.coord, partnerLink := id.link.val, digest := id.digest, delay := id.delay
    trainings := sat 16 (k.trainings + 1), tries := 0, dir := 7, cabling := false, credit := (List.range 4).map Config.creditStart
    txSeq := 0, rxSeq := 0, sinceAck := 0, oldestGood := none, sameNaks := 0 }

theorem State.linkRecord_spec (s : State) (l : Nat) (id : LinkIdent) (first : Bool) :
    (s.linkRecord l id first).unlinked = s.unlinked ∧ (s.linkRecord l id first).lnk = s.lnk := by
  unfold State.linkRecord
  dsimp only
  repeat' split
  all_goals exact ⟨rfl, rfl⟩

/-- The direction of a link that had none is assigned: its record changes in the direction and the cabling fault alone. -/
theorem State.assignDir_of_none {s : State} {l : Nat} (h : (s.link l).dir = 7) :
    (∃ d c, (s.assignDir l).link l = { s.link l with dir := d, cabling := c }) ∧ (s.assignDir l).unlinked = s.unlinked ∧ (s.assignDir l).plan = s.plan := by
  unfold State.assignDir
  extract_lets +onlyGivenNames k both d lost s1 s2
  have hlost : lost = false := by simp [lost, k, h]
  have h1 : s1.link l = { s.link l with dir := d, cabling := both && d == 7 } := by
    unfold s1
    rw [State.link_updLink_self]
    simp [hlost]
  have h2 : s2.lnk = s1.lnk ∧ s2.unlinked = s1.unlinked ∧ s2.plan = s1.plan := by
    unfold s2
    split
    · exact ⟨State.faultMark_lnk .., State.faultMark_unlinked .., State.faultMark_plan ..⟩
    · exact ⟨rfl, rfl, rfl⟩
  obtain ⟨hl, hu, hp⟩ := h2
  clear_value lost s2
  rw [hlost]
  have hlink : s2.link l = s1.link l := by rw [State.link, hl, State.link]
  exact ⟨⟨d, _, hlink.trans h1⟩, hu, hp⟩

section
variable {s : State} {l : LinkIx} {id : LinkIdent} (h : (s.link l.val).st = .training) (hj : s.dieJoined l.val = true)
include h hj

theorem exec_linkTrained_good (hb : (badOf (id.badLanes ||| (s.linkEntry l.val).testBad)).length < 2) :
    ∃ t d c, exec (.linkTrained l id) s = .next t ∧ t.link l.val = { (s.link l.val).trained id with dir := d, cabling := c }
      ∧ (t.linkEntry l.val).usable = true ∧ t.unlinked = s.unlinked := by
  show ∃ t d c, execLinkTrained l id s = .next t ∧ _
  unfold execLinkTrained
  extract_lets +onlyGivenNames k lanes bad spare s1
  have hbad : bad.length < 2 := hb
  rw [if_neg (by simp [k, h, hj]), if_neg (Nat.not_le.2 hbad)]
  obtain ⟨hru, hrl⟩ := s1.linkRecord_spec l.val id (k.trainings == 0)
  have hlink : s1.link l.val = (s.link l.val).trained id := State.link_updLink_self ..
  have h1 : s1.unlinked = s.unlinked := rfl
  clear_value s1 spare lanes
  have hul := State.linkUse_lnk (s1.linkRecord l.val id (k.trainings == 0)) l.val (fun e => { e with usable := true, spareFor := spare, badLanes := lanes })
  have huu := State.linkUse_unlinked (s1.linkRecord l.val id (k.trainings == 0)) l.val (fun e => { e with usable := true, spareFor := spare, badLanes := lanes })
  have hue := State.linkUse_entry (s1.linkRecord l.val id (k.trainings == 0)) l.val (fun e => { e with usable := true, spareFor := spare, badLanes := lanes })
  generalize (s1.linkRecord l.val id (k.trainings == 0)).linkUse l.val (fun e => { e with usable := true, spareFor := spare, badLanes := lanes }) = u at *
  have hu : u.link l.val = (s.link l.val).trained id := by
    rw [State.link, hul, hrl]
    exact hlink
  obtain ⟨⟨d, c, hd⟩, hau, hap⟩ := State.assignDir_of_none (s := u) (l := l.val) (by rw [hu]; rfl)
  refine ⟨_, d, c, rfl, by rw [hd, hu], ?_, by rw [hau, huu, hru, h1]⟩
  rw [State.linkEntry, hap, ← State.linkEntry, hue]

theorem exec_linkTrained_bad (hb : 2 ≤ (badOf (id.badLanes ||| (s.linkEntry l.val).testBad)).length) :
    ∃ t, exec (.linkTrained l id) s = .next t ∧ (t.link l.val).st = .failed ∧ (t.linkEntry l.val).usable = false ∧ t.unlinked = s.unlinked := by
  show ∃ t, execLinkTrained l id s = .next t ∧ _
  unfold execLinkTrained
  extract_lets +onlyGivenNames k lanes bad spare s1
  have hbad : 2 ≤ bad.length := hb
  rw [if_neg (by simp [k, h, hj]), if_pos hbad]
  refine ⟨_, rfl, ?_, ?_, State.linkUse_unlinked ..⟩
  · rw [State.link, State.linkUse_lnk, ← State.link, State.link_updLink_self]
  · rw [State.linkUse_entry]

end

/-- A lane that fails while the spare is free and good: the spare takes its place (R316, R318). -/
theorem exec_laneRetire_spared {s : State} {l : LinkIx} {lane : Fin 5} (h : (s.link l.val).st = .up) (hs : (s.linkEntry l.val).spareFor = 7) (hl : lane.val ≠ 4)
    (hb : (s.linkEntry l.val).badLanes.toNat.testBit 4 = false) :
    ∃ t, exec (.laneRetire l lane) s = .next t ∧ (t.link l.val).st = .sparing ∧ (t.link l.val).sparings = sat 16 ((s.link l.val).sparings + 1)
      ∧ (t.linkEntry l.val).spareFor = lane.val ∧ t.mem = s.mem ∧ t.host = s.host := by
  show ∃ t, execLaneRetire l lane s = .next t ∧ _
  unfold execLaneRetire
  extract_lets +onlyGivenNames k e inUse s1 bad
  have hspare : e.spareFor = 7 := hs
  have hgood : e.badLanes.toNat.testBit 4 = false := hb
  have huse : inUse = true := by
    unfold inUse
    rw [if_pos hspare]
    simpa using hl
  rw [if_neg (by simp [k, h, huse]), if_pos ⟨hspare, by simp [hgood]⟩]
  have h1 : (s1.link l.val).st = .up := by
    unfold s1
    rw [State.link_updLink_self]
    exact h
  obtain ⟨hm, -, hh⟩ := s1.linkLeave_beside l.val .sparing (fun e => { e with usable := false, spareFor := lane.val, badLanes := bad })
  refine ⟨_, rfl, State.linkLeave_st_self .., ?_, ?_, hm, hh⟩
  · have hp := congrArg Link.sparings (congrFun (s1.linkLeave_ports l.val .sparing (fun e => { e with usable := false, spareFor := lane.val, badLanes := bad })) l.val)
    unfold State.ports at hp
    rw [State.link_updLink_self] at hp
    refine hp.trans ?_
    unfold s1
    rw [State.link_updLink_self]
    rfl
  · rw [State.linkLeave_entry h1]

/-- A lane that fails with the spare in use, or bad itself: the link FAILED (R318, R319). -/
theorem exec_laneRetire_failed {s : State} {l : LinkIx} {lane : Fin 5} (h : (s.link l.val).st = .up)
    (hs : ((s.linkEntry l.val).spareFor ≠ 7 ∧ lane.val ≠ (s.linkEntry l.val).spareFor)
      ∨ ((s.linkEntry l.val).spareFor = 7 ∧ lane.val ≠ 4 ∧ (s.linkEntry l.val).badLanes.toNat.testBit 4 = true)) :
    ∃ t, exec (.laneRetire l lane) s = .next t ∧ (t.link l.val).st = .failed ∧ (t.linkEntry l.val).usable = false ∧ t.mem = s.mem ∧ t.host = s.host := by
  show ∃ t, execLaneRetire l lane s = .next t ∧ _
  unfold execLaneRetire
  extract_lets +onlyGivenNames k e inUse s1 bad
  have huse : inUse = true ∧ ¬ (e.spareFor = 7 ∧ (!e.badLanes.toNat.testBit 4) = true) := by
    have he : (e.spareFor ≠ 7 ∧ lane.val ≠ e.spareFor) ∨ (e.spareFor = 7 ∧ lane.val ≠ 4 ∧ e.badLanes.toNat.testBit 4 = true) := hs
    unfold inUse
    rcases he with ⟨h7, hl⟩ | ⟨h7, hl, hb⟩
    · rw [if_neg h7]
      exact ⟨by simpa using hl, fun x => h7 x.1⟩
    · rw [if_pos h7]
      exact ⟨by simpa using hl, fun x => by simp [hb] at x⟩
  have h1 : (s1.link l.val).st = .up := by
    unfold s1
    rw [State.link_updLink_self]
    exact h
  rw [if_neg (by simp [k, h, huse.1]), if_neg huse.2]
  obtain ⟨hm, -, hh⟩ := s1.linkLeave_beside l.val .failed (fun e => { e with usable := false, badLanes := bad })
  refine ⟨_, rfl, State.linkLeave_st_self .., ?_, hm, hh⟩
  rw [State.linkLeave_entry h1]

theorem exec_halt {s : State} {l : LinkIx} {b : Block} (hk : (s.link l.val).st = .up ∨ (s.link l.val).st = .sparing) (hj : s.dieJoined l.val = true)
    (hgood : blockGood b = true) (hkind : (syncOf b).kind = 6) :
    ∃ t, exec (.halt l b) s = .next t ∧ (t.link l.val).st = .halted ∧ t.mem = s.mem ∧ t.host = s.host := by
  show ∃ t, execHalt l b s = .next t ∧ _
  unfold execHalt
  extract_lets +onlyGivenNames k x ours
  rw [if_neg (by simp [hgood])]
  refine ⟨_, happen_holds ?_, State.linkLeave_st_self .., ?_, ?_⟩
  · rw [show x.kind = 6 from hkind, show ours = true from ?_]
    · rfl
    · unfold ours
      rw [hj]
      rcases hk with hk | hk
      · rw [show k.st = .up from hk]
        rfl
      · rw [show k.st = .sparing from hk]
        rfl
  · rw [(State.linkLeave_beside ..).1]
    exact State.captureIn_mem ..
  · rw [(State.linkLeave_beside ..).2.2]
    exact State.captureIn_host ..

end Sys2Proof.Machine

open Sys2Proof Sys2Proof.Machine

/-- Settles O37: each state's change by the command that makes it. -/
theorem linkStates : Obligations.LinkStates := by
  intro s l k e same
  have hsame (t : State) (h : t.unlinked = s.unlinked) : same t := by
    unfold State.unlinked at h
    simpa [same] using h
  refine ⟨fun hd hf => ?_, fun hk hen htr hgood => ?_, fun id hk hj hb => ?_, fun id hk hj hb => ?_, fun hk => ?_, fun lane hk hs hl hb => ?_, fun lane hk hs => ?_, fun hk hj => ?_,
    fun b hk hj hgood hkind => ?_⟩
  · obtain ⟨hm, hg, hh⟩ := s.linkLeave_beside l.val .down unusable
    exact ⟨_, happen_holds (by simpa using ⟨hd, hf⟩), s.linkLeave_st_self .., hm, hg, hh⟩
  · refine ⟨_, happen_holds ?_, ?_, ?_, hsame _ rfl⟩
    · rw [hen, htr, hgood, show (s.link l.val).st = .down from hk]
      rfl
    · rw [State.link_updLink_self]
    · rw [State.link_updLink_self]
  · obtain ⟨t, d, c, ht, hlink, hu, hs⟩ := exec_linkTrained_good (id := id) hk hj hb
    refine ⟨t, ht, ?_⟩
    rw [hlink]
    exact ⟨rfl, rfl, rfl, rfl, rfl, rfl, rfl, Nat.min_comm .., hu, hsame t hs⟩
  · obtain ⟨t, ht, hst, hu, hs⟩ := exec_linkTrained_bad (id := id) hk hj hb
    exact ⟨t, ht, hst, hu, hsame t hs⟩
  · refine ⟨_, happen_holds (by simp [show (s.link l.val).st = .training from hk]), ?_, ?_, hsame _ rfl⟩
    · rw [State.link_updLink_self]
      exact if_congr Nat.succ_le_succ_iff rfl rfl
    · rw [State.link_updLink_self]
  · obtain ⟨t, ht, hst, hn, he, hm, hh⟩ := exec_laneRetire_spared hk hs hl hb
    exact ⟨t, ht, hst, hn.trans (Nat.min_comm ..), he, hm, hh⟩
  · exact exec_laneRetire_failed hk hs
  · refine ⟨_, happen_holds ?_, ?_, ?_, hsame _ (State.linkUse_unlinked ..)⟩
    · rw [hj, show (s.link l.val).st = .sparing from hk]
      rfl
    · rw [State.link, State.linkUse_lnk, ← State.link, State.link_updLink_self]
    · exact congrArg LinkEntry.usable (State.linkUse_entry ..)
  · exact exec_halt hk hj hgood hkind
end

