-- ==== Sys2Proof/Proofs/SpdmSideband.lean ====
section
/-! The SPDM responder and the sideband target. -/

namespace Sys2Proof.Machine

/-! ### Answers of the SPDM responder and of the sideband target -/

/-- An output that a replay passes and that is no request to the host is the last of the outbox. -/
theorem State.emit_passing (s : State) {o : Output} (hp : o.passes = true) (hh : o.toHost = false) : s.emit o = { s with outbox := s.outbox ++ [o] } := by
  unfold State.emit
  rw [hp, hh]
  simp

theorem State.respond_eq (s : State) (n : String) (d : List Byte) : s.respond n d = { s with outbox := s.outbox ++ [Output.spdm n d] } := s.emit_passing rfl rfl

theorem State.sbAnswer_eq (s : State) (d : List Byte) : s.sbAnswer d = { s with outbox := s.outbox ++ [.sideband d] } := s.emit_passing rfl rfl

/-- Nothing but the responder's state and the outputs differ. -/
def State.SpdmOnly (s t : State) : Prop := { t with spdm := s.spdm, outbox := s.outbox } = s

/-- A response leaves the responder's state and all else, and is sent. -/
theorem State.respond_only (s : State) (n : String) (d : List Byte) :
    s.SpdmOnly (s.respond n d) ∧ (s.respond n d).spdm = s.spdm ∧ (s.respond n d).outbox = s.outbox ++ [Output.spdm n d] := by
  rw [State.respond_eq]
  exact ⟨rfl, rfl, rfl⟩

/-- The responder's state changed, and a response sent. -/
theorem State.respond_with (s : State) (p : Spdm) (n : String) (d : List Byte) : s.SpdmOnly (({ s with spdm := p } : State).respond n d)
    ∧ (({ s with spdm := p } : State).respond n d).spdm = p ∧ (({ s with spdm := p } : State).respond n d).outbox = s.outbox ++ [Output.spdm n d] := by
  rw [State.respond_eq]
  exact ⟨rfl, rfl, rfl⟩

theorem State.spdmError_only (s : State) : s.SpdmOnly s.spdmError ∧ s.spdmError.spdm = s.spdm :=
  ⟨(s.respond_only _ _).1, (s.respond_only _ _).2.1⟩

theorem State.spdmAsk_taken {s : State} (hon : s.spdmOn = true) (halgs : s.spdm.algs = true) {ok : Bool} (hok : ok = true) (t : State) : s.spdmAsk ok t = .next t := by
  unfold State.spdmAsk
  rw [hon, halgs, hok]
  rfl

theorem State.spdmAsk_early {s : State} (hon : s.spdmOn = true) (halgs : s.spdm.algs = false) (ok : Bool) (t : State) : s.spdmAsk ok t = .next s.spdmError := by
  unfold State.spdmAsk
  rw [hon, halgs]
  rfl

theorem State.measBlocks_one (s : State) {ix : Nat} (h1 : 1 ≤ ix) (h7 : ix ≤ 7) : s.measBlocks ix = [(ix, s.measValue ix)] := by
  unfold State.measBlocks
  rw [if_neg (by omega), if_pos ⟨h1, h7⟩]

theorem length_signature (m : List Byte) : (signature m).length = 17088 := by
  unfold signature
  dsimp only
  rw [List.length_map, List.length_range]

theorem le_length_response (j : SignJob) : 17088 ≤ j.response.2.length := by
  cases j <;> exact (length_signature _).symm.le.trans (List.length_append ▸ Nat.le_add_left ..)

section
variable {s : State} (hon : s.spdmOn = true)
include hon

/-- What needs a negotiated connection, with no other condition, is an error before it. -/
theorem exec_early (halgs : s.spdm.algs = false) {j : Instr} (hj : j ∈ [Instr.getDigests, .spdmSignDone, .endSession]) (hsign : j = .spdmSignDone → s.spdm.signing = none) :
    ∃ t, exec j s = .next t ∧ s.SpdmOnly t ∧ t.spdm = s.spdm := by
  simp only [List.mem_cons, List.not_mem_nil, or_false] at hj
  rcases hj with rfl | rfl | rfl
  · exact ⟨_, State.spdmAsk_early hon halgs _ _, s.spdmError_only⟩
  · refine ⟨s, ?_, rfl, rfl⟩
    show execSpdmSignDone s = _
    unfold execSpdmSignDone
    rw [hsign rfl]
  · exact ⟨_, State.spdmAsk_early hon halgs _ _, s.spdmError_only⟩

/-- Digests, certificates and unsigned measurements are returned at once (R471, R474). -/
theorem exec_getMeasurements_unsigned (halgs : s.spdm.algs = true) {ix : Nat} (h : ix ≤ 7) (n : Block) :
    exec (.getMeasurements ix false n) s = .next (s.respond "MEASUREMENTS" (if ix = 0 then [7] else measBytes (s.measBlocks ix))) :=
  State.spdmAsk_taken hon halgs (by simp [h]) _

theorem exec_getMeasurements_signed (halgs : s.spdm.algs = true) (hsign : s.spdm.signing = none) {ix : Nat} (h : ix ≤ 7) (n : Block) :
    exec (.getMeasurements ix true n) s = .next (s.sign (.measurements n (s.measBlocks ix))) :=
  State.spdmAsk_taken hon halgs (by simp [h, hsign]) _

theorem exec_spdmSignDone {j : SignJob} {x : Nat} (h : s.spdm.signing = some (j, x)) :
    exec .spdmSignDone s = .next (({ s with spdm := { s.spdm with signing := none } } : State).respond j.response.1 j.response.2) := by
  show execSpdmSignDone s = _
  unfold execSpdmSignDone
  rw [h]
  exact happen_holds hon

end

end Sys2Proof.Machine

open Sys2Proof Sys2Proof.Machine

/-- Settles O59: each request by its answer, with the connection's state; each sideband command by the target's address. -/
theorem spdmResponderAndSideband : Obligations.SpdmResponderAndSideband := by
  refine ⟨fun s hon => ?_, fun s a st off n hon => ?_⟩
  · refine ⟨⟨_, happen_holds hon, s.respond_with { version := true } _ _⟩, fun hv => ⟨_, (happen_holds hon).trans (by rw [if_pos hv]), s.respond_with _ _ _⟩,
      fun hc => ⟨_, (happen_holds hon).trans (by rw [if_pos hc]), s.respond_with _ _ _⟩, fun halgs j hj hsign => exec_early hon halgs hj hsign, fun halgs => ?_, fun j x hj => ?_⟩
    · refine ⟨⟨_, State.spdmAsk_taken hon halgs rfl _, s.respond_only _ _⟩, fun off len hoff => ⟨_, State.spdmAsk_taken hon halgs (by simpa using hoff) _, s.respond_only _ _⟩,
        fun ix n h1 h7 => ?_, fun n => ?_, fun hsign => ⟨fun n => ?_, fun ix n h1 h7 => ?_, fun e => ?_, fun m hs hm => ?_⟩, fun hs => ?_⟩
      · refine ⟨_, exec_getMeasurements_unsigned hon halgs h7 n, ?_⟩
        rw [if_neg (by omega), s.measBlocks_one h1 h7]
        simp only [measBytes, List.flatMap_cons, List.flatMap_nil, List.append_nil]
        exact s.respond_only _ _
      · obtain ⟨ho, -, hsent⟩ := s.respond_only "MEASUREMENTS" [7]
        exact ⟨_, exec_getMeasurements_unsigned hon halgs (Nat.zero_le 7) n, ho, hsent⟩
      · exact ⟨_, State.spdmAsk_taken hon halgs (by simp [hsign]) _, rfl, rfl, rfl⟩
      · refine ⟨_, exec_getMeasurements_signed hon halgs hsign h7 n, rfl, rfl, ?_⟩
        rw [s.measBlocks_one h1 h7]
        rfl
      · exact ⟨_, State.spdmAsk_taken hon halgs (by simp [hsign]) _, rfl, rfl, rfl, rfl⟩
      · obtain ⟨ho, hp, -⟩ := s.respond_with { s.spdm with session := 2 } "FINISH_RSP" (Config.spdmBytes 0x65 [])
        exact ⟨_, State.spdmAsk_taken hon halgs (by simp [hs, hsign, hm]) _, ho, hp⟩
      · obtain ⟨ho, hp, -⟩ := s.respond_with { s.spdm with session := 0 } "END_SESSION_ACK" (Config.spdmBytes 0x6C [])
        exact ⟨_, State.spdmAsk_taken hon halgs (by simp [hs]) _, ho, hp⟩
    · obtain ⟨ho, hp, hsent⟩ := s.respond_with { s.spdm with signing := none } j.response.1 j.response.2
      exact ⟨_, _, exec_spdmSignDone hon hj, ho, hp, hsent, le_length_response j⟩
  · refine ⟨fun hd => ⟨_, happen_holds (by simp [hon, hd]), ?_⟩, fun hd hst => happen_holds ?_, fun h => ?_, happen_holds hon, fun hd => ?_, ⟨_, happen_holds hon, ?_⟩, rfl⟩
    · rw [State.sbAnswer_eq]
      exact ⟨rfl, rfl, rfl⟩
    · simp [hon, hd, hst, State.staticAddr]
    · have hno : (s.sbOn && s.side.dyn.isNone && st.toNat == s.staticAddr) = false := by
        rcases h with h | h
        · simp [State.staticAddr, h]
        · simp [h]
      show happen _ _ _ = _
      rw [hno]
      rfl
    · have hdyn : (s.sbOn && s.side.dyn.isSome) = true := by simp [hon, Option.isSome_iff_ne_none, hd]
      refine ⟨⟨_, happen_holds hdyn, ?_⟩, ⟨_, happen_holds hdyn, ?_⟩, ⟨_, happen_holds hdyn, ?_⟩, ⟨_, leBytes 2 s.free32.1.toNat, happen_holds hdyn, ?_⟩⟩
      · rw [State.sbAnswer_eq]
        exact ⟨rfl, rfl, rfl⟩
      · rw [State.sbAnswer_eq]
        exact ⟨rfl, rfl, rfl⟩
      · rw [State.sbAnswer_eq]
        exact ⟨rfl, rfl, rfl⟩
      · rw [State.sbAnswer_eq]
        exact ⟨rfl, rfl, rfl, rfl⟩
    · rw [State.sbAnswer_eq]
      refine ⟨rfl, rfl, ?_⟩
      dsimp only
      rw [show BitVec.ofNat 8 ((off.toNat / 4 * 4 + 4 * n) % 256) = BitVec.ofNat 8 (off.toNat / 4 * 4 + 4 * n) from BitVec.eq_of_toNat_eq (by simp)]
end

