-- ==== Sys2Proof/Proofs/Recorder.lean ====
section
/-! The recorder's registers and replay. -/

namespace Sys2Proof.Machine

/-! ### What a waymark, and a capture's record, leave of a replay (R484) -/

/-- Where a replay stands. -/
def Recorder.replayPart (r : Recorder) := (r.replay, r.result, r.fed, r.feedAt)

theorem Recorder.record_replayPart (r : Recorder) (w : Waymark) : (r.record w).replayPart = r.replayPart := by
  unfold Recorder.record
  dsimp only
  repeat' split
  all_goals rfl

theorem State.endCapture_replayPart (s : State) (c : Nat) : (s.endCapture c).trace.replayPart = s.trace.replayPart := by
  unfold State.endCapture
  split
  · rfl
  · rfl

theorem State.markAt_replayPart (s : State) (t k ca g : Nat) (o : W16) (u : Nat) (j : W16) (l p : Nat) :
    (s.markAt t k ca g o u j l p).trace.replayPart = s.trace.replayPart := by
  unfold State.markAt
  dsimp only
  split
  · rw [State.endCapture_replayPart]
    exact Recorder.record_replayPart ..
  · exact Recorder.record_replayPart ..

@[simp] theorem State.mark_replayPart (s : State) (k ca g u p : Nat) : (s.mark k ca g u p).trace.replayPart = s.trace.replayPart := State.markAt_replayPart ..

@[simp] theorem State.measChanged_replayPart (s : State) (i : Nat) : (s.measChanged i).trace.replayPart = s.trace.replayPart := State.mark_replayPart ..

theorem State.endReplay_replayPart (s : State) (c : Nat) : (s.endReplay c).trace.replayPart = ({ s.trace with replay := .ended, result := c } : Recorder).replayPart := by
  unfold State.endReplay
  dsimp only
  split
  · rw [State.measChanged_replayPart, State.mark_replayPart]
  · rw [State.mark_replayPart]

theorem State.endReplay_ended (s : State) (c : Nat) : (s.endReplay c).trace.replay = .ended ∧ (s.endReplay c).trace.result = c := by
  have h := s.endReplay_replayPart c
  unfold Recorder.replayPart at h
  simp only [Prod.mk.injEq] at h
  exact ⟨h.1, h.2.1⟩

theorem State.endReplay_boot (s : State) (c : Nat) : (s.endReplay c).boot = s.boot := by
  unfold State.endReplay
  dsimp only
  split
  · rw [State.measChanged, State.mark_boot, State.mark_boot]
  · rw [State.mark_boot]

theorem State.endReplay_work (s : State) (c : Nat) : (s.endReplay c).work = s.work := by
  have h := s.endReplay_ground c
  exact (State.work_eq_iff ..).2 ⟨s.endReplay_cores c, congrArg (·.2.1) h, s.endReplay_groups c⟩

/-! ### The recorder's registers (R478, R480, R482) -/

/-- A register write captured changes the recorder alone. -/
theorem State.regIn_only (s : State) (off : Nat) (v : W32) : { s.regIn off v with trace := s.trace } = s := s.captureIn_only ..

/-- The recorder's fields that REC_CTRL and REC_SIZE set, and the sizes in use. -/
def Recorder.settings (r : Recorder) := (r.eventEn, r.wrap, r.arm, r.capSel, r.ring2m, r.cap2m, r.ring2mNow, r.cap2mNow)

theorem State.endCapture_settings (s : State) (c : Nat) : (s.endCapture c).trace.settings = s.trace.settings := by
  unfold State.endCapture
  split
  · rfl
  · rfl

theorem State.captureIn_settings (s : State) (k src a i : Nat) (l : List Line) : (s.captureIn k src a i l).trace.settings = s.trace.settings := by
  unfold State.captureIn
  split
  · dsimp only
    split
    · rfl
    · exact State.endCapture_settings ..
  · rfl

/-- A write of REC_CTRL changes the recorder alone, and sets its own fields. -/
theorem State.recCtrl_spec (s : State) (v : W32) : { s.recCtrl v with trace := s.trace } = s ∧ (s.recCtrl v).trace.settings = (s.trace.ctrl v).settings
    ∧ (bit v.toNat 27 = true → (s.recCtrl v).trace.capActive = false) := by
  unfold State.recCtrl
  dsimp only
  by_cases h : bit v.toNat 27 = true
  · rw [if_pos h]
    have honly := ({ s with trace := s.trace.ctrl v } : State).endCapture_only 0
    exact ⟨congrArg (fun q : State => { q with trace := s.trace }) honly, State.endCapture_settings .., fun _ => State.endCapture_active ..⟩
  · rw [if_neg h]
    exact ⟨rfl, rfl, fun e => absurd e h⟩

/-- The same for the write as the port takes it. -/
theorem State.recCtrl_regIn (s : State) (v : W32) : { (s.regIn 0x5000 v).recCtrl v with trace := s.trace } = s
    ∧ ((s.regIn 0x5000 v).recCtrl v).trace.eventEn = bit v.toNat 31 ∧ ((s.regIn 0x5000 v).recCtrl v).trace.wrap = bit v.toNat 30
    ∧ ((s.regIn 0x5000 v).recCtrl v).trace.arm = bit v.toNat 29 ∧ ((s.regIn 0x5000 v).recCtrl v).trace.capSel = BitVec.ofNat 7 (v.toNat / 2) := by
  obtain ⟨honly, hset, -⟩ := (s.regIn 0x5000 v).recCtrl_spec v
  unfold Recorder.settings at hset
  simp only [Prod.mk.injEq] at hset
  obtain ⟨he, hw, ha, hc, -⟩ := hset
  exact ⟨(congrArg (fun q : State => { q with trace := s.trace }) honly).trans (s.regIn_only 0x5000 v), he, hw, ha, hc⟩

/-- A write of REC_SIZE (R478): taken, or refused whole. -/
theorem exec_recSizeWrite {s : State} (h : s.answers 0x5004 = true) (v : W32) : ∃ t, exec (.recSizeWrite v) s = .next t ∧ t.work = s.work
    ∧ t.trace.ring2mNow = s.trace.ring2mNow ∧ t.trace.cap2mNow = s.trace.cap2mNow
    ∧ (s.plan.sizesFit (BitVec.ofNat 16 (v.toNat / 65536)).toNat (BitVec.ofNat 16 v.toNat).toNat = true →
        t.trace.ring2m = BitVec.ofNat 16 (v.toNat / 65536) ∧ t.trace.cap2m = BitVec.ofNat 16 v.toNat ∧ t.flash.ring2m = BitVec.ofNat 16 (v.toNat / 65536) ∧ t.flash.cap2m = BitVec.ofNat 16 v.toNat)
    ∧ (s.plan.sizesFit (BitVec.ofNat 16 (v.toNat / 65536)).toNat (BitVec.ofNat 16 v.toNat).toNat = false →
        t.trace.sizeRefused = true ∧ t.trace.ring2m = s.trace.ring2m ∧ t.flash = s.flash) := by
  have hset : (s.regIn 0x5004 v).trace.settings = s.trace.settings := State.captureIn_settings ..
  unfold Recorder.settings at hset
  simp only [Prod.mk.injEq] at hset
  obtain ⟨-, -, -, -, hr, -, hrn, hcn⟩ := hset
  have hw : (s.regIn 0x5004 v).work = s.work := State.regIn_work ..
  have hp : (s.regIn 0x5004 v).plan = s.plan := State.captureIn_plan ..
  have hf : (s.regIn 0x5004 v).flash = s.flash := State.captureIn_flash ..
  refine ⟨_, s.regCmd_answers 0x5004 v (fun t => t.recSize v) h, ?_⟩
  unfold State.recSize
  dsimp only
  rw [← hp]
  split
  · rename_i hfit
    exact ⟨hw, hrn, hcn, fun _ => ⟨rfl, rfl, rfl, rfl⟩, fun e => absurd (e.symm.trans hfit) Bool.false_ne_true⟩
  · rename_i hfit
    exact ⟨hw, hrn, hcn, fun e => absurd e hfit, fun _ => ⟨rfl, hr, hf⟩⟩

/-! ### REPLAY_CTRL (R484, R485) -/

theorem State.regIn_of_inactive {s : State} (h : s.trace.capActive = false) (off : Nat) (v : W32) : s.regIn off v = s := by
  unfold State.regIn State.captureIn
  rw [h]
  rfl

theorem State.regCmd_inactive {s : State} (h : s.trace.capActive = false) {off : Nat} (ha : s.answers off = true) (v : W32) (f : State → State) :
    s.regCmd off v f = .next (f s) := by
  rw [s.regCmd_answers off v f ha, State.regIn_of_inactive h]

theorem State.linksDisabled_boot (s : State) : s.linksDisabled.boot = s.boot := by
  refine State.foldl_keeps State.boot _ (fun t l => ?_) _ _
  split
  · rfl
  · exact congrArg (·.2.2) (t.linkLeave_apart l .down unusable)

/-- GO with a floor plan that this module can run: feeding, with the compute part in reset (R486). -/
theorem State.replayGo_runs {s : State} (h : s.runsPlan (s.trace.planOf s.plan) = true) :
    s.replayGo.trace.replay = .feeding ∧ s.replayGo.trace.fed = 0 ∧ s.replayGo.boot.st = .cpReset ∧ s.replayGo.boot.cpBusy = true := by
  unfold State.replayGo
  extract_lets +onlyGivenNames r s1 trace1
  rw [if_pos h]
  have hb : s1.boot = s.cpBegin.boot := State.linksDisabled_boot _
  rw [State.cpBegin_boot] at hb
  clear_value s1
  have hpart := State.measChanged_replayPart ({ s1 with
      trace := { s1.trace with replay := .feeding, fed := 0, feedAt := 0, used := [] }
      meas := mupd ({} : Meas) s1.meas 7 (fun x => { x with value := shaBlock256 (lineBytes (mget 0 r.capture 0)) }) } : State) 7
  unfold Recorder.replayPart at hpart
  simp only [Prod.mk.injEq] at hpart
  obtain ⟨hreplay, -, hfed, -⟩ := hpart
  refine ⟨hreplay, hfed, ?_⟩
  rw [State.measChanged_boot]
  dsimp only
  rw [hb]
  exact ⟨rfl, rfl⟩

/-- GO with one that it cannot (R485). -/
theorem State.replayGo_fails {s : State} (h : s.runsPlan (s.trace.planOf s.plan) = false) :
    s.replayGo.trace.replay = .ended ∧ s.replayGo.trace.result = 3 ∧ s.replayGo.boot = s.boot := by
  have hgo : s.replayGo = s.linksDisabled.endReplay 3 := by
    unfold State.replayGo
    dsimp only
    rw [if_neg (by simp [h])]
  rw [hgo]
  obtain ⟨hr, hc⟩ := s.linksDisabled.endReplay_ended 3
  exact ⟨hr, hc, (s.linksDisabled.endReplay_boot 3).trans s.linksDisabled_boot⟩

section
variable {s : State} {v : W32} (hkey : keyed v = true) (ha : s.answers 0x502C = true) (hcap : s.trace.capActive = false)
include hkey ha hcap

theorem exec_replayLoad (h0 : bit v.toNat 0 = true) (hoff : s.trace.replay = .off) (hst : s.boot.st = .ready) (hleg : s.legOn = false) :
    ∃ t, exec (.replayLoad v) s = .next t ∧ t.trace.replay = .loading ∧ t.work = s.work := by
  have hctrl : s.replayCtrl v = { s with trace := { s.trace with replay := .loading, result := 0 } }.emit
      (.hostRead ((s.trace.srcHi.toNat * 2 ^ 32 + s.trace.srcLo.toNat) / 64 * 64) s.trace.len.toNat false) := by
    unfold State.replayCtrl
    simp [hkey, hoff, h0, hst, hleg]
  refine ⟨_, (if_pos h0).trans (State.regCmd_inactive hcap ha v _), ?_⟩
  rw [hctrl, State.emit_trace]
  exact ⟨rfl, by simp [State.work]⟩

theorem exec_replayGo (h1 : bit v.toNat 1 = true) (hready : s.trace.replay = .readyToGo) (hst : s.boot.st = .ready) (hb : s.boot.cpBusy = false) :
    exec (.replayGo v) s = .next s.replayGo := by
  have hctrl : s.replayCtrl v = s.replayGo := by
    unfold State.replayCtrl
    simp [hkey, hready, h1, hst, hb]
  exact ((if_pos h1).trans (State.regCmd_inactive hcap ha v _)).trans (congrArg Host.Outcome.next hctrl)

theorem exec_replayStop (h2 : bit v.toNat 2 = true) (hfeed : s.trace.replay = .feeding) : exec (.replayStop v) s = .next (s.endReplay 5) := by
  have hctrl : s.replayCtrl v = s.endReplay 5 := by
    unfold State.replayCtrl
    simp [hkey, hfeed, h2]
  exact ((if_pos h2).trans (State.regCmd_inactive hcap ha v _)).trans (congrArg Host.Outcome.next hctrl)

end

/-! ### A capture loaded (R484, R485) -/

theorem filterMap_replyLine (ls : List (Line × Bool)) : (ls.map (fun p => HostReply.line p.1 p.2)).filterMap replyLine = ls := by
  rw [List.filterMap_map]
  exact List.filterMap_some

theorem exec_replayLoadDone_good {s : State} (h : s.trace.replay = .loading) {ls : List (Line × Bool)} (hlen : ls.length = s.trace.len.toNat) (hroom : ls.length ≤ s.trace.capRoom)
    (hcap : s.trace.capActive = false) (hport : s.portHeld = false) : exec (.replayLoadDone (ls.map (fun p => HostReply.line p.1 p.2))) s =
      .next (if (s.trace.loaded ls).startOk then { s with trace := s.trace.loaded ls } else s.loadBad) := by
  show execReplayLoadDone _ s = _
  unfold execReplayLoadDone
  extract_lets +onlyGivenNames ls' bad s1 r
  have hls : ls' = ls := filterMap_replyLine ls
  have hbad : bad = false := by
    unfold bad
    rw [hport, List.any_map]
    simp [replyLine]
  unfold r
  clear_value ls' bad
  rw [if_neg (by simp [h, hbad, hlen]), if_neg (by simp [hbad, hls, hroom, hcap]), hls]

theorem exec_replayLoadDone_bad {s : State} (h : s.trace.replay = .loading) {hs : List HostReply} (hbad : HostReply.abort ∈ hs ∨ s.portHeld = true) :
    exec (.replayLoadDone hs) s = .next ({ s with host := { s.host with errAbort := true } } : State).loadBad := by
  show execReplayLoadDone _ s = _
  unfold execReplayLoadDone
  extract_lets +onlyGivenNames ls bad host0 s1 r
  have hb : bad = true := by
    rcases hbad with ha | hp
    · exact Bool.or_eq_true_iff.2 (.inr (List.any_eq_true.2 ⟨_, ha, rfl⟩))
    · exact Bool.or_eq_true_iff.2 (.inl hp)
  have h1 : s1 = { s with host := { s.host with errAbort := true } } := if_pos hb
  clear_value bad s1
  rw [if_neg (by simp [h, hb]), if_pos (.inl hb), h1]

/-! ### Records fed (R486) -/

theorem State.recordDue_trace {s u : State} {i : Nat} (h : s.recordDue i = some u) : u.trace = s.trace := by
  unfold State.recordDue at h
  dsimp only at h
  split at h
  · rw [← Option.some.inj h]
    exact State.advance_trace ..
  · split at h
    · rw [← Option.some.inj h]
      exact State.advance_trace ..
    · exact absurd h (by simp)

theorem State.devWrite_replayPart (s : State) (sp : Space) (a : Nat) (ds : List PByte) (add : Bool) :
    (s.devWrite sp a ds add).trace.replayPart = s.trace.replayPart := by
  unfold State.devWrite
  dsimp only
  split
  · split
    · split
      · rfl
      · exact State.markAt_replayPart ..
    · rfl
  · split
    · rfl
    · rfl

/-- What a captured line written into device memory leaves: the cores, and where the replay stands. -/
theorem State.ddrWrite_leaves (s : State) (l : Nat) (d : Line) (p : Bool) : (s.ddrWrite l d p).cores = s.cores ∧ (s.ddrWrite l d p).trace.replayPart = s.trace.replayPart := by
  unfold State.ddrWrite
  split
  · exact ⟨rfl, rfl⟩
  · split
    · exact ⟨rfl, rfl⟩
    · exact ⟨State.devWrite_cores .., State.devWrite_replayPart ..⟩

section
variable {s : State} (hfeed : s.trace.replay = .feeding) (hat : s.trace.feedAt ≠ 0)
include hfeed hat

theorem exec_replayFeed_bad (hok : s.trace.recordOk s.trace.feedAt = false) : exec .replayFeed s = .next (s.endReplay 4) := by
  show execReplayFeed s = _
  unfold execReplayFeed
  dsimp only
  rw [if_neg (by simp [State.feeding, hfeed, hat]), if_pos (by simp [hok])]

theorem exec_replayFeed_early (hok : s.trace.recordOk s.trace.feedAt = true) (hdue : s.recordDue s.trace.feedAt = none) : exec .replayFeed s = .next s := by
  show execReplayFeed s = _
  unfold execReplayFeed
  dsimp only
  rw [if_neg (by simp [State.feeding, hfeed, hat]), if_neg (by simp [hok]), hdue]

/-- A record due, but for the END record: counted, delivered, and the next one's place taken where the replay still feeds. -/
theorem exec_replayFeed_due (hok : s.trace.recordOk s.trace.feedAt = true) {u : State} (hdue : s.recordDue s.trace.feedAt = some u) :
    exec .replayFeed s = .next
      (let t := { u with trace := { u.trace with fed := u.trace.fed + 1 } }
      if s.trace.lineField s.trace.feedAt 8 24 8 = 9 then t.endReplay 1
      else if (t.feed s.trace.feedAt).feeding then
        { t.feed s.trace.feedAt with trace := { (t.feed s.trace.feedAt).trace with feedAt := s.trace.after s.trace.feedAt } }
      else t.feed s.trace.feedAt) := by
  show execReplayFeed s = _
  unfold execReplayFeed
  dsimp only
  rw [if_neg (by simp [State.feeding, hfeed, hat]), if_neg (by simp [hok]), hdue]
  dsimp only
  split
  · rfl
  · rfl

end

/-- A record of host memory's line, or of a line written into the DDR5 window: what its delivery leaves. -/
theorem State.feed_leaves {s : State} {i : Nat} (h : s.trace.lineField i 8 24 8 ∈ [2, 3]) : (s.feed i).cores = s.cores ∧ (s.feed i).trace.replayPart = s.trace.replayPart := by
  simp only [List.mem_cons, List.not_mem_nil, or_false] at h
  unfold State.feed
  dsimp only
  rcases h with h | h
  · rw [h]
    exact ⟨rfl, rfl⟩
  · rw [h]
    exact State.ddrWrite_leaves ..

end Sys2Proof.Machine

open Sys2Proof Sys2Proof.Machine

/-- Settles O58: each register's write by what it sets; a load, GO and STOP by REPLAY_CTRL's cases; a record by its kind. -/
theorem recorderAndReplay : Obligations.RecorderAndReplay := by
  intro s v
  refine ⟨fun h29 h27 ha => ?_, fun h27 ha => ?_, fun ha => exec_recSizeWrite ha v, fun ha => ?_, fun hkey ha hcap => ⟨?_, ?_, ?_⟩, fun hload => ⟨?_, ?_⟩, fun hfeed hat => ⟨?_, ?_, ?_, ?_⟩⟩
  · obtain ⟨honly, he, hw, harm, hsel⟩ := s.recCtrl_regIn v
    exact ⟨_, (if_pos h29).trans (s.regCmd_answers 0x5000 v (fun t => t.recCtrl v) ha), harm.trans h29, he, hw, hsel, honly⟩
  · obtain ⟨honly, -, -, harm, -⟩ := s.recCtrl_regIn v
    exact ⟨_, (if_pos h27).trans (s.regCmd_answers 0x5000 v (fun t => t.recCtrl v) ha), ((s.regIn 0x5000 v).recCtrl_spec v).2.2 h27, harm, honly⟩
  · refine ⟨_, happen_holds ha, ?_⟩
    rw [State.answer, State.emit_passing _ rfl rfl]
    exact ⟨rfl, rfl, rfl⟩
  · exact fun h0 hoff hst hleg => exec_replayLoad hkey ha hcap h0 hoff hst hleg
  · exact fun h1 hready hst hb => ⟨_, exec_replayGo hkey ha hcap h1 hready hst hb, State.replayGo_runs, State.replayGo_fails⟩
  · intro h2 hfeed
    obtain ⟨hr, hc⟩ := s.endReplay_ended 5
    exact ⟨_, exec_replayStop hkey ha hcap h2 hfeed, hr, hc, s.endReplay_work 5⟩
  · intro ls hlen hroom hcap hport
    refine ⟨_, exec_replayLoadDone_good hload hlen hroom hcap hport, ?_⟩
    split
    · rename_i hok
      exact ⟨rfl, fun _ => ⟨rfl, rfl⟩, fun e => absurd (e.symm.trans hok) Bool.false_ne_true⟩
    · rename_i hok
      exact ⟨rfl, fun e => absurd e hok, fun _ => ⟨rfl, rfl⟩⟩
  · exact fun hs hbad => ⟨_, exec_replayLoadDone_bad hload hbad, rfl, rfl, rfl, rfl⟩
  · intro hok
    obtain ⟨hr, hc⟩ := s.endReplay_ended 4
    exact ⟨_, exec_replayFeed_bad hfeed hat hok, hr, hc⟩
  · exact fun hok hdue => exec_replayFeed_early hfeed hat hok hdue
  · intro u hok hdue h9
    refine ⟨_, exec_replayFeed_due hfeed hat hok hdue, ?_⟩
    dsimp only
    rw [if_pos h9]
    exact State.endReplay_ended _ 1
  · intro u hok hdue hkind
    refine ⟨_, exec_replayFeed_due hfeed hat hok hdue, ?_⟩
    have htrace := State.recordDue_trace hdue
    have h9 : s.trace.lineField s.trace.feedAt 8 24 8 ≠ 9 := by
      rintro h
      rw [h] at hkind
      exact absurd hkind (by decide)
    dsimp only
    rw [if_neg h9]
    obtain ⟨hcores, hpart⟩ := State.feed_leaves (s := { u with trace := { u.trace with fed := u.trace.fed + 1 } }) (i := s.trace.feedAt) (by rw [htrace]; exact hkind)
    unfold Recorder.replayPart at hpart
    simp only [Prod.mk.injEq] at hpart
    obtain ⟨hreplay, -, hfed, -⟩ := hpart
    rw [htrace] at hreplay hfed hcores ⊢
    generalize ({ u with trace := { s.trace with fed := s.trace.fed + 1 } } : State).feed s.trace.feedAt = t at *
    rw [hfeed] at hreplay
    rw [if_pos (by simp [State.feeding, hreplay])]
    exact ⟨hreplay, hfed, rfl, hcores⟩
end

