-- ==== Sys2Proof/Proofs/RegisterWrites.lean ====
section
/-! Register writes that have no command of their own. -/

namespace Sys2Proof.Machine

/-! ### What an ordinary register write does (R391) -/

theorem State.ordinaryWrite_plain {off : Nat} (h : off < 0x1000 ∨ 0x2000 ≤ off) (s : State) (v : W32) : s.ordinaryWrite off v = s.plainWrite off v :=
  if_neg (by omega)

theorem exec_registerWrite {s : State} {off : W16} {v : W32} (ha : s.answers off.toNat = true) (ho : ownRow off.toNat v = false) :
    exec (.registerWrite off v) s = .next ((s.regIn off.toNat v).ordinaryWrite off.toNat v) := by
  show execRegisterWrite off v s = _
  unfold execRegisterWrite
  rw [ho, s.regCmd_answers off.toNat v (fun t => t.ordinaryWrite off.toNat v) ha]
  rfl

/-- A write that is not taken here. -/
theorem exec_registerWrite_ignored {s : State} {off : W16} {v : W32} (h : s.answers off.toNat = false ∨ ownRow off.toNat v = true) :
    exec (.registerWrite off v) s = .next s := by
  show execRegisterWrite off v s = _
  unfold execRegisterWrite State.regCmd
  rcases h with h | h
  · rw [h]
    split
    · rfl
    · rfl
  · rw [h]
    rfl

/-- What no register write of this command changes. -/
def State.unwritten (s : State) := (s.work, s.boot.st, s.pending, s.outbox)

theorem State.regIn_unwritten (s : State) (off : Nat) (v : W32) : (s.regIn off v).unwritten = s.unwritten := by
  have h := congrArg State.unwritten (s.captureIn_only 7 off v.toNat 0 [])
  exact h

theorem State.ringWrite_unwritten (s : State) (k o : Nat) (v : W32) : (s.ringWrite k o v).unwritten = s.unwritten := by
  unfold State.ringWrite
  dsimp only
  repeat' split
  all_goals rfl

theorem State.ordinaryWrite_unwritten (s : State) (off : Nat) (v : W32) : (s.ordinaryWrite off v).unwritten = s.unwritten := by
  unfold State.ordinaryWrite
  split
  · exact s.ringWrite_unwritten _ _ v
  · refine State.plainWrite_cases s off v (P := fun t => t.unwritten = s.unwritten) rfl (fun _ => rfl) (fun x _ hx => ?_) (fun _ => rfl) (fun _ => rfl)
      (fun _ => rfl) (fun _ => rfl)
    unfold State.unwritten
    dsimp only
    rw [hx]
    rfl

theorem exec_registerWrite_unwritten (s : State) (off : W16) (v : W32) : ∃ t, exec (.registerWrite off v) s = .next t ∧ t.unwritten = s.unwritten := by
  cases ha : s.answers off.toNat with
  | false => exact ⟨s, exec_registerWrite_ignored (.inl ha), rfl⟩
  | true => cases ho : ownRow off.toNat v with
    | true => exact ⟨s, exec_registerWrite_ignored (.inr ho), rfl⟩
    | false => exact ⟨_, exec_registerWrite ha ho, (State.ordinaryWrite_unwritten ..).trans (State.regIn_unwritten ..)⟩

/-- A register outside RINGS that no other command writes. -/
theorem exec_registerWrite_plain {s : State} {off : W16} {v : W32} (ha : s.answers off.toNat = true) (ho : ownRow off.toNat v = false)
    (hr : off.toNat < 0x1000 ∨ 0x2000 ≤ off.toNat) : exec (.registerWrite off v) s = .next ((s.regIn off.toNat v).plainWrite off.toNat v) :=
  (exec_registerWrite ha ho).trans (congrArg Host.Outcome.next (State.ordinaryWrite_plain hr _ v))

theorem b2n_bit (x i : Nat) : b2n (bit x i) = x / 2 ^ i % 2 := by
  unfold b2n bit
  rw [← Nat.toNat_testBit]
  cases x.testBit i <;> rfl

/-- Two single-bit fields at the bottom of a register read as written. -/
theorem low_two_bits (x : Nat) : at' (b2n (bit x 1)) 1 1 + at' (b2n (bit x 0)) 0 1 = x % 4 := by
  rw [b2n_bit, b2n_bit]
  unfold at'
  omega

/-- A ring's base, low half: written while the ring is disabled and stopped, and left alone while it is enabled (R395). -/
theorem ownRow_sqBase {k : Nat} (h : k < 64) (v : W32) : ownRow (0x1000 + 0x40 * k) v = false := by
  unfold ownRow
  simp only [Bool.or_eq_false_iff, Bool.and_eq_false_iff, beq_eq_false_iff_ne, decide_eq_false_iff_not]
  omega

theorem setBits_low {x v : Nat} (hv : v < 2 ^ 32) : setBits x 0 32 v % 2 ^ 32 = v ∧ setBits x 0 32 v / 2 ^ 32 = x / 2 ^ 32 := by
  unfold setBits
  rw [bits_low]
  omega

theorem setHalf_low (x : W64) (v : W32) : (setHalf x false v).toNat % 2 ^ 32 = v.toNat ∧ (setHalf x false v).toNat / 2 ^ 32 = x.toNat / 2 ^ 32 := by
  obtain ⟨hlo, hhi⟩ := setBits_low (x := x.toNat) v.isLt
  have hx := x.isLt
  have hlt : setBits x.toNat 0 32 v.toNat < 2 ^ 64 := by omega
  unfold setHalf
  rw [if_neg Bool.false_ne_true, BitVec.toNat_ofNat, Nat.mod_eq_of_lt hlt]
  exact ⟨hlo, hhi⟩

theorem State.regIn_ring (s : State) (off : Nat) (v : W32) (k : Nat) : (s.regIn off v).ring k = s.ring k := by
  have h := congrArg (fun q : State => q.ring k) (s.captureIn_only 7 off v.toNat 0 [])
  exact h

theorem State.ringWrite_sqBase {s : State} {k : Nat} (he : (s.ring k).enable = false) (hs : (s.ring k).stopped = true) (v : W32) :
    s.ringWrite k 0 v = s.setRing k { s.ring k with sqBase := setHalf (s.ring k).sqBase false v } :=
  if_neg (by simp [he, hs])

section
variable {s : State} {off : W16} {v : W32} {k : Nat} (ha : s.answers off.toNat = true) (hk : k < 64) (hoff : off.toNat = 0x1000 + 0x40 * k)
include ha hk hoff

theorem exec_registerWrite_ring : exec (.registerWrite off v) s = .next ((s.regIn off.toNat v).ringWrite k 0 v) := by
  refine (exec_registerWrite ha (hoff ▸ ownRow_sqBase hk v)).trans (congrArg Host.Outcome.next ?_)
  unfold State.ordinaryWrite
  rw [if_pos (by omega), show (off.toNat - 0x1000) / 0x40 = k by omega, show off.toNat % 0x40 = 0 by omega]

theorem exec_registerWrite_sqBase (he : (s.ring k).enable = false) (hs : (s.ring k).stopped = true) :
    ∃ t, exec (.registerWrite off v) s = .next t ∧ (t.ring k).sqBase = setHalf (s.ring k).sqBase false v ∧ ∀ j, j ≠ k → t.ring j = s.ring j := by
  refine ⟨_, exec_registerWrite_ring ha hk hoff, ?_⟩
  rw [State.ringWrite_sqBase (by rwa [State.regIn_ring]) (by rwa [State.regIn_ring]), State.regIn_ring]
  refine ⟨?_, fun j hj => ?_⟩
  · rw [State.ring_setRing_self]
  · rw [State.ring_setRing_ne _ _ _ _ hj, State.regIn_ring]

theorem exec_registerWrite_enabled (he : (s.ring k).enable = true) : ∃ t, exec (.registerWrite off v) s = .next t ∧ t.host.rings = s.host.rings := by
  refine ⟨_, exec_registerWrite_ring ha hk hoff, ?_⟩
  unfold State.ringWrite
  rw [State.regIn_ring]
  dsimp only
  rw [if_pos (by simp [he])]
  exact congrArg HostSt.rings (State.captureIn_host ..)

end

theorem State.regIn_host (s : State) (off : Nat) (v : W32) : (s.regIn off v).host = s.host := State.captureIn_host ..

end Sys2Proof.Machine

open Sys2Proof Sys2Proof.Machine

/-- Settles O60: a write ignored, or taken as its register's fields say. -/
theorem registerWrites : Obligations.RegisterWrites := by
  intro s off v
  refine ⟨exec_registerWrite_ignored, ?_, fun ha => ⟨?_, ?_, ?_, ?_, ?_, ?_, ?_, fun k hk hoff he hs => ?_, fun k hk hoff he => exec_registerWrite_enabled ha hk hoff he⟩⟩
  · obtain ⟨t, ht, hu⟩ := exec_registerWrite_unwritten s off v
    unfold State.unwritten at hu
    simp only [Prod.mk.injEq] at hu
    exact ⟨t, ht, hu⟩
  · rintro rfl
    exact ⟨_, exec_registerWrite_plain ha rfl (.inr (by decide)), rfl, (b2n_bit v.toNat 0).trans (by rw [Nat.pow_zero, Nat.div_one])⟩
  · rintro rfl
    exact ⟨_, exec_registerWrite_plain ha rfl (.inl (by decide)), rfl⟩
  · rintro rfl
    exact ⟨_, exec_registerWrite_plain ha rfl (.inr (by decide)), rfl⟩
  · rintro rfl
    exact ⟨_, exec_registerWrite_plain ha rfl (.inr (by decide)), low_two_bits v.toNat⟩
  · rintro rfl
    exact ⟨_, exec_registerWrite_plain ha rfl (.inr (by decide)), rfl⟩
  · rintro rfl
    refine ⟨_, exec_registerWrite_plain ha rfl (.inr (by decide)), ?_⟩
    rw [← s.regIn_power 0x3040 v]
    rfl
  · rintro rfl
    refine ⟨_, exec_registerWrite_plain ha rfl (.inl (by decide)), ?_⟩
    rw [← s.regIn_host 0x0108 v]
    exact ⟨rfl, rfl, rfl⟩
  · obtain ⟨t, ht, hb, hne⟩ := exec_registerWrite_sqBase ha hk hoff he hs
    refine ⟨t, ht, ?_⟩
    rw [hb]
    exact ⟨(setHalf_low _ v).1, (setHalf_low _ v).2, hne⟩
end

