-- ==== Sys2Proof/Proofs/DmaTransfers.lean ====
section
/-! MOVE and FILL: the lines of a transfer, and what they leave. -/

namespace Sys2Proof.Machine

/-! ### What a line of a transfer leaves (R389, R409, R410) -/

/-- What the lines of a transfer leave of the module: the cores, the groups, DDR5 and all that translation, the port and a completion go by. -/
def State.ashore (s : State) := (s.cores, s.groups, s.plan, s.pages, s.mem.lost, s.mem.ddr, s.entryBad, s.host, s.time, s.side, s.feeding)

theorem State.ashore_of_eqs {s t : State} (hbad : t.entryBad = s.entryBad) (hmem : t.mem.lost = s.mem.lost ∧ t.mem.ddr = s.mem.ddr)
    (hplan : t.plan = s.plan ∧ t.pages = s.pages) (hcores : t.cores = s.cores ∧ t.groups = s.groups)
    (hport : t.host = s.host ∧ t.time = s.time ∧ t.side = s.side) (hfeed : t.feeding = s.feeding) : t.ashore = s.ashore := by
  simp only [State.ashore, hbad, hmem, hplan, hcores, hport, hfeed]

/-- Whatever reads the parts that a transfer leaves alone reads the same. -/
theorem State.ashore_reads {s t : State} (h : t.ashore = s.ashore) : t.cores = s.cores ∧ t.groups = s.groups ∧ t.mem.ddr = s.mem.ddr ∧ t.host = s.host
    ∧ t.time = s.time ∧ t.side = s.side ∧ t.feeding = s.feeding := by
  simp only [State.ashore, Prod.mk.injEq] at h
  obtain ⟨hc, hg, -, -, -, hd, -, hh, ht, hs, hf⟩ := h
  exact ⟨hc, hg, hd, hh, ht, hs, hf⟩

theorem State.ashore_xlate {s t : State} (h : t.ashore = s.ashore) (va : Nat) (k : Acc) : t.xlate va k = s.xlate va k := by
  simp only [State.ashore, Prod.mk.injEq] at h
  obtain ⟨-, -, -, hpages, -, -, hbad, -⟩ := h
  simp only [State.xlate, State.pageCheck, State.page, hbad, hpages] <;> rfl

theorem State.ashore_postHit {s t : State} (h : t.ashore = s.ashore) (sp : Space) (a : Nat) : t.postHit sp a = s.postHit sp a := by
  simp only [State.ashore, Prod.mk.injEq] at h
  simp only [State.postHit, h]

theorem State.ashore_memLost {s t : State} (h : t.ashore = s.ashore) (sp : Space) (a : Nat) : t.memLost sp a = s.memLost sp a := by
  simp only [State.ashore, Prod.mk.injEq] at h
  simp only [State.memLost, h]

theorem State.length_devRead (s : State) (sp : Space) (a n : Nat) : (s.devRead sp a n).length = n := by
  unfold State.devRead
  split <;> simp [pmRead]

/-- A range that reads goes on reading while the transfer runs, whatever it then holds. -/
theorem State.ashore_vaRead {s t : State} (h : t.ashore = s.ashore) {va n : Nat} (hr : ∃ ds, s.vaRead va n = .inr ds) :
    ∃ ds, t.vaRead va n = .inr ds ∧ ds.length = n := by
  obtain ⟨ds, hr⟩ := hr
  unfold State.vaRead at hr ⊢
  rw [State.ashore_xlate h]
  split at hr
  next => simp at hr
  next t pa hx =>
    split at hr
    next => simp at hr
    next ht => exact ⟨_, if_neg ht, State.length_devRead ..⟩

/-- With the device bytes unchanged, a range reads as it did. -/
theorem State.vaRead_of_mem {s t : State} (h : t.ashore = s.ashore) (hm : t.mem = s.mem) (va n : Nat) : t.vaRead va n = s.vaRead va n := by
  have hplan : t.plan = s.plan := by simp only [State.ashore, Prod.mk.injEq] at h; exact h.2.2.1
  simp only [State.vaRead, State.devRead, State.ashore_xlate h, State.memLost, hm, hplan] <;> rfl

theorem State.entryBad_of_mem {s t : State} (hm : t.mem = s.mem) (hp : t.plan = s.plan) : t.entryBad = s.entryBad := by
  funext n
  simp only [State.entryBad, State.devRead, State.memLost, hm, hp] <;> rfl

theorem State.emit_ashore (s : State) (o : Output) : (s.emit o).ashore = s.ashore ∧ (s.emit o).mem = s.mem :=
  ⟨State.ashore_of_eqs (State.entryBad_of_mem (by simp) (by simp)) (by simp) (by simp) (by simp) (by simp) (by simp [State.feeding]), by simp⟩

theorem State.captureIn_feeding (s : State) (k src a i : Nat) (l : List Line) : (s.captureIn k src a i l).feeding = s.feeding := by
  have hpart : (s.captureIn k src a i l).trace.replayPart = s.trace.replayPart := by
    unfold State.captureIn
    split
    · simp only []
      split
      · rfl
      · exact s.endCapture_replayPart 2
    · rfl
  simp only [State.feeding, show (s.captureIn k src a i l).trace.replay = s.trace.replay from congrArg Prod.fst hpart]

theorem State.captureIn_ashore (s : State) (k src a i : Nat) (l : List Line) : (s.captureIn k src a i l).ashore = s.ashore ∧ (s.captureIn k src a i l).mem = s.mem :=
  ⟨State.ashore_of_eqs (State.entryBad_of_mem (by simp) (by simp)) (by simp) (by simp) (by simp) (by simp) (State.captureIn_feeding ..), by simp⟩

theorem State.free64_ashore (s : State) : s.free64.2.ashore = s.ashore := rfl

/-- A line of the host taken by the DMA engine: the answer, and only the port's output and the capture besides. -/
theorem State.hostLine_line (s : State) (u a : Nat) (l : Line) (ep : Bool) (r : List HostReply) (hf : s.feeding = false) (hp : s.side.perstN = true) :
    ∃ t, s.hostLine u a (.line l ep :: r) = (t, .line l ep, r) ∧ t.ashore = s.ashore ∧ t.mem = s.mem := by
  refine ⟨(s.emit (.hostRead a 1 false)).captureIn 2 u a 0 [l], ?_, ?_, ?_⟩
  · simp [State.hostLine, hf, State.portHeld, hp]
  · rw [(State.captureIn_ashore ..).1, (State.emit_ashore ..).1]
  · rw [(State.captureIn_ashore ..).2, (State.emit_ashore ..).2]

theorem State.hostLine_nil (s : State) (u a : Nat) (hf : s.feeding = false) (hp : s.side.perstN = true) :
    s.hostLine u a [] = (s.emit (.hostRead a 1 false), .none, []) := by simp [State.hostLine, hf, State.portHeld, hp]

theorem State.hostPost_nil (s : State) (a : Nat) (bs : List Byte) (b : Bool) (hf : s.feeding = false) (hp : s.side.perstN = true) :
    s.hostPost [(a, bs, b)] [] = (s.emit (.hostWrite a bs b), false, []) := by simp [State.hostPost, hf, State.portHeld, hp]

/-! ### Lines laid in device memory -/

/-- A write below the reserved region leaves what a transfer goes by. -/
theorem State.devWrite_ashore (s : State) {a : Nat} {ds : List PByte} (h : a + ds.length ≤ s.plan.resBase) : (s.devWrite .hbm a ds false).ashore = s.ashore := by
  have hpost : s.postHit .hbm a = false := by
    have : ¬ s.plan.postPhys ≤ a := by unfold Plan.postPhys; omega
    simp [State.postHit, this]
  have htrace : (s.devWrite .hbm a ds false).trace = s.trace := by
    unfold State.devWrite
    simp only [hpost, Bool.false_eq_true, if_false]
    split <;> rfl
  exact State.ashore_of_eqs (funext (s.entryBad_devWrite a ds h)) ⟨s.devWrite_present .hbm a ds hpost, s.devWrite_hbm_ddr a ds false⟩ (by simp) (by simp) (by simp)
    (by simp only [State.feeding, htrace])

/-- A place in HBM4 holds a line: its bytes, and no poison where it is clean. -/
def State.holdsLine (s : State) (p : Nat) (ds : List PByte) : Prop :=
  (∀ j < 64, s.byteAt .hbm (p + j) = (nth (0, false) ds j).1) ∧ ((∀ j < 64, (nth (0, false) ds j).2 = false) → ∀ w < 16, s.poisonAt .hbm (p / 4 + w) = false)

theorem State.holdsLine_devWrite {s : State} {p : Nat} {ds : List PByte} (hlen : ds.length = 64) (hal : p % 64 = 0) (hp : s.postHit .hbm p = false)
    (hl : s.memLost .hbm p = false) : (s.devWrite .hbm p ds false).holdsLine p ds := by
  refine ⟨fun j hj => State.devWrite_byteAt_in false hp hl (by omega), fun hclean w hw => ?_⟩
  rw [State.devWrite_poisonAt ds false hp hl, pmWrite_poison_in _ _ (List.ne_nil_of_length_pos (by omega)) (by omega) (by omega)]
  exact poisonAfter_clean _ (by omega) (by omega) fun i hi => hclean _ (by omega)

/-- A line elsewhere stands. -/
theorem State.holdsLine_devWrite_ne {s : State} {p q : Nat} {ds ds' : List PByte} (hlen : ds'.length = 64) (hp : p % 64 = 0) (hq : q % 64 = 0) (hne : p ≠ q)
    (hpost : s.postHit .hbm q = false) (hlost : s.memLost .hbm q = false) (h : s.holdsLine p ds) : (s.devWrite .hbm q ds' false).holdsLine p ds := by
  obtain ⟨hbytes, hpoison⟩ := h
  refine ⟨fun j hj => ?_, fun hclean w hw => ?_⟩
  · rw [s.devWrite_byteAt .hbm q ds' false fun _ => by omega, hbytes j hj]
  · refine Eq.trans ?_ (hpoison hclean w hw)
    rw [State.devWrite_poisonAt ds' false hpost hlost, State.poisonAt]
    rcases Nat.lt_or_gt_of_ne hne with hlt | hgt
    · exact pmWrite_poison_below _ _ q ds' (p / 4 + w) (by omega)
    · exact pmWrite_poison_above _ _ q ds' (p / 4 + w) (by omega)

/-- Where the lines `lo` to `n` of a transfer go: line `i` to `pa i`, aligned, present and below the reserved region (R258, R409, R410). -/
def State.landing (s : State) (dst : Nat) (pa : Nat → Nat) (lo n : Nat) : Prop :=
  ∀ i < n, lo ≤ i → s.xlate (dst + 64 * i) .plain = .inr (0, pa i) ∧ pa i % 64 = 0 ∧ s.postHit .hbm (pa i) = false ∧ s.memLost .hbm (pa i) = false ∧ pa i + 64 ≤ s.plan.resBase

/-- A transfer that goes on: nothing failed, no write met lost memory, and it waits for no answer. -/
def Dma.flows (m : Dma) : Prop := m.fail = none ∧ m.lost = false ∧ m.wait = false

/-- One line written at `p`, at most the port's output and the capture changed before it. -/
def Dma.lays (m m' : Dma) (p : Nat) (ds : List PByte) : Prop :=
  m'.flows ∧ m'.n = m.n + 1 ∧ ∃ t : State, t.ashore = m.st.ashore ∧ t.mem = m.st.mem ∧ m'.st = t.devWrite .hbm p ds false

theorem Dma.put_lays {m : Dma} (hm : m.flows) {va p : Nat} (ds : List PByte) (hx : m.st.xlate va .plain = .inr (0, p)) (hl : m.st.memLost .hbm p = false) :
    m.lays (m.put va ds) p ds ∧ (m.put va ds).hs = m.hs := by
  obtain ⟨hfail, hlost, hwait⟩ := hm
  have hput : m.put va ds = { m with st := m.st.devWrite .hbm p ds false, n := m.n + 1, lost := m.lost || m.st.memLost .hbm p } := by simp [Dma.put, hx, spaceOf]
  rw [hput]
  exact ⟨⟨⟨hfail, by simp [hlost, hl], hwait⟩, rfl, m.st, rfl, rfl, rfl⟩, rfl⟩

/-- The lines `lo` to `m.n` of a transfer from the state `s`, line `i` laid at `pa i`: the lines of which `D` tells the data hold it, and every other
byte stands. -/
structure Dma.laid (s : State) (pa : Nat → Nat) (lo : Nat) (D : Nat → Option (List PByte)) (m : Dma) : Prop where
  flows : m.flows
  ashore : m.st.ashore = s.ashore
  stands : ∀ a, (∀ i < m.n, lo ≤ i → a < pa i ∨ pa i + 64 ≤ a) → m.st.byteAt .hbm a = s.byteAt .hbm a
  data : ∀ i < m.n, lo ≤ i → ∀ ds, D i = some ds → m.st.holdsLine (pa i) ds

theorem Desc.dma_laid {s : State} {d : Desc} (h : d.lost = false) (pa : Nat → Nat) (D : Nat → Option (List PByte)) : (d.dma s).laid s pa d.progress D :=
  ⟨⟨rfl, h, rfl⟩, rfl, fun _ _ => rfl, fun i hi hlo => absurd hlo (Nat.not_le.2 hi)⟩

/-- A further line laid. -/
theorem Dma.laid.step {s : State} {dst : Nat} {pa : Nat → Nat} {lo n : Nat} {D : Nat → Option (List PByte)} {m m' : Dma} {ds : List PByte} (h : m.laid s pa lo D)
    (hland : s.landing dst pa lo n) (hn : m.n < n) (hlo : lo ≤ m.n) (hm : m.lays m' (pa m.n) ds) (hlen : ds.length = 64) (hD : ∀ ds', D m.n = some ds' → ds' = ds)
    (hsame : ∀ i < n, lo ≤ i → ∀ j < n, lo ≤ j → pa i = pa j → D i = D j) : m'.laid s pa lo D := by
  obtain ⟨hflows, hn', t, htash, htmem, hst⟩ := hm
  have ht : t.ashore = s.ashore := htash.trans h.ashore
  obtain ⟨-, hal, hpost, hlost, hbase⟩ := hland m.n hn hlo
  have htbyte (a : Nat) : t.byteAt .hbm a = m.st.byteAt .hbm a := by simp only [State.byteAt, htmem]
  have hbase' : pa m.n + ds.length ≤ t.plan.resBase := by
    have hplan : t.plan = s.plan := by simp only [State.ashore, Prod.mk.injEq] at ht; exact ht.2.2.1
    rw [hplan, hlen]
    exact hbase
  have hpost' : t.postHit .hbm (pa m.n) = false := (State.ashore_postHit ht ..).trans hpost
  have hlost' : t.memLost .hbm (pa m.n) = false := (State.ashore_memLost ht ..).trans hlost
  refine ⟨hflows, by rw [hst, t.devWrite_ashore hbase', ht], fun a ha => ?_, fun i hi hi' ds' hds => ?_⟩
  · rw [hst, t.devWrite_byteAt .hbm _ ds false fun _ => by rw [hlen]; exact ha m.n (by omega) hlo, htbyte]
    exact h.stands a fun i hi => ha i (by omega)
  · rw [hst]
    by_cases hpa : pa i = pa m.n
    · rw [hsame i (by omega) hi' m.n hn hlo hpa] at hds
      rw [hpa, hD ds' hds]
      exact State.holdsLine_devWrite hlen hal hpost' hlost'
    · have him : i < m.n := by
        have : i ≠ m.n := fun e => hpa (congrArg pa e)
        omega
      refine State.holdsLine_devWrite_ne hlen (hland i (by omega) hi').2.1 hal hpa hpost' hlost' ?_
      have hold := h.data i him hi' ds' hds
      unfold State.holdsLine State.poisonAt at hold ⊢
      simpa only [htmem, htbyte] using hold

theorem Dma.laid.put {s : State} {dst : Nat} {pa : Nat → Nat} {lo n : Nat} {D : Nat → Option (List PByte)} {m : Dma} (h : m.laid s pa lo D)
    (hland : s.landing dst pa lo n) (hn : m.n < n) (hlo : lo ≤ m.n) (ds : List PByte) :
    m.lays (m.put (dst + 64 * m.n) ds) (pa m.n) ds ∧ (m.put (dst + 64 * m.n) ds).hs = m.hs := by
  obtain ⟨hx, -, -, hlost, -⟩ := hland m.n hn hlo
  exact Dma.put_lays h.flows ds ((State.ashore_xlate h.ashore ..).trans hx) ((State.ashore_memLost h.ashore ..).trans hlost)

/-! ### The lines of a transfer, by its kind -/

theorem Dma.line_eq {m : Dma} (hm : m.flows) {d : Desc} (hn : m.n < d.dmaLines) : m.line d =
    if d.type = 4 then m.put (d.f 8 0 64 + 64 * m.n) d.pattern
    else match d.f 0 22 2 with
      | 0 => m.fromHost (d.f 8 0 64 + 64 * m.n) (d.f 0x10 0 64 + 64 * m.n)
      | 1 => m.toHost (d.f 8 0 64 + 64 * m.n) (d.f 0x10 0 64 + 64 * m.n)
      | _ => m.within (d.f 8 0 64 + 64 * m.n) (d.f 0x10 0 64 + 64 * m.n) := by
  obtain ⟨hfail, -, hwait⟩ := hm
  unfold Dma.line
  exact if_neg (by simp [hfail, hwait]; omega)

/-- A transfer that waits for the host stands still. -/
theorem Dma.line_waits {m : Dma} (hw : m.wait = true) (d : Desc) : m.line d = m := by
  unfold Dma.line
  rw [if_pos (by simp [hw])]

theorem Desc.length_pattern (d : Desc) : d.pattern.length = 64 := by simp [Desc.pattern, bytesOf, leBytes]

theorem Desc.pattern_clean (d : Desc) (j : Nat) : (nth (0, false) d.pattern j).2 = false := by
  unfold nth
  rw [List.getD_eq_getElem?_getD]
  cases hj : d.pattern[j]? with
  | none => rfl
  | some b =>
    have hb := List.mem_of_getElem? hj
    simp only [Desc.pattern, List.mem_flatMap, bytesOf, List.mem_map] at hb
    obtain ⟨-, -, x, -, rfl⟩ := hb
    rfl

/-- A number of lines in a row that keep an invariant. -/
theorem iter_counts {α : Type} {P : Nat → α → Prop} {f : α → α} {n : Nat} (hf : ∀ i < n, ∀ x, P i x → P (i + 1) (f x)) :
    ∀ {k : Nat}, k ≤ n → ∀ {a : α}, P 0 a → P k (iter k (fun _ x => f x) a) := by
  intro k
  induction k with
  | zero => exact fun _ a ha => ha
  | succ k ih =>
    intro hk a ha
    have hlast : iter (k + 1) (fun _ x => f x) a = f (iter k (fun _ x => f x) a) := by simp [iter, List.range_succ]
    rw [hlast]
    exact hf k hk _ (ih (by omega) ha)

/-- A transfer as it stands after up to `k` further lines. -/
def State.dmaRun (s : State) (d : Desc) (k : Nat) : Dma := iter k (fun _ x => x.line d) (d.dma s)

/-- The descriptor of a transfer as its lines leave it. -/
def Dma.desc (m : Dma) (d : Desc) : Desc := { d with progress := m.n, replies := m.hs, lost := m.lost, result := m.result d.dmaLines }

theorem State.dmaGo_eq (s : State) (d : Desc) (k : Nat) : s.dmaGo d k = (s.dmaRun d k).st.setDesc ((s.dmaRun d k).desc d) := rfl

section
variable {s : State} {d : Desc} {pa : Nat → Nat} {k : Nat}

/-- A FILL lays its pattern, line after line (R410). -/
theorem State.dmaRun_fill (hd : d.lost = false) (ht : d.type = 4) (hland : s.landing (d.f 8 0 64) pa d.progress d.dmaLines) (hk : k ≤ d.dmaLines - d.progress) :
    (s.dmaRun d k).n = d.progress + k ∧ (s.dmaRun d k).hs = d.replies ∧ (s.dmaRun d k).laid s pa d.progress (fun _ => some d.pattern) := by
  refine iter_counts (P := fun i (m : Dma) => m.n = d.progress + i ∧ m.hs = d.replies ∧ m.laid s pa d.progress fun _ => some d.pattern) ?_ hk
    ⟨rfl, rfl, Desc.dma_laid hd pa _⟩
  intro i hi m ⟨hn, hhs, hm⟩
  have hlt : m.n < d.dmaLines := by omega
  obtain ⟨hput, hpuths⟩ := hm.put hland hlt (by omega) d.pattern
  rw [Dma.line_eq hm.flows hlt, if_pos ht]
  exact ⟨by rw [hput.2.1, hn]; rfl, hpuths.trans hhs,
    hm.step hland hlt (by omega) hput d.length_pattern (fun _ h => (Option.some.inj h).symm) fun _ _ _ _ _ _ _ => rfl⟩

/-- A line of the host as it is written to device memory. -/
def Line.clean (l : Line) : List PByte := (lineBytes l).map (fun b => (b, false))

theorem Line.length_clean (l : Line) : (Line.clean l).length = 64 := by simp [Line.clean, lineBytes, leBytes]

theorem Line.clean_byte (l : Line) {j : Nat} (hj : j < 64) : (nth (0, false) (Line.clean l) j).1 = nth 0 (lineBytes l) j := by
  have hlen : (lineBytes l).length = 64 := by simp [lineBytes, leBytes]
  simp [nth, Line.clean, hlen, hj]

/-- A MOVE from the host lays the lines of the answers, in their order (R409). -/
theorem State.dmaRun_fromHost (hd : d.lost = false) (ht : d.type = 3) (hdir : d.f 0 22 2 = 0) (hf : s.feeding = false) (hp : s.side.perstN = true)
    (hland : s.landing (d.f 0x10 0 64) pa d.progress d.dmaLines) (hapart : ∀ i < d.dmaLines, ∀ j < d.dmaLines, i ≠ j → pa i ≠ pa j)
    {ls : List Line} (hls : ls.length = d.dmaLines - d.progress) (hr : d.replies = ls.map (fun l => HostReply.line l false)) (hk : k ≤ d.dmaLines - d.progress) :
    (s.dmaRun d k).n = d.progress + k ∧ (s.dmaRun d k).hs = (ls.drop k).map (fun l => HostReply.line l false)
      ∧ (s.dmaRun d k).laid s pa d.progress (fun i => some (Line.clean (nth 0 ls (i - d.progress)))) := by
  refine iter_counts (P := fun i (m : Dma) => m.n = d.progress + i ∧ m.hs = (ls.drop i).map (fun l => HostReply.line l false)
    ∧ m.laid s pa d.progress fun i => some (Line.clean (nth 0 ls (i - d.progress)))) ?_ hk ⟨rfl, hr, Desc.dma_laid hd pa _⟩
  intro i hi m ⟨hn, hhs, hm⟩
  have hlt : m.n < d.dmaLines := by omega
  have hil : i < ls.length := by omega
  rw [List.drop_eq_getElem_cons hil, List.map_cons] at hhs
  obtain ⟨-, -, -, -, -, hside, hfeed⟩ := State.ashore_reads hm.ashore
  obtain ⟨t, hline, hash, hmem⟩ := m.st.hostLine_line cxlUnit (d.f 8 0 64 + 64 * m.n) ls[i] false ((ls.drop (i + 1)).map (fun l => HostReply.line l false))
    (hfeed.trans hf) (by rw [hside, hp])
  have hfrom : m.line d = ({ m with st := t, hs := (ls.drop (i + 1)).map (fun l => HostReply.line l false) } : Dma).put (d.f 0x10 0 64 + 64 * m.n) (Line.clean ls[i]) := by
    rw [Dma.line_eq hm.flows hlt, if_neg (by omega), hdir]
    simp only [Dma.fromHost, hhs, hline, Line.clean]
  obtain ⟨hx, -, -, hlost, -⟩ := hland m.n hlt (by omega)
  have ht' : t.ashore = s.ashore := hash.trans hm.ashore
  obtain ⟨⟨hflows, hnext, t', hash', hmem', hst⟩, hpuths⟩ := Dma.put_lays (m := { m with st := t, hs := (ls.drop (i + 1)).map (fun l => HostReply.line l false) })
    hm.flows (Line.clean ls[i]) ((State.ashore_xlate ht' ..).trans hx) ((State.ashore_memLost ht' ..).trans hlost)
  rw [hfrom]
  refine ⟨by rw [hnext, hn]; rfl, hpuths, hm.step hland hlt (by omega) ⟨hflows, hnext, t', hash'.trans hash, hmem'.trans hmem, hst⟩ (Line.length_clean _) ?_ ?_⟩
  · intro ds hds
    rw [← Option.some.inj hds, hn, Nat.add_sub_cancel_left]
    simp [nth, hil]
  · intro a ha _ b hb _ hab
    rw [show a = b from Decidable.not_not.1 fun hne => hapart a ha b hb hne hab]

/-- A MOVE within device memory lays what it reads; of its first line the data is known beforehand (R409). -/
theorem State.dmaRun_within (hd : d.lost = false) (ht : d.type = 3) (hdir : d.f 0 22 2 = 2)
    (hland : s.landing (d.f 0x10 0 64) pa d.progress d.dmaLines) (hread : ∀ i < d.dmaLines, ∃ ds, s.vaRead (d.f 8 0 64 + 64 * i) 64 = .inr ds)
    (D : Nat → Option (List PByte)) (hD : ∀ i ds, D i = some ds → i = d.progress ∧ s.vaRead (d.f 8 0 64 + 64 * i) 64 = .inr ds)
    (hsame : ∀ i < d.dmaLines, d.progress ≤ i → ∀ j < d.dmaLines, d.progress ≤ j → pa i = pa j → D i = D j) (hk : k ≤ d.dmaLines - d.progress) :
    (s.dmaRun d k).n = d.progress + k ∧ (s.dmaRun d k).hs = d.replies ∧ (s.dmaRun d k).laid s pa d.progress D := by
  suffices h : ((s.dmaRun d k).n = d.progress + k ∧ (s.dmaRun d k).hs = d.replies ∧ (s.dmaRun d k).laid s pa d.progress D) ∧ (k = 0 → (s.dmaRun d k).st = s) from h.1
  refine iter_counts (P := fun i (m : Dma) => (m.n = d.progress + i ∧ m.hs = d.replies ∧ m.laid s pa d.progress D) ∧ (i = 0 → m.st = s)) ?_ hk
    ⟨⟨rfl, rfl, Desc.dma_laid hd pa _⟩, fun _ => rfl⟩
  intro i hi m ⟨⟨hn, hhs, hm⟩, hfirst⟩
  have hlt : m.n < d.dmaLines := by omega
  obtain ⟨ds, hds, hlen⟩ := State.ashore_vaRead hm.ashore (hread m.n hlt)
  obtain ⟨hput, hpuths⟩ := hm.put hland hlt (by omega) ds
  have hline : m.line d = m.put (d.f 0x10 0 64 + 64 * m.n) ds := by
    rw [Dma.line_eq hm.flows hlt, if_neg (by omega), hdir]
    simp only [Dma.within, hds]
  rw [hline]
  refine ⟨⟨by rw [hput.2.1, hn]; rfl, hpuths.trans hhs, hm.step hland hlt (by omega) hput hlen ?_ hsame⟩, fun h => absurd h (Nat.succ_ne_zero _)⟩
  intro ds' hds'
  obtain ⟨hat, hval⟩ := hD _ _ hds'
  rw [hfirst (by omega), hval] at hds
  exact Sum.inr.inj hds

/-- A MOVE to the host sends what it reads, line after line, and writes nothing (R389, R409). -/
theorem State.dmaRun_toHost (hd : d.lost = false) (ht : d.type = 3) (hdir : d.f 0 22 2 = 1) (hf : s.feeding = false) (hp : s.side.perstN = true)
    (hr : d.replies = []) (hread : ∀ i < d.dmaLines, ∃ ds, s.vaRead (d.f 8 0 64 + 64 * i) 64 = .inr ds) (hk : k ≤ d.dmaLines - d.progress) :
    (s.dmaRun d k).flows ∧ (s.dmaRun d k).n = d.progress + k ∧ (s.dmaRun d k).hs = [] ∧ (s.dmaRun d k).st.ashore = s.ashore ∧ (s.dmaRun d k).st.mem = s.mem
      ∧ ∀ i < d.progress + k, d.progress ≤ i → ∀ ds, s.vaRead (d.f 8 0 64 + 64 * i) 64 = .inr ds →
        Output.hostWrite (d.f 0x10 0 64 + 64 * i) (ds.map (·.1)) (ds.any (·.2)) ∈ (s.dmaRun d k).st.outbox := by
  refine iter_counts (P := fun i (m : Dma) => m.flows ∧ m.n = d.progress + i ∧ m.hs = [] ∧ m.st.ashore = s.ashore ∧ m.st.mem = s.mem
      ∧ ∀ j < d.progress + i, d.progress ≤ j → ∀ ds, s.vaRead (d.f 8 0 64 + 64 * j) 64 = .inr ds →
        Output.hostWrite (d.f 0x10 0 64 + 64 * j) (ds.map (·.1)) (ds.any (·.2)) ∈ m.st.outbox) (a := d.dma s) ?_ hk
    ⟨⟨rfl, hd, rfl⟩, rfl, hr, rfl, rfl, fun i hi hlo => absurd hlo (Nat.not_le.2 hi)⟩
  intro i hi m ⟨hm, hn, hhs, hash, hmem, hout⟩
  have hlt : m.n < d.dmaLines := by omega
  obtain ⟨ds, hds⟩ := hread m.n hlt
  obtain ⟨-, -, -, -, -, hside, hfeed⟩ := State.ashore_reads hash
  have hfeed' := hfeed.trans hf
  have hperst : m.st.side.perstN = true := by rw [hside, hp]
  have hline : m.line d = { m with st := m.st.emit (.hostWrite (d.f 0x10 0 64 + 64 * m.n) (ds.map (·.1)) (ds.any (·.2))), hs := [], n := m.n + 1 } := by
    rw [Dma.line_eq hm hlt, if_neg (by omega), hdir]
    simp only [Dma.toHost, State.vaRead_of_mem hash hmem, hds, hhs, State.hostPost_nil _ _ _ _ hfeed' hperst, Bool.false_eq_true, if_false]
  rw [hline]
  refine ⟨hm, by simp only [hn]; rfl, rfl, ((State.emit_ashore ..).1).trans hash, ((State.emit_ashore ..).2).trans hmem, fun j hj hlo ds' hds' => ?_⟩
  have hbox := State.emit_outbox m.st (.hostWrite (d.f 0x10 0 64 + 64 * m.n) (ds.map (·.1)) (ds.any (·.2))) hfeed' (by simp [State.portHeld, hperst])
  simp only [hbox, List.mem_append, List.mem_singleton]
  by_cases hjn : j = m.n
  · subst hjn
    rw [hds] at hds'
    exact .inr (by rw [Sum.inr.inj hds'])
  · exact .inl (hout j (by omega) hlo ds' hds')

/-- Without an answer of the host a MOVE from it waits at its next line (R409). -/
theorem State.dmaRun_waits (hd : d.lost = false) (ht : d.type = 3) (hdir : d.f 0 22 2 = 0) (hf : s.feeding = false) (hp : s.side.perstN = true)
    (hr : d.replies = []) (hlt : d.progress < d.dmaLines) (hk : 0 < k) :
    s.dmaRun d k = { d.dma s with st := s.emit (.hostRead (d.f 8 0 64 + 64 * d.progress) 1 false), wait := true } := by
  have hfirst : (d.dma s).line d = { d.dma s with st := s.emit (.hostRead (d.f 8 0 64 + 64 * d.progress) 1 false), wait := true } := by
    rw [Dma.line_eq ⟨rfl, hd, rfl⟩ hlt, if_neg (by omega), hdir]
    have hline := s.hostLine_nil cxlUnit (d.f 8 0 64 + 64 * d.progress) hf hp
    simp only [Dma.fromHost, Desc.dma, hr, hline]
  obtain ⟨j, rfl⟩ : ∃ j, k = j + 1 := ⟨k - 1, by omega⟩
  have hsucc : s.dmaRun d (j + 1) = iter j (fun _ x => x.line d) ((d.dma s).line d) := by
    simp [State.dmaRun, iter, List.range_succ_eq_map, List.foldl_map]
  rw [hsucc, hfirst]
  exact iter_induction (· = _) j _ _ rfl fun _ x hx => by rw [hx]; exact Dma.line_waits rfl d
end

/-! ### The descriptor of a transfer -/

theorem find?_updWhere {p q : Desc → Bool} {d : Desc} : ∀ {l : List Desc}, (∀ x, l.find? p = some x → q x = true) → (∃ x ∈ l, q x = true) → p d = true →
    (updWhere q (fun _ => d) l).find? p = some d := by
  intro l
  induction l with
  | nil => exact fun _ ⟨_, hx, _⟩ => absurd hx List.not_mem_nil
  | cons y ys ih =>
    intro h hex hp
    by_cases hq : q y = true
    · simp [updWhere, hq, hp]
    · have hpy : p y = false := Bool.eq_false_of_not_eq_true fun e => hq (h y (by simp [List.find?, e]))
      have hrest := ih (fun x hx => h x (by simpa [List.find?, hpy] using hx)) (by simpa [hq] using hex) hp
      simpa [updWhere, hq, hpy] using hrest

theorem State.dmaHand_setDesc {s : State} {d : Desc} (h : ∀ q, s.dmaHand = some q → q.order = d.order) (hin : ∃ q ∈ s.host.descs, q.order = d.order)
    (hst : d.started = true) (ht : d.type = 3 ∨ d.type = 4) : (s.setDesc d).dmaHand = some d :=
  find?_updWhere (fun x hx => beq_iff_eq.2 (h x hx)) (by simpa using hin) (by simpa [hst] using ht)

theorem State.dmaHand_of_host {s t : State} (h : t.host = s.host) : t.dmaHand = s.dmaHand := by simp only [State.dmaHand, h]

/-- The transfer in hand is among the descriptors taken, started, a MOVE or a FILL. -/
theorem State.dmaHand_some {s : State} {d : Desc} (h : s.dmaHand = some d) : d ∈ s.host.descs ∧ d.started = true ∧ (d.type = 3 ∨ d.type = 4) :=
  ⟨List.mem_of_find?_eq_some h, by simpa using List.find?_some h⟩

theorem State.dmaNext_some {s : State} {d : Desc} {type : Nat} (h : s.dmaNext type = some d) : s.dmaHand = none ∧ d ∈ s.host.descs ∧ d.type = type := by
  unfold State.dmaNext at h
  split at h
  next => simp at h
  next hfree =>
    obtain ⟨hnext, htype⟩ := Option.filter_eq_some_iff.1 h
    simp only [Bool.or_eq_true, not_or] at hfree
    exact ⟨by simpa using hfree.1, List.mem_of_find?_eq_some hnext, by simpa using htype⟩

theorem Desc.f_lt (d : Desc) (off lo w : Nat) : d.f off lo w < 2 ^ w := Nat.mod_lt _ (by positivity)

theorem Desc.dmaLines_lt (d : Desc) : d.dmaLines < 2 ^ 28 := by
  unfold Desc.dmaLines
  split <;> exact d.f_lt ..

/-- What a run that laid its lines leaves of the module (R409, R410). -/
theorem Dma.laid.frame {s : State} {pa : Nat → Nat} {lo : Nat} {D : Nat → Option (List PByte)} {m : Dma} (h : m.laid s pa lo D) (q : Desc) :
    (m.st.setDesc q).cores = s.cores ∧ (m.st.setDesc q).groups = s.groups
      ∧ (∀ a, (∀ i < m.n, lo ≤ i → a < pa i ∨ pa i + 64 ≤ a) → (m.st.setDesc q).byteAt .hbm a = s.byteAt .hbm a) ∧ (m.st.setDesc q).mem.ddr = s.mem.ddr := by
  obtain ⟨hcores, hgroups, hddr, -⟩ := State.ashore_reads h.ashore
  exact ⟨hcores, hgroups, h.stands, hddr⟩

/-! ### MOVE and FILL started -/

theorem exec_fill {s : State} {d : Desc} {n : Nat} (h : s.dmaNext 4 = some d) (h0 : d.f 0 0 24 = 0) (hn : d.f 0x10 0 28 = n) (hpos : 0 < n) (h1 : d.f 0x10 28 4 = 0)
    (hc : d.clear 0x18 = true) (hlt : d.f 8 0 64 < 2 ^ 43) (hal : d.f 8 0 64 % 64 = 0) : exec .fill s = .next (s.dmaStart d []) := by
  show execFill s = _
  unfold execFill
  rw [h]
  dsimp only
  rw [if_neg (by simp [h0, hn, h1, hc, hal]; omega)]

theorem exec_move {s : State} {d : Desc} {n : Nat} (h : s.dmaNext 3 = some d) (h0 : d.f 0 0 22 = 0) (hn : d.f 0x18 0 28 = n) (hpos : 0 < n) (h1 : d.f 0x18 28 4 = 0)
    (hc : d.clear 0x1C = true) (hsrc : d.f 8 0 64 % 64 = 0) (hdst : d.f 0x10 0 64 % 64 = 0) (hdir : d.f 0 22 2 ≠ 3)
    (hs : d.f 0 22 2 ≠ 0 → d.f 8 0 64 < 2 ^ 43) (hd : d.f 0 22 2 ≠ 1 → d.f 0x10 0 64 < 2 ^ 43)
    (hlap : d.f 0 22 2 = 2 → d.f 0x10 0 64 + 64 * n ≤ d.f 8 0 64 ∨ d.f 8 0 64 + 64 * n ≤ d.f 0x10 0 64) (host : List HostReply) :
    exec (.move host) s = .next (s.dmaStart d host) := by
  show execMove host s = _
  unfold execMove
  rw [h]
  dsimp only
  rw [if_neg (by simp [h0, hn, h1, hc, hsrc, hdst, hdir]; omega)]

/-- A transfer as it starts: in hand, none of its lines issued. -/
def Desc.begun (d : Desc) (s : State) (host : List HostReply) : Desc :=
  { d with started := true, since := s.time.now, result := none, progress := 0, replies := host, lost := false }

/-- A transfer that starts issues some of its lines, not all (R409). -/
theorem State.dmaStart_part (s : State) {d : Desc} (host : List HostReply) (hpos : 0 < d.dmaLines) : ∃ k < d.dmaLines, s.dmaStart d host = s.free64.2.dmaGo (d.begun s host) k :=
  ⟨s.free64.1.toNat % max 1 (d.dmaLines - 0), (Nat.mod_lt _ (by omega)).trans_le (by omega), rfl⟩

/-- The transfer in hand after a start that flowed. -/
theorem State.dmaHand_begun {s : State} {d : Desc} {host : List HostReply} {type k : Nat} {r : List HostReply} (h : s.dmaNext type = some d) (ht : type = 3 ∨ type = 4) {m : Dma}
    (hash : m.st.ashore = s.ashore) (hm : m.flows) (hn : m.n = 0 + k) (hk : k < d.dmaLines) (hhs : m.hs = r) :
    (m.st.setDesc (m.desc (d.begun s host))).dmaHand
      = some { d with started := true, since := s.time.now, result := none, progress := k, replies := r, lost := false } := by
  obtain ⟨hnone, hmem, htype⟩ := State.dmaNext_some h
  obtain ⟨-, -, -, hhost, -⟩ := State.ashore_reads hash
  obtain ⟨hfail, hlost, -⟩ := hm
  have hres : m.result (d.begun s host).dmaLines = none := by
    unfold Dma.result
    rw [hfail]
    exact if_pos (show m.n < d.dmaLines by omega)
  unfold Dma.desc
  rw [hres, hhs, hlost, hn, Nat.zero_add]
  exact State.dmaHand_setDesc (fun q hq => by rw [State.dmaHand_of_host hhost, hnone] at hq; cases hq) ⟨d, by rw [hhost]; exact hmem, rfl⟩ rfl (htype ▸ ht)

/-! ### HOST_DMA_DONE -/

/-- A transfer whose last lines flowed completes with the lines it wrote (R409). -/
theorem exec_hostDmaDone {s : State} {d : Desc} (h : s.dmaHand = some d) (hres : d.result = none) {k : Nat} (hk : k = d.dmaLines - d.progress)
    (hlt : d.progress < d.dmaLines) (hash : (s.dmaRun d k).st.ashore = s.ashore) (hm : (s.dmaRun d k).flows) (hn : (s.dmaRun d k).n = d.progress + k) :
    ∃ q, exec .hostDmaDone s = .next (((s.dmaRun d k).st.setDesc q).complete q 0 d.dmaLines 0)
      ∧ s.completed (((s.dmaRun d k).st.setDesc q).complete q 0 d.dmaLines 0) d 0 d.dmaLines 0 := by
  obtain ⟨hmem, hstarted, htype⟩ := State.dmaHand_some h
  obtain ⟨-, -, -, hhost, htime, hside, hfeed⟩ := State.ashore_reads hash
  obtain ⟨hfail, hlost, -⟩ := hm
  set m := s.dmaRun d k with hmdef
  have hlines : m.n = d.dmaLines := by omega
  have hmres : m.result d.dmaLines = some (0, BitVec.ofNat 64 d.dmaLines, 0) := by simp [Dma.result, hfail, hlost, hlines]
  refine ⟨m.desc d, ?_, ?_⟩
  · show execHostDmaDone s = _
    have hgo : s.dmaGo d (d.dmaLines - d.progress) = m.st.setDesc (m.desc d) := by
      rw [State.dmaGo_eq, ← hk]
    have hhand := State.dmaHand_setDesc (s := m.st) (d := m.desc d)
      (fun q hq => by rw [State.dmaHand_of_host hhost, h] at hq; rw [← Option.some.inj hq]; rfl) ⟨d, by rw [hhost]; exact hmem, rfl⟩ hstarted htype
    unfold execHostDmaDone
    rw [h]
    dsimp only
    rw [if_neg (by simp [hres]), hgo, hhand]
    simp only [Dma.desc, hmres]
    have hnat : (BitVec.ofNat 64 d.dmaLines).toNat = d.dmaLines := by
      have := d.dmaLines_lt
      rw [BitVec.toNat_ofNat]
      omega
    simp only [hnat]
    rfl
  · have hdone := State.complete_completed (m.st.setDesc (m.desc d))
      (m.desc d) 0 d.dmaLines 0
    generalize State.complete _ _ 0 d.dmaLines 0 = t at hdone ⊢
    obtain ⟨hgone, hwritten, hheld⟩ := hdone
    have hring (r : Nat) : (m.st.setDesc (m.desc d)).ring r = s.ring r := by
      show m.st.ring r = s.ring r
      simp only [State.ring, hhost]
    have hfeed' : (m.st.setDesc (m.desc d)).feeding = s.feeding := hfeed
    have hheld' : (m.st.setDesc (m.desc d)).portHeld = s.portHeld := by
      simp only [State.portHeld, hfeed', State.setDesc_side, hside]
    simp only [hring, hfeed', hheld', State.setDesc_side, hside, State.setDesc_time, htime] at hwritten hheld
    exact ⟨hgone, hwritten, hheld⟩

/-- A transfer that waits for the host stays in hand as it is (R409). -/
theorem exec_hostDmaDone_waits {s : State} {d : Desc} (h : s.dmaHand = some d) (ht : d.type = 3) (hdir : d.f 0 22 2 = 0) (hd : d.lost = false) (hf : s.feeding = false)
    (hp : s.side.perstN = true) (hres : d.result = none) (hlt : d.progress < d.dmaLines) (hr : d.replies = []) :
    ∃ t, exec .hostDmaDone s = .next t ∧ t.work = s.work ∧ t.dmaHand = some d := by
  obtain ⟨hmem, hstarted, htype⟩ := State.dmaHand_some h
  have hrun := State.dmaRun_waits hd ht hdir hf hp hr hlt (k := d.dmaLines - d.progress) (by omega)
  have hdesc : (s.dmaRun d (d.dmaLines - d.progress)).desc d = d := by
    have hnone : ({ d.dma s with st := s.emit (.hostRead (d.f 8 0 64 + 64 * d.progress) 1 false), wait := true } : Dma).result d.dmaLines = none := if_pos hlt
    rw [hrun, Dma.desc, hnone, ← hres]
    rfl
  have hst : (s.dmaRun d (d.dmaLines - d.progress)).st = s.emit (.hostRead (d.f 8 0 64 + 64 * d.progress) 1 false) := by rw [hrun]
  have hgo : s.dmaGo d (d.dmaLines - d.progress) = (s.emit (.hostRead (d.f 8 0 64 + 64 * d.progress) 1 false)).setDesc d := by rw [State.dmaGo_eq, hdesc, hst]
  have hhand : ((s.emit (.hostRead (d.f 8 0 64 + 64 * d.progress) 1 false)).setDesc d).dmaHand = some d :=
    State.dmaHand_setDesc (fun q hq => by rw [State.dmaHand_of_host (State.emit_host ..), h] at hq; rw [← Option.some.inj hq])
      ⟨d, by rw [State.emit_host]; exact hmem, rfl⟩ hstarted htype
  refine ⟨_, ?_, ?_, hhand⟩
  · show execHostDmaDone s = _
    unfold execHostDmaDone
    rw [h]
    dsimp only
    rw [if_neg (by simp [hres]), hgo, hhand]
    simp only [hres]
  · simp [State.work]

/-- A transfer that has its result completes with it. -/
theorem exec_hostDmaDone_result {s : State} {d : Desc} (h : s.dmaHand = some d) {st : Nat} {d0 : W64} {d1 : W32} (hres : d.result = some (st, d0, d1)) :
    exec .hostDmaDone s = .next (s.complete d st d0.toNat d1.toNat) := by
  show execHostDmaDone s = _
  simp only [execHostDmaDone, h, hres, Option.isSome_some, if_true]

theorem State.mem_emit_outbox {s : State} {o : Output} (x : Output) (h : o ∈ s.outbox) : o ∈ (s.emit x).outbox := by
  unfold State.emit
  split
  · exact h
  · exact List.mem_append_left _ h

/-- A completion takes nothing back that was sent. -/
theorem State.mem_complete_outbox {s : State} {d : Desc} {st a b : Nat} {o : Output} (h : o ∈ s.outbox) : o ∈ (s.complete d st a b).outbox := by
  unfold State.complete State.completeAt
  simp only [State.settleRing_outbox, State.markAt_outbox]
  split
  · simpa using h
  · exact State.mem_emit_outbox _ (by simpa using h)

end Sys2Proof.Machine

open Sys2Proof Sys2Proof.Machine

/-- Settles O51: a transfer's run of lines keeps that the lines issued hold their data and every other byte stands. -/
theorem moveAndFill : Obligations.MoveAndFill := by
  refine ⟨fun s d pa n => ?_, fun s d pa hhand hlost => ?_⟩
  · intro plain apart frame inHand
    have hland {e : Desc} {dst : Nat} (he : e.dmaLines = n) (hp : plain dst) : s.free64.2.landing dst pa 0 e.dmaLines := by
      rw [he]
      exact fun i hi _ => hp.2 i hi
    have hframe {k : Nat} {D : Nat → Option (List PByte)} {m : Dma} (hm : m.laid s.free64.2 pa 0 D) (hk : k < n) (hn : m.n = 0 + k) (q : Desc) : frame (m.st.setDesc q) k := by
      obtain ⟨hcores, hgroups, hbytes, hddr⟩ := hm.frame q
      exact ⟨hk, hcores, hgroups, fun a ha => hbytes a fun i hi _ => ha i (by omega), hddr⟩
    refine ⟨fun h h0 hn hpos h1 hc hlt hplain => ?_, fun h h0 hn hpos h1 hc hsrc hdst => ⟨?_, ?_, ?_⟩⟩
    · have htype := (State.dmaNext_some h).2.2
      have hlines : d.dmaLines = n := by rw [Desc.dmaLines, if_pos htype, hn]
      obtain ⟨k, hk, hstart⟩ := s.dmaStart_part [] (hlines ▸ hpos)
      obtain ⟨hmn, hhs, hm⟩ := State.dmaRun_fill (s := s.free64.2) (d := d.begun s []) (pa := pa) (k := k) rfl htype (hland hlines hplain) (le_of_lt hk)
      refine ⟨_, k, (exec_fill h h0 hn hpos h1 hc hlt hplain.1).trans (congrArg _ hstart), hframe hm (hlines ▸ hk) hmn _,
        State.dmaHand_begun h (.inr rfl) (hm.ashore.trans s.free64_ashore) hm.flows hmn hk hhs, fun i hi => ?_⟩
      obtain ⟨hbytes, hpoison⟩ := hm.data i (by rw [hmn]; exact (Nat.zero_add k).symm ▸ hi) (Nat.zero_le i) _ rfl
      exact ⟨hbytes, hpoison fun j _ => Desc.pattern_clean _ j⟩
    · intro hdir hlt hf hp hplain hapart ls hls
      have htype := (State.dmaNext_some h).2.2
      have hlines : d.dmaLines = n := by rw [Desc.dmaLines, if_neg (by omega), hn]
      obtain ⟨k, hk, hstart⟩ := s.dmaStart_part (ls.map (fun l => HostReply.line l false)) (hlines ▸ hpos)
      obtain ⟨hmn, hhs, hm⟩ := State.dmaRun_fromHost (s := s.free64.2) (d := d.begun s (ls.map (fun l => HostReply.line l false))) (pa := pa) (k := k) rfl htype hdir hf hp
        (hland hlines hplain) (fun i hi j hj => hapart i (hlines ▸ hi) j (hlines ▸ hj)) (hls.trans hlines.symm) rfl (le_of_lt hk)
      refine ⟨_, k, (exec_move h h0 hn hpos h1 hc hsrc hdst (by omega) (by omega) (fun _ => hlt) (by omega) _).trans (congrArg _ hstart), hframe hm (hlines ▸ hk) hmn _,
        State.dmaHand_begun h (.inl rfl) (hm.ashore.trans s.free64_ashore) hm.flows hmn hk hhs, fun i hi j hj => ?_⟩
      obtain ⟨hbytes, -⟩ := hm.data i (by rw [hmn]; exact (Nat.zero_add k).symm ▸ hi) (Nat.zero_le i) _ rfl
      exact (hbytes j hj).trans (Line.clean_byte _ hj)
    · intro hdir hlt hf hp hread
      have htype := (State.dmaNext_some h).2.2
      have hlines : d.dmaLines = n := by rw [Desc.dmaLines, if_neg (by omega), hn]
      obtain ⟨k, hk, hstart⟩ := s.dmaStart_part [] (hlines ▸ hpos)
      obtain ⟨hflows, hmn, hhs, hash, hmem, hout⟩ := State.dmaRun_toHost (s := s.free64.2) (d := d.begun s []) (k := k) rfl htype hdir hf hp rfl
        (fun i hi => hread i (hlines ▸ hi)) (le_of_lt hk)
      obtain ⟨hcores, hgroups, -⟩ := State.ashore_reads hash
      refine ⟨_, k, (exec_move h h0 hn hpos h1 hc hsrc hdst (by omega) (fun _ => hlt) (by omega) (by omega) _).trans (congrArg _ hstart), hlines ▸ hk,
        (State.work_eq_iff _ _).2 ⟨hcores, hmem, hgroups⟩, State.dmaHand_begun h (.inl rfl) (hash.trans s.free64_ashore) hflows hmn hk hhs, fun i hi ds hds => ?_⟩
      exact hout i ((Nat.zero_add k).symm ▸ hi) (Nat.zero_le i) ds hds
    · intro hdir hls hld hlap hplain hread
      have htype := (State.dmaNext_some h).2.2
      have hlines : d.dmaLines = n := by rw [Desc.dmaLines, if_neg (by omega), hn]
      obtain ⟨k, hk, hstart⟩ := s.dmaStart_part [] (hlines ▸ hpos)
      obtain ⟨hmn, hhs, hm⟩ := State.dmaRun_within (s := s.free64.2) (d := d.begun s []) (pa := pa) (k := k) rfl htype hdir (hland hlines hplain)
        (fun i hi => hread i (hlines ▸ hi)) (fun _ => none) (fun _ _ hD => by cases hD) (fun _ _ _ _ _ _ _ => rfl) (le_of_lt hk)
      exact ⟨_, k, (exec_move h h0 hn hpos h1 hc hsrc hdst (by omega) (fun _ => hls) (fun _ => hld) (fun _ => hlap) _).trans (congrArg _ hstart), hframe hm (hlines ▸ hk) hmn _,
        State.dmaHand_begun h (.inl rfl) (hm.ashore.trans s.free64_ashore) hm.flows hmn hk hhs⟩
  · intro n plain apart frame
    have hframe {D : Nat → Option (List PByte)} {k : Nat} {m : Dma} (hm : m.laid s pa d.progress D) (hlt : d.progress < n) (hk : k = n - d.progress)
        (hn : m.n = d.progress + k) (q : Desc) : frame ((m.st.setDesc q).complete q 0 n 0) := by
      obtain ⟨hcores, hgroups, hbytes, hddr⟩ := hm.frame q
      exact ⟨by rw [State.complete_cores, hcores], by rw [State.complete_groups, hgroups],
        fun a ha => by rw [State.byteAt, State.complete_mem]; exact hbytes a fun i hi => ha i (by omega), by rw [State.complete_mem, hddr]⟩
    have hdata {D : Nat → Option (List PByte)} {m : Dma} (hm : m.laid s pa d.progress D) (hlt : d.progress < n) (hn : m.n = d.progress + (n - d.progress)) (q : Desc)
        {i : Nat} (hi : i < n) (hi' : d.progress ≤ i) {ds : List PByte} (hds : D i = some ds) : ((m.st.setDesc q).complete q 0 n 0).holdsLine (pa i) ds := by
      have hold := hm.data i (by omega) hi' ds hds
      unfold State.holdsLine State.byteAt State.poisonAt at hold ⊢
      rw [State.complete_mem]
      exact hold
    refine ⟨?_, ?_, ?_, ?_, ?_, ?_⟩
    · intro htype ⟨hres, hlt, hal, hland⟩
      obtain ⟨hmn, -, hm⟩ := State.dmaRun_fill (s := s) (pa := pa) hlost htype hland le_rfl
      obtain ⟨q, hexec, hdone⟩ := exec_hostDmaDone hhand hres rfl hlt hm.ashore hm.flows hmn
      refine ⟨_, hexec, hframe hm hlt rfl hmn q, hdone, fun i hi hi' => ?_⟩
      obtain ⟨hbytes, hpoison⟩ := hdata hm hlt hmn q hi hi' rfl
      exact ⟨hbytes, hpoison fun j _ => Desc.pattern_clean _ j⟩
    · intro htype hdir hf hp ⟨hres, hlt, hal, hland⟩ hapart ls hls hr
      obtain ⟨hmn, -, hm⟩ := State.dmaRun_fromHost (s := s) (pa := pa) hlost htype hdir hf hp hland hapart hls hr le_rfl
      obtain ⟨q, hexec, hdone⟩ := exec_hostDmaDone hhand hres rfl hlt hm.ashore hm.flows hmn
      exact ⟨_, hexec, hframe hm hlt rfl hmn q, hdone, fun i hi hi' j hj => ((hdata hm hlt hmn q hi hi' rfl).1 j hj).trans (Line.clean_byte _ hj)⟩
    · intro htype hdir hf hp hres hlt hr
      exact exec_hostDmaDone_waits hhand htype hdir hlost hf hp hres hlt hr
    · intro htype hdir hf hp hres hlt hr hread
      obtain ⟨hflows, hmn, -, hash, hmem, hout⟩ := State.dmaRun_toHost (s := s) hlost htype hdir hf hp hr hread le_rfl
      obtain ⟨q, hexec, hdone⟩ := exec_hostDmaDone hhand hres rfl hlt hash hflows hmn
      obtain ⟨hcores, hgroups, -⟩ := State.ashore_reads hash
      refine ⟨_, hexec, ?_, hdone, fun i hi hi' ds hds => State.mem_complete_outbox (hout i (by omega) hi' ds hds)⟩
      exact (State.work_eq_iff _ _).2 ⟨by rw [State.complete_cores]; exact hcores, by rw [State.complete_mem]; exact hmem, by rw [State.complete_groups]; exact hgroups⟩
    · intro htype hdir ⟨hres, hlt, hal, hland⟩ hread
      by_cases hone : d.progress + 1 = n
      · obtain ⟨ds, hds⟩ := hread d.progress hlt
        obtain ⟨hmn, -, hm⟩ := State.dmaRun_within (s := s) (pa := pa) hlost htype hdir hland hread (fun i => if i = d.progress then some ds else none)
          (fun i ds' h => by
            split at h
            next hi => exact ⟨hi, by rw [hi, hds, Option.some.inj h]⟩
            next => cases h)
          (fun i hi hi' j hj hj' _ => by rw [show i = j by omega]) le_rfl
        obtain ⟨q, hexec, hdone⟩ := exec_hostDmaDone hhand hres rfl hlt hm.ashore hm.flows hmn
        refine ⟨_, hexec, hframe hm hlt rfl hmn q, hdone, fun _ ds' hds' => ?_⟩
        rw [hds] at hds'
        exact (hdata hm hlt hmn q hlt le_rfl (by rw [if_pos rfl, Sum.inr.inj hds'])).1
      · obtain ⟨hmn, -, hm⟩ := State.dmaRun_within (s := s) (pa := pa) hlost htype hdir hland hread (fun _ => none) (fun _ _ h => by cases h)
          (fun _ _ _ _ _ _ _ => rfl) le_rfl
        obtain ⟨q, hexec, hdone⟩ := exec_hostDmaDone hhand hres rfl hlt hm.ashore hm.flows hmn
        exact ⟨_, hexec, hframe hm hlt rfl hmn q, hdone, fun h => absurd h hone⟩
    · intro st d0 d1 hres
      refine ⟨_, exec_hostDmaDone_result hhand hres, State.complete_work .., s.complete_completed ..⟩
end

