-- ==== Sys2Proof/Proofs/TableDescriptors.lean ====
section
/-! SET_TABLE, QUERY, FENCE and RECORD_MARK. -/

namespace Sys2Proof.Machine

/-! ### Tables written -/

theorem Dma.put_pages (m : Dma) (va : Nat) (ds : List PByte) : (m.put va ds).st.pages = m.st.pages := by
  unfold Dma.put
  split
  · rfl
  · split <;> simp

theorem Dma.fromHost_pages (m : Dma) (a b : Nat) : (m.fromHost a b).st.pages = m.st.pages := by
  have hline := (m.st.portOnly_hostLine cxlUnit a m.hs).same State.pages
  unfold Dma.fromHost
  split
  next h => rw [h] at hline; exact hline
  next h => rw [h] at hline; exact hline
  next h => rw [h] at hline; exact (Dma.put_pages ..).trans hline

theorem Dma.toHost_pages (m : Dma) (a b : Nat) : (m.toHost a b).st.pages = m.st.pages := by
  unfold Dma.toHost
  split
  · rfl
  · simp only []
    split <;> exact (m.st.portOnly_hostPost ..).same State.pages

theorem Dma.line_pages (d : Desc) (m : Dma) : (m.line d).st.pages = m.st.pages := by
  unfold Dma.line
  simp only []
  split
  · rfl
  · split
    · exact Dma.put_pages ..
    · split
      · exact Dma.fromHost_pages ..
      · exact Dma.toHost_pages ..
      · unfold Dma.within
        split
        · rfl
        · exact Dma.put_pages ..

theorem State.dmaRun_pages (s : State) (d : Desc) (k : Nat) : (s.dmaRun d k).st.pages = s.pages :=
  iter_keeps (fun m : Dma => m.st.pages) k _ _ (fun _ _ m => m.line_pages d)

theorem State.dmaPart_pages (s : State) (d : Desc) : (s.dmaPart d).pages = s.pages := by
  simp only [State.dmaPart, State.dmaGo_eq, State.setDesc_pages, State.dmaRun_pages]
  rfl

/-- The lines that a transfer issues leave the page table's entries. -/
theorem State.dmaSome_pages (s : State) : s.dmaSome.pages = s.pages := by
  unfold State.dmaSome
  split
  · rfl
  · split
    · rfl
    · exact State.dmaPart_pages ..

theorem State.emptyTlbs_pages (s : State) : s.emptyTlbs.pages = s.pages := rfl

theorem State.pageWrite_pages (s : State) (ix v : Nat) : (s.pageWrite ix v).pages = mset 0 s.pages ix (BitVec.ofNat 64 v) := by
  rw [State.pageWrite, State.emptyTlbs_pages, State.devWrite_pages]

/-- A write that waits for a milepost is set down while a leg runs (R412). -/
theorem State.setApply_waits {s : State} {w : TabWrite} (hw : atOnce w.sel = false) (hl : s.legOn = true) :
    s.setApply [w] = { s with host := { s.host with tables := s.host.tables ++ [w] } } := by
  simp [State.setApply, hw, hl]

/-- With no leg running it takes effect (R412). -/
theorem State.setApply_idle {s : State} {w : TabWrite} (hl : s.legOn = false) : s.setApply [w] = s.tabApply s.legNow w := by
  simp [State.setApply, hl]

theorem State.tabApply_numerics (s : State) (leg : Nat) {w : TabWrite} (h : w.sel = 4) : s.tabApply leg w = { s with num := numericsOf w.val } := by
  simp only [State.tabApply, h]

theorem State.tabApply_page (s : State) (leg : Nat) {w : TabWrite} (h : w.sel = 5) : s.tabApply leg w = s.dmaSome.pageWrite w.ix w.val := by
  simp only [State.tabApply, h]

theorem State.tabApply_format (s : State) (leg : Nat) {w : TabWrite} (h : w.sel = 3) : s.tabApply leg w = s.fmtWrite w.ix w.val := by
  simp only [State.tabApply, h]

/-! ### SET_TABLE and QUERY (R411 to R413, R472) -/

theorem State.complete_tables (s : State) (d : Desc) (st a b : Nat) : (s.complete d st a b).host.tables = s.host.tables := by
  have hsettle (t : State) (r : Nat) : (t.settleRing r).host.tables = t.host.tables := by
    unfold State.settleRing
    simp only []
    split <;> rfl
  have hfail : (s.portFail d.ring).host.tables = s.host.tables := by
    unfold State.portFail
    split <;> rfl
  unfold State.complete State.completeAt
  simp only [hsettle, State.markAt_host]
  split
  · exact hfail
  · rw [State.emit_host]
    exact hfail

theorem exec_setTable {s : State} {d : Desc} {host : List HostReply} {m : McRun} {ws : List TabWrite} (hn : s.mcNext 5 = some d)
    (hw : (McRun.start s host).setTable d.raw = .ok m ws) (h : d.f 0 0 8 ≠ 0x0A) : exec (.setTable host) s = .next ((m.st.setApply ws).complete d 0 ws.length 0) := by
  show execSetTable host s = _
  simp only [execSetTable, hn, hw, if_neg h]

/-- A write of the tag area is set down until its new copy is in flash (R472). -/
theorem exec_setTable_tags {s : State} {d : Desc} {host : List HostReply} {m : McRun} {ws : List TabWrite} (hn : s.mcNext 5 = some d)
    (hw : (McRun.start s host).setTable d.raw = .ok m ws) (h : d.f 0 0 8 = 0x0A) : ∃ t tags, exec (.setTable host) s = .next t
      ∧ t.flash.tagNew = some (d.order, tags) ∧ t.flash.tags = m.st.flash.tags ∧ t.work = m.st.work := by
  have hexec : exec (.setTable host) s = execSetTable host s := rfl
  simp only [execSetTable, hn, hw, if_pos h] at hexec
  exact ⟨_, _, hexec, rfl, rfl, rfl⟩

theorem State.desc_none_iff {s : State} {o : Nat} : s.desc o = none ↔ ∀ q ∈ s.host.descs, q.order ≠ o := by simp [State.desc]

theorem exec_tagAreaFlashWritten {s : State} {o : Nat} {tags : Mem Byte} (h : s.flash.tagNew = some (o, tags)) : ∃ t, exec .tagAreaFlashWritten s = .next t
    ∧ t.flash = { s.flash with tags := tags, tagCount := s.flash.tagCount + 1, tagNew := none } ∧ t.work = s.work ∧ t.desc o = none := by
  show ∃ t, execTagAreaFlashWritten s = .next t ∧ _
  unfold execTagAreaFlashWritten
  rw [h]
  dsimp only
  generalize hs1 : State.measChanged { s with flash := { s.flash with tags := tags, tagCount := s.flash.tagCount + 1, tagNew := none } } 6 = s1
  have hflash : s1.flash = { s.flash with tags := tags, tagCount := s.flash.tagCount + 1, tagNew := none } := by rw [← hs1]; exact State.mark_flash ..
  have hwork : s1.work = s.work := by rw [← hs1]; exact State.mark_work ..
  cases hd : s1.desc o with
  | none => exact ⟨s1, rfl, hflash, hwork, hd⟩
  | some d =>
    have horder : d.order = o := by simpa using List.find?_some hd
    refine ⟨_, rfl, by rw [State.complete_flash, hflash], by rw [State.complete_work, hwork], ?_⟩
    rw [State.desc_none_iff, ← horder]
    exact State.completeAt_gone _ _ _ _ _ _

/-- An answer of one line or less at a line's start is one write to the host. -/
theorem linePieces_line {a n : Nat} (ha : a % 64 = 0) (hpos : 0 < n) (hn : n ≤ 64) : linePieces (n / 64 + 2) a n = [(a, n)] := by
  have hmin : min n (64 - a % 64) = n := by omega
  simp only [linePieces, if_neg (show ¬ n = 0 by omega), hmin, Nat.sub_self, if_true]

theorem State.queryPut_line {s : State} {a : Nat} {bs : List Byte} (ha : a % 64 = 0) (hpos : 0 < bs.length) (hn : bs.length ≤ 64) (hf : s.feeding = false)
    (hp : s.side.perstN = true) : s.queryPut false a bs [] = { st := s.emit (.hostWrite a bs false), host := [], fail := none } := by
  simp [State.queryPut, linePieces_line ha hpos hn, Put.toHost, State.hostPost_nil _ _ _ _ hf hp]

/-- The entries of every selector but the tensor flags' are those of the module, whichever core is asked. -/
theorem State.queryEntry_core (s : State) {sel : Nat} (h : sel ≠ 1) (c c' ix : Nat) : s.queryEntry sel c ix = s.queryEntry sel c' ix := by
  unfold State.queryEntry
  split
  · exact absurd rfl h
  all_goals rfl

theorem Desc.f_zero_within {d : Desc} {lo w lo' w' : Nat} (h : d.f 0 lo w = 0) (hl : lo ≤ lo') (hw : lo' + w' ≤ lo + w) : d.f 0 lo' w' = 0 :=
  bits_eq_zero_of_within h (by omega) (by omega)

theorem exec_query {s : State} {d : Desc} {size n : Nat} {bs : List Byte} (hn : s.mcNext 10 = some d) (hshape : s.queryShape (d.f 0 0 8) = some (size, n)) (hsel : d.f 0 0 8 ≠ 1)
    (h0 : d.f 0 8 16 = 0) (h18 : d.f 0x18 0 16 = 0) (hc : d.clear 0x20 = true) (ha : d.f 0x10 0 64 % 64 = 0) (hcount : 0 < d.f 0xC 0 32) (hrange : d.f 8 0 32 + d.f 0xC 0 32 ≤ n)
    (hcore : (tabCore d.raw).isSome = true) (hlen : size * d.f 0xC 0 32 ≤ d.f 0x1C 0 32)
    (hbs : bs = (List.range (d.f 0xC 0 32)).flatMap (fun i => s.queryEntry (d.f 0 0 8) (nth 0 s.usableCores 0) (d.f 8 0 32 + i))) (hpos : 0 < bs.length) (hline : bs.length ≤ 64)
    (hf : s.feeding = false) (hp : s.side.perstN = true) : exec (.query []) s = .next ((s.emit (.hostWrite (d.f 0x10 0 64) bs false)).complete d 0 bs.length 0) := by
  have h22 : d.f 0 22 1 = 0 := Desc.f_zero_within h0 (by omega) (by omega)
  have h8 : d.f 0 8 13 = 0 := Desc.f_zero_within h0 (by omega) (by omega)
  have h21 : d.f 0 21 1 = 0 := Desc.f_zero_within h0 (by omega) (by omega)
  have h23 : d.f 0 23 1 = 0 := Desc.f_zero_within h0 (by omega) (by omega)
  have hput := State.queryPut_line ha hpos hline hf hp
  have hentries (c : Nat) : (List.range (d.f 0xC 0 32)).flatMap (fun i => s.queryEntry (d.f 0 0 8) c (d.f 8 0 32 + i)) = bs := by
    rw [hbs]
    simp only [s.queryEntry_core hsel c (nth 0 s.usableCores 0)]
  show execQuery [] s = _
  unfold execQuery
  simp only [hn, hshape]
  rw [if_neg (by
    rw [Option.isSome_iff_ne_none] at hcore
    simp [h22, h8, h18, hc, ha, h21, hcore]
    omega), if_neg (by omega)]
  simp only [hentries, h23, hput, show ((0 : Nat) == 1) = false from rfl]

/-! ### RECORD_MARK and FENCE (R416, R417) -/

theorem State.markAt_feeding (s : State) (t k ca g : Nat) (o : W16) (u : Nat) (j : W16) (l p : Nat) : (s.markAt t k ca g o u j l p).feeding = s.feeding := by
  have h := congrArg Prod.fst (s.markAt_replayPart t k ca g o u j l p)
  simp only [State.feeding, show (s.markAt t k ca g o u j l p).trace.replay = s.trace.replay from h]

theorem State.completeAt_completedAt (s : State) (d : Desc) (tm status d0 d1 : Nat) : s.completedAt (s.completeAt d tm status d0 d1) d tm status d0 d1 :=
  ⟨s.completeAt_gone d tm status d0 d1, fun hf hr hp => s.completeAt_written d tm status d0 d1 hf hr (by simp [State.portHeld, hp]), s.completeAt_held d tm status d0 d1⟩

/-- A completion after a waymark is a completion before it. -/
theorem State.completedAt_of_markAt {s u : State} {t k ca g : Nat} {o : W16} {n : Nat} {j : W16} {l p : Nat} {d : Desc} {tm status d0 d1 : Nat}
    (h : (s.markAt t k ca g o n j l p).completedAt u d tm status d0 d1) : s.completedAt u d tm status d0 d1 := by
  have hring (r : Nat) : (s.markAt t k ca g o n j l p).ring r = s.ring r := by simp only [State.ring, State.markAt_host]
  have hheld : (s.markAt t k ca g o n j l p).portHeld = s.portHeld := by simp only [State.portHeld, State.markAt_feeding, State.markAt_side]
  unfold State.completedAt at h ⊢
  simpa only [hring, hheld, State.markAt_feeding, State.markAt_side] using h

theorem exec_recordMark {s : State} {d : Desc} (hn : s.mcNext 8 = some d) (h23 : d.f 0 23 1 = 0) (h14 : d.f 0 14 8 = 0) (h0 : d.f 0 0 8 = 0) (hc : d.clear 0x10 = true)
    (h22 : d.f 0 22 1 = 0) : exec .recordMark s = .next (s.recordMark d d.taken) := by
  show execRecordMark s = _
  simp only [execRecordMark, hn]
  rw [if_neg (by simp [h23, h14, h0, hc]), if_pos h22]

theorem exec_descFence {s : State} {d : Desc} {r : RingIx} (h : s.host.descs.find? (fun d => d.ring == r.val && !d.started && d.type == 7 && !s.fenced d) = some d)
    (h14 : d.f 0 14 8 = 0) (h0 : d.f 0 0 8 = 0) (hc : d.clear 8 = true) (hg : d.f 0 22 1 = 0 ∨ (s.group d.groupNo).st = .running) : exec (.descFence r) s = .next (s.startDesc d) := by
  show execDescFence r s = _
  simp only [execDescFence, h]
  rw [if_neg (by simp [h14, h0, hc]), if_neg (by
    rintro ⟨h1, hst⟩
    rcases hg with hg | hg
    · omega
    · exact hst hg)]

theorem exec_descFenceDone {s : State} {d : Desc} {r : RingIx} (h : s.host.descs.find? (fun d => d.ring == r.val && d.started && d.type == 7) = some d)
    (h22 : d.f 0 22 1 = 0) : exec (.descFenceDone r) s = happen (s.fenceReady d) s (s.complete d 0 0 0) := by
  show execDescFenceDone r s = _
  simp only [execDescFenceDone, h, h22]
  rfl

end Sys2Proof.Machine

open Sys2Proof Sys2Proof.Machine

/-- Settles O50: each descriptor by the equation of its command. -/
theorem descriptorsOfTablesAndOrder : Obligations.DescriptorsOfTablesAndOrder := by
  intro s d host r
  refine ⟨fun m ws hn hw => ⟨fun h => ?_, fun h => exec_setTable_tags hn hw h⟩, fun w hw => ⟨State.setApply_waits hw, fun hl h => ?_, fun hl h => ?_, fun hl h => ?_⟩, ?_, ?_, ?_, ?_, ?_⟩
  · exact ⟨_, exec_setTable hn hw h, State.complete_completed .., State.complete_num .., State.complete_pages .., State.complete_fmt .., State.complete_caddy .., State.complete_tables ..⟩
  · rw [State.setApply_idle hl, State.tabApply_numerics _ _ h]
  · rw [State.setApply_idle hl, State.tabApply_page _ _ h, State.pageWrite_pages, State.dmaSome_pages]
    exact ⟨mget_mset_self .., fun i hi => mget_mset_ne _ _ _ _ _ hi⟩
  · rw [State.setApply_idle hl, State.tabApply_format _ _ h]
    simp [State.fmtWrite, mupd]
  · intro o tags h
    obtain ⟨t, hexec, hflash, hwork, hdesc⟩ := exec_tagAreaFlashWritten h
    exact ⟨t, hexec, by rw [hflash], by rw [hflash], by rw [hflash], hwork, hdesc⟩
  · intro size n bs hn hshape hsel h0 h18 hc ha hcount hrange hcore hlen hbs hpos hline hf hp
    refine ⟨_, exec_query hn hshape hsel h0 h18 hc ha hcount hrange hcore hlen hbs hpos hline hf hp, by simp [State.work], State.mem_complete_outbox ?_, State.completeAt_gone _ _ _ _ _ _⟩
    rw [State.emit_outbox _ _ hf (by simp [State.portHeld, hp])]
    exact List.mem_append_right _ (List.mem_singleton.2 rfl)
  · intro hn h23 h14 h0 hc h22
    exact ⟨_, exec_recordMark hn h23 h14 h0 hc h22, by simp [State.recordMark, State.work], State.completedAt_of_markAt (State.completeAt_completedAt ..)⟩
  · exact fun h h14 h0 hc hg => exec_descFence h h14 h0 hc hg
  · refine fun h h22 => ⟨fun hr => ⟨_, (exec_descFenceDone h h22).trans (happen_holds hr), State.complete_work .., State.complete_completed ..⟩, fun hr => ?_⟩
    rw [exec_descFenceDone h h22, hr]
    rfl
end

