-- ==== Sys2Proof/Proofs/MemoryMaintenance.lean ====
section
/-! Scrubbing and retraining; the DDR5 window, snoops and the port's configuration. -/

namespace Sys2Proof.Machine

/-! ### What memory maintenance leaves (R365, R377, R378) -/

/-- The bytes of both memories, the cores and the groups. -/
def State.stores (s : State) := (s.mem.hbm, s.mem.ddr, s.cores, s.groups)

/-- What a retrain that is asked for or begins leaves of a controller's record. -/
def MemCtl.tally (c : MemCtl) : MemCtl := { c with st := 0, pending := false, lastRetrain := none }

/-- What a retrain that is asked for or begins leaves: bytes, poison, cores and groups, and the tallies of the controllers. -/
def State.kept (s : State) := (s.stores, s.mem.hbmPoison, s.mem.ddrPoison, fun d => (s.ctl d).tally)

theorem State.updCtl_kept {s : State} {d : Nat} {f : MemCtl → MemCtl} (h : (f (s.ctl d)).tally = (s.ctl d).tally) : (s.updCtl d f).kept = s.kept := by
  have hctl : (fun q => ((s.updCtl d f).ctl q).tally) = fun q => (s.ctl q).tally := by
    funext q
    by_cases hq : q = d
    · rw [hq, State.ctl_updCtl_self, h]
    · rw [State.ctl_updCtl_ne _ _ _ _ hq]
  unfold State.kept
  rw [hctl]
  rfl

theorem State.startRetrain_kept (s : State) (d : Nat) : (s.startRetrain d).kept = s.kept :=
  (s.updCtl_kept (d := d) (f := fun c => { c with st := 1, pending := false, lastRetrain := some s.time.now }) rfl :)

theorem State.retrainNext_kept (s : State) : s.retrainNext.kept = s.kept := by
  unfold State.retrainNext
  split
  · rfl
  · exact State.startRetrain_kept ..

theorem State.needRetrain_kept (s : State) (d : Nat) : (s.needRetrain d).kept = s.kept := by
  have hask : (s.updCtl d (fun c => { c with pending := true })).kept = s.kept := State.updCtl_kept rfl
  unfold State.needRetrain
  dsimp only
  split
  · exact hask
  · exact (State.retrainNext_kept _).trans hask

theorem State.kept_tally {s t : State} (h : t.kept = s.kept) (d : Nat) : (t.ctl d).tally = (s.ctl d).tally := congrFun (congrArg (·.2.2.2) h) d

theorem State.kept_poisonAt {s t : State} (h : t.kept = s.kept) (sp : Space) (w : Nat) : t.poisonAt sp w = s.poisonAt sp w := by
  simp only [State.kept, Prod.mk.injEq] at h
  obtain ⟨-, hhbm, hddr, -⟩ := h
  cases sp <;> simp only [State.poisonAt, DevMem.poison, hhbm, hddr]

theorem State.stores_iff {s t : State} : t.stores = s.stores ↔ t.mem.hbm = s.mem.hbm ∧ t.mem.ddr = s.mem.ddr ∧ t.cores = s.cores ∧ t.groups = s.groups := by
  simp only [State.stores, Prod.mk.injEq]

/-! ### Scrubbing (R365, R378) -/

/-- A word poisoned by the scrub; the rest of the poison, and every byte, stands. -/
theorem State.scrubBad_poisonAt (s : State) (d : Nat) (sp : Space) (a w : Nat) : (s.scrubBad d sp a).poisonAt sp w = if w = a / 4 then true else s.poisonAt sp w := by
  unfold State.scrubBad
  split
  next hp =>
    split
    next hw => rw [hw]; exact hp
    next => rfl
  next =>
    simp only [State.poisonAt, State.faultMark_mem]
    show mget false ((s.mem.put sp (s.mem.bytes sp) (mset false (s.mem.poison sp) (a / 4) true)).poison sp) w = _
    rw [DevMem.poison_put, if_pos rfl]
    split
    next hw => rw [hw, mget_mset_self]
    next hw => rw [mget_mset_ne _ _ _ _ _ hw]

theorem State.scrubBad_stores (s : State) (d : Nat) (sp : Space) (a : Nat) : (s.scrubBad d sp a).stores = s.stores := by
  unfold State.scrubBad
  split
  · rfl
  · simp only [State.stores, State.faultMark_mem, State.faultMark_cores, State.faultMark_groups]
    cases sp <;> rfl

/-- What the words found bad leave of a controller's counts. -/
def MemCtl.counted (c : MemCtl) := (c.scrubPasses, c.corrected)

theorem State.scrubBad_counted (s : State) (d : Nat) (sp : Space) (a : Nat) : ((s.scrubBad d sp a).ctl d).counted = (s.ctl d).counted := by
  unfold State.scrubBad
  split
  · rfl
  · simp only [State.ctl, State.faultMark_mem]
    change MemCtl.counted (State.ctl (State.updCtl _ d _) d) = _
    rw [State.ctl_updCtl_self]
    cases sp <;> rfl

theorem State.scrub_poisonAt (d : Nat) (sp : Space) {a : Nat} (ha : a % 64 = 0) (w : Nat) (bad : List (Fin 16)) (s : State) :
    (bad.foldl (fun t i => t.scrubBad d sp (a + 4 * i.val)) s).poisonAt sp w = true ↔ (∃ i ∈ bad, w = a / 4 + i.val) ∨ s.poisonAt sp w = true := by
  induction bad generalizing s with
  | nil => simp
  | cons i bad ih =>
    have hword : (a + 4 * i.val) / 4 = a / 4 + i.val := by omega
    rw [List.foldl_cons, ih, State.scrubBad_poisonAt, hword]
    by_cases hw : w = a / 4 + i.val
    · simp [hw]
    · simp [hw]

/-- A correction counted leaves bytes, poison and the passes; where it counts, it counts at its controller (R365). -/
theorem State.corrected_leaves (s : State) (d n : Nat) : (s.corrected d n).stores = s.stores ∧ (∀ sp w, (s.corrected d n).poisonAt sp w = s.poisonAt sp w)
    ∧ ((s.corrected d n).ctl d).scrubPasses = (s.ctl d).scrubPasses ∧ (n ≠ 0 → ((s.corrected d n).ctl d).corrected = sat 32 ((s.ctl d).corrected + n)) := by
  unfold State.corrected
  split
  next h => exact ⟨rfl, fun _ _ => rfl, rfl, fun hn => absurd h hn⟩
  next =>
    extract_lets c fs fs' s1
    have hctl : (s1.ctl d) = { s.ctl d with corrected := sat 32 ((s.ctl d).corrected + n), fixes := fs' } := State.ctl_updCtl_self ..
    have hsame : s1.stores = s.stores ∧ ∀ sp w, s1.poisonAt sp w = s.poisonAt sp w := ⟨rfl, fun sp w => by cases sp <;> rfl⟩
    have hkept : ∀ t : State, t.kept = s1.kept → t.stores = s.stores ∧ (∀ sp w, t.poisonAt sp w = s.poisonAt sp w)
        ∧ (t.ctl d).scrubPasses = (s.ctl d).scrubPasses ∧ (n ≠ 0 → (t.ctl d).corrected = sat 32 ((s.ctl d).corrected + n)) := by
      intro t ht
      have htally := State.kept_tally ht d
      rw [hctl] at htally
      have hpasses := congrArg MemCtl.scrubPasses htally
      have hcorr := congrArg MemCtl.corrected htally
      exact ⟨(congrArg Prod.fst ht).trans hsame.1, fun sp w => (State.kept_poisonAt ht sp w).trans (hsame.2 sp w), hpasses, fun _ => hcorr⟩
    split
    · exact hkept _ (State.needRetrain_kept ..)
    · exact hkept _ rfl

theorem exec_scrub {s : State} {d : DevIx} {line : Nat} {fixed bad : List (Fin 16)} {last : Bool} {sp : Space} {a : Nat} (h : s.plan.physOf d.val (64 * line) = some (sp, a))
    (ha : a % 64 = 0) (hd : s.devHere d.val = true) (hr : s.mem.selfRefresh = false) : ∃ t, exec (.scrub d line fixed bad last) s = .next t ∧ t.stores = s.stores
      ∧ (∀ w, t.poisonAt sp w = true ↔ (∃ i ∈ bad, w = a / 4 + i.val) ∨ s.poisonAt sp w = true)
      ∧ (t.ctl d.val).scrubPasses = (if last then sat 32 ((s.ctl d.val).scrubPasses + 1) else (s.ctl d.val).scrubPasses)
      ∧ (fixed ≠ [] → (t.ctl d.val).corrected = sat 32 ((s.ctl d.val).corrected + fixed.length)) := by
  show ∃ t, execScrub d line fixed bad last s = .next t ∧ _
  unfold execScrub
  rw [h]
  dsimp only
  generalize hs1 : bad.foldl (fun t i => t.scrubBad d.val sp (a + 4 * i.val)) s = s1
  have hstores : s1.stores = s.stores := by rw [← hs1]; exact State.foldl_keeps State.stores _ (fun t i => t.scrubBad_stores ..) bad s
  have hcounted : (s1.ctl d.val).counted = (s.ctl d.val).counted := by
    rw [← hs1]
    exact State.foldl_keeps (fun t => (t.ctl d.val).counted) _ (fun t i => t.scrubBad_counted ..) bad s
  have hpoison (w : Nat) : s1.poisonAt sp w = true ↔ (∃ i ∈ bad, w = a / 4 + i.val) ∨ s.poisonAt sp w = true := by
    rw [← hs1]
    exact State.scrub_poisonAt d.val sp ha w bad s
  obtain ⟨hpasses, hcorr⟩ := Prod.mk.injEq .. ▸ hcounted
  generalize hs2 : (if last then s1.updCtl d.val (fun c => { c with scrubPasses := sat 32 (c.scrubPasses + 1) }) else s1) = s2
  have h2 : s2.stores = s1.stores ∧ (∀ w, s2.poisonAt sp w = s1.poisonAt sp w) ∧ (s2.ctl d.val).corrected = (s1.ctl d.val).corrected
      ∧ (s2.ctl d.val).scrubPasses = if last then sat 32 ((s1.ctl d.val).scrubPasses + 1) else (s1.ctl d.val).scrubPasses := by
    rw [← hs2]
    cases last with
    | false => exact ⟨rfl, fun _ => rfl, rfl, rfl⟩
    | true => exact ⟨rfl, fun w => by cases sp <;> rfl, by rw [if_pos rfl, State.ctl_updCtl_self], by rw [if_pos rfl, State.ctl_updCtl_self, if_pos rfl]⟩
  obtain ⟨h2stores, h2poison, h2corr, h2passes⟩ := h2
  obtain ⟨h3stores, h3poison, h3passes, h3corr⟩ := s2.corrected_leaves d.val fixed.length
  refine ⟨_, happen_holds (by simp [hd, hr]), h3stores.trans (h2stores.trans hstores), fun w => ?_, ?_, fun hne => ?_⟩
  · rw [h3poison, h2poison, hpoison]
  · rw [h3passes, h2passes, hpasses]
  · rw [h3corr (by simpa using hne), h2corr, hcorr]

/-! ### Retraining (R371, R377) -/

theorem State.legOn_of_groups {s t : State} (h : t.groups = s.groups) : t.legOn = s.legOn := by simp only [State.legOn, h]

/-- With no controller that asks for one, no retrain begins. -/
theorem State.retrainNext_none {s : State} (h : ∀ d, (s.ctl d).pending = false) : s.retrainNext = s := by
  have hnone : (List.range 20).find? s.mayRetrain = none := List.find?_eq_none.2 fun d _ => by simp [State.mayRetrain, h d]
  simp only [State.retrainNext, hnone]

/-- A retrain ended leaves what it leaves at once, where a leg runs or no other controller asks for one (R377). -/
theorem State.afterRetrain {s t : State} (hgroups : t.groups = s.groups) (hpend : ∀ q, (t.ctl q).pending = true → (s.ctl q).pending = true)
    (hcalm : s.legOn = true ∨ ∀ i, (s.ctl i).pending = false) : (if t.legOn then t else t.retrainNext) = t := by
  rcases hcalm with hleg | hcalm
  · rw [State.legOn_of_groups hgroups, hleg, if_pos rfl]
  · rw [State.retrainNext_none fun q => Bool.eq_false_of_not_eq_true fun hq => Bool.false_ne_true ((hcalm q).symm.trans (hpend q hq)), ite_self]

/-- A controller's record after its retrain (R377). -/
def MemCtl.trained (c : MemCtl) : MemCtl := { c with st := 0, retrains := sat 16 (c.retrains + 1), fixes := [], trainedAt := c.temp }

theorem State.pending_updCtl {s : State} {d q : Nat} {f : MemCtl → MemCtl} (hf : (f (s.ctl d)).pending = true → (s.ctl d).pending = true)
    (h : ((s.updCtl d f).ctl q).pending = true) : (s.ctl q).pending = true := by
  by_cases hq : q = d
  · rw [hq, State.ctl_updCtl_self] at h
    exact hq ▸ hf h
  · rwa [State.ctl_updCtl_ne _ _ _ _ hq] at h

theorem exec_memRetrainDone_good {s : State} {d : DevIx} (hst : (s.ctl d.val).st = 1) (hcalm : s.legOn = true ∨ ∀ i, (s.ctl i).pending = false) :
    exec (.memRetrainDone d true) s = .next { s.updCtl d.val MemCtl.trained with flash := s.flash.trained d.val (s.ctl d.val).temp } := by
  have hafter := State.afterRetrain (s := s) (t := { s.updCtl d.val MemCtl.trained with flash := s.flash.trained d.val (s.ctl d.val).temp }) rfl
    (fun q hq => State.pending_updCtl (f := MemCtl.trained) id hq) hcalm
  exact (happen_holds (by simp [hst])).trans (congrArg _ hafter)

theorem State.planChange_flash (s : State) (f : Plan → Plan) : (s.planChange f).flash = s.flash := by
  unfold State.planChange
  split
  · exact State.mark_flash ..
  · rfl

theorem State.planChange_mems (s : State) (f : Plan → Plan) : (s.planChange f).plan.mems = (f s.plan).mems := by
  unfold State.planChange
  split
  · unfold State.measChanged
    rw [State.mark_plan]
    rfl
  · rfl

/-- A device lost: its bytes stand, it is listed as lost, and its entry reads absent (R371). -/
theorem State.loseDevice_leaves (s : State) (d : Nat) : (s.loseDevice d).stores = s.stores ∧ d ∈ (s.loseDevice d).mem.lost
    ∧ (mget ({} : MemEntry) (s.loseDevice d).plan.mems d).present = false ∧ (s.loseDevice d).flash = s.flash
    ∧ ∀ q, ((s.loseDevice d).ctl q).pending = true → (s.ctl q).pending = true := by
  unfold State.loseDevice
  refine ⟨?_, ?_, ?_, ?_, fun q hq => ?_⟩
  · simp only [State.stores, State.planChange_mem, State.planChange_cores, State.planChange_groups]
    rfl
  · rw [State.planChange_mem]
    exact List.mem_append_right _ (List.mem_singleton.2 rfl)
  · rw [State.planChange_mems, mupd, mget_mset_self]
  · rw [State.planChange_flash]
    rfl
  · unfold State.ctl at hq
    rw [State.planChange_mem] at hq
    exact State.pending_updCtl (s := s) (d := d) (f := fun c => { c with st := 2, pending := false }) (fun h => absurd h Bool.false_ne_true) hq

theorem exec_memRetrainDone_failed {s : State} {d : DevIx} (hst : (s.ctl d.val).st = 1) (hcalm : s.legOn = true ∨ ∀ i, (s.ctl i).pending = false) :
    exec (.memRetrainDone d false) s = .next (((s.updCtl d.val MemCtl.trained).faultMark (devUnit d.val) 0x93 0).loseDevice d.val) := by
  obtain ⟨hstores, -, -, -, hpend⟩ := ((s.updCtl d.val MemCtl.trained).faultMark (devUnit d.val) 0x93 0).loseDevice_leaves d.val
  have hgroups : (((s.updCtl d.val MemCtl.trained).faultMark (devUnit d.val) 0x93 0).loseDevice d.val).groups = s.groups :=
    (State.stores_iff.1 hstores).2.2.2.trans (State.faultMark_groups ..)
  have hafter := State.afterRetrain (s := s) hgroups (fun q hq => by
    have hq' := hpend q hq
    unfold State.ctl at hq'
    rw [State.faultMark_mem] at hq'
    exact State.pending_updCtl (f := MemCtl.trained) id hq') hcalm
  exact (happen_holds (by simp [hst])).trans (congrArg _ hafter)

theorem exec_memRetrainDone_idle {s : State} {d : DevIx} (hst : (s.ctl d.val).st ≠ 1) (ok : Bool) : exec (.memRetrainDone d ok) s = .next s := by
  show execMemRetrainDone d ok s = _
  simp [execMemRetrainDone, happen, hst]

theorem exec_memInterfaceTemperature {s : State} {d : DevIx} (hd : s.devHere d.val = true) (x : Int) : exec (.memInterfaceTemperature d x) s =
    .next (if 64 < (x - (s.ctl d.val).trainedAt).natAbs then (s.updCtl d.val (fun c => { c with temp := x })).needRetrain d.val
      else s.updCtl d.val (fun c => { c with temp := x })) := happen_holds hd

/-- The only controller that asks for a retrain begins it where it may (R377). -/
theorem State.retrainNext_only {s : State} {d : Nat} (hd : d < 20) (hmay : s.mayRetrain d = true) (honly : ∀ q, q ≠ d → (s.ctl q).pending = false) :
    s.retrainNext = s.startRetrain d := by
  have hfind : (List.range 20).find? s.mayRetrain = some d := by
    cases hf : (List.range 20).find? s.mayRetrain with
    | none => exact absurd hmay (by simpa using List.find?_eq_none.1 hf d (List.mem_range.2 hd))
    | some q =>
      have hq := List.find?_some hf
      by_cases hqd : q = d
      · rw [hqd]
      · simp [State.mayRetrain, honly q hqd] at hq
  simp only [State.retrainNext, hfind]

/-- A controller that asks with no leg running, and none at work, begins at once (R377). -/
theorem State.needRetrain_begins {s : State} {d : Nat} (hd : d < 20) (hleg : s.legOn = false) (hcalm : ∀ i, (s.ctl i).pending = false)
    (hidle : ∀ p ∈ s.mem.ctls, p.2.st ≠ 1) (hst : (s.ctl d).st ≠ 1) (hlast : (s.ctl d).lastRetrain = none) : ((s.needRetrain d).ctl d).st = 1 := by
  have hctl : ((s.updCtl d (fun c => { c with pending := true })).ctl d) = { s.ctl d with pending := true } := State.ctl_updCtl_self ..
  have hidle' : ∀ p ∈ (s.updCtl d (fun c => { c with pending := true })).mem.ctls, p.2.st ≠ 1 := by
    intro p hp
    rcases mem_of_mem_mset hp with rfl | hp
    · exact hst
    · exact hidle p hp
  have hmay : (s.updCtl d (fun c => { c with pending := true })).mayRetrain d = true := by
    have hnone : (s.updCtl d (fun c => { c with pending := true })).mem.ctls.any (fun c => c.2.st == 1) = false :=
      List.any_eq_false.2 fun p hp => by simpa using hidle' p hp
    simp only [State.mayRetrain, hctl, hnone, hlast, Bool.not_false, Bool.and_true]
  have hleg' : (s.updCtl d (fun c => { c with pending := true })).legOn = false := hleg
  unfold State.needRetrain
  dsimp only
  rw [if_neg (by simp [hleg']), State.retrainNext_only hd hmay fun q hq => by rw [State.ctl_updCtl_ne _ _ _ _ hq]; exact hcalm q]
  show (State.ctl (State.updCtl _ d _) d).st = 1
  rw [State.ctl_updCtl_self]

/-! ### The DDR5 window (R367, R388) -/

/-- A line of present DDR5 as the window reads it. -/
theorem State.devRead_line {s : State} {o : Nat} (hl : s.memLost .ddr (o / 64 * 64) = false) : s.devRead .ddr (o / 64 * 64) 64 = (List.range 64).map (fun i =>
    if s.poisonAt .ddr (o / 64 * 16 + i / 4) then (Config.poisonByte 1 (o / 64 * 64 + i), true) else (s.byteAt .ddr (o / 64 * 64 + i), false)) := by
  unfold State.devRead
  rw [if_neg (by simp [hl])]
  refine List.map_congr_left fun i _ => ?_
  rw [show (o / 64 * 64 + i) / 4 = o / 64 * 16 + i / 4 by omega]
  rfl

theorem exec_cxlMemRead_clean {s : State} {a : W64} {o : Nat} (hw : s.window a = some o) (hr : s.mem.selfRefresh = false) (hl : s.memLost .ddr (o / 64 * 64) = false)
    (ho : o < s.plan.ddrBytes) (hclean : ∀ w < 16, s.poisonAt .ddr (o / 64 * 16 + w) = false) : exec (.cxlMemRead a) s
      = .next { s with outbox := s.outbox ++ [.memData (bytesLine ((List.range 64).map (fun i => s.byteAt .ddr (o / 64 * 64 + i)))) false] } := by
  have hread : s.devRead .ddr (o / 64 * 64) 64 = (List.range 64).map (fun i => (s.byteAt .ddr (o / 64 * 64 + i), false)) := by
    rw [State.devRead_line hl]
    refine List.map_congr_left fun i hi => ?_
    have := List.mem_range.1 hi
    rw [hclean (i / 4) (by omega)]
    rfl
  show execCxlMemRead a s = _
  unfold execCxlMemRead
  rw [hw]
  dsimp only
  rw [if_neg (by omega), if_neg (by simp [hr]), hread, if_neg (by simp), List.map_map, State.emit_passing _ rfl rfl]
  rfl

/-- A line with a poisoned word, or outside what is present, is answered with poison (R367, R388). -/
theorem exec_cxlMemRead_poisoned {s : State} {a : W64} {o : Nat} (hw : s.window a = some o) (hr : s.mem.selfRefresh = false) (hl : s.memLost .ddr (o / 64 * 64) = false)
    (ho : o < s.plan.ddrBytes) (hp : ∃ w < 16, s.poisonAt .ddr (o / 64 * 16 + w) = true) :
    ∃ t v, exec (.cxlMemRead a) s = .next t ∧ t.work = s.work ∧ t.outbox = s.outbox ++ [.memData v true] := by
  obtain ⟨w, hw16, hpw⟩ := hp
  have hany : (s.devRead .ddr (o / 64 * 64) 64).any (·.2) = true := by
    rw [State.devRead_line hl, List.any_map]
    refine List.any_eq_true.2 ⟨4 * w, List.mem_range.2 (by omega), ?_⟩
    simp [hpw]
  show ∃ t v, execCxlMemRead a s = .next t ∧ _
  unfold execCxlMemRead
  rw [hw]
  dsimp only
  rw [if_neg (by omega), if_neg (by simp [hr]), if_pos hany, State.emit_passing _ rfl rfl]
  exact ⟨_, _, rfl, rfl, rfl⟩

theorem exec_cxlMemRead_outside {s : State} {a : W64} {o : Nat} (hw : s.window a = some o) (ho : s.plan.ddrBytes ≤ o) :
    ∃ t v, exec (.cxlMemRead a) s = .next t ∧ t.work = s.work ∧ t.outbox = s.outbox ++ [.memData v true] ∧ t.host.outOfRange = sat32 s.host.outOfRange := by
  show ∃ t v, execCxlMemRead a s = .next t ∧ _
  unfold execCxlMemRead
  rw [hw]
  dsimp only
  rw [if_pos ho, State.emit_passing _ rfl rfl]
  exact ⟨_, _, rfl, rfl, rfl, rfl⟩

/-- A host write is a write of its line to a state that differs in the capture alone (R388). -/
theorem exec_cxlMemWrite {s : State} {a : W64} {o : Nat} (hw : s.window a = some o) (data : Line) (p : Bool) : ∃ r : Recorder,
    exec (.cxlMemWrite a data p) s = .next (State.ddrWrite { s with trace := r } (o / 64 * 64) data p) := by
  have honly (t : State) (h : { t with trace := s.trace } = s) : t = { s with trace := t.trace } := by
    have := congrArg (fun q : State => { q with trace := t.trace }) h
    exact this
  have hcap := honly _ (s.captureIn_only 3 0 (o / 64 * 64) 0 [data])
  show ∃ r : Recorder, execCxlMemWrite a data p s = .next (State.ddrWrite { s with trace := r } (o / 64 * 64) data p)
  unfold execCxlMemWrite
  rw [hw]
  dsimp only
  rw [hcap]
  split
  · exact ⟨_, rfl⟩
  · exact ⟨_, rfl⟩

/-- A line written whole with one poison sets its words' poison to it (R366, R367). -/
theorem State.devWrite_line_poisonAt {s : State} {l : Nat} (hal : l % 64 = 0) (hl : s.memLost .ddr l = false) (data : Line) (p : Bool) {w : Nat} (hw : w < 16) :
    (s.devWrite .ddr l ((lineBytes data).map (fun b => (b, p))) false).poisonAt .ddr (l / 4 + w) = p := by
  have hlen : ((lineBytes data).map (fun b => (b, p))).length = 64 := by simp [lineBytes, leBytes]
  have hflag (i : Nat) (hi : i < 64) : (nth (0, false) ((lineBytes data).map (fun b => (b, p))) i).2 = p := by
    rw [List.length_map] at hlen
    simp [nth, hlen, hi]
  rw [State.devWrite_poisonAt _ false rfl hl, pmWrite_poison_in _ _ (List.ne_nil_of_length_pos (by omega)) (by omega) (by omega)]
  cases p with
  | false => exact poisonAfter_clean _ (by omega) (by omega) fun i hi => hflag _ (by omega)
  | true =>
    rw [show l / 4 + w = (l + 4 * w) / 4 by omega]
    exact poisonAfter_poisoned _ (by omega) (hflag _ (by omega))

/-! ### Snoops, the port's configuration and keys (R384, R387, R397) -/

theorem State.ring_readWatch_self (s : State) (r : Nat) : ((s.readWatch r).ring r).reading = true := by
  unfold State.readWatch State.ring
  dsimp only
  rw [State.emit_host]
  show ((s.setRing r { s.ring r with reading := true }).ring r).reading = true
  rw [State.ring_setRing_self]

theorem State.ring_readWatch_mono (s : State) (r q : Nat) (h : (s.ring q).reading = true) : ((s.readWatch r).ring q).reading = true := by
  by_cases hq : q = r
  · rw [hq, State.ring_readWatch_self]
  · unfold State.readWatch State.ring
    dsimp only
    rw [State.emit_host]
    show ((s.setRing r { s.ring r with reading := true }).ring q).reading = true
    rw [State.ring_setRing_ne _ _ _ _ hq, h]

/-- What reading watch lines again leaves: cores, memories, groups, the cache and the port's configuration. -/
def State.porting (s : State) := (s.work, s.host.lines, s.host.cacheUp, s.host.memUp)

theorem State.readWatch_porting (s : State) (r : Nat) : (s.readWatch r).porting = s.porting := by
  simp only [State.porting, State.work, State.readWatch, State.emit_host, State.emit_cores, State.emit_mem, State.emit_groups]
  rfl

theorem State.foldl_readWatch (l : List Nat) (s : State) : (l.foldl (fun t r => t.readWatch r) s).porting = s.porting
    ∧ (∀ o ∈ s.outbox, o ∈ (l.foldl (fun t r => t.readWatch r) s).outbox) ∧ ∀ r, r ∈ l ∨ (s.ring r).reading = true → ((l.foldl (fun t r => t.readWatch r) s).ring r).reading = true := by
  induction l generalizing s with
  | nil => exact ⟨rfl, fun _ h => h, fun r h => h.resolve_left List.not_mem_nil⟩
  | cons q l ih =>
    obtain ⟨hport, hbox, hring⟩ := ih (s.readWatch q)
    refine ⟨hport.trans (s.readWatch_porting q), fun o ho => hbox o (State.mem_emit_outbox _ ho), fun r hr => hring r ?_⟩
    rcases hr with hr | hr
    · rcases List.mem_cons.1 hr with rfl | hr
      · exact .inr (s.ring_readWatch_self r)
      · exact .inl hr
    · exact .inr (s.ring_readWatch_mono q r hr)

theorem exec_snpInv {s : State} (h : s.host.cacheUp = true) (a : W64) : ∃ t, exec (.snpInv a) s = .next t ∧ t.work = s.work ∧ t.holds a = false
    ∧ Output.snpResp (s.holds a) ∈ t.outbox ∧ ∀ r ∈ s.watchers (a.toNat / 64 * 64), (t.ring r).reading = true := by
  have hemit : s.emit (.snpResp (s.holds a)) = { s with outbox := s.outbox ++ [.snpResp (s.holds a)] } := State.emit_passing _ rfl rfl
  show ∃ t, execSnpInv a s = .next t ∧ _
  unfold execSnpInv
  rw [hemit]
  dsimp only
  obtain ⟨hport, hbox, hring⟩ := State.foldl_readWatch (s.watchers (a.toNat / 64 * 64)) { s with
    outbox := s.outbox ++ [.snpResp (s.holds a)]
    host := { s.host with lines := s.host.lines.filter (· != a.toNat / 64 * 64) } }
  simp only [State.porting, Prod.mk.injEq] at hport
  obtain ⟨hwork, hlines, -⟩ := hport
  refine ⟨_, happen_holds h, hwork, ?_, hbox _ (List.mem_append_right _ (List.mem_singleton.2 rfl)), fun r hr => hring r (.inl hr)⟩
  exact (congrArg (fun l => List.contains l (a.toNat / 64 * 64)) hlines).trans (by simp)

theorem exec_cxlConfigWrite {s : State} (hp : s.side.perstN = true) (hb : s.boot.inReset = false) (c m : Bool) : ∃ t, exec (.cxlConfigWrite c m) s = .next t
    ∧ t.work = s.work ∧ t.host.cacheUp = c ∧ t.host.memUp = m ∧ (c = false → t.host.lines = []) := by
  show ∃ t, execCxlConfigWrite c m s = .next t ∧ _
  unfold execCxlConfigWrite
  dsimp only
  refine ⟨_, happen_holds (by simp [hp, hb]), ?_⟩
  have hset : ∀ t : State, t.porting = ({ s with host := { s.host with cacheUp := c, memUp := m, lines := if c then s.host.lines else [] } } : State).porting →
      t.work = s.work ∧ t.host.cacheUp = c ∧ t.host.memUp = m ∧ (c = false → t.host.lines = []) := by
    intro t ht
    simp only [State.porting, Prod.mk.injEq] at ht
    obtain ⟨hwork, hlines, hc, hm⟩ := ht
    exact ⟨hwork, hc, hm, fun hcf => by rw [hlines, hcf]; rfl⟩
  split
  · exact hset _ (State.foldl_readWatch ..).1
  · exact hset _ rfl

end Sys2Proof.Machine

open Sys2Proof Sys2Proof.Machine

/-- Settles O46: what a maintenance command keeps is a tuple of the state, and the window's accesses are those of device memory. -/
theorem memoryMaintenanceAndCxlPort : Obligations.MemoryMaintenanceAndCxlPort := by
  refine ⟨fun s d => ?_, fun s a => ?_⟩
  · intro k bytes calm
    refine ⟨fun line fixed bad last sp a hphys ha hd hr => ?_, fun hst hcalm => ?_, fun hst hcalm => ?_, fun hst ok => exec_memRetrainDone_idle hst ok, fun x hd hcalm => ?_⟩
    · obtain ⟨t, hexec, hstores, hpoison, hpasses, hcorr⟩ := exec_scrub (fixed := fixed) (bad := bad) (last := last) hphys ha hd hr
      refine ⟨t, hexec, State.stores_iff.1 hstores, fun i hi => (hpoison _).2 (.inl ⟨i, hi, rfl⟩), fun w hw => ?_, hpasses, hcorr⟩
      rw [Bool.eq_iff_iff, hpoison]
      exact or_iff_right fun ⟨i, hi, hwi⟩ => hw i hi hwi
    · refine ⟨_, exec_memRetrainDone_good hst hcalm, ⟨rfl, rfl, rfl, rfl⟩, ?_⟩
      have hctl : (s.updCtl d.val MemCtl.trained).ctl d.val = (s.ctl d.val).trained := State.ctl_updCtl_self ..
      exact ⟨congrArg MemCtl.st hctl, congrArg MemCtl.retrains hctl, congrArg MemCtl.trainedAt hctl, mget_mset_self ..⟩
    · obtain ⟨hstores, hlost, hmems, hflash, -⟩ := ((s.updCtl d.val MemCtl.trained).faultMark (devUnit d.val) 0x93 0).loseDevice_leaves d.val
      refine ⟨_, exec_memRetrainDone_failed hst hcalm, State.stores_iff.1 (hstores.trans ?_), hlost, hmems, hflash.trans (State.faultMark_flash ..)⟩
      simp only [State.stores, State.faultMark_mem, State.faultMark_cores, State.faultMark_groups]
      rfl
    · have hctl : (s.updCtl d.val (fun c => { c with temp := x })).ctl d.val = { s.ctl d.val with temp := x } := State.ctl_updCtl_self ..
      have hkept := (s.updCtl d.val (fun c => { c with temp := x })).needRetrain_kept d.val
      have hpend : ∀ q, ((s.updCtl d.val (fun c => { c with temp := x })).ctl q).pending = true → (s.ctl q).pending = true :=
        fun q hq => State.pending_updCtl (f := fun c => { c with temp := x }) id hq
      refine ⟨_, exec_memInterfaceTemperature hd x, ?_⟩
      by_cases hx : 64 < (x - (s.ctl d.val).trainedAt).natAbs
      · rw [if_pos hx]
        refine ⟨State.stores_iff.1 (congrArg Prod.fst hkept), ?_, fun h => absurd hx (Nat.not_lt.2 h), fun _ hleg => ?_, fun _ hleg hidle hst hlast => ?_⟩
        · have htally := State.kept_tally hkept d.val
          rw [hctl] at htally
          exact congrArg MemCtl.temp htally
        · have hleg' : (s.updCtl d.val (fun c => { c with temp := x })).legOn = true := hleg
          have hask : (s.updCtl d.val (fun c => { c with temp := x })).needRetrain d.val
              = (s.updCtl d.val (fun c => { c with temp := x })).updCtl d.val (fun c => { c with pending := true }) := if_pos hleg'
          rw [hask, State.ctl_updCtl_self]
        · have hquiet : ∀ i, (s.ctl i).pending = false := hcalm.resolve_left (by simp [hleg])
          refine State.needRetrain_begins d.isLt hleg (fun i => Bool.eq_false_of_not_eq_true fun hi => ?_) (fun p hp => ?_) (by rw [hctl]; exact hst) (by rw [hctl]; exact hlast)
          · have := hpend i hi
            rw [hquiet i] at this
            exact Bool.false_ne_true this
          · rcases mem_of_mem_mset hp with rfl | hp
            · exact hst
            · exact hidle p hp
      · rw [if_neg hx]
        exact ⟨⟨rfl, rfl, rfl, rfl⟩, by rw [hctl], fun _ => rfl, fun h => absurd h hx, fun h => absurd h hx⟩
  · intro same
    refine ⟨fun o hw hr hl => ⟨fun ho hclean => ⟨_, exec_cxlMemRead_clean hw hr hl ho hclean, rfl⟩, exec_cxlMemRead_poisoned hw hr hl, exec_cxlMemRead_outside hw⟩,
      fun o data p hw hr hl => ?_, fun hc => ⟨?_, exec_snpInv hc a⟩, fun hp hb => ⟨exec_cxlConfigWrite hp hb, fun b u => happen_holds (by simp [hp, hb])⟩, fun hs cm key => ?_⟩
    · obtain ⟨r, hexec⟩ := exec_cxlMemWrite hw data p
      refine ⟨fun ho hen => ⟨_, hexec, ?_⟩, fun ho => ⟨_, hexec, ?_⟩⟩
      · have hstore : State.ddrWrite { s with trace := r } (o / 64 * 64) data p = State.devWrite { s with trace := r } .ddr (o / 64 * 64) ((lineBytes data).map (fun b => (b, p))) false := by
          unfold State.ddrWrite
          rw [if_neg (by simp [hen]; omega), if_neg (by simp [hr])]
        have hlen : (lineBytes data).length = 64 := by simp [lineBytes, leBytes]
        rw [hstore]
        refine ⟨fun i hi => ?_, fun w hw16 => ?_, fun x hx => ?_, fun x => ?_, State.devWrite_cores .., State.devWrite_groups ..⟩
        · refine (State.devWrite_byteAt_in (s := { s with trace := r }) (ds := (lineBytes data).map (fun b => (b, p))) false rfl hl (by simpa [hlen] using hi)).trans ?_
          simp [nth, hlen, hi]
        · have hword := State.devWrite_line_poisonAt (s := { s with trace := r }) (l := o / 64 * 64) (by omega) hl data p hw16
          rwa [show o / 64 * 64 / 4 = o / 64 * 16 by omega] at hword
        · exact State.devWrite_byteAt _ _ _ _ _ fun _ => by rw [List.length_map, hlen]; exact hx
        · exact State.devWrite_byteAt _ _ _ _ _ fun h => by cases h
      · have hdrop : State.ddrWrite { s with trace := r } (o / 64 * 64) data p = State.outside { s with trace := r } := by
          unfold State.ddrWrite
          exact if_pos (by simpa using ho)
        rw [hdrop]
        exact ⟨rfl, rfl⟩
    · intro j hj
      have hemit : s.emit (.snpResp (s.holds a)) = { s with outbox := s.outbox ++ [.snpResp (s.holds a)] } := State.emit_passing _ rfl rfl
      rcases List.mem_cons.1 hj with rfl | hj
      · exact (happen_holds hc).trans (congrArg _ hemit)
      · rw [List.mem_singleton.1 hj]
        exact (happen_holds hc).trans (congrArg _ hemit)
    · refine ⟨⟨_, happen_holds (by simp [hs]), rfl, mget_mset_self .., rfl⟩, ⟨_, happen_holds (by simp [hs]), rfl, mget_mset_self .., ?_⟩⟩
      cases cm <;> simp
end

