-- ==== Sys2Proof/Proofs/LinkRetry.lean ====
section
/-! ACK, NAK and the ACK timer; flits refused and copies lost. -/

namespace Sys2Proof.Machine

/-! ### Blocks and flits sent (R321, R324) -/

theorem State.emit_sent {s : State} {o : Output} (hf : s.feeding = false) (ho : o.toHost = false) : s.emit o = { s with outbox := s.outbox ++ [o] } := by
  unfold State.emit
  rw [hf, ho, Bool.false_and, Bool.and_false]
  rfl

theorem State.foldl_emit {α : Type} {f : α → Output} (ho : ∀ a, (f a).toHost = false) (l : List α) : ∀ {s : State}, s.feeding = false →
    l.foldl (fun t a => t.emit (f a)) s = { s with outbox := s.outbox ++ l.map f } := by
  induction l with
  | nil => intro s _; simp
  | cons a l ih =>
    intro s hf
    have hs : s.emit (f a) = { s with outbox := s.outbox ++ [f a] } := State.emit_sent hf (ho a)
    have hrest := ih (s := { s with outbox := s.outbox ++ [f a] }) hf
    rw [List.foldl_cons, hs, hrest]
    simp

/-- A link block's KIND reads back as written (R321, R324). -/
theorem kind_linkBlock {kind : Nat} (hk : kind < 16) (origin : W16) (id value : Nat) :
    (syncOf ({ kind := kind, origin := origin, id := id, value := value } : Sync).block).kind = kind := by
  have ho := origin.isLt
  simp only [syncOf, Sync.block, Sync.body, bits_eq_div, at', BitVec.toNat_ofNat]
  omega

/-- An ACK or a NAK of the module's own is sent, of its kind (R321). -/
theorem State.linkBlock_sent {s : State} (hf : s.feeding = false) (l : Nat) {kind : Nat} (hk : kind < 16) (seq : Nat) :
    ∃ x, (s.linkBlock l kind seq).outbox = s.outbox ++ [.linkBlock l x] ∧ (syncOf x).kind = kind := by
  unfold State.linkBlock
  dsimp only
  rw [State.emit_sent (by exact hf) rfl]
  exact ⟨_, rfl, kind_linkBlock hk ..⟩

/-- It leaves the links' records, the cores and the time. -/
theorem State.linkBlock_leaves (s : State) (l kind seq : Nat) : (s.linkBlock l kind seq).lnk.links = s.lnk.links ∧ (s.linkBlock l kind seq).cores = s.cores
    ∧ (s.linkBlock l kind seq).mem = s.mem ∧ (s.linkBlock l kind seq).time = s.time := by
  unfold State.linkBlock
  dsimp only
  rw [State.emit_lnk, State.emit_cores, State.emit_mem, State.emit_time]
  exact ⟨rfl, rfl, rfl, rfl⟩

theorem State.carries_up {s : State} {l : Nat} (h : s.carries l = true) : (s.link l).st = .up := by
  simp only [State.carries, State.linkUp, Bool.and_eq_true] at h
  simpa using h.1.1

/-! ### ACK and NAK (R321, R322) -/

/-- A link's record once an ACK is taken. -/
def Link.acked (k : Link) (x : Sync) : Link :=
  { k.grant (BitVec.ofNat 32 x.value) with
    unacked := ackThrough (bits x.value 32 12) k.unacked
    sameNaks := if (ackThrough (bits x.value 32 12) k.unacked).any (fun f => hf f.header 0 12 12 == k.lastNak) then k.sameNaks else 0 }

theorem exec_ack {s : State} {l : LinkIx} {b : Block} (hg : blockGood b = true) (hk : (syncOf b).kind = 7) (hc : s.carries l.val = true) :
    exec (.ack l b) s = .next ((s.updLink l.val (fun k => k.acked (syncOf b))).pump l.val) := by
  show execAck l b s = _
  unfold execAck
  rw [if_neg (by simp [hg])]
  exact happen_holds (by simp [hk, hc])

theorem State.pump_none {s : State} {l : Nat} (h : (s.link l).waiting = []) : s.pump l = s := by
  unfold State.pump
  rw [h]
  rfl

theorem State.pump_single {s : State} {l : Nat} {f : TxFlit} (h : (s.link l).waiting = [f]) : s.pump l = s.sendOne l := by
  unfold State.pump
  rw [h]
  rfl

/-- The only flit that waits leaves where it has a credit (R321, R322). -/
theorem State.sendOne_single {s : State} {l : Nat} {f : TxFlit} (hst : (s.link l).st = .up) (hlen : (s.link l).unacked.length < 512) (hw : (s.link l).waiting = [f]) :
    s.sendOne l = if (s.link l).credited f then
      (s.updLink l (fun k => { k with
        waiting := []
        credit := setAt k.credit f.flow (nth 0 k.credit f.flow - 1)
        unacked := k.unacked ++ [{ f with header := sealFlit ((f.stamp s.time.now).raw (s.link l).txSeq) f.payload }]
        txSeq := (k.txSeq + 1) % 4096
        rr := (f.source + 1) % 3
        qrr := if f.source = 1 then (f.queue + 1) % 64 else k.qrr })).emit
          (.flit l (sealFlit ((f.stamp s.time.now).raw (s.link l).txSeq) f.payload) f.payload)
    else s := by
  unfold State.sendOne
  dsimp only
  rw [if_neg (by simp [hst, hlen]), hw]
  by_cases hc : (s.link l).credited f = true
  · simp [hc, takeFirst, minOf]
  · simp [hc, takeFirst]

/-- A link's record once a NAK is taken. -/
def Link.naked (k : Link) (x : Sync) (n resent : Nat) : Link :=
  { k.grant (BitVec.ofNat 32 x.value) with lastNak := bits x.value 32 12, sameNaks := n, retries := sat 32 (k.retries + resent) }

/-- How often the flit that a NAK names has been asked for, this time included. -/
def Link.naks (k : Link) (seq : Nat) : Nat := if k.lastNak = seq ∧ k.sameNaks ≠ 0 then k.sameNaks + 1 else 1

section
variable {s : State} {l : LinkIx} {b : Block} (hg : blockGood b = true) (hk : (syncOf b).kind = 8) (hc : s.carries l.val = true)
  (hfs : (s.link l.val).unacked.dropWhile (fun f => hf f.header 0 12 12 != bits (syncOf b).value 32 12) ≠ [])
include hg hk hc hfs

theorem exec_nak (hn : (s.link l.val).naks (bits (syncOf b).value 32 12) ≤ 8) : exec (.nak l b) s =
    .next (((s.link l.val).unacked.dropWhile (fun f => hf f.header 0 12 12 != bits (syncOf b).value 32 12)).foldl (fun t f => t.emit (.flit l.val f.header f.payload))
      (s.updLink l.val (fun k => k.naked (syncOf b) ((s.link l.val).naks (bits (syncOf b).value 32 12))
        ((s.link l.val).unacked.dropWhile (fun f => hf f.header 0 12 12 != bits (syncOf b).value 32 12)).length))) := by
  show execNak l b s = _
  unfold execNak
  dsimp only
  rw [if_neg (by simp [hg]), if_neg (by simpa [hk, hc] using hfs)]
  exact if_neg (Nat.not_lt.2 hn)

/-- Past eight retries of one flit the link goes down (R321). -/
theorem exec_nak_down (hn : 8 < (s.link l.val).naks (bits (syncOf b).value 32 12)) : exec (.nak l b) s =
    .next ((s.updLink l.val (fun k => { k with sameNaks := 0 })).linkLeave l.val .down unusable) := by
  show execNak l b s = _
  unfold execNak
  dsimp only
  rw [if_neg (by simp [hg]), if_neg (by simpa [hk, hc] using hfs)]
  exact if_pos hn
end

/-! ### Flits refused, and the ACK timer (R321) -/

theorem State.fecSeen_link (s : State) (l : Nat) (fec : Option Nat) : ((s.fecSeen l fec).link l).rxSeq = (s.link l).rxSeq
    ∧ ((s.fecSeen l fec).link l).uncorrectable = if fec = none then sat 32 ((s.link l).uncorrectable + 1) else (s.link l).uncorrectable := by
  unfold State.fecSeen
  rw [State.link_updLink_self]
  cases fec with
  | none => exact ⟨rfl, rfl⟩
  | some n => exact ⟨rfl, rfl⟩

/-- A flit that the link's checks refuse is answered with a NAK alone. -/
theorem State.flitIn_refused {s : State} {l : Nat} (cls : Nat) {h : Block} {p : List PWord} {fec : Option Nat} (hc : s.carries l = true)
    (hbad : fec = none ∨ flitGood h p = false ∨ hf h 0 12 12 ≠ (s.link l).rxSeq) : s.flitIn l cls h p fec = (s.fecSeen l fec).linkBlock l 8 (s.link l).rxSeq := by
  unfold State.flitIn
  dsimp only
  rw [if_neg (by simp [hc]), if_pos (by simpa using hbad)]

theorem exec_ackTimer {s : State} {l : LinkIx} {d : Nat} (hc : s.carries l.val = true) (hd : (s.link l.val).oldestGood = some d) : exec (.ackTimer l) s =
    .next (((s.toTime (d + 200)).updLink l.val (fun k => { k with sinceAck := 0, oldestGood := none })).linkBlock l.val 7 (((s.link l.val).rxSeq + 4095) % 4096)) := by
  show execAckTimer l s = _
  unfold execAckTimer
  rw [if_pos hc, hd]

/-! ### Copies lost (R317, R324, R326) -/

theorem State.syncLost_carried {s : State} {l : Nat} (h : s.carries l = true) : s.syncLost l = { s with
    lnk := { s.lnk with links := mset {} s.lnk.links l { s.link l with lostCopies := min (2 ^ 32 - 1) ((s.link l).lostCopies + 1) } } } := by
  unfold State.syncLost
  rw [if_pos h, ← sat_eq_min]
  rfl

theorem State.syncLost_uncarried {s : State} {l : Nat} (h : s.carries l = false) : s.syncLost l = s := by
  unfold State.syncLost
  rw [if_neg (by simp [h])]

theorem State.syncIn_none {s : State} {l : Nat} {b : Block} (h : ¬ s.hears l b) : s.syncIn l b = none := (s.syncIn_spec l b).1.2 h

section
variable {s : State} {l : LinkIx} {b : Block}

theorem exec_stretch_lost (h : ¬ s.hears l.val b) (hk : blockGood b = true → (syncOf b).kind = 2) : exec (.stretch l b) s = .next (s.syncLost l.val) := by
  show execStretch l b s = _
  unfold execStretch
  rw [if_neg (by simpa using hk), State.syncIn_none h]

theorem exec_due_lost (h : ¬ s.hears l.val b) (hk : blockGood b = true → (syncOf b).kind = 3) : exec (.due l b) s = .next (s.syncLost l.val) := by
  show execDue l b s = _
  unfold execDue
  rw [if_neg (by simpa using hk), State.syncIn_none h]

theorem exec_abandon_lost (h : ¬ s.hears l.val b) (hk : blockGood b = true → (syncOf b).kind = 4) : exec (.abandon l b) s = .next (s.syncLost l.val) := by
  show execAbandon l b s = _
  unfold execAbandon
  rw [if_neg (by simpa using hk), State.syncIn_none h]

theorem exec_ready_lost (h : ¬ s.hears l.val b) (hk : blockGood b = true → (syncOf b).kind = 1 ∧ (syncOf b).leg ≠ 0xFFFFFFFFFFFF) : exec (.ready l b) s = .next (s.syncLost l.val) := by
  show execReady l b s = _
  unfold execReady
  dsimp only
  rw [if_neg (by simpa using hk), State.syncIn_none h]

theorem exec_joinMarker_lost (h : ¬ s.hears l.val b) (hk : blockGood b = true → (syncOf b).kind = 1 ∧ (syncOf b).leg = 0xFFFFFFFFFFFF) :
    exec (.joinMarker l b) s = .next (s.syncLost l.val) := by
  show execJoinMarker l b s = _
  unfold execJoinMarker
  dsimp only
  rw [if_neg (by simpa using hk), State.syncIn_none h]

/-- A block whose CRC is bad is a lost copy, whatever it would have been (R324). -/
theorem exec_bad_block (h : blockGood b = false) :
    ∀ i ∈ [Instr.ready l b, .stretch l b, .abandon l b, .due l b, .joinMarker l b, .time l b, .ack l b, .nak l b, .halt l b], exec i s = .next (s.syncLost l.val) := by
  have hdeaf : ¬ s.hears l.val b := fun hh => Bool.false_ne_true (h.symm.trans hh.2.1)
  have hany {P : Prop} : blockGood b = true → P := fun hg => absurd (h.symm.trans hg) Bool.false_ne_true
  have hbad : (!blockGood b) = true := by rw [h]; rfl
  simp only [List.mem_cons, List.not_mem_nil, or_false, forall_eq_or_imp, forall_eq]
  exact ⟨exec_ready_lost hdeaf hany, exec_stretch_lost hdeaf hany, exec_abandon_lost hdeaf hany, exec_due_lost hdeaf hany, exec_joinMarker_lost hdeaf hany,
    if_pos hbad, if_pos hbad, if_pos hbad, if_pos hbad⟩

/-- On a link that carries no such block nothing happens (R317). -/
theorem exec_uncarried (h : s.carries l.val = false) :
    ∀ i ∈ [Instr.ready l b, .stretch l b, .abandon l b, .due l b, .joinMarker l b, .ack l b, .nak l b], exec i s = .next s := by
  have hdeaf : ¬ s.hears l.val b := fun hh => Bool.false_ne_true (h.symm.trans hh.1)
  have hin := State.syncIn_none hdeaf
  have hlost := State.syncLost_uncarried h
  simp only [List.mem_cons, List.not_mem_nil, or_false, forall_eq_or_imp, forall_eq]
  refine ⟨?_, ?_, ?_, ?_, ?_, ?_, ?_⟩
  · show execReady l b s = _
    simp only [execReady, hin, hlost, ite_self]
  · show execStretch l b s = _
    simp only [execStretch, hin, hlost, ite_self]
  · show execAbandon l b s = _
    simp only [execAbandon, hin, hlost, ite_self]
  · show execDue l b s = _
    simp only [execDue, hin, hlost, ite_self]
  · show execJoinMarker l b s = _
    simp only [execJoinMarker, hin, hlost, ite_self]
  · show execAck l b s = _
    simp [execAck, happen, h, hlost]
  · show execNak l b s = _
    simp [execNak, h, hlost]
end

end Sys2Proof.Machine

open Sys2Proof Sys2Proof.Machine

/-- Settles O38: the link blocks by the equations of their commands, and a lost copy by its one count. -/
theorem linkRetryAndLostBlocks : Obligations.LinkRetryAndLostBlocks := by
  refine ⟨fun s l b => ?_, fun s l b => ?_⟩
  · intro k seq from_ g
    have hseq : (syncOf b).value / 2 ^ 32 % 4096 = bits (syncOf b).value 32 12 := (bits_eq_div (syncOf b).value 32 12).symm
    have hfrom : from_ = (s.link l.val).unacked.dropWhile (fun f => hf f.header 0 12 12 != bits (syncOf b).value 32 12) := by rw [← hseq]
    have hmem (t : State) (h : t.ground = s.ground) : t.mem = s.mem := congrArg (·.2.1) h
    have hlink : (s.updLink l.val (fun k => k.acked (syncOf b))).link l.val = (s.link l.val).acked (syncOf b) := State.link_updLink_self ..
    refine ⟨fun hg hk hc hw => ?_, fun f hg hk hc hw hlen hfeed => ?_, fun hg hk hc hfs hn hfeed => ?_, fun hg hk hc hfs hn h8 => ?_, fun h p fec j hj hp hc hbad hfeed => ?_,
      fun d hc hd hfeed => ?_⟩
    · have hpump : (s.updLink l.val (fun k => k.acked (syncOf b))).pump l.val = s.updLink l.val (fun k => k.acked (syncOf b)) := State.pump_none (by rw [hlink]; exact hw)
      refine ⟨_, (exec_ack hg hk hc).trans (congrArg _ hpump), ?_, ?_, rfl, rfl, rfl⟩
      · rw [hlink, show seq = _ from hseq]
        rfl
      · rw [hlink]
        exact State.carries_up hc
    · have hlen' : ((s.link l.val).acked (syncOf b)).unacked.length < 512 := by
        rw [show seq = _ from hseq] at hlen
        exact hlen
      have hpump : (s.updLink l.val (fun k => k.acked (syncOf b))).pump l.val = _ := (State.pump_single (by rw [hlink]; exact hw)).trans
        (State.sendOne_single (f := f) (by rw [hlink]; exact State.carries_up hc) (by rw [hlink]; exact hlen') (by rw [hlink]; exact hw))
      rw [hlink] at hpump
      have hexec := (exec_ack hg hk hc).trans (congrArg _ hpump)
      have hcred : ((s.link l.val).acked (syncOf b)).credited f = g.credited f := rfl
      intro sent
      rw [hcred] at hexec
      by_cases hs : g.credited f = true
      · rw [if_pos hs, State.emit_sent (by exact hfeed) rfl] at hexec
        refine ⟨_, hexec, ?_⟩
        have hrec : ∀ t : State, t.lnk = (State.updLink (s.updLink l.val (fun k => k.acked (syncOf b))) l.val (fun k => { k with
            waiting := []
            credit := setAt k.credit f.flow (nth 0 k.credit f.flow - 1)
            unacked := k.unacked ++ [{ f with header := sealFlit ((f.stamp s.time.now).raw (s.link l.val).txSeq) f.payload }]
            txSeq := (k.txSeq + 1) % 4096
            rr := (f.source + 1) % 3
            qrr := if f.source = 1 then (f.queue + 1) % 64 else k.qrr })).lnk → (t.link l.val).waiting = [] ∧ (t.link l.val).txSeq = ((s.link l.val).txSeq + 1) % 4096
            ∧ (t.link l.val).credit = setAt g.credit f.flow (nth 0 g.credit f.flow - 1) := by
          intro t ht
          unfold State.link
          rw [ht]
          change (State.link (State.updLink _ l.val _) l.val).waiting = _ ∧ (State.link (State.updLink _ l.val _) l.val).txSeq = _ ∧ (State.link (State.updLink _ l.val _) l.val).credit = _
          rw [State.link_updLink_self, hlink]
          exact ⟨rfl, rfl, rfl⟩
        obtain ⟨hwait, htx, hcr⟩ := hrec _ rfl
        have hsent : sent = true := hs
        rw [hsent, if_pos rfl, if_pos rfl, if_pos rfl, if_pos rfl]
        exact ⟨hwait, rfl, rfl, rfl, htx, hcr⟩
      · rw [if_neg hs] at hexec
        have hsent : sent = false := Bool.eq_false_of_not_eq_true hs
        refine ⟨_, hexec, ?_⟩
        rw [hsent, hlink]
        exact ⟨hw, rfl, rfl, (List.append_nil _).symm, rfl, rfl⟩
    · have hfs' : (s.link l.val).unacked.dropWhile (fun f => hf f.header 0 12 12 != bits (syncOf b).value 32 12) ≠ [] := by rw [← hseq]; exact hfs
      have hnaks : (s.link l.val).naks (bits (syncOf b).value 32 12) ≤ 8 := by
        rw [← hseq]
        unfold Link.naks
        split
        next h => exact Nat.succ_le_of_lt (Nat.lt_of_not_le fun h8 => hn ⟨h.1, h8⟩)
        next => omega
      have hexec := exec_nak hg hk hc hfs' hnaks
      rw [State.foldl_emit (fun _ => rfl) _ (by exact hfeed)] at hexec
      have hrec := State.link_updLink_self s l.val (fun k => k.naked (syncOf b) ((s.link l.val).naks (bits (syncOf b).value 32 12))
        ((s.link l.val).unacked.dropWhile (fun f => hf f.header 0 12 12 != bits (syncOf b).value 32 12)).length)
      refine ⟨_, hexec, ?_, (congrArg Link.unacked hrec :), (congrArg Link.retries hrec).trans ?_, rfl, rfl⟩
      · rw [hfrom]
        rfl
      · rw [hfrom, ← sat_eq_min]
        rfl
    · have hfs' : (s.link l.val).unacked.dropWhile (fun f => hf f.header 0 12 12 != bits (syncOf b).value 32 12) ≠ [] := by rw [← hseq]; exact hfs
      have hnaks : 8 < (s.link l.val).naks (bits (syncOf b).value 32 12) := by
        rw [← hseq]
        unfold Link.naks
        rw [if_pos ⟨hn, by have : 8 ≤ (s.link l.val).sameNaks := h8; omega⟩]
        exact Nat.lt_succ_of_le h8
      exact ⟨_, exec_nak_down hg hk hc hfs' hnaks, State.linkLeave_st_self .., hmem _ (State.linkLeave_ground ..)⟩
    · have hbad' : fec = none ∨ flitGood h p = false ∨ hf h 0 12 12 ≠ (s.link l.val).rxSeq := by
        have hseq' : hf h 0 12 12 = h.toNat / 2 ^ 12 % 4096 := bits_eq_div ..
        rw [hseq']
        exact hbad
      obtain ⟨cls, hexec⟩ : ∃ cls, exec j s = .next (s.flitIn l.val cls h p fec) := by
        rcases List.mem_cons.1 hj with rfl | hj
        · exact ⟨0, rfl⟩
        · obtain rfl := List.mem_singleton.1 hj
          rw [hp rfl]
          exact ⟨1, rfl⟩
      rw [State.flitIn_refused cls hc hbad'] at hexec
      obtain ⟨x, hout, hkind⟩ := State.linkBlock_sent (s := s.fecSeen l.val fec) hfeed l.val (kind := 8) (by omega) (s.link l.val).rxSeq
      obtain ⟨hlinks, hcores, hmem', -⟩ := (s.fecSeen l.val fec).linkBlock_leaves l.val 8 (s.link l.val).rxSeq
      obtain ⟨hrx, hunc⟩ := s.fecSeen_link l.val fec
      refine ⟨_, x, hexec, hout, hkind, ?_, ?_, hcores, hmem'⟩
      · rw [State.link, hlinks]
        exact hrx
      · rw [State.link, hlinks, ← sat_eq_min]
        exact hunc
    · have hfeed' : ((s.toTime (d + 200)).updLink l.val (fun k => { k with sinceAck := 0, oldestGood := none })).feeding = false := by
        have htrace : (s.toTime (d + 200)).trace = s.trace := State.advance_trace ..
        show ((s.toTime (d + 200)).trace.replay == .feeding) = false
        rw [htrace]
        exact hfeed
      obtain ⟨x, hout, hkind⟩ := State.linkBlock_sent hfeed' l.val (kind := 7) (by omega) (((s.link l.val).rxSeq + 4095) % 4096)
      obtain ⟨hlinks, hcores, hmem', htime⟩ := State.linkBlock_leaves ((s.toTime (d + 200)).updLink l.val (fun k => { k with sinceAck := 0, oldestGood := none })) l.val 7
        (((s.link l.val).rxSeq + 4095) % 4096)
      have hrec : ((s.toTime (d + 200)).updLink l.val (fun k => { k with sinceAck := 0, oldestGood := none })).link l.val
          = { (s.toTime (d + 200)).link l.val with sinceAck := 0, oldestGood := none } := State.link_updLink_self ..
      refine ⟨_, x, exec_ackTimer hc hd, hout.trans (congrArg (· ++ _) (State.advance_outbox ..)), hkind, ?_, ?_, hcores, hmem'.trans (State.toTime_mem ..), ?_⟩
      · rw [State.link, hlinks]
        exact congrArg Link.oldestGood hrec
      · rw [State.link, hlinks]
        exact congrArg Link.sinceAck hrec
      · rw [htime]
        show d + 200 ≤ (s.toTime (d + 200)).time.now
        rw [State.toTime_now]
        exact le_max_right ..
  · intro lost
    have hlost (hc : s.carries l.val = true) : .next (s.syncLost l.val) = lost := congrArg _ (State.syncLost_carried hc)
    refine ⟨fun hc hb i hi => (exec_bad_block hb i hi).trans (hlost hc), fun hc hb hseen => ?_, fun hc => exec_uncarried hc⟩
    have hdeaf : ¬ s.hears l.val b := fun hh => hh.2.2 hseen
    exact ⟨fun hk => (exec_stretch_lost hdeaf fun _ => hk).trans (hlost hc), fun hk => (exec_due_lost hdeaf fun _ => hk).trans (hlost hc),
      fun hk => (exec_abandon_lost hdeaf fun _ => hk).trans (hlost hc), fun hk hleg => (exec_ready_lost hdeaf fun _ => ⟨hk, hleg⟩).trans (hlost hc),
      fun hk hleg => (exec_joinMarker_lost hdeaf fun _ => ⟨hk, hleg⟩).trans (hlost hc)⟩
end

