-- ==== Sys2Proof/Proofs/TransferFlits.lean ====
section
/-! Flits of transfers delivered and answered, and posts taken. -/

namespace Sys2Proof.Machine

/-! ### Words of a payload, and the piece they fill (R240, R331) -/

/-- The bytes of words packed from bytes are those bytes. -/
theorem bytes_chunks (f : Nat) (ds : List PByte) (h4 : ds.length % 4 = 0) (hf : ds.length ≤ f) :
    (((chunksOf f 4 ds).map wordOf).flatMap bytesOf).map (·.1) = ds.map (·.1) ∧ 4 * (chunksOf f 4 ds).length = ds.length := by
  induction f generalizing ds with
  | zero =>
    obtain rfl := List.length_eq_zero_iff.1 (Nat.le_zero.1 hf)
    exact ⟨rfl, rfl⟩
  | succ f ih =>
    cases ds with
    | nil => exact ⟨rfl, rfl⟩
    | cons d ds =>
      have hlen : ((d :: ds).take 4).length = 4 := by simp only [List.length_take, List.length_cons] at h4 ⊢; omega
      obtain ⟨hbytes, hcount⟩ := ih ((d :: ds).drop 4) (by simp only [List.length_drop, List.length_cons] at h4 ⊢; omega)
        (by simp only [List.length_drop, List.length_cons] at hf ⊢; omega)
      have hword : (bytesOf (wordOf ((d :: ds).take 4))).map (·.1) = ((d :: ds).take 4).map (·.1) := by
        have hle := leBytes_leNat (((d :: ds).take 4).map (·.1))
        rw [List.length_map, hlen] at hle
        have hval := leNat_leBytes 4 (leNat (((d :: ds).take 4).map (·.1)))
        rw [hle] at hval
        rw [bytesOf, wordOf, List.map_map, BitVec.toNat_ofNat, show 2 ^ 32 = 256 ^ 4 from rfl, ← hval]
        exact (List.map_id _).trans hle
      have hchunk : chunksOf (f + 1) 4 (d :: ds) = (d :: ds).take 4 :: chunksOf f 4 ((d :: ds).drop 4) := rfl
      constructor
      · rw [hchunk, List.map_cons, List.flatMap_cons, List.map_append, hword, hbytes, ← List.map_append, List.take_append_drop]
      · rw [hchunk, List.length_cons, Nat.mul_succ, hcount]
        simp only [List.length_drop, List.length_cons] at h4 ⊢
        omega

theorem bytes_wordsOf {ds : List PByte} (h : ds.length % 4 = 0) : ((wordsOf ds).flatMap bytesOf).map (·.1) = ds.map (·.1) := (bytes_chunks _ ds h le_rfl).1

theorem length_wordsOf {ds : List PByte} (h : ds.length % 4 = 0) : 4 * (wordsOf ds).length = ds.length := by
  rw [wordsOf, List.length_map]
  exact (bytes_chunks _ ds h le_rfl).2

/-! ### What translation reads (R255 to R258) -/

/-- What a translation reads. -/
def State.mapped (s : State) := (s.mem, s.plan, s.pages)

theorem State.devRead_mapped {s t : State} (h : t.mapped = s.mapped) (sp : Space) (a n : Nat) : t.devRead sp a n = s.devRead sp a n := by
  simp only [State.mapped, Prod.mk.injEq] at h
  obtain ⟨hmem, hplan, -⟩ := h
  have hlost : t.memLost sp a = s.memLost sp a := by rw [State.memLost, hmem, hplan, State.memLost]
  rw [State.devRead, hlost, hmem, State.devRead]

theorem State.xlate_mapped {s t : State} (h : t.mapped = s.mapped) (va : Nat) (k : Acc) : t.xlate va k = s.xlate va k := by
  have hentry : t.entryBad (va / 2097152) = s.entryBad (va / 2097152) := by
    rw [State.entryBad, State.devRead_mapped h, show t.plan = s.plan from congrArg (·.2.1) h, State.entryBad]
  have hpage : t.page (va / 2097152) = s.page (va / 2097152) := by rw [State.page, show t.pages = s.pages from congrArg (·.2.2) h, State.page]
  rw [State.xlate, hentry, State.pageCheck, hpage, State.xlate, State.pageCheck]

theorem State.vaRead_mapped {s t : State} (h : t.mapped = s.mapped) (va n : Nat) : t.vaRead va n = s.vaRead va n := by
  simp only [State.vaRead, State.xlate_mapped h, State.devRead_mapped h]

theorem State.postRead_mapped {s t : State} (h : t.mapped = s.mapped) (va n : Nat) : t.postRead va n = s.postRead va n := by
  simp only [State.postRead, State.vaRead_mapped h]

/-! ### What a flit's way in leaves (R320, R331) -/

/-- What the taking of a flit leaves, up to its delivery. -/
def State.inbound (s : State) := (s.mapped, s.cores, s.coord, s.lnk.rx, s.lnk.rxHeld, s.lnk.xfers, s.clk)

theorem State.inbound_of_onlyLinks {s t : State} (hlnk : (t.lnk.ctrl, t.lnk.rx, t.lnk.rxHeld, t.lnk.xfers) = (s.lnk.ctrl, s.lnk.rx, s.lnk.rxHeld, s.lnk.xfers))
    (hrest : (t.mem, t.plan, t.pages, t.cores, t.clk) = (s.mem, s.plan, s.pages, s.cores, s.clk)) : t.inbound = s.inbound := by
  have hctrl := congrArg Prod.fst hlnk
  have htables := congrArg Prod.snd hlnk
  simp only [Prod.mk.injEq] at hctrl htables hrest
  simp only [State.inbound, State.mapped, State.coord, hctrl, htables, hrest]

@[simp] theorem State.emit_inbound (s : State) (o : Output) : (s.emit o).inbound = s.inbound := State.inbound_of_onlyLinks (by simp) (by simp)

@[simp] theorem State.faultMark_inbound (s : State) (u st r : Nat) : (s.faultMark u st r).inbound = s.inbound := State.inbound_of_onlyLinks (by simp) (by simp)

@[simp] theorem State.captureIn_inbound (s : State) (k src a i : Nat) (l : List Line) : (s.captureIn k src a i l).inbound = s.inbound :=
  State.inbound_of_onlyLinks (by simp) (by simp)

@[simp] theorem State.updLink_inbound (s : State) (l : Nat) (f : Link → Link) : (s.updLink l f).inbound = s.inbound := rfl

@[simp] theorem State.fecSeen_inbound (s : State) (l : Nat) (fec : Option Nat) : (s.fecSeen l fec).inbound = s.inbound := rfl

@[simp] theorem State.linkBlock_inbound (s : State) (l k seq : Nat) : (s.linkBlock l k seq).inbound = s.inbound := State.emit_inbound ..

@[simp] theorem State.goodFlit_inbound (s : State) (l : Nat) : (s.goodFlit l).inbound = s.inbound := by
  unfold State.goodFlit
  dsimp only
  split
  · exact State.linkBlock_inbound ..
  · rfl

@[simp] theorem State.xferFault_inbound (s : State) (u st : Nat) (d : W16) (n : Nat) : (s.xferFault u st d n).inbound = s.inbound := State.faultMark_inbound ..

@[simp] theorem State.sendOne_inbound (s : State) (l : Nat) : (s.sendOne l).inbound = s.inbound := by
  unfold State.sendOne
  dsimp only
  split
  · rfl
  · split
    · rfl
    · exact State.emit_inbound ..

theorem State.offer_inbound {s t : State} {d : Nat} {b : Bool} {f : TxFlit} (h : s.offer d b f = some t) : t.inbound = s.inbound := by
  unfold State.offer at h
  dsimp only at h
  split at h
  · rw [← Option.some.inj h]
  · split at h
    · cases h
    · rw [← Option.some.inj h]
      exact State.foldl_keeps State.inbound _ (fun t _ => t.sendOne_inbound _) _ _

@[simp] theorem State.sendDone_inbound (s : State) (d : W16) (tag st : Nat) : (s.sendDone d tag st).inbound = s.inbound := by
  unfold State.sendDone
  dsimp only
  split
  · rfl
  · split
    next h => exact State.offer_inbound h
    next => exact State.xferFault_inbound ..

theorem State.sendDone_mem (s : State) (d : W16) (tag st : Nat) : (s.sendDone d tag st).mem = s.mem := by
  have h := congrArg (fun q => q.1.1) (s.sendDone_inbound d tag st)
  exact h

/-- Where no flit is held back, none is taken after another. -/
theorem State.takeHeld_none {s : State} (h : s.lnk.rxHeld = []) : s.takeHeld = s := by
  unfold State.takeHeld
  rw [h]
  rfl

/-- A good flit of its class is delivered, the receiver's table having room; what a delivery reads stands until then (R321, R331). -/
theorem State.flitIn_good {s : State} {l cls : Nat} {h : Block} {p : List PWord} {n : Nat} (hc : s.carries l = true) (hgood : flitGood h p = true)
    (hseq : h.toNat / 2 ^ 12 % 4096 = (s.link l).rxSeq) (hcls : (hdrOf h).cls = cls) (hrx : cls = 0 → s.lnk.rx = []) :
    ∃ t : State, t.inbound = s.inbound ∧ s.flitIn l cls h p (some n) = (t.flitTaken l cls h p).takeHeld := by
  have hseq' : hf h 0 12 12 = (s.link l).rxSeq := (bits_eq_div h.toNat 12 12).trans hseq
  unfold State.flitIn
  extract_lets +onlyGivenNames k s0 x bytes s1 s2
  have h2 : s2.inbound = s.inbound := by
    show s1.inbound = _
    unfold s1
    split
    · exact (State.goodFlit_inbound ..).trans (State.captureIn_inbound ..)
    · exact (State.goodFlit_inbound ..).trans (State.captureIn_inbound ..)
  have hroom (h0 : cls = 0) : s2.rxRoom h = true := by
    have hrx2 : s2.lnk.rx = s.lnk.rx := by have h := congrArg (fun q => q.2.2.2.1) h2; exact h
    simp [State.rxRoom, hrx2, hrx h0]
  refine ⟨s2, h2, ?_⟩
  rw [if_neg (by simp [hc]), if_neg (by simp [hgood, hseq', k]), if_neg (by simp [x, hcls])]
  exact if_neg fun hheld => by simp [hroom hheld.1] at hheld

/-! ### Delivery of a transfer's only flit (R331) -/

/-- A device write that reaches memory changes memory alone. -/
theorem State.devWrite_reaches {s : State} {sp : Space} {a : Nat} (ds : List PByte) (hp : s.postHit sp a = false) (hl : s.memLost sp a = false) :
    s.devWrite sp a ds false = { s with mem := s.mem.put sp (pmWrite (s.mem.bytes sp) (s.mem.poison sp) a ds).1 (pmWrite (s.mem.bytes sp) (s.mem.poison sp) a ds).2 } := by
  simp [State.devWrite, hp, hl]

theorem State.devWrite_lnk {s : State} {sp : Space} {a : Nat} (ds : List PByte) (hp : s.postHit sp a = false) (hl : s.memLost sp a = false) :
    (s.devWrite sp a ds false).lnk = s.lnk := by rw [State.devWrite_reaches ds hp hl]

theorem State.devWrite_nil {s : State} {sp : Space} {a : Nat} (hp : s.postHit sp a = false) (hl : s.memLost sp a = false) : s.devWrite sp a [] false = s := by
  rw [State.devWrite_reaches [] hp hl]
  cases sp <;> rfl

/-- The receiver's table of transfers replaced. -/
def State.tracking (s : State) (rx : List RxXfer) : State := { s with lnk := { s.lnk with rx := rx } }

/-- A transfer of one flit that asks for no signal is written whole where its first address is translated, and answers OK (R331, R332). -/
theorem State.rxFlit_written {s : State} (unit : Nat) {x : Hdr} {p : List PWord} (hrx : s.lnk.rx = []) (hflits : x.flits = 1) (hsig : x.signal % 4096 = 0) (hdst : x.dst % 64 = 0)
    (hlen : p.length ≤ 16) {tg pa : Nat} (hx : s.xlate x.dst .plain = .inr (tg, pa)) (htg : tg < 2) (hl : s.memLost (spaceOf tg) pa = false)
    (hp : s.postHit (spaceOf tg) pa = false) : s.rxFlit unit x p = ((s.devWrite (spaceOf tg) pa (p.flatMap bytesOf) false).tracking [], some 0) := by
  have hbytes : (p.flatMap bytesOf).length = 4 * p.length := length_flatMap_bytesOf p
  have hva (ds : List PByte) : s.vaWrite x.dst ds = .inr (s.devWrite (spaceOf tg) pa ds false) := by
    unfold State.vaWrite
    rw [hx]
    exact if_neg (by omega)
  have hlnk := State.devWrite_lnk (p.flatMap bytesOf) hp hl
  have hsignal : bits (x.signal % 4294967296) 0 12 = 0 := by rw [bits_low]; omega
  unfold State.rxFlit
  extract_lets +onlyGivenNames key old ds ps bad s1 y all rest lnk s2
  have hold : old = { src := x.src, tag := x.tag, flits := x.flits, got := [], status := 0, signal := BitVec.ofNat 32 x.signal } := by simp [old, hrx]
  have hwrite : bad = false ∧ s1 = s.devWrite (spaceOf tg) pa (p.flatMap bytesOf) false := by
    cases p with
    | nil =>
      have hold0 : ¬ (old.status ≠ 0 ∨ bad = true) := by simp [hold, bad, ps, ds, linePieces]
      exact ⟨rfl, (if_neg hold0).trans (State.devWrite_nil hp hl).symm⟩
    | cons w p =>
      have hps : ps = [(x.dst, ds.length)] := linePieces_line hdst (by rw [hbytes]; simp) (by rw [hbytes]; omega)
      have hbad : bad = false := by
        unfold bad
        rw [hps]
        simp [hx]
        omega
      refine ⟨hbad, ?_⟩
      unfold s1
      have htake : (ds.drop (x.dst - x.dst)).take ds.length = ds := by rw [Nat.sub_self, List.drop_zero, List.take_length]
      rw [if_neg (by simp [hold, hbad]), hps, List.foldl_cons, List.foldl_nil]
      dsimp only
      rw [htake, hva]
  obtain ⟨hbad, hs1⟩ := hwrite
  have hy : y.status = 0 ∧ y.signal = BitVec.ofNat 32 x.signal := by simp [y, hold, hbad]
  have hall : all = true := by simp [all, y, hold, hflits]
  have hrest : rest = [] := by simp [rest, hs1, hlnk, hrx]
  have hs2 : s2 = (s.devWrite (spaceOf tg) pa (p.flatMap bytesOf) false).tracking [] := by
    unfold s2 lnk
    rw [hall, if_pos rfl, hrest, hs1]
    rfl
  rw [if_neg (by simp [hold]), if_neg (by simp [hbad]), if_pos ⟨hall, hy.1⟩, hy.2, hs2]
  simp [State.remoteSignal, hsignal]

/-- A flit whose first address a check stops writes nothing and answers with the fault (R258, R331). -/
theorem State.rxFlit_refused {s : State} (unit : Nat) {x : Hdr} {p : List PWord} {e : Nat} (hrx : s.lnk.rx = []) (hpay : p ≠ []) (hx : s.xlate x.dst .plain = .inl e) :
    ∃ rx no, s.rxFlit unit x p = ((s.tracking rx).xferFault unit 0x7B x.dest no, some 0xB) := by
  have hbytes : (p.flatMap bytesOf).length = 4 * p.length := length_flatMap_bytesOf p
  have hpos := List.length_pos_of_ne_nil hpay
  unfold State.rxFlit
  extract_lets +onlyGivenNames key old ds ps bad s1 y all rest lnk s2
  have hold : old = { src := x.src, tag := x.tag, flits := x.flits, got := [], status := 0, signal := BitVec.ofNat 32 x.signal } := by simp [old, hrx]
  have hbad : bad = true := by
    have hlen : ds.length ≠ 0 := by rw [show ds.length = _ from hbytes]; omega
    simp [bad, ps, linePieces, hlen, hx]
  have hs1 : s1 = s := if_pos (.inr hbad)
  refine ⟨if all then rest else rest ++ [y], x.no, ?_⟩
  rw [if_neg (by simp [hold]), if_pos (by simp [hold, hbad])]
  unfold s2 lnk
  rw [hs1]
  rfl

/-! ### Transfers ended (R331) -/

theorem State.xferEnd_xfers (s : State) (x : Xfer) (ok : Bool) :
    (s.xferEnd x ok).lnk.xfers = s.lnk.xfers.filter (fun y => !(y.queue == x.queue && y.count == x.count)) := by
  rcases s.xferEnd_cases x ok with h | ⟨c, f, h⟩
  · rw [h]; rfl
  · rw [h]; rfl

/-- Success adds DONE_ADD to its counter of a posting core in service (R331). -/
theorem State.xferEnd_added {s : State} {x : Xfer} {c : Nat} (hcore : coreOfUnit (pf x.post 0x18 48 16) = some c) (hok : s.coreOk c = true) (hon : (s.core c).power = .on)
    (hadd : pf x.post 0x10 0 12 ≠ 0) : s.xferEnd x true = (s.xferGone x).updCore c (fun k => k.addCtr (pf x.post 0x10 28 4) (pf x.post 0x10 0 12) s.cycles) := by
  have hend : s.xferEnd x true = (s.xferGone x).addCounter c (pf x.post 0x10 28 4) (pf x.post 0x10 0 12) := by
    simp only [State.xferEnd, hcore, if_true, if_neg hadd]
    rfl
  rw [hend]
  have hok' : (s.xferGone x).coreOk c = true := hok
  have hon' : ((s.xferGone x).core c).power = .on := hon
  unfold State.addCounter
  rw [hok', hon']
  rfl

/-! ### Posts (R329 to R331) -/

/-- What a post's end leaves: the lines that wait, the posts counted, memory and what is sent. -/
def State.postPart (s : State) := (s.lnk.postLines, s.lnk.posts, s.lnk.rx, s.mem, s.outbox)

@[simp] theorem State.xferEnd_postPart (s : State) (x : Xfer) (ok : Bool) : (s.xferEnd x ok).postPart = s.postPart :=
  State.xferEnd_keeps State.postPart (fun _ _ => rfl) (fun _ _ _ => rfl) s x ok

@[simp] theorem State.xferFault_postPart (s : State) (u st : Nat) (d : W16) (n : Nat) : (s.xferFault u st d n).postPart = s.postPart := by
  simp [State.postPart, State.xferFault]

/-- The only post line taken, and a core's wait for it ended. -/
def State.postTaken (s : State) (w : LineWrite) : State := { s with lnk := { s.lnk with postLines := [] } }.lineIn w

/-- The transfer that a post of a send queue opens. -/
def State.opened (s : State) (w : LineWrite) (p : Line) : Xfer := { queue := w.queue, count := mget 0 s.lnk.posts w.queue, post := p }

/-- A post taken, its transfer open. -/
def State.posted (s : State) (w : LineWrite) (p : Line) : State :=
  { s.postTaken w with lnk := { (s.postTaken w).lnk with
    posts := mset 0 (s.postTaken w).lnk.posts w.queue ((mget 0 s.lnk.posts w.queue + 1) % 64)
    xfers := (s.postTaken w).lnk.xfers ++ [s.opened w p] } }

theorem State.postTaken_only (s : State) (w : LineWrite) : { s.postTaken w with cores := s.cores } = { s with lnk := { s.lnk with postLines := [] } } :=
  State.lineIn_only ({ s with lnk := { s.lnk with postLines := [] } }) w

theorem State.postTaken_lnk (s : State) (w : LineWrite) : (s.postTaken w).lnk = { s.lnk with postLines := [] } := by
  have h := congrArg State.lnk (s.postTaken_only w)
  exact h

theorem State.postTaken_mapped (s : State) (w : LineWrite) : (s.postTaken w).mapped = s.mapped := by
  have h := congrArg State.mapped (s.postTaken_only w)
  exact h

theorem State.postTaken_postPart (s : State) (w : LineWrite) : (s.postTaken w).postPart = ([], s.lnk.posts, s.lnk.rx, s.mem, s.outbox) := by
  have h := congrArg State.postPart (s.postTaken_only w)
  exact h

theorem State.postTaken_cores {s : State} {w : LineWrite} (h : w.held = false) : (s.postTaken w).cores = s.cores := by
  unfold State.postTaken State.lineIn
  rw [h]
  split <;> rfl

theorem State.posted_postPart (s : State) (w : LineWrite) (p : Line) :
    (s.posted w p).postPart = ([], mset 0 s.lnk.posts w.queue ((mget 0 s.lnk.posts w.queue + 1) % 64), s.lnk.rx, s.mem, s.outbox) := by
  have h := s.postTaken_postPart w
  simp only [State.postPart, Prod.mk.injEq] at h
  obtain ⟨hlines, hposts, hrx, hmem, hout⟩ := h
  simp only [State.postPart, State.posted, hlines, hposts, hrx, hmem, hout]

/-- A transfer that alone is open is the last. -/
theorem State.posted_xfers {s : State} (hxf : s.lnk.xfers = []) (w : LineWrite) (p : Line) : (s.posted w p).lnk.xfers = [s.opened w p] := by
  show (s.postTaken w).lnk.xfers ++ _ = _
  rw [s.postTaken_lnk w, show ({ s.lnk with postLines := [] } : LinkSys).xfers = [] from hxf, List.nil_append]

theorem State.xferEnd_last {s : State} {x : Xfer} (h : s.lnk.xfers = [x]) (ok : Bool) : (s.xferEnd x ok).lnk.xfers = [] := by
  rw [State.xferEnd_xfers, h]
  simp

/-- A post taken reads its source as before. -/
theorem State.posted_mapped (s : State) (w : LineWrite) (p : Line) : (s.posted w p).mapped = s.mapped := s.postTaken_mapped w

theorem takeFirst_single {α : Type} {q : α → Bool} {a : α} (h : q a = true) : takeFirst q [a] = some (a, []) := if_pos h

section
variable {s : State} {w : LineWrite} (hxf : s.lnk.xfers = []) (hw : s.lnk.postLines = [w])
include hxf hw

/-- Of a line that is no whole line only the fault is left (R329). -/
theorem exec_post_partial (hline : w.line = none) :
    ∃ u d n ix, exec .post s = .next (({ s.postTaken w with freeIx := ix } : State).xferFault u 0x78 d n) := by
  show ∃ u d n ix, execPost s = _
  unfold execPost
  extract_lets +onlyGivenNames room
  rw [hw, takeFirst_single (q := room) (by simp [room, hxf, hline])]
  dsimp -zeta only
  extract_lets +onlyGivenNames k lnk s1 port
  rw [hline]
  exact ⟨_, _, _, _, rfl⟩

section
variable (hrx : s.lnk.rx = []) {p : Line} (hline : w.line = some p)
include hrx hline

/-- A post whose fields R330 refuses ends with the fault alone. -/
theorem exec_post_bad (hbad : postBad p = true) :
    ∃ u d n ix, exec .post s = .next ((({ s.posted w p with freeIx := ix } : State).xferFault u 0x78 d n).xferEnd (s.opened w p) false) := by
  show ∃ u d n ix, execPost s = _
  unfold execPost
  extract_lets +onlyGivenNames room
  rw [hw, takeFirst_single (q := room) (by simp [room, hxf, hrx, hline])]
  dsimp -zeta only
  extract_lets +onlyGivenNames k lnk s1 port
  rw [hline]
  dsimp -zeta only
  extract_lets +onlyGivenNames cnt x lnk2 s2 dest
  rw [if_pos hbad]
  exact ⟨_, _, _, _, rfl⟩

/-- A post whose source a check stops ends with the fault alone (R258, R331). -/
theorem exec_post_unread (hgood : postBad p = false) {j : Nat} (hread : s.postRead (pf p 0 0 43) (pf p 8 45 19) = .inl j) :
    ∃ u d n ix, exec .post s = .next ((({ s.posted w p with freeIx := ix } : State).xferFault u 0x7A d n).xferEnd (s.opened w p) false) := by
  have hread' : (s.posted w p).postRead (pf p 0 0 43) (pf p 8 45 19) = .inl j := (State.postRead_mapped (s.posted_mapped w p) ..).trans hread
  show ∃ u d n ix, execPost s = _
  unfold execPost
  extract_lets +onlyGivenNames room
  rw [hw, takeFirst_single (q := room) (by simp [room, hxf, hrx, hline])]
  dsimp -zeta only
  extract_lets +onlyGivenNames k lnk s1 port
  rw [hline]
  dsimp -zeta only
  extract_lets +onlyGivenNames cnt x lnk2 s2 dest
  rw [if_neg (by simp [hgood]), show s2.postRead _ _ = _ from hread']
  exact ⟨_, _, _, _, rfl⟩

/-- A post whose source is read is run (R331). -/
theorem exec_post_read (hgood : postBad p = false) {ds : List PByte} (hread : s.postRead (pf p 0 0 43) (pf p 8 45 19) = .inr ds) :
    exec .post s = .next ((s.posted w p).runXfer (s.opened w p) ds) := by
  have hread' : (s.posted w p).postRead (pf p 0 0 43) (pf p 8 45 19) = .inr ds := (State.postRead_mapped (s.posted_mapped w p) ..).trans hread
  show execPost s = _
  unfold execPost
  extract_lets +onlyGivenNames room
  rw [hw, takeFirst_single (q := room) (by simp [room, hxf, hrx, hline])]
  dsimp -zeta only
  extract_lets +onlyGivenNames k lnk s1 port
  rw [hline]
  dsimp -zeta only
  extract_lets +onlyGivenNames cnt x lnk2 s2 dest
  rw [if_neg (by simp [hgood]), show s2.postRead _ _ = _ from hread']
  rfl
end
end

/-- The header of a post's only flit. -/
def State.postHead (s : State) (x : Xfer) (ds : List PByte) : Hdr :=
  { time := s.time.now, cls := 0, vc := 0, len16 := (wordsOf ds).length / 4, dest := BitVec.ofNat 16 (pf x.post 0 48 16), src := s.coord, tag := 64 * x.queue + x.count, no := 0
    status := 0, flits := 1, dst := pf x.post 8 0 43, signal := pf x.post 0x10 32 32 }

/-- A post of one line is one flit, of all the data (R331). -/
theorem State.postFlits_line (s : State) (x : Xfer) {ds : List PByte} (hds : ds.length = 64) : s.postFlits x ds = [(s.postHead x ds, wordsOf ds)] := by
  have htake : (ds.drop (480 * 0)).take 480 = ds := List.take_of_length_le (by simp [hds])
  have hcount : cdiv ds.length 480 = 1 := by rw [hds]; rfl
  unfold State.postFlits
  dsimp only
  rw [hcount]
  exact congrArg (fun d => [(s.postHead x d, wordsOf d)]) htake

theorem State.length_vaRead {s : State} {va n : Nat} {ds : List PByte} (h : s.vaRead va n = .inr ds) : ds.length = n := by
  unfold State.vaRead at h
  split at h
  next => cases h
  next =>
    split at h
    next => cases h
    next => rw [← Sum.inr.inj h, State.length_devRead]

theorem State.length_postRead_one {s : State} {va : Nat} {ds : List PByte} (h : s.postRead va 1 = .inr ds) : ds.length = 64 := by
  have hread : s.postRead va 1 = (match s.vaRead (va + 64 * 0) 64 with | .inl _ => .inl 0 | .inr l => .inr ([] ++ l)) := rfl
  rw [hread] at h
  split at h
  next => cases h
  next l hl =>
    rw [← Sum.inr.inj h]
    exact State.length_vaRead hl

/-- A transfer of one line to this module is delivered and ended, and nothing is sent (R331). -/
theorem State.runXfer_own {s : State} {x : Xfer} {ds : List PByte} (hdest : BitVec.ofNat 16 (pf x.post 0 48 16) = s.coord) (hds : ds.length = 64) (hrx : s.lnk.rx = [])
    (hsig : pf x.post 0x10 32 12 = 0) (hdst : pf x.post 8 0 43 % 64 = 0) {tg pa : Nat} (hx : s.xlate (pf x.post 8 0 43) .plain = .inr (tg, pa)) (htg : tg < 2)
    (hl : s.memLost (spaceOf tg) pa = false) (hp : s.postHit (spaceOf tg) pa = false) :
    s.runXfer x ds = (((s.anyPort.2.devWrite (spaceOf tg) pa ((wordsOf ds).flatMap bytesOf) false).tracking []).xferEnd x true) := by
  have hlen : (wordsOf ds).length ≤ 16 := by
    have := length_wordsOf (ds := ds) (by omega)
    omega
  have hsig' : (s.postHead x ds).signal % 4096 = 0 := by
    refine Eq.trans (b := pf x.post 0x10 32 12) ?_ hsig
    show pf x.post 0x10 32 32 % 4096 = _
    simp only [pf, fld, bits_eq_div]
    omega
  have hrun := State.rxFlit_written (s := s.anyPort.2) s.anyPort.1 (x := s.postHead x ds) (p := wordsOf ds) hrx rfl hsig' hdst hlen
    ((State.xlate_mapped (s := s) (t := s.anyPort.2) rfl ..).trans hx) htg hl hp
  unfold State.runXfer
  extract_lets +onlyGivenNames dest fs port
  rw [if_pos hdest, show fs = _ from s.postFlits_line x hds, List.foldl_cons, List.foldl_nil]
  dsimp only
  rw [show State.rxFlit port.2 port.1 (s.postHead x ds) (wordsOf ds) = _ from hrun]
  rfl

/-! ### What a delivery leaves (R331, R332) -/

theorem State.devWrite_bytes {s : State} {sp : Space} {a : Nat} (ds : List PByte) (hp : s.postHit sp a = false) (hl : s.memLost sp a = false) (q : Space) :
    (s.devWrite sp a ds false).mem.bytes q = if q = sp then msetRun 0 (s.mem.bytes sp) a (ds.map (·.1)) else s.mem.bytes q := by
  rw [State.devWrite_mem_eq ds false hp hl, DevMem.bytes_put]
  rfl

theorem State.memLost_mapped {s t : State} (h : t.mapped = s.mapped) (sp : Space) (a : Nat) : t.memLost sp a = s.memLost sp a := by
  simp only [State.mapped, Prod.mk.injEq] at h
  obtain ⟨hmem, hplan, -⟩ := h
  rw [State.memLost, hmem, hplan, State.memLost]

theorem State.postHit_mapped {s t : State} (h : t.mapped = s.mapped) (sp : Space) (a : Nat) : t.postHit sp a = s.postHit sp a := by
  rw [State.postHit, show t.plan = s.plan from congrArg (·.2.1) h, State.postHit]

theorem State.inbound_parts {s t : State} (h : t.inbound = s.inbound) : t.mapped = s.mapped ∧ t.cores = s.cores ∧ t.coord = s.coord ∧ t.lnk.rx = s.lnk.rx
    ∧ t.lnk.rxHeld = s.lnk.rxHeld ∧ t.lnk.xfers = s.lnk.xfers := by
  simp only [State.inbound, Prod.mk.injEq] at h
  obtain ⟨hmap, hcores, hcoord, hrx, hheld, hxf, -⟩ := h
  exact ⟨hmap, hcores, hcoord, hrx, hheld, hxf⟩

/-- A DATA flit for this module that its transfer answers at once is delivered and answered (R331). -/
theorem State.flitTaken_data {s t : State} {l k : Nat} {h : Block} {p : List PWord} (hdest : (hdrOf h).dest = s.coord) (hrx : s.rxFlit (linkUnit l) (hdrOf h) p = (t, some k)) :
    s.flitTaken l 0 h p = t.sendDone (hdrOf h).src (hdrOf h).tag k := by
  unfold State.flitTaken
  dsimp only
  rw [if_neg (by simp [hdest]), if_pos rfl, hrx]

/-- A DONE for this module ends the transfer that it names (R331). -/
theorem State.flitTaken_done {s : State} {l : Nat} {h : Block} {p : List PWord} {y : Xfer} (hdest : (hdrOf h).dest = s.coord) (hx : s.xferOf (hdrOf h).tag = some y)
    (hst : (hdrOf h).status = 0) : s.flitTaken l 1 h p = s.xferEnd y true := by
  unfold State.flitTaken
  dsimp only
  rw [if_neg (by simp [hdest]), if_neg (by decide), hx, hst]
  rfl

/-- A counter after an addition (R267). -/
theorem Core.addCtr_self (k : Core) (i n t : Nat) : mget 0 (k.addCtr i n t).ctrs i = mget 0 k.ctrs i + BitVec.ofNat 32 n := mget_mset_self ..

theorem exec_dataFlit (l : LinkIx) (h : Block) (p : List PWord) (fec : Option Nat) (s : State) : exec (.dataFlit l h p fec) s = .next (s.flitIn l.val 0 h p fec) := rfl

theorem exec_doneFlit (l : LinkIx) (h : Block) (fec : Option Nat) (s : State) : exec (.done l h fec) s = .next (s.flitIn l.val 1 h [] fec) := rfl

/-- What a post that ends with its fault leaves (R329 to R331). -/
theorem State.postFailed_leaves {s : State} (hxf : s.lnk.xfers = []) (w : LineWrite) (p : Line) (u st ix n : Nat) (d : W16) :
    let t := (({ s.posted w p with freeIx := ix } : State).xferFault u st d n).xferEnd (s.opened w p) false
    t.lnk.postLines = [] ∧ t.lnk.xfers = [] ∧ t.mem = s.mem ∧ t.outbox = s.outbox ∧ t.lnk.posts = mset 0 s.lnk.posts w.queue ((mget 0 s.lnk.posts w.queue + 1) % 64) := by
  intro t
  have hpart : t.postPart = _ := (State.xferEnd_postPart ..).trans ((State.xferFault_postPart ..).trans (s.posted_postPart w p))
  have hxfers : t.lnk.xfers = [] := State.xferEnd_last ((congrArg LinkSys.xfers (State.faultMark_lnk ({ s.posted w p with freeIx := ix }) ..)).trans (State.posted_xfers hxf w p)) false
  simp only [State.postPart, Prod.mk.injEq] at hpart
  obtain ⟨hlines, hposts, -, hmem, hout⟩ := hpart
  exact ⟨hlines, hxfers, hmem, hout, hposts⟩

/-- A post that R330 does not refuse goes to a line's start. -/
theorem postBad_dst {p : Line} (h : postBad p = false) : pf p 8 0 43 % 64 = 0 := by
  have hlow : pf p 8 0 6 = 0 := by
    simp only [postBad, Bool.or_eq_false_iff] at h
    simpa using h.2
  refine Eq.trans (b := pf p 8 0 6) ?_ hlow
  simp only [pf, fld, bits_eq_div]
  omega

end Sys2Proof.Machine

open Sys2Proof Sys2Proof.Machine

/-- Settles O39: a flit by the one delivery that its link hands it to, a post by the engine's taking of the only line that waits. -/
theorem transferFlitsAndPosts : Obligations.TransferFlitsAndPosts := by
  refine ⟨fun s l h => ?_, fun s w hxf hrx hw => ?_⟩
  · intro k x
    refine ⟨fun p n hc hheld hgood hseq hcls hdest hflits hrx hsig hdst hlen tg pa hx htg hl hp => ?_,
      fun p e n hc hheld hgood hseq hcls hdest hrx hpay hx => ?_,
      fun y c n hc hheld hgood hseq hcls hdest hxf htag hcount hqueue hcore hst hok hon hadd => ?_⟩
    · obtain ⟨t, hin, hexec⟩ := State.flitIn_good (n := n) hc hgood hseq hcls fun _ => hrx
      obtain ⟨hmap, hcores, hcoord, htrx, htheld, -⟩ := State.inbound_parts hin
      have hmem : t.mem = s.mem := congrArg Prod.fst hmap
      have hl' := (State.memLost_mapped hmap (spaceOf tg) pa).trans hl
      have hp' := (State.postHit_mapped hmap (spaceOf tg) pa).trans hp
      have hwritten := State.rxFlit_written (linkUnit l.val) (htrx.trans hrx) hflits hsig hdst hlen ((State.xlate_mapped hmap ..).trans hx) htg hl' hp'
      rw [State.flitTaken_data (hdest.trans hcoord.symm) hwritten] at hexec
      obtain ⟨-, hcores2, -, hrx2, hheld2, -⟩ := State.inbound_parts (((t.devWrite (spaceOf tg) pa (p.flatMap bytesOf) false).tracking []).sendDone_inbound x.src x.tag 0)
      have hlnk := State.devWrite_lnk (p.flatMap bytesOf) hp' hl'
      have hbytes (q : Space) : (((t.devWrite (spaceOf tg) pa (p.flatMap bytesOf) false).tracking []).sendDone x.src x.tag 0).mem.bytes q = _ :=
        (congrArg (DevMem.bytes · q) (State.sendDone_mem ..)).trans (State.devWrite_bytes (p.flatMap bytesOf) hp' hl' q)
      rw [State.takeHeld_none (hheld2.trans ((congrArg LinkSys.rxHeld hlnk).trans (htheld.trans hheld)))] at hexec
      refine ⟨_, (exec_dataFlit ..).trans (congrArg _ hexec), ?_, hrx2, hcores2.trans ((State.devWrite_cores ..).trans hcores), fun q hq => ?_⟩
      · rw [hbytes, if_pos rfl, hmem]
      · rw [hbytes, if_neg hq, hmem]
    · obtain ⟨t, hin, hexec⟩ := State.flitIn_good (n := n) hc hgood hseq hcls fun _ => hrx
      obtain ⟨hmap, hcores, hcoord, htrx, htheld, -⟩ := State.inbound_parts hin
      obtain ⟨rx, no, hrefused⟩ := State.rxFlit_refused (linkUnit l.val) (htrx.trans hrx) hpay ((State.xlate_mapped hmap ..).trans hx)
      rw [State.flitTaken_data (hdest.trans hcoord.symm) hrefused] at hexec
      obtain ⟨hmap2, hcores2, -, -, hheld2, -⟩ := State.inbound_parts ((State.sendDone_inbound _ x.src x.tag 0xB).trans (State.xferFault_inbound (t.tracking rx) (linkUnit l.val) 0x7B x.dest no))
      rw [State.takeHeld_none (hheld2.trans (htheld.trans hheld))] at hexec
      exact ⟨_, (exec_dataFlit ..).trans (congrArg _ hexec), (congrArg Prod.fst hmap2).trans (congrArg Prod.fst hmap), hcores2.trans hcores⟩
    · obtain ⟨t, hin, hexec⟩ := State.flitIn_good (n := n) hc hgood hseq hcls (by simp)
      obtain ⟨hmap, hcores, hcoord, -, htheld, htxf⟩ := State.inbound_parts hin
      have hfound : t.xferOf x.tag = some y := by
        have htop : x.tag / 64 = y.queue := by omega
        have hlow : x.tag % 64 = y.count := by omega
        simp [State.xferOf, htxf, hxf, htop, hlow]
      have htcore : t.core c = s.core c := by rw [State.core, hcores, State.core]
      have htok : t.coreOk c = true := by
        rw [State.coreOk, State.coreEntry, show t.plan = s.plan from congrArg (·.2.1) hmap]
        exact hok
      have hend := State.xferEnd_added hcore htok (by rw [htcore]; exact hon) hadd
      rw [State.flitTaken_done (hdest.trans hcoord.symm) hfound hst, State.takeHeld_none ((congrArg LinkSys.rxHeld (congrArg State.lnk hend)).trans (htheld.trans hheld))] at hexec
      have hself : (t.xferEnd y true).core c = (t.core c).addCtr (pf y.post 0x10 28 4) (pf y.post 0x10 0 12) t.cycles := by
        rw [hend, State.core_updCore_self]
        rfl
      refine ⟨_, (exec_doneFlit ..).trans (congrArg _ hexec), State.xferEnd_last (htxf.trans hxf) true, ?_, ?_⟩
      · rw [hend]
        exact congrArg Prod.fst hmap
      · rw [hself, Core.addCtr_self, htcore]
  · intro only
    refine ⟨fun hline => ?_, fun p hline hbad => ?_, fun p hline hgood hread => ?_, fun p ds tg pa hline hgood hread hdest hone hsig hx htg hl hp => ?_⟩
    · obtain ⟨u, d, n, ix, hexec⟩ := exec_post_partial hxf hw hline
      have hpart := (State.xferFault_postPart ({ s.postTaken w with freeIx := ix }) u 0x78 d n).trans (s.postTaken_postPart w)
      simp only [State.postPart, Prod.mk.injEq] at hpart
      obtain ⟨hlines, -, -, hmem, hout⟩ := hpart
      have hxfers : (({ s.postTaken w with freeIx := ix } : State).xferFault u 0x78 d n).lnk.xfers = [] := by
        rw [State.xferFault, State.faultMark_lnk]
        show (s.postTaken w).lnk.xfers = []
        rw [s.postTaken_lnk w]
        exact hxf
      exact ⟨_, hexec, ⟨hlines, hxfers, hmem, hout⟩, fun hheld => (State.faultMark_cores ..).trans (State.postTaken_cores hheld)⟩
    · obtain ⟨u, d, n, ix, hexec⟩ := exec_post_bad hxf hw hrx hline hbad
      obtain ⟨hlines, hxfers, hmem, hout, hposts⟩ := State.postFailed_leaves hxf w p u 0x78 ix n d
      exact ⟨_, hexec, ⟨hlines, hxfers, hmem, hout⟩, by rw [hposts, mget_mset_self]⟩
    · obtain ⟨j, hj⟩ := hread
      obtain ⟨u, d, n, ix, hexec⟩ := exec_post_unread hxf hw hrx hline hgood hj
      obtain ⟨hlines, hxfers, hmem, hout, -⟩ := State.postFailed_leaves hxf w p u 0x7A ix n d
      exact ⟨_, hexec, hlines, hxfers, hmem, hout⟩
    · have hexec := exec_post_read hxf hw hrx hline hgood hread
      have hmap := s.posted_mapped w p
      have hpart := s.posted_postPart w p
      simp only [State.postPart, Prod.mk.injEq] at hpart
      obtain ⟨hlines, -, hrx1, hmem, hout⟩ := hpart
      have hds : ds.length = 64 := State.length_postRead_one (by rw [← hone]; exact hread)
      have hl' := (State.memLost_mapped hmap (spaceOf tg) pa).trans hl
      have hp' := (State.postHit_mapped hmap (spaceOf tg) pa).trans hp
      have hcoord : (s.posted w p).coord = s.coord := congrArg (fun k => k.ctrl.coord) (s.postTaken_lnk w)
      rw [State.runXfer_own (x := s.opened w p) (hdest.trans hcoord.symm) hds (hrx1.trans hrx) hsig (postBad_dst hgood) ((State.xlate_mapped hmap ..).trans hx) htg hl' hp'] at hexec
      have hleft := State.xferEnd_postPart (((s.posted w p).anyPort.2.devWrite (spaceOf tg) pa ((wordsOf ds).flatMap bytesOf) false).tracking []) (s.opened w p) true
      have hlnk := State.devWrite_lnk (s := (s.posted w p).anyPort.2) ((wordsOf ds).flatMap bytesOf) (by exact hp') (by exact hl')
      simp only [State.postPart, Prod.mk.injEq] at hleft
      obtain ⟨hlines2, -, hrx2, hmem2, hout2⟩ := hleft
      refine ⟨_, hexec, ?_, ?_, hrx2, ?_, ?_⟩
      · rw [hlines2]
        exact (congrArg LinkSys.postLines hlnk).trans hlines
      · refine State.xferEnd_last ?_ true
        exact (congrArg LinkSys.xfers hlnk).trans (State.posted_xfers hxf w p)
      · exact hout2.trans ((State.devWrite_outbox ..).trans hout)
      · rw [hmem2, ← bytes_wordsOf (ds := ds) (by omega), ← hmem]
        exact (State.devWrite_bytes _ (by exact hp') (by exact hl') _).trans (if_pos rfl)
end
